-- ==== Sys2Proof/Word.lean ====
section
/-!
DEFINITION. The machine's words: the gloved doubleword (R2), the four engines (R2, R53), and the sorted lists of keyed
data that hold every sparse piece of state.
-/

namespace Sys2Proof

/-- A 64-bit doubleword of data (R2). -/
abbrev Word := BitVec 64

/-- A gloved word: a doubleword with its 8-bit lane check code, 72 bits in all (R2). -/
structure GWord where
  /-- Data bits 63 to 0. -/
  data : BitVec 64
  /-- The lane check code. -/
  glove : BitVec 8
  deriving DecidableEq, Repr

/-- The zero word, whose glove is 0x00 (R89). -/
def GWord.zero : GWord := ⟨0#64, 0#8⟩

/-- The four engines of a tile, in the order of their tags (R53). -/
inductive Eng where
  /-- Scalar, tag 0b00. -/
  | S
  /-- Vector, tag 0b01. -/
  | V
  /-- Matrix, tag 0b10. -/
  | M
  /-- Data, tag 0b11. -/
  | D
  deriving DecidableEq, Repr

/-- The engine tag of R53 as a number. -/
def Eng.tag : Eng → Nat
  | .S => 0
  | .V => 1
  | .M => 2
  | .D => 3

/-- Keyed data: pairs of a key and a value, keys strictly rising. -/
abbrev SMap (α : Type) := List (Nat × α)

end Sys2Proof
end

