-- ==== Sys2Proof/Syntax.lean ====
section
/-!
DEFINITION. The abstract syntax of the Ferlar F24: one constructor for each row of the table of operations and
events. Rows 0 to 213 are the 32-bit words of the Chewald instruction set (R114 to R122), their arguments the word's own
fields; the rows after them are the indivisible steps of the tile's sequencers, the die's units, firmware and the host
(95_what_each_step_holds), their arguments what names the place of the step. `g` is a tile of the package (16 x die + tile),
`d` a die, `i` a place in a list of the state.
-/

namespace Sys2Proof

/-- One indivisible step of the package: an instruction word, or a unit's, firmware's or host's step. -/
inductive Instr where
  /-- ADD (R133). xD := xA + xB modulo 2^64. -/
  | add (d a b : BitVec 6)
  /-- SUB (R133). xD := xA - xB modulo 2^64. -/
  | sub (d a b : BitVec 6)
  /-- AND (R133). bitwise AND of xA and xB. -/
  | and (d a b : BitVec 6)
  /-- OR (R133). bitwise OR of xA and xB. -/
  | or (d a b : BitVec 6)
  /-- XOR (R133). bitwise XOR of xA and xB. -/
  | xor (d a b : BitVec 6)
  /-- ANDN (R133). xA AND NOT xB. -/
  | andn (d a b : BitVec 6)
  /-- ORN (R133). xA OR NOT xB. -/
  | orn (d a b : BitVec 6)
  /-- SLL (R133). shift xA left by xB[5:0]. -/
  | sll (d a b : BitVec 6)
  /-- SRL (R133). logical shift right of xA by xB[5:0]. -/
  | srl (d a b : BitVec 6)
  /-- SRA (R133). arithmetic shift right of xA by xB[5:0]. -/
  | sra (d a b : BitVec 6)
  /-- ROTL (R133). rotate xA left by xB[5:0]. -/
  | rotl (d a b : BitVec 6)
  /-- ROTR (R133). rotate xA right by xB[5:0]. -/
  | rotr (d a b : BitVec 6)
  /-- SLT (R133). 1 if xA < xB signed, else 0. -/
  | slt (d a b : BitVec 6)
  /-- SLTU (R133). 1 if xA < xB unsigned, else 0. -/
  | sltu (d a b : BitVec 6)
  /-- MIN (R133). signed minimum. -/
  | min (d a b : BitVec 6)
  /-- MAX (R133). signed maximum. -/
  | max (d a b : BitVec 6)
  /-- MINU (R133). unsigned minimum. -/
  | minu (d a b : BitVec 6)
  /-- MAXU (R133). unsigned maximum. -/
  | maxu (d a b : BitVec 6)
  /-- MUL (R133). low 64 bits of xA times xB. -/
  | mul (d a b : BitVec 6)
  /-- MULH (R133). high 64 bits of the signed 128-bit product. -/
  | mulh (d a b : BitVec 6)
  /-- MULHU (R133). high 64 bits of the unsigned 128-bit product. -/
  | mulhu (d a b : BitVec 6)
  /-- DIV (R134). signed quotient truncated toward zero, never trapping. -/
  | div (d a b : BitVec 6)
  /-- DIVU (R134). unsigned quotient, never trapping. -/
  | divu (d a b : BitVec 6)
  /-- REM (R134). signed remainder with the sign of the dividend. -/
  | rem (d a b : BitVec 6)
  /-- REMU (R134). unsigned remainder. -/
  | remu (d a b : BitVec 6)
  /-- CSEL (R133). xD := xA if xB is nonzero, else old xD. -/
  | csel (d a b : BitVec 6)
  /-- CLZ (R135). count leading zero bits of xA. -/
  | clz (d a : BitVec 6)
  /-- CTZ (R135). count trailing zero bits of xA. -/
  | ctz (d a : BitVec 6)
  /-- POPC (R135). count one bits of xA. -/
  | popc (d a : BitVec 6)
  /-- SEXT_B (R135). sign-extend the low byte of xA. -/
  | sextB (d a : BitVec 6)
  /-- SEXT_H (R135). sign-extend the low half of xA. -/
  | sextH (d a : BitVec 6)
  /-- SEXT_W (R135). sign-extend the low word of xA. -/
  | sextW (d a : BitVec 6)
  /-- ZEXT_B (R135). zero-extend the low byte of xA. -/
  | zextB (d a : BitVec 6)
  /-- ZEXT_H (R135). zero-extend the low half of xA. -/
  | zextH (d a : BitVec 6)
  /-- ZEXT_W (R135). zero-extend the low word of xA. -/
  | zextW (d a : BitVec 6)
  /-- BEXT (R136). extract a bit field of xA, zero-extended. -/
  | bext (d a w l : BitVec 6)
  /-- BINS (R136). insert the low bits of xA into a field of xD. -/
  | bins (d a w l : BitVec 6)
  /-- ADDI (R137). add a sign-extended 12-bit immediate. -/
  | addi (d a : BitVec 6) (i : BitVec 12)
  /-- ANDI (R137). AND with a zero-extended immediate. -/
  | andi (d a : BitVec 6) (i : BitVec 12)
  /-- ORI (R137). OR with a zero-extended immediate. -/
  | ori (d a : BitVec 6) (i : BitVec 12)
  /-- XORI (R137). XOR with a zero-extended immediate. -/
  | xori (d a : BitVec 6) (i : BitVec 12)
  /-- SLTI (R137). signed compare with a sign-extended immediate. -/
  | slti (d a : BitVec 6) (i : BitVec 12)
  /-- SLTIU (R137). unsigned compare with a sign-extended immediate. -/
  | sltiu (d a : BitVec 6) (i : BitVec 12)
  /-- SLLI (R137). shift left by an immediate. -/
  | slli (d a s : BitVec 6)
  /-- SRLI (R137). logical shift right by an immediate. -/
  | srli (d a s : BitVec 6)
  /-- SRAI (R137). arithmetic shift right by an immediate. -/
  | srai (d a s : BitVec 6)
  /-- LIH (R138). shift xD left 18 and insert an 18-bit immediate. -/
  | lih (d : BitVec 6) (i : BitVec 18)
  /-- GETW (R139). extract one work-identifier level field under WIDSPLIT. -/
  | getw (d a : BitVec 6) (l : BitVec 12)
  /-- LD_B (R141). load a sign-extended byte. -/
  | ldB (d a : BitVec 6) (o : BitVec 12)
  /-- LD_BU (R141). load a zero-extended byte. -/
  | ldBu (d a : BitVec 6) (o : BitVec 12)
  /-- LD_H (R141). load a sign-extended half. -/
  | ldH (d a : BitVec 6) (o : BitVec 12)
  /-- LD_HU (R141). load a zero-extended half. -/
  | ldHu (d a : BitVec 6) (o : BitVec 12)
  /-- LD_W (R141). load a sign-extended word. -/
  | ldW (d a : BitVec 6) (o : BitVec 12)
  /-- LD_WU (R141). load a zero-extended word. -/
  | ldWu (d a : BitVec 6) (o : BitVec 12)
  /-- LD_D (R141). load a doubleword with its glove unchanged. -/
  | ldD (d a : BitVec 6) (o : BitVec 12)
  /-- ST (R142). store a whole doubleword with its glove. -/
  | st (d a : BitVec 6) (o : BitVec 12)
  /-- LDP (R143). load two doublewords into an even register pair. -/
  | ldp (d a : BitVec 6) (o : BitVec 12)
  /-- STP (R143). store two doublewords from an even register pair. -/
  | stp (d a : BitVec 6) (o : BitVec 12)
  /-- PF_R (R144). read prefetch hint, never faulting. -/
  | pfR (a : BitVec 6) (o : BitVec 12)
  /-- PF_W (R144). write prefetch hint, never faulting. -/
  | pfW (a : BitVec 6) (o : BitVec 12)
  /-- PUT_V (R60). S pushes xA into V's operand queue for an s or V control register. -/
  | putV (d a : BitVec 6)
  /-- PUT_M (R60). S pushes xA into M's operand queue for a c register. -/
  | putM (d a : BitVec 6)
  /-- PUT_D (R60). S pushes xA into D's operand queue for an a or D control register. -/
  | putD (d a : BitVec 6)
  /-- GET (R62). S pops the return queue into xD, waiting or raising QDEAD. -/
  | get (d : BitVec 6)
  /-- EWAIT (R157). S pops the oldest event record into xD, acquiring as R110 states. -/
  | ewait (d : BitVec 6)
  /-- EPEEK (R157). S copies the oldest event record, or 0, without popping. -/
  | epeek (d : BitVec 6)
  /-- MCALL (R65). Joint: S pushes an entry number and three parameters for microprogram expansion. -/
  | mcall (d a b k : BitVec 6)
  /-- MDEF (R159). Joint: loads a control-store entry from a microprogram image. -/
  | mdef (k a : BitVec 6) (o : BitVec 12)
  /-- AMO_ADD (R145). Atomic add at the word's home with ordering and scope. -/
  | amoAdd (d a b : BitVec 6) (o s : BitVec 3)
  /-- AMO_AND (R145). Atomic AND. -/
  | amoAnd (d a b : BitVec 6) (o s : BitVec 3)
  /-- AMO_OR (R145). Atomic OR. -/
  | amoOr (d a b : BitVec 6) (o s : BitVec 3)
  /-- AMO_XOR (R145). Atomic XOR. -/
  | amoXor (d a b : BitVec 6) (o s : BitVec 3)
  /-- AMO_MIN (R145). Atomic signed minimum. -/
  | amoMin (d a b : BitVec 6) (o s : BitVec 3)
  /-- AMO_MAX (R145). Atomic signed maximum. -/
  | amoMax (d a b : BitVec 6) (o s : BitVec 3)
  /-- AMO_MINU (R145). Atomic unsigned minimum. -/
  | amoMinu (d a b : BitVec 6) (o s : BitVec 3)
  /-- AMO_MAXU (R145). Atomic unsigned maximum. -/
  | amoMaxu (d a b : BitVec 6) (o s : BitVec 3)
  /-- AMO_SWAP (R145). Atomic swap. -/
  | amoSwap (d a b : BitVec 6) (o s : BitVec 3)
  /-- CAS (R147). Compare-and-set of one doubleword, returning the old value. -/
  | cas (d a b : BitVec 6) (o s : BitVec 3)
  /-- FENCE (R107). Joint fence with ordering and scope, with tile-cache actions. -/
  | fence (o s : BitVec 3)
  /-- FENCE_DRAIN (R107). Joint fence waiting for every access and D command, writing back and invalidating the tile cache. -/
  | fenceDrain
  /-- IFENCE (R149). Joint: discards the instruction cache and words fetched beyond it. -/
  | ifence
  /-- SPAWN (R160). Reads a continuation record and enqueues it on a die, releasing earlier stores. -/
  | spawn (a b : BitVec 6)
  /-- TAIL (R35). Joint: ends the task once all engines reach it, waiting for its work to complete. -/
  | tail
  /-- YIELD (R161). Joint: if a pre-emption request is pending, saves the task at the next word. -/
  | yield
  /-- POLL (R161). Writes 1 to xD while a pre-emption request is pending, else 0. -/
  | poll (d : BitVec 6)
  /-- ADOPT (R264). Decides whether to switch versions and returns the weight base of the held entry. -/
  | adopt (d a b : BitVec 6)
  /-- SYS (R166). Completes and traps to supervisor with cause SYS. -/
  | sys
  /-- BRK (R166). Completes and traps with BRK, or stops the tile for the debugger. -/
  | brk
  /-- ERET (R358). Returns from a supervisor trap to TEPC. -/
  | eret
  /-- URET (R362). Returns from a task-level fault handler, re-executing the faulting word. -/
  | uret
  /-- RESUME (R358). Settles pending scoreboard entries and returns to the task. -/
  | resume
  /-- TLBINV (R168). Starts invalidation of translations in the tile's die or the package. -/
  | tlbinv (a b : BitVec 6)
  /-- HALT (R366). Stops all four engines and notifies firmware. -/
  | halt
  /-- BEQ (R151). Joint branch if equal. -/
  | beq (a b : BitVec 6) (o : BitVec 12)
  /-- BNE (R151). Joint branch if not equal. -/
  | bne (a b : BitVec 6) (o : BitVec 12)
  /-- BLT (R151). Joint branch if less, signed. -/
  | blt (a b : BitVec 6) (o : BitVec 12)
  /-- BGE (R151). Joint branch if greater or equal, signed. -/
  | bge (a b : BitVec 6) (o : BitVec 12)
  /-- BLTU (R151). Joint branch if less, unsigned. -/
  | bltu (a b : BitVec 6) (o : BitVec 12)
  /-- BGEU (R151). Joint branch if greater or equal, unsigned. -/
  | bgeu (a b : BitVec 6) (o : BitVec 12)
  /-- BP (R152). Joint branch when predicate slot pK observes true. -/
  | bp (k : BitVec 6) (o : BitVec 12)
  /-- BP_NOT (R152). Joint branch when predicate slot pK observes false. -/
  | bpNot (k : BitVec 6) (o : BitVec 12)
  /-- J (R153). Joint jump by an 18-bit word offset. -/
  | j (o : BitVec 18)
  /-- JAL (R153). Joint jump writing the return address. -/
  | jal (d : BitVec 6) (o : BitVec 18)
  /-- JALR (R153). Joint jump to a computed address, writing the return address. -/
  | jalr (d a : BitVec 6) (i : BitVec 12)
  /-- JTAB (R154). Joint jump through a table entry selected by xA. -/
  | jtab (d a : BitVec 6) (l : BitVec 12)
  /-- LOOP (R155). Joint: decrements xA and branches while nonzero. -/
  | loop (a : BitVec 6) (o : BitVec 12)
  /-- CSRR (R162). Reads a CSR into xD. -/
  | csrr (d : BitVec 6) (c : BitVec 12)
  /-- CSRW (R162). Writes a CSR from xA, returning the old value. -/
  | csrw (d a : BitVec 6) (c : BitVec 12)
  /-- CSRS (R162). Sets CSR bits from xA, returning the old value. -/
  | csrs (d a : BitVec 6) (c : BitVec 12)
  /-- CSRC (R162). Clears CSR bits from xA, returning the old value. -/
  | csrc (d a : BitVec 6) (c : BitVec 12)
  /-- VADD (R176). V element-wise add. -/
  | vadd (g : BitVec 4) (d a b : BitVec 5) (m t : BitVec 3)
  /-- VSUB (R176). V element-wise subtract. -/
  | vsub (g : BitVec 4) (d a b : BitVec 5) (m t : BitVec 3)
  /-- VMUL (R176). V element-wise multiply. -/
  | vmul (g : BitVec 4) (d a b : BitVec 5) (m t : BitVec 3)
  /-- VFMA (R176). V fused multiply-add into VD. -/
  | vfma (g : BitVec 4) (d a b : BitVec 5) (m t : BitVec 3)
  /-- VFMS (R176). V fused multiply-subtract from VD. -/
  | vfms (g : BitVec 4) (d a b : BitVec 5) (m t : BitVec 3)
  /-- VMAX (R176). V element-wise maximum. -/
  | vmax (g : BitVec 4) (d a b : BitVec 5) (m t : BitVec 3)
  /-- VMIN (R176). V element-wise minimum. -/
  | vmin (g : BitVec 4) (d a b : BitVec 5) (m t : BitVec 3)
  /-- VABS (R177). V absolute value. -/
  | vabs (g : BitVec 4) (d a : BitVec 5) (m t : BitVec 3)
  /-- VNEG (R177). V negation. -/
  | vneg (g : BitVec 4) (d a : BitVec 5) (m t : BitVec 3)
  /-- VRCP (R178). V correctly rounded reciprocal. -/
  | vrcp (g : BitVec 4) (d a : BitVec 5) (m t : BitVec 3)
  /-- VRSQRT (R178). V correctly rounded reciprocal square root. -/
  | vrsqrt (g : BitVec 4) (d a : BitVec 5) (m t : BitVec 3)
  /-- VSQRT (R178). V correctly rounded square root. -/
  | vsqrt (g : BitVec 4) (d a : BitVec 5) (m t : BitVec 3)
  /-- VEXP2 (R178). V correctly rounded 2^a. -/
  | vexp2 (g : BitVec 4) (d a : BitVec 5) (m t : BitVec 3)
  /-- VLOG2 (R178). V correctly rounded log2. -/
  | vlog2 (g : BitVec 4) (d a : BitVec 5) (m t : BitVec 3)
  /-- VRND (R179). V round to integral value under VRM.RM. -/
  | vrnd (g : BitVec 4) (d a : BitVec 5) (m t : BitVec 3)
  /-- VNOT (R177). V bitwise NOT. -/
  | vnot (g : BitVec 4) (d a : BitVec 5) (m t : BitVec 3)
  /-- VMOV (R177). V moves lane words unchanged. -/
  | vmov (g : BitVec 4) (d a : BitVec 5) (m t : BitVec 3)
  /-- VCVT (R181). V converts elements between types under VRM and its saturation code. -/
  | vcvt (g : BitVec 4) (d a : BitVec 5) (s : BitVec 2) (e m t : BitVec 3)
  /-- VAND (R180). V bitwise AND. -/
  | vand (g : BitVec 4) (d a b : BitVec 5) (m t : BitVec 3)
  /-- VOR (R180). V bitwise OR. -/
  | vor (g : BitVec 4) (d a b : BitVec 5) (m t : BitVec 3)
  /-- VXOR (R180). V bitwise XOR. -/
  | vxor (g : BitVec 4) (d a b : BitVec 5) (m t : BitVec 3)
  /-- VSLL (R180). V shift left. -/
  | vsll (g : BitVec 4) (d a b : BitVec 5) (m t : BitVec 3)
  /-- VSRL (R180). V logical shift right. -/
  | vsrl (g : BitVec 4) (d a b : BitVec 5) (m t : BitVec 3)
  /-- VSRA (R180). V arithmetic shift right. -/
  | vsra (g : BitVec 4) (d a b : BitVec 5) (m t : BitVec 3)
  /-- VADDSAT (R180). V saturating signed add. -/
  | vaddsat (g : BitVec 4) (d a b : BitVec 5) (m t : BitVec 3)
  /-- VCMP_EQ (R183). V compare equal into a mask. -/
  | vcmpEq (g : BitVec 4) (d : BitVec 3) (a b : BitVec 5) (m t : BitVec 3)
  /-- VCMP_NE (R183). V compare not equal into a mask. -/
  | vcmpNe (g : BitVec 4) (d : BitVec 3) (a b : BitVec 5) (m t : BitVec 3)
  /-- VCMP_LT (R183). V compare less than into a mask. -/
  | vcmpLt (g : BitVec 4) (d : BitVec 3) (a b : BitVec 5) (m t : BitVec 3)
  /-- VCMP_LE (R183). V compare less or equal into a mask. -/
  | vcmpLe (g : BitVec 4) (d : BitVec 3) (a b : BitVec 5) (m t : BitVec 3)
  /-- VSEL (R184). V selects each lane from VA or VB by mask. -/
  | vsel (g : BitVec 4) (d a b : BitVec 5) (m t : BitVec 3)
  /-- MAND (R185). Mask AND. -/
  | mand (g : BitVec 4) (d a b : BitVec 5)
  /-- MOR (R185). Mask OR. -/
  | mor (g : BitVec 4) (d a b : BitVec 5)
  /-- MXOR (R185). Mask XOR. -/
  | mxor (g : BitVec 4) (d a b : BitVec 5)
  /-- MNOT (R185). Mask NOT. -/
  | mnot (g : BitVec 4) (d a : BitVec 5)
  /-- MPOP (R185). Counts set bits of a mask into an s register. -/
  | mpop (g : BitVec 4) (d a : BitVec 5)
  /-- MFIRST (R185). Index of the lowest set mask bit, or 128. -/
  | mfirst (g : BitVec 4) (d a : BitVec 5)
  /-- VBCAST (R187). Broadcasts an s register into the active lanes. -/
  | vbcast (g : BitVec 4) (d a : BitVec 5) (m t : BitVec 3)
  /-- VPERM (R188). Permutes elements by an index register. -/
  | vperm (g : BitVec 4) (d a b : BitVec 5) (m t : BitVec 3)
  /-- VSLIDE (R189). Slides elements by a signed count, zero-filling. -/
  | vslide (g : BitVec 4) (d a b : BitVec 5) (m t : BitVec 3)
  /-- VEXT (R190). Copies one lane into an s register. -/
  | vext (g : BitVec 4) (d a b : BitVec 5)
  /-- VINS (R190). Copies an s register into one lane. -/
  | vins (g : BitVec 4) (d a b : BitVec 5)
  /-- VREDSUM (R191). Pairwise-tree sum reduction. -/
  | vredsum (g : BitVec 4) (d a : BitVec 5) (m t : BitVec 3)
  /-- VREDMAX (R191). Tree maximum reduction. -/
  | vredmax (g : BitVec 4) (d a : BitVec 5) (m t : BitVec 3)
  /-- VREDMIN (R191). Tree minimum reduction. -/
  | vredmin (g : BitVec 4) (d a : BitVec 5) (m t : BitVec 3)
  /-- VSCAN (R191). Inclusive prefix sum in ascending element order. -/
  | vscan (g : BitVec 4) (d a : BitVec 5) (m t : BitVec 3)
  /-- VDOT (R192). Dot-lane products accumulated into FP32 element 0 of each lane. -/
  | vdot (g : BitVec 4) (d a b : BitVec 5) (m t : BitVec 3)
  /-- VLD (R197). Loads a vector from scratchpad, converting per bank format. -/
  | vld (g : BitVec 4) (d : BitVec 5) (s : BitVec 4) (o : BitVec 6) (m t : BitVec 3)
  /-- VST (R197). Stores a vector to scratchpad, converting per bank format. -/
  | vst (g : BitVec 4) (d : BitVec 5) (s : BitVec 4) (o : BitVec 6) (m t : BitVec 3)
  /-- VGTH (R199). Gathers 64-bit words from scratchpad by index. -/
  | vgth (g : BitVec 4) (d : BitVec 5) (s : BitVec 4) (o : BitVec 6) (m t : BitVec 3)
  /-- VSCT (R199). Scatters 64-bit words to scratchpad by index. -/
  | vsct (g : BitVec 4) (d : BitVec 5) (s : BitVec 4) (o : BitVec 6) (m t : BitVec 3)
  /-- VLDM (R200). Loads lanes from virtual memory unchanged. -/
  | vldm (g : BitVec 4) (d : BitVec 5) (s : BitVec 4) (o : BitVec 6) (m t : BitVec 3)
  /-- VSTM (R200). Stores lanes to virtual memory, or posts remote writes through a window. -/
  | vstm (g : BitVec 4) (d : BitVec 5) (s : BitVec 4) (o : BitVec 6) (m t : BitVec 3)
  /-- VTOPK (R193). Ranks 256 FP32 elements and keeps the top k values and indices. -/
  | vtopk (g d a b : BitVec 4) (k : BitVec 6)
  /-- VGMAX (R196). Gumbel-max sampling over logits, giving a (score, index) word. -/
  | vgmax (g d a b : BitVec 4)
  /-- VRNG (R195). Fills registers with Philox draws. -/
  | vrng (g d a b : BitVec 4) (n : BitVec 6)
  /-- ATTG (R253). Streams the listed key-value pages and computes attention output. -/
  | attg (g d a b : BitVec 4) (m : BitVec 1)
  /-- VDEFER (R202). Appends one entry per active lane to the deferral queue. -/
  | vdefer (g a b : BitVec 4)
  /-- VREDEEM (R203). Pops up to 128 deferral entries into lanes and a mask. -/
  | vredeem (g d b : BitVec 4)
  /-- VPSET (R186). Writes a predicate slot from a mask condition. -/
  | vpset (g d a : BitVec 4) (c : BitVec 6)
  /-- VPUT (R204). Pushes an s register into the return queue. -/
  | vput (g a : BitVec 4)
  /-- VPUT_VCR (R204). Pushes a V control register's defined fields into the return queue. -/
  | vputVcr (g : BitVec 4) (r : BitVec 5)
  /-- NSET_COUNT (R205). Writes a level's iteration count into the shadow nest table. -/
  | nsetCount (g : BitVec 4) (l : BitVec 3) (s : BitVec 4)
  /-- NSET_SA (R205). Writes a level's A stride. -/
  | nsetSa (g : BitVec 4) (l : BitVec 3) (s : BitVec 4)
  /-- NSET_SB (R205). Writes a level's B stride. -/
  | nsetSb (g : BitVec 4) (l : BitVec 3) (s : BitVec 4)
  /-- NSET_SC (R205). Writes a level's C stride. -/
  | nsetSc (g : BitVec 4) (l : BitVec 3) (s : BitVec 4)
  /-- NSET_KIND (R205). Writes a level's kind K, OUT or SKIP. -/
  | nsetKind (g : BitVec 4) (l : BitVec 3) (s : BitVec 4)
  /-- NBASE_A (R205). Writes ABASE. -/
  | nbaseA (g s : BitVec 4)
  /-- NBASE_B (R205). Writes BBASE. -/
  | nbaseB (g s : BitVec 4)
  /-- NBASE_C (R205). Writes CBASE. -/
  | nbaseC (g s : BitVec 4)
  /-- NFMT (R206). Writes the nest format word. -/
  | nfmt (g s : BitVec 4)
  /-- NGO (R211). Checks the shadow table, copies it to the active table and starts the nest. -/
  | ngo (g : BitVec 4)
  /-- NDRAIN (R217). Drains the active accumulators to the own scratchpad. -/
  | ndrain (g s f : BitVec 4) (r : BitVec 3) (t : BitVec 2) (b : BitVec 4)
  /-- NZERO (R218). Sets every accumulator to +0. -/
  | nzero (g : BitVec 4)
  /-- NLOAD (R218). Loads accumulators from the own scratchpad. -/
  | nload (g s f : BitVec 4)
  /-- NWAIT (R219). Requests an M event record after every earlier M word completes. -/
  | nwait (g : BitVec 4) (t : BitVec 9)
  /-- DCP (R222). D copy along one dimension, converting per R82. -/
  | dcp (g d a b f : BitVec 4) (r : BitVec 3) (s e : BitVec 1)
  /-- DCP2 (R222). D copy along two dimensions. -/
  | dcp2 (g d a b f : BitVec 4) (r : BitVec 3) (s e : BitVec 1)
  /-- DCPN (R222). D copy along 1 + NDIM dimensions. -/
  | dcpn (g d a b f : BitVec 4) (r : BitVec 3) (s e : BitVec 1)
  /-- DGTH (R226). D gather of indexed rows. -/
  | dgth (g d a b f : BitVec 4) (r : BitVec 3) (s e : BitVec 1)
  /-- DSCT (R226). D scatter of rows to indexed places. -/
  | dsct (g d a b f : BitVec 4) (r : BitVec 3) (s e : BitVec 1)
  /-- DFILL (R227). D writes L copies of one word. -/
  | dfill (g d a b : BitVec 4) (e : BitVec 1)
  /-- DEVT (R228). Requests a record once every earlier D command has completed at scope. -/
  | devt (g : BitVec 4) (t : BitVec 9) (s : BitVec 3)
  /-- DWIN (R277). Binds or unbinds a remote window to a grant handle. -/
  | dwin (g a w : BitVec 4)
  /-- DSPAN (R282). Opens a new counted generation on a window. -/
  | dspan (g w : BitVec 4)
  /-- DSPAN_RETRY (R282). Reopens the oldest broken generation with the next attempt. -/
  | dspanRetry (g w : BitVec 4)
  /-- DKEY (R285). Sends the keystone of the open generation. -/
  | dkey (g d a b w : BitVec 4)
  /-- DCOLL_RS (R296). Collective reduce-scatter in block-scaled E4M3. -/
  | dcollRs (g d a b : BitVec 4)
  /-- DCOLL_AG (R298). Collective all-gather. -/
  | dcollAg (g d a b : BitVec 4)
  /-- DCOLL_AR (R298). Collective all-reduce. -/
  | dcollAr (g d a b : BitVec 4)
  /-- DCOLL_SMAX (R298). Collective sampling maximum of (score, index) words. -/
  | dcollSmax (g d a b : BitVec 4)
  /-- DCOLL_BC (R298). Collective broadcast from ROOT. -/
  | dcollBc (g d a b : BitVec 4)
  /-- KVLOOK (R244). Maps a token position to its page and slot. -/
  | kvlook (g d a b : BitVec 4) (e : BitVec 1)
  /-- KVAPP (R245). Appends one token, copying or faulting on a shared page. -/
  | kvapp (g d a b : BitVec 4) (e : BitVec 1)
  /-- KVFORK (R246). Gives a child record the parent's pages, raising REF. -/
  | kvfork (g d a b : BitVec 4) (e : BitVec 1)
  /-- KVFORK_UNSHARE (R246). Takes a private copy of a shared last page. -/
  | kvforkUnshare (g a b : BitVec 4) (e : BitVec 1)
  /-- KVREL (R247). Releases every page of a record. -/
  | kvrel (g a b : BitVec 4) (e : BitVec 1)
  /-- KVCOMMIT (R247). Sets CLEN. -/
  | kvcommit (g a b : BitVec 4) (e : BitVec 1)
  /-- KVTRUNC (R247). Truncates WLEN and releases pages past it. -/
  | kvtrunc (g a b : BitVec 4) (e : BitVec 1)
  /-- KVINS (R248). Inserts a prefix-index bucket entry. -/
  | kvins (g d a b : BitVec 4) (e : BitVec 1)
  /-- KVRECAP (R248). Recomputes every cap of a sequence. -/
  | kvrecap (g a b : BitVec 4) (e : BitVec 1)
  /-- CAPSEL (R250). Ranks pages by cap bounds and writes a top-N list. -/
  | capsel (g d a b : BitVec 4) (e : BitVec 1)
  /-- CAPSEL_THR (R250). Lists pages whose bound meets a threshold. -/
  | capselThr (g d a b : BitVec 4) (e : BitVec 1)
  /-- RELV (R267). Publishes a BUILDING entry as the current version after earlier D work. -/
  | relv (g a b : BitVec 4)
  /-- TREC (R271). Writes trajectory records to a ring, stamping WVER. -/
  | trec (g a b : BitVec 4) (r : BitVec 2) (e : BitVec 1)
  /-- WORD_STEP_OVER (R53). An engine passes a word not tagged for it with no effect beyond the fetch. -/
  | wordStepOver (g : Nat) (e : Eng)
  /-- JOINT_OUTCOME_POP (R58). V, M or D reaches a joint branch or mcall and pops its outcome. -/
  | jointOutcomePop (g : Nat) (e : Eng)
  /-- OPERAND_QUEUE_POP (R61). The target engine passes a put word and writes its register from the operand queue. -/
  | operandQueuePop (g : Nat) (e : Eng)
  /-- GUARD_RESOLVE (R63). A guarded word's vpset has been performed and the word runs or is suppressed. -/
  | guardResolve (g : Nat) (e : Eng)
  /-- ICACHE_FILL (R93). The fetch unit fills the instruction cache, checking each 64-bit pair. -/
  | icacheFill (g pa : Nat)
  /-- TASK_START (R29). An idle tile pops a record and starts a task with its initial state. -/
  | taskStart (g : Nat)
  /-- GANG_START (R48). All four tiles of the reserved cluster are idle and the gang's members start together. -/
  | gangStart (d c : Nat)
  /-- EXPANDER_ENQUEUE (R45). The expander adds the next launch record to the pool when room allows. -/
  | expanderEnqueue (d : Nat)
  /-- SPILL_REFILL (R394). With occupancy below 3,840, the oldest spilled record moves into the pool. -/
  | spillRefill (d : Nat) (side : Bool)
  /-- AGING_PROMOTION (R51). A head record reaching AGE counted pops moves up one level. -/
  | agingPromotion (d : Nat) (side : Bool) (level : Nat)
  /-- TASK_END (R35). After tail's waits, the register file and task slot are freed. -/
  | taskEnd (g : Nat)
  /-- JOIN_STEP (R36). Once tracked operations are performed, COUNT is decremented and the join record may be enqueued. -/
  | joinStep (d : Nat)
  /-- TRAP_ENTRY (R356). The lowest fault is taken once lower words pass their trap points: engines stop and trap registers are written. -/
  | trapEntry (g : Nat)
  /-- TLB_WALK (R370). The die walker translates a TLB miss through the four-level table. -/
  | tlbWalk (g : Nat) (va : BitVec 64)
  /-- TLBINV_COMPLETE (R377). Every TLB and walker in the extent has dropped entries; the record is posted or the wait ends. -/
  | tlbinvComplete (g : Nat)
  /-- NEST_BODY_STEP (R209). The nest performs one body step on A and B panels. -/
  | nestBodyStep (g : Nat)
  /-- NEST_HOLD_RETRY (R214). The hold service retries the fetch; on success the pipelines resume. -/
  | nestHoldRetry (g : Nat)
  /-- NEST_HOLD_TIMEOUT (R215). A hold exceeding 65,536 cycles ends the nest with a late trap. -/
  | nestHoldTimeout (g : Nat)
  /-- NWAIT_POST (R219). Once earlier M words complete, the nwait event record is posted. -/
  | nwaitPost (g : Nat)
  /-- COPY_PIECE_DONE (R225). One piece of a copy completes its reads and writes. -/
  | copyPieceDone (g i : Nat)
  /-- COPY_COMPLETE (R224). Every write of a copy is performed and its record is posted. -/
  | copyComplete (g i : Nat)
  /-- DEVT_POST (R228). Every D command below devt has completed at scope and its record is posted. -/
  | devtPost (g i : Nat)
  /-- KV_STEP (R233). The pool controller performs one key-value step or piece. -/
  | kvStep (g i : Nat)
  /-- ATTG_COMPLETE (R254). attg finishes its stream and writes its output. -/
  | attgComplete (g : Nat)
  /-- ADOPT_SWITCH_STEP (R264). After its wait, a switching adopt pins the current entry and unpins the old one. -/
  | adoptSwitchStep (g : Nat)
  /-- RELV_PORT_STEP (R267). After relv's wait, the port releases the entry as the new version. -/
  | relvPortStep (g i : Nat)
  /-- TREC_RECORD_WRITE (R271). The recorder writes one record, waiting while the ring is full. -/
  | trecRecordWrite (g i : Nat)
  /-- ROUTER_FORWARD (R442). A router forwards a packet by dimension order, marking it under congestion. -/
  | routerForward (i : Nat) (congested : Bool)
  /-- PACKET_AGE_DISCARD (R275). A router discards a packet older than its lifetime. -/
  | packetAgeDiscard (i : Nat)
  /-- LINK_FAILURE (R442). A link fails; packets on it are lost and firmware installs detours. -/
  | linkFailure (d1 d2 : Nat)
  /-- WINDOW_PACKET_HANDOFF (R278). A window packet is handed to the first link when the allowance permits. -/
  | windowPacketHandoff (g w : Nat)
  /-- REMOTE_REQUEST_ARRIVAL (R279). A remote request is performed at the target bank and answered on VC1. -/
  | remoteRequestArrival (i : Nat)
  /-- REMOTE_RESPONSE_ARRIVAL (R279). A response completes its remote load or atomic, or is filed in a saved image. -/
  | remoteResponseArrival (i : Nat)
  /-- REMOTE_REQUEST_TIMEOUT (R279). No response within 100 µs raises FAB or files a timeout. -/
  | remoteRequestTimeout (g i : Nat)
  /-- POSTED_WRITE_ARRIVAL (R280). A posted write packet is written at the target or refused. -/
  | postedWriteArrival (i : Nat)
  /-- COUNTED_PACKET_ARRIVAL (R286). A counted packet is counted against its generation and attempt at the pier. -/
  | countedPacketArrival (i : Nat)
  /-- KEYSTONE_ARRIVAL (R286). A keystone is held, matched, answered or discarded at the pier. -/
  | keystoneArrival (i : Nat)
  /-- REOPEN_NOTE_ARRIVAL (R286). A reopen note acts at the pier as a packet of zero words. -/
  | reopenNoteArrival (i : Nat)
  /-- PIER_PTO_EXPIRY (R287). A held keystone unmatched within PTO yields a resend request. -/
  | pierPtoExpiry (d p : Nat)
  /-- RESEND_REQUEST_RECEIPT (R287). The sender replays counted copies or breaks the generation. -/
  | resendRequestReceipt (i : Nat)
  /-- CLOSE_NOTE_RECEIPT (R285). The sender closes the generation and dkey posts its record. -/
  | closeNoteReceipt (i : Nat)
  /-- KEYSTONE_RESEND_TIMEOUT (R288). With no answer within PTO + 100 µs, D sends the keystone again. -/
  | keystoneResendTimeout (g w : Nat)
  /-- CONGESTION_NOTE_RECEIPT (R291). The source die's rate limiter toward that target is multiplied by 7/8. -/
  | congestionNoteReceipt (i : Nat)
  /-- RATE_LIMIT_RECOVERY (R291). Each quiet 8 µs raises the limiter by 1/64. -/
  | rateLimitRecovery (d target : Nat)
  /-- DCOLL_PACKET_ARRIVAL (R296). The collective unit receives blocks, adds its contribution and sends on. -/
  | dcollPacketArrival (i : Nat)
  /-- SCHED_PREEMPT_REQUEST (R399). A head record waiting PQT µs raises a scheduler pre-emption request. -/
  | schedPreemptRequest (d : Nat) (side : Bool)
  /-- FIRMWARE_PREEMPT (R399). A PCMD write with GO raises firmware pre-emption on the selected tiles. -/
  | firmwarePreempt (d : Nat) (w : BitVec 64)
  /-- FIRMWARE_STOP_RELEASE (R401). A PCMD write with REL ends the firmware stop of the selected tiles. -/
  | firmwareStopRelease (d : Nat) (w : BitVec 64)
  /-- FORCED_CUT (R402). PWIN expiry stops the tile and brings issued work to its stop points. -/
  | forcedCut (g : Nat)
  /-- IMAGE_SAVE_COMPLETE (R403). The image is written and a resume record or export entry is made. -/
  | imageSaveComplete (g : Nat)
  /-- CONTEXT_RESTORE (R406). A tile popping a resume record restores the image and restarts the engines. -/
  | contextRestore (g : Nat)
  /-- RESUME_INJECT (R407). A RINJ write places a resume record for an image slot. -/
  | resumeInject (d : Nat) (w : BitVec 64)
  /-- EXPQ_POP (R392). A read of EXPQ with VALID pops an exported slot. -/
  | expqPop (d : Nat)
  /-- BRIM_MOVE_START (R409). A BMOV.TARGET write starts a brim move, or is refused. -/
  | brimMoveStart (d : Nat) (w : BitVec 64)
  /-- BRIM_STAGE_ADVANCE (R409). A brim move passes from stage 1 to 2 or from 2 to 3. -/
  | brimStageAdvance (d : Nat)
  /-- BRIM_MOVE_COMMIT (R409). A BMOV.COMMIT write sets the new BRIM and moving tiles pop their new side. -/
  | brimMoveCommit (d : Nat)
  /-- BMOV_ERR_CLEAR (R392). Writing 1 to BMOV.ERR clears it. -/
  | bmovErrClear (d : Nat)
  /-- HOLD_WRITE (R387). Setting or clearing a HOLD bit holds or releases accesses needing that table. -/
  | holdWrite (d : Nat) (w : BitVec 64)
  /-- FIRMWARE_CSR_WRITE (R412). Firmware writes a tile CSR through the management path, refused unless the tile is idle or stopped. -/
  | firmwareCsrWrite (g : Nat) (c : BitVec 12) (w : BitVec 64)
  /-- KVREP_WRITE (R419). A KVREP write adds a damaged slot to a pool's damage list, or sets ERR. -/
  | kvrepWrite (d : Nat) (w : BitVec 64)
  /-- KVREP_ERR_CLEAR (R413). Writing 1 to KVREP.ERR clears it. -/
  | kvrepErrClear (d : Nat)
  /-- TILE_RETIRE (R416). Setting a TRET bit retires the tile and moves stranded gang units. -/
  | tileRetire (d : Nat) (w : BitVec 64)
  /-- DEBUG_MODE_WRITE (R422). A DBGCTL.MODE write sets the debug mode or is refused. -/
  | debugModeWrite (d : Nat) (w : BitVec 64)
  /-- REGISTER_WRITE (R8). A write to a register with no row of its own updates its RW fields. -/
  | registerWrite (d off : Nat) (cls : Nat) (w : BitVec 64)
  /-- HBM_SCRUB (R414). The HBM controller scrubs a word, correcting or logging it. -/
  | hbmScrub (pa : Nat)
  /-- SELFTEST_RUN (R415). A unit runs background self-test; a failure freezes a tile or is fatal. -/
  | selftestRun (d u : Nat) (pass : Bool)
  /-- SELFTEST_FORCED_SLOT (R415). A unit with no idle cycle for 1 ms takes a forced 64-cycle slot. -/
  | selftestForcedSlot (d u : Nat)
  /-- FIRMWARE_HALT_HANDLING (R417). Firmware images a halted tile's task to the export queue and returns the tile to idle. -/
  | firmwareHaltHandling (g : Nat)
  /-- STATE_FUSE_BURN (R422). Burning the state fuse moves Manufacturing to Secured. -/
  | stateFuseBurn
  /-- DEBUG_UNLOCK (R422). A token, signed by a vendor key over the nonce it names, that enters Debug-Unlocked at the next reset; or,
  with none, the withdrawal of the unlock. -/
  | debugUnlock (token : Option (BitVec 64))
  /-- DEBUGGER_CONTINUE (R423). The debugger lets a brk-stopped tile continue. -/
  | debuggerContinue (g : Nat)
  /-- GET_VERSION (R424). SPDM request answered with the supported version. -/
  | getVersion
  /-- GET_CAPABILITIES (R424). SPDM request answered with capabilities. -/
  | getCapabilities
  /-- NEGOTIATE_ALGORITHMS (R424). SPDM request selecting P-384 and SHA-384. -/
  | negotiateAlgorithms
  /-- GET_DIGESTS (R424). SPDM request answered with certificate digests. -/
  | getDigests
  /-- GET_CERTIFICATE (R424). SPDM request answered with the identity certificate. -/
  | getCertificate
  /-- CHALLENGE (R424). SPDM request answered with a signature by the identity key. -/
  | challenge (nonce : BitVec 256)
  /-- GET_MEASUREMENTS (R424). SPDM request answered with the measurement blocks. -/
  | getMeasurements
  /-- FATAL_FREEZE (R425). A fatal error freezes the package and each die writes its dump. -/
  | fatalFreeze (d : Nat)
  /-- BAR2_WRITE (R427). A host write through BAR2 reaches member HBM under class 5, or is dropped. -/
  | bar2Write (off : Nat) (w : BitVec 64)
  /-- BAR2_READ (R427). A host read through BAR2 returns member HBM, or all ones if refused. -/
  | bar2Read (off : Nat)
  /-- SQ_DOORBELL (R430). A host write of SQT announces entries, halting the ring on overrun. -/
  | sqDoorbell (r : Nat) (tail : BitVec 32)
  /-- RING_ENABLE (R429). Writing EN = 1 enables a ring and resets HEAD, TAIL and its error bits. -/
  | ringEnable (cq : Bool) (r : Nat)
  /-- RING_DISABLE (R429). Writing EN = 0 disables a ring. -/
  | ringDisable (cq : Bool) (r : Nat)
  /-- CQ_HEAD_WRITE (R434). The host advances CQH, freeing room for held completions. -/
  | cqHeadWrite (r : Nat) (head : BitVec 32)
  /-- SUBMISSION_ENTRY_TAKE (R431). The device reads the next submission entry, checking its WRAP bit and gloves. -/
  | submissionEntryTake (r : Nat)
  /-- NOP (R432). Host command that does nothing. -/
  | nop (r : Nat)
  /-- LAUNCH (R44). Host command whose header firmware checks, adds to CJOIN and hands to the expanders. -/
  | launch (r : Nat)
  /-- SEAL (R432). Host command moving Secured to Tenant-Sealed. -/
  | seal (r : Nat)
  /-- UNSEAL (R432). Host command clearing state and moving Tenant-Sealed to Secured. -/
  | unseal (r : Nat)
  /-- UNKNOWN_COMMAND (R432). An unknown OP completes with STATUS 0x02. -/
  | unknownCommand (r : Nat)
  /-- MSIX_MESSAGE (R433). After a CQT update, an MSI-X vector is sent at most once per 2 µs per ring. -/
  | msixMessage (r : Nat)
  /-- RESET (R436). Reset release starts bring-up. -/
  | reset
  /-- BRINGUP_STAGE_END (R436). A bring-up stage completes or fails, and the next starts. -/
  | bringupStageEnd (ok : Bool) (die : Nat)
  /-- JTAG_BYPASS (R439). JTAG BYPASS instruction. -/
  | jtagBypass
  /-- JTAG_IDCODE (R439). JTAG IDCODE instruction returning 0x0F02_4A6B. -/
  | jtagIdcode
  /-- JTAG_SAMPLE_PRELOAD (R439). JTAG SAMPLE/PRELOAD instruction. -/
  | jtagSamplePreload
  /-- JTAG_EXTEST (R439). JTAG EXTEST instruction, holding the package in reset. -/
  | jtagExtest
  /-- THERMAL_SAMPLE (R441). Every 100 µs a die senses its junction temperature and gates or ungates clusters. -/
  | thermalSample (d temp : Nat)
  /-- DIE_RETENTION_ENTER (R440). Every tile of a die is gated and its HBM enters self-refresh. -/
  | dieRetentionEnter (d : Nat)
  /-- DIE_RETENTION_EXIT (R440). A die leaves retention within 50 µs. -/
  | dieRetentionExit (d : Nat)
  /-- PACKAGE_STANDBY_ENTER (R440). Every die enters retention and the optical links go down. -/
  | packageStandbyEnter
  /-- PACKAGE_STANDBY_EXIT (R440). The package leaves standby within 20 ms, retraining links. -/
  | packageStandbyExit
  /-- DSPAN_SPACING_EXPIRY (R282). A dspan waiting for FTB to pass its window's previous dspan time plus 200 ns, or a dspan.retry waiting 50 µs after the failed attempt's last packet, reaches that time and opens its generation. -/
  | dspanSpacingExpiry (g w : Nat)
  /-- CONFIGURATION_REQUEST (R436). The host-bridge endpoint receives and answers a PCIe configuration request, within 100 ms of reset release and from then on. -/
  | configurationRequest (reg : Nat)
  deriving DecidableEq, Repr

end Sys2Proof
end

