-- ==== Sys2Proof/WellFormed.lean ====
section
/-!
DEFINITION. Which terms of the table are legal: the conditions of R105, R116 to R122 and of each word's own description
on the fields that the word's layout does not already force, and, for a step of a unit, that the place it names exists
(24 dies of 16 tiles, R14). A word that fails its check raises Illegal Instruction (R123): the decoder refuses it.
-/

namespace Sys2Proof

/-- Atomics: ordering 0 to 4, scope 0 to 4 (R105). -/
abbrev amoLegal (o s : BitVec 3) : Prop := o.toNat ≤ 4 ∧ s.toNat ≤ 4

/-- `fence`: ordering 1 to 4 with any scope 0 to 4; ordering 5 is `fence.drain`, its own row (R105). -/
abbrev fenceLegal (o s : BitVec 3) : Prop := 1 ≤ o.toNat ∧ o.toNat ≤ 4 ∧ s.toNat ≤ 4

/-- `bext` and `bins`: lo + width ≤ 64, the width field holding width − 1 (R116). -/
abbrev bitsLegal (w l : BitVec 6) : Prop := l.toNat + (w.toNat + 1) ≤ 64

/-- `ldp` and `stp`: XD even (R116). -/
abbrev pairLegal (d : BitVec 6) : Prop := d.toNat % 2 = 0

/-- V control registers 0 to 5 (R172). -/
abbrev vcrLegal (r : Nat) : Prop := r ≤ 5

/-- A CSR number that names a task-level (R163) or a supervisor CSR (R349), below 0x400 (R123). -/
abbrev csrNamed (c : BitVec 12) : Prop :=
  (0x010 ≤ c.toNat ∧ c.toNat ≤ 0x017) ∨ (0x020 ≤ c.toNat ∧ c.toNat ≤ 0x03F) ∨ (0x100 ≤ c.toNat ∧ c.toNat ≤ 0x10A)

/-- T3 in f32, bf16, i32, i64, i8 (R176, R177, R183). -/
abbrev typeArith (t : BitVec 3) : Prop := t.toNat ≤ 4

/-- T3 in f32, bf16 (R176, R177). -/
abbrev typeFloat (t : BitVec 3) : Prop := t.toNat ≤ 1

/-- T3 in i32, i64, i8 (R177, R180). -/
abbrev typeInt (t : BitVec 3) : Prop := 2 ≤ t.toNat ∧ t.toNat ≤ 4

/-- T3 in f32, i32, i64 (R191). -/
abbrev typeReduce (t : BitVec 3) : Prop := t.toNat = 0 ∨ t.toNat = 2 ∨ t.toNat = 3

/-- A mask destination m1 to m7 (R118, R120). -/
abbrev maskDest (d : BitVec 5) : Prop := 1 ≤ d.toNat ∧ d.toNat ≤ 7

/-- A format code that is not reserved (R81): 0x0 to 0x9 and 0xF. -/
abbrev formatLegal (f : BitVec 4) : Prop := f.toNat ≤ 9 ∨ f.toNat = 15

/-- The check of each row. -/
def Instr.wellFormed : Instr → Bool
  | .add _ _ _ => true
  | .sub _ _ _ => true
  | .and _ _ _ => true
  | .or _ _ _ => true
  | .xor _ _ _ => true
  | .andn _ _ _ => true
  | .orn _ _ _ => true
  | .sll _ _ _ => true
  | .srl _ _ _ => true
  | .sra _ _ _ => true
  | .rotl _ _ _ => true
  | .rotr _ _ _ => true
  | .slt _ _ _ => true
  | .sltu _ _ _ => true
  | .min _ _ _ => true
  | .max _ _ _ => true
  | .minu _ _ _ => true
  | .maxu _ _ _ => true
  | .mul _ _ _ => true
  | .mulh _ _ _ => true
  | .mulhu _ _ _ => true
  | .div _ _ _ => true
  | .divu _ _ _ => true
  | .rem _ _ _ => true
  | .remu _ _ _ => true
  | .csel _ _ _ => true
  | .clz _ _ => true
  | .ctz _ _ => true
  | .popc _ _ => true
  | .sextB _ _ => true
  | .sextH _ _ => true
  | .sextW _ _ => true
  | .zextB _ _ => true
  | .zextH _ _ => true
  | .zextW _ _ => true
  | .bext _ _ w l => decide (bitsLegal w l)
  | .bins _ _ w l => decide (bitsLegal w l)
  | .addi _ _ _ => true
  | .andi _ _ _ => true
  | .ori _ _ _ => true
  | .xori _ _ _ => true
  | .slti _ _ _ => true
  | .sltiu _ _ _ => true
  | .slli _ _ _ => true
  | .srli _ _ _ => true
  | .srai _ _ _ => true
  | .lih _ _ => true
  | .getw _ _ l => decide (l.toNat ≤ 5)
  | .ldB _ _ _ => true
  | .ldBu _ _ _ => true
  | .ldH _ _ _ => true
  | .ldHu _ _ _ => true
  | .ldW _ _ _ => true
  | .ldWu _ _ _ => true
  | .ldD _ _ _ => true
  | .st _ _ _ => true
  | .ldp d _ _ => decide (pairLegal d)
  | .stp d _ _ => decide (pairLegal d)
  | .pfR _ _ => true
  | .pfW _ _ => true
  | .putV d _ => decide (d.toNat ≤ 15 ∨ vcrLegal (d.toNat - 16))
  | .putM d _ => decide (d.toNat ≤ 15)
  | .putD d _ => decide (d.toNat ≤ 25)
  | .get _ => true
  | .ewait _ => true
  | .epeek _ => true
  | .mcall _ _ _ _ => true
  | .mdef _ _ _ => true
  | .amoAdd _ _ _ o s => decide (amoLegal o s)
  | .amoAnd _ _ _ o s => decide (amoLegal o s)
  | .amoOr _ _ _ o s => decide (amoLegal o s)
  | .amoXor _ _ _ o s => decide (amoLegal o s)
  | .amoMin _ _ _ o s => decide (amoLegal o s)
  | .amoMax _ _ _ o s => decide (amoLegal o s)
  | .amoMinu _ _ _ o s => decide (amoLegal o s)
  | .amoMaxu _ _ _ o s => decide (amoLegal o s)
  | .amoSwap _ _ _ o s => decide (amoLegal o s)
  | .cas _ _ _ o s => decide (amoLegal o s)
  | .fence o s => decide (fenceLegal o s)
  | .fenceDrain => true
  | .ifence => true
  | .spawn _ _ => true
  | .tail => true
  | .yield => true
  | .poll _ => true
  | .adopt _ _ _ => true
  | .sys => true
  | .brk => true
  | .eret => true
  | .uret => true
  | .resume => true
  | .tlbinv _ _ => true
  | .halt => true
  | .beq _ _ _ => true
  | .bne _ _ _ => true
  | .blt _ _ _ => true
  | .bge _ _ _ => true
  | .bltu _ _ _ => true
  | .bgeu _ _ _ => true
  | .bp k _ => decide (k.toNat ≤ 15)
  | .bpNot k _ => decide (k.toNat ≤ 15)
  | .j _ => true
  | .jal _ _ => true
  | .jalr _ _ _ => true
  | .jtab _ _ l => decide (l ≠ 0)
  | .loop _ _ => true
  | .csrr _ c => decide (csrNamed c)
  | .csrw _ _ c => decide (csrNamed c)
  | .csrs _ _ c => decide (csrNamed c)
  | .csrc _ _ c => decide (csrNamed c)
  | .vadd _ _ _ _ _ t => decide (typeArith t)
  | .vsub _ _ _ _ _ t => decide (typeArith t)
  | .vmul _ _ _ _ _ t => decide (typeArith t)
  | .vfma _ _ _ _ _ t => decide (typeFloat t)
  | .vfms _ _ _ _ _ t => decide (typeFloat t)
  | .vmax _ _ _ _ _ t => decide (typeArith t)
  | .vmin _ _ _ _ _ t => decide (typeArith t)
  | .vabs _ _ _ _ t => decide (typeArith t)
  | .vneg _ _ _ _ t => decide (typeArith t)
  | .vrcp _ _ _ _ t => decide (t = 0)
  | .vrsqrt _ _ _ _ t => decide (t = 0)
  | .vsqrt _ _ _ _ t => decide (t = 0)
  | .vexp2 _ _ _ _ t => decide (t = 0)
  | .vlog2 _ _ _ _ t => decide (t = 0)
  | .vrnd _ _ _ _ t => decide (typeFloat t)
  | .vnot _ _ _ _ t => decide (typeInt t)
  | .vmov _ _ _ _ _ => true
  | .vcvt _ _ _ s e _ t => decide (s.toNat ≤ 2 ∧ e ≠ t)
  | .vand _ _ _ _ _ t => decide (typeInt t)
  | .vor _ _ _ _ _ t => decide (typeInt t)
  | .vxor _ _ _ _ _ t => decide (typeInt t)
  | .vsll _ _ _ _ _ t => decide (typeInt t)
  | .vsrl _ _ _ _ _ t => decide (typeInt t)
  | .vsra _ _ _ _ _ t => decide (typeInt t)
  | .vaddsat _ _ _ _ _ t => decide (typeInt t)
  | .vcmpEq _ d _ _ _ t => decide (d ≠ 0 ∧ typeArith t)
  | .vcmpNe _ d _ _ _ t => decide (d ≠ 0 ∧ typeArith t)
  | .vcmpLt _ d _ _ _ t => decide (d ≠ 0 ∧ typeArith t)
  | .vcmpLe _ d _ _ _ t => decide (d ≠ 0 ∧ typeArith t)
  | .vsel _ _ _ _ _ _ => true
  | .mand _ d a b => decide (maskDest d ∧ a.toNat ≤ 7 ∧ b.toNat ≤ 7)
  | .mor _ d a b => decide (maskDest d ∧ a.toNat ≤ 7 ∧ b.toNat ≤ 7)
  | .mxor _ d a b => decide (maskDest d ∧ a.toNat ≤ 7 ∧ b.toNat ≤ 7)
  | .mnot _ d a => decide (maskDest d ∧ a.toNat ≤ 7)
  | .mpop _ d a => decide (d.toNat ≤ 15 ∧ a.toNat ≤ 7)
  | .mfirst _ d a => decide (d.toNat ≤ 15 ∧ a.toNat ≤ 7)
  | .vbcast _ _ a _ _ => decide (a.toNat ≤ 15)
  | .vperm _ _ _ _ _ t => decide (t = 2 ∨ t = 3)
  | .vslide _ _ _ b _ _ => decide (b.toNat ≤ 15)
  | .vext _ d _ b => decide (d.toNat ≤ 15 ∧ b.toNat ≤ 15)
  | .vins _ _ a b => decide (a.toNat ≤ 15 ∧ b.toNat ≤ 15)
  | .vredsum _ _ _ _ t => decide (typeReduce t)
  | .vredmax _ _ _ _ t => decide (typeReduce t)
  | .vredmin _ _ _ _ t => decide (typeReduce t)
  | .vscan _ _ _ _ t => decide (typeReduce t)
  | .vdot _ _ _ _ _ t => decide (t = 5 ∨ t = 6 ∨ t = 1)
  | .vld _ _ _ _ _ _ => true
  | .vst _ _ _ _ _ _ => true
  | .vgth _ d _ _ _ t => decide (t = 3 ∧ d.toNat % 2 = 0 ∧ d.toNat ≤ 30)
  | .vsct _ d _ _ _ t => decide (t = 3 ∧ d.toNat % 2 = 0 ∧ d.toNat ≤ 30)
  | .vldm _ _ _ _ _ _ => true
  | .vstm _ _ _ _ _ _ => true
  | .vtopk _ d _ b k => decide (k ≠ 0 ∧ d ≠ b)
  | .vgmax _ _ _ b => decide (b.toNat ≤ 12)
  | .vrng _ d _ b n => decide (1 ≤ n.toNat ∧ n.toNat ≤ 16 ∧ d.toNat + n.toNat ≤ 16 ∧ b.toNat ≤ 14)
  | .attg _ _ _ _ _ => true
  | .vdefer _ _ b => decide (b.toNat ≤ 7)
  | .vredeem _ _ b => decide (1 ≤ b.toNat ∧ b.toNat ≤ 7)
  | .vpset _ d a c => decide (d ≠ 0 ∧ a.toNat ≤ 7 ∧ c.toNat ≤ 2)
  | .vput _ _ => true
  | .vputVcr _ r => decide (vcrLegal r.toNat)
  | .nsetCount _ l _ => decide (l.toNat ≤ 5)
  | .nsetSa _ l _ => decide (l.toNat ≤ 5)
  | .nsetSb _ l _ => decide (l.toNat ≤ 5)
  | .nsetSc _ l _ => decide (l.toNat ≤ 5)
  | .nsetKind _ l _ => decide (l.toNat ≤ 5)
  | .nbaseA _ _ => true
  | .nbaseB _ _ => true
  | .nbaseC _ _ => true
  | .nfmt _ _ => true
  | .ngo _ => true
  | .ndrain _ _ f r t _ => decide (formatLegal f ∧ r.toNat ≤ 4 ∧ t.toNat ≤ 2)
  | .nzero _ => true
  | .nload _ _ f => decide (formatLegal f)
  | .nwait _ _ => true
  | .dcp _ _ _ _ f r _ _ => decide (formatLegal f ∧ r.toNat ≤ 4)
  | .dcp2 _ _ _ _ f r _ _ => decide (formatLegal f ∧ r.toNat ≤ 4)
  | .dcpn _ _ _ _ f r _ _ => decide (formatLegal f ∧ r.toNat ≤ 4)
  | .dgth _ _ _ _ f r _ _ => decide (formatLegal f ∧ r.toNat ≤ 4)
  | .dsct _ _ _ _ f r _ _ => decide (formatLegal f ∧ r.toNat ≤ 4)
  | .dfill _ _ _ _ _ => true
  | .devt _ _ s => decide (s.toNat ≤ 4)
  | .dwin _ _ _ => true
  | .dspan _ _ => true
  | .dspanRetry _ _ => true
  | .dkey _ _ _ _ _ => true
  | .dcollRs _ _ _ _ => true
  | .dcollAg _ _ _ _ => true
  | .dcollAr _ _ _ _ => true
  | .dcollSmax _ _ _ _ => true
  | .dcollBc _ _ _ _ => true
  | .kvlook _ _ _ _ _ => true
  | .kvapp _ _ _ _ _ => true
  | .kvfork _ _ _ _ _ => true
  | .kvforkUnshare _ _ _ _ => true
  | .kvrel _ _ _ _ => true
  | .kvcommit _ _ _ _ => true
  | .kvtrunc _ _ _ _ => true
  | .kvins _ _ _ _ _ => true
  | .kvrecap _ _ _ _ => true
  | .capsel _ _ _ _ _ => true
  | .capselThr _ _ _ _ _ => true
  | .relv _ _ _ => true
  | .trec _ _ _ _ _ => true
  | .wordStepOver g _ => decide (g < 384)
  | .jointOutcomePop g _ => decide (g < 384)
  | .operandQueuePop g _ => decide (g < 384)
  | .guardResolve g _ => decide (g < 384)
  | .icacheFill g _ => decide (g < 384)
  | .taskStart g => decide (g < 384)
  | .gangStart d _ => decide (d < 24)
  | .expanderEnqueue d => decide (d < 24)
  | .spillRefill d _ => decide (d < 24)
  | .agingPromotion d _ level => decide (d < 24 ∧ level < 4)
  | .taskEnd g => decide (g < 384)
  | .joinStep d => decide (d < 24)
  | .trapEntry g => decide (g < 384)
  | .tlbWalk g _ => decide (g < 384)
  | .tlbinvComplete g => decide (g < 384)
  | .nestBodyStep g => decide (g < 384)
  | .nestHoldRetry g => decide (g < 384)
  | .nestHoldTimeout g => decide (g < 384)
  | .nwaitPost g => decide (g < 384)
  | .copyPieceDone g _ => decide (g < 384)
  | .copyComplete g _ => decide (g < 384)
  | .devtPost g _ => decide (g < 384)
  | .kvStep g _ => decide (g < 384)
  | .attgComplete g => decide (g < 384)
  | .adoptSwitchStep g => decide (g < 384)
  | .relvPortStep g _ => decide (g < 384)
  | .trecRecordWrite g _ => decide (g < 384)
  | .routerForward _ _ => true
  | .packetAgeDiscard _ => true
  | .linkFailure d1 d2 => decide (d1 < 24 ∧ d2 < 24)
  | .windowPacketHandoff g w => decide (g < 384 ∧ w < 16)
  | .remoteRequestArrival _ => true
  | .remoteResponseArrival _ => true
  | .remoteRequestTimeout g _ => decide (g < 384)
  | .postedWriteArrival _ => true
  | .countedPacketArrival _ => true
  | .keystoneArrival _ => true
  | .reopenNoteArrival _ => true
  | .pierPtoExpiry d _ => decide (d < 24)
  | .resendRequestReceipt _ => true
  | .closeNoteReceipt _ => true
  | .keystoneResendTimeout g w => decide (g < 384 ∧ w < 16)
  | .congestionNoteReceipt _ => true
  | .rateLimitRecovery d _ => decide (d < 24)
  | .dcollPacketArrival _ => true
  | .schedPreemptRequest d _ => decide (d < 24)
  | .firmwarePreempt d _ => decide (d < 24)
  | .firmwareStopRelease d _ => decide (d < 24)
  | .forcedCut g => decide (g < 384)
  | .imageSaveComplete g => decide (g < 384)
  | .contextRestore g => decide (g < 384)
  | .resumeInject d _ => decide (d < 24)
  | .expqPop d => decide (d < 24)
  | .brimMoveStart d _ => decide (d < 24)
  | .brimStageAdvance d => decide (d < 24)
  | .brimMoveCommit d => decide (d < 24)
  | .bmovErrClear d => decide (d < 24)
  | .holdWrite d _ => decide (d < 24)
  | .firmwareCsrWrite g _ _ => decide (g < 384)
  | .kvrepWrite d _ => decide (d < 24)
  | .kvrepErrClear d => decide (d < 24)
  | .tileRetire d _ => decide (d < 24)
  | .debugModeWrite d _ => decide (d < 24)
  | .registerWrite d _ _ _ => decide (d < 24)
  | .hbmScrub _ => true
  | .selftestRun d _ _ => decide (d < 24)
  | .selftestForcedSlot d _ => decide (d < 24)
  | .firmwareHaltHandling g => decide (g < 384)
  | .stateFuseBurn => true
  | .debugUnlock _ => true
  | .debuggerContinue g => decide (g < 384)
  | .getVersion => true
  | .getCapabilities => true
  | .negotiateAlgorithms => true
  | .getDigests => true
  | .getCertificate => true
  | .challenge _ => true
  | .getMeasurements => true
  | .fatalFreeze d => decide (d < 24)
  | .bar2Write _ _ => true
  | .bar2Read _ => true
  | .sqDoorbell _ _ => true
  | .ringEnable _ _ => true
  | .ringDisable _ _ => true
  | .cqHeadWrite _ _ => true
  | .submissionEntryTake _ => true
  | .nop _ => true
  | .launch _ => true
  | .seal _ => true
  | .unseal _ => true
  | .unknownCommand _ => true
  | .msixMessage _ => true
  | .reset => true
  | .bringupStageEnd _ die => decide (die ≤ 24)
  | .jtagBypass => true
  | .jtagIdcode => true
  | .jtagSamplePreload => true
  | .jtagExtest => true
  | .thermalSample d _ => decide (d < 24)
  | .dieRetentionEnter d => decide (d < 24)
  | .dieRetentionExit d => decide (d < 24)
  | .packageStandbyEnter => true
  | .packageStandbyExit => true
  | .dspanSpacingExpiry g w => decide (g < 384 ∧ w < 16)
  | .configurationRequest _ => true

end Sys2Proof
end

