-- ==== Sys2Proof/Decode.lean ====
section
/-!
DEFINITION. The decoder of the 32-bit words (R114 to R123), total and refusing by name, and the encoder of the same layouts.
-/

namespace Sys2Proof

/-- Why a word is no legal instruction (R123). -/
inductive DecodeError where
  /-- The major opcode is reserved. -/
  | reservedMajor
  /-- The function code of the group is not listed. -/
  | reservedFunction
  /-- A field that must hold 0 does not. -/
  | nonzeroField
  /-- A field holds a value that the word's description refuses. -/
  | illegalField
  deriving DecidableEq, Repr

/-- The S words (R116, R117): the major opcode chooses the group, its fixed fields the instruction.
A field that must hold 0 and does not is refused by name. -/
def decodeS (w : BitVec 32) : Except DecodeError Instr :=
  match (w.extractLsb' 24 6).toNat with
  | 0 =>
    match (w.extractLsb' 0 6).toNat with
    | 0 => .ok (.add (w.extractLsb' 18 6) (w.extractLsb' 12 6) (w.extractLsb' 6 6))
    | 1 => .ok (.sub (w.extractLsb' 18 6) (w.extractLsb' 12 6) (w.extractLsb' 6 6))
    | 2 => .ok (.and (w.extractLsb' 18 6) (w.extractLsb' 12 6) (w.extractLsb' 6 6))
    | 3 => .ok (.or (w.extractLsb' 18 6) (w.extractLsb' 12 6) (w.extractLsb' 6 6))
    | 4 => .ok (.xor (w.extractLsb' 18 6) (w.extractLsb' 12 6) (w.extractLsb' 6 6))
    | 5 => .ok (.andn (w.extractLsb' 18 6) (w.extractLsb' 12 6) (w.extractLsb' 6 6))
    | 6 => .ok (.orn (w.extractLsb' 18 6) (w.extractLsb' 12 6) (w.extractLsb' 6 6))
    | 7 => .ok (.sll (w.extractLsb' 18 6) (w.extractLsb' 12 6) (w.extractLsb' 6 6))
    | 8 => .ok (.srl (w.extractLsb' 18 6) (w.extractLsb' 12 6) (w.extractLsb' 6 6))
    | 9 => .ok (.sra (w.extractLsb' 18 6) (w.extractLsb' 12 6) (w.extractLsb' 6 6))
    | 10 => .ok (.rotl (w.extractLsb' 18 6) (w.extractLsb' 12 6) (w.extractLsb' 6 6))
    | 11 => .ok (.rotr (w.extractLsb' 18 6) (w.extractLsb' 12 6) (w.extractLsb' 6 6))
    | 12 => .ok (.slt (w.extractLsb' 18 6) (w.extractLsb' 12 6) (w.extractLsb' 6 6))
    | 13 => .ok (.sltu (w.extractLsb' 18 6) (w.extractLsb' 12 6) (w.extractLsb' 6 6))
    | 14 => .ok (.min (w.extractLsb' 18 6) (w.extractLsb' 12 6) (w.extractLsb' 6 6))
    | 15 => .ok (.max (w.extractLsb' 18 6) (w.extractLsb' 12 6) (w.extractLsb' 6 6))
    | 16 => .ok (.minu (w.extractLsb' 18 6) (w.extractLsb' 12 6) (w.extractLsb' 6 6))
    | 17 => .ok (.maxu (w.extractLsb' 18 6) (w.extractLsb' 12 6) (w.extractLsb' 6 6))
    | 18 => .ok (.mul (w.extractLsb' 18 6) (w.extractLsb' 12 6) (w.extractLsb' 6 6))
    | 19 => .ok (.mulh (w.extractLsb' 18 6) (w.extractLsb' 12 6) (w.extractLsb' 6 6))
    | 20 => .ok (.mulhu (w.extractLsb' 18 6) (w.extractLsb' 12 6) (w.extractLsb' 6 6))
    | 21 => .ok (.div (w.extractLsb' 18 6) (w.extractLsb' 12 6) (w.extractLsb' 6 6))
    | 22 => .ok (.divu (w.extractLsb' 18 6) (w.extractLsb' 12 6) (w.extractLsb' 6 6))
    | 23 => .ok (.rem (w.extractLsb' 18 6) (w.extractLsb' 12 6) (w.extractLsb' 6 6))
    | 24 => .ok (.remu (w.extractLsb' 18 6) (w.extractLsb' 12 6) (w.extractLsb' 6 6))
    | 25 => .ok (.csel (w.extractLsb' 18 6) (w.extractLsb' 12 6) (w.extractLsb' 6 6))
    | _ => .error .reservedFunction
  | 1 =>
    match (w.extractLsb' 0 12).toNat with
    | 0 => .ok (.clz (w.extractLsb' 18 6) (w.extractLsb' 12 6))
    | 1 => .ok (.ctz (w.extractLsb' 18 6) (w.extractLsb' 12 6))
    | 2 => .ok (.popc (w.extractLsb' 18 6) (w.extractLsb' 12 6))
    | 3 => .ok (.sextB (w.extractLsb' 18 6) (w.extractLsb' 12 6))
    | 67 => .ok (.sextH (w.extractLsb' 18 6) (w.extractLsb' 12 6))
    | 131 => .ok (.sextW (w.extractLsb' 18 6) (w.extractLsb' 12 6))
    | 4 => .ok (.zextB (w.extractLsb' 18 6) (w.extractLsb' 12 6))
    | 68 => .ok (.zextH (w.extractLsb' 18 6) (w.extractLsb' 12 6))
    | 132 => .ok (.zextW (w.extractLsb' 18 6) (w.extractLsb' 12 6))
    | _ => .error .reservedFunction
  | 2 => .ok (.bext (w.extractLsb' 18 6) (w.extractLsb' 12 6) (w.extractLsb' 6 6) (w.extractLsb' 0 6))
  | 3 => .ok (.bins (w.extractLsb' 18 6) (w.extractLsb' 12 6) (w.extractLsb' 6 6) (w.extractLsb' 0 6))
  | 4 => .ok (.addi (w.extractLsb' 18 6) (w.extractLsb' 12 6) (w.extractLsb' 0 12))
  | 5 => .ok (.andi (w.extractLsb' 18 6) (w.extractLsb' 12 6) (w.extractLsb' 0 12))
  | 6 => .ok (.ori (w.extractLsb' 18 6) (w.extractLsb' 12 6) (w.extractLsb' 0 12))
  | 7 => .ok (.xori (w.extractLsb' 18 6) (w.extractLsb' 12 6) (w.extractLsb' 0 12))
  | 8 => .ok (.slti (w.extractLsb' 18 6) (w.extractLsb' 12 6) (w.extractLsb' 0 12))
  | 9 => .ok (.sltiu (w.extractLsb' 18 6) (w.extractLsb' 12 6) (w.extractLsb' 0 12))
  | 10 => if w.extractLsb' 6 6 = 0#6 then .ok (.slli (w.extractLsb' 18 6) (w.extractLsb' 12 6) (w.extractLsb' 0 6)) else .error .nonzeroField
  | 11 => if w.extractLsb' 6 6 = 0#6 then .ok (.srli (w.extractLsb' 18 6) (w.extractLsb' 12 6) (w.extractLsb' 0 6)) else .error .nonzeroField
  | 12 => if w.extractLsb' 6 6 = 0#6 then .ok (.srai (w.extractLsb' 18 6) (w.extractLsb' 12 6) (w.extractLsb' 0 6)) else .error .nonzeroField
  | 13 => .ok (.lih (w.extractLsb' 18 6) (w.extractLsb' 0 18))
  | 14 => .ok (.getw (w.extractLsb' 18 6) (w.extractLsb' 12 6) (w.extractLsb' 0 12))
  | 16 => .ok (.ldB (w.extractLsb' 18 6) (w.extractLsb' 12 6) (w.extractLsb' 0 12))
  | 17 => .ok (.ldBu (w.extractLsb' 18 6) (w.extractLsb' 12 6) (w.extractLsb' 0 12))
  | 18 => .ok (.ldH (w.extractLsb' 18 6) (w.extractLsb' 12 6) (w.extractLsb' 0 12))
  | 19 => .ok (.ldHu (w.extractLsb' 18 6) (w.extractLsb' 12 6) (w.extractLsb' 0 12))
  | 20 => .ok (.ldW (w.extractLsb' 18 6) (w.extractLsb' 12 6) (w.extractLsb' 0 12))
  | 21 => .ok (.ldWu (w.extractLsb' 18 6) (w.extractLsb' 12 6) (w.extractLsb' 0 12))
  | 22 => .ok (.ldD (w.extractLsb' 18 6) (w.extractLsb' 12 6) (w.extractLsb' 0 12))
  | 23 => .ok (.st (w.extractLsb' 18 6) (w.extractLsb' 12 6) (w.extractLsb' 0 12))
  | 24 => .ok (.ldp (w.extractLsb' 18 6) (w.extractLsb' 12 6) (w.extractLsb' 0 12))
  | 25 => .ok (.stp (w.extractLsb' 18 6) (w.extractLsb' 12 6) (w.extractLsb' 0 12))
  | 26 =>
    match (w.extractLsb' 18 6).toNat with
    | 0 => .ok (.pfR (w.extractLsb' 12 6) (w.extractLsb' 0 12))
    | 1 => .ok (.pfW (w.extractLsb' 12 6) (w.extractLsb' 0 12))
    | _ => .error .reservedFunction
  | 27 =>
    match (w.extractLsb' 0 12).toNat with
    | 1 => .ok (.putV (w.extractLsb' 18 6) (w.extractLsb' 12 6))
    | 2 => .ok (.putM (w.extractLsb' 18 6) (w.extractLsb' 12 6))
    | 3 => .ok (.putD (w.extractLsb' 18 6) (w.extractLsb' 12 6))
    | _ => .error .reservedFunction
  | 29 =>
    match (w.extractLsb' 0 18).toNat with
    | 0 => .ok (.get (w.extractLsb' 18 6))
    | 1 => .ok (.ewait (w.extractLsb' 18 6))
    | 2 => .ok (.epeek (w.extractLsb' 18 6))
    | _ => .error .reservedFunction
  | 30 => .ok (.mcall (w.extractLsb' 18 6) (w.extractLsb' 12 6) (w.extractLsb' 6 6) (w.extractLsb' 0 6))
  | 31 => .ok (.mdef (w.extractLsb' 18 6) (w.extractLsb' 12 6) (w.extractLsb' 0 12))
  | 32 => .ok (.amoAdd (w.extractLsb' 18 6) (w.extractLsb' 12 6) (w.extractLsb' 6 6) (w.extractLsb' 3 3) (w.extractLsb' 0 3))
  | 33 => .ok (.amoAnd (w.extractLsb' 18 6) (w.extractLsb' 12 6) (w.extractLsb' 6 6) (w.extractLsb' 3 3) (w.extractLsb' 0 3))
  | 34 => .ok (.amoOr (w.extractLsb' 18 6) (w.extractLsb' 12 6) (w.extractLsb' 6 6) (w.extractLsb' 3 3) (w.extractLsb' 0 3))
  | 35 => .ok (.amoXor (w.extractLsb' 18 6) (w.extractLsb' 12 6) (w.extractLsb' 6 6) (w.extractLsb' 3 3) (w.extractLsb' 0 3))
  | 36 => .ok (.amoMin (w.extractLsb' 18 6) (w.extractLsb' 12 6) (w.extractLsb' 6 6) (w.extractLsb' 3 3) (w.extractLsb' 0 3))
  | 37 => .ok (.amoMax (w.extractLsb' 18 6) (w.extractLsb' 12 6) (w.extractLsb' 6 6) (w.extractLsb' 3 3) (w.extractLsb' 0 3))
  | 38 => .ok (.amoMinu (w.extractLsb' 18 6) (w.extractLsb' 12 6) (w.extractLsb' 6 6) (w.extractLsb' 3 3) (w.extractLsb' 0 3))
  | 39 => .ok (.amoMaxu (w.extractLsb' 18 6) (w.extractLsb' 12 6) (w.extractLsb' 6 6) (w.extractLsb' 3 3) (w.extractLsb' 0 3))
  | 40 => .ok (.amoSwap (w.extractLsb' 18 6) (w.extractLsb' 12 6) (w.extractLsb' 6 6) (w.extractLsb' 3 3) (w.extractLsb' 0 3))
  | 41 => .ok (.cas (w.extractLsb' 18 6) (w.extractLsb' 12 6) (w.extractLsb' 6 6) (w.extractLsb' 3 3) (w.extractLsb' 0 3))
  | 42 => if ¬ (w.extractLsb' 6 18 = 0#18) then .error .nonzeroField else if w.extractLsb' 0 6 = 44#6 then .ok .fenceDrain else .ok (.fence (w.extractLsb' 3 3) (w.extractLsb' 0 3))
  | 43 => if w.extractLsb' 0 24 = 0#24 then .ok .ifence else .error .nonzeroField
  | 44 => if w.extractLsb' 18 6 = 0#6 ∧ w.extractLsb' 0 6 = 0#6 then .ok (.spawn (w.extractLsb' 12 6) (w.extractLsb' 6 6)) else .error .nonzeroField
  | 45 =>
    match (w.extractLsb' 0 18).toNat with
    | 0 => if w.extractLsb' 18 6 = 0#6 then .ok .tail else .error .nonzeroField
    | 1 => if w.extractLsb' 18 6 = 0#6 then .ok .yield else .error .nonzeroField
    | 2 => .ok (.poll (w.extractLsb' 18 6))
    | _ => .error .reservedFunction
  | 46 => if w.extractLsb' 0 6 = 0#6 then .ok (.adopt (w.extractLsb' 18 6) (w.extractLsb' 12 6) (w.extractLsb' 6 6)) else .error .nonzeroField
  | 47 =>
    if ¬ (w.extractLsb' 18 6 = 0#6) then .error .nonzeroField else match (w.extractLsb' 0 6).toNat with
    | 0 => if w.extractLsb' 6 12 = 0#12 then .ok .sys else .error .nonzeroField
    | 1 => if w.extractLsb' 6 12 = 0#12 then .ok .brk else .error .nonzeroField
    | 2 => if w.extractLsb' 6 12 = 0#12 then .ok .eret else .error .nonzeroField
    | 3 => if w.extractLsb' 6 12 = 0#12 then .ok .uret else .error .nonzeroField
    | 4 => if w.extractLsb' 6 12 = 0#12 then .ok .resume else .error .nonzeroField
    | 5 => .ok (.tlbinv (w.extractLsb' 12 6) (w.extractLsb' 6 6))
    | 6 => if w.extractLsb' 6 12 = 0#12 then .ok .halt else .error .nonzeroField
    | _ => .error .reservedFunction
  | 48 => .ok (.beq (w.extractLsb' 18 6) (w.extractLsb' 12 6) (w.extractLsb' 0 12))
  | 49 => .ok (.bne (w.extractLsb' 18 6) (w.extractLsb' 12 6) (w.extractLsb' 0 12))
  | 50 => .ok (.blt (w.extractLsb' 18 6) (w.extractLsb' 12 6) (w.extractLsb' 0 12))
  | 51 => .ok (.bge (w.extractLsb' 18 6) (w.extractLsb' 12 6) (w.extractLsb' 0 12))
  | 52 => .ok (.bltu (w.extractLsb' 18 6) (w.extractLsb' 12 6) (w.extractLsb' 0 12))
  | 53 => .ok (.bgeu (w.extractLsb' 18 6) (w.extractLsb' 12 6) (w.extractLsb' 0 12))
  | 54 =>
    match (w.extractLsb' 12 6).toNat with
    | 0 => .ok (.bp (w.extractLsb' 18 6) (w.extractLsb' 0 12))
    | 1 => .ok (.bpNot (w.extractLsb' 18 6) (w.extractLsb' 0 12))
    | _ => .error .reservedFunction
  | 55 => if w.extractLsb' 18 6 = 0#6 then .ok (.j (w.extractLsb' 0 18)) else .error .nonzeroField
  | 56 => .ok (.jal (w.extractLsb' 18 6) (w.extractLsb' 0 18))
  | 57 => .ok (.jalr (w.extractLsb' 18 6) (w.extractLsb' 12 6) (w.extractLsb' 0 12))
  | 58 => .ok (.jtab (w.extractLsb' 18 6) (w.extractLsb' 12 6) (w.extractLsb' 0 12))
  | 59 => if w.extractLsb' 12 6 = 0#6 then .ok (.loop (w.extractLsb' 18 6) (w.extractLsb' 0 12)) else .error .nonzeroField
  | 60 => if w.extractLsb' 12 6 = 0#6 then .ok (.csrr (w.extractLsb' 18 6) (w.extractLsb' 0 12)) else .error .nonzeroField
  | 61 => .ok (.csrw (w.extractLsb' 18 6) (w.extractLsb' 12 6) (w.extractLsb' 0 12))
  | 62 => .ok (.csrs (w.extractLsb' 18 6) (w.extractLsb' 12 6) (w.extractLsb' 0 12))
  | 63 => .ok (.csrc (w.extractLsb' 18 6) (w.extractLsb' 12 6) (w.extractLsb' 0 12))
  | _ => .error .reservedMajor

/-- The V words (R119, R120): the major opcode chooses the group, its fixed fields the instruction.
A field that must hold 0 and does not is refused by name. -/
def decodeV (w : BitVec 32) : Except DecodeError Instr :=
  match (w.extractLsb' 25 5).toNat with
  | 0 => .ok (.vadd (w.extractLsb' 21 4) (w.extractLsb' 16 5) (w.extractLsb' 11 5) (w.extractLsb' 6 5) (w.extractLsb' 3 3) (w.extractLsb' 0 3))
  | 1 => .ok (.vsub (w.extractLsb' 21 4) (w.extractLsb' 16 5) (w.extractLsb' 11 5) (w.extractLsb' 6 5) (w.extractLsb' 3 3) (w.extractLsb' 0 3))
  | 2 => .ok (.vmul (w.extractLsb' 21 4) (w.extractLsb' 16 5) (w.extractLsb' 11 5) (w.extractLsb' 6 5) (w.extractLsb' 3 3) (w.extractLsb' 0 3))
  | 3 => .ok (.vfma (w.extractLsb' 21 4) (w.extractLsb' 16 5) (w.extractLsb' 11 5) (w.extractLsb' 6 5) (w.extractLsb' 3 3) (w.extractLsb' 0 3))
  | 4 => .ok (.vfms (w.extractLsb' 21 4) (w.extractLsb' 16 5) (w.extractLsb' 11 5) (w.extractLsb' 6 5) (w.extractLsb' 3 3) (w.extractLsb' 0 3))
  | 5 => .ok (.vmax (w.extractLsb' 21 4) (w.extractLsb' 16 5) (w.extractLsb' 11 5) (w.extractLsb' 6 5) (w.extractLsb' 3 3) (w.extractLsb' 0 3))
  | 6 => .ok (.vmin (w.extractLsb' 21 4) (w.extractLsb' 16 5) (w.extractLsb' 11 5) (w.extractLsb' 6 5) (w.extractLsb' 3 3) (w.extractLsb' 0 3))
  | 7 =>
    match (w.extractLsb' 6 5).toNat with
    | 0 => .ok (.vabs (w.extractLsb' 21 4) (w.extractLsb' 16 5) (w.extractLsb' 11 5) (w.extractLsb' 3 3) (w.extractLsb' 0 3))
    | 1 => .ok (.vneg (w.extractLsb' 21 4) (w.extractLsb' 16 5) (w.extractLsb' 11 5) (w.extractLsb' 3 3) (w.extractLsb' 0 3))
    | 2 => .ok (.vrcp (w.extractLsb' 21 4) (w.extractLsb' 16 5) (w.extractLsb' 11 5) (w.extractLsb' 3 3) (w.extractLsb' 0 3))
    | 3 => .ok (.vrsqrt (w.extractLsb' 21 4) (w.extractLsb' 16 5) (w.extractLsb' 11 5) (w.extractLsb' 3 3) (w.extractLsb' 0 3))
    | 4 => .ok (.vsqrt (w.extractLsb' 21 4) (w.extractLsb' 16 5) (w.extractLsb' 11 5) (w.extractLsb' 3 3) (w.extractLsb' 0 3))
    | 5 => .ok (.vexp2 (w.extractLsb' 21 4) (w.extractLsb' 16 5) (w.extractLsb' 11 5) (w.extractLsb' 3 3) (w.extractLsb' 0 3))
    | 6 => .ok (.vlog2 (w.extractLsb' 21 4) (w.extractLsb' 16 5) (w.extractLsb' 11 5) (w.extractLsb' 3 3) (w.extractLsb' 0 3))
    | 7 => .ok (.vrnd (w.extractLsb' 21 4) (w.extractLsb' 16 5) (w.extractLsb' 11 5) (w.extractLsb' 3 3) (w.extractLsb' 0 3))
    | 8 => .ok (.vnot (w.extractLsb' 21 4) (w.extractLsb' 16 5) (w.extractLsb' 11 5) (w.extractLsb' 3 3) (w.extractLsb' 0 3))
    | 9 => .ok (.vmov (w.extractLsb' 21 4) (w.extractLsb' 16 5) (w.extractLsb' 11 5) (w.extractLsb' 3 3) (w.extractLsb' 0 3))
    | _ => .error .reservedFunction
  | 8 => .ok (.vcvt (w.extractLsb' 21 4) (w.extractLsb' 16 5) (w.extractLsb' 11 5) (w.extractLsb' 9 2) (w.extractLsb' 6 3) (w.extractLsb' 3 3) (w.extractLsb' 0 3))
  | 9 => .ok (.vand (w.extractLsb' 21 4) (w.extractLsb' 16 5) (w.extractLsb' 11 5) (w.extractLsb' 6 5) (w.extractLsb' 3 3) (w.extractLsb' 0 3))
  | 10 => .ok (.vor (w.extractLsb' 21 4) (w.extractLsb' 16 5) (w.extractLsb' 11 5) (w.extractLsb' 6 5) (w.extractLsb' 3 3) (w.extractLsb' 0 3))
  | 11 => .ok (.vxor (w.extractLsb' 21 4) (w.extractLsb' 16 5) (w.extractLsb' 11 5) (w.extractLsb' 6 5) (w.extractLsb' 3 3) (w.extractLsb' 0 3))
  | 12 => .ok (.vsll (w.extractLsb' 21 4) (w.extractLsb' 16 5) (w.extractLsb' 11 5) (w.extractLsb' 6 5) (w.extractLsb' 3 3) (w.extractLsb' 0 3))
  | 13 => .ok (.vsrl (w.extractLsb' 21 4) (w.extractLsb' 16 5) (w.extractLsb' 11 5) (w.extractLsb' 6 5) (w.extractLsb' 3 3) (w.extractLsb' 0 3))
  | 14 => .ok (.vsra (w.extractLsb' 21 4) (w.extractLsb' 16 5) (w.extractLsb' 11 5) (w.extractLsb' 6 5) (w.extractLsb' 3 3) (w.extractLsb' 0 3))
  | 15 => .ok (.vaddsat (w.extractLsb' 21 4) (w.extractLsb' 16 5) (w.extractLsb' 11 5) (w.extractLsb' 6 5) (w.extractLsb' 3 3) (w.extractLsb' 0 3))
  | 16 =>
    match (w.extractLsb' 16 2).toNat with
    | 0 => .ok (.vcmpEq (w.extractLsb' 21 4) (w.extractLsb' 18 3) (w.extractLsb' 11 5) (w.extractLsb' 6 5) (w.extractLsb' 3 3) (w.extractLsb' 0 3))
    | 1 => .ok (.vcmpNe (w.extractLsb' 21 4) (w.extractLsb' 18 3) (w.extractLsb' 11 5) (w.extractLsb' 6 5) (w.extractLsb' 3 3) (w.extractLsb' 0 3))
    | 2 => .ok (.vcmpLt (w.extractLsb' 21 4) (w.extractLsb' 18 3) (w.extractLsb' 11 5) (w.extractLsb' 6 5) (w.extractLsb' 3 3) (w.extractLsb' 0 3))
    | 3 => .ok (.vcmpLe (w.extractLsb' 21 4) (w.extractLsb' 18 3) (w.extractLsb' 11 5) (w.extractLsb' 6 5) (w.extractLsb' 3 3) (w.extractLsb' 0 3))
    | _ => .error .reservedFunction
  | 17 => .ok (.vsel (w.extractLsb' 21 4) (w.extractLsb' 16 5) (w.extractLsb' 11 5) (w.extractLsb' 6 5) (w.extractLsb' 3 3) (w.extractLsb' 0 3))
  | 18 =>
    match (w.extractLsb' 0 6).toNat with
    | 0 => .ok (.mand (w.extractLsb' 21 4) (w.extractLsb' 16 5) (w.extractLsb' 11 5) (w.extractLsb' 6 5))
    | 8 => .ok (.mor (w.extractLsb' 21 4) (w.extractLsb' 16 5) (w.extractLsb' 11 5) (w.extractLsb' 6 5))
    | 16 => .ok (.mxor (w.extractLsb' 21 4) (w.extractLsb' 16 5) (w.extractLsb' 11 5) (w.extractLsb' 6 5))
    | 24 => if w.extractLsb' 6 5 = 0#5 then .ok (.mnot (w.extractLsb' 21 4) (w.extractLsb' 16 5) (w.extractLsb' 11 5)) else .error .nonzeroField
    | 32 => if w.extractLsb' 6 5 = 0#5 then .ok (.mpop (w.extractLsb' 21 4) (w.extractLsb' 16 5) (w.extractLsb' 11 5)) else .error .nonzeroField
    | 40 => if w.extractLsb' 6 5 = 0#5 then .ok (.mfirst (w.extractLsb' 21 4) (w.extractLsb' 16 5) (w.extractLsb' 11 5)) else .error .nonzeroField
    | _ => .error .reservedFunction
  | 19 => if w.extractLsb' 6 5 = 0#5 then .ok (.vbcast (w.extractLsb' 21 4) (w.extractLsb' 16 5) (w.extractLsb' 11 5) (w.extractLsb' 3 3) (w.extractLsb' 0 3)) else .error .nonzeroField
  | 20 => .ok (.vperm (w.extractLsb' 21 4) (w.extractLsb' 16 5) (w.extractLsb' 11 5) (w.extractLsb' 6 5) (w.extractLsb' 3 3) (w.extractLsb' 0 3))
  | 21 => .ok (.vslide (w.extractLsb' 21 4) (w.extractLsb' 16 5) (w.extractLsb' 11 5) (w.extractLsb' 6 5) (w.extractLsb' 3 3) (w.extractLsb' 0 3))
  | 22 =>
    match (w.extractLsb' 0 6).toNat with
    | 0 => .ok (.vext (w.extractLsb' 21 4) (w.extractLsb' 16 5) (w.extractLsb' 11 5) (w.extractLsb' 6 5))
    | 8 => .ok (.vins (w.extractLsb' 21 4) (w.extractLsb' 16 5) (w.extractLsb' 11 5) (w.extractLsb' 6 5))
    | _ => .error .reservedFunction
  | 23 =>
    match (w.extractLsb' 6 5).toNat with
    | 0 => .ok (.vredsum (w.extractLsb' 21 4) (w.extractLsb' 16 5) (w.extractLsb' 11 5) (w.extractLsb' 3 3) (w.extractLsb' 0 3))
    | 1 => .ok (.vredmax (w.extractLsb' 21 4) (w.extractLsb' 16 5) (w.extractLsb' 11 5) (w.extractLsb' 3 3) (w.extractLsb' 0 3))
    | 2 => .ok (.vredmin (w.extractLsb' 21 4) (w.extractLsb' 16 5) (w.extractLsb' 11 5) (w.extractLsb' 3 3) (w.extractLsb' 0 3))
    | 3 => .ok (.vscan (w.extractLsb' 21 4) (w.extractLsb' 16 5) (w.extractLsb' 11 5) (w.extractLsb' 3 3) (w.extractLsb' 0 3))
    | _ => .error .reservedFunction
  | 24 => .ok (.vdot (w.extractLsb' 21 4) (w.extractLsb' 16 5) (w.extractLsb' 11 5) (w.extractLsb' 6 5) (w.extractLsb' 3 3) (w.extractLsb' 0 3))
  | 25 => .ok (.vld (w.extractLsb' 21 4) (w.extractLsb' 16 5) (w.extractLsb' 12 4) (w.extractLsb' 6 6) (w.extractLsb' 3 3) (w.extractLsb' 0 3))
  | 26 => .ok (.vst (w.extractLsb' 21 4) (w.extractLsb' 16 5) (w.extractLsb' 12 4) (w.extractLsb' 6 6) (w.extractLsb' 3 3) (w.extractLsb' 0 3))
  | 27 => .ok (.vgth (w.extractLsb' 21 4) (w.extractLsb' 16 5) (w.extractLsb' 12 4) (w.extractLsb' 6 6) (w.extractLsb' 3 3) (w.extractLsb' 0 3))
  | 28 => .ok (.vsct (w.extractLsb' 21 4) (w.extractLsb' 16 5) (w.extractLsb' 12 4) (w.extractLsb' 6 6) (w.extractLsb' 3 3) (w.extractLsb' 0 3))
  | 29 => .ok (.vldm (w.extractLsb' 21 4) (w.extractLsb' 16 5) (w.extractLsb' 12 4) (w.extractLsb' 6 6) (w.extractLsb' 3 3) (w.extractLsb' 0 3))
  | 30 => .ok (.vstm (w.extractLsb' 21 4) (w.extractLsb' 16 5) (w.extractLsb' 12 4) (w.extractLsb' 6 6) (w.extractLsb' 3 3) (w.extractLsb' 0 3))
  | 31 =>
    match (w.extractLsb' 6 3).toNat with
    | 0 => .ok (.vtopk (w.extractLsb' 21 4) (w.extractLsb' 17 4) (w.extractLsb' 13 4) (w.extractLsb' 9 4) (w.extractLsb' 0 6))
    | 1 => if w.extractLsb' 0 6 = 0#6 then .ok (.vgmax (w.extractLsb' 21 4) (w.extractLsb' 17 4) (w.extractLsb' 13 4) (w.extractLsb' 9 4)) else .error .nonzeroField
    | 2 => .ok (.vrng (w.extractLsb' 21 4) (w.extractLsb' 17 4) (w.extractLsb' 13 4) (w.extractLsb' 9 4) (w.extractLsb' 0 6))
    | 3 => if w.extractLsb' 1 5 = 0#5 then .ok (.attg (w.extractLsb' 21 4) (w.extractLsb' 17 4) (w.extractLsb' 13 4) (w.extractLsb' 9 4) (w.extractLsb' 0 1)) else .error .nonzeroField
    | 4 => if w.extractLsb' 17 4 = 0#4 ∧ w.extractLsb' 0 6 = 0#6 then .ok (.vdefer (w.extractLsb' 21 4) (w.extractLsb' 13 4) (w.extractLsb' 9 4)) else .error .nonzeroField
    | 5 => if w.extractLsb' 13 4 = 0#4 ∧ w.extractLsb' 0 6 = 0#6 then .ok (.vredeem (w.extractLsb' 21 4) (w.extractLsb' 17 4) (w.extractLsb' 9 4)) else .error .nonzeroField
    | 6 => if w.extractLsb' 9 4 = 0#4 then .ok (.vpset (w.extractLsb' 21 4) (w.extractLsb' 17 4) (w.extractLsb' 13 4) (w.extractLsb' 0 6)) else .error .nonzeroField
    | 7 => if w.extractLsb' 17 4 = 0#4 ∧ w.extractLsb' 9 4 = 0#4 ∧ w.extractLsb' 0 6 = 0#6 then .ok (.vput (w.extractLsb' 21 4) (w.extractLsb' 13 4)) else if w.extractLsb' 9 12 = 0#12 ∧ w.extractLsb' 5 1 = 1#1 then .ok (.vputVcr (w.extractLsb' 21 4) (w.extractLsb' 0 5)) else .error .nonzeroField
    | _ => .error .reservedFunction
  | _ => .error .reservedMajor

/-- The M words (R121): the major opcode chooses the group, its fixed fields the instruction.
A field that must hold 0 and does not is refused by name. -/
def decodeM (w : BitVec 32) : Except DecodeError Instr :=
  match (w.extractLsb' 25 5).toNat with
  | 0 =>
    if ¬ (w.extractLsb' 0 11 = 0#11) then .error .nonzeroField else match (w.extractLsb' 15 3).toNat with
    | 0 => .ok (.nsetCount (w.extractLsb' 21 4) (w.extractLsb' 18 3) (w.extractLsb' 11 4))
    | 1 => .ok (.nsetSa (w.extractLsb' 21 4) (w.extractLsb' 18 3) (w.extractLsb' 11 4))
    | 2 => .ok (.nsetSb (w.extractLsb' 21 4) (w.extractLsb' 18 3) (w.extractLsb' 11 4))
    | 3 => .ok (.nsetSc (w.extractLsb' 21 4) (w.extractLsb' 18 3) (w.extractLsb' 11 4))
    | 4 => .ok (.nsetKind (w.extractLsb' 21 4) (w.extractLsb' 18 3) (w.extractLsb' 11 4))
    | _ => .error .reservedFunction
  | 1 =>
    if ¬ (w.extractLsb' 0 15 = 0#15) then .error .nonzeroField else match (w.extractLsb' 19 2).toNat with
    | 0 => .ok (.nbaseA (w.extractLsb' 21 4) (w.extractLsb' 15 4))
    | 1 => .ok (.nbaseB (w.extractLsb' 21 4) (w.extractLsb' 15 4))
    | 2 => .ok (.nbaseC (w.extractLsb' 21 4) (w.extractLsb' 15 4))
    | _ => .error .reservedFunction
  | 2 => if w.extractLsb' 0 17 = 0#17 then .ok (.nfmt (w.extractLsb' 21 4) (w.extractLsb' 17 4)) else .error .nonzeroField
  | 3 => if w.extractLsb' 0 21 = 0#21 then .ok (.ngo (w.extractLsb' 21 4)) else .error .nonzeroField
  | 4 => if w.extractLsb' 0 4 = 0#4 then .ok (.ndrain (w.extractLsb' 21 4) (w.extractLsb' 17 4) (w.extractLsb' 13 4) (w.extractLsb' 10 3) (w.extractLsb' 8 2) (w.extractLsb' 4 4)) else .error .nonzeroField
  | 5 => if w.extractLsb' 0 21 = 0#21 then .ok (.nzero (w.extractLsb' 21 4)) else .error .nonzeroField
  | 6 => if w.extractLsb' 0 13 = 0#13 then .ok (.nload (w.extractLsb' 21 4) (w.extractLsb' 17 4) (w.extractLsb' 13 4)) else .error .nonzeroField
  | 7 => if w.extractLsb' 0 12 = 0#12 then .ok (.nwait (w.extractLsb' 21 4) (w.extractLsb' 12 9)) else .error .nonzeroField
  | _ => .error .reservedMajor

/-- The D words (R122): the major opcode chooses the group, its fixed fields the instruction.
A field that must hold 0 and does not is refused by name. -/
def decodeD (w : BitVec 32) : Except DecodeError Instr :=
  match (w.extractLsb' 25 5).toNat with
  | 0 => .ok (.dcp (w.extractLsb' 21 4) (w.extractLsb' 17 4) (w.extractLsb' 13 4) (w.extractLsb' 9 4) (w.extractLsb' 5 4) (w.extractLsb' 2 3) (w.extractLsb' 1 1) (w.extractLsb' 0 1))
  | 1 => .ok (.dcp2 (w.extractLsb' 21 4) (w.extractLsb' 17 4) (w.extractLsb' 13 4) (w.extractLsb' 9 4) (w.extractLsb' 5 4) (w.extractLsb' 2 3) (w.extractLsb' 1 1) (w.extractLsb' 0 1))
  | 2 => .ok (.dcpn (w.extractLsb' 21 4) (w.extractLsb' 17 4) (w.extractLsb' 13 4) (w.extractLsb' 9 4) (w.extractLsb' 5 4) (w.extractLsb' 2 3) (w.extractLsb' 1 1) (w.extractLsb' 0 1))
  | 3 => .ok (.dgth (w.extractLsb' 21 4) (w.extractLsb' 17 4) (w.extractLsb' 13 4) (w.extractLsb' 9 4) (w.extractLsb' 5 4) (w.extractLsb' 2 3) (w.extractLsb' 1 1) (w.extractLsb' 0 1))
  | 4 => .ok (.dsct (w.extractLsb' 21 4) (w.extractLsb' 17 4) (w.extractLsb' 13 4) (w.extractLsb' 9 4) (w.extractLsb' 5 4) (w.extractLsb' 2 3) (w.extractLsb' 1 1) (w.extractLsb' 0 1))
  | 5 => if w.extractLsb' 1 8 = 0#8 then .ok (.dfill (w.extractLsb' 21 4) (w.extractLsb' 17 4) (w.extractLsb' 13 4) (w.extractLsb' 9 4) (w.extractLsb' 0 1)) else .error .nonzeroField
  | 6 => if w.extractLsb' 18 3 = 0#3 ∧ w.extractLsb' 0 6 = 0#6 then .ok (.devt (w.extractLsb' 21 4) (w.extractLsb' 9 9) (w.extractLsb' 6 3)) else .error .nonzeroField
  | 8 => if w.extractLsb' 17 4 = 0#4 ∧ w.extractLsb' 4 9 = 0#9 then .ok (.dwin (w.extractLsb' 21 4) (w.extractLsb' 13 4) (w.extractLsb' 0 4)) else .error .nonzeroField
  | 9 =>
    match (w.extractLsb' 4 17).toNat with
    | 0 => .ok (.dspan (w.extractLsb' 21 4) (w.extractLsb' 0 4))
    | 1 => .ok (.dspanRetry (w.extractLsb' 21 4) (w.extractLsb' 0 4))
    | _ => .error .reservedFunction
  | 10 => if w.extractLsb' 4 5 = 0#5 then .ok (.dkey (w.extractLsb' 21 4) (w.extractLsb' 17 4) (w.extractLsb' 13 4) (w.extractLsb' 9 4) (w.extractLsb' 0 4)) else .error .nonzeroField
  | 11 =>
    match (w.extractLsb' 0 9).toNat with
    | 0 => .ok (.dcollRs (w.extractLsb' 21 4) (w.extractLsb' 17 4) (w.extractLsb' 13 4) (w.extractLsb' 9 4))
    | 64 => .ok (.dcollAg (w.extractLsb' 21 4) (w.extractLsb' 17 4) (w.extractLsb' 13 4) (w.extractLsb' 9 4))
    | 128 => .ok (.dcollAr (w.extractLsb' 21 4) (w.extractLsb' 17 4) (w.extractLsb' 13 4) (w.extractLsb' 9 4))
    | 192 => .ok (.dcollSmax (w.extractLsb' 21 4) (w.extractLsb' 17 4) (w.extractLsb' 13 4) (w.extractLsb' 9 4))
    | 256 => .ok (.dcollBc (w.extractLsb' 21 4) (w.extractLsb' 17 4) (w.extractLsb' 13 4) (w.extractLsb' 9 4))
    | _ => .error .reservedFunction
  | 16 => if w.extractLsb' 1 8 = 0#8 then .ok (.kvlook (w.extractLsb' 21 4) (w.extractLsb' 17 4) (w.extractLsb' 13 4) (w.extractLsb' 9 4) (w.extractLsb' 0 1)) else .error .nonzeroField
  | 17 => if w.extractLsb' 1 8 = 0#8 then .ok (.kvapp (w.extractLsb' 21 4) (w.extractLsb' 17 4) (w.extractLsb' 13 4) (w.extractLsb' 9 4) (w.extractLsb' 0 1)) else .error .nonzeroField
  | 18 =>
    match (w.extractLsb' 1 8).toNat with
    | 0 => .ok (.kvfork (w.extractLsb' 21 4) (w.extractLsb' 17 4) (w.extractLsb' 13 4) (w.extractLsb' 9 4) (w.extractLsb' 0 1))
    | 1 => if w.extractLsb' 17 4 = 0#4 then .ok (.kvforkUnshare (w.extractLsb' 21 4) (w.extractLsb' 13 4) (w.extractLsb' 9 4) (w.extractLsb' 0 1)) else .error .nonzeroField
    | _ => .error .reservedFunction
  | 19 => if w.extractLsb' 17 4 = 0#4 ∧ w.extractLsb' 1 8 = 0#8 then .ok (.kvrel (w.extractLsb' 21 4) (w.extractLsb' 13 4) (w.extractLsb' 9 4) (w.extractLsb' 0 1)) else .error .nonzeroField
  | 20 => if w.extractLsb' 17 4 = 0#4 ∧ w.extractLsb' 1 8 = 0#8 then .ok (.kvcommit (w.extractLsb' 21 4) (w.extractLsb' 13 4) (w.extractLsb' 9 4) (w.extractLsb' 0 1)) else .error .nonzeroField
  | 21 => if w.extractLsb' 17 4 = 0#4 ∧ w.extractLsb' 1 8 = 0#8 then .ok (.kvtrunc (w.extractLsb' 21 4) (w.extractLsb' 13 4) (w.extractLsb' 9 4) (w.extractLsb' 0 1)) else .error .nonzeroField
  | 22 => if w.extractLsb' 1 8 = 0#8 then .ok (.kvins (w.extractLsb' 21 4) (w.extractLsb' 17 4) (w.extractLsb' 13 4) (w.extractLsb' 9 4) (w.extractLsb' 0 1)) else .error .nonzeroField
  | 23 => if w.extractLsb' 17 4 = 0#4 ∧ w.extractLsb' 1 8 = 0#8 then .ok (.kvrecap (w.extractLsb' 21 4) (w.extractLsb' 13 4) (w.extractLsb' 9 4) (w.extractLsb' 0 1)) else .error .nonzeroField
  | 24 =>
    match (w.extractLsb' 1 8).toNat with
    | 0 => .ok (.capsel (w.extractLsb' 21 4) (w.extractLsb' 17 4) (w.extractLsb' 13 4) (w.extractLsb' 9 4) (w.extractLsb' 0 1))
    | 1 => .ok (.capselThr (w.extractLsb' 21 4) (w.extractLsb' 17 4) (w.extractLsb' 13 4) (w.extractLsb' 9 4) (w.extractLsb' 0 1))
    | _ => .error .reservedFunction
  | 28 => if w.extractLsb' 17 4 = 0#4 ∧ w.extractLsb' 0 9 = 0#9 then .ok (.relv (w.extractLsb' 21 4) (w.extractLsb' 13 4) (w.extractLsb' 9 4)) else .error .nonzeroField
  | 29 => if w.extractLsb' 17 4 = 0#4 ∧ w.extractLsb' 3 6 = 0#6 then .ok (.trec (w.extractLsb' 21 4) (w.extractLsb' 13 4) (w.extractLsb' 9 4) (w.extractLsb' 1 2) (w.extractLsb' 0 1)) else .error .nonzeroField
  | _ => .error .reservedMajor

/-- The engine whose tag stands in bits 31 and 30 (R53, R114). -/
def wordEngine (w : BitVec 32) : Eng :=
  match (w.extractLsb' 30 2).toNat with
  | 0 => .S
  | 1 => .V
  | 2 => .M
  | _ => .D

/-- The layout of the tagged engine alone reads a word (R114). -/
def decodeFields (w : BitVec 32) : Except DecodeError Instr :=
  match wordEngine w with
  | .S => decodeS w
  | .V => decodeV w
  | .M => decodeM w
  | .D => decodeD w

/-- The instruction of a word, or the reason it is illegal (R123). -/
def decode (w : BitVec 32) : Except DecodeError Instr :=
  match decodeFields w with
  | .ok i => if i.wellFormed then .ok i else .error .illegalField
  | .error e => .error e

/-- The word of a word-holding row, bit for bit from bit 31 down (R115 to R122); the unit steps have none. -/
def encode : Instr → Option (BitVec 32)
  | .add d a b => some (0x0#8 ++ d ++ a ++ b ++ 0x0#6)
  | .sub d a b => some (0x0#8 ++ d ++ a ++ b ++ 0x1#6)
  | .and d a b => some (0x0#8 ++ d ++ a ++ b ++ 0x2#6)
  | .or d a b => some (0x0#8 ++ d ++ a ++ b ++ 0x3#6)
  | .xor d a b => some (0x0#8 ++ d ++ a ++ b ++ 0x4#6)
  | .andn d a b => some (0x0#8 ++ d ++ a ++ b ++ 0x5#6)
  | .orn d a b => some (0x0#8 ++ d ++ a ++ b ++ 0x6#6)
  | .sll d a b => some (0x0#8 ++ d ++ a ++ b ++ 0x7#6)
  | .srl d a b => some (0x0#8 ++ d ++ a ++ b ++ 0x8#6)
  | .sra d a b => some (0x0#8 ++ d ++ a ++ b ++ 0x9#6)
  | .rotl d a b => some (0x0#8 ++ d ++ a ++ b ++ 0xA#6)
  | .rotr d a b => some (0x0#8 ++ d ++ a ++ b ++ 0xB#6)
  | .slt d a b => some (0x0#8 ++ d ++ a ++ b ++ 0xC#6)
  | .sltu d a b => some (0x0#8 ++ d ++ a ++ b ++ 0xD#6)
  | .min d a b => some (0x0#8 ++ d ++ a ++ b ++ 0xE#6)
  | .max d a b => some (0x0#8 ++ d ++ a ++ b ++ 0xF#6)
  | .minu d a b => some (0x0#8 ++ d ++ a ++ b ++ 0x10#6)
  | .maxu d a b => some (0x0#8 ++ d ++ a ++ b ++ 0x11#6)
  | .mul d a b => some (0x0#8 ++ d ++ a ++ b ++ 0x12#6)
  | .mulh d a b => some (0x0#8 ++ d ++ a ++ b ++ 0x13#6)
  | .mulhu d a b => some (0x0#8 ++ d ++ a ++ b ++ 0x14#6)
  | .div d a b => some (0x0#8 ++ d ++ a ++ b ++ 0x15#6)
  | .divu d a b => some (0x0#8 ++ d ++ a ++ b ++ 0x16#6)
  | .rem d a b => some (0x0#8 ++ d ++ a ++ b ++ 0x17#6)
  | .remu d a b => some (0x0#8 ++ d ++ a ++ b ++ 0x18#6)
  | .csel d a b => some (0x0#8 ++ d ++ a ++ b ++ 0x19#6)
  | .clz d a => some (0x1#8 ++ d ++ a ++ 0x0#12)
  | .ctz d a => some (0x1#8 ++ d ++ a ++ 0x1#12)
  | .popc d a => some (0x1#8 ++ d ++ a ++ 0x2#12)
  | .sextB d a => some (0x1#8 ++ d ++ a ++ 0x3#12)
  | .sextH d a => some (0x1#8 ++ d ++ a ++ 0x43#12)
  | .sextW d a => some (0x1#8 ++ d ++ a ++ 0x83#12)
  | .zextB d a => some (0x1#8 ++ d ++ a ++ 0x4#12)
  | .zextH d a => some (0x1#8 ++ d ++ a ++ 0x44#12)
  | .zextW d a => some (0x1#8 ++ d ++ a ++ 0x84#12)
  | .bext d a w l => some (0x2#8 ++ d ++ a ++ w ++ l)
  | .bins d a w l => some (0x3#8 ++ d ++ a ++ w ++ l)
  | .addi d a i => some (0x4#8 ++ d ++ a ++ i)
  | .andi d a i => some (0x5#8 ++ d ++ a ++ i)
  | .ori d a i => some (0x6#8 ++ d ++ a ++ i)
  | .xori d a i => some (0x7#8 ++ d ++ a ++ i)
  | .slti d a i => some (0x8#8 ++ d ++ a ++ i)
  | .sltiu d a i => some (0x9#8 ++ d ++ a ++ i)
  | .slli d a s => some (0xA#8 ++ d ++ a ++ 0x0#6 ++ s)
  | .srli d a s => some (0xB#8 ++ d ++ a ++ 0x0#6 ++ s)
  | .srai d a s => some (0xC#8 ++ d ++ a ++ 0x0#6 ++ s)
  | .lih d i => some (0xD#8 ++ d ++ i)
  | .getw d a l => some (0xE#8 ++ d ++ a ++ l)
  | .ldB d a o => some (0x10#8 ++ d ++ a ++ o)
  | .ldBu d a o => some (0x11#8 ++ d ++ a ++ o)
  | .ldH d a o => some (0x12#8 ++ d ++ a ++ o)
  | .ldHu d a o => some (0x13#8 ++ d ++ a ++ o)
  | .ldW d a o => some (0x14#8 ++ d ++ a ++ o)
  | .ldWu d a o => some (0x15#8 ++ d ++ a ++ o)
  | .ldD d a o => some (0x16#8 ++ d ++ a ++ o)
  | .st d a o => some (0x17#8 ++ d ++ a ++ o)
  | .ldp d a o => some (0x18#8 ++ d ++ a ++ o)
  | .stp d a o => some (0x19#8 ++ d ++ a ++ o)
  | .pfR a o => some (0x680#14 ++ a ++ o)
  | .pfW a o => some (0x681#14 ++ a ++ o)
  | .putV d a => some (0x1B#8 ++ d ++ a ++ 0x1#12)
  | .putM d a => some (0x1B#8 ++ d ++ a ++ 0x2#12)
  | .putD d a => some (0x1B#8 ++ d ++ a ++ 0x3#12)
  | .get d => some (0x1D#8 ++ d ++ 0x0#18)
  | .ewait d => some (0x1D#8 ++ d ++ 0x1#18)
  | .epeek d => some (0x1D#8 ++ d ++ 0x2#18)
  | .mcall d a b k => some (0x1E#8 ++ d ++ a ++ b ++ k)
  | .mdef k a o => some (0x1F#8 ++ k ++ a ++ o)
  | .amoAdd d a b o s => some (0x20#8 ++ d ++ a ++ b ++ o ++ s)
  | .amoAnd d a b o s => some (0x21#8 ++ d ++ a ++ b ++ o ++ s)
  | .amoOr d a b o s => some (0x22#8 ++ d ++ a ++ b ++ o ++ s)
  | .amoXor d a b o s => some (0x23#8 ++ d ++ a ++ b ++ o ++ s)
  | .amoMin d a b o s => some (0x24#8 ++ d ++ a ++ b ++ o ++ s)
  | .amoMax d a b o s => some (0x25#8 ++ d ++ a ++ b ++ o ++ s)
  | .amoMinu d a b o s => some (0x26#8 ++ d ++ a ++ b ++ o ++ s)
  | .amoMaxu d a b o s => some (0x27#8 ++ d ++ a ++ b ++ o ++ s)
  | .amoSwap d a b o s => some (0x28#8 ++ d ++ a ++ b ++ o ++ s)
  | .cas d a b o s => some (0x29#8 ++ d ++ a ++ b ++ o ++ s)
  | .fence o s => some (0xA80000#26 ++ o ++ s)
  | .fenceDrain => some (0x2A00002C#32)
  | .ifence => some (0x2B000000#32)
  | .spawn a b => some (0xB00#14 ++ a ++ b ++ 0x0#6)
  | .tail => some (0x2D000000#32)
  | .yield => some (0x2D000001#32)
  | .poll d => some (0x2D#8 ++ d ++ 0x2#18)
  | .adopt d a b => some (0x2E#8 ++ d ++ a ++ b ++ 0x0#6)
  | .sys => some (0x2F000000#32)
  | .brk => some (0x2F000001#32)
  | .eret => some (0x2F000002#32)
  | .uret => some (0x2F000003#32)
  | .resume => some (0x2F000004#32)
  | .tlbinv a b => some (0xBC0#14 ++ a ++ b ++ 0x5#6)
  | .halt => some (0x2F000006#32)
  | .beq a b o => some (0x30#8 ++ a ++ b ++ o)
  | .bne a b o => some (0x31#8 ++ a ++ b ++ o)
  | .blt a b o => some (0x32#8 ++ a ++ b ++ o)
  | .bge a b o => some (0x33#8 ++ a ++ b ++ o)
  | .bltu a b o => some (0x34#8 ++ a ++ b ++ o)
  | .bgeu a b o => some (0x35#8 ++ a ++ b ++ o)
  | .bp k o => some (0x36#8 ++ k ++ 0x0#6 ++ o)
  | .bpNot k o => some (0x36#8 ++ k ++ 0x1#6 ++ o)
  | .j o => some (0xDC0#14 ++ o)
  | .jal d o => some (0x38#8 ++ d ++ o)
  | .jalr d a i => some (0x39#8 ++ d ++ a ++ i)
  | .jtab d a l => some (0x3A#8 ++ d ++ a ++ l)
  | .loop a o => some (0x3B#8 ++ a ++ 0x0#6 ++ o)
  | .csrr d c => some (0x3C#8 ++ d ++ 0x0#6 ++ c)
  | .csrw d a c => some (0x3D#8 ++ d ++ a ++ c)
  | .csrs d a c => some (0x3E#8 ++ d ++ a ++ c)
  | .csrc d a c => some (0x3F#8 ++ d ++ a ++ c)
  | .vadd g d a b m t => some (0x20#7 ++ g ++ d ++ a ++ b ++ m ++ t)
  | .vsub g d a b m t => some (0x21#7 ++ g ++ d ++ a ++ b ++ m ++ t)
  | .vmul g d a b m t => some (0x22#7 ++ g ++ d ++ a ++ b ++ m ++ t)
  | .vfma g d a b m t => some (0x23#7 ++ g ++ d ++ a ++ b ++ m ++ t)
  | .vfms g d a b m t => some (0x24#7 ++ g ++ d ++ a ++ b ++ m ++ t)
  | .vmax g d a b m t => some (0x25#7 ++ g ++ d ++ a ++ b ++ m ++ t)
  | .vmin g d a b m t => some (0x26#7 ++ g ++ d ++ a ++ b ++ m ++ t)
  | .vabs g d a m t => some (0x27#7 ++ g ++ d ++ a ++ 0x0#5 ++ m ++ t)
  | .vneg g d a m t => some (0x27#7 ++ g ++ d ++ a ++ 0x1#5 ++ m ++ t)
  | .vrcp g d a m t => some (0x27#7 ++ g ++ d ++ a ++ 0x2#5 ++ m ++ t)
  | .vrsqrt g d a m t => some (0x27#7 ++ g ++ d ++ a ++ 0x3#5 ++ m ++ t)
  | .vsqrt g d a m t => some (0x27#7 ++ g ++ d ++ a ++ 0x4#5 ++ m ++ t)
  | .vexp2 g d a m t => some (0x27#7 ++ g ++ d ++ a ++ 0x5#5 ++ m ++ t)
  | .vlog2 g d a m t => some (0x27#7 ++ g ++ d ++ a ++ 0x6#5 ++ m ++ t)
  | .vrnd g d a m t => some (0x27#7 ++ g ++ d ++ a ++ 0x7#5 ++ m ++ t)
  | .vnot g d a m t => some (0x27#7 ++ g ++ d ++ a ++ 0x8#5 ++ m ++ t)
  | .vmov g d a m t => some (0x27#7 ++ g ++ d ++ a ++ 0x9#5 ++ m ++ t)
  | .vcvt g d a s e m t => some (0x28#7 ++ g ++ d ++ a ++ s ++ e ++ m ++ t)
  | .vand g d a b m t => some (0x29#7 ++ g ++ d ++ a ++ b ++ m ++ t)
  | .vor g d a b m t => some (0x2A#7 ++ g ++ d ++ a ++ b ++ m ++ t)
  | .vxor g d a b m t => some (0x2B#7 ++ g ++ d ++ a ++ b ++ m ++ t)
  | .vsll g d a b m t => some (0x2C#7 ++ g ++ d ++ a ++ b ++ m ++ t)
  | .vsrl g d a b m t => some (0x2D#7 ++ g ++ d ++ a ++ b ++ m ++ t)
  | .vsra g d a b m t => some (0x2E#7 ++ g ++ d ++ a ++ b ++ m ++ t)
  | .vaddsat g d a b m t => some (0x2F#7 ++ g ++ d ++ a ++ b ++ m ++ t)
  | .vcmpEq g d a b m t => some (0x30#7 ++ g ++ d ++ 0x0#2 ++ a ++ b ++ m ++ t)
  | .vcmpNe g d a b m t => some (0x30#7 ++ g ++ d ++ 0x1#2 ++ a ++ b ++ m ++ t)
  | .vcmpLt g d a b m t => some (0x30#7 ++ g ++ d ++ 0x2#2 ++ a ++ b ++ m ++ t)
  | .vcmpLe g d a b m t => some (0x30#7 ++ g ++ d ++ 0x3#2 ++ a ++ b ++ m ++ t)
  | .vsel g d a b m t => some (0x31#7 ++ g ++ d ++ a ++ b ++ m ++ t)
  | .mand g d a b => some (0x32#7 ++ g ++ d ++ a ++ b ++ 0x0#6)
  | .mor g d a b => some (0x32#7 ++ g ++ d ++ a ++ b ++ 0x8#6)
  | .mxor g d a b => some (0x32#7 ++ g ++ d ++ a ++ b ++ 0x10#6)
  | .mnot g d a => some (0x32#7 ++ g ++ d ++ a ++ 0x18#11)
  | .mpop g d a => some (0x32#7 ++ g ++ d ++ a ++ 0x20#11)
  | .mfirst g d a => some (0x32#7 ++ g ++ d ++ a ++ 0x28#11)
  | .vbcast g d a m t => some (0x33#7 ++ g ++ d ++ a ++ 0x0#5 ++ m ++ t)
  | .vperm g d a b m t => some (0x34#7 ++ g ++ d ++ a ++ b ++ m ++ t)
  | .vslide g d a b m t => some (0x35#7 ++ g ++ d ++ a ++ b ++ m ++ t)
  | .vext g d a b => some (0x36#7 ++ g ++ d ++ a ++ b ++ 0x0#6)
  | .vins g d a b => some (0x36#7 ++ g ++ d ++ a ++ b ++ 0x8#6)
  | .vredsum g d a m t => some (0x37#7 ++ g ++ d ++ a ++ 0x0#5 ++ m ++ t)
  | .vredmax g d a m t => some (0x37#7 ++ g ++ d ++ a ++ 0x1#5 ++ m ++ t)
  | .vredmin g d a m t => some (0x37#7 ++ g ++ d ++ a ++ 0x2#5 ++ m ++ t)
  | .vscan g d a m t => some (0x37#7 ++ g ++ d ++ a ++ 0x3#5 ++ m ++ t)
  | .vdot g d a b m t => some (0x38#7 ++ g ++ d ++ a ++ b ++ m ++ t)
  | .vld g d s o m t => some (0x39#7 ++ g ++ d ++ s ++ o ++ m ++ t)
  | .vst g d s o m t => some (0x3A#7 ++ g ++ d ++ s ++ o ++ m ++ t)
  | .vgth g d s o m t => some (0x3B#7 ++ g ++ d ++ s ++ o ++ m ++ t)
  | .vsct g d s o m t => some (0x3C#7 ++ g ++ d ++ s ++ o ++ m ++ t)
  | .vldm g d s o m t => some (0x3D#7 ++ g ++ d ++ s ++ o ++ m ++ t)
  | .vstm g d s o m t => some (0x3E#7 ++ g ++ d ++ s ++ o ++ m ++ t)
  | .vtopk g d a b k => some (0x3F#7 ++ g ++ d ++ a ++ b ++ 0x0#3 ++ k)
  | .vgmax g d a b => some (0x3F#7 ++ g ++ d ++ a ++ b ++ 0x40#9)
  | .vrng g d a b n => some (0x3F#7 ++ g ++ d ++ a ++ b ++ 0x2#3 ++ n)
  | .attg g d a b m => some (0x3F#7 ++ g ++ d ++ a ++ b ++ 0x60#8 ++ m)
  | .vdefer g a b => some (0x3F#7 ++ g ++ 0x0#4 ++ a ++ b ++ 0x100#9)
  | .vredeem g d b => some (0x3F#7 ++ g ++ d ++ 0x0#4 ++ b ++ 0x140#9)
  | .vpset g d a c => some (0x3F#7 ++ g ++ d ++ a ++ 0x6#7 ++ c)
  | .vput g a => some (0x3F#7 ++ g ++ 0x0#4 ++ a ++ 0x1C0#13)
  | .vputVcr g r => some (0x3F#7 ++ g ++ 0xF#16 ++ r)
  | .nsetCount g l s => some (0x40#7 ++ g ++ l ++ 0x0#3 ++ s ++ 0x0#11)
  | .nsetSa g l s => some (0x40#7 ++ g ++ l ++ 0x1#3 ++ s ++ 0x0#11)
  | .nsetSb g l s => some (0x40#7 ++ g ++ l ++ 0x2#3 ++ s ++ 0x0#11)
  | .nsetSc g l s => some (0x40#7 ++ g ++ l ++ 0x3#3 ++ s ++ 0x0#11)
  | .nsetKind g l s => some (0x40#7 ++ g ++ l ++ 0x4#3 ++ s ++ 0x0#11)
  | .nbaseA g s => some (0x41#7 ++ g ++ 0x0#2 ++ s ++ 0x0#15)
  | .nbaseB g s => some (0x41#7 ++ g ++ 0x1#2 ++ s ++ 0x0#15)
  | .nbaseC g s => some (0x41#7 ++ g ++ 0x2#2 ++ s ++ 0x0#15)
  | .nfmt g s => some (0x42#7 ++ g ++ s ++ 0x0#17)
  | .ngo g => some (0x43#7 ++ g ++ 0x0#21)
  | .ndrain g s f r t b => some (0x44#7 ++ g ++ s ++ f ++ r ++ t ++ b ++ 0x0#4)
  | .nzero g => some (0x45#7 ++ g ++ 0x0#21)
  | .nload g s f => some (0x46#7 ++ g ++ s ++ f ++ 0x0#13)
  | .nwait g t => some (0x47#7 ++ g ++ t ++ 0x0#12)
  | .dcp g d a b f r s e => some (0x60#7 ++ g ++ d ++ a ++ b ++ f ++ r ++ s ++ e)
  | .dcp2 g d a b f r s e => some (0x61#7 ++ g ++ d ++ a ++ b ++ f ++ r ++ s ++ e)
  | .dcpn g d a b f r s e => some (0x62#7 ++ g ++ d ++ a ++ b ++ f ++ r ++ s ++ e)
  | .dgth g d a b f r s e => some (0x63#7 ++ g ++ d ++ a ++ b ++ f ++ r ++ s ++ e)
  | .dsct g d a b f r s e => some (0x64#7 ++ g ++ d ++ a ++ b ++ f ++ r ++ s ++ e)
  | .dfill g d a b e => some (0x65#7 ++ g ++ d ++ a ++ b ++ 0x0#8 ++ e)
  | .devt g t s => some (0x66#7 ++ g ++ 0x0#3 ++ t ++ s ++ 0x0#6)
  | .dwin g a w => some (0x68#7 ++ g ++ 0x0#4 ++ a ++ 0x0#9 ++ w)
  | .dspan g w => some (0x69#7 ++ g ++ 0x0#17 ++ w)
  | .dspanRetry g w => some (0x69#7 ++ g ++ 0x1#17 ++ w)
  | .dkey g d a b w => some (0x6A#7 ++ g ++ d ++ a ++ b ++ 0x0#5 ++ w)
  | .dcollRs g d a b => some (0x6B#7 ++ g ++ d ++ a ++ b ++ 0x0#9)
  | .dcollAg g d a b => some (0x6B#7 ++ g ++ d ++ a ++ b ++ 0x40#9)
  | .dcollAr g d a b => some (0x6B#7 ++ g ++ d ++ a ++ b ++ 0x80#9)
  | .dcollSmax g d a b => some (0x6B#7 ++ g ++ d ++ a ++ b ++ 0xC0#9)
  | .dcollBc g d a b => some (0x6B#7 ++ g ++ d ++ a ++ b ++ 0x100#9)
  | .kvlook g d a b e => some (0x70#7 ++ g ++ d ++ a ++ b ++ 0x0#8 ++ e)
  | .kvapp g d a b e => some (0x71#7 ++ g ++ d ++ a ++ b ++ 0x0#8 ++ e)
  | .kvfork g d a b e => some (0x72#7 ++ g ++ d ++ a ++ b ++ 0x0#8 ++ e)
  | .kvforkUnshare g a b e => some (0x72#7 ++ g ++ 0x0#4 ++ a ++ b ++ 0x1#8 ++ e)
  | .kvrel g a b e => some (0x73#7 ++ g ++ 0x0#4 ++ a ++ b ++ 0x0#8 ++ e)
  | .kvcommit g a b e => some (0x74#7 ++ g ++ 0x0#4 ++ a ++ b ++ 0x0#8 ++ e)
  | .kvtrunc g a b e => some (0x75#7 ++ g ++ 0x0#4 ++ a ++ b ++ 0x0#8 ++ e)
  | .kvins g d a b e => some (0x76#7 ++ g ++ d ++ a ++ b ++ 0x0#8 ++ e)
  | .kvrecap g a b e => some (0x77#7 ++ g ++ 0x0#4 ++ a ++ b ++ 0x0#8 ++ e)
  | .capsel g d a b e => some (0x78#7 ++ g ++ d ++ a ++ b ++ 0x0#8 ++ e)
  | .capselThr g d a b e => some (0x78#7 ++ g ++ d ++ a ++ b ++ 0x1#8 ++ e)
  | .relv g a b => some (0x7C#7 ++ g ++ 0x0#4 ++ a ++ b ++ 0x0#9)
  | .trec g a b r e => some (0x7D#7 ++ g ++ 0x0#4 ++ a ++ b ++ 0x0#6 ++ r ++ e)
  | .wordStepOver _ _ => none
  | .jointOutcomePop _ _ => none
  | .operandQueuePop _ _ => none
  | .guardResolve _ _ => none
  | .icacheFill _ _ => none
  | .taskStart _ => none
  | .gangStart _ _ => none
  | .expanderEnqueue _ => none
  | .spillRefill _ _ => none
  | .agingPromotion _ _ _ => none
  | .taskEnd _ => none
  | .joinStep _ => none
  | .trapEntry _ => none
  | .tlbWalk _ _ => none
  | .tlbinvComplete _ => none
  | .nestBodyStep _ => none
  | .nestHoldRetry _ => none
  | .nestHoldTimeout _ => none
  | .nwaitPost _ => none
  | .copyPieceDone _ _ => none
  | .copyComplete _ _ => none
  | .devtPost _ _ => none
  | .kvStep _ _ => none
  | .attgComplete _ => none
  | .adoptSwitchStep _ => none
  | .relvPortStep _ _ => none
  | .trecRecordWrite _ _ => none
  | .routerForward _ _ => none
  | .packetAgeDiscard _ => none
  | .linkFailure _ _ => none
  | .windowPacketHandoff _ _ => none
  | .remoteRequestArrival _ => none
  | .remoteResponseArrival _ => none
  | .remoteRequestTimeout _ _ => none
  | .postedWriteArrival _ => none
  | .countedPacketArrival _ => none
  | .keystoneArrival _ => none
  | .reopenNoteArrival _ => none
  | .pierPtoExpiry _ _ => none
  | .resendRequestReceipt _ => none
  | .closeNoteReceipt _ => none
  | .keystoneResendTimeout _ _ => none
  | .congestionNoteReceipt _ => none
  | .rateLimitRecovery _ _ => none
  | .dcollPacketArrival _ => none
  | .schedPreemptRequest _ _ => none
  | .firmwarePreempt _ _ => none
  | .firmwareStopRelease _ _ => none
  | .forcedCut _ => none
  | .imageSaveComplete _ => none
  | .contextRestore _ => none
  | .resumeInject _ _ => none
  | .expqPop _ => none
  | .brimMoveStart _ _ => none
  | .brimStageAdvance _ => none
  | .brimMoveCommit _ => none
  | .bmovErrClear _ => none
  | .holdWrite _ _ => none
  | .firmwareCsrWrite _ _ _ => none
  | .kvrepWrite _ _ => none
  | .kvrepErrClear _ => none
  | .tileRetire _ _ => none
  | .debugModeWrite _ _ => none
  | .registerWrite _ _ _ _ => none
  | .hbmScrub _ => none
  | .selftestRun _ _ _ => none
  | .selftestForcedSlot _ _ => none
  | .firmwareHaltHandling _ => none
  | .stateFuseBurn => none
  | .debugUnlock _ => none
  | .debuggerContinue _ => none
  | .getVersion => none
  | .getCapabilities => none
  | .negotiateAlgorithms => none
  | .getDigests => none
  | .getCertificate => none
  | .challenge _ => none
  | .getMeasurements => none
  | .fatalFreeze _ => none
  | .bar2Write _ _ => none
  | .bar2Read _ => none
  | .sqDoorbell _ _ => none
  | .ringEnable _ _ => none
  | .ringDisable _ _ => none
  | .cqHeadWrite _ _ => none
  | .submissionEntryTake _ => none
  | .nop _ => none
  | .launch _ => none
  | .seal _ => none
  | .unseal _ => none
  | .unknownCommand _ => none
  | .msixMessage _ => none
  | .reset => none
  | .bringupStageEnd _ _ => none
  | .jtagBypass => none
  | .jtagIdcode => none
  | .jtagSamplePreload => none
  | .jtagExtest => none
  | .thermalSample _ _ => none
  | .dieRetentionEnter _ => none
  | .dieRetentionExit _ => none
  | .packageStandbyEnter => none
  | .packageStandbyExit => none
  | .dspanSpacingExpiry _ _ => none
  | .configurationRequest _ => none

/-- The instruction the decoder reads from a row of the table laid out as the hardware stores it: one little-endian
32-bit word (R114), the table's bit 0 its bit 0. -/
def decodeTableWord (nbits w : Nat) : Option Instr :=
  match decode (BitVec.ofNat 32 (w % 2 ^ nbits)) with
  | .ok i => some i
  | .error _ => none

end Sys2Proof
end

