-- ==== Sys2Proof/Config.lean ====
section
/-!
DEFINITION. What an implementation fixes and the free values: values the spec does not state, as constants without a body
(log 5). A step applies them to a turn counter of the state, or to the operands they depend on.
-/

namespace Sys2Proof.Config

/-- A doubleword the spec states no value for: a register no chapter describes (R386), a destination word after a MISMATCH
(R297). -/
opaque freeWord : Nat → BitVec 64

/-- The firmware ABI revision (R435): a number that the implementation fixes. -/
opaque abi : BitVec 16

/-- The answer of the PCIe endpoint to a configuration request for a register (R427, R436). -/
opaque pcieConfig : Nat → BitVec 64

/-- What the boundary cells show on a SAMPLE, by turn (R439). -/
opaque boundaryCells : Nat → BitVec 64

/-- The package's certificate chain and its digests (R421, R424). -/
opaque certificate : List (BitVec 64)
opaque certificateDigests : List (BitVec 64)

/-- The identity key's signature over a challenge (R421, R424). -/
opaque signature : BitVec 256 → List (BitVec 64)

/-- Measurement blocks 1 and 2: the boot ROM's hash, the firmware image's hash and security version (R424). -/
opaque romHash : List (BitVec 64)
opaque firmwareHash : List (BitVec 64)

end Sys2Proof.Config
end

