-- ==== Sys2Proof/Machine/Glove.lean ====
section
/-!
DEFINITION. The lane check code of a doubleword (R89) and what a consuming lane makes of a stored word (R90).
-/

namespace Sys2Proof.Machine

/-- The columns H(0) to H(63) of the check matrix (R89). -/
def gloveColumns : List (BitVec 8) :=
  [0x07#8, 0x0B#8, 0x0D#8, 0x0E#8, 0x13#8, 0x15#8, 0x16#8, 0x19#8,
   0x1A#8, 0x1C#8, 0x23#8, 0x25#8, 0x26#8, 0x29#8, 0x2A#8, 0x2C#8,
   0x31#8, 0x32#8, 0x34#8, 0x38#8, 0x43#8, 0x45#8, 0x46#8, 0x49#8,
   0x4A#8, 0x4C#8, 0x51#8, 0x52#8, 0x54#8, 0x58#8, 0x61#8, 0x62#8,
   0x64#8, 0x68#8, 0x70#8, 0x83#8, 0x85#8, 0x86#8, 0x89#8, 0x8A#8,
   0x8C#8, 0x91#8, 0x92#8, 0x94#8, 0x98#8, 0xA1#8, 0xA2#8, 0xA4#8,
   0xA8#8, 0xB0#8, 0xC1#8, 0xC2#8, 0xC4#8, 0xC8#8, 0xD0#8, 0xE0#8,
   0x1F#8, 0x3E#8, 0x7C#8, 0xF8#8, 0xF1#8, 0xE3#8, 0xC7#8, 0x8F#8]

/-- The exclusive-or of the columns of the bits that are 1, from bit `i` on. -/
def gloveFold (d : BitVec 64) : Nat → List (BitVec 8) → BitVec 8
  | _, [] => 0#8
  | i, h :: t => (if d.getLsbD i then h else 0#8) ^^^ gloveFold d (i + 1) t

/-- Glove(d) of R89. -/
def gloveOf (d : BitVec 64) : BitVec 8 := gloveFold d 0 gloveColumns

/-- A doubleword as a producing lane writes it, with its own glove (R91). -/
def gloved (d : BitVec 64) : GWord := ⟨d, gloveOf d⟩

/-- What a consuming lane finds in a word (R90). -/
inductive Checked where
  /-- The data, and whether a single error was corrected. -/
  | ok (d : BitVec 64) (corrected : Bool)
  /-- An uncorrectable syndrome. -/
  | bad
  deriving DecidableEq, Repr

/-- The data bit whose column a syndrome equals. -/
def gloveBitOf (syn : BitVec 8) : Nat → List (BitVec 8) → Option Nat
  | _, [] => none
  | i, h :: t => if syn = h then some i else gloveBitOf syn (i + 1) t

/-- `Check(w)`: the syndrome classifies the stored word (R90). -/
def checkWord (w : GWord) : Checked :=
  let syn := gloveOf w.data ^^^ w.glove
  if syn = 0#8 then .ok w.data false
  else
    match gloveBitOf syn 0 gloveColumns with
    | some i => .ok (w.data ^^^ (1#64 <<< i)) true
    | none => if syn &&& (syn - 1#8) = 0#8 then .ok w.data true else .bad

/-- A word whose inner HBM code failed: its glove is delivered XOR 0x03 (R92). -/
def poisoned (w : GWord) : GWord := ⟨w.data, w.glove ^^^ 0x03#8⟩

end Sys2Proof.Machine
end

