-- ==== Sys2Proof/Machine/Maps.lean ====
section
/-!
DEFINITION. Keyed data in one canonical form, and memory as sorted (address, byte) pairs (R5, R6, R98). A map reads its
default at every key it does not list; writing the default removes the key, so equal maps are equal lists.
-/

namespace Sys2Proof.Machine

/-- The value at a key; the default where the key is not listed. -/
def mapGet {α : Type} (d : α) : SMap α → Nat → α
  | [], _ => d
  | (k, v) :: t, n => if n = k then v else mapGet d t n

/-- Enter or replace the value of a key, keeping the keys rising. -/
def mapPut {α : Type} : SMap α → Nat → α → SMap α
  | [], n, w => [(n, w)]
  | (k, v) :: t, n, w =>
    if n = k then (n, w) :: t else if n < k then (n, w) :: (k, v) :: t else (k, v) :: mapPut t n w

/-- Remove a key. -/
def mapDel {α : Type} : SMap α → Nat → SMap α
  | [], _ => []
  | (k, v) :: t, n => if n = k then mapDel t n else (k, v) :: mapDel t n

/-- Write a key; the default value is never listed. -/
def mapSet {α : Type} [DecidableEq α] (d : α) (m : SMap α) (n : Nat) (w : α) : SMap α :=
  if w = d then mapDel m n else mapPut m n w

/-- Keys strictly rising, every one above `lo` where `lo` is given. -/
def mapSorted {α : Type} : Option Nat → SMap α → Bool
  | _, [] => true
  | none, (k, _) :: t => mapSorted (some k) t
  | some l, (k, _) :: t => decide (l < k) && mapSorted (some k) t

/-- The canonical form: keys strictly rising and no entry equal to the default. -/
def mapWf {α : Type} [DecidableEq α] (d : α) (m : SMap α) : Bool :=
  mapSorted none m && m.all (fun p => decide (p.2 ≠ d))

/-- A memory of gloved doublewords (R2, R92): the data bytes by address, and the check byte of each doubleword by
address div 8. A byte that nothing has written reads 0, with glove 0x00 (log 3). -/
structure Mem where
  /-- Data bytes. -/
  data : List Host.Cell
  /-- Check bytes, by doubleword number. -/
  glove : List Host.Cell
  deriving DecidableEq, Repr

/-- A memory nothing has written. -/
def Mem.empty : Mem := ⟨[], []⟩

/-- The canonical form of both lists. -/
def Mem.wf (m : Mem) : Bool := mapWf (0 : BitVec 8) m.data && mapWf (0 : BitVec 8) m.glove

/-- One byte. -/
def Mem.byte (m : Mem) (a : Nat) : BitVec 8 := mapGet (0 : BitVec 8) m.data a

/-- The gloved doubleword that holds address `a`, low byte first (R6). -/
def Mem.read (m : Mem) (a : Nat) : GWord :=
  let b := 8 * (a / 8)
  ⟨m.byte (b + 7) ++ m.byte (b + 6) ++ m.byte (b + 5) ++ m.byte (b + 4) ++ m.byte (b + 3) ++ m.byte (b + 2) ++
      m.byte (b + 1) ++ m.byte b, mapGet (0 : BitVec 8) m.glove (a / 8)⟩

/-- Write one data byte. -/
def Mem.setByte (m : Mem) (a : Nat) (v : BitVec 8) : Mem := { m with data := mapSet (0 : BitVec 8) m.data a v }

/-- Write the whole aligned doubleword that holds address `a`, with its glove (R98). -/
def Mem.write (m : Mem) (a : Nat) (w : GWord) : Mem :=
  let b := 8 * (a / 8)
  let d := mapSet (0 : BitVec 8) m.data b (w.data.extractLsb' 0 8)
  let d := mapSet (0 : BitVec 8) d (b + 1) (w.data.extractLsb' 8 8)
  let d := mapSet (0 : BitVec 8) d (b + 2) (w.data.extractLsb' 16 8)
  let d := mapSet (0 : BitVec 8) d (b + 3) (w.data.extractLsb' 24 8)
  let d := mapSet (0 : BitVec 8) d (b + 4) (w.data.extractLsb' 32 8)
  let d := mapSet (0 : BitVec 8) d (b + 5) (w.data.extractLsb' 40 8)
  let d := mapSet (0 : BitVec 8) d (b + 6) (w.data.extractLsb' 48 8)
  let d := mapSet (0 : BitVec 8) d (b + 7) (w.data.extractLsb' 56 8)
  { data := d, glove := mapSet (0 : BitVec 8) m.glove (a / 8) w.glove }

/-- Write consecutive doublewords. -/
def Mem.writeList (m : Mem) (a : Nat) : List GWord → Mem
  | [] => m
  | w :: t => (m.write a w).writeList (a + 8) t

end Sys2Proof.Machine
end

