-- ==== Sys2Proof/Machine/State.lean ====
section
/-!
DEFINITION. The state of one F24 package: 24 dies of 16 tiles, HBM, links, host interface, security, power and JTAG
(R14, R15), and the ways a step can stop. Every field is plain data. Reset values the spec does not give are those of
log 4; the model's own fields are those of logs 2 and 5.
-/

namespace Sys2Proof.Machine

/-- The reasons the model stops with a fault. None is raised where the spec gives an effect. -/
inductive Fault where
  /-- A physical access to a place that the address map says does not exist. No step raises it: every path to such a place has an
  outcome in the spec, the table refusal of R380 or the log entry of the unit that met it. Safe: it stops nothing. -/
  | noTarget
  deriving DecidableEq, Repr

/-- The reasons the model refuses a step. -/
inductive Refusal where
  /-- The row has no meaning yet. Raised by exec's own arm only. Safe. -/
  | notModelled (mnemonic : String)
  deriving DecidableEq, Repr

/-- The level a tile runs at (R347); firmware never runs on a tile. -/
inductive Level where
  | task
  | supervisor
  deriving DecidableEq, Repr

/-- What a tile is doing: idle, running a task, halted (R366), frozen (R415, R425), stopped by the debugger (R423). -/
inductive RunState where
  | idle
  | running
  | halted
  | frozen
  | stopped
  deriving DecidableEq, Repr

/-- An expansion in progress: control-store entry, next word, and the three parameter values (R65). -/
structure Expn where
  entry : Nat
  j : Nat
  p0 : BitVec 64
  p1 : BitVec 64
  p2 : BitVec 64
  deriving DecidableEq, Repr

/-- One engine's place in the text: address of its next word (of the `mcall` within an expansion), its position, which is
the dynamic index of that word (R54, R55), and the expansion it is in. -/
structure Engine where
  pc : BitVec 64
  pos : Nat
  exp : Option Expn
  deriving DecidableEq, Repr

/-- A branch outcome (R58). -/
inductive BrOut where
  | cond (taken : Bool)
  | target (a : BitVec 64)
  | nextWord
  | call (k : Nat) (p0 p1 p2 : BitVec 64)
  deriving DecidableEq, Repr

/-- A control-store entry: its words and parameter maps (R65). -/
structure Micro where
  words : List (BitVec 32)
  maps : List (BitVec 32)
  deriving DecidableEq, Repr

/-- Which word something belongs to: engine, dynamic index, address (of the `mcall` in an expansion), the word as
executed, and its place in an expansion (R356). -/
structure WordRef where
  eng : Eng
  idx : Nat
  addr : BitVec 64
  word : BitVec 32
  inExp : Bool
  jidx : Nat
  deriving DecidableEq, Repr

/-- A trap's cause code, subcode and information (R350, R351), and for an `mcall` with an illegal expansion the index of
its first illegal word (R65). -/
structure TrapInfo where
  cause : Nat
  sub : Nat
  info : BitVec 64
  jx : Option Nat
  deriving DecidableEq, Repr

/-- What a handler of supervisor level can change of the task's registers: x, predicate slots, and the task CSRs WIN, APOL, UFV,
KVCTL and BFMT (R163, R367). -/
structure TaskRegs where
  x : SMap GWord
  preds : List (Nat × Nat × Bool)
  win : BitVec 64
  apol : BitVec 64
  ufv : BitVec 64
  kvctl : BitVec 64
  bfmt : SMap (BitVec 4)
  deriving DecidableEq, Repr

/-- What the tile holds of the trap it is handling (R355 to R359): the index n, the faulting word, TEPC as written at
entry, the expansion of the word at n, the task's registers as the entry left them (R367), and the indices of the image's entries in
order. -/
structure TrapCtx where
  n : Nat
  w : WordRef
  tepc : BitVec 64
  exp : Option Expn
  kept : TaskRegs
  pend : List Nat
  deriving DecidableEq, Repr

/-- A continuation record (R27). -/
structure Rec where
  code : BitVec 64
  frame : BitVec 64
  join : BitVec 64
  wid : BitVec 64
  deriving DecidableEq, Repr

/-- A line of the tile data cache: 16 gloved words, which of them it holds and which of those are dirty, whether the page is UO, and
whether the home granted write when it was filled (R100, R101, R388). An invalidation leaves a line its dirty words alone. -/
structure CLine where
  words : List GWord
  valid : BitVec 16
  dirty : BitVec 16
  uo : Bool
  wgrant : Bool
  deriving DecidableEq, Repr

/-- A TLB entry: page base and size, frame, ordering kind, rights, and the side of its root (R371, R374). -/
structure TlbEntry where
  base : Nat
  bytes : Nat
  frame : Nat
  kind : Nat
  sl : Bool
  sa : Bool
  x : Bool
  w : Bool
  r : Bool
  learner : Bool
  deriving DecidableEq, Repr

/-- A pair of instruction words in the instruction cache: its corrected data, or none where the pair is marked (R93). -/
structure ICPair where
  data : Option (BitVec 64)
  deriving DecidableEq, Repr

/-- One copy of the nest table (R205): per level COUNT (reset 1), the three strides (0) and KIND (2); the bases (0) and the
format word (R206, reset 0x1FF7F). -/
structure NestTab where
  count : SMap Nat
  sa : SMap (BitVec 64)
  sb : SMap (BitVec 64)
  sc : SMap (BitVec 64)
  kind : SMap Nat
  abase : BitVec 32
  bbase : BitVec 32
  cbase : BitVec 32
  nfmt : BitVec 64
  deriving DecidableEq, Repr

/-- The table at task start (R205). -/
def NestTab.reset : NestTab := ⟨[], [], [], [], [], 0#32, 0#32, 0#32, 0x1FF7F#64⟩

/-- A nest in progress (R210): its `ngo`, the iteration indices of the next step, level 0 first, its ranges for R66, the
steps done, the FTB since which it is held (R214), and whether a late fault has ended it at this step (R215). -/
structure NestRun where
  ref : WordRef
  idx : List Nat
  rd : List (Nat × Nat)
  wr : List (Nat × Nat)
  steps : Nat
  hold : Option (BitVec 64)
  faulted : Bool
  deriving DecidableEq, Repr

/-- What a D command does. -/
inductive DKind where
  /-- `dcp`, `dcp2`, `dcpn`: number of further dimensions (R222) -/
  | copy (nd : Nat)
  | gather
  | scatter
  | fill
  /-- `devt`: scope (R228) -/
  | devt (scope : Nat)
  /-- `dkey`: window (R285) -/
  | key (w : Nat)
  /-- `dcoll`: kind (R294) -/
  | coll (k : Nat)
  /-- key-value word: number 0 to 8 in the order of R236, and its mode bit -/
  | kv (op : Nat) (mode : Bool)
  | relv
  /-- `trec`: ring (R270) -/
  | trec (ring : Nat)
  deriving DecidableEq, Repr

/-- A D command in flight (R225): its word, its operand registers and D control registers as read at issue, F9, the
formats it converts between, its first reserved draw block, its ranges for R66 (start, bytes), the stop points passed,
whether a late fault has stopped it, whether its scratchpad work is done for R66, the window and generation it counts for,
its record's status and count so far, the physical ranges it has written (R110), the index entries a gather or scatter read
(R226), and whether it has ended, so that its record alone waits while D holds another (R64). -/
structure DCmd where
  ref : WordRef
  kind : DKind
  aD : GWord
  aA : GWord
  desc : GWord
  f9 : BitVec 9
  dcr : SMap GWord
  conv : Option (Nat × Nat)
  nrs : BitVec 64
  rd : List (Nat × Nat)
  wr : List (Nat × Nat)
  prog : Nat
  faulted : Bool
  done : Bool
  window : Option (Nat × Nat)
  tag : Nat
  ev : Bool
  status : Nat
  count : Nat
  pranges : List (Nat × Nat)
  idx : List Nat
  ended : Bool
  deriving DecidableEq, Repr

/-- The state of a bound window (R282). -/
inductive WinState where
  | idle
  | open
  | broken
  deriving DecidableEq, Repr

/-- A generation that has sent its keystone and awaits its close note (R282, R285, R288): the attempt, the count and the
keystone's content, the FTB at which it was last sent, and whether the generation held counted `vstm` words. -/
structure Await where
  gen : Nat
  att : Nat
  scount : Nat
  flag : Nat
  value : GWord
  tag : Nat
  sentAt : BitVec 64
  vstm : Bool
  deriving DecidableEq, Repr

/-- What an atomic does to its word: the nine operations of R145 in table order, and compare-and-set (R147). -/
inductive AmoOp where
  | add | and | or | xor | min | max | minu | maxu | swap
  | cas (expect : BitVec 64)
  deriving DecidableEq, Repr

/-- A remote request's operation at the target bank (R279). -/
inductive RemOp where
  | load
  | store (w : GWord)
  | amo (op : AmoOp) (b : GWord)
  deriving DecidableEq, Repr

/-- Results of a remote request. -/
inductive RemResult where
  | ok (w : GWord)
  | refused
  /-- the memory word of an atomic holds an uncorrectable error (R91) -/
  | badWord
  /-- no response within 100 µs (R279) -/
  | timeout
  deriving DecidableEq, Repr

/-- A packet of a collective (R293 to R298): communicator, KIND, CNT, SCODE and ROOT of the word it belongs to, which of the
communicator's words that is, its phase and stage, the chunk, the blocks it carries, its words, and whether it carries a
mismatch. -/
structure CollPkt where
  comm : Nat
  kind : Nat
  cnt : Nat
  scode : Nat
  root : Nat
  seq : Nat
  phase : Nat
  stage : Nat
  chunk : Nat
  items : List Nat
  words : List GWord
  mismatch : Bool
  deriving DecidableEq, Repr

/-- What a packet carries (R279 to R299). Tiles are named by package tile number, targets by die, tile and offset. -/
inductive PktBody where
  | request (g : Nat) (tag : Nat) (tile off cls : Nat) (op : RemOp) (sc : Bool) (stamp : BitVec 64)
  | response (g : Nat) (tag : Nat) (r : RemResult) (stamp : BitVec 64)
  | posted (tile cls fmt : Nat) (words : List (Nat × GWord)) (counted : Option (Nat × Nat × Nat))
  | keystone (pier gen att scount tile off cls : Nat) (value : GWord) (g w : Nat)
  | closeNote (g w pier gen att : Nat) (refused : Bool)
  | resend (g w pier gen att : Nat)
  | reopen (pier gen att g w : Nat)
  | congestion (fromDie : Nat)
  | coll (p : CollPkt)
  deriving DecidableEq, Repr

/-- A packet on its way: virtual channel, source and destination die, the die it is at, its injection stamp, whether a
router has marked it (R275, R291, R292), and the tile and window that sent it (R281). -/
structure Packet where
  vc : Nat
  src : Nat
  dst : Nat
  loc : Nat
  stamp : BitVec 20
  marked : Bool
  origin : Option (Nat × Nat)
  body : PktBody
  deriving DecidableEq, Repr

/-- A bound window (R276 to R289): handle and resolved grant, state, generation, attempt, send count, whether any span has
opened, FTB of the latest `dspan` and of each generation's latest injected packet, packets made and not yet handed to
the first link (the allowance counter counts the first ALW of them, R278), generations awaiting close, broken generations oldest first, whether the open generation holds `vstm`
words, whether its last words' attempt is a reopened one, and the `dspan` or `dspan.retry` that waits for its spacing. -/
structure Window where
  handle : BitVec 64
  target : BitVec 19
  pier : Nat
  canR : Bool
  canW : Bool
  canC : Bool
  alw : Nat
  st : WinState
  gen : Nat
  att : Nat
  scount : Nat
  opened : Bool
  newest : Nat
  spanAt : BitVec 64
  injected : SMap (BitVec 64)
  atts : SMap Nat
  outq : List Packet
  awaits : List Await
  broken : List Nat
  vstm : Bool
  deriving DecidableEq, Repr

/-- An outstanding remote request of S or V (R279, R405): its tag, the word that made it, the aperture address, the FTB at
which it was sent, and its result once it has come. -/
structure RemReq where
  tag : Nat
  eng : Eng
  idx : Nat
  va : BitVec 64
  sentAt : BitVec 64
  result : Option RemResult
  deriving DecidableEq, Repr

/-- A pier entry (R286): current generation with attempt and count, the next one's, the held keystones with the FTB from
which PTO runs (count, tile, offset, class, value), the return identity, and the last close. -/
structure HeldKey where
  scount : Nat
  tile : Nat
  off : Nat
  cls : Nat
  value : GWord
  since : BitVec 64
  deriving DecidableEq, Repr

structure Pier where
  cg : Nat
  ca : Nat
  nc : Nat
  na : Nat
  nn : Nat
  held : Option HeldKey
  heldNext : Option HeldKey
  retG : Nat
  retW : Nat
  lastAtt : Nat
  lastRefused : Bool
  refused : Bool
  refusedNext : Bool
  deriving DecidableEq, Repr

/-- A pier as firmware grants it (R286). -/
def Pier.reset : Pier := ⟨0, 0, 0, 0, 0, none, none, 0, 0, 0, false, false, false⟩

/-- An exact fraction num / 2^den, the rate limiter's value (R291). -/
structure Rate where
  num : Nat
  den : Nat
  deriving DecidableEq, Repr

/-- A collective under way at a position (R294 to R299): the holder (the tile, or 384 + 1024 × die + slot while its task is saved) and index of its
word, its KIND, CNT, SCODE and ROOT, which of the communicator's words it is, packets not yet handled, the chunks finished,
runs made again by block and the scale codes they took, flags bytes by block, NaN elements or error doublewords written, whether an
error word was met, and the source words an `rs` keeps for the other positions once its own record is posted. -/
structure CollRun where
  holder : Nat
  idx : Nat
  kind : Nat
  cnt : Nat
  scode : Nat
  root : Nat
  seq : Nat
  inbox : List CollPkt
  done : List Nat
  reruns : SMap Nat
  scales : SMap Nat
  flags : SMap Nat
  nans : Nat
  errs : Bool
  kept : Option (List GWord)
  deriving DecidableEq, Repr

/-- A communicator entry (R293): what system software fills, the number of words begun, the words that wait (holder and index), the one
under way, and packets of later words. -/
structure Comm where
  valid : Bool
  p : Nat
  pos : Nat
  prev : BitVec 15
  next : BitVec 15
  vc : Nat
  actor : Bool
  learner : Bool
  seq : Nat
  queue : List (Nat × Nat)
  run : Option CollRun
  early : List CollPkt
  deriving DecidableEq, Repr

/-- An entry nothing has filled. -/
def Comm.reset : Comm := ⟨false, 0, 0, 0#15, 0#15, 4, false, false, 0, [], none, []⟩

/-- A unit of a continuation queue (R48, R49, R393): its records (one, or a gang's four), or the image slots of a resume
unit (R395, R403), with its level as it now stands, arrival count, pops counted toward AGE (R51), promotions, the split word
that governs it (R41), SPCLR (R43), and the FTB since which it has been the head of its level (R399). -/
structure QUnit where
  side : Bool
  level : Nat
  arrival : Nat
  recs : List Rec
  slots : List Nat
  gang : Bool
  widsplit : BitVec 64
  spclr : Bool
  aged : Nat
  promoted : Nat
  headSince : Option (BitVec 64)
  deriving DecidableEq, Repr

/-- What a die keeps of a record in a spill ring, or of a gang's four, beside their 32 bytes each: the ring's record number, whether
it is a gang, arrival count, and the split word and SPCLR that govern it (R41, R43, R393, R395). -/
structure SpillNote where
  ring : Nat
  j : Nat
  gang : Bool
  arrival : Nat
  widsplit : BitVec 64
  spclr : Bool
  aged : Nat
  promoted : Nat
  headSince : Option (BitVec 64)
  deriving DecidableEq, Repr

/-- A launch a die's expander is enumerating (R45, R46): the header's doublewords, the list L, the next unit to look at. -/
structure Expand where
  hdr : List (BitVec 64)
  dies : List Nat
  next : Nat
  deriving DecidableEq, Repr

/-- A launch whose NOTE is set (R43, R433): the completion join address and side, and the ring and tag of its command. -/
structure NoteJoin where
  join : BitVec 64
  side : Bool
  ring : Nat
  tag : BitVec 32
  deriving DecidableEq, Repr

/-- A pending join step (R36): the tile's own join address, side, split word and die, and the class it acts under. -/
structure JoinWork where
  join : BitVec 64
  side : Bool
  widsplit : BitVec 64
  g : Nat
  deriving DecidableEq, Repr

/-- A pre-emption request on a tile (R399 to R401): the FTB at which the polite stage ends, EVICT, and whether firmware is among its
sources, which keeps the tile stopped afterwards. -/
structure PreReq where
  endAt : BitVec 64
  evict : Bool
  fw : Bool
  deriving DecidableEq, Repr

/-- A `tlbinv` not yet complete (R168, R377): its index, address, ALL, PKG, tag, and whether a supervisor handler waits. -/
structure TlbInv where
  idx : Nat
  va : BitVec 64
  all : Bool
  pkg : Bool
  tag : Nat
  sup : Bool
  deriving DecidableEq, Repr

/-- An `adopt` waiting for its switching step (R264): table address, destination register and index. -/
structure AdoptWait where
  idx : Nat
  va : BitVec 64
  d : BitVec 6
  deriving DecidableEq, Repr

/-- An `attg` that has started (R252 to R254): its index, output, query and list addresses, LMAX and mode. -/
structure AttgRun where
  idx : Nat
  out : Nat
  q : Nat
  list : Nat
  lmax : Nat
  mode : Nat
  deriving DecidableEq, Repr

/-- Accumulator doublewords that a restore could not read (R406): the index at which S raises GLOVE, the physical address of the lowest,
and the numbers of all of them. -/
structure AccFault where
  idx : Nat
  addr : BitVec 64
  bad : List Nat
  deriving DecidableEq, Repr

/-- A tile stopped at a forced cut (R402): the slot assigned, once one is free. -/
structure CutState where
  slot : Option Nat
  deriving DecidableEq, Repr

/-- An event record in the event queue with the memory line ranges its pop invalidates (R64, R100, R110): first byte and
length of each physical range the command wrote. -/
structure EvEntry where
  w : GWord
  ranges : List (Nat × Nat)
  deriving DecidableEq, Repr

/-- The task a tile runs: its record, whether it is one of a gang's four (its unit number in `gang`), its own place in the
gang, and the ring and tag of a NOTE launch that governs it (R27, R43, R48). -/
structure CurTask where
  rcd : Rec
  gang : Option Nat
  member : Nat
  level : Nat
  deriving DecidableEq, Repr

/-- One tile (R21, R22). -/
structure Tile where
  /-- R366, R415, R423 -/
  run : RunState
  /-- R347 -/
  level : Level
  /-- R53 to R55: S, V, M, D -/
  eS : Engine
  eV : Engine
  eM : Engine
  eD : Engine
  /-- x0 to x63, R115; x0 reads 0 -/
  x : SMap GWord
  /-- lanes of v0 to v31, key 128 × register + lane, R170 -/
  v : SMap GWord
  /-- s0 to s15, R172 -/
  sreg : SMap GWord
  /-- m1 to m7, key 2 × mask + half, R171; m0 is all ones -/
  m : SMap GWord
  /-- c0 to c15, R205 -/
  c : SMap GWord
  /-- a0 to a15, R122 -/
  a : SMap GWord
  /-- V control registers 0 to 5, R172 -/
  vcr : SMap GWord
  /-- D control registers 0 to 9, R220 -/
  dcr : SMap GWord
  /-- writes of predicate slots, newest first: index, slot, value (R63) -/
  preds : List (Nat × Nat × Bool)
  /-- operand queues of V, M, D with the index of the pushing `put`, R61 -/
  oqV : List (Nat × GWord)
  oqM : List (Nat × GWord)
  oqD : List (Nat × GWord)
  /-- branch-outcome queues of V, M, D with the pushing index, R58 -/
  boV : List (Nat × BrOut)
  boM : List (Nat × BrOut)
  boD : List (Nat × BrOut)
  /-- return queue, R62 -/
  rq : List GWord
  /-- event queue, and the records M and D hold while it is full (each at most one), in order of completion, R64 -/
  eq : List EvEntry
  held : List (Eng × EvEntry)
  /-- microprogram control store, R65 -/
  cstore : SMap Micro
  /-- scratchpad, R95 -/
  spad : Mem
  /-- accumulators, key 256 × row + column, R205 -/
  acc : SMap (BitVec 32)
  /-- RS block counters of V, M, D, R78 -/
  nrsV : BitVec 64
  nrsM : BitVec 64
  nrsD : BitVec 64
  /-- task CSRs, R163: WIN, APOL, WVER, WIDSPLIT, UFV, KVCTL, BFMT -/
  win : BitVec 64
  apol : BitVec 64
  wver : BitVec 64
  widsplit : BitVec 64
  ufv : BitVec 64
  kvctl : BitVec 64
  bfmt : SMap (BitVec 4)
  /-- task-level fault frame, R361: address, cause, information, place in an expansion -/
  ufepc : BitVec 64
  ufcause : BitVec 64
  ufaddr : BitVec 64
  ufexp : Option Expn
  /-- supervisor CSRs, R349 -/
  tstat : BitVec 64
  tcause : BitVec 64
  taddr : BitVec 64
  tepc : BitVec 64
  tvec : BitVec 64
  tsb : BitVec 64
  ctxb : BitVec 64
  pwin : BitVec 64
  preq : BitVec 64
  tcause2 : BitVec 64
  taddr2 : BitVec 64
  /-- firmware CSRs, R412 -/
  gcc : BitVec 64
  guc : BitVec 64
  bstat : BitVec 64
  /-- x registers written by S with the index and the old word, newest first, for R357 -/
  undo : List (Nat × Nat × GWord)
  /-- the trap being handled, R355 -/
  trap : Option TrapCtx
  /-- a late fault found and not yet taken, R354, R355 -/
  late : Option (TrapInfo × WordRef)
  /-- accumulator words whose restore failed and for which S has not yet raised GLOVE, R406 -/
  accFault : Option AccFault
  /-- tile data cache by line number, TLB, instruction cache by pair number: R100, R374, R93 -/
  cache : SMap CLine
  tlb : List TlbEntry
  icache : SMap ICPair
  /-- Lamport stamp, R109 -/
  stamp : BitVec 64
  /-- side the tile is on, R23: false actor, true learner -/
  side : Bool
  /-- the running task, R27 -/
  task : Option CurTask
  /-- adopted table and entry, R260 -/
  adopted : Option (BitVec 64 × Nat)
  adoptWait : Option AdoptWait
  /-- `tlbinv` words not yet complete, R168 -/
  tlbinvs : List TlbInv
  /-- `attg` under way, R253 -/
  attg : Option AttgRun
  /-- nest table, shadow and active, and the nest in progress, R205, R210 -/
  shadow : NestTab
  active : NestTab
  nest : Option NestRun
  /-- body steps since the last `nwait`, and `nwait` records not yet posted (word, tag, count), R219 -/
  nsteps : Nat
  nwaits : List (WordRef × Nat × Nat)
  /-- D commands in flight in index order, R225 -/
  dcmds : List DCmd
  /-- physical ranges that completed D commands of the task have written: index, first byte, bytes; a `devt` record acquires
  them, R110, R228 -/
  dRanges : List (Nat × Nat × Nat)
  /-- windows 0 to 15 that are bound, R277 -/
  wins : SMap Window
  /-- outstanding remote requests, R279; the words whose packets are being handed
  over, R278; next request tag -/
  remote : List RemReq
  sending : List (Eng × Nat)
  nextTag : Nat
  /-- the `dspan` or `dspan.retry` that waits: window, index, and the generation that a retry reopens, R282 -/
  spanWait : Option (Nat × Nat × Option Nat)
  /-- `tail` has been performed and its waits are under way, R35 -/
  ending : Bool
  /-- pre-emption request, R399; a cut waiting for its save, R402; stops of R401, R409 -/
  pre : Option PreReq
  cut : Option CutState
  /-- the resume unit that the tile has popped, and its own image slot, while the image still awaits responses, R406 -/
  resuming : Option (Nat × QUnit)
  fwStop : Bool
  brimStop : Bool
  /-- FTB at which the running task started, R399 -/
  since : BitVec 64
  /-- FTB at which firmware last returned the tile to idle after a halt, R417 -/
  haltAt : Option (BitVec 64)
  /-- FTB at which the tile halted, R366, R417 -/
  haltFtb : BitVec 64
  /-- trace records written to the tile's ring, R423 -/
  traced : Nat
  /-- FTB of the last self-test pass, R415 -/
  tested : BitVec 64
  deriving DecidableEq, Repr

/-- An idle engine. -/
def Engine.reset : Engine := ⟨0#64, 0, none⟩

/-- A tile after reset: every register of R349, R412 at its reset value; the others 0 (log 4). -/
def Tile.reset : Tile where
  run := .idle
  level := .task
  eS := Engine.reset
  eV := Engine.reset
  eM := Engine.reset
  eD := Engine.reset
  x := []
  v := []
  sreg := []
  m := []
  c := []
  a := []
  vcr := []
  dcr := []
  preds := []
  oqV := []
  oqM := []
  oqD := []
  boV := []
  boM := []
  boD := []
  rq := []
  eq := []
  held := []
  cstore := []
  spad := Mem.empty
  acc := []
  nrsV := 0#64
  nrsM := 0#64
  nrsD := 0#64
  win := 256#64
  apol := 0#64
  wver := 0#64
  widsplit := 0#64
  ufv := 0#64
  kvctl := 0#64
  bfmt := []
  ufepc := 0#64
  ufcause := 0#64
  ufaddr := 0#64
  ufexp := none
  tstat := 0#64
  tcause := 0#64
  taddr := 0#64
  tepc := 0#64
  tvec := 0#64
  tsb := 0#64
  ctxb := 0#64
  pwin := 0#64
  preq := 0#64
  tcause2 := 0#64
  taddr2 := 0#64
  gcc := 0#64
  guc := 0#64
  bstat := 0#64
  undo := []
  trap := none
  late := none
  accFault := none
  cache := []
  tlb := []
  icache := []
  stamp := 0#64
  side := true
  task := none
  adopted := none
  adoptWait := none
  tlbinvs := []
  attg := none
  shadow := NestTab.reset
  active := NestTab.reset
  nest := none
  nsteps := 0
  nwaits := []
  dcmds := []
  dRanges := []
  wins := []
  remote := []
  sending := []
  nextTag := 0
  spanWait := none
  ending := false
  pre := none
  cut := none
  resuming := none
  fwStop := false
  brimStop := false
  since := 0#64
  haltAt := none
  haltFtb := 0#64
  traced := 0
  tested := 0#64

/-- A die's Moanis core (R15, R435): the registers of RV64GC and the 512 KiB of tightly coupled memory, its 65,536
doublewords by number, those that are not 0. The steps of the table give what its firmware does to the rest of the package; the firmware
itself is no part of the spec, and no step changes these (log 32). -/
structure Moanis where
  pc : BitVec 64
  x : SMap (BitVec 64)
  f : SMap (BitVec 64)
  fcsr : BitVec 8
  tcm : List (Fin 65536 × BitVec 64)
  deriving DecidableEq, Repr

/-- The core after reset. -/
def Moanis.reset : Moanis := ⟨0#64, [], [], 0#8, []⟩

/-- One die (R15). -/
structure Die where
  /-- register space of blocks 0 to 15 by byte offset of the doubleword, R368, R381 -/
  regs : SMap (BitVec 64)
  /-- PTO in nanoseconds and the replay counter, R287 -/
  pto : Nat
  replays : BitVec 64
  /-- continuation queues, both sides, in order of arrival; arrival counts of the actor and learner side, R393 -/
  units : List QUnit
  arrivalA : Nat
  arrivalL : Nat
  /-- records in spill rings, R393; launches under expansion, R45; join steps to do, R36 -/
  spills : List SpillNote
  launches : List Expand
  joins : List JoinWork
  /-- of the context images in slots the tiles that saved them, to which late responses come, R405, and slots assigned, R392 -/
  homes : SMap Nat
  slots : List Nat
  /-- slots of saved members of a gang whose unit is not yet complete, by gang number, R403 -/
  gangWait : SMap (List Nat)
  /-- export queue, R403 -/
  expq : List Nat
  /-- gang reservations: actor and learner, unit and cluster, R397 -/
  reserveA : Option (Nat × Nat)
  reserveL : Option (Nat × Nat)
  /-- FTB at which stage 1 of a brim move ends, R409 -/
  brimEnd : BitVec 64
  /-- pier table, R286; communicators, R293; rate limiters by target die, marked packets by source die, FTB of the last
  change of each limiter, R291 -/
  piers : SMap Pier
  comms : SMap Comm
  rates : SMap Rate
  marks : SMap Nat
  rateAt : SMap (BitVec 64)
  /-- tiles gated, R441: bit per tile; FTB since which the die is hot or cool; clusters gated, last first; FTB
  of the latest temperature sample -/
  gated : BitVec 16
  hotSince : Option (BitVec 64)
  coolSince : Option (BitVec 64)
  gateOrder : List Nat
  thermalAt : BitVec 64
  /-- retention, R440 -/
  retention : Bool
  /-- damage lists by pool: slot and page, R419 -/
  damage : SMap (List (Nat × Nat))
  /-- KVREP reports that wait for a held table, oldest first, R387, R419 -/
  kvreps : List (BitVec 64)
  /-- physical addresses of the trajectory ring headers, and rings an error has closed, R269, R271 -/
  trecHdr : SMap (BitVec 64)
  trecOff : SMap Bool
  /-- FTB of the last self-test pass of the die's units, R415 -/
  tested : SMap (BitVec 64)
  /-- the bring-up stage the die has reached, R436; its core, R435 -/
  stage : Nat
  moanis : Moanis
  /-- the die has written its part of the dump, and whether that part is incomplete, R425 -/
  dumped : Bool
  incomplete : Bool
  deriving DecidableEq, Repr

/-- A die after reset. -/
def Die.reset : Die where
  regs := [(0x20010, 4096#64)]
  pto := 64000
  replays := 0#64
  units := []
  arrivalA := 0
  arrivalL := 0
  spills := []
  launches := []
  joins := []
  homes := []
  slots := []
  gangWait := []
  expq := []
  reserveA := none
  reserveL := none
  brimEnd := 0#64
  piers := []
  comms := []
  rates := []
  marks := []
  rateAt := []
  gated := 0#16
  hotSince := none
  coolSince := none
  gateOrder := []
  thermalAt := 0#64
  retention := false
  damage := []
  kvreps := []
  trecHdr := []
  trecOff := []
  tested := []
  stage := 0
  moanis := Moanis.reset
  dumped := false
  incomplete := false

/-- One pending move of the package (log 2): an input or unit step, an engine of a tile performing its next word, or an error of the
inner code of an HBM doubleword that its controller cannot correct (R92). -/
inductive Move where
  | event (i : Instr)
  | engine (g : Nat) (e : Eng)
  | innerError (pa : Nat)
  deriving DecidableEq, Repr

/-- A completion entry as it waits to be written (R433): kind, ring, status, tag, INFO1, INFO2. -/
structure Compl where
  kind : Nat
  ring : Nat
  status : Nat
  tag : BitVec 32
  info1 : BitVec 64
  info2 : BitVec 64
  deriving DecidableEq, Repr

/-- A submission entry taken and not yet executed (R431): its count and its sixteen doublewords. -/
structure Taken where
  j : BitVec 32
  words : List (BitVec 64)
  deriving DecidableEq, Repr

/-- What the package last answered on an outside interface (R424, R427, R436, R439). -/
inductive Reply where
  /-- data of a BAR2 read -/
  | data (w : BitVec 64)
  /-- a PCIe configuration answer for a register -/
  | config (reg : Nat) (w : BitVec 64)
  /-- SPDM version, major and minor -/
  | version (major minor : Nat)
  /-- SPDM capabilities: the requests supported by mnemonic number of the table's order, and secured sessions -/
  | capabilities (requests : List Nat) (sessions : Bool)
  /-- SPDM algorithms: signing and hashing bits -/
  | algorithms (sign hash : Nat)
  | digests (d : List (BitVec 64))
  | certificate (c : List (BitVec 64))
  | challenge (nonce : BitVec 256) (signature : List (BitVec 64))
  /-- the six measurement blocks of R424 -/
  | measurements (blocks : List (List (BitVec 64)))
  /-- JTAG data register shifted out: width and value -/
  | jtag (width : Nat) (value : BitVec 64)
  deriving DecidableEq, Repr

/-- The instruction of the test access port (R439). -/
inductive Jtag where
  | bypass
  | idcode
  | sample
  | extest
  deriving DecidableEq, Repr

/-- The firmware image as it stands in the package's store (R421): the RSA public key that signed it, its signature, its security version
number and the bytes of its body. -/
structure FwImage where
  modulus : Nat
  exponent : Nat
  signature : Nat
  version : Nat
  body : List (BitVec 8)
  deriving DecidableEq, Repr

/-- An image of version 0 with no body, signed with a key of the model's own, whose hash the first fused slot holds: what stands in the
store from the first reset on (DESIGN CHOICE, log 32). -/
def FwImage.reset : FwImage where
  modulus := 0xbcc19303f77bbaccc5f6b198f3e6cdc4b28f0758c8408b66c8e88b7b330a8b0e5152826de6990811cd9bc52dc1c15c85e6c5e6a5007964d3dc18ccf416f220acde819224a3af6975316427f1e7206b12cf19d750f4e785377a96ffdde8544de5ba032e2ef9ffa46d5378dd5e06194dd4b4a9c44a6ef57e3d16cd0566b7d03ce26a5bb3151b4e7d08cbadf6606cc1fe88ac6d93907e2486a30195b8fed62c9ac71bb2777de7bd54be5f8dd756996243426aff61b098374a07bafc1ab0c7053e95d67ed8e1df5d8bac02440abd5f159ef3e1fcfc934597bbadcfebb8c21f051b836056b66af170f744561d5691c3a0fa55c14bfe9587206c23d288c5e8c17230779fec99e1edfd22736428da1bbd64b7342cf651a7fd7252c645fb5b8df8882ef65406f87582b392a55598fcbe206c1475ee5bbe85fd6765e4de0f26f627070650c80390be6a86afea2e0b3103ad99844d669e5c33637541b8f9da608ea75ca1e5d5180509e2316300ebae905af985c19b945a547d96ec401171f7da1b5341f873
  exponent := 65537
  signature := 0xac6a01cec49b15a4066ab0780e875625445158b456d6c55179faaf94e304805a6fee1af8f7d29e605f261f56c4f09b5379bf5ba123a012c252ac852006d260f6dacae9fcdc5987506043be465b3ab16b1fc81a72d5cf6f6914afd71881fe28b32029b76d571e1a34018b0bc339a47014abd8a6376aba1036b31584f5316fd820c6d10f41d51d614f25c49ab7c1eaf97c11eecfb6f590a1ba78b7871dfb53787e9b308752d9958b4c1fb3a398a7e8f5d32ae1b2fb5c9e9f12630f32a9416a9a0d229f213db10be45e174be678a7052b6c6d057efa259ca771bbcfa52f974dfbf1fda088733634020f6c65f423853d7cb38e5fcf8e9cb45cfa022f65515cbc4b8bec99d2e415b7de82dd6d9c0ab85bfdd47465d4b8134d642e813bcd050e77de6f3b97fe7a0c6f653eb7cfef1a6b190c89c097672b09aa474c8c8f04875b74e771801e9d8368778365e381e934ed1ee8eb079cc78fb2894e93ae8b81b20acaba32608f37858c22643af76af0ea9d6a93884347d2f9ee0c066d4cf432c3aabd278
  version := 0
  body := []

/-- The fuses that authentication reads (R421): four key slots, a revocation fuse for each (1: blown), and by die the version counter. -/
structure Fuses where
  slots : SMap (BitVec 256)
  revoked : BitVec 4
  counters : SMap Nat
  deriving DecidableEq, Repr

/-- The package's nonvolatile configuration (R416, R426, R437, R438): retired tiles by die, values of loaded registers by
die × 2^20 + offset and of tile CSRs by tile × 4096 + number, HWIN, group member, torus extent and coordinates, whether the
abutment port is the host bridge, the firmware image and the fuses. -/
structure Nv where
  retired : SMap (BitVec 16)
  regs : SMap (BitVec 64)
  csrs : SMap (BitVec 64)
  hwin : BitVec 64
  member : Nat
  px : BitVec 5
  py : BitVec 5
  bridge : Bool
  extX : Nat
  extY : Nat
  fw : FwImage
  fuses : Fuses
  deriving DecidableEq, Repr

/-- A host write to this member, through BAR2 or BAR0 (R427 to R430, R434). -/
inductive HostWrite where
  /-- a doubleword at an offset of the BAR2 window -/
  | window (off : Nat) (w : BitVec 64)
  /-- SQT -/
  | doorbell (r : Nat) (tail : BitVec 32)
  /-- EN of a submission (false) or completion (true) ring -/
  | enable (cq : Bool) (r : Nat) (on : Bool)
  /-- CQH -/
  | head (r : Nat) (h : BitVec 32)
  /-- a doubleword of a die's register space -/
  | register (d off : Nat) (w : BitVec 64)
  deriving DecidableEq, Repr

/-- The host interface beside the ring registers of block 4 (R429 to R434): entries taken, unsolicited and NOTE entries
held, NOTE launches, and per ring the FTB of the latest MSI-X message, whether one is due, messages sent by vector, and host writes that wait in the order of their
receipt because a table is held (R387, R428). -/
structure HostIf where
  taken : SMap Taken
  uns : List Compl
  notes : List Compl
  joins : List NoteJoin
  msixAt : SMap (BitVec 64)
  msixDue : BitVec 16
  msixSent : SMap Nat
  writes : List HostWrite
  deriving DecidableEq, Repr

/-- The host interface after reset. -/
def HostIf.reset : HostIf := ⟨[], [], [], [], [], 0#16, [], []⟩

/-- The security state of die 0 (R413, R422): 0 Manufacturing, 1 Secured, 2 Tenant-Sealed, 3 Debug-Unlocked; an accepted
unlock that has not been withdrawn; the tenant binding; the nonce that die 0 has out for an unlock token. -/
structure Sec where
  state : Nat
  unlock : Bool
  tenant : BitVec 256
  nonce : BitVec 64
  deriving DecidableEq, Repr

/-- The package. -/
structure State where
  /-- the tile whose engine moves (log 2) -/
  cur : Nat
  /-- moves to perform before the fixed policy chooses, and the policy's own turn counter (log 2) -/
  agenda : List Move
  rr : Nat
  /-- counter of free values (log 5) -/
  fresh : Nat
  /-- fabric time base in nanoseconds, R274 -/
  ftb : BitVec 64
  /-- package coordinates in the torus, R17 -/
  px : BitVec 5
  py : BitVec 5
  /-- HBM of the dies by physical address, R14, R92, R368 -/
  mem : Mem
  tiles : SMap Tile
  dies : SMap Die
  /-- packets on their way, R275; failed links as pairs of dies, R442 -/
  net : List Packet
  links : List (Nat × Nat)
  /-- a fatal entry has been logged, R414; every die is frozen and its part of the dump written, R425 -/
  fatal : Bool
  frozen : Bool
  /-- the abutment port is trained in its mode, R426, R436 -/
  portUp : Bool
  /-- the four doublewords of the first fatal entry, for the dump, R425 -/
  fatalEntry : List (BitVec 64)
  /-- host interface, R426 to R434; physical base of the BAR2 window, R427; group member number, R426 -/
  host : HostIf
  hwin : BitVec 64
  member : Nat
  /-- security state, R422; nonvolatile configuration, R416, R426; last answer on an outside interface -/
  sec : Sec
  nv : Nv
  reply : Option Reply
  /-- die 0 has authenticated the firmware image and passes it on, R421 -/
  fwLoaded : Bool
  /-- package-standby, R440; test access port and its boundary cells, R439; gang units firmware holds, R416 -/
  standby : Bool
  jtag : Jtag
  cells : BitVec 64
  heldUnits : List QUnit
  deriving DecidableEq, Repr

/-- The package right after reset. -/
def State.reset : State where
  cur := 0
  agenda := []
  rr := 0
  fresh := 0
  ftb := 0#64
  px := 0#5
  py := 0#5
  mem := Mem.empty
  tiles := []
  dies := []
  net := []
  links := []
  fatal := false
  frozen := false
  portUp := false
  fatalEntry := []
  host := HostIf.reset
  hwin := 0#64
  member := 0
  sec := ⟨1, false, 0#256, 0#64⟩
  nv := ⟨[], [], [], 0#64, 0, 0#5, 0#5, true, 1, 1, FwImage.reset,
    ⟨[(0, 0x2370a018f45cecdc88da6f1a6bb5ee5dcb10db9d2075c01ac02c5ceb1713a4ce#256)], 0#4, []⟩⟩
  reply := none
  fwLoaded := false
  standby := false
  jtag := .bypass
  cells := 0#64
  heldUnits := []

end Sys2Proof.Machine
end

