-- ==== Sys2Proof/Machine/Base.lean ====
section
/-!
DEFINITION. The step of a word as a function that may stop: a trap, a wait, a fault or a refusal. Access to tiles, dies,
registers and CSRs; the glove check of a consuming lane; the die's register space and its error log.
-/

namespace Sys2Proof.Machine

/-- An entry a unit writes to a die's error log (R413, R414): die, code, source tile (15 for a die unit), INFO1, INFO2. Code 0 is no
entry: it stands for INFO1 corrections that a unit of the die has made and counts in DGCC (R90, R413). -/
structure LogReq where
  die : Nat
  code : Nat
  src : Nat
  info1 : BitVec 64
  info2 : BitVec 64
  deriving DecidableEq, Repr

/-- Why a word's own step ends early. A trap leaves every other state as it was but for the log entries its units made
(R12); a wait leaves the word at the head of its engine. -/
inductive Stop where
  | trap (t : TrapInfo) (logs : List LogReq)
  | wait
  | fault (f : Fault)
  | refuse (r : Refusal)
  deriving DecidableEq, Repr

/-- A step over the package that may stop. -/
abbrev Eff := StateT State (Except Stop)

/-- Stop the word. -/
def stop {α : Type} (r : Stop) : Eff α := fun _ => .error r

/-- The word waits. -/
def waitWord {α : Type} : Eff α := stop .wait

/-- Wait unless a condition holds. -/
def waitUnless (c : Bool) : Eff Unit := if c then pure () else waitWord

/-- Raise a trap (R10). -/
def raise {α : Type} (cause sub : Nat) (info : BitVec 64) : Eff α := stop (.trap ⟨cause, sub, info, none⟩ [])

/-- Raise a trap when a condition holds. -/
def raiseIf (c : Bool) (cause sub : Nat) (info : BitVec 64) : Eff Unit := if c then raise cause sub info else pure ()

/-- Cause codes (R350). -/
def cILL : Nat := 0x01
def cPRIV : Nat := 0x02
def cGLOVE : Nat := 0x03
def cALIGN : Nat := 0x04
def cDFLT : Nat := 0x05
def cIFLT : Nat := 0x06
def cIGLOVE : Nat := 0x07
def cQDEAD : Nat := 0x08
def cDEFER : Nat := 0x09
def cFMT : Nat := 0x0A
def cNEST : Nat := 0x0B
def cDCMD : Nat := 0x0C
def cSPAWN : Nat := 0x0D
def cSPILL : Nat := 0x0E
def cKVSHARE : Nat := 0x0F
def cKVBAD : Nat := 0x10
def cVERS : Nat := 0x11
def cFAB : Nat := 0x12
def cSYS : Nat := 0x13
def cBRK : Nat := 0x14
def cSVIMG : Nat := 0x15

/-- A GLOVE trap whose word a lane outside the tile has met: a die unit, or another tile's bank. TCAUSE shows the code 0x03; the
unit's own log entry stands for it, and the tile's GUC does not count it (R412, R413). -/
def cUGLOVE : Nat := 0x103

/-- A unit of die `d` meets an uncorrectable word at `at'`, for a word whose trap names `named`: source 0xF, or the tile `src` (R413,
R414). -/
def unitGlove {α : Type} (d src : Nat) (named at' : BitVec 64) (logs : List LogReq := []) : Eff α :=
  stop (.trap ⟨cUGLOVE, 0, named, none⟩ (logs ++ [⟨d, 0x01, src, at', 3#64⟩]))

/-- The register code of a glove fault (R174, R350): file and register field. -/
def regCode (file field : Nat) : BitVec 64 := 0xFFFFFFFFFFFF0000#64 ||| BitVec.ofNat 64 (file * 4096 + field)

/-! ## Tiles and dies -/

/-- Tile `g` of the package: 16 × die + tile. -/
def State.tileAt (s : State) (g : Nat) : Tile := mapGet Tile.reset s.tiles g

/-- Write tile `g`. -/
def State.setTileAt (s : State) (g : Nat) (t : Tile) : State := { s with tiles := mapPut s.tiles g t }

/-- What a step from outside the tiles gives: nothing while EXTEST holds the package in reset (R439). -/
def State.released (s : State) (o : Host.Outcome State Fault Refusal) : Host.Outcome State Fault Refusal :=
  if s.jtag = .extest then .next s else o

/-- The tile whose engine moves. -/
def State.tile (s : State) : Tile := s.tileAt s.cur

/-- Write the tile whose engine moves. -/
def State.setTile (s : State) (t : Tile) : State := s.setTileAt s.cur t

/-- Die `d`. -/
def State.dieAt (s : State) (d : Nat) : Die := mapGet Die.reset s.dies d

/-- Write die `d`. -/
def State.setDieAt (s : State) (d : Nat) (x : Die) : State := { s with dies := mapPut s.dies d x }

/-- The tile whose engine moves. -/
def getTile : Eff Tile := fun s => .ok (s.tile, s)

/-- Change the tile whose engine moves. -/
def modTile (f : Tile → Tile) : Eff Unit := fun s => .ok ((), s.setTile (f s.tile))

/-- The tile number that moves. -/
def curTile : Eff Nat := fun s => .ok (s.cur, s)

/-- The die of the tile that moves. -/
def curDie : Eff Nat := fun s => .ok (s.cur / 16, s)

/-- A value of the state. -/
def getsState {α : Type} (f : State → α) : Eff α := fun s => .ok (f s, s)

/-- Change the state. -/
def modState (f : State → State) : Eff Unit := fun s => .ok ((), f s)

/-- A free value's turn: the counter's value, then the counter advances (log 5). -/
def freshTurn : Eff Nat := fun s => .ok (s.fresh, { s with fresh := s.fresh + 1 })

/-! ## The register space of a die (R368, R381) -/

/-- The doubleword at an offset of die `d`'s register space, as stored. -/
def State.dieReg (s : State) (d off : Nat) : BitVec 64 := mapGet 0#64 (s.dieAt d).regs off

/-- Store a doubleword of die `d`'s register space. -/
def State.setDieReg (s : State) (d off : Nat) (v : BitVec 64) : State :=
  s.setDieAt d { s.dieAt d with regs := mapSet 0#64 (s.dieAt d).regs off v }

/-- A bit of a doubleword. -/
def bit (w : BitVec 64) (i : Nat) : Bool := w.getLsbD i

/-- Bits [hi:lo] of a doubleword as a number (R5). -/
def bits (w : BitVec 64) (hi lo : Nat) : Nat := (w.toNat / 2 ^ lo) % 2 ^ (hi + 1 - lo)

/-- Replace bits [hi:lo]. -/
def setBits (w : BitVec 64) (hi lo v : Nat) : BitVec 64 :=
  BitVec.ofNat 64 (w.toNat / 2 ^ (hi + 1) * 2 ^ (hi + 1) + (v % 2 ^ (hi + 1 - lo)) * 2 ^ lo + w.toNat % 2 ^ lo)

/-- The partition boundary of a die (R23). -/
def State.brim (s : State) (d : Nat) : Nat := bits (s.dieReg d 0x20000) 6 0

/-- Write an entry to a die's error log ring: dropped and counted when the ring is full; FATAL codes begin the freeze
(R413, R414). -/
def logError (r : LogReq) (fatal : Bool) (s : State) : State :=
  let w0 := BitVec.ofNat 64 (r.code % 65536 + (r.src % 16) * 65536 + (if fatal then 2 ^ 20 else 0))
  let s := if fatal ∧ ¬ s.fatal then { s with fatal := true, fatalEntry := [w0, s.ftb, r.info1, r.info2] } else s
  let elb := s.dieReg r.die 0x30000
  if ¬ bit elb 0 then s
  else
    let cap := bits (s.dieReg r.die 0x30008) 20 0
    let wpos := s.dieReg r.die 0x30010
    let rpos := s.dieReg r.die 0x30018
    if (wpos - rpos).toNat ≥ cap then s.setDieReg r.die 0x30020 (s.dieReg r.die 0x30020 + 1#64)
    else
      let a := bits elb 47 12 * 4096 + 32 * (wpos.toNat % cap)
      let s := { s with mem := s.mem.writeList a [gloved w0, gloved s.ftb, gloved r.info1, gloved r.info2] }
      s.setDieReg r.die 0x30010 (wpos + 1#64)

/-- Count a correction made by a die unit (R413). -/
def State.countDie (s : State) (d n : Nat) : State :=
  if n = 0 then s else s.setDieReg d 0x30050 (s.dieReg d 0x30050 + BitVec.ofNat 64 n)

/-- Write several log entries, in order; codes 0x04 and 0x12, and 0x0F for a die unit, are fatal (R414). -/
def logErrors : List LogReq → State → State
  | [], s => s
  | r :: t, s =>
    logErrors t (if r.code = 0 then s.countDie r.die r.info1.toNat
      else logError r (decide (r.code = 0x04 ∨ r.code = 0x12 ∨ (r.code = 0x0F ∧ r.src = 15))) s)

/-- The log request that counts the corrections of a unit of die `d` on a path that ends in a trap. -/
def countReq (d n : Nat) : List LogReq := if n = 0 then [] else [⟨d, 0, 15, BitVec.ofNat 64 n, 0#64⟩]

/-! ## Consuming lanes -/

/-- `Check(w)` by a lane of the moving tile (R90): a correction is counted in GCC, an uncorrectable word raises GLOVE. -/
def check (w : GWord) (info : BitVec 64) : Eff (BitVec 64) :=
  match checkWord w with
  | .ok d false => pure d
  | .ok d true => do
    modTile fun t => { t with gcc := t.gcc + 1#64 }
    pure d
  | .bad => raise cGLOVE 0 info

/-- `Check` by a die unit of die `d`: counted in DGCC; none when uncorrectable. -/
def checkUnit (d : Nat) (w : GWord) : Eff (Option (BitVec 64)) :=
  match checkWord w with
  | .ok v false => pure (some v)
  | .ok v true => do
    modState (·.countDie d 1)
    pure (some v)
  | .bad => pure none

/-! ## Engines -/

/-- The place of an engine. -/
def Tile.eng (t : Tile) : Eng → Engine
  | .S => t.eS
  | .V => t.eV
  | .M => t.eM
  | .D => t.eD

/-- Move an engine. -/
def Tile.setEng (t : Tile) (e : Eng) (x : Engine) : Tile :=
  match e with
  | .S => { t with eS := x }
  | .V => { t with eV := x }
  | .M => { t with eM := x }
  | .D => { t with eD := x }

/-- min(P(V), P(M), P(D)) (R56). -/
def Tile.minPos (t : Tile) : Nat := min t.eV.pos (min t.eM.pos t.eD.pos)

/-- V, M and D have all reached S's word (R57). -/
def Tile.settled (t : Tile) : Bool :=
  decide (t.eV.pos = t.eS.pos ∧ t.eM.pos = t.eS.pos ∧ t.eD.pos = t.eS.pos)

/-- The address of an engine's next word. -/
def wordAddr (e : Eng) : Eff (BitVec 64) := do return ((← getTile).eng e).pc

/-! ## Registers -/

/-- xr as a gloved word; x0 is zero with glove 0x00 (R115, R131). -/
def Tile.getX (t : Tile) (r : Nat) : GWord := if r = 0 then GWord.zero else mapGet GWord.zero t.x r

/-- Write xr; a write to x0 is discarded (R115). -/
def Tile.setX (t : Tile) (r : Nat) (w : GWord) : Tile :=
  if r = 0 then t else { t with x := mapSet GWord.zero t.x r w }

/-- Lane `i` of v register `r` (R170). -/
def Tile.getV (t : Tile) (r i : Nat) : GWord := mapGet GWord.zero t.v (128 * r + i)

/-- Write a lane (R170). -/
def Tile.setV (t : Tile) (r i : Nat) (w : GWord) : Tile := { t with v := mapSet GWord.zero t.v (128 * r + i) w }

/-- s register `r` (R172). -/
def Tile.getS (t : Tile) (r : Nat) : GWord := mapGet GWord.zero t.sreg r

/-- Write an s register. -/
def Tile.setS (t : Tile) (r : Nat) (w : GWord) : Tile := { t with sreg := mapSet GWord.zero t.sreg r w }

/-- Doubleword `h` of mask `r` (R171); m0 is all ones. -/
def Tile.getM (t : Tile) (r h : Nat) : GWord :=
  if r = 0 then gloved (BitVec.allOnes 64) else mapGet GWord.zero t.m (2 * r + h)

/-- Write a doubleword of a mask; m0 is fixed (R118). -/
def Tile.setM (t : Tile) (r h : Nat) (w : GWord) : Tile :=
  if r = 0 then t else { t with m := mapSet GWord.zero t.m (2 * r + h) w }

/-- c register `r` (R121). -/
def Tile.getC (t : Tile) (r : Nat) : GWord := mapGet GWord.zero t.c r

/-- a register `r` (R122). -/
def Tile.getA (t : Tile) (r : Nat) : GWord := mapGet GWord.zero t.a r

/-- V control register `r` (R172): all reset to 0. -/
def Tile.getVcr (t : Tile) (r : Nat) : GWord := mapGet GWord.zero t.vcr r

/-- Write a V control register. -/
def Tile.setVcr (t : Tile) (r : Nat) (w : GWord) : Tile := { t with vcr := mapSet GWord.zero t.vcr r w }

/-- The reset word of a D control register: COUNT1 to COUNT3 reset to 1, the others to 0 (R220). -/
def dcrReset (r : Nat) : GWord := if r = 2 ∨ r = 5 ∨ r = 8 then gloved 1#64 else GWord.zero

/-- D control register `r` in a file of them (R220). -/
def dcrGet (m : SMap GWord) (r : Nat) : GWord := mapGet (dcrReset r) m r

/-- Write a D control register. -/
def Tile.setDcr (t : Tile) (r : Nat) (w : GWord) : Tile := { t with dcr := mapSet (dcrReset r) t.dcr r w }

/-- The format register of bank `b` (R81): 0xF at reset. -/
def Tile.bank (t : Tile) (b : Nat) : BitVec 4 := mapGet 0xF#4 t.bfmt b

/-- The format code of the bank that holds an offset of the tile's scratchpad (R81). -/
def Tile.bankOf (t : Tile) (off : Nat) : Nat := (t.bank (off / 65536 % 32)).toNat

/-- The value of a predicate slot that a word at index `n` observes (R63): the latest write below `n`, else false; p0 is
true. -/
def predFind (k n : Nat) : List (Nat × Nat × Bool) → Bool
  | [] => false
  | (i, j, v) :: t => if j = k ∧ i < n then v else predFind k n t

/-- R63 for a tile. -/
def Tile.predAt (t : Tile) (k n : Nat) : Bool := if k = 0 then true else predFind k n t.preds

/-- Write a slot at index `n`. Older writes of the slot that no engine can observe any more are forgotten. -/
def Tile.setPred (t : Tile) (k n : Nat) (v : Bool) : Tile :=
  { t with preds := (n, k, v) :: t.preds.filter (fun p => ¬ (p.2.1 = k ∧ n ≤ t.minPos)) }

/-- Read an x register as a consuming lane does (R131). -/
def readX (r : BitVec 6) : Eff (BitVec 64) := do
  let t ← getTile
  check (t.getX r.toNat) (regCode 4 r.toNat)

/-- Write xr by a word of S, remembering the old word for R357 while the tile is at task level. -/
def Tile.putX (t : Tile) (r : Nat) (w : GWord) : Tile :=
  match t.level with
  | .task => { t.setX r w with undo := (t.eS.pos, r, t.getX r) :: t.undo.filter (fun u => decide (t.minPos ≤ u.1)) }
  | .supervisor => t.setX r w

/-- Write a word to an x register. -/
def writeXWord (r : BitVec 6) (w : GWord) : Eff Unit := modTile (·.putX r.toNat w)

/-- `xD := v`, gloved (R131). -/
def writeX (r : BitVec 6) (v : BitVec 64) : Eff Unit := writeXWord r (gloved v)

/-- Read an s register as a consuming lane does. -/
def readS (r : Nat) : Eff (BitVec 64) := do
  let t ← getTile
  check (t.getS r) (regCode 2 (r * 128))

/-- Read a c register as a consuming lane does. -/
def readC (r : Nat) : Eff (BitVec 64) := do
  let t ← getTile
  check (t.getC r) (regCode 5 r)

/-- Read an a register as a consuming lane does. -/
def readA (r : Nat) : Eff (BitVec 64) := do
  let t ← getTile
  check (t.getA r) (regCode 6 r)

/-- Read a V control register: the whole stored doubleword is checked (R61). -/
def readVcr (r : Nat) : Eff (BitVec 64) := do
  let t ← getTile
  check (t.getVcr r) (regCode 7 r)

/-- Read a mask: both doublewords are checked (R171). Bit i of the result is lane i. -/
def readMask (r : Nat) : Eff (BitVec 128) := do
  let t ← getTile
  let lo ← check (t.getM r 0) (regCode 3 (r * 128))
  let hi ← check (t.getM r 1) (regCode 3 (r * 128 + 1))
  pure (hi ++ lo)

/-- Write a mask, gloved (R171). -/
def writeMask (r : Nat) (m : BitVec 128) : Eff Unit :=
  modTile fun t => (t.setM r 0 (gloved (m.extractLsb' 0 64))).setM r 1 (gloved (m.extractLsb' 64 64))

/-! ## The event queue (R64) -/

/-- Post an event record: into the queue, or held by the posting engine while the queue is full (R64). Once the task has reached its
`tail`, no word will pop a record: one that finds the queue full is dropped, and its command completes (R35). -/
def Tile.post (t : Tile) (e : Eng) (ev : EvEntry) : Tile :=
  if t.eq.length < 64 then { t with eq := t.eq ++ [ev] }
  else if t.ending then t else { t with held := t.held ++ [(e, ev)] }

/-- The engine holds a record (R64), which keeps it from completing another word while the task can still pop it. -/
def Tile.holds (t : Tile) (e : Eng) : Bool := !t.ending && t.held.any (fun h => decide (h.1 = e))

/-- A record's doubleword (R64): ENG, TAG, STATUS, COUNT. -/
def eventWord (eng tag status count : Nat) : GWord :=
  gloved (BitVec.ofNat 64 (eng * 2 ^ 62 + (tag % 512) * 2 ^ 53 + (status % 256) * 2 ^ 45 + count % 2 ^ 32))

end Sys2Proof.Machine
end

