-- ==== Sys2Proof/Machine/Access.lean ====
section
/-!
DEFINITION. Physical addresses, access tables, translation and the paths of S and V accesses: HBM, register space,
scratchpads, the tile data cache and the TLB (chapters 05 and 19).
-/

namespace Sys2Proof.Machine

/-- What a physical address names (R368). -/
inductive Target where
  | hbm (die off : Nat)
  | reg (die off : Nat)
  | nothing
  deriving DecidableEq, Repr

/-- Read a physical address (R368). -/
def targetOf (pa : Nat) : Target :=
  let top := pa / 2 ^ 42
  let die := pa / 2 ^ 37 % 32
  let off := pa % 2 ^ 37
  if pa ≥ 2 ^ 48 ∨ die ≥ 24 then .nothing
  else if top = 0 then .hbm die off
  else if top = 32 ∧ off < 0x100000 then .reg die off
  else .nothing

/-- What an access table answers: a held table makes the access wait (R387). -/
inductive Verdict where
  | ok
  | refused
  | held
  deriving DecidableEq, Repr

/-- The rights an access needs: read, write, fetch; and, in a hatrack region, which of A, L, P (0, 1, 2) (R382, R385). No right lets
an access of number 3 into a hatrack region: a program's plain store and a fetch are none of the accesses R385 names. -/
structure Rights where
  rd : Bool
  wr : Bool
  fx : Bool
  hat : Nat
  deriving DecidableEq, Repr

/-- A program's load. -/
def Rights.load : Rights := ⟨true, false, false, 2⟩

/-- A program's store. -/
def Rights.store : Rights := ⟨false, true, false, 3⟩

/-- An atomic (R145, R382). -/
def Rights.amo : Rights := ⟨true, true, false, 2⟩

/-- An instruction fetch. -/
def Rights.fetch : Rights := ⟨false, false, true, 3⟩

/-- The lowest entry of a table of 32-byte entries whose units contain an offset: base offset, unit shift, entries left,
entry number (R382, R385). -/
def findRegion (s : State) (d base shift off : Nat) : Nat → Nat → Option Nat
  | 0, _ => none
  | n + 1, i =>
    let e0 := s.dieReg d (base + 32 * i)
    let e1 := s.dieReg d (base + 32 * i + 8)
    if bit e0 0 ∧ bits e0 36 shift ≤ off / 2 ^ shift ∧ off / 2 ^ shift ≤ bits e1 36 shift then some i
    else findRegion s d base shift off n (i + 1)

/-- The hatrack region that holds an offset of a die's HBM (R385). -/
def State.hatrackRegion (s : State) (d off : Nat) : Option Nat := findRegion s d 0x1C00 12 off 16 0

/-- Three rights bits of a class in a RIGHTS field (R382, R385). -/
def rightsOf (w : BitVec 64) (c : Nat) : Nat := bits w (3 * c + 2) (3 * c)

/-- The slice table's answer for a class, from the same die or another (R383). -/
def sliceOk (s : State) (d cls fromDie : Nat) : Bool :=
  let e := s.dieReg d (0x1800 + 8 * cls)
  if cls < 4 ∧ fromDie = d then bit e 0 else bit e 1

/-- The tables on the path to a physical address, for a class on a die (R380 to R387). Class 4 reaches every target (R381). Every
access to HBM needs the hatrack region table, which decides the other table it needs (R385), so that holding it holds them all. -/
def accessVerdict (s : State) (cls fromDie pa : Nat) (r : Rights) : Verdict :=
  match targetOf pa with
  | .nothing => .refused
  | .hbm d off =>
    let hold := s.dieReg d 0x18
    let hat := s.hatrackRegion d off
    if bit hold 1 ∨ bit hold 3 ∨ (hat.isNone ∧ bit hold 0) then .held
    else if cls = 4 then .ok
    else if ¬ sliceOk s d cls fromDie then .refused
    else
      match hat with
      | some i =>
        if r.hat < 3 ∧ rightsOf (s.dieReg d (0x1C00 + 32 * i + 16)) cls / 2 ^ r.hat % 2 = 1 then .ok else .refused
      | none =>
        match findRegion s d 0x1000 16 off 64 0 with
        | none => .refused
        | some i =>
          let b := rightsOf (s.dieReg d (0x1000 + 32 * i + 16)) cls
          if (r.rd → b % 2 = 1) ∧ (r.wr → b / 2 % 2 = 1) ∧ (r.fx → b / 4 % 2 = 1) then .ok else .refused
  | .reg d off =>
    let blk := off / 65536
    if bit (s.dieReg d 0x18) 4 then .held
    else if cls = 4 then .ok
    else if blk = 0 ∨ blk = 2 then .refused
    else
      let e := bits (s.dieReg d (0x1E00 + 8 * blk)) (2 * cls + 1) (2 * cls)
      if (r.rd → e % 2 = 1) ∧ (r.wr → e / 2 % 2 = 1) ∧ ¬ r.fx then .ok else .refused

/-- The port table of tile `g` for a class: reading or writing its scratchpad from outside it (R384, R387). -/
def portVerdict (s : State) (g cls : Nat) (wr : Bool) : Verdict :=
  let d := g / 16
  if bit (s.dieReg d 0x18) 2 then .held
  else if cls = 4 then .ok
  else if bit (s.dieReg d (0x1A00 + 8 * (g % 16))) (2 * cls + (if wr then 1 else 0)) then .ok else .refused

/-- The port table's answer for every right an access needs: an atomic reads and writes (R145, R384). -/
def portAccess (s : State) (g cls : Nat) (r : Rights) : Verdict :=
  match (if r.rd then portVerdict s g cls false else .ok) with
  | .ok => if r.wr then portVerdict s g cls true else .ok
  | v => v

/-- The master class of S and V of a tile, and of its walks and handler (R379). -/
def classSV (t : Tile) : Nat := if t.side then 1 else 0

/-- The master class of D and of the units' work for it (R379). -/
def classD (t : Tile) : Nat := if t.side then 3 else 2

/-! ## Translation (R369 to R376) -/

/-- Canonical: bits [63:56] equal bit 55 (R94). -/
def canonical (va : BitVec 64) : Bool := decide (va.toNat / 2 ^ 55 = 0 ∨ va.toNat / 2 ^ 55 = 2 ^ 9 - 1)

/-- The scratchpad aperture (R96). -/
def inAperture (va : BitVec 64) : Bool := decide (va.toNat / 2 ^ 32 = 0xFF800000)

/-- Page bytes and leaf level of a size code (R372). -/
def pageSize (code : Nat) : Nat × Nat :=
  match code with
  | 0 => (2 ^ 12, 0)
  | 1 => (2 ^ 14, 0)
  | 2 => (2 ^ 16, 0)
  | 3 => (2 ^ 18, 0)
  | 4 => (2 ^ 21, 1)
  | 5 => (2 ^ 25, 1)
  | 6 => (2 ^ 29, 1)
  | _ => (2 ^ 33, 2)

/-- A malformed entry at a level (R372). -/
def malformed (e : BitVec 64) (l : Nat) : Bool :=
  let leaf := bit e 1
  let frame := bits e 47 12 * 4096
  let sz := pageSize (bits e 11 9)
  decide (bits e 63 48 ≠ 0) ||
  (if leaf then
    decide (sz.2 ≠ l ∨ frame % sz.1 ≠ 0 ∨ bits e 8 7 = 3 ∨ (frame / 2 ^ 42 = 32 ∧ bits e 8 7 ≠ 0))
   else decide (bits e 11 1 ≠ 0 ∨ l = 0))

/-- What a walk answers, with the corrections the walker made or the log requests of an unsuccessful one, which count them. -/
inductive Walk where
  | leaf (e : TlbEntry) (corrected : Nat)
  | fault (sub : Nat) (logs : List LogReq)
  | glove (pa : Nat) (logs : List LogReq)
  | held
  deriving DecidableEq, Repr

/-- The walk from level `l` with its table at `t` (R370), for a class and die; `l` counts down with the fuel. -/
def walkFrom (s : State) (cls d : Nat) (learner : Bool) (va : Nat) : Nat → Nat → Nat → Walk
  | 0, _, corr => .fault 1 (countReq d corr)
  | l + 1, t, corr =>
    let pa := t + 8 * (va / 2 ^ (12 + 9 * l) % 512)
    match accessVerdict s cls d pa Rights.load with
    | .held => .held
    | .refused => .fault 3 (countReq d corr)
    | .ok =>
      match targetOf pa with
      | .hbm _ _ =>
        match checkWord (s.mem.read pa) with
        | .bad => .glove pa (countReq d corr)
        | .ok e c =>
          let corr := if c then corr + 1 else corr
          if ¬ bit e 0 then .fault 1 (countReq d corr)
          else if malformed e l then .fault 1 (countReq d corr ++ [⟨d, 0x06, 15, BitVec.ofNat 64 pa, BitVec.ofNat 64 l⟩])
          else if bit e 1 then
            let sz := (pageSize (bits e 11 9)).1
            .leaf ⟨va / sz * sz, sz, bits e 47 12 * 4096, bits e 8 7, bit e 6, bit e 5, bit e 4, bit e 3, bit e 2, learner⟩
              corr
          else walkFrom s cls d learner va l (bits e 47 12 * 4096) corr
      | _ => .fault 3 (countReq d corr)

/-- The root of a side of a die: TRBA or TRBL (R369). -/
def State.root (s : State) (d : Nat) (learner : Bool) : BitVec 64 := s.dieReg d (if learner then 0x8 else 0x0)

/-- The walk of a virtual address for tile `g`, through the root of its side (R369, R370). -/
def State.walk (s : State) (g : Nat) (va : BitVec 64) : Walk :=
  let t := s.tileAt g
  let d := g / 16
  let root := s.root d t.side
  let hi := va.toNat / 2 ^ 47
  if ¬ (hi = 0 ∨ hi = 2 ^ 17 - 1) then .fault 1 []
  else if ¬ bit root 0 then .fault 1 []
  else walkFrom s (classSV t) d t.side va.toNat 4 (bits root 47 12 * 4096) 0

/-- The TLB entry of the tile's side whose page holds an address (R374). -/
def tlbFind (learner : Bool) (va : Nat) : List TlbEntry → Option TlbEntry
  | [] => none
  | e :: t => if e.learner = learner ∧ e.base ≤ va ∧ va < e.base + e.bytes then some e else tlbFind learner va t

/-- Keep a translation, at most 256 (R374). -/
def tlbFill (e : TlbEntry) (l : List TlbEntry) : List TlbEntry := (e :: l).take 256

/-- A trap of an operation also carries log requests. -/
def withLogs {α : Type} (logs : List LogReq) (m : Eff α) : Eff α := fun s =>
  match m s with
  | .error (.trap i l) => .error (.trap i (logs ++ l))
  | r => r

/-- Translate a canonical address, filling the TLB on a miss; faults take a cause DFLT or IFLT (R370 to R376). Where the root's EN is
0 every translation fails, one that the TLB holds too (R369). The address `named` is the one TADDR holds. What the walk has corrected
comes with the entry as log requests, which a trap of the same access carries (R376). -/
def translate (cause : Nat) (va named : BitVec 64) : Eff (TlbEntry × List LogReq) := do
  let t ← getTile
  let g ← curTile
  raiseIf (!bit (← getsState (·.root (g / 16) t.side)) 0) cause 1 named
  match tlbFind t.side va.toNat t.tlb with
  | some e => pure (e, [])
  | none =>
    match ← getsState (·.walk g va) with
    | .leaf e c =>
      modState (·.countDie (g / 16) c)
      modTile fun t => { t with tlb := tlbFill e t.tlb }
      pure (e, countReq (g / 16) c)
    | .fault sub logs => stop (.trap ⟨cause, sub, named, none⟩ logs)
    | .glove pa logs => unitGlove (g / 16) 15 (BitVec.ofNat 64 pa) (BitVec.ofNat 64 pa) logs
    | .held => waitWord

/-- The physical address of an address within its page. -/
def physOf (e : TlbEntry) (va : BitVec 64) : Nat := e.frame + (va.toNat - e.base)

/-- Page rights of an access by a side (R373). -/
def pageAllows (e : TlbEntry) (side rd wr fx : Bool) : Bool :=
  (if side then e.sl else e.sa) && (!rd || e.r) && (!wr || e.w) && (!fx || e.x)

/-! ## Scratchpad space (R95) -/

/-- Where a scratchpad-space address lies. -/
inductive SpadPlace where
  | own (off : Nat)
  | sibling (g off : Nat)
  | window (w off : Nat)
  | unmapped
  deriving DecidableEq, Repr

/-- R95 for tile `g`: a tile's own sibling window is its own scratchpad. -/
def spadPlace (g : Nat) (sa : Nat) : SpadPlace :=
  if sa < 0x200000 then .own sa
  else if 0x1000000 ≤ sa ∧ sa < 0x1800000 then
    let k := (sa - 0x1000000) / 0x200000
    let off := (sa - 0x1000000) % 0x200000
    if k = g % 4 then .own off else .sibling (g / 4 * 4 + k) off
  else if 0x80000000 ≤ sa ∧ sa < 0x82000000 then .window ((sa - 0x80000000) / 0x200000) ((sa - 0x80000000) % 0x200000)
  else .unmapped

/-- The own-scratchpad interval an address range stands for in the range checker: own addresses as they are, the tile's own
sibling window mapped to them, any other address as it is (R66). -/
def rangeBase (g sa : Nat) : Nat :=
  match spadPlace g sa with
  | .own off => off
  | _ => sa

/-- Two intervals meet. -/
def meets (a b : Nat × Nat) : Bool := decide (a.2 ≠ 0 ∧ b.2 ≠ 0 ∧ a.1 < b.1 + b.2 ∧ b.1 < a.1 + a.2)

/-- Some interval of one list meets one of the other. -/
def meetsAny (a b : List (Nat × Nat)) : Bool := a.any fun x => b.any fun y => meets x y

/-- The read and write ranges of the tile's incomplete words below index `n` (R66): D commands whose scratchpad work is not
done, and the running nest. -/
def Tile.busyRanges (t : Tile) (n : Nat) : List (Nat × Nat) × List (Nat × Nat) :=
  let ds := t.dcmds.filter fun c => !c.done && decide (c.ref.idx < n)
  let ns := t.nest.toList.filter fun c => decide (c.ref.idx < n)
  (ds.flatMap (·.rd) ++ ns.flatMap (·.rd), ds.flatMap (·.wr) ++ ns.flatMap (·.wr))

/-- Whether a word at index `n` with these ranges must wait for an earlier one (R66). -/
def Tile.rangeBlocked (t : Tile) (n : Nat) (rd wr : List (Nat × Nat)) : Bool :=
  let b := t.busyRanges n
  meetsAny b.2 rd || meetsAny b.2 wr || meetsAny b.1 wr

/-- The word waits under the range checker (R66, R97). A handler's word has no dynamic index and waits for none (R348). -/
def rangeCheck (n : Nat) (rd wr : List (Nat × Nat)) : Eff Unit := do
  let t ← getTile
  waitUnless (decide (t.level = .supervisor) || !t.rangeBlocked n rd wr)

/-! ## The tile data cache (R100) -/

/-- Write the dirty words of a line to their homes, from word `i` on. -/
def writeBackWords (m : Mem) (line : Nat) (dirty : BitVec 16) : Nat → List GWord → Mem
  | _, [] => m
  | i, w :: t => writeBackWords (if dirty.getLsbD i then m.write (128 * line + 8 * i) w else m) line dirty (i + 1) t

/-- Write back the dirty lines that a test selects; written-back lines become clean (R100). -/
def writeBackLines (sel : Nat → CLine → Bool) : SMap CLine → Mem → SMap CLine × Mem
  | [], m => ([], m)
  | (k, l) :: t, m =>
    if sel k l && decide (l.dirty ≠ 0#16) then
      let r := writeBackLines sel t (writeBackWords m k l.dirty 0 l.words)
      ((k, { l with dirty := 0#16 }) :: r.1, r.2)
    else
      let r := writeBackLines sel t m
      ((k, l) :: r.1, r.2)

/-- Write back the selected dirty lines of tile `g`. -/
def State.writeBack (s : State) (g : Nat) (sel : Nat → CLine → Bool) : State :=
  let t := s.tileAt g
  let r := writeBackLines sel t.cache s.mem
  { s.setTileAt g { t with cache := r.1 } with mem := r.2 }

/-- What an invalidation leaves of a line: nothing of a clean one, the dirty words of another (R100, R108). -/
def CLine.keepDirty (l : CLine) : Option CLine := if l.dirty = 0#16 then none else some { l with valid := l.dirty }

/-- Invalidate the selected lines: what is clean is dropped (R100). -/
def Tile.invalidate (t : Tile) (sel : Nat → CLine → Bool) : Tile :=
  { t with cache := t.cache.filterMap fun p => if sel p.1 p.2 then p.2.keepDirty.map (fun l => (p.1, l)) else some p }

/-- The stamp of an operation that takes its place in the SC order: above every stamp a tile of the package holds (R109; DEDUCED,
log 35). -/
def State.scStamp (s : State) : BitVec 64 :=
  BitVec.ofNat 64 (s.tiles.foldl (fun m p => max m p.2.stamp.toNat) 0 + 1)

/-- Release at a scope: `.clu` or wider writes back RC lines, `.sys` UO lines too (R100, R102). -/
def releaseAt (scope : Nat) (g : Nat) (s : State) : State :=
  if scope = 0 then s
  else if scope = 4 then s.writeBack g fun _ _ => true
  else s.writeBack g fun _ l => !l.uo

/-- Acquire at a scope: `.clu` or wider drops clean RC lines (R100). -/
def acquireAt (scope : Nat) (t : Tile) : Tile :=
  if scope = 0 then t else t.invalidate fun _ l => !l.uo

/-- Whether a line meets a physical range. -/
def lineMeets (line : Nat) (rs : List (Nat × Nat)) : Bool := rs.any fun r => meets (128 * line, 128) r

/-! ## Places of S and V accesses -/

/-- Where a doubleword access of S or V goes once it is allowed: HBM with the page's ordering kind (0 SO, 1 RC, 2 UO) and
whether the version-table port holds it, register space, a scratchpad of this die, or a remote window. -/
inductive Place where
  | hbm (pa kind : Nat) (port : Bool)
  | reg (die off : Nat)
  | spad (g off : Nat)
  | remote (w off : Nat)
  deriving DecidableEq, Repr

/-- A place of this die. -/
def Place.isHere : Place → Bool
  | .remote _ _ => false
  | _ => true

/-- The physical path of an access: tables (R380). -/
def physPlace (cause : Nat) (pa kind : Nat) (r : Rights) (cached : Bool) (named : BitVec 64) : Eff Place := do
  let g ← curTile
  let t ← getTile
  match targetOf pa with
  | .hbm d off =>
    let port := (← getsState (·.hatrackRegion d off)).isSome
    if cached then pure (.hbm pa kind port)
    else
      match ← getsState (accessVerdict · (classSV t) (g / 16) pa r) with
      | .ok => pure (.hbm pa kind port)
      | .refused => raise cause 3 named
      | .held => waitWord
  | .reg d off =>
    match ← getsState (accessVerdict · (classSV t) (g / 16) pa r) with
    | .ok => pure (.reg d off)
    | .refused => raise cause 3 named
    | .held => waitWord
  | .nothing => raise cause 3 named

/-- The line the tile cache holds under a line number. -/
def Tile.line (t : Tile) (n : Nat) : Option CLine := (t.cache.find? fun p => decide (p.1 = n)).map (·.2)

/-- Whether the tile cache serves an access without a check at the home: a held word for a load; a line filled with write
granted for a store; never an atomic (R100, R388). -/
def cacheServes (t : Tile) (pa kind : Nat) (r : Rights) : Bool :=
  if kind = 0 ∨ (r.rd ∧ r.wr) then false
  else
    match t.line (pa / 128) with
    | none => false
    | some l => if r.wr then l.wgrant else l.valid.getLsbD (pa / 8 % 16)

/-- Settle where a scratchpad-space address lies for an access of S or V: TADDR is the scratchpad address where it is unmapped
or its window unbound (R95), and the address the word named where the owner's table refuses (R384). -/
def spadAccess (sa : Nat) (r : Rights) (named : BitVec 64) : Eff Place := do
  let g ← curTile
  let t ← getTile
  match spadPlace g sa with
  | .own off => pure (.spad g off)
  | .sibling k off =>
    match ← getsState (portAccess · k (classSV t) r) with
    | .ok => pure (.spad k off)
    | .refused => raise cDFLT 3 named
    | .held => waitWord
  | .window w off =>
    match (t.wins.find? fun p => decide (p.1 = w)) with
    | some _ => pure (.remote w off)
    | none => raise cDFLT 5 (BitVec.ofNat 64 sa)
  | .unmapped => raise cDFLT 5 (BitVec.ofNat 64 sa)

/-- Settle where a doubleword access at `va` goes, with every check of translation, permission and tables (R94 to R96,
R347, R373, R380). The canonical and alignment checks are the caller's, in the order of R132. -/
def placeOf (va : BitVec 64) (r : Rights) : Eff Place := do
  let t ← getTile
  if inAperture va then spadAccess (va.toNat % 2 ^ 32) r va
  else
    match t.level with
    | .supervisor => physPlace cDFLT va.toNat 0 r false va
    | .task =>
      let x ← translate cDFLT va va
      let e := x.1
      withLogs x.2 (do
        raiseIf (!pageAllows e t.side r.rd r.wr r.fx) cDFLT 2 va
        let pa := physOf e va
        physPlace cDFLT pa e.kind r (cacheServes t pa e.kind r) va)

/-- An address of the task on a page that the TLB holds as ordered SO. -/
def State.onSO (s : State) (va : BitVec 64) : Bool :=
  decide (s.tile.level = .task) && !inAperture va &&
  match tlbFind s.tile.side va.toNat s.tile.tlb with
  | some e => decide (e.kind = 0)
  | none => false

/-- An access of the task on a page ordered SO is performed after every earlier access of its S and V and before every later one
(R101), and an instruction that touches one is ordered as SO (R103): the tile's dirty RC lines are written back and its clean RC
lines dropped first (DEDUCED, log 18). UO lines take no part (R102). -/
def State.soOrder (s : State) (vas : List (BitVec 64)) : State :=
  if vas.any s.onSO then
    let u := releaseAt 1 s.cur s
    u.setTile (acquireAt 1 u.tile)
  else s

/-- Order the accesses of S or V at some addresses, once every check of them has passed. -/
def orderSO (vas : List (BitVec 64)) : Eff Unit := modState (·.soOrder vas)

/-- Whether a chapter describes the register at an offset of the blocks a program's class can reach (R386): the grant table,
block 3 and, on die 0, the ring registers of block 4. -/
def regDescribed (d off : Nat) : Bool :=
  let o := off % 65536
  decide (off / 65536 = 1 ∨ (off / 65536 = 3 ∧ o / 8 * 8 ≤ 0x50) ∨
    (off / 65536 = 4 ∧ d = 0 ∧ (o < 8 ∨ (0x100 ≤ o ∧ o < 0x500 ∧ o % 0x40 < 0x28) ∨ (0x500 ≤ o ∧ o < 0x900 ∧ o % 0x40 < 0x30) ∨
      (0x8000 ≤ o ∧ o < 0x8400) ∨ (0x9000 ≤ o ∧ o < 0x9008))))

/-- Records and images in a side's pool (R393, R395). -/
def Die.pooled (x : Die) (side : Bool) : Nat :=
  (x.units.filter fun u => u.side == side).foldl (fun n u => n + u.recs.length + u.slots.length) 0

/-- The vectors of the completion rings whose MSI-X messages are due (R427, R429, R433). -/
def State.msixPending (s : State) : BitVec 64 :=
  ((List.range 16).filter fun r => s.host.msixDue.getLsbD r).foldl
    (fun m r => m ||| (1#64 <<< bits (s.dieReg 0 (0x40528 + 0x40 * r)) 5 0)) 0#64

/-- What reading a register gives (R8): write-only fields read zero, SECST mirrors die 0's state (R413, R422), ISN.FREE counts the free
image slots, OCC the pools' records (R392), EXPQ shows the oldest exported image, and on die 0 the pending-bit array has the vectors whose
messages are due (R427, R433). -/
def State.regView (s : State) (d off : Nat) : BitVec 64 :=
  let r := s.dieReg d (off / 8 * 8)
  match off / 8 * 8 with
  | 0x30028 => r &&& (1#64 <<< 62)
  | 0x30038 => r ||| BitVec.ofNat 64 s.sec.state
  | 0x20030 => setBits r 26 16 (bits r 10 0 - (s.dieAt d).slots.length)
  | 0x20040 => match (s.dieAt d).expq with | k :: _ => BitVec.ofNat 64 (2 ^ 63 + k) | [] => 0#64
  | 0x49000 => if d = 0 then s.msixPending else r
  | 0x20048 => BitVec.ofNat 64 ((s.dieAt d).pooled false + (s.dieAt d).pooled true * 2 ^ 16)
  | _ => r

/-- A program's read of a register; one that no chapter describes reads a free value (R386; log 7). -/
def readReg (d off : Nat) : Eff GWord := do
  if regDescribed d off then return gloved (← getsState (·.regView d off))
  return gloved (Config.freeWord (← freshTurn))

/-- The bank format code that governs a scratchpad word (R81, R82). -/
def State.spadFmt (s : State) (g off : Nat) : Nat := (s.tileAt g).bankOf off

/-- Write a scratchpad word at its bank. -/
def State.writeSpad (s : State) (g off : Nat) (w : GWord) : State :=
  let t := s.tileAt g
  s.setTileAt g { t with spad := t.spad.write off w }

/-- Lines of the 256 KiB tile data cache (R14). -/
def cacheLines : Nat := 2048

/-- Make room for a line that the tile cache does not hold: a full one writes back and drops its lowest line. The spec names no line
to go (DESIGN CHOICE, log 34). -/
def State.evictLine (s : State) (g : Nat) : State :=
  match (s.tileAt g).cache with
  | [] => s
  | (k, _) :: _ =>
    if (s.tileAt g).cache.length < cacheLines then s
    else
      let u := s.writeBack g fun n _ => decide (n = k)
      u.setTileAt g { u.tileAt g with cache := mapDel (u.tileAt g).cache k }

/-- The words of a line of which it holds some: those, and the others as their home has them. -/
def CLine.refill (l : CLine) (m : Mem) (line : Nat) : CLine :=
  { l with
    words := (List.range 16).map fun i => if l.valid.getLsbD i then l.words.getD i GWord.zero else m.read (128 * line + 8 * i),
    valid := BitVec.allOnes 16 }

/-- Have the tile cache hold the word at an address, filling its line from the home; a line that is not held records whether the home
grants write (R100, R388). -/
def fillLine (pa kind : Nat) : Eff CLine := do
  let g ← curTile
  let t ← getTile
  let line := pa / 128
  match t.line line with
  | some l =>
    if l.valid.getLsbD (pa / 8 % 16) then pure l
    else do
      let l ← getsState fun s => l.refill s.mem line
      modTile fun t => { t with cache := mapPut t.cache line l }
      pure l
  | none =>
    modState (·.evictLine g)
    let grant ← getsState fun s => decide (accessVerdict s (classSV t) (g / 16) pa Rights.store = .ok)
    let l ← getsState fun s => CLine.refill ⟨[], 0#16, 0#16, decide (kind = 2), grant⟩ s.mem line
    modTile fun t => { t with cache := mapPut t.cache line l }
    pure l

/-- Load the doubleword of a place on this die's own paths; remote windows are the fabric's. -/
def loadPlace (p : Place) : Eff GWord := do
  match p with
  | .hbm pa kind port =>
    let t ← getTile
    if kind = 0 ∨ port ∨ t.level = .supervisor then getsState fun s => s.mem.read pa
    else
      let l ← fillLine pa kind
      pure (l.words.getD (pa / 8 % 16) GWord.zero)
  | .reg d off => readReg d off
  | .spad g off => getsState fun s => (s.tileAt g).spad.read off
  | .remote _ _ => waitWord

/-- Replace a word of a list. -/
def setWord : List GWord → Nat → GWord → List GWord
  | [], _, _ => []
  | _ :: t, 0, w => w :: t
  | x :: t, i + 1, w => x :: setWord t i w

end Sys2Proof.Machine
end

