-- ==== Sys2Proof/Machine/Ops.lean ====
section
/-!
DEFINITION. The operations every word shares: fetching, passing a word, the conditions under which a word may take effect
(R53 to R58, R353, R354), running a word's own step, taking a trap (R355 to R357, R361, R364, R365) and returning from one
(R358, R359, R362).
-/

namespace Sys2Proof.Machine

/-! ## Fetching (R93, R113) -/

/-- Pairs of words of the 64 KiB instruction cache (R21). -/
def icachePairs : Nat := 8192

/-- Keep a pair in the instruction cache; a full one drops its lowest pair. The spec names no pair to go (DESIGN CHOICE, log 34). -/
def icacheKeep (m : SMap ICPair) (n : Nat) (p : ICPair) : SMap ICPair :=
  mapPut (if m.length < icachePairs then m else m.drop 1) n p

/-- The pair of words at a physical address as the fetch unit caches it, filling on a miss; an uncorrectable pair is
marked, a correctable one corrected and counted (R93). -/
def icacheFill (g pa : Nat) (s : State) : State :=
  let t := s.tileAt g
  match checkWord (s.mem.read pa) with
  | .ok d c =>
    s.setTileAt g { t with icache := icacheKeep t.icache (pa / 8) ⟨some d⟩, gcc := if c then t.gcc + 1#64 else t.gcc }
  | .bad => s.setTileAt g { t with icache := icacheKeep t.icache (pa / 8) ⟨none⟩ }

/-- The pair cached for a physical address. -/
def Tile.pair (t : Tile) (pa : Nat) : Option ICPair := (t.icache.find? fun p => decide (p.1 = pa / 8)).map (·.2)

/-- The physical address of an instruction address, with the checks of a fetch (R28, R150, R370, R373, R380). -/
def fetchPhys (a : BitVec 64) : Eff Nat := do
  let t ← getTile
  let g ← curTile
  let x ← (match t.level with
    | .supervisor => pure (a.toNat, [])
    | .task => do
      raiseIf (!canonical a) cIFLT 4 a
      let e ← translate cIFLT a a
      withLogs e.2 (raiseIf (!pageAllows e.1 t.side false false true) cIFLT 2 a)
      pure (physOf e.1 a, e.2))
  withLogs x.2 (match targetOf x.1 with
    | .hbm _ _ => do
      match ← getsState (accessVerdict · (classSV t) (g / 16) x.1 Rights.fetch) with
      | .ok => pure x.1
      | .refused => raise cIFLT 3 a
      | .held => waitWord
    | _ => raise cIFLT 3 a)

/-- Fetch the word at an instruction address (R93). -/
def fetchAt (a : BitVec 64) : Eff (BitVec 32) := do
  let pa ← fetchPhys a
  let t ← getTile
  let g ← curTile
  if (t.pair pa).isNone then modState (icacheFill g pa)
  let t ← getTile
  match t.pair pa with
  | some ⟨some d⟩ => pure (d.extractLsb' (if a.toNat / 4 % 2 = 1 then 32 else 0) 32)
  | _ => raise cIGLOVE 0 a

/-- One descriptor of a parameter map applied to a word: the field [LO+W−1:LO] takes the parameter's low bits (R65). -/
def substitute (w : BitVec 32) (map : BitVec 32) (k : Nat) (p : BitVec 64) : BitVec 32 :=
  let desc := map.toNat / 2 ^ (10 * k) % 1024
  let lo := desc / 32
  let wd := desc % 32
  let n := w.toNat
  BitVec.ofNat 32 (n / 2 ^ (lo + wd) * 2 ^ (lo + wd) + (p.toNat % 2 ^ wd) * 2 ^ lo + n % 2 ^ lo)

/-- Word `j` of an entry under three parameters; descriptors in the order 0, 1, 2 (R65). -/
def microWord (m : Micro) (j : Nat) (p0 p1 p2 : BitVec 64) : BitVec 32 :=
  let map := m.maps.getD j 0#32
  substitute (substitute (substitute (m.words.getD j 0#32) map 0 p0) map 1 p1) map 2 p2

/-- A control-store entry; an invalid one holds no word (R65). -/
def Tile.micro (t : Tile) (k : Nat) : Micro := mapGet ⟨[], []⟩ t.cstore k

/-- The word an engine is at: from the control store within an expansion, else from the text (R53, R65). -/
def engineWord (e : Eng) : Eff (BitVec 32) := do
  let t ← getTile
  match (t.eng e).exp with
  | some x => pure (microWord (t.micro x.entry) x.j x.p0 x.p1 x.p2)
  | none => fetchAt (t.eng e).pc

/-- The word an engine is at, for a trap's record; none where it cannot be fetched. -/
def State.peekWord (s : State) (e : Eng) : Option (BitVec 32) :=
  match engineWord e s with
  | .ok (w, _) => some w
  | .error _ => none

/-- What names an engine's next word in the scoreboard (R356): its engine is that of the word's tag, or the fetching engine
where there is no word. -/
def State.refOf (s : State) (e : Eng) : WordRef :=
  let x := s.tile.eng e
  let w := s.peekWord e
  ⟨(w.map wordEngine).getD e, x.pos, x.pc, w.getD 0#32, x.exp.isSome, (x.exp.map (·.j)).getD 0⟩

/-! ## Passing a word (R54, R55, R65) -/

/-- An engine's place after a word that does not branch: the next word of the expansion, or the next of the text. -/
def Engine.next (x : Engine) (len : Nat) : Engine :=
  match x.exp with
  | some p =>
    if p.j + 1 < len then ⟨x.pc, x.pos + 1, some { p with j := p.j + 1 }⟩ else ⟨x.pc + 4#64, x.pos + 1, none⟩
  | none => ⟨x.pc + 4#64, x.pos + 1, none⟩

/-- How many words the expansion an engine is in has (R65). -/
def Tile.expLen (t : Tile) (x : Engine) : Nat :=
  match x.exp with
  | some p => (t.micro p.entry).words.length
  | none => 0

/-- The engine passes its word to the next one (R55). -/
def Tile.pass (t : Tile) (e : Eng) : Tile := t.setEng e ((t.eng e).next (t.expLen (t.eng e)))

/-- The engine passes its word to a target address (R58). -/
def Tile.passTo (t : Tile) (e : Eng) (a : BitVec 64) : Tile :=
  t.setEng e ⟨a, (t.eng e).pos + 1, none⟩

/-- S passes its word: at supervisor level no index of the task is taken (R348). -/
def Tile.passS (t : Tile) : Tile :=
  match t.level with
  | .task => t.pass .S
  | .supervisor => { t with eS := { t.eS with pc := t.eS.pc + 4#64 } }

/-- S goes on at a target address. -/
def Tile.passSTo (t : Tile) (a : BitVec 64) : Tile :=
  match t.level with
  | .task => t.passTo .S a
  | .supervisor => { t with eS := { t.eS with pc := a } }

/-! ## Taking a trap (R355 to R357) -/

/-- An incomplete word as the scoreboard image lists it (R356): the word, and the stop point reached. -/
structure Pending where
  ref : WordRef
  prog : Nat
  deriving DecidableEq, Repr

/-- Put a pending entry into ascending index order. -/
def insertPending (p : Pending) : List Pending → List Pending
  | [] => [p]
  | q :: t => if p.ref.idx < q.ref.idx then p :: q :: t else q :: insertPending p t

/-- The tile's running words (R355): D commands in flight, the nest, and `nwait` records not yet posted. -/
def Tile.pendings (t : Tile) : List Pending :=
  let ds := t.dcmds.map fun c => (⟨c.ref, c.prog⟩ : Pending)
  let ns := t.nest.toList.map fun n => (⟨n.ref, n.steps⟩ : Pending)
  let ws := t.nwaits.map fun w => (⟨w.1, 0⟩ : Pending)
  (ds ++ ns ++ ws).foldr insertPending []

/-- The four doublewords of an image entry; FAULT marks the entry of the faulting word `w` alone (R356). -/
def pendingWords (w : WordRef) (p : Pending) : List GWord :=
  [gloved (BitVec.ofNat 64 p.ref.idx), gloved p.ref.addr,
   gloved (BitVec.ofNat 64 (p.ref.word.toNat + (p.ref.eng.tag + 4 + (if p.ref.idx = w.idx then 8 else 0)) * 2 ^ 32 +
     p.ref.jidx % 32 * 2 ^ 40)),
   gloved (BitVec.ofNat 64 p.prog)]

/-- The doublewords of the scoreboard image (R356). -/
def imageWords (t : Tile) (n : Nat) (w : WordRef) : List GWord :=
  let ps := t.pendings
  let act := if bit t.ufv 1 then 1 else 0
  let uj := (t.ufexp.map (·.j)).getD 0
  [gloved (BitVec.ofNat 64 n), gloved (BitVec.ofNat 64 w.idx), gloved w.addr,
   gloved (BitVec.ofNat 64 (w.word.toNat + ps.length % 65536 * 2 ^ 32 +
     (w.eng.tag + (if w.inExp then 4 else 0) + w.jidx % 32 * 8) * 2 ^ 48)),
   gloved t.ufepc, gloved (BitVec.ofNat 64 (bits t.ufcause 7 0 + act * 256 + uj % 32 * 512)), gloved t.ufaddr,
   GWord.zero] ++ ps.flatMap (pendingWords w)

/-- Write doublewords by physical address under a class; the address of the first refused one, else the state (R356). -/
def writePhys (cls d : Nat) : Nat → List GWord → State → Nat ⊕ State
  | _, [], s => .inr s
  | a, w :: t, s =>
    match targetOf a with
    | .hbm _ _ =>
      match accessVerdict s cls d a Rights.store with
      | .ok => writePhys cls d (a + 8) t { s with mem := s.mem.write a w }
      | _ => .inl a
    | _ => .inl a

/-- x registers as the words below `n` left them (R357): newest writes undone first. An entry at 64 is a word that a `get` at or
above `n` took from the return queue for a waiting `vput` (R62; log 17): it is put back. -/
def undoX (n : Nat) : List (Nat × Nat × GWord) → Tile → Tile
  | [], t => t
  | (i, r, w) :: l, t =>
    if n ≤ i then undoX n l (if r = 64 then { t with rq := w :: t.rq } else t.setX r w) else t

/-- Work under way for words at or above `n` that have not passed their trap points: remote requests, a key-value word before its
first step, an `attg`, a waiting `adopt` or `dspan` (R352). -/
def Tile.dropStarted (t : Tile) (n : Nat) : Tile :=
  { t with
    remote := t.remote.filter (fun r => decide (r.idx < n)), dcmds := t.dcmds.filter (fun c => decide (c.ref.idx < n)),
    attg := if (t.attg.map fun a => decide (n ≤ a.idx)) = some true then none else t.attg,
    adoptWait := if (t.adoptWait.map fun a => decide (n ≤ a.idx)) = some true then none else t.adoptWait,
    spanWait := if (t.spanWait.map fun a => decide (n ≤ a.2.1)) = some true then none else t.spanWait,
    sending := t.sending.filter (fun x => decide (x.2 < n)) }

/-- Queue entries that S pushed for words at or above `n` are discarded (R359, R361), and so is work of those words. -/
def Tile.dropAbove (t : Tile) (n : Nat) : Tile :=
  { t.dropStarted n with
    oqV := t.oqV.filter (fun q => decide (q.1 < n)), oqM := t.oqM.filter (fun q => decide (q.1 < n)),
    oqD := t.oqD.filter (fun q => decide (q.1 < n)), boV := t.boV.filter (fun q => decide (q.1 < n)),
    boM := t.boM.filter (fun q => decide (q.1 < n)), boD := t.boD.filter (fun q => decide (q.1 < n)) }

/-- Place all four engines at an index and address (R359, R361). -/
def Tile.placeAll (t : Tile) (x : Engine) : Tile := { t with eS := x, eV := x, eM := x, eD := x }

/-- TCAUSE of a trap (R349). -/
def tcauseOf (i : TrapInfo) : BitVec 64 := BitVec.ofNat 64 (i.cause % 256 + i.sub % 256 * 256)

/-- TSTAT at entry to supervisor level (R349, R356): PPL, CRD and TRD are 0. -/
def tstatOf (w : WordRef) (late ufa : Bool) : BitVec 64 :=
  BitVec.ofNat 64 ((if ufa then 2 ^ 10 else 0) + (if late then 2 ^ 11 else 0) + w.eng.tag * 2 ^ 12 +
    (if w.inExp then 2 ^ 15 else 0) + w.jidx % 32 * 2 ^ 16)

/-- The halt of a double fault (R365): the new cause goes to TCAUSE2 and TADDR2, DF is set, S stops. Firmware is notified
by log code 0x0E when it handles the halt (R414, R417). -/
def doubleFault (i : TrapInfo) (now : BitVec 64) (t : Tile) : Tile :=
  { t with tcause2 := tcauseOf i, taddr2 := i.info, tstat := t.tstat ||| (1#64 <<< 14), run := .halted, haltFtb := now }

/-- A trap of a handler word (R364): nested when TCAUSE and TADDR have been read, else a double fault (R365). `ret` is the
address TEPC takes, `e` the engine of the word's tag. The word's remote requests end with it: run again it makes new ones. -/
def handlerTrap (i : TrapInfo) (e : Eng) (ret now : BitVec 64) (t : Tile) : Tile :=
  if bit t.tstat 8 ∧ bit t.tstat 9 then
    { t with
      remote := [], tepc := ret &&& ~~~3#64, tcause := tcauseOf i, taddr := i.info,
      tstat := setBits (setBits (setBits t.tstat 13 12 e.tag) 9 8 0) 7 7 1,
      eS := { t.eS with pc := t.tvec &&& ~~~3#64 } }
  else doubleFault i now t

/-- Whether a trap goes to the task-level handler (R361, R363). -/
def toTaskLevel (t : Tile) (i : TrapInfo) (late : Bool) : Bool :=
  decide (bits t.ufv 63 2 ≠ 0) && !bit t.ufv 1 &&
  (decide (i.cause = cKVSHARE) || (decide (i.cause % 256 = cGLOVE) && bit t.ufv 0 && !late))

/-- Entry to the task-level handler at index `n` (R361). -/
def taskLevelEntry (i : TrapInfo) (w : WordRef) (wexp : Option Expn) (n : Nat) (t : Tile) : Tile :=
  let t := undoX n t.undo t
  let t := { t with
    ufepc := w.addr, ufexp := wexp, ufcause := tcauseOf i, ufaddr := i.info, tcause := tcauseOf i, taddr := i.info,
    ufv := t.ufv ||| 2#64, undo := t.undo.filter (fun u => decide (u.1 < n)) }
  let v := t.ufv &&& ~~~3#64
  (t.dropAbove n).placeAll ⟨if i.cause = cKVSHARE then v else v + 4#64, n, none⟩

/-- The task's registers that a handler can change, as they stand (R367). -/
def Tile.taskRegs (t : Tile) : TaskRegs := ⟨t.x, t.preds, t.win, t.apol, t.ufv, t.kvctl, t.bfmt⟩

/-- What the tile holds of a trap taken at index `n`, with its engines placed at `x`. -/
def Tile.trapCtx (t : Tile) (n : Nat) (w : WordRef) (x : Engine) : TrapCtx :=
  ⟨n, w, x.pc &&& ~~~3#64, x.exp, t.taskRegs, t.pendings.map (·.ref.idx)⟩

/-- Base of the scoreboard area (R349, R356). -/
def Tile.imageBase (t : Tile) : Nat := bits t.tsb 63 13 * 8192

/-- Entry to supervisor level at index `n`, whose word is at `x` (R356, R357). -/
def supervisorEntry (i : TrapInfo) (w : WordRef) (late : Bool) (n : Nat) (x : Engine) (g : Nat) (s : State) : State :=
  let s := s.writeBack g fun _ _ => true
  let t := s.tileAt g
  let t := undoX n t.undo t
  let t := { t.dropStarted n with undo := [], remote := [] }
  let t := t.placeAll x
  let ctx := t.trapCtx n w x
  match writePhys (classSV t) (g / 16) t.imageBase (imageWords t n w) (s.setTileAt g t) with
  | .inl a =>
    s.setTileAt g (doubleFault ⟨cSVIMG, 0, BitVec.ofNat 64 a, none⟩ s.ftb { t with level := .supervisor, trap := some ctx })
  | .inr s =>
    s.setTileAt g { t with
      level := .supervisor, tcause := tcauseOf i, taddr := i.info, tepc := ctx.tepc,
      tstat := tstatOf w late (bit t.ufv 1), trap := some ctx,
      eS := { t.eS with pc := t.tvec &&& ~~~3#64, exp := none } }

/-- A write of the scoreboard image would meet a held table: the entry to supervisor level waits (R387). -/
def State.imageHeld (s : State) (g : Nat) : Bool :=
  let t := s.tileAt g
  [t.imageBase, t.imageBase + 32 * t.pendings.length + 63].any fun a =>
    decide (accessVerdict s (classSV t) (g / 16) a Rights.store = .held)

/-- The debug mode of a die: SECST.DMODE (R413, R423). -/
def State.dmode (s : State) (d : Nat) : Nat := bits (s.dieReg d 0x30038) 9 8

/-- The physical base of tile `g`'s trace ring (R413). -/
def State.traceBase (s : State) (g : Nat) : Nat := bits (s.dieReg (g / 16) 0x30040) 47 12 * 4096 + g % 16 * 2 ^ 20

/-- A trace record is written to HBM; a ring that lies nowhere takes none. -/
def State.traceAt (pa : Nat) (ws : List GWord) (s : State) : State :=
  match targetOf pa with
  | .hbm _ _ => { s with mem := s.mem.writeList pa ws }
  | _ => s

/-- Write a trace record to the tile's 1 MiB ring, which wraps, when a debug mode is on (R423): kind 0 a taken branch outcome, 1 an event
record, 2 a trap entry. The spec gives no layout: a record is two doublewords, the kind in [1:0] with the dynamic index above it, and the
content (DESIGN CHOICE, log 11). -/
def State.traceRec (s : State) (g kind idx : Nat) (v : BitVec 64) : State :=
  if s.dmode (g / 16) = 0 then s
  else
    let t := s.tileAt g
    (s.setTileAt g { t with traced := t.traced + 1 }).traceAt (s.traceBase g + t.traced % 65536 * 16)
      [gloved (BitVec.ofNat 64 (4 * idx + kind)), gloved v]

/-- Post a record on tile `g`, with its trace record (R64, R423). -/
def State.postEvent (s : State) (g : Nat) (e : Eng) (idx : Nat) (v : EvEntry) : State :=
  (s.setTileAt g ((s.tileAt g).post e v)).traceRec g 1 idx v.w.data

/-- Post the records of D commands that have ended, in index order, until D holds one (R64); `fuel` is their number. -/
def State.postEnded (g : Nat) : Nat → State → State
  | 0, s => s
  | n + 1, s =>
    let t := s.tileAt g
    match t.dcmds.find? fun c => c.ended && (!c.ev || !t.holds .D) with
    | none => s
    | some c =>
      let s := s.setTileAt g { t with dcmds := t.dcmds.filter fun x => decide (x.ref.idx ≠ c.ref.idx) }
      postEnded g n (if c.ev then s.postEvent g .D c.ref.idx ⟨eventWord 3 c.tag c.status c.count, c.pranges⟩ else s)

/-- Post what D's ended commands of a tile may post now. At supervisor level their records wait: `resume` settles each entry in its turn
(R358). -/
def State.settleEnded (s : State) (g : Nat) : State :=
  if (s.tileAt g).level = .supervisor then s else s.postEnded g (s.tileAt g).dcmds.length

/-- A command ends with the STATUS and COUNT of its record (R64). -/
def DCmd.endWith (c : DCmd) (status count : Nat) : DCmd :=
  { c with ended := true, done := true, window := none, status := status, count := count }

/-- A trap that is S's GLOVE for the accumulators a restore could not read is raised once; any other leaves it to be raised (R406). -/
def Tile.accTaken (t : Tile) (i : TrapInfo) (n : Nat) : Tile :=
  match t.accFault with
  | some f => if i.cause = cGLOVE ∧ n = f.idx ∧ i.info = f.addr then { t with accFault := none } else t
  | none => t

/-- Take a trap of word `w` on tile `g` at index `n`, whose word is at `x` (R355, R356). An uncorrectable syndrome is
counted in GUC and logged (R412, R414). The tile takes one trap at a time, so that no late fault stays behind it (R354); a `tail` at
`n` whose waits were under way has not passed its trap point and is performed anew (DEDUCED, log 36). -/
def takeTrap (i : TrapInfo) (w : WordRef) (wexp : Option Expn) (late : Bool) (n : Nat) (x : Engine) (g : Nat)
    (s : State) : State :=
  let glv := decide (i.cause = cGLOVE ∨ i.cause = cIGLOVE)
  let s := if glv then
    let t := s.tileAt g
    logError ⟨g / 16, 0x01, g % 16, i.info, tcauseOf i⟩ false (s.setTileAt g { t with guc := t.guc + 1#64 })
    else s
  let s := s.traceRec g 2 n (tcauseOf i)
  let t := { (s.tileAt g).accTaken i n with late := none, ending := false }
  let s := s.setTileAt g t
  match t.level with
  | .supervisor => s.setTileAt g (handlerTrap i w.eng x.pc s.ftb t)
  | .task =>
    if toTaskLevel t i late then s.setTileAt g (taskLevelEntry i w wexp n t)
    else supervisorEntry i w late n x g s

/-- The tile does not take a trap yet: at task level a trap that enters supervisor level waits while its image meets a held table
(R387). -/
def State.trapHeld (s : State) (i : TrapInfo) (late : Bool) (g : Nat) : Bool :=
  decide ((s.tileAt g).level = .task) && !toTaskLevel (s.tileAt g) i late && s.imageHeld g

/-- The moving tile does not take a precise trap yet: a late fault that waits is of a lower word, and the tile takes that one (R354); or
the trap is held. -/
def State.trapWaits (s : State) (i : TrapInfo) : Bool :=
  (decide (s.tile.level = .task) && s.tile.late.isSome) || s.trapHeld i false s.cur

/-- The precise trap of engine `e`'s word (R355): n is the word's own index. -/
def preciseTrap (e : Eng) (i : TrapInfo) (logs : List LogReq) (s : State) : State :=
  if s.trapWaits i then s
  else
    let x := s.tile.eng e
    let w := match i.jx with
      | some j => { s.refOf e with inExp := true, jidx := j }
      | none => s.refOf e
    takeTrap i w x.exp false x.pos x s.cur (logErrors logs s)

/-- A late fault of a word is found: the tile keeps that of the lowest word (R354). -/
def Tile.lateFault (t : Tile) (i : TrapInfo) (w : WordRef) : Tile :=
  match t.late with
  | some (_, v) => if w.idx < v.idx then { t with late := some (i, w) } else t
  | none => { t with late := some (i, w) }

/-! ## Running a word -/

/-- How an S word stands toward the other engines (R353): it only writes x registers and pushes, or it has effects that wait
until every word below it has passed its trap point, which joint words do too (R57). -/
inductive SKind where
  | slip
  | settled
  deriving DecidableEq, Repr

/-- A tile that runs words. -/
def Tile.runs (t : Tile) : Bool := decide (t.run = .running) && t.cut.isNone && !t.ending

/-- A tile whose work under way goes on: at task level, not cut, not stopped (R355, R402). -/
def Tile.works (t : Tile) : Bool := decide (t.run = .running) && t.cut.isNone && decide (t.level = .task)

/-- S raises GLOVE for the accumulators that a restore could not read, at the place it was restored to (R406). -/
def Tile.raiseAcc (t : Tile) : Eff Unit :=
  match t.accFault with
  | some f => raiseIf (decide (f.idx ≤ t.eS.pos)) cGLOVE 0 f.addr
  | none => pure ()

/-- Before an S word: the tile runs; a word of the classes of R348 is illegal at supervisor level; at task level the slip
window has room (R56) and, for a settled word, V, M and D have reached it. An accumulator word that a restore could not read
faults here (R406). -/
def beginS (k : SKind) (supLegal : Bool) : Eff Unit := do
  let t ← getTile
  waitUnless t.runs
  match t.level with
  | .supervisor => raiseIf (!supLegal) cILL 0 t.eS.pc
  | .task =>
    t.raiseAcc
    waitUnless (decide (t.eS.pos - t.minPos < t.win.toNat))
    match k with
    | .slip => pure ()
    | .settled => waitUnless t.settled

/-- Give the outcome of a word of engine `e`: a trap is taken on the state before the word (R12), once every word below it
has passed its trap point (R354); a wait leaves the state as it was. -/
def finish (e : Eng) (r : Except Stop (Unit × State)) (s : State) : Host.Outcome State Fault Refusal :=
  match r with
  | .ok (_, s') => .next s'
  | .error .wait => .next s
  | .error (.trap i logs) =>
    let t := s.tile
    if t.level = .task ∧ e = .S ∧ ¬ t.settled then .next s else .next (preciseTrap e i logs s)
  | .error (.fault f) => .fault f
  | .error (.refuse r) => .refused r

/-- Run an S word: its conditions, its step, then the next word (R53, R353). -/
def runS (k : SKind) (supLegal : Bool) (body : Eff Unit) (s : State) : Host.Outcome State Fault Refusal :=
  finish .S ((do beginS k supLegal; body; modTile Tile.passS : Eff Unit).run s) s

/-- Run an S word that says itself where S goes on. -/
def runSJump (k : SKind) (supLegal : Bool) (body : Eff (BitVec 64)) (s : State) : Host.Outcome State Fault Refusal :=
  finish .S ((do beginS k supLegal; let a ← body; modTile (·.passSTo a) : Eff Unit).run s) s

/-- Run an S word that places the engines itself. -/
def runSOwn (k : SKind) (supLegal : Bool) (body : Eff Unit) (s : State) : Host.Outcome State Fault Refusal :=
  finish .S ((do beginS k supLegal; body : Eff Unit).run s) s

/-- Run an S word whose step says whether the word is passed; what the step did is kept either way, but the corrections of its
operands count with the step that passes it (R90). -/
def runSHold (k : SKind) (supLegal : Bool) (body : Eff Bool) (s : State) : Host.Outcome State Fault Refusal :=
  finish .S ((do
    beginS k supLegal
    if ← body then modTile Tile.passS else modTile fun t => { t with gcc := s.tile.gcc } : Eff Unit).run s) s

/-- Before a V, M or D word: the tile runs its task, S has passed the word (R55), and every word below it has passed its
trap point (R353). At supervisor level such a word is illegal, raised by S (R348). -/
def beginE (e : Eng) : Eff Unit := do
  let t ← getTile
  waitUnless t.runs
  match t.level with
  | .supervisor => raise cILL 0 t.eS.pc
  | .task =>
    let n := (t.eng e).pos
    waitUnless (decide (n < t.eS.pos ∧ n ≤ t.minPos))

/-- The value of a word's guard at its index (R63). -/
def guardOn (e : Eng) (g : BitVec 4) : Eff Bool := do
  let t ← getTile
  pure (t.predAt g.toNat (t.eng e).pos)

/-- Run a V, M or D word: its conditions, then its step unless its guard is false, then the next word (R63, R353). -/
def runE (e : Eng) (g : BitVec 4) (body : Eff Unit) (s : State) : Host.Outcome State Fault Refusal :=
  finish e ((do
    beginE e
    if ← guardOn e g then body
    modTile (·.pass e) : Eff Unit).run s) s

/-- Run a V, M or D word that may stay at the head of its engine: the step says whether the word is passed. -/
def runEHold (e : Eng) (g : BitVec 4) (body : Eff Bool) (s : State) : Host.Outcome State Fault Refusal :=
  finish e ((do
    beginE e
    if ← guardOn e g then
      if ← body then modTile (·.pass e)
    else modTile (·.pass e) : Eff Unit).run s) s

/-- An illegal word of engine `e`: ILL at its own index, whatever its guard (R63, R123). -/
def runIllegal (e : Eng) (s : State) : Host.Outcome State Fault Refusal :=
  match e with
  | .S => runS .slip true (do raise cILL 0 (← wordAddr .S)) s
  | e => finish e ((do beginE e; raise cILL 0 (← wordAddr e) : Eff Unit).run s) s

/-! ## Returning (R358, R359, R362) -/

/-- The return to the task (R359): every engine at n; at the word of TEPC, continuing the expansion when TEPC is as the
trap left it; entries S had pushed at or above n are discarded; clean lines of the tile cache are dropped (R100). -/
def returnToTask (t : Tile) (c : TrapCtx) : Tile :=
  let x : Engine := if t.tepc = c.tepc then ⟨t.tepc, c.n, c.exp⟩ else ⟨t.tepc, c.n, none⟩
  let t := (t.dropAbove c.n).placeAll x
  (Tile.invalidate { t with level := .task, trap := none } fun _ _ => true)

/-- Settle a D command after a trap (R358): none is left of one that is dropped, or that has completed, and requested no event; one that did
has its record to post, of STATUS 0xFF and the count of the work done where its entry is marked SKIP. A copy ended by a late fault is issued
whole again; other work goes on from its stop point. -/
def DCmd.settle (skip : Nat → Bool) (c : DCmd) : Option DCmd :=
  if skip c.ref.idx then (if c.ev then some { c.endWith 0xFF c.count with faulted := false } else none)
  else if c.ended then (if c.ev then some { c with faulted := false } else none)
  else if c.faulted then
    let restart := match c.kind with
      | .copy _ => true
      | .gather => true
      | .scatter => true
      | .fill => true
      | _ => false
    some { c with faulted := false, prog := if restart then 0 else c.prog, count := if restart then 0 else c.count }
  else some c

/-- The indices whose entries in the image are marked SKIP: FLAGS bit 4 of the entry at position `i` (R356, R358). -/
def skipMarks (m : Mem) (base : Nat) : Nat → List Nat → List Nat
  | _, [] => []
  | i, p :: t =>
    let w := (m.read (base + 64 + 32 * i + 16)).data
    if bit w 36 then p :: skipMarks m base (i + 1) t else skipMarks m base (i + 1) t

/-- A record due at a settlement: of an `nwait` marked SKIP with its word, or of D's ended command of an index (R358). -/
structure Settled where
  idx : Nat
  m : Option GWord
  deriving DecidableEq, Repr

/-- Put a record before those of higher words. -/
def insertSettled (v : Settled) : List Settled → List Settled
  | [] => [v]
  | w :: l => if v.idx < w.idx then v :: w :: l else w :: insertSettled v l

/-- Post a record that is due; D's stays with its command while D holds one (R64). -/
def State.postDue (g : Nat) (s : State) (v : Settled) : State :=
  match v.m with
  | some w => s.postEvent g .M v.idx ⟨w, []⟩
  | none =>
    let t := s.tileAt g
    match t.dcmds.find? fun c => c.ended && decide (c.ref.idx = v.idx) with
    | some c =>
      if t.holds .D then s
      else (s.setTileAt g { t with dcmds := t.dcmds.filter fun x => decide (x.ref.idx ≠ v.idx) }).postEvent g .D v.idx
        ⟨eventWord 3 c.tag c.status c.count, c.pranges⟩
    | none => s

/-- The tile's pending work after `resume` has settled every entry, before any record is posted (R358). -/
def Tile.settleWork (t : Tile) (skip : Nat → Bool) : Tile :=
  { t with
    dcmds := t.dcmds.filterMap (·.settle skip), nwaits := t.nwaits.filter fun w => !skip w.1.idx,
    nest := match t.nest with
      | some n => if skip n.ref.idx then none else some { n with faulted := false }
      | none => none }

/-- The records that a settlement posts, in ascending index (R358). -/
def Tile.dueRecords (t : Tile) (skip : Nat → Bool) : List Settled :=
  (((t.settleWork skip).dcmds.filter (·.ended)).map (fun c => (⟨c.ref.idx, none⟩ : Settled)) ++
    (t.nwaits.filter fun w => skip w.1.idx).map fun w => (⟨w.1.idx, some (eventWord 2 w.2.1 0xFF w.2.2)⟩ : Settled)).foldr insertSettled []

/-- The entries of the image that the handler has marked SKIP (R358). -/
def State.skipped (s : State) (g : Nat) : List Nat :=
  let t := s.tileAt g
  skipMarks s.mem (bits t.tsb 63 13 * 8192) 0 ((t.trap.map (·.pend)).getD [])

/-- `resume`'s settlement of every pending entry in ascending index (R358). -/
def State.settleAll (s : State) (g : Nat) : State :=
  let sk := s.skipped g
  let t := s.tileAt g
  (t.dueRecords fun i => sk.contains i).foldl (fun s v => s.postDue g v) (s.setTileAt g (t.settleWork fun i => sk.contains i))

/-- `uret` (R362): all four engines at the next index with the word of UFEPC, or its place in an expansion; ACT becomes 0. -/
def uretPlace (t : Tile) : Tile :=
  let x : Engine := ⟨t.ufepc, t.eS.pos + 1, t.ufexp⟩
  Tile.placeAll { t with ufv := t.ufv &&& ~~~2#64 } x

end Sys2Proof.Machine
end

