-- ==== Sys2Proof/Machine/Pool.lean ====
section
/-!
DEFINITION. The key-value pool controller's own structures: headers, descriptors, free stack and damage lists (R229 to R233,
R390, R418 to R420), and the KVREP report.
-/

namespace Sys2Proof.Machine

/-- Whom a pool access works for: the owning die and pool, the class of the access, the record's address, which a refusal
reports (R229), the address a GLOVE of `attg` names (R253), and the tile whose lane checks the words, none where the die's
controller does. -/
structure PCtx where
  die : Nat
  pool : Nat
  cls : Nat
  recVa : BitVec 64
  named : BitVec 64
  lane : Option Nat
  deriving DecidableEq, Repr

/-- Why a controller's step ends early, its changes discarded: a late or precise trap of the word, an uncorrectable word of the
pool's structures (R420), an uncorrectable K or V word of `attg` (R418), a held table, or a stop of another kind. -/
inductive PStop where
  | late (t : TrapInfo) (logs : List LogReq)
  | precise (t : TrapInfo) (logs : List LogReq)
  | disable (c : PCtx) (pa : Nat)
  | damaged (c : PCtx) (x slot pa : Nat)
  | wait
  | other (r : Stop)
  deriving DecidableEq, Repr

/-- What a controller's step works on: the package, and the physical ranges that the word has written in the step (R110). -/
structure PSt where
  s : State
  wrote : List (Nat × Nat)

/-- A controller's step. -/
abbrev PEff := StateT PSt (Except PStop)

/-- Perform a controller's step on the package. -/
def PEff.on {α : Type} (m : PEff α) (s : State) : Except PStop (α × PSt) := m.run ⟨s, []⟩

/-- End the step. -/
def pStop {α : Type} (r : PStop) : PEff α := fun _ => .error r

/-- A value of the state. -/
def pGets {α : Type} (f : State → α) : PEff α := fun p => .ok (f p.s, p)

/-- Change the state. -/
def pMod (f : State → State) : PEff Unit := fun p => .ok ((), { p with s := f p.s })

/-- Note physical ranges that the word has written. -/
def pWrote (l : List (Nat × Nat)) : PEff Unit := fun p => .ok ((), { p with wrote := p.wrote ++ l })

/-- The die that an access comes from: the tile's own, whose V reads a pool for `attg`, else the controller's (R229, R383). -/
def PCtx.from' (c : PCtx) : Nat := (c.lane.map (· / 16)).getD c.die

/-- The HBM tables' answer to a controller's access (R229). -/
def pAllow (c : PCtx) (pa : Nat) (r : Rights) : PEff Unit := do
  match targetOf pa with
  | .hbm _ _ =>
    match ← pGets (accessVerdict · c.cls c.from' pa r) with
    | .ok => pure ()
    | .refused => pStop (.late ⟨cDFLT, 3, c.recVa, none⟩ [])
    | .held => pStop .wait
  | _ => pStop (.late ⟨cDFLT, 3, c.recVa, none⟩ [])

/-- Read a word of the pool unchecked (R238). -/
def pRaw (c : PCtx) (pa : Nat) : PEff GWord := do
  pAllow c pa Rights.load
  pGets fun s => s.mem.read pa

/-- Count a correction: the tile's GCC where a lane checks, else the die's DGCC (R412, R413). -/
def pCount (c : PCtx) (s : State) : State :=
  match c.lane with
  | some g =>
    let t := s.tileAt g
    s.setTileAt g { t with gcc := t.gcc + 1#64 }
  | none => s.countDie c.die 1

/-- Check a word; none when uncorrectable. -/
def pCheck (c : PCtx) (w : GWord) : PEff (Option (BitVec 64)) := do
  match checkWord w with
  | .ok v false => pure (some v)
  | .ok v true =>
    pMod (pCount c)
    pure (some v)
  | .bad => pure none

/-- Read a word and check it. -/
def pChecked (c : PCtx) (pa : Nat) : PEff (Option (BitVec 64)) := do pCheck c (← pRaw c pa)

/-- Read a word of a header, descriptor or free stack: an uncorrectable one disables the pool (R420). -/
def pMeta (c : PCtx) (pa : Nat) : PEff (BitVec 64) := do
  match ← pChecked c pa with
  | some v => pure v
  | none => pStop (.disable c pa)

/-- Write a word of the pool unchanged. -/
def pPut (c : PCtx) (pa : Nat) (w : GWord) : PEff Unit := do
  pAllow c pa Rights.store
  pMod fun s => { s with mem := s.mem.write pa w }
  pWrote [(pa / 8 * 8, 8)]

/-- Write a computed word, gloved. -/
def pWrite (c : PCtx) (pa : Nat) (v : BitVec 64) : PEff Unit := pPut c pa (gloved v)

/-- A pool header (R230). -/
structure PoolHdr where
  pa : Nat
  dbase : Nat
  fbase : Nat
  npg : Nat
  hkv : Nat
  deriving DecidableEq, Repr

/-- Where KVPH places a pool's header, when it is enabled there (R390). -/
def State.poolAddr (s : State) (d p : Nat) : Option Nat :=
  let k := s.dieReg d (0x2000 + 8 * p)
  if bit k 0 then some (bits k 47 6 * 64) else none

/-- Whether the die and header fields of a pool identifier are in range (R229). -/
def poolIdOk (id : Nat) : Bool := decide (id % 32 < 24 ∧ id / 32 % 8 = 0 ∧ id / 4096 = 0)

/-- Read a pool's header; none where KVPH or, when `must` is set, the header does not enable the pool (R229, R390). -/
def pHeader (c : PCtx) (must : Bool) : PEff (Option PoolHdr) := do
  match ← pGets (·.poolAddr c.die c.pool) with
  | none => pure none
  | some h =>
    let w2 ← pMeta c (h + 16)
    if must ∧ ¬ bit w2 40 then pure none
    else
      let d ← pMeta c h
      let f ← pMeta c (h + 8)
      pure (some ⟨h, d.toNat, f.toNat, bits w2 31 0, bits w2 39 32⟩)

/-- A page descriptor (R232): addresses of data and caps, REF, VALID, DFLAGS. -/
structure PageDesc where
  pa : Nat
  pbase : Nat
  capb : Nat
  ref : Nat
  valid : Nat
  flags : Nat
  deriving DecidableEq, Repr

/-- Read the descriptor of a page. -/
def pDesc (c : PCtx) (h : PoolHdr) (x : Nat) : PEff PageDesc := do
  let pa := h.dbase + 32 * x
  let p ← pMeta c pa
  let q ← pMeta c (pa + 8)
  let w ← pMeta c (pa + 16)
  pure ⟨pa, p.toNat, q.toNat, bits w 31 0, bits w 39 32, bits w 47 40⟩

/-- Write REF, VALID and DFLAGS of a descriptor. -/
def pSetDesc (c : PCtx) (d : PageDesc) : PEff Unit :=
  pWrite c (d.pa + 16) (BitVec.ofNat 64 (d.ref % 2 ^ 32 + d.valid % 256 * 2 ^ 32 + d.flags % 256 * 2 ^ 40))

/-- The damage list of a pool (R419): slot and page pairs. -/
def State.damageOf (s : State) (d p : Nat) : List (Nat × Nat) := mapGet [] (s.dieAt d).damage p

/-- Set the damage list of a pool. -/
def State.setDamage (s : State) (d p : Nat) (l : List (Nat × Nat)) : State :=
  s.setDieAt d { s.dieAt d with damage := mapSet [] (s.dieAt d).damage p l }

/-- Enter a slot of a page in the damage list; when the list is full, set the page's DAMAGED flag instead (R419). -/
def pDamage (c : PCtx) (h : PoolHdr) (x slot : Nat) : PEff Unit := do
  let l ← pGets (·.damageOf c.die c.pool)
  if l.contains (slot, x) then pure ()
  else if l.length < 64 then pMod (·.setDamage c.die c.pool (l ++ [(slot, x)]))
  else
    let d ← pDesc c h x
    pSetDesc c { d with flags := d.flags ||| 2 }

/-- Disable a pool whose structures hold an uncorrectable word (R420): the header's ENABLED flag is cleared and code 0x0D
is logged. The controller checks the header word it changes, and gloves it afresh from its data where it is uncorrectable. -/
def disablePool (c : PCtx) (pa : Nat) (s : State) : State :=
  let s := match s.poolAddr c.die c.pool with
    | some h =>
      let put := fun (v : BitVec 64) (s : State) => { s with mem := s.mem.write (h + 16) (gloved (setBits v 40 40 0)) }
      match checkWord (s.mem.read (h + 16)) with
      | .ok v fixed => put v (if fixed then s.countDie c.die 1 else s)
      | .bad => put (s.mem.read (h + 16)).data s
    | none => s
  logError ⟨c.die, 0x0D, 15, BitVec.ofNat 64 (c.die + 256 * c.pool), BitVec.ofNat 64 pa⟩ false s

/-- Set KVREP.ERR (R413, R419). -/
def kvrepRefuse (d : Nat) (s : State) : State := s.setDieReg d 0x30028 (1#64 <<< 62)

/-- A KVREP report (R419), one step of the pool, under class 4; one that meets a held table waits for it (R387). -/
def kvrepReport (d : Nat) (w : BitVec 64) (s : State) : State :=
  let c : PCtx := ⟨d, bits w 51 48, 4, 0#64, 0#64, none⟩
  let x := bits w 31 0
  let r := (do
    match ← pHeader c true with
    | some h =>
      if x ≥ h.npg then pure false
      else do
        pDamage c h x (bits w 47 44)
        pure true
    | none => pure false : PEff Bool).on s
  match r with
  | .ok (true, p) => p.s
  | .error (.disable _ pa) => kvrepRefuse d (disablePool c pa s)
  | .error .wait => s.setDieAt d { s.dieAt d with kvreps := (s.dieAt d).kvreps ++ [w] }
  | _ => kvrepRefuse d s

/-- The reports that wait on die `d` are decided by the tables as they now stand (R387). -/
def retryKvreps (d : Nat) (s : State) : State :=
  (s.dieAt d).kvreps.foldl (fun s w => kvrepReport d w s) (s.setDieAt d { s.dieAt d with kvreps := [] })

/-- A write of KVREP (R413): a 1 at ERR clears it; a value with a reserved bit set keeps those bits 0. A write that only
clears ERR reports nothing. -/
def writeKvrep (d : Nat) (w : BitVec 64) (s : State) : State :=
  if bit w 62 then s.setDieReg d 0x30028 0#64 else kvrepReport d w s

end Sys2Proof.Machine
end

