-- ==== Sys2Proof/Machine/Rings.lean ====
section
/-!
DEFINITION. The host rings' registers, their doorbells and the posting of completions (R429 to R434).
-/

namespace Sys2Proof.Machine

/-- Offset in die 0's register space of a register of ring `r`: submission (false) or completion (true) (R429). -/
def ringReg (cq : Bool) (r k : Nat) : Nat := 0x40000 + (if cq then 0x500 else 0x100) + 0x40 * r + k

/-- A ring register. -/
def State.ring (s : State) (cq : Bool) (r k : Nat) : BitVec 64 := s.dieReg 0 (ringReg cq r k)

/-- Write a ring register. -/
def State.setRing (s : State) (cq : Bool) (r k : Nat) (v : BitVec 64) : State := s.setDieReg 0 (ringReg cq r k) v

/-- Ring enabled (SQST, CQST bit 0). -/
def State.ringOn (s : State) (cq : Bool) (r : Nat) : Bool := bit (s.ring cq r 0x20) 0

/-- Entries between HEAD and TAIL, modulo 2^32 (R430, R434): the tail is at +0x10 and the head at +0x18 in both kinds. -/
def State.ringFill (s : State) (cq : Bool) (r : Nat) : Nat :=
  ((s.ring cq r 0x10).toNat + 2 ^ 32 - (s.ring cq r 0x18).toNat % 2 ^ 32) % 2 ^ 32

/-- Ring size (R429). -/
def State.ringSize (s : State) (cq : Bool) (r : Nat) : Nat := 2 ^ bits (s.ring cq r 0x08) 4 0

/-- A completion ring can take an entry (R434). -/
def State.cqRoom (s : State) (r : Nat) : Bool := s.ringOn true r && decide (s.ringFill true r < s.ringSize true r)

/-- Write doublewords at a physical address where HBM is there. -/
def writeHome (pa : Nat) (ws : List GWord) (s : State) : State :=
  match targetOf pa with
  | .hbm _ _ => { s with mem := s.mem.writeList pa ws }
  | _ => s

/-- Write a completion entry and then CQT (R429, R433). -/
def putCompl (c : Compl) (s : State) : State :=
  let tail := (s.ring true c.ring 0x10).toNat
  let lg := bits (s.ring true c.ring 0x08) 4 0
  let base := bits (s.ring true c.ring 0) 47 7 * 128
  let w0 := c.kind % 256 + tail / 2 ^ lg % 2 * 2 ^ 8 + c.ring % 16 * 2 ^ 12 + c.status % 256 * 2 ^ 16 + c.tag.toNat * 2 ^ 32
  let s := writeHome (base + 32 * (tail % 2 ^ lg)) [gloved (BitVec.ofNat 64 w0), gloved c.info1, gloved c.info2, gloved s.ftb] s
  let s := s.setRing true c.ring 0x10 (BitVec.ofNat 64 ((tail + 1) % 2 ^ 32))
  if bit (s.ring true c.ring 0x28) 6 then
    { s with host := { s.host with msixDue := s.host.msixDue ||| (1#16 <<< c.ring) } }
  else s

/-- Write held NOTE entries whose rings have room, oldest first (R434). -/
def flushNotes : List Compl → State → State
  | [], s => { s with host := { s.host with notes := [] } }
  | c :: t, s =>
    if s.cqRoom c.ring then flushNotes t (putCompl c s)
    else
      let s := flushNotes t s
      { s with host := { s.host with notes := c :: s.host.notes } }

/-- Write held unsolicited entries while ring 0 has room, oldest first (R434). -/
def flushUns : List Compl → State → State
  | [], s => { s with host := { s.host with uns := [] } }
  | c :: t, s => if s.cqRoom 0 then flushUns t (putCompl c s) else { s with host := { s.host with uns := c :: t } }

/-- Firmware writes what it holds (R434). -/
def flushHeld (s : State) : State :=
  let s := flushUns s.host.uns s
  flushNotes s.host.notes s

/-- Post a completion (R433, R434): CMD entries are posted only where there is room; NOTE entries are held without limit;
unsolicited entries are held up to 4,096, and beyond that the newest is dropped and logged with code 0x14. -/
def postCompl (c : Compl) (s : State) : State :=
  if c.kind = 2 then
    if s.cqRoom c.ring ∧ ¬ s.host.notes.any (fun n => decide (n.ring = c.ring)) then putCompl c s
    else { s with host := { s.host with notes := s.host.notes ++ [c] } }
  else if c.kind = 1 then putCompl c s
  else
    if s.cqRoom 0 ∧ s.host.uns = [] then putCompl c s
    else if s.host.uns.length < 4096 then { s with host := { s.host with uns := s.host.uns ++ [c] } }
    else logError ⟨0, 0x14, 15, BitVec.ofNat 64 c.kind, c.tag.setWidth 64⟩ false s

/-- Halt a submission ring on overrun, with its RINGOVR completion (R430). -/
def overrun (r : Nat) (s : State) : State :=
  let s := s.setRing false r 0x20 (s.ring false r 0x20 ||| 6#64)
  postCompl ⟨5, 0, 0, BitVec.ofNat 32 r, s.ring false r 0x18, s.ring false r 0x10⟩ s

/-- TAIL has passed HEAD by more than the ring's size (R430), which is compared after each write of SQT, whatever EN holds. -/
def State.overruns (s : State) (r : Nat) : Bool := decide (s.ringSize false r < s.ringFill false r)

/-- A write of SQT (R429, R430). -/
def doorbell (r : Nat) (tail : BitVec 32) (s : State) : State :=
  let s := s.setRing false r 0x10 (tail.setWidth 64)
  if s.overruns r then overrun r s else s

/-- A write of CQH: ignored when the fill would exceed the ring (R434). -/
def cqHead (r : Nat) (head : BitVec 32) (s : State) : State :=
  let fill := ((s.ring true r 0x10).toNat + 2 ^ 32 - head.toNat) % 2 ^ 32
  if s.ringSize true r < fill then s else flushHeld (s.setRing true r 0x18 (head.setWidth 64))

/-- A write of EN (R429): 1 while 0 sets HEAD and TAIL to 0 and clears the error bits; 0 disables. -/
def ringEnableBit (cq : Bool) (r : Nat) (on : Bool) (s : State) : State :=
  if on then
    if s.ringOn cq r then s
    else
      let s := s.setRing cq r 0x10 0#64
      let s := s.setRing cq r 0x18 0#64
      flushHeld (s.setRing cq r 0x20 1#64)
  else s.setRing cq r 0x20 (s.ring cq r 0x20 &&& ~~~1#64)

/-- A write of the MSI-X table (R427): 64 entries of two doublewords, of which the spec gives the place alone. They are kept as written,
and a message goes by its vector whatever an entry holds (DESIGN CHOICE, log 32). -/
def writeMsix (off : Nat) (v : BitVec 64) (s : State) : State := s.setDieReg 0 (0x40000 + off) v

/-- A write of a register of block 4 at an offset within the block (R427, R429). DEVSTAT and the pending bits are read-only; an offset at
which no chapter describes a register keeps nothing (log 7). -/
def writeRing (off : Nat) (v : BitVec 64) (s : State) : State :=
  if 0x8000 ≤ off ∧ off < 0x8400 then writeMsix off v s
  else if off < 0x100 ∨ 0x900 ≤ off then s
  else
    let cq := decide (0x500 ≤ off)
    let o := if cq then off - 0x500 else off - 0x100
    let r := o / 0x40
    let k := o % 0x40 / 8 * 8
    if k = 0 then
      if s.ringOn cq r then s else s.setRing cq r 0 (v &&& 0x0000FFFFFFFFFF80#64)
    else if k = 8 then
      if s.ringOn cq r ∨ bits v 4 0 < 4 ∨ 20 < bits v 4 0 then s else s.setRing cq r 8 (v &&& 31#64)
    else if k = 0x10 then (if cq then s else doorbell r (v.setWidth 32) s)
    else if k = 0x18 then (if cq then cqHead r (v.setWidth 32) s else s)
    else if k = 0x20 then ringEnableBit cq r (bit v 0) s
    else if k = 0x28 ∧ cq = true then s.setRing true r 0x28 (v &&& 0x7F#64)
    else s

/-! ## Host writes in order (R427, R428) -/

/-- The physical address of an offset of this member's BAR2 window, by doubleword. -/
def State.barAddr (s : State) (off : Nat) : Nat := s.hwin.toNat + off / 8 * 8

/-- The tables' answer to the host bridge at an offset of the window. -/
def State.barVerdict (s : State) (off : Nat) (r : Rights) : Verdict :=
  match targetOf (s.barAddr off) with
  | .hbm _ _ => if 2 ^ 32 ≤ off then .refused else accessVerdict s 5 0 (s.barAddr off) r
  | _ => .refused

/-- A doubleword of the register space by physical address (R368). -/
def regAddr (d off : Nat) : Nat := 2 ^ 47 + d * 2 ^ 37 + off / 8 * 8

end Sys2Proof.Machine
end

