-- ==== Sys2Proof/Machine/Store.lean ====
section
/-!
DEFINITION. Storing a doubleword at its place (R98 to R101, R386, R388), the atomics' arithmetic (R145), and remote requests of
S and V (R279).
-/

namespace Sys2Proof.Machine

/-- A write of a register by a class other than 4 (R386, R389, R413). A write at an offset where no chapter describes a register is
performed and changes no register that one describes (log 7). -/
def writeRegTile (d off : Nat) (v : BitVec 64) (s : State) : State :=
  if off / 65536 = 1 then
    s.setDieReg d off (v &&& (if off % 16 = 0 then 0xFC00FFFF0007FFFF#64 else 0x0FFF07FF#64))
  else if off = 0x30028 then writeKvrep d v s
  else if off / 65536 = 4 ∧ d = 0 then writeRing (off % 65536) v s
  else s

/-- Put a word into a line, dirty (R100). -/
def CLine.put (l : CLine) (i : Nat) (w : GWord) : CLine :=
  { l with
    words := setWord l.words i w, valid := l.valid ||| (1#16 <<< i), dirty := l.dirty ||| (1#16 <<< i), wgrant := true }

/-- Store at a cached place: into a line that is held; else into one filled first where the tables let the tile read it, and at the
home where they do not. -/
def storeCached (pa kind : Nat) (w : GWord) : Eff Unit := do
  let g ← curTile
  let t ← getTile
  let put := fun (l : CLine) => modTile fun t => { t with cache := mapPut t.cache (pa / 128) (l.put (pa / 8 % 16) w) }
  match t.line (pa / 128) with
  | some l => put l
  | none =>
    if ← getsState fun s => decide (accessVerdict s (classSV t) (g / 16) pa Rights.load = .ok) then put (← fillLine pa kind)
    else modState fun s => { s with mem := s.mem.write pa w }

/-- Store a doubleword, word and glove, at its place. A register takes the data as it stands: a store consumes nothing (R142). -/
def storePlace (p : Place) (w : GWord) : Eff Unit := do
  match p with
  | .hbm pa kind port =>
    let t ← getTile
    if kind = 0 ∨ port ∨ t.level = .supervisor then modState fun s => { s with mem := s.mem.write pa w }
    else storeCached pa kind w
  | .reg d off => modState (writeRegTile d off w.data)
  | .spad g off => modState (·.writeSpad g off w)
  | .remote _ _ => waitWord

/-- An atomic's new value (R145, R147): none where a compare fails and nothing is written. -/
def amoNew (op : AmoOp) (old b : BitVec 64) : Option (BitVec 64) :=
  match op with
  | .add => some (old + b)
  | .and => some (old &&& b)
  | .or => some (old ||| b)
  | .xor => some (old ^^^ b)
  | .min => some (if old.slt b then old else b)
  | .max => some (if old.slt b then b else old)
  | .minu => some (if old.ult b then old else b)
  | .maxu => some (if old.ult b then b else old)
  | .swap => some b
  | .cas e => if old = e then some b else none

/-! ## Host writes (R387, R427, R428) -/

/-- Perform a host write; none where a table it needs is held. A refused write through BAR2 is dropped and logged; one of register space
is dropped. -/
def HostWrite.perform (h : HostWrite) (s : State) : Option State :=
  match h with
  | .window off w =>
    match s.barVerdict off Rights.store with
    | .ok => some { s with mem := s.mem.write (s.barAddr off) (gloved w) }
    | .held => none
    | .refused => some (logError ⟨0, 0x13, 15, BitVec.ofNat 64 (s.barAddr off), BitVec.ofNat 64 s.member⟩ false s)
  | .doorbell r tail => some (Sys2Proof.Machine.doorbell r tail s)
  | .enable cq r on => some (ringEnableBit cq r on s)
  | .head r h => some (cqHead r h s)
  | .register d off w =>
    match accessVerdict s 5 0 (regAddr d off) Rights.store with
    | .ok => some (writeRegTile d off w s)
    | .held => none
    | .refused => some s

/-- Perform host writes in the order of their receipt, up to one that must wait. -/
def hostWrites : List HostWrite → State → State
  | [], s => { s with host := { s.host with writes := [] } }
  | h :: t, s =>
    match h.perform s with
    | some s => hostWrites t s
    | none => { s with host := { s.host with writes := h :: t } }

/-- The host writes that wait go on, where they can (R387). -/
def State.drainHost (s : State) : State := hostWrites s.host.writes s

/-- A host write: behind every earlier one of this member (R428). -/
def hostWrite (h : HostWrite) (s : State) : State := hostWrites (s.host.writes ++ [h]) s

/-- Firmware writes HOLD of die `d` (R387): what waited for a table of it is decided anew. -/
def writeHold (d : Nat) (w : BitVec 64) (s : State) : State :=
  ((List.range 24).foldl (fun s k => if (s.dieAt k).kvreps.isEmpty then s else retryKvreps k s)
    (s.setDieReg d 0x18 (w &&& 0x1F#64))).drainHost

/-! ## Names of dies and tiles (R16 to R18) -/

/-- The die identifier of a package die number (R16 to R18). -/
def State.dieId (s : State) (d : Nat) : Nat :=
  (4 * s.px.toNat + d % 4) * 2 ^ 8 + (3 * s.py.toNat + d / 4 % 3) * 2 + d / 12

/-- The global tile identifier of a tile of this package (R18). -/
def State.gtid (s : State) (g : Nat) : Nat := s.dieId (g / 16) * 16 + g % 16

/-- The package die number of a die identifier, when it lies in this package (R16, R17). -/
def State.dieOf (s : State) (id : Nat) : Option Nat :=
  let x := id / 2 ^ 8
  let y := id / 2 % 128
  if x / 4 = s.px.toNat ∧ y / 3 = s.py.toNat then some (x % 4 + 4 * (y % 3) + 12 * (id % 2)) else none

/-- The package tile number of a global tile identifier, when it lies in this package (R18). -/
def State.tileOf (s : State) (t : BitVec 19) : Option Nat := (s.dieOf (t.toNat / 16)).map fun d => 16 * d + t.toNat % 16

/-- A die number that stands for every die outside this package. -/
def outside : Nat := 24

/-! ## Time and the age of packets (R274, R275) -/

/-- The age of a packet in units of 128 ns (R275). -/
def State.age (s : State) (p : Packet) : Nat := (s.ftb.extractLsb' 7 20 - p.stamp).toNat

/-- A packet is lost: logged by a die (R275, R414). -/
def lostLog (s : State) (d : Nat) (p : Packet) : LogReq := ⟨d, 0x05, 15, BitVec.ofNat 64 (s.dieId p.src), BitVec.ofNat 64 p.vc⟩

/-- FTB moves on to a time, if it is not past it (log 6). The routers discard and log the packets whose lifetime ends before it
(R275). -/
def State.until (s : State) (t : BitVec 64) : State :=
  if s.ftb.toNat < t.toNat then
    let old := fun (p : Packet) => decide (375 < s.age p + (t.toNat / 128 - s.ftb.toNat / 128))
    let u := { s with ftb := t, net := s.net.filter fun p => !old p }
    logErrors ((s.net.filter old).map fun p => lostLog s p.loc p) u
  else s

/-! ## Packets of a window (R275, R278) -/

/-- The allowance counter of a window (R278): packets issued and not yet handed over, at most ALW. The packets behind them wait for
it. -/
def Window.allowance (x : Window) : Nat := min x.alw x.outq.length

/-- A window of the moving tile. -/
def Tile.win? (t : Tile) (w : Nat) : Option Window := (t.wins.find? fun p => decide (p.1 = w)).map (·.2)

/-- A packet from die `d`, not yet stamped. -/
def packet (vc d dst : Nat) (b : PktBody) : Packet := ⟨vc, d, dst, d, 0#20, false, none, b⟩

/-- The fabric ingress class of a die's side: 8 + its partition (R369, R379). -/
def State.ingress (s : State) (g : Nat) : Nat :=
  let part := s.dieReg (g / 16) 0x10
  8 + (if (s.tileAt g).side then bits part 5 3 else bits part 2 0)

/-- The class that packets of tile `g` carry. -/
def ingressOf (g : Nat) : Eff Nat := getsState (·.ingress g)

/-- Put a packet of tile `g`'s window `k` behind the packets the window has issued. -/
def Window.issue (w : Window) (g k : Nat) (p : Packet) : Window := { w with outq := w.outq ++ [{ p with origin := some (g, k) }] }

/-- Change a window of the moving tile. -/
def modWin (w : Nat) (f : Window → Window) : Eff Unit :=
  modTile fun t =>
    match t.win? w with
    | some x => { t with wins := mapPut t.wins w (f x) }
    | none => t

/-- The die and tile a window is bound to: package tile number, or none where it lies outside the package. -/
def winTarget (x : Window) : Eff (Option Nat) := getsState (·.tileOf x.target)

/-- No window of the tile holds a packet that waits for its first link. -/
def Tile.quiet (t : Tile) : Bool := t.wins.all fun p => p.2.outq.isEmpty

/-- A word that may send packets: `start` says whether it has sent none. One that sends some holds the head of its engine until
its last packet is handed over (R278); `made` says that it has issued its last. -/
def sendHold (e : Eng) (made : Tile → Bool) (start : Eff Bool) : Eff Bool := do
  let t ← getTile
  let n := (t.eng e).pos
  if t.sending.contains (e, n) then do
    let clear := made t && t.quiet
    if clear then modTile fun t => { t with sending := t.sending.erase (e, n) }
    pure clear
  else do
    let none' ← start
    if !none' then modTile fun t => { t with sending := t.sending ++ [(e, n)] }
    pure none'

/-- The posted packets of a word: its words by window and target block of 64 bytes, in order (R278). -/
def groupBlocks : List (Nat × Nat × GWord) → List (Nat × List (Nat × GWord))
  | [] => []
  | (w, off, x) :: t =>
    match groupBlocks t with
    | (v, (o, y) :: r) :: rest =>
      if v = w ∧ o / 64 = off / 64 ∧ ¬ ((o, y) :: r).any (fun q => decide (q.1 = off)) then (v, (off, x) :: (o, y) :: r) :: rest
      else (w, [(off, x)]) :: (v, (o, y) :: r) :: rest
    | rest => (w, [(off, x)]) :: rest

/-- The die of a window's target. -/
def targetDie (t : Option Nat) : Nat := (t.map (· / 16)).getD outside

/-- Issue the packet of a posted remote write through window `w`: `ctr` is the generation and attempt it counts for, and `add` says
whether it raises the send count (R278, R280, R283). -/
def postBlock (fmt : Nat) (ctr : Option (Nat × Nat)) (add : Bool) (w : Nat) (ws : List (Nat × GWord)) : Eff Unit := do
  let g ← curTile
  let t ← getTile
  match t.win? w with
  | none => pure ()
  | some x => do
    let cls ← ingressOf g
    let target ← winTarget x
    let p := packet 2 (g / 16) (targetDie target) (.posted (target.getD 0) cls fmt ws (ctr.map fun c => (x.pier, c.1, c.2)))
    modWin w fun x => { x.issue g w p with scount := if ctr.isSome ∧ add then (x.scount + ws.length) % 2 ^ 24 else x.scount }

/-- The generation and attempt an open window counts for now (R283). -/
def Window.counter (x : Window) : Option (Nat × Nat) := if x.st = .open then some (x.gen, x.att) else none

/-- Issue several packets of a `vstm` in order (R283). -/
def postBlocks (fmt : Nat) : List (Nat × List (Nat × GWord)) → Eff Unit
  | [] => pure ()
  | (w, ws) :: t => do
    let u ← getTile
    postBlock fmt ((u.win? w).bind Window.counter) true w ws
    postBlocks fmt t

/-! ## Handing packets to the first link (R275, R278) -/

/-- Put a packet on its first link, stamped (R275). -/
def State.inject (s : State) (p : Packet) : State := { s with net := s.net ++ [{ p with stamp := s.ftb.extractLsb' 7 20 }] }

/-- The generation a packet counts for: a counted write's or a keystone's. -/
def Packet.generation (p : Packet) : Option Nat :=
  match p.body with
  | .posted _ _ _ _ (some c) => some c.2.1
  | .keystone _ gen _ _ _ _ _ _ _ _ => some gen
  | _ => none

/-- Hand the next packet of window `w` of tile `g` over (R278). -/
def handOver (g w : Nat) (s : State) : State :=
  let t := s.tileAt g
  match t.win? w with
  | some x =>
    match x.outq with
    | p :: rest =>
      let inj := match p.generation with
        | some k => mapPut x.injected k s.ftb
        | none => x.injected
      (s.setTileAt g { t with wins := mapPut t.wins w { x with outq := rest, injected := inj } }).inject p
    | [] => s
  | none => s

/-- Hand every packet of a tile over: those of each window in order. -/
def handAll (g : Nat) (s : State) : State :=
  (s.tileAt g).wins.foldl (fun s p => (List.range p.2.outq.length).foldl (fun s _ => handOver g p.1 s) s) s

/-! ## Remote requests of S (R279, R405) -/

/-- KIND of the descriptor (R221). -/
def DCmd.kindOf (c : DCmd) : Nat := bits c.desc.data 63 61

/-- A copy, gather, scatter or fill. -/
def DKind.moves : DKind → Bool
  | .copy _ => true
  | .gather => true
  | .scatter => true
  | .fill => true
  | _ => false

/-- The window a copy writes, if any. -/
def DCmd.toWindow (c : DCmd) (g : Nat) : Option Nat :=
  if c.kindOf = 2 then (match spadPlace g (bits c.aD.data 31 0) with | .window w _ => some w | _ => none) else none

/-- A copy to window `w` that has not made all its packets (R277, R278): its scratchpad work is not done, or, of a counted copy, which
keeps its read range, its write range still stands (R284). -/
def DCmd.unissued (c : DCmd) (g w : Nat) : Bool :=
  c.kind.moves && !c.ended && !c.done && decide (c.toWindow g = some w) && (c.window.isNone || !c.wr.isEmpty)

/-- A copy of the task to window `w` has packets to make: a later word that sends through the window waits behind them (R278, R281). A
handler's word waits for none (R348). -/
def Tile.sendsLater (t : Tile) (g w : Nat) : Bool := decide (t.level = .task) && t.dcmds.any (·.unissued g w)

/-- The subcode of a missing window right (R351; log 13). -/
def subRight : Nat := 2

/-- Look up the request that the word made for an address. -/
def findReq (e : Eng) (n : Nat) (va : BitVec 64) : List RemReq → Option RemReq
  | [] => none
  | r :: t => if r.eng = e ∧ r.idx = n ∧ r.va = va then some r else findReq e n va t

/-- Send a remote request for one doubleword through window `w`, or take its result: none while it is under way (R279). -/
def remoteOp (e : Eng) (va : BitVec 64) (w off : Nat) (op : RemOp) (sc : Bool) : Eff (Option GWord) := do
  let t ← getTile
  let g ← curTile
  let n := (t.eng e).pos
  match findReq e n va t.remote with
  | some r =>
    match r.result with
    | none => pure none
    | some (.ok x) => pure (some x)
    | some .refused => raise cDFLT 6 va
    | some .badWord => stop (.trap ⟨cUGLOVE, 0, va, none⟩ [])
    | some .timeout => raise cFAB 0 va
  | none =>
    match t.win? w with
    | none => raise cDFLT 5 (BitVec.ofNat 64 (va.toNat % 2 ^ 32))
    | some x =>
      raiseIf (match op with | .load => !x.canR | _ => !x.canW) cDFLT subRight va
      if decide (x.alw ≤ x.allowance) || t.sendsLater g w then return none
      let cls ← ingressOf g
      let stamp := t.stamp
      let target ← winTarget x
      let d := g / 16
      let tag := t.nextTag
      let p := packet 0 d (targetDie target)
        (.request g tag (target.getD 0) off cls op sc stamp)
      let now ← getsState (·.ftb)
      modTile fun t => { t with nextTag := tag + 1, remote := t.remote ++ [⟨tag, e, n, va, now, none⟩] }
      modWin w (·.issue g w p)
      pure none

/-- Forget the results of a word that has used them. -/
def doneRemote (e : Eng) (n : Nat) : Eff Unit :=
  modTile fun t => { t with remote := t.remote.filter fun r => !(decide (r.eng = e) && decide (r.idx = n)) }

end Sys2Proof.Machine
end

