-- ==== Sys2Proof/Machine/Sched.lean ====
section
/-!
DEFINITION. The scheduler of a die: its continuation queues and spill rings (R49 to R51, R392 to R395), the heads of its levels
(R394, R396), aging (R398), gang reservations (R397), pre-emption requests and the forced cut (R399 to R402).
-/

namespace Sys2Proof.Machine

/-! ## Sides and idle tiles -/

/-- The side of a tile's cluster under its die's BRIM (R23): true is the learner side. -/
def State.sideOf (s : State) (g : Nat) : Bool := decide (s.brim (g / 16) ≤ g / 4)

/-- Tile retired (R416). -/
def State.retired (s : State) (g : Nat) : Bool := bit (s.dieReg (g / 16) 0x30048) (g % 16)

/-- Tile gated (R441); a retired one is, once it runs no task (R416). -/
def State.gatedTile (s : State) (g : Nat) : Bool :=
  (s.dieAt (g / 16)).gated.getLsbD (g % 16) || (s.retired g && (s.tileAt g).task.isNone)

/-- Bring-up has reached stage 9 (R436). -/
def State.ready (s : State) : Bool := decide (bits (s.dieReg 0 0x40000) 3 0 = 9)

/-- The tile lies in a cluster that a brim move of its die is moving (R409). -/
def State.moving (s : State) (g : Nat) : Bool :=
  let b := s.dieReg (g / 16) 0x20008
  let o := s.brim (g / 16)
  let n := bits b 6 0
  decide (bits b 9 8 ≠ 0) && (decide (n ≤ g / 4 ∧ g / 4 < o) || decide (o ≤ g / 4 ∧ g / 4 < n))

/-- A tile that can take a record, reservations apart (R396, R401). -/
def State.canPop (s : State) (g : Nat) : Bool :=
  let t := s.tileAt g
  decide (g < 384) && decide (t.run = .idle) && !s.gatedTile g && !s.retired g && !t.fwStop && !t.brimStop &&
    t.pre.isNone && t.cut.isNone && t.resuming.isNone && !s.frozen && !s.fatal && !(s.dieAt (g / 16)).retention

/-- A cluster of the die reserved for a gang of a side (R397). -/
def Die.reserved (d : Die) (side : Bool) : Option (Nat × Nat) := if side then d.reserveL else d.reserveA

/-- Set a side's reservation. -/
def Die.setReserved (d : Die) (side : Bool) (r : Option (Nat × Nat)) : Die :=
  if side then { d with reserveL := r } else { d with reserveA := r }

/-- A tile of the cluster is gated: a gang waits for it, and the cluster's other tiles go on with single records (R52; DEDUCED, log 29). -/
def State.clusterGated (s : State) (d c : Nat) : Bool := (List.range 4).any fun k => s.gatedTile (16 * d + 4 * c + k)

/-- The tile's cluster is reserved for a gang. -/
def State.inReserve (s : State) (g : Nat) : Bool :=
  let d := s.dieAt (g / 16)
  let c := g / 4 % 4
  (decide (d.reserveA.map (·.2) = some c) || decide (d.reserveL.map (·.2) = some c)) && !s.clusterGated (g / 16) c

/-- The scheduler offers tile `g` the next record: no idle tile of its side and die has a lower index (R396). -/
def State.turn (s : State) (g : Nat) : Bool :=
  let idle := fun h => s.canPop h && !s.inReserve h
  idle g && (List.range (g % 16)).all fun k =>
    let h := g / 16 * 16 + k
    !((s.tileAt h).side == (s.tileAt g).side && idle h)

/-- Bytes of an image (R404). -/
def imageBytes : Nat := 0x280000

/-- The physical address of image slot `k` of a die (R392). -/
def State.slotAddr (s : State) (d k : Nat) : Nat := bits (s.dieReg d 0x20028) 47 16 * 2 ^ 16 + k * imageBytes

/-! ## Queues (R49, R393) -/

/-- Records a unit counts for. -/
def QUnit.count (u : QUnit) : Nat := u.recs.length + u.slots.length

/-- Occupancy of a side's pool (R49). -/
def Die.occ (d : Die) (side : Bool) : Nat := ((d.units.filter fun u => u.side == side).map (·.count)).sum

/-- Take the next arrival count of a side (R393). -/
def Die.arrive (d : Die) (side : Bool) : Nat × Die :=
  if side then (d.arrivalL, { d with arrivalL := d.arrivalL + 1 }) else (d.arrivalA, { d with arrivalA := d.arrivalA + 1 })

/-- Spill ring of a side and level (R392). -/
def ringNo (side : Bool) (level : Nat) : Nat := (if side then 4 else 0) + level

/-- Offset of a doubleword of a spill entry (R392). -/
def spillReg (i k : Nat) : Nat := 0x20100 + 32 * i + 8 * k

/-- A spill ring can take `n` records (R393). -/
def State.ringRoom (s : State) (d i n : Nat) : Bool :=
  decide ((s.dieReg d (spillReg i 3) - s.dieReg d (spillReg i 2)).toNat + n ≤ bits (s.dieReg d (spillReg i 1)) 31 0)

/-- The physical address of record `j` of a spill ring (R393). -/
def State.spillAddr (s : State) (d i j : Nat) : Nat :=
  bits (s.dieReg d (spillReg i 0)) 47 5 * 32 + 32 * (j % bits (s.dieReg d (spillReg i 1)) 31 0)

/-- The words of a record (R27). -/
def Rec.words (r : Rec) : List GWord := [gloved r.code, gloved r.frame, gloved r.join, gloved r.wid]

/-- A record from four doublewords. -/
def recOf (l : List (BitVec 64)) : Rec := ⟨l.getD 0 0#64, l.getD 1 0#64, l.getD 2 0#64, l.getD 3 0#64⟩

/-- Write records to consecutive places of a spill ring (R393). -/
def State.spillWrite (d i : Nat) : Nat → List Rec → State → State
  | _, [], s => s
  | j, r :: t, s => spillWrite d i (j + 1) t (writeHome (s.spillAddr d i j) r.words s)

/-- Put a record, or a gang's four, into a spill ring that has room (R393), with the pops counted at the level (R51). -/
def State.spill (s : State) (d i arrival : Nat) (rs : List Rec) (ws : BitVec 64) (spclr : Bool) (aged promoted : Nat) : State :=
  let j := (s.dieReg d (spillReg i 3)).toNat
  let s := s.spillWrite d i j rs
  let s := s.setDieReg d (spillReg i 3) (s.dieReg d (spillReg i 3) + BitVec.ofNat 64 rs.length)
  let x := s.dieAt d
  s.setDieAt d { x with spills := x.spills ++ [⟨i, j, decide (1 < rs.length), arrival, ws, spclr, aged, promoted, none⟩] }

/-- Records that a spilled unit counts for. -/
def SpillNote.count (n : SpillNote) : Nat := if n.gang then 4 else 1

/-- The level's oldest spilled record on a die (R393): the ring's head. -/
def Die.spillHead (d : Die) (side : Bool) (level : Nat) : Option SpillNote :=
  d.spills.find? fun n => decide (n.ring = ringNo side level)

/-- Of two units the one that pops first within a level (R51): resume records first, then the lower arrival count. A resume record that
aging has brought here is one of the resume records, the last of them as it arrives: R51 says both that they come first and that an aged
record arrives at the tail (DESIGN CHOICE, log 29). -/
def QUnit.before (u v : QUnit) : Bool :=
  if u.slots.isEmpty == v.slots.isEmpty then decide (u.arrival < v.arrival) else !u.slots.isEmpty

/-- The first of a list of units in pop order. -/
def firstUnit : List QUnit → Option QUnit
  | [] => none
  | u :: t =>
    match firstUnit t with
    | none => some u
    | some v => if v.before u then some v else some u

/-- A record that may pop: a unit of the pool, or the head of a spill ring. -/
inductive Cand where
  | pool (u : QUnit)
  | ring (n : SpillNote)
  deriving DecidableEq, Repr

/-- A candidate that is a gang (R48). -/
def Cand.gang : Cand → Bool
  | .pool u => u.gang
  | .ring n => n.gang

/-- The head of a level among the pool's units and the ring's head that a test selects (R394). -/
def Die.headWhere (d : Die) (side : Bool) (level : Nat) (sel : Cand → Bool) : Option Cand :=
  let u := firstUnit (d.units.filter fun u => u.side == side && decide (u.level = level) && sel (.pool u))
  match u, (d.spillHead side level).filter fun n => sel (.ring n) with
  | some u, some n => if u.slots.isEmpty ∧ n.arrival < u.arrival then some (.ring n) else some (.pool u)
  | some u, none => some (.pool u)
  | none, some n => some (.ring n)
  | none, none => none

/-- The head of a level (R394). -/
def Die.head (d : Die) (side : Bool) (level : Nat) : Option Cand := d.headWhere side level fun _ => true

/-- The first candidate in level order from a level on. -/
def firstCand (d : Die) (side : Bool) (sel : Cand → Bool) : Nat → Nat → Option (Nat × Cand)
  | 0, _ => none
  | n + 1, l =>
    match d.headWhere side l sel with
    | some c => some (l, c)
    | none => firstCand d side sel n (l + 1)

/-- The record a single tile of a side is offered (R396): the first in level order that is no gang unit. -/
def Die.offer (d : Die) (side : Bool) : Option (Nat × Cand) := firstCand d side (fun c => !c.gang) 4 0

/-- The unit that a side's reservation is for, while it waits at a level. -/
def Die.reservedAt (d : Die) (side : Bool) (level : Nat) : Option QUnit :=
  (d.reserved side).bind fun r =>
    d.units.find? fun u => u.side == side && u.gang && decide (u.arrival = r.1 ∧ u.level = level)

/-- The record that counts as the head of a level for aging: a gang with a reservation, else the head (R397). -/
def Die.ageHead (d : Die) (side : Bool) (level : Nat) : Option Cand :=
  match d.reservedAt side level with
  | some u => some (.pool u)
  | none => d.head side level

/-- Count `n` records popped from level `l` toward the aging of the heads of lower levels (R51, R398). -/
def Die.age (d : Die) (side : Bool) (l n : Nat) : Die :=
  let heads := [1, 2, 3].filterMap fun k => if l < k then d.ageHead side k else none
  { d with
    units := d.units.map fun u => if heads.contains (.pool u) then { u with aged := u.aged + n } else u,
    spills := d.spills.map fun x => if heads.contains (.ring x) then { x with aged := x.aged + n } else x }

/-- Note which records are heads of their levels and since when (R399): a record that is no head has no such time. -/
def State.noteHeads (s : State) (d : Nat) : State :=
  let x := s.dieAt d
  let hs := [false, true].flatMap fun side => [0, 1, 2, 3].filterMap fun l => x.head side l
  s.setDieAt d { x with
    units := x.units.map fun u =>
      if hs.contains (.pool u) then { u with headSince := some (u.headSince.getD s.ftb) } else { u with headSince := none },
    spills := x.spills.map fun n =>
      if hs.contains (.ring n) then { n with headSince := some (n.headSince.getD s.ftb) } else { n with headSince := none } }

/-- Remove a candidate from the queues; a ring's head advances its HEAD (R393). -/
def State.removeCand (s : State) (d : Nat) (c : Cand) : State :=
  match c with
  | .pool u =>
    let x := s.dieAt d
    s.setDieAt d { x with units := x.units.erase u }
  | .ring n =>
    let x := s.dieAt d
    let s := s.setDieAt d { x with spills := x.spills.erase n }
    s.setDieReg d (spillReg n.ring 2) (s.dieReg d (spillReg n.ring 2) + BitVec.ofNat 64 n.count)

/-- Read doublewords of a spill ring, which the scheduler checks as a consuming lane: an uncorrectable one is logged and reads as a
free value (R91, R414; log 5). -/
def ringRead (d pa : Nat) : Nat → Eff (List (BitVec 64))
  | 0 => pure []
  | n + 1 => do
    let l ← ringRead d pa n
    match ← checkUnit d (← getsState fun s => s.mem.read (pa + 8 * n)) with
    | some v => pure (l ++ [v])
    | none => do
      modState (logError ⟨d, 0x01, 15, BitVec.ofNat 64 (pa + 8 * n), 0#64⟩ false)
      pure (l ++ [Config.freeWord (← freshTurn)])

/-- Read `k` records of a spill ring from record `j` on (R394). -/
def ringRecs (d i j : Nat) : Nat → State → List Rec × State
  | 0, s => ([], s)
  | k + 1, s =>
    let p := ringRecs d i j k s
    match (ringRead d (p.2.spillAddr d i (j + k)) 4).run p.2 with
    | .ok (l, s) => (p.1 ++ [recOf l], s)
    | .error _ => p

/-- The records a candidate holds: a ring's are read from memory (R394). -/
def candRecs (d : Nat) (c : Cand) (s : State) : List Rec × State :=
  match c with
  | .pool u => (u.recs, s)
  | .ring n => ringRecs d n.ring n.j n.count s

/-- The record of a candidate that is a single one. -/
def candRec (d : Nat) (c : Cand) (s : State) : Rec × State :=
  let p := candRecs d c s
  (p.1.headD (recOf []), p.2)

/-- Records a candidate counts for. -/
def Cand.count : Cand → Nat
  | .pool u => u.count
  | .ring n => n.count

/-- Pop a candidate of a level: count it toward aging, then remove it. -/
def State.popCand (s : State) (d : Nat) (side : Bool) (l : Nat) (c : Cand) : State :=
  let s := s.removeCand d c
  (s.setDieAt d ((s.dieAt d).age side l c.count)).noteHeads d

/-- Where an arriving single record goes (R49): the pool below a limit of occupancy, else its spill ring; none when the ring is
full too (R50). Records pushed by `spawn` or a completed join do not carry SPCLR, which only a launch header sets (R31, R43; DESIGN
CHOICE, log 29). -/
def enqueue (d : Nat) (side : Bool) (level : Nat) (r : Rec) (ws : BitVec 64) (limit : Nat) (s : State) : Option State :=
  let x := s.dieAt d
  if x.occ side < limit then
    let a := x.arrive side
    let u : QUnit := ⟨side, level, a.1, [r], [], false, ws, false, 0, 0, none⟩
    some ((s.setDieAt d { a.2 with units := a.2.units ++ [u] }).noteHeads d)
  else
    let i := ringNo side level
    if s.ringRoom d i 1 then
      let a := x.arrive side
      some (((s.setDieAt d a.2).spill d i a.1 [r] ws false 0 0).noteHeads d)
    else none

/-- A fatal queue overflow (R50, R395, R414). -/
def overflow (d : Nat) (side : Bool) (level : Nat) (s : State) : State :=
  logError ⟨d, 0x04, 15, boolNat side, BitVec.ofNat 64 level⟩ true s
where
  /-- Side as a number. -/
  boolNat (b : Bool) : BitVec 64 := if b then 1#64 else 0#64

/-! ## Resume records (R395, R403) -/

/-- Move the ordinary record with the highest arrival count in the lowest nonempty level to its ring (R395), where it takes the next
arrival count (R393): none when that ring is full. A gang's four records move as the one unit they are (R48). -/
def makeRoom (d : Nat) (side : Bool) (s : State) : Option State :=
  let x := s.dieAt d
  let us := x.units.filter fun u => u.side == side && u.slots.isEmpty
  let lv := us.foldl (fun m u => max m u.level) 0
  let at' := us.filter fun u => decide (u.level = lv)
  match at'.find? fun u => at'.all fun v => decide (v.arrival ≤ u.arrival) with
  | none => none
  | some u =>
    if s.ringRoom d (ringNo side u.level) u.recs.length then
      let a := x.arrive side
      let y := if (x.reserved side).map (·.1) = some u.arrival ∧ u.gang then a.2.setReserved side none else a.2
      let s := s.setDieAt d { y with units := y.units.erase u }
      some (s.spill d (ringNo side u.level) a.1 u.recs u.widsplit u.spclr u.aged u.promoted)
    else none

/-- Make room for `n` more records of a pool, which holds 4,096 and one more for each tile (R49), moving at most `k`. -/
def roomFor (d : Nat) (side : Bool) (n : Nat) : Nat → State → Option State
  | 0, s => some s
  | k + 1, s =>
    if (s.dieAt d).occ side + n ≤ 4096 + 16 then some s
    else match makeRoom d side s with
      | some s => roomFor d side n k s
      | none => none

/-- Place a resume unit on a die (R395, R403). -/
def placeResume (d : Nat) (side : Bool) (level : Nat) (slots : List Nat) (gang : Bool) (s : State) : State :=
  match roomFor d side slots.length slots.length s with
  | none => overflow d side level s
  | some s =>
    let a := (s.dieAt d).arrive side
    let u : QUnit := ⟨side, level, a.1, [], slots, gang, 0#64, false, 0, 0, none⟩
    (s.setDieAt d { a.2 with units := a.2.units ++ [u] }).noteHeads d

/-- The member number of the image in a slot (R405). -/
def State.imageMember (s : State) (d k : Nat) : Nat := bits (s.mem.read (s.slotAddr d k)).data 50 49

/-- The slots of a gang in member order. -/
def State.memberOrder (s : State) (d : Nat) (l : List Nat) : List Nat :=
  [0, 1, 2, 3].filterMap fun m => l.find? fun k => decide (s.imageMember d k = m)

/-- Queue the saved members of gang `n` of tile `g`'s cluster as one resume unit, once no member of it is left on a tile (R403). -/
def gangSettle (g n level : Nat) (side : Bool) (s : State) : State :=
  let d := g / 16
  let x := s.dieAt d
  let more := (List.range 4).any fun j => decide (((s.tileAt (g / 4 * 4 + j)).task.bind (·.gang)) = some n)
  match more, mapGet [] x.gangWait n with
  | false, k :: l =>
    placeResume d side level (s.memberOrder d (k :: l)) true (s.setDieAt d { x with gangWait := mapDel x.gangWait n })
  | _, _ => s

/-- Settle the gang of a task that has left tile `g`, if it was in one. -/
def gangLeft (g : Nat) (c : Option CurTask) (side : Bool) (s : State) : State :=
  match c.bind (·.gang) with
  | some n => gangSettle g n ((c.map (·.level)).getD 0) side s
  | none => s

/-- Return a resume unit to its queue, at the place that its pre-emption gave it (R51, R52). -/
def returnResume (d : Nat) (u : QUnit) (s : State) : State :=
  match roomFor d u.side u.slots.length u.slots.length s with
  | none => overflow d u.side u.level s
  | some s =>
    let x := s.dieAt d
    (s.setDieAt d { x with units := x.units ++ [u] }).noteHeads d

/-- A tile that has popped a resume unit and waits for responses gives it back to its queue, and so do its gang's other members. -/
def State.putBack (s : State) (g : Nat) : State :=
  match (s.tileAt g).resuming with
  | none => s
  | some (_, u) =>
    let s := (List.range 16).foldl (fun s j =>
      let h := g / 16 * 16 + j
      if ((s.tileAt h).resuming.map (·.2)) = some u then s.setTileAt h { s.tileAt h with resuming := none } else s) s
    returnResume (g / 16) u s

/-! ## Pre-emption (R399 to R402) -/

/-- PREQ with a request pending (R349). -/
def preqWord (src : Nat) : BitVec 64 := BitVec.ofNat 64 (2 * src + 1)

/-- Stop an idle tile for the source of a request (R401): a scheduler request leaves it free, and a brim move stops its tiles itself. -/
def Tile.stopFor (t : Tile) (src : Nat) : Tile := if src = 2 then { t with fwStop := true } else t

/-- The request on a tile is over: firmware's keeps it stopped (R401). -/
def Tile.endRequest (t : Tile) : Tile :=
  match t.pre with
  | some p => { t with pre := none, preq := 0#64, fwStop := t.fwStop || p.fw }
  | none => t

/-- Raise a request on one tile (R399, R400): a second one takes the earlier of the two ends. -/
def raiseOne (src : Nat) (evict : Bool) (g : Nat) (s : State) : State :=
  let s := s.putBack g
  let t := s.tileAt g
  let fin := s.ftb + BitVec.ofNat 64 (bits t.pwin 19 0)
  let fw := decide (src = 2)
  match t.run with
  | .idle => s.setTileAt g (t.stopFor src)
  | .running | .stopped =>
    match t.pre with
    | some p =>
      s.setTileAt g { t with
        pre := some ⟨if fin.toNat < p.endAt.toNat then fin else p.endAt, p.evict || evict, p.fw || fw⟩,
        preq := preqWord (max src (bits t.preq 2 1)) }
    | none => s.setTileAt g { t with pre := some ⟨fin, evict, fw⟩, preq := preqWord src }
  | _ => s

/-- The tiles that a request on tile `g` reaches: its own, or all members of its gang (R399). -/
def State.gangTiles (s : State) (g : Nat) : List Nat :=
  match (s.tileAt g).task with
  | some c =>
    match c.gang with
    | some u =>
      (List.range 4).filterMap fun k =>
        let h := g / 4 * 4 + k
        match (s.tileAt h).task with
        | some e => if e.gang = some u then some h else none
        | none => none
    | none => [g]
  | none => [g]

/-- Raise a request on a tile and, for a gang member, on its gang; a reservation of the tile's cluster is dropped (R397). -/
def raiseReq (src : Nat) (evict : Bool) (g : Nat) (s : State) : State :=
  let s := (s.gangTiles g).foldl (fun s h => raiseOne src evict h s) s
  let d := s.dieAt (g / 16)
  let drop := fun (r : Option (Nat × Nat)) => if r.map (·.2) = some (g / 4 % 4) then none else r
  s.setDieAt (g / 16) { d with reserveA := drop d.reserveA, reserveL := drop d.reserveL }

/-- A free image slot of a die (R392, R400). -/
def State.freeSlot (s : State) (d : Nat) : Option Nat :=
  (List.range (bits (s.dieReg d 0x20030) 10 0)).find? fun k => !(s.dieAt d).slots.contains k

/-- The task's registers as a trap's entry left them. -/
def Tile.withTaskRegs (t : Tile) (k : TaskRegs) : Tile :=
  { t with x := k.x, preds := k.preds, win := k.win, apol := k.apol, ufv := k.ufv, kvctl := k.kvctl, bfmt := k.bfmt }

/-- The supervisor handler of a cut tile is abandoned: the task stands as at the trap's entry (R367), and what S had pushed for words it
will perform again is gone, as is an invalidation that the handler waits for. -/
def Tile.abandonHandler (t : Tile) : Tile :=
  match t.level, t.trap with
  | .supervisor, some c =>
    let x : Engine := ⟨c.tepc, c.n, c.exp⟩
    let t := { t.withTaskRegs c.kept with level := .task, trap := none, remote := [], tlbinvs := t.tlbinvs.filter (!·.sup) }
    (t.dropAbove c.n).placeAll x
  | _, _ => t

/-- Pass the words whose packets were being handed over, all of which now are. -/
def Tile.endSending (t : Tile) : Tile :=
  let u := t.sending.foldl (fun (u : Tile) x => if (u.eng x.1).pos = x.2 then u.pass x.1 else u) t
  { u with sending := [] }

/-- A `trec` that stops: the recorder is free for another word, and the rest of this one is written when it goes on (R271, R272). -/
def DCmd.unbegun (c : DCmd) : DCmd :=
  match c.kind with
  | .trec _ => { c with idx := [c.idx.getD 0 0, 0, c.idx.getD 2 0] }
  | _ => c

/-- The cut of R402 on one tile: the engines stop where they are, packets issued are handed over, work that has not passed its
trap point or is not at a stop point is abandoned, the tile cache is written back, and a slot is assigned when one is free. -/
def cutTile (g : Nat) (s : State) : State :=
  let s := handAll g (s.writeBack g fun _ _ => true)
  let t := (s.tileAt g).endSending.abandonHandler
  let d := g / 16
  let slot := s.freeSlot d
  let t := { t with
    cut := some ⟨slot⟩, ending := false, attg := none, adoptWait := none, spanWait := none,
    dcmds := (t.dcmds.filter fun c => decide (c.ref.idx < t.eD.pos)).map DCmd.unbegun,
    nest := t.nest.map fun n => { n with hold := none },
    ctxb := match slot with
      | some k => BitVec.ofNat 64 (bits (s.dieReg d 0x20028) 47 16 * 2 ^ 16 + k * 0x280000)
      | none => t.ctxb }
  let s := s.setTileAt g t
  match slot with
  | some k =>
    let x := s.dieAt d
    s.setDieAt d { x with slots := x.slots ++ [k] }
  | none => s

/-- Cut a tile under its request (R402). -/
def cutNow (g : Nat) (s : State) : State := if (s.tileAt g).pre.isSome then cutTile g s else s

/-! ## The walk for a side, without a tile's TLB -/

/-- The walk of an address through a side's root on a die, for the side's S and V class (R369, R370). -/
def State.walkSide (s : State) (d : Nat) (side : Bool) (va : BitVec 64) : Walk :=
  let root := s.root d side
  let hi := va.toNat / 2 ^ 47
  if ¬ (hi = 0 ∨ hi = 2 ^ 17 - 1) then .fault 1 []
  else if ¬ bit root 0 then .fault 1 []
  else walkFrom s (if side then 1 else 0) d side va.toNat 4 (bits root 47 12 * 4096) 0

/-- What a physical access through a side's page comes to, with what the walk logs and counts (R372, R376). -/
inductive Reach where
  | at (pa : Nat) (logs : List LogReq)
  | bad (logs : List LogReq)
  | held
  deriving DecidableEq, Repr

/-- Reach a doubleword of HBM for a side with given page rights and tables, under a class. No word traps here, so that the entry of an
uncorrectable table word has INFO2 = 0 (R414). -/
def State.reach (s : State) (d : Nat) (side : Bool) (cls : Nat) (va : BitVec 64) (r : Rights) : Reach :=
  if ¬ canonical va ∨ inAperture va then .bad []
  else
    match s.walkSide d side va with
    | .leaf e c =>
      let logs := countReq d c
      if ¬ pageAllows e side r.rd r.wr r.fx then .bad logs
      else
        let pa := physOf e va
        match targetOf pa with
        | .hbm _ _ =>
          match accessVerdict s cls d pa r with
          | .ok => .at pa logs
          | .refused => .bad logs
          | .held => .held
        | _ => .bad logs
    | .fault _ logs => .bad logs
    | .glove pa logs => .bad (logs ++ [⟨d, 0x01, 15, BitVec.ofNat 64 pa, 0#64⟩])
    | .held => .held

end Sys2Proof.Machine
end

