-- ==== Sys2Proof/Machine/Operands.lean ====
section
/-!
DEFINITION. The operand forms of S words: immediates (R116), effective addresses (R140), and the doubleword accesses they make
with their checks in the order of R132.
-/

namespace Sys2Proof.Machine

/-- SignExt of a 12-bit field to 64 bits (R116). -/
def sext12 (i : BitVec 12) : BitVec 64 := i.signExtend 64

/-- ZeroExt of a 12-bit field to 64 bits (R116). -/
def zext12 (i : BitVec 12) : BitVec 64 := i.setWidth 64

/-- A branch target: A + 4 × SignExt(OFF12) (R151). -/
def target12 (a : BitVec 64) (o : BitVec 12) : BitVec 64 := a + 4#64 * o.signExtend 64

/-- A jump target: A + 4 × SignExt(OFF18) (R153). -/
def target18 (a : BitVec 64) (o : BitVec 18) : BitVec 64 := a + 4#64 * o.signExtend 64

/-- Checks on an address before it is translated: canonical at task level, then aligned (R94, R98, R132). -/
def checkAddr (va : BitVec 64) (size : Nat) : Eff Unit := do
  let t ← getTile
  raiseIf (decide (t.level = .task) && !canonical va) cDFLT 4 va
  raiseIf (decide (va.toNat % size ≠ 0)) cALIGN 0 va

/-- The range of a place for the range checker: its doubleword where it lies in the own scratchpad (R97). -/
def placeRange (g : Nat) (p : Place) : List (Nat × Nat) :=
  match p with
  | .spad k off => if k = g then [(off / 8 * 8, 8)] else []
  | _ => []

/-- The smallest interval that holds the given ones (R97). -/
def spanOf : List (Nat × Nat) → List (Nat × Nat)
  | [] => []
  | r :: t =>
    match spanOf t with
    | [] => [r]
    | q :: _ => [(min r.1 q.1, max (r.1 + r.2) (q.1 + q.2) - min r.1 q.1)]

/-- An S word at a place of the own scratchpad waits under the range checker (R97). -/
def waitRange (ps : List Place) (wr : Bool) (rd : Bool) : Eff Unit := do
  let t ← getTile
  let g ← curTile
  let rs := spanOf (ps.flatMap (placeRange g))
  rangeCheck t.eS.pos (if rd then rs else []) (if wr then rs else [])

/-- Load the doubleword of a place for S, whose accesses have been ordered; none while a remote request is under way. -/
def loadWord (p : Place) (va : BitVec 64) : Eff (Option GWord) := do
  match p with
  | .remote w off => remoteOp .S va w (off / 8 * 8) .load false
  | p => return some (← loadPlace p)

/-- Load the doubleword of a place for S as an access of its own. -/
def loadAt (p : Place) (va : BitVec 64) : Eff (Option GWord) := do
  orderSO [va]
  loadWord p va

/-- The remote part of a store of S: true where it is done, or where the place is not remote. -/
def storeSent (p : Place) (w : GWord) (va : BitVec 64) : Eff Bool := do
  match p with
  | .remote k off => do return (← remoteOp .S va k (off / 8 * 8) (.store w) false).isSome
  | _ => pure true

/-- The part of a store of S that its own die performs. -/
def storeHere (p : Place) (w : GWord) : Eff Unit := do
  match p with
  | .remote _ _ => pure ()
  | p => storePlace p w

/-- The doubleword address that holds a byte address. -/
def dwordOf (va : BitVec 64) : BitVec 64 := va &&& ~~~7#64

/-- The effective address of the SI forms (R140): xA is checked. -/
def effAddr (a : BitVec 6) (i : BitVec 12) : Eff (BitVec 64) := do return (← readX a) + sext12 i

/-- The field of a doubleword at a byte address, `size` bytes long (R141). -/
def itemOf (d : BitVec 64) (va : BitVec 64) (size : Nat) : Nat :=
  bits d (8 * (va.toNat % 8) + 8 * size - 1) (8 * (va.toNat % 8))

end Sys2Proof.Machine
end

