-- ==== Sys2Proof/Machine/Num.lean ====
section
/-!
DEFINITION. The element formats (R70, R71, R73, R76, R81), exact values (R11), rounding and saturation (R77 to R79), the
conversions of R80, and exact sums and products.
-/

namespace Sys2Proof.Machine

/-- The element formats of R81. -/
inductive Fmt where
  | fp32 | bf16 | int32 | int64 | int8 | e4m3 | e5m2 | e2m1 | e3m5 | delta | raw
  deriving DecidableEq, Repr

/-- The format of a code; none for the reserved codes 0xA to 0xE (R81). -/
def fmtOfCode : Nat → Option Fmt
  | 0 => some .fp32
  | 1 => some .bf16
  | 2 => some .int32
  | 3 => some .int64
  | 4 => some .int8
  | 5 => some .e4m3
  | 6 => some .e5m2
  | 7 => some .e2m1
  | 8 => some .e3m5
  | 9 => some .delta
  | 15 => some .raw
  | _ => none

/-- Element width in bits; raw and delta words are 64 (R70, R73, R76). -/
def Fmt.width : Fmt → Nat
  | .fp32 => 32
  | .bf16 => 16
  | .int32 => 32
  | .int64 => 64
  | .int8 => 8
  | .e4m3 => 8
  | .e5m2 => 8
  | .e2m1 => 4
  | .e3m5 => 8
  | .delta => 64
  | .raw => 64

/-- An integer format. -/
def Fmt.isInt : Fmt → Bool
  | .int32 => true
  | .int64 => true
  | .int8 => true
  | _ => false

/-- Mantissa width and bias of a floating format (R70, R73); 0 and 0 for the others. -/
def Fmt.mant : Fmt → Nat × Nat
  | .fp32 => (23, 127)
  | .bf16 => (7, 127)
  | .e5m2 => (2, 15)
  | .e4m3 => (3, 7)
  | .e2m1 => (1, 1)
  | .e3m5 => (5, 3)
  | _ => (0, 0)

/-- Significand and exponent of the largest finite magnitude (R70). -/
def Fmt.maxFinite : Fmt → Nat × Int
  | .fp32 => (2 ^ 24 - 1, 104)
  | .bf16 => (2 ^ 8 - 1, 120)
  | .e5m2 => (7, 13)
  | .e4m3 => (14, 5)
  | .e2m1 => (3, 1)
  | .e3m5 => (63, -1)
  | _ => (0, 0)

/-- An exact value (R11): NaN, an infinity, or ± m × 2^e, where m = 0 is a signed zero. -/
inductive FVal where
  | nan
  | inf (neg : Bool)
  | fin (neg : Bool) (m : Nat) (e : Int)
  deriving DecidableEq, Repr

/-- The exact value of an integer. -/
def FVal.ofInt (i : Int) : FVal := .fin (decide (i < 0)) i.natAbs 0

/-- Two's-complement reading of the low `w` bits. -/
def signedOf (w : Nat) (n : Nat) : Int :=
  let u := n % 2 ^ w
  if u < 2 ^ (w - 1) then (u : Int) else (u : Int) - 2 ^ w

/-- The low `w` bits of an integer. -/
def lowBits (w : Nat) (i : Int) : Nat := (i % (2 ^ w : Int)).toNat

/-- The exact value of a finite floating code of a format with a sign bit. -/
def finiteOf (f : Fmt) (n : Nat) : FVal :=
  let (mb, bias) := f.mant
  let w := f.width
  let neg := decide (n / 2 ^ (w - 1) % 2 = 1)
  let ex := n / 2 ^ mb % 2 ^ (w - 1 - mb)
  let fr := n % 2 ^ mb
  if ex = 0 then .fin neg fr (1 - (bias : Int) - mb) else .fin neg (2 ^ mb + fr) ((ex : Int) - bias - mb)

/-- The value an element's bits hold (R70, R71, R73, R76). -/
def elemValue (f : Fmt) (n : Nat) : FVal :=
  match f with
  | .fp32 =>
    if n / 2 ^ 23 % 256 = 255 then (if n % 2 ^ 23 = 0 then .inf (decide (n / 2 ^ 31 % 2 = 1)) else .nan)
    else finiteOf .fp32 n
  | .bf16 =>
    if n / 2 ^ 7 % 256 = 255 then (if n % 2 ^ 7 = 0 then .inf (decide (n / 2 ^ 15 % 2 = 1)) else .nan)
    else finiteOf .bf16 n
  | .e5m2 =>
    if n / 4 % 32 = 31 then (if n % 4 = 0 then .inf (decide (n / 128 % 2 = 1)) else .nan) else finiteOf .e5m2 n
  | .e4m3 => if n % 128 = 127 then .nan else finiteOf .e4m3 n
  | .e2m1 => finiteOf .e2m1 n
  | .e3m5 =>
    let ex := n / 32 % 8
    let fr := n % 32
    if ex = 0 then .fin false fr (-7) else .fin false (32 + fr) ((ex : Int) - 8)
  | .int8 => FVal.ofInt (signedOf 8 n)
  | .int32 => FVal.ofInt (signedOf 32 n)
  | .int64 => FVal.ofInt (signedOf 64 n)
  | .delta => FVal.ofInt (n : Int)
  | .raw => FVal.ofInt (n : Int)

/-- Rounding modes by code: 0 RNE, 1 RTZ, 2 RDN, 3 RUP, 4 RS (R77). -/
inductive Rm where
  | rne | rtz | rdn | rup | rs
  deriving DecidableEq, Repr

/-- The mode of a code; none for the reserved codes 5 to 7 (R77). -/
def rmOfCode : Nat → Option Rm
  | 0 => some .rne
  | 1 => some .rtz
  | 2 => some .rdn
  | 3 => some .rup
  | 4 => some .rs
  | _ => none

/-- The magnitude `m × 2^e` in units of `2^q`, rounded to an integer (R77, R78): `draw` is the element's word under RS. -/
def roundUnits (mode : Rm) (draw : Nat) (neg : Bool) (m : Nat) (e q : Int) : Nat :=
  if q ≤ e then m * 2 ^ (e - q).toNat
  else
    let s := (q - e).toNat
    let a := m / 2 ^ s
    let r := m % 2 ^ s
    if r = 0 then a
    else
      match mode with
      | .rne => if 2 * r > 2 ^ s ∨ (2 * r = 2 ^ s ∧ a % 2 = 1) then a + 1 else a
      | .rtz => a
      | .rdn => if neg then a + 1 else a
      | .rup => if neg then a else a + 1
      | .rs => if draw < r * 2 ^ 32 / 2 ^ s then a + 1 else a

/-- The quantum exponent of a nonzero magnitude in a floating format: its mantissa width below the leading bit, and not
below the subnormal quantum (R70, R77). -/
def quantum (f : Fmt) (m : Nat) (e : Int) : Int :=
  let (mb, bias) := f.mant
  max (e + (Nat.log2 m : Int) - mb) (1 - (bias : Int) - mb)

/-- The sign bit of a format in place. -/
def signBit (f : Fmt) (neg : Bool) : Nat := if neg then 2 ^ (f.width - 1) else 0

/-- The code of ± k × 2^q, k at most 2^(mantissa + 1), within the finite range. -/
def packFinite (f : Fmt) (neg : Bool) (k : Nat) (q : Int) : Nat :=
  let (mb, bias) := f.mant
  let (k, q) := if k = 2 ^ (mb + 1) then (2 ^ mb, q + 1) else (k, q)
  if k < 2 ^ mb then signBit f neg + k else signBit f neg + (q + mb + bias).toNat * 2 ^ mb + (k - 2 ^ mb)

/-- The canonical NaN (R71); E2M1 has none and takes +0 (R80). -/
def canonNan : Fmt → Nat
  | .fp32 => 0x7FC00000
  | .bf16 => 0x7FC0
  | .e5m2 => 0x7E
  | .e4m3 => 0x7F
  | _ => 0

/-- The infinity of a sign; E4M3 has none and takes NaN, E2M1 its largest finite (R71, R79, R80). -/
def infCode (f : Fmt) (neg : Bool) : Nat :=
  match f with
  | .fp32 => signBit .fp32 neg + 0x7F800000
  | .bf16 => signBit .bf16 neg + 0x7F80
  | .e5m2 => signBit .e5m2 neg + 0x7C
  | .e4m3 => 0x7F
  | .e2m1 => signBit .e2m1 neg + 7
  | _ => 0

/-- The largest finite magnitude with a sign. -/
def maxCode (f : Fmt) (neg : Bool) : Nat := packFinite f neg f.maxFinite.1 f.maxFinite.2

/-- The result of a finite overflow under a saturation code (R79): 0 OVF, 1 SAT, 2 SATZ; E2M1 always saturates (R80). -/
def overflowCode (f : Fmt) (mode : Rm) (sat : Nat) (neg : Bool) : Nat :=
  if f = .e2m1 ∨ sat ≠ 0 then maxCode f neg
  else
    match mode with
    | .rne => infCode f neg
    | .rs => infCode f neg
    | .rtz => maxCode f neg
    | .rdn => if neg then infCode f neg else maxCode f neg
    | .rup => if neg then maxCode f neg else infCode f neg

/-- An exact value into a floating format (R77 to R79). -/
def toFloat (f : Fmt) (mode : Rm) (sat draw : Nat) : FVal → Nat
  | .nan => if sat = 2 ∨ f = .e2m1 then 0 else canonNan f
  | .inf neg => if sat = 0 then infCode f neg else maxCode f neg
  | .fin neg m e =>
    if m = 0 then signBit f neg
    else
      let q := quantum f m e
      let k := roundUnits mode draw neg m e q
      if q > f.maxFinite.2 ∨ (q = f.maxFinite.2 ∧ k > f.maxFinite.1) then overflowCode f mode sat neg
      else packFinite f neg k q

/-- Clamp to the signed range of `w` bits. -/
def clampInt (w : Nat) (i : Int) : Int :=
  if i < -(2 ^ (w - 1) : Int) then -(2 ^ (w - 1) : Int)
  else if i > (2 ^ (w - 1) : Int) - 1 then (2 ^ (w - 1) : Int) - 1 else i

/-- An exact value rounded to an integer and clamped to `w` bits: NaN gives 0, an infinity the range end (R80). -/
def toInt (w : Nat) (mode : Rm) (draw : Nat) : FVal → Nat
  | .nan => 0
  | .inf neg => lowBits w (if neg then -(2 ^ (w - 1) : Int) else (2 ^ (w - 1) : Int) - 1)
  | .fin neg m e =>
    let k : Int := roundUnits mode draw neg m e 0
    lowBits w (clampInt w (if neg then -k else k))

/-- Whether a floating format holds every value of a source format, so that a conversion is exact (R80, first row). -/
def Fmt.holds (dst src : Fmt) : Bool :=
  match dst, src with
  | .fp32, .bf16 => true
  | .fp32, .e4m3 => true
  | .fp32, .e5m2 => true
  | .bf16, .e4m3 => true
  | .bf16, .e5m2 => true
  | _, .e2m1 => true
  | _, _ => false

/-- Convert an element between two formats (R80). Where the destination holds every source value no saturation code applies. Integer to narrower integer keeps the low bits under OVF and clamps
otherwise; an equal pair or one that R80 does not convert moves the bits. -/
def convertElem (src dst : Fmt) (mode : Rm) (sat draw n : Nat) : Nat :=
  if src = dst then n
  else
    match src.isInt, dst.isInt with
    | true, true =>
      let i := signedOf src.width n
      lowBits dst.width (if dst.width < src.width ∧ sat ≠ 0 then clampInt dst.width i else i)
    | _, true => toInt dst.width mode draw (elemValue src n)
    | _, false =>
      if dst.holds src then toFloat dst .rne 0 0 (elemValue src n) else toFloat dst mode sat draw (elemValue src n)

/-- Whether a converting unit accepts a pair of distinct formats: codes 0 to 7 (R80). -/
def pairAllowed (src dst : Fmt) : Bool :=
  decide (src ≠ .e3m5 ∧ src ≠ .delta ∧ src ≠ .raw ∧ dst ≠ .e3m5 ∧ dst ≠ .delta ∧ dst ≠ .raw)

/-- The sign of an exact value. -/
def FVal.sign : FVal → Bool
  | .nan => false
  | .inf n => n
  | .fin n _ _ => n

/-- Sign inverted (R177); NaN stays NaN. -/
def FVal.negate : FVal → FVal
  | .nan => .nan
  | .inf n => .inf (!n)
  | .fin n m e => .fin (!n) m e

/-- Sign cleared (R177). -/
def FVal.abs : FVal → FVal
  | .nan => .nan
  | .inf _ => .inf false
  | .fin _ m e => .fin false m e

/-- The exact product (R11): ∞ × 0 is NaN; a zero product is −0 when exactly one factor is negative. -/
def FVal.mul : FVal → FVal → FVal
  | .nan, _ => .nan
  | _, .nan => .nan
  | .inf a, .inf b => .inf (xor a b)
  | .inf a, .fin b m _ => if m = 0 then .nan else .inf (xor a b)
  | .fin a m _, .inf b => if m = 0 then .nan else .inf (xor a b)
  | .fin a m e, .fin b k d => .fin (xor a b) (m * k) (e + d)

/-- The finite part of a sum in units of `2^e0`. -/
def sumUnits (e0 : Int) : List FVal → Int
  | [] => 0
  | .fin n m e :: t => (if n then -(m * 2 ^ (e - e0).toNat : Int) else (m * 2 ^ (e - e0).toNat : Int)) + sumUnits e0 t
  | _ :: t => sumUnits e0 t

/-- The least exponent of the finite terms, from a start. -/
def minExp (d : Int) : List FVal → Int
  | [] => d
  | .fin _ _ e :: t => minExp (min d e) t
  | _ :: t => minExp d t

/-- The exact sum (R11, R85): NaN when a term is NaN or infinities of both signs meet; a zero sum is −0 only when every
term is −0. -/
def exactSum (l : List FVal) : FVal :=
  if l.any (fun v => decide (v = .nan)) then .nan
  else
    let p := l.any (fun v => decide (v = .inf false))
    let n := l.any (fun v => decide (v = .inf true))
    if p && n then .nan
    else if p then .inf false
    else if n then .inf true
    else
      let e0 := minExp 0 l
      let i := sumUnits e0 l
      if i = 0 then .fin (l.all FVal.sign && !l.isEmpty) 0 0 else .fin (decide (i < 0)) i.natAbs e0

/-- Numeric comparison of finite and infinite values, −0 = +0: less, for values that are not NaN (R183). -/
def FVal.lt : FVal → FVal → Bool
  | .nan, _ => false
  | _, .nan => false
  | .inf a, .inf b => a && !b
  | .inf a, .fin _ _ _ => a
  | .fin _ _ _, .inf b => !b
  | a, b =>
    let e0 := minExp 0 [a, b]
    decide (sumUnits e0 [a] < sumUnits e0 [b])

/-- Numeric equality, −0 = +0, false with a NaN (R183). -/
def FVal.eqv : FVal → FVal → Bool
  | .nan, _ => false
  | _, .nan => false
  | a, b => !a.lt b && !b.lt a

/-- FP32 or BF16 round to nearest even with the format's own overflow (R10, R175). -/
def roundNearest (f : Fmt) (v : FVal) : Nat := toFloat f .rne 0 0 v

/-- The larger of two values, −0 below +0, NaN when either is NaN (R176). -/
def FVal.maxv (a b : FVal) : FVal :=
  if a = .nan ∨ b = .nan then .nan
  else if a.lt b then b
  else if b.lt a then a
  else if a.sign then b else a

/-- The smaller of two values, −0 below +0, NaN when either is NaN (R176). -/
def FVal.minv (a b : FVal) : FVal :=
  if a = .nan ∨ b = .nan then .nan
  else if a.lt b then a
  else if b.lt a then b
  else if a.sign then a else b

/-- Rounding to an integral value of the element's own format (R179): zeros, infinities and integral values unchanged,
a zero result keeps the sign, a NaN becomes canonical. -/
def roundIntegral (f : Fmt) (mode : Rm) (v : FVal) : Nat :=
  match v with
  | .nan => canonNan f
  | .inf n => infCode f n
  | .fin n m e => toFloat f .rne 0 0 (.fin n (roundUnits mode 0 n m e 0) 0)

/-- The value is finite, infinite or a zero of the given sign for ranking (R193): NaN below every number. -/
def rankAbove (a b : FVal) : Bool :=
  match a, b with
  | .nan, _ => false
  | _, .nan => true
  | a, b => b.lt a

end Sys2Proof.Machine
end

