-- ==== Sys2Proof/Machine/NumFun.lean ====
section
/-!
DEFINITION. The correctly rounded FP32 functions (R88, R178): each is computed to many more bits than FP32 holds, as an
integer with a sticky bit, and rounded once.
-/

namespace Sys2Proof.Machine

/-- Integer square root, one result bit each step, from bit `k − 1` down. -/
def isqrtBits (n : Nat) : Nat → Nat → Nat
  | 0, r => r
  | k + 1, r => if (r + 2 ^ k) * (r + 2 ^ k) ≤ n then isqrtBits n k (r + 2 ^ k) else isqrtBits n k r

/-- Floor of the square root. -/
def isqrt (n : Nat) : Nat := isqrtBits n (Nat.log2 n / 2 + 1) 0

/-- `1 / a` (R178). -/
def rcp32 : FVal → Nat
  | .nan => canonNan .fp32
  | .inf n => signBit .fp32 n
  | .fin n m e =>
    if m = 0 then infCode .fp32 n
    else
      let k := Nat.log2 m + 64
      let q := 2 ^ k / m
      let st := if 2 ^ k % m = 0 then 0 else 1
      roundNearest .fp32 (.fin n (2 * q + st) (-(k : Int) - e - 1))

/-- `√a` (R178). -/
def sqrt32 : FVal → Nat
  | .nan => canonNan .fp32
  | .inf n => if n then canonNan .fp32 else infCode .fp32 false
  | .fin n m e =>
    if m = 0 then signBit .fp32 n
    else if n then canonNan .fp32
    else
      let (m, e) := if e % 2 = 0 then (m, e) else (2 * m, e - 1)
      let r := isqrt (m * 2 ^ 128)
      let st := if r * r = m * 2 ^ 128 then 0 else 1
      roundNearest .fp32 (.fin false (2 * r + st) (e / 2 - 65))

/-- `1 / √a` (R178). -/
def rsqrt32 : FVal → Nat
  | .nan => canonNan .fp32
  | .inf n => if n then canonNan .fp32 else signBit .fp32 false
  | .fin n m e =>
    if m = 0 then infCode .fp32 n
    else if n then canonNan .fp32
    else
      let (m, e) := if e % 2 = 0 then (m, e) else (2 * m, e - 1)
      let r := isqrt (2 ^ 192 / m)
      let st := if r * r * m = 2 ^ 192 then 0 else 1
      roundNearest .fp32 (.fin false (2 * r + st) (-(e / 2) - 97))

/-- ⌊2^256 × ln 2⌋. -/
def ln2Fixed : Nat := 0xB17217F7D1CF79ABC9E3B39803F2F6AF40F343267298B62D8A0D175B8BAAFA2B

/-- Sum of the exponential series: the terms `t^i / i!` in units of 2^-256, from the `i`-th on. -/
def expTerms (t : Nat) : Nat → Nat → Nat → Nat
  | 0, _, _ => 0
  | fuel + 1, i, term => term + expTerms t fuel (i + 1) (term * t / 2 ^ 256 / (i + 1))

/-- ⌊2^256 × 2^f⌋ up to the last few bits, for a fraction `f` in units of 2^-256. -/
def exp2Fixed (f : Nat) : Nat := expTerms (f * ln2Fixed / 2 ^ 256) 64 0 (2 ^ 256)

/-- `2^a` (R178). Beyond ±2^20 the result has overflowed or underflowed whatever the fraction. -/
def exp232 : FVal → Nat
  | .nan => canonNan .fp32
  | .inf n => if n then signBit .fp32 false else infCode .fp32 false
  | .fin n m e =>
    if m = 0 then roundNearest .fp32 (.fin false 1 0)
    else if e + (Nat.log2 m : Int) ≥ 20 then (if n then signBit .fp32 false else infCode .fp32 false)
    else
      -- the exponent in units of 2^-256, rounded down; FP32 fractions reach 2^-149 only
      let v : Int := (m * 2 ^ (e + 256).toNat : Nat)
      let v := if n then -v else v
      let i := v / (2 ^ 256 : Int)
      let f := (v % (2 ^ 256 : Int)).toNat
      if f = 0 then roundNearest .fp32 (.fin false 1 i)
      else roundNearest .fp32 (.fin false (2 * exp2Fixed f + 1) (i - 257))

/-- Binary digits of the logarithm of `y` in units of 2^-320, 1 ≤ y < 2: square and compare with 2. -/
def log2Digits : Nat → Nat → Nat → Nat
  | 0, _, acc => acc
  | k + 1, y, acc =>
    let z := y * y / 2 ^ 320
    if z ≥ 2 ^ 321 then log2Digits k (z / 2) (2 * acc + 1) else log2Digits k z (2 * acc)

/-- `log₂ a` (R178). -/
def log232 : FVal → Nat
  | .nan => canonNan .fp32
  | .inf n => if n then canonNan .fp32 else infCode .fp32 false
  | .fin n m e =>
    if m = 0 then infCode .fp32 true
    else if n then canonNan .fp32
    else
      let l := Nat.log2 m
      let ex := e + (l : Int)
      if m = 2 ^ l then roundNearest .fp32 (FVal.ofInt ex)
      else
        let d := log2Digits 128 (m * 2 ^ 320 / 2 ^ l) 0
        let v : Int := ex * (2 ^ 128 : Int) + d
        if v ≥ 0 then roundNearest .fp32 (.fin false (2 * v.toNat + 1) (-129))
        else roundNearest .fp32 (.fin true (2 * (-v - 1).toNat + 1) (-129))

end Sys2Proof.Machine
end

