-- ==== Sys2Proof/Machine/Philox.lean ====
section
/-!
DEFINITION. The Philox-4×32-10 generator (R78, R194), with the multipliers and key steps its authors published (log 9).
-/

namespace Sys2Proof.Machine

/-- A block: four 32-bit words. -/
structure PhiloxBlock where
  w0 : Nat
  w1 : Nat
  w2 : Nat
  w3 : Nat
  deriving DecidableEq, Repr

/-- One round under the key words of that round. -/
def philoxRound (k0 k1 : Nat) (c : PhiloxBlock) : PhiloxBlock :=
  let p0 := 0xD2511F53 * c.w0
  let p1 := 0xCD9E8D57 * c.w2
  ⟨Nat.xor (Nat.xor (p1 / 2 ^ 32) c.w1) k0, p1 % 2 ^ 32, Nat.xor (Nat.xor (p0 / 2 ^ 32) c.w3) k1, p0 % 2 ^ 32⟩

/-- Rounds under keys that step by the Weyl constants. -/
def philoxRounds : Nat → Nat → Nat → PhiloxBlock → PhiloxBlock
  | 0, _, _, c => c
  | r + 1, k0, k1, c =>
    philoxRounds r ((k0 + 0x9E3779B9) % 2 ^ 32) ((k1 + 0xBB67AE85) % 2 ^ 32) (philoxRound k0 k1 c)

/-- Ten rounds of a counter under a 64-bit key (R78): key words are its low and high halves. -/
def philox (key : BitVec 64) (c0 c1 c2 c3 : Nat) : PhiloxBlock :=
  philoxRounds 10 (key.toNat % 2 ^ 32) (key.toNat / 2 ^ 32) ⟨c0 % 2 ^ 32, c1 % 2 ^ 32, c2 % 2 ^ 32, c3 % 2 ^ 32⟩

/-- Output word `i` of a block, in order (R78). -/
def PhiloxBlock.word (b : PhiloxBlock) (i : Nat) : Nat :=
  match i % 4 with
  | 0 => b.w0
  | 1 => b.w1
  | 2 => b.w2
  | _ => b.w3

/-- The draw of element `e` of an instruction whose first reserved block is `n` on engine number `eng` (1 V, 2 M, 3 D),
keyed by the task's work identifier (R78). -/
def rsDraw (wid : BitVec 64) (n : BitVec 64) (eng e : Nat) : Nat :=
  let b := (n.toNat + e / 4) % 2 ^ 64
  (philox wid (b % 2 ^ 32) (b / 2 ^ 32) eng 0).word e

/-- Draw(key, c0, c1, c2, c3): output word 0 (R194). -/
def draw (key : BitVec 64) (c0 c1 c2 c3 : Nat) : Nat := (philox key c0 c1 c2 c3).w0

end Sys2Proof.Machine
end

