-- ==== Sys2Proof/Machine/VecArith.lean ====
section
/-!
DEFINITION. Element-wise words of V (R170 to R186): arithmetic, the unary group, bitwise and shift forms, conversion, compares,
selection and masks.
-/

namespace Sys2Proof.Machine

/-! ## Lanes and elements (R170 to R173) -/

/-- The format of a type code T3 (R170). -/
def typeOf (t : BitVec 3) : Fmt := (fmtOfCode t.toNat).getD .fp32

/-- Element `j` of a word of elements `w` bits wide (R76, R170). -/
def elemOf (w : Nat) (d : BitVec 64) (j : Nat) : Nat := d.toNat / 2 ^ (w * j) % 2 ^ w

/-- The elements of a word, from `j` on, packed by a function of their place (R76). -/
def packElems (w : Nat) (f : Nat → Nat) : Nat → Nat
  | 0 => 0
  | n + 1 => packElems w f n + f n % 2 ^ w * 2 ^ (w * n)

/-- A word of elements `w` bits wide given by their places. -/
def wordOf (w : Nat) (f : Nat → Nat) : BitVec 64 := BitVec.ofNat 64 (packElems w f (64 / w))

/-- The active lanes of a mask, in ascending order (R171). -/
def lanesOf (m : BitVec 128) : List Nat := (List.range 128).filter fun i => m.getLsbD i

/-- The word of a lane as a computing word consumes it (R173, R174). -/
def readLane (r i : Nat) : Eff (BitVec 64) := do
  let t ← getTile
  check (t.getV r i) (regCode 1 (r * 128 + i))

/-- A lane of two registers: each source word of the instruction is checked once (R173; log 15). -/
def readLane2 (a b i : Nat) : Eff (BitVec 64 × BitVec 64) := do
  let x ← readLane a i
  let y ← (if b = a then pure x else readLane b i : Eff (BitVec 64))
  pure (x, y)

/-- A lane of two source registers and of the destination, checked in the order vA, vB, vD: R174 orders the lanes of an uncorrectable word,
and not the sources of one lane (DESIGN CHOICE, log 34). -/
def readLane3 (a b d i : Nat) : Eff (BitVec 64 × BitVec 64 × BitVec 64) := do
  let (x, y) ← readLane2 a b i
  let z ← (if d = a then pure x else if d = b then pure y else readLane d i : Eff (BitVec 64))
  pure (x, y, z)

/-- The words of several lanes as a computing word consumes them, in ascending lane order (R173, R174). -/
def readLanes (r : Nat) : List Nat → Eff (SMap (BitVec 64))
  | [] => pure []
  | i :: t => do
    let x ← readLane r i
    let rest ← readLanes r t
    pure ((i, x) :: rest)

/-- Words of several registers in the order in which an instruction consumes them, each checked once: a key is 128 × register + lane,
and `seen` holds the words checked already (R174). -/
def readKeys : List Nat → SMap (BitVec 64) → Eff (SMap (BitVec 64))
  | [], seen => pure seen
  | k :: t, seen => do
    if seen.any fun p => decide (p.1 = k) then readKeys t seen
    else do
      let x ← readLane (k / 128) (k % 128)
      readKeys t (seen ++ [(k, x)])

/-- The lanes of register `r` among words read by key. -/
def keyLanes (r : Nat) (ws : SMap (BitVec 64)) : SMap (BitVec 64) :=
  (ws.filter fun p => decide (p.1 / 128 = r)).map fun p => (p.1 % 128, p.2)

/-- Write a lane, gloved. -/
def writeLane (r i : Nat) (d : BitVec 64) : Eff Unit := modTile (·.setV r i (gloved d))

/-- Do something for each lane of a list, in order. -/
def eachLane (l : List Nat) (f : Nat → Eff Unit) : Eff Unit :=
  match l with
  | [] => pure ()
  | i :: t => do
    f i
    eachLane t f

/-- Write several lanes of a register, in order. -/
def putLanes (r : Nat) : List (Nat × GWord) → Eff Unit
  | [] => pure ()
  | (i, w) :: t => do
    modTile (·.setV r i w)
    putLanes r t

/-- A word with two vector sources: each active lane of VD is a function of the lanes of VA and VB (R176, R180). -/
def vec2 (w : Nat) (f : Nat → Nat → Nat) (g : BitVec 4) (d a b : BitVec 5) (m : BitVec 3) (s : State) :
    Host.Outcome State Fault Refusal :=
  runE .V g (do
    let k ← readMask m.toNat
    eachLane (lanesOf k) fun i => do
      let (x, y) ← readLane2 a.toNat b.toNat i
      writeLane d.toNat i (wordOf w fun j => f (elemOf w x j) (elemOf w y j))) s

/-- A word that also reads VD (R176). -/
def vec3 (w : Nat) (f : Nat → Nat → Nat → Nat) (g : BitVec 4) (d a b : BitVec 5) (m : BitVec 3) (s : State) :
    Host.Outcome State Fault Refusal :=
  runE .V g (do
    let k ← readMask m.toNat
    eachLane (lanesOf k) fun i => do
      let (x, y, z) ← readLane3 a.toNat b.toNat d.toNat i
      writeLane d.toNat i (wordOf w fun j => f (elemOf w x j) (elemOf w y j) (elemOf w z j))) s

/-- A word with one vector source (R177). -/
def vec1 (w : Nat) (f : Nat → Nat) (g : BitVec 4) (d a : BitVec 5) (m : BitVec 3) (s : State) :
    Host.Outcome State Fault Refusal :=
  runE .V g (do
    let k ← readMask m.toNat
    eachLane (lanesOf k) fun i => do
      let x ← readLane a.toNat i
      writeLane d.toNat i (wordOf w fun j => f (elemOf w x j))) s

/-! ## Element operations (R175 to R180) -/

/-- a + b (R176). -/
def addElem (f : Fmt) (x y : Nat) : Nat :=
  if f.isInt then x + y else roundNearest f (exactSum [elemValue f x, elemValue f y])

/-- a − b (R176). -/
def subElem (f : Fmt) (x y : Nat) : Nat :=
  if f.isInt then x + 2 ^ f.width - y else roundNearest f (exactSum [elemValue f x, (elemValue f y).negate])

/-- a × b (R176). -/
def mulElem (f : Fmt) (x y : Nat) : Nat :=
  if f.isInt then x * y else roundNearest f ((elemValue f x).mul (elemValue f y))

/-- a × b + d, one rounding (R176). -/
def fmaElem (f : Fmt) (x y z : Nat) : Nat :=
  roundNearest f (exactSum [(elemValue f x).mul (elemValue f y), elemValue f z])

/-- d − a × b, one rounding (R176). -/
def fmsElem (f : Fmt) (x y z : Nat) : Nat :=
  roundNearest f (exactSum [elemValue f z, ((elemValue f x).mul (elemValue f y)).negate])

/-- The larger element (R176). -/
def maxElem (f : Fmt) (x y : Nat) : Nat :=
  if f.isInt then (if signedOf f.width x < signedOf f.width y then y else x)
  else roundNearest f ((elemValue f x).maxv (elemValue f y))

/-- The smaller element (R176). -/
def minElem (f : Fmt) (x y : Nat) : Nat :=
  if f.isInt then (if signedOf f.width y < signedOf f.width x then y else x)
  else roundNearest f ((elemValue f x).minv (elemValue f y))

/-- The magnitude (R177). -/
def absElem (f : Fmt) (x : Nat) : Nat :=
  if f.isInt then (if signedOf f.width x < 0 then 2 ^ f.width - x else x) else roundNearest f (elemValue f x).abs

/-- The negative (R177). -/
def negElem (f : Fmt) (x : Nat) : Nat :=
  if f.isInt then 2 ^ f.width - x else roundNearest f (elemValue f x).negate

/-- a << s (R180). -/
def sllElem (w x y : Nat) : Nat := x * 2 ^ (y % w)

/-- a >> s with zero fill (R180). -/
def srlElem (w x y : Nat) : Nat := x / 2 ^ (y % w)

/-- a >> s with sign fill (R180). -/
def sraElem (w x y : Nat) : Nat := lowBits w (signedOf w x / 2 ^ (y % w))

/-- a + b clamped to the signed range (R180). -/
def addsatElem (w x y : Nat) : Nat := lowBits w (clampInt w (signedOf w x + signedOf w y))

/-- `vadd` (R176). -/
def execVadd (g : BitVec 4) (d a b : BitVec 5) (m t : BitVec 3) (s : State) :
    Host.Outcome State Fault Refusal :=
  vec2 (typeOf t).width (addElem (typeOf t)) g d a b m s

/-- `vsub` (R176). -/
def execVsub (g : BitVec 4) (d a b : BitVec 5) (m t : BitVec 3) (s : State) :
    Host.Outcome State Fault Refusal :=
  vec2 (typeOf t).width (subElem (typeOf t)) g d a b m s

/-- `vmul` (R176). -/
def execVmul (g : BitVec 4) (d a b : BitVec 5) (m t : BitVec 3) (s : State) :
    Host.Outcome State Fault Refusal :=
  vec2 (typeOf t).width (mulElem (typeOf t)) g d a b m s

/-- `vfma` (R176): VD is the addend. -/
def execVfma (g : BitVec 4) (d a b : BitVec 5) (m t : BitVec 3) (s : State) :
    Host.Outcome State Fault Refusal :=
  vec3 (typeOf t).width (fmaElem (typeOf t)) g d a b m s

/-- `vfms` (R176): VD is the addend. -/
def execVfms (g : BitVec 4) (d a b : BitVec 5) (m t : BitVec 3) (s : State) :
    Host.Outcome State Fault Refusal :=
  vec3 (typeOf t).width (fmsElem (typeOf t)) g d a b m s

/-- `vmax` (R176). -/
def execVmax (g : BitVec 4) (d a b : BitVec 5) (m t : BitVec 3) (s : State) :
    Host.Outcome State Fault Refusal :=
  vec2 (typeOf t).width (maxElem (typeOf t)) g d a b m s

/-- `vmin` (R176). -/
def execVmin (g : BitVec 4) (d a b : BitVec 5) (m t : BitVec 3) (s : State) :
    Host.Outcome State Fault Refusal :=
  vec2 (typeOf t).width (minElem (typeOf t)) g d a b m s

/-- `vabs` (R177). -/
def execVabs (g : BitVec 4) (d a : BitVec 5) (m t : BitVec 3) (s : State) :
    Host.Outcome State Fault Refusal :=
  vec1 (typeOf t).width (absElem (typeOf t)) g d a m s

/-- `vneg` (R177). -/
def execVneg (g : BitVec 4) (d a : BitVec 5) (m t : BitVec 3) (s : State) :
    Host.Outcome State Fault Refusal :=
  vec1 (typeOf t).width (negElem (typeOf t)) g d a m s

/-- `vrcp` (R177, R178). -/
def execVrcp (g : BitVec 4) (d a : BitVec 5) (m _t : BitVec 3) (s : State) :
    Host.Outcome State Fault Refusal :=
  vec1 32 (fun x => rcp32 (elemValue .fp32 x)) g d a m s

/-- `vrsqrt` (R177, R178). -/
def execVrsqrt (g : BitVec 4) (d a : BitVec 5) (m _t : BitVec 3) (s : State) :
    Host.Outcome State Fault Refusal :=
  vec1 32 (fun x => rsqrt32 (elemValue .fp32 x)) g d a m s

/-- `vsqrt` (R177, R178). -/
def execVsqrt (g : BitVec 4) (d a : BitVec 5) (m _t : BitVec 3) (s : State) :
    Host.Outcome State Fault Refusal :=
  vec1 32 (fun x => sqrt32 (elemValue .fp32 x)) g d a m s

/-- `vexp2` (R177, R178). -/
def execVexp2 (g : BitVec 4) (d a : BitVec 5) (m _t : BitVec 3) (s : State) :
    Host.Outcome State Fault Refusal :=
  vec1 32 (fun x => exp232 (elemValue .fp32 x)) g d a m s

/-- `vlog2` (R177, R178). -/
def execVlog2 (g : BitVec 4) (d a : BitVec 5) (m _t : BitVec 3) (s : State) :
    Host.Outcome State Fault Refusal :=
  vec1 32 (fun x => log232 (elemValue .fp32 x)) g d a m s

/-- VRM as a converting word finds it: rounding mode and saturation code; a reserved code is FMT (R83). -/
def readVrm : Eff (Rm × Nat) := do
  let v ← readVcr 0
  match rmOfCode (bits v 2 0) with
  | some r => if bits v 4 3 = 3 then raise cFMT 0 0#64 else pure (r, bits v 4 3)
  | none => raise cFMT 0 0#64

/-- `vrnd` (R179). -/
def execVrnd (g : BitVec 4) (d a : BitVec 5) (m t : BitVec 3) (s : State) : Host.Outcome State Fault Refusal :=
  runE .V g (do
    let rm ← readVrm
    raiseIf (decide (rm.1 = .rs)) cFMT 0 0#64
    let k ← readMask m.toNat
    let f := typeOf t
    eachLane (lanesOf k) fun i => do
      let x ← readLane a.toNat i
      writeLane d.toNat i (wordOf f.width fun j => roundIntegral f rm.1 (elemValue f (elemOf f.width x j)))) s

/-- `vnot` (R177). -/
def execVnot (g : BitVec 4) (d a : BitVec 5) (m t : BitVec 3) (s : State) : Host.Outcome State Fault Refusal :=
  vec1 (typeOf t).width (fun x => 2 ^ (typeOf t).width - 1 - x) g d a m s

/-- `vmov` (R173, R177): the words and gloves of the active lanes move unchanged. -/
def execVmov (g : BitVec 4) (d a : BitVec 5) (m _t : BitVec 3) (s : State) : Host.Outcome State Fault Refusal :=
  runE .V g (do
    let k ← readMask m.toNat
    let t ← getTile
    putLanes d.toNat ((lanesOf k).map fun i => (i, t.getV a.toNat i))) s

/-- `vand` (R180). -/
def execVand (g : BitVec 4) (d a b : BitVec 5) (m t : BitVec 3) (s : State) :
    Host.Outcome State Fault Refusal :=
  vec2 (typeOf t).width (fun x y => x &&& y) g d a b m s

/-- `vor` (R180). -/
def execVor (g : BitVec 4) (d a b : BitVec 5) (m t : BitVec 3) (s : State) :
    Host.Outcome State Fault Refusal :=
  vec2 (typeOf t).width (fun x y => x ||| y) g d a b m s

/-- `vxor` (R180). -/
def execVxor (g : BitVec 4) (d a b : BitVec 5) (m t : BitVec 3) (s : State) :
    Host.Outcome State Fault Refusal :=
  vec2 (typeOf t).width (fun x y => x ^^^ y) g d a b m s

/-- `vsll` (R180). -/
def execVsll (g : BitVec 4) (d a b : BitVec 5) (m t : BitVec 3) (s : State) :
    Host.Outcome State Fault Refusal :=
  vec2 (typeOf t).width (sllElem (typeOf t).width) g d a b m s

/-- `vsrl` (R180). -/
def execVsrl (g : BitVec 4) (d a b : BitVec 5) (m t : BitVec 3) (s : State) :
    Host.Outcome State Fault Refusal :=
  vec2 (typeOf t).width (srlElem (typeOf t).width) g d a b m s

/-- `vsra` (R180). -/
def execVsra (g : BitVec 4) (d a b : BitVec 5) (m t : BitVec 3) (s : State) :
    Host.Outcome State Fault Refusal :=
  vec2 (typeOf t).width (sraElem (typeOf t).width) g d a b m s

/-- `vaddsat` (R180). -/
def execVaddsat (g : BitVec 4) (d a b : BitVec 5) (m t : BitVec 3) (s : State) :
    Host.Outcome State Fault Refusal :=
  vec2 (typeOf t).width (addsatElem (typeOf t).width) g d a b m s

/-! ## Conversion (R181, R182) -/

/-- Reserve the RS blocks of `n` elements on V's counter and answer the first (R78). -/
def reserveV (mode : Rm) (n : Nat) : Eff (BitVec 64) := do
  let t ← getTile
  if mode = .rs then modTile fun t => { t with nrsV := t.nrsV + BitVec.ofNat 64 ((n + 3) / 4) }
  pure t.nrsV

/-- The work identifier that keys the task's draws (R78). -/
def Tile.wid (t : Tile) : BitVec 64 := (t.task.map (·.rcd.wid)).getD 0#64

/-- The elements of destination word `l` that a conversion of `c` elements converts: those of active lanes of the wider type (R181). -/
def cvtActive (src dst : Fmt) (c : Nat) (k : BitVec 128) (l : Nat) : List Bool :=
  let q := 64 / dst.width
  (List.range q).map fun j => decide (l * q + j < c) && k.getLsbD ((l * q + j) * max src.width dst.width / 64)

/-- The words that lane `i` of the wider type consumes, by key: the source word of each of its elements, and the old word of a
destination word that is written in part (R173, R181). -/
def cvtKeys (src dst : Fmt) (d a c : Nat) (k : BitVec 128) (i : Nat) : List Nat :=
  (List.range (64 / max src.width dst.width)).flatMap fun j =>
    let e := i * (64 / max src.width dst.width) + j
    let l := e * dst.width / 64
    (128 * a + e * src.width / 64) :: (if (cvtActive src dst c k l).all id then [] else [128 * d + l])

/-- One destination word of a conversion (R181): the converted elements of active lanes, merged into the old word. -/
def cvtWord (src dst : Fmt) (mode : Rm) (sat c : Nat) (k : BitVec 128) (wid n : BitVec 64) (xs olds : SMap (BitVec 64)) (l : Nat) : GWord :=
  let q := 64 / dst.width
  let act := cvtActive src dst c k l
  gloved (wordOf dst.width fun j =>
    if act.getD j false then
      let e := l * q + j
      convertElem src dst mode sat (rsDraw wid n 1 e)
        (elemOf src.width (mapGet 0#64 xs (e * src.width / 64)) (e % (64 / src.width)))
    else elemOf dst.width (mapGet 0#64 olds l) j)

/-- `vcvt` (R181, R182): each active lane's words are checked in turn, lowest lane first (R173, R174). -/
def execVcvt (g : BitVec 4) (d a : BitVec 5) (c : BitVec 2) (e m t : BitVec 3) (s : State) :
    Host.Outcome State Fault Refusal :=
  runE .V g (do
    let src := typeOf t
    let dst := typeOf e
    let rm ← readVrm
    raiseIf (!pairAllowed src dst) cFMT 0 0#64
    let k ← readMask m.toNat
    let n := 8192 / max src.width dst.width
    let first ← reserveV rm.1 n
    let ws ← readKeys ((lanesOf k).flatMap (cvtKeys src dst d.toNat a.toNat n k)) []
    let xs := keyLanes a.toNat ws
    let olds := keyLanes d.toNat ws
    let u ← getTile
    putLanes d.toNat (((List.range 128).filter fun l => (cvtActive src dst n k l).any id).map fun l =>
      (l, cvtWord src dst rm.1 c.toNat n k u.wid first xs olds l))) s

/-! ## Compares, selection and masks (R183 to R186) -/

/-- The conditions of `vcmp` on elements (R183): 0 equal, 1 not equal, 2 less, 3 less or equal. -/
def cmpElem (f : Fmt) (cc x y : Nat) : Bool :=
  let a := elemValue f x
  let b := elemValue f y
  match cc with
  | 0 => a.eqv b
  | 1 => !a.eqv b
  | 2 => a.lt b
  | _ => a.lt b || a.eqv b

/-- The mask bits that a list of lanes sets. -/
def maskOf : List (Nat × Bool) → BitVec 128
  | [] => 0#128
  | (i, v) :: t => (if v then 1#128 <<< i else 0#128) ||| maskOf t

/-- `vcmp` (R183). -/
def vcmp (cc : Nat) (g : BitVec 4) (d : BitVec 3) (a b : BitVec 5) (m t : BitVec 3) (s : State) :
    Host.Outcome State Fault Refusal :=
  runE .V g (do
    let k ← readMask m.toNat
    let f := typeOf t
    let r ← (lanesOf k).mapM fun i => do
      let (x, y) ← readLane2 a.toNat b.toNat i
      pure (i, (List.range (64 / f.width)).all fun j => cmpElem f cc (elemOf f.width x j) (elemOf f.width y j))
    writeMask d.toNat (maskOf r)) s

/-- `vcmp.eq` (R183). -/
def execVcmpEq (g : BitVec 4) (d : BitVec 3) (a b : BitVec 5) (m t : BitVec 3) (s : State) :
    Host.Outcome State Fault Refusal :=
  vcmp 0 g d a b m t s

/-- `vcmp.ne` (R183). -/
def execVcmpNe (g : BitVec 4) (d : BitVec 3) (a b : BitVec 5) (m t : BitVec 3) (s : State) :
    Host.Outcome State Fault Refusal :=
  vcmp 1 g d a b m t s

/-- `vcmp.lt` (R183). -/
def execVcmpLt (g : BitVec 4) (d : BitVec 3) (a b : BitVec 5) (m t : BitVec 3) (s : State) :
    Host.Outcome State Fault Refusal :=
  vcmp 2 g d a b m t s

/-- `vcmp.le` (R183). -/
def execVcmpLe (g : BitVec 4) (d : BitVec 3) (a b : BitVec 5) (m t : BitVec 3) (s : State) :
    Host.Outcome State Fault Refusal :=
  vcmp 3 g d a b m t s

/-- `vsel` (R184): every lane, from VA where the mask bit is 1 and from VB elsewhere, moved unchanged. -/
def execVsel (g : BitVec 4) (d a b : BitVec 5) (m _t : BitVec 3) (s : State) : Host.Outcome State Fault Refusal :=
  runE .V g (do
    let k ← readMask m.toNat
    let t ← getTile
    putLanes d.toNat ((List.range 128).map fun i => (i, t.getV (if k.getLsbD i then a.toNat else b.toNat) i))) s

/-- A mask word with two sources (R185). -/
def mask2 (f : BitVec 128 → BitVec 128 → BitVec 128) (g : BitVec 4) (d a b : BitVec 5) (s : State) :
    Host.Outcome State Fault Refusal :=
  runE .V g (do
    let x ← readMask a.toNat
    let y ← (if b = a then pure x else readMask b.toNat : Eff (BitVec 128))
    writeMask d.toNat (f x y)) s

/-- `mand` (R185). -/
def execMand (g : BitVec 4) (d a b : BitVec 5) (s : State) : Host.Outcome State Fault Refusal :=
  mask2 (fun x y => x &&& y) g d a b s

/-- `mor` (R185). -/
def execMor (g : BitVec 4) (d a b : BitVec 5) (s : State) : Host.Outcome State Fault Refusal :=
  mask2 (fun x y => x ||| y) g d a b s

/-- `mxor` (R185). -/
def execMxor (g : BitVec 4) (d a b : BitVec 5) (s : State) : Host.Outcome State Fault Refusal :=
  mask2 (fun x y => x ^^^ y) g d a b s

/-- `mnot` (R185). -/
def execMnot (g : BitVec 4) (d a : BitVec 5) (s : State) : Host.Outcome State Fault Refusal :=
  runE .V g (do
    let x ← readMask a.toNat
    writeMask d.toNat (~~~x)) s

/-- `mpop` (R185). -/
def execMpop (g : BitVec 4) (d a : BitVec 5) (s : State) : Host.Outcome State Fault Refusal :=
  runE .V g (do
    let x ← readMask a.toNat
    modTile (·.setS d.toNat (gloved (BitVec.ofNat 64 (lanesOf x).length)))) s

/-- `mfirst` (R185): 128 when no bit is set. -/
def execMfirst (g : BitVec 4) (d a : BitVec 5) (s : State) : Host.Outcome State Fault Refusal :=
  runE .V g (do
    let x ← readMask a.toNat
    modTile (·.setS d.toNat (gloved (BitVec.ofNat 64 ((lanesOf x).headD 128))))) s

/-- `vpset` (R186): conditions 0 any, 1 all, 2 none. -/
def execVpset (g d a : BitVec 4) (c : BitVec 6) (s : State) : Host.Outcome State Fault Refusal :=
  runE .V g (do
    let x ← readMask a.toNat
    let v := if c = 0#6 then decide (x ≠ 0#128) else if c = 1#6 then decide (x = BitVec.allOnes 128) else decide (x = 0#128)
    modTile fun t => t.setPred d.toNat t.eV.pos v) s

end Sys2Proof.Machine
end

