-- ==== Sys2Proof/Machine/VecMove.lean ====
section
/-!
DEFINITION. Words of V that move elements between lanes (R187 to R190), reduce or scan a register (R87, R191), and multiply in
dot lanes (R86, R192).
-/

namespace Sys2Proof.Machine

/-- Elements of a lane at a width (R170). -/
def perLane (w : Nat) : Nat := 64 / w

/-- Element `e` of a register whose words were read. -/
def elemIn (w : Nat) (ws : SMap (BitVec 64)) (e : Nat) : Nat := elemOf w (mapGet 0#64 ws (e / perLane w)) (e % perLane w)

/-- `vbcast` (R187). -/
def execVbcast (g : BitVec 4) (d a : BitVec 5) (m t : BitVec 3) (s : State) : Host.Outcome State Fault Refusal :=
  runE .V g (do
    let k ← readMask m.toNat
    let w := (typeOf t).width
    let x ← (if w = 64 then do return (← getTile).getS a.toNat
      else do
        let v ← readS a.toNat
        pure (gloved (wordOf w fun _ => v.toNat)) : Eff GWord)
    putLanes d.toNat ((lanesOf k).map fun i => (i, x))) s

/-- The words that some lanes of a `vperm` at i32 consume, by key: a lane's index word, then the source word of each of its
elements (R174, R188). -/
def permWords (a b : Nat) : List Nat → SMap (BitVec 64) → Eff (SMap (BitVec 64))
  | [], seen => pure seen
  | i :: t, seen => do
    let ix ← readKeys [128 * b + i] seen
    let x := mapGet 0#64 ix (128 * b + i)
    let ws ← readKeys ((List.range 2).map fun j => 128 * a + elemOf 32 x j % 256 / 2) ix
    permWords a b t ws

/-- `vperm` (R188): indices are checked, and every source is read first. -/
def execVperm (g : BitVec 4) (d a b : BitVec 5) (m t : BitVec 3) (s : State) : Host.Outcome State Fault Refusal :=
  runE .V g (do
    let k ← readMask m.toNat
    let w := (typeOf t).width
    if w = 64 then do
      let idx ← readLanes b.toNat (lanesOf k)
      let u ← getTile
      putLanes d.toNat (idx.map fun p => (p.1, u.getV a.toNat (p.2.toNat % 128)))
    else do
      let ws ← permWords a.toNat b.toNat (lanesOf k) []
      putLanes d.toNat ((lanesOf k).map fun i => (i, gloved (wordOf w fun j =>
        elemIn w (keyLanes a.toNat ws) (elemIn w (keyLanes b.toNat ws) (i * perLane w + j) % 256))))) s

/-- The element that element `e` takes in a slide by `c` of a register of `n` elements (R189). -/
def slideFrom (n : Nat) (c : Int) (e : Nat) : Option Nat :=
  let i := (e : Int) - c
  if 0 ≤ i ∧ i < n then some i.toNat else none

/-- `vslide` (R189). -/
def execVslide (g : BitVec 4) (d a b : BitVec 5) (m t : BitVec 3) (s : State) : Host.Outcome State Fault Refusal :=
  runE .V g (do
    let c := (← readS b.toNat).toInt
    let k ← readMask m.toNat
    let w := (typeOf t).width
    let q := perLane w
    let u ← getTile
    if w = 64 then
      putLanes d.toNat ((lanesOf k).map fun i =>
        (i, match slideFrom 128 c i with | some l => u.getV a.toNat l | none => GWord.zero))
    else do
      let need := (List.range 128).filter fun l =>
        (lanesOf k).any fun i => (List.range q).any fun j => decide ((slideFrom (128 * q) c (i * q + j)).map (· / q) = some l)
      let src ← readLanes a.toNat need
      putLanes d.toNat ((lanesOf k).map fun i => (i, gloved (wordOf w fun j =>
        match slideFrom (128 * q) c (i * q + j) with | some e => elemIn w src e | none => 0)))) s

/-- `vext` (R190). -/
def execVext (g : BitVec 4) (d a b : BitVec 5) (s : State) : Host.Outcome State Fault Refusal :=
  runE .V g (do
    let l ← readS b.toNat
    modTile fun t => t.setS d.toNat (t.getV a.toNat (l.toNat % 128))) s

/-- `vins` (R190). -/
def execVins (g : BitVec 4) (d a b : BitVec 5) (s : State) : Host.Outcome State Fault Refusal :=
  runE .V g (do
    let l ← readS b.toNat
    modTile fun t => t.setV d.toNat (l.toNat % 128) (t.getS a.toNat)) s

/-! ## Reductions and scans (R87, R191) -/

/-- One level of the pairwise tree. -/
def treeLevel (f : Nat → Nat → Nat) : List Nat → List Nat
  | x :: y :: t => f x y :: treeLevel f t
  | l => l

/-- The pairwise tree over 2^k elements (R87). -/
def treeFold (f : Nat → Nat → Nat) : Nat → List Nat → Nat
  | 0, l => l.headD 0
  | k + 1, l => treeFold f k (treeLevel f l)

/-- Identities of a sum, a maximum and a minimum (R87, R191). -/
def sumIdentity (f : Fmt) : Nat := if f.isInt then 0 else signBit f true

/-- Identity of a maximum. -/
def maxIdentity (f : Fmt) : Nat := if f.isInt then 2 ^ (f.width - 1) else infCode f true

/-- Identity of a minimum. -/
def minIdentity (f : Fmt) : Nat := if f.isInt then 2 ^ (f.width - 1) - 1 else infCode f false

/-- The elements of a register under a mask, inactive ones replaced by an identity (R87). -/
def maskedElems (w : Nat) (k : BitVec 128) (ident : Nat) (ws : SMap (BitVec 64)) : List Nat :=
  (List.range (128 * perLane w)).map fun e => if k.getLsbD (e / perLane w) then elemIn w ws e else ident

/-- Write a register whole from its elements. -/
def writeElems (w d : Nat) (l : List Nat) : Eff Unit :=
  putLanes d ((List.range 128).map fun i => (i, gloved (wordOf w fun j => l.getD (i * perLane w + j) 0)))

/-- A reduction: element 0 takes the tree's result, every other element 0 (R191). -/
def reduction (f : Fmt → Nat → Nat → Nat) (ident : Fmt → Nat) (g : BitVec 4) (d a : BitVec 5) (m t : BitVec 3) (s : State) :
    Host.Outcome State Fault Refusal :=
  runE .V g (do
    let k ← readMask m.toNat
    let ty := typeOf t
    let ws ← readLanes a.toNat (lanesOf k)
    let r := treeFold (fun x y => f ty x y % 2 ^ ty.width) 11 (maskedElems ty.width k (ident ty) ws)
    writeElems ty.width d.toNat [r]) s

/-- `vredsum` (R191). -/
def execVredsum (g : BitVec 4) (d a : BitVec 5) (m t : BitVec 3) (s : State) : Host.Outcome State Fault Refusal :=
  reduction addElem sumIdentity g d a m t s

/-- `vredmax` (R191). -/
def execVredmax (g : BitVec 4) (d a : BitVec 5) (m t : BitVec 3) (s : State) : Host.Outcome State Fault Refusal :=
  reduction maxElem maxIdentity g d a m t s

/-- `vredmin` (R191). -/
def execVredmin (g : BitVec 4) (d a : BitVec 5) (m t : BitVec 3) (s : State) : Host.Outcome State Fault Refusal :=
  reduction minElem minIdentity g d a m t s

/-- The inclusive prefix sums from a start (R191). -/
def scanFrom (f : Nat → Nat → Nat) : Nat → List Nat → List Nat
  | _, [] => []
  | acc, x :: t => f acc x :: scanFrom f (f acc x) t

/-- `vscan` (R191). -/
def execVscan (g : BitVec 4) (d a : BitVec 5) (m t : BitVec 3) (s : State) : Host.Outcome State Fault Refusal :=
  runE .V g (do
    let k ← readMask m.toNat
    let ty := typeOf t
    let ws ← readLanes a.toNat (lanesOf k)
    writeElems ty.width d.toNat (scanFrom (fun x y => addElem ty x y % 2 ^ ty.width) (sumIdentity ty)
      (maskedElems ty.width k (sumIdentity ty) ws))) s

/-! ## Dot lanes (R86, R192) -/

/-- The exact products of the elements of two words. -/
def products (f : Fmt) (x y : BitVec 64) : List FVal :=
  (List.range (perLane f.width)).map fun j => (elemValue f (elemOf f.width x j)).mul (elemValue f (elemOf f.width y j))

/-- `vdot` (R192): the products and element 0 of VD's lane, summed exactly and rounded once. -/
def execVdot (g : BitVec 4) (d a b : BitVec 5) (m t : BitVec 3) (s : State) : Host.Outcome State Fault Refusal :=
  runE .V g (do
    let k ← readMask m.toNat
    eachLane (lanesOf k) fun i => do
      let (x, y, z) ← readLane3 a.toNat b.toNat d.toNat i
      let r := roundNearest .fp32 (exactSum (elemValue .fp32 (elemOf 32 z 0) :: products (typeOf t) x y))
      writeLane d.toNat i (wordOf 32 fun j => if j = 0 then r else elemOf 32 z 1)) s

end Sys2Proof.Machine
end

