-- ==== Sys2Proof/Machine/VecMem.lean ====
section
/-!
DEFINITION. Vector loads and stores of scratchpad (R197 to R199) and of memory (R200, R201, R280).
-/

namespace Sys2Proof.Machine

/-- A scratchpad region that V reaches (R198): owning tile, first scratchpad-space address, offset in it, and where the range
checker places its start (R66). -/
structure Region where
  g : Nat
  start : Nat
  off : Nat
  base : Nat
  deriving DecidableEq, Repr

/-- The region that holds a scratchpad-space address: the own scratchpad or a sibling (R95, R198). -/
def regionOf (sa : Nat) : Eff Region := do
  let g ← curTile
  match spadPlace g sa with
  | .own off => pure ⟨g, sa - off, off, 0⟩
  | .sibling k off => pure ⟨k, sa - off, off, sa - off⟩
  | _ => raise cDFLT 5 (BitVec.ofNat 64 sa)

/-- The port table of a sibling's scratchpad (R384). -/
def regionPort (r : Region) (wr : Bool) (sa : Nat) : Eff Unit := do
  let g ← curTile
  if r.g = g then pure ()
  else
    let t ← getTile
    match ← getsState (portVerdict · r.g (classSV t) wr) with
    | .ok => pure ()
    | .refused => raise cDFLT 3 (BitVec.ofNat 64 sa)
    | .held => waitWord

/-- The format of the bank at an offset of a tile's scratchpad (R81). -/
def State.bankFmt (s : State) (g off : Nat) : Fmt := (fmtOfCode (s.spadFmt g off)).getD .raw

/-- A word of a region. -/
def Region.word (r : Region) (s : State) (o : Nat) : GWord := (s.tileAt r.g).spad.read (r.off + o)

/-- Drop repeated neighbours of a list. -/
def dedup : List Nat → List Nat
  | x :: y :: t => if x = y then dedup (y :: t) else x :: dedup (y :: t)
  | l => l

/-- How a vector load or store acts on a bank format (R197): none refuses, false moves words unchanged, true converts. -/
def bankAction (bank ty : Fmt) : Option Bool :=
  if bank = .raw ∨ bank = ty then some false
  else if bank = .e2m1 ∨ bank = .e3m5 then (if ty = .int64 then some false else none)
  else some true

/-- Whether an access may use a word whose bank has format `f`, where the bank at its address has format `first` (R82, R197). A word
that converts has the width of the first bank, which is also the width that the access's layout gives its words, and a pair R80
allows. In an access whose first bank converts, a word of a bank that does not convert moves unchanged where that bank holds T3 at
that width, and a RAW one raises FMT (DEDUCED, log 37). -/
def bankUsable (store : Bool) (first ty f : Fmt) : Bool :=
  let conv := decide (bankAction first ty = some true)
  match bankAction f ty with
  | none => false
  | some false => !conv || decide (f = ty ∧ f.width = first.width)
  | some true =>
    decide (f.width = first.width) && (conv || decide (f.width = ty.width)) &&
      (if store then pairAllowed ty f else pairAllowed f ty)

/-- The first of some ascending offsets in each bank they lie in. -/
def firstInBanks (l : List Nat) : List Nat :=
  (l.foldl (fun (acc : List Nat) o => match acc with
    | x :: _ => if x / 65536 = o / 65536 then acc else o :: acc
    | [] => [o]) []).reverse

/-- The banks of the words at some offsets of a region: FMT at the first one the access may not use (R197). -/
def checkBanks (r : Region) (ty : Fmt) (store : Bool) (first : Fmt) : List Nat → Eff Unit
  | [] => pure ()
  | o :: t => do
    let f ← getsState (·.bankFmt r.g o)
    raiseIf (!bankUsable store first ty f) cFMT 0 (BitVec.ofNat 64 (r.start + o))
    checkBanks r ty store first t

/-- What a `vld` or `vst` settles before it moves data (R174, R197, R198): region, rounding mode and saturation where some of it
converts, the width that lays its words out, footprint in bytes, and the mask. -/
structure VAccess where
  r : Region
  conv : Option (Rm × Nat)
  wb : Nat
  bytes : Nat
  mask : BitVec 128

/-- A mask as it stands; no lane where it holds an uncorrectable word. -/
def Tile.peekMask (t : Tile) (r : Nat) : BitVec 128 :=
  match checkWord (t.getM r 0), checkWord (t.getM r 1) with
  | .ok lo _, .ok hi _ => hi ++ lo
  | _, _ => 0#128

/-- The words that hold the elements of active lanes, `q` elements a lane and `qb` a word, ascending. -/
def feedWords (q qb : Nat) (lanes : List Nat) : List Nat :=
  dedup (lanes.flatMap fun i => (List.range (((i + 1) * q - 1) / qb + 1 - i * q / qb)).map (· + i * q / qb))

/-- Settle a `vld` or `vst`. The banks that matter are those of words that feed an active lane or that one feeds (R171). A footprint that
leaves the region faults whatever the mask: R198 wants all of it in one region, where R171 lets no address fault arise from an inactive
lane. R174 does not place an uncorrectable mask: it is met after the faults that R198 gives the footprint (both DESIGN CHOICE, log 37). -/
def vAccess (store : Bool) (ty : Fmt) (b : BitVec 4) (o : BitVec 6) (m : BitVec 3) : Eff VAccess := do
  let x ← readS b.toNat
  let sa := ((x.toNat : Int) + o.toInt * 1024) % 2 ^ 32 |>.toNat
  let r ← regionOf sa
  let bank ← getsState (·.bankFmt r.g r.off)
  let n := 128 * perLane ty.width
  raiseIf (decide (bankAction bank ty = none)) cFMT 0 (BitVec.ofNat 64 sa)
  let first := decide (bankAction bank ty = some true)
  let wb := if first then bank.width else ty.width
  let bytes := if first then n * bank.width / 8 else 1024
  let u ← getTile
  let lanes := lanesOf (u.peekMask m.toNat)
  let words := fun l => (feedWords (perLane ty.width) (perLane wb) l).map fun k => r.off + 8 * k
  let offs := (words lanes).filter fun o => decide (o < 0x200000)
  let starts := firstInBanks ((if first then [r.off] else []) ++ offs)
  let s ← getsState id
  let conv ← (if first || starts.any fun o => decide (bankAction (s.bankFmt r.g o) ty = some true) then do return some (← readVrm)
    else pure none : Eff (Option (Rm × Nat)))
  checkBanks r ty store bank starts
  let outside := fun c => raiseIf c cDFLT 5 (BitVec.ofNat 64 (r.start + 0x200000))
  outside ((words (lanes.take 1)).any fun o => decide (0x200000 < o + 8))
  raiseIf (decide (sa % 8 ≠ 0)) cALIGN 0 (BitVec.ofNat 64 sa)
  regionPort r store sa
  outside (decide (0x200000 < r.off + bytes))
  let k ← readMask m.toNat
  let t ← getTile
  let rg := [(r.base + r.off, bytes)]
  rangeCheck t.eV.pos (if store then [] else rg) (if store then rg else [])
  pure ⟨r, conv, wb, bytes, k⟩

/-- Word `k` of an access is in a bank whose format it converts. -/
def VAccess.converts (a : VAccess) (ty : Fmt) (s : State) (k : Nat) : Bool :=
  decide (bankAction (s.bankFmt a.r.g (a.r.off + 8 * k)) ty = some true)

/-- The words of a footprint, by word number, as a computing word consumes them. -/
def readSpadWords (r : Region) : List Nat → Eff (SMap (BitVec 64))
  | [] => pure []
  | k :: t => do
    let w ← getsState (r.word · (8 * k))
    let x ← check w (BitVec.ofNat 64 (r.start + r.off + 8 * k))
    let rest ← readSpadWords r t
    pure ((k, x) :: rest)

/-- Write words of a region, by word number. -/
def writeSpadWords (r : Region) : List (Nat × GWord) → Eff Unit
  | [] => pure ()
  | (k, w) :: t => do
    modState (·.writeSpad r.g (r.off + 8 * k) w)
    writeSpadWords r t

/-- `vld` (R197, R198): a word of a bank that does not convert moves unchanged. -/
def execVld (g : BitVec 4) (d : BitVec 5) (b : BitVec 4) (o : BitVec 6) (m t : BitVec 3) (s : State) :
    Host.Outcome State Fault Refusal :=
  runE .V g (do
    let ty := typeOf t
    let a ← vAccess false ty b o m
    match a.conv with
    | none => do
      let s ← getsState id
      putLanes d.toNat ((lanesOf a.mask).map fun i => (i, a.r.word s (8 * i)))
    | some (rm, sat) => do
      let q := perLane ty.width
      let qb := perLane a.wb
      let s ← getsState id
      let ws ← readSpadWords a.r ((feedWords q qb (lanesOf a.mask)).filter (a.converts ty s))
      let first ← reserveV rm (128 * q)
      let u ← getTile
      putLanes d.toNat ((lanesOf a.mask).map fun i => (i,
        if a.converts ty s (i * q / qb) then gloved (wordOf ty.width fun j =>
          let e := i * q + j
          convertElem (s.bankFmt a.r.g (a.r.off + 8 * (e / qb))) ty rm sat (rsDraw u.wid first 1 e) (elemIn a.wb ws e))
        else a.r.word s (8 * i)))) s

/-- `vst` (R197, R198): a word that converts is written where every lane that feeds it is active; the words of active lanes that feed
one that converts are checked (R173), and a word of a bank that does not convert takes its lane's word unchanged. -/
def execVst (g : BitVec 4) (d : BitVec 5) (b : BitVec 4) (o : BitVec 6) (m t : BitVec 3) (s : State) :
    Host.Outcome State Fault Refusal :=
  runE .V g (do
    let ty := typeOf t
    let a ← vAccess true ty b o m
    match a.conv with
    | none => do
      let u ← getTile
      writeSpadWords a.r ((lanesOf a.mask).map fun i => (i, u.getV d.toNat i))
    | some (rm, sat) => do
      let q := perLane ty.width
      let qb := perLane a.wb
      let feeds := fun k => (List.range (((k + 1) * qb - 1) / q + 1 - k * qb / q)).map (· + k * qb / q)
      let ks := (List.range (a.bytes / 8)).filter fun k => (feeds k).all fun l => a.mask.getLsbD l
      let s ← getsState id
      let ws ← readLanes d.toNat ((lanesOf a.mask).filter fun i => (feedWords q qb [i]).any (a.converts ty s))
      let first ← reserveV rm (128 * q)
      let u ← getTile
      writeSpadWords a.r (ks.map fun k => (k,
        if a.converts ty s k then gloved (wordOf a.wb fun j =>
          let e := k * qb + j
          convertElem ty (s.bankFmt a.r.g (a.r.off + 8 * k)) rm sat (rsDraw u.wid first 1 e) (elemIn ty.width ws e))
        else u.getV d.toNat k))) s

/-! ## Gather and scatter (R199) -/

/-- A lane's word where its glove lets it be read. -/
def Tile.peekLane (t : Tile) (r i : Nat) : Option (BitVec 64) :=
  match checkWord (t.getV r i) with
  | .ok d _ => some d
  | .bad => none

/-- The format of the bank at a scratchpad-space address that V reaches; none in a window or outside every region. -/
def State.laneFmt (s : State) (sa : Nat) : Option Fmt :=
  match spadPlace s.cur sa with
  | .own off => some (s.bankFmt s.cur off)
  | .sibling k off => some (s.bankFmt k off)
  | _ => none

/-- Settle a `vgth` or `vsct`: the region, and each active lane with the offset it addresses. Format and address faults come
before an uncorrectable index word (R174), whose lane has no address. The faults of the base (no region, misaligned, a port that refuses)
name sa0 and are raised with no active lane too; the mask is checked first of all: R174 and R199 leave both open (DESIGN CHOICE, log 37). -/
def gatherPlan (store : Bool) (d : BitVec 5) (b : BitVec 4) (o : BitVec 6) (m : BitVec 3) :
    Eff (Region × List (Nat × Nat)) := do
  let x ← readS b.toNat
  let sa := ((x.toNat : Int) + o.toInt * 8) % 2 ^ 32 |>.toNat
  let k ← readMask m.toNat
  let u ← getTile
  let addrs := (lanesOf k).filterMap fun i => (u.peekLane (d.toNat + 1) i).map fun w => (i, (sa + 8 * bits w 31 0) % 2 ^ 32)
  let s ← getsState id
  match addrs.find? fun p => (s.laneFmt p.2).any fun f => !decide (f = .raw ∨ f = .int64) with
  | some p => raise cFMT 0 (BitVec.ofNat 64 p.2)
  | none => pure ()
  let r ← regionOf sa
  let inside := fun a => decide (r.start ≤ a ∧ a < r.start + 0x200000)
  let outside := fun (p : Option (Nat × Nat)) => match p with
    | some p => raiseIf (!inside p.2) cDFLT 5 (BitVec.ofNat 64 p.2)
    | none => pure ()
  outside addrs.head?
  raiseIf (decide (sa % 8 ≠ 0)) cALIGN 0 (BitVec.ofNat 64 sa)
  regionPort r store sa
  outside (addrs.find? fun p => !inside p.2)
  let _ ← readLanes (d.toNat + 1) (lanesOf k)
  let t ← getTile
  let rg := [(r.base, 0x200000)]
  rangeCheck t.eV.pos (if store then [] else rg) (if store then rg else [])
  pure (r, addrs.map fun p => (p.1, p.2 - r.start))

/-- `vgth` (R199). -/
def execVgth (g : BitVec 4) (d : BitVec 5) (b : BitVec 4) (o : BitVec 6) (m _t : BitVec 3) (s : State) :
    Host.Outcome State Fault Refusal :=
  runE .V g (do
    let p ← gatherPlan false d b o m
    let s ← getsState id
    putLanes d.toNat (p.2.map fun x => (x.1, (s.tileAt p.1.g).spad.read x.2))) s

/-- `vsct` (R199): in ascending lane order. -/
def execVsct (g : BitVec 4) (d : BitVec 5) (b : BitVec 4) (o : BitVec 6) (m _t : BitVec 3) (s : State) :
    Host.Outcome State Fault Refusal :=
  runE .V g (do
    let p ← gatherPlan true d b o m
    let u ← getTile
    let rec go : List (Nat × Nat) → Eff Unit
      | [] => pure ()
      | (i, off) :: t => do
        modState (·.writeSpad p.1.g off (u.getV d.toNat i))
        go t
    go p.2) s

/-! ## Memory (R200, R201) -/

/-- The word of the first lane whose aperture address lies in a bank typed with a format the access may not use (R200). -/
def apertureClash (s : State) (g : Nat) (ty : Fmt) (va : BitVec 64) : List Nat → Option Nat
  | [] => none
  | i :: t =>
    let a := va + BitVec.ofNat 64 (8 * i)
    let bad := fun k off =>
      let f := s.bankFmt k off
      !(decide (f = .raw ∨ f = ty) || (decide (ty = .int64) && decide (f = .e2m1 ∨ f = .e3m5)))
    let c := inAperture a && (match spadPlace g (a.toNat % 2 ^ 32) with
      | .own off => bad g off
      | .sibling k off => bad k off
      | _ => false)
    if c then some (a.toNat % 2 ^ 32 / 8 * 8) else apertureClash s g ty va t

/-- The region test of a lane's address, which comes before its alignment (R174, R200). -/
def laneRegion (r : Rights) (a : BitVec 64) : Eff Unit := do
  if inAperture a then
    match ← spadAccess (a.toNat % 2 ^ 32) ⟨false, false, false, 3⟩ a with
    | .remote _ _ => raiseIf (!r.wr) cDFLT 5 a
    | _ => pure ()

/-- Settle the place of each active lane, lowest first (R174, R200). -/
def lanePlaces (r : Rights) (va : BitVec 64) : List Nat → Eff (List (Nat × Place))
  | [] => pure []
  | i :: t => do
    let a := va + BitVec.ofNat 64 (8 * i)
    raiseIf (!canonical a) cDFLT 4 a
    let p ← placeOf a r
    match p with
    | .remote w _ => do
      raiseIf (!r.wr) cDFLT 5 a
      let u ← getTile
      raiseIf (!((u.win? w).map (·.canW)).getD false) cDFLT subRight a
    | _ => pure ()
    let rest ← lanePlaces r va t
    pure ((i, p) :: rest)

/-- Settle a `vldm` or `vstm` and order it (R103): the address of lane 0 and the active lanes with their places. R174 places neither an
uncorrectable mask, which is met first of all here, nor a non-canonical address, which is met after ALIGN (DESIGN CHOICE, log 37). -/
def vmPlan (r : Rights) (ty : Fmt) (b : BitVec 4) (o : BitVec 6) (m : BitVec 3) :
    Eff (BitVec 64 × List (Nat × Place)) := do
  let x ← readS b.toNat
  let half := ((8 * x.toNat : Nat) + o.toInt * ty.width) % 2 ^ 67 |>.toNat
  let va := BitVec.ofNat 64 (half / 8)
  let k ← readMask m.toNat
  let g ← curTile
  match ← getsState fun s => apertureClash s g ty va (lanesOf k) with
  | some a => raise cFMT 0 (BitVec.ofNat 64 a)
  | none => pure ()
  if decide (half % 64 ≠ 0) then do
    match (lanesOf k).head? with
    | some i => laneRegion r (va + BitVec.ofNat 64 (8 * i))
    | none => pure ()
    raise cALIGN 0 va
  let ps ← lanePlaces r va (lanesOf k)
  let own := ps.filterMap fun p => match p.2 with
    | .spad k off => if k = g then some (off - 8 * p.1) else none
    | _ => none
  let rg := (own.take 1).map fun a => (a, 1024)
  let t ← getTile
  rangeCheck t.eV.pos (if r.wr then [] else rg) (if r.wr then rg else [])
  orderSO (ps.map fun p => va + BitVec.ofNat 64 (8 * p.1))
  pure (va, ps)

/-- The words of the lanes, read in order. -/
def loadLanes : List (Nat × Place) → Eff (List (Nat × GWord))
  | [] => pure []
  | (i, p) :: t => do
    let w ← loadPlace p
    let rest ← loadLanes t
    pure ((i, w) :: rest)

/-- `vldm` (R200): words and gloves move unchanged. -/
def execVldm (g : BitVec 4) (d : BitVec 5) (b : BitVec 4) (o : BitVec 6) (m t : BitVec 3) (s : State) :
    Host.Outcome State Fault Refusal :=
  runE .V g (do
    let p ← vmPlan Rights.load (typeOf t) b o m
    putLanes d.toNat (← loadLanes p.2)) s

/-- Store the lanes of a `vstm` that lie in this package's own spaces; answer the others with window, offset and word. -/
def storeLanes (d : Nat) (va : BitVec 64) : List (Nat × Place) → Eff (List (Nat × Nat × GWord))
  | [] => pure []
  | (i, p) :: t => do
    let u ← getTile
    let w := u.getV d i
    match p with
    | .remote k off => do
      let rest ← storeLanes d va t
      pure ((k, off, w) :: rest)
    | p => do
      storePlace p w
      storeLanes d va t

/-- Mark the windows whose open generation now holds counted `vstm` words (R287). -/
def Tile.markVstm (t : Tile) (sel : Nat → Bool) : Tile :=
  { t with wins := t.wins.map fun q => if sel q.1 then (q.1, { q.2 with vstm := true }) else q }

/-- `vstm` (R200, R280, R283): every active lane is settled before any word is written; words to a window are posted, counted
where its span is open. -/
def execVstm (g : BitVec 4) (d : BitVec 5) (b : BitVec 4) (o : BitVec 6) (m t : BitVec 3) (s : State) :
    Host.Outcome State Fault Refusal :=
  runEHold .V g (sendHold .V (fun _ => true) (do
    let p ← vmPlan Rights.store (typeOf t) b o m
    let q ← getTile
    waitUnless (!(p.2.any fun x => match x.2 with | .remote w _ => q.sendsLater s.cur w | _ => false))
    let far ← storeLanes d.toNat p.1 p.2
    let u ← getTile
    let counted := fun w => decide ((u.win? w).map (·.st) = some .open)
    postBlocks t.toNat (groupBlocks far)
    let sent := fun w => counted w && far.any fun x => decide (x.1 = w)
    modTile (·.markVstm sent)
    pure far.isEmpty)) s

end Sys2Proof.Machine
end

