-- ==== Sys2Proof/Machine/Matrix.lean ====
section
/-!
DEFINITION. The M engine (R205 to R219): the nest table, drains and loads of the accumulators, and the running nest with its body
steps, holds and late faults.
-/

namespace Sys2Proof.Machine

/-! ## The nest table (R205, R206) -/

/-- The six levels. -/
def levels : List Nat := List.range 6

/-- COUNT of a level. -/
def NestTab.countOf (n : NestTab) (l : Nat) : Nat := mapGet 1 n.count l

/-- KIND of a level: 0 K, 1 OUT, 2 SKIP. -/
def NestTab.kindOf (n : NestTab) (l : Nat) : Nat := mapGet 2 n.kind l

/-- A stride as a signed number of bytes. -/
def strideOf (m : SMap (BitVec 64)) (l : Nat) : Int := (mapGet 0#64 m l).toInt

/-- Last active row. -/
def NestTab.mr (n : NestTab) : Nat := bits n.nfmt 8 0

/-- Last active column. -/
def NestTab.nc (n : NestTab) : Nat := bits n.nfmt 16 9

/-- Format of auto-drain. -/
def NestTab.cfmt (n : NestTab) : Fmt := (fmtOfCode (bits n.nfmt 21 18)).getD .fp32

/-- Rounding mode of auto-drain. -/
def NestTab.rm (n : NestTab) : Rm := (rmOfCode (bits n.nfmt 24 22)).getD .rne

/-- Saturation code of auto-drain. -/
def NestTab.sat (n : NestTab) : Nat := bits n.nfmt 26 25

/-- Displacement in bytes of A's block scales from the panel. -/
def NestTab.sda (n : NestTab) : Int := 64 * signedOf 16 (bits n.nfmt 47 32)

/-- Displacement in bytes of B's block scales from the panel. -/
def NestTab.sdb (n : NestTab) : Int := 64 * signedOf 16 (bits n.nfmt 63 48)

/-- The formats a drain writes (R206, R217). -/
def drainFmt (f : Fmt) : Bool := decide (f = .fp32 ∨ f = .bf16 ∨ f = .e4m3 ∨ f = .e5m2)

/-- Change the shadow table with the value of a c register that a test accepts; NEST where it does not (R205). -/
def shadowWord (g cs : BitVec 4) (good : BitVec 64 → Bool) (f : BitVec 64 → NestTab → NestTab) (s : State) :
    Host.Outcome State Fault Refusal :=
  runE .M g (do
    let v ← readC cs.toNat
    let t ← getTile
    raiseIf (!good v) cNEST 0 t.eM.pc
    modTile fun t => { t with shadow := f v t.shadow }) s

/-- `nset.count` (R205). -/
def execNsetCount (g : BitVec 4) (l : BitVec 3) (c : BitVec 4) (s : State) : Host.Outcome State Fault Refusal :=
  shadowWord g c (fun v => decide (1 ≤ bits v 16 0 ∧ bits v 16 0 ≤ 65536))
    (fun v n => { n with count := mapSet 1 n.count l.toNat (bits v 16 0) }) s

/-- A stride within its limits (R205). -/
def strideGood (v : BitVec 64) : Bool := decide (v.toNat % 8 = 0 ∧ -(2 ^ 23) ≤ v.toInt ∧ v.toInt ≤ 2 ^ 23 - 8)

/-- `nset.sa` (R205). -/
def execNsetSa (g : BitVec 4) (l : BitVec 3) (c : BitVec 4) (s : State) : Host.Outcome State Fault Refusal :=
  shadowWord g c strideGood (fun v n => { n with sa := mapSet 0#64 n.sa l.toNat v }) s

/-- `nset.sb` (R205). -/
def execNsetSb (g : BitVec 4) (l : BitVec 3) (c : BitVec 4) (s : State) : Host.Outcome State Fault Refusal :=
  shadowWord g c strideGood (fun v n => { n with sb := mapSet 0#64 n.sb l.toNat v }) s

/-- `nset.sc` (R205). -/
def execNsetSc (g : BitVec 4) (l : BitVec 3) (c : BitVec 4) (s : State) : Host.Outcome State Fault Refusal :=
  shadowWord g c strideGood (fun v n => { n with sc := mapSet 0#64 n.sc l.toNat v }) s

/-- `nset.kind` (R205). -/
def execNsetKind (g : BitVec 4) (l : BitVec 3) (c : BitVec 4) (s : State) : Host.Outcome State Fault Refusal :=
  shadowWord g c (fun v => decide (bits v 1 0 ≠ 3)) (fun v n => { n with kind := mapSet 2 n.kind l.toNat (bits v 1 0) }) s

/-- A base within its limits (R205). -/
def baseGood (v : BitVec 64) : Bool := decide (v.toNat < 2 ^ 32 ∧ v.toNat % 8 = 0)

/-- `nbase.a` (R205). -/
def execNbaseA (g c : BitVec 4) (s : State) : Host.Outcome State Fault Refusal :=
  shadowWord g c baseGood (fun v n => { n with abase := v.setWidth 32 }) s

/-- `nbase.b` (R205). -/
def execNbaseB (g c : BitVec 4) (s : State) : Host.Outcome State Fault Refusal :=
  shadowWord g c baseGood (fun v n => { n with bbase := v.setWidth 32 }) s

/-- `nbase.c` (R205). -/
def execNbaseC (g c : BitVec 4) (s : State) : Host.Outcome State Fault Refusal :=
  shadowWord g c baseGood (fun v n => { n with cbase := v.setWidth 32 }) s

/-- A format word within its limits (R206). -/
def nfmtGood (v : BitVec 64) : Bool :=
  decide (bits v 31 27 = 0) && !bit v 17 && ((fmtOfCode (bits v 21 18)).map drainFmt).getD false &&
    decide (bits v 8 0 ≤ 383) && (rmOfCode (bits v 24 22)).isSome && decide (bits v 26 25 ≠ 3)

/-- `nfmt` (R206). -/
def execNfmt (g c : BitVec 4) (s : State) : Host.Outcome State Fault Refusal :=
  shadowWord g c nfmtGood (fun v n => { n with nfmt := v }) s

/-! ## Regions of a nest and of a drain (R211, R217) -/

/-- Where a scratchpad interval lies: the owning tile, the start of its region and where the range checker puts that start; or
the first address outside (R95, R211). -/
def placeSpan (g : Nat) (own : Bool) (lo hi : Int) : Except Nat (Nat × Nat × Nat) :=
  if lo < 0 ∨ 2 ^ 32 ≤ lo then .error (lo % 2 ^ 32).toNat
  else
    let a := lo.toNat
    match spadPlace g a with
    | .own off => if (a - off : Int) + 0x200000 ≤ hi then .error (a - off + 0x200000) else .ok (g, a - off, 0)
    | .sibling k off =>
      if own then .error a
      else if (a - off : Int) + 0x200000 ≤ hi then .error (a - off + 0x200000) else .ok (k, a - off, a - off)
    | _ => .error a

/-- Least and greatest of a base plus the strides of some levels over all their iterations. -/
def spanLevels (n : NestTab) (m : SMap (BitVec 64)) (base : Int) (ls : List Nat) : Int × Int :=
  ls.foldl (fun p l =>
    let x := ((n.countOf l : Int) - 1) * strideOf m l
    (p.1 + min 0 x, p.2 + max 0 x)) (base, base)

/-- The innermost OUT level, the only one that drains (R210). -/
def NestTab.outLevel (n : NestTab) : Option Nat := levels.find? fun l => decide (n.kindOf l = 1)

/-- Words of a drained row that hold columns 0 to `nc`, at an element width (R217). -/
def rowWords (nc w : Nat) : Nat := ((nc + 1) * w + 63) / 64

/-- Bytes from a tile's start to the end of its last written word (R217). -/
def tileBytes (mr nc w : Nat) : Nat := mr * 32 * w + rowWords nc w * 8

/-- Bytes from a tile's start to the last byte of its last row, which takes its full pitch: a drain's and a load's range (R217, R218). -/
def rowBytes (mr w : Nat) : Nat := (mr + 1) * 32 * w

/-- The least of a list. -/
def least : List Nat → Option Nat
  | [] => none
  | x :: t => some (match least t with | some y => min x y | none => x)

/-- The first byte of drained tiles at own-scratchpad offsets that lies in a bank of neither the format nor RAW (R211, R217). -/
def refusedByte (t : Tile) (f : Fmt) (mr nc : Nat) (offs : List Nat) : Option Nat :=
  let bad := fun b => let x := (fmtOfCode (t.bank b).toNat).getD .raw; !decide (x = f ∨ x = .raw)
  let len := 8 * rowWords nc f.width
  least (offs.flatMap fun o => (List.range (mr + 1)).flatMap fun r =>
    let a := o + r * 32 * f.width
    (List.range ((a + len - 1) / 65536 + 1 - a / 65536)).filterMap fun k =>
      let b := a / 65536 + k
      if bad b then some (max a (b * 65536)) else none)

/-- The start of the first auto-drain, modulo 2^32 (R210): levels inside the draining one stand at their last iteration. -/
def drainBase (n : NestTab) (d : Nat) : Int :=
  (levels.filter (· < d)).foldl (fun a l => a + ((n.countOf l : Int) - 1) * strideOf n.sc l) (n.cbase.toNat : Int) % 2 ^ 32

/-- The starts of every auto-drain (R210). -/
def drainStarts (n : NestTab) (d : Nat) : List Int :=
  (levels.filter fun l => d ≤ l && decide (strideOf n.sc l ≠ 0)).foldl
    (fun os l => os.flatMap fun o => (List.range (n.countOf l)).map fun (i : Nat) => o + (i : Int) * strideOf n.sc l) [drainBase n d]

/-- The interval of one operand of a nest with its scales (R211): panel and scale bytes over every visit. -/
def operandSpan (n : NestTab) (m : SMap (BitVec 64)) (base : BitVec 32) (panel scale : Nat) (disp : Int) : Int × Int :=
  let p := spanLevels n m base.toNat levels
  (min p.1 (p.1 + disp), max (p.2 + panel - 1) (p.2 + disp + scale - 1))

/-- The interval of a nest's drained bytes (R211). A step between drains is shorter than what lies outside the own scratchpad, so no
drain comes back into it round the end of scratchpad space without one that lies outside. -/
def targetSpan (n : NestTab) (d : Nat) : Int × Int :=
  let p := spanLevels n n.sc (drainBase n d) (levels.filter (d ≤ ·))
  (p.1, p.2 + tileBytes n.mr n.nc n.cfmt.width - 1)

/-- The first addresses outside of the spans that lie in no region. -/
def spanFaults : List (Except Nat (Nat × Nat × Nat)) → List Nat
  | [] => []
  | .error a :: t => a :: spanFaults t
  | .ok _ :: t => spanFaults t

/-- A span as the range checker sees it (R66). -/
def checkedSpan (p : Int × Int) : Except Nat (Nat × Nat × Nat) → List (Nat × Nat)
  | .ok (_, start, base) => [((p.1 - start + base).toNat, (p.2 - p.1 + 1).toNat)]
  | .error _ => []

/-- M waits until every earlier nest has completed (R212). -/
def waitNest : Eff Unit := do
  let t ← getTile
  waitUnless t.nest.isNone

/-- What names M's word in the scoreboard. -/
def refM : Eff WordRef := getsState (·.refOf .M)

/-- `ngo` (R210, R211). -/
def execNgo (g : BitVec 4) (s : State) : Host.Outcome State Fault Refusal :=
  runE .M g (do
    waitNest
    let t ← getTile
    let k ← curTile
    let n := t.shadow
    raiseIf (levels.any fun l => decide (n.kindOf l = 0) && decide (strideOf n.sc l ≠ 0)) cNEST 0 t.eM.pc
    let sa := operandSpan n n.sa n.abase 12288 3072 n.sda
    let sb := operandSpan n n.sb n.bbase 8192 2048 n.sdb
    let pa := placeSpan k false sa.1 sa.2
    let pb := placeSpan k false sb.1 sb.2
    let out := n.outLevel.map fun d => (targetSpan n d, placeSpan k true (targetSpan n d).1 (targetSpan n d).2)
    match least (spanFaults ([pa, pb] ++ out.toList.map (·.2))) with
    | some a => raise cDFLT 5 (BitVec.ofNat 64 a)
    | none => pure ()
    let bad := match n.outLevel, out with
      | some d, some (_, .ok (_, start, _)) =>
        (refusedByte t n.cfmt n.mr n.nc ((drainStarts n d).map fun (o : Int) => (o - (start : Int)).toNat)).map (· + start)
      | _, _ => none
    match bad with
    | some a => raise cFMT 0 (BitVec.ofNat 64 a)
    | none => pure ()
    let rd := spanOf (checkedSpan sa pa ++ checkedSpan sb pb)
    let wr := out.toList.flatMap fun x => checkedSpan x.1 x.2
    rangeCheck t.eM.pos rd wr
    let w ← refM
    modTile fun t => { t with active := t.shadow, nest := some ⟨w, [0, 0, 0, 0, 0, 0], rd, wr, 0, none, false⟩ }) s

/-! ## Accumulators, drains and loads (R217, R218) -/

/-- Accumulator of a row and column. -/
def Tile.accAt (t : Tile) (r j : Nat) : Nat := (mapGet 0#32 t.acc (256 * r + j)).toNat

/-- Write accumulators in order. -/
def setAccs (l : List (Nat × Nat × Nat)) (t : Tile) : Tile :=
  { t with acc := l.foldl (fun m x => mapSet 0#32 m (256 * x.1 + x.2.1) (BitVec.ofNat 32 x.2.2)) t.acc }

/-- The active rows and columns in row order. -/
def activePairs (mr nc : Nat) : List (Nat × Nat) :=
  (List.range (mr + 1)).flatMap fun r => (List.range (nc + 1)).map fun j => (r, j)

/-- Reserve the draws of E elements on M's counter under RS and answer the first block (R78, R217). -/
def reserveM (rm : Rm) (e : Nat) : Eff (BitVec 64) := do
  let t ← getTile
  if rm = .rs then modTile fun t => { t with nrsM := t.nrsM + BitVec.ofNat 64 ((e + 3) / 4) }
  pure t.nrsM

/-- A drain of the active accumulators to an own-scratchpad offset (R217): words that hold a written element are written whole,
their elements above the last column +0. -/
def drainTo (off : Nat) (f : Fmt) (rm : Rm) (sat mr nc : Nat) (band : Option (List FVal)) : Eff Unit := do
  let first ← reserveM rm ((mr + 1) * (nc + 1))
  let q := 64 / f.width
  modTile fun t =>
    let elem := fun r j =>
      let x := elemValue .fp32 (t.accAt r j)
      let y := match band with | some b => x.mul (b.getD (r / 64) (.fin false 0 0)) | none => x
      toFloat f rm sat (rsDraw t.wid first 2 (r * (nc + 1) + j)) y
    let ws := (List.range (mr + 1)).flatMap fun r => (List.range (rowWords nc f.width)).map fun k =>
      (off + r * 32 * f.width + 8 * k, gloved (wordOf f.width fun i => if k * q + i ≤ nc then elem r (k * q + i) else 0))
    { t with spad := ws.foldl (fun m x => m.write x.1 x.2) t.spad }

/-- `ndrain` (R217). -/
def execNdrain (g c f : BitVec 4) (r : BitVec 3) (st : BitVec 2) (b : BitVec 4) (s : State) :
    Host.Outcome State Fault Refusal :=
  runE .M g (do
    waitNest
    let k ← curTile
    let cs ← readC c.toNat
    let cb ← readC b.toNat
    let t ← getTile
    let fm := (fmtOfCode f.toNat).getD .raw
    let n := t.shadow
    let band := bit cb 32
    raiseIf (decide (bits cs 63 32 ≠ 0 ∨ bits cb 63 33 ≠ 0) || (!band && decide (bits cb 31 0 ≠ 0))) cNEST 0 t.eM.pc
    let a := bits cs 31 0
    let ba := bits cb 31 0
    raiseIf (decide (a % 8 ≠ 0)) cALIGN 0 (BitVec.ofNat 64 a)
    raiseIf (band && decide (ba % 8 ≠ 0)) cALIGN 0 (BitVec.ofNat 64 ba)
    let sp : Int × Int := (a, (a : Int) + tileBytes n.mr n.nc fm.width - 1)
    let bp : Int × Int := (ba, (ba : Int) + 15)
    let p := placeSpan k true sp.1 sp.2
    let q := placeSpan k true bp.1 bp.2
    match least (spanFaults (p :: if band then [q] else [])) with
    | some x => raise cDFLT 5 (BitVec.ofNat 64 x)
    | none => pure ()
    raiseIf (!drainFmt fm) cFMT 0 t.eM.pc
    let off := ((checkedSpan sp p).head?.map (·.1)).getD 0
    let boff := ((checkedSpan bp q).head?.map (·.1)).getD 0
    match refusedByte t fm n.mr n.nc [off] with
    | some x => raise cFMT 0 (BitVec.ofNat 64 (a + (x - off)))
    | none => pure ()
    if band then
      match [0, 8].find? fun o => let y := (fmtOfCode (t.bankOf (boff + o))).getD .raw; !decide (y = .bf16 ∨ y = .raw) with
      | some o => raise cFMT 0 (BitVec.ofNat 64 (ba + o))
      | none => pure ()
    rangeCheck t.eM.pos (if band then [(boff, 16)] else []) [(off, rowBytes n.mr fm.width)]
    let scales ← (if band then do
        let x ← check (t.spad.read boff) (BitVec.ofNat 64 ba)
        let y ← check (t.spad.read (boff + 8)) (BitVec.ofNat 64 (ba + 8))
        return some ((List.range 6).map fun i => elemValue .bf16 (if i < 4 then elemOf 16 x i else elemOf 16 y (i - 4)))
      else pure none : Eff (Option (List FVal)))
    drainTo off fm ((rmOfCode r.toNat).getD .rne) st.toNat n.mr n.nc scales) s

/-- `nzero` (R218). -/
def execNzero (g : BitVec 4) (s : State) : Host.Outcome State Fault Refusal :=
  runE .M g (do
    waitNest
    modTile fun t => { t with acc := [] }) s

/-- The words of the active rows of a tile in the own scratchpad, checked in order, with row and word number (R218). -/
def loadRows (off a pitch : Nat) : List (Nat × Nat) → Eff (List (Nat × Nat × BitVec 64))
  | [] => pure []
  | (r, k) :: rest => do
    let t ← getTile
    let o := r * pitch + 8 * k
    let x ← check (t.spad.read (off + o)) (BitVec.ofNat 64 (a + o))
    let l ← loadRows off a pitch rest
    pure ((r, k, x) :: l)

/-- `nload` (R218). -/
def execNload (g c f : BitVec 4) (s : State) : Host.Outcome State Fault Refusal :=
  runE .M g (do
    waitNest
    let k ← curTile
    let cs ← readC c.toNat
    let t ← getTile
    let fm := (fmtOfCode f.toNat).getD .raw
    let n := t.shadow
    raiseIf (decide (bits cs 63 32 ≠ 0)) cNEST 0 t.eM.pc
    let a := bits cs 31 0
    raiseIf (decide (a % 8 ≠ 0)) cALIGN 0 (BitVec.ofNat 64 a)
    let sp : Int × Int := (a, (a : Int) + tileBytes n.mr n.nc fm.width - 1)
    let p := placeSpan k true sp.1 sp.2
    match least (spanFaults [p]) with
    | some x => raise cDFLT 5 (BitVec.ofNat 64 x)
    | none => pure ()
    raiseIf (!decide (fm = .fp32 ∨ fm = .bf16)) cFMT 0 t.eM.pc
    let off := ((checkedSpan sp p).head?.map (·.1)).getD 0
    match refusedByte t fm n.mr n.nc [off] with
    | some x => raise cFMT 0 (BitVec.ofNat 64 (a + (x - off)))
    | none => pure ()
    rangeCheck t.eM.pos [(off, rowBytes n.mr fm.width)] []
    let q := 64 / fm.width
    let ws ← loadRows off a (32 * fm.width)
      ((List.range (n.mr + 1)).flatMap fun r => (List.range (rowWords n.nc fm.width)).map fun k => (r, k))
    modTile (setAccs (ws.flatMap fun x => (List.range q).filterMap fun i =>
      let j := x.2.1 * q + i
      if j ≤ n.nc then some (x.1, j, toFloat .fp32 .rne 0 0 (elemValue fm (elemOf fm.width x.2.2 i))) else none))) s

/-- `nwait` (R219): the record is posted by NWAIT_POST. -/
def execNwait (g : BitVec 4) (tag : BitVec 9) (s : State) : Host.Outcome State Fault Refusal :=
  runE .M g (do
    waitNest
    let w ← refM
    modTile fun t => { t with nwaits := t.nwaits ++ [(w, tag.toNat, t.nsteps % 2 ^ 32)], nsteps := 0 }) s

/-! ## The running nest (R207 to R210, R214, R215) -/

/-- The family of operands a bank format gives (R208): 0 FP8, 1 BF16, 2 E2M1. -/
def familyOf : Fmt → Option Nat
  | .e4m3 => some 0
  | .e5m2 => some 0
  | .bf16 => some 1
  | .e2m1 => some 2
  | _ => none

/-- k of a k-group (R207). -/
def groupOf (fam : Nat) : Nat := match fam with | 0 => 32 | 1 => 16 | _ => 64

/-- Element width of a family. -/
def familyWidth (fam : Nat) : Nat := match fam with | 0 => 8 | 1 => 16 | _ => 4

/-- A sibling's scratchpad cannot answer for the moment (R214): its context is saved or restored, or its tile is gated. -/
def State.siblingClosed (s : State) (k : Nat) : Bool := (s.tileAt k).cut.isSome || s.gatedTile k

/-- Reach an operand word of a nest: its owner and offset (R214, R215). -/
def operandWord (sa : Nat) : Eff (Nat × Nat) := do
  let g ← curTile
  let t ← getTile
  match spadPlace g sa with
  | .own off => pure (g, off)
  | .sibling k off =>
    waitUnless (!(← getsState (·.siblingClosed k)))
    match ← getsState (portVerdict · k (classSV t) false) with
    | .ok => pure (k, off)
    | .refused => raise cDFLT 3 (BitVec.ofNat 64 sa)
    | .held => waitWord
  | _ => raise cDFLT 5 (BitVec.ofNat 64 sa)

/-- Fetch operand words by word number from a panel start, each accepted by its own bank's format and checked (R207, R208). -/
def fetchWords (a : Nat) (ok : Fmt → Bool) : List Nat → Eff (SMap (BitVec 64))
  | [] => pure []
  | k :: t => do
    let sa := (a + 8 * k) % 2 ^ 32
    let p ← operandWord sa
    let f ← getsState (·.bankFmt p.1 p.2)
    raiseIf (!ok f) cFMT 0 (BitVec.ofNat 64 sa)
    let w ← getsState fun s => (s.tileAt p.1).spad.read p.2
    let x ← check w (BitVec.ofNat 64 sa)
    let rest ← fetchWords a ok t
    pure ((k, x) :: rest)

/-- The word numbers of a panel of `lines` lines of `pitch` elements that hold one of the first `n` elements of a line. -/
def panelWords (lines pitch n w : Nat) : List Nat :=
  dedup ((List.range lines).flatMap fun l =>
    (List.range (((l * pitch + n - 1) * w) / 64 + 1 - l * pitch * w / 64)).map (· + l * pitch * w / 64))

/-- The exact value of an element of a panel under the format of its own word's bank. -/
def panelValue (s : State) (g a w : Nat) (ws : SMap (BitVec 64)) (e : Nat) : FVal :=
  let k := e * w / 64
  let sa := (a + 8 * k) % 2 ^ 32
  let f := match spadPlace g sa with
    | .own off => s.bankFmt g off
    | .sibling h off => s.bankFmt h off
    | _ => .raw
  elemValue f (elemOf w (mapGet 0#64 ws k) (e - k * (64 / w)))

/-- The exact sum of a k-group (R85, R209): E2M1 products are summed by blocks of 8 and scaled. -/
def groupSum (fam : Nat) (x y : Nat → FVal) (sx sy : Nat → FVal) : FVal :=
  if fam = 2 then
    exactSum ((List.range 8).map fun bb =>
      ((exactSum ((List.range 8).map fun i => (x (8 * bb + i)).mul (y (8 * bb + i)))).mul ((sx bb).mul (sy bb))))
  else exactSum ((List.range (groupOf fam)).map fun kk => (x kk).mul (y kk))

/-- One body step on panels `a` and `b` (R209). -/
def bodyStep (n : NestTab) (a b : Nat) : Eff Unit := do
  let g ← curTile
  let p ← operandWord a
  let f0 ← getsState (·.bankFmt p.1 p.2)
  match familyOf f0 with
  | none => raise cFMT 0 (BitVec.ofNat 64 a)
  | some fam => do
    let w := familyWidth fam
    let k := groupOf fam
    let ok := fun f => decide (familyOf f = some fam)
    let aw ← fetchWords a ok (panelWords k 384 (n.mr + 1) w)
    let bw ← fetchWords b ok (panelWords k 256 (n.nc + 1) w)
    let asc := ((a : Int) + n.sda) % 2 ^ 32 |>.toNat
    let bsc := ((b : Int) + n.sdb) % 2 ^ 32 |>.toNat
    let scaleOk := fun f => decide (f = .e3m5)
    let sa ← if fam = 2 then fetchWords asc scaleOk (panelWords 8 384 (n.mr + 1) 8) else pure []
    let sb ← if fam = 2 then fetchWords bsc scaleOk (panelWords 8 256 (n.nc + 1) 8) else pure []
    let s ← getsState id
    let t ← getTile
    modTile (setAccs ((activePairs n.mr n.nc).map fun rj =>
      let sum := groupSum fam (fun kk => panelValue s g a w aw (kk * 384 + rj.1)) (fun kk => panelValue s g b w bw (kk * 256 + rj.2))
        (fun bb => elemValue .e3m5 (elemIn 8 sa (bb * 384 + rj.1))) (fun bb => elemValue .e3m5 (elemIn 8 sb (bb * 256 + rj.2)))
      (rj.1, rj.2, roundNearest .fp32 (exactSum [elemValue .fp32 (t.accAt rj.1 rj.2), sum]))))

/-- The address of a visit (R210). -/
def visitAddr (base : BitVec 32) (m : SMap (BitVec 64)) (idx : List Nat) : Nat :=
  (levels.foldl (fun a l => a + (idx.getD l 0 : Int) * strideOf m l) (base.toNat : Int)) % 2 ^ 32 |>.toNat

/-- The indices of the next visit, level 0 fastest; none after the last (R210). -/
def nextVisit : List Nat → List Nat → Option (List Nat)
  | c :: cs, i :: is => if i + 1 < c then some ((i + 1) :: is) else (nextVisit cs is).map (0 :: ·)
  | _, _ => none

/-- A visit: its body step, then the drain where the innermost OUT level's iteration ends (R210). -/
def visit (n : NestTab) (idx : List Nat) : Eff Unit := do
  let g ← curTile
  bodyStep n (visitAddr n.abase n.sa idx) (visitAddr n.bbase n.sb idx)
  match n.outLevel with
  | some d =>
    if (levels.filter (· < d)).all fun l => decide (idx.getD l 0 + 1 = n.countOf l) then do
      let c := visitAddr n.cbase n.sc idx
      let off := match spadPlace g c with | .own o => o | _ => c
      drainTo off n.cfmt n.rm n.sat n.mr n.nc none
      modTile fun t => { t with acc := [] }
  | none => pure ()

/-- Perform the nest's next visit: it goes on, is held, or ends at the step boundary with a late fault (R214, R215). -/
def nestStep (g : Nat) (n : NestRun) (s : State) : State :=
  let s := { s with cur := g }
  let t := s.tileAt g
  match (visit t.active n.idx).run s with
  | .ok (_, s) =>
    let t := s.tileAt g
    s.setTileAt g { t with
      nsteps := t.nsteps + 1,
      nest := (nextVisit (levels.map t.active.countOf) n.idx).map fun i => { n with idx := i, steps := n.steps + 1, hold := none } }
  | .error (.trap i logs) =>
    let s := logErrors logs s
    let t := s.tileAt g
    s.setTileAt g { t.lateFault i n.ref with nest := some { n with faulted := true, hold := none } }
  | .error _ => s.setTileAt g { t with nest := some { n with hold := some (n.hold.getD s.ftb) } }

/-- NEST_BODY_STEP (R209, R210). -/
def execNestBodyStep (g : Nat) (s : State) : Host.Outcome State Fault Refusal :=
  let t := s.tileAt g
  match t.nest with
  | some n => if t.works ∧ ¬ n.faulted ∧ n.hold = none then .next (nestStep g n s) else .next s
  | none => .next s

/-- NEST_HOLD_RETRY (R214). -/
def execNestHoldRetry (g : Nat) (s : State) : Host.Outcome State Fault Refusal :=
  let t := s.tileAt g
  match t.nest with
  | some n => if t.works ∧ ¬ n.faulted ∧ n.hold.isSome then .next (nestStep g n s) else .next s
  | none => .next s

/-- The operand word that cannot be fetched for the moment: the first of the A panel or of the B panel (R211, R214). -/
def heldWord (g : Nat) (n : NestTab) (idx : List Nat) (s : State) : Option Nat :=
  [visitAddr n.abase n.sa idx, visitAddr n.bbase n.sb idx].find? fun a =>
    match (operandWord a).run { s with cur := g } with
    | .error .wait => true
    | _ => false

/-- NEST_HOLD_TIMEOUT (R215): 65,536 cycles after the hold began the nest ends with a late data fault at the word that still
cannot be fetched; the subcode of a refusal is used (log 14). -/
def execNestHoldTimeout (g : Nat) (s : State) : Host.Outcome State Fault Refusal :=
  let t := s.tileAt g
  match t.nest with
  | some n =>
    match n.hold, heldWord g t.active n.idx s with
    | some h, some a =>
      if t.works ∧ ¬ n.faulted then
        let s := if s.ftb - h < 65536#64 then s.until (h + 65536#64) else s
        .next (s.setTileAt g { t.lateFault ⟨cDFLT, 3, BitVec.ofNat 64 a, none⟩ n.ref with
          nest := some { n with faulted := true, hold := none } })
      else .next s
    | _, _ => .next s
  | none => .next s

/-- NWAIT_POST (R219, R64): M's record is posted unless M holds one already. -/
def execNwaitPost (g : Nat) (s : State) : Host.Outcome State Fault Refusal :=
  let t := s.tileAt g
  match t.nwaits with
  | w :: rest =>
    if t.works ∧ ¬ t.holds .M then
      .next ((s.setTileAt g { t with nwaits := rest }).postEvent g .M w.1.idx ⟨eventWord 2 w.2.1 0 w.2.2, []⟩)
    else .next s
  | [] => .next s

end Sys2Proof.Machine
end

