-- ==== Sys2Proof/Machine/DataCopy.lean ====
section
/-!
DEFINITION. The D engine's copies, gathers, scatters and fills (R220 to R227, R75, R284), the commands in flight (R225) and
`devt` (R228).
-/

namespace Sys2Proof.Machine

/-! ## Registers and places of D -/

/-- Read a D control register as a consuming lane does; the value comes back gloved (R61, R220). -/
def readDcr (r : Nat) : Eff GWord := do
  let t ← getTile
  return gloved (← check (dcrGet t.dcr r) (regCode 8 r))

/-- A PITCH as a signed number of bytes. -/
def pitchOf (w : GWord) : Int := signedOf 32 (bits w.data 31 0)

/-- What names D's word in the scoreboard. -/
def refD : Eff WordRef := getsState (·.refOf .D)

/-- The physical place of a doubleword of memory for D, with D's translation and rights (R223, R379). -/
def dPlace (va : BitVec 64) (r : Rights) : Eff Place := do
  raiseIf (!canonical va) cDFLT 4 va
  raiseIf (inAperture va) cDFLT 5 va
  let t ← getTile
  let g ← curTile
  let x ← translate cDFLT va va
  let pa := physOf x.1 va
  withLogs x.2 (do
    raiseIf (!pageAllows x.1 t.side r.rd r.wr r.fx) cDFLT 2 va
    match ← getsState (accessVerdict · (classD t) (g / 16) pa r) with
    | .ok => pure ()
    | .refused => raise cDFLT 3 va
    | .held => waitWord
    match targetOf pa with
    | .hbm _ _ => pure (.hbm pa 0 false)
    | .reg d off => pure (.reg d off)
    | .nothing => raise cDFLT 3 va)

/-- Read a doubleword of memory for D. -/
def dRead (va : BitVec 64) : Eff GWord := do loadPlace (← dPlace va Rights.load)

/-- Write a doubleword of memory for D; the physical range written (R110). -/
def dWrite (va : BitVec 64) (w : GWord) : Eff (List (Nat × Nat)) := do
  match ← dPlace va Rights.store with
  | .hbm pa _ _ =>
    modState fun s => { s with mem := s.mem.write pa w }
    pure [(pa / 8 * 8, 8)]
  | p =>
    storePlace p w
    pure []

/-- The tile and offset of a scratchpad-space address for D; a sibling's port table decides (R384). -/
def dSpad (sa : Nat) (wr : Bool) : Eff (Nat × Nat) := do
  let g ← curTile
  let t ← getTile
  match spadPlace g sa with
  | .own off => pure (g, off)
  | .sibling k off =>
    match ← getsState (portVerdict · k (classD t) wr) with
    | .ok => pure (k, off)
    | .refused => raise cDFLT 3 (BitVec.ofNat 64 sa)
    | .held => waitWord
  | _ => raise cDFLT 5 (BitVec.ofNat 64 sa)

/-- The physical intervals of a range of virtual memory, page by 4 KiB, where it translates now (R100). -/
def State.physRanges (s : State) (g : Nat) (va len : Nat) : List (Nat × Nat) :=
  if len = 0 then []
  else
    (List.range ((va + len - 1) / 4096 + 1 - va / 4096)).filterMap fun k =>
      let p := va / 4096 + k
      let lo := max va (p * 4096)
      let hi := min (va + len) ((p + 1) * 4096)
      let a := BitVec.ofNat 64 lo
      let at' := fun (e : TlbEntry) => some (physOf e a, hi - lo)
      match tlbFind (s.tileAt g).side a.toNat (s.tileAt g).tlb with
      | some e => at' e
      | none => match s.walk g a with | .leaf e _ => at' e | _ => none

/-- Issue of a D command: dirty RC lines that its memory ranges meet are written back (R100, R110). -/
def issueWriteBack (g : Nat) (rs : List (Nat × Nat)) (s : State) : State :=
  s.writeBack g fun k l => !l.uo && lineMeets k rs

/-- D can issue: fewer than 64 commands are in flight (R225). -/
def waitRoom : Eff Unit := do
  let t ← getTile
  waitUnless (decide (t.dcmds.length < 64))

/-- Put a command in flight. -/
def launchD (c : DCmd) : Eff Unit := modTile fun t => { t with dcmds := t.dcmds ++ [c] }

/-! ## The shape of a copy (R222, R226) -/

/-- L of the descriptor. -/
def DCmd.len (c : DCmd) : Nat := bits c.desc.data 31 0

/-- Width of an element on the memory or scratchpad side. -/
def codeWidth (f : Nat) : Nat := ((fmtOfCode f).getD .raw).width

/-- Element widths of source and destination; 64 where words move. -/
def DCmd.widths (c : DCmd) : Nat × Nat :=
  match c.conv with
  | some (a, b) => (codeWidth a, codeWidth b)
  | none => (64, 64)

/-- A copy that expands a delta stream (R75). -/
def DCmd.isDelta (c : DCmd) : Bool := decide (c.conv.map (·.1) = some 9)

/-- Extents of dimensions 1 to 3. -/
def DCmd.extents (c : DCmd) : Nat × Nat × Nat :=
  let n := fun d r => if d then bits (dcrGet c.dcr r).data 16 0 else 1
  match c.kind with
  | .copy nd => (n (decide (1 ≤ nd)) 2, n (decide (2 ≤ nd)) 5, n (decide (3 ≤ nd)) 8)
  | _ => (1, 1, 1)

/-- The rows of a gather or scatter: place in the list and index, skipped entries left out (R226). -/
def listedRows (l : List Nat) : List (Nat × Nat) :=
  ((List.range l.length).zip l).filter fun p => decide (p.2 ≠ 0xFFFFFFFF)

/-- Number of rows. -/
def DCmd.rows (c : DCmd) : Nat :=
  match c.kind with
  | .copy _ => c.extents.1 * c.extents.2.1 * c.extents.2.2
  | .gather => (listedRows c.idx).length
  | .scatter => (listedRows c.idx).length
  | _ => 1

/-- Source and destination of row `i`, and the number of its first element, in loop order (R222, R226). -/
def DCmd.row (c : DCmd) (i : Nat) : Int × Int × Nat :=
  let s : Int := c.aA.data.toNat
  let d : Int := c.aD.data.toNat
  let p := fun r => pitchOf (dcrGet c.dcr r)
  match c.kind with
  | .copy nd =>
    let (n1, n2, _) := c.extents
    let i1 : Int := (i % n1 : Nat)
    let i2 : Int := (i / n1 % n2 : Nat)
    let i3 : Int := (i / (n1 * n2) : Nat)
    let k := fun d x => if d then x else 0
    (s + k (decide (1 ≤ nd)) (i1 * p 0) + k (decide (2 ≤ nd)) (i2 * p 3) + k (decide (3 ≤ nd)) (i3 * p 6),
     d + k (decide (1 ≤ nd)) (i1 * p 1) + k (decide (2 ≤ nd)) (i2 * p 4) + k (decide (3 ≤ nd)) (i3 * p 7), i * c.len)
  | .gather =>
    let r := (listedRows c.idx).getD i (0, 0)
    (s + (r.2 : Int) * p 0, d + (r.1 : Int) * p 1, r.1 * c.len)
  | .scatter =>
    let r := (listedRows c.idx).getD i (0, 0)
    (s + (r.1 : Int) * p 0, d + (r.2 : Int) * p 1, r.1 * c.len)
  | _ => (s, d, 0)

/-- Source words, destination words and elements of the smallest unit a copy moves whole. -/
def DCmd.unit (c : DCmd) : Nat × Nat × Nat :=
  let (a, b) := c.widths
  (max 1 (a / b), max 1 (b / a), 64 / min a b)

/-- Units in a row. -/
def DCmd.unitsPerRow (c : DCmd) : Nat := c.len * c.widths.2 / 64 / c.unit.2.1

/-- Bytes of a row on the source and on the destination side. -/
def DCmd.rowBytes (c : DCmd) : Nat × Nat := (c.len * c.widths.1 / 8, c.len * c.widths.2 / 8)

/-- Whether the row at an indexed scratchpad side lies in the region of its base; else its first address outside (R226). -/
def rowOutside (g base a bytes : Nat) : Option Nat :=
  let start := match spadPlace g base with
    | .own off => base - off
    | .sibling _ off => base - off
    | .window _ off => base - off
    | .unmapped => base
  if a < start ∨ start + 0x200000 ≤ a then some a
  else if start + 0x200000 < a + bytes then some (start + 0x200000) else none

/-- The first row of a gather or scatter that leaves the region of its base: how many rows come before it, and its first address
outside (R226). -/
def DCmd.badRow (c : DCmd) (g : Nat) : Option (Nat × Nat) :=
  let look := fun (side : Nat → Int) (base : GWord) (bytes : Nat) =>
    ((List.range c.rows).filterMap fun i =>
      (rowOutside g (base.data.toNat % 2 ^ 32) (side i % 2 ^ 32).toNat bytes).map fun a => (i, a)).head?
  if c.len = 0 then none
  else match c.kind with
    | .gather => if c.kindOf = 0 then none else look (fun i => (c.row i).1) c.aA c.rowBytes.1
    | .scatter => if c.kindOf = 1 then none else look (fun i => (c.row i).2.1) c.aD c.rowBytes.2
    | _ => none

/-- Units of the whole command, up to a row that leaves its region. -/
def DCmd.units (c : DCmd) (g : Nat) : Nat := ((c.badRow g).map (·.1)).getD c.rows * c.unitsPerRow

/-- Units in a piece: 262,144 destination bytes (R225). -/
def DCmd.pieceUnits (c : DCmd) : Nat := 32768 / c.unit.2.1

/-- Pieces of the command (R225). -/
def DCmd.pieces (c : DCmd) (g : Nat) : Nat :=
  if c.isDelta then (c.len / 8 + 32767) / 32768 else (c.units g + c.pieceUnits - 1) / c.pieceUnits

/-! ## Moving a piece -/

/-- The memory side of a KIND is the source, or the destination. -/
def DCmd.srcMem (c : DCmd) : Bool := decide (c.kindOf = 0) && !decide (c.kind = .fill)

/-- The destination is memory. -/
def DCmd.dstMem (c : DCmd) : Bool := decide (c.kindOf = 1)

/-- Read a source word with the bank format it carries (R280). -/
def DCmd.readWord (c : DCmd) (a : Int) : Eff (GWord × Nat) := do
  if c.srcMem then return (← dRead (BitVec.ofInt 64 a), 15)
  let p ← dSpad (a % 2 ^ 32).toNat false
  let s ← getsState id
  return ((s.tileAt p.1).spad.read p.2, s.spadFmt p.1 p.2)

/-- A source word as a converting copy consumes it (R91, R223). -/
def DCmd.readChecked (c : DCmd) (a : Int) : Eff (BitVec 64) := do
  let w ← c.readWord a
  check w.1 (if c.srcMem then BitVec.ofInt 64 a else BitVec.ofInt 64 (a % 2 ^ 32))

/-- Read several source words in order. -/
def DCmd.readSome (c : DCmd) (a : Int) : Nat → Nat → Eff (SMap (BitVec 64))
  | 0, _ => pure []
  | n + 1, k => do
    let x ← c.readChecked (a + 8 * k)
    let rest ← c.readSome a n (k + 1)
    pure ((k, x) :: rest)

/-- Write a destination word of memory or scratchpad; the physical range written. -/
def DCmd.writeWord (c : DCmd) (a : Int) (w : GWord) : Eff (List (Nat × Nat)) := do
  if c.dstMem then dWrite (BitVec.ofInt 64 a) w
  else do
    let p ← dSpad (a % 2 ^ 32).toNat true
    modState (·.writeSpad p.1 p.2 w)
    pure []

/-- Write several destination words in order. -/
def DCmd.writeSome (c : DCmd) (a : Int) : List GWord → Eff (List (Nat × Nat))
  | [] => pure []
  | w :: t => do
    let r ← c.writeWord a w
    let rest ← c.writeSome (a + 8) t
    pure (r ++ rest)

/-- The words of unit `u`, with the address they go to and, where they move unchanged, the format they carry (R222). -/
def DCmd.unitWords (c : DCmd) (wid : BitVec 64) (u : Nat) : Eff (Int × List GWord × Nat) := do
  let r := c.row (u / c.unitsPerRow)
  let v := u % c.unitsPerRow
  let (us, ud, ue) := c.unit
  let src := r.1 + 8 * (v * us : Nat)
  let dst := r.2.1 + 8 * (v * ud : Nat)
  match c.kind, c.conv with
  | .fill, _ => return (dst, [c.aA], 15)
  | _, some (fa, fb) => do
    let ws ← c.readSome src us 0
    let (wa, wb) := c.widths
    let f := (fmtOfCode fa).getD .raw
    let h := (fmtOfCode fb).getD .raw
    let rm := (rmOfCode (bits (c.f9.setWidth 64) 4 2)).getD .rne
    let sat := bits (c.f9.setWidth 64) 1 1
    let out := (List.range ud).map fun k => gloved (wordOf wb fun j =>
      let e := k * (64 / wb) + j
      convertElem f h rm sat (rsDraw wid c.nrs 3 (r.2.2 + v * ue + e)) (elemIn wa ws e))
    return (dst, out, fb)
  | _, none => do
    let w ← c.readWord src
    return (dst, [w.1], w.2)

/-- What a run of units comes to: the state, bytes written, physical ranges written, and how it stopped. -/
structure Moved where
  s : State
  bytes : Nat
  ranges : List (Nat × Nat)
  stopped : Option Stop

/-- Join a range to the last of a list where it follows it. -/
def joinRange (l : List (Nat × Nat)) (r : Nat × Nat) : List (Nat × Nat) :=
  match l.reverse with
  | (a, n) :: t => if a + n = r.1 then (t.reverse) ++ [(a, n + r.2)] else l ++ [r]
  | [] => [r]

/-- Move units in order. What one of them has written stays written when a later one meets a fault (R223). -/
def moveUnits (c : DCmd) (wid : BitVec 64) : Nat → Nat → Moved → Moved
  | 0, _, m => m
  | n + 1, u, m =>
    let r := (do
      let x ← c.unitWords wid u
      let rs ← c.writeSome x.1 x.2.1
      pure (8 * x.2.1.length, rs) : Eff (Nat × List (Nat × Nat))).run m.s
    match r with
    | .ok ((b, rs), s) => moveUnits c wid n (u + 1) ⟨s, m.bytes + b, rs.foldl joinRange m.ranges, none⟩
    | .error e => { m with stopped := some e }

/-- The words of a run of units bound for a window, with target offset and carried format. -/
def windowUnits (c : DCmd) (wid : BitVec 64) : Nat → Nat → Eff (List (Nat × Nat × GWord))
  | 0, _ => pure []
  | n + 1, u => do
    let x ← c.unitWords wid u
    let rest ← windowUnits c wid n (u + 1)
    pure ((x.2.2, (x.1 % 2 ^ 32).toNat % 0x200000, x.2.1.headD GWord.zero) :: rest)

/-- Post words to window `w` in order; `fmt` is the format a packet's words carry, and neighbours of one format and block share a
packet (R278, R280). -/
def postFormats (w : Nat) (ctr : Option (Nat × Nat)) (add : Bool) : List (Nat × List (Nat × GWord)) → Eff Unit
  | [] => pure ()
  | (f, ws) :: t => do
    postBlock f ctr add w ws
    postFormats w ctr add t

/-- What a counted copy counts for: its generation, under the attempt in use for it; and whether its words raise the send count, which a
replay's do not (R283, R287). -/
def DCmd.counter (c : DCmd) (t : Tile) : Option (Nat × Nat) × Bool :=
  match c.window with
  | none => (none, false)
  | some (w, gen) =>
    match t.win? w with
    | none => (none, false)
    | some x => (some (gen, mapGet 0 x.atts gen), !x.awaits.any fun a => decide (a.gen = gen))

/-! ## The delta stream (R75) -/

/-- The next nibble of a stream at memory address `a`: the word read last is kept (R75). -/
def streamNibble (c : DCmd) (pos : Nat) (cur : Option (Nat × BitVec 64)) : Eff (Nat × Option (Nat × BitVec 64)) := do
  let k := pos / 16
  match cur with
  | some (j, x) =>
    if j = k then return (elemOf 4 x (pos % 16), cur)
    let x ← c.readChecked (c.aA.data.toNat + 8 * k)
    return (elemOf 4 x (pos % 16), some (k, x))
  | none => do
    let x ← c.readChecked (c.aA.data.toNat + 8 * k)
    return (elemOf 4 x (pos % 16), some (k, x))

/-- Decode block scales from nibble `pos` with predecessor `p`; false where the stream is in error. -/
def streamScales (c : DCmd) : Nat → Nat → Nat → Option (Nat × BitVec 64) → Eff (List Nat × Bool)
  | 0, _, _, _ => pure ([], true)
  | n + 1, pos, p, cur => do
    let (d, cur) ← streamNibble c pos cur
    if d = 8 then
      let (lo, cur) ← streamNibble c (pos + 1) cur
      let (hi, cur) ← streamNibble c (pos + 2) cur
      let (l, ok) ← streamScales c n (pos + 3) (lo + 16 * hi) cur
      return ((lo + 16 * hi) :: l, ok)
    else
      let x := (p : Int) + signedOf 4 d
      if x < 0 ∨ 255 < x then return ([], false)
      let (l, ok) ← streamScales c n (pos + 1) x.toNat cur
      return (x.toNat :: l, ok)

/-- One piece of a delta copy: whole words of the decoded scales; bytes written and whether the stream is good. The scales decoded before
a code that is out of range are written as far as they fill words; the spec does not say what becomes of a last word they fill in part
(DESIGN CHOICE, log 38). Nor does it say whether the decoder keeps its place and P from one piece to the next: a later piece decodes the
stream anew from its first nibble, and reads and checks those words again (DESIGN CHOICE, log 38). -/
def deltaPiece (c : DCmd) : Eff (Nat × Bool) := do
  let first := c.prog * 262144
  let total := min c.len (first + 262144)
  let (l, ok) ← streamScales c total 0 0x60 none
  let ws := ((List.range (l.length / 8)).filter (first / 8 ≤ ·)).map fun k =>
    (k, gloved (wordOf 8 fun j => l.getD (8 * k + j) 0))
  let rec go : List (Nat × GWord) → Eff Unit
    | [] => pure ()
    | (k, w) :: t => do
      let _ ← c.writeWord (c.aD.data.toNat + 8 * k) w
      go t
  go ws
  pure (8 * ws.length, ok)

/-! ## Issue (R221 to R223, R226, R227, R443) -/

/-- What a D copy word is: dimensions beyond the first, whether NDIM gives them, gather, scatter. -/
structure CopyForm where
  nd : Nat
  ndim : Bool
  gath : Bool
  scat : Bool
  deriving DecidableEq, Repr

/-- The scratchpad side of a copy as settled at issue: the tile or window its region belongs to, the region's start, the interval of
its bytes, and where the range checker puts the region's start. -/
structure SideSpan where
  isWin : Option Nat
  g : Nat
  start : Nat
  lo : Int
  hi : Int
  base : Nat

/-- Settle a scratchpad side (R95, R223): first address outside where it does not lie in one region. -/
def sideSpan (g : Nat) (win : Bool) (lo hi : Int) : Except Nat SideSpan :=
  if lo < 0 ∨ 2 ^ 32 ≤ lo then .error (lo % 2 ^ 32).toNat
  else
    let a := lo.toNat
    let fit := fun (w : Option Nat) (k start base : Nat) =>
      if (start : Int) + 0x200000 ≤ hi then Except.error (start + 0x200000) else .ok (⟨w, k, start, lo, hi, base⟩ : SideSpan)
    match spadPlace g a with
    | .own off => fit none g (a - off) 0
    | .sibling k off => fit none k (a - off) (a - off)
    | .window w off => if win then fit (some w) g (a - off) (a - off) else .error a
    | .unmapped => .error a

/-- The side's range for the range checker; empty where nothing moves. -/
def SideSpan.range (x : SideSpan) : List (Nat × Nat) :=
  if x.hi < x.lo then [] else [((x.lo - x.start).toNat + x.base, (x.hi - x.lo + 1).toNat)]

/-- Where a side's bytes would lie, whether or not one region holds them all: the sides of a KIND 2 copy may not meet (R223). -/
def sideBytes (g base : Nat) (lo hi : Int) : Option (Int × Int) :=
  if hi < lo then none
  else
    match spadPlace g base with
    | .own off => some (lo - (base : Int) + off, hi - (base : Int) + off)
    | .sibling _ _ => some (lo, hi)
    | _ => none

/-- Two sides meet. -/
def sidesMeet : Option (Int × Int) → Option (Int × Int) → Bool
  | some a, some b => decide (a.1 ≤ b.2 ∧ b.1 ≤ a.2)
  | _, _ => false

/-- The banks a side's interval meets: format code and the first address of the interval in the bank. -/
def SideSpan.banks (x : SideSpan) (s : State) : List (Nat × Nat) :=
  match x.isWin with
  | some _ => []
  | none =>
    if x.hi < x.lo then []
    else
      let lo := (x.lo - x.start).toNat
      let hi := (x.hi - x.start).toNat
      (List.range (hi / 65536 + 1 - lo / 65536)).map fun k =>
        let b := lo / 65536 + k
        (s.spadFmt x.g (b * 65536), x.start + max lo (b * 65536))

/-- Least and greatest start of a row over the loop, from a base (R223). -/
def loopSpan (base : Nat) (l : List (Nat × Int)) : Int × Int :=
  l.foldl (fun p x => (p.1 + min 0 (((x.1 : Int) - 1) * x.2), p.2 + max 0 (((x.1 : Int) - 1) * x.2)))
    ((base : Int), (base : Int))

/-- The format of the bank at a side's base; none in a window or outside every region. -/
def baseFmt (s : State) (g a : Nat) : Option Nat :=
  match spadPlace g a with
  | .own off => some (s.spadFmt g off)
  | .sibling k off => some (s.spadFmt k off)
  | _ => none

/-- The first bank that a copy which does not convert may not mix: every bank RAW, or of one format; `ref` is that format once it
is known (R222). -/
def mixedBank : Option Nat → List (Nat × Nat) → Option Nat
  | _, [] => none
  | ref, (f, a) :: t =>
    if f = 15 ∨ ref = some 15 then mixedBank ref t
    else
      match ref with
      | none => mixedBank (some f) t
      | some r => if f = r then mixedBank ref t else some a

/-- Read an index list, each word checked as it is consumed (R226). -/
def readIndices (off a : Nat) : Nat → Nat → Option (Nat × BitVec 64) → Eff (List Nat)
  | 0, _, _ => pure []
  | n + 1, i, cur => do
    let t ← getTile
    let o := (off + 4 * i) / 8 * 8
    let x ← (match cur with
      | some (k, x) => if k = o then pure x else check (t.spad.read o) (BitVec.ofNat 64 ((a + 4 * i) / 8 * 8))
      | none => check (t.spad.read o) (BitVec.ofNat 64 ((a + 4 * i) / 8 * 8)) : Eff (BitVec 64))
    let rest ← readIndices off a n (i + 1) (some (o, x))
    pure (elemOf 32 x ((off + 4 * i) / 4 % 2) :: rest)

/-- Raise the data fault of the lowest address among those found (R443). -/
def raiseLowest (l : List (Nat × Nat)) : Eff Unit :=
  match least (l.map (·.1)) with
  | none => pure ()
  | some a => raise cDFLT (((l.find? fun p => decide (p.1 = a)).map (·.2)).getD 5) (BitVec.ofNat 64 a)

/-- The faults of a memory side at issue: not canonical, or in the aperture. R223 decides the conditions on a side's addresses at issue and
lets the faults that the memory side meets during the copy be late: a row other than the base's is met when the copy reaches it (DESIGN
CHOICE, log 21). -/
def memFaults (va : BitVec 64) : List (Nat × Nat) :=
  if !canonical va then [(va.toNat, 4)] else if inAperture va then [(va.toNat, 5)] else []

/-- The answer of a sibling's port at issue (R384, R443). -/
def portFault (s : State) (t : Tile) (g : Nat) (x : SideSpan) (wr : Bool) : Option Verdict :=
  if x.isWin.isSome ∨ x.g = g then none else some (portVerdict s x.g (classD t) wr)

/-- The faults of a scratchpad side: outside a region, a window without W, or a port that refuses (R95, R223, R280, R384). They name the
side's lowest address (R443), or the base `indexed` of a side whose rows are not known before the list is read (R226). -/
def sideFaults (s : State) (t : Tile) (g : Nat) (indexed : Option Nat) (wr : Bool) : Except Nat SideSpan → List (Nat × Nat)
  | .error a => [(a, 5)]
  | .ok x =>
    let base := indexed.getD x.lo.toNat
    match x.isWin with
    | some w =>
      match t.win? w with
      | none => [(base, 5)]
      | some y => if y.canW then [] else [(base, subRight)]
    | none => if portFault s t g x wr = some .refused then [(base, 3)] else []

/-- A copy's physical memory ranges by rows, for the write-back at issue (R100). -/
def DCmd.memRanges (c : DCmd) (g : Nat) (s : State) : List (Nat × Nat) :=
  if (s.tileAt g).cache.all fun p => decide (p.2.dirty = 0#16) then []
  else if c.isDelta then s.physRanges g c.aA.data.toNat (2 * c.len)
  else if c.srcMem then
    (List.range c.rows).flatMap fun i => s.physRanges g (BitVec.ofInt 64 (c.row i).1).toNat c.rowBytes.1
  else if c.dstMem then
    (List.range c.rows).flatMap fun i => s.physRanges g (BitVec.ofInt 64 (c.row i).2.1).toNat c.rowBytes.2
  else []

/-- Post a record of D at once, or wait while D holds one (R64). -/
def postNow (idx tag status count : Nat) : Eff Unit := do
  let t ← getTile
  let g ← curTile
  waitUnless (!t.holds .D)
  modState (·.postEvent g .D idx ⟨eventWord 3 tag status count, []⟩)

/-- Whether the packets of the command at D's head are all made: no piece of it is left. -/
def piecesMade (g : Nat) (t : Tile) : Bool :=
  t.dcmds.all fun c => decide (c.ref.idx ≠ t.eD.pos) || decide (c.pieces g ≤ c.prog)

/-- Issue a copy, gather or scatter (R221 to R223, R226, R283): true where D passes it at once. A `dgth` or `dsct` under RS reserves draws
for L × NIDX elements, numbered by place in the list, so that a skipped row keeps its draws: R222 gives E for dimensions only (DESIGN
CHOICE, log 21). -/
def issueCopy (f : CopyForm) (d a b mf : BitVec 4) (r : BitVec 3) (st ev : BitVec 1) : Eff Bool := do
  waitRoom
  let g ← curTile
  let desc ← readA b.toNat
  let aA ← readA a.toNat
  let aD ← readA d.toNat
  let gat := f.gath || f.scat
  let nd := if f.ndim then bits desc 50 49 else f.nd
  let dims := if gat then 1 else nd
  let ctl ← (((if gat then [0, 1, 9] else List.range (3 * dims)).mapM fun k => do return (k, ← readDcr k)) : Eff (List (Nat × GWord)))
  let dcr := ctl.foldl (fun m x => mapSet (dcrReset x.1) m x.1 x.2) []
  let t ← getTile
  let s ← getsState id
  let kind := bits desc 63 61
  let cnt := bit desc 60
  let nidx := bits desc 47 32
  let l := bits desc 31 0
  let count := fun k => bits (dcrGet dcr (3 * k + 2)).data 16 0
  raiseIf (decide (2 < kind) || bit desc 48 || (!f.ndim && decide (bits desc 50 49 ≠ 0)) || (f.ndim && decide (nd = 0)) ||
    (!gat && decide (nidx ≠ 0)) || (gat && cnt) || (decide (kind = 2) && decide (mf ≠ 0xF#4)) ||
    (!gat && (List.range nd).any fun k => decide (count k = 0 ∨ 65536 < count k))) cDCMD 0 t.eD.pc
  -- the sides and whether the copy converts (R222)
  let smem := decide (kind = 0)
  let dmem := decide (kind = 1)
  let sa := bits aA 31 0
  let da := bits aD 31 0
  let sf := if smem then some mf.toNat else baseFmt s g sa
  let df := if dmem then some mf.toNat else baseFmt s g da
  let isDelta := decide (mf = 9#4)
  let conv := match sf, df with
    | some x, some y =>
      if isDelta then (if smem ∧ nd = 0 ∧ ¬ f.ndim ∧ ¬ gat ∧ y = 8 then some (9, 8) else none)
      else if x = 15 ∨ y = 15 ∨ x = y then none else some (x, y)
    | _, _ => none
  let k : DKind := if f.gath then .gather else if f.scat then .scatter else .copy nd
  let w ← refD
  let c0 : DCmd := ⟨w, k, gloved aD, gloved aA, gloved desc, mf ++ r ++ st ++ ev, dcr, conv, t.nrsD, [], [], 0, false, false, none,
    bits desc 59 51, decide (ev = 1#1), 0, 0, [], List.replicate nidx 0, false⟩
  let bytes := if c0.isDelta then (0, l) else c0.rowBytes
  raiseIf (conv.isSome && (decide (l * c0.widths.2 % 64 ≠ 0) || (!isDelta && decide (l * c0.widths.1 % 64 ≠ 0)))) cDCMD 0 t.eD.pc
  let win := match spadPlace g da with | .window w _ => if kind = 2 then some w else none | _ => none
  let open' := match win with | some w => decide ((t.win? w).map (·.st) = some .open) | none => false
  raiseIf (cnt && !open') cDCMD 0 t.eD.pc
  -- intervals (R223, R226)
  let moves := decide (0 < l) && (!gat || decide (0 < nidx))
  let p := fun j => pitchOf (dcrGet dcr j)
  let loops := fun o => if gat then [(nidx, p o)] else (List.range nd).map fun j => (count j, p (3 * j + o))
  let interval := fun (base : Nat) (o bytes : Nat) (indexed : Bool) =>
    let x := loopSpan base (loops o)
    let whole := sideSpan g (decide (o = 1 ∧ kind = 2)) base base
    match indexed, whole with
    | true, .ok y => ((y.start : Int), (y.start : Int) + 0x1FFFFF)
    | true, .error _ => ((base : Int), (base : Int) - 1)
    | _, _ => if moves then (x.1, x.2 + bytes - 1) else ((base : Int), (base : Int) - 1)
  let si := interval sa 0 bytes.1 f.gath
  let di := interval da 1 bytes.2 f.scat
  let sSide := sideSpan g false si.1 si.2
  let dSide := sideSpan g (decide (kind = 2)) di.1 di.2
  let rangesOf := fun (x : Except Nat SideSpan) => match x with | .ok y => y.range | .error _ => []
  raiseIf (decide (kind = 2) && sidesMeet (sideBytes g sa si.1 si.2) (sideBytes g da di.1 di.2)) cDCMD 0 t.eD.pc
  -- alignment (R223)
  let off := fun (m : Bool) (x : BitVec 64) => if m then x else BitVec.ofNat 64 (bits x 31 0)
  raiseIf (decide (aA.toNat % 8 ≠ 0)) cALIGN 0 (off smem aA)
  raiseIf (decide (aD.toNat % 8 ≠ 0)) cALIGN 0 (off dmem aD)
  match (List.range dims).find? fun j => decide (p (3 * j) % 8 ≠ 0) with
  | some j => raise cALIGN 0 (off smem (aA + BitVec.ofInt 64 (p (3 * j))))
  | none => pure ()
  match (List.range dims).find? fun j => decide (p (3 * j + 1) % 8 ≠ 0) with
  | some j => raise cALIGN 0 (off dmem (aD + BitVec.ofInt 64 (p (3 * j + 1))))
  | none => pure ()
  let ix := bits (dcrGet dcr 9).data 31 0
  raiseIf (gat && decide (ix % 4 ≠ 0)) cALIGN 0 (BitVec.ofNat 64 ix)
  -- data faults, lowest address first (R443)
  let ixSpan := placeSpan g true ix ((ix : Int) + 4 * nidx - 1)
  raiseLowest ((if smem then memFaults aA else sideFaults s t g (if f.gath then some sa else none) false sSide) ++
    (if dmem then memFaults aD else sideFaults s t g (if f.scat then some da else none) true dSide) ++
    (if gat && decide (0 < nidx) then (spanFaults [ixSpan]).map (fun x => (x, 5)) else []))
  let held := fun (m : Bool) (x : Except Nat SideSpan) (wr : Bool) =>
    match m, x with | false, .ok y => decide (portFault s t g y wr = some .held) | _, _ => false
  waitUnless (!(held smem sSide false || held dmem dSide true) && !(win.any fun w => t.sendsLater g w))
  -- formats (R82, R222)
  let banksOf := fun (m : Bool) (x : Except Nat SideSpan) (base : Nat) (indexed : Bool) => match m, x with
    | false, .ok y => if indexed then (match sideSpan g true base base with | .ok z => z.banks s | .error _ => []) else y.banks s
    | _, _ => []
  let sb := banksOf smem sSide sa f.gath
  let db := banksOf dmem dSide da f.scat
  let at' := BitVec.ofNat 64 (if smem then da else sa)
  raiseIf (isDelta && conv.isNone) cFMT 0 at'
  match conv with
  | some (x, y) => do
    raiseIf (!isDelta && !pairAllowed ((fmtOfCode x).getD .raw) ((fmtOfCode y).getD .raw)) cFMT 0 at'
    match (sb.find? fun q => decide (q.1 ≠ x)).orElse (fun _ => db.find? fun q => decide (q.1 ≠ y)) with
    | some q => raise cFMT 0 (BitVec.ofNat 64 q.2)
    | none => pure ()
  | none =>
    match mixedBank (if kind = 2 then none else some mf.toNat) (sb ++ db) with
    | some x => raise cFMT 0 (BitVec.ofNat 64 x)
    | none => pure ()
  let ixOff := ((checkedSpan ((ix : Int), (ix : Int) + 4 * nidx - 1) ixSpan).head?.map (·.1)).getD 0
  if gat && decide (0 < nidx) then
    match (List.range ((ixOff + 4 * nidx - 1) / 65536 + 1 - ixOff / 65536)).find? fun j =>
        let y := (t.bank (ixOff / 65536 + j)).toNat
        !decide (y = 2 ∨ y = 15) with
    | some j => raise cFMT 0 (BitVec.ofNat 64 (ix + (max ixOff ((ixOff / 65536 + j) * 65536) - ixOff)))
    | none => pure ()
  -- ranges, index list, draws
  let rd := if smem then [] else rangesOf sSide
  let rd := if gat && decide (0 < nidx) then spanOf (rd ++ [(ixOff, 4 * nidx)]) else rd
  let wr := if dmem then [] else rangesOf dSide
  rangeCheck t.eD.pos rd wr
  let idx ← if gat then readIndices ixOff ix nidx 0 none else pure []
  let c : DCmd := { c0 with
    rd := rd, wr := wr, idx := idx,
    window := if cnt then (match win with | some w => (t.win? w).map fun y => (w, y.gen) | none => none) else none }
  if conv.isSome && !isDelta && decide (r = 4#3) then
    let e := if gat then l * nidx else l * c.rows
    modTile fun t => { t with nrsD := t.nrsD + BitVec.ofNat 64 ((e + 3) / 4) }
  let rs ← getsState (c.memRanges g)
  modState (issueWriteBack g rs)
  if c.units g = 0 ∧ (¬ c.isDelta ∨ l = 0) ∧ c.badRow g = none ∧ ¬ cnt then do
    if c.ev then postNow w.idx c.tag 0 0
    pure true
  else do
    launchD c
    pure win.isNone

/-- Run a copy word. -/
def runCopy (f : CopyForm) (g d a b mf : BitVec 4) (r : BitVec 3) (st ev : BitVec 1) (s : State) :
    Host.Outcome State Fault Refusal :=
  runEHold .D g (sendHold .D (piecesMade s.cur) (issueCopy f d a b mf r st ev)) s

/-- `dcp` (R222). -/
def execDcp (g d a b f : BitVec 4) (r : BitVec 3) (st ev : BitVec 1) (s : State) : Host.Outcome State Fault Refusal :=
  runCopy ⟨0, false, false, false⟩ g d a b f r st ev s

/-- `dcp2` (R222). -/
def execDcp2 (g d a b f : BitVec 4) (r : BitVec 3) (st ev : BitVec 1) (s : State) : Host.Outcome State Fault Refusal :=
  runCopy ⟨1, false, false, false⟩ g d a b f r st ev s

/-- `dcpn` (R222). -/
def execDcpn (g d a b f : BitVec 4) (r : BitVec 3) (st ev : BitVec 1) (s : State) : Host.Outcome State Fault Refusal :=
  runCopy ⟨0, true, false, false⟩ g d a b f r st ev s

/-- `dgth` (R226). -/
def execDgth (g d a b f : BitVec 4) (r : BitVec 3) (st ev : BitVec 1) (s : State) : Host.Outcome State Fault Refusal :=
  runCopy ⟨0, false, true, false⟩ g d a b f r st ev s

/-- `dsct` (R226). -/
def execDsct (g d a b f : BitVec 4) (r : BitVec 3) (st ev : BitVec 1) (s : State) : Host.Outcome State Fault Refusal :=
  runCopy ⟨0, false, false, true⟩ g d a b f r st ev s

/-- `dfill` (R227): the word in aA moves unchanged and unchecked. -/
def execDfill (g d a b : BitVec 4) (ev : BitVec 1) (s : State) : Host.Outcome State Fault Refusal :=
  runE .D g (do
    waitRoom
    let k ← curTile
    let desc ← readA b.toNat
    let aD ← readA d.toNat
    let t ← getTile
    let s ← getsState id
    let kind := bits desc 63 61
    let l := bits desc 31 0
    raiseIf (decide (1 < kind ∨ bits desc 50 32 ≠ 0) || bit desc 60) cDCMD 0 t.eD.pc
    let da := bits aD 31 0
    let mem := decide (kind = 1)
    raiseIf (decide (aD.toNat % 8 ≠ 0)) cALIGN 0 (if mem then aD else BitVec.ofNat 64 da)
    let side := sideSpan k false da ((da : Int) + 8 * l - 1)
    raiseLowest (if mem then memFaults aD else sideFaults s t k none true side)
    match mem, side with
    | false, .ok y => waitUnless (!decide (portFault s t k y true = some .held))
    | _, _ => pure ()
    let wr := match mem, side with | false, .ok y => y.range | _, _ => []
    rangeCheck t.eD.pos [] wr
    let w ← refD
    let c : DCmd := ⟨w, .fill, gloved aD, t.getA a.toNat, gloved desc, 0#9, [], none, t.nrsD, [], wr, 0, false, false, none,
      bits desc 59 51, decide (ev = 1#1), 0, 0, [], [], false⟩
    let rs ← getsState (c.memRanges k)
    modState (issueWriteBack k rs)
    if l = 0 then do
      if c.ev then postNow w.idx c.tag 0 0
    else launchD c) s

/-- `devt` (R228): its record is posted by DEVT_POST. -/
def execDevt (g : BitVec 4) (tag : BitVec 9) (sc : BitVec 3) (s : State) : Host.Outcome State Fault Refusal :=
  runE .D g (do
    waitRoom
    let w ← refD
    launchD ⟨w, .devt sc.toNat, GWord.zero, GWord.zero, GWord.zero, 0#9, [], none, 0#64, [], [], 0, false, true, none,
      tag.toNat, true, 0, 0, [], [], false⟩) s

/-! ## The steps of a command in flight (R224, R225, R228) -/

/-- Replace a command by its place. -/
def Tile.setCmd (t : Tile) (i : Nat) (c : DCmd) : Tile := { t with dcmds := t.dcmds.set i c }

/-- Remove a command by its place. -/
def Tile.dropCmd (t : Tile) (i : Nat) : Tile := { t with dcmds := t.dcmds.eraseIdx i }

/-- A command ends that has written physical ranges `rs`: a later `devt` record acquires them (R110, R228). -/
def Tile.endCmd (t : Tile) (i : Nat) (rs : List (Nat × Nat)) : Tile :=
  let n := (t.dcmds[i]?.map (·.ref.idx)).getD 0
  { t.dropCmd i with dRanges := t.dRanges ++ rs.map fun r => (n, r) }

/-- A command ends with STATUS and COUNT: it leaves, and its record is posted when it asked for one. While D holds a record it stays,
ended, until the record can be posted (R64); a later `devt` record acquires what it has written (R110, R228). -/
def endCommand (g i : Nat) (c : DCmd) (status count : Nat) (s : State) : State :=
  let t := s.tileAt g
  if c.ev ∧ t.holds .D then
    s.setTileAt g { t.setCmd i (c.endWith status count) with dRanges := t.dRanges ++ c.pranges.map fun r => (c.ref.idx, r) }
  else
    let s := s.setTileAt g (t.endCmd i c.pranges)
    if c.ev then s.postEvent g .D c.ref.idx ⟨eventWord 3 c.tag status count, c.pranges⟩ else s

/-- What the D commands below index `n` have written. -/
def Tile.wroteBelow (t : Tile) (n : Nat) : List (Nat × Nat) := (t.dRanges.filter fun r => decide (r.1 < n)).map (·.2)

/-- The command after a piece: its scratchpad work is done with its last piece; a counted copy keeps its read range until its
generation ends (R66, R284). -/
def DCmd.afterPiece (c : DCmd) (g bytes : Nat) (rs : List (Nat × Nat)) : DCmd :=
  let c := { c with prog := c.prog + 1, count := c.count + bytes, pranges := rs.foldl joinRange c.pranges }
  if c.pieces g ≤ c.prog ∧ c.badRow g = none then
    (if c.window.isSome then { c with wr := [] } else { c with done := true })
  else c

/-- Perform the next piece of command `i` of tile `g` (R223, R225). -/
def pieceStep (g i : Nat) (c : DCmd) (s : State) : State :=
  let s := { s with cur := g }
  let wid := (s.tileAt g).wid
  let fail := fun (r : Stop) (bytes : Nat) (rs : List (Nat × Nat)) (s : State) =>
    let c := { c with count := c.count + bytes, pranges := rs.foldl joinRange c.pranges }
    match r with
    | .trap x logs =>
      let s := logErrors logs s
      let t := s.tileAt g
      s.setTileAt g ((t.lateFault x c.ref).setCmd i { c with faulted := true })
    | _ => s.setTileAt g ((s.tileAt g).setCmd i c)
  let put := fun (c : DCmd) (s : State) => s.setTileAt g ((s.tileAt g).setCmd i c)
  if c.isDelta then
    match (deltaPiece c).run s with
    | .ok ((b, true), s) => put (c.afterPiece g b []) s
    | .ok ((b, false), s) => put { c with prog := c.pieces g, count := c.count + b, status := 0x84, done := true } s
    | .error r => fail r 0 [] s
  else
    let lo := c.prog * c.pieceUnits
    let n := min c.pieceUnits (c.units g - lo)
    if n = 0 then
      match c.badRow g with
      | some (_, a) => fail (.trap ⟨cDFLT, 5, BitVec.ofNat 64 a, none⟩ []) 0 [] s
      | none => put (c.afterPiece g 0 []) s
    else
      match c.toWindow g with
      | some w =>
        match (do
          let ws ← windowUnits c wid n lo
          let u ← getTile
          let k := c.counter u
          postFormats w k.1 k.2 (groupBlocks ws) : Eff Unit).run s with
        | .ok (_, s) => put (c.afterPiece g (8 * n) []) s
        | .error r => fail r 0 [] s
      | none =>
        let m := moveUnits c wid n lo ⟨s, 0, [], none⟩
        match m.stopped with
        | none => put (c.afterPiece g m.bytes m.ranges) m.s
        | some .wait => s
        | some r => fail r m.bytes m.ranges m.s

/-- COPY_PIECE_DONE (R225). -/
def execCopyPieceDone (g i : Nat) (s : State) : Host.Outcome State Fault Refusal :=
  let t := s.tileAt g
  match t.dcmds[i]? with
  | some c =>
    if t.works ∧ c.kind.moves ∧ ¬ c.faulted ∧ ¬ c.ended ∧ (c.prog < c.pieces g ∨ (c.prog = c.pieces g ∧ (c.badRow g).isSome)) then
      .next (pieceStep g i c s)
    else .next s
  | none => .next s

/-- COPY_COMPLETE (R224): a counted copy ends with its generation instead (R284). -/
def execCopyComplete (g i : Nat) (s : State) : Host.Outcome State Fault Refusal :=
  let t := s.tileAt g
  match t.dcmds[i]? with
  | some c =>
    let sent := match c.toWindow g with
      | some w => ((t.win? w).map fun x => x.outq.isEmpty).getD true
      | none => true
    if t.works ∧ c.kind.moves ∧ ¬ c.faulted ∧ c.pieces g ≤ c.prog ∧ (c.badRow g = none ∨ c.status ≠ 0) ∧ c.window = none ∧ sent = true ∧
        (c.ev = false ∨ t.holds .D = false) then
      let s := s.setTileAt g (t.endCmd i c.pranges)
      if c.ev then .next (s.postEvent g .D c.ref.idx ⟨eventWord 3 c.tag c.status c.count, c.pranges⟩) else .next s
    else .next s
  | none => .next s

/-- DEVT_POST (R228): every D command below it has completed. Popping the record acquires all of them (R110). -/
def execDevtPost (g i : Nat) (s : State) : Host.Outcome State Fault Refusal :=
  let t := s.tileAt g
  match t.dcmds[i]? with
  | some c =>
    match c.kind with
    | .devt _ =>
      if t.works ∧ i = 0 ∧ ¬ t.holds .D then
        .next ((s.setTileAt g (t.dropCmd i)).postEvent g .D c.ref.idx ⟨eventWord 3 c.tag 0 0, t.wroteBelow c.ref.idx⟩)
      else .next s
    | _ => .next s
  | none => .next s

end Sys2Proof.Machine
end

