-- ==== Sys2Proof/Machine/VecSample.lean ====
section
/-!
DEFINITION. Selection and sampling (R193 to R196), the deferral queue (R67, R68, R202, R203) and the return queue (R62, R204).
-/

namespace Sys2Proof.Machine

/-! ## Ranking (R193) -/

/-- Put an element into a list ranked descending, behind its equals. -/
def rankInsert (x : Nat × Nat) : List (Nat × Nat) → List (Nat × Nat)
  | [] => [x]
  | y :: t =>
    if rankAbove (elemValue .fp32 x.2) (elemValue .fp32 y.2) then x :: y :: t else y :: rankInsert x t

/-- FP32 elements with their indices, ranked descending, equal values by ascending index. -/
def rankAll (l : List (Nat × Nat)) : List (Nat × Nat) := l.foldl (fun acc x => rankInsert x acc) []

/-- A NaN written canonical (R72). -/
def canonical32 (x : Nat) : Nat := if elemValue .fp32 x = .nan then canonNan .fp32 else x

/-- `vtopk` (R193). -/
def execVtopk (g d a b : BitVec 4) (k : BitVec 6) (s : State) : Host.Outcome State Fault Refusal :=
  runE .V g (do
    let ws ← readLanes a.toNat (List.range 128)
    let r := (rankAll ((List.range 256).map fun e => (e, elemIn 32 ws e))).take k.toNat
    let pad := 256 - r.length
    writeElems 32 d.toNat (r.map (fun x => canonical32 x.2) ++ List.replicate pad (infCode .fp32 true))
    writeElems 32 b.toNat (r.map (fun x => x.1) ++ List.replicate pad 0xFFFFFFFF)) s

/-- `vrng` (R195). Of several s registers in error TADDR names the first in the order seed, sequence, position (DESIGN CHOICE, log 34). -/
def execVrng (g d a b : BitVec 4) (n : BitVec 6) (s : State) : Host.Outcome State Fault Refusal :=
  runE .V g (do
    let seed ← readS a.toNat
    let sq ← readS b.toNat
    let pos ← readS (b.toNat + 1)
    let w := fun j => draw seed j (bits pos 31 0) (bits sq 31 0) 0
    let regs := List.range n.toNat
    let rec go : List Nat → Eff Unit
      | [] => pure ()
      | r :: t => do
        writeElems 32 (d.toNat + r) ((List.range 256).map fun e => w (256 * r + e))
        go t
    go regs) s

/-- The FP32 value nearest −ln 2 (R196). -/
def nln2 : Nat := 0xBF317218

/-- The score of a logit for a global index (R196). -/
def gumbelScore (seed : BitVec 64) (pos sq g logit : Nat) : Nat :=
  let u := FVal.fin false (2 * (draw seed g pos sq 1 / 2 ^ 9) + 1) (-24)
  let t2 := mulElem .fp32 (log232 u) nln2
  let nz := mulElem .fp32 (log232 (elemValue .fp32 t2)) nln2
  addElem .fp32 logit nz

/-- The best score and its index, the earlier on equal scores (R196). -/
def gumbelBest (score : Nat → Nat) (base : Nat) : List Nat → Option (Nat × Nat) → Option (Nat × Nat)
  | [], best => best
  | e :: t, best =>
    let sc := score e
    let take := match best with
      | none => true
      | some b => rankAbove (elemValue .fp32 sc) (elemValue .fp32 b.1)
    gumbelBest score base t (if take then some (sc, (base + e) % 2 ^ 32) else best)

/-- `vgmax` (R196). Its s registers are checked in ascending order (DESIGN CHOICE, log 34). -/
def execVgmax (g d a b : BitVec 4) (s : State) : Host.Outcome State Fault Refusal :=
  runE .V g (do
    let seed ← readS b.toNat
    let sq ← readS (b.toNat + 1)
    let pos ← readS (b.toNat + 2)
    let gc ← readS (b.toNat + 3)
    let base := bits gc 31 0
    let c := min (bits gc 40 32) 256
    let ws ← readLanes a.toNat (List.range ((c + 1) / 2))
    let score := fun e => gumbelScore seed (bits pos 31 0) (bits sq 31 0) ((base + e) % 2 ^ 32) (elemIn 32 ws e)
    let r := match gumbelBest score base (List.range c) none with
      | some x => BitVec.ofNat 64 (x.2 * 2 ^ 32 + canonical32 x.1)
      | none => 0xFFFFFFFFFF800000#64
    modTile (·.setS d.toNat (gloved r))) s

/-! ## The deferral queue (R67, R68) -/

/-- The deferral registers' fields: BASE in bytes, CAP, NV, HEAD, CNT (R68). -/
structure Hatcheck where
  base : Nat
  cap : Nat
  nv : Nat
  head : Nat
  cnt : Nat
  deriving DecidableEq, Repr

/-- Bytes of an entry. -/
def Hatcheck.size (q : Hatcheck) : Nat := 8 * (1 + q.nv)

/-- Read the deferral registers; the conditions of R202 and R203 raise DEFER. -/
def readHatcheck : Eff Hatcheck := do
  let b ← readVcr 1
  let c ← readVcr 2
  let n ← readVcr 3
  let h ← readVcr 4
  let k ← readVcr 5
  let q : Hatcheck := ⟨bits b 20 3 * 8, bits c 16 0, bits n 2 0, bits h 16 0, bits k 17 0⟩
  raiseIf (decide (q.nv > 4 ∨ q.cap = 0 ∨ q.cap > 65536 ∨ q.head ≥ q.cap ∨ q.cnt > q.cap ∨
    q.base + q.cap * q.size > 0x200000)) cDEFER 0 0#64
  pure q

/-- Update HQHEAD or HQCNT as hardware does (R61). -/
def updateHatcheck (r v : Nat) : Eff Unit := modTile (·.setVcr r (gloved (BitVec.ofNat 64 v)))

/-- Wait under the range checker: the whole region is read and written (R66, R203). -/
def hatcheckRange (q : Hatcheck) : Eff Unit := do
  let t ← getTile
  let r := [(q.base, q.cap * q.size)]
  rangeCheck t.eV.pos r r

/-- Append one entry for lane `i` (R202). -/
def deferLane (q : Hatcheck) (a slot i : Nat) : Eff Unit := do
  let g ← curTile
  let at' := q.base + slot * q.size
  modState fun s =>
    let t := s.tileAt g
    let ws := gloved (BitVec.ofNat 64 i) :: (List.range q.nv).map fun k => t.getV (a + k) i
    s.setTileAt g { t with spad := t.spad.writeList at' ws }

/-- Append entries for lanes in order. -/
def deferAll (a : Nat) : Hatcheck → List Nat → Eff Hatcheck
  | q, [] => pure q
  | q, i :: t => do
    deferLane q a ((q.head + q.cnt) % q.cap) i
    deferAll a { q with cnt := q.cnt + 1 } t

/-- `vdefer` (R202): of the registers only HQCNT is updated, and none where no lane is active. -/
def execVdefer (g a b : BitVec 4) (s : State) : Host.Outcome State Fault Refusal :=
  runE .V g (do
    let q ← readHatcheck
    raiseIf (decide (a.toNat + q.nv > 16)) cDEFER 0 0#64
    let k ← readMask b.toNat
    let l := lanesOf k
    raiseIf (decide (q.cnt + l.length > q.cap)) cDEFER 0 0#64
    hatcheckRange q
    let r ← deferAll a.toNat q l
    if l.isEmpty then pure () else updateHatcheck 5 r.cnt) s

/-- Move entry `j` of the popped ones to lane `j` (R203). -/
def redeemLane (q : Hatcheck) (d j : Nat) : Eff Unit :=
  modTile fun t =>
    let at' := q.base + (q.head + j) % q.cap * q.size
    (List.range (1 + q.nv)).foldl (fun t k => t.setV (d + k) j (t.spad.read (at' + 8 * k))) t

/-- `vredeem` (R203): HQHEAD and HQCNT are updated where it pops an entry. -/
def execVredeem (g d b : BitVec 4) (s : State) : Host.Outcome State Fault Refusal :=
  runE .V g (do
    let q ← readHatcheck
    raiseIf (decide (d.toNat + 1 + q.nv > 16)) cDEFER 0 0#64
    hatcheckRange q
    let p := min 128 q.cnt
    eachLane (List.range p) (redeemLane q d.toNat)
    writeMask b.toNat (maskOf ((List.range p).map fun i => (i, true)))
    if p = 0 then pure ()
    else do
      updateHatcheck 4 ((q.head + p) % q.cap)
      updateHatcheck 5 (q.cnt - p)) s

/-! ## The return queue (R62, R204) -/

/-- Push a word; a full queue waits, and is dead when S waits WIN or more words beyond (R62). -/
def pushReturn (w : GWord) : Eff Unit := do
  let t ← getTile
  if t.rq.length < 64 then modTile fun t => { t with rq := t.rq ++ [w] }
  else if t.eV.pos + t.win.toNat ≤ t.eS.pos then raise cQDEAD 0 t.eV.pc
  else waitWord

/-- `vput sA` (R204): word and glove move unchanged. -/
def execVput (g a : BitVec 4) (s : State) : Host.Outcome State Fault Refusal :=
  runE .V g (do
    let t ← getTile
    pushReturn (t.getS a.toNat)) s

/-- The defined fields of a V control register (R68, R83). -/
def vcrFields (r : Nat) : BitVec 64 :=
  match r with
  | 0 => 0x1F#64
  | 1 => 0x1FFFF8#64
  | 2 => 0x1FFFF#64
  | 3 => 0x7#64
  | 4 => 0x1FFFF#64
  | 5 => 0x3FFFF#64
  | _ => 0#64

/-- `vput vcr` (R204): the stored word is checked; its defined fields are pushed with a fresh glove. -/
def execVputVcr (g : BitVec 4) (r : BitVec 5) (s : State) : Host.Outcome State Fault Refusal :=
  runE .V g (do
    let v ← readVcr r.toNat
    pushReturn (gloved (v &&& vcrFields r.toNat))) s

end Sys2Proof.Machine
end

