-- ==== Sys2Proof/Machine/KeyValue.lean ====
section
/-!
DEFINITION. The key-value words and their steps (R229 to R251), with the damage step (R419, R420).
-/

namespace Sys2Proof.Machine

/-! ## Program memory as the controller reaches it (R234, R236, R238) -/

/-- Reach program memory with the issuing tile's D rights; a fault there is the word's own. -/
def pVirt {α : Type} (f : Eff α) : PEff α := fun p =>
  match f.run p.s with
  | .ok (a, s) => .ok (a, { p with s := s })
  | .error (.trap t logs) => .error (.precise t logs)
  | .error .wait => .error .wait
  | .error r => .error (.other r)

/-- The lane of a controller before the pool is known: the words of the record are checked by the issuing die's unit. -/
def unitCtx (d : Nat) (recVa : BitVec 64) : PCtx := ⟨d, 0, 4, recVa, recVa, none⟩

/-- Read a doubleword of program memory and check it; an uncorrectable one is a late GLOVE naming `named` (R420). -/
def vRead (c : PCtx) (va named : BitVec 64) : PEff (BitVec 64) := do
  match ← pCheck c (← pVirt (dRead va)) with
  | some v => pure v
  | none => pStop (.late ⟨cUGLOVE, 0, named, none⟩ [⟨c.die, 0x01, 15, named, 3#64⟩])

/-- Write a doubleword of program memory. -/
def vWrite (va v : BitVec 64) : PEff Unit := do
  pWrote (← pVirt (dWrite va (gloved v)))

/-- Doubleword `k` of a sequence record (R234). -/
def recWord (c : PCtx) (ra : BitVec 64) (k : Nat) : PEff (BitVec 64) :=
  vRead c (ra + BitVec.ofNat 64 (8 * k)) (ra + BitVec.ofNat 64 (8 * k))

/-- Write doubleword `k` of a sequence record. -/
def setRecWord (ra : BitVec 64) (k : Nat) (v : BitVec 64) : PEff Unit := vWrite (ra + BitVec.ofNat 64 (8 * k)) v

/-- CLEN and WLEN of a record. -/
def recLens (c : PCtx) (ra : BitVec 64) : PEff (Nat × Nat) := do
  let w ← recWord c ra 2
  pure (bits w 31 0, bits w 63 32)

/-- Write CLEN and WLEN, the last write of a step (R238). -/
def setLens (ra : BitVec 64) (clen wlen : Nat) : PEff Unit :=
  setRecWord ra 2 (BitVec.ofNat 64 (clen % 2 ^ 32 + wlen % 2 ^ 32 * 2 ^ 32))

/-- Write NPAGE, keeping SFLAGS. -/
def setNpage (c : PCtx) (ra : BitVec 64) (n : Nat) : PEff Unit := do
  let w ← recWord c ra 3
  setRecWord ra 3 (setBits w 31 0 n)

/-- The address of entry `p` of a page list (R234). -/
def entryVa (plist : BitVec 64) (p : Nat) : BitVec 64 := plist + BitVec.ofNat 64 (4 * p)

/-- Entry `p` of a page list. -/
def listEntry (c : PCtx) (plist : BitVec 64) (p : Nat) : PEff Nat := do
  let a := entryVa plist p
  let w ← vRead c a a
  pure (bits w (32 * (a.toNat / 4 % 2) + 31) (32 * (a.toNat / 4 % 2)))

/-- Write entry `p` of a page list. -/
def setListEntry (c : PCtx) (plist : BitVec 64) (p x : Nat) : PEff Unit := do
  let a := entryVa plist p
  let w ← vRead c a a
  vWrite a (setBits w (32 * (a.toNat / 4 % 2) + 31) (32 * (a.toNat / 4 % 2)) x)

/-! ## The pool's own structures (R230 to R233) -/

/-- Write a log entry of a controller (R414). -/
def pLog (r : LogReq) : PEff Unit := pMod (logError r false)

/-- Number of free pages. -/
def freeTop (c : PCtx) (h : PoolHdr) : PEff Nat := do return bits (← pMeta c (h.pa + 24)) 31 0

/-- Write FTOP. -/
def setFreeTop (c : PCtx) (h : PoolHdr) (n : Nat) : PEff Unit := do
  let w ← pMeta c (h.pa + 24)
  pWrite c (h.pa + 24) (setBits w 31 0 n)

/-- Add one to a header counter at an offset. -/
def bumpHeader (c : PCtx) (h : PoolHdr) (off : Nat) : PEff Unit := do
  let w ← pMeta c (h.pa + off)
  pWrite c (h.pa + off) (w + 1#64)

/-- Pop a free page; none when the stack is empty, which NOPGCNT counts (R230, R245). -/
def popPage (c : PCtx) (h : PoolHdr) : PEff (Option Nat) := do
  let n ← freeTop c h
  if n = 0 then
    bumpHeader c h 40
    return none
  let a := h.fbase + 4 * (n - 1)
  let w ← pMeta c a
  setFreeTop c h (n - 1)
  return some (bits w (a / 4 % 2 * 32 + 31) (a / 4 % 2 * 32))

/-- Push a page that has no reference left: VALID 0, FREE; its damage entries and its DAMAGED flag go (R247, R419). -/
def pushPage (c : PCtx) (h : PoolHdr) (x : Nat) (d : PageDesc) : PEff Unit := do
  pSetDesc c { d with ref := 0, valid := 0, flags := setLow d.flags }
  pMod fun s => s.setDamage c.die c.pool ((s.damageOf c.die c.pool).filter fun e => decide (e.2 ≠ x))
  let n ← freeTop c h
  let a := h.fbase + 4 * n
  let w ← pMeta c a
  pWrite c a (setBits w (a / 4 % 2 * 32 + 31) (a / 4 % 2 * 32) x)
  setFreeTop c h (n + 1)
where
  /-- FREE set and DAMAGED clear. -/
  setLow (f : Nat) : Nat := f / 4 * 4 + 1

/-- Copy words unchanged. -/
def copyWords (c : PCtx) (src dst : Nat) : Nat → PEff Unit
  | 0 => pure ()
  | n + 1 => do
    copyWords c src dst n
    pPut c (dst + 8 * n) (← pRaw c (src + 8 * n))

/-- The copy step of R245: the record's entry `p` names page `x`, shared, of which `n` slots are written. The new page; none when no
page is free. -/
def copyPage (c : PCtx) (h : PoolHdr) (plist : BitVec 64) (p x n : Nat) : PEff (Option Nat) := do
  match ← popPage c h with
  | none => return none
  | some y => do
    let dx ← pDesc c h x
    let dy ← pDesc c h y
    copyWords c dx.pbase dy.pbase (512 * h.hkv)
    copyWords c dx.capb dy.capb (64 * h.hkv)
    pSetDesc c { dy with ref := 1, valid := n, flags := dy.flags / 2 * 2 }
    let es := (← pGets (·.damageOf c.die c.pool)).filter fun e => decide (e.2 = x)
    let rec mark : List (Nat × Nat) → PEff Unit
      | [] => pure ()
      | e :: t => do
        pDamage c h y e.1
        mark t
    mark es
    let dx ← pDesc c h x
    pSetDesc c { dx with ref := dx.ref - 1 }
    setListEntry c plist p y
    bumpHeader c h 32
    return some y

/-! ## Caps (R243, R420) -/

/-- The caps of one head: minima and maxima of 128 channels. -/
structure Caps where
  mins : List Nat
  maxs : List Nat

/-- BF16 minus and plus infinity. -/
def negInf16 : Nat := infCode .bf16 true
def posInf16 : Nat := infCode .bf16 false

/-- Four equal 16-bit elements. -/
def quad (x : Nat) : BitVec 64 := wordOf 16 fun _ => x

/-- Read the caps of one head from doubleword `k` on. Where a word of a channel group is uncorrectable, the group covers any key and
both words are written back (R420). -/
def readCapsFrom (c : PCtx) (cb : Nat) : Nat → Nat → PEff Caps
  | 0, _ => pure ⟨[], []⟩
  | n + 1, k => do
    let a := cb + 8 * k
    let b := cb + 256 + 8 * k
    let lo ← pChecked c a
    let hi ← pChecked c b
    if lo.isNone then pLog ⟨c.die, 0x01, 15, BitVec.ofNat 64 a, 0#64⟩
    if hi.isNone then pLog ⟨c.die, 0x01, 15, BitVec.ofNat 64 b, 0#64⟩
    let bad := lo.isNone || hi.isNone
    if bad then
      pWrite c a (quad negInf16)
      pWrite c b (quad posInf16)
    let lw := if bad then quad negInf16 else lo.getD 0#64
    let hw := if bad then quad posInf16 else hi.getD 0#64
    let rest ← readCapsFrom c cb n (k + 1)
    let four := fun (w : BitVec 64) => (List.range 4).map fun j => elemOf 16 w j
    pure ⟨four lw ++ rest.mins, four hw ++ rest.maxs⟩

/-- Read the caps of one head. -/
def readCaps (c : PCtx) (cb : Nat) : PEff Caps := readCapsFrom c cb 32 0

/-- Write the caps of one head from doubleword `k` on. -/
def writeCapsFrom (c : PCtx) (cb : Nat) (v : Caps) : Nat → Nat → PEff Unit
  | 0, _ => pure ()
  | n + 1, k => do
    pWrite c (cb + 8 * k) (wordOf 16 fun j => v.mins.getD (4 * k + j) 0)
    pWrite c (cb + 256 + 8 * k) (wordOf 16 fun j => v.maxs.getD (4 * k + j) 0)
    writeCapsFrom c cb v n (k + 1)

/-- Write the caps of one head. -/
def writeCaps (c : PCtx) (cb : Nat) (v : Caps) : PEff Unit := writeCapsFrom c cb v 32 0

/-- The lower or the higher of two BF16 values, −0 below +0, the canonical NaN when either is NaN (R243). -/
def capMin (x y : Nat) : Nat := roundNearest .bf16 ((elemValue .bf16 x).minv (elemValue .bf16 y))
def capMax (x y : Nat) : Nat := roundNearest .bf16 ((elemValue .bf16 x).maxv (elemValue .bf16 y))

/-- An E4M3 key as BF16 (R243). -/
def keyCode (b : Nat) : Nat := roundNearest .bf16 (elemValue .e4m3 b)

/-- The eight keys of a K word. -/
def keysOf (w : BitVec 64) : List Nat := (List.range 8).map fun j => keyCode (elemOf 8 w j)

/-! ## Releasing pages (R247) -/

/-- Release entries `p` on of a page list, `n` of them: pages returned, and whether one had REF 0. -/
def releasePages (c : PCtx) (h : PoolHdr) (plist : BitVec 64) : Nat → Nat → Nat × Bool → PEff (Nat × Bool)
  | 0, _, r => pure r
  | n + 1, p, r => do
    let x ← listEntry c plist p
    let d ← pDesc c h x
    if d.ref = 0 then
      pLog ⟨c.die, 0x07, 15, BitVec.ofNat 64 (c.die + 256 * c.pool), BitVec.ofNat 64 x⟩
      releasePages c h plist n (p + 1) (r.1, true)
    else if d.ref = 1 then
      pushPage c h x d
      releasePages c h plist n (p + 1) (r.1 + 1, r.2)
    else
      pSetDesc c { d with ref := d.ref - 1 }
      releasePages c h plist n (p + 1) r

/-- The pages among entries `p` on, `n` of them, that a release of these entries in order would meet with REF 0: those that have it, and
those whose references the entries `seen` before take away. -/
def unreferenced (c : PCtx) (h : PoolHdr) (plist : BitVec 64) (seen : List Nat) : Nat → Nat → PEff (List Nat)
  | 0, _ => pure []
  | n + 1, p => do
    let x ← listEntry c plist p
    let d ← pDesc c h x
    let rest ← unreferenced c h plist (x :: seen) n (p + 1)
    pure (if d.ref ≤ seen.count x then x :: rest else rest)

/-- Log pages found with REF 0 (R247, R414). -/
def logUnreferenced (c : PCtx) : List Nat → PEff Unit
  | [] => pure ()
  | x :: t => do
    pLog ⟨c.die, 0x07, 15, BitVec.ofNat 64 (c.die + 256 * c.pool), BitVec.ofNat 64 x⟩
    logUnreferenced c t

/-- Pages for a length (R234). -/
def pagesFor (len : Nat) : Nat := (len + 15) / 16

/-- The end of a truncation to `l`: VALID of the last kept page, NPAGE, then WLEN (R247). -/
def endTrunc (c : PCtx) (h : PoolHdr) (ra plist : BitVec 64) (l : Nat) : PEff Unit := do
  if l % 16 ≠ 0 then
    let x ← listEntry c plist (pagesFor l - 1)
    let d ← pDesc c h x
    if d.ref = 1 then pSetDesc c { d with valid := l % 16 }
  setNpage c ra (pagesFor l)
  let (clen, _) ← recLens c ra
  setLens ra clen l

/-! ## The damage step (R419) -/

/-- The lowest slot of a page in a damage list. -/
def lowestSlot (l : List (Nat × Nat)) (x : Nat) : Option Nat := least ((l.filter fun e => decide (e.2 = x)).map (·.1))

/-- The lowest damaged position of a sequence from entry `p` on. -/
def damagedFrom (c : PCtx) (h : PoolHdr) (plist : BitVec 64) : Nat → Nat → PEff (Option Nat)
  | 0, _ => pure none
  | n + 1, p => do
    let x ← listEntry c plist p
    let d ← pDesc c h x
    let l ← pGets (·.damageOf c.die c.pool)
    match if d.flags / 2 % 2 = 1 then some 0 else lowestSlot l x with
    | some k => pure (some (16 * p + k))
    | none => damagedFrom c h plist n (p + 1)

/-- What a step of a key-value word comes to: its end with STATUS and COUNT, or more pieces with working values. -/
inductive KvRes where
  | ends (status count : Nat)
  | more (idx : List Nat)
  deriving DecidableEq, Repr

/-- The damage step on a record: none where the word runs as described. A page that the truncation meets with REF 0 is left alone and logged,
as `kvrel` does: STATUS 0x8B is one of `kvrel` and `kvtrunc` alone (R237), and R419 ends the word with 0x04 (DEDUCED, log 24). -/
def damageStep (c : PCtx) (h : PoolHdr) (ra : BitVec 64) : PEff (Option KvRes) := do
  let (clen, wlen) ← recLens c ra
  let plist ← recWord c ra 0
  match ← damagedFrom c h plist (pagesFor wlen) 0 with
  | none => return none
  | some d =>
    if wlen ≤ d then return none
    if clen ≤ d then
      let w3 ← recWord c ra 3
      let np := bits w3 31 0
      let _ ← releasePages c h plist (np - pagesFor d) (pagesFor d) (0, false)
      endTrunc c h ra plist d
      pLog ⟨c.die, 0x0B, 15, ra, BitVec.ofNat 64 d⟩
      return some (.ends 0x04 d)
    let w3 ← recWord c ra 3
    let seq ← recWord c ra 4
    setRecWord ra 3 (w3 ||| (1#64 <<< 32))
    pLog ⟨c.die, 0x0C, 15, ra, seq⟩
    pMod (postCompl ⟨4, 0, 0, BitVec.ofNat 32 clen, ra, seq⟩)
    return some (.ends 0x85 0)

/-! ## The words (R244 to R251) -/

/-- A word of the issuing tile's scratchpad as the controller consumes it: GLOVE at the word, precise (R245). -/
def spadKey (c : PCtx) (off : Nat) (named : BitVec 64) : PEff (BitVec 64) := do
  let t ← pGets State.tile
  match ← pCheck c (t.spad.read off) with
  | some v => pure v
  | none =>
    match c.lane with
    | some _ => pStop (.precise ⟨cGLOVE, 0, named, none⟩ [])
    | none => pStop (.precise ⟨cUGLOVE, 0, named, none⟩ [⟨c.die, 0x01, 15, named, 3#64⟩])

/-- Several of them in order. -/
def spadKeys (c : PCtx) (off : Nat) (named : BitVec 64) : Nat → Nat → PEff (List (BitVec 64))
  | 0, _ => pure []
  | n + 1, k => do
    let x ← spadKey c (off + 8 * k) (named + BitVec.ofNat 64 (8 * k))
    let rest ← spadKeys c off named n (k + 1)
    pure (x :: rest)

/-- Write a computed word of the issuing tile's scratchpad. -/
def spadPut (off : Nat) (v : BitVec 64) : PEff Unit := pMod fun s => s.writeSpad s.cur off (gloved v)

/-- What a step of a word has at hand: the pool, the record, the own offset of the word's scratchpad operand (the result of `kvlook`,
the source of `kvapp`, the block of `kvins` and `capsel`) and its address. -/
structure KvArgs where
  c : PCtx
  h : PoolHdr
  ra : BitVec 64
  off : Nat
  at' : BitVec 64
  cmd : DCmd

/-- L of the descriptor. -/
def KvArgs.l (k : KvArgs) : Nat := bits k.cmd.desc.data 31 0

/-- `kvlook` (R244). -/
def kvLook (k : KvArgs) : PEff KvRes := do
  let (clen, wlen) ← recLens k.c k.ra
  if wlen ≤ k.l then
    spadPut k.off (BitVec.allOnes 64)
    return .ends 0x83 0
  let plist ← recWord k.c k.ra 0
  let x ← listEntry k.c plist (k.l / 16)
  spadPut k.off (BitVec.ofNat 64 (x * 2 ^ 32 + (if clen ≤ k.l then 2 ^ 31 else 0) + k.l % 16))
  return .ends 0x00 k.l

/-- Write a head's K and V words of a token to slot `s` of a page's data (R231, R245). -/
def putToken (k : KvArgs) (pbase s hd : Nat) : Nat → PEff Unit
  | 0 => pure ()
  | n + 1 => do
    putToken k pbase s hd n
    let t ← pGets State.tile
    pPut k.c (pbase + 4096 * hd + 128 * s + 8 * n) (t.spad.read (k.off + 128 * hd + 8 * n))
    pPut k.c (pbase + 4096 * hd + 2048 + 128 * s + 8 * n) (t.spad.read (k.off + 2048 + 128 * hd + 8 * n))

/-- The data of a word that a lane has already checked. -/
def corrected (w : GWord) : BitVec 64 :=
  match checkWord w with
  | .ok v _ => v
  | .bad => w.data

/-- Write the heads of a token from head `hd` on, with their caps (R243, R245). -/
def putHeads (k : KvArgs) (d : PageDesc) (s : Nat) : Nat → Nat → PEff Unit
  | 0, _ => pure ()
  | n + 1, hd => do
    putToken k d.pbase s hd 16
    let t ← pGets State.tile
    let keys := (List.range 16).flatMap fun j => keysOf (corrected (t.spad.read (k.off + 128 * hd + 8 * j)))
    let cb := d.capb + 512 * hd
    if s = 0 then writeCaps k.c cb ⟨keys, keys⟩
    else
      let old ← readCaps k.c cb
      writeCaps k.c cb ⟨(old.mins.zip keys).map fun p => capMin p.1 p.2, (old.maxs.zip keys).map fun p => capMax p.1 p.2⟩
    putHeads k d s n (hd + 1)

/-- Write a token to slot `s` of page `x`; the slot leaves the damage list. VALID, NPAGE, then WLEN (R238, R245, R419). -/
def putSlot (k : KvArgs) (clen w x : Nat) : PEff Unit := do
  let s := w % 16
  let d ← pDesc k.c k.h x
  putHeads k d s k.h.hkv 0
  pSetDesc k.c { d with valid := s + 1 }
  pMod fun st => st.setDamage k.c.die k.c.pool ((st.damageOf k.c.die k.c.pool).filter fun e => decide (e ≠ (s, x)))
  setNpage k.c k.ra (w / 16 + 1)
  setLens k.ra clen (w + 1)

/-- `kvapp` (R242, R245). -/
def kvApp (k : KvArgs) : PEff KvRes := do
  let _ ← spadKeys k.c k.off k.at' (16 * k.h.hkv) 0
  let (clen, w) ← recLens k.c k.ra
  let plist ← recWord k.c k.ra 0
  let p := w / 16
  let s := w % 16
  if s = 0 then
    let w1 ← recWord k.c k.ra 1
    let w3 ← recWord k.c k.ra 3
    if bits w3 31 0 = bits w1 63 32 then return .ends 0x82 0
    match ← popPage k.c k.h with
    | none => return .ends 0x81 0
    | some x => do
      let d ← pDesc k.c k.h x
      pSetDesc k.c { d with ref := 1, valid := 0, flags := d.flags / 2 * 2 }
      setListEntry k.c plist p x
      putSlot k clen w x
      return .ends 0x00 (w + 1)
  else
    let x ← listEntry k.c plist p
    let d ← pDesc k.c k.h x
    if d.ref ≤ 1 then
      putSlot k clen w x
      return .ends 0x00 (w + 1)
    let t ← pGets State.tile
    if bit t.kvctl 0 then pStop (.precise ⟨cKVSHARE, 0, k.ra, none⟩ [])
    match ← copyPage k.c k.h plist p x s with
    | none => return .ends 0x81 0
    | some y => do
      putSlot k clen w y
      return .ends 0x03 (w + 1)

/-- `kvfork.unshare` (R246). -/
def kvUnshare (k : KvArgs) : PEff KvRes := do
  let (_, w) ← recLens k.c k.ra
  if w % 16 = 0 then return .ends 0x00 0
  let plist ← recWord k.c k.ra 0
  let x ← listEntry k.c plist (w / 16)
  let d ← pDesc k.c k.h x
  if d.ref ≤ 1 then return .ends 0x00 0
  match ← copyPage k.c k.h plist (w / 16) x (w % 16) with
  | none => return .ends 0x81 0
  | some _ => return .ends 0x03 1

/-- Whether some page of a list cannot take another reference (R246). -/
def refFull (k : KvArgs) (plist : BitVec 64) : Nat → Nat → PEff Bool
  | 0, _ => pure false
  | n + 1, p => do
    let x ← listEntry k.c plist p
    let d ← pDesc k.c k.h x
    if d.ref + 1 ≥ 2 ^ 32 then return true
    refFull k plist n (p + 1)

/-- Share entries `p` on, `n` of them, with a child's list (R246). -/
def sharePages (k : KvArgs) (plist clist : BitVec 64) : Nat → Nat → PEff Unit
  | 0, _ => pure ()
  | n + 1, p => do
    let x ← listEntry k.c plist p
    let d ← pDesc k.c k.h x
    setListEntry k.c clist p x
    pSetDesc k.c { d with ref := d.ref + 1 }
    sharePages k plist clist n (p + 1)

/-- The piece at a place of a word over pages [lo, hi): its first page, its length, and whether it is the last (R239). -/
def pieceOf (k : KvArgs) (lo hi : Nat) : Nat × Nat × Bool :=
  let a := lo + 64 * k.cmd.prog
  (a, min 64 (hi - a), decide (hi ≤ a + 64))

/-- `kvfork` (R246): the parent's lengths are those its first step reads. -/
def kvFork (k : KvArgs) : PEff KvRes := do
  let ch := k.cmd.aD.data
  let plist ← recWord k.c k.ra 0
  let clist ← recWord k.c ch 0
  let vals ← (if k.cmd.idx.isEmpty then do
    let (clen, wlen) ← recLens k.c k.ra
    let np := bits (← recWord k.c k.ra 3) 31 0
    let w1 ← recWord k.c k.ra 1
    let c1 ← recWord k.c ch 1
    let (cc, cw) ← recLens k.c ch
    let cn := bits (← recWord k.c ch 3) 31 0
    if bits c1 31 0 ≠ bits w1 31 0 then pure (.inl 0x8C)
    else if cc ≠ 0 ∨ cw ≠ 0 ∨ cn ≠ 0 then pure (.inl 0x86)
    else if bits c1 63 32 < np then pure (.inl 0x82)
    else if ← refFull k plist np 0 then pure (.inl 0x87)
    else pure (.inr [np, clen, wlen])
    else pure (.inr k.cmd.idx) : PEff (Nat ⊕ List Nat))
  match vals with
  | .inl st => return .ends st 0
  | .inr v => do
    let np := v.getD 0 0
    let (a, n, last) := pieceOf k 0 np
    sharePages k plist clist n a
    if !last then return .more v
    setNpage k.c ch np
    setLens ch (v.getD 1 0) (v.getD 2 0)
    return .ends 0x00 np

/-- A Boolean among working values. -/
def flagNat (b : Bool) : Nat := if b then 1 else 0

/-- `kvrel` (R247). -/
def kvRel (k : KvArgs) : PEff KvRes := do
  let plist ← recWord k.c k.ra 0
  let w3 ← recWord k.c k.ra 3
  let np := k.cmd.idx.headD (bits w3 31 0)
  let (a, n, last) := pieceOf k 0 np
  let (ret, bad) ← releasePages k.c k.h plist n a (k.cmd.idx.getD 1 0, decide (k.cmd.idx.getD 2 0 = 1))
  if !last then return .more [np, ret, flagNat bad]
  setRecWord k.ra 3 (setBits w3 32 0 0)
  setLens k.ra 0 0
  return .ends (if bad then 0x8B else 0x00) ret

/-- `kvcommit` (R247). -/
def kvCommit (k : KvArgs) : PEff KvRes := do
  let (clen, wlen) ← recLens k.c k.ra
  if k.l < clen ∨ wlen < k.l then return .ends 0x83 0
  setLens k.ra k.l wlen
  return .ends 0x00 k.l

/-- `kvtrunc` (R247): one that meets a page with REF 0 ends with 0x8B, which changes no structure (R237), as far as its first step can tell;
a page whose REF becomes 0 between two of its pieces is left alone, and the word that has returned others by then ends with 0x8B. -/
def kvTrunc (k : KvArgs) : PEff KvRes := do
  let (clen, wlen) ← recLens k.c k.ra
  if k.cmd.idx.isEmpty ∧ (k.l < clen ∨ wlen < k.l) then return .ends 0x83 0
  let plist ← recWord k.c k.ra 0
  let np := k.cmd.idx.headD (bits (← recWord k.c k.ra 3) 31 0)
  let bad ← (if k.cmd.idx.isEmpty then unreferenced k.c k.h plist [] (np - pagesFor k.l) (pagesFor k.l) else pure [] : PEff (List Nat))
  if !bad.isEmpty then
    logUnreferenced k.c bad
    return .ends 0x8B 0
  let (a, n, last) := pieceOf k (pagesFor k.l) np
  let (ret, met) ← releasePages k.c k.h plist n a (k.cmd.idx.getD 1 0, decide (k.cmd.idx.getD 2 0 = 1))
  if !last then return .more [np, ret, flagNat met]
  endTrunc k.c k.h k.ra plist k.l
  return if met then .ends 0x8B 0 else .ends 0x00 ret

/-- The minimum and maximum of each channel over slots 0 to `n − 1` of a head, one K word of 8 channels of a slot at a time. A word that
cannot be read is logged, its slot entered in the damage list, and its channels left open (R248). -/
def recapWord (k : KvArgs) (x base w : Nat) : Nat → PEff (List Nat × List Nat × Bool)
  | 0 => pure (List.replicate 8 posInf16, List.replicate 8 negInf16, true)
  | n + 1 => do
    let (lo, hi, ok) ← recapWord k x base w n
    let a := base + 128 * n + 8 * w
    match ← pChecked k.c a with
    | some v =>
      let ks := keysOf v
      if ok then pure ((lo.zip ks).map (fun p => capMin p.1 p.2), (hi.zip ks).map (fun p => capMax p.1 p.2), true)
      else pure (lo, hi, false)
    | none => do
      pLog ⟨k.c.die, 0x01, 15, BitVec.ofNat 64 a, 0#64⟩
      pDamage k.c k.h x n
      pure (List.replicate 8 negInf16, List.replicate 8 posInf16, false)

/-- The caps of a head over `n` slots, from K word `w` on. -/
def recapHead (k : KvArgs) (x base n : Nat) : Nat → Nat → PEff Caps
  | 0, _ => pure ⟨[], []⟩
  | m + 1, w => do
    let (lo, hi, _) ← recapWord k x base w n
    let rest ← recapHead k x base n m (w + 1)
    pure ⟨lo ++ rest.mins, hi ++ rest.maxs⟩

/-- Recompute the caps of a page from head `hd` on. -/
def recapHeads (k : KvArgs) (x : Nat) (d : PageDesc) : Nat → Nat → PEff Unit
  | 0, _ => pure ()
  | m + 1, hd => do
    let v ← recapHead k x (d.pbase + 4096 * hd) (min 16 d.valid) 16 0
    writeCaps k.c (d.capb + 512 * hd) v
    recapHeads k x d m (hd + 1)

/-- Recompute the caps of entries `p` on, `n` of them; a page with VALID 0 keeps its own (R248). How many were recomputed. -/
def recapPages (k : KvArgs) (plist : BitVec 64) : Nat → Nat → PEff Nat
  | 0, _ => pure 0
  | n + 1, p => do
    let x ← listEntry k.c plist p
    let d ← pDesc k.c k.h x
    if d.valid = 0 then recapPages k plist n (p + 1)
    else
      recapHeads k x d k.h.hkv 0
      let m ← recapPages k plist n (p + 1)
      pure (m + 1)

/-- `kvrecap` (R248): COUNT is the pages recomputed (R237). -/
def kvRecap (k : KvArgs) : PEff KvRes := do
  let plist ← recWord k.c k.ra 0
  let np := k.cmd.idx.headD (bits (← recWord k.c k.ra 3) 31 0)
  let (a, n, last) := pieceOf k 0 np
  let m ← recapPages k plist n a
  let done := k.cmd.idx.getD 1 0 + m
  if !last then return .more [np, done]
  return .ends 0x00 done

/-- `kvins` (R248): the bucket is at aA, the record at aD. -/
def kvIns (k : KvArgs) : PEff KvRes := do
  let bk := k.cmd.aA.data
  let key ← spadKey k.c k.off k.at'
  if key = 0#64 then return .ends 0x83 0
  let cur ← vRead k.c bk bk
  if cur = 0#64 then
    let (clen, _) ← recLens k.c k.ra
    let w1 ← recWord k.c k.ra 1
    vWrite (bk + 8#64) k.ra
    vWrite (bk + 16#64) (BitVec.ofNat 64 (clen + bits w1 31 0 * 2 ^ 32))
    vWrite bk key
    spadPut (k.off + 8) k.ra
    return .ends 0x00 0
  if cur = key then
    let seq ← vRead k.c (bk + 8#64) (bk + 8#64)
    spadPut (k.off + 8) seq
    return .ends 0x01 0
  spadPut (k.off + 8) 0#64
  return .ends 0x88 0

/-- bound(p) of a cap for a query (R250). -/
def capBound (q : List Nat) (v : Caps) : Nat :=
  roundNearest .fp32 (exactSum ((List.range 128).map fun c =>
    let x := elemValue .bf16 (q.getD c 0)
    (x.mul (elemValue .bf16 (v.mins.getD c 0))).maxv (x.mul (elemValue .bf16 (v.maxs.getD c 0)))))

/-- The bounds of entries `p` on, `n` of them, for head `hd`. -/
def capBounds (k : KvArgs) (plist : BitVec 64) (hd : Nat) (q : List Nat) : Nat → Nat → PEff (List Nat)
  | 0, _ => pure []
  | n + 1, p => do
    let x ← listEntry k.c plist p
    let d ← pDesc k.c k.h x
    let v ← readCaps k.c (d.capb + 512 * hd)
    let rest ← capBounds k plist hd q n (p + 1)
    pure (capBound q v :: rest)

/-- Write the entries of a list (R251). -/
def putEntries : Nat → List (Nat × Nat) → PEff Unit
  | _, [] => pure ()
  | off, (p, b) :: t => do
    spadPut off (BitVec.ofNat 64 (b * 2 ^ 32 + p))
    putEntries (off + 8) t

/-- The pages a selection lists, in ascending order, with their bounds (R250): `thr` is the threshold's code in that mode. -/
def selectPages (sink window top : Nat) (thr : Option Nat) (bs : List Nat) : List (Nat × Nat) :=
  let n := bs.length
  let ps := (List.range n).zip bs
  let always := fun (p : Nat) => decide (p < min sink n ∨ n - window ≤ p)
  let others := ps.filter fun x => !always x.1
  let kept := match thr with
    | some h => others.filter fun (x : Nat × Nat) => !(elemValue .fp32 x.2).lt (elemValue .fp32 h) && decide (elemValue .fp32 x.2 ≠ FVal.nan) &&
        decide (elemValue .fp32 h ≠ FVal.nan)
    | none => (rankAll others).take top
  ps.filter fun x => always x.1 || kept.contains x

/-- `capsel` (R249 to R251). -/
def capSel (k : KvArgs) (listOff : Nat) (thr : Bool) : PEff KvRes := do
  let lmax := bits k.cmd.aD.data 47 32
  let w0 ← spadKey k.c k.off k.at'
  let w1 ← spadKey k.c (k.off + 8) (k.at' + 8#64)
  let hd := bits w0 35 32
  if bits w0 63 36 ≠ 0 ∨ k.h.hkv ≤ hd then return .ends 0x83 0
  let (_, wlen) ← recLens k.c k.ra
  let leno := bits w1 63 32
  let len := if leno = 2 ^ 32 - 1 then wlen else min leno wlen
  let header := fun (n : Nat) => do
    spadPut listOff (BitVec.ofNat 64 (len + n % 2 ^ 28 * 2 ^ 32 + hd * 2 ^ 60))
    spadPut (listOff + 8) k.ra
  if len = 0 then
    header 0
    return .ends 0x02 0
  let qs ← spadKeys k.c (k.off + 16) (k.at' + 16#64) 32 0
  let q := qs.flatMap fun w => (List.range 4).map fun j => elemOf 16 w j
  let plist ← recWord k.c k.ra 0
  let bs ← capBounds k plist hd q (pagesFor len) 0
  let l := selectPages (bits w0 7 0) (bits w0 15 8) (bits w0 31 16) (if thr then some (bits w1 31 0) else none) bs
  header l.length
  if lmax < l.length then return .ends 0x89 l.length
  putEntries (listOff + 16) l
  return .ends 0x00 l.length

/-! ## Steps (R233, R239) -/

/-- The own offset of a scratchpad operand; it was found to be one at issue. -/
def ownOff (g sa : Nat) : Nat := match spadPlace g sa with | .own off => off | _ => 0

/-- One step of a key-value word (R229, R233, R240, R419). -/
def kvBody (g : Nat) (cmd : DCmd) (op : Nat) (mode : Bool) : PEff KvRes := do
  let ra := if op = 6 then cmd.aD.data else cmd.aA.data
  let t ← pGets (·.tileAt g)
  let w1 ← recWord (unitCtx (g / 16) ra) ra 1
  let pid := bits w1 31 0
  if !poolIdOk pid then return .ends 0x8C 0
  let c : PCtx := ⟨pid % 32, pid / 256 % 16, classD t, ra, ra, none⟩
  let sa := if op = 0 ∨ op = 1 then bits cmd.aD.data 31 0 else bits cmd.desc.data 31 0
  match ← pHeader c cmd.idx.isEmpty with
  | none => return .ends 0x8C 0
  | some h => do
    let k : KvArgs := ⟨c, h, ra, ownOff g sa, BitVec.ofNat 64 sa, cmd⟩
    let early ← (if !cmd.idx.isEmpty || decide (op = 3) then pure none
      else do
        let w3 ← recWord c ra 3
        if bit w3 32 then pure (some (.ends 0x85 0))
        else if op = 6 then pure none
        else damageStep c h ra : PEff (Option KvRes))
    match early with
    | some r => return r
    | none =>
      match op with
      | 0 => kvLook k
      | 1 => kvApp k
      | 2 => if mode then kvUnshare k else kvFork k
      | 3 => kvRel k
      | 4 => kvCommit k
      | 5 => kvTrunc k
      | 6 => kvIns k
      | 7 => kvRecap k
      | _ => capSel k (ownOff g (bits cmd.aD.data 31 0)) mode

/-- Pass D's word when it is the one whose first step has been performed (R352). -/
def passKv (c : DCmd) (g : Nat) (s : State) : State :=
  let t := s.tileAt g
  if t.eD.pos = c.ref.idx then s.setTileAt g (t.pass .D) else s

/-- The word ends (R237). Popping its record acquires what the word has written (R110, R238). -/
def endKv (g i : Nat) (c : DCmd) (status count : Nat) (s : State) : State := passKv c g (endCommand g i c status count s)

/-- A fault of a step: precise while D is at the word, else late (R352, R354). -/
def faultKv (g i : Nat) (c : DCmd) (late : Bool) (x : TrapInfo) (logs : List LogReq) (s : State) : State :=
  let t := s.tileAt g
  if t.eD.pos = c.ref.idx ∧ ¬ late then preciseTrap .D x logs (s.setTileAt g (t.dropCmd i))
  else
    let s := logErrors logs s
    let t := s.tileAt g
    passKv c g (s.setTileAt g ((t.lateFault x c.ref).setCmd i { c with faulted := true }))

/-- Perform the next step of command `i` of tile `g` (R233, R420). -/
def kvStep (g i : Nat) (c : DCmd) (op : Nat) (mode : Bool) (s : State) : Host.Outcome State Fault Refusal :=
  let s := { s with cur := g }
  let wrote := fun (l : List (Nat × Nat)) => { c with pranges := l.foldl joinRange c.pranges }
  match (kvBody g c op mode).on s with
  | .ok (.ends st n, p) => .next (endKv g i (wrote p.wrote) st n p.s)
  | .ok (.more v, p) =>
    .next (passKv c g (p.s.setTileAt g ((p.s.tileAt g).setCmd i { wrote p.wrote with prog := c.prog + 1, idx := v })))
  | .error (.late x logs) => .next (faultKv g i c true x logs s)
  | .error (.precise x logs) => .next (faultKv g i c false x logs s)
  | .error (.disable x pa) => .next (endKv g i c 0x8C 0 (disablePool x pa s))
  | .error (.damaged _ _ _ _) => .next s
  | .error .wait => .next s
  | .error (.other (.fault f)) => .fault f
  | .error (.other (.refuse r)) => .refused r
  | .error (.other _) => .next s

/-- A key-value command. -/
def DKind.isKv : DKind → Bool
  | .kv _ _ => true
  | _ => false

/-- KV_STEP (R233, R239): steps of one tile follow its issue order, whether or not D holds a record (R64). -/
def execKvStep (g i : Nat) (s : State) : Host.Outcome State Fault Refusal :=
  let t := s.tileAt g
  match t.dcmds[i]? with
  | some c =>
    match c.kind with
    | .kv op mode =>
      if t.works ∧ ¬ c.faulted ∧ ¬ c.ended ∧ (t.dcmds.take i).all (fun x => !x.kind.isKv || x.ended) then
        kvStep g i c op mode s
      else .next s
    | _ => .next s
  | none => .next s

/-! ## Issue (R236, R249) -/

/-- A scratchpad operand: address, bytes, and the formats of its banks by first byte, end and accepted codes. -/
structure SpadOp where
  sa : Nat
  len : Nat
  banks : List (Nat × Nat × List Nat)

/-- The data fault of an own scratchpad operand (R236, R252): its first address outside. -/
def SpadOp.fault (o : SpadOp) (g : Nat) : List (Nat × Nat) :=
  match spadPlace g o.sa with
  | .own off => if 0x200000 < off + o.len then [(o.sa - off + 0x200000, 5)] else []
  | _ => [(o.sa, 5)]

/-- The first address of an operand in a bank whose format it does not accept (R82). -/
def SpadOp.badBank (o : SpadOp) (g : Nat) (t : Tile) : Option Nat :=
  match spadPlace g o.sa with
  | .own off =>
    (o.banks.filterMap fun x =>
      let lo := off + x.1
      let hi := min (off + x.2.1) 0x200000
      ((List.range (if hi ≤ lo then 0 else (hi - 1) / 65536 + 1 - lo / 65536)).filterMap fun j =>
        let b := lo / 65536 + j
        if x.2.2.contains (t.bank b).toNat then none else some (o.sa - off + max lo (b * 65536))).head?).head?
  | _ => none

/-- The range of an own operand. -/
def SpadOp.range (o : SpadOp) (g : Nat) : Nat × Nat := (ownOff g o.sa, o.len)

/-- The data fault that D's translation finds at a virtual operand now (R223, R443). -/
def virtFault (va : BitVec 64) (r : Rights) (s : State) : List (Nat × Nat) :=
  match (dPlace va r).run s with
  | .error (.trap i _) => if i.cause = cDFLT then [(i.info.toNat, i.sub)] else []
  | _ => []

/-- What that translation adds to the trap of a word that faults: the log entry of a malformed entry, the corrections the walk has counted
(R372, R376). -/
def virtLogs (g : Nat) (va : BitVec 64) (r : Rights) (s : State) : List LogReq :=
  match (dPlace va r).run s with
  | .error (.trap _ logs) => logs
  | .ok (_, u) => countReq (g / 16) (u.dieReg (g / 16) 0x30050 - s.dieReg (g / 16) 0x30050).toNat
  | _ => []

/-- The data of a doubleword of program memory at a tile's address, where it translates now. -/
def State.peekVirt (s : State) (g : Nat) (va : BitVec 64) : BitVec 64 :=
  match s.physRanges g va.toNat 8 with
  | r :: _ => (s.mem.read r.1).data
  | [] => 0#64

/-- The words of a record that say where the word's other memory lies: page list, capacity, pages, pool. -/
def State.recordMemory (s : State) (g : Nat) (ra : BitVec 64) : List (Nat × Nat) :=
  s.physRanges g (s.peekVirt g ra).toNat (4 * bits (s.peekVirt g (ra + 8#64)) 63 32)

/-- The pool structures that a word on a record may reach: header, descriptors and free stack (R230, R232). -/
def State.poolMemory (s : State) (g : Nat) (ra : BitVec 64) : List (Nat × Nat) :=
  let pid := bits (s.peekVirt g (ra + 8#64)) 31 0
  match s.poolAddr (pid % 32) (pid / 256 % 16) with
  | none => []
  | some h =>
    let w := fun k => (s.mem.read (h + 8 * k)).data
    [(h, 64), ((w 0).toNat, 32 * bits (w 2) 31 0), ((w 1).toNat, 4 * bits (w 2) 31 0)]

/-- The data and caps of a page by its number (R231, R232). -/
def State.pageMemory (s : State) (g : Nat) (ra : BitVec 64) (x : Nat) : List (Nat × Nat) :=
  let pid := bits (s.peekVirt g (ra + 8#64)) 31 0
  match s.poolAddr (pid % 32) (pid / 256 % 16) with
  | none => []
  | some h =>
    let hkv := bits (s.mem.read (h + 16)).data 39 32
    let d := (s.mem.read h).data.toNat + 32 * x
    [((s.mem.read d).data.toNat, 4096 * hkv), ((s.mem.read (d + 8)).data.toNat, 512 * hkv)]

/-- The data and caps of the listed pages and of the page on top of the free stack. -/
def State.pagesMemory (s : State) (g : Nat) (ra : BitVec 64) : List (Nat × Nat) :=
  let plist := s.peekVirt g ra
  let entry := fun (p : Nat) =>
    let a := entryVa plist p
    bits (s.peekVirt g (a &&& ~~~7#64)) (32 * (a.toNat / 4 % 2) + 31) (32 * (a.toNat / 4 % 2))
  let listed := (List.range (bits (s.peekVirt g (ra + 24#64)) 31 0)).map entry
  let pid := bits (s.peekVirt g (ra + 8#64)) 31 0
  let free := match s.poolAddr (pid % 32) (pid / 256 % 16) with
    | none => []
    | some h =>
      let a := (s.mem.read (h + 8)).data.toNat + 4 * (bits (s.mem.read (h + 24)).data 31 0 - 1)
      [bits (s.mem.read a).data (a / 4 % 2 * 32 + 31) (a / 4 % 2 * 32)]
  (listed ++ free).flatMap (s.pageMemory g ra)

/-- Issue of a key-value word on records `ras` with other operands at `vas`: the dirty RC lines that its memory meets are written back,
the record's before what it names (R100, R110). -/
def kvWriteBack (g : Nat) (ras : List (BitVec 64)) (vas : List (BitVec 64 × Nat)) (s : State) : State :=
  if (s.tileAt g).cache.all fun p => decide (p.2.dirty = 0#16) then s
  else
    let s := issueWriteBack g (((ras.map (·, 64)) ++ vas).flatMap fun (v : BitVec 64 × Nat) => s.physRanges g v.1.toNat v.2) s
    let s := issueWriteBack g (ras.flatMap (s.recordMemory g)) s
    let s := issueWriteBack g (ras.flatMap (s.poolMemory g)) s
    issueWriteBack g (ras.flatMap (s.pagesMemory g)) s

/-- Codes of RAW and INT64, of RAW and E4M3, of RAW and BF16 (R81). -/
def rawInt64 : List Nat := [15, 3]
def rawE4m3 : List Nat := [15, 5]
def rawBf16 : List Nat := [15, 1]

/-- Issue a key-value word (R236, R249): it stands at D's head until its first step. -/
def issueKv (op : Nat) (mode : Bool) (d : Option (BitVec 4)) (a b : BitVec 4) (ev : BitVec 1) : Eff Unit := do
  waitRoom
  let g ← curTile
  let desc ← readA b.toNat
  let aA ← readA a.toNat
  let aD ← (match d with | some r => readA r.toNat | none => pure 0#64 : Eff (BitVec 64))
  let t ← getTile
  let l := bits desc 31 0
  let noL := decide (op = 1 ∨ op = 2 ∨ op = 3 ∨ op = 7)
  raiseIf (decide (bits desc 63 60 ≠ 0 ∨ bits desc 50 32 ≠ 0) || (noL && decide (l ≠ 0)) ||
    (decide (op = 8) && decide (bits aD 63 48 ≠ 0))) cDCMD 0 t.eD.pc
  let lmax := bits aD 47 32
  let da := bits aD 31 0
  let block : SpadOp := ⟨l, 272, [(0, 16, rawInt64), (16, 272, rawBf16)]⟩
  let list : SpadOp := ⟨da, 16 + 8 * lmax, [(0, 16 + 8 * lmax, rawInt64)]⟩
  -- scratchpad operands read, written; virtual operands with alignment and rights
  let (rds, wrs) := match op with
    | 0 => ([], [(⟨da, 8, [(0, 8, rawInt64)]⟩ : SpadOp)])
    | 1 => ([(⟨da, 4096, [(0, 4096, rawE4m3)]⟩ : SpadOp)], [])
    | 6 => ([(⟨l, 16, [(0, 16, rawInt64)]⟩ : SpadOp)], [(⟨l, 16, [(0, 16, rawInt64)]⟩ : SpadOp)])
    | 8 => ([block], [list])
    | _ => ([], [])
  let rw : Rights := ⟨true, true, false, 2⟩
  let virt : List (BitVec 64 × Nat × Rights) := match op with
    | 0 => [(aA, 64, Rights.load)]
    | 2 => if mode then [(aA, 64, rw)] else [(aA, 64, Rights.load), (aD, 64, rw)]
    | 6 => [(aD, 64, Rights.load), (aA, 32, rw)]
    | 7 => [(aA, 64, Rights.load)]
    | 8 => [(aA, 64, Rights.load)]
    | _ => [(aA, 64, rw)]
  let ops := rds ++ wrs
  match virt.find? fun v => decide (v.1.toNat % v.2.1 ≠ 0) with
  | some v => raise cALIGN 0 v.1
  | none => pure ()
  match ops.find? fun o => decide (o.sa % 8 ≠ 0) with
  | some o => raise cALIGN 0 (BitVec.ofNat 64 o.sa)
  | none => pure ()
  let s ← getsState id
  withLogs (virt.flatMap fun v => virtLogs g v.1 v.2.2 s)
    (raiseLowest (virt.flatMap (fun v => virtFault v.1 v.2.2 s) ++ ops.flatMap (·.fault g)))
  match ops.findSome? (·.badBank g t) with
  | some x => raise cFMT 0 (BitVec.ofNat 64 x)
  | none => pure ()
  let rd := rds.map (·.range g)
  let wr := wrs.map (·.range g)
  rangeCheck t.eD.pos rd wr
  let w ← refD
  let ras := if op = 6 then [aD] else if op = 2 ∧ !mode then [aA, aD] else [aA]
  modState (kvWriteBack g ras (if op = 6 then [(aA, 32)] else []))
  launchD ⟨w, .kv op mode, gloved aD, gloved aA, gloved desc, 0#9, [], none, 0#64, rd, wr, 0, false, false, none,
    bits desc 59 51, decide (ev = 1#1), 0, 0, [], [], false⟩

/-- Run a key-value word: issued once, it waits for its first step. -/
def runKv (op : Nat) (mode : Bool) (g : BitVec 4) (d : Option (BitVec 4)) (a b : BitVec 4) (ev : BitVec 1) (s : State) :
    Host.Outcome State Fault Refusal :=
  runEHold .D g (do
    let t ← getTile
    if !t.dcmds.any (fun c => decide (c.ref.idx = t.eD.pos)) then issueKv op mode d a b ev
    pure false) s

/-- `kvlook` (R244). -/
def execKvlook (g d a b : BitVec 4) (e : BitVec 1) (s : State) : Host.Outcome State Fault Refusal := runKv 0 false g (some d) a b e s

/-- `kvapp` (R245). -/
def execKvapp (g d a b : BitVec 4) (e : BitVec 1) (s : State) : Host.Outcome State Fault Refusal := runKv 1 false g (some d) a b e s

/-- `kvfork` (R246). -/
def execKvfork (g d a b : BitVec 4) (e : BitVec 1) (s : State) : Host.Outcome State Fault Refusal := runKv 2 false g (some d) a b e s

/-- `kvfork.unshare` (R246). -/
def execKvforkUnshare (g a b : BitVec 4) (e : BitVec 1) (s : State) : Host.Outcome State Fault Refusal := runKv 2 true g none a b e s

/-- `kvrel` (R247). -/
def execKvrel (g a b : BitVec 4) (e : BitVec 1) (s : State) : Host.Outcome State Fault Refusal := runKv 3 false g none a b e s

/-- `kvcommit` (R247). -/
def execKvcommit (g a b : BitVec 4) (e : BitVec 1) (s : State) : Host.Outcome State Fault Refusal := runKv 4 false g none a b e s

/-- `kvtrunc` (R247). -/
def execKvtrunc (g a b : BitVec 4) (e : BitVec 1) (s : State) : Host.Outcome State Fault Refusal := runKv 5 false g none a b e s

/-- `kvins` (R248). -/
def execKvins (g d a b : BitVec 4) (e : BitVec 1) (s : State) : Host.Outcome State Fault Refusal := runKv 6 false g (some d) a b e s

/-- `kvrecap` (R248). -/
def execKvrecap (g a b : BitVec 4) (e : BitVec 1) (s : State) : Host.Outcome State Fault Refusal := runKv 7 false g none a b e s

/-- `capsel` (R249 to R251). -/
def execCapsel (g d a b : BitVec 4) (e : BitVec 1) (s : State) : Host.Outcome State Fault Refusal := runKv 8 false g (some d) a b e s

/-- `capsel.thr` (R250). -/
def execCapselThr (g d a b : BitVec 4) (e : BitVec 1) (s : State) : Host.Outcome State Fault Refusal := runKv 8 true g (some d) a b e s

end Sys2Proof.Machine
end

