-- ==== Sys2Proof/Machine/Attend.lean ====
section
/-!
DEFINITION. Streaming attention, `attg` (R252 to R254).
-/

namespace Sys2Proof.Machine

/-- Round(FP32, a / b, RNE) (R253): ∞ / ∞ and 0 / 0 are NaN; a finite value over zero is infinite. -/
def div32 (a b : FVal) : Nat :=
  let neg := xor a.sign b.sign
  match a, b with
  | .nan, _ => canonNan .fp32
  | _, .nan => canonNan .fp32
  | .inf _, .inf _ => canonNan .fp32
  | .inf _, .fin _ _ _ => infCode .fp32 neg
  | .fin _ _ _, .inf _ => signBit .fp32 neg
  | .fin _ m e, .fin _ k d =>
    if k = 0 then (if m = 0 then canonNan .fp32 else infCode .fp32 neg)
    else if m = 0 then signBit .fp32 neg
    else
      let x := Nat.log2 k + 64
      let n := m * 2 ^ x
      roundNearest .fp32 (.fin neg (2 * (n / k) + (if n % k = 0 then 0 else 1)) (e - d - x - 1))

/-- An acquire load of program memory by V at `.pkg` (R253): GLOVE names `named`. An address in a remote window is a data fault: only `vstm`
reaches one through the aperture (R96). -/
def acqRead (va named : BitVec 64) : PEff (BitVec 64) := pVirt (do
  checkAddr va 4
  modTile (acquireAt 3)
  let p ← placeOf va Rights.load
  raiseIf (!p.isHere) cDFLT 5 va
  orderSO [va]
  check (← loadPlace p) named)

/-- The running values of the attention (R253): maximum, sum and the 128 outputs, all FP32 codes, and tokens used. -/
structure Attn where
  m : Nat
  l : Nat
  o : List Nat
  used : Nat
  deriving DecidableEq, Repr

/-- The values before the first token. -/
def Attn.init : Attn := ⟨infCode .fp32 true, 0, List.replicate 128 0, 0⟩

/-- The score of a key for a query: exact products and sum, rounded once (R253). -/
def scoreOf (q : List FVal) (key : List Nat) : Nat :=
  roundNearest .fp32 (exactSum ((q.zip key).map fun p => p.1.mul (elemValue .e4m3 p.2)))

/-- One token (R253). -/
def Attn.token (a : Attn) (s : Nat) (v : List Nat) : Attn :=
  let v32 := fun (x : Nat) => elemValue .fp32 x
  let a := if (v32 a.m).lt (v32 s) then
      let f := exp232 (v32 (subElem .fp32 a.m s))
      { a with m := s, l := mulElem .fp32 a.l f, o := a.o.map fun x => mulElem .fp32 x f }
    else a
  let e := exp232 (v32 (subElem .fp32 s a.m))
  { a with
    l := addElem .fp32 a.l e,
    o := (a.o.zip v).map fun p =>
      roundNearest .fp32 (exactSum [(elemValue .fp32 e).mul (elemValue .e4m3 p.2), elemValue .fp32 p.1]),
    used := a.used + 1 }

/-- The 128 K or V elements of a slot: an uncorrectable word stops the stream (R253, R418). -/
def slotElems (c : PCtx) (pa x slot : Nat) : Nat → PEff (List Nat)
  | 0 => pure []
  | n + 1 => do
    let rest ← slotElems c pa x slot n
    match ← pChecked c (pa + 8 * n) with
    | some w => pure (rest ++ (List.range 8).map fun j => elemOf 8 w j)
    | none => pStop (.damaged c x slot (pa + 8 * n))

/-- Stream `n` slots of a head's page from slot `t` on. -/
def streamSlots (c : PCtx) (base x : Nat) (q : List FVal) : Nat → Nat → Attn → PEff Attn
  | 0, _, a => pure a
  | n + 1, t, a => do
    let k ← slotElems c (base + 128 * t) x t 16
    let v ← slotElems c (base + 2048 + 128 * t) x t 16
    streamSlots c base x q n (t + 1) (a.token (scoreOf q k) v)

/-- Stream the listed pages. -/
def streamPages (c : PCtx) (h : PoolHdr) (plist : BitVec 64) (hd len : Nat) (q : List FVal) : List Nat → Attn → PEff Attn
  | [], a => pure a
  | p :: rest, a => do
    let ea := entryVa plist p
    let w ← acqRead ea ea
    let x := bits w (32 * (ea.toNat / 4 % 2) + 31) (32 * (ea.toNat / 4 % 2))
    let c' := { c with named := ea }
    let d ← pDesc c' h x
    let n := min (min 16 (len - 16 * p)) d.valid
    let a ← streamSlots c' (d.pbase + 4096 * hd) x q n 0 a
    streamPages c h plist hd len q rest a

/-- The entries of a list: each above the one before and below a number of pages; none where one is not (R252). -/
def listPages (c : PCtx) (off : Nat) (named : BitVec 64) (pages : Nat) : Nat → Nat → Option Nat → PEff (Option (List Nat))
  | 0, _, _ => pure (some [])
  | n + 1, i, prev => do
    let w ← spadKey c (off + 8 * i) (named + BitVec.ofNat 64 (8 * i))
    let p := bits w 31 0
    let low := (prev.map fun x => decide (p ≤ x)).getD false
    if low || decide (pages ≤ p) then return none
    match ← listPages c off named pages n (i + 1) (some p) with
    | some l => return some (p :: l)
    | none => return none

/-- The two words after the outputs (R254). -/
def attnTail (a : Attn) (mode : Nat) (o : List Nat) : List Nat :=
  let last := if mode = 0 then
      (if a.used = 0 then infCode .fp32 true else addElem .fp32 a.m (log232 (elemValue .fp32 a.l)))
    else a.m + a.l * 2 ^ 32
  let isNan := fun (x : Nat) => decide (elemValue .fp32 (x % 2 ^ 32) = .nan)
  let nan := o.any isNan || isNan last || isNan (last / 2 ^ 32)
  [last, a.used % 2 ^ 32 + (if a.used = 0 then 2 ^ 32 else 0) + (if nan then 2 ^ 33 else 0)]

/-- The output of `attg` as doublewords (R253, R254). -/
def attnOut (a : Attn) (mode : Nat) : List GWord :=
  let o := if mode = 0 ∧ a.used ≠ 0 then a.o.map (fun x => div32 (elemValue .fp32 x) (elemValue .fp32 a.l)) else a.o
  let tail := attnTail a mode o
  ((List.range 64).map fun k => gloved (wordOf 32 fun j => o.getD (2 * k + j) 0)) ++
    tail.map fun x => gloved (BitVec.ofNat 64 x)

/-- KVBAD at the list (R252). -/
def kvBad {α : Type} (at' : Nat) : PEff α := pStop (.precise ⟨cKVBAD, 0, BitVec.ofNat 64 at', none⟩ [])

/-- The whole of an `attg` (R253): what it writes. -/
def attgBody (g : Nat) (r : AttgRun) : PEff (List GWord) := do
  let list := BitVec.ofNat 64 r.list
  let off := ownOff g r.list
  let t ← pGets (·.tileAt g)
  let c0 : PCtx := ⟨g / 16, 0, classSV t, 0#64, 0#64, some g⟩
  let h0 ← spadKey c0 off list
  let ra ← spadKey c0 (off + 8) (list + 8#64)
  let cnt := bits h0 59 32
  let hd := bits h0 63 60
  if r.lmax < cnt then kvBad r.list
  let word := fun (k : Nat) => acqRead (ra + BitVec.ofNat 64 (8 * k)) (ra + BitVec.ofNat 64 (8 * k))
  let pid := bits (← word 1) 31 0
  if !poolIdOk pid then kvBad r.list
  let c : PCtx := ⟨pid % 32, pid / 256 % 16, classSV t, ra, ra, some g⟩
  match ← pHeader c true with
  | none => kvBad r.list
  | some h => do
    if h.hkv ≤ hd then kvBad r.list
    let len := min (bits h0 31 0) (bits (← word 2) 63 32)
    match ← listPages c (off + 16) (list + 16#64) (pagesFor len) cnt 0 none with
    | none => kvBad r.list
    | some ps => do
      let qs ← spadKeys c (ownOff g r.q) (BitVec.ofNat 64 r.q) 32 0
      let q := qs.flatMap fun w => (List.range 4).map fun j => elemValue .bf16 (elemOf 16 w j)
      let plist ← word 0
      let a ← streamPages c h plist hd len q ps Attn.init
      pure (attnOut a r.mode)

/-- A precise trap of V's word at the end of its `attg`. -/
def attgTrap (x : TrapInfo) (logs : List LogReq) (s : State) : State := preciseTrap .V x logs s

/-- GLOVE of an `attg` for the word at physical address `pa`, of which TADDR names the page-list entry or the record: the tile's lane
met it (R91, R253, R412, R414). `damage` is what the pool's controller does first; where the tile cannot take the trap yet, the word ends
again later and nothing is done now. -/
def attgGlove (named : BitVec 64) (pa : Nat) (damage : State → State) (s : State) : State :=
  if s.trapWaits ⟨cUGLOVE, 0, named, none⟩ then s
  else
  let s := damage s
  let s := s.setTile { s.tile with guc := s.tile.guc + 1#64 }
  attgTrap ⟨cUGLOVE, 0, named, none⟩ [⟨s.cur / 16, 0x01, s.cur % 16, BitVec.ofNat 64 pa, 3#64⟩] s

/-- The slot of an uncorrectable word enters the pool's damage list (R418, R419). -/
def attgDamage (c : PCtx) (x slot : Nat) (s : State) : State :=
  let r := (do
    match ← pHeader c false with
    | some h => pDamage c h x slot
    | none => pure () : PEff Unit).on s
  match r with
  | .ok (_, p) => p.s
  | .error _ => s

/-- An s register's data where its glove lets it be read. -/
def Tile.peekS (t : Tile) (r : Nat) : Option (BitVec 64) :=
  match checkWord (t.getS r) with
  | .ok d _ => some d
  | .bad => none

/-- The operands of an `attg`: the list and LMAX, the query, the output (R252). -/
def attgList (sa : BitVec 64) : SpadOp := ⟨bits sa 31 0, 16 + 8 * bits sa 47 32, [(0, 16 + 8 * bits sa 47 32, rawInt64)]⟩
def attgQuery (sb : BitVec 64) : SpadOp := ⟨bits sb 31 0, 256, [(0, 256, rawBf16)]⟩
def attgOutput (sd : BitVec 64) : SpadOp := ⟨bits sd 31 0, 528, [(0, 512, [15, 0]), (512, 528, rawInt64)]⟩

/-- Settle the operands of an `attg` (R174, R252): formats, of the operands whose registers can be read, then the registers' gloves,
then regions, then alignment. It stands at V's head until it completes. -/
def issueAttg (d a b : BitVec 4) (mode : Nat) : Eff Unit := do
  let g ← curTile
  let t ← getTile
  let known := ((t.peekS a.toNat).map attgList).toList ++ ((t.peekS b.toNat).map attgQuery).toList ++
    ((t.peekS d.toNat).map attgOutput).toList
  match known.findSome? (·.badBank g t) with
  | some x => raise cFMT 0 (BitVec.ofNat 64 x)
  | none => pure ()
  let sd ← readS d.toNat
  let sa ← readS a.toNat
  let sb ← readS b.toNat
  let list := attgList sa
  let q := attgQuery sb
  let out := attgOutput sd
  let ops := [list, q, out]
  raiseLowest (ops.flatMap (·.fault g))
  match ops.find? fun o => decide (o.sa % 8 ≠ 0) with
  | some o => raise cALIGN 0 (BitVec.ofNat 64 o.sa)
  | none => pure ()
  rangeCheck t.eV.pos (spanOf [list.range g, q.range g]) [out.range g]
  modTile fun t => { t with attg := some ⟨t.eV.pos, out.sa, q.sa, list.sa, bits sa 47 32, mode⟩ }

/-- `attg` (R252 to R254). -/
def execAttg (g d a b : BitVec 4) (m : BitVec 1) (s : State) : Host.Outcome State Fault Refusal :=
  runEHold .V g (do
    let t ← getTile
    if t.attg.isNone then issueAttg d a b m.toNat
    pure false) s

/-- ATTG_COMPLETE (R253, R254): the stream ends; its output is written and V passes the word, or it traps with nothing written. An
uncorrectable word of a page enters the damage list first; one of a descriptor or header disables the pool (R418, R420). -/
def execAttgComplete (g : Nat) (s : State) : Host.Outcome State Fault Refusal :=
  let t := s.tileAt g
  match t.attg with
  | none => .next s
  | some r =>
    if ¬ (t.works ∧ r.idx = t.eV.pos) then .next s
    else
      let s := { s with cur := g }
      match (attgBody g r).on s with
      | .ok (ws, p) =>
        let s := p.s
        let t := s.tileAt g
        let t := { t with spad := t.spad.writeList (ownOff g r.out) ws, attg := none }
        .next (s.setTileAt g (t.pass .V))
      | .error (.precise x logs) => .next (attgTrap x logs s)
      | .error (.late x logs) => .next (attgTrap x logs s)
      | .error (.disable c pa) => .next (attgGlove c.named pa (disablePool c pa) s)
      | .error (.damaged c x slot pa) => .next (attgGlove c.named pa (attgDamage c x slot) s)
      | .error .wait => .next s
      | .error (.other (.fault f)) => .fault f
      | .error (.other (.refuse q)) => .refused q
      | .error (.other _) => .next s

end Sys2Proof.Machine
end

