-- ==== Sys2Proof/Machine/Firmware.lean ====
section
/-!
DEFINITION. What the boot ROM computes over a firmware image (R421): SHA-256 of the public key, and RSA-3072 under PKCS#1 v2.2 PSS with
SHA-256, MGF1 with SHA-256 and a salt of 32 bytes. R421 names these functions and does not print them: they are FIPS 180-4's and PKCS#1's
(PRESUMED, log 32). A message is a length in bytes and a number that holds its bytes, the first one highest.
-/

namespace Sys2Proof.Machine

/-! ## SHA-256 -/

/-- Word `i` of a number that holds `n` words of 32 bits, the first highest. -/
def word32 (n v i : Nat) : Nat := v / 2 ^ (32 * (n - 1 - i)) % 2 ^ 32

/-- Rotate a 32-bit word right. -/
def turn32 (k x : Nat) : Nat := x / 2 ^ k + x * 2 ^ (32 - k) % 2 ^ 32

/-- The 64 round constants: the first 32 bits of the fractional parts of the cube roots of the first 64 primes. -/
def shaTable : Nat := 0x428a2f9871374491b5c0fbcfe9b5dba53956c25b59f111f1923f82a4ab1c5ed5d807aa9812835b01243185be550c7dc372be5d7480deb1fe9bdc06a7c19bf174e49b69c1efbe47860fc19dc6240ca1cc2de92c6f4a7484aa5cb0a9dc76f988da983e5152a831c66db00327c8bf597fc7c6e00bf3d5a7914706ca63511429296727b70a852e1b21384d2c6dfc53380d13650a7354766a0abb81c2c92e92722c85a2bfe8a1a81a664bc24b8b70c76c51a3d192e819d6990624f40e3585106aa07019a4c1161e376c082748774c34b0bcb5391c0cb34ed8aa4a5b9cca4f682e6ff3748f82ee78a5636f84c878148cc7020890befffaa4506cebbef9a3f7c67178f2

/-- The initial value: the first 32 bits of the fractional parts of the square roots of the first eight primes. -/
def shaStart : Nat := 0x6a09e667bb67ae853c6ef372a54ff53a510e527f9b05688c1f83d9ab5be0cd19

/-- The window of 16 schedule words moves on by one. -/
def shaSlide (w : Nat) : Nat :=
  let at' := word32 16 w
  let early := at' 1
  let late := at' 14
  let small := turn32 7 early ^^^ turn32 18 early ^^^ early / 2 ^ 3
  let large := turn32 17 late ^^^ turn32 19 late ^^^ late / 2 ^ 10
  w * 2 ^ 32 % 2 ^ 512 + (large + at' 9 + small + at' 0) % 2 ^ 32

/-- One round on the eight working words, which move down one place: the first and the fifth are new. -/
def shaRound (k w v : Nat) : Nat :=
  let at' := word32 8 v
  let mix := turn32 6 (at' 4) ^^^ turn32 11 (at' 4) ^^^ turn32 25 (at' 4)
  let choice := (at' 4 &&& at' 5) ^^^ ((2 ^ 32 - 1 - at' 4) &&& at' 6)
  let sum := at' 7 + mix + choice + k + w
  let blend := turn32 2 (at' 0) ^^^ turn32 13 (at' 0) ^^^ turn32 22 (at' 0)
  let most := (at' 0 &&& at' 1) ^^^ (at' 0 &&& at' 2) ^^^ (at' 1 &&& at' 2)
  v / 2 ^ 32 - at' 3 * 2 ^ 96 + (at' 3 + sum) % 2 ^ 32 * 2 ^ 96 + (sum + blend + most) % 2 ^ 32 * 2 ^ 224

/-- The last `n` of the 64 rounds. -/
def shaRounds : Nat → Nat → Nat → Nat
  | 0, _, v => v
  | n + 1, w, v => shaRounds n (shaSlide w) (shaRound (word32 64 shaTable (63 - n)) (word32 16 w 0) v)

/-- Add two numbers of eight words word by word. -/
def addWords (a b : Nat) : Nat := (List.range 8).foldl (fun n i => n * 2 ^ 32 + (word32 8 a i + word32 8 b i) % 2 ^ 32) 0

/-- A message with its padding: blocks of 64 bytes. -/
def shaPad (len m : Nat) : Nat × Nat :=
  let n := (len + 72) / 64
  (n, (m * 256 + 128) * 256 ^ (64 * n - len - 1) + 8 * len)

/-- SHA-256 of a message of `len` bytes. -/
def sha256 (len m : Nat) : Nat :=
  let p := shaPad len m
  (List.range p.1).foldl (fun h i => addWords h (shaRounds 64 (p.2 / 2 ^ (512 * (p.1 - 1 - i)) % 2 ^ 512) h)) shaStart

/-! ## RSA-3072 PSS -/

/-- b^e mod m for an exponent of at most `fuel` bits. -/
def powMod : Nat → Nat → Nat → Nat → Nat
  | 0, _, _, m => 1 % m
  | fuel + 1, b, e, m =>
    if e = 0 then 1 % m
    else
      let r := powMod fuel (b * b % m) (e / 2) m
      if e % 2 = 1 then b * r % m else r

/-- MGF1: `n` hashes of a seed of 32 bytes followed by a counter of four. -/
def mgf1 (seed n : Nat) : Nat := (List.range n).foldl (fun a i => a * 2 ^ 256 + sha256 36 (seed * 2 ^ 32 + i)) 0

/-- PSS verification of an encoded message of 3,071 bits against the hash of the signed text: from the top, 351 masked bytes, of which the
highest bit is 0, 32 of hash and the byte 0xBC; unmasked, zeros, a byte 0x01 and the salt. -/
def pssVerify (em hash : Nat) : Bool :=
  let masked := em / 2 ^ 264
  let h := em / 2 ^ 8 % 2 ^ 256
  let db := (masked ^^^ mgf1 h 11 / 2 ^ 8) % 2 ^ 2807
  let salt := db % 2 ^ 256
  decide (em % 2 ^ 8 = 0xBC ∧ em < 2 ^ 3071 ∧ db / 2 ^ 256 = 1 ∧ h = sha256 72 (hash * 2 ^ 256 + salt))

/-- The signed text of an image: its security version number in eight bytes, then its body (log 32). -/
def FwImage.text (f : FwImage) : Nat × Nat :=
  f.body.foldl (fun p b => (p.1 + 1, p.2 * 256 + b.toNat)) (8, f.version % 2 ^ 64)

/-- The hash of the public key of an image: the modulus in 384 bytes, then the exponent in eight (log 32). -/
def FwImage.key (f : FwImage) : BitVec 256 := BitVec.ofNat 256 (sha256 392 (f.modulus * 2 ^ 64 + f.exponent))

/-- The signature of an image verifies under its public key of 3,072 bits. -/
def FwImage.verifies (f : FwImage) : Bool :=
  decide (2 ^ 3071 ≤ f.modulus ∧ f.modulus < 2 ^ 3072 ∧ f.exponent < 2 ^ 64 ∧ f.version < 2 ^ 64 ∧ f.signature < f.modulus) &&
    pssVerify (powMod 64 f.signature f.exponent f.modulus) (sha256 f.text.1 f.text.2)

/-- The ROM of a die accepts the firmware image (R421). -/
def Nv.accepts (n : Nv) (d : Nat) : Bool :=
  (decide (mapGet 0 n.fuses.counters d ≤ n.fw.version) &&
    (List.range 4).any fun k => decide (mapGet 0#256 n.fuses.slots k = n.fw.key) && !n.fuses.revoked.getLsbD k) &&
    n.fw.verifies

end Sys2Proof.Machine
end

