-- ==== Sys2Proof/Machine/ImageArea.lean ====
section
/-!
DEFINITION. The areas of a context image (R404, R405): what each holds, written to memory and read back. R404 gives the areas and what they
hold; the order inside one, where no other rule gives it, is the order of R404's list (log 10). Numbers stand in gloved doublewords;
registers and queue entries are moved with their gloves.
-/

namespace Sys2Proof.Machine

/-! ## Areas of memory -/

/-- Memory with a range of bytes cleared to words of zero. -/
def Mem.clear (m : Mem) (lo n : Nat) : Mem :=
  { data := m.data.filter fun p => !(decide (lo ≤ p.1) && decide (p.1 < lo + n)),
    glove := m.glove.filter fun p => !(decide (lo / 8 ≤ p.1) && decide (p.1 < (lo + n) / 8)) }

/-- Lay a memory into another from a byte address, over a cleared range. -/
def Mem.lay (m : Mem) (base : Nat) (src : Mem) : Mem :=
  { data := src.data.foldl (fun l p => mapSet (0 : BitVec 8) l (base + p.1) p.2) m.data,
    glove := src.glove.foldl (fun l p => mapSet (0 : BitVec 8) l (base / 8 + p.1) p.2) m.glove }

/-- The bytes of a range as a memory of its own. -/
def Mem.piece (m : Mem) (lo n : Nat) : Mem :=
  { data := m.data.filterMap fun p => if lo ≤ p.1 ∧ p.1 < lo + n then some (p.1 - lo, p.2) else none,
    glove := m.glove.filterMap fun p => if lo / 8 ≤ p.1 ∧ p.1 < (lo + n) / 8 then some (p.1 - lo / 8, p.2) else none }

/-- Write doublewords, each with its own place. -/
def Mem.writeAt (m : Mem) : List (Nat × GWord) → Mem
  | [] => m
  | (a, w) :: t => (m.write a w).writeAt t

/-! ## Doublewords of fields -/

/-- Fields of a doubleword, lowest first: width and value. -/
def packBits : List (Nat × Nat) → Nat
  | [] => 0
  | (w, v) :: t => v % 2 ^ w + 2 ^ w * packBits t

/-- The fields of a number, by their widths. -/
def splitBits : List Nat → Nat → List Nat
  | [], _ => []
  | w :: t, n => n % 2 ^ w :: splitBits t (n / 2 ^ w)

/-- A number as an image holds it. -/
def numWord (n : Nat) : GWord := gloved (BitVec.ofNat 64 n)

/-- A doubleword of fields. -/
def fieldWord (l : List (Nat × Nat)) : GWord := numWord (packBits l)

/-- A Boolean as a field. -/
def bitOf (b : Bool) : Nat := if b then 1 else 0

/-- A list: its length, then its entries. -/
def listWords {α : Type} (f : α → List GWord) (l : List α) : List GWord := numWord l.length :: l.flatMap f

/-- A place in an image that is being read. -/
structure Reader where
  mem : Mem
  pos : Nat

/-- Reading an image in order. -/
abbrev Rd (α : Type) := StateM Reader α

/-- The next doubleword. -/
def rdWord : Rd GWord := fun r => (r.mem.read r.pos, { r with pos := r.pos + 8 })

/-- The next doubleword's data. -/
def rdData : Rd (BitVec 64) := do return (← rdWord).data

/-- The next number. -/
def rdNat : Rd Nat := do return (← rdData).toNat

/-- The fields of the next doubleword. -/
def rdFields (ws : List Nat) : Rd (List Nat) := do return splitBits ws (← rdNat)

/-- Several entries. -/
def rdMany {α : Type} (f : Rd α) : Nat → Rd (List α)
  | 0 => pure []
  | n + 1 => do
    let x ← f
    let l ← rdMany f n
    pure (x :: l)

/-- A list. No area holds more than 4,096 entries. -/
def rdList {α : Type} (f : Rd α) : Rd (List α) := do rdMany f (min (← rdNat) 4096)

/-- Go to an offset of the image. -/
def rdSeek (base : Nat) : Rd Unit := fun r => ((), { r with pos := base })

/-! ## Words, expansions and ranges -/

/-- An expansion in progress, or its absence. -/
def expnWords : Option Expn → List GWord
  | none => [numWord 0]
  | some x => [fieldWord [(1, 1), (6, x.entry), (5, x.j)], gloved x.p0, gloved x.p1, gloved x.p2]

/-- Read an expansion. -/
def rdExpn : Rd (Option Expn) := do
  match ← rdFields [1, 6, 5] with
  | [1, k, j] => return some ⟨k, j, ← rdData, ← rdData, ← rdData⟩
  | _ => return none

/-- A scratchpad range. -/
def rangeWords (r : Nat × Nat) : List GWord := [fieldWord [(32, r.1), (32, r.2)]]

/-- Read a range. -/
def rdRange : Rd (Nat × Nat) := do
  let l ← rdFields [32, 32]
  return (l.getD 0 0, l.getD 1 0)

/-- The word at an index: the scoreboard's entry for it gives the rest (R356). -/
def refWords (w : WordRef) : List GWord := [fieldWord [(1, bitOf w.inExp), (63, w.idx)]]

/-- Entry `i` of the scoreboard area on, for the word at an index. -/
def scoreRef (m : Mem) (base : Nat) (e : Eng) (n : Nat) (inExp : Bool) : Nat → Nat → WordRef
  | 0, _ => ⟨e, n, 0#64, 0#32, inExp, 0⟩
  | k + 1, i =>
    let a := base + 0x15040 + 32 * i
    let w := (m.read (a + 16)).data
    if (m.read a).data.toNat = n then ⟨e, n, (m.read (a + 8)).data, w.extractLsb' 0 32, inExp, bits w 44 40⟩
    else scoreRef m base e n inExp k (i + 1)

/-- Read the word an area names. -/
def rdRef (base : Nat) (e : Eng) : Rd WordRef := do
  let l ← rdFields [1, 63]
  let r ← get
  let n := bits (r.mem.read (base + 0x15018)).data 47 32
  return scoreRef r.mem base e (l.getD 1 0) (l.getD 0 0 == 1) (min n 192) 0

/-! ## The V area (R404) -/

/-- The V area after the lanes of v0 to v31. -/
def vAreaWords (t : Tile) : List GWord :=
  (List.range 16).map t.getS ++ (List.range 16).map (fun k => t.getM (k / 2) (k % 2)) ++ (List.range 6).map t.getVcr ++
    [gloved t.nrsV] ++ expnWords t.eV.exp

/-- Read registers into a map, the first under a key. -/
def rdRegs (dflt : Nat → GWord) (key : Nat) : Nat → Rd (SMap GWord)
  | 0 => pure []
  | n + 1 => do
    let w ← rdWord
    let m ← rdRegs dflt (key + 1) n
    pure (mapSet (dflt key) m key w)

/-- The numbers of the doublewords that a piece of memory lists. -/
def Mem.words (m : Mem) : List Nat := (m.data.map (fun (p : Host.Cell) => p.1 / 8) ++ m.glove.map (fun (p : Host.Cell) => p.1)).dedup

/-- The doublewords of a piece of memory as registers of zero default. -/
def Mem.regs (m : Mem) : SMap GWord := m.words.foldl (fun r i => mapSet GWord.zero r i (m.read (8 * i))) []

/-- Read the V area into a tile. -/
def rdVArea (base : Nat) (v : SMap GWord) (t : Tile) : Rd Tile := do
  rdSeek (base + 0xA000)
  let zero := fun _ => GWord.zero
  let sreg ← rdRegs zero 0 16
  let m ← rdRegs zero 0 16
  let vcr ← rdRegs zero 0 6
  let nrs ← rdData
  let x ← rdExpn
  return { t with
    v := v, sreg := sreg, m := m.filter fun p => decide (2 ≤ p.1), vcr := vcr, nrsV := nrs, eV := { t.eV with exp := x } }

/-! ## The M area -/

/-- A nest table (R205). -/
def tabWords (n : NestTab) : List GWord :=
  ((List.range 6).flatMap fun l =>
    [fieldWord [(32, mapGet 1 n.count l), (2, mapGet 2 n.kind l)], gloved (mapGet 0#64 n.sa l), gloved (mapGet 0#64 n.sb l),
     gloved (mapGet 0#64 n.sc l)]) ++
  [fieldWord [(32, n.abase.toNat), (32, n.bbase.toNat)], numWord n.cbase.toNat, gloved n.nfmt]

/-- Read the levels of a nest table from one on. -/
def rdLevels (l : Nat) : Nat → NestTab → Rd NestTab
  | 0, n => pure n
  | k + 1, n => do
    let f ← rdFields [32, 2]
    let sa ← rdData
    let sb ← rdData
    let sc ← rdData
    rdLevels (l + 1) k { n with
      count := mapSet 1 n.count l (f.getD 0 0), kind := mapSet 2 n.kind l (f.getD 1 0), sa := mapSet 0#64 n.sa l sa,
      sb := mapSet 0#64 n.sb l sb, sc := mapSet 0#64 n.sc l sc }

/-- Read a nest table. -/
def rdTab : Rd NestTab := do
  let n ← rdLevels 0 6 NestTab.reset
  let b ← rdFields [32, 32]
  let c ← rdNat
  let f ← rdData
  return { n with
    abase := BitVec.ofNat 32 (b.getD 0 0), bbase := BitVec.ofNat 32 (b.getD 1 0), cbase := BitVec.ofNat 32 c, nfmt := f }

/-- The running nest (R210). -/
def nestWords : Option NestRun → List GWord
  | none => [numWord 0]
  | some n => numWord 1 :: refWords n.ref ++ listWords (fun i => [numWord i]) n.idx ++ listWords rangeWords n.rd ++
      listWords rangeWords n.wr ++ [numWord n.steps]

/-- Read the running nest; a step that was held begins anew (R402). -/
def rdNest (base : Nat) : Rd (Option NestRun) := do
  if (← rdNat) = 1 then
    let r ← rdRef base .M
    let is ← rdList rdNat
    let rd ← rdList rdRange
    let wr ← rdList rdRange
    return some ⟨r, is, rd, wr, ← rdNat, none, false⟩
  else return none

/-- The M area. -/
def mAreaWords (t : Tile) : List GWord :=
  (List.range 16).map t.getC ++ tabWords t.shadow ++ tabWords t.active ++ nestWords t.nest ++ [gloved t.nrsM, numWord t.nsteps] ++
    listWords (fun w => refWords w.1 ++ [numWord w.2.1, numWord w.2.2]) t.nwaits ++ expnWords t.eM.exp

/-- Read the M area into a tile. -/
def rdMArea (base : Nat) (t : Tile) : Rd Tile := do
  rdSeek (base + 0xC000)
  let c ← rdRegs (fun _ => GWord.zero) 0 16
  let sh ← rdTab
  let ac ← rdTab
  let n ← rdNest base
  let nrs ← rdData
  let st ← rdNat
  let ws ← rdList (do
    let r ← rdRef base .M
    return (r, ← rdNat, ← rdNat))
  let x ← rdExpn
  return { t with
    c := c, shadow := sh, active := ac, nest := n, nrsM := nrs, nsteps := st, nwaits := ws, eM := { t.eM with exp := x } }

/-! ## The D area -/

/-- A generation that awaits its close (R290). -/
def awaitWords (a : Await) : List GWord :=
  [fieldWord [(8, a.gen), (2, a.att), (1, bitOf a.vstm), (9, a.tag), (24, a.scount), (18, a.flag / 8)], a.value]

/-- Read an awaiting generation. Its keystone goes out again at the restore (R290). -/
def rdAwait : Rd Await := do
  let f ← rdFields [8, 2, 1, 9, 24, 18]
  let v ← rdWord
  let g := fun i => f.getD i 0
  return ⟨g 0, g 1, g 4, 8 * g 5, v, g 3, 0#64, g 2 == 1⟩

/-- The generations whose attempts a window may still use. -/
def Window.liveGens (x : Window) : List Nat := (x.gen :: x.broken ++ x.awaits.map (·.gen)).dedup

/-- A window of the task: the handle, never what it resolves to (R277, R290). -/
def windowWords (p : Nat × Window) : List GWord :=
  let x := p.2
  let st := match x.st with | .idle => 0 | .open => 1 | .broken => 2
  [gloved x.handle,
   fieldWord [(4, p.1), (2, st), (1, bitOf x.opened), (1, bitOf x.vstm), (8, x.newest), (8, x.gen), (2, x.att), (24, x.scount)]] ++
  listWords (fun k => [fieldWord [(8, k), (2, mapGet 0 x.atts k)]]) x.liveGens ++
  listWords (fun k => [numWord k]) x.broken ++ listWords awaitWords x.awaits

/-- Read a window as it stands before its handle is resolved. Spacings of R282 that the image does not hold run from `now` (log 10). -/
def rdWindow (now : BitVec 64) : Rd (Nat × Window) := do
  let h ← rdData
  let f ← rdFields [4, 2, 1, 1, 8, 8, 2, 24]
  let g := fun i => f.getD i 0
  let atts ← rdList (rdFields [8, 2])
  let br ← rdList rdNat
  let aw ← rdList rdAwait
  let st := match g 1 with | 1 => WinState.open | 2 => .broken | _ => .idle
  let att := atts.foldl (fun m l => mapPut m (l.getD 0 0) (l.getD 1 0)) []
  let inj := (br ++ aw.map (·.gen)).foldl (fun m k => mapPut m k now) []
  return (g 0, ⟨h, 0#19, 0, false, false, false, 0, st, g 5, g 6, g 7, g 2 == 1, g 4, now, inj, att, [], aw, br, g 3 == 1⟩)

/-- A D command's kind as a number. -/
def DKind.code : DKind → Nat
  | .copy nd => 16 * nd
  | .gather => 1
  | .scatter => 2
  | .fill => 3
  | .devt scope => 4 + 16 * scope
  | .key w => 5 + 16 * w
  | .coll k => 6 + 16 * k
  | .kv op mode => 7 + 16 * (2 * op + bitOf mode)
  | .relv => 8
  | .trec ring => 9 + 16 * ring

/-- The kind of a number. -/
def DKind.ofCode (n : Nat) : DKind :=
  let a := n / 16
  match n % 16 with
  | 0 => .copy a
  | 1 => .gather
  | 2 => .scatter
  | 3 => .fill
  | 4 => .devt a
  | 5 => .key a
  | 6 => .coll a
  | 7 => .kv (a / 2) (a % 2 == 1)
  | 8 => .relv
  | _ => .trec a

/-- A gather or scatter, whose index list the scratchpad holds in the command's read range (R226). -/
def DKind.listed : DKind → Bool
  | .gather => true
  | .scatter => true
  | _ => false

/-- The snapshot registers of a command as a mask and, lowest first, their words: an unlisted one has its reset word. -/
def dcrMask (m : SMap GWord) : Nat := packBits ((List.range 10).map fun r => (1, bitOf (m.any fun p => decide (p.1 = r))))

/-- The numbers of the registers of a mask. -/
def maskRegs (k : Nat) : List Nat := (List.range 10).filter fun r => decide (k / 2 ^ r % 2 = 1)

/-- A D command in flight with its saved pieces (R225): no physical range (R405). At most 21 doublewords, so that 64 of them fit. -/
def cmdWords (c : DCmd) : List GWord :=
  let cv := match c.conv with | some (a, b) => 1 + 16 * a + 256 * b | none => 0
  let wn := match c.window with | some (w, k) => 1 + 2 * w + 32 * k | none => 0
  let idx := if c.kind.listed then [] else c.idx
  refWords c.ref ++
  [fieldWord [(12, c.kind.code), (9, c.f9.toNat), (12, cv), (13, wn), (9, c.tag), (8, c.status), (1, bitOf c.ev)],
   c.aD, c.aA, c.desc, gloved c.nrs,
   fieldWord [(1, bitOf c.faulted), (1, bitOf c.done), (1, bitOf c.ended), (31, c.prog), (10, dcrMask c.dcr), (3, c.rd.length),
     (3, c.wr.length), (14, idx.length)], numWord c.count] ++
  c.rd.flatMap rangeWords ++ c.wr.flatMap rangeWords ++ idx.map numWord ++ (maskRegs (dcrMask c.dcr)).map (dcrGet c.dcr)

/-- The corrected indices of a list in the scratchpad (R226). -/
def peekIndices (m : Mem) (off n : Nat) : List Nat :=
  (List.range n).map fun i =>
    match checkWord (m.read (off + 4 * i)) with
    | .ok v _ => elemOf 32 v ((off + 4 * i) / 4 % 2)
    | .bad => 0

/-- Read a D command. -/
def rdCmd (base : Nat) (spad : Mem) : Rd DCmd := do
  let r ← rdRef base .D
  let f ← rdFields [12, 9, 12, 13, 9, 8, 1]
  let g := fun i => f.getD i 0
  let aD ← rdWord
  let aA ← rdWord
  let desc ← rdWord
  let nrs ← rdData
  let h ← rdFields [1, 1, 1, 31, 10, 3, 3, 14]
  let q := fun i => h.getD i 0
  let count ← rdNat
  let rd ← rdMany rdRange (q 5)
  let wr ← rdMany rdRange (q 6)
  let kind := DKind.ofCode (g 0)
  let idx ← rdMany rdNat (q 7)
  let regs ← rdMany rdWord (maskRegs (q 4)).length
  let dcr := ((maskRegs (q 4)).zip regs).foldl (fun m p => mapSet (dcrReset p.1) m p.1 p.2) []
  let idx := if kind.listed then peekIndices spad (bits (dcrGet dcr 9).data 20 0) (bits desc.data 47 32) else idx
  return ⟨r, kind, aD, aA, desc, BitVec.ofNat 9 (g 1), dcr,
    (if g 2 % 16 = 1 then some (g 2 / 16 % 16, g 2 / 256) else none), nrs, rd, wr, q 3, q 0 == 1, q 1 == 1,
    (if g 3 % 2 = 1 then some (g 3 / 2 % 16, g 3 / 32) else none), g 4, g 6 == 1, g 5, count, [], idx, q 2 == 1⟩

/-- An invalidation that has not posted its record (R168): its translations were dropped at the save. -/
def invWords (i : TlbInv) : List GWord := [fieldWord [(1, bitOf i.pkg), (9, i.tag), (54, i.idx)]]

/-- Read an invalidation that has yet to post its record. -/
def rdInv : Rd TlbInv := do
  let f ← rdFields [1, 9, 54]
  return ⟨f.getD 2 0, 0#64, false, f.getD 0 0 == 1, f.getD 1 0, false⟩

/-- The D area, with the invalidations that have yet to post (log 10). Windows, of at most two generations awaiting each (R282), and 64
commands leave room for more than 300 of them. -/
def dAreaWords (t : Tile) : List GWord :=
  (List.range 16).map t.getA ++ (List.range 10).map (dcrGet t.dcr) ++ [gloved t.nrsD] ++ listWords windowWords t.wins ++
    listWords cmdWords t.dcmds ++ expnWords t.eD.exp ++ listWords invWords t.tlbinvs

/-- Read the D area into a tile. -/
def rdDArea (base : Nat) (spad : Mem) (now : BitVec 64) (t : Tile) : Rd Tile := do
  rdSeek (base + 0xD000)
  let a ← rdRegs (fun _ => GWord.zero) 0 16
  let dcr ← rdRegs dcrReset 0 10
  let nrs ← rdData
  let ws ← rdList (rdWindow now)
  let cs ← rdList (rdCmd base spad)
  let x ← rdExpn
  let invs ← rdList rdInv
  return { t with
    tlbinvs := invs, a := a, dcr := dcr, nrsD := nrs, wins := ws.foldl (fun m p => mapPut m p.1 p.2) [], dcmds := cs, eD := { t.eD with exp := x } }

/-! ## The queue area -/

/-- A branch outcome with the index that pushed it. -/
def outcomeWords (p : Nat × BrOut) : List GWord :=
  match p.2 with
  | .cond b => [fieldWord [(3, bitOf b), (61, p.1)]]
  | .target a => [fieldWord [(3, 2), (61, p.1)], gloved a]
  | .nextWord => [fieldWord [(3, 3), (61, p.1)]]
  | .call k p0 p1 p2 => [fieldWord [(3, 4), (61, p.1)], numWord k, gloved p0, gloved p1, gloved p2]

/-- Read a branch outcome. -/
def rdOutcome : Rd (Nat × BrOut) := do
  let f ← rdFields [3, 61]
  let n := f.getD 1 0
  match f.getD 0 0 with
  | 0 => return (n, .cond false)
  | 1 => return (n, .cond true)
  | 2 => return (n, .target (← rdData))
  | 3 => return (n, .nextWord)
  | _ => return (n, .call (← rdNat) (← rdData) (← rdData) (← rdData))

/-- An operand entry with the index that pushed it. -/
def operandWords (p : Nat × GWord) : List GWord := [numWord p.1, p.2]

/-- Read an operand entry. -/
def rdOperand : Rd (Nat × GWord) := do return (← rdNat, ← rdWord)

/-- The engine of a tag. -/
def Eng.ofTag (n : Nat) : Eng := match n % 4 with | 0 => .S | 1 => .V | 2 => .M | _ => .D

/-- A slot's last writes: the index as its distance from the lowest word not yet past its trap point, which is at most WIN. A write below
that word is seen by every word left. -/
def predField (n : Nat) (p : Nat × Nat × Bool) : List (Nat × Nat) := [(1, bitOf p.2.2), (4, p.2.1), (11, p.1 + 1 - n)]

/-- The writes of a field triple. -/
def ofPredField (n : Nat) (f : List Nat) : Nat × Nat × Bool := (f.getD 2 0 + n - 1, f.getD 1 0, f.getD 0 0 == 1)

/-- Cut a list into parts of a length; `fuel` is its length. -/
def partsOf {α : Type} (k : Nat) : Nat → List α → List (List α)
  | 0, _ => []
  | n + 1, l => if l.isEmpty then [] else l.take k :: partsOf k n (l.drop k)

/-- A list of short entries, several to a doubleword. -/
def shortWords {α : Type} (k : Nat) (f : α → List (Nat × Nat)) (l : List α) : List GWord :=
  numWord l.length :: (partsOf k l.length l).map fun p => fieldWord (p.flatMap f)

/-- Read such a list, of entries whose fields have the widths `ws`. -/
def rdShort {α : Type} (k : Nat) (ws : List Nat) (f : List Nat → α) : Rd (List α) := do
  let n := min (← rdNat) 4096
  let l ← rdMany (rdFields ((List.replicate k ws).flatten)) ((n + k - 1) / k)
  return ((partsOf ws.length (k * l.length) l.flatten).take n).map f

/-- The queue area. -/
def queueAreaWords (t : Tile) : List GWord :=
  [t.oqV, t.oqM, t.oqD].flatMap (listWords operandWords) ++ listWords (fun w => [w]) t.rq ++ listWords (fun e => [e.w]) t.eq ++
  [t.boV, t.boM, t.boD].flatMap (listWords outcomeWords) ++ listWords (fun h => [numWord h.1.tag, h.2.w]) t.held ++
  shortWords 4 (predField t.minPos) t.preds

/-- What S has written to x registers ahead of the other engines and a trap would undo (R357): R404 names no field for it, but the task
goes on as if it had never stopped (R408). The registers and indices first, then the words (log 10). -/
def undoWords (t : Tile) : List GWord :=
  let l := t.undo.filter fun u => decide (t.minPos ≤ u.1)
  shortWords 3 (fun u => [(7, u.2.1), (11, u.1 - t.minPos)]) l ++ l.map (·.2.2)

/-- Doubleword `j` of the undo list: the V area's end, from 0xA180, then the 31 doublewords that a 65-word entry leaves of its 512 bytes in
the control store. It is at most 2,737 doublewords long: two words for each of 1,024 indices. -/
def undoAt (base j : Nat) : Nat :=
  if j < 976 then base + 0xA180 + 8 * j else base + 0x17000 + 512 * ((j - 976) / 31) + 264 + 8 * ((j - 976) % 31)

/-- Lay the undo list out. -/
def putUndo (base : Nat) (t : Tile) (m : Mem) : Mem :=
  m.writeAt (((List.range (undoWords t).length).zip (undoWords t)).map fun p => (undoAt base p.1, p.2))

/-- Read the undo list back. -/
def undoOf (m : Mem) (base : Nat) (t : Tile) : List (Nat × Nat × GWord) :=
  let w := fun j => m.read (undoAt base j)
  let n := min (w 0).data.toNat 4096
  (List.range n).map fun i =>
    let f := splitBits [7, 11] ((w (1 + i / 3)).data.toNat / 2 ^ (18 * (i % 3)))
    (f.getD 1 0 + t.minPos, f.getD 0 0, w (1 + (n + 2) / 3 + i))

/-- Read the queue area into a tile. -/
def rdQueueArea (base : Nat) (t : Tile) : Rd Tile := do
  rdSeek (base + 0x11000)
  let oqV ← rdList rdOperand
  let oqM ← rdList rdOperand
  let oqD ← rdList rdOperand
  let rq ← rdList rdWord
  let eq ← rdList rdWord
  let boV ← rdList rdOutcome
  let boM ← rdList rdOutcome
  let boD ← rdList rdOutcome
  let held ← rdList (do return (Eng.ofTag (← rdNat), (⟨← rdWord, []⟩ : EvEntry)))
  let preds ← rdShort 4 [1, 4, 11] (ofPredField t.minPos)
  return { t with
    oqV := oqV, oqM := oqM, oqD := oqD, rq := rq, eq := eq.map fun w => ⟨w, []⟩, boV := boV, boM := boM, boD := boD, held := held,
    preds := preds }

/-! ## The control store (R65) and the CSRs -/

/-- The doublewords of a control-store entry in the layout of R65, valid bit 31 of its header set (R404). -/
def microWords (m : Micro) : List GWord :=
  let ws := BitVec.ofNat 32 (m.words.length + 2 ^ 31) :: (m.words ++ m.maps)
  (List.range ((ws.length + 1) / 2)).map fun k => gloved (ws.getD (2 * k + 1) 0#32 ++ ws.getD (2 * k) 0#32)

/-- The 32-bit word at an offset of memory. -/
def Mem.word32 (m : Mem) (a : Nat) : BitVec 32 := (m.read a).data.extractLsb' (32 * (a / 4 % 2)) 32

/-- Read a control-store entry; none where it is not valid. -/
def microAt (m : Mem) (a : Nat) : Option Micro :=
  let h := m.word32 a
  let n := bits (h.setWidth 64) 5 0
  let ws := fun (k : Nat) => (List.range n).map fun i => m.word32 (a + 4 + 4 * (k + i))
  if h.getLsbD 31 then some ⟨ws 0, ws n⟩ else none

/-- The control store of an image. -/
def storeAt' (m : Mem) (base : Nat) : SMap Micro :=
  (List.range 64).filterMap fun k => (microAt m (base + 0x17000 + 512 * k)).map fun x => (k, x)

/-- The task's CSRs, adoption state and fault frame, after the x registers (R404). -/
def csrWords (t : Tile) : List GWord :=
  ([t.win, t.apol, t.wver, t.ufv, t.kvctl, t.widsplit] ++ (List.range 32).map (fun b => (t.bank b).setWidth 64) ++
    [(t.adopted.map (·.1)).getD 0#64, BitVec.ofNat 64 ((t.adopted.map fun h => h.2 + 256).getD 0), t.ufepc, t.ufcause,
     t.ufaddr]).map gloved ++ expnWords t.ufexp

/-- Read the register area into a tile. -/
def rdSArea (base : Nat) (t : Tile) : Rd Tile := do
  rdSeek (base + 0x1000)
  let x ← rdRegs (fun _ => GWord.zero) 0 64
  let win ← rdData
  let apol ← rdData
  let wver ← rdData
  let ufv ← rdData
  let kvctl ← rdData
  let sp ← rdData
  let fm ← rdMany rdData 32
  let at' ← rdData
  let ad ← rdNat
  let epc ← rdData
  let uc ← rdData
  let ua ← rdData
  let ux ← rdExpn
  let bf := ((List.range 32).zip fm).foldl (fun m p => mapSet 0xF#4 m p.1 (p.2.setWidth 4)) []
  return { t with
    x := x.filter fun p => decide (p.1 ≠ 0), win := win, apol := apol, wver := wver, ufv := ufv, kvctl := kvctl, widsplit := sp, bfmt := bf,
    adopted := if 256 ≤ ad then some (at', ad - 256) else none, ufepc := epc, ufcause := uc, ufaddr := ua, ufexp := ux }

/-! ## Outstanding requests (R405) -/

/-- A result as a number, and the word it brings. -/
def resultOf : Option RemResult → Nat × GWord
  | none => (0, GWord.zero)
  | some (.ok w) => (1, w)
  | some .refused => (2, GWord.zero)
  | some .badWord => (3, GWord.zero)
  | some .timeout => (4, GWord.zero)

/-- The result of a number. -/
def ofResult (n : Nat) (w : GWord) : Option RemResult :=
  match n with
  | 0 => none
  | 1 => some (.ok w)
  | 2 => some .refused
  | 3 => some .badWord
  | _ => some .timeout

/-- An outstanding request: its fabric tag, engine and state, the index of its word, its address, when it was sent, its result. -/
def reqWords (r : RemReq) : List GWord :=
  let x := resultOf r.result
  [fieldWord [(48, r.tag), (2, r.eng.tag), (3, x.1)], numWord r.idx, gloved r.va, gloved r.sentAt, x.2]

/-- Read a request. -/
def rdReq : Rd RemReq := do
  let f ← rdFields [48, 2, 3]
  let n ← rdNat
  let va ← rdData
  let at' ← rdData
  let w ← rdWord
  return ⟨f.getD 0 0, Eng.ofTag (f.getD 1 0), n, va, at', ofResult (f.getD 2 0) w⟩

/-- Requests outstanding at the cut (NRQ), and those that have their result (NFILED), in an image at an address (R405). -/
def imageCounts (m : Mem) (base : Nat) : Nat × Nat :=
  let w := (m.read (base + 136)).data
  (bits w 31 0, bits w 63 32)

/-- The requests of an image: those outstanding at the cut, then those whose result a word of S still needed there (log 10). -/
def imageReqs (m : Mem) (base : Nat) : List RemReq := (rdList rdReq ⟨m, base + 0x1F000⟩).1

/-- The requests of a list that have their result. -/
def filedOf (l : List RemReq) : Nat := (l.filter fun r => decide (r.result ≠ none)).length

/-- The header's NRQ and NFILED (R405): the first `n` requests were outstanding at the cut. -/
def countWord (n : Nat) (l : List RemReq) : GWord := fieldWord [(32, n), (32, filedOf (l.take n))]

/-- Write the request area and its counts (R405). -/
def putReqs (m : Mem) (base n : Nat) (l : List RemReq) : Mem :=
  (m.write (base + 136) (countWord n l)).writeList (base + 0x1F000) (listWords reqWords l)

/-- A tile's requests at a cut: how many are outstanding, and all of them, those first (R405). -/
def Tile.cutReqs (t : Tile) : Nat × List RemReq :=
  let l := t.remote.filter fun r => r.result.isNone
  (l.length, l ++ t.remote.filter fun r => r.result.isSome)

/-- MAGIC of an image header (R405). -/
def imageMagic : Nat := 0x0F24C7E1

/-- An image that this firmware wrote: MAGIC and ABI match (R405, R407). The fields of any other are not looked at. -/
def imageGood (m : Mem) (base : Nat) : Bool :=
  let w := (m.read base).data
  decide (bits w 31 0 = imageMagic) && decide (bits w 47 32 = Config.abi.toNat)

/-- Every outstanding request of an image has its response (R405). -/
def State.imageReady (s : State) (d k : Nat) : Bool :=
  let n := imageCounts s.mem (s.slotAddr d k)
  !imageGood s.mem (s.slotAddr d k) || decide (n.1 ≤ n.2)

/-! ## What an image leaves behind in the package (R281, R299) -/

/-- The name of the task saved in slot `k` of die `d`, where a tile's number stands for a task on a tile. -/
def savedTask (d k : Nat) : Nat := 384 + 1024 * d + k

/-- A communicator whose words change holders (R299, R404). -/
def Comm.rekey (c : Comm) (old new : Nat) : Comm :=
  { c with
    queue := c.queue.map fun q => if q.1 = old then (new, q.2) else q,
    run := c.run.map fun r => if r.holder = old then { r with holder := new } else r }

/-- The collective words of task `old` on a die, and its packets on their way (R281), belong to `new`. -/
def State.rekey (s : State) (d old new : Nat) : State :=
  let x := s.dieAt d
  let s := s.setDieAt d { x with comms := x.comms.map fun p => (p.1, p.2.rekey old new) }
  { s with net := s.net.map fun p => if p.origin.map (·.1) = some old then { p with origin := p.origin.map fun o => (new, o.2) } else p }

end Sys2Proof.Machine
end

