-- ==== Sys2Proof/Machine/Windows.lean ====
section
/-!
DEFINITION. Windows of the fabric at the sender (R276 to R290): binding, spans, keystones, the packets handed to the first link,
and what close notes and resend requests do.
-/

namespace Sys2Proof.Machine

/-! ## Binding (R276, R277, R389) -/

/-- Resolve a handle against the grant table of a die for a side; none where a condition of R277 or R389 fails. -/
def State.resolveGrant (s : State) (d : Nat) (side : Bool) (h : BitVec 64) : Option Window :=
  let i := bits h 15 0
  let e0 := s.dieReg d (0x10000 + 16 * i)
  let e1 := s.dieReg d (0x10000 + 16 * i + 8)
  let alw := bits e1 10 0
  if 4096 ≤ i ∨ bits h 63 32 ≠ 0 then none
  else if ¬ bit e0 63 ∨ bits e0 47 32 ≠ bits h 31 16 ∨ ¬ bit e0 (if side then 62 else 61) ∨ alw = 0 ∨ 1024 < alw then none
  else some ⟨h, e0.setWidth 19, bits e1 27 16, bit e0 58, bit e0 59, bit e0 60, alw, .idle, 0, 0, 0, false, 0, 0#64, [], [], [], [],
    [], false⟩

/-- `dwin` (R277). -/
def execDwin (g a w : BitVec 4) (s : State) : Host.Outcome State Fault Refusal :=
  runE .D g (do
    let h ← readA a.toNat
    let t ← getTile
    let k ← curTile
    match t.win? w.toNat with
    | some x => do
      raiseIf (decide (x.st = .open)) cFAB 0 h
      waitUnless (x.outq.isEmpty && x.awaits.isEmpty && !t.dcmds.any fun c => c.unissued k w.toNat)
    | none => pure ()
    if h = 0#64 then modTile fun t => { t with wins := mapDel t.wins w.toNat }
    else
      match ← getsState fun s => s.resolveGrant (k / 16) t.side h with
      | some x => modTile fun t => { t with wins := mapPut t.wins w.toNat x }
      | none => raise cFAB 0 h) s

/-! ## Spans (R282) -/

/-- The generation that a plain `dspan` opens. -/
def Window.nextGen (x : Window) : Nat := if x.opened then (x.newest + 1) % 256 else 0

/-- The FTB from which the next plain span, or the reopening of generation `k`, may open (R282). -/
def Window.spanDue (x : Window) : Option Nat → BitVec 64
  | some k => if x.injected.any (fun p => decide (p.1 = k)) then mapGet 0#64 x.injected k + 50000#64 else 0#64
  | none => if x.opened then x.spanAt + 200#64 else 0#64

/-- How many generations of a window are newer than `k`. -/
def Window.genAge (x : Window) (k : Nat) : Nat := (x.newest + 256 - k) % 256

/-- Mark a generation as broken; the marks stand oldest first (R289). -/
def Window.mark (x : Window) (k : Nat) : Window :=
  let older := fun b => decide (x.genAge k < x.genAge b)
  { x with broken := x.broken.filter older ++ k :: x.broken.filter fun b => !older b }

/-- Open a generation under an attempt. -/
def Window.openGen (x : Window) (gen att : Nat) : Window :=
  { x with gen := gen, att := att, scount := 0, st := .open, atts := mapPut x.atts gen att, vstm := false }

/-- Open the next generation of window `w`, or reopen generation `k` with its note to the pier (R282). -/
def openSpan (w : Nat) (retry : Option Nat) (x : Window) : Eff Unit := do
  let now ← getsState (·.ftb)
  match retry with
  | some k =>
    let att := (mapGet 0 x.atts k + 1) % 4
    let g ← curTile
    let target ← winTarget x
    modWin w fun x => x.openGen k att
    modState (·.inject { packet 3 (g / 16) (targetDie target) (.reopen x.pier k att g w) with origin := some (g, w) })
  | none => modWin w fun x => { x.openGen x.nextGen 0 with newest := x.nextGen, opened := true, spanAt := now }
  modTile fun t => { t with spanWait := none }

/-- A span may open but for its time: a plain one while at most one generation awaits its close (R282). -/
def Window.spanRoom (x : Window) (retry : Option Nat) : Bool := retry.isSome || decide (x.awaits.length ≤ 1)

/-- What the word at D's head has settled as a `dspan` or `dspan.retry` of window `w`. -/
def Tile.spanOf (t : Tile) (w : Nat) : Option (Option Nat) :=
  match t.spanWait with
  | some (v, n, r) => if v = w ∧ n = t.eD.pos then some r else none
  | none => none

/-- `dspan` and `dspan.retry` (R282): true once the generation is open; else the word waits, with what it has settled in the state. -/
def span (retry : Bool) (w : Nat) : Eff Bool := do
  let t ← getTile
  match t.win? w with
  | none => raise cFAB 0 (BitVec.ofNat 64 w)
  | some x => do
    let k ← (match t.spanOf w with
      | some k => pure k
      | none => do
        raiseIf (!x.canC || decide (x.st ≠ (if retry then .broken else .idle))) cFAB 0 (BitVec.ofNat 64 w)
        pure (if retry then some (x.broken.headD 0) else none) : Eff (Option Nat))
    let now ← getsState (·.ftb)
    if x.spanRoom k && decide ((x.spanDue k).toNat ≤ now.toNat) then do
      openSpan w k x
      pure true
    else do
      modTile fun t => { t with spanWait := some (w, t.eD.pos, k) }
      pure false

/-- `dspan` (R282). -/
def execDspan (g w : BitVec 4) (s : State) : Host.Outcome State Fault Refusal := runEHold .D g (span false w.toNat) s

/-- `dspan.retry` (R282). -/
def execDspanRetry (g w : BitVec 4) (s : State) : Host.Outcome State Fault Refusal := runEHold .D g (span true w.toNat) s

/-- DSPAN_SPACING_EXPIRY (R282): the time a `dspan` or `dspan.retry` at D's head waits for comes, and it opens its generation. -/
def execDspanSpacingExpiry (g w : Nat) (s : State) : Host.Outcome State Fault Refusal :=
  let t := s.tileAt g
  match t.win? w, t.spanOf w with
  | some x, some k =>
    if t.works ∧ ¬ t.ending ∧ x.spanRoom k = true then
      let s := { s with cur := g }.until (x.spanDue k)
      onDone s ((do
        openSpan w k x
        modTile (·.pass .D) : Eff Unit).run s)
    else .next s
  | _, _ => .next s
where
  /-- The state after a step that cannot fail. -/
  onDone (s : State) (r : Except Stop (Unit × State)) : Host.Outcome State Fault Refusal :=
    match r with
    | .ok (_, s') => .next s'
    | .error _ => .next s

/-! ## The end of a generation (R64, R284, R285) -/

/-- The commands of a generation end, and post their records in index order as D may (R284, R285). -/
def endGeneration (g w gen status keyCount : Nat) (s : State) : State :=
  let t := s.tileAt g
  let last := fun (c : DCmd) => c.endWith status (match c.kind with | .key _ => keyCount | _ => c.count)
  State.settleEnded
    (s.setTileAt g { t with dcmds := t.dcmds.map fun c => if c.window = some (w, gen) then last c else c }) g

/-- Change a window of a tile. -/
def State.modWinAt (s : State) (g w : Nat) (f : Window → Window) : State :=
  let t := s.tileAt g
  match t.win? w with
  | some x => s.setTileAt g { t with wins := mapPut t.wins w (f x) }
  | none => s

/-! ## Keystones (R285) -/

/-- What a `dkey` has settled: its window's number and content, its tag and flag offset. -/
structure KeyArgs where
  w : Nat
  x : Window
  tag : Nat
  off : Nat

/-- The checks of a `dkey` (R285, R443). -/
def keyChecks (d a : Nat) (w : Nat) : Eff KeyArgs := do
  let tag ← readA d
  let fa ← readA a
  let t ← getTile
  let base := 0x80000000 + 0x200000 * w
  let sa := bits fa 31 0
  match t.win? w with
  | none => raise cFAB 0 (BitVec.ofNat 64 w)
  | some x => do
    raiseIf (decide (x.st ≠ .open)) cFAB 0 (BitVec.ofNat 64 w)
    raiseIf (decide (512 ≤ tag.toNat)) cDCMD 0 t.eD.pc
    raiseIf (decide (sa % 8 ≠ 0)) cALIGN 0 (BitVec.ofNat 64 sa)
    raiseIf (decide (sa < base ∨ base + 0x200000 ≤ sa)) cDFLT 5 (BitVec.ofNat 64 sa)
    pure ⟨w, x, tag.toNat, sa - base⟩

/-- The keystone of a generation (R285). -/
def keystonePacket (g w : Nat) (x : Window) (a : Await) (off cls : Nat) (target : Option Nat) : Packet :=
  packet 3 (g / 16) (targetDie target) (.keystone x.pier a.gen a.att a.scount (target.getD 0) off cls a.value g w)

/-- Window state once nothing is open: broken while a mark remains (R289). -/
def Window.rest (x : Window) : Window := { x with st := if x.broken.isEmpty then .idle else .broken }

/-- Send the keystone of window `w`'s open generation (R285, R289). -/
def sendKey (k : KeyArgs) (value : GWord) : Eff Unit := do
  let g ← curTile
  let now ← getsState (·.ftb)
  let cls ← ingressOf g
  let target ← winTarget k.x
  let ref ← refD
  let a : Await := ⟨k.x.gen, k.x.att, k.x.scount, k.off, value, k.tag, now, k.x.vstm⟩
  modWin k.w fun x =>
    ({ x.issue g k.w (keystonePacket g k.w x a k.off cls target) with
      awaits := x.awaits ++ [a], broken := x.broken.filter fun b => decide (b ≠ a.gen) }).rest
  launchD ⟨ref, .key k.w, GWord.zero, GWord.zero, GWord.zero, 0#9, [], none, 0#64, [], [], 0, false, true, some (k.w, a.gen), k.tag,
    true, 0, 0, [], [], false⟩

/-- Every counted copy of the open generation has made its packets (R285). -/
def Tile.counted (t : Tile) (k w : Nat) : Bool := !t.dcmds.any fun c => c.window.isSome && c.unissued k w

/-- Whether a `dkey` at D's head would find too large a count (R285). -/
def keyOver (g d a w : BitVec 4) (s : State) : Bool :=
  let r := (do
    beginE .D
    if ← guardOn .D g then
      if (← getTile).sending.contains (Eng.D, (← getTile).eD.pos) then pure false
      else
        let k ← keyChecks d.toNat a.toNat w.toNat
        let t ← getTile
        pure (t.counted s.cur w.toNat && decide (2 ^ 23 - 1 < k.x.scount) &&
          !s.trapWaits ⟨cFAB, 0, BitVec.ofNat 64 w.toNat, none⟩)
    else pure false : Eff Bool).run s
  match r with
  | .ok (b, _) => b
  | .error _ => false

/-- `dkey` (R285). A count above 2^23 − 1 breaks the generation and traps. The counted copies of it end there (R284); no keystone's
record gives their STATUS, which is a free value (log 5). -/
def execDkey (g d a b w : BitVec 4) (s : State) : Host.Outcome State Fault Refusal :=
  if keyOver g d a w s then
    let gen := ((s.tile.win? w.toNat).map (·.gen)).getD 0
    let status := (Config.freeWord s.fresh).toNat % 256
    let s := State.modWinAt { s with fresh := s.fresh + 1 } s.cur w.toNat fun x => { x.mark gen with st := .broken }
    let s := endGeneration s.cur w.toNat gen status 0 s
    finish .D (.error (.trap ⟨cFAB, 0, BitVec.ofNat 64 w.toNat, none⟩ [])) s
  else
    runEHold .D g (sendHold .D (fun _ => true) (do
      waitRoom
      let k ← keyChecks d.toNat a.toNat w.toNat
      let t ← getTile
      waitUnless (t.counted s.cur w.toNat)
      sendKey k (t.getA b.toNat)
      pure false)) s

/-! ## Handing over and sending again (R278, R288, R290) -/

/-- WINDOW_PACKET_HANDOFF (R278). -/
def execWindowPacketHandoff (g w : Nat) (s : State) : Host.Outcome State Fault Refusal := .next (handOver g w s)

/-- Issue the keystone of a generation that awaits its close again, unchanged (R288, R290). -/
def resendKey (g w : Nat) (a : Await) (s : State) : State :=
  let t := s.tileAt g
  match t.win? w with
  | some x =>
    let p := keystonePacket g w x a a.flag (s.ingress g) (s.tileOf x.target)
    let x := x.issue g w p
    let x := { x with awaits := x.awaits.map fun b => if b.gen = a.gen then { a with sentAt := s.ftb } else b }
    s.setTileAt g { t with wins := mapPut t.wins w x }
  | none => s

/-- KEYSTONE_RESEND_TIMEOUT (R288): PTO + 100 µs after its sending, a keystone without an answer goes again; of several the one sent
first. -/
def execKeystoneResendTimeout (g w : Nat) (s : State) : Host.Outcome State Fault Refusal :=
  let first := fun (l : List Await) => l.find? fun a => l.all fun b => decide (a.sentAt.toNat ≤ b.sentAt.toNat)
  match ((s.tileAt g).win? w).bind fun x => first x.awaits with
  | some a =>
    let s := s.until (a.sentAt + BitVec.ofNat 64 ((s.dieAt (g / 16)).pto + 100000))
    .next (resendKey g w a s)
  | none => .next s

/-! ## Notes at the sender (R285, R287, R289) -/

/-- The sender's part in a close note (R285): its generation, if it awaits one. -/
def takeClose (g w gen att : Nat) (refused : Bool) (s : State) : State :=
  match (((s.tileAt g).win? w).map (·.awaits)).getD [] |>.find? fun a => decide (a.gen = gen) with
  | some a =>
    let s := s.modWinAt g w fun x => { x with awaits := x.awaits.filter fun b => decide (b.gen ≠ gen) }
    endGeneration g w gen (if refused then 0x99 else 0x00) (a.scount % 2 ^ 23 + att % 4 * 2 ^ 24) s
  | none => s

/-- Replay a counted copy of a generation under the attempt now in use: its packets again, in order (R287). -/
def replayCopy (g i : Nat) (c : DCmd) (s : State) : State :=
  let c := { c with prog := 0, count := 0 }
  (List.range (c.pieces g)).foldl (fun s _ =>
    match (s.tileAt g).dcmds[i]? with
    | some c => if c.faulted then s else pieceStep g i c s
    | none => s) (s.setTileAt g ((s.tileAt g).setCmd i c))

/-- Replay every counted copy of a generation in index order, then its keystone (R287). -/
def replayAll (g w gen : Nat) (a : Await) (s : State) : State :=
  let n := (s.tileAt g).dcmds.length
  let s := (List.range n).foldl (fun s i =>
    match (s.tileAt g).dcmds[i]? with
    | some c => if c.window = some (w, gen) ∧ c.kind.moves then replayCopy g i c s else s
    | none => s) s
  if (s.tileAt g).dcmds.any fun c => decide (c.window = some (w, gen)) && c.faulted then s else resendKey g w a s

/-- The sender's part in a resend request (R287, R289): a replay, or the generation breaks. -/
def takeResend (g w gen att : Nat) (s : State) : State :=
  match (((s.tileAt g).win? w).map (·.awaits)).getD [] |>.find? fun a => decide (a.gen = gen ∧ a.att = att) with
  | some a =>
    if a.vstm ∨ att = 3 then
      let s := s.modWinAt g w fun x =>
        let x := { x.mark gen with awaits := x.awaits.filter fun b => decide (b.gen ≠ gen) }
        if x.st = .idle then { x with st := .broken } else x
      endGeneration g w gen (if a.vstm then 0x94 else 0x95) (a.scount % 2 ^ 23) s
    else
      let a := { a with att := att + 1 }
      let s := s.modWinAt g w fun x => { x with
        atts := mapPut x.atts gen (att + 1), awaits := x.awaits.map fun b => if b.gen = gen then a else b }
      let d := s.dieAt (g / 16)
      let s := s.setDieAt (g / 16) { d with replays := d.replays + 1#64 }
      replayAll g w gen a s
  | none => s

/-- Resolve every window of a tile again, at a restore (R277): the new grants' targets and rights, or unbound. -/
def rebindAll (g : Nat) (s : State) : State :=
  let t := s.tileAt g
  s.setTileAt g { t with wins := t.wins.filterMap fun p =>
    (s.resolveGrant (g / 16) t.side p.2.handle).map fun y =>
      (p.1, { p.2 with target := y.target, pier := y.pier, canR := y.canR, canW := y.canW, canC := y.canC, alw := y.alw }) }

/-- Send every awaiting keystone again (R290). -/
def resendAll (g : Nat) (s : State) : State :=
  (s.tileAt g).wins.foldl (fun s p => p.2.awaits.foldl (fun s a => resendKey g p.1 a s) s) s

end Sys2Proof.Machine
end

