-- ==== Sys2Proof/Machine/Fabric.lean ====
section
/-!
DEFINITION. The fabric (R274, R275, R442, R291) and what it does at the target: remote requests (R279), posted and counted writes
(R280, R283), the pier (R286, R287).
-/

namespace Sys2Proof.Machine

/-! ## Routing (R16, R17, R442) -/

/-- The step around a ring of `n`, from `a` to `b`, the shorter way, the negative one when both are equally long (R442). -/
def ringStep (n a b : Nat) : Nat :=
  let d := (b + n - a) % n
  if d = 0 then a else if 2 * d < n then (a + 1) % n else (a + n - 1) % n

/-- Length of the rings the package lies in and a local coordinate in them: a ring of several packages is never left on the way between
two dies of one package (R17, R437). -/
def State.ringLen (s : State) (dim : Nat) : Nat :=
  if dim = 0 then 4 * max 1 s.nv.extX else if dim = 1 then 3 * max 1 s.nv.extY else 2

/-- The next die on the route of dimension order between two dies of the package (R442). -/
def State.nextDie (s : State) (a b : Nat) : Nat :=
  let go := fun (dim n x y : Nat) => ringStep (s.ringLen dim) x y % n
  if a % 4 ≠ b % 4 then a - a % 4 + go 0 4 (a % 4) (b % 4)
  else if a / 4 % 3 ≠ b / 4 % 3 then a - a / 4 % 3 * 4 + go 1 3 (a / 4 % 3) (b / 4 % 3) * 4
  else b

/-- Two dies joined by a link: neighbours in a ring of the package, wrapping where the torus has one package (R17). -/
def State.linked (s : State) (a b : Nat) : Bool :=
  decide (a < 24 ∧ b < 24 ∧ a ≠ b) &&
  ((decide (a / 4 = b / 4) && (decide (a % 4 + 1 = b % 4 ∨ b % 4 + 1 = a % 4) ||
      (decide (s.nv.extX ≤ 1) && decide (a % 4 + b % 4 = 3 ∧ a % 4 * (b % 4) = 0)))) ||
   (decide (a % 4 = b % 4 ∧ a / 12 = b / 12) && (decide (a / 4 % 3 + 1 = b / 4 % 3 ∨ b / 4 % 3 + 1 = a / 4 % 3) || decide (s.nv.extY ≤ 1))) ||
   decide (a % 12 = b % 12))

/-- The pair that names a link. -/
def linkPair (a b : Nat) : Nat × Nat := (min a b, max a b)

/-- A link that still carries traffic: Z partners have two (R17, R442). -/
def State.linkUp (s : State) (a b : Nat) : Bool :=
  s.linked a b && decide ((s.links.filter fun p => decide (p = linkPair a b)).length < (if a % 12 = b % 12 then 2 else 1))

/-- The dies a detour may take from a die. -/
def State.detours (s : State) (a : Nat) : List Nat := (List.range 24).filter fun b => s.linkUp a b

/-- Remove packet `i`. -/
def State.dropPacket (s : State) (i : Nat) : State := { s with net := s.net.eraseIdx i }

/-- ROUTER_FORWARD (R442, R291): a hop of dimension order, or where its link has failed a detour, which the spec leaves free (log 5). A
packet for a die outside the package leaves it on an optical link, which package-standby keeps down (R440). -/
def execRouterForward (i : Nat) (congested : Bool) (s : State) : Host.Outcome State Fault Refusal :=
  match s.net[i]? with
  | none => .next s
  | some p =>
    if p.dst = outside then .next (if s.standby then s else s.dropPacket i)
    else if p.loc = p.dst ∨ 375 < s.age p then .next s
    else
      let n := s.nextDie p.loc p.dst
      let put := fun (k : Nat) (s : State) =>
        ({ s with net := s.net.set i { p with loc := k, marked := p.marked || congested } } : State)
      if s.linkUp p.loc n then .next (put n s)
      else
        let ds := s.detours p.loc
        match ds[(Config.freeWord s.fresh).toNat % ds.length]? with
        | some k => .next (put k { s with fresh := s.fresh + 1 })
        | none => .next s

/-- PACKET_AGE_DISCARD (R275): the lifetime of 375 units passes, and the router the packet is at discards and logs it. -/
def execPacketAgeDiscard (i : Nat) (s : State) : Host.Outcome State Fault Refusal :=
  match s.net[i]? with
  | none => .next s
  | some p =>
    let a := s.age p
    if a ≤ 375 then .next (s.until (BitVec.ofNat 64 ((s.ftb.toNat / 128 + (376 - a)) * 128)))
    else .next (logError (lostLog s p.loc p) false (s.dropPacket i))

/-- Lose packets in flight on a link, which ones the spec leaves free (log 5). -/
def loseOnLink (a b : Nat) : List Packet → List Packet → State → State
  | [], kept, s => { s with net := kept }
  | p :: t, kept, s =>
    if (p.loc = a ∧ s.nextDie a p.dst = b) ∨ (p.loc = b ∧ s.nextDie b p.dst = a) then
      let lost := bit (Config.freeWord s.fresh) 0
      let s := { s with fresh := s.fresh + 1 }
      if lost then loseOnLink a b t kept (logError (lostLog s p.loc p) false s) else loseOnLink a b t (kept ++ [p]) s
    else loseOnLink a b t (kept ++ [p]) s

/-- LINK_FAILURE (R275, R442). -/
def execLinkFailure (d1 d2 : Nat) (s : State) : Host.Outcome State Fault Refusal :=
  if s.linkUp d1 d2 then .next (loseOnLink d1 d2 s.net [] { s with links := s.links ++ [linkPair d1 d2] }) else .next s

/-! ## Arrival -/

/-- The doublewords of a packet at its target, which R281 keeps in order: target tile and offsets. -/
def Packet.targets (p : Packet) : List (Nat × Nat) :=
  match p.body with
  | .request _ _ tile off _ _ _ _ => [(tile, off / 8)]
  | .posted tile _ _ ws _ => ws.map fun w => (tile, w.1 / 8)
  | _ => []

/-- A packet whose doublewords an earlier one of the same window still heads for (R281). -/
def State.behind (s : State) (i : Nat) (p : Packet) : Bool :=
  p.origin.isSome && (s.net.take i).any fun q => decide (q.origin = p.origin) && q.targets.any fun x => p.targets.contains x

/-- Packet `i` stands at its destination, young enough to be delivered (R275), with nothing of its window before it (R281). A
die that has frozen takes no packet (R425). -/
def State.arrived (s : State) (i : Nat) : Option Packet :=
  match s.net[i]? with
  | some p => if p.loc = p.dst ∧ p.dst < 24 ∧ (s.dieAt p.dst).dumped = false ∧ s.age p ≤ 375 ∧ s.behind i p = false then some p else none
  | none => none

/-- Take packet `i` out of the fabric; a marked one counts toward a congestion note (R291). -/
def State.takePacket (s : State) (i : Nat) (p : Packet) : State :=
  let s := s.dropPacket i
  if p.marked ∧ p.src < 24 then
    let d := s.dieAt p.dst
    let n := mapGet 0 d.marks p.src + 1
    if n = 32 then
      (s.setDieAt p.dst { d with marks := mapSet 0 d.marks p.src 0 }).inject (packet 3 p.dst p.src (.congestion p.dst))
    else s.setDieAt p.dst { d with marks := mapSet 0 d.marks p.src n }
  else s

/-! ## Remote requests at the target (R279) -/

/-- The rights of an operation in a port table: read, write (R384). -/
def RemOp.rights (o : RemOp) : Bool × Bool :=
  match o with
  | .load => (true, false)
  | .store _ => (false, true)
  | .amo _ _ => (true, true)

/-- What the port table of tile `g` answers for both rights together. -/
def portFor (s : State) (g cls : Nat) (r : Bool × Bool) : Verdict :=
  let a := portVerdict s g cls false
  let b := portVerdict s g cls true
  if (r.1 ∧ a = .held) ∨ (r.2 ∧ b = .held) then .held
  else if (r.1 ∧ a = .refused) ∨ (r.2 ∧ b = .refused) then .refused
  else .ok

/-- Perform a remote operation at a scratchpad bank: its result (R91, R145, R279). -/
def performRemote (g off : Nat) (o : RemOp) (s : State) : RemResult × State :=
  let w := (s.tileAt g).spad.read off
  match o with
  | .load => (.ok w, s)
  | .store x => (.ok GWord.zero, s.writeSpad g off x)
  | .amo op b =>
    match checkWord w, checkWord b with
    | .ok old c, .ok x _ =>
      let t := s.tileAt g
      let s := if c then s.setTileAt g { t with gcc := t.gcc + 1#64 } else s
      match amoNew op old x with
      | some n => (.ok (gloved old), s.writeSpad g off (gloved n))
      | none => (.ok (gloved old), s)
    | _, _ =>
      let t := s.tileAt g
      (.badWord, logError ⟨g / 16, 0x01, g % 16, BitVec.ofNat 64 off, 3#64⟩ false (s.setTileAt g { t with guc := t.guc + 1#64 }))

/-- REMOTE_REQUEST_ARRIVAL (R279): performed at the target bank, or refused by its port table, and answered on VC1. A `.sc` one takes
its place in the SC order here: the target's stamp moves to it, and the response carries it (R109; log 35). -/
def execRemoteRequestArrival (i : Nat) (s : State) : Host.Outcome State Fault Refusal :=
  match s.arrived i with
  | none => .next s
  | some p =>
    match p.body with
    | .request g tag tile off cls op sc stamp =>
      let v := portFor s tile cls op.rights
      if v = .held then .next s
      else
        let s := s.takePacket i p
        let s := if sc then s.setTileAt tile { s.tileAt tile with stamp := if s.scStamp.toNat < stamp.toNat then stamp else s.scStamp } else s
        let r := if v = .ok then performRemote tile off op s else (.refused, s)
        .next (r.2.inject (packet 1 p.dst p.src (.response g tag r.1 (r.2.tileAt tile).stamp)))
    | _ => .next s

/-- File a result in a list of requests. -/
def fileResult (tag : Nat) (r : RemResult) (l : List RemReq) : List RemReq :=
  l.map fun q => if q.tag = tag ∧ q.result = none then { q with result := some r } else q

/-- A list holds an open request under a tag. -/
def openReq (tag : Nat) (l : List RemReq) : Bool := l.any fun q => decide (q.tag = tag) && q.result.isNone

/-- File a result in the images of a die whose tasks tile `g` ran: the request area and NFILED (R405). -/
def fileImages (g tag : Nat) (r : RemResult) (s : State) : State :=
  (s.dieAt (g / 16)).homes.foldl (fun s p =>
    let base := s.slotAddr (g / 16) p.1
    let l := imageReqs s.mem base
    if p.2 = g ∧ openReq tag l = true then { s with mem := putReqs s.mem base (imageCounts s.mem base).1 (fileResult tag r l) } else s) s

/-- File a result at the tile, or in the saved image of its die that holds the request (R279, R405). -/
def fileAt (g tag : Nat) (r : RemResult) (stamp : BitVec 64) (s : State) : State :=
  let t := s.tileAt g
  let t := { t with stamp := if t.stamp.toNat < stamp.toNat then stamp else t.stamp }
  if openReq tag t.remote then s.setTileAt g { t with remote := fileResult tag r t.remote }
  else fileImages g tag r (s.setTileAt g t)

/-- REMOTE_RESPONSE_ARRIVAL (R279, R405). -/
def execRemoteResponseArrival (i : Nat) (s : State) : Host.Outcome State Fault Refusal :=
  match s.arrived i with
  | none => .next s
  | some p =>
    match p.body with
    | .response g tag r stamp => .next (fileAt g tag r stamp (s.takePacket i p))
    | _ => .next s

/-- The request a timeout names: number `i` of tile `g`'s, or of the image in slot `k` of die `d` where `g` is 384 + 1024 d + k. -/
def State.timedReq (s : State) (g i : Nat) : Option (Nat × RemReq) :=
  if g < 384 then ((s.tileAt g).remote[i]?).map fun r => (g, r)
  else
    let d := (g - 384) / 1024
    let k := (g - 384) % 1024
    ((s.dieAt d).homes.find? fun p => decide (p.1 = k)).bind fun p =>
      ((imageReqs s.mem (s.slotAddr d k))[i]?).map fun r => (p.2, r)

/-- REMOTE_REQUEST_TIMEOUT (R279, R405): 100 µs pass without a response. -/
def execRemoteRequestTimeout (g i : Nat) (s : State) : Host.Outcome State Fault Refusal :=
  match s.timedReq g i with
  | some (h, r) =>
    if r.result = none then .next (fileAt h r.tag .timeout 0#64 (s.until (r.sentAt + 100000#64))) else .next s
  | none => .next s

/-! ## Posted writes at the target (R280) -/

/-- The target refuses a word of a carried format at its bank (R280). -/
def formatRefused (carried bank : Nat) : Bool :=
  decide (carried ≠ 15 ∧ bank ≠ 15 ∧ carried ≠ bank) && !(decide (carried = 3) && decide (bank = 7 ∨ bank = 8))

/-- The scratchpad-space address of a window-less offset, as the target's log names it. -/
def writeWords (g : Nat) (ok : Bool) (fmt : Nat) : List (Nat × GWord) → State → State × List Nat
  | [], s => (s, [])
  | (off, w) :: t, s =>
    if ok ∧ ¬ formatRefused fmt (s.spadFmt g off) then writeWords g ok fmt t (s.writeSpad g off w)
    else
      let r := writeWords g ok fmt t s
      (r.1, off :: r.2)

/-- Log refused uncounted words (R280, R414). -/
def logRefused (g src : Nat) (l : List Nat) (s : State) : State :=
  l.foldl (fun s off => logError ⟨g / 16, 0x0A, g % 16, BitVec.ofNat 64 off, BitVec.ofNat 64 (s.dieId src)⟩ false s) s

/-- POSTED_WRITE_ARRIVAL (R280): an uncounted posted write. -/
def execPostedWriteArrival (i : Nat) (s : State) : Host.Outcome State Fault Refusal :=
  match s.arrived i with
  | none => .next s
  | some p =>
    match p.body with
    | .posted tile cls fmt ws none =>
      let v := portVerdict s tile cls true
      if v = .held then .next s
      else
        let r := writeWords tile (decide (v = .ok)) fmt ws (s.takePacket i p)
        .next (logRefused tile p.src r.2 r.1)
    | _ => .next s

/-! ## The pier (R286, R287) -/

/-- Pier `k` of die `d`. -/
def State.pierAt (s : State) (d k : Nat) : Pier := mapGet Pier.reset (s.dieAt d).piers k

/-- Write a pier. -/
def State.setPier (s : State) (d k : Nat) (p : Pier) : State :=
  s.setDieAt d { s.dieAt d with piers := mapSet Pier.reset (s.dieAt d).piers k p }

/-- How a packet of generation `g` and attempt `a` meets a pier (R286). -/
inductive PierCase where
  /-- counted for the current generation (false) or the next (true), under the attempt it has or a newer one -/
  | take (next newer : Bool)
  /-- an attempt that has passed -/
  | old
  /-- the generation last closed -/
  | closed
  | other
  deriving DecidableEq, Repr

/-- R286's table. -/
def Pier.meet (p : Pier) (g a : Nat) : PierCase :=
  let d := (g + 256 - p.cg) % 256
  let att := fun (next : Bool) (have' : Nat) =>
    let k := (a + 4 - have') % 4
    if k = 0 then PierCase.take next false else if k = 3 then .old else .take next true
  if d = 0 then att false p.ca else if d = 1 then att true p.na else if d = 255 then .closed else .other

/-- Move to a newer attempt: nothing counted, nothing held (R286). -/
def Pier.newAttempt (p : Pier) (next : Bool) (a : Nat) : Pier :=
  if next then { p with na := a, nn := 0, heldNext := none, refusedNext := false }
  else { p with ca := a, nc := 0, held := none, refused := false }

/-- Count words, with a refusal mark (R283, R286). -/
def Pier.countWords (p : Pier) (next : Bool) (n : Nat) (refused : Bool) : Pier :=
  if next then { p with nn := (p.nn + n) % 2 ^ 24, refusedNext := p.refusedNext || refused }
  else { p with nc := (p.nc + n) % 2 ^ 24, refused := p.refused || refused }

/-- Hold a keystone; one that replaces another of the same attempt keeps its time (R286, R287). -/
def Pier.hold (p : Pier) (next : Bool) (h : HeldKey) : Pier :=
  if next then { p with heldNext := some { h with since := (p.heldNext.map (·.since)).getD h.since } }
  else { p with held := some { h with since := (p.held.map (·.since)).getD h.since } }

/-- Send a note of a pier to its latest return identity (R286). -/
def pierNote (d : Nat) (p : Pier) (b : PktBody) (s : State) : State := s.inject (packet 3 d (p.retG / 16) b)

/-- Send a resend request for the current generation and take the next attempt (R287). -/
def pierResend (d k : Nat) (s : State) : State :=
  let p := s.pierAt d k
  let s := pierNote d p (.resend p.retG p.retW k p.cg p.ca) s
  s.setPier d k (p.newAttempt false ((p.ca + 1) % 4))

/-- Write the flag of a closing generation, as the target's port table lets it (R112, R384). -/
def writeFlag (h : HeldKey) (src : Nat) (s : State) : State :=
  if portVerdict s h.tile h.cls true = .ok then s.writeSpad h.tile h.off h.value else logRefused h.tile src [h.off] s

/-- Compare the held keystone of the current generation, and close it when the counts agree; the next one may close in the same step
(R286). -/
def pierMatch (d k : Nat) : Nat → State → State
  | 0, s => s
  | n + 1, s =>
    let p := s.pierAt d k
    match p.held with
    | none => s
    | some h =>
      let diff := (p.nc + 2 ^ 24 - h.scount) % 2 ^ 24
      if diff = 0 then
        let s := writeFlag h (p.retG / 16) s
        let s := pierNote d p (.closeNote p.retG p.retW k p.cg p.ca p.refused) s
        let q : Pier := { p with
          cg := (p.cg + 1) % 256, ca := p.na, nc := p.nn, na := 0, nn := 0,
          held := p.heldNext.map (fun x => { x with since := s.ftb }), heldNext := none,
          lastAtt := p.ca, lastRefused := p.refused, refused := p.refusedNext, refusedNext := false }
        pierMatch d k n (s.setPier d k q)
      else if diff ≤ 2 ^ 23 then
        pierResend d k (logError ⟨d, 0x08, 15, BitVec.ofNat 64 k, BitVec.ofNat 64 p.nc⟩ false s)
      else s

/-- The pier's flag writes wait while a port table they need is held (R387). -/
def pierHeld (s : State) (d k : Nat) (more : List HeldKey) : Bool :=
  let p := s.pierAt d k
  (p.held.toList ++ p.heldNext.toList ++ more).any fun h => decide (portVerdict s h.tile h.cls true = .held)

/-- COUNTED_PACKET_ARRIVAL (R283, R286). -/
def execCountedPacketArrival (i : Nat) (s : State) : Host.Outcome State Fault Refusal :=
  match s.arrived i with
  | none => .next s
  | some p =>
    match p.body with
    | .posted tile cls fmt ws (some (k, gen, att)) =>
      let v := portVerdict s tile cls true
      if v = .held ∨ pierHeld s p.dst k [] = true then .next s
      else
        let s := s.takePacket i p
        match (s.pierAt p.dst k).meet gen att with
        | .take next newer =>
          let r := writeWords tile (decide (v = .ok)) fmt ws s
          let q := r.1.pierAt p.dst k
          let q := if newer then q.newAttempt next att else q
          .next (pierMatch p.dst k 2 (r.1.setPier p.dst k (q.countWords next ws.length (!r.2.isEmpty))))
        | _ => .next s
    | _ => .next s

/-- KEYSTONE_ARRIVAL (R286): held and compared, or answered with a resend request or a repeated close note, or discarded. -/
def execKeystoneArrival (i : Nat) (s : State) : Host.Outcome State Fault Refusal :=
  match s.arrived i with
  | none => .next s
  | some p =>
    match p.body with
    | .keystone k gen att sc tile off cls value g w =>
      let h : HeldKey := ⟨sc, tile, off, cls, value, s.ftb⟩
      if pierHeld s p.dst k [h] then .next s
      else
        let s := s.takePacket i p
        let q := { s.pierAt p.dst k with retG := g, retW := w }
        let s := s.setPier p.dst k q
        match q.meet gen att with
        | .take next newer =>
          let q := if newer then q.newAttempt next att else q
          .next (pierMatch p.dst k 2 (s.setPier p.dst k (q.hold next h)))
        | .old => .next (pierNote p.dst q (.resend g w k gen att) s)
        | .closed => .next (pierNote p.dst q (.closeNote g w k gen q.lastAtt q.lastRefused) s)
        | .other => .next s
    | _ => .next s

/-- REOPEN_NOTE_ARRIVAL (R286): a packet of zero words. -/
def execReopenNoteArrival (i : Nat) (s : State) : Host.Outcome State Fault Refusal :=
  match s.arrived i with
  | none => .next s
  | some p =>
    match p.body with
    | .reopen k gen att _ _ =>
      if pierHeld s p.dst k [] then .next s
      else
        let s := s.takePacket i p
        let q := s.pierAt p.dst k
        match q.meet gen att with
        | .take next newer => .next (pierMatch p.dst k 2 (s.setPier p.dst k (if newer then q.newAttempt next att else q)))
        | _ => .next s
    | _ => .next s

/-- PIER_PTO_EXPIRY (R287): PTO passes with the current generation's keystone unmatched. -/
def execPierPtoExpiry (d p : Nat) (s : State) : Host.Outcome State Fault Refusal :=
  match (s.pierAt d p).held with
  | some h => .next (pierResend d p (s.until (h.since + BitVec.ofNat 64 (s.dieAt d).pto)))
  | none => .next s

/-! ## Notes at the sender (R285, R287, R291) -/

/-- Pier `k` of die `d` is that of window `w` of tile `g`: a note that reaches a tile where the window is no longer bound is discarded
(R276, R290). -/
def State.noteMeant (s : State) (g w d k : Nat) : Bool :=
  match (s.tileAt g).win? w with
  | some x => decide (x.pier = k ∧ targetDie (s.tileOf x.target) = d)
  | none => false

/-- RESEND_REQUEST_RECEIPT (R287). -/
def execResendRequestReceipt (i : Nat) (s : State) : Host.Outcome State Fault Refusal :=
  match s.arrived i with
  | none => .next s
  | some p =>
    match p.body with
    | .resend g w k gen att =>
      let s := s.takePacket i p
      .next (if s.noteMeant g w p.src k then takeResend g w gen att s else s)
    | _ => .next s

/-- CLOSE_NOTE_RECEIPT (R285). -/
def execCloseNoteReceipt (i : Nat) (s : State) : Host.Outcome State Fault Refusal :=
  match s.arrived i with
  | none => .next s
  | some p =>
    match p.body with
    | .closeNote g w k gen att refused =>
      let s := s.takePacket i p
      .next (if s.noteMeant g w p.src k then takeClose g w gen att refused s else s)
    | _ => .next s

/-- A limiter of full rate (R291). -/
def Rate.full : Rate := ⟨1, 0⟩

/-- After a note: 7/8 of the rate, at least 1/64 (R291). -/
def Rate.lower (r : Rate) : Rate := if 7 * r.num * 8 < 2 ^ r.den then ⟨1, 6⟩ else ⟨7 * r.num, r.den + 3⟩

/-- After 8 µs without a note: 1/64 more, at most 1 (R291). -/
def Rate.raise (r : Rate) : Rate :=
  let n := 64 * r.num + 2 ^ r.den
  if 2 ^ (r.den + 6) ≤ n then Rate.full else ⟨n, r.den + 6⟩

/-- CONGESTION_NOTE_RECEIPT (R291). -/
def execCongestionNoteReceipt (i : Nat) (s : State) : Host.Outcome State Fault Refusal :=
  match s.arrived i with
  | none => .next s
  | some p =>
    match p.body with
    | .congestion k =>
      let s := s.takePacket i p
      let d := s.dieAt p.dst
      .next (s.setDieAt p.dst { d with
        rates := mapSet Rate.full d.rates k (mapGet Rate.full d.rates k).lower, rateAt := mapPut d.rateAt k s.ftb })
    | _ => .next s

/-- RATE_LIMIT_RECOVERY (R291): 8 µs without a note pass. -/
def execRateLimitRecovery (d target : Nat) (s : State) : Host.Outcome State Fault Refusal :=
  let x := s.dieAt d
  let r := mapGet Rate.full x.rates target
  if r = Rate.full then .next s
  else
    let due := mapGet 0#64 x.rateAt target + 8000#64
    let s := s.until due
    .next (s.setDieAt d { s.dieAt d with rates := mapSet Rate.full x.rates target r.raise, rateAt := mapPut x.rateAt target due })

end Sys2Proof.Machine
end

