-- ==== Sys2Proof/Machine/Collective.lean ====
section
/-!
DEFINITION. Collectives (R293 to R299): the `dcoll` words and the collective unit of a die. The kinds are 0 `rs`, 1 `ag`, 2 `ar`, 3 `smax`,
4 `bc`.
-/

namespace Sys2Proof.Machine

/-- Communicator `k` of die `d`. -/
def State.commAt (s : State) (d k : Nat) : Comm := mapGet Comm.reset (s.dieAt d).comms k

/-- Write a communicator. -/
def State.setComm (s : State) (d k : Nat) (c : Comm) : State :=
  s.setDieAt d { s.dieAt d with comms := mapSet Comm.reset (s.dieAt d).comms k c }

/-! ## Blocks of a reduction (R295, R296) -/

/-- A block: 32 E4M3 codes, the scale code as run, and the flags byte. -/
structure Blk where
  codes : List Nat
  scale : Nat
  flags : Nat
  deriving DecidableEq, Repr

/-- Bytes of a packed list of blocks: four to 17 words, the last group padded (R295). -/
def packBytes : List Blk → List Nat
  | [] => []
  | l => l.flatMap (fun b => b.codes ++ [b.scale, b.flags]) ++ List.replicate ((4 - l.length % 4) % 4 * 34) 0

/-- The words of packed blocks. -/
def packBlocks (l : List Blk) : List GWord :=
  let bs := packBytes l
  (List.range (bs.length / 8)).map fun k => gloved (wordOf 8 fun j => bs.getD (8 * k + j) 0)

/-- Check the words a packet carries; none for an uncorrectable one. -/
def checkAll (d : Nat) : List GWord → Eff (List (Option (BitVec 64)))
  | [] => pure []
  | w :: t => do
    let x ← checkUnit d w
    let rest ← checkAll d t
    pure (x :: rest)

/-- Block `i` of checked words; a failed word sets ERR in each block it touches (R295). Scale and flags byte lie in one word: where it
failed, the block travels on with the scale byte 0, no code of R294, and is encoded no further (log 27). -/
def unpackBlock (ws : List (Option (BitVec 64))) (i : Nat) : Blk :=
  let at' := 34 * i
  let byte := fun (j : Nat) => elemOf 8 ((ws.getD ((at' + j) / 8) none).getD 0#64) ((at' + j) % 8)
  let err := (List.range 34).any fun j => (ws.getD ((at' + j) / 8) none).isNone
  ⟨(List.range 32).map byte, byte 32, if err then byte 33 ||| 2 else byte 33⟩

/-- An exact value times 2^k. -/
def FVal.scale (v : FVal) (k : Int) : FVal :=
  match v with
  | .fin n m e => .fin n m (e + k)
  | v => v

/-- Q(y) of R296 for a scale code, and whether it saturates: the unbounded rounded value exceeds 448, or y is infinite. -/
def encodeQ (sc : Nat) (y : FVal) : Nat × Bool :=
  let v := y.scale (127 - (sc : Int))
  let sat := match v with
    | .nan => false
    | .inf _ => true
    | .fin n m e =>
      if m = 0 then false
      else
        let q := quantum .e4m3 m e
        let k := roundUnits .rne 0 n m e q
        decide (q > 5 ∨ (q = 5 ∧ k > 14))
  (toFloat .e4m3 .rne 1 0 v, sat)

/-- Dec(w) of R296. -/
def decodeQ (sc code : Nat) : FVal := (elemValue .e4m3 code).scale ((sc : Int) - 127)

/-- Encode a block's values, with the flags so far: SAT and ERR are ORs over the hops (R296). -/
def encodeBlock (sc flags : Nat) (err : Bool) (ys : List FVal) : Blk :=
  let qs := ys.map (encodeQ sc)
  ⟨qs.map (·.1), sc, flags ||| (if qs.any (·.2) then 1 else 0) ||| (if err then 2 else 0)⟩

/-- Round(FP32, Dec(w) + x) over a block (R296). -/
def addBlock (b : Blk) (xs : List Nat) : List Nat :=
  (b.codes.zip xs).map fun p => roundNearest .fp32 (exactSum [decodeQ b.scale p.1, elemValue .fp32 p.2])

/-! ## A run at a position -/

/-- What a position works with: die, communicator number and entry, the run, its tile, and the own offsets of source and destination. -/
structure CollCtx where
  d : Nat
  k : Nat
  c : Comm
  r : CollRun
  g : Nat
  src : Nat
  dst : Nat

/-- Word `i` of the source: the scratchpad's, or, once the record of an `rs` is posted and its range free (R294), the one kept. -/
def CollCtx.word (x : CollCtx) (s : State) (i : Nat) : GWord :=
  match x.r.kept with
  | some l => l.getD i GWord.zero
  | none => (s.tileAt x.g).spad.read (x.src + 8 * i)

/-- The 32 FP32 elements of a block of the source, and whether a word of them is uncorrectable. -/
def sourceBlock (x : CollCtx) (b : Nat) : Eff (List Nat × Bool) := do
  let s ← getsState id
  let ws ← checkAll x.d ((List.range 16).map fun k => x.word s (16 * b + k))
  pure ((List.range 32).map (fun e => elemOf 32 ((ws.getD (e / 2) none).getD 0#64) (e % 2)), ws.any Option.isNone)

/-- A hop: the first encodes the position's own elements, a later one adds them (R296). A block that lost its scale passes with ERR
alone, so its owner reruns it with the same SCODE (R297). -/
def hopBlock (x : CollCtx) (first : Bool) (p : Nat × Blk) : Eff Blk := do
  let (xs, err) ← sourceBlock x p.1
  if p.2.scale = 0 then return ⟨List.replicate 32 0, 0, 2⟩
  if first then return encodeBlock p.2.scale p.2.flags err (xs.map (elemValue .fp32))
  return encodeBlock p.2.scale p.2.flags err ((addBlock p.2 xs).map (elemValue .fp32))

/-- The hops of several blocks. -/
def hopBlocks (x : CollCtx) (first : Bool) : List (Nat × Blk) → Eff (List Blk)
  | [] => pure []
  | p :: t => do
    let b ← hopBlock x first p
    let rest ← hopBlocks x first t
    pure (b :: rest)

/-- Blocks a chunk has. -/
def CollCtx.per (x : CollCtx) : Nat := x.r.cnt / x.c.p

/-- The communicator's next position: the die of the package, or outside. -/
def CollCtx.nextDie (x : CollCtx) (s : State) : Nat := (s.dieOf x.c.next.toNat).getD outside

/-- Send a packet of the run to the next position (R293). -/
def collSend (x : CollCtx) (phase stage chunk : Nat) (items : List Nat) (ws : List GWord) (mis : Bool) : Eff Unit :=
  modState fun s => s.inject (packet x.c.vc x.d (x.nextDie s)
    (.coll ⟨x.k, x.r.kind, x.r.cnt, x.r.scode, x.r.root, x.r.seq, phase, stage, chunk, items, ws, mis⟩))

/-- Change the run. -/
def modRun (x : CollCtx) (f : CollRun → CollRun) : Eff Unit :=
  modState fun s =>
    let c := s.commAt x.d x.k
    s.setComm x.d x.k { c with run := c.run.map f }

/-- The run as it stands. -/
def curRun (x : CollCtx) : Eff CollRun := getsState fun s => ((s.commAt x.d x.k).run).getD x.r

/-- Write words at an own offset of the run's tile. -/
def collWrite (x : CollCtx) (off : Nat) (ws : List GWord) : Eff Unit :=
  modState fun s =>
    let t := s.tileAt x.g
    s.setTileAt x.g { t with spad := t.spad.writeList off ws }

/-- Flags bytes as doublewords, 8 to one (R294). -/
def flagWords (l : List Nat) : List GWord :=
  (List.range ((l.length + 7) / 8)).map fun k => gloved (wordOf 8 fun j => l.getD (8 * k + j) 0)

/-- The result offset of a block. -/
def CollCtx.resOff (x : CollCtx) (b : Nat) : Nat := x.dst + 128 * (if x.r.kind = 0 then b - x.c.pos * x.per else b)

/-- An FP32 code is a NaN. -/
def isNan32 (n : Nat) : Bool := decide (elemValue .fp32 n = .nan)

/-- NaN elements the position counted among the results of a block it has written. -/
def CollCtx.nansOf (x : CollCtx) (s : State) (b : Nat) : Nat :=
  ((List.range 32).filter fun e =>
    isNan32 (elemOf 32 ((s.tileAt x.g).spad.read (x.resOff b + 8 * (e / 2))).data (e % 2))).length

/-- Write a block's results with its flags byte (R297); results written over are counted no more. -/
def putResult (x : CollCtx) (b : Nat) (vs : List Nat) (flags : Nat) : Eff Unit := do
  let r ← curRun x
  let s ← getsState id
  let old := if r.flags.any fun p => decide (p.1 = b) then x.nansOf s b else 0
  collWrite x (x.resOff b) ((List.range 16).map fun k => gloved (wordOf 32 fun j => vs.getD (2 * k + j) 0))
  modRun x fun r => { r with
    flags := mapPut r.flags b flags, nans := r.nans - old + (vs.filter isNan32).length }

/-- What the owner makes of a block whose chain has ended: rerun with a scale code, or none (R297). `sc` is the code of the run just
ended, which the owner itself chose. -/
def rerunScale (n sc : Nat) (b : Blk) : Option Nat :=
  let sat := decide (b.flags % 2 = 1)
  let err := decide (b.flags / 2 % 2 = 1)
  if 2 ≤ n then none
  else if sat ∧ (sc < 254 ∨ err) then some (min (sc + 2) 254)
  else if err ∧ ¬ sat then some sc
  else none

/-- The owner's part for arriving blocks: results, or reruns along the same chain (R296, R297); the blocks to run again. -/
def ownBlocks (x : CollCtx) : List (Nat × Blk) → Eff (List (Nat × Blk))
  | [] => pure []
  | (b, blk) :: t => do
    let (xs, bad) ← sourceBlock x b
    let blk := if bad then { blk with flags := blk.flags ||| 2 } else blk
    let r ← curRun x
    let n := mapGet 0 r.reruns b
    match rerunScale n (mapGet r.scode r.scales b) blk with
    | some sc => do
      modRun x fun r => { r with reruns := mapPut r.reruns b (n + 1), scales := mapPut r.scales b sc }
      let rest ← ownBlocks x t
      pure ((b, ⟨List.replicate 32 0, sc, 4 * (n + 1)⟩) :: rest)
    | none => do
      let err := decide (blk.flags / 2 % 2 = 1)
      let vs := if err then List.replicate 32 (canonNan .fp32) else addBlock blk xs
      let nan := vs.any isNan32
      putResult x b vs (blk.flags % 2 + (if nan then 2 else 0) + (if err then 4 else 0) + 8 * n)
      ownBlocks x t

/-- Blocks of a chunk. -/
def CollCtx.blocks (x : CollCtx) (chunk : Nat) : List Nat := (List.range x.per).map fun i => chunk * x.per + i

/-- Note a chunk as finished at the position. -/
def chunkDone (x : CollCtx) (chunk : Nat) : Eff Unit := modRun x fun r => { r with done := chunk :: r.done }

/-- A word's record at a position (R64, R297): the flags bytes of its blocks, then the record's STATUS and COUNT. The command keeps its
ranges until the record is posted (R294). -/
def collReport (x : CollCtx) (mis : Bool) : Eff Unit := do
  let r ← curRun x
  let bs := if r.kind = 0 then x.blocks x.c.pos else if r.kind = 2 then List.range r.cnt else []
  let fl := bs.map fun b => mapGet 0 r.flags b
  if !mis && !bs.isEmpty then collWrite x (x.dst + 128 * bs.length) (flagWords fl)
  let err := r.errs || fl.any fun f => decide (f / 4 % 2 = 1)
  let sat := fl.any fun f => decide (f % 2 = 1)
  let status := if mis then 0x97 else if err then 0x98 else if sat then 0x96 else 0x00
  let close := fun (c : DCmd) =>
    if c.ref.idx = r.idx then { c.endWith status r.nans with done := false } else c
  modState fun s =>
    let t := s.tileAt x.g
    (s.setTileAt x.g { t with dcmds := t.dcmds.map close }).settleEnded x.g

/-- Once every block of the own chunk has its result, the results (`ar`) or the news (`rs`) go once round the ring (R298). The record of an
`rs` is posted now (R297); the unit keeps the source words for the chunks of other positions that are still to come. -/
def ownDone (x : CollCtx) : Eff Unit := do
  let r ← curRun x
  let bs := x.blocks x.c.pos
  if bs.all (fun b => r.flags.any fun p => decide (p.1 = b)) && !r.done.contains x.c.pos then
    let s ← getsState id
    let ws := if x.r.kind = 2 then
        (bs.flatMap fun b => (List.range 16).map fun k => (s.tileAt x.g).spad.read (x.resOff b + 8 * k)) ++
          flagWords (bs.map fun b => mapGet 0 r.flags b)
      else []
    collSend x 2 1 x.c.pos [] ws false
    if x.r.kind = 0 then
      chunkDone x x.c.pos
      collReport x false
      modRun x fun r => { r with kept := some ((List.range (16 * r.cnt)).map (x.word s)) }

/-- The words of block `i` of a chunk that goes round, and the word that holds its flags byte (R294). -/
def CollCtx.chunkWords (x : CollCtx) (ws : List (Option (BitVec 64))) (i : Nat) : List (Option (BitVec 64)) × Option (BitVec 64) :=
  ((List.range 16).map fun k => ws.getD (16 * i + k) none, ws.getD (16 * x.per + i / 8) none)

/-- Blocks of a chunk that a failed word touches (R295). -/
def CollCtx.failedBlocks (x : CollCtx) (chunk : Nat) (ws : List (Option (BitVec 64))) : List Nat :=
  (x.blocks chunk).filter fun b =>
    let p := x.chunkWords ws (b - chunk * x.per)
    p.2.isNone || p.1.any Option.isNone

/-- Take another owner's results: the blocks whose words are all good (R298). -/
def putChunk (x : CollCtx) (chunk : Nat) (ws : List (Option (BitVec 64))) : Eff Unit := do
  let rec go : List Nat → Eff Unit
    | [] => pure ()
    | b :: t => do
      let i := b - chunk * x.per
      let p := x.chunkWords ws i
      putResult x b ((List.range 32).map fun e => elemOf 32 ((p.1.getD (e / 2) none).getD 0#64) (e % 2))
        (elemOf 8 (p.2.getD 0#64) (i % 8))
      go t
  let bad := x.failedBlocks chunk ws
  go ((x.blocks chunk).filter fun b => !bad.contains b)

/-- Blocks of `ar` that failed on their way round end with ERR, their results the canonical NaN, at every position alike (R295, R297,
R298; log 27). -/
def spoil (x : CollCtx) : List Nat → Eff Unit
  | [] => pure ()
  | b :: t => do
    let r ← curRun x
    putResult x b (List.replicate 32 (canonNan .fp32)) (mapGet 0 r.flags b ||| 6)
    spoil x t

/-- The error doubleword (R298). -/
def errorWord : BitVec 64 := 0x7FC000007FC00000#64

/-- The places of the error words of a list. -/
def errorsOf (ws : List (Option (BitVec 64))) : List Nat :=
  (List.range ws.length).filter fun i => (ws.getD i none).isNone

/-- Write moved words to their places: an error word is written as the error doubleword and counted (R298). -/
def putMoved (x : CollCtx) (off : Nat) (items : List Nat) (ws : List (Option (BitVec 64))) : Eff Unit := do
  let rec go : List (Nat × Option (BitVec 64)) → Eff Unit
    | [] => pure ()
    | p :: t => do
      collWrite x (off + 8 * p.1) [gloved (p.2.getD errorWord)]
      go t
  go (items.zip ws)
  let n := (ws.filter Option.isNone).length
  modRun x fun r => { r with nans := r.nans + n, errs := r.errs || decide (0 < n) }

/-- Write the words of a list that are not in error. -/
def putGood (x : CollCtx) (off : Nat) (ws : List (Option (BitVec 64))) : Eff Unit :=
  let is := (List.range ws.length).filter fun i => (ws.getD i none).isSome
  putMoved x off is (is.map fun i => ws.getD i none)

/-- Words as the unit sends them: an error word keeps an uncorrectable glove. -/
def sendable (ws : List (Option (BitVec 64))) : List GWord :=
  ws.map fun w => match w with | some v => gloved v | none => poisoned (gloved 0#64)

/-- The position's own source words, checked (R295). -/
def ownWords (x : CollCtx) : Eff (List (Option (BitVec 64))) := do
  let s ← getsState id
  checkAll x.d ((List.range x.r.cnt).map (x.word s))

/-- The winner of two `smax` words (R298). -/
def smaxOf (a b : BitVec 64) : BitVec 64 :=
  let v := fun (w : BitVec 64) => elemValue .fp32 (bits w 31 0)
  if rankAbove (v a) (v b) then a
  else if rankAbove (v b) (v a) then b
  else if bits b 63 32 < bits a 63 32 then b else a

/-- Combine arriving words with the own ones; an error word of either stays one. -/
def smaxAll (a b : List (Option (BitVec 64))) : List (Option (BitVec 64)) :=
  (a.zip b).map fun p => match p with
    | (some x, some y) => some (smaxOf x y)
    | _ => none

/-- Replace the words at the places of a list. -/
def replaceAll (ws : List (Option (BitVec 64))) (items : List Nat) (f : Nat → Option (BitVec 64)) : List (Option (BitVec 64)) :=
  (List.range ws.length).map fun i => if items.contains i then f i else ws.getD i none

/-- The run has nothing left to do at this position. -/
def collFinished (x : CollCtx) (r : CollRun) : Bool := decide (x.c.p ≤ r.done.length)

/-- Every chunk is finished at the position. -/
def allDone (x : CollCtx) : Eff Unit := modRun x fun r => { r with done := List.range x.c.p }

/-- Where a chunk's moved words lie (R294). -/
def CollCtx.movedOff (x : CollCtx) (chunk : Nat) : Nat := if x.r.kind = 1 then x.dst + 8 * x.r.cnt * chunk else x.dst

/-- A chunk of `ag`, or the one of `bc`, is finished at the position. -/
def movedDone (x : CollCtx) (chunk : Nat) : Eff Unit := if x.r.kind = 1 then chunkDone x chunk else allDone x

/-- The winners of an `smax` are known at the last position: they go round the ring, with the places still in error after they were
carried once more (R298). -/
def smaxEnd (x : CollCtx) (ws : List (Option (BitVec 64))) : Eff Unit := do
  putMoved x x.dst (List.range ws.length) ws
  collSend x 2 1 0 (errorsOf ws) (sendable ws) false

/-- Check the words of a run's destination at some places. -/
def dstWords (x : CollCtx) (items : List Nat) : Eff (List (Option (BitVec 64))) := do
  let s ← getsState id
  checkAll x.d (items.map fun i => (s.tileAt x.g).spad.read (x.dst + 8 * i))

/-- A position's first part in a collective (R296, R298). -/
def collStart (x : CollCtx) : Eff Unit := do
  let p := x.c.p
  let pos := x.c.pos
  match x.r.kind with
  | 1 => do
    let ws ← ownWords x
    putGood x (x.movedOff pos) ws
    collSend x 0 1 pos [] (sendable ws) false
  | 3 =>
    if pos = 0 then do
      let ws ← ownWords x
      collSend x 0 1 0 [] (sendable ws) false
    else pure ()
  | 4 =>
    if pos = x.r.root then do
      let ws ← ownWords x
      putGood x (x.movedOff pos) ws
      collSend x 0 1 pos [] (sendable ws) false
    else pure ()
  | _ => do
    let chunk := (pos + p - 1) % p
    let bs := x.blocks chunk
    let l ← hopBlocks x true (bs.map fun b => (b, (⟨[], x.r.scode, 0⟩ : Blk)))
    collSend x 0 1 chunk bs (packBlocks l) false

/-- What a position does with words of `ag` or `bc` (R298). In the first pass it writes the words that are good; the last position then
names the error words to the position that sent them, which carries these once more round the ring: a word still in error is written as
the error doubleword. -/
def takeMoved (x : CollCtx) (q : CollPkt) (ws : List (Option (BitVec 64))) : Eff Unit := do
  let off := x.movedOff q.chunk
  if q.phase = 0 then
    putGood x off ws
    if q.stage + 1 < x.c.p then collSend x 0 (q.stage + 1) q.chunk [] (sendable ws) false
    else collSend x 1 0 q.chunk (errorsOf ws) [] false
  else do
    let own ← if q.stage = 0 then ownWords x else pure []
    let ws := if q.stage = 0 then q.items.map fun i => own.getD i none else ws
    putMoved x off q.items ws
    movedDone x q.chunk
    if q.stage + 1 < x.c.p then collSend x 1 (q.stage + 1) q.chunk q.items (sendable ws) false

/-- What a position does with words of `smax` (R298): the first pass finds the winners; words that end it in error go once more from
position 0 to the last; then the winners go round, and those that fail on this way go once more. -/
def takeSmax (x : CollCtx) (q : CollPkt) (ws : List (Option (BitVec 64))) : Eff Unit := do
  let last := decide (x.c.pos + 1 = x.c.p)
  if q.phase = 3 then
    let ws ← if q.stage = 0 then dstWords x q.items else pure ws
    putMoved x x.dst q.items ws
    allDone x
    if q.stage + 1 < x.c.p then collSend x 3 (q.stage + 1) 0 q.items (sendable ws) false
  else if q.phase = 2 then
    putGood x x.dst ws
    putMoved x x.dst q.items (q.items.map fun _ => none)
    if q.stage + 1 < x.c.p then collSend x 2 (q.stage + 1) 0 q.items (sendable ws) false
    else collSend x 3 0 0 ((errorsOf ws).filter fun i => !q.items.contains i) [] false
  else do
    let own ← ownWords x
    let both := smaxAll ws own
    if q.phase = 0 then
      if ¬ last then collSend x 0 (q.stage + 1) 0 [] (sendable both) false
      else if (errorsOf both).isEmpty then smaxEnd x both
      else collSend x 1 0 0 (errorsOf both) (sendable both) false
    else
      let now := replaceAll ws q.items fun i => if q.stage = 0 then own.getD i none else both.getD i none
      if last then smaxEnd x now else collSend x 1 (q.stage + 1) 0 q.items (sendable now) false

/-- What a position does with a packet of its own word (R296 to R298). -/
def collTake (x : CollCtx) (q : CollPkt) : Eff Unit := do
  let p := x.c.p
  let pos := x.c.pos
  let ws ← checkAll x.d q.words
  match x.r.kind, q.phase with
  | 1, _ => takeMoved x q ws
  | 3, _ => takeSmax x q ws
  | 4, _ => takeMoved x q ws
  | _, 0 => do
    let bs := (List.range q.items.length).map fun i => (q.items.getD i 0, unpackBlock ws i)
    if pos = q.chunk then do
      let again ← ownBlocks x bs
      if !again.isEmpty then collSend x 0 0 q.chunk (again.map (·.1)) (packBlocks (again.map (·.2))) false
      ownDone x
    else do
      let l ← hopBlocks x (decide (q.stage = 0)) bs
      collSend x 0 (q.stage + 1) q.chunk q.items (packBlocks l) false
  | 2, 2 => do
    putChunk x q.chunk ws
    if q.stage + 1 < p then collSend x 2 (q.stage + 1) q.chunk [] (sendable ws) false
    else collSend x 3 0 q.chunk (x.failedBlocks q.chunk ws) [] false
  | 2, _ => do
    spoil x q.items
    chunkDone x q.chunk
    if q.stage + 1 < p then collSend x 3 (q.stage + 1) q.chunk q.items [] false
  | _, _ => do
    if q.stage + 1 < p then collSend x 2 (q.stage + 1) q.chunk [] [] false
    chunkDone x q.chunk

/-! ## Beginning and ending a word (R293, R297) -/

/-- Destination bytes of a word (R294). -/
def collDstLen (kind cnt p : Nat) : Nat :=
  let f := fun n => 8 * ((n + 7) / 8)
  match kind with
  | 0 => 128 * (cnt / p) + f (cnt / p)
  | 2 => 128 * cnt + f cnt
  | 1 => 8 * cnt * p
  | _ => 8 * cnt

/-- The end of a word at a position: its record, where it has none yet, and the communicator is free (R293, R297). -/
def collEnd (x : CollCtx) (mis : Bool) : Eff Unit := do
  let r ← curRun x
  if r.kept.isNone then collReport x mis
  modState fun s => s.setComm x.d x.k { s.commAt x.d x.k with run := none }

/-- A mismatch ends the word and goes on round the ring; the destination's words are left free (R297, log 5). -/
def collMismatch (x : CollCtx) : Eff Unit := do
  collSend x 0 0 0 [] [] true
  let n := if x.r.kept.isSome then 0 else collDstLen x.r.kind x.r.cnt x.c.p / 8
  let rec fill : Nat → Eff Unit
    | 0 => pure ()
    | m + 1 => do
      fill m
      collWrite x (x.dst + 8 * m) [gloved (Config.freeWord (← freshTurn))]
  fill n
  collEnd x true

/-- The command of a word on a tile. -/
def Tile.collCmd (t : Tile) (idx : Nat) : Option DCmd := t.dcmds.find? fun c => decide (c.ref.idx = idx)

/-- The context of a run whose task is on a tile (R299), or whose record is posted; none while it is saved. -/
def State.collCtx (s : State) (d k : Nat) (r : CollRun) : Option CollCtx :=
  let t := s.tileAt r.holder
  if r.kept.isSome then some ⟨d, k, s.commAt d k, r, r.holder, 0, 0⟩
  else if r.holder < 384 ∧ t.cut = none then
    (t.collCmd r.idx).map fun c =>
      ⟨d, k, s.commAt d k, r, r.holder, ownOff r.holder (bits c.aA.data 31 0), ownOff r.holder (bits c.aD.data 31 0)⟩
  else none

/-- A packet that does not belong to the word as issued (R297). -/
def differs (r : CollRun) (q : CollPkt) : Bool :=
  q.mismatch || decide (q.kind ≠ r.kind ∨ q.cnt ≠ r.cnt ∨ q.scode ≠ r.scode ∨ q.root ≠ r.root)

/-- Begin the communicator's next word when its task is on a tile (R293). -/
def collBegin (d k : Nat) (s : State) : Option State :=
  let c := s.commAt d k
  match c.queue with
  | (h, idx) :: rest =>
    if h < 384 ∧ c.valid then
      match (s.tileAt h).collCmd idx with
      | some cmd =>
        match cmd.kind with
        | .coll kind =>
          let w := cmd.desc.data
          let r : CollRun := ⟨h, idx, kind, bits w 23 0, bits w 48 41, bits w 40 29, c.seq,
            c.early.filter (fun q => decide (q.seq = c.seq)), [], [], [], [], 0, false, none⟩
          let c := { c with
            seq := c.seq + 1, queue := rest, run := some r, early := c.early.filter fun q => decide (q.seq ≠ r.seq) }
          let s := s.setComm d k c
          match s.collCtx d k r with
          | some x => match (collStart x).run s with | .ok (_, s) => some s | .error _ => some s
          | none => some s
        | _ => none
      | none => none
    else none
  | [] => none

/-- Do what can be done at a position: begin a word, take packets that wait, end a finished word. -/
def collPump (d k : Nat) : Nat → State → State
  | 0, s => s
  | n + 1, s =>
    match (s.commAt d k).run with
    | none =>
      match collBegin d k s with
      | some s => collPump d k n s
      | none => s
    | some r =>
      match s.collCtx d k r with
      | none => s
      | some x =>
        if collFinished x r then
          match (collEnd x false).run s with | .ok (_, s) => collPump d k n s | .error _ => s
        else
          match r.inbox with
          | [] => s
          | q :: rest =>
            let s := s.setComm d k { s.commAt d k with run := some { r with inbox := rest } }
            let act := if differs r q then collMismatch x else collTake x q
            match act.run s with | .ok (_, s) => collPump d k n s | .error _ => s

/-- Enough turns for everything that waits. -/
def collTurns (c : Comm) : Nat :=
  4 + 4 * (c.queue.length + c.early.length + ((c.run.map (·.inbox.length)).getD 0))

/-- Run a communicator until it must wait. -/
def collGo (d k : Nat) (s : State) : State := collPump d k (collTurns (s.commAt d k)) s

/-- DCOLL_PACKET_ARRIVAL (R293, R296 to R299). A packet at an invalid entry, or from another die than the previous position's, is a
mismatch of the word under way; at an invalid entry with no word under way there is none to end. -/
def execDcollPacketArrival (i : Nat) (s : State) : Host.Outcome State Fault Refusal :=
  match s.arrived i with
  | none => .next s
  | some p =>
    match p.body with
    | .coll q =>
      let s := s.takePacket i p
      let c := s.commAt p.dst q.comm
      let stray := !c.valid || decide (s.dieId p.src ≠ c.prev.toNat)
      let now := (c.run.map (·.seq)).getD c.seq
      let q := if stray then { q with mismatch := true, seq := now } else q
      if ¬ c.valid ∧ c.run = none then .next s
      else if q.seq < now then .next s
      else
        let c := match c.run with
          | some r => if q.seq = r.seq then { c with run := some { r with inbox := r.inbox ++ [q] } } else { c with early := c.early ++ [q] }
          | none => { c with early := c.early ++ [q] }
        .next (collGo p.dst q.comm (s.setComm p.dst q.comm c))
    | _ => .next s

/-! ## The word (R294) -/

/-- Codes of RAW and FP32, of RAW and INT8 (R81). -/
def rawFp32 : List Nat := [15, 0]
def rawInt8 : List Nat := [15, 4]

/-- Any format. -/
def anyFmt : List Nat := List.range 16

/-- The banks of a source and of a destination (R294). -/
def collBanks (kind src dst res : Nat) : List (Nat × Nat × List Nat) × List (Nat × Nat × List Nat) :=
  match kind with
  | 1 => ([(0, src, anyFmt)], [(0, dst, anyFmt)])
  | 3 => ([(0, src, rawInt64)], [(0, dst, rawInt64)])
  | 4 => ([(0, src, anyFmt)], [(0, dst, anyFmt)])
  | _ => ([(0, src, rawFp32)], [(0, res, rawFp32), (res, dst, rawInt8)])

/-- Issue a `dcoll` of a kind (R294, R443). -/
def issueColl (kind : Nat) (d a b : Nat) : Eff Unit := do
  waitRoom
  let g ← curTile
  let desc ← readA b
  let aA ← readA a
  let aD ← readA d
  let t ← getTile
  let k := bits desc 63 58
  let cnt := bits desc 23 0
  let c ← getsState (·.commAt (g / 16) k)
  let red := decide (kind = 0 ∨ kind = 2)
  let sc := bits desc 48 41
  let root := bits desc 40 29
  let sa := bits aA 31 0
  let da := bits aD 31 0
  let srcLen := if red then 128 * cnt else 8 * cnt
  let dstLen := collDstLen kind cnt c.p
  let res := if kind = 0 then 128 * (cnt / c.p) else 128 * cnt
  let banks := collBanks kind srcLen dstLen res
  let so : SpadOp := ⟨sa, srcLen, banks.1⟩
  let dO : SpadOp := ⟨da, dstLen, banks.2⟩
  let bothOwn := (so.fault g).isEmpty && (dO.fault g).isEmpty
  raiseIf (decide (bits desc 28 24 ≠ 0 ∨ cnt = 0) || (red && decide (sc = 0 ∨ 254 < sc)) || (!red && decide (sc ≠ 0)) ||
    (decide (kind = 4) && decide (c.p ≤ root)) || (decide (kind ≠ 4) && decide (root ≠ 0)) || !c.valid ||
    !(if t.side then c.learner else c.actor) || (red && decide (cnt % c.p ≠ 0)) ||
    (bothOwn && meets (so.range g) (dO.range g))) cDCMD 0 t.eD.pc
  match [so, dO].find? fun o => decide (o.sa % 8 ≠ 0) with
  | some o => raise cALIGN 0 (BitVec.ofNat 64 o.sa)
  | none => pure ()
  raiseLowest (so.fault g ++ dO.fault g)
  match [so, dO].findSome? (·.badBank g t) with
  | some x => raise cFMT 0 (BitVec.ofNat 64 x)
  | none => pure ()
  rangeCheck t.eD.pos [so.range g] [dO.range g]
  let w ← refD
  launchD ⟨w, .coll kind, gloved aD, gloved aA, gloved desc, 0#9, [], none, 0#64, [so.range g], [dO.range g], 0, false, false, none,
    bits desc 57 49, true, 0, 0, [], [], false⟩
  modState fun s =>
    let c := s.commAt (g / 16) k
    collGo (g / 16) k (s.setComm (g / 16) k { c with queue := c.queue ++ [(g, w.idx)] })

/-- Run a `dcoll` of a kind. -/
def runColl (kind : Nat) (g d a b : BitVec 4) (s : State) : Host.Outcome State Fault Refusal :=
  runE .D g (issueColl kind d.toNat a.toNat b.toNat) s

/-- `dcoll.rs` (R296). -/
def execDcollRs (g d a b : BitVec 4) (s : State) : Host.Outcome State Fault Refusal := runColl 0 g d a b s

/-- `dcoll.ag` (R298). -/
def execDcollAg (g d a b : BitVec 4) (s : State) : Host.Outcome State Fault Refusal := runColl 1 g d a b s

/-- `dcoll.ar` (R298). -/
def execDcollAr (g d a b : BitVec 4) (s : State) : Host.Outcome State Fault Refusal := runColl 2 g d a b s

/-- `dcoll.smax` (R298). -/
def execDcollSmax (g d a b : BitVec 4) (s : State) : Host.Outcome State Fault Refusal := runColl 3 g d a b s

/-- `dcoll.bc` (R298). -/
def execDcollBc (g d a b : BitVec 4) (s : State) : Host.Outcome State Fault Refusal := runColl 4 g d a b s

end Sys2Proof.Machine
end

