-- ==== Sys2Proof/Machine/Flags.lean ====
section
/-!
DEFINITION. The machine has no flag register. What other machines compute into flags, its words compute into a result or an
outcome: the conditions of the branches (R151) and of the compares (R133).
-/

namespace Sys2Proof.Machine

/-- The branch conditions of R151. -/
inductive Cond where
  | eq | ne | lt | ge | ltu | geu
  deriving DecidableEq, Repr

/-- Whether a condition holds of two values (R151). -/
def condHolds (c : Cond) (a b : BitVec 64) : Bool :=
  match c with
  | .eq => decide (a = b)
  | .ne => decide (a ≠ b)
  | .lt => a.slt b
  | .ge => !a.slt b
  | .ltu => a.ult b
  | .geu => !a.ult b

/-- A truth value as a doubleword: 1 or 0 (R133). -/
def boolWord (b : Bool) : BitVec 64 := if b then 1#64 else 0#64

end Sys2Proof.Machine
end

