-- ==== Sys2Proof/Machine/ScalarAlu.lean ====
section
/-!
DEFINITION. Integer arithmetic of S: the ALU-R group (R133, R134), the ALU-U group (R135), bit fields (R136), immediate
forms (R137), `lih` (R138) and `getw` (R139).
-/

namespace Sys2Proof.Machine

/-- A word of the ALU-R group: xD := f(xA, xB) (R133). -/
def alu2 (f : BitVec 64 → BitVec 64 → BitVec 64) (d a b : BitVec 6) (s : State) : Host.Outcome State Fault Refusal :=
  runS .slip true (do
    let x ← readX a
    let y ← readX b
    writeX d (f x y)) s

/-- A word with one source register: xD := f(xA) (R135 to R137). -/
def alu1 (f : BitVec 64 → BitVec 64) (d a : BitVec 6) (s : State) : Host.Outcome State Fault Refusal :=
  runS .slip true (do
    let x ← readX a
    writeX d (f x)) s

/-- The shift amount of a register: bits [5:0] (R133). -/
def shamt (y : BitVec 64) : Nat := y.toNat % 64

/-- Signed minimum and maximum (R133). -/
def sminW (x y : BitVec 64) : BitVec 64 := if x.slt y then x else y

/-- Signed maximum (R133). -/
def smaxW (x y : BitVec 64) : BitVec 64 := if x.slt y then y else x

/-- Unsigned minimum (R133). -/
def uminW (x y : BitVec 64) : BitVec 64 := if x.ult y then x else y

/-- Unsigned maximum (R133). -/
def umaxW (x y : BitVec 64) : BitVec 64 := if x.ult y then y else x

/-- Bits [127:64] of the signed product (R133). -/
def mulhW (x y : BitVec 64) : BitVec 64 := BitVec.ofInt 64 (x.toInt * y.toInt / 2 ^ 64)

/-- Bits [127:64] of the unsigned product (R133). -/
def mulhuW (x y : BitVec 64) : BitVec 64 := BitVec.ofNat 64 (x.toNat * y.toNat / 2 ^ 64)

/-- Signed quotient truncated toward zero; all ones for a zero divisor; modulo 2^64 (R134). -/
def divW (x y : BitVec 64) : BitVec 64 := if y = 0#64 then BitVec.allOnes 64 else BitVec.ofInt 64 (x.toInt.tdiv y.toInt)

/-- Signed remainder with the sign of the dividend (R134). -/
def remW (x y : BitVec 64) : BitVec 64 := if y = 0#64 then x else BitVec.ofInt 64 (x.toInt.tmod y.toInt)

/-- Unsigned quotient (R134). -/
def divuW (x y : BitVec 64) : BitVec 64 := if y = 0#64 then BitVec.allOnes 64 else BitVec.ofNat 64 (x.toNat / y.toNat)

/-- Unsigned remainder (R134). -/
def remuW (x y : BitVec 64) : BitVec 64 := if y = 0#64 then x else BitVec.ofNat 64 (x.toNat % y.toNat)

/-- Zero bits above the highest one bit among bits `n - 1` to 0 (R135). -/
def leadingZeros (x : BitVec 64) : Nat → Nat
  | 0 => 0
  | n + 1 => if x.getLsbD n then 0 else 1 + leadingZeros x n

/-- Zero bits below the lowest one bit, `n` bits from the top end on (R135). -/
def trailingZeros (x : BitVec 64) : Nat → Nat
  | 0 => 0
  | n + 1 => if x.getLsbD (63 - n) then 0 else 1 + trailingZeros x n

/-- One bits among bits `n - 1` to 0 (R135). -/
def popCount (x : BitVec 64) : Nat → Nat
  | 0 => 0
  | n + 1 => (if x.getLsbD n then 1 else 0) + popCount x n

/-- `bext`: `w` holds the width less 1 (R136). -/
def bextW (w l : BitVec 6) (x : BitVec 64) : BitVec 64 := BitVec.ofNat 64 (bits x (l.toNat + w.toNat) l.toNat)

/-- `bins` into an old value (R136). -/
def binsW (w l : BitVec 6) (old x : BitVec 64) : BitVec 64 := setBits old (l.toNat + w.toNat) l.toNat x.toNat

/-- The place of field `k` under a split word: the widths below it (R41). -/
def splitOff (sp : BitVec 64) : Nat → Nat
  | 0 => 0
  | k + 1 => splitOff sp k + bits sp (6 * k + 5) (6 * k)

/-- Field `k` of a value under a split word (R41). -/
def splitField (sp v : BitVec 64) (k : Nat) : BitVec 64 :=
  BitVec.ofNat 64 (v.toNat / 2 ^ splitOff sp k % 2 ^ bits sp (6 * k + 5) (6 * k))

/-- `add` (R133). -/
def execAdd (d a b : BitVec 6) (s : State) : Host.Outcome State Fault Refusal :=
  alu2 (fun x y => x + y) d a b s

/-- `sub` (R133). -/
def execSub (d a b : BitVec 6) (s : State) : Host.Outcome State Fault Refusal :=
  alu2 (fun x y => x - y) d a b s

/-- `and` (R133). -/
def execAnd (d a b : BitVec 6) (s : State) : Host.Outcome State Fault Refusal :=
  alu2 (fun x y => x &&& y) d a b s

/-- `or` (R133). -/
def execOr (d a b : BitVec 6) (s : State) : Host.Outcome State Fault Refusal :=
  alu2 (fun x y => x ||| y) d a b s

/-- `xor` (R133). -/
def execXor (d a b : BitVec 6) (s : State) : Host.Outcome State Fault Refusal :=
  alu2 (fun x y => x ^^^ y) d a b s

/-- `andn` (R133). -/
def execAndn (d a b : BitVec 6) (s : State) : Host.Outcome State Fault Refusal :=
  alu2 (fun x y => x &&& ~~~y) d a b s

/-- `orn` (R133). -/
def execOrn (d a b : BitVec 6) (s : State) : Host.Outcome State Fault Refusal :=
  alu2 (fun x y => x ||| ~~~y) d a b s

/-- `sll` (R133). -/
def execSll (d a b : BitVec 6) (s : State) : Host.Outcome State Fault Refusal :=
  alu2 (fun x y => x <<< shamt y) d a b s

/-- `srl` (R133). -/
def execSrl (d a b : BitVec 6) (s : State) : Host.Outcome State Fault Refusal :=
  alu2 (fun x y => x >>> shamt y) d a b s

/-- `sra` (R133). -/
def execSra (d a b : BitVec 6) (s : State) : Host.Outcome State Fault Refusal :=
  alu2 (fun x y => x.sshiftRight (shamt y)) d a b s

/-- `rotl` (R133). -/
def execRotl (d a b : BitVec 6) (s : State) : Host.Outcome State Fault Refusal :=
  alu2 (fun x y => x.rotateLeft (shamt y)) d a b s

/-- `rotr` (R133). -/
def execRotr (d a b : BitVec 6) (s : State) : Host.Outcome State Fault Refusal :=
  alu2 (fun x y => x.rotateRight (shamt y)) d a b s

/-- `slt` (R133). -/
def execSlt (d a b : BitVec 6) (s : State) : Host.Outcome State Fault Refusal :=
  alu2 (fun x y => boolWord (x.slt y)) d a b s

/-- `sltu` (R133). -/
def execSltu (d a b : BitVec 6) (s : State) : Host.Outcome State Fault Refusal :=
  alu2 (fun x y => boolWord (x.ult y)) d a b s

/-- `min` (R133). -/
def execMin (d a b : BitVec 6) (s : State) : Host.Outcome State Fault Refusal :=
  alu2 (fun x y => sminW x y) d a b s

/-- `max` (R133). -/
def execMax (d a b : BitVec 6) (s : State) : Host.Outcome State Fault Refusal :=
  alu2 (fun x y => smaxW x y) d a b s

/-- `minu` (R133). -/
def execMinu (d a b : BitVec 6) (s : State) : Host.Outcome State Fault Refusal :=
  alu2 (fun x y => uminW x y) d a b s

/-- `maxu` (R133). -/
def execMaxu (d a b : BitVec 6) (s : State) : Host.Outcome State Fault Refusal :=
  alu2 (fun x y => umaxW x y) d a b s

/-- `mul` (R133). -/
def execMul (d a b : BitVec 6) (s : State) : Host.Outcome State Fault Refusal :=
  alu2 (fun x y => x * y) d a b s

/-- `mulh` (R133). -/
def execMulh (d a b : BitVec 6) (s : State) : Host.Outcome State Fault Refusal :=
  alu2 (fun x y => mulhW x y) d a b s

/-- `mulhu` (R133). -/
def execMulhu (d a b : BitVec 6) (s : State) : Host.Outcome State Fault Refusal :=
  alu2 (fun x y => mulhuW x y) d a b s

/-- `div` (R133, R134). -/
def execDiv (d a b : BitVec 6) (s : State) : Host.Outcome State Fault Refusal :=
  alu2 (fun x y => divW x y) d a b s

/-- `divu` (R133, R134). -/
def execDivu (d a b : BitVec 6) (s : State) : Host.Outcome State Fault Refusal :=
  alu2 (fun x y => divuW x y) d a b s

/-- `rem` (R133, R134). -/
def execRem (d a b : BitVec 6) (s : State) : Host.Outcome State Fault Refusal :=
  alu2 (fun x y => remW x y) d a b s

/-- `remu` (R133, R134). -/
def execRemu (d a b : BitVec 6) (s : State) : Host.Outcome State Fault Refusal :=
  alu2 (fun x y => remuW x y) d a b s

/-- `csel` (R133): the old xD is read and checked even when it is kept. -/
def execCsel (d a b : BitVec 6) (s : State) : Host.Outcome State Fault Refusal :=
  runS .slip true (do
    let x ← readX a
    let y ← readX b
    let o ← readX d
    writeX d (if y ≠ 0#64 then x else o)) s

/-- `clz` (R135). -/
def execClz (d a : BitVec 6) (s : State) : Host.Outcome State Fault Refusal :=
  alu1 (fun x => BitVec.ofNat 64 (leadingZeros x 64)) d a s

/-- `ctz` (R135). -/
def execCtz (d a : BitVec 6) (s : State) : Host.Outcome State Fault Refusal :=
  alu1 (fun x => BitVec.ofNat 64 (trailingZeros x 64)) d a s

/-- `popc` (R135). -/
def execPopc (d a : BitVec 6) (s : State) : Host.Outcome State Fault Refusal :=
  alu1 (fun x => BitVec.ofNat 64 (popCount x 64)) d a s

/-- `sext.b` (R135). -/
def execSextB (d a : BitVec 6) (s : State) : Host.Outcome State Fault Refusal :=
  alu1 (fun x => (x.setWidth 8).signExtend 64) d a s

/-- `sext.h` (R135). -/
def execSextH (d a : BitVec 6) (s : State) : Host.Outcome State Fault Refusal :=
  alu1 (fun x => (x.setWidth 16).signExtend 64) d a s

/-- `sext.w` (R135). -/
def execSextW (d a : BitVec 6) (s : State) : Host.Outcome State Fault Refusal :=
  alu1 (fun x => (x.setWidth 32).signExtend 64) d a s

/-- `zext.b` (R135). -/
def execZextB (d a : BitVec 6) (s : State) : Host.Outcome State Fault Refusal :=
  alu1 (fun x => (x.setWidth 8).setWidth 64) d a s

/-- `zext.h` (R135). -/
def execZextH (d a : BitVec 6) (s : State) : Host.Outcome State Fault Refusal :=
  alu1 (fun x => (x.setWidth 16).setWidth 64) d a s

/-- `zext.w` (R135). -/
def execZextW (d a : BitVec 6) (s : State) : Host.Outcome State Fault Refusal :=
  alu1 (fun x => (x.setWidth 32).setWidth 64) d a s

/-- `bext` (R136). -/
def execBext (d a w l : BitVec 6) (s : State) : Host.Outcome State Fault Refusal :=
  alu1 (bextW w l) d a s

/-- `bins` (R136): xD is read and written. -/
def execBins (d a w l : BitVec 6) (s : State) : Host.Outcome State Fault Refusal :=
  runS .slip true (do
    let x ← readX a
    let o ← readX d
    writeX d (binsW w l o x)) s

/-- `addi` (R137). -/
def execAddi (d a : BitVec 6) (i : BitVec 12) (s : State) : Host.Outcome State Fault Refusal :=
  alu1 (fun x => x + sext12 i) d a s

/-- `andi` (R137). -/
def execAndi (d a : BitVec 6) (i : BitVec 12) (s : State) : Host.Outcome State Fault Refusal :=
  alu1 (fun x => x &&& zext12 i) d a s

/-- `ori` (R137). -/
def execOri (d a : BitVec 6) (i : BitVec 12) (s : State) : Host.Outcome State Fault Refusal :=
  alu1 (fun x => x ||| zext12 i) d a s

/-- `xori` (R137). -/
def execXori (d a : BitVec 6) (i : BitVec 12) (s : State) : Host.Outcome State Fault Refusal :=
  alu1 (fun x => x ^^^ zext12 i) d a s

/-- `slti` (R137). -/
def execSlti (d a : BitVec 6) (i : BitVec 12) (s : State) : Host.Outcome State Fault Refusal :=
  alu1 (fun x => boolWord (x.slt (sext12 i))) d a s

/-- `sltiu` (R137). -/
def execSltiu (d a : BitVec 6) (i : BitVec 12) (s : State) : Host.Outcome State Fault Refusal :=
  alu1 (fun x => boolWord (x.ult (sext12 i))) d a s

/-- `slli` (R137). -/
def execSlli (d a c : BitVec 6) (s : State) : Host.Outcome State Fault Refusal :=
  alu1 (fun x => x <<< c.toNat) d a s

/-- `srli` (R137). -/
def execSrli (d a c : BitVec 6) (s : State) : Host.Outcome State Fault Refusal :=
  alu1 (fun x => x >>> c.toNat) d a s

/-- `srai` (R137). -/
def execSrai (d a c : BitVec 6) (s : State) : Host.Outcome State Fault Refusal :=
  alu1 (fun x => x.sshiftRight c.toNat) d a s

/-- `lih` (R138). -/
def execLih (d : BitVec 6) (i : BitVec 18) (s : State) : Host.Outcome State Fault Refusal :=
  runS .slip true (do
    let o ← readX d
    writeX d ((o <<< 18) ||| i.setWidth 64)) s

/-- `getw` (R139, R41): the field of xA at a level under WIDSPLIT. -/
def execGetw (d a : BitVec 6) (l : BitVec 12) (s : State) : Host.Outcome State Fault Refusal :=
  runS .slip true (do
    let x ← readX a
    let t ← getTile
    writeX d (splitField t.widsplit x l.toNat)) s

end Sys2Proof.Machine
end

