-- ==== Sys2Proof/Machine/Ahead.lean ====
section
/-!
DEFINITION. How S goes ahead of a `vput` that waits for a `get` above it (R56, R62, R353): where V stands, what the words between it
and S are, and which loads S may perform there.
-/

namespace Sys2Proof.Machine

/-- A joint word of S that V, M and D perform too (R57, R58): those whose outcome they pop. -/
def popsOutcome (i : Instr) : Bool :=
  match i with
  | .beq _ _ _ => true
  | .bne _ _ _ => true
  | .blt _ _ _ => true
  | .bge _ _ _ => true
  | .bltu _ _ _ => true
  | .bgeu _ _ _ => true
  | .bp _ _ => true
  | .bpNot _ _ => true
  | .j _ => true
  | .jal _ _ => true
  | .jalr _ _ _ => true
  | .jtab _ _ _ => true
  | .loop _ _ => true
  | .mcall _ _ _ _ => true
  | _ => false

/-- The branch-outcome queue of an engine. -/
def Tile.bo (t : Tile) : Eng → List (Nat × BrOut)
  | .S => []
  | .V => t.boV
  | .M => t.boM
  | .D => t.boD

/-- Where an engine at a joint word goes on under an outcome (R58, R65). -/
def goOn (o : BrOut) (w : BitVec 32) (x : Engine) : Engine :=
  match o with
  | .cond true => ⟨target12 x.pc (w.extractLsb' 0 12), x.pos + 1, none⟩
  | .cond false => ⟨x.pc + 4#64, x.pos + 1, none⟩
  | .target a => ⟨a, x.pos + 1, none⟩
  | .nextWord => ⟨x.pc + 4#64, x.pos + 1, none⟩
  | .call k p0 p1 p2 => ⟨x.pc, x.pos + 1, some ⟨k, 0, p0, p1, p2⟩⟩

/-- The guard of a word that pushes into the return queue, if it is one (R60, R62). -/
def pushGuard : Instr → Option (BitVec 4)
  | .vput g _ => some g
  | .vputVcr g _ => some g
  | _ => none

/-- V waits at a `vput` below every other word under way, the return queue being full: only a `get` above it can free an
entry (R62). -/
def State.vputWaits (s : State) : Bool :=
  let t := s.tile
  decide (64 ≤ t.rq.length) && decide (t.eV.pos = t.minPos) &&
  match (s.peekWord .V).map decode with
  | some (.ok i) => (pushGuard i).any fun g => t.predAt g.toNat t.eV.pos
  | _ => false

/-- A V word that writes memory or a scratchpad. -/
def vStores : Instr → Bool
  | .vst _ _ _ _ _ _ => true
  | .vsct _ _ _ _ _ _ => true
  | .vstm _ _ _ _ _ _ => true
  | .vdefer _ _ _ => true
  | .attg _ _ _ _ _ => true
  | _ => false

/-- A word of its own that keeps engine `e` from being passed over by a load of S above it: one of V that stores, any of M and D. -/
def holdsLoads (e : Eng) (w : BitVec 32) : Bool :=
  match e with
  | .V => match decode w with
    | .ok i => vStores i
    | .error _ => false
  | _ => true

/-- Where engine `e` at place `x` stands after word `w`, with the branch outcomes it has left (R55, R58). -/
def Tile.walkOn (t : Tile) (e : Eng) (w : BitVec 32) (x : Engine) (q : List (Nat × BrOut)) : Option (Engine × List (Nat × BrOut)) :=
  match decode w with
  | .ok i =>
    if wordEngine w = .S ∧ popsOutcome i then
      match q with
      | (n, o) :: q => if n = x.pos then some (goOn o w x, q) else none
      | [] => none
    else if wordEngine w = e ∧ holdsLoads e w then none else some (x.next (t.expLen x), q)
  | .error _ => if wordEngine w = e ∧ holdsLoads e w then none else some (x.next (t.expLen x), q)

/-- No word of engine `e` between its place and S's keeps a load of S waiting; `fuel` bounds the words between them. -/
def State.clearFrom (s : State) (e : Eng) : Nat → Engine → List (Nat × BrOut) → Bool
  | 0, x, _ => decide (s.tile.eS.pos ≤ x.pos)
  | n + 1, x, q =>
    decide (s.tile.eS.pos ≤ x.pos) ||
    match (s.setTile (s.tile.setEng e x)).peekWord e with
    | some w =>
      match s.tile.walkOn e w x q with
      | some p => clearFrom s e n p.1 p.2
      | none => false
    | none => false

/-- The words of engine `e` below S's keep no load of S waiting. -/
def State.clearTo (s : State) (e : Eng) : Bool :=
  s.clearFrom e (s.tile.eS.pos - (s.tile.eng e).pos) (s.tile.eng e) (s.tile.bo e)

/-- A load of S may be performed: every word below it has passed its trap point; or V waits at a full return queue for a `get` that S has
yet to reach, and no word between them can store what the load reads (R62, R66, R97, R353; DEDUCED, log 17). An access ordered SO is
not one of those. -/
def State.loadReady (s : State) (vas : List (BitVec 64)) : Bool :=
  let t := s.tile
  decide (t.level = .supervisor) || t.settled ||
  (s.vputWaits && s.clearTo .V && !vas.any s.onSO &&
    (!vas.any inAperture || (s.clearTo .M && s.clearTo .D)))

/-- A load of S waits until it may be performed. -/
def waitLoad (vas : List (BitVec 64)) : Eff Unit := do waitUnless (← getsState (·.loadReady vas))

/-- Read the doubleword that holds an item of `size` bytes at `va` (R141). -/
def loadItem (va : BitVec 64) (size : Nat) : Eff (Option GWord) := do
  checkAddr va size
  let p ← placeOf va Rights.load
  waitRange [p] false true
  waitLoad [va]
  loadAt p va

end Sys2Proof.Machine
end

