-- ==== Sys2Proof/Machine/ScalarMem.lean ====
section
/-!
DEFINITION. Loads, stores and prefetch (R140 to R144), atomics and compare-and-set (R145 to R147), and fences (R107, R148,
R149).
-/

namespace Sys2Proof.Machine

/-- Finish a word that may hold for a remote request: without its value it stays (R279). -/
def holdFor {α : Type} (r : Option α) (k : α → Eff Unit) : Eff Bool := do
  match r with
  | none => pure false
  | some v => do
    let t ← getTile
    k v
    doneRemote .S t.eS.pos
    pure true

/-- A sub-word load: the item of `size` bytes, extended by `f` (R141). -/
def loadSub (size : Nat) (f : Nat → BitVec 64) (d a : BitVec 6) (o : BitVec 12) (s : State) :
    Host.Outcome State Fault Refusal :=
  runSHold .slip true (do
    let va ← effAddr a o
    holdFor (← loadItem va size) fun w => do
      let v ← check w (dwordOf va)
      writeX d (f (itemOf v va size))) s

/-- `ld.b` (R141). -/
def execLdB (d a : BitVec 6) (o : BitVec 12) (s : State) : Host.Outcome State Fault Refusal :=
  loadSub 1 (fun v => (BitVec.ofNat 8 v).signExtend 64) d a o s

/-- `ld.bu` (R141). -/
def execLdBu (d a : BitVec 6) (o : BitVec 12) (s : State) : Host.Outcome State Fault Refusal :=
  loadSub 1 (fun v => BitVec.ofNat 64 v) d a o s

/-- `ld.h` (R141). -/
def execLdH (d a : BitVec 6) (o : BitVec 12) (s : State) : Host.Outcome State Fault Refusal :=
  loadSub 2 (fun v => (BitVec.ofNat 16 v).signExtend 64) d a o s

/-- `ld.hu` (R141). -/
def execLdHu (d a : BitVec 6) (o : BitVec 12) (s : State) : Host.Outcome State Fault Refusal :=
  loadSub 2 (fun v => BitVec.ofNat 64 v) d a o s

/-- `ld.w` (R141). -/
def execLdW (d a : BitVec 6) (o : BitVec 12) (s : State) : Host.Outcome State Fault Refusal :=
  loadSub 4 (fun v => (BitVec.ofNat 32 v).signExtend 64) d a o s

/-- `ld.wu` (R141). -/
def execLdWu (d a : BitVec 6) (o : BitVec 12) (s : State) : Host.Outcome State Fault Refusal :=
  loadSub 4 (fun v => BitVec.ofNat 64 v) d a o s

/-- `ld.d` (R141): the word and its glove move unchanged. -/
def execLdD (d a : BitVec 6) (o : BitVec 12) (s : State) : Host.Outcome State Fault Refusal :=
  runSHold .slip true (do
    let va ← effAddr a o
    holdFor (← loadItem va 8) fun w => writeXWord d w) s

/-- `st` (R142): the word and glove of xD move unchanged; xD is not checked. -/
def execSt (d a : BitVec 6) (o : BitVec 12) (s : State) : Host.Outcome State Fault Refusal :=
  runSHold .settled true (do
    let va ← effAddr a o
    checkAddr va 8
    let p ← placeOf va Rights.store
    waitRange [p] true false
    let t ← getTile
    let done ← storeSent p (t.getX d.toNat) va
    if done then do
      orderSO [va]
      storeHere p (t.getX d.toNat)
      doneRemote .S t.eS.pos
    pure done) s

/-- The checks of a pair of doublewords: both addresses canonical, the first aligned, then both placed (R132, R143). -/
def pairPlaces (va : BitVec 64) (r : Rights) : Eff (Place × Place) := do
  let t ← getTile
  raiseIf (decide (t.level = .task) && !canonical va) cDFLT 4 va
  raiseIf (decide (t.level = .task) && !canonical (va + 8#64)) cDFLT 4 (va + 8#64)
  raiseIf (decide (va.toNat % 8 ≠ 0)) cALIGN 0 va
  let p ← placeOf va r
  let q ← placeOf (va + 8#64) r
  waitRange [p, q] r.wr r.rd
  pure (p, q)

/-- `ldp` (R103, R143): the pair is ordered as one access, and both words are read before either register is written. -/
def execLdp (d a : BitVec 6) (o : BitVec 12) (s : State) : Host.Outcome State Fault Refusal :=
  runSHold .slip true (do
    let va ← effAddr a o
    let pq ← pairPlaces va Rights.load
    waitLoad [va, va + 8#64]
    orderSO [va, va + 8#64]
    let x ← loadWord pq.1 va
    let y ← loadWord pq.2 (va + 8#64)
    match x, y with
    | some v, some w => do
      let t ← getTile
      writeXWord d v
      writeXWord (d + 1#6) w
      doneRemote .S t.eS.pos
      pure true
    | _, _ => pure false) s

/-- Before a pair's stores are sent: a target whose port table would refuse the word, or is held (R95, R97, R143, R279). -/
def pairTarget (p : Place) (va : BitVec 64) : Eff Unit := do
  match p with
  | .remote w _ => do
    let g ← curTile
    let t ← getTile
    match (t.win? w).bind fun x => some x.target with
    | some x => do
      match ← getsState (fun s => (s.tileOf x).map fun k => portVerdict s k (s.ingress g) true) with
      | some .refused => raise cDFLT 6 va
      | some .held => waitWord
      | _ => pure ()
    | none => pure ()
  | _ => pure ()

/-- Both targets of a pair's stores are settled before either word is sent (R97, R143). -/
def settleStores (p q : Place) (va : BitVec 64) : Eff Unit := do
  let t ← getTile
  if t.remote.any fun r => decide (r.eng = .S ∧ r.idx = t.eS.pos) then pure ()
  else do
    pairTarget p va
    pairTarget q (va + 8#64)

/-- `stp` (R103, R143): the pair is ordered as one access; a word that its own die takes is stored once the other's request, if
any, has been answered. -/
def execStp (d a : BitVec 6) (o : BitVec 12) (s : State) : Host.Outcome State Fault Refusal :=
  runSHold .settled true (do
    let va ← effAddr a o
    let pq ← pairPlaces va Rights.store
    settleStores pq.1 pq.2 va
    let t ← getTile
    let x ← storeSent pq.1 (t.getX d.toNat) va
    let y ← storeSent pq.2 (t.getX (d.toNat + 1)) (va + 8#64)
    if x && y then do
      orderSO [va, va + 8#64]
      storeHere pq.1 (t.getX d.toNat)
      storeHere pq.2 (t.getX (d.toNat + 1))
      doneRemote .S t.eS.pos
    pure (x && y)) s

/-- A prefetch (R144): xA is checked, and an uncorrectable one drops it silently. The tile cache drops every prefetch, which
the rule lets it choose. -/
def prefetch (a : BitVec 6) (s : State) : Host.Outcome State Fault Refusal :=
  runS .slip true (modTile fun t =>
    match checkWord (t.getX a.toNat) with
    | .ok _ true => { t with gcc := t.gcc + 1#64 }
    | _ => t) s

/-- `pf.r` (R144). -/
def execPfR (a : BitVec 6) (_o : BitVec 12) (s : State) : Host.Outcome State Fault Refusal := prefetch a s

/-- `pf.w` (R144). -/
def execPfW (a : BitVec 6) (_o : BitVec 12) (s : State) : Host.Outcome State Fault Refusal := prefetch a s

/-! ## Atomics (R145 to R147) -/

/-- An ordering code that releases: `.rel`, `.ar`, `.sc` (R105). -/
def releases (o : BitVec 3) : Bool := decide (o = 2#3 ∨ o = 3#3 ∨ o = 4#3)

/-- An ordering code that acquires: `.acq`, `.ar`, `.sc` (R105). -/
def acquires (o : BitVec 3) : Bool := decide (o = 1#3 ∨ o = 3#3 ∨ o = 4#3)

/-- The cache action of a release at a scope (R100). -/
def doRelease (o : BitVec 3) (scope : Nat) : Eff Unit := do
  let g ← curTile
  if releases o then modState (releaseAt scope g)

/-- The cache action of an acquire at a scope (R100). -/
def doAcquire (o : BitVec 3) (scope : Nat) : Eff Unit :=
  if acquires o then modTile (acquireAt scope) else pure ()

/-- A `.sc` operation takes its place in the SC order: the tile's Lamport stamp goes above every stamp that its request and response
exchange (R109). One at a remote target has taken its stamp there. -/
def takeStamp (o : BitVec 3) (here : Bool) : Eff Unit :=
  if o = 4#3 ∧ here = true then modState fun s => s.setTile { s.tile with stamp := s.scStamp } else pure ()

/-- Write back and drop the line that holds a word (R100). -/
def dropLine (pa : Nat) : Eff Unit := do
  let g ← curTile
  modState (·.writeBack g fun k _ => decide (k = pa / 128))
  modTile (·.invalidate fun k _ => decide (k = pa / 128))

/-- A memory-side check of an atomic's word (R91): a correction in HBM counts in the die's DGCC, one at a scratchpad bank in
the tile's GCC. -/
def checkHome (w : GWord) (die : Option Nat) (va : BitVec 64) : Eff (BitVec 64) := do
  match checkWord w with
  | .ok d false => pure d
  | .ok d true => do
    match die with
    | some k => modState (·.countDie k 1)
    | none => modTile fun t => { t with gcc := t.gcc + 1#64 }
    pure d
  | .bad =>
    match die with
    | some k => unitGlove k 15 va va
    | none => raise cGLOVE 0 va

/-- The atomic step at the home of a doubleword (R145, R146): the old value, or none while a remote request is under way. -/
def atomicAt (p : Place) (va : BitVec 64) (op : AmoOp) (b : BitVec 64) (sc : Bool) : Eff (Option (BitVec 64)) := do
  match p with
  | .hbm pa _ _ => do
    orderSO [va]
    dropLine pa
    let old ← checkHome (← getsState fun s => s.mem.read pa) (some (pa / 2 ^ 37 % 32)) va
    match amoNew op old b with
    | some n => modState fun s => { s with mem := s.mem.write pa (gloved n) }
    | none => pure ()
    return some old
  | .reg d off => do
    orderSO [va]
    let old ← check (← readReg d off) va
    match amoNew op old b with
    | some n => modState (writeRegTile d off n)
    | none => pure ()
    return some old
  | .spad g off => do
    let old ← checkHome (← getsState fun s => (s.tileAt g).spad.read off) none va
    match amoNew op old b with
    | some n => modState (·.writeSpad g off (gloved n))
    | none => pure ()
    return some old
  | .remote w off => do
    match ← remoteOp .S va w off (.amo op (gloved b)) sc with
    | none => return none
    | some x => return some (← check x va)

/-- A word of the atomic majors: `op` is built from the old xD (R145 to R147). Of several source registers in error, TADDR names the
first of xA, xB and xD: R132 orders causes and not registers (DESIGN CHOICE, log 34). -/
def atomic (op : BitVec 64 → AmoOp) (readsD : Bool) (d a b : BitVec 6) (o sc : BitVec 3) (s : State) :
    Host.Outcome State Fault Refusal :=
  runSHold .settled true (do
    let va ← readX a
    let x ← readX b
    let e ← if readsD then readX d else pure 0#64
    checkAddr va 8
    let p ← placeOf va Rights.amo
    waitRange [p] true true
    doRelease o sc.toNat
    holdFor (← atomicAt p va (op e) x (decide (o = 4#3))) fun old => do
      takeStamp o p.isHere
      doAcquire o sc.toNat
      writeX d old) s

/-- `amo.add` (R145). -/
def execAmoAdd (d a b : BitVec 6) (o sc : BitVec 3) (s : State) : Host.Outcome State Fault Refusal :=
  atomic (fun _ => .add) false d a b o sc s

/-- `amo.and` (R145). -/
def execAmoAnd (d a b : BitVec 6) (o sc : BitVec 3) (s : State) : Host.Outcome State Fault Refusal :=
  atomic (fun _ => .and) false d a b o sc s

/-- `amo.or` (R145). -/
def execAmoOr (d a b : BitVec 6) (o sc : BitVec 3) (s : State) : Host.Outcome State Fault Refusal :=
  atomic (fun _ => .or) false d a b o sc s

/-- `amo.xor` (R145). -/
def execAmoXor (d a b : BitVec 6) (o sc : BitVec 3) (s : State) : Host.Outcome State Fault Refusal :=
  atomic (fun _ => .xor) false d a b o sc s

/-- `amo.min` (R145). -/
def execAmoMin (d a b : BitVec 6) (o sc : BitVec 3) (s : State) : Host.Outcome State Fault Refusal :=
  atomic (fun _ => .min) false d a b o sc s

/-- `amo.max` (R145). -/
def execAmoMax (d a b : BitVec 6) (o sc : BitVec 3) (s : State) : Host.Outcome State Fault Refusal :=
  atomic (fun _ => .max) false d a b o sc s

/-- `amo.minu` (R145). -/
def execAmoMinu (d a b : BitVec 6) (o sc : BitVec 3) (s : State) : Host.Outcome State Fault Refusal :=
  atomic (fun _ => .minu) false d a b o sc s

/-- `amo.maxu` (R145). -/
def execAmoMaxu (d a b : BitVec 6) (o sc : BitVec 3) (s : State) : Host.Outcome State Fault Refusal :=
  atomic (fun _ => .maxu) false d a b o sc s

/-- `amo.swap` (R145). -/
def execAmoSwap (d a b : BitVec 6) (o sc : BitVec 3) (s : State) : Host.Outcome State Fault Refusal :=
  atomic (fun _ => .swap) false d a b o sc s

/-- `cas` (R147): xD is the expected value. -/
def execCas (d a b : BitVec 6) (o sc : BitVec 3) (s : State) : Host.Outcome State Fault Refusal :=
  atomic (fun e => .cas e) true d a b o sc s

/-! ## Fences (R107, R148, R149) -/

/-- `fence` (R107, R148): every earlier access of S and V has been performed when S reaches the word, so what remains is the
cache actions and, for `.sc`, the place in the SC order. -/
def execFence (o sc : BitVec 3) (s : State) : Host.Outcome State Fault Refusal :=
  runS .settled true (do
    doRelease o sc.toNat
    takeStamp o true
    doAcquire o sc.toNat) s

/-- Every D command below has completed, and every keystone sent has its close note (R107). -/
def Tile.drained (t : Tile) : Bool := t.dcmds.isEmpty && t.wins.all fun p => p.2.awaits.isEmpty

/-- `fence.drain` (R107): at supervisor level it waits for S's own accesses alone (R348). -/
def execFenceDrain (s : State) : Host.Outcome State Fault Refusal :=
  runS .settled true (do
    let t ← getTile
    waitUnless (decide (t.level = .supervisor) || t.drained)
    let g ← curTile
    modState (·.writeBack g fun _ _ => true)
    modTile (·.invalidate fun _ _ => true)) s

/-- `ifence` (R149): the instruction cache is discarded. -/
def execIfence (s : State) : Host.Outcome State Fault Refusal :=
  runS .settled true (modTile fun t => { t with icache := [] }) s

end Sys2Proof.Machine
end

