-- ==== Sys2Proof/Machine/ScalarCtl.lean ====
section
/-!
DEFINITION. Control flow of S (R150 to R155), exchange with the other engines (R156, R157) and microprograms (R65, R158,
R159).
-/

namespace Sys2Proof.Machine

/-! ## Outcomes and branches -/

/-- Push a branch outcome to V, M and D; S waits while one of the queues is full (R58). At supervisor level nothing is
pushed (R348). -/
def pushOutcome (o : BrOut) : Eff Unit := do
  let t ← getTile
  match t.level with
  | .supervisor => pure ()
  | .task =>
    waitUnless (decide (t.boV.length < 64 ∧ t.boM.length < 64 ∧ t.boD.length < 64))
    let n := t.eS.pos
    modTile fun t => { t with boV := t.boV ++ [(n, o)], boM := t.boM ++ [(n, o)], boD := t.boD ++ [(n, o)] }

/-- A conditional branch (R151). -/
def branch (c : Cond) (a b : BitVec 6) (o : BitVec 12) (s : State) : Host.Outcome State Fault Refusal :=
  runSJump .slip true (do
    let x ← readX a
    let y ← readX b
    let pc ← wordAddr .S
    let take := condHolds c x y
    pushOutcome (.cond take)
    pure (if take then target12 pc o else pc + 4#64)) s

/-- `beq` (R151). -/
def execBeq (a b : BitVec 6) (o : BitVec 12) (s : State) : Host.Outcome State Fault Refusal := branch .eq a b o s

/-- `bne` (R151). -/
def execBne (a b : BitVec 6) (o : BitVec 12) (s : State) : Host.Outcome State Fault Refusal := branch .ne a b o s

/-- `blt` (R151). -/
def execBlt (a b : BitVec 6) (o : BitVec 12) (s : State) : Host.Outcome State Fault Refusal := branch .lt a b o s

/-- `bge` (R151). -/
def execBge (a b : BitVec 6) (o : BitVec 12) (s : State) : Host.Outcome State Fault Refusal := branch .ge a b o s

/-- `bltu` (R151). -/
def execBltu (a b : BitVec 6) (o : BitVec 12) (s : State) : Host.Outcome State Fault Refusal := branch .ltu a b o s

/-- `bgeu` (R151). -/
def execBgeu (a b : BitVec 6) (o : BitVec 12) (s : State) : Host.Outcome State Fault Refusal := branch .geu a b o s

/-- `bp` in both senses (R152): S waits until V has passed every word below, then reads the slot as a guarded word at this
index would. -/
def branchPred (sense : Bool) (k : BitVec 6) (o : BitVec 12) (s : State) : Host.Outcome State Fault Refusal :=
  runSJump .slip true (do
    let t ← getTile
    waitUnless (decide (t.eS.pos ≤ t.eV.pos))
    let take := decide (t.predAt k.toNat t.eS.pos = sense)
    pushOutcome (.cond take)
    pure (if take then target12 t.eS.pc o else t.eS.pc + 4#64)) s

/-- `bp pK, label` (R152). -/
def execBp (k : BitVec 6) (o : BitVec 12) (s : State) : Host.Outcome State Fault Refusal := branchPred true k o s

/-- `bp !pK, label` (R152). -/
def execBpNot (k : BitVec 6) (o : BitVec 12) (s : State) : Host.Outcome State Fault Refusal := branchPred false k o s

/-- `j` (R153). -/
def execJ (o : BitVec 18) (s : State) : Host.Outcome State Fault Refusal :=
  runSJump .slip true (do
    let pc ← wordAddr .S
    pushOutcome (.target (target18 pc o))
    pure (target18 pc o)) s

/-- `jal` (R153). -/
def execJal (d : BitVec 6) (o : BitVec 18) (s : State) : Host.Outcome State Fault Refusal :=
  runSJump .slip true (do
    let pc ← wordAddr .S
    pushOutcome (.target (target18 pc o))
    writeX d (pc + 4#64)
    pure (target18 pc o)) s

/-- `jalr` (R153): the target is read before xD is written; a misaligned one traps. -/
def execJalr (d a : BitVec 6) (i : BitVec 12) (s : State) : Host.Outcome State Fault Refusal :=
  runSJump .slip true (do
    let x ← readX a
    let t := x + sext12 i
    raiseIf (decide (t.toNat % 4 ≠ 0)) cALIGN 0 t
    let pc ← wordAddr .S
    pushOutcome (.target t)
    writeX d (pc + 4#64)
    pure t) s

/-- `jtab` (R154): xD is the table's address and xA the index, both checked whether or not the index reaches the table (DESIGN CHOICE, log
34). While a remote request for its entry is under way the word waits, and
the corrections of its operands count with the step that passes it. -/
def execJtab (d a : BitVec 6) (l : BitVec 12) (s : State) : Host.Outcome State Fault Refusal :=
  runSOwn .slip true (do
    let base ← readX d
    let i ← readX a
    let pc ← wordAddr .S
    if l.toNat ≤ i.toNat then do
      pushOutcome .nextWord
      modTile (·.passSTo (pc + 4#64))
    else do
      let ea := base + 4#64 * i
      match ← loadItem ea 4 with
      | none => modTile fun t => { t with gcc := s.tile.gcc }
      | some w => do
        let v ← check w ea
        let n := (← getTile).eS.pos
        let t := pc + 4#64 * (BitVec.ofNat 32 (itemOf v ea 4)).signExtend 64
        pushOutcome (.target t)
        doneRemote .S n
        modTile (·.passSTo t)) s

/-- `loop` (R155). -/
def execLoop (a : BitVec 6) (o : BitVec 12) (s : State) : Host.Outcome State Fault Refusal :=
  runSJump .slip true (do
    let x ← readX a
    let pc ← wordAddr .S
    let n := x - 1#64
    pushOutcome (.cond (decide (n ≠ 0#64)))
    writeX a n
    pure (if n ≠ 0#64 then target12 pc o else pc + 4#64)) s

/-! ## Exchange with the other engines -/

/-- The operand queue of an engine; S has none. -/
def Tile.oq (t : Tile) : Eng → List (Nat × GWord)
  | .S => []
  | .V => t.oqV
  | .M => t.oqM
  | .D => t.oqD

/-- Set the operand queue of an engine. -/
def Tile.setOq (t : Tile) (e : Eng) (q : List (Nat × GWord)) : Tile :=
  match e with
  | .S => t
  | .V => { t with oqV := q }
  | .M => { t with oqM := q }
  | .D => { t with oqD := q }

/-- `put` to an engine (R60, R61, R156): word and glove of xA move unchanged; S waits while the queue is full. -/
def putTo (e : Eng) (a : BitVec 6) (s : State) : Host.Outcome State Fault Refusal :=
  runS .slip false (do
    let t ← getTile
    waitUnless (decide ((t.oq e).length < 64))
    modTile fun t => t.setOq e (t.oq e ++ [(t.eS.pos, t.getX a.toNat)])) s

/-- `put` to V (R60). -/
def execPutV (_d a : BitVec 6) (s : State) : Host.Outcome State Fault Refusal := putTo .V a s

/-- `put` to M (R60). -/
def execPutM (_d a : BitVec 6) (s : State) : Host.Outcome State Fault Refusal := putTo .M a s

/-- `put` to D (R60). -/
def execPutD (_d a : BitVec 6) (s : State) : Host.Outcome State Fault Refusal := putTo .D a s

/-- `get` (R62, R157): once V has reached the word an empty queue is dead. It pops when every word below it has passed its trap
point, or for a `vput` that waits for the entry (R62 over R353, DEDUCED, log 17); a trap below it undoes that pop. -/
def execGet (d : BitVec 6) (s : State) : Host.Outcome State Fault Refusal :=
  runS .slip false (do
    let t ← getTile
    waitUnless (t.settled || (← getsState State.vputWaits))
    match t.rq with
    | [] => raise cQDEAD 0 t.eS.pc
    | w :: q => do
      modTile fun t => { t with rq := q, undo := if t.settled then t.undo else (t.eS.pos, 64, w) :: t.undo }
      writeXWord d w) s

/-- Whether an event-requesting word is outstanding, or a record held (R64). -/
def Tile.eventsDue (t : Tile) : Bool :=
  t.dcmds.any (·.ev) || !t.nwaits.isEmpty || !t.held.isEmpty || t.tlbinvs.any fun x => !x.sup

/-- The oldest held record enters the queue where there is room (R64). -/
def Tile.admitHeld (t : Tile) : Tile :=
  match t.held with
  | [] => t
  | (_, w) :: l => if t.eq.length < 64 then { t with eq := t.eq ++ [w], held := l } else t

/-- `ewait` (R64, R110, R157): the pop drops the clean RC lines that the command's memory writes meet (R100). -/
def execEwait (d : BitVec 6) (s : State) : Host.Outcome State Fault Refusal :=
  runS .settled false (do
    let t ← getTile
    match t.eq with
    | [] => if t.eventsDue then waitWord else raise cQDEAD 0 t.eS.pc
    | v :: q => do
      modTile fun t => (Tile.admitHeld { t with eq := q }).invalidate fun k l => !l.uo && lineMeets k v.ranges
      modState fun s => s.settleEnded s.cur
      writeXWord d v.w) s

/-- `epeek` (R64, R157). -/
def execEpeek (d : BitVec 6) (s : State) : Host.Outcome State Fault Refusal :=
  runS .slip false (do
    let t ← getTile
    writeXWord d ((t.eq.head?.map (·.w)).getD GWord.zero)) s

/-! ## Microprograms -/

/-- A word that may not stand in an expansion (R65). -/
def barred (w : BitVec 32) : Bool :=
  match decode w with
  | .error _ => true
  | .ok i =>
    match i with
    | .beq _ _ _ | .bne _ _ _ | .blt _ _ _ | .bge _ _ _ | .bltu _ _ _ | .bgeu _ _ _ | .bp _ _ | .bpNot _ _ | .j _
    | .jal _ _ | .jalr _ _ _ | .jtab _ _ _ | .loop _ _ | .mcall _ _ _ _ | .mdef _ _ _ | .tail | .yield | .poll _
    | .sys | .brk | .eret | .uret | .resume | .tlbinv _ _ | .halt => true
    | _ => false

/-- The first barred word of an expansion among those from `j` on (R65). -/
def firstBarred (m : Micro) (p0 p1 p2 : BitVec 64) : Nat → Nat → Option Nat
  | 0, _ => none
  | n + 1, j => if barred (microWord m j p0 p1 p2) then some j else firstBarred m p0 p1 p2 n (j + 1)

/-- `mcall` (R65, R158): the parameters are checked, their data pushed, and S enters the expansion. R132 does not place the ILL of
R65, which is no case of R123, against GLOVE: the parameters are checked first, in the order XD, XA, XB (DESIGN CHOICE, log 16). -/
def execMcall (d a b k : BitVec 6) (s : State) : Host.Outcome State Fault Refusal :=
  runSOwn .slip false (do
    let p0 ← readX d
    let p1 ← readX a
    let p2 ← readX b
    let t ← getTile
    let m := t.micro k.toNat
    raiseIf m.words.isEmpty cILL 0 t.eS.pc
    match firstBarred m p0 p1 p2 m.words.length 0 with
    | some j => stop (.trap ⟨cILL, 0, t.eS.pc, some j⟩ [])
    | none => do
      pushOutcome (.call k.toNat p0 p1 p2)
      modTile fun t => { t with eS := ⟨t.eS.pc, t.eS.pos + 1, some ⟨k.toNat, 0, p0, p1, p2⟩⟩ }) s

/-- The places of `n` doublewords of a program's image, in ascending order, each allowed to be read. -/
def imagePlaces : Nat → BitVec 64 → Eff (List (BitVec 64 × Place))
  | 0, _ => pure []
  | n + 1, va => do
    let p ← placeOf va Rights.load
    waitRange [p] false true
    return (va, p) :: (← imagePlaces n (va + 8#64))

/-- Read doublewords of an image, checked; none while one is under way. -/
def readImage : List (BitVec 64 × Place) → Eff (Option (List (BitVec 64)))
  | [] => pure (some [])
  | (va, p) :: t => do
    match ← loadWord p va with
    | none => do
      let _ ← readImage t
      pure none
    | some w => do
      let v ← check w va
      return (← readImage t).map (v :: ·)

/-- Several doublewords of an image, ordered as one access (R103): none while a remote request is under way. -/
def imageWordsFrom (n : Nat) (va : BitVec 64) : Eff (Option (List (BitVec 64))) := do
  let ps ← imagePlaces n va
  orderSO (ps.map (·.1))
  readImage ps

/-- The 32-bit words of doublewords, low half first (R6). -/
def halves : List (BitVec 64) → List (BitVec 32)
  | [] => []
  | w :: t => w.extractLsb' 0 32 :: w.extractLsb' 32 32 :: halves t

/-- Whether a parameter map keeps the rules of R65. -/
def mapOk (m : BitVec 32) : Bool :=
  let d := fun k => m.toNat / 2 ^ (10 * k) % 1024
  decide (m.toNat / 2 ^ 30 = 0) && [0, 1, 2].all fun k => decide (d k / 32 + d k % 32 ≤ 30)

/-- `mdef` (R65, R159): the entry is loaded from its image; a fault or a malformed image leaves it unchanged. -/
def execMdef (k a : BitVec 6) (o : BitVec 12) (s : State) : Host.Outcome State Fault Refusal :=
  runSHold .settled false (do
    let va ← effAddr a o
    checkAddr va 8
    match ← imageWordsFrom 1 va with
    | none => pure false
    | some l0 => do
      let h := l0.headD 0#64
      let n := bits h 5 0
      raiseIf (decide (bits h 31 6 ≠ 0 ∨ n = 0 ∨ 32 < n)) cILL 0 va
      match ← imageWordsFrom n (va + 8#64) with
      | none => pure false
      | some l => do
        let ws := (halves (h :: l)).drop 1
        let maps := (ws.drop n).take n
        raiseIf (!maps.all mapOk) cILL 0 va
        let t ← getTile
        doneRemote .S t.eS.pos
        modTile fun t => { t with cstore := mapSet ⟨[], []⟩ t.cstore k.toNat ⟨ws.take n, maps⟩ }
        pure true) s

end Sys2Proof.Machine
end

