-- ==== Sys2Proof/Machine/ScalarSys.lean ====
section
/-!
DEFINITION. Control and status registers (R162 to R164, R349, R360), the system group (R165 to R169), and the task words of S
(R32 to R35, R160, R161).
-/

namespace Sys2Proof.Machine

/-! ## CSRs -/

/-- The CSRs a tile's words can name (R163, R349). -/
def csrExists (c : Nat) : Bool :=
  decide ((0x10 ≤ c ∧ c ≤ 0x17) ∨ (0x20 ≤ c ∧ c ≤ 0x3F) ∨ (0x100 ≤ c ∧ c ≤ 0x10A))

/-- The CSRs whose every field is RO (R162, R163, R349). -/
def csrReadOnly (c : Nat) : Bool :=
  decide (c = 0x12 ∨ c = 0x13 ∨ c = 0x14 ∨ c = 0x15 ∨ c = 0x101 ∨ c = 0x102 ∨ c = 0x108 ∨ c = 0x109 ∨ c = 0x10A)

/-- The value of a CSR of tile `g` (R163, R349, R412). -/
def State.csr (s : State) (g c : Nat) : BitVec 64 :=
  let t := s.tileAt g
  if 0x20 ≤ c ∧ c ≤ 0x3F then (t.bank (c - 0x20)).setWidth 64
  else match c with
    | 0x10 => t.win
    | 0x11 => t.apol
    | 0x12 => t.wver
    | 0x13 => BitVec.ofNat 64 (s.gtid g)
    | 0x14 => if s.sideOf g then 1#64 else 0#64
    | 0x15 => t.widsplit
    | 0x16 => t.ufv
    | 0x17 => t.kvctl
    | 0x100 => t.tstat
    | 0x101 => t.tcause
    | 0x102 => t.taddr
    | 0x103 => t.tepc
    | 0x104 => t.tvec
    | 0x105 => t.tsb
    | 0x106 => t.ctxb
    | 0x107 => t.pwin
    | 0x108 => t.preq
    | 0x109 => t.tcause2
    | 0x10A => t.taddr2
    | 0x400 => t.gcc
    | 0x401 => t.guc
    | 0x402 => t.bstat
    | _ => 0#64

/-- WIN is clamped to 8 to 1,024 (R56). -/
def clampWin (v : BitVec 64) : BitVec 64 := if v.toNat < 8 then 8#64 else if 1024 < v.toNat then 1024#64 else v

/-- A write of a CSR: none where its map refuses the value (R8, R162, R163). A read-only CSR keeps its value. -/
def Tile.setCsr (t : Tile) (c : Nat) (v : BitVec 64) : Option Tile :=
  if 0x20 ≤ c ∧ c ≤ 0x3F then
    let f := bits v 3 0
    if 9 ≤ f ∧ f ≤ 14 then none else some { t with bfmt := mapSet 0xF#4 t.bfmt (c - 0x20) (BitVec.ofNat 4 f) }
  else match c with
    | 0x10 => some { t with win := clampWin v }
    | 0x11 => if v.toNat ≤ 2 then some { t with apol := v } else none
    | 0x16 => some { t with ufv := (v &&& ~~~2#64) ||| (t.ufv &&& 2#64) }
    | 0x17 => some { t with kvctl := v &&& 1#64 }
    | 0x100 => some { t with tstat := (t.tstat &&& ~~~0x80#64) ||| (v &&& 0x80#64) }
    | 0x103 => some { t with tepc := v &&& ~~~3#64 }
    | 0x104 => some { t with tvec := v &&& ~~~3#64 }
    | 0x105 => some { t with tsb := v &&& ~~~0x1FFF#64 }
    | 0x106 => some { t with ctxb := v &&& ~~~0xFFF#64 }
    | 0x107 => some { t with pwin := v &&& 0xFFFFF#64 }
    | _ => some t

/-- Reading TCAUSE sets CRD, and reading TADDR sets TRD (R349). -/
def Tile.noteRead (t : Tile) (c : Nat) : Tile :=
  if c = 0x101 then { t with tstat := t.tstat ||| (1#64 <<< 8) }
  else if c = 0x102 then { t with tstat := t.tstat ||| (1#64 <<< 9) } else t

/-- A key-value word is incomplete (R164). -/
def Tile.kvBusy (t : Tile) : Bool :=
  t.dcmds.any fun c => match c.kind with
    | .kv _ _ => true
    | _ => false

/-- The waits of a CSR write beyond those of every settled word (R84, R164). A handler's write has no dynamic index and waits for no
word of the task, which stands still until it returns (R348; DESIGN CHOICE, log 34). -/
def csrWait (c : Nat) : Eff Unit := do
  let t ← getTile
  if t.level = .supervisor then pure ()
  else if 0x20 ≤ c ∧ c ≤ 0x3F then
    let b := t.busyRanges t.eS.pos
    waitUnless (!meetsAny (b.1 ++ b.2) [((c - 0x20) * 65536, 65536)])
  else if c = 0x17 then waitUnless (!t.kvBusy)
  else pure ()

/-- The check of a CSR word's number: one that names no CSR is an illegal encoding (R123); a supervisor number at task level is
privileged (R132, R162); then a write form on a read-only CSR raises ILL (R162). DEDUCED (log 16): that last is no case of
R123, so privilege comes before it; that it comes before the glove of xA is DESIGN CHOICE (log 16). -/
def csrCheck (c : Nat) (writes : Bool) : Eff Unit := do
  let t ← getTile
  raiseIf (!csrExists c) cILL 0 t.eS.pc
  raiseIf (decide (0x100 ≤ c) && decide (t.level = .task)) cPRIV 0 t.eS.pc
  raiseIf (writes && csrReadOnly c) cILL 0 t.eS.pc

/-- Read a CSR as a word does. -/
def readCsr (c : Nat) : Eff (BitVec 64) := do
  let g ← curTile
  let v ← getsState (·.csr g c)
  modTile (·.noteRead c)
  pure v

/-- `csrr` (R162). -/
def execCsrr (d : BitVec 6) (c : BitVec 12) (s : State) : Host.Outcome State Fault Refusal :=
  runS .slip true (do
    csrCheck c.toNat false
    let v ← readCsr c.toNat
    writeX d v) s

/-- The writing CSR forms: the new value from the old one and xA (R162). -/
def csrUpdate (f : BitVec 64 → BitVec 64 → BitVec 64) (onlyReads : Bool) (d a : BitVec 6) (c : BitVec 12) (s : State) :
    Host.Outcome State Fault Refusal :=
  runS .settled true (do
    csrCheck c.toNat (!onlyReads)
    let x ← readX a
    csrWait c.toNat
    let old ← readCsr c.toNat
    if !onlyReads then do
      let t ← getTile
      match t.setCsr c.toNat (f old x) with
      | none => raise cILL 0 t.eS.pc
      | some u => modTile fun _ => u
    writeX d old) s

/-- `csrw` (R162). -/
def execCsrw (d a : BitVec 6) (c : BitVec 12) (s : State) : Host.Outcome State Fault Refusal :=
  csrUpdate (fun _ x => x) false d a c s

/-- `csrs` (R162): with XA = 0 it only reads. -/
def execCsrs (d a : BitVec 6) (c : BitVec 12) (s : State) : Host.Outcome State Fault Refusal :=
  csrUpdate (fun o x => o ||| x) (decide (a = 0#6)) d a c s

/-- `csrc` (R162): with XA = 0 it only reads. -/
def execCsrc (d a : BitVec 6) (c : BitVec 12) (s : State) : Host.Outcome State Fault Refusal :=
  csrUpdate (fun o x => o &&& ~~~x) (decide (a = 0#6)) d a c s

/-! ## The system group (R165 to R169) -/

/-- `sys` and `brk` complete, and the trap is taken at the index after the word, with the next word's address (R166, R355). -/
def trapAfter (cause : Nat) (s : State) : Host.Outcome State Fault Refusal :=
  match (beginS .settled true).run s with
  | .error r => finish .S (.error r) s
  | .ok _ =>
    if s.trapWaits ⟨cause, 0, 0#64, none⟩ then .next s
    else
    let w := s.refOf .S
    let x := match s.tile.level with
      | .task => s.tile.eS.next (s.tile.expLen s.tile.eS)
      | .supervisor => { s.tile.eS with pc := s.tile.eS.pc + 4#64 }
    .next (takeTrap ⟨cause, 0, s.tile.eS.pc, none⟩ w none false x.pos x s.cur s)

/-- `sys` (R166). -/
def execSys (s : State) : Host.Outcome State Fault Refusal := trapAfter cSYS s

/-- Breakpoints are armed under invasive debug (R166, R423). -/
def State.brkArmed (s : State) (d : Nat) : Bool := decide (s.dmode d = 2) && bit (s.dieReg d 0x30040) 3

/-- `brk` (R166, R423): where breakpoints are armed it stops the tile for the debugger, at the word after it. -/
def execBrk (s : State) : Host.Outcome State Fault Refusal :=
  if s.brkArmed (s.cur / 16) then runS .settled true (modTile fun t => { t with run := .stopped }) s
  else trapAfter cBRK s

/-- A supervisor word at task level is privileged (R165). -/
def needSupervisor : Eff Unit := do
  let t ← getTile
  raiseIf (decide (t.level = .task)) cPRIV 0 t.eS.pc

/-- The handler's return to level 1 at TEPC, or the trap context of a return to the task (R358). -/
def returnKind : Eff (Option TrapCtx) := do
  let t ← getTile
  if bit t.tstat 7 then pure none else pure t.trap

/-- `eret` (R167, R358, R359). -/
def execEret (s : State) : Host.Outcome State Fault Refusal :=
  runSOwn .settled true (do
    needSupervisor
    let t ← getTile
    match ← returnKind with
    | none => modTile (·.passSTo t.tepc)
    | some c => do
      raiseIf (!c.pend.isEmpty) cILL 0 t.eS.pc
      modTile fun t => returnToTask t c) s

/-- `resume` (R167, R358, R359): the pending entries are settled in ascending index, then the task goes on. -/
def execResume (s : State) : Host.Outcome State Fault Refusal :=
  runSOwn .settled true (do
    needSupervisor
    let t ← getTile
    match ← returnKind with
    | none => raise cILL 0 t.eS.pc
    | some c => do
      modState fun s => s.settleAll s.cur
      modTile fun t => returnToTask t c) s

/-- `uret` (R167, R362): illegal when no task-level fault is active, and at supervisor level (R348). -/
def execUret (s : State) : Host.Outcome State Fault Refusal :=
  runSOwn .settled false (do
    let t ← getTile
    raiseIf (!bit t.ufv 1) cILL 0 t.eS.pc
    modTile uretPlace) s

/-- `tlbinv` (R168, R348): at task level the word is passed and its record comes later; at supervisor level S waits at it until its
completion passes it. xA is checked with ALL = 1 too, where R168 ignores its value (DESIGN CHOICE, log 34). -/
def execTlbinv (a b : BitVec 6) (s : State) : Host.Outcome State Fault Refusal :=
  runSOwn .settled true (do
    let t ← getTile
    let sup := decide (t.level = .supervisor)
    waitUnless (!(sup && t.tlbinvs.any (·.sup)))
    let va ← readX a
    let x ← readX b
    modTile fun t => { t with
      tlbinvs := t.tlbinvs ++ [⟨t.eS.pos, va, bit x 9, bit x 10, bits x 8 0, sup⟩] }
    if sup then pure () else modTile Tile.passS) s

/-- `halt` (R169, R366): the tile stops at the word; firmware is notified by its halt handling (R417). -/
def execHalt (s : State) : Host.Outcome State Fault Refusal :=
  runSOwn .settled true (do
    needSupervisor
    let now ← getsState (·.ftb)
    modTile fun t => { t with run := .halted, haltFtb := now }) s

/-! ## Tasks (R32 to R35, R160, R161) -/

/-- The four doublewords of a record, checked: none while a remote request is under way (R160). -/
def recordAt (va : BitVec 64) : Eff (Option (List (BitVec 64))) := imageWordsFrom 4 va

/-- Enqueue a spawned record (R32, R49, R50). -/
def spawnTo (die : Nat) (r : Rec) (va : BitVec 64) : Eff Unit := do
  let t ← getTile
  match ← getsState (enqueue die t.side (bits r.code 1 0) r t.widsplit 3840) with
  | some s => modState fun _ => s
  | none => raise cSPILL 0 va

/-- `spawn` (R32 to R34, R160): the record is read, the earlier stores are released at `.pkg`, and a copy is enqueued. -/
def execSpawn (a b : BitVec 6) (s : State) : Host.Outcome State Fault Refusal :=
  runSHold .settled false (do
    let va ← readX a
    let x ← readX b
    checkAddr va 8
    raiseIf (bit x 63 && decide (24 ≤ bits x 4 0)) cSPAWN 0 x
    let g ← curTile
    match ← recordAt va with
    | none => pure false
    | some l => do
      let t ← getTile
      modState (releaseAt 3 g)
      spawnTo (if bit x 63 then bits x 4 0 else g / 16) (recOf l) va
      doneRemote .S t.eS.pos
      pure true) s

/-- A data fault of a check becomes SUB 7 of a named address (R35, R351). -/
def asJoinFault (f : Eff Place) (join : BitVec 64) : Eff Place := fun s =>
  match f s with
  | .error (.trap i l) => if i.cause = cDFLT then .error (.trap ⟨cDFLT, 7, join, none⟩ l) else .error (.trap i l)
  | r => r

/-- The running task's record. -/
def Tile.record (t : Tile) : Rec := (t.task.map (·.rcd)).getD ⟨0#64, 0#64, 0#64, 0#64⟩

/-- The task has reached its `tail`: a generation that is open, or whose keystone it never sent, is abandoned, so that the counted copies of
it end as copies that count for none (R35). -/
def Tile.atTail (t : Tile) : Tile :=
  let awaited := fun (w gen : Nat) => (t.win? w).any fun x => x.awaits.any fun a => decide (a.gen = gen)
  { t with
    ending := true,
    dcmds := t.dcmds.map fun c => { c with window := c.window.filter fun p => awaited p.1 p.2 } }

/-- `tail` (R35 step 1): JOIN must be 0 or a doubleword of memory that the task may write. The waits of step 2 follow. -/
def execTail (s : State) : Host.Outcome State Fault Refusal :=
  runSOwn .settled false (do
    let t ← getTile
    let j := t.record.join
    if j ≠ 0#64 then do
      raiseIf (decide (j.toNat % 8 ≠ 0) || !canonical j || inAperture j) cDFLT 7 j
      let p ← asJoinFault (placeOf j Rights.store) j
      match p with
      | .hbm _ _ _ => pure ()
      | _ => raise cDFLT 7 j
    modTile Tile.atTail
    modState fun s => s.settleEnded s.cur) s

/-- `yield` (R161): without a request it only passes; with one the task is cut at the word after it. -/
def execYield (s : State) : Host.Outcome State Fault Refusal :=
  runSOwn .settled false (do
    let t ← getTile
    if t.pre.isNone then modTile Tile.passS
    else do
      let g ← curTile
      modTile fun t => t.placeAll (t.eS.next (t.expLen t.eS))
      modState (cutNow g)) s

/-- `poll` (R161): whether the polite stage of a request runs. -/
def execPoll (d : BitVec 6) (s : State) : Host.Outcome State Fault Refusal :=
  runS .slip false (do
    let t ← getTile
    writeX d (if bit t.preq 0 then 1#64 else 0#64)) s

end Sys2Proof.Machine
end

