-- ==== Sys2Proof/Machine/Fetch.lean ====
section
/-!
DEFINITION. What one step of the package performs: an engine's next word, or a step of a unit, of firmware or of the host.
-/

namespace Sys2Proof.Machine

/-- What a step comes to: an instruction to execute on a state, or an outcome already settled. -/
inductive Plan where
  | run (i : Instr) (s : State)
  | done (o : Host.Outcome State Fault Refusal)

/-- The engine whose operand queue a `put` fills (R60): it pops the entry when it reaches the word. -/
def putEngine (i : Instr) : Option Eng :=
  match i with
  | .putV _ _ => some .V
  | .putM _ _ => some .M
  | .putD _ _ => some .D
  | _ => none

/-- The instruction that engine `e` of tile `g` performs at a word that decodes to `i` and belongs to engine `owner`. -/
def engineInstr (g : Nat) (e owner : Eng) (i : Instr) : Instr :=
  if owner = e then i
  else if owner = .S ∧ popsOutcome i then .jointOutcomePop g e
  else if owner = .S ∧ putEngine i = some e then .operandQueuePop g e
  else .wordStepOver g e

/-- A fetch that stops: the fault belongs to the word the engine is at. -/
def fetchStops (e : Eng) (st : Stop) (s : State) : Host.Outcome State Fault Refusal :=
  match e with
  | .S => finish .S ((do beginS .slip true; stop st : Eff Unit).run s) s
  | e => finish e ((do beginE e; stop st : Eff Unit).run s) s

/-- Whether an engine may fetch: its tile runs, and V, M or D have a word that S has passed. -/
def mayFetch (e : Eng) (t : Tile) : Bool :=
  t.runs && (decide (e = .S) || (decide (t.level = .task) && decide ((t.eng e).pos < t.eS.pos)))

/-- What engine `e` of tile `g` does next. At supervisor level only S runs, and a word tagged for V, M or D is illegal (R348). -/
def planEngine (g : Nat) (e : Eng) (s : State) : Plan :=
  let s := { s with cur := g }
  if ¬ mayFetch e s.tile then .done (.next s)
  else
    match engineWord e s with
    | .error st => .done (fetchStops e st s)
    | .ok (w, s) =>
      match decode w with
      | .error _ =>
        if wordEngine w = e ∨ s.tile.level = .supervisor then .done (runIllegal e s) else .run (.wordStepOver g e) s
      | .ok i =>
        if wordEngine w ≠ e ∧ s.tile.level = .supervisor then .done (runIllegal e s)
        else .run (engineInstr g e (wordEngine w) i) s

/-- The inner code of a doubleword of HBM reports an error that it cannot correct: from then on the controller delivers the word with its
glove XOR 0x03, until it is written (R92). -/
def State.innerError (s : State) (pa : Nat) : State :=
  match targetOf pa with
  | .hbm _ _ => { s with mem := s.mem.write pa (poisoned (s.mem.read pa)) }
  | _ => s

/-- What a move comes to. -/
def planMove (m : Move) (s : State) : Plan :=
  match m with
  | .event i => .run i s
  | .engine g e => planEngine g e s
  | .innerError pa => .done (.next (s.innerError pa))

end Sys2Proof.Machine
end

