-- ==== Sys2Proof/Machine/Engines.lean ====
section
/-!
DEFINITION. Steps of a tile's engines and sequencers that no single engine's own word makes: stepping over (R53, R114), popping
an outcome or an operand (R57, R58, R61), resolving a guard (R63), filling the instruction cache (R93), taking a late trap
(R354 to R356), and translation (R374 to R377).
-/

namespace Sys2Proof.Machine

/-- Run a step of tile `g`. A step that is not possible leaves the state as it was; the trap of an engine's word is taken as
the word's own, once every word below has passed its trap point (R354). -/
def onTile (g : Nat) (e : Eng) (body : Eff Unit) (s : State) : Host.Outcome State Fault Refusal :=
  let s := { s with cur := g }
  match body.run s with
  | .error (.trap i l) => if s.tile.level = .task ∧ s.tile.minPos < (s.tile.eng e).pos then .next s else finish e (.error (.trap i l)) s
  | r => finish e r s

/-- Pass a word without its part (R53 to R56, R114): V, M and D behind S; S within the slip window. -/
def stepOver (e : Eng) : Eff Unit := do
  let t ← getTile
  waitUnless (t.runs && decide (t.level = .task))
  match e with
  | .S => do
    t.raiseAcc
    waitUnless (decide (t.eS.pos - t.minPos < t.win.toNat))
    modTile (·.pass .S)
  | e => do
    waitUnless (decide ((t.eng e).pos < t.eS.pos))
    modTile (·.pass e)

/-- The engine has a part in a word: its own, or a joint one. -/
def hasPart (e : Eng) (w : BitVec 32) : Bool :=
  decide (wordEngine w = e) ||
  match decode w with
  | .ok i => decide (engineInstr 0 e (wordEngine w) i ≠ .wordStepOver 0 e)
  | .error _ => false

/-- WORD_STEP_OVER (R53, R114). -/
def execWordStepOver (g : Nat) (e : Eng) (s : State) : Host.Outcome State Fault Refusal :=
  onTile g e (do
    let t ← getTile
    waitUnless (mayFetch e t)
    let w ← engineWord e
    waitUnless (!hasPart e w)
    stepOver e) s

/-- Set the branch-outcome queue of an engine. -/
def Tile.setBo (t : Tile) (e : Eng) (q : List (Nat × BrOut)) : Tile :=
  match e with
  | .S => t
  | .V => { t with boV := q }
  | .M => { t with boM := q }
  | .D => { t with boD := q }

/-- JOINT_OUTCOME_POP (R57, R58): the engine at a joint word takes the outcome that S pushed for it. -/
def execJointOutcomePop (g : Nat) (e : Eng) (s : State) : Host.Outcome State Fault Refusal :=
  onTile g e (do
    let t ← getTile
    waitUnless (decide (e ≠ .S) && mayFetch e t)
    let w ← engineWord e
    match decode w with
    | .ok i => do
      waitUnless (popsOutcome i)
      let t ← getTile
      match t.bo e with
      | (n, o) :: q => do
        waitUnless (decide (n = (t.eng e).pos))
        modTile fun t => (t.setBo e q).setEng e (goOn o w (t.eng e))
        modState fun s => s.traceRec g 0 n (goOn o w (t.eng e)).pc
      | [] => waitWord
    | .error _ => waitWord) s

/-- The register that a `put` names takes the popped word (R60, R61). -/
def putReg (i : Instr) (w : GWord) (t : Tile) : Tile :=
  match i with
  | .putV d _ => if d.toNat < 16 then t.setS d.toNat w else t.setVcr (d.toNat - 16) w
  | .putM d _ => { t with c := mapSet GWord.zero t.c d.toNat w }
  | .putD d _ => if d.toNat < 16 then { t with a := mapSet GWord.zero t.a d.toNat w } else t.setDcr (d.toNat - 16) w
  | _ => t

/-- OPERAND_QUEUE_POP (R61): the target engine takes the word at the `put` and writes its register. -/
def execOperandQueuePop (g : Nat) (e : Eng) (s : State) : Host.Outcome State Fault Refusal :=
  onTile g e (do
    waitUnless (decide (e ≠ .S))
    beginE e
    let w ← engineWord e
    match decode w with
    | .ok i => do
      waitUnless (decide (putEngine i = some e))
      let t ← getTile
      match t.oq e with
      | (n, x) :: q => do
        waitUnless (decide (n = (t.eng e).pos))
        modTile fun t => (putReg i x (t.setOq e q)).pass e
      | [] => waitWord
    | .error _ => waitWord) s

/-- The guard field of a V, M or D word (R118, R121, R122). -/
def guardField (w : BitVec 32) : BitVec 4 := w.extractLsb' 21 4

/-- GUARD_RESOLVE (R63): once the writes of its slot below it are performed, a word whose guard is false is passed with no
effect; one whose guard is true is left to execute. An illegal word traps under either value. -/
def execGuardResolve (g : Nat) (e : Eng) (s : State) : Host.Outcome State Fault Refusal :=
  onTile g e (do
    waitUnless (decide (e ≠ .S))
    beginE e
    let w ← engineWord e
    waitUnless (decide (wordEngine w = e))
    match decode w with
    | .ok _ => do
      if ← guardOn e (guardField w) then pure () else modTile (·.pass e)
    | .error _ => raise cILL 0 (← wordAddr e)) s

/-- ICACHE_FILL (R93): the tile fetches an aligned pair of words from HBM. -/
def execIcacheFill (g pa : Nat) (s : State) : Host.Outcome State Fault Refusal :=
  let t := s.tileAt g
  match targetOf (pa / 8 * 8) with
  | .hbm _ _ =>
    if accessVerdict s (classSV t) (g / 16) (pa / 8 * 8) Rights.fetch = .ok then .next (icacheFill g (pa / 8 * 8) s)
    else .next s
  | _ => .next s

/-! ## Late traps (R354, R355) -/

/-- The engine whose word is the lowest one not past its trap point. -/
def Tile.lagging (t : Tile) : Eng :=
  let m := min t.eS.pos t.minPos
  if t.eV.pos = m then .V else if t.eM.pos = m then .M else if t.eD.pos = m then .D else .S

/-- The word at the lagging engine can be found faulting or taking effect by an engine that has reached it: its own engine
stands at it too. -/
def ownerThere (w : BitVec 32) (e : Eng) (t : Tile) : Bool :=
  decide ((t.eng (wordEngine w)).pos = (t.eng e).pos)

/-- Take a late fault at engine `e`'s word, unless its image meets a held table (R355, R387). -/
def lateTrap (e : Eng) (i : TrapInfo) (w : WordRef) (g : Nat) (s : State) : State :=
  let x := (s.tileAt g).eng e
  if s.trapHeld i true g then s else takeTrap i w x.exp true x.pos x g s

/-- S's word that the trap would be taken at has sent remote requests whose outcome is open, or that have all been performed: it is
completed first, since no word at or above a trap's index has changed anything (R353). -/
def Tile.awaitsRemote (t : Tile) : Bool :=
  let l := t.remote.filter fun r => decide (r.eng = .S ∧ r.idx = min t.eS.pos t.minPos)
  !l.isEmpty && (l.any (fun r => r.result.isNone) || l.all fun r => match r.result with | some (.ok _) => true | _ => false)

/-- TRAP_ENTRY (R354 to R356): a late fault is taken at the lowest word that has not passed its trap point. An engine that lags
behind a word it only steps over, or at a word whose packets are all handed over, passes it first. -/
def execTrapEntry (g : Nat) (s : State) : Host.Outcome State Fault Refusal :=
  let s := { s with cur := g }
  let t := s.tileAt g
  match t.late with
  | none => .next s
  | some (i, w) =>
    if ¬ t.works ∨ t.awaitsRemote = true then .next s
    else
      let e := t.lagging
      if t.sending.contains (e, (t.eng e).pos) then
        .next (if t.quiet then s.setTileAt g (Tile.pass { t with sending := t.sending.erase (e, (t.eng e).pos) } e) else s)
      else match s.peekWord e with
      | some x =>
        if ownerThere x e t ∨ e = .S then .next (lateTrap e i w g s)
        else
          match decode x with
          | .ok i =>
            if popsOutcome i then execJointOutcomePop g e s
            else if putEngine i = some e then execOperandQueuePop g e s
            else execWordStepOver g e s
          | .error _ => execWordStepOver g e s
      | none => .next (lateTrap e i w g s)

/-! ## Translation (R374 to R377) -/

/-- TLB_WALK (R370, R374, R375): the walker translates an address for a tile and the TLB keeps a leaf; a failed walk leaves the
state as it was but for the log entry of a malformed entry. -/
def execTlbWalk (g : Nat) (va : BitVec 64) (s : State) : Host.Outcome State Fault Refusal :=
  if ¬ canonical va ∨ inAperture va then .next s
  else
    match s.walk g va with
    | .leaf e c =>
      let s := s.countDie (g / 16) c
      let t := s.tileAt g
      .next (s.setTileAt g { t with tlb := tlbFill e t.tlb })
    | .fault _ logs => .next (logErrors logs s)
    | .glove _ logs => .next (logErrors logs s)
    | .held => .next s

/-- Drop the entries that an invalidation covers (R377). -/
def Tile.dropTlb (t : Tile) (va : BitVec 64) (all : Bool) : Tile :=
  { t with tlb := if all then [] else t.tlb.filter fun e => !(decide (e.base ≤ va.toNat) && decide (va.toNat < e.base + e.bytes)) }

/-- A tile lies in the extent of an invalidation that a tile of die `d` issued (R168). -/
def TlbInv.covers (x : TlbInv) (d g : Nat) : Bool := x.pkg || decide (g / 16 = d)

/-- The tiles of an extent write back their caches: the stores they made through entries that go are performed at their homes (R377). -/
def State.performStores (s : State) (d : Nat) (x : TlbInv) : State :=
  ((s.tiles.map (·.1)).filter (x.covers d)).foldl (fun s k => s.writeBack k fun _ _ => true) s

/-- Apply an invalidation to the tiles of its extent (R168, R377). -/
def State.dropTlbs (s : State) (d : Nat) (x : TlbInv) : State :=
  let s := s.performStores d x
  { s with tiles := s.tiles.map fun p => if x.covers d p.1 then (p.1, p.2.dropTlb x.va x.all) else p }

/-- The invalidation that can complete next, and those that stay: a handler's at once, a task's, in order, while D may post (R64,
R168, R348). -/
def Tile.nextTlbinv (t : Tile) : Option (TlbInv × List TlbInv) :=
  match t.tlbinvs.find? (·.sup) with
  | some x => some (x, t.tlbinvs.erase x)
  | none =>
    match t.tlbinvs with
    | x :: rest => if t.holds .D then none else some (x, rest)
    | [] => none

/-- TLBINV_COMPLETE (R168, R348, R377): the entries are dropped in the whole extent. A task's word then posts its record with
the number of dies that took part; a handler's word is passed. -/
def execTlbinvComplete (g : Nat) (s : State) : Host.Outcome State Fault Refusal :=
  let t := s.tileAt g
  match t.nextTlbinv with
  | none => .next s
  | some (x, rest) =>
    if t.cut.isSome then .next s
    else
      let s := s.setTileAt g { t with tlbinvs := rest }
      let s := s.dropTlbs (g / 16) x
      let n := if x.pkg then 24 else 1
      if x.sup then .next (s.setTileAt g (Tile.passS (s.tileAt g)))
      else .next (s.postEvent g .D x.idx ⟨eventWord 3 x.tag 0 n, []⟩)

end Sys2Proof.Machine
end

