-- ==== Sys2Proof/Machine/Versions.lean ====
section
/-!
DEFINITION. Weight versions (R257 to R267, R385, R420): `adopt`, `relv`, the unpin at the end of a task, and the trajectory
recorder (R268 to R272). Every step here is one step of the table's port (R259).
-/

namespace Sys2Proof.Machine

/-! ## The port (R257, R259) -/

/-- Offset of a doubleword of entry `k` in a table (R257): 0 VER and STATE, 8 PIN, 16 WBASE, 32 STAMP. -/
def entryOff (k off : Nat) : Nat := 64 + 64 * k + off

/-- CURVER, CUR and the rest of a header's first doubleword (R257). -/
def curVer (h : BitVec 64) : Nat := bits h 31 0

/-- CUR. -/
def curEntry (h : BitVec 64) : Nat := bits h 39 32

/-- STATE of an entry's first doubleword (R257): 0 FREE, 1 BUILDING, 2 RELEASED, 3 RETIRED. -/
def entryState (e : BitVec 64) : Nat := bits e 39 32

/-- The physical address of a table, with the page rights and the hatrack right of a step (R259, R373, R385): right `hat` is 0 A or
1 L. A table outside every hatrack region grants nothing. -/
def tablePlace (cls hat : Nat) (va : BitVec 64) : Eff Nat := do
  let t ← getTile
  let g ← curTile
  let x ← translate cDFLT va va
  let pa := physOf x.1 va
  withLogs x.2 (do
    raiseIf (!pageAllows x.1 t.side true (decide (hat = 1)) false) cDFLT 2 va
    match targetOf pa with
    | .hbm d off =>
      let inside ← getsState fun s => (s.hatrackRegion d off).isSome
      match ← getsState (accessVerdict · cls (g / 16) pa ⟨true, true, false, hat⟩) with
      | .ok => raiseIf (!inside) cDFLT 3 va
      | .refused => raise cDFLT 3 va
      | .held => waitWord
    | _ => raise cDFLT 3 va
    pure pa)

/-- Read a doubleword of a table at the port, which checks it (R259, R420): none when uncorrectable. -/
def tableRead (pa off : Nat) : Eff (Option (BitVec 64)) := do
  let w ← getsState fun s => s.mem.read (pa + off)
  checkUnit (pa / 2 ^ 37 % 32) w

/-- Read a doubleword of a table for `adopt`: an uncorrectable one is a precise GLOVE at its virtual address (R420). -/
def adoptRead (pa : Nat) (va : BitVec 64) (off : Nat) : Eff (BitVec 64) := do
  match ← tableRead pa off with
  | some v => pure v
  | none => unitGlove (pa / 2 ^ 37 % 32) 15 (va + BitVec.ofNat 64 off) (va + BitVec.ofNat 64 off)

/-- Write a doubleword of a table, gloved (R259). -/
def tableWrite (pa off : Nat) (v : BitVec 64) : Eff Unit :=
  modState fun s => { s with mem := s.mem.write (pa + off) (gloved v) }

/-- Take one from the PIN of an entry and retire it when none is left and it is not current (R258, R264): an underflow stays 0 and
is logged. `c` is the current entry and `va` the table's address. -/
def dropPin (d src pa : Nat) (va : BitVec 64) (k c : Nat) (pin state : BitVec 64) : Eff Unit := do
  if pin = 0#64 then modState (logError ⟨d, 0x09, src, va, BitVec.ofNat 64 k⟩ false)
  else tableWrite pa (entryOff k 8) (pin - 1#64)
  if pin.toNat ≤ 1 ∧ k ≠ c ∧ entryState state = 2 then tableWrite pa (entryOff k 0) (setBits state 39 32 3)

/-! ## adopt (R260 to R264) -/

/-- A D command that still reads memory (R264): a copy or gather with memory as its source, a key-value word, or a `relv`, which reads the
table (R267). A copy whose pieces have all moved has read. -/
def DCmd.readsMemory (c : DCmd) (g : Nat) : Bool :=
  !c.ended && (c.kind.isKv || decide (c.kind = .relv) || (c.kind.moves && c.srcMem && decide (c.prog < c.pieces g)))

/-- `adopt` that does not switch (R264): xD takes a value and S goes on. -/
def adoptKeeps (d : BitVec 6) (v : BitVec 64) : Eff Unit := do
  writeX d v
  modTile Tile.passS

/-- `adopt` (R263, R264). One that does not switch orders nothing and waits for no engine; one that switches waits for
ADOPT_SWITCH_STEP. -/
def execAdopt (d a b : BitVec 6) (s : State) : Host.Outcome State Fault Refusal :=
  runSOwn .slip false (do
    waitUnless (← getTile).adoptWait.isNone
    let va ← readX a
    let x ← readX b
    checkAddr va 2048
    let t ← getTile
    raiseIf ((t.adopted.map fun h => decide (h.1 ≠ va)).getD false) cVERS 0 va
    let pa ← tablePlace (classSV t) 0 va
    let h ← adoptRead pa va 0
    if curVer h = 0 then
      adoptKeeps d 0#64
      return
    raiseIf (decide (15 < curEntry h)) cVERS 0 va
    let pol ← (if bit x 1 then do return bits (← adoptRead pa va 8) 7 0 else pure t.apol.toNat : Eff Nat)
    raiseIf (decide (2 < pol)) cVERS 0 va
    let newer := decide (BitVec.ofNat 64 (curVer h) ≠ t.wver)
    let switch := modTile fun t => { t with adoptWait := some ⟨t.eS.pos, va, d⟩ }
    match t.adopted with
    | some (_, k) =>
      if newer && (decide (pol = 1) || (decide (pol = 0) && bit x 0)) then switch
      else adoptKeeps d (← adoptRead pa va (entryOff k 16))
    | none => switch) s

/-- The step of the port (R264): acquire and release at `.pkg`. Every word is read before any is written. -/
def switchStep (va : BitVec 64) (d : BitVec 6) : Eff Unit := do
  let g ← curTile
  let t ← getTile
  waitUnless (!t.dcmds.any fun c => c.readsMemory g)
  modState (releaseAt 3 g)
  let pa ← tablePlace (classSV t) 0 va
  let h ← adoptRead pa va 0
  let c := curEntry h
  raiseIf (decide (15 < c)) cVERS 0 va
  let e ← adoptRead pa va (entryOff c 0)
  raiseIf (decide (entryState e ≠ 2)) cVERS 0 va
  let base ← adoptRead pa va (entryOff c 16)
  let pin ← adoptRead pa va (entryOff c 8)
  let old ← (match t.adopted with
    | some (_, o) => do
      if o = c then return some (o, pin + 1#64, e)
      else return some (o, ← adoptRead pa va (entryOff o 8), ← adoptRead pa va (entryOff o 0))
    | none => pure none : Eff (Option (Nat × BitVec 64 × BitVec 64)))
  tableWrite pa (entryOff c 8) (pin + 1#64)
  match old with
  | some (o, p, st) => dropPin (g / 16) (g % 16) pa va o c p st
  | none => pure ()
  modTile fun t => { acquireAt 3 t with adopted := some (va, c), wver := BitVec.ofNat 64 (bits e 31 0) }
  writeX d base
  modTile Tile.passS

/-- ADOPT_SWITCH_STEP (R264): once every memory read of the words below is performed. -/
def execAdoptSwitchStep (g : Nat) (s : State) : Host.Outcome State Fault Refusal :=
  let t := s.tileAt g
  match t.adoptWait with
  | some w =>
    if t.works ∧ t.eS.pos = w.idx ∧ t.settled = true then
      onTile g .S (switchStep w.va w.d) (s.setTileAt g { t with adoptWait := none })
    else .next s
  | none => .next s

/-! ## The unpin of a task that ends (R265, R385, R420) -/

/-- What the unpin comes to. -/
inductive Unpin where
  | done (s : State)
  | held
  deriving DecidableEq, Repr

/-- The physical address of a table for an unpin, which needs no right any more (R385) and waits at a held table (R387). -/
def State.unpinPlace (s : State) (g : Nat) (va : BitVec 64) : Reach :=
  let t := s.tileAt g
  let place := fun (e : TlbEntry) (logs : List LogReq) =>
    let pa := physOf e va
    if accessVerdict s (classSV t) (g / 16) pa ⟨true, true, false, 0⟩ = .held then Reach.held else .at pa logs
  match (if bit (s.root (g / 16) t.side) 0 then tlbFind t.side va.toNat t.tlb else none) with
  | some e => place e []
  | none => match s.walk g va with
    | .leaf e c => place e (countReq (g / 16) c)
    | .fault _ logs => .bad logs
    | .glove pa logs => .bad (logs ++ [⟨g / 16, 0x01, 15, BitVec.ofNat 64 pa, 0#64⟩])
    | .held => .held

/-- Release the pin of tile `g`'s task with release at `.pkg`. A table word that cannot be read leaves the unpin out, with code 0x10
(R420); so does an address that no longer translates (DESIGN CHOICE, log 26). -/
def unpinTask (g : Nat) (s : State) : Unpin :=
  let t := s.tileAt g
  match t.adopted with
  | none => .done s
  | some (va, k) =>
    let u := s.setTileAt g { t with adopted := none }
    let lost := fun (off : Nat) (s : State) => logError ⟨g / 16, 0x10, g % 16, va, BitVec.ofNat 64 off⟩ false s
    match s.unpinPlace g va with
    | .held => .held
    | .bad logs => .done (lost (entryOff k 8) (logErrors logs u))
    | .at pa logs =>
      let s := releaseAt 3 g (logErrors logs u)
      let body : Eff (Option Nat) := do
        match ← tableRead pa 0 with
        | none => return some 0
        | some h =>
          match ← tableRead pa (entryOff k 0) with
          | none => return some (entryOff k 0)
          | some e =>
            match ← tableRead pa (entryOff k 8) with
            | none => return some (entryOff k 8)
            | some p => do
              dropPin (g / 16) (g % 16) pa va k (curEntry h) p e
              return none
      match body.run s with
      | .ok (none, s) => .done s
      | .ok (some off, s) => .done (lost off s)
      | .error _ => .done s

/-! ## relv (R266, R267) -/

/-- The descriptor of `relv` and `trec`: KIND, CNT, NDIM, NIDX and bit 48 are 0 (R266, R270). -/
def plainDesc (d : BitVec 64) : Bool :=
  decide (bits d 63 61 = 0 ∧ bits d 50 49 = 0 ∧ bits d 47 32 = 0) && !bit d 60 && !bit d 48

/-- `relv` (R266): its step is RELV_PORT_STEP. The stores of S and V below it come before it (R110, R267). -/
def execRelv (g a b : BitVec 4) (s : State) : Host.Outcome State Fault Refusal :=
  runE .D g (do
    waitRoom
    let k ← curTile
    let desc ← readA b.toNat
    let va ← readA a.toNat
    let t ← getTile
    raiseIf (!plainDesc desc) cDCMD 0 t.eD.pc
    raiseIf (decide (va.toNat % 2048 ≠ 0)) cALIGN 0 va
    raiseIf (!canonical va) cDFLT 4 va
    let _ ← tablePlace (classD t) 1 va
    let w ← refD
    modState (releaseAt 3 k)
    launchD ⟨w, .relv, GWord.zero, gloved va, gloved desc, 0#9, [], none, 0#64, [], [], 0, false, true, none, bits desc 59 51,
      true, 0, 0, [], [], false⟩) s

/-- The step of `relv` on the table at `pa` for entry `k` (R267): STATUS and COUNT. -/
def releaseStep (pa k : Nat) : Eff (Nat × Nat) := do
  if 15 < k then return (0x83, 0)
  match ← tableRead pa 0 with
  | none => return (0x9A, 0)
  | some h =>
    if curVer h = 2 ^ 32 - 1 then return (0x91, 0)
    if curVer h ≠ 0 ∧ 15 < curEntry h then return (0x93, 0)
    match ← tableRead pa (entryOff k 0) with
    | none => return (0x9A, 0)
    | some e =>
      if entryState e ≠ 1 then return (0x90, 0)
      let c := curEntry h
      let old ← (if curVer h = 0 then pure (some none) else do
        match ← tableRead pa (entryOff c 0), ← tableRead pa (entryOff c 8) with
        | some st, some p => pure (some (some (st, p)))
        | _, _ => pure none : Eff (Option (Option (BitVec 64 × BitVec 64))))
      match old with
      | none => return (0x9A, 0)
      | some o => do
        let v := curVer h + 1
        let now ← getsState (·.ftb)
        tableWrite pa (entryOff k 0) (setBits (setBits e 31 0 v) 39 32 2)
        tableWrite pa (entryOff k 32) now
        match o with
        | some (st, p) => if p = 0#64 ∧ c ≠ k then tableWrite pa (entryOff c 0) (setBits st 39 32 3) else pure ()
        | none => pure ()
        tableWrite pa 0 (setBits (setBits h 39 32 k) 31 0 v)
        return (0, v)

/-- The verdict of the tables on a unit's access for a command of tile `g`. -/
def cmdVerdict (s : State) (g pa : Nat) (r : Rights) : Verdict := accessVerdict s (classD (s.tileAt g)) (g / 16) pa r

/-- A late fault of command `i` of tile `g`. -/
def lateCmd (g i : Nat) (c : DCmd) (x : TrapInfo) (s : State) : State :=
  let t := s.tileAt g
  s.setTileAt g ((t.lateFault x c.ref).setCmd i { c.unbegun with faulted := true })

/-- RELV_PORT_STEP (R267): every D command below has completed. The table is found at its virtual address, which is all that an image
holds of it (R405). The step is a `.sc` read-modify-write at `.pkg`: it takes its stamp (R109) and acquires (R105). -/
def execRelvPortStep (g i : Nat) (s : State) : Host.Outcome State Fault Refusal :=
  let t := s.tileAt g
  match t.dcmds[i]? with
  | some c =>
    if decide (c.kind = .relv) ∧ t.works ∧ i = 0 ∧ ¬ c.faulted ∧ ¬ t.holds .D then
      match (do
        let va ← check c.aA (regCode 6 0)
        let pa ← tablePlace (classD t) 1 va
        return (pa, ← releaseStep pa (bits c.desc.data 31 0)) : Eff (Nat × Nat × Nat)).run { s with cur := g } with
      | .ok ((pa, st, n), s) =>
        let t := acquireAt 3 (s.tileAt g)
        .next ((s.setTileAt g { t.endCmd i [(pa, 2048)] with stamp := s.scStamp }).postEvent g .D c.ref.idx
          ⟨eventWord 3 c.tag st n, [(pa, 2048)]⟩)
      | .error (.trap x logs) => .next (lateCmd g i c x (logErrors logs s))
      | .error _ => .next s
    else .next s
  | none => .next s

/-! ## The trajectory recorder (R268 to R272) -/

/-- The physical address of a ring's header (R269): 0 where firmware has placed none. -/
def State.ringHeader (s : State) (d ring : Nat) : Nat := (mapGet 0#64 (s.dieAt d).trecHdr ring).toNat

/-- The ranges of memory that a `trec` reads or writes: its ring's header and record area (R110, R269). -/
def State.ringRanges (s : State) (d ring : Nat) : List (Nat × Nat) :=
  let hp := s.ringHeader d ring
  if hp = 0 then [] else [(hp, 64), ((s.mem.read hp).data.toNat, 32 * bits (s.mem.read (hp + 8)).data 31 0)]

/-- A ring header word at an offset: an uncorrectable one closes the ring and is logged (R271). -/
def ringWord (d ring hp off : Nat) : Eff (Option (BitVec 64)) := do
  let w ← getsState fun s => s.mem.read (hp + off)
  match ← checkUnit d w with
  | some v => pure (some v)
  | none => do
    modState fun s =>
      logError ⟨d, 0x01, 15, BitVec.ofNat 64 (hp + off), 0#64⟩ false
        (s.setDieAt d { s.dieAt d with trecOff := mapSet false (s.dieAt d).trecOff ring true })
    pure none

/-- The doubleword of NREC and RFLAGS of a ring that counts as enabled, ENABLED apart (R271). -/
def ringOpen (d ring : Nat) : Eff (Option (BitVec 64)) := do
  let s ← getsState id
  let hp := s.ringHeader d ring
  if hp = 0 ∨ mapGet false (s.dieAt d).trecOff ring = true then return none
  ringWord d ring hp 8

/-- What one record comes to: written, the ring full, the ring not enabled, an uncorrectable record word, or a table's refusal. -/
inductive RecEnd where
  | wrote (ranges : List (Nat × Nat))
  | full (ranges : List (Nat × Nat))
  | closed
  | bad
  | refused
  | held
  deriving DecidableEq, Repr

/-- The first of some physical words that the tables refuse or hold for the recorder. -/
def recVerdict (s : State) (g : Nat) (r : Rights) : List Nat → Option RecEnd
  | [] => none
  | pa :: t =>
    match cmdVerdict s g pa r with
    | .ok => recVerdict s g r t
    | .refused => some .refused
    | .held => some .held

/-- `trec` (R270): its records are written by TREC_RECORD_WRITE. It keeps WVER as it stands at its index (R262). One of no record
completes at once, with the test of its ring (R271). The tile writes back the dirty RC lines that the command's ranges meet (R100). -/
def execTrec (g a b : BitVec 4) (r : BitVec 2) (e : BitVec 1) (s : State) : Host.Outcome State Fault Refusal :=
  runE .D g (do
    waitRoom
    let k ← curTile
    let desc ← readA b.toNat
    let aA ← readA a.toNat
    let t ← getTile
    let n := bits desc 31 0
    raiseIf (!plainDesc desc || decide (8192 < n)) cDCMD 0 t.eD.pc
    let sa := bits aA 31 0
    raiseIf (decide (sa % 8 ≠ 0)) cALIGN 0 (BitVec.ofNat 64 sa)
    let span := placeSpan k true sa ((sa : Int) + 32 * n - 1)
    match least (spanFaults [span]) with
    | some x => raise cDFLT 5 (BitVec.ofNat 64 x)
    | none => pure ()
    let off := ownOff k sa
    match (List.range (if n = 0 then 1 else (off + 32 * n - 1) / 65536 + 1 - off / 65536)).find? fun j =>
        let f := (t.bank (off / 65536 + j)).toNat
        !decide (f = 3 ∨ f = 15) with
    | some j => raise cFMT 0 (BitVec.ofNat 64 (sa + (max off ((off / 65536 + j) * 65536) - off)))
    | none => pure ()
    let w ← refD
    modState fun s => s.writeBack k fun l x => !x.uo && lineMeets l (s.ringRanges (k / 16) r.toNat)
    let c : DCmd := ⟨w, .trec r.toNat, GWord.zero, gloved aA, gloved desc, 0#9, [], none, 0#64,
      if n = 0 then [] else [(off, 32 * n)], [], 0, false, false, none, bits desc 59 51, decide (e = 1#1), 0, 0, [],
      [bits t.wver 31 0, 0, 0], false⟩
    if n = 0 then do
      match ← getsState (fun s => recVerdict s k Rights.load ([s.ringHeader (k / 16) r.toNat].filter (· ≠ 0))) with
      | some .refused => raise cDFLT 3 (BitVec.ofNat 64 sa)
      | some .held => waitWord
      | _ => pure ()
      let w1 ← ringOpen (k / 16) r.toNat
      if c.ev then postNow w.idx c.tag (if (w1.map (bit · 32)).getD false then 0 else 0x92) 0
    else do
      rangeCheck t.eD.pos c.rd []
      launchD c) s

/-- Whether the recorder is performing a `trec` of a ring for a tile (R271): its command has been begun and not stopped. -/
def Tile.recording (t : Tile) (ring : Nat) : Bool :=
  t.cut.isNone && t.dcmds.any fun c => decide (c.kind = .trec ring) && decide (c.idx.getD 1 0 = 1) && !c.faulted && !c.ended

/-- Write the next record of a command of tile `g` (R271). ENABLED is tested once, when the recorder begins the word; `stalled` says
that the word has counted a stall. -/
def writeRecord (g ring : Nat) (c : DCmd) (begun stalled : Bool) : Eff RecEnd := do
  let d := g / 16
  let s ← getsState id
  let hp := s.ringHeader d ring
  match recVerdict s g Rights.amo ([hp].filter (· ≠ 0)) with
  | some r => return r
  | none => pure ()
  match ← ringOpen d ring with
  | none => return .closed
  | some w1 =>
    if !begun && !bit w1 32 then return .closed
    match ← ringWord d ring hp 0, ← ringWord d ring hp 16, ← ringWord d ring hp 24 with
    | some base, some wpos, some rpos =>
      let nrec := bits w1 31 0
      if (wpos - rpos).toNat = nrec then do
        if stalled then return .full []
        match ← ringWord d ring hp 32 with
        | none => return .closed
        | some st => do
          modState fun s => { s with mem := s.mem.write (hp + 32) (gloved (st + 1#64)) }
          return .full [(hp + 32, 8)]
      else do
        let t ← getTile
        let o := ownOff g (bits c.aA.data 31 0) + 32 * c.prog
        match ← checkUnit d (t.spad.read (o + 8)) with
        | none => return .bad
        | some d1 => do
          let slot := base.toNat + 32 * (wpos.toNat % nrec)
          match recVerdict (← getsState id) g Rights.store [slot, slot + 24] with
          | some r => return r
          | none => pure ()
          let w := [t.spad.read o, gloved (setBits d1 31 0 (c.idx.getD 0 0)), t.spad.read (o + 16), t.spad.read (o + 24)]
          modState fun s => { s with mem := (s.mem.writeList slot w).write (hp + 16) (gloved (wpos + 1#64)) }
          return .wrote [(slot, 32), (hp + 16, 8)]
    | _, _, _ => return .closed

/-- The command after a record is written: its record is read for R66 once the last is (R270). -/
def DCmd.afterRecord (c : DCmd) (rs : List (Nat × Nat)) : DCmd :=
  { c with prog := c.prog + 1, count := c.count + 1, idx := [c.idx.getD 0 0, 1, c.idx.getD 2 0],
           done := decide (bits c.desc.data 31 0 ≤ c.prog + 1), pranges := rs.foldl joinRange c.pranges }

/-- TREC_RECORD_WRITE (R271): the recorder performs the words of a ring one at a time, and a tile's in its own order. -/
def execTrecRecordWrite (g i : Nat) (s : State) : Host.Outcome State Fault Refusal :=
  let t := s.tileAt g
  match t.dcmds[i]? with
  | some c =>
    match c.kind with
    | .trec ring =>
      let begun := decide (c.idx.getD 1 0 = 1)
      let others := (List.range 16).any fun k => (s.tileAt (g / 16 * 16 + k)).recording ring
      if t.works ∧ ¬ c.faulted ∧ ¬ c.ended ∧ (begun = true ∨ others = false) ∧
          (t.dcmds.take i).all (fun x => !decide (x.kind = .trec ring) || x.ended) = true then
        match (writeRecord g ring c begun (decide (c.idx.getD 2 0 = 1))).run { s with cur := g } with
        | .ok (.wrote rs, s) =>
          let c := c.afterRecord rs
          if bits c.desc.data 31 0 ≤ c.prog then .next (endCommand g i c 0 c.count s)
          else .next (s.setTileAt g ((s.tileAt g).setCmd i c))
        | .ok (.full rs, s) =>
          .next (s.setTileAt g ((s.tileAt g).setCmd i { c with
            idx := [c.idx.getD 0 0, 1, 1], pranges := rs.foldl joinRange c.pranges }))
        | .ok (.closed, s) => .next (endCommand g i c 0x92 c.count s)
        | .ok (.bad, s) =>
          let a := BitVec.ofNat 64 (bits c.aA.data 31 0 + 32 * c.prog + 8)
          .next (lateCmd g i c ⟨cUGLOVE, 0, a, none⟩ (logError ⟨g / 16, 0x01, 15, a, 3#64⟩ false s))
        | .ok (.refused, s) => .next (lateCmd g i c ⟨cDFLT, 3, BitVec.ofNat 64 (bits c.aA.data 31 0), none⟩ s)
        | .ok (.held, _) => .next s
        | .error _ => .next s
      else .next s
    | _ => .next s
  | none => .next s

end Sys2Proof.Machine
end

