-- ==== Sys2Proof/Machine/Tasks.lean ====
section
/-!
DEFINITION. The life of a task (R29 to R39, R45, R48, R51, R394 to R398): starting one, a gang, the expander, refill and aging, the end
of a task and its join step.
-/

namespace Sys2Proof.Machine

/-! ## Starting (R29 to R31) -/

/-- A tile with no task: tile registers, scratchpad, accumulators and caches as they are (R31, R349), everything of a task at its reset
value. -/
def Tile.vacant (t : Tile) : Tile :=
  { Tile.reset with
    run := t.run, spad := t.spad, acc := t.acc, tstat := t.tstat, tcause := t.tcause, taddr := t.taddr, tepc := t.tepc,
    tvec := t.tvec, tsb := t.tsb, ctxb := t.ctxb, pwin := t.pwin, preq := t.preq, tcause2 := t.tcause2, taddr2 := t.taddr2,
    gcc := t.gcc, guc := t.guc, bstat := t.bstat, cache := t.cache, tlb := t.tlb, icache := t.icache, stamp := t.stamp,
    side := t.side, nextTag := t.nextTag, pre := t.pre, fwStop := t.fwStop, brimStop := t.brimStop, since := t.since,
    haltAt := t.haltAt, haltFtb := t.haltFtb, traced := t.traced, tested := t.tested }

/-- The state of R29 on a tile that pops record `r`, with the acquire of R30. -/
def Tile.start (t : Tile) (r : Rec) (ws : BitVec 64) (spclr : Bool) (gang : Option Nat) (member : Nat) (now : BitVec 64) :
    Tile :=
  let x : Engine := ⟨r.code &&& ~~~3#64, 0, none⟩
  let u := (acquireAt 3 t).vacant
  let u := { u with
    run := .running, spad := if spclr then Mem.empty else u.spad, acc := if spclr then [] else u.acc,
    widsplit := ws, task := some ⟨r, gang, member, bits r.code 1 0⟩, since := now }
  ((((u.placeAll x).setX 2 (gloved r.frame)).setX 3 (gloved r.wid)).setX 4 (gloved r.join))

/-- Start a record on tile `g`. -/
def startTask (g : Nat) (r : Rec) (ws : BitVec 64) (spclr : Bool) (gang : Option Nat) (member : Nat) (s : State) : State :=
  s.setTileAt g ((s.tileAt g).start r ws spclr gang member s.ftb)

/-! ## Gang reservations (R397) -/

/-- A cluster that can host a gang of a side (R397, R409, R416), none of its tiles gated (R52; log 29). -/
def State.hostsGang (s : State) (d c : Nat) (side : Bool) : Bool :=
  (List.range 4).all fun k =>
    let g := 16 * d + 4 * c + k
    ((s.tileAt g).side == side) && !s.retired g && !s.gatedTile g && !s.moving g

/-- Tiles of a cluster that run tasks. -/
def State.running (s : State) (d c : Nat) : Nat :=
  ((List.range 4).filter fun k => (s.tileAt (16 * d + 4 * c + k)).task.isSome).length

/-- The cluster a gang of a side reserves: fewest running tiles, then lowest index. -/
def State.chooseCluster (s : State) (d : Nat) (side : Bool) : Option Nat :=
  let l := (List.range 4).filter fun c => s.hostsGang d c side
  match least (l.map fun c => 4 * s.running d c + c) with
  | some x => some (x % 4)
  | none => none

/-- The gang unit that is the next unit due to pop: the head of the highest nonempty level, where it is a gang (R48, R396). One in a
spill ring reserves nothing before it is back in the pool. -/
def Die.gangHead (x : Die) (side : Bool) : Option QUnit :=
  match firstCand x side (fun c => match c with | .ring n => !n.gang | .pool _ => true) 4 0 with
  | some (_, .pool u) => if u.gang then some u else none
  | _ => none

/-- Reserve a cluster for the gang that waits, when none is reserved for the side, or only one with a gated tile. -/
def ensureReserve (d : Nat) (side : Bool) (s : State) : State :=
  let s := match (s.dieAt d).reserved side with
    | some (_, c) => if s.clusterGated d c then s.setDieAt d ((s.dieAt d).setReserved side none) else s
    | none => s
  let x := s.dieAt d
  match x.reserved side, x.gangHead side, s.chooseCluster d side with
  | none, some u, some c => s.setDieAt d (x.setReserved side (some (u.arrival, c)))
  | _, _, _ => s

/-- The unit that cluster `c` of a die is reserved for on a side. -/
def State.reservedUnit (s : State) (d c : Nat) (side : Bool) : Option QUnit :=
  let x := s.dieAt d
  match x.reserved side with
  | some (a, k) => if k = c then x.units.find? fun u => u.side == side && u.gang && decide (u.arrival = a) else none
  | none => none

/-- All four tiles of a cluster can take their members. -/
def State.clusterFree (s : State) (d c : Nat) : Bool := (List.range 4).all fun k => s.canPop (16 * d + 4 * c + k)

/-- The number of a gang on its die. -/
def QUnit.gangNo (u : QUnit) : Nat := 2 * u.arrival + (if u.side then 3 else 2)

/-- TASK_START (R29, R396): the idle tile whose turn it is, reserved for no gang, pops the record the scheduler offers it. -/
def execTaskStart (g : Nat) (s : State) : Host.Outcome State Fault Refusal :=
  let d := g / 16
  let s := ensureReserve d true (ensureReserve d false s)
  let side := (s.tileAt g).side
  if s.turn g then
    match (s.dieAt d).offer side with
    | some (l, c) =>
      match c with
      | .pool u =>
        if u.slots.isEmpty then
          let r := candRec d c s
          .next (startTask g r.1 u.widsplit u.spclr none 0 (r.2.popCand d side l c))
        else .next s
      | .ring n =>
        let r := candRec d c s
        .next (startTask g r.1 n.widsplit n.spclr none 0 (r.2.popCand d side l c))
    | none => .next s
  else .next s

/-- Start the members of a gang on the tiles of a cluster. -/
def startMembers (g : Nat) (u : QUnit) : Nat → List Rec → State → State
  | _, [], s => s
  | k, r :: t, s => startMembers g u (k + 1) t (startTask (g + k) r u.widsplit u.spclr (some u.gangNo) k s)

/-- GANG_START (R48, R397): the unit that reserved the cluster starts when all four tiles are idle. -/
def execGangStart (d c : Nat) (s : State) : Host.Outcome State Fault Refusal :=
  let s := ensureReserve d true (ensureReserve d false s)
  let go := fun (side : Bool) =>
    match s.reservedUnit d c side with
    | some u => if u.slots.isEmpty ∧ s.clusterFree d c then some u else none
    | none => none
  match (go false).orElse (fun _ => go true) with
  | some u =>
    let s := s.popCand d u.side u.level (.pool u)
    let s := s.setDieAt d ((s.dieAt d).setReserved u.side none)
    .next (startMembers (16 * d + 4 * c) u 0 u.recs s)
  | none => .next s

/-! ## Gang units a retirement strands (R52, R416) -/

/-- A die has a cluster of a side none of whose tiles is retired. -/
def State.wholeCluster (s : State) (d : Nat) (side : Bool) : Bool :=
  (List.range 4).any fun c =>
    (List.range 4).all fun k =>
      let g := 16 * d + 4 * c + k
      (s.sideOf g == side) && !s.retired g

/-- The lowest-numbered die with such a cluster. -/
def State.gangDie (s : State) (side : Bool) : Option Nat := (List.range 24).find? fun d => s.wholeCluster d side

/-- Put a gang unit of records at the tail of its level on a die, or hold it where no die can run it. -/
def placeGang (u : QUnit) (s : State) : State :=
  match s.gangDie u.side with
  | some d =>
    let a := (s.dieAt d).arrive u.side
    let v : QUnit := { u with arrival := a.1, aged := 0, headSince := none }
    (s.setDieAt d { a.2 with units := a.2.units ++ [v] }).noteHeads d
  | none => { s with heldUnits := s.heldUnits ++ [u] }

/-- Firmware moves the gang units of records of a side away from a die that has no cluster for them. -/
def rehomeGangs (d : Nat) (side : Bool) (s : State) : State :=
  if s.wholeCluster d side then s
  else
    let x := s.dieAt d
    let mine := fun (u : QUnit) => (u.side == side) && u.gang && u.slots.isEmpty
    let s := (s.setDieAt d ({ x with units := x.units.filter fun u => !mine u }.setReserved side none)).noteHeads d
    (x.units.filter mine).foldl (fun s u => placeGang u s) s

/-- Firmware places the units it holds, where a die can run them now. -/
def placeHeld (s : State) : State :=
  s.heldUnits.foldl (fun s u => placeGang u s) { s with heldUnits := [] }

/-- Move the image in slot `k` of a die to a free slot of another (R410, R416): none where an outstanding request keeps it, or no slot is
free. -/
def moveImage (d k e : Nat) (s : State) : Option (Nat × State) :=
  match s.imageReady d k, s.freeSlot e with
  | true, some j =>
    let m := s.mem.piece (s.slotAddr d k) imageBytes
    let s := match targetOf (s.slotAddr e j) with
      | .hbm _ _ => { s with mem := (s.mem.clear (s.slotAddr e j) imageBytes).lay (s.slotAddr e j) m }
      | _ => s
    let x := s.dieAt d
    let s := s.setDieAt d { x with homes := mapDel x.homes k, slots := x.slots.erase k }
    let y := s.dieAt e
    some (j, (s.setDieAt e { y with slots := y.slots ++ [j] }).rekey d (savedTask d k) (savedTask e j))
  | _, _ => none

/-- Move the images of a list in order. -/
def moveImages (d e : Nat) : List Nat → State → Option (List Nat × State)
  | [], s => some ([], s)
  | k :: t, s =>
    match moveImage d k e s with
    | none => none
    | some (j, s) => (moveImages d e t s).map fun r => (j :: r.1, r.2)

/-- A die has a tile of a side in service. -/
def State.hasTile (s : State) (d : Nat) (side : Bool) : Bool :=
  (List.range 16).any fun k => (s.sideOf (16 * d + k) == side) && !s.retired (16 * d + k)

/-- The lowest-numbered die that can run a resume unit of a side: a gang's, or a single one (R410, R416). -/
def State.unitDie (s : State) (u : QUnit) : Option Nat :=
  if u.gang then s.gangDie u.side else (List.range 24).find? fun d => s.hasTile d u.side

/-- Firmware moves the resume units of a side away from a die that has no cluster for its gangs, or no tile for the others, which it may
move too (R410: the model's firmware does, log 30); one that cannot move waits where it is (R416). -/
def rehomeImages (d : Nat) (side : Bool) (s : State) : State :=
  let stuck := fun (u : QUnit) =>
    (u.side == side) && !u.slots.isEmpty && !(if u.gang then s.wholeCluster d side else s.hasTile d side)
  ((s.dieAt d).units.filter stuck).foldl (fun s u =>
    match s.unitDie u with
    | none => s
    | some e =>
      match moveImages d e u.slots s with
      | none => s
      | some (l, s) =>
        let x := s.dieAt d
        placeResume e side u.level l u.gang (s.setDieAt d { x with units := x.units.erase u })) s

/-- Firmware moves every stranded unit of a die that can move (R410, R416). -/
def rehomeDie (d : Nat) (s : State) : State :=
  [false, true].foldl (fun s b => if (s.dieAt d).units.isEmpty then s else rehomeImages d b (rehomeGangs d b s)) s

/-- Firmware moves every stranded unit of the package that can move, and places those it holds. -/
def rehomeAll (s : State) : State := placeHeld ((List.range 24).foldl (fun s d => rehomeDie d s) s)

/-! ## The expander (R45, R46) -/

/-- Width of level `k` in a split word (R40). -/
def splitWidth (sp : BitVec 64) (k : Nat) : Nat := sp.toNat / 2 ^ (6 * k) % 64

/-- EXTk of a header of eight doublewords (R42). -/
def hdrExt (h : List (BitVec 64)) (k : Nat) : Nat := bits (h.getD (3 + k / 2) 0#64) (32 * (k % 2) + 31) (32 * (k % 2))

/-- CTL of a header (R42, R43). -/
def hdrCtl (h : List (BitVec 64)) : Nat := bits (h.getD 6 0#64) 63 32

/-- A bit field of CTL. -/
def ctlField (h : List (BitVec 64)) (hi lo : Nat) : Nat := hdrCtl h / 2 ^ lo % 2 ^ (hi + 1 - lo)

/-- SIDE of a header. -/
def hdrSide (h : List (BitVec 64)) : Bool := decide (ctlField h 0 0 = 1)

/-- The levels a header uses. -/
def hdrLevels (h : List (BitVec 64)) : List Nat :=
  [0, 1, 2, 3, 4, 5].filter fun k => decide (splitWidth (h.getD 2 0#64) k ≠ 0)

/-- N: the product of the used extents (R44). -/
def hdrCount (h : List (BitVec 64)) : Nat := (hdrLevels h).foldl (fun n k => n * hdrExt h k) 1

/-- The fields of record `i` by level: level and value (R45). -/
def hdrDigits (h : List (BitVec 64)) : List Nat → Nat → List (Nat × Nat)
  | [], _ => []
  | k :: t, q => (k, q % hdrExt h k) :: hdrDigits h t (q / hdrExt h k)

/-- WID of record `i` (R45). -/
def hdrWid (h : List (BitVec 64)) (i : Nat) : BitVec 64 :=
  (hdrDigits h (hdrLevels h) i).foldl (fun w p => w ||| BitVec.ofNat 64 (p.2 * 2 ^ splitOff (h.getD 2 0#64) p.1)) 0#64

/-- Record `i` of a header (R45). -/
def hdrRec (h : List (BitVec 64)) (i : Nat) : Rec :=
  ⟨h.getD 0 0#64 ||| BitVec.ofNat 64 (ctlField h 2 1),
   h.getD 1 0#64 + BitVec.ofNat 64 (i * bits (h.getD 6 0#64) 31 0), h.getD 7 0#64, hdrWid h i⟩

/-- Records in a unit of a header (R46). -/
def hdrUnit (h : List (BitVec 64)) : Nat := if ctlField h 3 3 = 1 then 4 else 1

/-- The die of unit `u` over the list L (R46). -/
def hdrDie (h : List (BitVec 64)) (l : List Nat) (u : Nat) : Nat :=
  let n := l.length
  match ctlField h 7 4 with
  | 0 => ctlField h 12 8
  | 1 => l.getD (u % n) 0
  | 2 => l.getD (u * n / (hdrCount h / hdrUnit h)) 0
  | _ => l.getD ((((hdrDigits h (hdrLevels h) (u * hdrUnit h)).getLast?.map (·.2)).getD 0) % n) 0

/-- Some record of a side waits in a spill ring of the die. -/
def Die.spilled (x : Die) (side : Bool) : Bool :=
  x.spills.any fun n => decide (n.ring / 4 = if side then 1 else 0)

/-- The launch whose turn it is: of several under expansion the one accepted first whose side has room, until it is finished. R45 orders
the records of one launch alone (DESIGN CHOICE, log 29). -/
def Die.nextLaunch (x : Die) : Option (Nat × Expand) :=
  (((List.range x.launches.length).zip x.launches).filter fun p =>
    decide (x.occ (hdrSide p.2.hdr) < 3840) && !x.spilled (hdrSide p.2.hdr)).head?

/-- EXPANDER_ENQUEUE (R45, R46): a die's expander looks at the next unit of a launch and enqueues it where it is the die's own. -/
def execExpanderEnqueue (d : Nat) (s : State) : Host.Outcome State Fault Refusal :=
  let x := s.dieAt d
  if s.frozen ∨ s.fatal then .next s
  else match x.nextLaunch with
  | none => .next s
  | some (i, e) =>
    let k := hdrUnit e.hdr
    let last := decide (hdrCount e.hdr / k ≤ e.next + 1)
    let x := { x with launches := if last then x.launches.eraseIdx i else x.launches.set i { e with next := e.next + 1 } }
    if hdrDie e.hdr e.dies e.next = d then
      let a := x.arrive (hdrSide e.hdr)
      let u : QUnit := ⟨hdrSide e.hdr, ctlField e.hdr 2 1, a.1, (List.range k).map fun j => hdrRec e.hdr (k * e.next + j), [],
        decide (k = 4), e.hdr.getD 2 0#64, decide (ctlField e.hdr 13 13 = 1), 0, 0, none⟩
      let s := (s.setDieAt d { a.2 with units := a.2.units ++ [u] }).noteHeads d
      .next (if k = 4 then rehomeGangs d (hdrSide e.hdr) s else s)
    else .next (s.setDieAt d x)

/-! ## Refill and aging (R51, R394, R398) -/

/-- The oldest ring head of a side by arrival count (R394). -/
def Die.oldestSpill (x : Die) (side : Bool) : Option SpillNote :=
  let hs := [0, 1, 2, 3].filterMap fun l => x.spillHead side l
  match least (hs.map (·.arrival)) with
  | some a => hs.find? fun n => decide (n.arrival = a)
  | none => none

/-- SPILL_REFILL (R394): the record keeps its arrival count. -/
def execSpillRefill (d : Nat) (side : Bool) (s : State) : Host.Outcome State Fault Refusal :=
  let x := s.dieAt d
  if 3840 ≤ x.occ side then .next s
  else match x.oldestSpill side with
  | none => .next s
  | some n =>
    let r := candRecs d (.ring n) s
    let s := r.2.removeCand d (.ring n)
    let x := s.dieAt d
    let u : QUnit := ⟨side, n.ring % 4, n.arrival, r.1, [], n.gang, n.widsplit, n.spclr, n.aged, n.promoted, n.headSince⟩
    .next ((s.setDieAt d { x with units := x.units ++ [u] }).noteHeads d)

/-- AGE of a die (R392). -/
def State.agePops (s : State) (d : Nat) : Nat := bits (s.dieReg d 0x20010) 15 0

/-- A reservation follows its unit when the unit takes a new arrival count. -/
def Die.rename (x : Die) (side : Bool) (old new : Nat) : Die :=
  match x.reserved side with
  | some (a, c) => if a = old then x.setReserved side (some (new, c)) else x
  | none => x

/-- AGING_PROMOTION (R51, R398): the head of a level that has seen AGE pops moves up. A unit of the pool keeps its place there; a
ring's head needs a place in the pool or in the ring of its new level, and otherwise waits. -/
def execAgingPromotion (d : Nat) (side : Bool) (level : Nat) (s : State) : Host.Outcome State Fault Refusal :=
  let x := s.dieAt d
  if level = 0 ∨ 3 < level then .next s
  else match x.ageHead side level with
  | some (.pool u) =>
    if u.aged < s.agePops d ∨ 3 ≤ u.promoted then .next s
    else
      let a := x.arrive side
      let v : QUnit := { u with level := level - 1, arrival := a.1, aged := 0, promoted := u.promoted + 1, headSince := none }
      .next ((s.setDieAt d ({ a.2 with units := a.2.units.erase u ++ [v] }.rename side u.arrival a.1)).noteHeads d)
  | some (.ring n) =>
    if n.aged < s.agePops d ∨ 3 ≤ n.promoted then .next s
    else
      let inPool := decide (x.occ side + n.count ≤ 4096)
      if ¬ inPool ∧ ¬ s.ringRoom d (ringNo side (level - 1)) n.count then .next s
      else
        let r := candRecs d (.ring n) s
        let s := r.2.removeCand d (.ring n)
        let a := (s.dieAt d).arrive side
        if inPool then
          let u : QUnit := ⟨side, level - 1, a.1, r.1, [], n.gang, n.widsplit, n.spclr, 0, n.promoted + 1, none⟩
          .next ((s.setDieAt d { a.2 with units := a.2.units ++ [u] }).noteHeads d)
        else
          .next (((s.setDieAt d a.2).spill d (ringNo side (level - 1)) a.1 r.1 n.widsplit n.spclr 0 (n.promoted + 1)).noteHeads d)
  | none => .next s

/-! ## The end of a task (R35 to R38) -/

/-- Step 2 of R35: nothing of the task is under way. Generations that have sent their keystones have closed or broken. -/
def Tile.finished (t : Tile) : Bool :=
  t.dcmds.isEmpty && t.nest.isNone && t.nwaits.isEmpty && t.attg.isNone && t.late.isNone && t.tlbinvs.isEmpty &&
    t.wins.all fun p => p.2.awaits.isEmpty

/-- TASK_END (R35, R265): the packets issued are handed over, the pin is returned, every dirty line is written back (R100), and the tile
is free. A request pending on the task completes with no image (R401). -/
def execTaskEnd (g : Nat) (s : State) : Host.Outcome State Fault Refusal :=
  let t := s.tileAt g
  if t.ending ∧ t.run = .running ∧ t.cut.isNone ∧ t.finished then
    let r := t.record
    match unpinTask g (releaseAt 4 g (handAll g s)) with
    | .held => .next s
    | .done s =>
    let t := s.tileAt g
    let s := rehomeDie (g / 16) (gangLeft g t.task t.side (s.setTileAt g { t.vacant.endRequest with run := .idle }))
    if r.join = 0#64 then .next s
    else
      let x := s.dieAt (g / 16)
      .next (s.setDieAt (g / 16) { x with joins := x.joins ++ [⟨r.join, t.side, t.widsplit, g⟩] })
  else .next s

/-- The doublewords of a completion record as the hardware reads them (R36): the record, the address of the first word that cannot be
read, or none while a table is held. -/
def joinRecord (j : JoinWork) (a : BitVec 64) : Nat → Eff (Option (Except (BitVec 64) (List (BitVec 64))))
  | 0 => pure (some (.ok []))
  | n + 1 => do
    match ← joinRecord j a n with
    | some (.ok l) => do
      let va := a + BitVec.ofNat 64 (8 * n)
      match ← getsState fun s => s.reach (j.g / 16) j.side (if j.side then 1 else 0) va Rights.load with
      | .held => pure none
      | .bad logs => do
        modState (logErrors logs)
        pure (some (.error va))
      | .at pa logs => do
        modState (logErrors logs)
        match ← checkUnit (j.g / 16) (← getsState fun s => s.mem.read pa) with
        | some v => pure (some (.ok (l ++ [v])))
        | none => pure (some (.error va))
    | r => pure r

/-- Post the NOTE of every launch whose completion join has reached zero (R43, R432, R433). -/
def noteZero (j : JoinWork) (s : State) : State :=
  let mine := fun (n : NoteJoin) => decide (n.join = j.join) && (n.side == j.side)
  (s.host.joins.filter mine).foldl (fun s n => postCompl ⟨2, n.ring, 0, n.tag, n.join, 0#64⟩ s)
    { s with host := { s.host with joins := s.host.joins.filter fun n => !mine n } }

/-- The join step (R36): it waits while a table is held. Where COUNT itself can no longer be reached, which the spec does not describe,
nothing is decremented or enqueued, and a join record fault is logged with JOIN as its address (DESIGN CHOICE, log 29). -/
def joinStep (d : Nat) (j : JoinWork) : Eff Unit := do
  let log := fun (c : Nat) (i1 i2 : BitVec 64) => modState (logError ⟨d, c, 15, i1, i2⟩ false)
  match ← getsState fun s => s.reach d j.side (if j.side then 1 else 0) j.join Rights.store with
  | .held => waitWord
  | .bad logs => do
    modState (logErrors logs)
    log 0x03 j.join j.join
  | .at pa logs => do
    modState (logErrors logs)
    match ← checkUnit (pa / 2 ^ 37 % 32) (← getsState fun s => s.mem.read pa) with
    | none => log 0x01 j.join 0#64
    | some c =>
      if c = 0#64 then log 0x02 j.join 0#64
      else do
        modState fun s => { s with mem := s.mem.write pa (gloved (c - 1#64)) }
        if c = 1#64 then do
          match ← joinRecord j (j.join + 8#64) 4 with
          | none => waitWord
          | some (.error va) => log 0x03 j.join va
          | some (.ok l) => do
            let r := recOf l
            modState fun s =>
              match enqueue d j.side (bits r.code 1 0) r j.widsplit 4096 s with
              | some s => s
              | none => overflow d j.side (bits r.code 1 0) s
          modState (noteZero j)

/-- JOIN_STEP (R36): the oldest join step that waits on a die. -/
def execJoinStep (d : Nat) (s : State) : Host.Outcome State Fault Refusal :=
  let x := s.dieAt d
  match x.joins with
  | [] => .next s
  | j :: rest =>
    match (joinStep d j).run (s.setDieAt d { x with joins := rest }) with
    | .ok (_, s) => .next s
    | .error _ => .next s

end Sys2Proof.Machine
end

