-- ==== Sys2Proof/Machine/Images.lean ====
section
/-!
DEFINITION. Context images (R403 to R408): what a save writes to its slot, and what a restore reads back (log 10).
-/

namespace Sys2Proof.Machine

/-! ## The layout (R404, R405) -/

/-- The doublewords of an image header (R405): EXP is S's place in an expansion. -/
def headerWords (t : Tile) : List GWord :=
  let m := (t.task.map (·.member)).getD 0
  let gang := if (t.task.bind (·.gang)).isSome then 1 + 2 * m else 0
  let r := t.record
  let es := [t.eS, t.eV, t.eM, t.eD]
  let exp := match t.eS.exp with
    | some x => x.entry % 64 + x.j % 32 * 64 + 2 ^ 11
    | none => 0
  let ps := match t.eS.exp with
    | some x => [x.p0, x.p1, x.p2]
    | none => [0#64, 0#64, 0#64]
  ([BitVec.ofNat 64 (imageMagic + Config.abi.toNat * 2 ^ 32 + gang * 2 ^ 48), r.code, r.frame, r.join, r.wid] ++
    es.map (fun e => BitVec.ofNat 64 e.pos) ++ es.map (·.pc) ++ [BitVec.ofNat 64 exp] ++ ps).map gloved

/-- The doublewords of the accumulators that hold one, by offset (R404). -/
def accWords (t : Tile) : List (Nat × GWord) :=
  t.acc.map fun p =>
    let i := p.1 / 2
    (8 * i, gloved (mapGet 0#32 t.acc (2 * i + 1) ++ mapGet 0#32 t.acc (2 * i)))

/-- The accumulator doublewords that an earlier restore could not read keep an uncorrectable glove while S has yet to raise GLOVE for them
(R404, R406). -/
def Tile.accErrors (t : Tile) : List (Nat × GWord) :=
  match t.accFault with
  | none => []
  | some f => f.bad.map fun i =>
    let d := mapGet 0#32 t.acc (2 * i + 1) ++ mapGet 0#32 t.acc (2 * i)
    (8 * i, ⟨d, (gloved d).glove ^^^ 3#8⟩)

/-- Write the image of a tile's task at an address (R404). -/
def writeAreas (base : Nat) (t : Tile) (w : WordRef) (m : Mem) : Mem :=
  let m := (m.clear base imageBytes).writeList base (headerWords t)
  let m := m.writeList (base + 0x1000) ((List.range 64).map t.getX ++ csrWords t)
  let m := m.writeAt (t.v.map fun p => (base + 0x2000 + 8 * p.1, p.2))
  let m := m.writeList (base + 0xA000) (vAreaWords t)
  let m := m.writeList (base + 0xC000) (mAreaWords t)
  let m := m.writeList (base + 0xD000) (dAreaWords t)
  let m := m.writeList (base + 0x11000) (queueAreaWords t)
  let m := m.writeList (base + 0x15000) (imageWords t t.eS.pos w)
  let m := t.cstore.foldl (fun m p => m.writeList (base + 0x17000 + 512 * p.1) (microWords p.2)) m
  let m := putUndo base t m
  let m := putReqs m base t.cutReqs.1 t.cutReqs.2
  let m := m.writeAt ((accWords t ++ t.accErrors).map fun p => (base + 0x20000 + p.1, p.2))
  m.lay (base + 0x80000) t.spad

/-- Write the image of tile `g`'s task to slot `k` (R403, R404). The die files later responses there (R405); invalidations under way drop
their translations first (R168). -/
def writeImage (g k : Nat) (s : State) : State :=
  let d := g / 16
  let s := (s.tileAt g).tlbinvs.foldl (fun s x => s.dropTlbs d x) s
  let t := { s.tileAt g with cut := none, ctxb := BitVec.ofNat 64 (s.slotAddr d k) }
  let w := ({ s with cur := g }).refOf .S
  let s := s.setTileAt g t
  let s := match targetOf (s.slotAddr d k) with
    | .hbm _ _ => { s with mem := writeAreas (s.slotAddr d k) t w s.mem }
    | _ => s
  let x := s.dieAt d
  (s.setDieAt d { x with homes := mapPut x.homes k g }).rekey d g (savedTask d k)

/-! ## Resume records (R395, R403) -/

/-- Queue the image in slot `k` of the task that tile `g` ran: a gang's members wait for one another (R403). -/
def queueImage (g k : Nat) (c : Option CurTask) (side : Bool) (s : State) : State :=
  let d := g / 16
  match c.bind (·.gang) with
  | none => placeResume d side ((c.map (·.level)).getD 0) [k] false s
  | some n =>
    let x := s.dieAt d
    s.setDieAt d { x with gangWait := mapSet [] x.gangWait n (mapGet [] x.gangWait n ++ [k]) }

/-- Save the task of tile `g` to slot `k` and free the tile (R403): to the export queue, or to the die's queues. -/
def saveTask (g k : Nat) (evict : Bool) (s : State) : State :=
  let c := (s.tileAt g).task
  let s := writeImage g k s
  let t := s.tileAt g
  let s := s.setTileAt g { t.vacant.endRequest with run := .idle }
  let d := g / 16
  let s := if evict then
      let x := s.dieAt d
      s.setDieAt d { x with expq := x.expq ++ [k] }
    else queueImage g k c t.side s
  rehomeDie d (gangLeft g c t.side s)

/-! ## Restoring (R406) -/

/-- Accumulators read back (R406): their values, corrections made, and the doublewords that cannot be read. -/
def readAcc (m : Mem) : SMap (BitVec 32) × Nat × List Nat :=
  let put := fun (a : SMap (BitVec 32)) i (v : BitVec 64) =>
    mapSet 0#32 (mapSet 0#32 a (2 * i) (v.extractLsb' 0 32)) (2 * i + 1) (v.extractLsb' 32 32)
  m.words.foldl (fun r i =>
    match checkWord (m.read (8 * i)) with
    | .ok v c => (put r.1 i v, if c then r.2.1 + 1 else r.2.1, r.2.2)
    | .bad => (put r.1 i (m.read (8 * i)).data, r.2.1, r.2.2 ++ [i])) ([], 0, [])

/-- The engines and the record of a header (R405). -/
def rdHeader (base : Nat) : Rd Tile := do
  rdSeek base
  let w0 ← rdData
  let code ← rdData
  let frame ← rdData
  let join ← rdData
  let wid ← rdData
  let pos ← rdMany rdNat 4
  let pc ← rdMany rdData 4
  let e ← rdFields [6, 5, 1]
  let p0 ← rdData
  let p1 ← rdData
  let p2 ← rdData
  let g := bits w0 55 48
  let en := fun k => (⟨pc.getD k 0#64, pos.getD k 0, none⟩ : Engine)
  return { Tile.reset with
    eS := { en 0 with exp := if e.getD 2 0 = 1 then some ⟨e.getD 0 0, e.getD 1 0, p0, p1, p2⟩ else none },
    eV := en 1, eM := en 2, eD := en 3,
    task := some ⟨⟨code, frame, join, wid⟩, if g % 2 = 1 then some 0 else none, g / 2 % 4, bits code 1 0⟩ }

/-- The task of an image at an address, apart from its accumulators (R404, R405). -/
def taskOf (m : Mem) (base : Nat) (now : BitVec 64) : Tile :=
  let spad := m.piece (base + 0x80000) 0x200000
  let read : Rd Tile := do
    let t ← rdHeader base
    let t ← rdSArea base t
    let t ← rdVArea base (m.piece (base + 0x2000) 0x8000).regs t
    let t ← rdMArea base t
    let t ← rdDArea base spad now t
    rdQueueArea base t
  let t := (read ⟨m, base⟩).1
  { t with spad := spad, cstore := storeAt' m base, remote := imageReqs m base, undo := undoOf m base t }

/-- The task of an image on a tile: tile registers, caches and side are the tile's own (R349, R406). A word that a late fault had stopped
goes on or starts anew (R358, R402). -/
def Tile.restored (t i : Tile) (acc : SMap (BitVec 32)) (gang : Option Nat) (now : BitVec 64) : Tile :=
  { i with
    run := .running, acc := acc, dcmds := i.dcmds.filterMap (·.settle fun _ => false),
    tstat := t.tstat, tcause := t.tcause, taddr := t.taddr, tepc := t.tepc, tvec := t.tvec, tsb := t.tsb, ctxb := t.ctxb,
    pwin := t.pwin, tcause2 := t.tcause2, taddr2 := t.taddr2, gcc := t.gcc, guc := t.guc, bstat := t.bstat, icache := t.icache,
    stamp := t.stamp, side := t.side, nextTag := t.nextTag, fwStop := t.fwStop, brimStop := t.brimStop, since := now, haltAt := t.haltAt,
    haltFtb := t.haltFtb, traced := t.traced, tested := t.tested, task := i.task.map fun c => { c with gang := gang } }

/-! ## The collective words of a restored task (R299) -/

/-- A communicator's word of a saved task: the holder and index wanted, or, where the holder is not named, any saved task's. -/
def Comm.savedWord (c : Comm) (holder : Option Nat) (idx : Nat) : Option Nat :=
  let ok := fun (h n : Nat) => decide (n = idx) && (match holder with | some k => decide (h = k) | none => decide (384 ≤ h))
  match c.run with
  | some r => if ok r.holder r.idx then some r.holder else (c.queue.find? fun q => ok q.1 q.2).map (·.1)
  | none => (c.queue.find? fun q => ok q.1 q.2).map (·.1)

/-- Where the word `idx` of communicator `k` of a task restored on die `d` has its progress: a die whose entry holds the same position of
the same ring, and the name its task has there. The die itself and the task's own name `old` come first. -/
def State.findWord (s : State) (d k idx old : Nat) : Option (Nat × Nat) :=
  let c := s.commAt d k
  let ds := (d :: (List.range 24).filter fun e => decide (e ≠ d)).filter fun e =>
    let b := s.commAt e k
    decide (e = d) || (c.valid && b.valid && decide (b.p = c.p ∧ b.pos = c.pos))
  let look := fun (h : Option Nat) => ds.findSome? fun e => ((s.commAt e k).savedWord h idx).map fun n => (e, n)
  (look (some old)).orElse fun _ => look none

/-- The collective word `idx` of communicator `k`, of a task restored on tile `g`, goes on from the suspended point: where another die
held the position, what its entry holds of the ring's words moves with it (R299). -/
def claimWord (g old k idx : Nat) (s : State) : State :=
  let d := g / 16
  match s.findWord d k idx old with
  | none => s
  | some (e, h) =>
    let b := s.commAt e k
    let s := if e = d then s
      else
        let s := s.setComm d k { s.commAt d k with seq := b.seq, queue := b.queue, run := b.run, early := b.early }
        s.setComm e k { b with queue := [], run := none, early := [] }
    s.setComm d k ((s.commAt d k).rekey h g)

/-- Every collective word of a restored task (R299). -/
def claimAll (g old : Nat) (s : State) : State :=
  (s.tileAt g).dcmds.foldl (fun s c =>
    match c.kind with
    | .coll _ => claimWord g old (bits c.desc.data 63 58) c.ref.idx s
    | _ => s) s

/-- Run the collective units of a die on what a restored task brings back (R299). -/
def collAll (d : Nat) (s : State) : State := (s.dieAt d).comms.foldl (fun s p => collGo d p.1 s) s

/-! ## Restoring (R406, R407) -/

/-- Restore the image in slot `k` of its die on tile `g` (R406, R407). The tile's dirty lines are written back before its cache is
emptied. -/
def restoreTask (g k : Nat) (gang : Option Nat) (s : State) : State :=
  let d := g / 16
  let s := s.writeBack g fun _ _ => true
  let base := s.slotAddr d k
  let t := { s.tileAt g with resuming := none }
  if imageGood s.mem base = false then
    s.setTileAt g (doubleFault ⟨cSVIMG, 0, BitVec.ofNat 64 base, none⟩ s.ftb t)
  else
    let acc := readAcc (s.mem.piece (base + 0x20000) 0x60000)
    let t := { t with gcc := t.gcc + BitVec.ofNat 64 acc.2.1 }
    let u := t.restored (taskOf s.mem base s.ftb) acc.1 gang s.ftb
    let s := s.setTileAt g { u with
      accFault := (least acc.2.2).map fun j => ⟨u.eS.pos, BitVec.ofNat 64 (base + 0x20000 + 8 * j), acc.2.2⟩ }
    let x := s.dieAt d
    let s := s.setDieAt d { x with homes := mapDel x.homes k, slots := x.slots.erase k }
    let old := savedTask d k
    (collAll d (claimAll g old (resendAll g (rebindAll g (s.rekey d old g))))).settleEnded g

/-- Restore the members of a gang on the tiles of a cluster, each at its own place (R48, R406). -/
def restoreMembers (g : Nat) (u : QUnit) : List Nat → State → State
  | [], s => s
  | k :: t, s => restoreMembers g u t (restoreTask (g + s.imageMember (g / 16) k) k (some u.gangNo) s)

/-- The tiles of a popped resume unit wait for the responses that its images still lack (R406). -/
def awaitUnit (g : Nat) (u : QUnit) (s : State) : State :=
  if u.gang then
    u.slots.foldl (fun s k =>
      let h := g / 4 * 4 + s.imageMember (g / 16) k
      s.setTileAt h { s.tileAt h with resuming := some (k, u) }) s
  else s.setTileAt g { s.tileAt g with resuming := some (u.slots.headD 0, u) }

/-- Restore the unit that tile `g` has popped, once every image of it has its responses (R405, R406). -/
def resumeUnit (g : Nat) (u : QUnit) (s : State) : State :=
  if u.slots.all (s.imageReady (g / 16)) then
    if u.gang then restoreMembers (g / 4 * 4) u u.slots s else restoreTask g (u.slots.headD 0) none s
  else s

/-- The resume unit that tile `g` may pop now (R396, R397, R406): of a gang's, the one its cluster is reserved for. -/
def State.dueUnit (s : State) (g : Nat) : Option QUnit :=
  let d := g / 16
  if ¬ s.canPop g then none
  else if s.inReserve g then
    let c := g / 4 % 4
    let go := fun (side : Bool) =>
      match s.reservedUnit d c side with
      | some u => if ¬ u.slots.isEmpty ∧ s.clusterFree d c then some u else none
      | none => none
    (go false).orElse fun _ => go true
  else if s.turn g then
    match (s.dieAt d).offer (s.tileAt g).side with
    | some (_, .pool u) => if u.slots.isEmpty ∨ u.gang then none else some u
    | _ => none
  else none

/-- CONTEXT_RESTORE (R403, R406): an idle tile pops a resume record, waits until its image has every response, and restores it; a gang's
members are restored together on the cluster reserved for it. -/
def execContextRestore (g : Nat) (s : State) : Host.Outcome State Fault Refusal :=
  let d := g / 16
  match (s.tileAt g).resuming with
  | some (_, u) => .next (if (s.tileAt g).run = .idle then resumeUnit g u s else s)
  | none =>
    let s := ensureReserve d true (ensureReserve d false s)
    match s.dueUnit g with
    | some u =>
      let s := s.popCand d u.side u.level (.pool u)
      let s := if u.gang then s.setDieAt d ((s.dieAt d).setReserved u.side none) else s
      .next (resumeUnit g u (awaitUnit g u s))
    | none => .next s

end Sys2Proof.Machine
end

