-- ==== Sys2Proof/Machine/Preempt.lean ====
section
/-!
DEFINITION. Pre-emption (R399 to R403), injection and export of images (R392, R407), brim moves (R409) and table holds (R387).
-/

namespace Sys2Proof.Machine

/-! ## Requests (R399 to R401) -/

/-- Tiles of a die on a side that can run tasks: neither gated nor retired. -/
def State.sideTiles (s : State) (d : Nat) (side : Bool) : List Nat :=
  ((List.range 16).map fun k => 16 * d + k).filter fun g =>
    ((s.tileAt g).side == side) && !s.gatedTile g && !s.retired g

/-- The FTB since which the head of a level has been its head. -/
def State.headTime (s : State) (d : Nat) (side : Bool) (l : Nat) : Option (BitVec 64) :=
  match (s.dieAt d).head side l with
  | some (.pool u) => u.headSince
  | some (.ring n) => n.headSince
  | none => none

/-- The level of the task a tile runs. -/
def State.taskLevel (s : State) (g : Nat) : Option Nat := (s.tileAt g).task.map (·.level)

/-- The lowest level with a head that every tile of the side runs a task of lower priority than (R399), and since when. -/
def State.starving (s : State) (d : Nat) (side : Bool) : Option (BitVec 64) :=
  let gs := s.sideTiles d side
  ([0, 1, 2].filterMap fun l =>
    match s.headTime d side l with
    | some t =>
      if gs.all fun g => match s.taskLevel g with | some k => decide (l < k) | none => false then some t else none
    | none => none).head?

/-- Whether tile `a` is taken before tile `b` by a scheduler request: higher level number, later start, higher index (R399). -/
def State.takenBefore (s : State) (a b : Nat) : Bool :=
  let key := fun g => ((s.taskLevel g).getD 0, (s.tileAt g).since.toNat)
  let x := key a
  let y := key b
  decide (y.1 < x.1) || (decide (y.1 = x.1) && (decide (y.2 < x.2) || (decide (y.2 = x.2) && decide (b ≤ a))))

/-- SCHED_PREEMPT_REQUEST (R399, R400): the head of a level has waited PQT µs. -/
def execSchedPreemptRequest (d : Nat) (side : Bool) (s : State) : Host.Outcome State Fault Refusal :=
  let pqt := bits (s.dieReg d 0x20018) 19 0
  let gs := s.sideTiles d side
  let pending := gs.any fun g => (s.tileAt g).pre.isSome && decide (bits (s.tileAt g).preq 2 1 = 0)
  let free := bits (s.dieReg d 0x20030) 10 0 - (s.dieAt d).slots.length
  if pqt = 0 ∨ pending = true ∨ free ≤ 16 ∨ s.frozen then .next s
  else
    match s.starving d side, gs.find? fun g => gs.all fun h => s.takenBefore g h with
    | some t, some g => .next (raiseReq 0 false g (s.until (t + BitVec.ofNat 64 (1000 * pqt))))
    | _, _ => .next s

/-- The tiles of a die that a mask selects. -/
def maskTiles (d : Nat) (w : BitVec 64) : List Nat := ((List.range 16).filter (bit w)).map fun k => 16 * d + k

/-- A write of PCMD with GO alone raises firmware's requests (R392, R399). -/
def pcmdGo (d : Nat) (w : BitVec 64) (s : State) : State :=
  if bit w 16 ∧ ¬ bit w 18 then (maskTiles d w).foldl (fun s g => raiseReq 2 (bit w 17) g s) s else s

/-- A write of PCMD with REL alone ends firmware's stops (R392, R401). -/
def pcmdRel (d : Nat) (w : BitVec 64) (s : State) : State :=
  if bit w 18 ∧ ¬ bit w 16 then (maskTiles d w).foldl (fun s g => s.setTileAt g { s.tileAt g with fwStop := false }) s else s

/-- FIRMWARE_PREEMPT (R392, R399). -/
def execFirmwarePreempt (d : Nat) (w : BitVec 64) (s : State) : Host.Outcome State Fault Refusal :=
  s.released (.next (pcmdGo d w s))

/-- FIRMWARE_STOP_RELEASE (R392, R401). -/
def execFirmwareStopRelease (d : Nat) (w : BitVec 64) (s : State) : Host.Outcome State Fault Refusal :=
  s.released (.next (pcmdRel d w s))

/-- FORCED_CUT (R402): the polite stage ends. -/
def execForcedCut (g : Nat) (s : State) : Host.Outcome State Fault Refusal :=
  let t := s.tileAt g
  match t.pre with
  | some p => if t.run = .running ∧ t.cut.isNone then .next (cutNow g (s.until p.endAt)) else .next s
  | none => .next s

/-- IMAGE_SAVE_COMPLETE (R400, R403): a cut that found no slot waits until one is free. -/
def execImageSaveComplete (g : Nat) (s : State) : Host.Outcome State Fault Refusal :=
  let d := g / 16
  let evict := ((s.tileAt g).pre.map (·.evict)).getD false
  match (s.tileAt g).cut with
  | none => .next s
  | some c =>
    match c.slot with
    | some k => .next (saveTask g k evict s)
    | none =>
      match s.freeSlot d with
      | some k =>
        let x := s.dieAt d
        .next (saveTask g k evict (s.setDieAt d { x with slots := x.slots ++ [k] }))
      | none => .next s

/-! ## Injection and export (R392, R407, R416) -/

/-- A write of RINJ (R407, R416). Images of a gang form one unit when four come in member order, which moves on where the die has no whole
cluster; an image that this firmware did not write is a unit of its own, which the tile that pops it stops on. -/
def resumeInject (d : Nat) (w : BitVec 64) (s : State) : State :=
  let k := bits w 9 0
  let side := bit w 10
  let level := bits w 12 11
  let x := s.dieAt d
  let s := s.setDieAt d { x with slots := if x.slots.contains k then x.slots else x.slots ++ [k] }
  let h := if imageGood s.mem (s.slotAddr d k) then bits (s.mem.read (s.slotAddr d k)).data 55 48 else 0
  if h % 2 = 0 then placeResume d side level [k] false s
  else
    let key := if side then 1 else 0
    let x := s.dieAt d
    let old := mapGet [] x.gangWait key
    let l := if h / 2 % 4 = old.length then old ++ [k] else [k]
    if l.length = 4 then rehomeDie d (placeResume d side level l true (s.setDieAt d { x with gangWait := mapDel x.gangWait key }))
    else s.setDieAt d { x with gangWait := mapSet [] x.gangWait key l }

/-- RESUME_INJECT (R407, R416). -/
def execResumeInject (d : Nat) (w : BitVec 64) (s : State) : Host.Outcome State Fault Refusal :=
  s.released (.next (resumeInject d w s))

/-- EXPQ_POP (R392): firmware reads EXPQ. A slot that leaves the queue is free again. -/
def execExpqPop (d : Nat) (s : State) : Host.Outcome State Fault Refusal := s.released <|
  let x := s.dieAt d
  match x.expq with
  | k :: rest =>
    .next { s.setDieAt d { x with expq := rest, slots := x.slots.erase k } with
      reply := some (.data (BitVec.ofNat 64 (2 ^ 63 + k))) }
  | [] => .next { s with reply := some (.data 0#64) }

/-! ## Brim moves (R409) -/

/-- Tiles of a die. -/
def dieTiles (d : Nat) : List Nat := (List.range 16).map fun k => 16 * d + k

/-- Tiles of a die that a move in progress moves. -/
def State.movers (s : State) (d : Nat) : List Nat := (dieTiles d).filter s.moving

/-- Set BMOV's STAGE. -/
def State.setStage (s : State) (d n : Nat) : State := s.setDieReg d 0x20008 (setBits (s.dieReg d 0x20008) 9 8 n)

/-- Set or clear BMOV's ERR. -/
def State.bmovErr (s : State) (d : Nat) (on : Bool) : State :=
  s.setDieReg d 0x20008 (setBits (s.dieReg d 0x20008) 10 10 (if on then 1 else 0))

/-- Stage 1 on a die whose clusters move (R409): every moving tile stops popping, and one that runs a task has a request. -/
def startMove (d : Nat) (s : State) : State :=
  let gs := s.movers d
  let s := gs.foldl (fun s g =>
    let s := raiseReq 1 false g s
    s.setTileAt g { s.tileAt g with brimStop := true }) s
  let ends := gs.foldl (fun m g =>
    match (s.tileAt g).pre with
    | some p => max m p.endAt.toNat
    | none => m) s.ftb.toNat
  s.setDieAt d { s.dieAt d with brimEnd := BitVec.ofNat 64 ends }

/-- A write of BMOV.TARGET (R392, R409). A die with no moving cluster waits in stage 3. -/
def bmovTarget (d : Nat) (w : BitVec 64) (s : State) : State :=
  if bits (s.dieReg d 0x20008) 9 8 ≠ 0 ∨ 96 < bits w 6 0 then s.bmovErr d true
  else
    let s := s.setDieReg d 0x20008 (setBits (setBits (s.dieReg d 0x20008) 6 0 (bits w 6 0)) 9 8 1)
    if (s.movers d).isEmpty then s.setStage d 3 else startMove d s

/-- BRIM_MOVE_START (R392, R409). The step is the write's TARGET alone: ERR and COMMIT of the same doubleword have steps of their own, and a
REGISTER_WRITE performs what stands in its doubleword (log 30). -/
def execBrimMoveStart (d : Nat) (w : BitVec 64) (s : State) : Host.Outcome State Fault Refusal :=
  s.released (.next (bmovTarget d w s))

/-- Every moving tile is idle, or out of service (R415). -/
def State.movedOut (s : State) (d : Nat) : Bool :=
  (s.movers d).all fun g => decide ((s.tileAt g).run = .idle ∨ (s.tileAt g).run = .frozen)

/-- BRIM_STAGE_ADVANCE (R409): stage 1 ends when every moving task has gone or PWIN has passed, with a forced cut; stage 2 when every
moving tile is idle, its TLB emptied and its side switched. -/
def execBrimStageAdvance (d : Nat) (s : State) : Host.Outcome State Fault Refusal :=
  let stage := bits (s.dieReg d 0x20008) 9 8
  if stage = 1 then
    if s.movedOut d then .next (s.setStage d 2)
    else
      let s := s.until (s.dieAt d).brimEnd
      let cut := fun (s : State) g => if (s.tileAt g).pre.isSome ∧ (s.tileAt g).cut.isNone ∧ (s.tileAt g).run = .running then cutNow g s else s
      .next (((s.movers d).foldl cut s).setStage d 2)
  else if stage = 2 ∧ s.movedOut d then
    let sw := fun (s : State) g =>
      let t := s.tileAt g
      s.setTileAt g { t with tlb := [], side := !s.sideOf g }
    .next (((s.movers d).foldl sw s).setStage d 3)
  else .next s

/-- A write of BMOV with COMMIT (R392, R409). Units that no tile of their die can run move where a die can now run them (R410, R416). -/
def bmovCommit (d : Nat) (s : State) : State :=
  if bits (s.dieReg d 0x20008) 9 8 ≠ 3 then s.bmovErr d true
  else
    let s := s.setDieReg d 0x20000 (BitVec.ofNat 64 (bits (s.dieReg d 0x20008) 6 0))
    let s := (dieTiles d).foldl (fun s g => s.setTileAt g { s.tileAt g with brimStop := false }) s
    rehomeAll (s.setStage d 0)

/-- BRIM_MOVE_COMMIT (R392, R409). -/
def execBrimMoveCommit (d : Nat) (s : State) : Host.Outcome State Fault Refusal :=
  s.released (.next (bmovCommit d s))

/-- BMOV_ERR_CLEAR (R392). -/
def execBmovErrClear (d : Nat) (s : State) : Host.Outcome State Fault Refusal :=
  s.released (.next (s.bmovErr d false))

/-- HOLD_WRITE (R387). -/
def execHoldWrite (d : Nat) (w : BitVec 64) (s : State) : Host.Outcome State Fault Refusal := s.released <|
  .next (writeHold d w s)

end Sys2Proof.Machine
end

