-- ==== Sys2Proof/Machine/Regs.lean ====
section
/-!
DEFINITION. Firmware's and programs' writes of the registers of a die (R8, R369, R381 to R392, R412, R413, R416, R422; log 7).
-/

namespace Sys2Proof.Machine

/-- The tile's state lets firmware write its CSRs (R412). -/
def RunState.open : RunState → Bool
  | .running => false
  | _ => true

/-- FIRMWARE_CSR_WRITE (R412): task-level and supervisor CSRs only while the tile is idle, halted, frozen or stopped; the counters at
any time. A value its map refuses leaves the CSR as it is, and so does a write of a read-only one. -/
def execFirmwareCsrWrite (g : Nat) (c : BitVec 12) (w : BitVec 64) (s : State) : Host.Outcome State Fault Refusal := s.released <|
  let t := s.tileAt g
  if c = 0x400#12 then .next (s.setTileAt g { t with gcc := w })
  else if c = 0x401#12 then .next (s.setTileAt g { t with guc := w })
  else if t.run.open ∧ csrExists c.toNat then .next (s.setTileAt g ((t.setCsr c.toNat w).getD t))
  else .next s

/-- KVREP_WRITE (R413, R419): one step of the pool it names. -/
def execKvrepWrite (d : Nat) (w : BitVec 64) (s : State) : Host.Outcome State Fault Refusal :=
  s.released (.next (writeKvrep d w s))

/-- KVREP_ERR_CLEAR (R413). -/
def execKvrepErrClear (d : Nat) (s : State) : Host.Outcome State Fault Refusal :=
  s.released (.next (s.setDieReg d 0x30028 0#64))

/-- Gate the idle tiles of a list; firmware pre-empts those that run a task first (R399, R416, R440). A resume unit that waits on one for
responses goes back to its queue. -/
def gateTiles (gs : List Nat) (s : State) : State :=
  gs.foldl (fun s g =>
    match (s.tileAt g).task with
    | some _ => raiseReq 2 false g s
    | none =>
      let s := s.putBack g
      let x := s.dieAt (g / 16)
      s.setDieAt (g / 16) { x with gated := x.gated ||| (1#16 <<< (g % 16)) }) s

/-- A write of TRET (R413, R416): bits may be set and never cleared; a retired tile is gated, a reservation of its cluster ends, and
stranded gang units move. Firmware keeps the list in the nonvolatile configuration. -/
def retireTiles (d : Nat) (w : BitVec 64) (s : State) : State :=
  let old := s.dieReg d 0x30048
  let s := s.setDieReg d 0x30048 (old ||| (w &&& 0xFFFF#64))
  let s := { s with nv := { s.nv with retired := mapSet 0#16 s.nv.retired d ((s.dieReg d 0x30048).setWidth 16) } }
  let x := s.dieAt d
  let hit := fun (r : Option (Nat × Nat)) =>
    match r with
    | some (a, c) => if bits w (4 * c + 3) (4 * c) ≠ 0 then none else some (a, c)
    | none => none
  let s := s.setDieAt d { x with reserveA := hit x.reserveA, reserveL := hit x.reserveL }
  rehomeAll (gateTiles ((maskTiles d w).filter fun g => !bit old (g % 16)) s)

/-- TILE_RETIRE (R416). -/
def execTileRetire (d : Nat) (w : BitVec 64) (s : State) : Host.Outcome State Fault Refusal :=
  s.released (.next (retireTiles d w s))

/-- The debug modes that a security state allows (R424). -/
def modeAllowed (sec mode : Nat) : Bool :=
  match sec with
  | 0 => decide (mode ≤ 2)
  | 1 => decide (mode ≤ 1)
  | 2 => decide (mode = 0)
  | _ => decide (mode ≤ 2)

/-- Set a die's debug mode (R413). -/
def State.setDmode (s : State) (d m : Nat) : State := s.setDieReg d 0x30038 (setBits (s.dieReg d 0x30038) 9 8 m)

/-- A write of DBGCTL (R413, R422, R424): a mode that the security state refuses, or invasive in package-standby, leaves MODE as it is. -/
def writeDbgctl (d : Nat) (w : BitVec 64) (s : State) : State :=
  let old := s.dieReg d 0x30040
  let ok := modeAllowed s.sec.state (bits w 1 0) && !(s.standby && decide (bits w 1 0 = 2))
  let m := if ok then bits w 1 0 else bits old 1 0
  let s := s.setDieReg d 0x30040 (setBits (w &&& 0x0000FFFFFFFFF008#64) 1 0 m)
  if ok then s.setDmode d m else s

/-- DEBUG_MODE_WRITE (R413, R422, R424). -/
def execDebugModeWrite (d : Nat) (w : BitVec 64) (s : State) : Host.Outcome State Fault Refusal :=
  s.released (.next (writeDbgctl d w s))

/-! ## Writes of registers (R8) -/

/-- The writable bits of a doubleword of block 0 (R369, R382 to R386, R390): none where no register is described. -/
def block0Mask (o : Nat) : BitVec 64 :=
  if o < 0x10 then 0x0000FFFFFFFFF001#64
  else if o < 0x18 then 0x3F#64
  else if 0x1000 ≤ o ∧ o < 0x1800 then
    match o / 8 % 4 with | 0 => 0x1FFFFF0001#64 | 1 => 0x1FFFFF0000#64 | 2 => 0xFFFFFFFFFFFF#64 | _ => 0#64
  else if 0x1800 ≤ o ∧ o < 0x1880 then 3#64
  else if 0x1A00 ≤ o ∧ o < 0x1A80 then 0xFFFFFFFF#64
  else if 0x1C00 ≤ o ∧ o < 0x1E00 then
    match o / 8 % 4 with | 0 => 0x1FFFFFF001#64 | 1 => 0x1FFFFFF000#64 | 2 => 0xFFFFFFFFFFFF#64 | _ => 0#64
  else if 0x1E00 ≤ o ∧ o < 0x1E80 then 0xFFFFFFFF#64
  else if 0x2000 ≤ o ∧ o < 0x2080 then 0x0000FFFFFFFFFFC1#64
  else 0#64

/-- A write of BMOV (R8, R392): ERR = 1 clears ERR, and COMMIT = 1, which ignores TARGET, or else TARGET is performed, whatever ERR holds. A
refusal by the same write sets ERR again (DEDUCED, log 30). -/
def writeBmov (d : Nat) (v : BitVec 64) (s : State) : State :=
  let s := if bit v 10 then s.bmovErr d false else s
  if bit v 7 then bmovCommit d s else bmovTarget d v s

/-- A write of block 2 (R392); RO fields stay, and so does what no register describes. -/
def writeBlock2 (d o : Nat) (v : BitVec 64) (s : State) : State :=
  let r := 0x20000 + o
  if o = 0x08 then writeBmov d v s
  else if o = 0x10 then (if bits v 15 0 = 0 then s else s.setDieReg d r (v &&& 0xFFFF#64))
  else if o = 0x18 then s.setDieReg d r (v &&& 0xFFFFF#64)
  else if o = 0x20 then pcmdRel d v (pcmdGo d v s)
  else if o = 0x28 then s.setDieReg d r (v &&& 0x0000FFFFFFFF0000#64)
  else if o = 0x30 then
    (if (s.dieAt d).slots.isEmpty ∧ bits v 10 0 ≤ 1024 then s.setDieReg d r (v &&& 0x7FF#64) else s)
  else if o = 0x38 then resumeInject d v s
  else if 0x100 ≤ o ∧ o < 0x200 then
    match o / 8 % 4 with
      | 0 => s.setDieReg d r (v &&& 0x0000FFFFFFFFFFE0#64)
      | 1 => s.setDieReg d r (v &&& 0xFFFFFFFF#64)
      | _ => s
  else s

/-- A write of block 3 under class 4 (R413). -/
def writeBlock3 (d o : Nat) (v : BitVec 64) (s : State) : State :=
  let r := 0x30000 + o
  match o / 8 with
  | 0 => s.setDieReg d r (v &&& 0x0000FFFFFFFFF001#64)
  | 1 => s.setDieReg d r (v &&& 0x1FFFFF#64)
  | 3 => s.setDieReg d r v
  | 5 => writeKvrep d v s
  | 6 => s.setDieReg d r (v &&& 0x0000FFFFFFE00001#64)
  | 8 => writeDbgctl d v s
  | 9 => retireTiles d v s
  | 10 => s.setDieReg d r v
  | _ => s

/-- PTO is clamped to 56 to 1,000 µs (R287). -/
def clampPto (n : Nat) : Nat := if n < 56000 then 56000 else if 1000000 < n then 1000000 else n

/-- A communicator entry from the two doublewords in which the model lets system software fill it (log 7): VALID [0], VC [3:1], the
actor and learner side mask [4] and [5], P [20:8], POS [35:24]; previous [14:0], next [30:16]. An entry that becomes VALID starts afresh
(R299). -/
def commOf (a b : BitVec 64) (c : Comm) : Comm :=
  let c := if bit a 0 ∧ ¬ c.valid then { c with seq := 0, queue := [], run := none, early := [] } else c
  { c with
    valid := bit a 0, vc := bits a 3 1, actor := bit a 4, learner := bit a 5, p := bits a 20 8, pos := bits a 35 24,
    prev := b.extractLsb' 0 15, next := b.extractLsb' 16 15 }

/-- The words of a communicator that system software resets end as at a mismatch, where their tasks are on tiles (R297, R299; DESIGN
CHOICE, log 28). -/
def endWords (c : Comm) (s : State) : State :=
  (c.queue ++ (c.run.map fun r => (r.holder, r.idx)).toList).foldl (fun s q =>
    if q.1 < 384 then
      let t := s.tileAt q.1
      (s.setTileAt q.1 { t with dcmds := t.dcmds.map fun x =>
        if x.ref.idx = q.2 then { x.endWith 0x97 0 with done := false } else x }).settleEnded q.1
    else s) s

/-- System software fills communicator `k` (R293, R299). -/
def fillComm (d k : Nat) (a b : BitVec 64) (s : State) : State :=
  let c := s.commAt d k
  let s := s.setComm d k (commOf a b c)
  if bit a 0 ∧ ¬ c.valid then endWords c s else s

/-- A write of a register that the spec names but places at no offset (log 7): PTO at 0x100000, ring header addresses of the recorder
at 0x100100, the communicator table at 0x101000, both doublewords in turn, and at 0x110000 a doubleword for each pier, any write of which
sets it as a grant does (R286, R340). -/
def writePlaced (d off : Nat) (v : BitVec 64) (s : State) : State :=
  let x := s.dieAt d
  if off = 0x100000 then s.setDieAt d { x with pto := clampPto v.toNat }
  else if 0x100100 ≤ off ∧ off < 0x100120 then
    let r := (off - 0x100100) / 8
    s.setDieAt d { x with trecHdr := mapSet 0#64 x.trecHdr r v, trecOff := mapSet false x.trecOff r false }
  else if 0x101000 ≤ off ∧ off < 0x101400 then
    let s := s.setDieReg d (off / 8 * 8) v
    let b := off / 16 * 16
    fillComm d ((off - 0x101000) / 16) (s.dieReg d b) (s.dieReg d (b + 8)) s
  else if 0x110000 ≤ off ∧ off < 0x118000 then s.setPier d ((off - 0x110000) / 8) Pier.reset
  else s

/-- A write under class 4 (R381, R387, R392, R413). -/
def writeRegFirmware (d off : Nat) (v : BitVec 64) (s : State) : State :=
  let o := off % 65536
  match off / 65536 with
  | 0 => if o = 0x18 then writeHold d v s else if block0Mask o = 0#64 then s else s.setDieReg d off (v &&& block0Mask o)
  | 2 => writeBlock2 d o v s
  | 3 => writeBlock3 d o v s
  | k => if k < 16 then writeRegTile d off v s else writePlaced d off v s

/-- REGISTER_WRITE (R8, R386): a doubleword write of die `d`'s register space at an offset, under a master class, through the block table.
The host bridge's are in the order of its writes (R428). One that a held table delays, of another class, is made again (log 2). -/
def execRegisterWrite (d off cls : Nat) (w : BitVec 64) (s : State) : Host.Outcome State Fault Refusal := s.released <|
  let o := off / 8 * 8
  if 24 ≤ d then .next s
  else if cls = 4 then .next (writeRegFirmware d o w s)
  else if 2 ^ 20 ≤ o then .next s
  else if cls = 5 then .next (hostWrite (.register d o w) s)
  else
    match accessVerdict s cls d (regAddr d o) Rights.store with
    | .ok => .next (writeRegTile d o w s)
    | _ => .next s

end Sys2Proof.Machine
end

