-- ==== Sys2Proof/Machine/Ras.lean ====
section
/-!
DEFINITION. Scrubbing, self-test, halts, the fatal freeze and its dump (R414 to R417, R425), the security state and attestation
(R421 to R424).
-/

namespace Sys2Proof.Machine

/-- HBM_SCRUB (R414): one word of HBM, read and written back in one step under class 4. -/
def execHbmScrub (pa : Nat) (s : State) : Host.Outcome State Fault Refusal := s.released <|
  match targetOf pa with
  | .hbm d _ =>
    match checkWord (s.mem.read pa) with
    | .ok _ false => .next s
    | .ok v true => .next ({ s with mem := s.mem.write pa (gloved v) }.countDie d 1)
    | .bad => .next (logError ⟨d, 0x11, 15, BitVec.ofNat 64 (pa / 8 * 8), 0#64⟩ false s)
  | _ => .next s

/-! ## Self-test (R415) -/

/-- FTB of a unit's last passing test: units 0 to 15 are the tiles, the others the die's. -/
def State.lastTest (s : State) (d u : Nat) : BitVec 64 :=
  if u < 16 then (s.tileAt (16 * d + u)).tested else mapGet 0#64 (s.dieAt d).tested u

/-- A tile fails: it freezes, its task is reported lost, and it is retired. A resume unit that it has popped and not restored goes back to
its queue. -/
def tileFails (d u : Nat) (s : State) : State :=
  let g := 16 * d + u
  let s := s.putBack g
  let t := s.tileAt g
  let last := s.lastTest d u
  let r := t.record
  let s := s.setTileAt g { t with run := .frozen, bstat := 1#64, task := none, pre := none, preq := 0#64, cut := none }
  let s := logError ⟨d, 0x0F, u, BitVec.ofNat 64 u, last⟩ false s
  let s := if t.task.isSome then postCompl ⟨3, 0, 0, BitVec.ofNat 32 d, r.code, r.wid⟩ s else s
  retireTiles d (1#64 <<< u) s

/-- A failure of bring-up at a stage: it stops the package (R436). -/
def State.bringupFails (s : State) (stage die : Nat) : State :=
  s.setDieReg 0 0x40000 (setBits (setBits (s.dieReg 0 0x40000) 47 32 stage) 31 24 die)

/-- SELFTEST_RUN (R415): a full pass of a unit's test, passed or failed; a die unit that fails is fatal, and in stage 7 stops the package
(R438). -/
def execSelftestRun (d u : Nat) (pass : Bool) (s : State) : Host.Outcome State Fault Refusal := s.released <|
  if pass then
    if u < 16 then .next (s.setTileAt (16 * d + u) { s.tileAt (16 * d + u) with tested := s.ftb })
    else .next (s.setDieAt d { s.dieAt d with tested := mapSet 0#64 (s.dieAt d).tested u s.ftb })
  else if u < 16 then .next (tileFails d u s)
  else if (s.dieAt d).stage = 7 then .next (s.bringupFails 7 d)
  else .next (logError ⟨d, 0x0F, 15, BitVec.ofNat 64 u, s.lastTest d u⟩ true s)

/-- SELFTEST_FORCED_SLOT (R415): a unit does no other work for 64 cycles. It changes nothing but time. -/
def execSelftestForcedSlot (_d _u : Nat) (s : State) : Host.Outcome State Fault Refusal := s.released <|
  .next (s.until (s.ftb + 64#64))

/-! ## Halts (R366, R417) -/

/-- The task of a halted tile as a forced cut at the trap's entry would save it (R367, R417). -/
def Tile.haltedTask (t : Tile) : Tile :=
  let u := t.abandonHandler
  { u with dcmds := u.dcmds.map DCmd.unbegun }

/-- FIRMWARE_HALT_HANDLING (R417): the halted tile's task is imaged as a cut at the trap's entry would save it, exported and logged; the
tile is idle again, or retired when it has halted within 1 ms of its last return. -/
def execFirmwareHaltHandling (g : Nat) (s : State) : Host.Outcome State Fault Refusal :=
  let t := s.tileAt g
  let d := g / 16
  if t.run ≠ .halted then .next s
  else match s.freeSlot d with
  | none => .next s
  | some k =>
    let cause := if bit t.tstat 14 then t.tcause2 else t.tcause
    let again := match t.haltAt with
      | some h => decide ((t.haltFtb - h).toNat < 1000000)
      | none => false
    let s := s.writeBack g fun _ _ => true
    let s := match t.task with
      | some _ =>
        let x := s.dieAt d
        let s := s.setDieAt d { x with slots := x.slots ++ [k] }
        saveTask g k true (s.setTileAt g (s.tileAt g).haltedTask)
      | none => s.setTileAt g { (s.tileAt g).vacant.endRequest with run := .idle }
    let s := logError ⟨d, 0x0E, g % 16, cause, BitVec.ofNat 64 k⟩ false s
    let s := s.setTileAt g { s.tileAt g with haltAt := some s.ftb }
    .next (if again then retireTiles d (1#64 <<< (g % 16)) s else s)

/-! ## The fatal freeze (R425) -/

/-- Stop a running tile at once, as a cut does (R402, R425); a halted one stands as R417 images it. -/
def freezeTile (g : Nat) (s : State) : State :=
  let s := s.putBack g
  let t := s.tileAt g
  match t.task with
  | some _ =>
    let s := handAll g (s.writeBack g fun _ _ => true)
    let u := (s.tileAt g).endSending.abandonHandler
    s.setTileAt g { u with
      run := .frozen, pre := none, preq := 0#64, ending := false, attg := none, adoptWait := none, spanWait := none,
      dcmds := (u.dcmds.filter fun c => decide (c.ref.idx < u.eD.pos)).map DCmd.unbegun }
  | none => s.setTileAt g { t with run := .frozen }

/-- Fields of given widths, packed into a doubleword from bit 0 up. -/
def packed (l : List (Nat × Nat)) : BitVec 64 :=
  BitVec.ofNat 64 (l.foldr (fun f n => f.2 % 2 ^ f.1 + n * 2 ^ f.1) 0)

/-- The record of a unit as the dump lists it: its records, or its image slots (log 10). -/
def QUnit.dumpWords (u : QUnit) : List GWord :=
  u.recs.flatMap Rec.words ++ u.slots.flatMap fun k => [gloved (BitVec.ofNat 64 k), GWord.zero, GWord.zero, GWord.zero]

/-- What the dump says of a unit beside its records: side, level, whether it is a gang, how many records or images it has, promotions, pops
counted toward AGE and arrival count; then the split word that governs it (log 10). -/
def QUnit.dumpNote (u : QUnit) : List GWord :=
  [gloved (packed [(1, if u.side then 1 else 0), (2, u.level), (1, if u.gang then 1 else 0), (4, u.recs.length + u.slots.length),
    (8, u.promoted), (16, u.aged), (32, u.arrival)]), gloved u.widsplit]

/-- A pier as the dump lists it (R286, log 10): CG, CA, NA, the closing attempt, the refusal marks (of the last generation closed, of CG and
of CG + 1), whether a keystone is held for CG and for CG + 1, their counts and values, the return identity, NC and NN. -/
def Pier.dumpWords (p : Pier) : List GWord :=
  let flag := fun (b : Bool) => if b then 1 else 0
  let count := fun (h : Option HeldKey) => (h.map (·.scount)).getD 0
  let value := fun (h : Option HeldKey) => ((h.map (·.value)).getD GWord.zero).data
  [packed [(8, p.cg), (2, p.ca), (2, p.na), (2, p.lastAtt), (1, flag p.lastRefused), (1, flag p.refused), (1, flag p.refusedNext),
      (1, flag p.held.isSome), (1, flag p.heldNext.isSome), (23, count p.held), (9, p.retG), (4, p.retW), (7, count p.heldNext / 2 ^ 16)],
    packed [(24, p.nc), (24, p.nn), (16, count p.heldNext)], value p.held, value p.heldNext].map gloved

/-- A communicator as the dump lists it (R293, R299, log 10): the entry, then the progress of its words: how many it has begun, how many
wait, and of the one under way KIND, SCODE, ROOT, CNT, holder, chunks finished, index, NaN elements and reruns. -/
def Comm.dumpWords (c : Comm) : List GWord :=
  let flag := fun (b : Bool) => if b then 1 else 0
  let run := match c.run with
    | some r =>
      [packed [(1, 1), (3, r.kind), (8, r.scode), (12, r.root), (24, r.cnt), (1, flag r.errs)],
        packed [(32, r.holder), (32, r.done.length)], BitVec.ofNat 64 r.idx, packed [(32, r.nans), (32, r.reruns.length)]]
    | none => List.replicate 4 0#64
  ([packed [(1, flag c.valid), (1, flag c.actor), (1, flag c.learner), (3, c.vc), (13, c.p), (12, c.pos)],
    packed [(16, c.prev.toNat), (16, c.next.toNat)], packed [(32, c.seq), (32, c.queue.length)]] ++ run).map gloved

/-- The last entries of a die's error log, oldest first. -/
def State.logTail (s : State) (d : Nat) : List GWord :=
  let cap := bits (s.dieReg d 0x30008) 20 0
  let w := (s.dieReg d 0x30010).toNat
  let n := min (min w cap) 32768
  let base := bits (s.dieReg d 0x30000) 47 12 * 4096
  if cap = 0 then []
  else (List.range n).flatMap fun i => (List.range 4).map fun k => s.mem.read (base + 32 * ((w - n + i) % cap) + 8 * k)

/-- The tiles whose images a die's dump holds: those that held a task, unless the package is Tenant-Sealed (R425). -/
def State.dumpTiles (s : State) (d : Nat) : List Nat :=
  if s.sec.state = 2 then [] else (List.range 16).filter fun k => (s.tileAt (16 * d + k)).task.isSome && !s.retired (16 * d + k)

/-- Bytes of a die's part of the dump (R425). -/
def dumpBytes : Nat := 0x2A00000

/-- The sections of a die's part after its header: offset and bytes (R425). -/
def dumpSections (ts : List Nat) : List (Nat × Nat) :=
  [(0x1000, 0x80000), (0x81000, 0x20000), (0xA1000, 0x1000), (0xA2000, 0x100000)] ++
    ts.map fun k => (0x200000 + imageBytes * k, imageBytes)

/-- A range lies in HBM of one die. -/
def inHbm (a n : Nat) : Bool :=
  match targetOf a, targetOf (a + n - 1) with
  | .hbm d _, .hbm e _ => decide (d = e)
  | _, _ => false

/-- The words of a section of the dump, by number: pools with the spill entries behind them, piers, communicators, log, images. -/
def dumpSection (d base : Nat) (s : State) (ts : List Nat) (i : Nat) (m : Mem) : Mem :=
  let x := s.dieAt d
  match i with
  | 0 =>
    ((m.writeList (base + 0x1000) (x.units.flatMap QUnit.dumpWords)).writeList (base + 0x42000)
      (x.units.flatMap QUnit.dumpNote)).writeList (base + 0x80000) ((List.range 32).map fun k => gloved (s.dieReg d (0x20100 + 8 * k)))
  | 1 => x.piers.foldl (fun m p => m.writeList (base + 0x81000 + 32 * p.1) p.2.dumpWords) m
  | 2 => x.comms.foldl (fun m p => m.writeList (base + 0xA1000 + 64 * p.1) p.2.dumpWords) m
  | 3 => m.writeList (base + 0xA2000) (s.logTail d)
  | n =>
    match ts[n - 4]? with
    | some k =>
      let g := 16 * d + k
      writeAreas (base + 0x200000 + imageBytes * k) (s.tileAt g) (({ s with cur := g }).refOf .S) m
    | none => m

/-- Write a die's part of the dump at its region (R425): a section that leaves HBM is passed over, and the header says that the part is
incomplete. -/
def writeDump (d : Nat) (s : State) : State :=
  let r := s.dieReg d 0x30030
  let base := bits r 47 21 * 2 ^ 21
  let ts := s.dumpTiles d
  let secs := dumpSections ts
  let fits := fun (i : Nat) => inHbm (base + (secs.getD i (0, 1)).1) (secs.getD i (0, 1)).2
  let whole := (List.range secs.length).all fits
  if bit r 0 ∧ inHbm base 0x1000 then
    let mask := ts.foldl (fun m k => m + 2 ^ k) 0
    let flags := (if s.sec.state = 2 then 0 else 1) + (if whole then 0 else 2)
    let w0 := BitVec.ofNat 64 (0x0F24D0D0 + Config.abi.toNat * 2 ^ 32 + d * 2 ^ 48 + flags * 2 ^ 56)
    let m := (s.mem.clear base dumpBytes).writeList base
      (gloved w0 :: (((List.range 4).map fun k => gloved (s.fatalEntry.getD k 0#64)) ++ [gloved s.ftb, gloved (BitVec.ofNat 64 mask)]))
    let m := ((List.range secs.length).filter fits).foldl (fun m i => dumpSection d base s ts i m) m
    let s := { s with mem := m }
    if whole then s else s.setDieAt d { s.dieAt d with incomplete := true }
  else s.setDieAt d { s.dieAt d with incomplete := true }

/-- Log the end of a die's dump (R425): the spec gives this entry no code and no information, which are free values (log 5). -/
def logDumpEnd (d : Nat) (s : State) : State :=
  let f := fun k => Config.freeWord (s.fresh + k)
  logError ⟨d, bits (f 0) 15 0, 15, f 1, f 2⟩ false { s with fresh := s.fresh + 3 }

/-- Put a die into retention: every tile is gated (R440). -/
def State.retain (s : State) (d : Nat) : State := s.setDieAt d { s.dieAt d with gated := 0xFFFF#16, retention := true }

/-- FATAL_FREEZE (R425, R433): a die stops its tiles and writes its part of the dump; once every die has, the package is frozen and die 0
offers the dump to the host. After a thermal trip it is then in package-standby (R441), every die in retention (R440), which no invasive
debug mode allows (R424). -/
def execFatalFreeze (d : Nat) (s : State) : Host.Outcome State Fault Refusal :=
  if ¬ s.fatal ∨ 24 ≤ d ∨ (s.dieAt d).dumped then .next s
  else
    let s := (dieTiles d).foldl (fun s g => freezeTile g s) s
    let s := logDumpEnd d (writeDump d s)
    let s := s.setDieAt d { s.dieAt d with dumped := true }
    if (List.range 24).all fun k => (s.dieAt k).dumped then
      let mask := ((List.range 24).filter fun k => (s.dieAt k).incomplete).foldl (fun m k => m + 2 ^ k) 0
      let trip := decide (bits (s.fatalEntry.getD 0 0#64) 15 0 = 0x12) && (List.range 24).all fun k => decide (s.dmode k ≠ 2)
      let s := if trip then (List.range 24).foldl (fun s k => s.retain k) { s with standby := true } else s
      let s := { s with frozen := true }
      .next (postCompl ⟨6, 0, 0, BitVec.ofNat 32 mask, s.dieReg 0 0x30030, BitVec.ofNat 64 dumpBytes⟩ s)
    else .next s

/-! ## The security state (R422 to R424) -/

/-- Go to a security state: a debug mode it does not allow is off first (R422). -/
def enterState (n : Nat) (s : State) : State :=
  let s := (List.range 24).foldl (fun s d => if modeAllowed n (s.dmode d) then s else s.setDmode d 0) s
  { s with sec := { s.sec with state := n } }

/-- STATE_FUSE_BURN (R422). -/
def execStateFuseBurn (s : State) : Host.Outcome State Fault Refusal := s.released <|
  if s.sec.state = 0 then .next (enterState 1 s) else .next s

/-- Die 0 issues a fresh nonce, a free value (R422; log 5). -/
def freshNonce (s : State) : State :=
  { s with sec := { s.sec with nonce := Config.freeWord s.fresh }, fresh := s.fresh + 1 }

/-- DEBUG_UNLOCK (R422). A token with the vendor's signature over the nonce that die 0 has out is accepted in the Secured state and takes
effect at the next reset; the nonce is used up. With no token the unlock is withdrawn. -/
def execDebugUnlock (token : Option (BitVec 64)) (s : State) : Host.Outcome State Fault Refusal := s.released <|
  match token with
  | some n =>
    if s.sec.state = 1 ∧ n = s.sec.nonce then .next (freshNonce { s with sec := { s.sec with unlock := true } }) else .next s
  | none => .next { s with sec := { s.sec with unlock := false } }

/-- DEBUGGER_CONTINUE (R423). -/
def execDebuggerContinue (g : Nat) (s : State) : Host.Outcome State Fault Refusal :=
  let t := s.tileAt g
  if t.run = .stopped then .next (s.setTileAt g { t with run := .running }) else .next s

/-- What the package answers (R424). -/
def answer (r : Reply) (s : State) : State := { s with reply := some r }

/-- GET_VERSION (R424): SPDM 1.3. -/
def execGetVersion (s : State) : Host.Outcome State Fault Refusal :=
  s.released (.next (answer (.version 1 3) s))

/-- GET_CAPABILITIES (R424): the seven requests, and no secured sessions. -/
def execGetCapabilities (s : State) : Host.Outcome State Fault Refusal := s.released <|
  .next (answer (.capabilities [0, 1, 2, 3, 4, 5, 6] false) s)

/-- NEGOTIATE_ALGORITHMS (R424): ECDSA P-384 and SHA-384. -/
def execNegotiateAlgorithms (s : State) : Host.Outcome State Fault Refusal :=
  s.released (.next (answer (.algorithms 384 384) s))

/-- GET_DIGESTS (R424). -/
def execGetDigests (s : State) : Host.Outcome State Fault Refusal :=
  s.released (.next (answer (.digests Config.certificateDigests) s))

/-- GET_CERTIFICATE (R424). -/
def execGetCertificate (s : State) : Host.Outcome State Fault Refusal :=
  s.released (.next (answer (.certificate Config.certificate) s))

/-- CHALLENGE (R421, R424). -/
def execChallenge (nonce : BitVec 256) (s : State) : Host.Outcome State Fault Refusal := s.released <|
  .next (answer (.challenge nonce (Config.signature nonce)) s)

/-- The firmware configuration that block 3 measures (R424): the retired tiles of every die, then the package's nonvolatile configuration
(DESIGN CHOICE, log 32). -/
def State.fwConfig (s : State) : List (BitVec 64) :=
  let n := s.nv
  ((List.range 24).map fun d => s.dieReg d 0x30048) ++
    [n.hwin, BitVec.ofNat 64 n.member, n.px.setWidth 64, n.py.setWidth 64, BitVec.ofNat 64 (if n.bridge then 1 else 0),
     BitVec.ofNat 64 n.extX, BitVec.ofNat 64 n.extY] ++
    n.regs.flatMap (fun p => [BitVec.ofNat 64 p.1, p.2]) ++ n.csrs.flatMap fun p => [BitVec.ofNat 64 p.1, p.2]

/-- The six measurement blocks (R424). -/
def State.blocks (s : State) : List (List (BitVec 64)) :=
  [Config.romHash, Config.firmwareHash ++ [BitVec.ofNat 64 s.nv.fw.version], s.fwConfig,
   [BitVec.ofNat 64 (s.dmode 0), if bit (s.dieReg 0 0x30040) 3 then 1#64 else 0#64],
   [BitVec.ofNat 64 (s.brim 0), BitVec.ofNat 64 (bits (s.dieReg 0 0x20008) 9 8)],
   BitVec.ofNat 64 s.sec.state :: (List.range 4).map fun k => s.sec.tenant.extractLsb' (64 * k) 64]

/-- GET_MEASUREMENTS (R424). -/
def execGetMeasurements (s : State) : Host.Outcome State Fault Refusal :=
  s.released (.next (answer (.measurements s.blocks) s))

end Sys2Proof.Machine
end

