-- ==== Sys2Proof/Machine/HostCmd.lean ====
section
/-!
DEFINITION. The host interface (R426 to R434): BAR2, the ring registers, the submission entries and their commands (R42 to R47, R432), and
MSI-X.
-/

namespace Sys2Proof.Machine

/-! ## BAR2 and BAR0 (R427 to R430, R434) -/

/-- BAR2_WRITE (R427, R428): under class 5, behind the host's earlier writes; a refused one is dropped and logged. -/
def execBar2Write (off : Nat) (w : BitVec 64) (s : State) : Host.Outcome State Fault Refusal :=
  s.released (.next (hostWrite (.window off w) s))

/-- BAR2_READ (R427): a refused one completes with all ones. -/
def execBar2Read (off : Nat) (s : State) : Host.Outcome State Fault Refusal := s.released <|
  match s.barVerdict off Rights.load with
  | .ok => .next (answer (.data (s.mem.read (s.barAddr off)).data) s)
  | .held => .next s
  | .refused => .next (answer (.data (BitVec.allOnes 64)) s)

/-- What a host read of this member's register page gives (R427, R429): the registers of block 4 as they stand, every earlier write of the
device done (R428). It changes nothing. -/
def State.bar0Read (s : State) (off : Nat) : BitVec 64 := s.regView 0 (0x40000 + off % 65536)

/-- SQ_DOORBELL (R428, R430): a write of SQT is performed after every earlier host write. -/
def execSqDoorbell (r : Nat) (tail : BitVec 32) (s : State) : Host.Outcome State Fault Refusal := s.released <|
  if r < 16 then .next (hostWrite (.doorbell r tail) s) else .next s

/-- RING_ENABLE (R429). -/
def execRingEnable (cq : Bool) (r : Nat) (s : State) : Host.Outcome State Fault Refusal := s.released <|
  if r < 16 then .next (hostWrite (.enable cq r true) s) else .next s

/-- RING_DISABLE (R429). -/
def execRingDisable (cq : Bool) (r : Nat) (s : State) : Host.Outcome State Fault Refusal := s.released <|
  if r < 16 then .next (hostWrite (.enable cq r false) s) else .next s

/-- CQ_HEAD_WRITE (R434). -/
def execCqHeadWrite (r : Nat) (head : BitVec 32) (s : State) : Host.Outcome State Fault Refusal := s.released <|
  if r < 16 then .next (hostWrite (.head r head) s) else .next s

/-! ## Taking an entry (R430, R431, R434) -/

/-- The entry a ring has taken and not yet completed. -/
def State.entry (s : State) (r : Nat) : Option Taken := (s.host.taken.find? fun p => decide (p.1 = r)).map (·.2)

/-- Read the doublewords of a submission entry as a consuming lane, in order: none where one is uncorrectable. -/
def entryWords (pa : Nat) : Nat → Eff (List (Option (BitVec 64)))
  | 0 => pure []
  | n + 1 => do
    let l ← entryWords pa n
    let w ← getsState fun s => s.mem.read (pa + 8 * n)
    let v ← checkUnit 0 w
    pure (l ++ [v])

/-- A CMD completion (R432, R433). -/
def cmdCompl (r : Nat) (status : Nat) (tag : BitVec 32) (j : BitVec 32) : Compl := ⟨1, r, status, tag, j.setWidth 64, 0#64⟩

/-- Take the entry at HEAD of a ring. -/
def takeEntry (r : Nat) : Eff Unit := do
  let s ← getsState id
  let head := (s.ring false r 0x18).toNat
  let lg := bits (s.ring false r 8) 4 0
  let j := BitVec.ofNat 32 head
  let ws ← entryWords (bits (s.ring false r 0) 47 7 * 128 + 128 * (head % 2 ^ lg)) 16
  let next := fun (s : State) => s.setRing false r 0x18 (BitVec.ofNat 64 ((head + 1) % 2 ^ 32))
  match ws.head?.join with
  | none => do
    let tag := (Config.freeWord (← freshTurn)).extractLsb' 32 32
    modState fun s => postCompl (cmdCompl r 4 tag j) (next s)
  | some w0 =>
    if bits w0 8 8 ≠ head / 2 ^ lg % 2 then
      modState fun s => s.setRing false r 0x20 (s.ring false r 0x20 ||| 10#64)
    else if ws.any (·.isNone) then
      modState fun s => postCompl (cmdCompl r 4 (w0.extractLsb' 32 32) j) (next s)
    else
      modState fun s => next { s with host := { s.host with taken := mapPut s.host.taken r ⟨j, ws.filterMap id⟩ } }

/-- SUBMISSION_ENTRY_TAKE (R430, R431, R434): the ring is enabled and not halted, its completion ring has room, and the entry before it has
completed. Entries wait until bring-up has ended (R438). -/
def execSubmissionEntryTake (r : Nat) (s : State) : Host.Outcome State Fault Refusal :=
  if r < 16 ∧ s.ready ∧ ¬ s.frozen ∧ s.ringOn false r ∧ ¬ bit (s.ring false r 0x20) 1 ∧ s.cqRoom r ∧ s.entry r = none then
    if s.overruns r then .next (overrun r s)
    else if s.ringFill false r = 0 then .next s
    else match (takeEntry r).run s with
      | .ok (_, s) => .next s
      | .error _ => .next s
  else .next s

/-! ## Commands (R432) -/

/-- OP of a taken entry. -/
def Taken.op (t : Taken) : Nat := bits (t.words.getD 0 0#64) 7 0

/-- TAG of a taken entry. -/
def Taken.tag (t : Taken) : BitVec 32 := (t.words.getD 0 0#64).extractLsb' 32 32

/-- Complete the entry of a ring with a status. -/
def complete (r : Nat) (t : Taken) (status : Nat) (s : State) : State :=
  postCompl (cmdCompl r status t.tag t.j) { s with host := { s.host with taken := mapDel s.host.taken r } }

/-- Perform the entry a ring has taken when its OP passes a test and its completion has room. -/
def onEntry (r : Nat) (op : Nat → Bool) (f : Taken → State → State) (s : State) : Host.Outcome State Fault Refusal :=
  match s.entry r with
  | some t => if op t.op ∧ s.cqRoom r then .next (f t s) else .next s
  | none => .next s

/-- NOP (R432). -/
def execNop (r : Nat) (s : State) : Host.Outcome State Fault Refusal :=
  onEntry r (fun o => decide (o = 0)) (fun t s => complete r t 0 s) s

/-- UNKNOWN_COMMAND (R432). -/
def execUnknownCommand (r : Nat) (s : State) : Host.Outcome State Fault Refusal :=
  onEntry r (fun o => decide (4 ≤ o)) (fun t s => complete r t 2 s) s

/-- SEAL (R422, R432): refused unless the state is Secured and every debug mode is off. -/
def execSeal (r : Nat) (s : State) : Host.Outcome State Fault Refusal :=
  onEntry r (fun o => decide (o = 2)) (fun t s =>
    if s.sec.state = 1 ∧ (List.range 24).all (fun d => decide (s.dmode d = 0)) = true then
      let w := fun k => t.words.getD (4 + k) 0#64
      let s := enterState 2 s
      complete r t 0 { s with sec := { s.sec with tenant := w 3 ++ w 2 ++ w 1 ++ w 0 } }
    else complete r t 3 s) s

/-- The clearing that ends a sealed state (R422): HBM with its image slots, scratchpads and accumulators. -/
def clearAll (s : State) : State :=
  { s with
    mem := Mem.empty, tiles := s.tiles.map fun p => (p.1, { p.2 with spad := Mem.empty, acc := [] }),
    dies := s.dies.map fun p => (p.1, { p.2 with homes := [] }) }

/-- UNSEAL (R422, R432). -/
def execUnseal (r : Nat) (s : State) : Host.Outcome State Fault Refusal :=
  onEntry r (fun o => decide (o = 3)) (fun t s =>
    if s.sec.state = 2 then
      let s := enterState 1 (clearAll s)
      complete r t 0 { s with sec := { s.sec with tenant := 0#256 } }
    else complete r t 3 s) s

/-! ## LAUNCH (R44, R46, R47) -/

/-- The list L of a header (R46). -/
def State.launchDies (s : State) (h : List (BitVec 64)) : List Nat :=
  let side := hdrSide h
  (List.range 24).filter fun d =>
    if ctlField h 3 3 = 1 then s.wholeCluster d side
    else (List.range 4).any fun c => s.sideOf (16 * d + 4 * c) == side

/-- The checks of R44 that need no memory. -/
def State.headerOk (s : State) (h : List (BitVec 64)) : Bool :=
  let sp := h.getD 2 0#64
  let l := s.launchDies h
  let spread := ctlField h 7 4
  let die := ctlField h 12 8
  let used := hdrLevels h
  decide (bits sp 63 36 = 0 ∧ hdrCtl h / 2 ^ 15 = 0 ∧ bits (h.getD 0 0#64) 1 0 = 0) && decide (splitOff sp 6 ≤ 64) &&
  ([0, 1, 2, 3, 4, 5].all fun k =>
    if used.contains k then decide (1 ≤ hdrExt h k ∧ hdrExt h k ≤ 2 ^ splitWidth sp k) else decide (hdrExt h k = 0)) &&
  decide (hdrCount h < 2 ^ 64) && decide (spread ≤ 3) && !l.isEmpty &&
  (if spread = 0 then decide (die ≤ 23) && l.contains die else decide (die = 0)) &&
  (decide (spread ≠ 3) || !used.isEmpty) && (decide (ctlField h 3 3 = 0) || decide (hdrCount h % 4 = 0)) &&
  decide ((h.getD 7 0#64).toNat % 8 = 0) && (decide (ctlField h 14 14 = 0) || decide (h.getD 7 0#64 ≠ 0#64))

/-- What firmware's addition of N to COUNT comes to (R44, R47). -/
inductive JoinAdd where
  | done (s : State)
  | rejected (s : State)
  | held
  deriving DecidableEq, Repr

/-- Add N to the COUNT at CJOIN (R44, R47). -/
def addCount (h : List (BitVec 64)) (s : State) : JoinAdd :=
  let j := h.getD 7 0#64
  if j = 0#64 then .done s
  else
    let side := hdrSide h
    match s.reach 0 side (if side then 3 else 2) j Rights.amo with
    | .held => .held
    | .bad logs => .rejected (logErrors logs s)
    | .at pa logs =>
      match (checkUnit (pa / 2 ^ 37 % 32) (s.mem.read pa)).run (logErrors logs s) with
      | .ok (some c, s) => .done { s with mem := s.mem.write pa (gloved (c + BitVec.ofNat 64 (hdrCount h))) }
      | .ok (none, s) => .rejected s
      | .error _ => .rejected s

/-- Hand an accepted header to the expanders of its dies (R45, R46). -/
def expand (h : List (BitVec 64)) (l : List Nat) (s : State) : State :=
  (if ctlField h 7 4 = 0 then [ctlField h 12 8] else l).foldl (fun s d =>
    let x := s.dieAt d
    s.setDieAt d { x with launches := x.launches ++ [⟨h, l, 0⟩] }) s

/-- LAUNCH (R44, R432): waits while a brim move runs on any die (R409); a package that freezes accepts none (R425). -/
def execLaunch (r : Nat) (s : State) : Host.Outcome State Fault Refusal :=
  let settled := (List.range 24).all fun d => decide (bits (s.dieReg d 0x20008) 9 8 = 0)
  if ¬ settled ∨ s.fatal then .next s
  else
    onEntry r (fun o => decide (o = 1)) (fun t s =>
      let h := (t.words.drop 8).take 8
      if s.headerOk h then
        match addCount h s with
        | .held => s
        | .rejected s => complete r t 1 s
        | .done s =>
          let s := expand h (s.launchDies h) s
          let s := if ctlField h 14 14 = 1 then
            { s with host := { s.host with joins := s.host.joins ++ [⟨h.getD 7 0#64, hdrSide h, r, t.tag⟩] } } else s
          complete r t 0 s
      else complete r t 1 s) s

/-! ## MSI-X (R433) -/

/-- MSIX_MESSAGE (R433): a message for a CQT update, at most once per 2 µs per ring. -/
def execMsixMessage (r : Nat) (s : State) : Host.Outcome State Fault Refusal :=
  let v := s.ring true r 0x28
  if r < 16 ∧ s.host.msixDue.getLsbD r ∧ bit v 6 then
    let last := (s.host.msixAt.find? fun p => decide (p.1 = r)).map (·.2)
    let s := match last with
      | some t => s.until (t + 2000#64)
      | none => s
    let vec := bits v 5 0
    .next { s with host := { s.host with
      msixDue := s.host.msixDue &&& ~~~(1#16 <<< r), msixAt := mapPut s.host.msixAt r s.ftb,
      msixSent := mapSet 0 s.host.msixSent vec (mapGet 0 s.host.msixSent vec + 1) } }
  else .next s

end Sys2Proof.Machine
end

