-- ==== Sys2Proof/Machine/Bringup.lean ====
section
/-!
DEFINITION. Reset and bring-up (R436 to R438), the test access port (R439), power states (R440) and thermal gating (R441).
-/

namespace Sys2Proof.Machine

/-! ## Reset (R436, R422) -/

/-- The security state after a reset, and whether HBM is cleared (R422). -/
def resetSec (x : Sec) : Sec × Bool :=
  if x.state = 2 then (⟨1, false, 0#256, x.nonce⟩, true)
  else if x.state = 1 ∧ x.unlock then (⟨3, true, 0#256, x.nonce⟩, false)
  else if x.state = 3 ∧ ¬ x.unlock then (⟨1, false, 0#256, x.nonce⟩, true)
  else (x, false)

/-- Everything at its value after reset (R8), with what a reset keeps: the nonvolatile configuration, the security state, HBM unless it
is cleared, failed links, and the model's own fields. -/
def resetState (s : State) : State :=
  let x := resetSec s.sec
  { State.reset with
    agenda := s.agenda, rr := s.rr, fresh := s.fresh, mem := if x.2 then Mem.empty else s.mem, links := s.links, sec := x.1,
    nv := s.nv, jtag := s.jtag, cells := s.cells }

/-- Set the stage that a die reports; DEVSTAT's STAGE shows die 0's (R436). -/
def State.setStageOf (s : State) (d n : Nat) : State :=
  let s := s.setDieAt d { s.dieAt d with stage := n }
  if d = 0 then s.setDieReg 0 0x40000 (setBits (s.dieReg 0 0x40000) 3 0 n) else s

/-- The release of reset starts stages 1 and 2, and die 0 issues a nonce (R422, R436). -/
def releaseReset (s : State) : State := (List.range 24).foldl (fun s d => s.setStageOf d 1) (freshNonce s)

/-- RESET (R436). EXTEST holds the package in reset (R439). -/
def execReset (s : State) : Host.Outcome State Fault Refusal :=
  let s := resetState s
  .next (if s.jtag = .extest then s else releaseReset s)

/-! ## Bring-up (R436 to R438) -/

/-- The registers of a die that stage 8 loads (R438). -/
def loadedRegs : List Nat := [0x0, 0x8, 0x10, 0x30000, 0x30008, 0x30030]

/-- A value of the configuration. -/
def Nv.value (n : Nv) (k : Nat) (d : BitVec 64) : BitVec 64 := ((n.regs.find? fun p => decide (p.1 = k)).map (·.2)).getD d

/-- A tile CSR of the configuration. -/
def Nv.csr (n : Nv) (g c : Nat) (d : BitVec 64) : BitVec 64 :=
  ((n.csrs.find? fun p => decide (p.1 = g * 4096 + c)).map (·.2)).getD d

/-- Load one die's registers (R438): BRIM 48 where the configuration gives none. -/
def loadDie (d : Nat) (s : State) : State :=
  let s := loadedRegs.foldl (fun s o => writeRegFirmware d o (s.nv.value (d * 2 ^ 20 + o) 0#64) s) s
  let s := s.setDieReg d 0x20000 (BitVec.ofNat 64 (bits (s.nv.value (d * 2 ^ 20 + 0x20000) 48#64) 6 0))
  let s := s.setDieReg d 0x30048 (s.dieReg d 0x30048 ||| (mapGet 0#16 s.nv.retired d).setWidth 64)
  let x := s.dieAt d
  s.setDieAt d { x with gated := x.gated ||| (s.dieReg d 0x30048).setWidth 16 }

/-- Load one tile's registers and clear its scratchpad and accumulators (R438): PWIN 100,000 where the configuration gives none. -/
def loadTile (g : Nat) (s : State) : State :=
  let t := s.tileAt g
  s.setTileAt g { t with
    tvec := s.nv.csr g 0x104 0#64 &&& ~~~3#64, tsb := s.nv.csr g 0x105 0#64 &&& ~~~0x1FFF#64,
    ctxb := s.nv.csr g 0x106 0#64 &&& ~~~0xFFF#64, pwin := s.nv.csr g 0x107 100000#64 &&& 0xFFFFF#64,
    spad := Mem.empty, acc := [], side := s.sideOf g }

/-- Reset the rings (R436). A ring that the host has enabled keeps what it holds: a launch header that arrives before stage 9 waits on its
ring (R438; DEDUCED, log 32). -/
def resetRings (s : State) : State :=
  let x := s.dieAt 0
  let keep := fun (o : Nat) =>
    if 0x40100 ≤ o ∧ o < 0x40500 then s.ringOn false ((o - 0x40100) / 0x40)
    else if 0x40500 ≤ o ∧ o < 0x40900 then s.ringOn true ((o - 0x40500) / 0x40)
    else true
  s.setDieAt 0 { x with regs := x.regs.filter fun p => keep p.1 }

/-- The work of stage 8 on a die (R438); die 0 resets the rings and takes HWIN and the member number. -/
def stageEight (d : Nat) (s : State) : State :=
  let s := loadDie d s
  let s := (dieTiles d).foldl (fun s g => loadTile g s) s
  if d ≠ 0 then s
  else
    let s := resetRings s
    { s with hwin := s.nv.hwin, member := s.nv.member }.setDieReg 0 0x40000 (setBits (s.dieReg 0 0x40000) 7 4 s.nv.member)

/-- The time base at the end of stage 6 (R437): the package at (0, 0) keeps the time as the master; another takes the master's, a free
value (log 5). -/
def syncFtb (s : State) : State :=
  if s.nv.px = 0#5 ∧ s.nv.py = 0#5 then s else { s with ftb := Config.freeWord s.fresh, fresh := s.fresh + 1 }

/-- Retired tiles of the package. -/
def State.retiredCount (s : State) : Nat := ((List.range 384).filter s.retired).length

/-- A stage of a die ends well: the next one that is not under way. Stage 2 is the abutment port's, on die 0. In stage 3 die 0 first takes
the image it has authenticated and passes it on (R421). The last die to end stage 8 makes the package ready, and READY is posted. -/
def stageEnds (d : Nat) (s : State) : State :=
  match (s.dieAt d).stage with
  | 1 => s.setStageOf d (if d = 0 ∧ ¬ s.portUp then 2 else 3)
  | 3 => if d = 0 ∧ ¬ s.fwLoaded then { s with fwLoaded := true } else s.setStageOf d 4
  | 6 =>
    let s := if d = 0 then syncFtb { s with px := s.nv.px, py := s.nv.py } else s
    s.setStageOf d 7
  | 8 =>
    let s := (stageEight d s).setStageOf d 9
    if d = 0 then
      postCompl ⟨7, 0, Config.abi.toNat % 256, 0#32, BitVec.ofNat 64 s.retiredCount, BitVec.ofNat 64 (s.brim 0)⟩ s
    else s
  | n => s.setStageOf d (n + 1)

/-- Stage work of a die that must wait for other dies (R421, R436): a stage starts when the one before it has ended on every die, which die
0's stage shows, because die 0 ends each one last; but in stage 3 it authenticates the image before the others do. -/
def State.stageWaits (s : State) (d : Nat) : Bool :=
  let n := (s.dieAt d).stage
  if d = 0 then !(decide (n = 3) && !s.fwLoaded) && (List.range 24).any fun k => decide (k ≠ 0 ∧ (s.dieAt k).stage ≤ n)
  else decide ((s.dieAt 0).stage < n) || (decide (n = 3) && !s.fwLoaded)

/-- BRINGUP_STAGE_END (R436 to R438): the stage a die is in ends, well or not; die 24 names stage 2, the training of the abutment port,
which runs beside stage 1. A failure stops the package at it. -/
def execBringupStageEnd (ok : Bool) (die : Nat) (s : State) : Host.Outcome State Fault Refusal := s.released <|
  let st := (s.dieAt die).stage
  if bits (s.dieReg 0 0x40000) 47 32 ≠ 0 ∨ 24 < die then .next s
  else if die = 24 then
    let z := (s.dieAt 0).stage
    if z = 0 ∨ 2 < z ∨ s.portUp then .next s
    else if ¬ ok then .next (s.bringupFails 2 0)
    else .next (if z = 2 then { s with portUp := true }.setStageOf 0 3 else { s with portUp := true })
  else if st = 0 ∨ st = 2 ∨ 9 ≤ st ∨ s.stageWaits die then .next s
  else if ok ∧ (st = 3 → s.nv.accepts die) then .next (stageEnds die s)
  else .next (s.bringupFails st die)

/-- The bits of a configuration register that R427 fixes, and their values: a capabilities list; one function of the plain header type;
BAR0 64-bit and non-prefetchable of 1 MiB, BAR2 64-bit and prefetchable of 64 GiB, no other BAR and no expansion ROM; MSI-X with 64 vectors,
its table and pending bits in BAR0 at 0x8000 and 0x9000; power management and PCI Express, which every endpoint has, and no further
capability; and Data Object Exchange as the one extended capability beside those of the link (PCIe's places of these registers, and the
order of the capabilities, are PRESUMED, log 32). -/
def configFixed (reg : Nat) : BitVec 32 × BitVec 32 :=
  match reg with
  | 1 => (0x00100000#32, 0x00100000#32)
  | 3 => (0x00FF0000#32, 0#32)
  | 4 => (0x000FFFFF#32, 0x4#32)
  | 6 => (0xFFFFFFFF#32, 0xC#32)
  | 7 => (0xF#32, 0#32)
  | 8 => (0xFFFFFFFF#32, 0#32)
  | 9 => (0xFFFFFFFF#32, 0#32)
  | 12 => (0xFFFFFFFF#32, 0#32)
  | 13 => (0xFF#32, 0x40#32)
  | 16 => (0x3FFFFFFF#32, 0x003F5011#32)
  | 17 => (0xFFFFFFFF#32, 0x8000#32)
  | 18 => (0xFFFFFFFF#32, 0x9000#32)
  | 20 => (0xFFFF#32, 0x6001#32)
  | 24 => (0xFFFF#32, 0x0010#32)
  | 64 => (0xFFFF#32, 0x002E#32)
  | _ => (0#32, 0#32)

/-- The endpoint's answer for a configuration register; what R427 does not fix is a free value (log 5). -/
def configAnswer (reg : Nat) : BitVec 64 :=
  let f := configFixed reg
  ((Config.pcieConfig reg).setWidth 32 &&& ~~~f.1 ||| f.2).setWidth 64

/-- CONFIGURATION_REQUEST (R427, R436): the endpoint of a host bridge answers once its port is trained. -/
def execConfigurationRequest (reg : Nat) (s : State) : Host.Outcome State Fault Refusal := s.released <|
  if s.nv.bridge ∧ s.portUp then .next (answer (.config reg (configAnswer reg)) s) else .next s

/-! ## JTAG (R439) -/

/-- Select an instruction of the test access port: leaving EXTEST releases the reset in which it held the package (R436, R439; log 32). -/
def selectTap (j : Jtag) (s : State) : State :=
  if s.jtag = .extest then releaseReset { s with jtag := j } else { s with jtag := j }

/-- JTAG_BYPASS (R439): the one-bit bypass register. -/
def execJtagBypass (s : State) : Host.Outcome State Fault Refusal := .next (answer (.jtag 1 0#64) (selectTap .bypass s))

/-- JTAG_IDCODE (R439). -/
def execJtagIdcode (s : State) : Host.Outcome State Fault Refusal :=
  .next (answer (.jtag 32 0x0F024A6B#64) (selectTap .idcode s))

/-- JTAG_SAMPLE_PRELOAD (R439): what the balls show, which the cells sample, and what is shifted into the cells behind it are free values
(log 5). -/
def execJtagSamplePreload (s : State) : Host.Outcome State Fault Refusal :=
  let u := selectTap .sample s
  .next (answer (.jtag 64 (Config.boundaryCells u.fresh)) { u with cells := Config.boundaryCells (u.fresh + 1), fresh := u.fresh + 2 })

/-- JTAG_EXTEST (R439): the package is held in reset while it is selected, and its balls show the cells as they were loaded. -/
def execJtagExtest (s : State) : Host.Outcome State Fault Refusal :=
  .next (resetState { s with jtag := .extest })

/-! ## Power states (R424, R440) -/

/-- Every tile of a die is free to be gated. -/
def State.dieVacant (s : State) (d : Nat) : Bool :=
  (dieTiles d).all fun g => (s.tileAt g).task.isNone && (s.tileAt g).cut.isNone

/-- DIE_RETENTION_ENTER (R399, R440): every tile is gated; those that run tasks are pre-empted first. -/
def execDieRetentionEnter (d : Nat) (s : State) : Host.Outcome State Fault Refusal := s.released <|
  if s.dieVacant d then .next (s.retain d)
  else .next (gateTiles (dieTiles d) s)

/-- The tiles of clusters that are gated for heat (R441). -/
def State.hotTiles (s : State) (d : Nat) : BitVec 16 := (s.dieAt d).gateOrder.foldl (fun m c => m ||| (15#16 <<< (4 * c))) 0#16

/-- Retired tiles of a die. -/
def State.retiredMask (s : State) (d : Nat) : BitVec 16 := (s.dieReg d 0x30048).setWidth 16

/-- Ungate tiles of a die and end their firmware stop (R401, R441). -/
def ungate (d : Nat) (back : BitVec 16) (s : State) : State :=
  let s := s.setDieAt d { s.dieAt d with gated := (s.dieAt d).gated &&& ~~~back }
  (dieTiles d).foldl (fun s g => if back.getLsbD (g % 16) then s.setTileAt g { s.tileAt g with fwStop := false } else s) s

/-- DIE_RETENTION_EXIT (R440): all tiles return but the retired ones and those gated for heat. -/
def execDieRetentionExit (d : Nat) (s : State) : Host.Outcome State Fault Refusal := s.released <|
  if (s.dieAt d).retention ∧ ¬ s.standby then
    .next (ungate d (~~~(s.hotTiles d ||| s.retiredMask d)) (s.setDieAt d { s.dieAt d with retention := false }))
  else .next s

/-- PACKAGE_STANDBY_ENTER (R424, R440): every die is in retention; refused while a debug mode is invasive. -/
def execPackageStandbyEnter (s : State) : Host.Outcome State Fault Refusal := s.released <|
  let ok := (List.range 24).all fun d => (s.dieAt d).retention && decide (s.dmode d ≠ 2)
  .next (if ok then { s with standby := true } else s)

/-- PACKAGE_STANDBY_EXIT (R440): the links are trained again. -/
def execPackageStandbyExit (s : State) : Host.Outcome State Fault Refusal :=
  s.released (.next { s with standby := false })

/-! ## Thermal gating (R441) -/

/-- Gate the idle tiles of the clusters that are being gated. -/
def settleGates (d : Nat) (s : State) : State :=
  let idle := fun (g : Nat) => (s.tileAt g).task.isNone && (s.tileAt g).cut.isNone
  let gs := (s.dieAt d).gateOrder.flatMap fun c => (List.range 4).map fun k => 16 * d + 4 * c + k
  let m := (gs.filter idle).foldl (fun m g => m ||| (1#16 <<< (g % 16))) (s.dieAt d).gated
  s.setDieAt d { s.dieAt d with gated := m }

/-- Begin to gate the highest-numbered cluster that runs tasks (R441). -/
def gateOne (d : Nat) (s : State) : State :=
  match [3, 2, 1, 0].find? fun c => decide (s.running d c ≠ 0) && !(s.dieAt d).gateOrder.contains c with
  | some c =>
    let s := ((List.range 4).map fun k => 16 * d + 4 * c + k).foldl (fun s g => raiseReq 2 false g s) s
    s.setDieAt d { s.dieAt d with gateOrder := c :: (s.dieAt d).gateOrder }
  | none => s

/-- THERMAL_SAMPLE (R441): the die's next sample, in units of 0.1 °C. -/
def execThermalSample (d temp : Nat) (s : State) : Host.Outcome State Fault Refusal := s.released <|
  let s := s.until ((s.dieAt d).thermalAt + 100000#64)
  let x := s.dieAt d
  let hot := if 1000 ≤ temp then some (x.hotSince.getD s.ftb) else none
  let cool := if temp < 900 then some (x.coolSince.getD s.ftb) else none
  let s := s.setDieAt d { x with thermalAt := s.ftb, hotSince := hot, coolSince := cool }
  if 1120 ≤ temp then
    .next (logError ⟨d, 0x12, 15, BitVec.ofNat 64 d, BitVec.ofNat 64 temp⟩ true s)
  else
    match hot with
    | some t =>
      if 1000000 ≤ (s.ftb - t).toNat then
        let s := gateOne d s
        .next (settleGates d (s.setDieAt d { s.dieAt d with hotSince := some (t + 1000000#64) }))
      else .next (settleGates d s)
    | none =>
      match cool with
      | some t =>
        if 10000000 ≤ (s.ftb - t).toNat then
          let back := s.hotTiles d &&& ~~~s.retiredMask d
          let s := s.setDieAt d { s.dieAt d with gateOrder := [] }
          .next (if (s.dieAt d).retention then s else ungate d back s)
        else .next (settleGates d s)
      | none => .next (settleGates d s)

end Sys2Proof.Machine
end

