-- ==== Sys2Proof/Machine/Dispatch.lean ====
section
/-!
DEFINITION. The meaning of every instruction: one arm for each row of the opcode table.
-/

namespace Sys2Proof.Machine

/-- Execute an instruction. -/
def exec (i : Instr) (s : State) : Host.Outcome State Fault Refusal :=
  match i with
  | .add d a b => Sys2Proof.Machine.execAdd d a b s
  | .sub d a b => Sys2Proof.Machine.execSub d a b s
  | .and d a b => Sys2Proof.Machine.execAnd d a b s
  | .or d a b => Sys2Proof.Machine.execOr d a b s
  | .xor d a b => Sys2Proof.Machine.execXor d a b s
  | .andn d a b => Sys2Proof.Machine.execAndn d a b s
  | .orn d a b => Sys2Proof.Machine.execOrn d a b s
  | .sll d a b => Sys2Proof.Machine.execSll d a b s
  | .srl d a b => Sys2Proof.Machine.execSrl d a b s
  | .sra d a b => Sys2Proof.Machine.execSra d a b s
  | .rotl d a b => Sys2Proof.Machine.execRotl d a b s
  | .rotr d a b => Sys2Proof.Machine.execRotr d a b s
  | .slt d a b => Sys2Proof.Machine.execSlt d a b s
  | .sltu d a b => Sys2Proof.Machine.execSltu d a b s
  | .min d a b => Sys2Proof.Machine.execMin d a b s
  | .max d a b => Sys2Proof.Machine.execMax d a b s
  | .minu d a b => Sys2Proof.Machine.execMinu d a b s
  | .maxu d a b => Sys2Proof.Machine.execMaxu d a b s
  | .mul d a b => Sys2Proof.Machine.execMul d a b s
  | .mulh d a b => Sys2Proof.Machine.execMulh d a b s
  | .mulhu d a b => Sys2Proof.Machine.execMulhu d a b s
  | .div d a b => Sys2Proof.Machine.execDiv d a b s
  | .divu d a b => Sys2Proof.Machine.execDivu d a b s
  | .rem d a b => Sys2Proof.Machine.execRem d a b s
  | .remu d a b => Sys2Proof.Machine.execRemu d a b s
  | .csel d a b => Sys2Proof.Machine.execCsel d a b s
  | .clz d a => Sys2Proof.Machine.execClz d a s
  | .ctz d a => Sys2Proof.Machine.execCtz d a s
  | .popc d a => Sys2Proof.Machine.execPopc d a s
  | .sextB d a => Sys2Proof.Machine.execSextB d a s
  | .sextH d a => Sys2Proof.Machine.execSextH d a s
  | .sextW d a => Sys2Proof.Machine.execSextW d a s
  | .zextB d a => Sys2Proof.Machine.execZextB d a s
  | .zextH d a => Sys2Proof.Machine.execZextH d a s
  | .zextW d a => Sys2Proof.Machine.execZextW d a s
  | .bext d a w l => Sys2Proof.Machine.execBext d a w l s
  | .bins d a w l => Sys2Proof.Machine.execBins d a w l s
  | .addi d a im => Sys2Proof.Machine.execAddi d a im s
  | .andi d a im => Sys2Proof.Machine.execAndi d a im s
  | .ori d a im => Sys2Proof.Machine.execOri d a im s
  | .xori d a im => Sys2Proof.Machine.execXori d a im s
  | .slti d a im => Sys2Proof.Machine.execSlti d a im s
  | .sltiu d a im => Sys2Proof.Machine.execSltiu d a im s
  | .slli d a sh => Sys2Proof.Machine.execSlli d a sh s
  | .srli d a sh => Sys2Proof.Machine.execSrli d a sh s
  | .srai d a sh => Sys2Proof.Machine.execSrai d a sh s
  | .lih d im => Sys2Proof.Machine.execLih d im s
  | .getw d a l => Sys2Proof.Machine.execGetw d a l s
  | .ldB d a o => Sys2Proof.Machine.execLdB d a o s
  | .ldBu d a o => Sys2Proof.Machine.execLdBu d a o s
  | .ldH d a o => Sys2Proof.Machine.execLdH d a o s
  | .ldHu d a o => Sys2Proof.Machine.execLdHu d a o s
  | .ldW d a o => Sys2Proof.Machine.execLdW d a o s
  | .ldWu d a o => Sys2Proof.Machine.execLdWu d a o s
  | .ldD d a o => Sys2Proof.Machine.execLdD d a o s
  | .st d a o => Sys2Proof.Machine.execSt d a o s
  | .ldp d a o => Sys2Proof.Machine.execLdp d a o s
  | .stp d a o => Sys2Proof.Machine.execStp d a o s
  | .pfR a o => Sys2Proof.Machine.execPfR a o s
  | .pfW a o => Sys2Proof.Machine.execPfW a o s
  | .putV d a => Sys2Proof.Machine.execPutV d a s
  | .putM d a => Sys2Proof.Machine.execPutM d a s
  | .putD d a => Sys2Proof.Machine.execPutD d a s
  | .get d => Sys2Proof.Machine.execGet d s
  | .ewait d => Sys2Proof.Machine.execEwait d s
  | .epeek d => Sys2Proof.Machine.execEpeek d s
  | .mcall d a b k => Sys2Proof.Machine.execMcall d a b k s
  | .mdef k a o => Sys2Proof.Machine.execMdef k a o s
  | .amoAdd d a b o sh => Sys2Proof.Machine.execAmoAdd d a b o sh s
  | .amoAnd d a b o sh => Sys2Proof.Machine.execAmoAnd d a b o sh s
  | .amoOr d a b o sh => Sys2Proof.Machine.execAmoOr d a b o sh s
  | .amoXor d a b o sh => Sys2Proof.Machine.execAmoXor d a b o sh s
  | .amoMin d a b o sh => Sys2Proof.Machine.execAmoMin d a b o sh s
  | .amoMax d a b o sh => Sys2Proof.Machine.execAmoMax d a b o sh s
  | .amoMinu d a b o sh => Sys2Proof.Machine.execAmoMinu d a b o sh s
  | .amoMaxu d a b o sh => Sys2Proof.Machine.execAmoMaxu d a b o sh s
  | .amoSwap d a b o sh => Sys2Proof.Machine.execAmoSwap d a b o sh s
  | .cas d a b o sh => Sys2Proof.Machine.execCas d a b o sh s
  | .fence o sh => Sys2Proof.Machine.execFence o sh s
  | .fenceDrain => Sys2Proof.Machine.execFenceDrain s
  | .ifence => Sys2Proof.Machine.execIfence s
  | .spawn a b => Sys2Proof.Machine.execSpawn a b s
  | .tail => Sys2Proof.Machine.execTail s
  | .yield => Sys2Proof.Machine.execYield s
  | .poll d => Sys2Proof.Machine.execPoll d s
  | .adopt d a b => Sys2Proof.Machine.execAdopt d a b s
  | .sys => Sys2Proof.Machine.execSys s
  | .brk => Sys2Proof.Machine.execBrk s
  | .eret => Sys2Proof.Machine.execEret s
  | .uret => Sys2Proof.Machine.execUret s
  | .resume => Sys2Proof.Machine.execResume s
  | .tlbinv a b => Sys2Proof.Machine.execTlbinv a b s
  | .halt => Sys2Proof.Machine.execHalt s
  | .beq a b o => Sys2Proof.Machine.execBeq a b o s
  | .bne a b o => Sys2Proof.Machine.execBne a b o s
  | .blt a b o => Sys2Proof.Machine.execBlt a b o s
  | .bge a b o => Sys2Proof.Machine.execBge a b o s
  | .bltu a b o => Sys2Proof.Machine.execBltu a b o s
  | .bgeu a b o => Sys2Proof.Machine.execBgeu a b o s
  | .bp k o => Sys2Proof.Machine.execBp k o s
  | .bpNot k o => Sys2Proof.Machine.execBpNot k o s
  | .j o => Sys2Proof.Machine.execJ o s
  | .jal d o => Sys2Proof.Machine.execJal d o s
  | .jalr d a im => Sys2Proof.Machine.execJalr d a im s
  | .jtab d a l => Sys2Proof.Machine.execJtab d a l s
  | .loop a o => Sys2Proof.Machine.execLoop a o s
  | .csrr d c => Sys2Proof.Machine.execCsrr d c s
  | .csrw d a c => Sys2Proof.Machine.execCsrw d a c s
  | .csrs d a c => Sys2Proof.Machine.execCsrs d a c s
  | .csrc d a c => Sys2Proof.Machine.execCsrc d a c s
  | .vadd g d a b m t => Sys2Proof.Machine.execVadd g d a b m t s
  | .vsub g d a b m t => Sys2Proof.Machine.execVsub g d a b m t s
  | .vmul g d a b m t => Sys2Proof.Machine.execVmul g d a b m t s
  | .vfma g d a b m t => Sys2Proof.Machine.execVfma g d a b m t s
  | .vfms g d a b m t => Sys2Proof.Machine.execVfms g d a b m t s
  | .vmax g d a b m t => Sys2Proof.Machine.execVmax g d a b m t s
  | .vmin g d a b m t => Sys2Proof.Machine.execVmin g d a b m t s
  | .vabs g d a m t => Sys2Proof.Machine.execVabs g d a m t s
  | .vneg g d a m t => Sys2Proof.Machine.execVneg g d a m t s
  | .vrcp g d a m t => Sys2Proof.Machine.execVrcp g d a m t s
  | .vrsqrt g d a m t => Sys2Proof.Machine.execVrsqrt g d a m t s
  | .vsqrt g d a m t => Sys2Proof.Machine.execVsqrt g d a m t s
  | .vexp2 g d a m t => Sys2Proof.Machine.execVexp2 g d a m t s
  | .vlog2 g d a m t => Sys2Proof.Machine.execVlog2 g d a m t s
  | .vrnd g d a m t => Sys2Proof.Machine.execVrnd g d a m t s
  | .vnot g d a m t => Sys2Proof.Machine.execVnot g d a m t s
  | .vmov g d a m t => Sys2Proof.Machine.execVmov g d a m t s
  | .vcvt g d a sh e m t => Sys2Proof.Machine.execVcvt g d a sh e m t s
  | .vand g d a b m t => Sys2Proof.Machine.execVand g d a b m t s
  | .vor g d a b m t => Sys2Proof.Machine.execVor g d a b m t s
  | .vxor g d a b m t => Sys2Proof.Machine.execVxor g d a b m t s
  | .vsll g d a b m t => Sys2Proof.Machine.execVsll g d a b m t s
  | .vsrl g d a b m t => Sys2Proof.Machine.execVsrl g d a b m t s
  | .vsra g d a b m t => Sys2Proof.Machine.execVsra g d a b m t s
  | .vaddsat g d a b m t => Sys2Proof.Machine.execVaddsat g d a b m t s
  | .vcmpEq g d a b m t => Sys2Proof.Machine.execVcmpEq g d a b m t s
  | .vcmpNe g d a b m t => Sys2Proof.Machine.execVcmpNe g d a b m t s
  | .vcmpLt g d a b m t => Sys2Proof.Machine.execVcmpLt g d a b m t s
  | .vcmpLe g d a b m t => Sys2Proof.Machine.execVcmpLe g d a b m t s
  | .vsel g d a b m t => Sys2Proof.Machine.execVsel g d a b m t s
  | .mand g d a b => Sys2Proof.Machine.execMand g d a b s
  | .mor g d a b => Sys2Proof.Machine.execMor g d a b s
  | .mxor g d a b => Sys2Proof.Machine.execMxor g d a b s
  | .mnot g d a => Sys2Proof.Machine.execMnot g d a s
  | .mpop g d a => Sys2Proof.Machine.execMpop g d a s
  | .mfirst g d a => Sys2Proof.Machine.execMfirst g d a s
  | .vbcast g d a m t => Sys2Proof.Machine.execVbcast g d a m t s
  | .vperm g d a b m t => Sys2Proof.Machine.execVperm g d a b m t s
  | .vslide g d a b m t => Sys2Proof.Machine.execVslide g d a b m t s
  | .vext g d a b => Sys2Proof.Machine.execVext g d a b s
  | .vins g d a b => Sys2Proof.Machine.execVins g d a b s
  | .vredsum g d a m t => Sys2Proof.Machine.execVredsum g d a m t s
  | .vredmax g d a m t => Sys2Proof.Machine.execVredmax g d a m t s
  | .vredmin g d a m t => Sys2Proof.Machine.execVredmin g d a m t s
  | .vscan g d a m t => Sys2Proof.Machine.execVscan g d a m t s
  | .vdot g d a b m t => Sys2Proof.Machine.execVdot g d a b m t s
  | .vld g d sh o m t => Sys2Proof.Machine.execVld g d sh o m t s
  | .vst g d sh o m t => Sys2Proof.Machine.execVst g d sh o m t s
  | .vgth g d sh o m t => Sys2Proof.Machine.execVgth g d sh o m t s
  | .vsct g d sh o m t => Sys2Proof.Machine.execVsct g d sh o m t s
  | .vldm g d sh o m t => Sys2Proof.Machine.execVldm g d sh o m t s
  | .vstm g d sh o m t => Sys2Proof.Machine.execVstm g d sh o m t s
  | .vtopk g d a b k => Sys2Proof.Machine.execVtopk g d a b k s
  | .vgmax g d a b => Sys2Proof.Machine.execVgmax g d a b s
  | .vrng g d a b n => Sys2Proof.Machine.execVrng g d a b n s
  | .attg g d a b m => Sys2Proof.Machine.execAttg g d a b m s
  | .vdefer g a b => Sys2Proof.Machine.execVdefer g a b s
  | .vredeem g d b => Sys2Proof.Machine.execVredeem g d b s
  | .vpset g d a c => Sys2Proof.Machine.execVpset g d a c s
  | .vput g a => Sys2Proof.Machine.execVput g a s
  | .vputVcr g r => Sys2Proof.Machine.execVputVcr g r s
  | .nsetCount g l sh => Sys2Proof.Machine.execNsetCount g l sh s
  | .nsetSa g l sh => Sys2Proof.Machine.execNsetSa g l sh s
  | .nsetSb g l sh => Sys2Proof.Machine.execNsetSb g l sh s
  | .nsetSc g l sh => Sys2Proof.Machine.execNsetSc g l sh s
  | .nsetKind g l sh => Sys2Proof.Machine.execNsetKind g l sh s
  | .nbaseA g sh => Sys2Proof.Machine.execNbaseA g sh s
  | .nbaseB g sh => Sys2Proof.Machine.execNbaseB g sh s
  | .nbaseC g sh => Sys2Proof.Machine.execNbaseC g sh s
  | .nfmt g sh => Sys2Proof.Machine.execNfmt g sh s
  | .ngo g => Sys2Proof.Machine.execNgo g s
  | .ndrain g sh f r t b => Sys2Proof.Machine.execNdrain g sh f r t b s
  | .nzero g => Sys2Proof.Machine.execNzero g s
  | .nload g sh f => Sys2Proof.Machine.execNload g sh f s
  | .nwait g t => Sys2Proof.Machine.execNwait g t s
  | .dcp g d a b f r sh e => Sys2Proof.Machine.execDcp g d a b f r sh e s
  | .dcp2 g d a b f r sh e => Sys2Proof.Machine.execDcp2 g d a b f r sh e s
  | .dcpn g d a b f r sh e => Sys2Proof.Machine.execDcpn g d a b f r sh e s
  | .dgth g d a b f r sh e => Sys2Proof.Machine.execDgth g d a b f r sh e s
  | .dsct g d a b f r sh e => Sys2Proof.Machine.execDsct g d a b f r sh e s
  | .dfill g d a b e => Sys2Proof.Machine.execDfill g d a b e s
  | .devt g t sh => Sys2Proof.Machine.execDevt g t sh s
  | .dwin g a w => Sys2Proof.Machine.execDwin g a w s
  | .dspan g w => Sys2Proof.Machine.execDspan g w s
  | .dspanRetry g w => Sys2Proof.Machine.execDspanRetry g w s
  | .dkey g d a b w => Sys2Proof.Machine.execDkey g d a b w s
  | .dcollRs g d a b => Sys2Proof.Machine.execDcollRs g d a b s
  | .dcollAg g d a b => Sys2Proof.Machine.execDcollAg g d a b s
  | .dcollAr g d a b => Sys2Proof.Machine.execDcollAr g d a b s
  | .dcollSmax g d a b => Sys2Proof.Machine.execDcollSmax g d a b s
  | .dcollBc g d a b => Sys2Proof.Machine.execDcollBc g d a b s
  | .kvlook g d a b e => Sys2Proof.Machine.execKvlook g d a b e s
  | .kvapp g d a b e => Sys2Proof.Machine.execKvapp g d a b e s
  | .kvfork g d a b e => Sys2Proof.Machine.execKvfork g d a b e s
  | .kvforkUnshare g a b e => Sys2Proof.Machine.execKvforkUnshare g a b e s
  | .kvrel g a b e => Sys2Proof.Machine.execKvrel g a b e s
  | .kvcommit g a b e => Sys2Proof.Machine.execKvcommit g a b e s
  | .kvtrunc g a b e => Sys2Proof.Machine.execKvtrunc g a b e s
  | .kvins g d a b e => Sys2Proof.Machine.execKvins g d a b e s
  | .kvrecap g a b e => Sys2Proof.Machine.execKvrecap g a b e s
  | .capsel g d a b e => Sys2Proof.Machine.execCapsel g d a b e s
  | .capselThr g d a b e => Sys2Proof.Machine.execCapselThr g d a b e s
  | .relv g a b => Sys2Proof.Machine.execRelv g a b s
  | .trec g a b r e => Sys2Proof.Machine.execTrec g a b r e s
  | .wordStepOver g e => Sys2Proof.Machine.execWordStepOver g e s
  | .jointOutcomePop g e => Sys2Proof.Machine.execJointOutcomePop g e s
  | .operandQueuePop g e => Sys2Proof.Machine.execOperandQueuePop g e s
  | .guardResolve g e => Sys2Proof.Machine.execGuardResolve g e s
  | .icacheFill g pa => Sys2Proof.Machine.execIcacheFill g pa s
  | .taskStart g => Sys2Proof.Machine.execTaskStart g s
  | .gangStart d c => Sys2Proof.Machine.execGangStart d c s
  | .expanderEnqueue d => Sys2Proof.Machine.execExpanderEnqueue d s
  | .spillRefill d side => Sys2Proof.Machine.execSpillRefill d side s
  | .agingPromotion d side level => Sys2Proof.Machine.execAgingPromotion d side level s
  | .taskEnd g => Sys2Proof.Machine.execTaskEnd g s
  | .joinStep d => Sys2Proof.Machine.execJoinStep d s
  | .trapEntry g => Sys2Proof.Machine.execTrapEntry g s
  | .tlbWalk g va => Sys2Proof.Machine.execTlbWalk g va s
  | .tlbinvComplete g => Sys2Proof.Machine.execTlbinvComplete g s
  | .nestBodyStep g => Sys2Proof.Machine.execNestBodyStep g s
  | .nestHoldRetry g => Sys2Proof.Machine.execNestHoldRetry g s
  | .nestHoldTimeout g => Sys2Proof.Machine.execNestHoldTimeout g s
  | .nwaitPost g => Sys2Proof.Machine.execNwaitPost g s
  | .copyPieceDone g im => Sys2Proof.Machine.execCopyPieceDone g im s
  | .copyComplete g im => Sys2Proof.Machine.execCopyComplete g im s
  | .devtPost g im => Sys2Proof.Machine.execDevtPost g im s
  | .kvStep g im => Sys2Proof.Machine.execKvStep g im s
  | .attgComplete g => Sys2Proof.Machine.execAttgComplete g s
  | .adoptSwitchStep g => Sys2Proof.Machine.execAdoptSwitchStep g s
  | .relvPortStep g im => Sys2Proof.Machine.execRelvPortStep g im s
  | .trecRecordWrite g im => Sys2Proof.Machine.execTrecRecordWrite g im s
  | .routerForward im congested => Sys2Proof.Machine.execRouterForward im congested s
  | .packetAgeDiscard im => Sys2Proof.Machine.execPacketAgeDiscard im s
  | .linkFailure d1 d2 => Sys2Proof.Machine.execLinkFailure d1 d2 s
  | .windowPacketHandoff g w => Sys2Proof.Machine.execWindowPacketHandoff g w s
  | .remoteRequestArrival im => Sys2Proof.Machine.execRemoteRequestArrival im s
  | .remoteResponseArrival im => Sys2Proof.Machine.execRemoteResponseArrival im s
  | .remoteRequestTimeout g im => Sys2Proof.Machine.execRemoteRequestTimeout g im s
  | .postedWriteArrival im => Sys2Proof.Machine.execPostedWriteArrival im s
  | .countedPacketArrival im => Sys2Proof.Machine.execCountedPacketArrival im s
  | .keystoneArrival im => Sys2Proof.Machine.execKeystoneArrival im s
  | .reopenNoteArrival im => Sys2Proof.Machine.execReopenNoteArrival im s
  | .pierPtoExpiry d p => Sys2Proof.Machine.execPierPtoExpiry d p s
  | .resendRequestReceipt im => Sys2Proof.Machine.execResendRequestReceipt im s
  | .closeNoteReceipt im => Sys2Proof.Machine.execCloseNoteReceipt im s
  | .keystoneResendTimeout g w => Sys2Proof.Machine.execKeystoneResendTimeout g w s
  | .congestionNoteReceipt im => Sys2Proof.Machine.execCongestionNoteReceipt im s
  | .rateLimitRecovery d target => Sys2Proof.Machine.execRateLimitRecovery d target s
  | .dcollPacketArrival im => Sys2Proof.Machine.execDcollPacketArrival im s
  | .schedPreemptRequest d side => Sys2Proof.Machine.execSchedPreemptRequest d side s
  | .firmwarePreempt d w => Sys2Proof.Machine.execFirmwarePreempt d w s
  | .firmwareStopRelease d w => Sys2Proof.Machine.execFirmwareStopRelease d w s
  | .forcedCut g => Sys2Proof.Machine.execForcedCut g s
  | .imageSaveComplete g => Sys2Proof.Machine.execImageSaveComplete g s
  | .contextRestore g => Sys2Proof.Machine.execContextRestore g s
  | .resumeInject d w => Sys2Proof.Machine.execResumeInject d w s
  | .expqPop d => Sys2Proof.Machine.execExpqPop d s
  | .brimMoveStart d w => Sys2Proof.Machine.execBrimMoveStart d w s
  | .brimStageAdvance d => Sys2Proof.Machine.execBrimStageAdvance d s
  | .brimMoveCommit d => Sys2Proof.Machine.execBrimMoveCommit d s
  | .bmovErrClear d => Sys2Proof.Machine.execBmovErrClear d s
  | .holdWrite d w => Sys2Proof.Machine.execHoldWrite d w s
  | .firmwareCsrWrite g c w => Sys2Proof.Machine.execFirmwareCsrWrite g c w s
  | .kvrepWrite d w => Sys2Proof.Machine.execKvrepWrite d w s
  | .kvrepErrClear d => Sys2Proof.Machine.execKvrepErrClear d s
  | .tileRetire d w => Sys2Proof.Machine.execTileRetire d w s
  | .debugModeWrite d w => Sys2Proof.Machine.execDebugModeWrite d w s
  | .registerWrite d off cls w => Sys2Proof.Machine.execRegisterWrite d off cls w s
  | .hbmScrub pa => Sys2Proof.Machine.execHbmScrub pa s
  | .selftestRun d u pass => Sys2Proof.Machine.execSelftestRun d u pass s
  | .selftestForcedSlot d u => Sys2Proof.Machine.execSelftestForcedSlot d u s
  | .firmwareHaltHandling g => Sys2Proof.Machine.execFirmwareHaltHandling g s
  | .stateFuseBurn => Sys2Proof.Machine.execStateFuseBurn s
  | .debugUnlock token => Sys2Proof.Machine.execDebugUnlock token s
  | .debuggerContinue g => Sys2Proof.Machine.execDebuggerContinue g s
  | .getVersion => Sys2Proof.Machine.execGetVersion s
  | .getCapabilities => Sys2Proof.Machine.execGetCapabilities s
  | .negotiateAlgorithms => Sys2Proof.Machine.execNegotiateAlgorithms s
  | .getDigests => Sys2Proof.Machine.execGetDigests s
  | .getCertificate => Sys2Proof.Machine.execGetCertificate s
  | .challenge nonce => Sys2Proof.Machine.execChallenge nonce s
  | .getMeasurements => Sys2Proof.Machine.execGetMeasurements s
  | .fatalFreeze d => Sys2Proof.Machine.execFatalFreeze d s
  | .bar2Write off w => Sys2Proof.Machine.execBar2Write off w s
  | .bar2Read off => Sys2Proof.Machine.execBar2Read off s
  | .sqDoorbell r tail => Sys2Proof.Machine.execSqDoorbell r tail s
  | .ringEnable cq r => Sys2Proof.Machine.execRingEnable cq r s
  | .ringDisable cq r => Sys2Proof.Machine.execRingDisable cq r s
  | .cqHeadWrite r head => Sys2Proof.Machine.execCqHeadWrite r head s
  | .submissionEntryTake r => Sys2Proof.Machine.execSubmissionEntryTake r s
  | .nop r => Sys2Proof.Machine.execNop r s
  | .launch r => Sys2Proof.Machine.execLaunch r s
  | .seal r => Sys2Proof.Machine.execSeal r s
  | .unseal r => Sys2Proof.Machine.execUnseal r s
  | .unknownCommand r => Sys2Proof.Machine.execUnknownCommand r s
  | .msixMessage r => Sys2Proof.Machine.execMsixMessage r s
  | .reset => Sys2Proof.Machine.execReset s
  | .bringupStageEnd ok die => Sys2Proof.Machine.execBringupStageEnd ok die s
  | .jtagBypass => Sys2Proof.Machine.execJtagBypass s
  | .jtagIdcode => Sys2Proof.Machine.execJtagIdcode s
  | .jtagSamplePreload => Sys2Proof.Machine.execJtagSamplePreload s
  | .jtagExtest => Sys2Proof.Machine.execJtagExtest s
  | .thermalSample d temp => Sys2Proof.Machine.execThermalSample d temp s
  | .dieRetentionEnter d => Sys2Proof.Machine.execDieRetentionEnter d s
  | .dieRetentionExit d => Sys2Proof.Machine.execDieRetentionExit d s
  | .packageStandbyEnter => Sys2Proof.Machine.execPackageStandbyEnter s
  | .packageStandbyExit => Sys2Proof.Machine.execPackageStandbyExit s
  | .dspanSpacingExpiry g w => Sys2Proof.Machine.execDspanSpacingExpiry g w s
  | .configurationRequest reg => Sys2Proof.Machine.execConfigurationRequest reg s

end Sys2Proof.Machine
end

