-- ==== Sys2Proof/Machine/Place.lean ====
section
/-!
DEFINITION. A state in which a given word is what the next step fetches and runs (log 12): tile 0 of die 0 runs a task whose
page, tables and memory hold the word, and the engine the word belongs to is the one that moves.
-/

namespace Sys2Proof.Machine

/-- The address at which the word is placed. -/
def placeAddr : BitVec 64 := 0x1000#64

/-- The page that holds it: 16 KiB from address 0, mapped to itself, uncached, with every right on both sides. -/
def placePage (learner : Bool) : TlbEntry := ⟨0, 2 ^ 14, 0, 0, true, true, true, true, true, learner⟩

/-- Tile 0 at the word. -/
def placeTile (e : Eng) (t : Tile) : Tile :=
  let here : Engine := ⟨placeAddr, 0, none⟩
  let past : Engine := ⟨placeAddr + 4#64, 1, none⟩
  { t with
    run := .running, level := .task, cut := none, late := none, icache := [],
    eS := if e = .S then here else past, eV := here, eM := here, eD := here,
    tlb := tlbFill (placePage t.side) t.tlb,
    task := some ((t.task).getD ⟨⟨placeAddr, 0#64, 0#64, 0#64⟩, none, 0, 0⟩) }

/-- Die 0's tables with a region from address 0 in which every class has every right, and every slice right, and its translation on. -/
def placeTables (s : State) : State :=
  let s := s.setDieReg 0 0x0 (s.dieReg 0 0x0 ||| 1#64)
  let s := s.setDieReg 0 0x8 (s.dieReg 0 0x8 ||| 1#64)
  let s := s.setDieReg 0 0x18 0#64
  let s := s.setDieReg 0 0x1000 1#64
  let s := s.setDieReg 0 0x1008 0xFFFF#64
  let s := s.setDieReg 0 0x1010 0xFFFFFFFFFFFF#64
  let s := s.setDieReg 0 0x1800 3#64
  s.setDieReg 0 0x1808 3#64

/-- Place a word so that the next step fetches and runs it. -/
def placeWord (s : State) (w : BitVec 32) : State :=
  let e := wordEngine w
  let s := placeTables { s with cur := 0, agenda := [.engine 0 e], frozen := false, fatal := false }
  let s := s.setTileAt 0 (placeTile e (s.tileAt 0))
  { s with mem := s.mem.write placeAddr.toNat (gloved (w.setWidth 64)) }

end Sys2Proof.Machine
end

