-- ==== Sys2Proof/Machine/Policy.lean ====
section
/-!
DEFINITION. The fixed policy (log 2): which of the package's possible moves a step makes when its agenda is empty. The spec
leaves the interleaving open; every interleaving is an agenda.
-/

namespace Sys2Proof.Machine

/-- A move the package makes: what it comes to on a state. -/
abbrev Act := State → Host.Outcome State Fault Refusal

/-- Perform a move: an engine's next word, or a step of a unit, of firmware or of the host (log 2). -/
def perform (m : Move) (s : State) : Host.Outcome State Fault Refusal :=
  match planMove m s with
  | .run i s => exec i s
  | .done o => o

/-- Steps of a D command in flight. -/
def cmdMoves (g i : Nat) (k : DKind) : List Act :=
  match k with
  | .copy _ => [execCopyPieceDone g i, execCopyComplete g i]
  | .gather => [execCopyPieceDone g i, execCopyComplete g i]
  | .scatter => [execCopyPieceDone g i, execCopyComplete g i]
  | .fill => [execCopyPieceDone g i, execCopyComplete g i]
  | .devt _ => [execDevtPost g i]
  | .kv _ _ => [execKvStep g i]
  | .relv => [execRelvPortStep g i]
  | .trec _ => [execTrecRecordWrite g i]
  | .key _ => []
  | .coll _ => []

/-- Work under way on a tile, apart from its engines. -/
def workMoves (g : Nat) (t : Tile) : List Act :=
  (if t.late.isSome then [execTrapEntry g] else []) ++
  (if t.nest.isSome then [execNestHoldRetry g, execNestBodyStep g] else []) ++
  (if t.nwaits.isEmpty then [] else [execNwaitPost g]) ++
  ((List.range t.dcmds.length).zip t.dcmds).flatMap (fun p => cmdMoves g p.1 p.2.kind) ++
  (if t.attg.isSome then [execAttgComplete g] else []) ++
  (if t.adoptWait.isSome then [execAdoptSwitchStep g] else []) ++
  (if t.tlbinvs.isEmpty then [] else [execTlbinvComplete g]) ++
  (t.wins.filter fun p => !p.2.outq.isEmpty).map (fun p => execWindowPacketHandoff g p.1) ++
  (if t.resuming.isSome then [execContextRestore g] else []) ++
  (match t.spanWait with | some p => [execDspanSpacingExpiry g p.1] | none => []) ++
  (if t.ending then [execTaskEnd g] else []) ++
  (if t.cut.isSome then [execImageSaveComplete g] else []) ++
  (if t.run = .halted then [execFirmwareHaltHandling g] else [])

/-- The moves of one tile. -/
def tileMoves (g : Nat) (t : Tile) : List Act :=
  workMoves g t ++ (if t.runs then [Eng.V, .M, .D, .S].map fun e => perform (.engine g e) else [])

/-- A tile pops a record: the idle tiles of a die in turn, its gangs first. -/
def startMoves (d : Nat) : List Act :=
  (List.range 4).map (fun c => execGangStart d c) ++
  (List.range 16).flatMap fun k => [execContextRestore (16 * d + k), execTaskStart (16 * d + k)]

/-- The moves of one die. -/
def dieMoves (d : Nat) (x : Die) : List Act :=
  (if x.joins.isEmpty then [] else [execJoinStep d]) ++ (if x.launches.isEmpty then [] else [execExpanderEnqueue d]) ++
  (if x.spills.isEmpty then [] else [execSpillRefill d false, execSpillRefill d true]) ++
  (if x.units.isEmpty ∧ x.spills.isEmpty then []
   else startMoves d ++ [1, 2, 3].flatMap fun l => [execAgingPromotion d false l, execAgingPromotion d true l])

/-- What becomes of a packet: it goes on, or it arrives. -/
def netMoves (i : Nat) (p : Packet) : List Act :=
  if p.loc ≠ p.dst then [execRouterForward i false]
  else
    match p.body with
    | .request .. => [execRemoteRequestArrival i]
    | .response .. => [execRemoteResponseArrival i]
    | .posted _ _ _ _ c => if c.isSome then [execCountedPacketArrival i] else [execPostedWriteArrival i]
    | .keystone .. => [execKeystoneArrival i]
    | .closeNote .. => [execCloseNoteReceipt i]
    | .resend .. => [execResendRequestReceipt i]
    | .reopen .. => [execReopenNoteArrival i]
    | .congestion _ => [execCongestionNoteReceipt i]
    | .coll _ => [execDcollPacketArrival i]

/-- Host commands: the rings that are enabled, and the entries taken. -/
def hostMoves (s : State) : List Act :=
  ((List.range 16).filter fun r => bit (s.dieReg 0 (0x40100 + 0x40 * r + 0x20)) 0).map (fun r => execSubmissionEntryTake r) ++
  s.host.taken.flatMap fun p => [execNop p.1, execLaunch p.1, execSeal p.1, execUnseal p.1, execUnknownCommand p.1]

/-- Bring-up goes on by itself. -/
def bootMoves (s : State) : List Act :=
  let st := bits (s.dieReg 0 0x40000) 3 0
  if st = 0 then (if s.jtag = .extest then [] else [execReset])
  else if st < 9 ∧ bits (s.dieReg 0 0x40000) 47 32 = 0 then
    (24 :: (List.range 24).filter fun d => decide ((s.dieAt d).stage < 9)).map (execBringupStageEnd true)
  else []

/-- All the moves the package might make without the passing of a deadline. -/
def candidates (s : State) : List Act :=
  bootMoves s ++ (if s.fatal ∧ ¬ s.frozen then (List.range 24).map execFatalFreeze else []) ++ hostMoves s ++
  s.tiles.flatMap (fun p => tileMoves p.1 p.2) ++ s.dies.flatMap (fun p => dieMoves p.1 p.2) ++
  ((List.range s.net.length).zip s.net).flatMap fun p => netMoves p.1 p.2

/-- The move the policy makes, with its turn counter advanced; none where nothing can move. -/
def policyMove (s : State) : Host.Outcome State Fault Refusal :=
  let l := candidates s
  match l[s.rr % l.length]? with
  | some f => f { s with rr := s.rr + 1 }
  | none => .next s

end Sys2Proof.Machine
end

