-- ==== Sys2Proof/Machine/Step.lean ====
section
/-!
DEFINITION. One step of the package.
-/

namespace Sys2Proof.Machine

/-- Perform the move at the head of the agenda, or the policy's where the agenda is empty (log 2). -/
def step (s : State) : Host.Outcome State Fault Refusal :=
  match s.agenda with
  | m :: rest => perform m { s with agenda := rest }
  | [] => policyMove s

/-- `s` with a word placed where the next step fetches (log 12). -/
def State.withFetchWord (s : State) (_nbits w : Nat) : State := placeWord s (BitVec.ofNat 32 w)

end Sys2Proof.Machine
end

