-- ==== Sys2Proof/Laws/PerInstr.lean ====
section
/-!
SUPPORT. One lemma for each row of the table: the decoder reads the encoder's word back (R114 to R123).
-/

set_option linter.unusedSimpArgs false

namespace Sys2Proof.Laws

/-- Every legal instruction with a word is what its word decodes to. -/
def Encoding.Statement (i : Instr) : Prop := i.wellFormed = true → ∀ w, encode i = some w → decode w = .ok i

/-- A field above the lower part of a concatenation. -/
theorem Encoding.ex_hi {v w : Nat} (x : BitVec v) (y : BitVec w) (s l : Nat) (h : w ≤ s) :
    @BitVec.extractLsb' (v + w) s l (x ++ y) = x.extractLsb' (s - w) l := BitVec.extractLsb'_append_eq_of_le h

/-- A field within the lower part. -/
theorem Encoding.ex_lo {v w : Nat} (x : BitVec v) (y : BitVec w) (s l : Nat) (h : s + l ≤ w) :
    @BitVec.extractLsb' (v + w) s l (x ++ y) = y.extractLsb' s l := BitVec.extractLsb'_append_eq_of_add_le h

/-- The whole of a field. -/
theorem Encoding.ex_all {n : Nat} (x : BitVec n) : x.extractLsb' 0 n = x := by simp

/-- The function code of `fence.drain` holds ordering 5. -/
theorem Encoding.drain_order {w : BitVec 32} (h : w.extractLsb' 0 6 = 44#6) : w.extractLsb' 3 3 = 5#3 := by
  have e : w.extractLsb' 3 3 = (w.extractLsb' 0 6).extractLsb' 3 3 := by
    ext i hi
    simp only [BitVec.getElem_extractLsb', BitVec.getLsbD_extractLsb']
    have : 3 + i < 6 := by omega
    simp [this]
  rw [e, h]; rfl

/-- A word whose bit 5 is set does not hold 0 in its low six bits. -/
theorem Encoding.low_six {w : BitVec 32} (h : w.extractLsb' 5 1 = 1#1) : ¬ w.extractLsb' 0 6 = 0#6 := by
  intro q
  have e : w.extractLsb' 5 1 = (w.extractLsb' 0 6).extractLsb' 5 1 := by
    ext i hi
    simp only [BitVec.getElem_extractLsb', BitVec.getLsbD_extractLsb']
    have : 5 + i < 6 := by omega
    simp [this]
  rw [e, q] at h
  exact absurd h (by decide)

/-- A word with the tag of S is read by S's layout. -/
theorem Encoding.decS {w : BitVec 32} {i : Instr} (hw : i.wellFormed = true) (h : (w.extractLsb' 30 2).toNat = 0)
    (h2 : decodeS w = .ok i) : decode w = .ok i := by
  simp only [decode, decodeFields, wordEngine, h, h2, hw, if_true]

/-- A word with the tag of V is read by V's layout. -/
theorem Encoding.decV {w : BitVec 32} {i : Instr} (hw : i.wellFormed = true) (h : (w.extractLsb' 30 2).toNat = 1)
    (h2 : decodeV w = .ok i) : decode w = .ok i := by
  simp only [decode, decodeFields, wordEngine, h, h2, hw, if_true]

/-- A word with the tag of M is read by M's layout. -/
theorem Encoding.decM {w : BitVec 32} {i : Instr} (hw : i.wellFormed = true) (h : (w.extractLsb' 30 2).toNat = 2)
    (h2 : decodeM w = .ok i) : decode w = .ok i := by
  simp only [decode, decodeFields, wordEngine, h, h2, hw, if_true]

/-- A word with the tag of D is read by D's layout. -/
theorem Encoding.decD {w : BitVec 32} {i : Instr} (hw : i.wellFormed = true) (h : (w.extractLsb' 30 2).toNat = 3)
    (h2 : decodeD w = .ok i) : decode w = .ok i := by
  simp only [decode, decodeFields, wordEngine, h, h2, hw, if_true]

/-- ADD (R133). -/
theorem Encoding.add (d a b : BitVec 6) : Statement (.add d a b) := by
  intro hw w h
  cases h
  generalize hx : (0x0#8 ++ d ++ a ++ b ++ 0x0#6 : BitVec 32) = x
  have ⟨hE, h1, h2, f0, f1, f2⟩ : (x.extractLsb' 30 2).toNat = 0 ∧ (x.extractLsb' 24 6).toNat = 0 ∧
      (x.extractLsb' 0 6).toNat = 0 ∧ x.extractLsb' 18 6 = d ∧ x.extractLsb' 12 6 = a ∧ x.extractLsb' 6 6 = b := by
    subst hx; simp (disch := decide) only [ex_hi, ex_lo, ex_all, Nat.reduceSub, BitVec.reduceExtractLsb', BitVec.reduceToNat, and_self]
  exact decS hw hE (by unfold decodeS; rw [h1, h2, f0, f1, f2]; exact rfl)

/-- SUB (R133). -/
theorem Encoding.sub (d a b : BitVec 6) : Statement (.sub d a b) := by
  intro hw w h
  cases h
  generalize hx : (0x0#8 ++ d ++ a ++ b ++ 0x1#6 : BitVec 32) = x
  have ⟨hE, h1, h2, f0, f1, f2⟩ : (x.extractLsb' 30 2).toNat = 0 ∧ (x.extractLsb' 24 6).toNat = 0 ∧
      (x.extractLsb' 0 6).toNat = 1 ∧ x.extractLsb' 18 6 = d ∧ x.extractLsb' 12 6 = a ∧ x.extractLsb' 6 6 = b := by
    subst hx; simp (disch := decide) only [ex_hi, ex_lo, ex_all, Nat.reduceSub, BitVec.reduceExtractLsb', BitVec.reduceToNat, and_self]
  exact decS hw hE (by unfold decodeS; rw [h1, h2, f0, f1, f2]; exact rfl)

/-- AND (R133). -/
theorem Encoding.and (d a b : BitVec 6) : Statement (.and d a b) := by
  intro hw w h
  cases h
  generalize hx : (0x0#8 ++ d ++ a ++ b ++ 0x2#6 : BitVec 32) = x
  have ⟨hE, h1, h2, f0, f1, f2⟩ : (x.extractLsb' 30 2).toNat = 0 ∧ (x.extractLsb' 24 6).toNat = 0 ∧
      (x.extractLsb' 0 6).toNat = 2 ∧ x.extractLsb' 18 6 = d ∧ x.extractLsb' 12 6 = a ∧ x.extractLsb' 6 6 = b := by
    subst hx; simp (disch := decide) only [ex_hi, ex_lo, ex_all, Nat.reduceSub, BitVec.reduceExtractLsb', BitVec.reduceToNat, and_self]
  exact decS hw hE (by unfold decodeS; rw [h1, h2, f0, f1, f2]; exact rfl)

/-- OR (R133). -/
theorem Encoding.or (d a b : BitVec 6) : Statement (.or d a b) := by
  intro hw w h
  cases h
  generalize hx : (0x0#8 ++ d ++ a ++ b ++ 0x3#6 : BitVec 32) = x
  have ⟨hE, h1, h2, f0, f1, f2⟩ : (x.extractLsb' 30 2).toNat = 0 ∧ (x.extractLsb' 24 6).toNat = 0 ∧
      (x.extractLsb' 0 6).toNat = 3 ∧ x.extractLsb' 18 6 = d ∧ x.extractLsb' 12 6 = a ∧ x.extractLsb' 6 6 = b := by
    subst hx; simp (disch := decide) only [ex_hi, ex_lo, ex_all, Nat.reduceSub, BitVec.reduceExtractLsb', BitVec.reduceToNat, and_self]
  exact decS hw hE (by unfold decodeS; rw [h1, h2, f0, f1, f2]; exact rfl)

/-- XOR (R133). -/
theorem Encoding.xor (d a b : BitVec 6) : Statement (.xor d a b) := by
  intro hw w h
  cases h
  generalize hx : (0x0#8 ++ d ++ a ++ b ++ 0x4#6 : BitVec 32) = x
  have ⟨hE, h1, h2, f0, f1, f2⟩ : (x.extractLsb' 30 2).toNat = 0 ∧ (x.extractLsb' 24 6).toNat = 0 ∧
      (x.extractLsb' 0 6).toNat = 4 ∧ x.extractLsb' 18 6 = d ∧ x.extractLsb' 12 6 = a ∧ x.extractLsb' 6 6 = b := by
    subst hx; simp (disch := decide) only [ex_hi, ex_lo, ex_all, Nat.reduceSub, BitVec.reduceExtractLsb', BitVec.reduceToNat, and_self]
  exact decS hw hE (by unfold decodeS; rw [h1, h2, f0, f1, f2]; exact rfl)

/-- ANDN (R133). -/
theorem Encoding.andn (d a b : BitVec 6) : Statement (.andn d a b) := by
  intro hw w h
  cases h
  generalize hx : (0x0#8 ++ d ++ a ++ b ++ 0x5#6 : BitVec 32) = x
  have ⟨hE, h1, h2, f0, f1, f2⟩ : (x.extractLsb' 30 2).toNat = 0 ∧ (x.extractLsb' 24 6).toNat = 0 ∧
      (x.extractLsb' 0 6).toNat = 5 ∧ x.extractLsb' 18 6 = d ∧ x.extractLsb' 12 6 = a ∧ x.extractLsb' 6 6 = b := by
    subst hx; simp (disch := decide) only [ex_hi, ex_lo, ex_all, Nat.reduceSub, BitVec.reduceExtractLsb', BitVec.reduceToNat, and_self]
  exact decS hw hE (by unfold decodeS; rw [h1, h2, f0, f1, f2]; exact rfl)

/-- ORN (R133). -/
theorem Encoding.orn (d a b : BitVec 6) : Statement (.orn d a b) := by
  intro hw w h
  cases h
  generalize hx : (0x0#8 ++ d ++ a ++ b ++ 0x6#6 : BitVec 32) = x
  have ⟨hE, h1, h2, f0, f1, f2⟩ : (x.extractLsb' 30 2).toNat = 0 ∧ (x.extractLsb' 24 6).toNat = 0 ∧
      (x.extractLsb' 0 6).toNat = 6 ∧ x.extractLsb' 18 6 = d ∧ x.extractLsb' 12 6 = a ∧ x.extractLsb' 6 6 = b := by
    subst hx; simp (disch := decide) only [ex_hi, ex_lo, ex_all, Nat.reduceSub, BitVec.reduceExtractLsb', BitVec.reduceToNat, and_self]
  exact decS hw hE (by unfold decodeS; rw [h1, h2, f0, f1, f2]; exact rfl)

/-- SLL (R133). -/
theorem Encoding.sll (d a b : BitVec 6) : Statement (.sll d a b) := by
  intro hw w h
  cases h
  generalize hx : (0x0#8 ++ d ++ a ++ b ++ 0x7#6 : BitVec 32) = x
  have ⟨hE, h1, h2, f0, f1, f2⟩ : (x.extractLsb' 30 2).toNat = 0 ∧ (x.extractLsb' 24 6).toNat = 0 ∧
      (x.extractLsb' 0 6).toNat = 7 ∧ x.extractLsb' 18 6 = d ∧ x.extractLsb' 12 6 = a ∧ x.extractLsb' 6 6 = b := by
    subst hx; simp (disch := decide) only [ex_hi, ex_lo, ex_all, Nat.reduceSub, BitVec.reduceExtractLsb', BitVec.reduceToNat, and_self]
  exact decS hw hE (by unfold decodeS; rw [h1, h2, f0, f1, f2]; exact rfl)

/-- SRL (R133). -/
theorem Encoding.srl (d a b : BitVec 6) : Statement (.srl d a b) := by
  intro hw w h
  cases h
  generalize hx : (0x0#8 ++ d ++ a ++ b ++ 0x8#6 : BitVec 32) = x
  have ⟨hE, h1, h2, f0, f1, f2⟩ : (x.extractLsb' 30 2).toNat = 0 ∧ (x.extractLsb' 24 6).toNat = 0 ∧
      (x.extractLsb' 0 6).toNat = 8 ∧ x.extractLsb' 18 6 = d ∧ x.extractLsb' 12 6 = a ∧ x.extractLsb' 6 6 = b := by
    subst hx; simp (disch := decide) only [ex_hi, ex_lo, ex_all, Nat.reduceSub, BitVec.reduceExtractLsb', BitVec.reduceToNat, and_self]
  exact decS hw hE (by unfold decodeS; rw [h1, h2, f0, f1, f2]; exact rfl)

/-- SRA (R133). -/
theorem Encoding.sra (d a b : BitVec 6) : Statement (.sra d a b) := by
  intro hw w h
  cases h
  generalize hx : (0x0#8 ++ d ++ a ++ b ++ 0x9#6 : BitVec 32) = x
  have ⟨hE, h1, h2, f0, f1, f2⟩ : (x.extractLsb' 30 2).toNat = 0 ∧ (x.extractLsb' 24 6).toNat = 0 ∧
      (x.extractLsb' 0 6).toNat = 9 ∧ x.extractLsb' 18 6 = d ∧ x.extractLsb' 12 6 = a ∧ x.extractLsb' 6 6 = b := by
    subst hx; simp (disch := decide) only [ex_hi, ex_lo, ex_all, Nat.reduceSub, BitVec.reduceExtractLsb', BitVec.reduceToNat, and_self]
  exact decS hw hE (by unfold decodeS; rw [h1, h2, f0, f1, f2]; exact rfl)

/-- ROTL (R133). -/
theorem Encoding.rotl (d a b : BitVec 6) : Statement (.rotl d a b) := by
  intro hw w h
  cases h
  generalize hx : (0x0#8 ++ d ++ a ++ b ++ 0xA#6 : BitVec 32) = x
  have ⟨hE, h1, h2, f0, f1, f2⟩ : (x.extractLsb' 30 2).toNat = 0 ∧ (x.extractLsb' 24 6).toNat = 0 ∧
      (x.extractLsb' 0 6).toNat = 10 ∧ x.extractLsb' 18 6 = d ∧ x.extractLsb' 12 6 = a ∧ x.extractLsb' 6 6 = b := by
    subst hx; simp (disch := decide) only [ex_hi, ex_lo, ex_all, Nat.reduceSub, BitVec.reduceExtractLsb', BitVec.reduceToNat, and_self]
  exact decS hw hE (by unfold decodeS; rw [h1, h2, f0, f1, f2]; exact rfl)

/-- ROTR (R133). -/
theorem Encoding.rotr (d a b : BitVec 6) : Statement (.rotr d a b) := by
  intro hw w h
  cases h
  generalize hx : (0x0#8 ++ d ++ a ++ b ++ 0xB#6 : BitVec 32) = x
  have ⟨hE, h1, h2, f0, f1, f2⟩ : (x.extractLsb' 30 2).toNat = 0 ∧ (x.extractLsb' 24 6).toNat = 0 ∧
      (x.extractLsb' 0 6).toNat = 11 ∧ x.extractLsb' 18 6 = d ∧ x.extractLsb' 12 6 = a ∧ x.extractLsb' 6 6 = b := by
    subst hx; simp (disch := decide) only [ex_hi, ex_lo, ex_all, Nat.reduceSub, BitVec.reduceExtractLsb', BitVec.reduceToNat, and_self]
  exact decS hw hE (by unfold decodeS; rw [h1, h2, f0, f1, f2]; exact rfl)

/-- SLT (R133). -/
theorem Encoding.slt (d a b : BitVec 6) : Statement (.slt d a b) := by
  intro hw w h
  cases h
  generalize hx : (0x0#8 ++ d ++ a ++ b ++ 0xC#6 : BitVec 32) = x
  have ⟨hE, h1, h2, f0, f1, f2⟩ : (x.extractLsb' 30 2).toNat = 0 ∧ (x.extractLsb' 24 6).toNat = 0 ∧
      (x.extractLsb' 0 6).toNat = 12 ∧ x.extractLsb' 18 6 = d ∧ x.extractLsb' 12 6 = a ∧ x.extractLsb' 6 6 = b := by
    subst hx; simp (disch := decide) only [ex_hi, ex_lo, ex_all, Nat.reduceSub, BitVec.reduceExtractLsb', BitVec.reduceToNat, and_self]
  exact decS hw hE (by unfold decodeS; rw [h1, h2, f0, f1, f2]; exact rfl)

/-- SLTU (R133). -/
theorem Encoding.sltu (d a b : BitVec 6) : Statement (.sltu d a b) := by
  intro hw w h
  cases h
  generalize hx : (0x0#8 ++ d ++ a ++ b ++ 0xD#6 : BitVec 32) = x
  have ⟨hE, h1, h2, f0, f1, f2⟩ : (x.extractLsb' 30 2).toNat = 0 ∧ (x.extractLsb' 24 6).toNat = 0 ∧
      (x.extractLsb' 0 6).toNat = 13 ∧ x.extractLsb' 18 6 = d ∧ x.extractLsb' 12 6 = a ∧ x.extractLsb' 6 6 = b := by
    subst hx; simp (disch := decide) only [ex_hi, ex_lo, ex_all, Nat.reduceSub, BitVec.reduceExtractLsb', BitVec.reduceToNat, and_self]
  exact decS hw hE (by unfold decodeS; rw [h1, h2, f0, f1, f2]; exact rfl)

/-- MIN (R133). -/
theorem Encoding.min (d a b : BitVec 6) : Statement (.min d a b) := by
  intro hw w h
  cases h
  generalize hx : (0x0#8 ++ d ++ a ++ b ++ 0xE#6 : BitVec 32) = x
  have ⟨hE, h1, h2, f0, f1, f2⟩ : (x.extractLsb' 30 2).toNat = 0 ∧ (x.extractLsb' 24 6).toNat = 0 ∧
      (x.extractLsb' 0 6).toNat = 14 ∧ x.extractLsb' 18 6 = d ∧ x.extractLsb' 12 6 = a ∧ x.extractLsb' 6 6 = b := by
    subst hx; simp (disch := decide) only [ex_hi, ex_lo, ex_all, Nat.reduceSub, BitVec.reduceExtractLsb', BitVec.reduceToNat, and_self]
  exact decS hw hE (by unfold decodeS; rw [h1, h2, f0, f1, f2]; exact rfl)

/-- MAX (R133). -/
theorem Encoding.max (d a b : BitVec 6) : Statement (.max d a b) := by
  intro hw w h
  cases h
  generalize hx : (0x0#8 ++ d ++ a ++ b ++ 0xF#6 : BitVec 32) = x
  have ⟨hE, h1, h2, f0, f1, f2⟩ : (x.extractLsb' 30 2).toNat = 0 ∧ (x.extractLsb' 24 6).toNat = 0 ∧
      (x.extractLsb' 0 6).toNat = 15 ∧ x.extractLsb' 18 6 = d ∧ x.extractLsb' 12 6 = a ∧ x.extractLsb' 6 6 = b := by
    subst hx; simp (disch := decide) only [ex_hi, ex_lo, ex_all, Nat.reduceSub, BitVec.reduceExtractLsb', BitVec.reduceToNat, and_self]
  exact decS hw hE (by unfold decodeS; rw [h1, h2, f0, f1, f2]; exact rfl)

/-- MINU (R133). -/
theorem Encoding.minu (d a b : BitVec 6) : Statement (.minu d a b) := by
  intro hw w h
  cases h
  generalize hx : (0x0#8 ++ d ++ a ++ b ++ 0x10#6 : BitVec 32) = x
  have ⟨hE, h1, h2, f0, f1, f2⟩ : (x.extractLsb' 30 2).toNat = 0 ∧ (x.extractLsb' 24 6).toNat = 0 ∧
      (x.extractLsb' 0 6).toNat = 16 ∧ x.extractLsb' 18 6 = d ∧ x.extractLsb' 12 6 = a ∧ x.extractLsb' 6 6 = b := by
    subst hx; simp (disch := decide) only [ex_hi, ex_lo, ex_all, Nat.reduceSub, BitVec.reduceExtractLsb', BitVec.reduceToNat, and_self]
  exact decS hw hE (by unfold decodeS; rw [h1, h2, f0, f1, f2]; exact rfl)

/-- MAXU (R133). -/
theorem Encoding.maxu (d a b : BitVec 6) : Statement (.maxu d a b) := by
  intro hw w h
  cases h
  generalize hx : (0x0#8 ++ d ++ a ++ b ++ 0x11#6 : BitVec 32) = x
  have ⟨hE, h1, h2, f0, f1, f2⟩ : (x.extractLsb' 30 2).toNat = 0 ∧ (x.extractLsb' 24 6).toNat = 0 ∧
      (x.extractLsb' 0 6).toNat = 17 ∧ x.extractLsb' 18 6 = d ∧ x.extractLsb' 12 6 = a ∧ x.extractLsb' 6 6 = b := by
    subst hx; simp (disch := decide) only [ex_hi, ex_lo, ex_all, Nat.reduceSub, BitVec.reduceExtractLsb', BitVec.reduceToNat, and_self]
  exact decS hw hE (by unfold decodeS; rw [h1, h2, f0, f1, f2]; exact rfl)

/-- MUL (R133). -/
theorem Encoding.mul (d a b : BitVec 6) : Statement (.mul d a b) := by
  intro hw w h
  cases h
  generalize hx : (0x0#8 ++ d ++ a ++ b ++ 0x12#6 : BitVec 32) = x
  have ⟨hE, h1, h2, f0, f1, f2⟩ : (x.extractLsb' 30 2).toNat = 0 ∧ (x.extractLsb' 24 6).toNat = 0 ∧
      (x.extractLsb' 0 6).toNat = 18 ∧ x.extractLsb' 18 6 = d ∧ x.extractLsb' 12 6 = a ∧ x.extractLsb' 6 6 = b := by
    subst hx; simp (disch := decide) only [ex_hi, ex_lo, ex_all, Nat.reduceSub, BitVec.reduceExtractLsb', BitVec.reduceToNat, and_self]
  exact decS hw hE (by unfold decodeS; rw [h1, h2, f0, f1, f2]; exact rfl)

/-- MULH (R133). -/
theorem Encoding.mulh (d a b : BitVec 6) : Statement (.mulh d a b) := by
  intro hw w h
  cases h
  generalize hx : (0x0#8 ++ d ++ a ++ b ++ 0x13#6 : BitVec 32) = x
  have ⟨hE, h1, h2, f0, f1, f2⟩ : (x.extractLsb' 30 2).toNat = 0 ∧ (x.extractLsb' 24 6).toNat = 0 ∧
      (x.extractLsb' 0 6).toNat = 19 ∧ x.extractLsb' 18 6 = d ∧ x.extractLsb' 12 6 = a ∧ x.extractLsb' 6 6 = b := by
    subst hx; simp (disch := decide) only [ex_hi, ex_lo, ex_all, Nat.reduceSub, BitVec.reduceExtractLsb', BitVec.reduceToNat, and_self]
  exact decS hw hE (by unfold decodeS; rw [h1, h2, f0, f1, f2]; exact rfl)

/-- MULHU (R133). -/
theorem Encoding.mulhu (d a b : BitVec 6) : Statement (.mulhu d a b) := by
  intro hw w h
  cases h
  generalize hx : (0x0#8 ++ d ++ a ++ b ++ 0x14#6 : BitVec 32) = x
  have ⟨hE, h1, h2, f0, f1, f2⟩ : (x.extractLsb' 30 2).toNat = 0 ∧ (x.extractLsb' 24 6).toNat = 0 ∧
      (x.extractLsb' 0 6).toNat = 20 ∧ x.extractLsb' 18 6 = d ∧ x.extractLsb' 12 6 = a ∧ x.extractLsb' 6 6 = b := by
    subst hx; simp (disch := decide) only [ex_hi, ex_lo, ex_all, Nat.reduceSub, BitVec.reduceExtractLsb', BitVec.reduceToNat, and_self]
  exact decS hw hE (by unfold decodeS; rw [h1, h2, f0, f1, f2]; exact rfl)

/-- DIV (R134). -/
theorem Encoding.div (d a b : BitVec 6) : Statement (.div d a b) := by
  intro hw w h
  cases h
  generalize hx : (0x0#8 ++ d ++ a ++ b ++ 0x15#6 : BitVec 32) = x
  have ⟨hE, h1, h2, f0, f1, f2⟩ : (x.extractLsb' 30 2).toNat = 0 ∧ (x.extractLsb' 24 6).toNat = 0 ∧
      (x.extractLsb' 0 6).toNat = 21 ∧ x.extractLsb' 18 6 = d ∧ x.extractLsb' 12 6 = a ∧ x.extractLsb' 6 6 = b := by
    subst hx; simp (disch := decide) only [ex_hi, ex_lo, ex_all, Nat.reduceSub, BitVec.reduceExtractLsb', BitVec.reduceToNat, and_self]
  exact decS hw hE (by unfold decodeS; rw [h1, h2, f0, f1, f2]; exact rfl)

/-- DIVU (R134). -/
theorem Encoding.divu (d a b : BitVec 6) : Statement (.divu d a b) := by
  intro hw w h
  cases h
  generalize hx : (0x0#8 ++ d ++ a ++ b ++ 0x16#6 : BitVec 32) = x
  have ⟨hE, h1, h2, f0, f1, f2⟩ : (x.extractLsb' 30 2).toNat = 0 ∧ (x.extractLsb' 24 6).toNat = 0 ∧
      (x.extractLsb' 0 6).toNat = 22 ∧ x.extractLsb' 18 6 = d ∧ x.extractLsb' 12 6 = a ∧ x.extractLsb' 6 6 = b := by
    subst hx; simp (disch := decide) only [ex_hi, ex_lo, ex_all, Nat.reduceSub, BitVec.reduceExtractLsb', BitVec.reduceToNat, and_self]
  exact decS hw hE (by unfold decodeS; rw [h1, h2, f0, f1, f2]; exact rfl)

/-- REM (R134). -/
theorem Encoding.rem (d a b : BitVec 6) : Statement (.rem d a b) := by
  intro hw w h
  cases h
  generalize hx : (0x0#8 ++ d ++ a ++ b ++ 0x17#6 : BitVec 32) = x
  have ⟨hE, h1, h2, f0, f1, f2⟩ : (x.extractLsb' 30 2).toNat = 0 ∧ (x.extractLsb' 24 6).toNat = 0 ∧
      (x.extractLsb' 0 6).toNat = 23 ∧ x.extractLsb' 18 6 = d ∧ x.extractLsb' 12 6 = a ∧ x.extractLsb' 6 6 = b := by
    subst hx; simp (disch := decide) only [ex_hi, ex_lo, ex_all, Nat.reduceSub, BitVec.reduceExtractLsb', BitVec.reduceToNat, and_self]
  exact decS hw hE (by unfold decodeS; rw [h1, h2, f0, f1, f2]; exact rfl)

/-- REMU (R134). -/
theorem Encoding.remu (d a b : BitVec 6) : Statement (.remu d a b) := by
  intro hw w h
  cases h
  generalize hx : (0x0#8 ++ d ++ a ++ b ++ 0x18#6 : BitVec 32) = x
  have ⟨hE, h1, h2, f0, f1, f2⟩ : (x.extractLsb' 30 2).toNat = 0 ∧ (x.extractLsb' 24 6).toNat = 0 ∧
      (x.extractLsb' 0 6).toNat = 24 ∧ x.extractLsb' 18 6 = d ∧ x.extractLsb' 12 6 = a ∧ x.extractLsb' 6 6 = b := by
    subst hx; simp (disch := decide) only [ex_hi, ex_lo, ex_all, Nat.reduceSub, BitVec.reduceExtractLsb', BitVec.reduceToNat, and_self]
  exact decS hw hE (by unfold decodeS; rw [h1, h2, f0, f1, f2]; exact rfl)

/-- CSEL (R133). -/
theorem Encoding.csel (d a b : BitVec 6) : Statement (.csel d a b) := by
  intro hw w h
  cases h
  generalize hx : (0x0#8 ++ d ++ a ++ b ++ 0x19#6 : BitVec 32) = x
  have ⟨hE, h1, h2, f0, f1, f2⟩ : (x.extractLsb' 30 2).toNat = 0 ∧ (x.extractLsb' 24 6).toNat = 0 ∧
      (x.extractLsb' 0 6).toNat = 25 ∧ x.extractLsb' 18 6 = d ∧ x.extractLsb' 12 6 = a ∧ x.extractLsb' 6 6 = b := by
    subst hx; simp (disch := decide) only [ex_hi, ex_lo, ex_all, Nat.reduceSub, BitVec.reduceExtractLsb', BitVec.reduceToNat, and_self]
  exact decS hw hE (by unfold decodeS; rw [h1, h2, f0, f1, f2]; exact rfl)

/-- CLZ (R135). -/
theorem Encoding.clz (d a : BitVec 6) : Statement (.clz d a) := by
  intro hw w h
  cases h
  generalize hx : (0x1#8 ++ d ++ a ++ 0x0#12 : BitVec 32) = x
  have ⟨hE, h1, h2, f0, f1⟩ : (x.extractLsb' 30 2).toNat = 0 ∧ (x.extractLsb' 24 6).toNat = 1 ∧
      (x.extractLsb' 0 12).toNat = 0 ∧ x.extractLsb' 18 6 = d ∧ x.extractLsb' 12 6 = a := by
    subst hx; simp (disch := decide) only [ex_hi, ex_lo, ex_all, Nat.reduceSub, BitVec.reduceExtractLsb', BitVec.reduceToNat, and_self]
  exact decS hw hE (by unfold decodeS; rw [h1, h2, f0, f1]; exact rfl)

/-- CTZ (R135). -/
theorem Encoding.ctz (d a : BitVec 6) : Statement (.ctz d a) := by
  intro hw w h
  cases h
  generalize hx : (0x1#8 ++ d ++ a ++ 0x1#12 : BitVec 32) = x
  have ⟨hE, h1, h2, f0, f1⟩ : (x.extractLsb' 30 2).toNat = 0 ∧ (x.extractLsb' 24 6).toNat = 1 ∧
      (x.extractLsb' 0 12).toNat = 1 ∧ x.extractLsb' 18 6 = d ∧ x.extractLsb' 12 6 = a := by
    subst hx; simp (disch := decide) only [ex_hi, ex_lo, ex_all, Nat.reduceSub, BitVec.reduceExtractLsb', BitVec.reduceToNat, and_self]
  exact decS hw hE (by unfold decodeS; rw [h1, h2, f0, f1]; exact rfl)

/-- POPC (R135). -/
theorem Encoding.popc (d a : BitVec 6) : Statement (.popc d a) := by
  intro hw w h
  cases h
  generalize hx : (0x1#8 ++ d ++ a ++ 0x2#12 : BitVec 32) = x
  have ⟨hE, h1, h2, f0, f1⟩ : (x.extractLsb' 30 2).toNat = 0 ∧ (x.extractLsb' 24 6).toNat = 1 ∧
      (x.extractLsb' 0 12).toNat = 2 ∧ x.extractLsb' 18 6 = d ∧ x.extractLsb' 12 6 = a := by
    subst hx; simp (disch := decide) only [ex_hi, ex_lo, ex_all, Nat.reduceSub, BitVec.reduceExtractLsb', BitVec.reduceToNat, and_self]
  exact decS hw hE (by unfold decodeS; rw [h1, h2, f0, f1]; exact rfl)

/-- SEXT_B (R135). -/
theorem Encoding.sextB (d a : BitVec 6) : Statement (.sextB d a) := by
  intro hw w h
  cases h
  generalize hx : (0x1#8 ++ d ++ a ++ 0x3#12 : BitVec 32) = x
  have ⟨hE, h1, h2, f0, f1⟩ : (x.extractLsb' 30 2).toNat = 0 ∧ (x.extractLsb' 24 6).toNat = 1 ∧
      (x.extractLsb' 0 12).toNat = 3 ∧ x.extractLsb' 18 6 = d ∧ x.extractLsb' 12 6 = a := by
    subst hx; simp (disch := decide) only [ex_hi, ex_lo, ex_all, Nat.reduceSub, BitVec.reduceExtractLsb', BitVec.reduceToNat, and_self]
  exact decS hw hE (by unfold decodeS; rw [h1, h2, f0, f1]; exact rfl)

/-- SEXT_H (R135). -/
theorem Encoding.sextH (d a : BitVec 6) : Statement (.sextH d a) := by
  intro hw w h
  cases h
  generalize hx : (0x1#8 ++ d ++ a ++ 0x43#12 : BitVec 32) = x
  have ⟨hE, h1, h2, f0, f1⟩ : (x.extractLsb' 30 2).toNat = 0 ∧ (x.extractLsb' 24 6).toNat = 1 ∧
      (x.extractLsb' 0 12).toNat = 67 ∧ x.extractLsb' 18 6 = d ∧ x.extractLsb' 12 6 = a := by
    subst hx; simp (disch := decide) only [ex_hi, ex_lo, ex_all, Nat.reduceSub, BitVec.reduceExtractLsb', BitVec.reduceToNat, and_self]
  exact decS hw hE (by unfold decodeS; rw [h1, h2, f0, f1]; exact rfl)

/-- SEXT_W (R135). -/
theorem Encoding.sextW (d a : BitVec 6) : Statement (.sextW d a) := by
  intro hw w h
  cases h
  generalize hx : (0x1#8 ++ d ++ a ++ 0x83#12 : BitVec 32) = x
  have ⟨hE, h1, h2, f0, f1⟩ : (x.extractLsb' 30 2).toNat = 0 ∧ (x.extractLsb' 24 6).toNat = 1 ∧
      (x.extractLsb' 0 12).toNat = 131 ∧ x.extractLsb' 18 6 = d ∧ x.extractLsb' 12 6 = a := by
    subst hx; simp (disch := decide) only [ex_hi, ex_lo, ex_all, Nat.reduceSub, BitVec.reduceExtractLsb', BitVec.reduceToNat, and_self]
  exact decS hw hE (by unfold decodeS; rw [h1, h2, f0, f1]; exact rfl)

/-- ZEXT_B (R135). -/
theorem Encoding.zextB (d a : BitVec 6) : Statement (.zextB d a) := by
  intro hw w h
  cases h
  generalize hx : (0x1#8 ++ d ++ a ++ 0x4#12 : BitVec 32) = x
  have ⟨hE, h1, h2, f0, f1⟩ : (x.extractLsb' 30 2).toNat = 0 ∧ (x.extractLsb' 24 6).toNat = 1 ∧
      (x.extractLsb' 0 12).toNat = 4 ∧ x.extractLsb' 18 6 = d ∧ x.extractLsb' 12 6 = a := by
    subst hx; simp (disch := decide) only [ex_hi, ex_lo, ex_all, Nat.reduceSub, BitVec.reduceExtractLsb', BitVec.reduceToNat, and_self]
  exact decS hw hE (by unfold decodeS; rw [h1, h2, f0, f1]; exact rfl)

/-- ZEXT_H (R135). -/
theorem Encoding.zextH (d a : BitVec 6) : Statement (.zextH d a) := by
  intro hw w h
  cases h
  generalize hx : (0x1#8 ++ d ++ a ++ 0x44#12 : BitVec 32) = x
  have ⟨hE, h1, h2, f0, f1⟩ : (x.extractLsb' 30 2).toNat = 0 ∧ (x.extractLsb' 24 6).toNat = 1 ∧
      (x.extractLsb' 0 12).toNat = 68 ∧ x.extractLsb' 18 6 = d ∧ x.extractLsb' 12 6 = a := by
    subst hx; simp (disch := decide) only [ex_hi, ex_lo, ex_all, Nat.reduceSub, BitVec.reduceExtractLsb', BitVec.reduceToNat, and_self]
  exact decS hw hE (by unfold decodeS; rw [h1, h2, f0, f1]; exact rfl)

/-- ZEXT_W (R135). -/
theorem Encoding.zextW (d a : BitVec 6) : Statement (.zextW d a) := by
  intro hw w h
  cases h
  generalize hx : (0x1#8 ++ d ++ a ++ 0x84#12 : BitVec 32) = x
  have ⟨hE, h1, h2, f0, f1⟩ : (x.extractLsb' 30 2).toNat = 0 ∧ (x.extractLsb' 24 6).toNat = 1 ∧
      (x.extractLsb' 0 12).toNat = 132 ∧ x.extractLsb' 18 6 = d ∧ x.extractLsb' 12 6 = a := by
    subst hx; simp (disch := decide) only [ex_hi, ex_lo, ex_all, Nat.reduceSub, BitVec.reduceExtractLsb', BitVec.reduceToNat, and_self]
  exact decS hw hE (by unfold decodeS; rw [h1, h2, f0, f1]; exact rfl)

/-- BEXT (R136). -/
theorem Encoding.bext (d a w l : BitVec 6) : Statement (.bext d a w l) := by
  intro hw w h
  cases h
  generalize hx : (0x2#8 ++ d ++ a ++ w ++ l : BitVec 32) = x
  have ⟨hE, h1, f0, f1, f2, f3⟩ : (x.extractLsb' 30 2).toNat = 0 ∧ (x.extractLsb' 24 6).toNat = 2 ∧
      x.extractLsb' 18 6 = d ∧ x.extractLsb' 12 6 = a ∧ x.extractLsb' 6 6 = w ∧ x.extractLsb' 0 6 = l := by
    subst hx; simp (disch := decide) only [ex_hi, ex_lo, ex_all, Nat.reduceSub, BitVec.reduceExtractLsb', BitVec.reduceToNat, and_self]
  exact decS hw hE (by unfold decodeS; rw [h1, f0, f1, f2, f3]; exact rfl)

/-- BINS (R136). -/
theorem Encoding.bins (d a w l : BitVec 6) : Statement (.bins d a w l) := by
  intro hw w h
  cases h
  generalize hx : (0x3#8 ++ d ++ a ++ w ++ l : BitVec 32) = x
  have ⟨hE, h1, f0, f1, f2, f3⟩ : (x.extractLsb' 30 2).toNat = 0 ∧ (x.extractLsb' 24 6).toNat = 3 ∧
      x.extractLsb' 18 6 = d ∧ x.extractLsb' 12 6 = a ∧ x.extractLsb' 6 6 = w ∧ x.extractLsb' 0 6 = l := by
    subst hx; simp (disch := decide) only [ex_hi, ex_lo, ex_all, Nat.reduceSub, BitVec.reduceExtractLsb', BitVec.reduceToNat, and_self]
  exact decS hw hE (by unfold decodeS; rw [h1, f0, f1, f2, f3]; exact rfl)

/-- ADDI (R137). -/
theorem Encoding.addi (d a : BitVec 6) (i : BitVec 12) : Statement (.addi d a i) := by
  intro hw w h
  cases h
  generalize hx : (0x4#8 ++ d ++ a ++ i : BitVec 32) = x
  have ⟨hE, h1, f0, f1, f2⟩ : (x.extractLsb' 30 2).toNat = 0 ∧ (x.extractLsb' 24 6).toNat = 4 ∧
      x.extractLsb' 18 6 = d ∧ x.extractLsb' 12 6 = a ∧ x.extractLsb' 0 12 = i := by
    subst hx; simp (disch := decide) only [ex_hi, ex_lo, ex_all, Nat.reduceSub, BitVec.reduceExtractLsb', BitVec.reduceToNat, and_self]
  exact decS hw hE (by unfold decodeS; rw [h1, f0, f1, f2]; exact rfl)

/-- ANDI (R137). -/
theorem Encoding.andi (d a : BitVec 6) (i : BitVec 12) : Statement (.andi d a i) := by
  intro hw w h
  cases h
  generalize hx : (0x5#8 ++ d ++ a ++ i : BitVec 32) = x
  have ⟨hE, h1, f0, f1, f2⟩ : (x.extractLsb' 30 2).toNat = 0 ∧ (x.extractLsb' 24 6).toNat = 5 ∧
      x.extractLsb' 18 6 = d ∧ x.extractLsb' 12 6 = a ∧ x.extractLsb' 0 12 = i := by
    subst hx; simp (disch := decide) only [ex_hi, ex_lo, ex_all, Nat.reduceSub, BitVec.reduceExtractLsb', BitVec.reduceToNat, and_self]
  exact decS hw hE (by unfold decodeS; rw [h1, f0, f1, f2]; exact rfl)

/-- ORI (R137). -/
theorem Encoding.ori (d a : BitVec 6) (i : BitVec 12) : Statement (.ori d a i) := by
  intro hw w h
  cases h
  generalize hx : (0x6#8 ++ d ++ a ++ i : BitVec 32) = x
  have ⟨hE, h1, f0, f1, f2⟩ : (x.extractLsb' 30 2).toNat = 0 ∧ (x.extractLsb' 24 6).toNat = 6 ∧
      x.extractLsb' 18 6 = d ∧ x.extractLsb' 12 6 = a ∧ x.extractLsb' 0 12 = i := by
    subst hx; simp (disch := decide) only [ex_hi, ex_lo, ex_all, Nat.reduceSub, BitVec.reduceExtractLsb', BitVec.reduceToNat, and_self]
  exact decS hw hE (by unfold decodeS; rw [h1, f0, f1, f2]; exact rfl)

/-- XORI (R137). -/
theorem Encoding.xori (d a : BitVec 6) (i : BitVec 12) : Statement (.xori d a i) := by
  intro hw w h
  cases h
  generalize hx : (0x7#8 ++ d ++ a ++ i : BitVec 32) = x
  have ⟨hE, h1, f0, f1, f2⟩ : (x.extractLsb' 30 2).toNat = 0 ∧ (x.extractLsb' 24 6).toNat = 7 ∧
      x.extractLsb' 18 6 = d ∧ x.extractLsb' 12 6 = a ∧ x.extractLsb' 0 12 = i := by
    subst hx; simp (disch := decide) only [ex_hi, ex_lo, ex_all, Nat.reduceSub, BitVec.reduceExtractLsb', BitVec.reduceToNat, and_self]
  exact decS hw hE (by unfold decodeS; rw [h1, f0, f1, f2]; exact rfl)

/-- SLTI (R137). -/
theorem Encoding.slti (d a : BitVec 6) (i : BitVec 12) : Statement (.slti d a i) := by
  intro hw w h
  cases h
  generalize hx : (0x8#8 ++ d ++ a ++ i : BitVec 32) = x
  have ⟨hE, h1, f0, f1, f2⟩ : (x.extractLsb' 30 2).toNat = 0 ∧ (x.extractLsb' 24 6).toNat = 8 ∧
      x.extractLsb' 18 6 = d ∧ x.extractLsb' 12 6 = a ∧ x.extractLsb' 0 12 = i := by
    subst hx; simp (disch := decide) only [ex_hi, ex_lo, ex_all, Nat.reduceSub, BitVec.reduceExtractLsb', BitVec.reduceToNat, and_self]
  exact decS hw hE (by unfold decodeS; rw [h1, f0, f1, f2]; exact rfl)

/-- SLTIU (R137). -/
theorem Encoding.sltiu (d a : BitVec 6) (i : BitVec 12) : Statement (.sltiu d a i) := by
  intro hw w h
  cases h
  generalize hx : (0x9#8 ++ d ++ a ++ i : BitVec 32) = x
  have ⟨hE, h1, f0, f1, f2⟩ : (x.extractLsb' 30 2).toNat = 0 ∧ (x.extractLsb' 24 6).toNat = 9 ∧
      x.extractLsb' 18 6 = d ∧ x.extractLsb' 12 6 = a ∧ x.extractLsb' 0 12 = i := by
    subst hx; simp (disch := decide) only [ex_hi, ex_lo, ex_all, Nat.reduceSub, BitVec.reduceExtractLsb', BitVec.reduceToNat, and_self]
  exact decS hw hE (by unfold decodeS; rw [h1, f0, f1, f2]; exact rfl)

/-- SLLI (R137). -/
theorem Encoding.slli (d a s : BitVec 6) : Statement (.slli d a s) := by
  intro hw w h
  cases h
  generalize hx : (0xA#8 ++ d ++ a ++ 0x0#6 ++ s : BitVec 32) = x
  have ⟨hE, h1, f0, f1, f2, g0⟩ : (x.extractLsb' 30 2).toNat = 0 ∧ (x.extractLsb' 24 6).toNat = 10 ∧
      x.extractLsb' 18 6 = d ∧ x.extractLsb' 12 6 = a ∧ x.extractLsb' 0 6 = s ∧ x.extractLsb' 6 6 = 0#6 := by
    subst hx; simp (disch := decide) only [ex_hi, ex_lo, ex_all, Nat.reduceSub, BitVec.reduceExtractLsb', BitVec.reduceToNat, and_self]
  exact decS hw hE (by unfold decodeS; rw [h1, f0, f1, f2]; exact if_pos g0)

/-- SRLI (R137). -/
theorem Encoding.srli (d a s : BitVec 6) : Statement (.srli d a s) := by
  intro hw w h
  cases h
  generalize hx : (0xB#8 ++ d ++ a ++ 0x0#6 ++ s : BitVec 32) = x
  have ⟨hE, h1, f0, f1, f2, g0⟩ : (x.extractLsb' 30 2).toNat = 0 ∧ (x.extractLsb' 24 6).toNat = 11 ∧
      x.extractLsb' 18 6 = d ∧ x.extractLsb' 12 6 = a ∧ x.extractLsb' 0 6 = s ∧ x.extractLsb' 6 6 = 0#6 := by
    subst hx; simp (disch := decide) only [ex_hi, ex_lo, ex_all, Nat.reduceSub, BitVec.reduceExtractLsb', BitVec.reduceToNat, and_self]
  exact decS hw hE (by unfold decodeS; rw [h1, f0, f1, f2]; exact if_pos g0)

/-- SRAI (R137). -/
theorem Encoding.srai (d a s : BitVec 6) : Statement (.srai d a s) := by
  intro hw w h
  cases h
  generalize hx : (0xC#8 ++ d ++ a ++ 0x0#6 ++ s : BitVec 32) = x
  have ⟨hE, h1, f0, f1, f2, g0⟩ : (x.extractLsb' 30 2).toNat = 0 ∧ (x.extractLsb' 24 6).toNat = 12 ∧
      x.extractLsb' 18 6 = d ∧ x.extractLsb' 12 6 = a ∧ x.extractLsb' 0 6 = s ∧ x.extractLsb' 6 6 = 0#6 := by
    subst hx; simp (disch := decide) only [ex_hi, ex_lo, ex_all, Nat.reduceSub, BitVec.reduceExtractLsb', BitVec.reduceToNat, and_self]
  exact decS hw hE (by unfold decodeS; rw [h1, f0, f1, f2]; exact if_pos g0)

/-- LIH (R138). -/
theorem Encoding.lih (d : BitVec 6) (i : BitVec 18) : Statement (.lih d i) := by
  intro hw w h
  cases h
  generalize hx : (0xD#8 ++ d ++ i : BitVec 32) = x
  have ⟨hE, h1, f0, f1⟩ : (x.extractLsb' 30 2).toNat = 0 ∧ (x.extractLsb' 24 6).toNat = 13 ∧ x.extractLsb' 18 6 = d ∧
      x.extractLsb' 0 18 = i := by
    subst hx; simp (disch := decide) only [ex_hi, ex_lo, ex_all, Nat.reduceSub, BitVec.reduceExtractLsb', BitVec.reduceToNat, and_self]
  exact decS hw hE (by unfold decodeS; rw [h1, f0, f1]; exact rfl)

/-- GETW (R139). -/
theorem Encoding.getw (d a : BitVec 6) (l : BitVec 12) : Statement (.getw d a l) := by
  intro hw w h
  cases h
  generalize hx : (0xE#8 ++ d ++ a ++ l : BitVec 32) = x
  have ⟨hE, h1, f0, f1, f2⟩ : (x.extractLsb' 30 2).toNat = 0 ∧ (x.extractLsb' 24 6).toNat = 14 ∧
      x.extractLsb' 18 6 = d ∧ x.extractLsb' 12 6 = a ∧ x.extractLsb' 0 12 = l := by
    subst hx; simp (disch := decide) only [ex_hi, ex_lo, ex_all, Nat.reduceSub, BitVec.reduceExtractLsb', BitVec.reduceToNat, and_self]
  exact decS hw hE (by unfold decodeS; rw [h1, f0, f1, f2]; exact rfl)

/-- LD_B (R141). -/
theorem Encoding.ldB (d a : BitVec 6) (o : BitVec 12) : Statement (.ldB d a o) := by
  intro hw w h
  cases h
  generalize hx : (0x10#8 ++ d ++ a ++ o : BitVec 32) = x
  have ⟨hE, h1, f0, f1, f2⟩ : (x.extractLsb' 30 2).toNat = 0 ∧ (x.extractLsb' 24 6).toNat = 16 ∧
      x.extractLsb' 18 6 = d ∧ x.extractLsb' 12 6 = a ∧ x.extractLsb' 0 12 = o := by
    subst hx; simp (disch := decide) only [ex_hi, ex_lo, ex_all, Nat.reduceSub, BitVec.reduceExtractLsb', BitVec.reduceToNat, and_self]
  exact decS hw hE (by unfold decodeS; rw [h1, f0, f1, f2]; exact rfl)

/-- LD_BU (R141). -/
theorem Encoding.ldBu (d a : BitVec 6) (o : BitVec 12) : Statement (.ldBu d a o) := by
  intro hw w h
  cases h
  generalize hx : (0x11#8 ++ d ++ a ++ o : BitVec 32) = x
  have ⟨hE, h1, f0, f1, f2⟩ : (x.extractLsb' 30 2).toNat = 0 ∧ (x.extractLsb' 24 6).toNat = 17 ∧
      x.extractLsb' 18 6 = d ∧ x.extractLsb' 12 6 = a ∧ x.extractLsb' 0 12 = o := by
    subst hx; simp (disch := decide) only [ex_hi, ex_lo, ex_all, Nat.reduceSub, BitVec.reduceExtractLsb', BitVec.reduceToNat, and_self]
  exact decS hw hE (by unfold decodeS; rw [h1, f0, f1, f2]; exact rfl)

/-- LD_H (R141). -/
theorem Encoding.ldH (d a : BitVec 6) (o : BitVec 12) : Statement (.ldH d a o) := by
  intro hw w h
  cases h
  generalize hx : (0x12#8 ++ d ++ a ++ o : BitVec 32) = x
  have ⟨hE, h1, f0, f1, f2⟩ : (x.extractLsb' 30 2).toNat = 0 ∧ (x.extractLsb' 24 6).toNat = 18 ∧
      x.extractLsb' 18 6 = d ∧ x.extractLsb' 12 6 = a ∧ x.extractLsb' 0 12 = o := by
    subst hx; simp (disch := decide) only [ex_hi, ex_lo, ex_all, Nat.reduceSub, BitVec.reduceExtractLsb', BitVec.reduceToNat, and_self]
  exact decS hw hE (by unfold decodeS; rw [h1, f0, f1, f2]; exact rfl)

/-- LD_HU (R141). -/
theorem Encoding.ldHu (d a : BitVec 6) (o : BitVec 12) : Statement (.ldHu d a o) := by
  intro hw w h
  cases h
  generalize hx : (0x13#8 ++ d ++ a ++ o : BitVec 32) = x
  have ⟨hE, h1, f0, f1, f2⟩ : (x.extractLsb' 30 2).toNat = 0 ∧ (x.extractLsb' 24 6).toNat = 19 ∧
      x.extractLsb' 18 6 = d ∧ x.extractLsb' 12 6 = a ∧ x.extractLsb' 0 12 = o := by
    subst hx; simp (disch := decide) only [ex_hi, ex_lo, ex_all, Nat.reduceSub, BitVec.reduceExtractLsb', BitVec.reduceToNat, and_self]
  exact decS hw hE (by unfold decodeS; rw [h1, f0, f1, f2]; exact rfl)

/-- LD_W (R141). -/
theorem Encoding.ldW (d a : BitVec 6) (o : BitVec 12) : Statement (.ldW d a o) := by
  intro hw w h
  cases h
  generalize hx : (0x14#8 ++ d ++ a ++ o : BitVec 32) = x
  have ⟨hE, h1, f0, f1, f2⟩ : (x.extractLsb' 30 2).toNat = 0 ∧ (x.extractLsb' 24 6).toNat = 20 ∧
      x.extractLsb' 18 6 = d ∧ x.extractLsb' 12 6 = a ∧ x.extractLsb' 0 12 = o := by
    subst hx; simp (disch := decide) only [ex_hi, ex_lo, ex_all, Nat.reduceSub, BitVec.reduceExtractLsb', BitVec.reduceToNat, and_self]
  exact decS hw hE (by unfold decodeS; rw [h1, f0, f1, f2]; exact rfl)

/-- LD_WU (R141). -/
theorem Encoding.ldWu (d a : BitVec 6) (o : BitVec 12) : Statement (.ldWu d a o) := by
  intro hw w h
  cases h
  generalize hx : (0x15#8 ++ d ++ a ++ o : BitVec 32) = x
  have ⟨hE, h1, f0, f1, f2⟩ : (x.extractLsb' 30 2).toNat = 0 ∧ (x.extractLsb' 24 6).toNat = 21 ∧
      x.extractLsb' 18 6 = d ∧ x.extractLsb' 12 6 = a ∧ x.extractLsb' 0 12 = o := by
    subst hx; simp (disch := decide) only [ex_hi, ex_lo, ex_all, Nat.reduceSub, BitVec.reduceExtractLsb', BitVec.reduceToNat, and_self]
  exact decS hw hE (by unfold decodeS; rw [h1, f0, f1, f2]; exact rfl)

/-- LD_D (R141). -/
theorem Encoding.ldD (d a : BitVec 6) (o : BitVec 12) : Statement (.ldD d a o) := by
  intro hw w h
  cases h
  generalize hx : (0x16#8 ++ d ++ a ++ o : BitVec 32) = x
  have ⟨hE, h1, f0, f1, f2⟩ : (x.extractLsb' 30 2).toNat = 0 ∧ (x.extractLsb' 24 6).toNat = 22 ∧
      x.extractLsb' 18 6 = d ∧ x.extractLsb' 12 6 = a ∧ x.extractLsb' 0 12 = o := by
    subst hx; simp (disch := decide) only [ex_hi, ex_lo, ex_all, Nat.reduceSub, BitVec.reduceExtractLsb', BitVec.reduceToNat, and_self]
  exact decS hw hE (by unfold decodeS; rw [h1, f0, f1, f2]; exact rfl)

/-- ST (R142). -/
theorem Encoding.st (d a : BitVec 6) (o : BitVec 12) : Statement (.st d a o) := by
  intro hw w h
  cases h
  generalize hx : (0x17#8 ++ d ++ a ++ o : BitVec 32) = x
  have ⟨hE, h1, f0, f1, f2⟩ : (x.extractLsb' 30 2).toNat = 0 ∧ (x.extractLsb' 24 6).toNat = 23 ∧
      x.extractLsb' 18 6 = d ∧ x.extractLsb' 12 6 = a ∧ x.extractLsb' 0 12 = o := by
    subst hx; simp (disch := decide) only [ex_hi, ex_lo, ex_all, Nat.reduceSub, BitVec.reduceExtractLsb', BitVec.reduceToNat, and_self]
  exact decS hw hE (by unfold decodeS; rw [h1, f0, f1, f2]; exact rfl)

/-- LDP (R143). -/
theorem Encoding.ldp (d a : BitVec 6) (o : BitVec 12) : Statement (.ldp d a o) := by
  intro hw w h
  cases h
  generalize hx : (0x18#8 ++ d ++ a ++ o : BitVec 32) = x
  have ⟨hE, h1, f0, f1, f2⟩ : (x.extractLsb' 30 2).toNat = 0 ∧ (x.extractLsb' 24 6).toNat = 24 ∧
      x.extractLsb' 18 6 = d ∧ x.extractLsb' 12 6 = a ∧ x.extractLsb' 0 12 = o := by
    subst hx; simp (disch := decide) only [ex_hi, ex_lo, ex_all, Nat.reduceSub, BitVec.reduceExtractLsb', BitVec.reduceToNat, and_self]
  exact decS hw hE (by unfold decodeS; rw [h1, f0, f1, f2]; exact rfl)

/-- STP (R143). -/
theorem Encoding.stp (d a : BitVec 6) (o : BitVec 12) : Statement (.stp d a o) := by
  intro hw w h
  cases h
  generalize hx : (0x19#8 ++ d ++ a ++ o : BitVec 32) = x
  have ⟨hE, h1, f0, f1, f2⟩ : (x.extractLsb' 30 2).toNat = 0 ∧ (x.extractLsb' 24 6).toNat = 25 ∧
      x.extractLsb' 18 6 = d ∧ x.extractLsb' 12 6 = a ∧ x.extractLsb' 0 12 = o := by
    subst hx; simp (disch := decide) only [ex_hi, ex_lo, ex_all, Nat.reduceSub, BitVec.reduceExtractLsb', BitVec.reduceToNat, and_self]
  exact decS hw hE (by unfold decodeS; rw [h1, f0, f1, f2]; exact rfl)

/-- PF_R (R144). -/
theorem Encoding.pfR (a : BitVec 6) (o : BitVec 12) : Statement (.pfR a o) := by
  intro hw w h
  cases h
  generalize hx : (0x680#14 ++ a ++ o : BitVec 32) = x
  have ⟨hE, h1, h2, f0, f1⟩ : (x.extractLsb' 30 2).toNat = 0 ∧ (x.extractLsb' 24 6).toNat = 26 ∧
      (x.extractLsb' 18 6).toNat = 0 ∧ x.extractLsb' 12 6 = a ∧ x.extractLsb' 0 12 = o := by
    subst hx; simp (disch := decide) only [ex_hi, ex_lo, ex_all, Nat.reduceSub, BitVec.reduceExtractLsb', BitVec.reduceToNat, and_self]
  exact decS hw hE (by unfold decodeS; rw [h1, h2, f0, f1]; exact rfl)

/-- PF_W (R144). -/
theorem Encoding.pfW (a : BitVec 6) (o : BitVec 12) : Statement (.pfW a o) := by
  intro hw w h
  cases h
  generalize hx : (0x681#14 ++ a ++ o : BitVec 32) = x
  have ⟨hE, h1, h2, f0, f1⟩ : (x.extractLsb' 30 2).toNat = 0 ∧ (x.extractLsb' 24 6).toNat = 26 ∧
      (x.extractLsb' 18 6).toNat = 1 ∧ x.extractLsb' 12 6 = a ∧ x.extractLsb' 0 12 = o := by
    subst hx; simp (disch := decide) only [ex_hi, ex_lo, ex_all, Nat.reduceSub, BitVec.reduceExtractLsb', BitVec.reduceToNat, and_self]
  exact decS hw hE (by unfold decodeS; rw [h1, h2, f0, f1]; exact rfl)

/-- PUT_V (R60). -/
theorem Encoding.putV (d a : BitVec 6) : Statement (.putV d a) := by
  intro hw w h
  cases h
  generalize hx : (0x1B#8 ++ d ++ a ++ 0x1#12 : BitVec 32) = x
  have ⟨hE, h1, h2, f0, f1⟩ : (x.extractLsb' 30 2).toNat = 0 ∧ (x.extractLsb' 24 6).toNat = 27 ∧
      (x.extractLsb' 0 12).toNat = 1 ∧ x.extractLsb' 18 6 = d ∧ x.extractLsb' 12 6 = a := by
    subst hx; simp (disch := decide) only [ex_hi, ex_lo, ex_all, Nat.reduceSub, BitVec.reduceExtractLsb', BitVec.reduceToNat, and_self]
  exact decS hw hE (by unfold decodeS; rw [h1, h2, f0, f1]; exact rfl)

/-- PUT_M (R60). -/
theorem Encoding.putM (d a : BitVec 6) : Statement (.putM d a) := by
  intro hw w h
  cases h
  generalize hx : (0x1B#8 ++ d ++ a ++ 0x2#12 : BitVec 32) = x
  have ⟨hE, h1, h2, f0, f1⟩ : (x.extractLsb' 30 2).toNat = 0 ∧ (x.extractLsb' 24 6).toNat = 27 ∧
      (x.extractLsb' 0 12).toNat = 2 ∧ x.extractLsb' 18 6 = d ∧ x.extractLsb' 12 6 = a := by
    subst hx; simp (disch := decide) only [ex_hi, ex_lo, ex_all, Nat.reduceSub, BitVec.reduceExtractLsb', BitVec.reduceToNat, and_self]
  exact decS hw hE (by unfold decodeS; rw [h1, h2, f0, f1]; exact rfl)

/-- PUT_D (R60). -/
theorem Encoding.putD (d a : BitVec 6) : Statement (.putD d a) := by
  intro hw w h
  cases h
  generalize hx : (0x1B#8 ++ d ++ a ++ 0x3#12 : BitVec 32) = x
  have ⟨hE, h1, h2, f0, f1⟩ : (x.extractLsb' 30 2).toNat = 0 ∧ (x.extractLsb' 24 6).toNat = 27 ∧
      (x.extractLsb' 0 12).toNat = 3 ∧ x.extractLsb' 18 6 = d ∧ x.extractLsb' 12 6 = a := by
    subst hx; simp (disch := decide) only [ex_hi, ex_lo, ex_all, Nat.reduceSub, BitVec.reduceExtractLsb', BitVec.reduceToNat, and_self]
  exact decS hw hE (by unfold decodeS; rw [h1, h2, f0, f1]; exact rfl)

/-- GET (R62). -/
theorem Encoding.get (d : BitVec 6) : Statement (.get d) := by
  intro hw w h
  cases h
  generalize hx : (0x1D#8 ++ d ++ 0x0#18 : BitVec 32) = x
  have ⟨hE, h1, h2, f0⟩ : (x.extractLsb' 30 2).toNat = 0 ∧ (x.extractLsb' 24 6).toNat = 29 ∧
      (x.extractLsb' 0 18).toNat = 0 ∧ x.extractLsb' 18 6 = d := by
    subst hx; simp (disch := decide) only [ex_hi, ex_lo, ex_all, Nat.reduceSub, BitVec.reduceExtractLsb', BitVec.reduceToNat, and_self]
  exact decS hw hE (by unfold decodeS; rw [h1, h2, f0]; exact rfl)

/-- EWAIT (R157). -/
theorem Encoding.ewait (d : BitVec 6) : Statement (.ewait d) := by
  intro hw w h
  cases h
  generalize hx : (0x1D#8 ++ d ++ 0x1#18 : BitVec 32) = x
  have ⟨hE, h1, h2, f0⟩ : (x.extractLsb' 30 2).toNat = 0 ∧ (x.extractLsb' 24 6).toNat = 29 ∧
      (x.extractLsb' 0 18).toNat = 1 ∧ x.extractLsb' 18 6 = d := by
    subst hx; simp (disch := decide) only [ex_hi, ex_lo, ex_all, Nat.reduceSub, BitVec.reduceExtractLsb', BitVec.reduceToNat, and_self]
  exact decS hw hE (by unfold decodeS; rw [h1, h2, f0]; exact rfl)

/-- EPEEK (R157). -/
theorem Encoding.epeek (d : BitVec 6) : Statement (.epeek d) := by
  intro hw w h
  cases h
  generalize hx : (0x1D#8 ++ d ++ 0x2#18 : BitVec 32) = x
  have ⟨hE, h1, h2, f0⟩ : (x.extractLsb' 30 2).toNat = 0 ∧ (x.extractLsb' 24 6).toNat = 29 ∧
      (x.extractLsb' 0 18).toNat = 2 ∧ x.extractLsb' 18 6 = d := by
    subst hx; simp (disch := decide) only [ex_hi, ex_lo, ex_all, Nat.reduceSub, BitVec.reduceExtractLsb', BitVec.reduceToNat, and_self]
  exact decS hw hE (by unfold decodeS; rw [h1, h2, f0]; exact rfl)

/-- MCALL (R65). -/
theorem Encoding.mcall (d a b k : BitVec 6) : Statement (.mcall d a b k) := by
  intro hw w h
  cases h
  generalize hx : (0x1E#8 ++ d ++ a ++ b ++ k : BitVec 32) = x
  have ⟨hE, h1, f0, f1, f2, f3⟩ : (x.extractLsb' 30 2).toNat = 0 ∧ (x.extractLsb' 24 6).toNat = 30 ∧
      x.extractLsb' 18 6 = d ∧ x.extractLsb' 12 6 = a ∧ x.extractLsb' 6 6 = b ∧ x.extractLsb' 0 6 = k := by
    subst hx; simp (disch := decide) only [ex_hi, ex_lo, ex_all, Nat.reduceSub, BitVec.reduceExtractLsb', BitVec.reduceToNat, and_self]
  exact decS hw hE (by unfold decodeS; rw [h1, f0, f1, f2, f3]; exact rfl)

/-- MDEF (R159). -/
theorem Encoding.mdef (k a : BitVec 6) (o : BitVec 12) : Statement (.mdef k a o) := by
  intro hw w h
  cases h
  generalize hx : (0x1F#8 ++ k ++ a ++ o : BitVec 32) = x
  have ⟨hE, h1, f0, f1, f2⟩ : (x.extractLsb' 30 2).toNat = 0 ∧ (x.extractLsb' 24 6).toNat = 31 ∧
      x.extractLsb' 18 6 = k ∧ x.extractLsb' 12 6 = a ∧ x.extractLsb' 0 12 = o := by
    subst hx; simp (disch := decide) only [ex_hi, ex_lo, ex_all, Nat.reduceSub, BitVec.reduceExtractLsb', BitVec.reduceToNat, and_self]
  exact decS hw hE (by unfold decodeS; rw [h1, f0, f1, f2]; exact rfl)

/-- AMO_ADD (R145). -/
theorem Encoding.amoAdd (d a b : BitVec 6) (o s : BitVec 3) : Statement (.amoAdd d a b o s) := by
  intro hw w h
  cases h
  generalize hx : (0x20#8 ++ d ++ a ++ b ++ o ++ s : BitVec 32) = x
  have ⟨hE, h1, f0, f1, f2, f3, f4⟩ : (x.extractLsb' 30 2).toNat = 0 ∧ (x.extractLsb' 24 6).toNat = 32 ∧
      x.extractLsb' 18 6 = d ∧ x.extractLsb' 12 6 = a ∧ x.extractLsb' 6 6 = b ∧ x.extractLsb' 3 3 = o ∧
      x.extractLsb' 0 3 = s := by
    subst hx; simp (disch := decide) only [ex_hi, ex_lo, ex_all, Nat.reduceSub, BitVec.reduceExtractLsb', BitVec.reduceToNat, and_self]
  exact decS hw hE (by unfold decodeS; rw [h1, f0, f1, f2, f3, f4]; exact rfl)

/-- AMO_AND (R145). -/
theorem Encoding.amoAnd (d a b : BitVec 6) (o s : BitVec 3) : Statement (.amoAnd d a b o s) := by
  intro hw w h
  cases h
  generalize hx : (0x21#8 ++ d ++ a ++ b ++ o ++ s : BitVec 32) = x
  have ⟨hE, h1, f0, f1, f2, f3, f4⟩ : (x.extractLsb' 30 2).toNat = 0 ∧ (x.extractLsb' 24 6).toNat = 33 ∧
      x.extractLsb' 18 6 = d ∧ x.extractLsb' 12 6 = a ∧ x.extractLsb' 6 6 = b ∧ x.extractLsb' 3 3 = o ∧
      x.extractLsb' 0 3 = s := by
    subst hx; simp (disch := decide) only [ex_hi, ex_lo, ex_all, Nat.reduceSub, BitVec.reduceExtractLsb', BitVec.reduceToNat, and_self]
  exact decS hw hE (by unfold decodeS; rw [h1, f0, f1, f2, f3, f4]; exact rfl)

/-- AMO_OR (R145). -/
theorem Encoding.amoOr (d a b : BitVec 6) (o s : BitVec 3) : Statement (.amoOr d a b o s) := by
  intro hw w h
  cases h
  generalize hx : (0x22#8 ++ d ++ a ++ b ++ o ++ s : BitVec 32) = x
  have ⟨hE, h1, f0, f1, f2, f3, f4⟩ : (x.extractLsb' 30 2).toNat = 0 ∧ (x.extractLsb' 24 6).toNat = 34 ∧
      x.extractLsb' 18 6 = d ∧ x.extractLsb' 12 6 = a ∧ x.extractLsb' 6 6 = b ∧ x.extractLsb' 3 3 = o ∧
      x.extractLsb' 0 3 = s := by
    subst hx; simp (disch := decide) only [ex_hi, ex_lo, ex_all, Nat.reduceSub, BitVec.reduceExtractLsb', BitVec.reduceToNat, and_self]
  exact decS hw hE (by unfold decodeS; rw [h1, f0, f1, f2, f3, f4]; exact rfl)

/-- AMO_XOR (R145). -/
theorem Encoding.amoXor (d a b : BitVec 6) (o s : BitVec 3) : Statement (.amoXor d a b o s) := by
  intro hw w h
  cases h
  generalize hx : (0x23#8 ++ d ++ a ++ b ++ o ++ s : BitVec 32) = x
  have ⟨hE, h1, f0, f1, f2, f3, f4⟩ : (x.extractLsb' 30 2).toNat = 0 ∧ (x.extractLsb' 24 6).toNat = 35 ∧
      x.extractLsb' 18 6 = d ∧ x.extractLsb' 12 6 = a ∧ x.extractLsb' 6 6 = b ∧ x.extractLsb' 3 3 = o ∧
      x.extractLsb' 0 3 = s := by
    subst hx; simp (disch := decide) only [ex_hi, ex_lo, ex_all, Nat.reduceSub, BitVec.reduceExtractLsb', BitVec.reduceToNat, and_self]
  exact decS hw hE (by unfold decodeS; rw [h1, f0, f1, f2, f3, f4]; exact rfl)

/-- AMO_MIN (R145). -/
theorem Encoding.amoMin (d a b : BitVec 6) (o s : BitVec 3) : Statement (.amoMin d a b o s) := by
  intro hw w h
  cases h
  generalize hx : (0x24#8 ++ d ++ a ++ b ++ o ++ s : BitVec 32) = x
  have ⟨hE, h1, f0, f1, f2, f3, f4⟩ : (x.extractLsb' 30 2).toNat = 0 ∧ (x.extractLsb' 24 6).toNat = 36 ∧
      x.extractLsb' 18 6 = d ∧ x.extractLsb' 12 6 = a ∧ x.extractLsb' 6 6 = b ∧ x.extractLsb' 3 3 = o ∧
      x.extractLsb' 0 3 = s := by
    subst hx; simp (disch := decide) only [ex_hi, ex_lo, ex_all, Nat.reduceSub, BitVec.reduceExtractLsb', BitVec.reduceToNat, and_self]
  exact decS hw hE (by unfold decodeS; rw [h1, f0, f1, f2, f3, f4]; exact rfl)

/-- AMO_MAX (R145). -/
theorem Encoding.amoMax (d a b : BitVec 6) (o s : BitVec 3) : Statement (.amoMax d a b o s) := by
  intro hw w h
  cases h
  generalize hx : (0x25#8 ++ d ++ a ++ b ++ o ++ s : BitVec 32) = x
  have ⟨hE, h1, f0, f1, f2, f3, f4⟩ : (x.extractLsb' 30 2).toNat = 0 ∧ (x.extractLsb' 24 6).toNat = 37 ∧
      x.extractLsb' 18 6 = d ∧ x.extractLsb' 12 6 = a ∧ x.extractLsb' 6 6 = b ∧ x.extractLsb' 3 3 = o ∧
      x.extractLsb' 0 3 = s := by
    subst hx; simp (disch := decide) only [ex_hi, ex_lo, ex_all, Nat.reduceSub, BitVec.reduceExtractLsb', BitVec.reduceToNat, and_self]
  exact decS hw hE (by unfold decodeS; rw [h1, f0, f1, f2, f3, f4]; exact rfl)

/-- AMO_MINU (R145). -/
theorem Encoding.amoMinu (d a b : BitVec 6) (o s : BitVec 3) : Statement (.amoMinu d a b o s) := by
  intro hw w h
  cases h
  generalize hx : (0x26#8 ++ d ++ a ++ b ++ o ++ s : BitVec 32) = x
  have ⟨hE, h1, f0, f1, f2, f3, f4⟩ : (x.extractLsb' 30 2).toNat = 0 ∧ (x.extractLsb' 24 6).toNat = 38 ∧
      x.extractLsb' 18 6 = d ∧ x.extractLsb' 12 6 = a ∧ x.extractLsb' 6 6 = b ∧ x.extractLsb' 3 3 = o ∧
      x.extractLsb' 0 3 = s := by
    subst hx; simp (disch := decide) only [ex_hi, ex_lo, ex_all, Nat.reduceSub, BitVec.reduceExtractLsb', BitVec.reduceToNat, and_self]
  exact decS hw hE (by unfold decodeS; rw [h1, f0, f1, f2, f3, f4]; exact rfl)

/-- AMO_MAXU (R145). -/
theorem Encoding.amoMaxu (d a b : BitVec 6) (o s : BitVec 3) : Statement (.amoMaxu d a b o s) := by
  intro hw w h
  cases h
  generalize hx : (0x27#8 ++ d ++ a ++ b ++ o ++ s : BitVec 32) = x
  have ⟨hE, h1, f0, f1, f2, f3, f4⟩ : (x.extractLsb' 30 2).toNat = 0 ∧ (x.extractLsb' 24 6).toNat = 39 ∧
      x.extractLsb' 18 6 = d ∧ x.extractLsb' 12 6 = a ∧ x.extractLsb' 6 6 = b ∧ x.extractLsb' 3 3 = o ∧
      x.extractLsb' 0 3 = s := by
    subst hx; simp (disch := decide) only [ex_hi, ex_lo, ex_all, Nat.reduceSub, BitVec.reduceExtractLsb', BitVec.reduceToNat, and_self]
  exact decS hw hE (by unfold decodeS; rw [h1, f0, f1, f2, f3, f4]; exact rfl)

/-- AMO_SWAP (R145). -/
theorem Encoding.amoSwap (d a b : BitVec 6) (o s : BitVec 3) : Statement (.amoSwap d a b o s) := by
  intro hw w h
  cases h
  generalize hx : (0x28#8 ++ d ++ a ++ b ++ o ++ s : BitVec 32) = x
  have ⟨hE, h1, f0, f1, f2, f3, f4⟩ : (x.extractLsb' 30 2).toNat = 0 ∧ (x.extractLsb' 24 6).toNat = 40 ∧
      x.extractLsb' 18 6 = d ∧ x.extractLsb' 12 6 = a ∧ x.extractLsb' 6 6 = b ∧ x.extractLsb' 3 3 = o ∧
      x.extractLsb' 0 3 = s := by
    subst hx; simp (disch := decide) only [ex_hi, ex_lo, ex_all, Nat.reduceSub, BitVec.reduceExtractLsb', BitVec.reduceToNat, and_self]
  exact decS hw hE (by unfold decodeS; rw [h1, f0, f1, f2, f3, f4]; exact rfl)

/-- CAS (R147). -/
theorem Encoding.cas (d a b : BitVec 6) (o s : BitVec 3) : Statement (.cas d a b o s) := by
  intro hw w h
  cases h
  generalize hx : (0x29#8 ++ d ++ a ++ b ++ o ++ s : BitVec 32) = x
  have ⟨hE, h1, f0, f1, f2, f3, f4⟩ : (x.extractLsb' 30 2).toNat = 0 ∧ (x.extractLsb' 24 6).toNat = 41 ∧
      x.extractLsb' 18 6 = d ∧ x.extractLsb' 12 6 = a ∧ x.extractLsb' 6 6 = b ∧ x.extractLsb' 3 3 = o ∧
      x.extractLsb' 0 3 = s := by
    subst hx; simp (disch := decide) only [ex_hi, ex_lo, ex_all, Nat.reduceSub, BitVec.reduceExtractLsb', BitVec.reduceToNat, and_self]
  exact decS hw hE (by unfold decodeS; rw [h1, f0, f1, f2, f3, f4]; exact rfl)

/-- FENCE (R107). -/
theorem Encoding.fence (o s : BitVec 3) : Statement (.fence o s) := by
  intro hw w h
  cases h
  generalize hx : (0xA80000#26 ++ o ++ s : BitVec 32) = x
  have ⟨hE, h1, f0, f1, g0⟩ : (x.extractLsb' 30 2).toNat = 0 ∧ (x.extractLsb' 24 6).toNat = 42 ∧
      x.extractLsb' 3 3 = o ∧ x.extractLsb' 0 3 = s ∧ x.extractLsb' 6 18 = 0#18 := by
    subst hx; simp (disch := decide) only [ex_hi, ex_lo, ex_all, Nat.reduceSub, BitVec.reduceExtractLsb', BitVec.reduceToNat, and_self]
  have g1 : ¬ x.extractLsb' 0 6 = 44#6 := fun q => absurd (drain_order q) (by
    rw [f0]; rintro rfl; simp [Instr.wellFormed, fenceLegal] at hw)
  exact decS hw hE (by unfold decodeS; rw [h1, f0, f1]; exact (if_neg (not_not.mpr g0)).trans (if_neg g1))

/-- FENCE_DRAIN (R107). -/
theorem Encoding.fenceDrain : Statement .fenceDrain := by
  intro hw w h
  cases h
  generalize hx : (0x2A00002C#32 : BitVec 32) = x
  have ⟨hE, h1, g0, g1⟩ : (x.extractLsb' 30 2).toNat = 0 ∧ (x.extractLsb' 24 6).toNat = 42 ∧
      x.extractLsb' 6 18 = 0#18 ∧ x.extractLsb' 0 6 = 44#6 := by
    subst hx; decide
  exact decS hw hE (by unfold decodeS; rw [h1]; exact (if_neg (not_not.mpr g0)).trans (if_pos g1))

/-- IFENCE (R149). -/
theorem Encoding.ifence : Statement .ifence := by
  intro hw w h
  cases h
  generalize hx : (0x2B000000#32 : BitVec 32) = x
  have ⟨hE, h1, g0⟩ : (x.extractLsb' 30 2).toNat = 0 ∧ (x.extractLsb' 24 6).toNat = 43 ∧
      x.extractLsb' 0 24 = 0#24 := by
    subst hx; decide
  exact decS hw hE (by unfold decodeS; rw [h1]; exact if_pos g0)

/-- SPAWN (R160). -/
theorem Encoding.spawn (a b : BitVec 6) : Statement (.spawn a b) := by
  intro hw w h
  cases h
  generalize hx : (0xB00#14 ++ a ++ b ++ 0x0#6 : BitVec 32) = x
  have ⟨hE, h1, f0, f1, g0, g1⟩ : (x.extractLsb' 30 2).toNat = 0 ∧ (x.extractLsb' 24 6).toNat = 44 ∧
      x.extractLsb' 12 6 = a ∧ x.extractLsb' 6 6 = b ∧ x.extractLsb' 18 6 = 0#6 ∧ x.extractLsb' 0 6 = 0#6 := by
    subst hx; simp (disch := decide) only [ex_hi, ex_lo, ex_all, Nat.reduceSub, BitVec.reduceExtractLsb', BitVec.reduceToNat, and_self]
  exact decS hw hE (by unfold decodeS; rw [h1, f0, f1]; exact if_pos ⟨g0, g1⟩)

/-- TAIL (R35). -/
theorem Encoding.tail : Statement .tail := by
  intro hw w h
  cases h
  generalize hx : (0x2D000000#32 : BitVec 32) = x
  have ⟨hE, h1, h2, g0⟩ : (x.extractLsb' 30 2).toNat = 0 ∧ (x.extractLsb' 24 6).toNat = 45 ∧
      (x.extractLsb' 0 18).toNat = 0 ∧ x.extractLsb' 18 6 = 0#6 := by
    subst hx; decide
  exact decS hw hE (by unfold decodeS; rw [h1, h2]; exact if_pos g0)

/-- YIELD (R161). -/
theorem Encoding.yield : Statement .yield := by
  intro hw w h
  cases h
  generalize hx : (0x2D000001#32 : BitVec 32) = x
  have ⟨hE, h1, h2, g0⟩ : (x.extractLsb' 30 2).toNat = 0 ∧ (x.extractLsb' 24 6).toNat = 45 ∧
      (x.extractLsb' 0 18).toNat = 1 ∧ x.extractLsb' 18 6 = 0#6 := by
    subst hx; decide
  exact decS hw hE (by unfold decodeS; rw [h1, h2]; exact if_pos g0)

/-- POLL (R161). -/
theorem Encoding.poll (d : BitVec 6) : Statement (.poll d) := by
  intro hw w h
  cases h
  generalize hx : (0x2D#8 ++ d ++ 0x2#18 : BitVec 32) = x
  have ⟨hE, h1, h2, f0⟩ : (x.extractLsb' 30 2).toNat = 0 ∧ (x.extractLsb' 24 6).toNat = 45 ∧
      (x.extractLsb' 0 18).toNat = 2 ∧ x.extractLsb' 18 6 = d := by
    subst hx; simp (disch := decide) only [ex_hi, ex_lo, ex_all, Nat.reduceSub, BitVec.reduceExtractLsb', BitVec.reduceToNat, and_self]
  exact decS hw hE (by unfold decodeS; rw [h1, h2, f0]; exact rfl)

/-- ADOPT (R264). -/
theorem Encoding.adopt (d a b : BitVec 6) : Statement (.adopt d a b) := by
  intro hw w h
  cases h
  generalize hx : (0x2E#8 ++ d ++ a ++ b ++ 0x0#6 : BitVec 32) = x
  have ⟨hE, h1, f0, f1, f2, g0⟩ : (x.extractLsb' 30 2).toNat = 0 ∧ (x.extractLsb' 24 6).toNat = 46 ∧
      x.extractLsb' 18 6 = d ∧ x.extractLsb' 12 6 = a ∧ x.extractLsb' 6 6 = b ∧ x.extractLsb' 0 6 = 0#6 := by
    subst hx; simp (disch := decide) only [ex_hi, ex_lo, ex_all, Nat.reduceSub, BitVec.reduceExtractLsb', BitVec.reduceToNat, and_self]
  exact decS hw hE (by unfold decodeS; rw [h1, f0, f1, f2]; exact if_pos g0)

/-- SYS (R166). -/
theorem Encoding.sys : Statement .sys := by
  intro hw w h
  cases h
  generalize hx : (0x2F000000#32 : BitVec 32) = x
  have ⟨hE, h1, h2, hp, g0⟩ : (x.extractLsb' 30 2).toNat = 0 ∧ (x.extractLsb' 24 6).toNat = 47 ∧
      (x.extractLsb' 0 6).toNat = 0 ∧ x.extractLsb' 18 6 = 0#6 ∧ x.extractLsb' 6 12 = 0#12 := by
    subst hx; decide
  exact decS hw hE (by unfold decodeS; rw [h1, h2]; exact (if_neg (not_not.mpr hp)).trans (if_pos g0))

/-- BRK (R166). -/
theorem Encoding.brk : Statement .brk := by
  intro hw w h
  cases h
  generalize hx : (0x2F000001#32 : BitVec 32) = x
  have ⟨hE, h1, h2, hp, g0⟩ : (x.extractLsb' 30 2).toNat = 0 ∧ (x.extractLsb' 24 6).toNat = 47 ∧
      (x.extractLsb' 0 6).toNat = 1 ∧ x.extractLsb' 18 6 = 0#6 ∧ x.extractLsb' 6 12 = 0#12 := by
    subst hx; decide
  exact decS hw hE (by unfold decodeS; rw [h1, h2]; exact (if_neg (not_not.mpr hp)).trans (if_pos g0))

/-- ERET (R358). -/
theorem Encoding.eret : Statement .eret := by
  intro hw w h
  cases h
  generalize hx : (0x2F000002#32 : BitVec 32) = x
  have ⟨hE, h1, h2, hp, g0⟩ : (x.extractLsb' 30 2).toNat = 0 ∧ (x.extractLsb' 24 6).toNat = 47 ∧
      (x.extractLsb' 0 6).toNat = 2 ∧ x.extractLsb' 18 6 = 0#6 ∧ x.extractLsb' 6 12 = 0#12 := by
    subst hx; decide
  exact decS hw hE (by unfold decodeS; rw [h1, h2]; exact (if_neg (not_not.mpr hp)).trans (if_pos g0))

/-- URET (R362). -/
theorem Encoding.uret : Statement .uret := by
  intro hw w h
  cases h
  generalize hx : (0x2F000003#32 : BitVec 32) = x
  have ⟨hE, h1, h2, hp, g0⟩ : (x.extractLsb' 30 2).toNat = 0 ∧ (x.extractLsb' 24 6).toNat = 47 ∧
      (x.extractLsb' 0 6).toNat = 3 ∧ x.extractLsb' 18 6 = 0#6 ∧ x.extractLsb' 6 12 = 0#12 := by
    subst hx; decide
  exact decS hw hE (by unfold decodeS; rw [h1, h2]; exact (if_neg (not_not.mpr hp)).trans (if_pos g0))

/-- RESUME (R358). -/
theorem Encoding.resume : Statement .resume := by
  intro hw w h
  cases h
  generalize hx : (0x2F000004#32 : BitVec 32) = x
  have ⟨hE, h1, h2, hp, g0⟩ : (x.extractLsb' 30 2).toNat = 0 ∧ (x.extractLsb' 24 6).toNat = 47 ∧
      (x.extractLsb' 0 6).toNat = 4 ∧ x.extractLsb' 18 6 = 0#6 ∧ x.extractLsb' 6 12 = 0#12 := by
    subst hx; decide
  exact decS hw hE (by unfold decodeS; rw [h1, h2]; exact (if_neg (not_not.mpr hp)).trans (if_pos g0))

/-- TLBINV (R168). -/
theorem Encoding.tlbinv (a b : BitVec 6) : Statement (.tlbinv a b) := by
  intro hw w h
  cases h
  generalize hx : (0xBC0#14 ++ a ++ b ++ 0x5#6 : BitVec 32) = x
  have ⟨hE, h1, h2, f0, f1, hp⟩ : (x.extractLsb' 30 2).toNat = 0 ∧ (x.extractLsb' 24 6).toNat = 47 ∧
      (x.extractLsb' 0 6).toNat = 5 ∧ x.extractLsb' 12 6 = a ∧ x.extractLsb' 6 6 = b ∧ x.extractLsb' 18 6 = 0#6 := by
    subst hx; simp (disch := decide) only [ex_hi, ex_lo, ex_all, Nat.reduceSub, BitVec.reduceExtractLsb', BitVec.reduceToNat, and_self]
  exact decS hw hE (by unfold decodeS; rw [h1, h2, f0, f1]; exact (if_neg (not_not.mpr hp)).trans rfl)

/-- HALT (R366). -/
theorem Encoding.halt : Statement .halt := by
  intro hw w h
  cases h
  generalize hx : (0x2F000006#32 : BitVec 32) = x
  have ⟨hE, h1, h2, hp, g0⟩ : (x.extractLsb' 30 2).toNat = 0 ∧ (x.extractLsb' 24 6).toNat = 47 ∧
      (x.extractLsb' 0 6).toNat = 6 ∧ x.extractLsb' 18 6 = 0#6 ∧ x.extractLsb' 6 12 = 0#12 := by
    subst hx; decide
  exact decS hw hE (by unfold decodeS; rw [h1, h2]; exact (if_neg (not_not.mpr hp)).trans (if_pos g0))

/-- BEQ (R151). -/
theorem Encoding.beq (a b : BitVec 6) (o : BitVec 12) : Statement (.beq a b o) := by
  intro hw w h
  cases h
  generalize hx : (0x30#8 ++ a ++ b ++ o : BitVec 32) = x
  have ⟨hE, h1, f0, f1, f2⟩ : (x.extractLsb' 30 2).toNat = 0 ∧ (x.extractLsb' 24 6).toNat = 48 ∧
      x.extractLsb' 18 6 = a ∧ x.extractLsb' 12 6 = b ∧ x.extractLsb' 0 12 = o := by
    subst hx; simp (disch := decide) only [ex_hi, ex_lo, ex_all, Nat.reduceSub, BitVec.reduceExtractLsb', BitVec.reduceToNat, and_self]
  exact decS hw hE (by unfold decodeS; rw [h1, f0, f1, f2]; exact rfl)

/-- BNE (R151). -/
theorem Encoding.bne (a b : BitVec 6) (o : BitVec 12) : Statement (.bne a b o) := by
  intro hw w h
  cases h
  generalize hx : (0x31#8 ++ a ++ b ++ o : BitVec 32) = x
  have ⟨hE, h1, f0, f1, f2⟩ : (x.extractLsb' 30 2).toNat = 0 ∧ (x.extractLsb' 24 6).toNat = 49 ∧
      x.extractLsb' 18 6 = a ∧ x.extractLsb' 12 6 = b ∧ x.extractLsb' 0 12 = o := by
    subst hx; simp (disch := decide) only [ex_hi, ex_lo, ex_all, Nat.reduceSub, BitVec.reduceExtractLsb', BitVec.reduceToNat, and_self]
  exact decS hw hE (by unfold decodeS; rw [h1, f0, f1, f2]; exact rfl)

/-- BLT (R151). -/
theorem Encoding.blt (a b : BitVec 6) (o : BitVec 12) : Statement (.blt a b o) := by
  intro hw w h
  cases h
  generalize hx : (0x32#8 ++ a ++ b ++ o : BitVec 32) = x
  have ⟨hE, h1, f0, f1, f2⟩ : (x.extractLsb' 30 2).toNat = 0 ∧ (x.extractLsb' 24 6).toNat = 50 ∧
      x.extractLsb' 18 6 = a ∧ x.extractLsb' 12 6 = b ∧ x.extractLsb' 0 12 = o := by
    subst hx; simp (disch := decide) only [ex_hi, ex_lo, ex_all, Nat.reduceSub, BitVec.reduceExtractLsb', BitVec.reduceToNat, and_self]
  exact decS hw hE (by unfold decodeS; rw [h1, f0, f1, f2]; exact rfl)

/-- BGE (R151). -/
theorem Encoding.bge (a b : BitVec 6) (o : BitVec 12) : Statement (.bge a b o) := by
  intro hw w h
  cases h
  generalize hx : (0x33#8 ++ a ++ b ++ o : BitVec 32) = x
  have ⟨hE, h1, f0, f1, f2⟩ : (x.extractLsb' 30 2).toNat = 0 ∧ (x.extractLsb' 24 6).toNat = 51 ∧
      x.extractLsb' 18 6 = a ∧ x.extractLsb' 12 6 = b ∧ x.extractLsb' 0 12 = o := by
    subst hx; simp (disch := decide) only [ex_hi, ex_lo, ex_all, Nat.reduceSub, BitVec.reduceExtractLsb', BitVec.reduceToNat, and_self]
  exact decS hw hE (by unfold decodeS; rw [h1, f0, f1, f2]; exact rfl)

/-- BLTU (R151). -/
theorem Encoding.bltu (a b : BitVec 6) (o : BitVec 12) : Statement (.bltu a b o) := by
  intro hw w h
  cases h
  generalize hx : (0x34#8 ++ a ++ b ++ o : BitVec 32) = x
  have ⟨hE, h1, f0, f1, f2⟩ : (x.extractLsb' 30 2).toNat = 0 ∧ (x.extractLsb' 24 6).toNat = 52 ∧
      x.extractLsb' 18 6 = a ∧ x.extractLsb' 12 6 = b ∧ x.extractLsb' 0 12 = o := by
    subst hx; simp (disch := decide) only [ex_hi, ex_lo, ex_all, Nat.reduceSub, BitVec.reduceExtractLsb', BitVec.reduceToNat, and_self]
  exact decS hw hE (by unfold decodeS; rw [h1, f0, f1, f2]; exact rfl)

/-- BGEU (R151). -/
theorem Encoding.bgeu (a b : BitVec 6) (o : BitVec 12) : Statement (.bgeu a b o) := by
  intro hw w h
  cases h
  generalize hx : (0x35#8 ++ a ++ b ++ o : BitVec 32) = x
  have ⟨hE, h1, f0, f1, f2⟩ : (x.extractLsb' 30 2).toNat = 0 ∧ (x.extractLsb' 24 6).toNat = 53 ∧
      x.extractLsb' 18 6 = a ∧ x.extractLsb' 12 6 = b ∧ x.extractLsb' 0 12 = o := by
    subst hx; simp (disch := decide) only [ex_hi, ex_lo, ex_all, Nat.reduceSub, BitVec.reduceExtractLsb', BitVec.reduceToNat, and_self]
  exact decS hw hE (by unfold decodeS; rw [h1, f0, f1, f2]; exact rfl)

/-- BP (R152). -/
theorem Encoding.bp (k : BitVec 6) (o : BitVec 12) : Statement (.bp k o) := by
  intro hw w h
  cases h
  generalize hx : (0x36#8 ++ k ++ 0x0#6 ++ o : BitVec 32) = x
  have ⟨hE, h1, h2, f0, f1⟩ : (x.extractLsb' 30 2).toNat = 0 ∧ (x.extractLsb' 24 6).toNat = 54 ∧
      (x.extractLsb' 12 6).toNat = 0 ∧ x.extractLsb' 18 6 = k ∧ x.extractLsb' 0 12 = o := by
    subst hx; simp (disch := decide) only [ex_hi, ex_lo, ex_all, Nat.reduceSub, BitVec.reduceExtractLsb', BitVec.reduceToNat, and_self]
  exact decS hw hE (by unfold decodeS; rw [h1, h2, f0, f1]; exact rfl)

/-- BP_NOT (R152). -/
theorem Encoding.bpNot (k : BitVec 6) (o : BitVec 12) : Statement (.bpNot k o) := by
  intro hw w h
  cases h
  generalize hx : (0x36#8 ++ k ++ 0x1#6 ++ o : BitVec 32) = x
  have ⟨hE, h1, h2, f0, f1⟩ : (x.extractLsb' 30 2).toNat = 0 ∧ (x.extractLsb' 24 6).toNat = 54 ∧
      (x.extractLsb' 12 6).toNat = 1 ∧ x.extractLsb' 18 6 = k ∧ x.extractLsb' 0 12 = o := by
    subst hx; simp (disch := decide) only [ex_hi, ex_lo, ex_all, Nat.reduceSub, BitVec.reduceExtractLsb', BitVec.reduceToNat, and_self]
  exact decS hw hE (by unfold decodeS; rw [h1, h2, f0, f1]; exact rfl)

/-- J (R153). -/
theorem Encoding.j (o : BitVec 18) : Statement (.j o) := by
  intro hw w h
  cases h
  generalize hx : (0xDC0#14 ++ o : BitVec 32) = x
  have ⟨hE, h1, f0, g0⟩ : (x.extractLsb' 30 2).toNat = 0 ∧ (x.extractLsb' 24 6).toNat = 55 ∧ x.extractLsb' 0 18 = o ∧
      x.extractLsb' 18 6 = 0#6 := by
    subst hx; simp (disch := decide) only [ex_hi, ex_lo, ex_all, Nat.reduceSub, BitVec.reduceExtractLsb', BitVec.reduceToNat, and_self]
  exact decS hw hE (by unfold decodeS; rw [h1, f0]; exact if_pos g0)

/-- JAL (R153). -/
theorem Encoding.jal (d : BitVec 6) (o : BitVec 18) : Statement (.jal d o) := by
  intro hw w h
  cases h
  generalize hx : (0x38#8 ++ d ++ o : BitVec 32) = x
  have ⟨hE, h1, f0, f1⟩ : (x.extractLsb' 30 2).toNat = 0 ∧ (x.extractLsb' 24 6).toNat = 56 ∧ x.extractLsb' 18 6 = d ∧
      x.extractLsb' 0 18 = o := by
    subst hx; simp (disch := decide) only [ex_hi, ex_lo, ex_all, Nat.reduceSub, BitVec.reduceExtractLsb', BitVec.reduceToNat, and_self]
  exact decS hw hE (by unfold decodeS; rw [h1, f0, f1]; exact rfl)

/-- JALR (R153). -/
theorem Encoding.jalr (d a : BitVec 6) (i : BitVec 12) : Statement (.jalr d a i) := by
  intro hw w h
  cases h
  generalize hx : (0x39#8 ++ d ++ a ++ i : BitVec 32) = x
  have ⟨hE, h1, f0, f1, f2⟩ : (x.extractLsb' 30 2).toNat = 0 ∧ (x.extractLsb' 24 6).toNat = 57 ∧
      x.extractLsb' 18 6 = d ∧ x.extractLsb' 12 6 = a ∧ x.extractLsb' 0 12 = i := by
    subst hx; simp (disch := decide) only [ex_hi, ex_lo, ex_all, Nat.reduceSub, BitVec.reduceExtractLsb', BitVec.reduceToNat, and_self]
  exact decS hw hE (by unfold decodeS; rw [h1, f0, f1, f2]; exact rfl)

/-- JTAB (R154). -/
theorem Encoding.jtab (d a : BitVec 6) (l : BitVec 12) : Statement (.jtab d a l) := by
  intro hw w h
  cases h
  generalize hx : (0x3A#8 ++ d ++ a ++ l : BitVec 32) = x
  have ⟨hE, h1, f0, f1, f2⟩ : (x.extractLsb' 30 2).toNat = 0 ∧ (x.extractLsb' 24 6).toNat = 58 ∧
      x.extractLsb' 18 6 = d ∧ x.extractLsb' 12 6 = a ∧ x.extractLsb' 0 12 = l := by
    subst hx; simp (disch := decide) only [ex_hi, ex_lo, ex_all, Nat.reduceSub, BitVec.reduceExtractLsb', BitVec.reduceToNat, and_self]
  exact decS hw hE (by unfold decodeS; rw [h1, f0, f1, f2]; exact rfl)

/-- LOOP (R155). -/
theorem Encoding.loop (a : BitVec 6) (o : BitVec 12) : Statement (.loop a o) := by
  intro hw w h
  cases h
  generalize hx : (0x3B#8 ++ a ++ 0x0#6 ++ o : BitVec 32) = x
  have ⟨hE, h1, f0, f1, g0⟩ : (x.extractLsb' 30 2).toNat = 0 ∧ (x.extractLsb' 24 6).toNat = 59 ∧
      x.extractLsb' 18 6 = a ∧ x.extractLsb' 0 12 = o ∧ x.extractLsb' 12 6 = 0#6 := by
    subst hx; simp (disch := decide) only [ex_hi, ex_lo, ex_all, Nat.reduceSub, BitVec.reduceExtractLsb', BitVec.reduceToNat, and_self]
  exact decS hw hE (by unfold decodeS; rw [h1, f0, f1]; exact if_pos g0)

/-- CSRR (R162). -/
theorem Encoding.csrr (d : BitVec 6) (c : BitVec 12) : Statement (.csrr d c) := by
  intro hw w h
  cases h
  generalize hx : (0x3C#8 ++ d ++ 0x0#6 ++ c : BitVec 32) = x
  have ⟨hE, h1, f0, f1, g0⟩ : (x.extractLsb' 30 2).toNat = 0 ∧ (x.extractLsb' 24 6).toNat = 60 ∧
      x.extractLsb' 18 6 = d ∧ x.extractLsb' 0 12 = c ∧ x.extractLsb' 12 6 = 0#6 := by
    subst hx; simp (disch := decide) only [ex_hi, ex_lo, ex_all, Nat.reduceSub, BitVec.reduceExtractLsb', BitVec.reduceToNat, and_self]
  exact decS hw hE (by unfold decodeS; rw [h1, f0, f1]; exact if_pos g0)

/-- CSRW (R162). -/
theorem Encoding.csrw (d a : BitVec 6) (c : BitVec 12) : Statement (.csrw d a c) := by
  intro hw w h
  cases h
  generalize hx : (0x3D#8 ++ d ++ a ++ c : BitVec 32) = x
  have ⟨hE, h1, f0, f1, f2⟩ : (x.extractLsb' 30 2).toNat = 0 ∧ (x.extractLsb' 24 6).toNat = 61 ∧
      x.extractLsb' 18 6 = d ∧ x.extractLsb' 12 6 = a ∧ x.extractLsb' 0 12 = c := by
    subst hx; simp (disch := decide) only [ex_hi, ex_lo, ex_all, Nat.reduceSub, BitVec.reduceExtractLsb', BitVec.reduceToNat, and_self]
  exact decS hw hE (by unfold decodeS; rw [h1, f0, f1, f2]; exact rfl)

/-- CSRS (R162). -/
theorem Encoding.csrs (d a : BitVec 6) (c : BitVec 12) : Statement (.csrs d a c) := by
  intro hw w h
  cases h
  generalize hx : (0x3E#8 ++ d ++ a ++ c : BitVec 32) = x
  have ⟨hE, h1, f0, f1, f2⟩ : (x.extractLsb' 30 2).toNat = 0 ∧ (x.extractLsb' 24 6).toNat = 62 ∧
      x.extractLsb' 18 6 = d ∧ x.extractLsb' 12 6 = a ∧ x.extractLsb' 0 12 = c := by
    subst hx; simp (disch := decide) only [ex_hi, ex_lo, ex_all, Nat.reduceSub, BitVec.reduceExtractLsb', BitVec.reduceToNat, and_self]
  exact decS hw hE (by unfold decodeS; rw [h1, f0, f1, f2]; exact rfl)

/-- CSRC (R162). -/
theorem Encoding.csrc (d a : BitVec 6) (c : BitVec 12) : Statement (.csrc d a c) := by
  intro hw w h
  cases h
  generalize hx : (0x3F#8 ++ d ++ a ++ c : BitVec 32) = x
  have ⟨hE, h1, f0, f1, f2⟩ : (x.extractLsb' 30 2).toNat = 0 ∧ (x.extractLsb' 24 6).toNat = 63 ∧
      x.extractLsb' 18 6 = d ∧ x.extractLsb' 12 6 = a ∧ x.extractLsb' 0 12 = c := by
    subst hx; simp (disch := decide) only [ex_hi, ex_lo, ex_all, Nat.reduceSub, BitVec.reduceExtractLsb', BitVec.reduceToNat, and_self]
  exact decS hw hE (by unfold decodeS; rw [h1, f0, f1, f2]; exact rfl)

/-- VADD (R176). -/
theorem Encoding.vadd (g : BitVec 4) (d a b : BitVec 5) (m t : BitVec 3) : Statement (.vadd g d a b m t) := by
  intro hw w h
  cases h
  generalize hx : (0x20#7 ++ g ++ d ++ a ++ b ++ m ++ t : BitVec 32) = x
  have ⟨hE, h1, f0, f1, f2, f3, f4, f5⟩ : (x.extractLsb' 30 2).toNat = 1 ∧ (x.extractLsb' 25 5).toNat = 0 ∧
      x.extractLsb' 21 4 = g ∧ x.extractLsb' 16 5 = d ∧ x.extractLsb' 11 5 = a ∧ x.extractLsb' 6 5 = b ∧
      x.extractLsb' 3 3 = m ∧ x.extractLsb' 0 3 = t := by
    subst hx; simp (disch := decide) only [ex_hi, ex_lo, ex_all, Nat.reduceSub, BitVec.reduceExtractLsb', BitVec.reduceToNat, and_self]
  exact decV hw hE (by unfold decodeV; rw [h1, f0, f1, f2, f3, f4, f5]; exact rfl)

/-- VSUB (R176). -/
theorem Encoding.vsub (g : BitVec 4) (d a b : BitVec 5) (m t : BitVec 3) : Statement (.vsub g d a b m t) := by
  intro hw w h
  cases h
  generalize hx : (0x21#7 ++ g ++ d ++ a ++ b ++ m ++ t : BitVec 32) = x
  have ⟨hE, h1, f0, f1, f2, f3, f4, f5⟩ : (x.extractLsb' 30 2).toNat = 1 ∧ (x.extractLsb' 25 5).toNat = 1 ∧
      x.extractLsb' 21 4 = g ∧ x.extractLsb' 16 5 = d ∧ x.extractLsb' 11 5 = a ∧ x.extractLsb' 6 5 = b ∧
      x.extractLsb' 3 3 = m ∧ x.extractLsb' 0 3 = t := by
    subst hx; simp (disch := decide) only [ex_hi, ex_lo, ex_all, Nat.reduceSub, BitVec.reduceExtractLsb', BitVec.reduceToNat, and_self]
  exact decV hw hE (by unfold decodeV; rw [h1, f0, f1, f2, f3, f4, f5]; exact rfl)

/-- VMUL (R176). -/
theorem Encoding.vmul (g : BitVec 4) (d a b : BitVec 5) (m t : BitVec 3) : Statement (.vmul g d a b m t) := by
  intro hw w h
  cases h
  generalize hx : (0x22#7 ++ g ++ d ++ a ++ b ++ m ++ t : BitVec 32) = x
  have ⟨hE, h1, f0, f1, f2, f3, f4, f5⟩ : (x.extractLsb' 30 2).toNat = 1 ∧ (x.extractLsb' 25 5).toNat = 2 ∧
      x.extractLsb' 21 4 = g ∧ x.extractLsb' 16 5 = d ∧ x.extractLsb' 11 5 = a ∧ x.extractLsb' 6 5 = b ∧
      x.extractLsb' 3 3 = m ∧ x.extractLsb' 0 3 = t := by
    subst hx; simp (disch := decide) only [ex_hi, ex_lo, ex_all, Nat.reduceSub, BitVec.reduceExtractLsb', BitVec.reduceToNat, and_self]
  exact decV hw hE (by unfold decodeV; rw [h1, f0, f1, f2, f3, f4, f5]; exact rfl)

/-- VFMA (R176). -/
theorem Encoding.vfma (g : BitVec 4) (d a b : BitVec 5) (m t : BitVec 3) : Statement (.vfma g d a b m t) := by
  intro hw w h
  cases h
  generalize hx : (0x23#7 ++ g ++ d ++ a ++ b ++ m ++ t : BitVec 32) = x
  have ⟨hE, h1, f0, f1, f2, f3, f4, f5⟩ : (x.extractLsb' 30 2).toNat = 1 ∧ (x.extractLsb' 25 5).toNat = 3 ∧
      x.extractLsb' 21 4 = g ∧ x.extractLsb' 16 5 = d ∧ x.extractLsb' 11 5 = a ∧ x.extractLsb' 6 5 = b ∧
      x.extractLsb' 3 3 = m ∧ x.extractLsb' 0 3 = t := by
    subst hx; simp (disch := decide) only [ex_hi, ex_lo, ex_all, Nat.reduceSub, BitVec.reduceExtractLsb', BitVec.reduceToNat, and_self]
  exact decV hw hE (by unfold decodeV; rw [h1, f0, f1, f2, f3, f4, f5]; exact rfl)

/-- VFMS (R176). -/
theorem Encoding.vfms (g : BitVec 4) (d a b : BitVec 5) (m t : BitVec 3) : Statement (.vfms g d a b m t) := by
  intro hw w h
  cases h
  generalize hx : (0x24#7 ++ g ++ d ++ a ++ b ++ m ++ t : BitVec 32) = x
  have ⟨hE, h1, f0, f1, f2, f3, f4, f5⟩ : (x.extractLsb' 30 2).toNat = 1 ∧ (x.extractLsb' 25 5).toNat = 4 ∧
      x.extractLsb' 21 4 = g ∧ x.extractLsb' 16 5 = d ∧ x.extractLsb' 11 5 = a ∧ x.extractLsb' 6 5 = b ∧
      x.extractLsb' 3 3 = m ∧ x.extractLsb' 0 3 = t := by
    subst hx; simp (disch := decide) only [ex_hi, ex_lo, ex_all, Nat.reduceSub, BitVec.reduceExtractLsb', BitVec.reduceToNat, and_self]
  exact decV hw hE (by unfold decodeV; rw [h1, f0, f1, f2, f3, f4, f5]; exact rfl)

/-- VMAX (R176). -/
theorem Encoding.vmax (g : BitVec 4) (d a b : BitVec 5) (m t : BitVec 3) : Statement (.vmax g d a b m t) := by
  intro hw w h
  cases h
  generalize hx : (0x25#7 ++ g ++ d ++ a ++ b ++ m ++ t : BitVec 32) = x
  have ⟨hE, h1, f0, f1, f2, f3, f4, f5⟩ : (x.extractLsb' 30 2).toNat = 1 ∧ (x.extractLsb' 25 5).toNat = 5 ∧
      x.extractLsb' 21 4 = g ∧ x.extractLsb' 16 5 = d ∧ x.extractLsb' 11 5 = a ∧ x.extractLsb' 6 5 = b ∧
      x.extractLsb' 3 3 = m ∧ x.extractLsb' 0 3 = t := by
    subst hx; simp (disch := decide) only [ex_hi, ex_lo, ex_all, Nat.reduceSub, BitVec.reduceExtractLsb', BitVec.reduceToNat, and_self]
  exact decV hw hE (by unfold decodeV; rw [h1, f0, f1, f2, f3, f4, f5]; exact rfl)

/-- VMIN (R176). -/
theorem Encoding.vmin (g : BitVec 4) (d a b : BitVec 5) (m t : BitVec 3) : Statement (.vmin g d a b m t) := by
  intro hw w h
  cases h
  generalize hx : (0x26#7 ++ g ++ d ++ a ++ b ++ m ++ t : BitVec 32) = x
  have ⟨hE, h1, f0, f1, f2, f3, f4, f5⟩ : (x.extractLsb' 30 2).toNat = 1 ∧ (x.extractLsb' 25 5).toNat = 6 ∧
      x.extractLsb' 21 4 = g ∧ x.extractLsb' 16 5 = d ∧ x.extractLsb' 11 5 = a ∧ x.extractLsb' 6 5 = b ∧
      x.extractLsb' 3 3 = m ∧ x.extractLsb' 0 3 = t := by
    subst hx; simp (disch := decide) only [ex_hi, ex_lo, ex_all, Nat.reduceSub, BitVec.reduceExtractLsb', BitVec.reduceToNat, and_self]
  exact decV hw hE (by unfold decodeV; rw [h1, f0, f1, f2, f3, f4, f5]; exact rfl)

/-- VABS (R177). -/
theorem Encoding.vabs (g : BitVec 4) (d a : BitVec 5) (m t : BitVec 3) : Statement (.vabs g d a m t) := by
  intro hw w h
  cases h
  generalize hx : (0x27#7 ++ g ++ d ++ a ++ 0x0#5 ++ m ++ t : BitVec 32) = x
  have ⟨hE, h1, h2, f0, f1, f2, f3, f4⟩ : (x.extractLsb' 30 2).toNat = 1 ∧ (x.extractLsb' 25 5).toNat = 7 ∧
      (x.extractLsb' 6 5).toNat = 0 ∧ x.extractLsb' 21 4 = g ∧ x.extractLsb' 16 5 = d ∧ x.extractLsb' 11 5 = a ∧
      x.extractLsb' 3 3 = m ∧ x.extractLsb' 0 3 = t := by
    subst hx; simp (disch := decide) only [ex_hi, ex_lo, ex_all, Nat.reduceSub, BitVec.reduceExtractLsb', BitVec.reduceToNat, and_self]
  exact decV hw hE (by unfold decodeV; rw [h1, h2, f0, f1, f2, f3, f4]; exact rfl)

/-- VNEG (R177). -/
theorem Encoding.vneg (g : BitVec 4) (d a : BitVec 5) (m t : BitVec 3) : Statement (.vneg g d a m t) := by
  intro hw w h
  cases h
  generalize hx : (0x27#7 ++ g ++ d ++ a ++ 0x1#5 ++ m ++ t : BitVec 32) = x
  have ⟨hE, h1, h2, f0, f1, f2, f3, f4⟩ : (x.extractLsb' 30 2).toNat = 1 ∧ (x.extractLsb' 25 5).toNat = 7 ∧
      (x.extractLsb' 6 5).toNat = 1 ∧ x.extractLsb' 21 4 = g ∧ x.extractLsb' 16 5 = d ∧ x.extractLsb' 11 5 = a ∧
      x.extractLsb' 3 3 = m ∧ x.extractLsb' 0 3 = t := by
    subst hx; simp (disch := decide) only [ex_hi, ex_lo, ex_all, Nat.reduceSub, BitVec.reduceExtractLsb', BitVec.reduceToNat, and_self]
  exact decV hw hE (by unfold decodeV; rw [h1, h2, f0, f1, f2, f3, f4]; exact rfl)

/-- VRCP (R178). -/
theorem Encoding.vrcp (g : BitVec 4) (d a : BitVec 5) (m t : BitVec 3) : Statement (.vrcp g d a m t) := by
  intro hw w h
  cases h
  generalize hx : (0x27#7 ++ g ++ d ++ a ++ 0x2#5 ++ m ++ t : BitVec 32) = x
  have ⟨hE, h1, h2, f0, f1, f2, f3, f4⟩ : (x.extractLsb' 30 2).toNat = 1 ∧ (x.extractLsb' 25 5).toNat = 7 ∧
      (x.extractLsb' 6 5).toNat = 2 ∧ x.extractLsb' 21 4 = g ∧ x.extractLsb' 16 5 = d ∧ x.extractLsb' 11 5 = a ∧
      x.extractLsb' 3 3 = m ∧ x.extractLsb' 0 3 = t := by
    subst hx; simp (disch := decide) only [ex_hi, ex_lo, ex_all, Nat.reduceSub, BitVec.reduceExtractLsb', BitVec.reduceToNat, and_self]
  exact decV hw hE (by unfold decodeV; rw [h1, h2, f0, f1, f2, f3, f4]; exact rfl)

/-- VRSQRT (R178). -/
theorem Encoding.vrsqrt (g : BitVec 4) (d a : BitVec 5) (m t : BitVec 3) : Statement (.vrsqrt g d a m t) := by
  intro hw w h
  cases h
  generalize hx : (0x27#7 ++ g ++ d ++ a ++ 0x3#5 ++ m ++ t : BitVec 32) = x
  have ⟨hE, h1, h2, f0, f1, f2, f3, f4⟩ : (x.extractLsb' 30 2).toNat = 1 ∧ (x.extractLsb' 25 5).toNat = 7 ∧
      (x.extractLsb' 6 5).toNat = 3 ∧ x.extractLsb' 21 4 = g ∧ x.extractLsb' 16 5 = d ∧ x.extractLsb' 11 5 = a ∧
      x.extractLsb' 3 3 = m ∧ x.extractLsb' 0 3 = t := by
    subst hx; simp (disch := decide) only [ex_hi, ex_lo, ex_all, Nat.reduceSub, BitVec.reduceExtractLsb', BitVec.reduceToNat, and_self]
  exact decV hw hE (by unfold decodeV; rw [h1, h2, f0, f1, f2, f3, f4]; exact rfl)

/-- VSQRT (R178). -/
theorem Encoding.vsqrt (g : BitVec 4) (d a : BitVec 5) (m t : BitVec 3) : Statement (.vsqrt g d a m t) := by
  intro hw w h
  cases h
  generalize hx : (0x27#7 ++ g ++ d ++ a ++ 0x4#5 ++ m ++ t : BitVec 32) = x
  have ⟨hE, h1, h2, f0, f1, f2, f3, f4⟩ : (x.extractLsb' 30 2).toNat = 1 ∧ (x.extractLsb' 25 5).toNat = 7 ∧
      (x.extractLsb' 6 5).toNat = 4 ∧ x.extractLsb' 21 4 = g ∧ x.extractLsb' 16 5 = d ∧ x.extractLsb' 11 5 = a ∧
      x.extractLsb' 3 3 = m ∧ x.extractLsb' 0 3 = t := by
    subst hx; simp (disch := decide) only [ex_hi, ex_lo, ex_all, Nat.reduceSub, BitVec.reduceExtractLsb', BitVec.reduceToNat, and_self]
  exact decV hw hE (by unfold decodeV; rw [h1, h2, f0, f1, f2, f3, f4]; exact rfl)

/-- VEXP2 (R178). -/
theorem Encoding.vexp2 (g : BitVec 4) (d a : BitVec 5) (m t : BitVec 3) : Statement (.vexp2 g d a m t) := by
  intro hw w h
  cases h
  generalize hx : (0x27#7 ++ g ++ d ++ a ++ 0x5#5 ++ m ++ t : BitVec 32) = x
  have ⟨hE, h1, h2, f0, f1, f2, f3, f4⟩ : (x.extractLsb' 30 2).toNat = 1 ∧ (x.extractLsb' 25 5).toNat = 7 ∧
      (x.extractLsb' 6 5).toNat = 5 ∧ x.extractLsb' 21 4 = g ∧ x.extractLsb' 16 5 = d ∧ x.extractLsb' 11 5 = a ∧
      x.extractLsb' 3 3 = m ∧ x.extractLsb' 0 3 = t := by
    subst hx; simp (disch := decide) only [ex_hi, ex_lo, ex_all, Nat.reduceSub, BitVec.reduceExtractLsb', BitVec.reduceToNat, and_self]
  exact decV hw hE (by unfold decodeV; rw [h1, h2, f0, f1, f2, f3, f4]; exact rfl)

/-- VLOG2 (R178). -/
theorem Encoding.vlog2 (g : BitVec 4) (d a : BitVec 5) (m t : BitVec 3) : Statement (.vlog2 g d a m t) := by
  intro hw w h
  cases h
  generalize hx : (0x27#7 ++ g ++ d ++ a ++ 0x6#5 ++ m ++ t : BitVec 32) = x
  have ⟨hE, h1, h2, f0, f1, f2, f3, f4⟩ : (x.extractLsb' 30 2).toNat = 1 ∧ (x.extractLsb' 25 5).toNat = 7 ∧
      (x.extractLsb' 6 5).toNat = 6 ∧ x.extractLsb' 21 4 = g ∧ x.extractLsb' 16 5 = d ∧ x.extractLsb' 11 5 = a ∧
      x.extractLsb' 3 3 = m ∧ x.extractLsb' 0 3 = t := by
    subst hx; simp (disch := decide) only [ex_hi, ex_lo, ex_all, Nat.reduceSub, BitVec.reduceExtractLsb', BitVec.reduceToNat, and_self]
  exact decV hw hE (by unfold decodeV; rw [h1, h2, f0, f1, f2, f3, f4]; exact rfl)

/-- VRND (R179). -/
theorem Encoding.vrnd (g : BitVec 4) (d a : BitVec 5) (m t : BitVec 3) : Statement (.vrnd g d a m t) := by
  intro hw w h
  cases h
  generalize hx : (0x27#7 ++ g ++ d ++ a ++ 0x7#5 ++ m ++ t : BitVec 32) = x
  have ⟨hE, h1, h2, f0, f1, f2, f3, f4⟩ : (x.extractLsb' 30 2).toNat = 1 ∧ (x.extractLsb' 25 5).toNat = 7 ∧
      (x.extractLsb' 6 5).toNat = 7 ∧ x.extractLsb' 21 4 = g ∧ x.extractLsb' 16 5 = d ∧ x.extractLsb' 11 5 = a ∧
      x.extractLsb' 3 3 = m ∧ x.extractLsb' 0 3 = t := by
    subst hx; simp (disch := decide) only [ex_hi, ex_lo, ex_all, Nat.reduceSub, BitVec.reduceExtractLsb', BitVec.reduceToNat, and_self]
  exact decV hw hE (by unfold decodeV; rw [h1, h2, f0, f1, f2, f3, f4]; exact rfl)

/-- VNOT (R177). -/
theorem Encoding.vnot (g : BitVec 4) (d a : BitVec 5) (m t : BitVec 3) : Statement (.vnot g d a m t) := by
  intro hw w h
  cases h
  generalize hx : (0x27#7 ++ g ++ d ++ a ++ 0x8#5 ++ m ++ t : BitVec 32) = x
  have ⟨hE, h1, h2, f0, f1, f2, f3, f4⟩ : (x.extractLsb' 30 2).toNat = 1 ∧ (x.extractLsb' 25 5).toNat = 7 ∧
      (x.extractLsb' 6 5).toNat = 8 ∧ x.extractLsb' 21 4 = g ∧ x.extractLsb' 16 5 = d ∧ x.extractLsb' 11 5 = a ∧
      x.extractLsb' 3 3 = m ∧ x.extractLsb' 0 3 = t := by
    subst hx; simp (disch := decide) only [ex_hi, ex_lo, ex_all, Nat.reduceSub, BitVec.reduceExtractLsb', BitVec.reduceToNat, and_self]
  exact decV hw hE (by unfold decodeV; rw [h1, h2, f0, f1, f2, f3, f4]; exact rfl)

/-- VMOV (R177). -/
theorem Encoding.vmov (g : BitVec 4) (d a : BitVec 5) (m t : BitVec 3) : Statement (.vmov g d a m t) := by
  intro hw w h
  cases h
  generalize hx : (0x27#7 ++ g ++ d ++ a ++ 0x9#5 ++ m ++ t : BitVec 32) = x
  have ⟨hE, h1, h2, f0, f1, f2, f3, f4⟩ : (x.extractLsb' 30 2).toNat = 1 ∧ (x.extractLsb' 25 5).toNat = 7 ∧
      (x.extractLsb' 6 5).toNat = 9 ∧ x.extractLsb' 21 4 = g ∧ x.extractLsb' 16 5 = d ∧ x.extractLsb' 11 5 = a ∧
      x.extractLsb' 3 3 = m ∧ x.extractLsb' 0 3 = t := by
    subst hx; simp (disch := decide) only [ex_hi, ex_lo, ex_all, Nat.reduceSub, BitVec.reduceExtractLsb', BitVec.reduceToNat, and_self]
  exact decV hw hE (by unfold decodeV; rw [h1, h2, f0, f1, f2, f3, f4]; exact rfl)

/-- VCVT (R181). -/
theorem Encoding.vcvt (g : BitVec 4) (d a : BitVec 5) (s : BitVec 2) (e m t : BitVec 3) : Statement (.vcvt g d a s e m t) := by
  intro hw w h
  cases h
  generalize hx : (0x28#7 ++ g ++ d ++ a ++ s ++ e ++ m ++ t : BitVec 32) = x
  have ⟨hE, h1, f0, f1, f2, f3, f4, f5, f6⟩ : (x.extractLsb' 30 2).toNat = 1 ∧ (x.extractLsb' 25 5).toNat = 8 ∧
      x.extractLsb' 21 4 = g ∧ x.extractLsb' 16 5 = d ∧ x.extractLsb' 11 5 = a ∧ x.extractLsb' 9 2 = s ∧
      x.extractLsb' 6 3 = e ∧ x.extractLsb' 3 3 = m ∧ x.extractLsb' 0 3 = t := by
    subst hx; simp (disch := decide) only [ex_hi, ex_lo, ex_all, Nat.reduceSub, BitVec.reduceExtractLsb', BitVec.reduceToNat, and_self]
  exact decV hw hE (by unfold decodeV; rw [h1, f0, f1, f2, f3, f4, f5, f6]; exact rfl)

/-- VAND (R180). -/
theorem Encoding.vand (g : BitVec 4) (d a b : BitVec 5) (m t : BitVec 3) : Statement (.vand g d a b m t) := by
  intro hw w h
  cases h
  generalize hx : (0x29#7 ++ g ++ d ++ a ++ b ++ m ++ t : BitVec 32) = x
  have ⟨hE, h1, f0, f1, f2, f3, f4, f5⟩ : (x.extractLsb' 30 2).toNat = 1 ∧ (x.extractLsb' 25 5).toNat = 9 ∧
      x.extractLsb' 21 4 = g ∧ x.extractLsb' 16 5 = d ∧ x.extractLsb' 11 5 = a ∧ x.extractLsb' 6 5 = b ∧
      x.extractLsb' 3 3 = m ∧ x.extractLsb' 0 3 = t := by
    subst hx; simp (disch := decide) only [ex_hi, ex_lo, ex_all, Nat.reduceSub, BitVec.reduceExtractLsb', BitVec.reduceToNat, and_self]
  exact decV hw hE (by unfold decodeV; rw [h1, f0, f1, f2, f3, f4, f5]; exact rfl)

/-- VOR (R180). -/
theorem Encoding.vor (g : BitVec 4) (d a b : BitVec 5) (m t : BitVec 3) : Statement (.vor g d a b m t) := by
  intro hw w h
  cases h
  generalize hx : (0x2A#7 ++ g ++ d ++ a ++ b ++ m ++ t : BitVec 32) = x
  have ⟨hE, h1, f0, f1, f2, f3, f4, f5⟩ : (x.extractLsb' 30 2).toNat = 1 ∧ (x.extractLsb' 25 5).toNat = 10 ∧
      x.extractLsb' 21 4 = g ∧ x.extractLsb' 16 5 = d ∧ x.extractLsb' 11 5 = a ∧ x.extractLsb' 6 5 = b ∧
      x.extractLsb' 3 3 = m ∧ x.extractLsb' 0 3 = t := by
    subst hx; simp (disch := decide) only [ex_hi, ex_lo, ex_all, Nat.reduceSub, BitVec.reduceExtractLsb', BitVec.reduceToNat, and_self]
  exact decV hw hE (by unfold decodeV; rw [h1, f0, f1, f2, f3, f4, f5]; exact rfl)

/-- VXOR (R180). -/
theorem Encoding.vxor (g : BitVec 4) (d a b : BitVec 5) (m t : BitVec 3) : Statement (.vxor g d a b m t) := by
  intro hw w h
  cases h
  generalize hx : (0x2B#7 ++ g ++ d ++ a ++ b ++ m ++ t : BitVec 32) = x
  have ⟨hE, h1, f0, f1, f2, f3, f4, f5⟩ : (x.extractLsb' 30 2).toNat = 1 ∧ (x.extractLsb' 25 5).toNat = 11 ∧
      x.extractLsb' 21 4 = g ∧ x.extractLsb' 16 5 = d ∧ x.extractLsb' 11 5 = a ∧ x.extractLsb' 6 5 = b ∧
      x.extractLsb' 3 3 = m ∧ x.extractLsb' 0 3 = t := by
    subst hx; simp (disch := decide) only [ex_hi, ex_lo, ex_all, Nat.reduceSub, BitVec.reduceExtractLsb', BitVec.reduceToNat, and_self]
  exact decV hw hE (by unfold decodeV; rw [h1, f0, f1, f2, f3, f4, f5]; exact rfl)

/-- VSLL (R180). -/
theorem Encoding.vsll (g : BitVec 4) (d a b : BitVec 5) (m t : BitVec 3) : Statement (.vsll g d a b m t) := by
  intro hw w h
  cases h
  generalize hx : (0x2C#7 ++ g ++ d ++ a ++ b ++ m ++ t : BitVec 32) = x
  have ⟨hE, h1, f0, f1, f2, f3, f4, f5⟩ : (x.extractLsb' 30 2).toNat = 1 ∧ (x.extractLsb' 25 5).toNat = 12 ∧
      x.extractLsb' 21 4 = g ∧ x.extractLsb' 16 5 = d ∧ x.extractLsb' 11 5 = a ∧ x.extractLsb' 6 5 = b ∧
      x.extractLsb' 3 3 = m ∧ x.extractLsb' 0 3 = t := by
    subst hx; simp (disch := decide) only [ex_hi, ex_lo, ex_all, Nat.reduceSub, BitVec.reduceExtractLsb', BitVec.reduceToNat, and_self]
  exact decV hw hE (by unfold decodeV; rw [h1, f0, f1, f2, f3, f4, f5]; exact rfl)

/-- VSRL (R180). -/
theorem Encoding.vsrl (g : BitVec 4) (d a b : BitVec 5) (m t : BitVec 3) : Statement (.vsrl g d a b m t) := by
  intro hw w h
  cases h
  generalize hx : (0x2D#7 ++ g ++ d ++ a ++ b ++ m ++ t : BitVec 32) = x
  have ⟨hE, h1, f0, f1, f2, f3, f4, f5⟩ : (x.extractLsb' 30 2).toNat = 1 ∧ (x.extractLsb' 25 5).toNat = 13 ∧
      x.extractLsb' 21 4 = g ∧ x.extractLsb' 16 5 = d ∧ x.extractLsb' 11 5 = a ∧ x.extractLsb' 6 5 = b ∧
      x.extractLsb' 3 3 = m ∧ x.extractLsb' 0 3 = t := by
    subst hx; simp (disch := decide) only [ex_hi, ex_lo, ex_all, Nat.reduceSub, BitVec.reduceExtractLsb', BitVec.reduceToNat, and_self]
  exact decV hw hE (by unfold decodeV; rw [h1, f0, f1, f2, f3, f4, f5]; exact rfl)

/-- VSRA (R180). -/
theorem Encoding.vsra (g : BitVec 4) (d a b : BitVec 5) (m t : BitVec 3) : Statement (.vsra g d a b m t) := by
  intro hw w h
  cases h
  generalize hx : (0x2E#7 ++ g ++ d ++ a ++ b ++ m ++ t : BitVec 32) = x
  have ⟨hE, h1, f0, f1, f2, f3, f4, f5⟩ : (x.extractLsb' 30 2).toNat = 1 ∧ (x.extractLsb' 25 5).toNat = 14 ∧
      x.extractLsb' 21 4 = g ∧ x.extractLsb' 16 5 = d ∧ x.extractLsb' 11 5 = a ∧ x.extractLsb' 6 5 = b ∧
      x.extractLsb' 3 3 = m ∧ x.extractLsb' 0 3 = t := by
    subst hx; simp (disch := decide) only [ex_hi, ex_lo, ex_all, Nat.reduceSub, BitVec.reduceExtractLsb', BitVec.reduceToNat, and_self]
  exact decV hw hE (by unfold decodeV; rw [h1, f0, f1, f2, f3, f4, f5]; exact rfl)

/-- VADDSAT (R180). -/
theorem Encoding.vaddsat (g : BitVec 4) (d a b : BitVec 5) (m t : BitVec 3) : Statement (.vaddsat g d a b m t) := by
  intro hw w h
  cases h
  generalize hx : (0x2F#7 ++ g ++ d ++ a ++ b ++ m ++ t : BitVec 32) = x
  have ⟨hE, h1, f0, f1, f2, f3, f4, f5⟩ : (x.extractLsb' 30 2).toNat = 1 ∧ (x.extractLsb' 25 5).toNat = 15 ∧
      x.extractLsb' 21 4 = g ∧ x.extractLsb' 16 5 = d ∧ x.extractLsb' 11 5 = a ∧ x.extractLsb' 6 5 = b ∧
      x.extractLsb' 3 3 = m ∧ x.extractLsb' 0 3 = t := by
    subst hx; simp (disch := decide) only [ex_hi, ex_lo, ex_all, Nat.reduceSub, BitVec.reduceExtractLsb', BitVec.reduceToNat, and_self]
  exact decV hw hE (by unfold decodeV; rw [h1, f0, f1, f2, f3, f4, f5]; exact rfl)

/-- VCMP_EQ (R183). -/
theorem Encoding.vcmpEq (g : BitVec 4) (d : BitVec 3) (a b : BitVec 5) (m t : BitVec 3) : Statement (.vcmpEq g d a b m t) := by
  intro hw w h
  cases h
  generalize hx : (0x30#7 ++ g ++ d ++ 0x0#2 ++ a ++ b ++ m ++ t : BitVec 32) = x
  have ⟨hE, h1, h2, f0, f1, f2, f3, f4, f5⟩ : (x.extractLsb' 30 2).toNat = 1 ∧ (x.extractLsb' 25 5).toNat = 16 ∧
      (x.extractLsb' 16 2).toNat = 0 ∧ x.extractLsb' 21 4 = g ∧ x.extractLsb' 18 3 = d ∧ x.extractLsb' 11 5 = a ∧
      x.extractLsb' 6 5 = b ∧ x.extractLsb' 3 3 = m ∧ x.extractLsb' 0 3 = t := by
    subst hx; simp (disch := decide) only [ex_hi, ex_lo, ex_all, Nat.reduceSub, BitVec.reduceExtractLsb', BitVec.reduceToNat, and_self]
  exact decV hw hE (by unfold decodeV; rw [h1, h2, f0, f1, f2, f3, f4, f5]; exact rfl)

/-- VCMP_NE (R183). -/
theorem Encoding.vcmpNe (g : BitVec 4) (d : BitVec 3) (a b : BitVec 5) (m t : BitVec 3) : Statement (.vcmpNe g d a b m t) := by
  intro hw w h
  cases h
  generalize hx : (0x30#7 ++ g ++ d ++ 0x1#2 ++ a ++ b ++ m ++ t : BitVec 32) = x
  have ⟨hE, h1, h2, f0, f1, f2, f3, f4, f5⟩ : (x.extractLsb' 30 2).toNat = 1 ∧ (x.extractLsb' 25 5).toNat = 16 ∧
      (x.extractLsb' 16 2).toNat = 1 ∧ x.extractLsb' 21 4 = g ∧ x.extractLsb' 18 3 = d ∧ x.extractLsb' 11 5 = a ∧
      x.extractLsb' 6 5 = b ∧ x.extractLsb' 3 3 = m ∧ x.extractLsb' 0 3 = t := by
    subst hx; simp (disch := decide) only [ex_hi, ex_lo, ex_all, Nat.reduceSub, BitVec.reduceExtractLsb', BitVec.reduceToNat, and_self]
  exact decV hw hE (by unfold decodeV; rw [h1, h2, f0, f1, f2, f3, f4, f5]; exact rfl)

/-- VCMP_LT (R183). -/
theorem Encoding.vcmpLt (g : BitVec 4) (d : BitVec 3) (a b : BitVec 5) (m t : BitVec 3) : Statement (.vcmpLt g d a b m t) := by
  intro hw w h
  cases h
  generalize hx : (0x30#7 ++ g ++ d ++ 0x2#2 ++ a ++ b ++ m ++ t : BitVec 32) = x
  have ⟨hE, h1, h2, f0, f1, f2, f3, f4, f5⟩ : (x.extractLsb' 30 2).toNat = 1 ∧ (x.extractLsb' 25 5).toNat = 16 ∧
      (x.extractLsb' 16 2).toNat = 2 ∧ x.extractLsb' 21 4 = g ∧ x.extractLsb' 18 3 = d ∧ x.extractLsb' 11 5 = a ∧
      x.extractLsb' 6 5 = b ∧ x.extractLsb' 3 3 = m ∧ x.extractLsb' 0 3 = t := by
    subst hx; simp (disch := decide) only [ex_hi, ex_lo, ex_all, Nat.reduceSub, BitVec.reduceExtractLsb', BitVec.reduceToNat, and_self]
  exact decV hw hE (by unfold decodeV; rw [h1, h2, f0, f1, f2, f3, f4, f5]; exact rfl)

/-- VCMP_LE (R183). -/
theorem Encoding.vcmpLe (g : BitVec 4) (d : BitVec 3) (a b : BitVec 5) (m t : BitVec 3) : Statement (.vcmpLe g d a b m t) := by
  intro hw w h
  cases h
  generalize hx : (0x30#7 ++ g ++ d ++ 0x3#2 ++ a ++ b ++ m ++ t : BitVec 32) = x
  have ⟨hE, h1, h2, f0, f1, f2, f3, f4, f5⟩ : (x.extractLsb' 30 2).toNat = 1 ∧ (x.extractLsb' 25 5).toNat = 16 ∧
      (x.extractLsb' 16 2).toNat = 3 ∧ x.extractLsb' 21 4 = g ∧ x.extractLsb' 18 3 = d ∧ x.extractLsb' 11 5 = a ∧
      x.extractLsb' 6 5 = b ∧ x.extractLsb' 3 3 = m ∧ x.extractLsb' 0 3 = t := by
    subst hx; simp (disch := decide) only [ex_hi, ex_lo, ex_all, Nat.reduceSub, BitVec.reduceExtractLsb', BitVec.reduceToNat, and_self]
  exact decV hw hE (by unfold decodeV; rw [h1, h2, f0, f1, f2, f3, f4, f5]; exact rfl)

/-- VSEL (R184). -/
theorem Encoding.vsel (g : BitVec 4) (d a b : BitVec 5) (m t : BitVec 3) : Statement (.vsel g d a b m t) := by
  intro hw w h
  cases h
  generalize hx : (0x31#7 ++ g ++ d ++ a ++ b ++ m ++ t : BitVec 32) = x
  have ⟨hE, h1, f0, f1, f2, f3, f4, f5⟩ : (x.extractLsb' 30 2).toNat = 1 ∧ (x.extractLsb' 25 5).toNat = 17 ∧
      x.extractLsb' 21 4 = g ∧ x.extractLsb' 16 5 = d ∧ x.extractLsb' 11 5 = a ∧ x.extractLsb' 6 5 = b ∧
      x.extractLsb' 3 3 = m ∧ x.extractLsb' 0 3 = t := by
    subst hx; simp (disch := decide) only [ex_hi, ex_lo, ex_all, Nat.reduceSub, BitVec.reduceExtractLsb', BitVec.reduceToNat, and_self]
  exact decV hw hE (by unfold decodeV; rw [h1, f0, f1, f2, f3, f4, f5]; exact rfl)

/-- MAND (R185). -/
theorem Encoding.mand (g : BitVec 4) (d a b : BitVec 5) : Statement (.mand g d a b) := by
  intro hw w h
  cases h
  generalize hx : (0x32#7 ++ g ++ d ++ a ++ b ++ 0x0#6 : BitVec 32) = x
  have ⟨hE, h1, h2, f0, f1, f2, f3⟩ : (x.extractLsb' 30 2).toNat = 1 ∧ (x.extractLsb' 25 5).toNat = 18 ∧
      (x.extractLsb' 0 6).toNat = 0 ∧ x.extractLsb' 21 4 = g ∧ x.extractLsb' 16 5 = d ∧ x.extractLsb' 11 5 = a ∧
      x.extractLsb' 6 5 = b := by
    subst hx; simp (disch := decide) only [ex_hi, ex_lo, ex_all, Nat.reduceSub, BitVec.reduceExtractLsb', BitVec.reduceToNat, and_self]
  exact decV hw hE (by unfold decodeV; rw [h1, h2, f0, f1, f2, f3]; exact rfl)

/-- MOR (R185). -/
theorem Encoding.mor (g : BitVec 4) (d a b : BitVec 5) : Statement (.mor g d a b) := by
  intro hw w h
  cases h
  generalize hx : (0x32#7 ++ g ++ d ++ a ++ b ++ 0x8#6 : BitVec 32) = x
  have ⟨hE, h1, h2, f0, f1, f2, f3⟩ : (x.extractLsb' 30 2).toNat = 1 ∧ (x.extractLsb' 25 5).toNat = 18 ∧
      (x.extractLsb' 0 6).toNat = 8 ∧ x.extractLsb' 21 4 = g ∧ x.extractLsb' 16 5 = d ∧ x.extractLsb' 11 5 = a ∧
      x.extractLsb' 6 5 = b := by
    subst hx; simp (disch := decide) only [ex_hi, ex_lo, ex_all, Nat.reduceSub, BitVec.reduceExtractLsb', BitVec.reduceToNat, and_self]
  exact decV hw hE (by unfold decodeV; rw [h1, h2, f0, f1, f2, f3]; exact rfl)

/-- MXOR (R185). -/
theorem Encoding.mxor (g : BitVec 4) (d a b : BitVec 5) : Statement (.mxor g d a b) := by
  intro hw w h
  cases h
  generalize hx : (0x32#7 ++ g ++ d ++ a ++ b ++ 0x10#6 : BitVec 32) = x
  have ⟨hE, h1, h2, f0, f1, f2, f3⟩ : (x.extractLsb' 30 2).toNat = 1 ∧ (x.extractLsb' 25 5).toNat = 18 ∧
      (x.extractLsb' 0 6).toNat = 16 ∧ x.extractLsb' 21 4 = g ∧ x.extractLsb' 16 5 = d ∧ x.extractLsb' 11 5 = a ∧
      x.extractLsb' 6 5 = b := by
    subst hx; simp (disch := decide) only [ex_hi, ex_lo, ex_all, Nat.reduceSub, BitVec.reduceExtractLsb', BitVec.reduceToNat, and_self]
  exact decV hw hE (by unfold decodeV; rw [h1, h2, f0, f1, f2, f3]; exact rfl)

/-- MNOT (R185). -/
theorem Encoding.mnot (g : BitVec 4) (d a : BitVec 5) : Statement (.mnot g d a) := by
  intro hw w h
  cases h
  generalize hx : (0x32#7 ++ g ++ d ++ a ++ 0x18#11 : BitVec 32) = x
  have ⟨hE, h1, h2, f0, f1, f2, g0⟩ : (x.extractLsb' 30 2).toNat = 1 ∧ (x.extractLsb' 25 5).toNat = 18 ∧
      (x.extractLsb' 0 6).toNat = 24 ∧ x.extractLsb' 21 4 = g ∧ x.extractLsb' 16 5 = d ∧ x.extractLsb' 11 5 = a ∧
      x.extractLsb' 6 5 = 0#5 := by
    subst hx; simp (disch := decide) only [ex_hi, ex_lo, ex_all, Nat.reduceSub, BitVec.reduceExtractLsb', BitVec.reduceToNat, and_self]
  exact decV hw hE (by unfold decodeV; rw [h1, h2, f0, f1, f2]; exact if_pos g0)

/-- MPOP (R185). -/
theorem Encoding.mpop (g : BitVec 4) (d a : BitVec 5) : Statement (.mpop g d a) := by
  intro hw w h
  cases h
  generalize hx : (0x32#7 ++ g ++ d ++ a ++ 0x20#11 : BitVec 32) = x
  have ⟨hE, h1, h2, f0, f1, f2, g0⟩ : (x.extractLsb' 30 2).toNat = 1 ∧ (x.extractLsb' 25 5).toNat = 18 ∧
      (x.extractLsb' 0 6).toNat = 32 ∧ x.extractLsb' 21 4 = g ∧ x.extractLsb' 16 5 = d ∧ x.extractLsb' 11 5 = a ∧
      x.extractLsb' 6 5 = 0#5 := by
    subst hx; simp (disch := decide) only [ex_hi, ex_lo, ex_all, Nat.reduceSub, BitVec.reduceExtractLsb', BitVec.reduceToNat, and_self]
  exact decV hw hE (by unfold decodeV; rw [h1, h2, f0, f1, f2]; exact if_pos g0)

/-- MFIRST (R185). -/
theorem Encoding.mfirst (g : BitVec 4) (d a : BitVec 5) : Statement (.mfirst g d a) := by
  intro hw w h
  cases h
  generalize hx : (0x32#7 ++ g ++ d ++ a ++ 0x28#11 : BitVec 32) = x
  have ⟨hE, h1, h2, f0, f1, f2, g0⟩ : (x.extractLsb' 30 2).toNat = 1 ∧ (x.extractLsb' 25 5).toNat = 18 ∧
      (x.extractLsb' 0 6).toNat = 40 ∧ x.extractLsb' 21 4 = g ∧ x.extractLsb' 16 5 = d ∧ x.extractLsb' 11 5 = a ∧
      x.extractLsb' 6 5 = 0#5 := by
    subst hx; simp (disch := decide) only [ex_hi, ex_lo, ex_all, Nat.reduceSub, BitVec.reduceExtractLsb', BitVec.reduceToNat, and_self]
  exact decV hw hE (by unfold decodeV; rw [h1, h2, f0, f1, f2]; exact if_pos g0)

/-- VBCAST (R187). -/
theorem Encoding.vbcast (g : BitVec 4) (d a : BitVec 5) (m t : BitVec 3) : Statement (.vbcast g d a m t) := by
  intro hw w h
  cases h
  generalize hx : (0x33#7 ++ g ++ d ++ a ++ 0x0#5 ++ m ++ t : BitVec 32) = x
  have ⟨hE, h1, f0, f1, f2, f3, f4, g0⟩ : (x.extractLsb' 30 2).toNat = 1 ∧ (x.extractLsb' 25 5).toNat = 19 ∧
      x.extractLsb' 21 4 = g ∧ x.extractLsb' 16 5 = d ∧ x.extractLsb' 11 5 = a ∧ x.extractLsb' 3 3 = m ∧
      x.extractLsb' 0 3 = t ∧ x.extractLsb' 6 5 = 0#5 := by
    subst hx; simp (disch := decide) only [ex_hi, ex_lo, ex_all, Nat.reduceSub, BitVec.reduceExtractLsb', BitVec.reduceToNat, and_self]
  exact decV hw hE (by unfold decodeV; rw [h1, f0, f1, f2, f3, f4]; exact if_pos g0)

/-- VPERM (R188). -/
theorem Encoding.vperm (g : BitVec 4) (d a b : BitVec 5) (m t : BitVec 3) : Statement (.vperm g d a b m t) := by
  intro hw w h
  cases h
  generalize hx : (0x34#7 ++ g ++ d ++ a ++ b ++ m ++ t : BitVec 32) = x
  have ⟨hE, h1, f0, f1, f2, f3, f4, f5⟩ : (x.extractLsb' 30 2).toNat = 1 ∧ (x.extractLsb' 25 5).toNat = 20 ∧
      x.extractLsb' 21 4 = g ∧ x.extractLsb' 16 5 = d ∧ x.extractLsb' 11 5 = a ∧ x.extractLsb' 6 5 = b ∧
      x.extractLsb' 3 3 = m ∧ x.extractLsb' 0 3 = t := by
    subst hx; simp (disch := decide) only [ex_hi, ex_lo, ex_all, Nat.reduceSub, BitVec.reduceExtractLsb', BitVec.reduceToNat, and_self]
  exact decV hw hE (by unfold decodeV; rw [h1, f0, f1, f2, f3, f4, f5]; exact rfl)

/-- VSLIDE (R189). -/
theorem Encoding.vslide (g : BitVec 4) (d a b : BitVec 5) (m t : BitVec 3) : Statement (.vslide g d a b m t) := by
  intro hw w h
  cases h
  generalize hx : (0x35#7 ++ g ++ d ++ a ++ b ++ m ++ t : BitVec 32) = x
  have ⟨hE, h1, f0, f1, f2, f3, f4, f5⟩ : (x.extractLsb' 30 2).toNat = 1 ∧ (x.extractLsb' 25 5).toNat = 21 ∧
      x.extractLsb' 21 4 = g ∧ x.extractLsb' 16 5 = d ∧ x.extractLsb' 11 5 = a ∧ x.extractLsb' 6 5 = b ∧
      x.extractLsb' 3 3 = m ∧ x.extractLsb' 0 3 = t := by
    subst hx; simp (disch := decide) only [ex_hi, ex_lo, ex_all, Nat.reduceSub, BitVec.reduceExtractLsb', BitVec.reduceToNat, and_self]
  exact decV hw hE (by unfold decodeV; rw [h1, f0, f1, f2, f3, f4, f5]; exact rfl)

/-- VEXT (R190). -/
theorem Encoding.vext (g : BitVec 4) (d a b : BitVec 5) : Statement (.vext g d a b) := by
  intro hw w h
  cases h
  generalize hx : (0x36#7 ++ g ++ d ++ a ++ b ++ 0x0#6 : BitVec 32) = x
  have ⟨hE, h1, h2, f0, f1, f2, f3⟩ : (x.extractLsb' 30 2).toNat = 1 ∧ (x.extractLsb' 25 5).toNat = 22 ∧
      (x.extractLsb' 0 6).toNat = 0 ∧ x.extractLsb' 21 4 = g ∧ x.extractLsb' 16 5 = d ∧ x.extractLsb' 11 5 = a ∧
      x.extractLsb' 6 5 = b := by
    subst hx; simp (disch := decide) only [ex_hi, ex_lo, ex_all, Nat.reduceSub, BitVec.reduceExtractLsb', BitVec.reduceToNat, and_self]
  exact decV hw hE (by unfold decodeV; rw [h1, h2, f0, f1, f2, f3]; exact rfl)

/-- VINS (R190). -/
theorem Encoding.vins (g : BitVec 4) (d a b : BitVec 5) : Statement (.vins g d a b) := by
  intro hw w h
  cases h
  generalize hx : (0x36#7 ++ g ++ d ++ a ++ b ++ 0x8#6 : BitVec 32) = x
  have ⟨hE, h1, h2, f0, f1, f2, f3⟩ : (x.extractLsb' 30 2).toNat = 1 ∧ (x.extractLsb' 25 5).toNat = 22 ∧
      (x.extractLsb' 0 6).toNat = 8 ∧ x.extractLsb' 21 4 = g ∧ x.extractLsb' 16 5 = d ∧ x.extractLsb' 11 5 = a ∧
      x.extractLsb' 6 5 = b := by
    subst hx; simp (disch := decide) only [ex_hi, ex_lo, ex_all, Nat.reduceSub, BitVec.reduceExtractLsb', BitVec.reduceToNat, and_self]
  exact decV hw hE (by unfold decodeV; rw [h1, h2, f0, f1, f2, f3]; exact rfl)

/-- VREDSUM (R191). -/
theorem Encoding.vredsum (g : BitVec 4) (d a : BitVec 5) (m t : BitVec 3) : Statement (.vredsum g d a m t) := by
  intro hw w h
  cases h
  generalize hx : (0x37#7 ++ g ++ d ++ a ++ 0x0#5 ++ m ++ t : BitVec 32) = x
  have ⟨hE, h1, h2, f0, f1, f2, f3, f4⟩ : (x.extractLsb' 30 2).toNat = 1 ∧ (x.extractLsb' 25 5).toNat = 23 ∧
      (x.extractLsb' 6 5).toNat = 0 ∧ x.extractLsb' 21 4 = g ∧ x.extractLsb' 16 5 = d ∧ x.extractLsb' 11 5 = a ∧
      x.extractLsb' 3 3 = m ∧ x.extractLsb' 0 3 = t := by
    subst hx; simp (disch := decide) only [ex_hi, ex_lo, ex_all, Nat.reduceSub, BitVec.reduceExtractLsb', BitVec.reduceToNat, and_self]
  exact decV hw hE (by unfold decodeV; rw [h1, h2, f0, f1, f2, f3, f4]; exact rfl)

/-- VREDMAX (R191). -/
theorem Encoding.vredmax (g : BitVec 4) (d a : BitVec 5) (m t : BitVec 3) : Statement (.vredmax g d a m t) := by
  intro hw w h
  cases h
  generalize hx : (0x37#7 ++ g ++ d ++ a ++ 0x1#5 ++ m ++ t : BitVec 32) = x
  have ⟨hE, h1, h2, f0, f1, f2, f3, f4⟩ : (x.extractLsb' 30 2).toNat = 1 ∧ (x.extractLsb' 25 5).toNat = 23 ∧
      (x.extractLsb' 6 5).toNat = 1 ∧ x.extractLsb' 21 4 = g ∧ x.extractLsb' 16 5 = d ∧ x.extractLsb' 11 5 = a ∧
      x.extractLsb' 3 3 = m ∧ x.extractLsb' 0 3 = t := by
    subst hx; simp (disch := decide) only [ex_hi, ex_lo, ex_all, Nat.reduceSub, BitVec.reduceExtractLsb', BitVec.reduceToNat, and_self]
  exact decV hw hE (by unfold decodeV; rw [h1, h2, f0, f1, f2, f3, f4]; exact rfl)

/-- VREDMIN (R191). -/
theorem Encoding.vredmin (g : BitVec 4) (d a : BitVec 5) (m t : BitVec 3) : Statement (.vredmin g d a m t) := by
  intro hw w h
  cases h
  generalize hx : (0x37#7 ++ g ++ d ++ a ++ 0x2#5 ++ m ++ t : BitVec 32) = x
  have ⟨hE, h1, h2, f0, f1, f2, f3, f4⟩ : (x.extractLsb' 30 2).toNat = 1 ∧ (x.extractLsb' 25 5).toNat = 23 ∧
      (x.extractLsb' 6 5).toNat = 2 ∧ x.extractLsb' 21 4 = g ∧ x.extractLsb' 16 5 = d ∧ x.extractLsb' 11 5 = a ∧
      x.extractLsb' 3 3 = m ∧ x.extractLsb' 0 3 = t := by
    subst hx; simp (disch := decide) only [ex_hi, ex_lo, ex_all, Nat.reduceSub, BitVec.reduceExtractLsb', BitVec.reduceToNat, and_self]
  exact decV hw hE (by unfold decodeV; rw [h1, h2, f0, f1, f2, f3, f4]; exact rfl)

/-- VSCAN (R191). -/
theorem Encoding.vscan (g : BitVec 4) (d a : BitVec 5) (m t : BitVec 3) : Statement (.vscan g d a m t) := by
  intro hw w h
  cases h
  generalize hx : (0x37#7 ++ g ++ d ++ a ++ 0x3#5 ++ m ++ t : BitVec 32) = x
  have ⟨hE, h1, h2, f0, f1, f2, f3, f4⟩ : (x.extractLsb' 30 2).toNat = 1 ∧ (x.extractLsb' 25 5).toNat = 23 ∧
      (x.extractLsb' 6 5).toNat = 3 ∧ x.extractLsb' 21 4 = g ∧ x.extractLsb' 16 5 = d ∧ x.extractLsb' 11 5 = a ∧
      x.extractLsb' 3 3 = m ∧ x.extractLsb' 0 3 = t := by
    subst hx; simp (disch := decide) only [ex_hi, ex_lo, ex_all, Nat.reduceSub, BitVec.reduceExtractLsb', BitVec.reduceToNat, and_self]
  exact decV hw hE (by unfold decodeV; rw [h1, h2, f0, f1, f2, f3, f4]; exact rfl)

/-- VDOT (R192). -/
theorem Encoding.vdot (g : BitVec 4) (d a b : BitVec 5) (m t : BitVec 3) : Statement (.vdot g d a b m t) := by
  intro hw w h
  cases h
  generalize hx : (0x38#7 ++ g ++ d ++ a ++ b ++ m ++ t : BitVec 32) = x
  have ⟨hE, h1, f0, f1, f2, f3, f4, f5⟩ : (x.extractLsb' 30 2).toNat = 1 ∧ (x.extractLsb' 25 5).toNat = 24 ∧
      x.extractLsb' 21 4 = g ∧ x.extractLsb' 16 5 = d ∧ x.extractLsb' 11 5 = a ∧ x.extractLsb' 6 5 = b ∧
      x.extractLsb' 3 3 = m ∧ x.extractLsb' 0 3 = t := by
    subst hx; simp (disch := decide) only [ex_hi, ex_lo, ex_all, Nat.reduceSub, BitVec.reduceExtractLsb', BitVec.reduceToNat, and_self]
  exact decV hw hE (by unfold decodeV; rw [h1, f0, f1, f2, f3, f4, f5]; exact rfl)

/-- VLD (R197). -/
theorem Encoding.vld (g : BitVec 4) (d : BitVec 5) (s : BitVec 4) (o : BitVec 6) (m t : BitVec 3) : Statement (.vld g d s o m t) := by
  intro hw w h
  cases h
  generalize hx : (0x39#7 ++ g ++ d ++ s ++ o ++ m ++ t : BitVec 32) = x
  have ⟨hE, h1, f0, f1, f2, f3, f4, f5⟩ : (x.extractLsb' 30 2).toNat = 1 ∧ (x.extractLsb' 25 5).toNat = 25 ∧
      x.extractLsb' 21 4 = g ∧ x.extractLsb' 16 5 = d ∧ x.extractLsb' 12 4 = s ∧ x.extractLsb' 6 6 = o ∧
      x.extractLsb' 3 3 = m ∧ x.extractLsb' 0 3 = t := by
    subst hx; simp (disch := decide) only [ex_hi, ex_lo, ex_all, Nat.reduceSub, BitVec.reduceExtractLsb', BitVec.reduceToNat, and_self]
  exact decV hw hE (by unfold decodeV; rw [h1, f0, f1, f2, f3, f4, f5]; exact rfl)

/-- VST (R197). -/
theorem Encoding.vst (g : BitVec 4) (d : BitVec 5) (s : BitVec 4) (o : BitVec 6) (m t : BitVec 3) : Statement (.vst g d s o m t) := by
  intro hw w h
  cases h
  generalize hx : (0x3A#7 ++ g ++ d ++ s ++ o ++ m ++ t : BitVec 32) = x
  have ⟨hE, h1, f0, f1, f2, f3, f4, f5⟩ : (x.extractLsb' 30 2).toNat = 1 ∧ (x.extractLsb' 25 5).toNat = 26 ∧
      x.extractLsb' 21 4 = g ∧ x.extractLsb' 16 5 = d ∧ x.extractLsb' 12 4 = s ∧ x.extractLsb' 6 6 = o ∧
      x.extractLsb' 3 3 = m ∧ x.extractLsb' 0 3 = t := by
    subst hx; simp (disch := decide) only [ex_hi, ex_lo, ex_all, Nat.reduceSub, BitVec.reduceExtractLsb', BitVec.reduceToNat, and_self]
  exact decV hw hE (by unfold decodeV; rw [h1, f0, f1, f2, f3, f4, f5]; exact rfl)

/-- VGTH (R199). -/
theorem Encoding.vgth (g : BitVec 4) (d : BitVec 5) (s : BitVec 4) (o : BitVec 6) (m t : BitVec 3) : Statement (.vgth g d s o m t) := by
  intro hw w h
  cases h
  generalize hx : (0x3B#7 ++ g ++ d ++ s ++ o ++ m ++ t : BitVec 32) = x
  have ⟨hE, h1, f0, f1, f2, f3, f4, f5⟩ : (x.extractLsb' 30 2).toNat = 1 ∧ (x.extractLsb' 25 5).toNat = 27 ∧
      x.extractLsb' 21 4 = g ∧ x.extractLsb' 16 5 = d ∧ x.extractLsb' 12 4 = s ∧ x.extractLsb' 6 6 = o ∧
      x.extractLsb' 3 3 = m ∧ x.extractLsb' 0 3 = t := by
    subst hx; simp (disch := decide) only [ex_hi, ex_lo, ex_all, Nat.reduceSub, BitVec.reduceExtractLsb', BitVec.reduceToNat, and_self]
  exact decV hw hE (by unfold decodeV; rw [h1, f0, f1, f2, f3, f4, f5]; exact rfl)

/-- VSCT (R199). -/
theorem Encoding.vsct (g : BitVec 4) (d : BitVec 5) (s : BitVec 4) (o : BitVec 6) (m t : BitVec 3) : Statement (.vsct g d s o m t) := by
  intro hw w h
  cases h
  generalize hx : (0x3C#7 ++ g ++ d ++ s ++ o ++ m ++ t : BitVec 32) = x
  have ⟨hE, h1, f0, f1, f2, f3, f4, f5⟩ : (x.extractLsb' 30 2).toNat = 1 ∧ (x.extractLsb' 25 5).toNat = 28 ∧
      x.extractLsb' 21 4 = g ∧ x.extractLsb' 16 5 = d ∧ x.extractLsb' 12 4 = s ∧ x.extractLsb' 6 6 = o ∧
      x.extractLsb' 3 3 = m ∧ x.extractLsb' 0 3 = t := by
    subst hx; simp (disch := decide) only [ex_hi, ex_lo, ex_all, Nat.reduceSub, BitVec.reduceExtractLsb', BitVec.reduceToNat, and_self]
  exact decV hw hE (by unfold decodeV; rw [h1, f0, f1, f2, f3, f4, f5]; exact rfl)

/-- VLDM (R200). -/
theorem Encoding.vldm (g : BitVec 4) (d : BitVec 5) (s : BitVec 4) (o : BitVec 6) (m t : BitVec 3) : Statement (.vldm g d s o m t) := by
  intro hw w h
  cases h
  generalize hx : (0x3D#7 ++ g ++ d ++ s ++ o ++ m ++ t : BitVec 32) = x
  have ⟨hE, h1, f0, f1, f2, f3, f4, f5⟩ : (x.extractLsb' 30 2).toNat = 1 ∧ (x.extractLsb' 25 5).toNat = 29 ∧
      x.extractLsb' 21 4 = g ∧ x.extractLsb' 16 5 = d ∧ x.extractLsb' 12 4 = s ∧ x.extractLsb' 6 6 = o ∧
      x.extractLsb' 3 3 = m ∧ x.extractLsb' 0 3 = t := by
    subst hx; simp (disch := decide) only [ex_hi, ex_lo, ex_all, Nat.reduceSub, BitVec.reduceExtractLsb', BitVec.reduceToNat, and_self]
  exact decV hw hE (by unfold decodeV; rw [h1, f0, f1, f2, f3, f4, f5]; exact rfl)

/-- VSTM (R200). -/
theorem Encoding.vstm (g : BitVec 4) (d : BitVec 5) (s : BitVec 4) (o : BitVec 6) (m t : BitVec 3) : Statement (.vstm g d s o m t) := by
  intro hw w h
  cases h
  generalize hx : (0x3E#7 ++ g ++ d ++ s ++ o ++ m ++ t : BitVec 32) = x
  have ⟨hE, h1, f0, f1, f2, f3, f4, f5⟩ : (x.extractLsb' 30 2).toNat = 1 ∧ (x.extractLsb' 25 5).toNat = 30 ∧
      x.extractLsb' 21 4 = g ∧ x.extractLsb' 16 5 = d ∧ x.extractLsb' 12 4 = s ∧ x.extractLsb' 6 6 = o ∧
      x.extractLsb' 3 3 = m ∧ x.extractLsb' 0 3 = t := by
    subst hx; simp (disch := decide) only [ex_hi, ex_lo, ex_all, Nat.reduceSub, BitVec.reduceExtractLsb', BitVec.reduceToNat, and_self]
  exact decV hw hE (by unfold decodeV; rw [h1, f0, f1, f2, f3, f4, f5]; exact rfl)

/-- VTOPK (R193). -/
theorem Encoding.vtopk (g d a b : BitVec 4) (k : BitVec 6) : Statement (.vtopk g d a b k) := by
  intro hw w h
  cases h
  generalize hx : (0x3F#7 ++ g ++ d ++ a ++ b ++ 0x0#3 ++ k : BitVec 32) = x
  have ⟨hE, h1, h2, f0, f1, f2, f3, f4⟩ : (x.extractLsb' 30 2).toNat = 1 ∧ (x.extractLsb' 25 5).toNat = 31 ∧
      (x.extractLsb' 6 3).toNat = 0 ∧ x.extractLsb' 21 4 = g ∧ x.extractLsb' 17 4 = d ∧ x.extractLsb' 13 4 = a ∧
      x.extractLsb' 9 4 = b ∧ x.extractLsb' 0 6 = k := by
    subst hx; simp (disch := decide) only [ex_hi, ex_lo, ex_all, Nat.reduceSub, BitVec.reduceExtractLsb', BitVec.reduceToNat, and_self]
  exact decV hw hE (by unfold decodeV; rw [h1, h2, f0, f1, f2, f3, f4]; exact rfl)

/-- VGMAX (R196). -/
theorem Encoding.vgmax (g d a b : BitVec 4) : Statement (.vgmax g d a b) := by
  intro hw w h
  cases h
  generalize hx : (0x3F#7 ++ g ++ d ++ a ++ b ++ 0x40#9 : BitVec 32) = x
  have ⟨hE, h1, h2, f0, f1, f2, f3, g0⟩ : (x.extractLsb' 30 2).toNat = 1 ∧ (x.extractLsb' 25 5).toNat = 31 ∧
      (x.extractLsb' 6 3).toNat = 1 ∧ x.extractLsb' 21 4 = g ∧ x.extractLsb' 17 4 = d ∧ x.extractLsb' 13 4 = a ∧
      x.extractLsb' 9 4 = b ∧ x.extractLsb' 0 6 = 0#6 := by
    subst hx; simp (disch := decide) only [ex_hi, ex_lo, ex_all, Nat.reduceSub, BitVec.reduceExtractLsb', BitVec.reduceToNat, and_self]
  exact decV hw hE (by unfold decodeV; rw [h1, h2, f0, f1, f2, f3]; exact if_pos g0)

/-- VRNG (R195). -/
theorem Encoding.vrng (g d a b : BitVec 4) (n : BitVec 6) : Statement (.vrng g d a b n) := by
  intro hw w h
  cases h
  generalize hx : (0x3F#7 ++ g ++ d ++ a ++ b ++ 0x2#3 ++ n : BitVec 32) = x
  have ⟨hE, h1, h2, f0, f1, f2, f3, f4⟩ : (x.extractLsb' 30 2).toNat = 1 ∧ (x.extractLsb' 25 5).toNat = 31 ∧
      (x.extractLsb' 6 3).toNat = 2 ∧ x.extractLsb' 21 4 = g ∧ x.extractLsb' 17 4 = d ∧ x.extractLsb' 13 4 = a ∧
      x.extractLsb' 9 4 = b ∧ x.extractLsb' 0 6 = n := by
    subst hx; simp (disch := decide) only [ex_hi, ex_lo, ex_all, Nat.reduceSub, BitVec.reduceExtractLsb', BitVec.reduceToNat, and_self]
  exact decV hw hE (by unfold decodeV; rw [h1, h2, f0, f1, f2, f3, f4]; exact rfl)

/-- ATTG (R253). -/
theorem Encoding.attg (g d a b : BitVec 4) (m : BitVec 1) : Statement (.attg g d a b m) := by
  intro hw w h
  cases h
  generalize hx : (0x3F#7 ++ g ++ d ++ a ++ b ++ 0x60#8 ++ m : BitVec 32) = x
  have ⟨hE, h1, h2, f0, f1, f2, f3, f4, g0⟩ : (x.extractLsb' 30 2).toNat = 1 ∧ (x.extractLsb' 25 5).toNat = 31 ∧
      (x.extractLsb' 6 3).toNat = 3 ∧ x.extractLsb' 21 4 = g ∧ x.extractLsb' 17 4 = d ∧ x.extractLsb' 13 4 = a ∧
      x.extractLsb' 9 4 = b ∧ x.extractLsb' 0 1 = m ∧ x.extractLsb' 1 5 = 0#5 := by
    subst hx; simp (disch := decide) only [ex_hi, ex_lo, ex_all, Nat.reduceSub, BitVec.reduceExtractLsb', BitVec.reduceToNat, and_self]
  exact decV hw hE (by unfold decodeV; rw [h1, h2, f0, f1, f2, f3, f4]; exact if_pos g0)

/-- VDEFER (R202). -/
theorem Encoding.vdefer (g a b : BitVec 4) : Statement (.vdefer g a b) := by
  intro hw w h
  cases h
  generalize hx : (0x3F#7 ++ g ++ 0x0#4 ++ a ++ b ++ 0x100#9 : BitVec 32) = x
  have ⟨hE, h1, h2, f0, f1, f2, g0, g1⟩ : (x.extractLsb' 30 2).toNat = 1 ∧ (x.extractLsb' 25 5).toNat = 31 ∧
      (x.extractLsb' 6 3).toNat = 4 ∧ x.extractLsb' 21 4 = g ∧ x.extractLsb' 13 4 = a ∧ x.extractLsb' 9 4 = b ∧
      x.extractLsb' 17 4 = 0#4 ∧ x.extractLsb' 0 6 = 0#6 := by
    subst hx; simp (disch := decide) only [ex_hi, ex_lo, ex_all, Nat.reduceSub, BitVec.reduceExtractLsb', BitVec.reduceToNat, and_self]
  exact decV hw hE (by unfold decodeV; rw [h1, h2, f0, f1, f2]; exact if_pos ⟨g0, g1⟩)

/-- VREDEEM (R203). -/
theorem Encoding.vredeem (g d b : BitVec 4) : Statement (.vredeem g d b) := by
  intro hw w h
  cases h
  generalize hx : (0x3F#7 ++ g ++ d ++ 0x0#4 ++ b ++ 0x140#9 : BitVec 32) = x
  have ⟨hE, h1, h2, f0, f1, f2, g0, g1⟩ : (x.extractLsb' 30 2).toNat = 1 ∧ (x.extractLsb' 25 5).toNat = 31 ∧
      (x.extractLsb' 6 3).toNat = 5 ∧ x.extractLsb' 21 4 = g ∧ x.extractLsb' 17 4 = d ∧ x.extractLsb' 9 4 = b ∧
      x.extractLsb' 13 4 = 0#4 ∧ x.extractLsb' 0 6 = 0#6 := by
    subst hx; simp (disch := decide) only [ex_hi, ex_lo, ex_all, Nat.reduceSub, BitVec.reduceExtractLsb', BitVec.reduceToNat, and_self]
  exact decV hw hE (by unfold decodeV; rw [h1, h2, f0, f1, f2]; exact if_pos ⟨g0, g1⟩)

/-- VPSET (R186). -/
theorem Encoding.vpset (g d a : BitVec 4) (c : BitVec 6) : Statement (.vpset g d a c) := by
  intro hw w h
  cases h
  generalize hx : (0x3F#7 ++ g ++ d ++ a ++ 0x6#7 ++ c : BitVec 32) = x
  have ⟨hE, h1, h2, f0, f1, f2, f3, g0⟩ : (x.extractLsb' 30 2).toNat = 1 ∧ (x.extractLsb' 25 5).toNat = 31 ∧
      (x.extractLsb' 6 3).toNat = 6 ∧ x.extractLsb' 21 4 = g ∧ x.extractLsb' 17 4 = d ∧ x.extractLsb' 13 4 = a ∧
      x.extractLsb' 0 6 = c ∧ x.extractLsb' 9 4 = 0#4 := by
    subst hx; simp (disch := decide) only [ex_hi, ex_lo, ex_all, Nat.reduceSub, BitVec.reduceExtractLsb', BitVec.reduceToNat, and_self]
  exact decV hw hE (by unfold decodeV; rw [h1, h2, f0, f1, f2, f3]; exact if_pos g0)

/-- VPUT (R204). -/
theorem Encoding.vput (g a : BitVec 4) : Statement (.vput g a) := by
  intro hw w h
  cases h
  generalize hx : (0x3F#7 ++ g ++ 0x0#4 ++ a ++ 0x1C0#13 : BitVec 32) = x
  have ⟨hE, h1, h2, f0, f1, g0, g1, g2⟩ : (x.extractLsb' 30 2).toNat = 1 ∧ (x.extractLsb' 25 5).toNat = 31 ∧
      (x.extractLsb' 6 3).toNat = 7 ∧ x.extractLsb' 21 4 = g ∧ x.extractLsb' 13 4 = a ∧ x.extractLsb' 17 4 = 0#4 ∧
      x.extractLsb' 9 4 = 0#4 ∧ x.extractLsb' 0 6 = 0#6 := by
    subst hx; simp (disch := decide) only [ex_hi, ex_lo, ex_all, Nat.reduceSub, BitVec.reduceExtractLsb', BitVec.reduceToNat, and_self]
  exact decV hw hE (by unfold decodeV; rw [h1, h2, f0, f1]; exact if_pos ⟨g0, g1, g2⟩)

/-- VPUT_VCR (R204). -/
theorem Encoding.vputVcr (g : BitVec 4) (r : BitVec 5) : Statement (.vputVcr g r) := by
  intro hw w h
  cases h
  generalize hx : (0x3F#7 ++ g ++ 0xF#16 ++ r : BitVec 32) = x
  have ⟨hE, h1, h2, f0, f1, g0, g1⟩ : (x.extractLsb' 30 2).toNat = 1 ∧ (x.extractLsb' 25 5).toNat = 31 ∧
      (x.extractLsb' 6 3).toNat = 7 ∧ x.extractLsb' 21 4 = g ∧ x.extractLsb' 0 5 = r ∧ x.extractLsb' 9 12 = 0#12 ∧
      x.extractLsb' 5 1 = 1#1 := by
    subst hx; simp (disch := decide) only [ex_hi, ex_lo, ex_all, Nat.reduceSub, BitVec.reduceExtractLsb', BitVec.reduceToNat, and_self]
  exact decV hw hE (by
    unfold decodeV; rw [h1, h2, f0, f1]; exact (if_neg fun q => low_six g1 q.2.2).trans (if_pos ⟨g0, g1⟩))

/-- NSET_COUNT (R205). -/
theorem Encoding.nsetCount (g : BitVec 4) (l : BitVec 3) (s : BitVec 4) : Statement (.nsetCount g l s) := by
  intro hw w h
  cases h
  generalize hx : (0x40#7 ++ g ++ l ++ 0x0#3 ++ s ++ 0x0#11 : BitVec 32) = x
  have ⟨hE, h1, h2, f0, f1, f2, hp⟩ : (x.extractLsb' 30 2).toNat = 2 ∧ (x.extractLsb' 25 5).toNat = 0 ∧
      (x.extractLsb' 15 3).toNat = 0 ∧ x.extractLsb' 21 4 = g ∧ x.extractLsb' 18 3 = l ∧ x.extractLsb' 11 4 = s ∧
      x.extractLsb' 0 11 = 0#11 := by
    subst hx; simp (disch := decide) only [ex_hi, ex_lo, ex_all, Nat.reduceSub, BitVec.reduceExtractLsb', BitVec.reduceToNat, and_self]
  exact decM hw hE (by unfold decodeM; rw [h1, h2, f0, f1, f2]; exact (if_neg (not_not.mpr hp)).trans rfl)

/-- NSET_SA (R205). -/
theorem Encoding.nsetSa (g : BitVec 4) (l : BitVec 3) (s : BitVec 4) : Statement (.nsetSa g l s) := by
  intro hw w h
  cases h
  generalize hx : (0x40#7 ++ g ++ l ++ 0x1#3 ++ s ++ 0x0#11 : BitVec 32) = x
  have ⟨hE, h1, h2, f0, f1, f2, hp⟩ : (x.extractLsb' 30 2).toNat = 2 ∧ (x.extractLsb' 25 5).toNat = 0 ∧
      (x.extractLsb' 15 3).toNat = 1 ∧ x.extractLsb' 21 4 = g ∧ x.extractLsb' 18 3 = l ∧ x.extractLsb' 11 4 = s ∧
      x.extractLsb' 0 11 = 0#11 := by
    subst hx; simp (disch := decide) only [ex_hi, ex_lo, ex_all, Nat.reduceSub, BitVec.reduceExtractLsb', BitVec.reduceToNat, and_self]
  exact decM hw hE (by unfold decodeM; rw [h1, h2, f0, f1, f2]; exact (if_neg (not_not.mpr hp)).trans rfl)

/-- NSET_SB (R205). -/
theorem Encoding.nsetSb (g : BitVec 4) (l : BitVec 3) (s : BitVec 4) : Statement (.nsetSb g l s) := by
  intro hw w h
  cases h
  generalize hx : (0x40#7 ++ g ++ l ++ 0x2#3 ++ s ++ 0x0#11 : BitVec 32) = x
  have ⟨hE, h1, h2, f0, f1, f2, hp⟩ : (x.extractLsb' 30 2).toNat = 2 ∧ (x.extractLsb' 25 5).toNat = 0 ∧
      (x.extractLsb' 15 3).toNat = 2 ∧ x.extractLsb' 21 4 = g ∧ x.extractLsb' 18 3 = l ∧ x.extractLsb' 11 4 = s ∧
      x.extractLsb' 0 11 = 0#11 := by
    subst hx; simp (disch := decide) only [ex_hi, ex_lo, ex_all, Nat.reduceSub, BitVec.reduceExtractLsb', BitVec.reduceToNat, and_self]
  exact decM hw hE (by unfold decodeM; rw [h1, h2, f0, f1, f2]; exact (if_neg (not_not.mpr hp)).trans rfl)

/-- NSET_SC (R205). -/
theorem Encoding.nsetSc (g : BitVec 4) (l : BitVec 3) (s : BitVec 4) : Statement (.nsetSc g l s) := by
  intro hw w h
  cases h
  generalize hx : (0x40#7 ++ g ++ l ++ 0x3#3 ++ s ++ 0x0#11 : BitVec 32) = x
  have ⟨hE, h1, h2, f0, f1, f2, hp⟩ : (x.extractLsb' 30 2).toNat = 2 ∧ (x.extractLsb' 25 5).toNat = 0 ∧
      (x.extractLsb' 15 3).toNat = 3 ∧ x.extractLsb' 21 4 = g ∧ x.extractLsb' 18 3 = l ∧ x.extractLsb' 11 4 = s ∧
      x.extractLsb' 0 11 = 0#11 := by
    subst hx; simp (disch := decide) only [ex_hi, ex_lo, ex_all, Nat.reduceSub, BitVec.reduceExtractLsb', BitVec.reduceToNat, and_self]
  exact decM hw hE (by unfold decodeM; rw [h1, h2, f0, f1, f2]; exact (if_neg (not_not.mpr hp)).trans rfl)

/-- NSET_KIND (R205). -/
theorem Encoding.nsetKind (g : BitVec 4) (l : BitVec 3) (s : BitVec 4) : Statement (.nsetKind g l s) := by
  intro hw w h
  cases h
  generalize hx : (0x40#7 ++ g ++ l ++ 0x4#3 ++ s ++ 0x0#11 : BitVec 32) = x
  have ⟨hE, h1, h2, f0, f1, f2, hp⟩ : (x.extractLsb' 30 2).toNat = 2 ∧ (x.extractLsb' 25 5).toNat = 0 ∧
      (x.extractLsb' 15 3).toNat = 4 ∧ x.extractLsb' 21 4 = g ∧ x.extractLsb' 18 3 = l ∧ x.extractLsb' 11 4 = s ∧
      x.extractLsb' 0 11 = 0#11 := by
    subst hx; simp (disch := decide) only [ex_hi, ex_lo, ex_all, Nat.reduceSub, BitVec.reduceExtractLsb', BitVec.reduceToNat, and_self]
  exact decM hw hE (by unfold decodeM; rw [h1, h2, f0, f1, f2]; exact (if_neg (not_not.mpr hp)).trans rfl)

/-- NBASE_A (R205). -/
theorem Encoding.nbaseA (g s : BitVec 4) : Statement (.nbaseA g s) := by
  intro hw w h
  cases h
  generalize hx : (0x41#7 ++ g ++ 0x0#2 ++ s ++ 0x0#15 : BitVec 32) = x
  have ⟨hE, h1, h2, f0, f1, hp⟩ : (x.extractLsb' 30 2).toNat = 2 ∧ (x.extractLsb' 25 5).toNat = 1 ∧
      (x.extractLsb' 19 2).toNat = 0 ∧ x.extractLsb' 21 4 = g ∧ x.extractLsb' 15 4 = s ∧
      x.extractLsb' 0 15 = 0#15 := by
    subst hx; simp (disch := decide) only [ex_hi, ex_lo, ex_all, Nat.reduceSub, BitVec.reduceExtractLsb', BitVec.reduceToNat, and_self]
  exact decM hw hE (by unfold decodeM; rw [h1, h2, f0, f1]; exact (if_neg (not_not.mpr hp)).trans rfl)

/-- NBASE_B (R205). -/
theorem Encoding.nbaseB (g s : BitVec 4) : Statement (.nbaseB g s) := by
  intro hw w h
  cases h
  generalize hx : (0x41#7 ++ g ++ 0x1#2 ++ s ++ 0x0#15 : BitVec 32) = x
  have ⟨hE, h1, h2, f0, f1, hp⟩ : (x.extractLsb' 30 2).toNat = 2 ∧ (x.extractLsb' 25 5).toNat = 1 ∧
      (x.extractLsb' 19 2).toNat = 1 ∧ x.extractLsb' 21 4 = g ∧ x.extractLsb' 15 4 = s ∧
      x.extractLsb' 0 15 = 0#15 := by
    subst hx; simp (disch := decide) only [ex_hi, ex_lo, ex_all, Nat.reduceSub, BitVec.reduceExtractLsb', BitVec.reduceToNat, and_self]
  exact decM hw hE (by unfold decodeM; rw [h1, h2, f0, f1]; exact (if_neg (not_not.mpr hp)).trans rfl)

/-- NBASE_C (R205). -/
theorem Encoding.nbaseC (g s : BitVec 4) : Statement (.nbaseC g s) := by
  intro hw w h
  cases h
  generalize hx : (0x41#7 ++ g ++ 0x2#2 ++ s ++ 0x0#15 : BitVec 32) = x
  have ⟨hE, h1, h2, f0, f1, hp⟩ : (x.extractLsb' 30 2).toNat = 2 ∧ (x.extractLsb' 25 5).toNat = 1 ∧
      (x.extractLsb' 19 2).toNat = 2 ∧ x.extractLsb' 21 4 = g ∧ x.extractLsb' 15 4 = s ∧
      x.extractLsb' 0 15 = 0#15 := by
    subst hx; simp (disch := decide) only [ex_hi, ex_lo, ex_all, Nat.reduceSub, BitVec.reduceExtractLsb', BitVec.reduceToNat, and_self]
  exact decM hw hE (by unfold decodeM; rw [h1, h2, f0, f1]; exact (if_neg (not_not.mpr hp)).trans rfl)

/-- NFMT (R206). -/
theorem Encoding.nfmt (g s : BitVec 4) : Statement (.nfmt g s) := by
  intro hw w h
  cases h
  generalize hx : (0x42#7 ++ g ++ s ++ 0x0#17 : BitVec 32) = x
  have ⟨hE, h1, f0, f1, g0⟩ : (x.extractLsb' 30 2).toNat = 2 ∧ (x.extractLsb' 25 5).toNat = 2 ∧
      x.extractLsb' 21 4 = g ∧ x.extractLsb' 17 4 = s ∧ x.extractLsb' 0 17 = 0#17 := by
    subst hx; simp (disch := decide) only [ex_hi, ex_lo, ex_all, Nat.reduceSub, BitVec.reduceExtractLsb', BitVec.reduceToNat, and_self]
  exact decM hw hE (by unfold decodeM; rw [h1, f0, f1]; exact if_pos g0)

/-- NGO (R211). -/
theorem Encoding.ngo (g : BitVec 4) : Statement (.ngo g) := by
  intro hw w h
  cases h
  generalize hx : (0x43#7 ++ g ++ 0x0#21 : BitVec 32) = x
  have ⟨hE, h1, f0, g0⟩ : (x.extractLsb' 30 2).toNat = 2 ∧ (x.extractLsb' 25 5).toNat = 3 ∧ x.extractLsb' 21 4 = g ∧
      x.extractLsb' 0 21 = 0#21 := by
    subst hx; simp (disch := decide) only [ex_hi, ex_lo, ex_all, Nat.reduceSub, BitVec.reduceExtractLsb', BitVec.reduceToNat, and_self]
  exact decM hw hE (by unfold decodeM; rw [h1, f0]; exact if_pos g0)

/-- NDRAIN (R217). -/
theorem Encoding.ndrain (g s f : BitVec 4) (r : BitVec 3) (t : BitVec 2) (b : BitVec 4) : Statement (.ndrain g s f r t b) := by
  intro hw w h
  cases h
  generalize hx : (0x44#7 ++ g ++ s ++ f ++ r ++ t ++ b ++ 0x0#4 : BitVec 32) = x
  have ⟨hE, h1, f0, f1, f2, f3, f4, f5, g0⟩ : (x.extractLsb' 30 2).toNat = 2 ∧ (x.extractLsb' 25 5).toNat = 4 ∧
      x.extractLsb' 21 4 = g ∧ x.extractLsb' 17 4 = s ∧ x.extractLsb' 13 4 = f ∧ x.extractLsb' 10 3 = r ∧
      x.extractLsb' 8 2 = t ∧ x.extractLsb' 4 4 = b ∧ x.extractLsb' 0 4 = 0#4 := by
    subst hx; simp (disch := decide) only [ex_hi, ex_lo, ex_all, Nat.reduceSub, BitVec.reduceExtractLsb', BitVec.reduceToNat, and_self]
  exact decM hw hE (by unfold decodeM; rw [h1, f0, f1, f2, f3, f4, f5]; exact if_pos g0)

/-- NZERO (R218). -/
theorem Encoding.nzero (g : BitVec 4) : Statement (.nzero g) := by
  intro hw w h
  cases h
  generalize hx : (0x45#7 ++ g ++ 0x0#21 : BitVec 32) = x
  have ⟨hE, h1, f0, g0⟩ : (x.extractLsb' 30 2).toNat = 2 ∧ (x.extractLsb' 25 5).toNat = 5 ∧ x.extractLsb' 21 4 = g ∧
      x.extractLsb' 0 21 = 0#21 := by
    subst hx; simp (disch := decide) only [ex_hi, ex_lo, ex_all, Nat.reduceSub, BitVec.reduceExtractLsb', BitVec.reduceToNat, and_self]
  exact decM hw hE (by unfold decodeM; rw [h1, f0]; exact if_pos g0)

/-- NLOAD (R218). -/
theorem Encoding.nload (g s f : BitVec 4) : Statement (.nload g s f) := by
  intro hw w h
  cases h
  generalize hx : (0x46#7 ++ g ++ s ++ f ++ 0x0#13 : BitVec 32) = x
  have ⟨hE, h1, f0, f1, f2, g0⟩ : (x.extractLsb' 30 2).toNat = 2 ∧ (x.extractLsb' 25 5).toNat = 6 ∧
      x.extractLsb' 21 4 = g ∧ x.extractLsb' 17 4 = s ∧ x.extractLsb' 13 4 = f ∧ x.extractLsb' 0 13 = 0#13 := by
    subst hx; simp (disch := decide) only [ex_hi, ex_lo, ex_all, Nat.reduceSub, BitVec.reduceExtractLsb', BitVec.reduceToNat, and_self]
  exact decM hw hE (by unfold decodeM; rw [h1, f0, f1, f2]; exact if_pos g0)

/-- NWAIT (R219). -/
theorem Encoding.nwait (g : BitVec 4) (t : BitVec 9) : Statement (.nwait g t) := by
  intro hw w h
  cases h
  generalize hx : (0x47#7 ++ g ++ t ++ 0x0#12 : BitVec 32) = x
  have ⟨hE, h1, f0, f1, g0⟩ : (x.extractLsb' 30 2).toNat = 2 ∧ (x.extractLsb' 25 5).toNat = 7 ∧
      x.extractLsb' 21 4 = g ∧ x.extractLsb' 12 9 = t ∧ x.extractLsb' 0 12 = 0#12 := by
    subst hx; simp (disch := decide) only [ex_hi, ex_lo, ex_all, Nat.reduceSub, BitVec.reduceExtractLsb', BitVec.reduceToNat, and_self]
  exact decM hw hE (by unfold decodeM; rw [h1, f0, f1]; exact if_pos g0)

/-- DCP (R222). -/
theorem Encoding.dcp (g d a b f : BitVec 4) (r : BitVec 3) (s e : BitVec 1) : Statement (.dcp g d a b f r s e) := by
  intro hw w h
  cases h
  generalize hx : (0x60#7 ++ g ++ d ++ a ++ b ++ f ++ r ++ s ++ e : BitVec 32) = x
  have ⟨hE, h1, f0, f1, f2, f3, f4, f5, f6, f7⟩ : (x.extractLsb' 30 2).toNat = 3 ∧ (x.extractLsb' 25 5).toNat = 0 ∧
      x.extractLsb' 21 4 = g ∧ x.extractLsb' 17 4 = d ∧ x.extractLsb' 13 4 = a ∧ x.extractLsb' 9 4 = b ∧
      x.extractLsb' 5 4 = f ∧ x.extractLsb' 2 3 = r ∧ x.extractLsb' 1 1 = s ∧ x.extractLsb' 0 1 = e := by
    subst hx; simp (disch := decide) only [ex_hi, ex_lo, ex_all, Nat.reduceSub, BitVec.reduceExtractLsb', BitVec.reduceToNat, and_self]
  exact decD hw hE (by unfold decodeD; rw [h1, f0, f1, f2, f3, f4, f5, f6, f7]; exact rfl)

/-- DCP2 (R222). -/
theorem Encoding.dcp2 (g d a b f : BitVec 4) (r : BitVec 3) (s e : BitVec 1) : Statement (.dcp2 g d a b f r s e) := by
  intro hw w h
  cases h
  generalize hx : (0x61#7 ++ g ++ d ++ a ++ b ++ f ++ r ++ s ++ e : BitVec 32) = x
  have ⟨hE, h1, f0, f1, f2, f3, f4, f5, f6, f7⟩ : (x.extractLsb' 30 2).toNat = 3 ∧ (x.extractLsb' 25 5).toNat = 1 ∧
      x.extractLsb' 21 4 = g ∧ x.extractLsb' 17 4 = d ∧ x.extractLsb' 13 4 = a ∧ x.extractLsb' 9 4 = b ∧
      x.extractLsb' 5 4 = f ∧ x.extractLsb' 2 3 = r ∧ x.extractLsb' 1 1 = s ∧ x.extractLsb' 0 1 = e := by
    subst hx; simp (disch := decide) only [ex_hi, ex_lo, ex_all, Nat.reduceSub, BitVec.reduceExtractLsb', BitVec.reduceToNat, and_self]
  exact decD hw hE (by unfold decodeD; rw [h1, f0, f1, f2, f3, f4, f5, f6, f7]; exact rfl)

/-- DCPN (R222). -/
theorem Encoding.dcpn (g d a b f : BitVec 4) (r : BitVec 3) (s e : BitVec 1) : Statement (.dcpn g d a b f r s e) := by
  intro hw w h
  cases h
  generalize hx : (0x62#7 ++ g ++ d ++ a ++ b ++ f ++ r ++ s ++ e : BitVec 32) = x
  have ⟨hE, h1, f0, f1, f2, f3, f4, f5, f6, f7⟩ : (x.extractLsb' 30 2).toNat = 3 ∧ (x.extractLsb' 25 5).toNat = 2 ∧
      x.extractLsb' 21 4 = g ∧ x.extractLsb' 17 4 = d ∧ x.extractLsb' 13 4 = a ∧ x.extractLsb' 9 4 = b ∧
      x.extractLsb' 5 4 = f ∧ x.extractLsb' 2 3 = r ∧ x.extractLsb' 1 1 = s ∧ x.extractLsb' 0 1 = e := by
    subst hx; simp (disch := decide) only [ex_hi, ex_lo, ex_all, Nat.reduceSub, BitVec.reduceExtractLsb', BitVec.reduceToNat, and_self]
  exact decD hw hE (by unfold decodeD; rw [h1, f0, f1, f2, f3, f4, f5, f6, f7]; exact rfl)

/-- DGTH (R226). -/
theorem Encoding.dgth (g d a b f : BitVec 4) (r : BitVec 3) (s e : BitVec 1) : Statement (.dgth g d a b f r s e) := by
  intro hw w h
  cases h
  generalize hx : (0x63#7 ++ g ++ d ++ a ++ b ++ f ++ r ++ s ++ e : BitVec 32) = x
  have ⟨hE, h1, f0, f1, f2, f3, f4, f5, f6, f7⟩ : (x.extractLsb' 30 2).toNat = 3 ∧ (x.extractLsb' 25 5).toNat = 3 ∧
      x.extractLsb' 21 4 = g ∧ x.extractLsb' 17 4 = d ∧ x.extractLsb' 13 4 = a ∧ x.extractLsb' 9 4 = b ∧
      x.extractLsb' 5 4 = f ∧ x.extractLsb' 2 3 = r ∧ x.extractLsb' 1 1 = s ∧ x.extractLsb' 0 1 = e := by
    subst hx; simp (disch := decide) only [ex_hi, ex_lo, ex_all, Nat.reduceSub, BitVec.reduceExtractLsb', BitVec.reduceToNat, and_self]
  exact decD hw hE (by unfold decodeD; rw [h1, f0, f1, f2, f3, f4, f5, f6, f7]; exact rfl)

/-- DSCT (R226). -/
theorem Encoding.dsct (g d a b f : BitVec 4) (r : BitVec 3) (s e : BitVec 1) : Statement (.dsct g d a b f r s e) := by
  intro hw w h
  cases h
  generalize hx : (0x64#7 ++ g ++ d ++ a ++ b ++ f ++ r ++ s ++ e : BitVec 32) = x
  have ⟨hE, h1, f0, f1, f2, f3, f4, f5, f6, f7⟩ : (x.extractLsb' 30 2).toNat = 3 ∧ (x.extractLsb' 25 5).toNat = 4 ∧
      x.extractLsb' 21 4 = g ∧ x.extractLsb' 17 4 = d ∧ x.extractLsb' 13 4 = a ∧ x.extractLsb' 9 4 = b ∧
      x.extractLsb' 5 4 = f ∧ x.extractLsb' 2 3 = r ∧ x.extractLsb' 1 1 = s ∧ x.extractLsb' 0 1 = e := by
    subst hx; simp (disch := decide) only [ex_hi, ex_lo, ex_all, Nat.reduceSub, BitVec.reduceExtractLsb', BitVec.reduceToNat, and_self]
  exact decD hw hE (by unfold decodeD; rw [h1, f0, f1, f2, f3, f4, f5, f6, f7]; exact rfl)

/-- DFILL (R227). -/
theorem Encoding.dfill (g d a b : BitVec 4) (e : BitVec 1) : Statement (.dfill g d a b e) := by
  intro hw w h
  cases h
  generalize hx : (0x65#7 ++ g ++ d ++ a ++ b ++ 0x0#8 ++ e : BitVec 32) = x
  have ⟨hE, h1, f0, f1, f2, f3, f4, g0⟩ : (x.extractLsb' 30 2).toNat = 3 ∧ (x.extractLsb' 25 5).toNat = 5 ∧
      x.extractLsb' 21 4 = g ∧ x.extractLsb' 17 4 = d ∧ x.extractLsb' 13 4 = a ∧ x.extractLsb' 9 4 = b ∧
      x.extractLsb' 0 1 = e ∧ x.extractLsb' 1 8 = 0#8 := by
    subst hx; simp (disch := decide) only [ex_hi, ex_lo, ex_all, Nat.reduceSub, BitVec.reduceExtractLsb', BitVec.reduceToNat, and_self]
  exact decD hw hE (by unfold decodeD; rw [h1, f0, f1, f2, f3, f4]; exact if_pos g0)

/-- DEVT (R228). -/
theorem Encoding.devt (g : BitVec 4) (t : BitVec 9) (s : BitVec 3) : Statement (.devt g t s) := by
  intro hw w h
  cases h
  generalize hx : (0x66#7 ++ g ++ 0x0#3 ++ t ++ s ++ 0x0#6 : BitVec 32) = x
  have ⟨hE, h1, f0, f1, f2, g0, g1⟩ : (x.extractLsb' 30 2).toNat = 3 ∧ (x.extractLsb' 25 5).toNat = 6 ∧
      x.extractLsb' 21 4 = g ∧ x.extractLsb' 9 9 = t ∧ x.extractLsb' 6 3 = s ∧ x.extractLsb' 18 3 = 0#3 ∧
      x.extractLsb' 0 6 = 0#6 := by
    subst hx; simp (disch := decide) only [ex_hi, ex_lo, ex_all, Nat.reduceSub, BitVec.reduceExtractLsb', BitVec.reduceToNat, and_self]
  exact decD hw hE (by unfold decodeD; rw [h1, f0, f1, f2]; exact if_pos ⟨g0, g1⟩)

/-- DWIN (R277). -/
theorem Encoding.dwin (g a w : BitVec 4) : Statement (.dwin g a w) := by
  intro hw w h
  cases h
  generalize hx : (0x68#7 ++ g ++ 0x0#4 ++ a ++ 0x0#9 ++ w : BitVec 32) = x
  have ⟨hE, h1, f0, f1, f2, g0, g1⟩ : (x.extractLsb' 30 2).toNat = 3 ∧ (x.extractLsb' 25 5).toNat = 8 ∧
      x.extractLsb' 21 4 = g ∧ x.extractLsb' 13 4 = a ∧ x.extractLsb' 0 4 = w ∧ x.extractLsb' 17 4 = 0#4 ∧
      x.extractLsb' 4 9 = 0#9 := by
    subst hx; simp (disch := decide) only [ex_hi, ex_lo, ex_all, Nat.reduceSub, BitVec.reduceExtractLsb', BitVec.reduceToNat, and_self]
  exact decD hw hE (by unfold decodeD; rw [h1, f0, f1, f2]; exact if_pos ⟨g0, g1⟩)

/-- DSPAN (R282). -/
theorem Encoding.dspan (g w : BitVec 4) : Statement (.dspan g w) := by
  intro hw w h
  cases h
  generalize hx : (0x69#7 ++ g ++ 0x0#17 ++ w : BitVec 32) = x
  have ⟨hE, h1, h2, f0, f1⟩ : (x.extractLsb' 30 2).toNat = 3 ∧ (x.extractLsb' 25 5).toNat = 9 ∧
      (x.extractLsb' 4 17).toNat = 0 ∧ x.extractLsb' 21 4 = g ∧ x.extractLsb' 0 4 = w := by
    subst hx; simp (disch := decide) only [ex_hi, ex_lo, ex_all, Nat.reduceSub, BitVec.reduceExtractLsb', BitVec.reduceToNat, and_self]
  exact decD hw hE (by unfold decodeD; rw [h1, h2, f0, f1]; exact rfl)

/-- DSPAN_RETRY (R282). -/
theorem Encoding.dspanRetry (g w : BitVec 4) : Statement (.dspanRetry g w) := by
  intro hw w h
  cases h
  generalize hx : (0x69#7 ++ g ++ 0x1#17 ++ w : BitVec 32) = x
  have ⟨hE, h1, h2, f0, f1⟩ : (x.extractLsb' 30 2).toNat = 3 ∧ (x.extractLsb' 25 5).toNat = 9 ∧
      (x.extractLsb' 4 17).toNat = 1 ∧ x.extractLsb' 21 4 = g ∧ x.extractLsb' 0 4 = w := by
    subst hx; simp (disch := decide) only [ex_hi, ex_lo, ex_all, Nat.reduceSub, BitVec.reduceExtractLsb', BitVec.reduceToNat, and_self]
  exact decD hw hE (by unfold decodeD; rw [h1, h2, f0, f1]; exact rfl)

/-- DKEY (R285). -/
theorem Encoding.dkey (g d a b w : BitVec 4) : Statement (.dkey g d a b w) := by
  intro hw w h
  cases h
  generalize hx : (0x6A#7 ++ g ++ d ++ a ++ b ++ 0x0#5 ++ w : BitVec 32) = x
  have ⟨hE, h1, f0, f1, f2, f3, f4, g0⟩ : (x.extractLsb' 30 2).toNat = 3 ∧ (x.extractLsb' 25 5).toNat = 10 ∧
      x.extractLsb' 21 4 = g ∧ x.extractLsb' 17 4 = d ∧ x.extractLsb' 13 4 = a ∧ x.extractLsb' 9 4 = b ∧
      x.extractLsb' 0 4 = w ∧ x.extractLsb' 4 5 = 0#5 := by
    subst hx; simp (disch := decide) only [ex_hi, ex_lo, ex_all, Nat.reduceSub, BitVec.reduceExtractLsb', BitVec.reduceToNat, and_self]
  exact decD hw hE (by unfold decodeD; rw [h1, f0, f1, f2, f3, f4]; exact if_pos g0)

/-- DCOLL_RS (R296). -/
theorem Encoding.dcollRs (g d a b : BitVec 4) : Statement (.dcollRs g d a b) := by
  intro hw w h
  cases h
  generalize hx : (0x6B#7 ++ g ++ d ++ a ++ b ++ 0x0#9 : BitVec 32) = x
  have ⟨hE, h1, h2, f0, f1, f2, f3⟩ : (x.extractLsb' 30 2).toNat = 3 ∧ (x.extractLsb' 25 5).toNat = 11 ∧
      (x.extractLsb' 0 9).toNat = 0 ∧ x.extractLsb' 21 4 = g ∧ x.extractLsb' 17 4 = d ∧ x.extractLsb' 13 4 = a ∧
      x.extractLsb' 9 4 = b := by
    subst hx; simp (disch := decide) only [ex_hi, ex_lo, ex_all, Nat.reduceSub, BitVec.reduceExtractLsb', BitVec.reduceToNat, and_self]
  exact decD hw hE (by unfold decodeD; rw [h1, h2, f0, f1, f2, f3]; exact rfl)

/-- DCOLL_AG (R298). -/
theorem Encoding.dcollAg (g d a b : BitVec 4) : Statement (.dcollAg g d a b) := by
  intro hw w h
  cases h
  generalize hx : (0x6B#7 ++ g ++ d ++ a ++ b ++ 0x40#9 : BitVec 32) = x
  have ⟨hE, h1, h2, f0, f1, f2, f3⟩ : (x.extractLsb' 30 2).toNat = 3 ∧ (x.extractLsb' 25 5).toNat = 11 ∧
      (x.extractLsb' 0 9).toNat = 64 ∧ x.extractLsb' 21 4 = g ∧ x.extractLsb' 17 4 = d ∧ x.extractLsb' 13 4 = a ∧
      x.extractLsb' 9 4 = b := by
    subst hx; simp (disch := decide) only [ex_hi, ex_lo, ex_all, Nat.reduceSub, BitVec.reduceExtractLsb', BitVec.reduceToNat, and_self]
  exact decD hw hE (by unfold decodeD; rw [h1, h2, f0, f1, f2, f3]; exact rfl)

/-- DCOLL_AR (R298). -/
theorem Encoding.dcollAr (g d a b : BitVec 4) : Statement (.dcollAr g d a b) := by
  intro hw w h
  cases h
  generalize hx : (0x6B#7 ++ g ++ d ++ a ++ b ++ 0x80#9 : BitVec 32) = x
  have ⟨hE, h1, h2, f0, f1, f2, f3⟩ : (x.extractLsb' 30 2).toNat = 3 ∧ (x.extractLsb' 25 5).toNat = 11 ∧
      (x.extractLsb' 0 9).toNat = 128 ∧ x.extractLsb' 21 4 = g ∧ x.extractLsb' 17 4 = d ∧ x.extractLsb' 13 4 = a ∧
      x.extractLsb' 9 4 = b := by
    subst hx; simp (disch := decide) only [ex_hi, ex_lo, ex_all, Nat.reduceSub, BitVec.reduceExtractLsb', BitVec.reduceToNat, and_self]
  exact decD hw hE (by unfold decodeD; rw [h1, h2, f0, f1, f2, f3]; exact rfl)

/-- DCOLL_SMAX (R298). -/
theorem Encoding.dcollSmax (g d a b : BitVec 4) : Statement (.dcollSmax g d a b) := by
  intro hw w h
  cases h
  generalize hx : (0x6B#7 ++ g ++ d ++ a ++ b ++ 0xC0#9 : BitVec 32) = x
  have ⟨hE, h1, h2, f0, f1, f2, f3⟩ : (x.extractLsb' 30 2).toNat = 3 ∧ (x.extractLsb' 25 5).toNat = 11 ∧
      (x.extractLsb' 0 9).toNat = 192 ∧ x.extractLsb' 21 4 = g ∧ x.extractLsb' 17 4 = d ∧ x.extractLsb' 13 4 = a ∧
      x.extractLsb' 9 4 = b := by
    subst hx; simp (disch := decide) only [ex_hi, ex_lo, ex_all, Nat.reduceSub, BitVec.reduceExtractLsb', BitVec.reduceToNat, and_self]
  exact decD hw hE (by unfold decodeD; rw [h1, h2, f0, f1, f2, f3]; exact rfl)

/-- DCOLL_BC (R298). -/
theorem Encoding.dcollBc (g d a b : BitVec 4) : Statement (.dcollBc g d a b) := by
  intro hw w h
  cases h
  generalize hx : (0x6B#7 ++ g ++ d ++ a ++ b ++ 0x100#9 : BitVec 32) = x
  have ⟨hE, h1, h2, f0, f1, f2, f3⟩ : (x.extractLsb' 30 2).toNat = 3 ∧ (x.extractLsb' 25 5).toNat = 11 ∧
      (x.extractLsb' 0 9).toNat = 256 ∧ x.extractLsb' 21 4 = g ∧ x.extractLsb' 17 4 = d ∧ x.extractLsb' 13 4 = a ∧
      x.extractLsb' 9 4 = b := by
    subst hx; simp (disch := decide) only [ex_hi, ex_lo, ex_all, Nat.reduceSub, BitVec.reduceExtractLsb', BitVec.reduceToNat, and_self]
  exact decD hw hE (by unfold decodeD; rw [h1, h2, f0, f1, f2, f3]; exact rfl)

/-- KVLOOK (R244). -/
theorem Encoding.kvlook (g d a b : BitVec 4) (e : BitVec 1) : Statement (.kvlook g d a b e) := by
  intro hw w h
  cases h
  generalize hx : (0x70#7 ++ g ++ d ++ a ++ b ++ 0x0#8 ++ e : BitVec 32) = x
  have ⟨hE, h1, f0, f1, f2, f3, f4, g0⟩ : (x.extractLsb' 30 2).toNat = 3 ∧ (x.extractLsb' 25 5).toNat = 16 ∧
      x.extractLsb' 21 4 = g ∧ x.extractLsb' 17 4 = d ∧ x.extractLsb' 13 4 = a ∧ x.extractLsb' 9 4 = b ∧
      x.extractLsb' 0 1 = e ∧ x.extractLsb' 1 8 = 0#8 := by
    subst hx; simp (disch := decide) only [ex_hi, ex_lo, ex_all, Nat.reduceSub, BitVec.reduceExtractLsb', BitVec.reduceToNat, and_self]
  exact decD hw hE (by unfold decodeD; rw [h1, f0, f1, f2, f3, f4]; exact if_pos g0)

/-- KVAPP (R245). -/
theorem Encoding.kvapp (g d a b : BitVec 4) (e : BitVec 1) : Statement (.kvapp g d a b e) := by
  intro hw w h
  cases h
  generalize hx : (0x71#7 ++ g ++ d ++ a ++ b ++ 0x0#8 ++ e : BitVec 32) = x
  have ⟨hE, h1, f0, f1, f2, f3, f4, g0⟩ : (x.extractLsb' 30 2).toNat = 3 ∧ (x.extractLsb' 25 5).toNat = 17 ∧
      x.extractLsb' 21 4 = g ∧ x.extractLsb' 17 4 = d ∧ x.extractLsb' 13 4 = a ∧ x.extractLsb' 9 4 = b ∧
      x.extractLsb' 0 1 = e ∧ x.extractLsb' 1 8 = 0#8 := by
    subst hx; simp (disch := decide) only [ex_hi, ex_lo, ex_all, Nat.reduceSub, BitVec.reduceExtractLsb', BitVec.reduceToNat, and_self]
  exact decD hw hE (by unfold decodeD; rw [h1, f0, f1, f2, f3, f4]; exact if_pos g0)

/-- KVFORK (R246). -/
theorem Encoding.kvfork (g d a b : BitVec 4) (e : BitVec 1) : Statement (.kvfork g d a b e) := by
  intro hw w h
  cases h
  generalize hx : (0x72#7 ++ g ++ d ++ a ++ b ++ 0x0#8 ++ e : BitVec 32) = x
  have ⟨hE, h1, h2, f0, f1, f2, f3, f4⟩ : (x.extractLsb' 30 2).toNat = 3 ∧ (x.extractLsb' 25 5).toNat = 18 ∧
      (x.extractLsb' 1 8).toNat = 0 ∧ x.extractLsb' 21 4 = g ∧ x.extractLsb' 17 4 = d ∧ x.extractLsb' 13 4 = a ∧
      x.extractLsb' 9 4 = b ∧ x.extractLsb' 0 1 = e := by
    subst hx; simp (disch := decide) only [ex_hi, ex_lo, ex_all, Nat.reduceSub, BitVec.reduceExtractLsb', BitVec.reduceToNat, and_self]
  exact decD hw hE (by unfold decodeD; rw [h1, h2, f0, f1, f2, f3, f4]; exact rfl)

/-- KVFORK_UNSHARE (R246). -/
theorem Encoding.kvforkUnshare (g a b : BitVec 4) (e : BitVec 1) : Statement (.kvforkUnshare g a b e) := by
  intro hw w h
  cases h
  generalize hx : (0x72#7 ++ g ++ 0x0#4 ++ a ++ b ++ 0x1#8 ++ e : BitVec 32) = x
  have ⟨hE, h1, h2, f0, f1, f2, f3, g0⟩ : (x.extractLsb' 30 2).toNat = 3 ∧ (x.extractLsb' 25 5).toNat = 18 ∧
      (x.extractLsb' 1 8).toNat = 1 ∧ x.extractLsb' 21 4 = g ∧ x.extractLsb' 13 4 = a ∧ x.extractLsb' 9 4 = b ∧
      x.extractLsb' 0 1 = e ∧ x.extractLsb' 17 4 = 0#4 := by
    subst hx; simp (disch := decide) only [ex_hi, ex_lo, ex_all, Nat.reduceSub, BitVec.reduceExtractLsb', BitVec.reduceToNat, and_self]
  exact decD hw hE (by unfold decodeD; rw [h1, h2, f0, f1, f2, f3]; exact if_pos g0)

/-- KVREL (R247). -/
theorem Encoding.kvrel (g a b : BitVec 4) (e : BitVec 1) : Statement (.kvrel g a b e) := by
  intro hw w h
  cases h
  generalize hx : (0x73#7 ++ g ++ 0x0#4 ++ a ++ b ++ 0x0#8 ++ e : BitVec 32) = x
  have ⟨hE, h1, f0, f1, f2, f3, g0, g1⟩ : (x.extractLsb' 30 2).toNat = 3 ∧ (x.extractLsb' 25 5).toNat = 19 ∧
      x.extractLsb' 21 4 = g ∧ x.extractLsb' 13 4 = a ∧ x.extractLsb' 9 4 = b ∧ x.extractLsb' 0 1 = e ∧
      x.extractLsb' 17 4 = 0#4 ∧ x.extractLsb' 1 8 = 0#8 := by
    subst hx; simp (disch := decide) only [ex_hi, ex_lo, ex_all, Nat.reduceSub, BitVec.reduceExtractLsb', BitVec.reduceToNat, and_self]
  exact decD hw hE (by unfold decodeD; rw [h1, f0, f1, f2, f3]; exact if_pos ⟨g0, g1⟩)

/-- KVCOMMIT (R247). -/
theorem Encoding.kvcommit (g a b : BitVec 4) (e : BitVec 1) : Statement (.kvcommit g a b e) := by
  intro hw w h
  cases h
  generalize hx : (0x74#7 ++ g ++ 0x0#4 ++ a ++ b ++ 0x0#8 ++ e : BitVec 32) = x
  have ⟨hE, h1, f0, f1, f2, f3, g0, g1⟩ : (x.extractLsb' 30 2).toNat = 3 ∧ (x.extractLsb' 25 5).toNat = 20 ∧
      x.extractLsb' 21 4 = g ∧ x.extractLsb' 13 4 = a ∧ x.extractLsb' 9 4 = b ∧ x.extractLsb' 0 1 = e ∧
      x.extractLsb' 17 4 = 0#4 ∧ x.extractLsb' 1 8 = 0#8 := by
    subst hx; simp (disch := decide) only [ex_hi, ex_lo, ex_all, Nat.reduceSub, BitVec.reduceExtractLsb', BitVec.reduceToNat, and_self]
  exact decD hw hE (by unfold decodeD; rw [h1, f0, f1, f2, f3]; exact if_pos ⟨g0, g1⟩)

/-- KVTRUNC (R247). -/
theorem Encoding.kvtrunc (g a b : BitVec 4) (e : BitVec 1) : Statement (.kvtrunc g a b e) := by
  intro hw w h
  cases h
  generalize hx : (0x75#7 ++ g ++ 0x0#4 ++ a ++ b ++ 0x0#8 ++ e : BitVec 32) = x
  have ⟨hE, h1, f0, f1, f2, f3, g0, g1⟩ : (x.extractLsb' 30 2).toNat = 3 ∧ (x.extractLsb' 25 5).toNat = 21 ∧
      x.extractLsb' 21 4 = g ∧ x.extractLsb' 13 4 = a ∧ x.extractLsb' 9 4 = b ∧ x.extractLsb' 0 1 = e ∧
      x.extractLsb' 17 4 = 0#4 ∧ x.extractLsb' 1 8 = 0#8 := by
    subst hx; simp (disch := decide) only [ex_hi, ex_lo, ex_all, Nat.reduceSub, BitVec.reduceExtractLsb', BitVec.reduceToNat, and_self]
  exact decD hw hE (by unfold decodeD; rw [h1, f0, f1, f2, f3]; exact if_pos ⟨g0, g1⟩)

/-- KVINS (R248). -/
theorem Encoding.kvins (g d a b : BitVec 4) (e : BitVec 1) : Statement (.kvins g d a b e) := by
  intro hw w h
  cases h
  generalize hx : (0x76#7 ++ g ++ d ++ a ++ b ++ 0x0#8 ++ e : BitVec 32) = x
  have ⟨hE, h1, f0, f1, f2, f3, f4, g0⟩ : (x.extractLsb' 30 2).toNat = 3 ∧ (x.extractLsb' 25 5).toNat = 22 ∧
      x.extractLsb' 21 4 = g ∧ x.extractLsb' 17 4 = d ∧ x.extractLsb' 13 4 = a ∧ x.extractLsb' 9 4 = b ∧
      x.extractLsb' 0 1 = e ∧ x.extractLsb' 1 8 = 0#8 := by
    subst hx; simp (disch := decide) only [ex_hi, ex_lo, ex_all, Nat.reduceSub, BitVec.reduceExtractLsb', BitVec.reduceToNat, and_self]
  exact decD hw hE (by unfold decodeD; rw [h1, f0, f1, f2, f3, f4]; exact if_pos g0)

/-- KVRECAP (R248). -/
theorem Encoding.kvrecap (g a b : BitVec 4) (e : BitVec 1) : Statement (.kvrecap g a b e) := by
  intro hw w h
  cases h
  generalize hx : (0x77#7 ++ g ++ 0x0#4 ++ a ++ b ++ 0x0#8 ++ e : BitVec 32) = x
  have ⟨hE, h1, f0, f1, f2, f3, g0, g1⟩ : (x.extractLsb' 30 2).toNat = 3 ∧ (x.extractLsb' 25 5).toNat = 23 ∧
      x.extractLsb' 21 4 = g ∧ x.extractLsb' 13 4 = a ∧ x.extractLsb' 9 4 = b ∧ x.extractLsb' 0 1 = e ∧
      x.extractLsb' 17 4 = 0#4 ∧ x.extractLsb' 1 8 = 0#8 := by
    subst hx; simp (disch := decide) only [ex_hi, ex_lo, ex_all, Nat.reduceSub, BitVec.reduceExtractLsb', BitVec.reduceToNat, and_self]
  exact decD hw hE (by unfold decodeD; rw [h1, f0, f1, f2, f3]; exact if_pos ⟨g0, g1⟩)

/-- CAPSEL (R250). -/
theorem Encoding.capsel (g d a b : BitVec 4) (e : BitVec 1) : Statement (.capsel g d a b e) := by
  intro hw w h
  cases h
  generalize hx : (0x78#7 ++ g ++ d ++ a ++ b ++ 0x0#8 ++ e : BitVec 32) = x
  have ⟨hE, h1, h2, f0, f1, f2, f3, f4⟩ : (x.extractLsb' 30 2).toNat = 3 ∧ (x.extractLsb' 25 5).toNat = 24 ∧
      (x.extractLsb' 1 8).toNat = 0 ∧ x.extractLsb' 21 4 = g ∧ x.extractLsb' 17 4 = d ∧ x.extractLsb' 13 4 = a ∧
      x.extractLsb' 9 4 = b ∧ x.extractLsb' 0 1 = e := by
    subst hx; simp (disch := decide) only [ex_hi, ex_lo, ex_all, Nat.reduceSub, BitVec.reduceExtractLsb', BitVec.reduceToNat, and_self]
  exact decD hw hE (by unfold decodeD; rw [h1, h2, f0, f1, f2, f3, f4]; exact rfl)

/-- CAPSEL_THR (R250). -/
theorem Encoding.capselThr (g d a b : BitVec 4) (e : BitVec 1) : Statement (.capselThr g d a b e) := by
  intro hw w h
  cases h
  generalize hx : (0x78#7 ++ g ++ d ++ a ++ b ++ 0x1#8 ++ e : BitVec 32) = x
  have ⟨hE, h1, h2, f0, f1, f2, f3, f4⟩ : (x.extractLsb' 30 2).toNat = 3 ∧ (x.extractLsb' 25 5).toNat = 24 ∧
      (x.extractLsb' 1 8).toNat = 1 ∧ x.extractLsb' 21 4 = g ∧ x.extractLsb' 17 4 = d ∧ x.extractLsb' 13 4 = a ∧
      x.extractLsb' 9 4 = b ∧ x.extractLsb' 0 1 = e := by
    subst hx; simp (disch := decide) only [ex_hi, ex_lo, ex_all, Nat.reduceSub, BitVec.reduceExtractLsb', BitVec.reduceToNat, and_self]
  exact decD hw hE (by unfold decodeD; rw [h1, h2, f0, f1, f2, f3, f4]; exact rfl)

/-- RELV (R267). -/
theorem Encoding.relv (g a b : BitVec 4) : Statement (.relv g a b) := by
  intro hw w h
  cases h
  generalize hx : (0x7C#7 ++ g ++ 0x0#4 ++ a ++ b ++ 0x0#9 : BitVec 32) = x
  have ⟨hE, h1, f0, f1, f2, g0, g1⟩ : (x.extractLsb' 30 2).toNat = 3 ∧ (x.extractLsb' 25 5).toNat = 28 ∧
      x.extractLsb' 21 4 = g ∧ x.extractLsb' 13 4 = a ∧ x.extractLsb' 9 4 = b ∧ x.extractLsb' 17 4 = 0#4 ∧
      x.extractLsb' 0 9 = 0#9 := by
    subst hx; simp (disch := decide) only [ex_hi, ex_lo, ex_all, Nat.reduceSub, BitVec.reduceExtractLsb', BitVec.reduceToNat, and_self]
  exact decD hw hE (by unfold decodeD; rw [h1, f0, f1, f2]; exact if_pos ⟨g0, g1⟩)

/-- TREC (R271). -/
theorem Encoding.trec (g a b : BitVec 4) (r : BitVec 2) (e : BitVec 1) : Statement (.trec g a b r e) := by
  intro hw w h
  cases h
  generalize hx : (0x7D#7 ++ g ++ 0x0#4 ++ a ++ b ++ 0x0#6 ++ r ++ e : BitVec 32) = x
  have ⟨hE, h1, f0, f1, f2, f3, f4, g0, g1⟩ : (x.extractLsb' 30 2).toNat = 3 ∧ (x.extractLsb' 25 5).toNat = 29 ∧
      x.extractLsb' 21 4 = g ∧ x.extractLsb' 13 4 = a ∧ x.extractLsb' 9 4 = b ∧ x.extractLsb' 1 2 = r ∧
      x.extractLsb' 0 1 = e ∧ x.extractLsb' 17 4 = 0#4 ∧ x.extractLsb' 3 6 = 0#6 := by
    subst hx; simp (disch := decide) only [ex_hi, ex_lo, ex_all, Nat.reduceSub, BitVec.reduceExtractLsb', BitVec.reduceToNat, and_self]
  exact decD hw hE (by unfold decodeD; rw [h1, f0, f1, f2, f3, f4]; exact if_pos ⟨g0, g1⟩)

/-- A step of a unit has no word. -/
theorem Encoding.wordStepOver (g : Nat) (e : Eng) : Statement (.wordStepOver g e) :=
  fun _ _ h => nomatch h

/-- A step of a unit has no word. -/
theorem Encoding.jointOutcomePop (g : Nat) (e : Eng) : Statement (.jointOutcomePop g e) :=
  fun _ _ h => nomatch h

/-- A step of a unit has no word. -/
theorem Encoding.operandQueuePop (g : Nat) (e : Eng) : Statement (.operandQueuePop g e) :=
  fun _ _ h => nomatch h

/-- A step of a unit has no word. -/
theorem Encoding.guardResolve (g : Nat) (e : Eng) : Statement (.guardResolve g e) :=
  fun _ _ h => nomatch h

/-- A step of a unit has no word. -/
theorem Encoding.icacheFill (g pa : Nat) : Statement (.icacheFill g pa) :=
  fun _ _ h => nomatch h

/-- A step of a unit has no word. -/
theorem Encoding.taskStart (g : Nat) : Statement (.taskStart g) :=
  fun _ _ h => nomatch h

/-- A step of a unit has no word. -/
theorem Encoding.gangStart (d c : Nat) : Statement (.gangStart d c) :=
  fun _ _ h => nomatch h

/-- A step of a unit has no word. -/
theorem Encoding.expanderEnqueue (d : Nat) : Statement (.expanderEnqueue d) :=
  fun _ _ h => nomatch h

/-- A step of a unit has no word. -/
theorem Encoding.spillRefill (d : Nat) (side : Bool) : Statement (.spillRefill d side) :=
  fun _ _ h => nomatch h

/-- A step of a unit has no word. -/
theorem Encoding.agingPromotion (d : Nat) (side : Bool) (level : Nat) : Statement (.agingPromotion d side level) :=
  fun _ _ h => nomatch h

/-- A step of a unit has no word. -/
theorem Encoding.taskEnd (g : Nat) : Statement (.taskEnd g) :=
  fun _ _ h => nomatch h

/-- A step of a unit has no word. -/
theorem Encoding.joinStep (d : Nat) : Statement (.joinStep d) :=
  fun _ _ h => nomatch h

/-- A step of a unit has no word. -/
theorem Encoding.trapEntry (g : Nat) : Statement (.trapEntry g) :=
  fun _ _ h => nomatch h

/-- A step of a unit has no word. -/
theorem Encoding.tlbWalk (g : Nat) (va : BitVec 64) : Statement (.tlbWalk g va) :=
  fun _ _ h => nomatch h

/-- A step of a unit has no word. -/
theorem Encoding.tlbinvComplete (g : Nat) : Statement (.tlbinvComplete g) :=
  fun _ _ h => nomatch h

/-- A step of a unit has no word. -/
theorem Encoding.nestBodyStep (g : Nat) : Statement (.nestBodyStep g) :=
  fun _ _ h => nomatch h

/-- A step of a unit has no word. -/
theorem Encoding.nestHoldRetry (g : Nat) : Statement (.nestHoldRetry g) :=
  fun _ _ h => nomatch h

/-- A step of a unit has no word. -/
theorem Encoding.nestHoldTimeout (g : Nat) : Statement (.nestHoldTimeout g) :=
  fun _ _ h => nomatch h

/-- A step of a unit has no word. -/
theorem Encoding.nwaitPost (g : Nat) : Statement (.nwaitPost g) :=
  fun _ _ h => nomatch h

/-- A step of a unit has no word. -/
theorem Encoding.copyPieceDone (g i : Nat) : Statement (.copyPieceDone g i) :=
  fun _ _ h => nomatch h

/-- A step of a unit has no word. -/
theorem Encoding.copyComplete (g i : Nat) : Statement (.copyComplete g i) :=
  fun _ _ h => nomatch h

/-- A step of a unit has no word. -/
theorem Encoding.devtPost (g i : Nat) : Statement (.devtPost g i) :=
  fun _ _ h => nomatch h

/-- A step of a unit has no word. -/
theorem Encoding.kvStep (g i : Nat) : Statement (.kvStep g i) :=
  fun _ _ h => nomatch h

/-- A step of a unit has no word. -/
theorem Encoding.attgComplete (g : Nat) : Statement (.attgComplete g) :=
  fun _ _ h => nomatch h

/-- A step of a unit has no word. -/
theorem Encoding.adoptSwitchStep (g : Nat) : Statement (.adoptSwitchStep g) :=
  fun _ _ h => nomatch h

/-- A step of a unit has no word. -/
theorem Encoding.relvPortStep (g i : Nat) : Statement (.relvPortStep g i) :=
  fun _ _ h => nomatch h

/-- A step of a unit has no word. -/
theorem Encoding.trecRecordWrite (g i : Nat) : Statement (.trecRecordWrite g i) :=
  fun _ _ h => nomatch h

/-- A step of a unit has no word. -/
theorem Encoding.routerForward (i : Nat) (congested : Bool) : Statement (.routerForward i congested) :=
  fun _ _ h => nomatch h

/-- A step of a unit has no word. -/
theorem Encoding.packetAgeDiscard (i : Nat) : Statement (.packetAgeDiscard i) :=
  fun _ _ h => nomatch h

/-- A step of a unit has no word. -/
theorem Encoding.linkFailure (d1 d2 : Nat) : Statement (.linkFailure d1 d2) :=
  fun _ _ h => nomatch h

/-- A step of a unit has no word. -/
theorem Encoding.windowPacketHandoff (g w : Nat) : Statement (.windowPacketHandoff g w) :=
  fun _ _ h => nomatch h

/-- A step of a unit has no word. -/
theorem Encoding.remoteRequestArrival (i : Nat) : Statement (.remoteRequestArrival i) :=
  fun _ _ h => nomatch h

/-- A step of a unit has no word. -/
theorem Encoding.remoteResponseArrival (i : Nat) : Statement (.remoteResponseArrival i) :=
  fun _ _ h => nomatch h

/-- A step of a unit has no word. -/
theorem Encoding.remoteRequestTimeout (g i : Nat) : Statement (.remoteRequestTimeout g i) :=
  fun _ _ h => nomatch h

/-- A step of a unit has no word. -/
theorem Encoding.postedWriteArrival (i : Nat) : Statement (.postedWriteArrival i) :=
  fun _ _ h => nomatch h

/-- A step of a unit has no word. -/
theorem Encoding.countedPacketArrival (i : Nat) : Statement (.countedPacketArrival i) :=
  fun _ _ h => nomatch h

/-- A step of a unit has no word. -/
theorem Encoding.keystoneArrival (i : Nat) : Statement (.keystoneArrival i) :=
  fun _ _ h => nomatch h

/-- A step of a unit has no word. -/
theorem Encoding.reopenNoteArrival (i : Nat) : Statement (.reopenNoteArrival i) :=
  fun _ _ h => nomatch h

/-- A step of a unit has no word. -/
theorem Encoding.pierPtoExpiry (d p : Nat) : Statement (.pierPtoExpiry d p) :=
  fun _ _ h => nomatch h

/-- A step of a unit has no word. -/
theorem Encoding.resendRequestReceipt (i : Nat) : Statement (.resendRequestReceipt i) :=
  fun _ _ h => nomatch h

/-- A step of a unit has no word. -/
theorem Encoding.closeNoteReceipt (i : Nat) : Statement (.closeNoteReceipt i) :=
  fun _ _ h => nomatch h

/-- A step of a unit has no word. -/
theorem Encoding.keystoneResendTimeout (g w : Nat) : Statement (.keystoneResendTimeout g w) :=
  fun _ _ h => nomatch h

/-- A step of a unit has no word. -/
theorem Encoding.congestionNoteReceipt (i : Nat) : Statement (.congestionNoteReceipt i) :=
  fun _ _ h => nomatch h

/-- A step of a unit has no word. -/
theorem Encoding.rateLimitRecovery (d target : Nat) : Statement (.rateLimitRecovery d target) :=
  fun _ _ h => nomatch h

/-- A step of a unit has no word. -/
theorem Encoding.dcollPacketArrival (i : Nat) : Statement (.dcollPacketArrival i) :=
  fun _ _ h => nomatch h

/-- A step of a unit has no word. -/
theorem Encoding.schedPreemptRequest (d : Nat) (side : Bool) : Statement (.schedPreemptRequest d side) :=
  fun _ _ h => nomatch h

/-- A step of a unit has no word. -/
theorem Encoding.firmwarePreempt (d : Nat) (w : BitVec 64) : Statement (.firmwarePreempt d w) :=
  fun _ _ h => nomatch h

/-- A step of a unit has no word. -/
theorem Encoding.firmwareStopRelease (d : Nat) (w : BitVec 64) : Statement (.firmwareStopRelease d w) :=
  fun _ _ h => nomatch h

/-- A step of a unit has no word. -/
theorem Encoding.forcedCut (g : Nat) : Statement (.forcedCut g) :=
  fun _ _ h => nomatch h

/-- A step of a unit has no word. -/
theorem Encoding.imageSaveComplete (g : Nat) : Statement (.imageSaveComplete g) :=
  fun _ _ h => nomatch h

/-- A step of a unit has no word. -/
theorem Encoding.contextRestore (g : Nat) : Statement (.contextRestore g) :=
  fun _ _ h => nomatch h

/-- A step of a unit has no word. -/
theorem Encoding.resumeInject (d : Nat) (w : BitVec 64) : Statement (.resumeInject d w) :=
  fun _ _ h => nomatch h

/-- A step of a unit has no word. -/
theorem Encoding.expqPop (d : Nat) : Statement (.expqPop d) :=
  fun _ _ h => nomatch h

/-- A step of a unit has no word. -/
theorem Encoding.brimMoveStart (d : Nat) (w : BitVec 64) : Statement (.brimMoveStart d w) :=
  fun _ _ h => nomatch h

/-- A step of a unit has no word. -/
theorem Encoding.brimStageAdvance (d : Nat) : Statement (.brimStageAdvance d) :=
  fun _ _ h => nomatch h

/-- A step of a unit has no word. -/
theorem Encoding.brimMoveCommit (d : Nat) : Statement (.brimMoveCommit d) :=
  fun _ _ h => nomatch h

/-- A step of a unit has no word. -/
theorem Encoding.bmovErrClear (d : Nat) : Statement (.bmovErrClear d) :=
  fun _ _ h => nomatch h

/-- A step of a unit has no word. -/
theorem Encoding.holdWrite (d : Nat) (w : BitVec 64) : Statement (.holdWrite d w) :=
  fun _ _ h => nomatch h

/-- A step of a unit has no word. -/
theorem Encoding.firmwareCsrWrite (g : Nat) (c : BitVec 12) (w : BitVec 64) : Statement (.firmwareCsrWrite g c w) :=
  fun _ _ h => nomatch h

/-- A step of a unit has no word. -/
theorem Encoding.kvrepWrite (d : Nat) (w : BitVec 64) : Statement (.kvrepWrite d w) :=
  fun _ _ h => nomatch h

/-- A step of a unit has no word. -/
theorem Encoding.kvrepErrClear (d : Nat) : Statement (.kvrepErrClear d) :=
  fun _ _ h => nomatch h

/-- A step of a unit has no word. -/
theorem Encoding.tileRetire (d : Nat) (w : BitVec 64) : Statement (.tileRetire d w) :=
  fun _ _ h => nomatch h

/-- A step of a unit has no word. -/
theorem Encoding.debugModeWrite (d : Nat) (w : BitVec 64) : Statement (.debugModeWrite d w) :=
  fun _ _ h => nomatch h

/-- A step of a unit has no word. -/
theorem Encoding.registerWrite (d off : Nat) (cls : Nat) (w : BitVec 64) : Statement (.registerWrite d off cls w) :=
  fun _ _ h => nomatch h

/-- A step of a unit has no word. -/
theorem Encoding.hbmScrub (pa : Nat) : Statement (.hbmScrub pa) :=
  fun _ _ h => nomatch h

/-- A step of a unit has no word. -/
theorem Encoding.selftestRun (d u : Nat) (pass : Bool) : Statement (.selftestRun d u pass) :=
  fun _ _ h => nomatch h

/-- A step of a unit has no word. -/
theorem Encoding.selftestForcedSlot (d u : Nat) : Statement (.selftestForcedSlot d u) :=
  fun _ _ h => nomatch h

/-- A step of a unit has no word. -/
theorem Encoding.firmwareHaltHandling (g : Nat) : Statement (.firmwareHaltHandling g) :=
  fun _ _ h => nomatch h

/-- A step of a unit has no word. -/
theorem Encoding.stateFuseBurn : Statement .stateFuseBurn :=
  fun _ _ h => nomatch h

/-- A step of a unit has no word. -/
theorem Encoding.debugUnlock (token : Option (BitVec 64)) : Statement (.debugUnlock token) :=
  fun _ _ h => nomatch h

/-- A step of a unit has no word. -/
theorem Encoding.debuggerContinue (g : Nat) : Statement (.debuggerContinue g) :=
  fun _ _ h => nomatch h

/-- A step of a unit has no word. -/
theorem Encoding.getVersion : Statement .getVersion :=
  fun _ _ h => nomatch h

/-- A step of a unit has no word. -/
theorem Encoding.getCapabilities : Statement .getCapabilities :=
  fun _ _ h => nomatch h

/-- A step of a unit has no word. -/
theorem Encoding.negotiateAlgorithms : Statement .negotiateAlgorithms :=
  fun _ _ h => nomatch h

/-- A step of a unit has no word. -/
theorem Encoding.getDigests : Statement .getDigests :=
  fun _ _ h => nomatch h

/-- A step of a unit has no word. -/
theorem Encoding.getCertificate : Statement .getCertificate :=
  fun _ _ h => nomatch h

/-- A step of a unit has no word. -/
theorem Encoding.challenge (nonce : BitVec 256) : Statement (.challenge nonce) :=
  fun _ _ h => nomatch h

/-- A step of a unit has no word. -/
theorem Encoding.getMeasurements : Statement .getMeasurements :=
  fun _ _ h => nomatch h

/-- A step of a unit has no word. -/
theorem Encoding.fatalFreeze (d : Nat) : Statement (.fatalFreeze d) :=
  fun _ _ h => nomatch h

/-- A step of a unit has no word. -/
theorem Encoding.bar2Write (off : Nat) (w : BitVec 64) : Statement (.bar2Write off w) :=
  fun _ _ h => nomatch h

/-- A step of a unit has no word. -/
theorem Encoding.bar2Read (off : Nat) : Statement (.bar2Read off) :=
  fun _ _ h => nomatch h

/-- A step of a unit has no word. -/
theorem Encoding.sqDoorbell (r : Nat) (tail : BitVec 32) : Statement (.sqDoorbell r tail) :=
  fun _ _ h => nomatch h

/-- A step of a unit has no word. -/
theorem Encoding.ringEnable (cq : Bool) (r : Nat) : Statement (.ringEnable cq r) :=
  fun _ _ h => nomatch h

/-- A step of a unit has no word. -/
theorem Encoding.ringDisable (cq : Bool) (r : Nat) : Statement (.ringDisable cq r) :=
  fun _ _ h => nomatch h

/-- A step of a unit has no word. -/
theorem Encoding.cqHeadWrite (r : Nat) (head : BitVec 32) : Statement (.cqHeadWrite r head) :=
  fun _ _ h => nomatch h

/-- A step of a unit has no word. -/
theorem Encoding.submissionEntryTake (r : Nat) : Statement (.submissionEntryTake r) :=
  fun _ _ h => nomatch h

/-- A step of a unit has no word. -/
theorem Encoding.nop (r : Nat) : Statement (.nop r) :=
  fun _ _ h => nomatch h

/-- A step of a unit has no word. -/
theorem Encoding.launch (r : Nat) : Statement (.launch r) :=
  fun _ _ h => nomatch h

/-- A step of a unit has no word. -/
theorem Encoding.seal (r : Nat) : Statement (.seal r) :=
  fun _ _ h => nomatch h

/-- A step of a unit has no word. -/
theorem Encoding.unseal (r : Nat) : Statement (.unseal r) :=
  fun _ _ h => nomatch h

/-- A step of a unit has no word. -/
theorem Encoding.unknownCommand (r : Nat) : Statement (.unknownCommand r) :=
  fun _ _ h => nomatch h

/-- A step of a unit has no word. -/
theorem Encoding.msixMessage (r : Nat) : Statement (.msixMessage r) :=
  fun _ _ h => nomatch h

/-- A step of a unit has no word. -/
theorem Encoding.reset : Statement .reset :=
  fun _ _ h => nomatch h

/-- A step of a unit has no word. -/
theorem Encoding.bringupStageEnd (ok : Bool) (die : Nat) : Statement (.bringupStageEnd ok die) :=
  fun _ _ h => nomatch h

/-- A step of a unit has no word. -/
theorem Encoding.jtagBypass : Statement .jtagBypass :=
  fun _ _ h => nomatch h

/-- A step of a unit has no word. -/
theorem Encoding.jtagIdcode : Statement .jtagIdcode :=
  fun _ _ h => nomatch h

/-- A step of a unit has no word. -/
theorem Encoding.jtagSamplePreload : Statement .jtagSamplePreload :=
  fun _ _ h => nomatch h

/-- A step of a unit has no word. -/
theorem Encoding.jtagExtest : Statement .jtagExtest :=
  fun _ _ h => nomatch h

/-- A step of a unit has no word. -/
theorem Encoding.thermalSample (d temp : Nat) : Statement (.thermalSample d temp) :=
  fun _ _ h => nomatch h

/-- A step of a unit has no word. -/
theorem Encoding.dieRetentionEnter (d : Nat) : Statement (.dieRetentionEnter d) :=
  fun _ _ h => nomatch h

/-- A step of a unit has no word. -/
theorem Encoding.dieRetentionExit (d : Nat) : Statement (.dieRetentionExit d) :=
  fun _ _ h => nomatch h

/-- A step of a unit has no word. -/
theorem Encoding.packageStandbyEnter : Statement .packageStandbyEnter :=
  fun _ _ h => nomatch h

/-- A step of a unit has no word. -/
theorem Encoding.packageStandbyExit : Statement .packageStandbyExit :=
  fun _ _ h => nomatch h

/-- A step of a unit has no word. -/
theorem Encoding.dspanSpacingExpiry (g w : Nat) : Statement (.dspanSpacingExpiry g w) :=
  fun _ _ h => nomatch h

/-- A step of a unit has no word. -/
theorem Encoding.configurationRequest (reg : Nat) : Statement (.configurationRequest reg) :=
  fun _ _ h => nomatch h

end Sys2Proof.Laws
end

