-- ==== Sys2Proof/Certificates/Slice0/Obligations.lean ====
section
/-!
DEFINITION. The statements for the provers, each from the rules of the spec that its docstring names. The words of Claims name the
conditions and results that several statements share; every statement is about the outcome of exec, of step, or of the decoder.
-/

open Sys2Proof Sys2Proof.Machine

namespace Sys2Proof.Claims

/-- The outcome of a step. -/
abbrev Res := Host.Outcome State Fault Refusal

/-- The conditions of R54 to R56 and R353 for a word of S that only writes x registers and pushes: the tile runs, is not cut and not
ending; at task level no accumulator fault waits and the slip window has room. -/
def SReady (s : State) : Prop :=
  s.tile.runs = true ∧
  (s.tile.level = .task → s.tile.accFault = none ∧ s.tile.eS.pos - s.tile.minPos < s.tile.win.toNat)

/-- The same for a word that waits until V, M and D have reached it (R57, R353). -/
def SAlone (s : State) : Prop := SReady s ∧ (s.tile.level = .task → s.tile.settled = true)

/-- S goes on to its next word with the tile `t`. -/
def passed (s : State) (t : Tile) : Res := .next (s.setTile t.passS)

/-- xD takes `v` with its own glove and S goes on to its next word; nothing else changes. -/
def wrote (s : State) (d : BitVec 6) (v : BitVec 64) : Res := passed s (s.tile.putX d.toNat (gloved v))

end Sys2Proof.Claims

open Sys2Proof.Claims

/-- For every state in which S may perform a word and whose source registers hold words without error, add, sub, and,
or, xor, andn, orn, sll, srl, sra, rotl, rotr, slt, sltu, min, max, minu, maxu, mul, mulh, mulhu and csel answer the
next state in which xD holds the result of R133 with its own glove and S has passed the word, and nothing else has
changed. Shift amounts are xB[5:0]; csel keeps the old xD when xB is 0. -/
def Obligations.RegisterArithmeticResult : Prop :=
  ∀ (d a b : BitVec 6) (x y o : BitVec 64) (s : State), SReady s →
    s.tile.getX a.toNat = gloved x → s.tile.getX b.toNat = gloved y →
    exec (.add d a b) s = wrote s d (x + y) ∧
    exec (.sub d a b) s = wrote s d (x - y) ∧
    exec (.and d a b) s = wrote s d (x &&& y) ∧
    exec (.or d a b) s = wrote s d (x ||| y) ∧
    exec (.xor d a b) s = wrote s d (x ^^^ y) ∧
    exec (.andn d a b) s = wrote s d (x &&& ~~~y) ∧
    exec (.orn d a b) s = wrote s d (x ||| ~~~y) ∧
    exec (.sll d a b) s = wrote s d (x <<< (y.toNat % 64)) ∧
    exec (.srl d a b) s = wrote s d (x >>> (y.toNat % 64)) ∧
    exec (.sra d a b) s = wrote s d (x.sshiftRight (y.toNat % 64)) ∧
    exec (.rotl d a b) s = wrote s d (x.rotateLeft (y.toNat % 64)) ∧
    exec (.rotr d a b) s = wrote s d (x.rotateRight (y.toNat % 64)) ∧
    exec (.slt d a b) s = wrote s d (if x.toInt < y.toInt then 1#64 else 0#64) ∧
    exec (.sltu d a b) s = wrote s d (if x.toNat < y.toNat then 1#64 else 0#64) ∧
    exec (.min d a b) s = wrote s d (BitVec.ofInt 64 (Min.min x.toInt y.toInt)) ∧
    exec (.max d a b) s = wrote s d (BitVec.ofInt 64 (Max.max x.toInt y.toInt)) ∧
    exec (.minu d a b) s = wrote s d (BitVec.ofNat 64 (Min.min x.toNat y.toNat)) ∧
    exec (.maxu d a b) s = wrote s d (BitVec.ofNat 64 (Max.max x.toNat y.toNat)) ∧
    exec (.mul d a b) s = wrote s d (BitVec.ofNat 64 (x.toNat * y.toNat)) ∧
    exec (.mulh d a b) s = wrote s d (BitVec.ofInt 64 (x.toInt * y.toInt / 2 ^ 64)) ∧
    exec (.mulhu d a b) s = wrote s d (BitVec.ofNat 64 (x.toNat * y.toNat / 2 ^ 64)) ∧
    (s.tile.getX d.toNat = gloved o → exec (.csel d a b) s = wrote s d (if y ≠ 0#64 then x else o))

/-- For every state in which S may perform a word and whose source registers hold words without error, div, divu, rem
and remu answer the next state in which xD holds the result: by a zero divisor all ones and xA; for the most negative
number divided by -1 the most negative number and 0; else the quotient truncated toward zero and the remainder with
the sign of the dividend. S has passed the word. -/
def Obligations.DivisionNeverTraps : Prop :=
  ∀ (d a b : BitVec 6) (x y : BitVec 64) (s : State), SReady s →
    s.tile.getX a.toNat = gloved x → s.tile.getX b.toNat = gloved y →
    exec (.div d a b) s = wrote s d (if y = 0#64 then 0xFFFFFFFFFFFFFFFF#64
      else if x = 0x8000000000000000#64 ∧ y = 0xFFFFFFFFFFFFFFFF#64 then 0x8000000000000000#64
      else BitVec.ofInt 64 (x.toInt.tdiv y.toInt)) ∧
    exec (.rem d a b) s = wrote s d (if y = 0#64 then x
      else if x = 0x8000000000000000#64 ∧ y = 0xFFFFFFFFFFFFFFFF#64 then 0#64
      else BitVec.ofInt 64 (x.toInt.tmod y.toInt)) ∧
    exec (.divu d a b) s = wrote s d (if y = 0#64 then 0xFFFFFFFFFFFFFFFF#64 else BitVec.ofNat 64 (x.toNat / y.toNat)) ∧
    exec (.remu d a b) s = wrote s d (if y = 0#64 then x else BitVec.ofNat 64 (x.toNat % y.toNat))

/-- Under the conditions of S words, clz, ctz, popc, sext.b/h/w, zext.b/h/w, bext, bins, lih and getw write to xD: the
number of leading zeros, trailing zeros and ones of xA (64 for clz and ctz of 0), the extended low part, the field of
width W+1 at lo, xD with that field replaced, xD shifted left by 18 with the immediate below, and field `level` of xA
under WIDSPLIT. Under the conditions of S words, addi, andi, ori, xori, slti, sltiu, slli, srli and srai write to xD
the result on xA and the immediate: sign-extended for addi, slti and sltiu (sltiu compares it unsigned), zero-extended
for the bitwise forms, a 6-bit amount for the shifts. -/
def Obligations.UnaryAndImmediateResult : Prop :=
  (∀ (d a w l : BitVec 6) (i : BitVec 18) (k : BitVec 12) (x o : BitVec 64) (s : State), SReady s →
    s.tile.getX a.toNat = gloved x →
    (∃ n ≤ 64, exec (.clz d a) s = wrote s d (BitVec.ofNat 64 n) ∧ (∀ j, 64 - n ≤ j → x.getLsbD j = false) ∧
      (n < 64 → x.getLsbD (63 - n) = true)) ∧
    (∃ n ≤ 64, exec (.ctz d a) s = wrote s d (BitVec.ofNat 64 n) ∧ (∀ j, j < n → x.getLsbD j = false) ∧
      (n < 64 → x.getLsbD n = true)) ∧
    exec (.popc d a) s = wrote s d (BitVec.ofNat 64 ((List.range 64).countP fun j => x.getLsbD j)) ∧
    exec (.sextB d a) s = wrote s d ((x.setWidth 8).signExtend 64) ∧
    exec (.sextH d a) s = wrote s d ((x.setWidth 16).signExtend 64) ∧
    exec (.sextW d a) s = wrote s d ((x.setWidth 32).signExtend 64) ∧
    exec (.zextB d a) s = wrote s d (x &&& 0xFF#64) ∧
    exec (.zextH d a) s = wrote s d (x &&& 0xFFFF#64) ∧
    exec (.zextW d a) s = wrote s d (x &&& 0xFFFFFFFF#64) ∧
    exec (.bext d a w l) s = wrote s d (BitVec.ofNat 64 (x.toNat / 2 ^ l.toNat % 2 ^ (w.toNat + 1))) ∧
    (bitsLegal w l → s.tile.getX d.toNat = gloved o →
      ∃ v, exec (.bins d a w l) s = wrote s d v ∧ ∀ j < 64, v.getLsbD j =
        if l.toNat ≤ j ∧ j ≤ l.toNat + w.toNat then x.getLsbD (j - l.toNat) else o.getLsbD j) ∧
    (s.tile.getX d.toNat = gloved o → exec (.lih d i) s = wrote s d (o <<< 18 ||| i.setWidth 64)) ∧
    exec (.getw d a k) s = wrote s d (splitField s.tile.widsplit x k.toNat)) ∧
  (∀ (d a c : BitVec 6) (i : BitVec 12) (x : BitVec 64) (s : State), SReady s → s.tile.getX a.toNat = gloved x →
    exec (.addi d a i) s = wrote s d (x + i.signExtend 64) ∧
    exec (.andi d a i) s = wrote s d (x &&& i.setWidth 64) ∧
    exec (.ori d a i) s = wrote s d (x ||| i.setWidth 64) ∧
    exec (.xori d a i) s = wrote s d (x ^^^ i.setWidth 64) ∧
    exec (.slti d a i) s = wrote s d (if x.toInt < i.toInt then 1#64 else 0#64) ∧
    exec (.sltiu d a i) s = wrote s d (if x.toNat < (i.signExtend 64).toNat then 1#64 else 0#64) ∧
    exec (.slli d a c) s = wrote s d (x <<< c.toNat) ∧
    exec (.srli d a c) s = wrote s d (x >>> c.toNat) ∧
    exec (.srai d a c) s = wrote s d (x.sshiftRight c.toNat))

/-- When the outcome of a word is the one the result statements name (xD takes v and S goes on), then in the next
state xD reads v with its own glove unless D is 0, x0 reads zero, every other x register reads as before, every V, M
and D register, accumulator, predicate slot, CSR and exception register of the tile, every other tile and die, and
every byte of HBM and of the scratchpad read as before; S alone has moved, one word on. When the word of xA holds a
single error and xB none, add uses the corrected data, counts one correction in GCC, and writes the sum. When the word
of xA is uncorrectable and V, M and D have reached the word, add writes nothing and takes the precise trap GLOVE with
the register code of xA. -/
def Obligations.ScalarFrameAndCorrectionResult : Prop :=
  (∀ (d : BitVec 6) (v : BitVec 64) (s t : State), wrote s d v = .next t →
    t.tile.getX d.toNat = (if d = 0#6 then GWord.zero else gloved v) ∧ t.tile.getX 0 = GWord.zero ∧
    (∀ r, r ≠ d.toNat → t.tile.getX r = s.tile.getX r) ∧
    (s.tile.level = .task → s.tile.eS.exp = none → t.tile.eS = ⟨s.tile.eS.pc + 4#64, s.tile.eS.pos + 1, none⟩) ∧
    (s.tile.level = .supervisor → t.tile.eS = { s.tile.eS with pc := s.tile.eS.pc + 4#64 }) ∧
    (∀ e, e ≠ .S → t.tile.eng e = s.tile.eng e) ∧
    t.tile = { s.tile with x := t.tile.x, undo := t.tile.undo, eS := t.tile.eS } ∧
    t = { s with tiles := t.tiles } ∧ (∀ g, g ≠ s.cur → t.tileAt g = s.tileAt g) ∧
    (∀ a, t.mem.byte a = s.mem.byte a) ∧ (∀ a, t.tile.spad.byte a = s.tile.spad.byte a)) ∧
  (∀ (d a b : BitVec 6) (x y : BitVec 64) (s : State), SReady s → s.tile.getX b.toNat = gloved y →
    (checkWord (s.tile.getX a.toNat) = .ok x true →
      exec (.add d a b) s =
        passed s (({ s.tile with gcc := s.tile.gcc + 1#64 } : Tile).putX d.toNat (gloved (x + y)))) ∧
    (checkWord (s.tile.getX a.toNat) = .bad → SAlone s →
      exec (.add d a b) s = .next (preciseTrap .S ⟨cGLOVE, 0, regCode 4 a.toNat, none⟩ [] s)))

namespace Sys2Proof.Claims

/-- The tile without the remote results of S's word (R279): none where the word made no request. -/
def forget (t : Tile) : Tile :=
  { t with remote := t.remote.filter fun r => !(decide (r.eng = .S) && decide (r.idx = t.eS.pos)) }

/-- Where a doubleword access of S or V lands when translation, rights and tables let it and no other tile is needed: in the own
scratchpad, or in HBM by an SO page that the TLB holds, under a root whose EN is set (R369), or by a physical address of supervisor
level. -/
def Lands (s : State) (va : BitVec 64) (r : Rights) (p : Place) : Prop :=
  (∃ off < 0x200000, va.toNat = 0xFF80000000000000 + off ∧ p = .spad s.cur off) ∨
  (inAperture va = false ∧ ∃ pa d off,
    ((s.tile.level = .supervisor ∧ pa = va.toNat) ∨
     (s.tile.level = .task ∧ bit (s.root (s.cur / 16) s.tile.side) 0 = true ∧ ∃ e, tlbFind s.tile.side va.toNat s.tile.tlb = some e ∧ e.kind = 0 ∧
        pageAllows e s.tile.side r.rd r.wr r.fx = true ∧ pa = physOf e va)) ∧
    targetOf pa = .hbm d off ∧ accessVerdict s (classSV s.tile) (s.cur / 16) pa r = .ok ∧
    p = .hbm pa 0 (s.hatrackRegion d off).isSome)

/-- An access of S that passes every check of R132 and lands: aligned to `size`, canonical at task level, not held by the range
checker. -/
def Reaches (s : State) (va : BitVec 64) (size : Nat) (r : Rights) (p : Place) : Prop :=
  va.toNat % size = 0 ∧ (s.tile.level = .task → canonical va = true) ∧
  s.tile.rangeBlocked s.tile.eS.pos (if r.rd then placeRange s.cur p else []) (if r.wr then placeRange s.cur p else []) = false ∧
  Lands s va r p

/-- The gloved doubleword of such a place. -/
def wordAt (s : State) : Place → GWord
  | .spad g off => (s.tileAt g).spad.read off
  | .hbm pa _ _ => s.mem.read pa
  | _ => GWord.zero

/-- The state with a doubleword stored at such a place. -/
def withWord (s : State) (w : GWord) : Place → State
  | .spad g off => s.writeSpad g off w
  | .hbm pa _ _ => { s with mem := s.mem.write pa w }
  | _ => s

/-- The state once the tile has ordered its access to `n` doublewords from `va` on as one instruction (R101, R103; log 18): as it was but for the tile
cache, and the memory its dirty lines go to, and only where one lies on an SO page. -/
def ordered (s : State) (va : BitVec 64) (n : Nat) : State :=
  s.soOrder ((List.range n).map fun i => va + 8#64 * BitVec.ofNat 64 i)

/-- An atomic that has completed: xD holds the old value, the place the new one, S has passed its word, and nothing waits. -/
def AtomicDone (s : State) (d : BitVec 6) (p : Place) (old new : BitVec 64) (r : Res) : Prop :=
  ∃ t, r = .next t ∧ (d ≠ 0#6 → t.tile.getX d.toNat = gloved old) ∧ (∀ q, q ≠ d.toNat → t.tile.getX q = s.tile.getX q) ∧
    wordAt t p = gloved new ∧ t.cur = s.cur ∧
    (s.tile.level = .task → t.tile.eS = s.tile.eS.next (s.tile.expLen s.tile.eS))

end Sys2Proof.Claims

/-- When S may perform a settled word, xA holds x without error and the address x + SignExt(IMM12) reaches a
doubleword of the own scratchpad or of HBM (SO page or supervisor level), ld.d writes that doubleword with its glove
to xD, and, when the doubleword has no error, the sub-word loads write the item of 1, 2 or 4 bytes at the address,
sign- or zero-extended. An access on an SO page first has the tile cache write back its dirty RC lines and drop its
clean ones (log 18); S goes on and nothing else changes. -/
def Obligations.LoadResult : Prop :=
  ∀ (d a : BitVec 6) (o : BitVec 12) (x v : BitVec 64) (w : GWord) (p : Place) (s : State), SAlone s →
    s.tile.getX a.toNat = gloved x →
    let va := x + o.signExtend 64
    let item := fun n : Nat => v.toNat / 2 ^ (8 * (va.toNat % 8)) % 2 ^ (8 * n)
    let u := s.soOrder [va]
    let loaded := fun y : BitVec 64 => passed u (forget (u.tile.putX d.toNat (gloved y)))
    (Reaches s va 8 Rights.load p → wordAt u p = w → exec (.ldD d a o) s = passed u (forget (u.tile.putX d.toNat w))) ∧
    (wordAt u p = gloved v →
      (Reaches s va 1 Rights.load p → exec (.ldB d a o) s = loaded ((BitVec.ofNat 8 (item 1)).signExtend 64) ∧
        exec (.ldBu d a o) s = loaded (BitVec.ofNat 64 (item 1))) ∧
      (Reaches s va 2 Rights.load p → exec (.ldH d a o) s = loaded ((BitVec.ofNat 16 (item 2)).signExtend 64) ∧
        exec (.ldHu d a o) s = loaded (BitVec.ofNat 64 (item 2))) ∧
      (Reaches s va 4 Rights.load p → exec (.ldW d a o) s = loaded ((BitVec.ofNat 32 (item 4)).signExtend 64) ∧
        exec (.ldWu d a o) s = loaded (BitVec.ofNat 64 (item 4))))

/-- When S may perform a settled word and x + SignExt(IMM12) reaches a place, st stores the word and glove of xD there
unchanged and S goes on; every byte of HBM and of the scratchpad outside the eight stored bytes reads as before, and
so does every register, where before an SO page means after the dirty RC lines of the tile have gone to memory (log
18). When the next doubleword is reached as well and the range checker lets the pair go, ldp writes both doublewords
to xD and xD+1 and stp stores both registers. At task level, when the TLB holds an RC or UO page with the rights and
the tile cache holds the line (its word for the load, granted write for the store), in no hatrack region, ld.d writes
the line's word to xD, and st puts the word of xD into the line, marks that word dirty and leaves memory as it was. -/
def Obligations.StoreAndCachedLineResult : Prop :=
  (∀ (d a : BitVec 6) (o : BitVec 12) (x : BitVec 64) (p q : Place) (s : State), SAlone s →
    s.tile.getX a.toNat = gloved x →
    let va := x + o.signExtend 64
    (Reaches s va 8 Rights.store p →
      let s' := s.soOrder [va]
      let u := withWord s' (s.tile.getX d.toNat) p
      exec (.st d a o) s = passed u (forget u.tile) ∧ wordAt u p = s.tile.getX d.toNat ∧ (s.onSO va = false → s' = s) ∧
      (∀ pa k port, p = .hbm pa k port → (∀ b, b / 8 ≠ pa / 8 → u.mem.byte b = s'.mem.byte b) ∧ u.tiles = s'.tiles) ∧
      (∀ g off, p = .spad g off → u.mem = s.mem ∧ (∀ b, b / 8 ≠ off / 8 → u.tile.spad.byte b = s.tile.spad.byte b) ∧
        u.tile = { s.tile with spad := u.tile.spad }) ∧
      u = { s with mem := u.mem, tiles := u.tiles } ∧ (∀ g, g ≠ s.cur → u.tileAt g = s.tileAt g)) ∧
    (Reaches s va 8 Rights.load p → Reaches s (va + 8#64) 8 Rights.load q → d.toNat % 2 = 0 →
      s.tile.rangeBlocked s.tile.eS.pos (spanOf (placeRange s.cur p ++ placeRange s.cur q)) [] = false →
      exec (.ldp d a o) s =
        let u := ordered s va 2
        passed u (forget ((u.tile.putX d.toNat (wordAt u p)).putX (d.toNat + 1) (wordAt u q)))) ∧
    (Reaches s va 8 Rights.store p → Reaches s (va + 8#64) 8 Rights.store q → d.toNat % 2 = 0 →
      s.tile.rangeBlocked s.tile.eS.pos [] (spanOf (placeRange s.cur p ++ placeRange s.cur q)) = false →
      let u := withWord (withWord (ordered s va 2) (s.tile.getX d.toNat) p) (s.tile.getX (d.toNat + 1)) q
      exec (.stp d a o) s = passed u (forget u.tile))) ∧
  (∀ (d a : BitVec 6) (o : BitVec 12) (x : BitVec 64) (e : TlbEntry) (l : CLine) (dd off : Nat) (s : State), SAlone s →
    s.tile.level = .task → s.tile.getX a.toNat = gloved x →
    let va := x + o.signExtend 64
    let pa := physOf e va
    va.toNat % 8 = 0 → canonical va = true → inAperture va = false → bit (s.root (s.cur / 16) s.tile.side) 0 = true →
    tlbFind s.tile.side va.toNat s.tile.tlb = some e → e.kind ≠ 0 → s.tile.line (pa / 128) = some l →
    targetOf pa = .hbm dd off → s.hatrackRegion dd off = none →
    (pageAllows e s.tile.side true false false = true → l.valid.getLsbD (pa / 8 % 16) = true →
      exec (.ldD d a o) s = passed s (forget (s.tile.putX d.toNat (l.words.getD (pa / 8 % 16) GWord.zero)))) ∧
    (pageAllows e s.tile.side false true false = true → l.wgrant = true →
      exec (.st d a o) s = passed s (forget { s.tile with
        cache := mapPut s.tile.cache (pa / 128) (l.put (pa / 8 % 16) (s.tile.getX d.toNat)) })))

/-- When S may perform a settled word, xA and xB hold x and y without error, the address x reaches a place for an
atomic that the tile cache holds no line of, and its doubleword holds old without error, then every atomic with a
legal ordering and scope completes: xD holds old, the doubleword holds old+y, old AND y, old OR y, old XOR y, the
signed or unsigned minimum or maximum, or y; for cas it holds y when old equals the old xD and old otherwise. Every
other x register keeps its value and S goes on. When S may perform a settled word, fence with a legal ordering and
scope writes back the dirty lines its release names, takes a stamp above every tile's for .sc (log 35), drops the
clean lines its acquire names, and S goes on; fence.drain, once every D command and keystone of the task is complete,
writes back every dirty line and drops every line that is then clean; ifence empties the instruction cache. A prefetch
of an address in xA without error only passes: that it brings no line into the tile cache, which R144 lets it do, is
the model's choice (log 22). -/
def Obligations.AtomicFenceAndPrefetchResult : Prop :=
  (∀ (d a b : BitVec 6) (o sc : BitVec 3) (x y old e : BitVec 64) (p : Place) (s : State), SAlone s → amoLegal o sc →
    s.tile.getX a.toNat = gloved x → s.tile.getX b.toNat = gloved y → Reaches s x 8 Rights.amo p →
    (∀ pa k port, p = .hbm pa k port → s.tile.line (pa / 128) = none) → wordAt s p = gloved old →
    AtomicDone s d p old (old + y) (exec (.amoAdd d a b o sc) s) ∧
    AtomicDone s d p old (old &&& y) (exec (.amoAnd d a b o sc) s) ∧
    AtomicDone s d p old (old ||| y) (exec (.amoOr d a b o sc) s) ∧
    AtomicDone s d p old (old ^^^ y) (exec (.amoXor d a b o sc) s) ∧
    AtomicDone s d p old (BitVec.ofInt 64 (Min.min old.toInt y.toInt)) (exec (.amoMin d a b o sc) s) ∧
    AtomicDone s d p old (BitVec.ofInt 64 (Max.max old.toInt y.toInt)) (exec (.amoMax d a b o sc) s) ∧
    AtomicDone s d p old (BitVec.ofNat 64 (Min.min old.toNat y.toNat)) (exec (.amoMinu d a b o sc) s) ∧
    AtomicDone s d p old (BitVec.ofNat 64 (Max.max old.toNat y.toNat)) (exec (.amoMaxu d a b o sc) s) ∧
    AtomicDone s d p old y (exec (.amoSwap d a b o sc) s) ∧
    (s.tile.getX d.toNat = gloved e → AtomicDone s d p old (if old = e then y else old) (exec (.cas d a b o sc) s))) ∧
  (∀ (a : BitVec 6) (i : BitVec 12) (o sc : BitVec 3) (x : BitVec 64) (s : State), SAlone s → s.tile.getX a.toNat = gloved x →
    exec (.pfR a i) s = passed s s.tile ∧ exec (.pfW a i) s = passed s s.tile ∧
    exec .ifence s = passed s { s.tile with icache := [] } ∧
    (s.tile.level = .supervisor ∨ (s.tile.dcmds = [] ∧ ∀ w ∈ s.tile.wins, w.2.awaits = []) →
      let u := s.writeBack s.cur fun _ _ => true
      exec .fenceDrain s = passed u (u.tile.invalidate fun _ _ => true)) ∧
    (fenceLegal o sc →
      let u := if o = 1#3 then s else releaseAt sc.toNat s.cur s
      let t := if o = 4#3 then { u.tile with stamp := u.scStamp } else u.tile
      exec (.fence o sc) s = passed u (if o = 2#3 then t else acquireAt sc.toNat t)))

namespace Sys2Proof.Claims

/-- A branch outcome pushed to V, M and D at S's index (R58); at supervisor level nothing is pushed (R348). -/
def pushed (t : Tile) (o : BrOut) : Tile :=
  match t.level with
  | .supervisor => t
  | .task => { t with boV := t.boV ++ [(t.eS.pos, o)], boM := t.boM ++ [(t.eS.pos, o)], boD := t.boD ++ [(t.eS.pos, o)] }

/-- The branch-outcome queues have room (R58). -/
def RoomOut (s : State) : Prop :=
  s.tile.level = .task → s.tile.boV.length < 64 ∧ s.tile.boM.length < 64 ∧ s.tile.boD.length < 64

/-- S goes on at an address with the tile `t`. -/
def jumped (s : State) (t : Tile) (a : BitVec 64) : Res := .next (s.setTile (t.passSTo a))

/-- A conditional outcome: S goes on at the target when taken, else at the next word. -/
def branched (s : State) (take : Bool) (o : BitVec 12) : Res :=
  jumped s (pushed s.tile (.cond take)) (if take then s.tile.eS.pc + 4#64 * o.signExtend 64 else s.tile.eS.pc + 4#64)

end Sys2Proof.Claims

/-- When S may perform a word and the outcome queues have room, beq, bne, blt, bge, bltu and bgeu push whether the
compare of xA and xB holds and go on at A + 4 x SignExt(OFF12) when it does, else at A + 4; loop writes xA - 1 and
branches while that is not zero; bp and bp ! (once V has reached the word) branch on the predicate slot as a word at
this index observes it. When S may perform a word and the outcome queues have room, j and jal go on at A + 4 x
SignExt(OFF18) and jal writes A + 4 to xD; jalr goes on at xA + SignExt(IMM12) when that is a multiple of 4, reading
xA before xD is written, and traps ALIGN with that address when it is not and V, M and D have reached the word; jtab,
settled, goes on at A + 4 when the index is at or above its limit, and else at A + 4 x the signed 32-bit table entry
at xD + 4 x xA. That the entry's access on an SO page first writes back the tile's dirty RC lines and drops its clean
ones is the model's reading (DEDUCED, log 18). -/
def Obligations.BranchAndJumpResult : Prop :=
  (∀ (a b k : BitVec 6) (o : BitVec 12) (x y : BitVec 64) (s : State), SReady s → RoomOut s →
    (s.tile.eS.pos ≤ s.tile.eV.pos →
      exec (.bp k o) s = branched s (s.tile.predAt k.toNat s.tile.eS.pos) o ∧
      exec (.bpNot k o) s = branched s (!s.tile.predAt k.toNat s.tile.eS.pos) o) ∧
    (s.tile.getX a.toNat = gloved x →
      exec (.loop a o) s = jumped s ((pushed s.tile (.cond (decide (x - 1#64 ≠ 0#64)))).putX a.toNat (gloved (x - 1#64)))
        (if x - 1#64 ≠ 0#64 then s.tile.eS.pc + 4#64 * o.signExtend 64 else s.tile.eS.pc + 4#64) ∧
      (s.tile.getX b.toNat = gloved y →
        exec (.beq a b o) s = branched s (decide (x = y)) o ∧
        exec (.bne a b o) s = branched s (decide (x ≠ y)) o ∧
        exec (.blt a b o) s = branched s (decide (x.toInt < y.toInt)) o ∧
        exec (.bge a b o) s = branched s (decide (y.toInt ≤ x.toInt)) o ∧
        exec (.bltu a b o) s = branched s (decide (x.toNat < y.toNat)) o ∧
        exec (.bgeu a b o) s = branched s (decide (y.toNat ≤ x.toNat)) o))) ∧
  (∀ (d a : BitVec 6) (o : BitVec 18) (i l : BitVec 12) (x y v : BitVec 64) (p : Place) (s : State), SReady s → RoomOut s →
    let pc := s.tile.eS.pc
    let tgt := pc + 4#64 * o.signExtend 64
    exec (.j o) s = jumped s (pushed s.tile (.target tgt)) tgt ∧
    exec (.jal d o) s = jumped s ((pushed s.tile (.target tgt)).putX d.toNat (gloved (pc + 4#64))) tgt ∧
    (s.tile.getX a.toNat = gloved x →
      let dest := x + i.signExtend 64
      (dest.toNat % 4 = 0 →
        exec (.jalr d a i) s = jumped s ((pushed s.tile (.target dest)).putX d.toNat (gloved (pc + 4#64))) dest) ∧
      (dest.toNat % 4 ≠ 0 → SAlone s → exec (.jalr d a i) s = .next (preciseTrap .S ⟨cALIGN, 0, dest, none⟩ [] s)) ∧
      (SAlone s → s.tile.getX d.toNat = gloved y →
        let ea := y + 4#64 * x
        (l.toNat ≤ x.toNat → exec (.jtab d a l) s = jumped s (pushed s.tile .nextWord) (pc + 4#64)) ∧
        (x.toNat < l.toNat → Reaches s ea 4 Rights.load p → wordAt (s.soOrder [ea]) p = gloved v →
          let off := BitVec.ofNat 32 (v.toNat / 2 ^ (8 * (ea.toNat % 8)) % 2 ^ 32)
          let at' := pc + 4#64 * off.signExtend 64
          let u := s.soOrder [ea]
          exec (.jtab d a l) s = jumped u (forget (pushed u.tile (.target at'))) at'))))

/-- At task level, put appends the word and glove of xA with the index of the put to the target engine's operand queue
when that has room; get, once V has reached it, moves the oldest word of the return queue to xD and raises QDEAD on an
empty queue; ewait moves the oldest event record to xD, drops the clean RC lines that the record's command wrote, lets
a held record enter and D post the records of commands that ended while it held one; epeek copies the oldest record,
or 0, without removing it. -/
def Obligations.ExchangeResult : Prop :=
  ∀ (d a : BitVec 6) (w : GWord) (q : List GWord) (v : EvEntry) (r : List EvEntry) (s : State), SReady s → s.tile.level = .task →
    let entry := (s.tile.eS.pos, s.tile.getX a.toNat)
    (s.tile.oqV.length < 64 → exec (.putV d a) s = passed s { s.tile with oqV := s.tile.oqV ++ [entry] }) ∧
    (s.tile.oqM.length < 64 → exec (.putM d a) s = passed s { s.tile with oqM := s.tile.oqM ++ [entry] }) ∧
    (s.tile.oqD.length < 64 → exec (.putD d a) s = passed s { s.tile with oqD := s.tile.oqD ++ [entry] }) ∧
    (s.tile.eq = [] → exec (.epeek d) s = wrote s d 0#64) ∧
    (s.tile.eq = v :: r → exec (.epeek d) s = passed s (s.tile.putX d.toNat v.w)) ∧
    (SAlone s →
      (s.tile.rq = w :: q → exec (.get d) s = passed s (({ s.tile with rq := q } : Tile).putX d.toNat w)) ∧
      (s.tile.rq = [] → exec (.get d) s = .next (preciseTrap .S ⟨cQDEAD, 0, s.tile.eS.pc, none⟩ [] s)) ∧
      (s.tile.eq = v :: r →
        let u := (s.setTile ((Tile.admitHeld { s.tile with eq := r }).invalidate fun k l => !l.uo && lineMeets k v.ranges)).settleEnded s.cur
        exec (.ewait d) s = passed u (u.tile.putX d.toNat v.w)))

/-- At task level with room in the outcome queues and operands without error, mcall of an entry that holds words and
whose expanded words are all allowed pushes the call to V, M and D and places S at the first word of the expansion,
with the mcall's address. mdef, settled, whose image lies in the places given (a count n of 1 to 32 in bits 5:0 with
zeros above, then n words and n parameter maps that keep R65), makes the entry those words and maps and changes
nothing else but what its accesses to SO pages do to the tile cache before them: they write back its dirty RC lines
and drop its clean ones, which is the model's reading (DEDUCED, log 18). -/
def Obligations.MicroprogramResult : Prop :=
  ∀ (d a b k : BitVec 6) (o : BitVec 12) (p0 p1 p2 x : BitVec 64) (s : State), SReady s → s.tile.level = .task → RoomOut s →
    (s.tile.getX d.toNat = gloved p0 → s.tile.getX a.toNat = gloved p1 → s.tile.getX b.toNat = gloved p2 →
      let m := s.tile.micro k.toNat
      m.words ≠ [] → (∀ j < m.words.length, barred (microWord m j p0 p1 p2) = false) →
      exec (.mcall d a b k) s = .next (s.setTile { pushed s.tile (.call k.toNat p0 p1 p2) with
        eS := ⟨s.tile.eS.pc, s.tile.eS.pos + 1, some ⟨k.toNat, 0, p0, p1, p2⟩⟩ })) ∧
    (SAlone s → s.tile.getX a.toNat = gloved x →
      ∀ (img : List (BitVec 64)) (ps : Nat → Place) (n : Nat), let va := x + o.signExtend 64
      1 ≤ n → n ≤ 32 → img.length = n + 1 → (img.getD 0 0#64).toNat % 2 ^ 32 = n →
      (∀ i ≤ n, Reaches s (va + 8#64 * BitVec.ofNat 64 i) 8 Rights.load (ps i)) →
      let h := ordered s va 1
      let u := ordered h (va + 8#64) n
      wordAt h (ps 0) = gloved (img.getD 0 0#64) → (∀ i < n, wordAt u (ps (i + 1)) = gloved (img.getD (i + 1) 0#64)) →
      let ws := (halves img).drop 1
      ((ws.drop n).take n).all mapOk = true →
      exec (.mdef k a o) s = passed u { forget u.tile with
        cstore := mapSet ⟨[], []⟩ s.tile.cstore k.toNat ⟨ws.take n, (ws.drop n).take n⟩ })

namespace Sys2Proof.Claims

/-- The waits of a CSR write beyond those of a settled word are over (R84, R164); a handler's has none (log 34). -/
def CsrFree (s : State) (c : Nat) : Prop :=
  s.tile.level = .task →
  (0x20 ≤ c ∧ c ≤ 0x3F →
    meetsAny ((s.tile.busyRanges s.tile.eS.pos).1 ++ (s.tile.busyRanges s.tile.eS.pos).2) [((c - 0x20) * 65536, 65536)] = false) ∧
  (c = 0x17 → s.tile.kvBusy = false)

/-- The tile at its task's `tail` (R35): a counted copy whose generation awaits no close, because its keystone was never sent, counts for
none. -/
def atTail (t : Tile) : Tile :=
  let awaited := fun (p : Nat × Nat) => (t.win? p.1).any fun x => x.awaits.any fun a => decide (a.gen = p.2)
  { t with ending := true, dcmds := t.dcmds.map fun k => { k with window := k.window.filter awaited } }

/-- The level may name the CSR (R162): a task-level number, or a supervisor number at supervisor level. -/
def CsrLevel (s : State) (c : Nat) : Prop := csrExists c = true ∧ (0x100 ≤ c → s.tile.level = .supervisor)

/-- The scoreboard area at TSB takes the tile's stores (R356), its image fits in 8 KiB, and no late fault waits (R354). -/
def AreaFits (s : State) : Prop :=
  s.tile.pendings.length ≤ 254 ∧ ∀ k < 8192, ∃ d off,
    targetOf (bits s.tile.tsb 63 13 * 8192 + k) = .hbm d off ∧
    accessVerdict s (classSV s.tile) (s.cur / 16) (bits s.tile.tsb 63 13 * 8192 + k) Rights.store = .ok

/-- The image fits and no late fault of a lower word waits (R354). -/
def ImageFits (s : State) : Prop := s.tile.late = none ∧ AreaFits s

/-- The handler has set FLAGS bit 4 of the entry of index `i` in the scoreboard image, which lists the entries in the order of `pend`
(R356, R358). -/
def skipped (s : State) (pend : List Nat) (i : Nat) : Bool :=
  bit (s.mem.read (bits s.tile.tsb 63 13 * 8192 + 64 + 32 * pend.idxOf i + 16)).data 36

/-- The record that the settlement of entry `i` posts (R358): of a word that is dropped, STATUS 0xFF with the count of the work done; of a
D command that ended while the tile was stopped, its own; where the word requested one. -/
def dueRecord (s : State) (pend : List Nat) (i : Nat) : Option EvEntry :=
  match s.tile.dcmds.find? fun k => decide (k.ref.idx = i) with
  | some k =>
    if k.ev = false then none
    else if skipped s pend i then some ⟨eventWord 3 k.tag 0xFF k.count, k.pranges⟩
    else if k.ended then some ⟨eventWord 3 k.tag k.status k.count, k.pranges⟩
    else none
  | none =>
    match s.tile.nwaits.find? fun w => decide (w.1.idx = i) with
    | some w => if skipped s pend i then some ⟨eventWord 2 w.2.1 0xFF w.2.2, []⟩ else none
    | none => none

/-- A D command after its settlement (R358): a copy, gather, scatter or fill that a late fault ended is issued whole again, any other work goes
on from its stop point. -/
def goesOn (k : DCmd) : DCmd :=
  let whole := match k.kind with
    | .copy _ => true
    | .gather => true
    | .scatter => true
    | .fill => true
    | _ => false
  if k.faulted && whole then { k with faulted := false, prog := 0, count := 0 } else { k with faulted := false }

/-- A return to the task (R359): task level at index n and TEPC, in the expansion where TEPC is as entered; queue entries of words at or
above n gone; no clean line in the tile cache (R100); registers, masks, accumulators and scratchpad as they were. -/
def ReturnedToTask (s : State) (c : TrapCtx) (t : State) : Prop :=
  t.tile.level = .task ∧ t.tile.run = .running ∧ t.tile.trap = none ∧
  (∀ e, t.tile.eng e = ⟨s.tile.tepc, c.n, if s.tile.tepc = c.tepc then c.exp else none⟩) ∧
  t.tile.oqV = s.tile.oqV.filter (fun q => decide (q.1 < c.n)) ∧ t.tile.oqM = s.tile.oqM.filter (fun q => decide (q.1 < c.n)) ∧
  t.tile.oqD = s.tile.oqD.filter (fun q => decide (q.1 < c.n)) ∧ t.tile.boV = s.tile.boV.filter (fun q => decide (q.1 < c.n)) ∧
  t.tile.boM = s.tile.boM.filter (fun q => decide (q.1 < c.n)) ∧ t.tile.boD = s.tile.boD.filter (fun q => decide (q.1 < c.n)) ∧
  (∀ p ∈ t.tile.cache, p.2.valid = p.2.dirty) ∧ t.tile.x = s.tile.x ∧ t.tile.v = s.tile.v ∧ t.tile.sreg = s.tile.sreg ∧
  t.tile.m = s.tile.m ∧ t.tile.c = s.tile.c ∧ t.tile.a = s.tile.a ∧ t.tile.acc = s.tile.acc ∧ t.tile.spad = s.tile.spad ∧
  t.tile.preds = s.tile.preds ∧ t.tile.rq = s.tile.rq

/-- Supervisor level as a trap, late or not, at the index and word of `x` leaves it (R356, R357): the tile running, cause and information,
TEPC, the status bits, S at TVEC, every engine at n, the image's NIDX, the x registers and the return queue as the words below n left them, every other register,
queue and memory of the tile as it was. -/
def EnteredSupervisor (late : Bool) (s t : State) (cause : BitVec 64) (info : BitVec 64) (x : Engine) : Prop :=
  t.cur = s.cur ∧ t.tile.level = .supervisor ∧ t.tile.run = .running ∧ t.tile.tcause = cause ∧ t.tile.taddr = info ∧ t.tile.tepc = x.pc &&& ~~~3#64 ∧
  bits t.tile.tstat 9 7 = 0 ∧ bit t.tile.tstat 11 = late ∧ bit t.tile.tstat 10 = bit s.tile.ufv 1 ∧
  t.tile.eS.pc = s.tile.tvec &&& ~~~3#64 ∧ (∀ e, (t.tile.eng e).pos = x.pos) ∧
  t.mem.read (bits s.tile.tsb 63 13 * 8192) = gloved (BitVec.ofNat 64 x.pos) ∧
  (∀ r, t.tile.getX r = (undoX x.pos s.tile.undo s.tile).getX r) ∧
  t.tile.v = s.tile.v ∧ t.tile.sreg = s.tile.sreg ∧ t.tile.m = s.tile.m ∧ t.tile.c = s.tile.c ∧ t.tile.a = s.tile.a ∧
  t.tile.vcr = s.tile.vcr ∧ t.tile.dcr = s.tile.dcr ∧ t.tile.acc = s.tile.acc ∧ t.tile.spad = s.tile.spad ∧
  t.tile.preds = s.tile.preds ∧ t.tile.rq = (undoX x.pos s.tile.undo s.tile).rq ∧ t.tile.eq = s.tile.eq ∧ t.tile.oqV = s.tile.oqV ∧
  t.tile.oqM = s.tile.oqM ∧ t.tile.oqD = s.tile.oqD ∧ t.tile.boV = s.tile.boV ∧ t.tile.boM = s.tile.boM ∧
  t.tile.boD = s.tile.boD ∧ t.dies = s.dies ∧ (∀ g, g ≠ s.cur → t.tileAt g = s.tileAt g)

end Sys2Proof.Claims

/-- For a CSR the level may name, csrr writes its value to xD (reading TCAUSE sets CRD, reading TADDR sets TRD). For a
settled word with no wait left and xA without error, csrw, csrs and csrc write the old value to xD and make the CSR
what its map makes of xA, of old OR xA, of old AND NOT xA, when the map takes it and the CSR is not read-only; csrs
and csrc of x0 only read, read-only CSRs too. A write form on a read-only CSR, or a value the map refuses, is ILL, and
a supervisor number at task level is PRIV, for every form. That a handler's write waits for no word of the task is the
model's choice (log 34). A csrw of x, settled and with no wait left, leaves in WIN x clamped to 8 to 1,024; in APOL x
when it is at most 2; in BFMTb the code x[3:0] when it is not 9 to 14; in UFV x with ACT kept; in KVCTL x[0]; and at
supervisor level in TSTAT only PPL from x, in TEPC and TVEC x with bits 1:0 clear, in TSB x with bits 12:0 clear, in
CTXB x with bits 11:0 clear, in PWIN x[19:0]. xD takes the old value and S goes on. -/
def Obligations.CsrWordResult : Prop :=
  (∀ (d a : BitVec 6) (c : BitVec 12) (x : BitVec 64) (u : Tile) (s : State),
    let n := c.toNat
    let traps := fun (i : Instr) (cause : Nat) => exec i s = .next (preciseTrap .S ⟨cause, 0, s.tile.eS.pc, none⟩ [] s)
    let old := s.csr s.cur n
    let read := s.tile.noteRead n
    (CsrLevel s n → SReady s → exec (.csrr d c) s = passed s (read.putX d.toNat (gloved old))) ∧
    (CsrLevel s n → SAlone s → s.tile.getX a.toNat = gloved x → CsrFree s n →
      (csrReadOnly n = false →
        (read.setCsr n x = some u → exec (.csrw d a c) s = passed s (u.putX d.toNat (gloved old))) ∧
        (read.setCsr n x = none → traps (.csrw d a c) 0x01) ∧
        (a ≠ 0#6 → read.setCsr n (old ||| x) = none → traps (.csrs d a c) 0x01) ∧
        (a ≠ 0#6 → read.setCsr n (old &&& ~~~x) = none → traps (.csrc d a c) 0x01) ∧
        (a ≠ 0#6 → read.setCsr n (old ||| x) = some u → exec (.csrs d a c) s = passed s (u.putX d.toNat (gloved old))) ∧
        (a ≠ 0#6 → read.setCsr n (old &&& ~~~x) = some u → exec (.csrc d a c) s = passed s (u.putX d.toNat (gloved old)))) ∧
      (a = 0#6 → exec (.csrs d a c) s = passed s (read.putX d.toNat (gloved old)) ∧
        exec (.csrc d a c) s = passed s (read.putX d.toNat (gloved old))) ∧
      (csrReadOnly n = true → traps (.csrw d a c) 0x01 ∧
        (a ≠ 0#6 → traps (.csrs d a c) 0x01 ∧ traps (.csrc d a c) 0x01))) ∧
    (SAlone s → csrExists n = true → 0x100 ≤ n → s.tile.level = .task →
      traps (.csrr d c) 0x02 ∧ traps (.csrw d a c) 0x02 ∧ traps (.csrs d a c) 0x02 ∧ traps (.csrc d a c) 0x02)) ∧
  (∀ (d a : BitVec 6) (x : BitVec 64) (s : State), SAlone s → s.tile.getX a.toNat = gloved x →
    let done := fun (c : BitVec 12) (f : Tile → Tile) =>
      exec (.csrw d a c) s = passed s ((f s.tile).putX d.toNat (gloved (s.csr s.cur c.toNat)))
    done 0x010#12 (fun t => { t with win := if x.toNat < 8 then 8#64 else if 1024 < x.toNat then 1024#64 else x }) ∧
    (x.toNat ≤ 2 → done 0x011#12 fun t => { t with apol := x }) ∧
    done 0x016#12 (fun t => { t with ufv := (x &&& 0xFFFFFFFFFFFFFFFD#64) ||| (t.ufv &&& 2#64) }) ∧
    (CsrFree s 0x17 → done 0x017#12 fun t => { t with kvctl := x &&& 1#64 }) ∧
    (∀ b < 32, CsrFree s (0x20 + b) → ¬ (9 ≤ x.toNat % 16 ∧ x.toNat % 16 ≤ 14) →
      done (BitVec.ofNat 12 (0x20 + b)) fun t => { t with bfmt := mapSet 0xF#4 t.bfmt b (BitVec.ofNat 4 (x.toNat % 16)) }) ∧
    (s.tile.level = .supervisor →
      done 0x100#12 (fun t => { t with tstat := (t.tstat &&& 0xFFFFFFFFFFFFFF7F#64) ||| (x &&& 0x80#64) }) ∧
      done 0x103#12 (fun t => { t with tepc := x &&& 0xFFFFFFFFFFFFFFFC#64 }) ∧
      done 0x104#12 (fun t => { t with tvec := x &&& 0xFFFFFFFFFFFFFFFC#64 }) ∧
      done 0x105#12 (fun t => { t with tsb := x &&& 0xFFFFFFFFFFFFE000#64 }) ∧
      done 0x106#12 (fun t => { t with ctxb := x &&& 0xFFFFFFFFFFFFF000#64 }) ∧
      done 0x107#12 (fun t => { t with pwin := x &&& 0xFFFFF#64 })))

/-- At task level, settled, with a scoreboard area that takes the stores, sys (cause SYS) and brk with no armed
breakpoint (cause BRK) answer a next state at supervisor level: TCAUSE holds the cause and TADDR the word's address,
TEPC the address of the next word, PPL, CRD, TRD and LATE are 0 and UFA is ACT, S is at TVEC, every engine at the next
index, the image holds NIDX, the x registers stand as the words below left them, and every other register, mask, slot,
accumulator, queue and the scratchpad are unchanged. With breakpoints armed, brk stops the tile at the word after it.
At task level, settled, with a scoreboard area that takes the stores, each of eret, resume and halt takes the trap
PRIV and, with ACT 0, uret takes the trap ILL, at its own index: the next state is at supervisor level as the trap
rules give it, TADDR holding the word's address, and nothing the word would have done has happened. -/
def Obligations.SupervisorEntryResult : Prop :=
  (∀ (s : State), SAlone s → s.tile.level = .task →
    let x := s.tile.eS.next (s.tile.expLen s.tile.eS)
    (ImageFits s → s.dmode (s.cur / 16) = 0 →
      (∃ t, exec .sys s = .next t ∧ EnteredSupervisor false s t 0x13#64 s.tile.eS.pc x) ∧
      (∃ t, exec .brk s = .next t ∧ EnteredSupervisor false s t 0x14#64 s.tile.eS.pc x)) ∧
    (s.brkArmed (s.cur / 16) = true → exec .brk s = passed s { s.tile with run := .stopped })) ∧
  (∀ (s : State), SAlone s → s.tile.level = .task → ImageFits s → s.dmode (s.cur / 16) = 0 →
    (∃ t, exec .eret s = .next t ∧ EnteredSupervisor false s t 0x02#64 s.tile.eS.pc s.tile.eS) ∧
    (∃ t, exec .resume s = .next t ∧ EnteredSupervisor false s t 0x02#64 s.tile.eS.pc s.tile.eS) ∧
    (∃ t, exec .halt s = .next t ∧ EnteredSupervisor false s t 0x02#64 s.tile.eS.pc s.tile.eS) ∧
    (bit s.tile.ufv 1 = false → ∃ t, exec .uret s = .next t ∧ EnteredSupervisor false s t 0x01#64 s.tile.eS.pc s.tile.eS))

/-- At supervisor level eret with PPL 1 goes on at TEPC; with PPL 0 and no pending entry it returns to the task: level
task, every engine at the trap's index n and at TEPC, in the interrupted expansion when TEPC is as entered, queue
entries of words at or above n gone. With a pending entry it is ILL, and so is resume with PPL 1. resume with PPL 0
settles the entries: one whose FLAGS bit 4 the handler has set is dropped, a word that ended is gone, a copy ended by
a late fault starts again and every other word goes on where it stood; the records due, of STATUS 0xFF for a dropped
word, enter the queue in ascending index where it has room; then it returns in the same way. Both drop the clean lines
of the tile cache. halt stops all four engines. At task level uret with ACT 1 places every engine at the next index
with the word at UFEPC and clears ACT. -/
def Obligations.TrapReturnResult : Prop :=
  ∀ (c : TrapCtx) (s : State), s.tile.runs = true →
    let ill := fun (i : Instr) => exec i s = .next (preciseTrap .S ⟨cILL, 0, s.tile.eS.pc, none⟩ [] s)
    (s.tile.level = .supervisor →
      exec .halt s = .next (s.setTile { s.tile with run := .halted, haltFtb := s.ftb }) ∧
      (bit s.tile.tstat 7 = true →
        exec .eret s = .next (s.setTile { s.tile with eS := { s.tile.eS with pc := s.tile.tepc } }) ∧ ill .resume) ∧
      (bit s.tile.tstat 7 = false → s.tile.trap = some c →
        (c.pend ≠ [] → ill .eret) ∧
        (c.pend = [] → ∃ t, exec .eret s = .next t ∧ ReturnedToTask s c t ∧ t.tile.eq = s.tile.eq ∧
          t.tile.nest = s.tile.nest ∧ t.tile.nwaits = s.tile.nwaits ∧ t.mem = s.mem) ∧
        (s.tile.held = [] → s.tile.eq.length + c.pend.length ≤ 64 → s.dmode (s.cur / 16) = 0 →
          s.tile.pendings.map (·.ref.idx) = c.pend → c.pend.Pairwise (· < ·) → (∀ i ∈ c.pend, i < c.n) →
          ∃ t, exec .resume s = .next t ∧ ReturnedToTask s c t ∧ t.mem = s.mem ∧
            t.tile.eq = s.tile.eq ++ c.pend.filterMap (dueRecord s c.pend) ∧
            t.tile.dcmds = (s.tile.dcmds.filter fun k => !(skipped s c.pend k.ref.idx || k.ended)).map goesOn ∧
            t.tile.nwaits = s.tile.nwaits.filter (fun w => !skipped s c.pend w.1.idx) ∧
            t.tile.nest = (s.tile.nest.filter fun n => !skipped s c.pend n.ref.idx).map fun n => { n with faulted := false }))) ∧
    (SAlone s → s.tile.level = .task → bit s.tile.ufv 1 = true →
      exec .uret s = .next (s.setTile { s.tile with
        ufv := s.tile.ufv &&& 0xFFFFFFFFFFFFFFFD#64,
        eS := ⟨s.tile.ufepc, s.tile.eS.pos + 1, s.tile.ufexp⟩, eV := ⟨s.tile.ufepc, s.tile.eS.pos + 1, s.tile.ufexp⟩,
        eM := ⟨s.tile.ufepc, s.tile.eS.pos + 1, s.tile.ufexp⟩, eD := ⟨s.tile.ufepc, s.tile.eS.pos + 1, s.tile.ufexp⟩ }))

/-- At task level, settled: spawn of a record that four places hold without error, onto a die whose pool has room on
the tile's side, releases at .pkg, so that every dirty RC line of the tile cache goes to memory and is clean, appends
the record to that die's queue at the level of CODE[1:0] with the task's WIDSPLIT, and goes on; tail with JOIN 0, or
with JOIN in memory that the task may write, begins the end of the task: the counted copies of a generation whose
keystone was never sent count for none, and D's ended commands post their records; yield with no request pending goes
on, and with one (no word handing packets over) puts the tile into the cut at the word after it; tlbinv records its
invalidation and goes on. poll writes PREQ.PEND to xD. -/
def Obligations.TaskWordResult : Prop :=
  ∀ (d a b : BitVec 6) (x y : BitVec 64) (p : Place) (s : State), SAlone s → s.tile.level = .task →
    exec (.poll d) s = wrote s d (if bit s.tile.preq 0 = true then 1#64 else 0#64) ∧
    (s.tile.pre = none → exec .yield s = passed s s.tile) ∧
    (s.tile.pre.isSome = true → s.tile.sending = [] → ∃ t, exec .yield s = .next t ∧ t.tile.cut.isSome = true ∧
      t.tile.eS = s.tile.eS.next (s.tile.expLen s.tile.eS)) ∧
    let ending := (s.setTile (atTail s.tile)).settleEnded s.cur
    (s.tile.record.join = 0#64 → exec .tail s = .next ending) ∧
    (∀ pa port, s.tile.record.join ≠ 0#64 → Reaches s s.tile.record.join 8 Rights.store p → p = .hbm pa 0 port →
      exec .tail s = .next ending) ∧
    (s.tile.getX a.toNat = gloved x → s.tile.getX b.toNat = gloved y →
      exec (.tlbinv a b) s = passed s { s.tile with
        tlbinvs := s.tile.tlbinvs ++ [⟨s.tile.eS.pos, x, bit y 9, bit y 10, bits y 8 0, false⟩] } ∧
      (∀ (l : List (BitVec 64)) (ps : Nat → Place), l.length = 4 → x.toNat % 8 = 0 → canonical x = true →
        (∀ i < 4, Reaches s (x + 8#64 * BitVec.ofNat 64 i) 8 Rights.load (ps i) ∧
          wordAt (ordered s x 4) (ps i) = gloved (l.getD i 0#64)) →
        let die := if bit y 63 = true then bits y 4 0 else s.cur / 16
        die < 24 → (s.dieAt die).occ s.tile.side < 3840 →
        ∃ t, exec (.spawn a b) s = .next t ∧ (t.dieAt die).occ s.tile.side = (s.dieAt die).occ s.tile.side + 1 ∧
          (∃ u ∈ (t.dieAt die).units, u.recs = [recOf l] ∧ u.side = s.tile.side ∧ u.level = bits (recOf l).code 1 0 ∧
            u.widsplit = s.tile.widsplit ∧ u.slots = [] ∧ u.gang = false) ∧
          (let h := ordered s x 4
           t.mem = (h.writeBack s.cur fun _ l => !l.uo).mem ∧ (∀ p ∈ t.tile.cache, p.2.uo = false → p.2.dirty = 0#16) ∧
            ∀ k l, (mapSorted none h.tile.cache = true → (k, l) ∈ h.tile.cache → l.uo = false → l.words.length = 16 →
              ∀ i < 16, l.dirty.getLsbD i = true → t.mem.read (128 * k + 8 * i) = l.words.getD i GWord.zero)) ∧
          t.tile.eS = s.tile.eS.next (s.tile.expLen s.tile.eS)))

namespace Sys2Proof.Claims

/-- A word of V, M or D may take effect (R55, R353): the tile runs its task, S has passed the word, and every word below it has
passed its trap point. -/
def EFree (e : Eng) (s : State) : Prop :=
  s.tile.runs = true ∧ s.tile.level = .task ∧ (s.tile.eng e).pos < s.tile.eS.pos ∧ (s.tile.eng e).pos ≤ s.tile.minPos

/-- And its guard holds (R63). -/
def EReady (e : Eng) (g : BitVec 4) (s : State) : Prop := EFree e s ∧ s.tile.predAt g.toNat (s.tile.eng e).pos = true

/-- Engine `e` goes on to its next word with the tile `t`. -/
def went (e : Eng) (s : State) (t : Tile) : Res := .next (s.setTile (t.pass e))

/-- Mask `m` holds `k` without error. -/
def MaskIs (s : State) (m : Nat) (k : BitVec 128) : Prop :=
  s.tile.getM m 0 = gloved (k.extractLsb' 0 64) ∧ s.tile.getM m 1 = gloved (k.extractLsb' 64 64)

/-- The lanes of register `r` that a mask selects hold the data `x` without error. -/
def LanesAre (s : State) (k : BitVec 128) (r : Nat) (x : Nat → BitVec 64) : Prop :=
  ∀ i < 128, k.getLsbD i = true → s.tile.getV r i = gloved (x i)

/-- V goes on with the tile `t` but for its v registers, whose lanes are as `f` gives them. -/
def VSet (s : State) (t : Tile) (f : Nat → Nat → GWord) (r : Res) : Prop :=
  ∃ v, r = went .V s { t with v := v } ∧ ∀ q < 32, ∀ i < 128, ({ t with v := v } : Tile).getV q i = f q i

/-- V goes on; the lanes of register `d` that the mask selects take `f`; every other lane and all else is as it was. -/
def LanesSet (s : State) (d : Nat) (k : BitVec 128) (f : Nat → GWord) (r : Res) : Prop :=
  VSet s s.tile (fun q i => if q = d ∧ k.getLsbD i = true then f i else s.tile.getV q i) r

/-- V goes on; mask `d` takes `w`; all else is as it was. -/
def maskSet (s : State) (d : Nat) (w : BitVec 128) : Res :=
  went .V s ((s.tile.setM d 0 (gloved (w.extractLsb' 0 64))).setM d 1 (gloved (w.extractLsb' 64 64)))

/-- The number that a code of a format holds (R70, R71, R76); none for NaN and the infinities. -/
def numOf (f : Fmt) (c : Nat) : Option ℚ :=
  match elemValue f c with
  | .fin s m e => some ((if s then -1 else 1) * m * (2 : ℚ) ^ e)
  | _ => none

/-- The largest finite magnitude of a floating format (R70). -/
def maxNum : Fmt → ℚ
  | .fp32 => (2 - 2 ^ (-23 : Int)) * 2 ^ 127
  | .bf16 => (2 - 2 ^ (-7 : Int)) * 2 ^ 127
  | .e5m2 => 57344
  | .e4m3 => 448
  | .e2m1 => 6
  | _ => 0

/-- The magnitude halfway from the largest finite one to the next of an unbounded exponent range (R77). -/
def edgeNum : Fmt → ℚ
  | .fp32 => (2 - 2 ^ (-24 : Int)) * 2 ^ 127
  | .bf16 => (2 - 2 ^ (-8 : Int)) * 2 ^ 127
  | .e5m2 => 61440
  | .e4m3 => 464
  | _ => 7

/-- The infinity of a sign (R71), or where the format has none, NaN (R79). -/
def infOf (f : Fmt) (neg : Bool) : Nat :=
  match f, neg with
  | .fp32, false => 0x7F800000
  | .fp32, true => 0xFF800000
  | .bf16, false => 0x7F80
  | .bf16, true => 0xFF80
  | .e5m2, false => 0x7C
  | .e5m2, true => 0xFC
  | _, _ => 0x7F

/-- Code `r` is one of the two codes `c` and `c + 1` of the sign of `q` whose magnitudes stand around that of `q`: the farther from zero where
`up` holds of `c` and the two magnitudes. -/
def Between (f : Fmt) (q : ℚ) (up : Nat → ℚ → ℚ → Prop) (r : Nat) : Prop :=
  ∃ c a b, numOf f c = some a ∧ numOf f (c + 1) = some b ∧ |a| ≤ |q| ∧ |q| < |b| ∧ (2 ^ (f.width - 1) ≤ c ↔ q < 0) ∧
    (up c |a| |b| → r = c + 1) ∧ (¬ up c |a| |b| → r = c)

/-- When a mode rounds the magnitude of `q` up from `a` to `b` (R77, R78). -/
def roundsUp (mode : Rm) (draw : Nat) (q : ℚ) (c : Nat) (a b : ℚ) : Prop :=
  match mode with
  | .rne => b - a < 2 * (|q| - a) ∨ (2 * (|q| - a) = b - a ∧ c % 2 = 1)
  | .rtz => False
  | .rdn => q < 0 ∧ a ≠ |q|
  | .rup => 0 < q ∧ a ≠ |q|
  | .rs => (draw : Int) < ⌊(|q| - a) / (b - a) * 2 ^ 32⌋

/-- Code `r` is the nonzero number `q` rounded to a format under a mode and a saturation code (R77 to R80). -/
def Rounded (f : Fmt) (mode : Rm) (sat draw : Nat) (q : ℚ) (r : Nat) : Prop :=
  let neg := decide (q < 0)
  let largest := numOf f r = some (if neg then - maxNum f else maxNum f)
  (|q| < maxNum f → Between f q (roundsUp mode draw q) r) ∧ (|q| = maxNum f → largest) ∧
  (maxNum f < |q| →
    (sat ≠ 0 ∨ f = .e2m1 ∨ mode = .rtz ∨ (mode = .rdn ∧ 0 < q) ∨ (mode = .rup ∧ q < 0) ∨ (mode = .rne ∧ |q| < edgeNum f) → largest) ∧
    (sat = 0 → f ≠ .e2m1 →
      (mode = .rdn ∧ q < 0) ∨ (mode = .rup ∧ 0 < q) ∨ (mode = .rne ∧ (edgeNum f < |q| ∨ (edgeNum f = |q| ∧ f ≠ .e4m3))) →
      r = infOf f neg))

/-- An integer is `q` rounded under a mode without a draw (R77). -/
def RoundedInt (mode : Rm) (q : ℚ) (k : Int) : Prop :=
  match mode with
  | .rne => |q - k| ≤ 1 / 2 ∧ (|q - k| = 1 / 2 → k % 2 = 0)
  | .rtz => |(k : ℚ)| ≤ |q| ∧ |q - k| < 1 ∧ 0 ≤ q * k
  | .rdn => (k : ℚ) ≤ q ∧ q < k + 1
  | .rup => (k : ℚ) - 1 < q ∧ q ≤ k
  | .rs => True

/-- FP32 code `r` is the nearest, of even code on a tie, to the positive number that lies at or below exactly the numbers of `below` and at
or above exactly those of `above`. -/
def Nearest32 (below above : ℚ → Prop) (r : Nat) : Prop :=
  ∃ c a b, numOf .fp32 c = some a ∧ numOf .fp32 (c + 1) = some b ∧ c + 1 < 2 ^ 31 ∧ above a ∧ ¬ above b ∧
    let up := (above ((a + b) / 2) ∧ ¬ below ((a + b) / 2)) ∨ (above ((a + b) / 2) ∧ below ((a + b) / 2) ∧ c % 2 = 1)
    (up → r = c + 1) ∧ (¬ up → r = c)

/-- Element `e` of a register whose lanes hold `x`, elements `w` bits wide. -/
def elemAt (w : Nat) (x : Nat → BitVec 64) (e : Nat) : Nat := elemOf w (x (e / (64 / w))) (e % (64 / w))

end Sys2Proof.Claims

/-- When V may perform the word, its guard holds, the mask and the active source lanes are without error, each word of
the arithmetic, unary, bitwise and shift groups writes every active lane of VD with its elements' results (two
sources; vfma and vfms read VD as the addend; one source, the correctly rounded functions among them) and a fresh
glove; vdot writes element 0 of each active lane with the sum of that element and of all products of the lane, rounded
once to FP32, and keeps element 1. Inactive lanes, every other register and all else are unchanged and V goes on. vmov
moves word and glove of active lanes. -/
def Obligations.VectorElementResult : Prop :=
  ∀ (g : BitVec 4) (d a b : BitVec 5) (m t : BitVec 3) (k : BitVec 128) (x y z : Nat → BitVec 64) (s : State),
    EReady .V g s → MaskIs s m.toNat k →
    let f := typeOf t
    let to2 := fun (op : Nat → Nat → Nat) => LanesSet s d.toNat k fun i =>
      gloved (wordOf f.width fun j => op (elemOf f.width (x i) j) (elemOf f.width (y i) j))
    let to3 := fun (op : Nat → Nat → Nat → Nat) => LanesSet s d.toNat k fun i =>
      gloved (wordOf f.width fun j => op (elemOf f.width (x i) j) (elemOf f.width (y i) j) (elemOf f.width (z i) j))
    let to1 := fun (w : Nat) (op : Nat → Nat) => LanesSet s d.toNat k fun i => gloved (wordOf w fun j => op (elemOf w (x i) j))
    LanesSet s d.toNat k (fun i => s.tile.getV a.toNat i) (exec (.vmov g d a m t) s) ∧
    (LanesAre s k a.toNat x →
      to1 f.width (absElem f) (exec (.vabs g d a m t) s) ∧
      to1 f.width (negElem f) (exec (.vneg g d a m t) s) ∧
      to1 f.width (fun p => 2 ^ f.width - 1 - p) (exec (.vnot g d a m t) s) ∧
      to1 32 (fun p => rcp32 (elemValue .fp32 p)) (exec (.vrcp g d a m t) s) ∧
      to1 32 (fun p => rsqrt32 (elemValue .fp32 p)) (exec (.vrsqrt g d a m t) s) ∧
      to1 32 (fun p => sqrt32 (elemValue .fp32 p)) (exec (.vsqrt g d a m t) s) ∧
      to1 32 (fun p => exp232 (elemValue .fp32 p)) (exec (.vexp2 g d a m t) s) ∧
      to1 32 (fun p => log232 (elemValue .fp32 p)) (exec (.vlog2 g d a m t) s) ∧
      (LanesAre s k b.toNat y →
        to2 (addElem f) (exec (.vadd g d a b m t) s) ∧
        to2 (subElem f) (exec (.vsub g d a b m t) s) ∧
        to2 (mulElem f) (exec (.vmul g d a b m t) s) ∧
        to2 (maxElem f) (exec (.vmax g d a b m t) s) ∧
        to2 (minElem f) (exec (.vmin g d a b m t) s) ∧
        to2 (fun p q => p &&& q) (exec (.vand g d a b m t) s) ∧
        to2 (fun p q => p ||| q) (exec (.vor g d a b m t) s) ∧
        to2 (fun p q => p ^^^ q) (exec (.vxor g d a b m t) s) ∧
        to2 (fun p q => p * 2 ^ (q % f.width)) (exec (.vsll g d a b m t) s) ∧
        to2 (fun p q => p / 2 ^ (q % f.width)) (exec (.vsrl g d a b m t) s) ∧
        to2 (sraElem f.width) (exec (.vsra g d a b m t) s) ∧
        to2 (addsatElem f.width) (exec (.vaddsat g d a b m t) s) ∧
        (LanesAre s k d.toNat z →
          to3 (fmaElem f) (exec (.vfma g d a b m t) s) ∧ to3 (fmsElem f) (exec (.vfms g d a b m t) s) ∧
          LanesSet s d.toNat k (fun i => gloved (wordOf 32 fun j =>
            if j = 0 then roundNearest .fp32 (exactSum (elemValue .fp32 (elemOf 32 (z i) 0) ::
              (List.range (64 / f.width)).map fun q =>
                (elemValue f (elemOf f.width (x i) q)).mul (elemValue f (elemOf f.width (y i) q))))
            else elemOf 32 (z i) 1)) (exec (.vdot g d a b m t) s))))

/-- For the integer element formats of w bits and elements below 2^w: add, subtract and multiply are those of the
integers modulo 2^w, negation is that of the integers modulo 2^w, max and min choose by the signed values, the
magnitude of an element that is not the most negative is its absolute value and of the most negative is itself, the
arithmetic right shift divides the signed value by 2^(amount mod w) rounding down, and the saturating add clamps the
signed sum to the range of w bits. -/
def Obligations.IntegerElementValues : Prop :=
  ∀ (f : Fmt) (x y : Nat), f.isInt = true → x < 2 ^ f.width → y < 2 ^ f.width →
    let w := f.width
    let v := signedOf w
    v (addElem f x y % 2 ^ w) = (v x + v y).bmod (2 ^ w) ∧ v (subElem f x y % 2 ^ w) = (v x - v y).bmod (2 ^ w) ∧
    v (mulElem f x y % 2 ^ w) = (v x * v y).bmod (2 ^ w) ∧ v (negElem f x % 2 ^ w) = (- v x).bmod (2 ^ w) ∧
    v (maxElem f x y) = max (v x) (v y) ∧ v (minElem f x y) = min (v x) (v y) ∧
    (v x ≠ -(2 ^ (w - 1)) → v (absElem f x) = (v x).natAbs) ∧ (v x = -(2 ^ (w - 1)) → absElem f x = x) ∧
    v (sraElem w x y % 2 ^ w) = v x / 2 ^ (y % w) ∧
    v (addsatElem w x y % 2 ^ w) = max (-(2 ^ (w - 1))) (min (2 ^ (w - 1) - 1) (v x + v y))

/-- Codes of the five floating formats hold the numbers, infinities and NaNs of the format table. For FP32 and BF16
elements that hold numbers, vadd, vsub, vmul, vfma and vfms give the exact result rounded once to nearest even, a zero
sum being -0 only when every term is -0 and a zero product taking the sign of its factors; max and min give the larger
and smaller number, abs clears and neg inverts the sign. A NaN operand, infinities of both signs added and an infinity
times zero give the canonical NaN. rcp, sqrt and rsqrt give the FP32 value nearest to the function, exp2 and log2 the
exact value where R178 says that it is exact (their other values are not stated), and all five the special values of
R178. A conversion of a number rounds it under the mode with the saturation code; to an integer it rounds and clamps;
between integers it keeps the low bits or clamps; NaN and the infinities convert as the tables say. -/
def Obligations.FloatElementValues : Prop :=
  (∀ p ∈ [(Fmt.fp32, (8 : Nat), (23 : Nat), (127 : Int)), (.bf16, 8, 7, 127), (.e5m2, 5, 2, 15), (.e4m3, 4, 3, 7), (.e2m1, 2, 1, 1)],
    let f := p.1
    let eb := p.2.1
    let mb := p.2.2.1
    ∀ (sg : Bool) (e m : Nat), e < 2 ^ eb → m < 2 ^ mb →
      let c := (if sg then 2 ^ (f.width - 1) else 0) + e * 2 ^ mb + m
      let top := decide (e + 1 = 2 ^ eb)
      let special := match f with
        | .e4m3 => top && decide (m = 7)
        | .e2m1 => false
        | _ => top
      (special = true → elemValue f c = if m = 0 then .inf sg else .nan) ∧
      (special = false → numOf f c = some ((if sg then (-1 : ℚ) else 1) *
        if e = 0 then (m : ℚ) * (2 : ℚ) ^ (1 - p.2.2.2 - mb) else ((2 : ℚ) ^ mb + m) * 2 ^ ((e : Int) - p.2.2.2 - mb)))) ∧
  (∀ (f : Fmt) (x y z : Nat), f = .fp32 ∨ f = .bf16 → x < 2 ^ f.width → y < 2 ^ f.width → z < 2 ^ f.width →
    let top := 2 ^ (f.width - 1)
    let canon := if f = .fp32 then 0x7FC00000 else 0x7FC0
    let near := fun (q : ℚ) (r : Nat) => q ≠ 0 → Rounded f .rne 0 0 q r
    (∀ a b c, numOf f x = some a → numOf f y = some b → numOf f z = some c →
      near (a + b) (addElem f x y) ∧ (a + b = 0 → addElem f x y = if x = top ∧ y = top then top else 0) ∧
      near (a - b) (subElem f x y) ∧ (a - b = 0 → subElem f x y = if x = top ∧ y = 0 then top else 0) ∧
      near (a * b) (mulElem f x y) ∧ (a * b = 0 → mulElem f x y = if decide (top ≤ x) = decide (top ≤ y) then 0 else top) ∧
      near (a * b + c) (fmaElem f x y z) ∧ near (c - a * b) (fmsElem f x y z) ∧
      numOf f (maxElem f x y) = some (max a b) ∧ numOf f (minElem f x y) = some (min a b) ∧
      absElem f x = x % top ∧ negElem f x = (x + top) % 2 ^ f.width) ∧
    (elemValue f x = .nan → [addElem f x y, addElem f y x, subElem f x y, subElem f y x, mulElem f x y, mulElem f y x, fmaElem f x y z,
        fmaElem f y x z, fmaElem f y z x, fmsElem f x y z, fmsElem f y x z, fmsElem f y z x, maxElem f x y, maxElem f y x, minElem f x y,
        minElem f y x, absElem f x, negElem f x] = List.replicate 18 canon) ∧
    (∀ n, elemValue f x = .inf n →
      (numOf f y ≠ none → addElem f x y = infOf f n ∧ subElem f x y = infOf f n ∧ subElem f y x = infOf f (!n)) ∧
      (elemValue f y = .inf n → addElem f x y = infOf f n ∧ subElem f x y = canon) ∧
      (elemValue f y = .inf (!n) → addElem f x y = canon ∧ subElem f x y = infOf f n) ∧
      (numOf f y = some 0 → mulElem f x y = canon ∧ mulElem f y x = canon ∧ fmaElem f x y z = canon))) ∧
  (∀ (x : Nat) (a : ℚ), x < 2 ^ 32 → numOf .fp32 x = some a →
    let v := elemValue .fp32 x
    (a ≠ 0 → Rounded .fp32 .rne 0 0 (1 / a) (rcp32 v)) ∧
    (0 < a → Nearest32 (fun m => 0 ≤ m ∧ a ≤ m * m) (fun m => m ≤ 0 ∨ m * m ≤ a) (sqrt32 v) ∧
      Nearest32 (fun m => 0 < m ∧ 1 ≤ a * m * m) (fun m => m ≤ 0 ∨ a * m * m ≤ 1) (rsqrt32 v)) ∧
    (a < 0 → sqrt32 v = 0x7FC00000 ∧ rsqrt32 v = 0x7FC00000 ∧ log232 v = 0x7FC00000) ∧
    (∀ k : Int, (a = k → -149 ≤ k → k ≤ 127 → numOf .fp32 (exp232 v) = some (2 ^ k)) ∧
      (a = 2 ^ k → numOf .fp32 (log232 v) = some k))) ∧
  (∀ p ∈ [(0x00000000, 0x7F800000, 0x7F800000, 0x00000000, 0x3F800000, 0xFF800000),
      (0x80000000, 0xFF800000, 0xFF800000, 0x80000000, 0x3F800000, 0xFF800000),
      (0x7F800000, 0x00000000, 0x00000000, 0x7F800000, 0x7F800000, 0x7F800000),
      (0xFF800000, 0x80000000, 0x7FC00000, 0x7FC00000, 0x00000000, 0x7FC00000),
      (0x7F800001, 0x7FC00000, 0x7FC00000, 0x7FC00000, 0x7FC00000, 0x7FC00000)],
    let v := elemValue .fp32 p.1
    (rcp32 v, rsqrt32 v, sqrt32 v, exp232 v, log232 v) = p.2) ∧
  (∀ (src dst : Fmt) (mode : Rm) (sat draw n : Nat), pairAllowed src dst = true → src ≠ dst → n < 2 ^ src.width → draw < 2 ^ 32 →
    let r := convertElem src dst mode sat draw n
    let w := dst.width
    let lo := -(2 ^ (w - 1) : Int)
    let hi := (2 ^ (w - 1) : Int) - 1
    (dst.isInt = false →
      (∀ q, numOf src n = some q → q ≠ 0 → Rounded dst mode sat draw q r) ∧ (numOf src n = some 0 → numOf dst r = some 0)) ∧
    (src.isInt = false → dst.isInt = true →
      (∀ q, numOf src n = some q → ∃ k, RoundedInt mode q k ∧ (mode ≠ .rs → signedOf w r = max lo (min hi k))) ∧
      (elemValue src n = .nan → r = 0) ∧ (∀ s, elemValue src n = .inf s → signedOf w r = if s then lo else hi)) ∧
    (src.isInt = true → dst.isInt = true →
      let i := signedOf src.width n
      signedOf w r = if w < src.width then (if sat = 0 then i.bmod (2 ^ w) else max lo (min hi i)) else i) ∧
    (dst.isInt = false → elemValue src n = .nan →
      r = if dst = .e2m1 then 0 else if sat = 2 ∧ dst.holds src = false then 0 else
        match dst with
        | .fp32 => 0x7FC00000
        | .bf16 => 0x7FC0
        | .e5m2 => 0x7E
        | _ => 0x7F) ∧
    (dst.isInt = false → ∀ s, elemValue src n = .inf s →
      if dst = .e2m1 ∨ (sat ≠ 0 ∧ dst.holds src = false) then numOf dst r = some (if s then - maxNum dst else maxNum dst) else r = infOf dst s))

/-- With VRM legal, the mask and the registers without error, vrnd (mode not RS) writes each active lane with its
elements rounded to integral values, and vcvt of an allowed pair writes each converted element whose wider lane is
active with the conversion of the source element of the same number under VRM's mode and saturation with its own draw;
other elements of a written word keep their value, words with no such element and every other register are unchanged;
under RS the counter advances by a quarter of the element count. vrnd under RS is the trap FMT. -/
def Obligations.ConversionResult : Prop :=
  ∀ (g : BitVec 4) (d a : BitVec 5) (c : BitVec 2) (e m t : BitVec 3) (k : BitVec 128) (x o : Nat → BitVec 64) (vrm : BitVec 64)
    (mode : Rm) (s : State), EReady .V g s → MaskIs s m.toNat k → s.tile.getVcr 0 = gloved vrm →
    rmOfCode (bits vrm 2 0) = some mode → bits vrm 4 3 ≠ 3 →
    (∀ i < 128, s.tile.getV a.toNat i = gloved (x i)) → (∀ i < 128, s.tile.getV d.toNat i = gloved (o i)) →
    let src := typeOf t
    let dst := typeOf e
    let wide := max src.width dst.width
    let n := 8192 / wide
    let q := 64 / dst.width
    let hit := fun j => decide (j < n) && k.getLsbD (j * wide / 64)
    (mode ≠ .rs → LanesSet s d.toNat k
      (fun i => gloved (wordOf src.width fun j => roundIntegral src mode (elemValue src (elemOf src.width (x i) j))))
      (exec (.vrnd g d a m t) s)) ∧
    (mode = .rs → exec (.vrnd g d a m t) s = .next (preciseTrap .V ⟨cFMT, 0, 0#64, none⟩ [] s)) ∧
    (pairAllowed src dst = true →
      VSet s (if mode = .rs then { s.tile with nrsV := s.tile.nrsV + BitVec.ofNat 64 ((n + 3) / 4) } else s.tile)
        (fun r l => if r = d.toNat ∧ ∃ j < q, hit (l * q + j) = true then
            gloved (wordOf dst.width fun j => if hit (l * q + j) = true then
              convertElem src dst mode c.toNat (rsDraw s.tile.wid s.tile.nrsV 1 (l * q + j)) (elemAt src.width x (l * q + j))
              else elemOf dst.width (o l) j)
          else s.tile.getV r l)
        (exec (.vcvt g d a c e m t) s))

/-- With the masks and active lanes without error, the four compares write a mask whose bit i says that lane i is
active and every element of it compares; vsel moves each lane of VA where the mask bit is 1 and of VB elsewhere; mand,
mor, mxor and mnot write the bitwise result; mpop writes the number of set bits and mfirst the lowest set lane, or
128, to an s register; vpset writes to the predicate slot at the word's index whether any, all or no bit is set. Each
changes only its destination, and V goes on. -/
def Obligations.MaskWordResult : Prop :=
  ∀ (g pd pa : BitVec 4) (d a b : BitVec 5) (md m t : BitVec 3) (k u w : BitVec 128) (x y : Nat → BitVec 64) (s : State),
    EReady .V g s → MaskIs s m.toNat k → MaskIs s a.toNat u → MaskIs s b.toNat w →
    let f := typeOf t
    let cmp := fun (c : FVal → FVal → Bool) (r : Res) => ∃ z, r = maskSet s md.toNat z ∧ ∀ i < 128,
      z.getLsbD i = (k.getLsbD i && (List.range (64 / f.width)).all fun j =>
        c (elemValue f (elemOf f.width (x i) j)) (elemValue f (elemOf f.width (y i) j)))
    (LanesAre s k a.toNat x → LanesAre s k b.toNat y →
      cmp (fun p q => p.eqv q) (exec (.vcmpEq g md a b m t) s) ∧ cmp (fun p q => !p.eqv q) (exec (.vcmpNe g md a b m t) s) ∧
      cmp (fun p q => p.lt q) (exec (.vcmpLt g md a b m t) s) ∧
      cmp (fun p q => p.lt q || p.eqv q) (exec (.vcmpLe g md a b m t) s)) ∧
    VSet s s.tile (fun q i => if q = d.toNat then s.tile.getV (if k.getLsbD i = true then a.toNat else b.toNat) i
      else s.tile.getV q i) (exec (.vsel g d a b m t) s) ∧
    exec (.mand g d a b) s = maskSet s d.toNat (u &&& w) ∧ exec (.mor g d a b) s = maskSet s d.toNat (u ||| w) ∧
    exec (.mxor g d a b) s = maskSet s d.toNat (u ^^^ w) ∧ exec (.mnot g d a) s = maskSet s d.toNat (~~~u) ∧
    exec (.mpop g d a) s = went .V s (s.tile.setS d.toNat (gloved (BitVec.ofNat 64 ((List.range 128).countP fun i => u.getLsbD i)))) ∧
    (∃ n ≤ 128, exec (.mfirst g d a) s = went .V s (s.tile.setS d.toNat (gloved (BitVec.ofNat 64 n))) ∧
      (∀ i < n, u.getLsbD i = false) ∧ (n < 128 → u.getLsbD n = true)) ∧
    (pa.toNat = m.toNat →
      exec (.vpset g pd pa 0#6) s = went .V s (s.tile.setPred pd.toNat s.tile.eV.pos (decide (k ≠ 0#128))) ∧
      exec (.vpset g pd pa 1#6) s = went .V s (s.tile.setPred pd.toNat s.tile.eV.pos (decide (k = BitVec.allOnes 128))) ∧
      exec (.vpset g pd pa 2#6) s = went .V s (s.tile.setPred pd.toNat s.tile.eV.pos (decide (k = 0#128))))

/-- With the mask and the registers read without error: vbcast writes the low element of sA to every element of the
active lanes (the word and glove for 64-bit elements); vperm takes element (index mod the element count) of VA for
each element of an active lane; vslide takes element e - c, or 0 outside the register, c the signed value of sB; vext
moves lane sB mod 128 of VA to sD and vins moves sA to lane sB mod 128 of VD, word and glove. 64-bit elements move
with their glove. With the mask and the active lanes without error, vredsum, vredmax and vredmin write element 0 of VD
with the pairwise tree over the elements (the identity in inactive lanes) and 0 to every other element, whatever the
mask; an integer sum is the sum of the active elements modulo 2^w; vscan writes element e with the sum, in order, of
the elements up to e from the identity. Every other register is unchanged. -/
def Obligations.LaneMovementAndReductionResult : Prop :=
  (∀ (g : BitVec 4) (d a b : BitVec 5) (m t : BitVec 3) (k : BitVec 128) (x y : Nat → BitVec 64) (n : BitVec 64) (s : State),
    EReady .V g s → MaskIs s m.toNat k →
    let w := (typeOf t).width
    let q := 64 / w
    (w = 64 → LanesSet s d.toNat k (fun _ => s.tile.getS a.toNat) (exec (.vbcast g d a m t) s)) ∧
    (w ≠ 64 → s.tile.getS a.toNat = gloved n →
      LanesSet s d.toNat k (fun _ => gloved (wordOf w fun _ => n.toNat)) (exec (.vbcast g d a m t) s)) ∧
    (LanesAre s k b.toNat y →
      LanesSet s d.toNat k (fun i => s.tile.getV a.toNat ((y i).toNat % 128)) (exec (.vperm g d a b m 3#3) s) ∧
      ((∀ i < 128, s.tile.getV a.toNat i = gloved (x i)) →
        LanesSet s d.toNat k (fun i => gloved (wordOf 32 fun j => elemAt 32 x (elemOf 32 (y i) j % 256)))
          (exec (.vperm g d a b m 2#3) s))) ∧
    (s.tile.getS b.toNat = gloved n →
      exec (.vext g d a b) s = went .V s (s.tile.setS d.toNat (s.tile.getV a.toNat (n.toNat % 128))) ∧
      exec (.vins g d a b) s = went .V s (s.tile.setV d.toNat (n.toNat % 128) (s.tile.getS a.toNat)) ∧
      (w = 64 → LanesSet s d.toNat k (fun i => if 0 ≤ (i : Int) - n.toInt ∧ (i : Int) - n.toInt < 128 then
          s.tile.getV a.toNat ((i : Int) - n.toInt).toNat else GWord.zero) (exec (.vslide g d a b m t) s)) ∧
      (w ≠ 64 → (∀ i < 128, s.tile.getV a.toNat i = gloved (x i)) →
        LanesSet s d.toNat k (fun i => gloved (wordOf w fun j =>
          let e := ((i * q + j : Nat) : Int) - n.toInt
          if 0 ≤ e ∧ e < 128 * q then elemAt w x e.toNat else 0)) (exec (.vslide g d a b m t) s)))) ∧
  (∀ (g : BitVec 4) (d a : BitVec 5) (m t : BitVec 3) (k : BitVec 128) (x : Nat → BitVec 64) (s : State),
    EReady .V g s → MaskIs s m.toNat k → LanesAre s k a.toNat x →
    let f := typeOf t
    let w := f.width
    let q := 64 / w
    let el := fun (ident : Nat) => (List.range (128 * q)).map fun e => if k.getLsbD (e / q) = true then elemAt w x e else ident
    let red := fun (v : Nat) => VSet s s.tile fun r i =>
      if r = d.toNat then gloved (wordOf w fun j => if i = 0 ∧ j = 0 then v else 0) else s.tile.getV r i
    let tree := fun (op : Nat → Nat → Nat) (ident : Nat) => treeFold (fun p r => op p r % 2 ^ w) 11 (el ident)
    red (tree (addElem f) (sumIdentity f)) (exec (.vredsum g d a m t) s) ∧
    (f.isInt = true → tree (addElem f) (sumIdentity f) = (el 0).sum % 2 ^ w) ∧
    red (tree (maxElem f) (maxIdentity f)) (exec (.vredmax g d a m t) s) ∧
    red (tree (minElem f) (minIdentity f)) (exec (.vredmin g d a m t) s) ∧
    VSet s s.tile (fun r i => if r = d.toNat then gloved (wordOf w fun j =>
        ((el (sumIdentity f)).take (i * q + j + 1)).foldl (fun acc p => addElem f acc p % 2 ^ w) (sumIdentity f))
      else s.tile.getV r i) (exec (.vscan g d a m t) s))

/-- With the registers read without error: vtopk writes to VD the K first of the 256 FP32 elements in rank order
(canonical NaN) and minus infinity after them, and to VB their element numbers and all ones after them; vrng writes
element e of register d + r with the draw of number 256 r + e under the seed, sequence and position in sA, sB and the
register above; vgmax writes to sD the index (high half) and score (low half) of the best of the C first elements, the
earlier of equals, or no index and minus infinity when C is 0. -/
def Obligations.SamplingResult : Prop :=
  ∀ (g d a b : BitVec 4) (kk : BitVec 6) (x : Nat → BitVec 64) (seed sq pos gc : BitVec 64) (s : State), EReady .V g s →
    ((∀ i < 128, s.tile.getV a.toNat i = gloved (x i)) → d ≠ b →
      let r := (rankAll ((List.range 256).map fun e => (e, elemAt 32 x e))).take kk.toNat
      VSet s s.tile (fun q i =>
        if q = d.toNat then gloved (wordOf 32 fun j =>
          ((r[2 * i + j]?).map fun p => canonical32 p.2).getD (infCode .fp32 true))
        else if q = b.toNat then gloved (wordOf 32 fun j => ((r[2 * i + j]?).map fun p => p.1).getD 0xFFFFFFFF)
        else s.tile.getV q i) (exec (.vtopk g d a b kk) s)) ∧
    (s.tile.getS a.toNat = gloved seed → s.tile.getS b.toNat = gloved sq → s.tile.getS (b.toNat + 1) = gloved pos →
      VSet s s.tile (fun q i => if d.toNat ≤ q ∧ q < d.toNat + kk.toNat then
          gloved (wordOf 32 fun j => draw seed (256 * (q - d.toNat) + 2 * i + j) (pos.toNat % 2 ^ 32) (sq.toNat % 2 ^ 32) 0)
        else s.tile.getV q i) (exec (.vrng g d a b kk) s)) ∧
    ((∀ i < 128, s.tile.getV a.toNat i = gloved (x i)) → s.tile.getS b.toNat = gloved seed →
      s.tile.getS (b.toNat + 1) = gloved sq → s.tile.getS (b.toNat + 2) = gloved pos → s.tile.getS (b.toNat + 3) = gloved gc →
      let c := min (gc.toNat / 2 ^ 32 % 512) 256
      let score := fun e => gumbelScore seed (pos.toNat % 2 ^ 32) (sq.toNat % 2 ^ 32) ((gc.toNat % 2 ^ 32 + e) % 2 ^ 32) (elemAt 32 x e)
      exec (.vgmax g d a b) s = went .V s (s.tile.setS d.toNat (gloved
        (match gumbelBest score (gc.toNat % 2 ^ 32) (List.range c) none with
          | some r => BitVec.ofNat 64 (r.2 * 2 ^ 32 + canonical32 r.1)
          | none => 0xFFFFFFFFFF800000#64))))

namespace Sys2Proof.Claims

/-- The scratchpad-space address that an s register and a displacement in bytes give (R198, R199). -/
def sbase (x : BitVec 64) (disp : Int) : Nat := (((x.toNat : Int) + disp) % 2 ^ 32).toNat

/-- No incomplete word below holds a scratchpad range that would make a word of engine `e` wait (R66). -/
def NoRange (e : Eng) (s : State) : Prop := ∀ rd wr, s.tile.rangeBlocked (s.tile.eng e).pos rd wr = false

/-- V goes on with the tile `t` but for its scratchpad: word `f` at each listed offset, every other byte as it was. -/
def SpadSet (e : Eng) (s : State) (t : Tile) (l : List (Nat × GWord)) (r : Res) : Prop :=
  ∃ m, r = went e s { t with spad := m } ∧ (∀ p ∈ l, m.read p.1 = p.2) ∧
    ∀ a, (∀ p ∈ l, a / 8 ≠ p.1 / 8) → m.byte a = s.tile.spad.byte a

/-- Two places share no doubleword. -/
def apart : Place → Place → Prop
  | .spad g o, .spad h q => g ≠ h ∨ o / 8 ≠ q / 8
  | .hbm p _ _, .hbm q _ _ => p / 8 ≠ q / 8
  | _, _ => True

/-- The deferral registers in use (R68): base in bytes, capacity, words of an entry beyond the lane number, head, count. -/
def HatIs (s : State) (q : Hatcheck) : Prop :=
  (∃ b c n h k : BitVec 64, s.tile.getVcr 1 = gloved b ∧ s.tile.getVcr 2 = gloved c ∧ s.tile.getVcr 3 = gloved n ∧
    s.tile.getVcr 4 = gloved h ∧ s.tile.getVcr 5 = gloved k ∧
    q = ⟨bits b 20 3 * 8, bits c 16 0, bits n 2 0, bits h 16 0, bits k 17 0⟩) ∧
  q.nv ≤ 4 ∧ 1 ≤ q.cap ∧ q.cap ≤ 65536 ∧ q.head < q.cap ∧ q.cnt ≤ q.cap ∧ q.base + q.cap * (8 * (1 + q.nv)) ≤ 0x200000

/-- The tile with HQHEAD and HQCNT written. -/
def hatTile (t : Tile) (head cnt : Nat) : Tile :=
  (t.setVcr 4 (gloved (BitVec.ofNat 64 head))).setVcr 5 (gloved (BitVec.ofNat 64 cnt))

/-- The operands of an `attg` are legal (R252): aligned spans of the own scratchpad, the list and the last two output words in banks RAW
or INT64, the query in banks RAW or BF16, the outputs in banks RAW or FP32. -/
def AttgOperands (s : State) (out list qa lmax : Nat) : Prop :=
  out % 8 = 0 ∧ list % 8 = 0 ∧ qa % 8 = 0 ∧
  ∃ o l q, spadPlace s.cur out = .own o ∧ spadPlace s.cur list = .own l ∧ spadPlace s.cur qa = .own q ∧
    o + 528 ≤ 0x200000 ∧ l + 16 + 8 * lmax ≤ 0x200000 ∧ q + 256 ≤ 0x200000 ∧
    (∀ i < 16 + 8 * lmax, s.tile.bankOf (l + i) = 15 ∨ s.tile.bankOf (l + i) = 3) ∧
    (∀ i < 256, s.tile.bankOf (q + i) = 15 ∨ s.tile.bankOf (q + i) = 1) ∧
    (∀ i < 512, s.tile.bankOf (o + i) = 15 ∨ s.tile.bankOf (o + i) = 0) ∧
    (∀ i, 512 ≤ i → i < 528 → s.tile.bankOf (o + i) = 15 ∨ s.tile.bankOf (o + i) = 3)

/-- No line of a tile's cache is dirty, and each word it holds is the one in memory. -/
def CacheCurrent (s : State) (g : Nat) : Prop :=
  ∀ p ∈ (s.tileAt g).cache, p.2.dirty = 0#16 ∧
    ∀ i < 16, p.2.valid.getLsbD i = true → p.2.words.getD i GWord.zero = s.mem.read (128 * p.1 + 8 * i)

/-- The doubleword of program memory that holds the aligned address `va` holds `v` without error, on a page that the TLB of tile `g`
holds and that the tile's V may read (R373, R380). -/
def VMemIs (s : State) (g : Nat) (va v : BitVec 64) : Prop :=
  let t := s.tileAt g
  va.toNat % 4 = 0 ∧ canonical va = true ∧ inAperture va = false ∧ bit (s.root (g / 16) t.side) 0 = true ∧
  ∃ e dd off, tlbFind t.side va.toNat t.tlb = some e ∧ pageAllows e t.side true false false = true ∧
    targetOf (physOf e va) = .hbm dd off ∧ accessVerdict s (classSV t) (g / 16) (physOf e va) Rights.load = .ok ∧
    s.mem.read (physOf e va) = gloved v

/-- A doubleword of a pool that the V of tile `g` reads holds `v` without error (R229, R253, R383). -/
def VPoolIs (s : State) (g pa : Nat) (v : BitVec 64) : Prop :=
  (∃ dd off, targetOf pa = .hbm dd off) ∧ accessVerdict s (classSV (s.tileAt g)) (g / 16) pa Rights.load = .ok ∧ s.mem.read pa = gloved v

/-- What an `attg` of tile `g` reads, all of it without error, and the values it accumulates (R252, R253): the list at `r.list` names
`n` pages `p 0 < p 1 < …` of the first `len` tokens and the head `hd`; the record at `ra` names an enabled pool with more than `hd`
heads and the page list; page `p j` has the data base `pb j` and the valid tokens `vl j`; `key j t` and `val j t` are the words of token
`t` of that page and head; `att` is what the tokens give, page after page, from the initial values. -/
def AttgStream (s : State) (g : Nat) (r : AttgRun) (att : Attn) : Prop :=
  ∃ (h0 ra plist w1 w2 f0 f1 f2 : BitVec 64) (h n : Nat) (p x vl : Nat → Nat) (pb cb : Nat → BitVec 64) (qw : Nat → BitVec 64)
    (key val : Nat → Nat → Nat → BitVec 64),
    let own := fun (off : Nat) (v : BitVec 64) => (s.tileAt g).spad.read off = gloved v
    let hd := bits h0 63 60
    let len := min (bits h0 31 0) (bits w2 63 32)
    let used := fun j => min (min 16 (len - 16 * p j)) (vl j)
    own (ownOff g r.list) h0 ∧ own (ownOff g r.list + 8) ra ∧ n = bits h0 59 32 ∧ n ≤ r.lmax ∧
    VMemIs s g ra plist ∧ VMemIs s g (ra + 8#64) w1 ∧ VMemIs s g (ra + 16#64) w2 ∧
    poolIdOk (bits w1 31 0) = true ∧ s.poolAddr (bits w1 31 0 % 32) (bits w1 31 0 / 256 % 16) = some h ∧
    VPoolIs s g h f0 ∧ VPoolIs s g (h + 8) f1 ∧ VPoolIs s g (h + 16) f2 ∧ bit f2 40 = true ∧ hd < bits f2 39 32 ∧
    (∀ k < 32, own (ownOff g r.q + 8 * k) (qw k)) ∧
    (∀ j < n, (∃ e, own (ownOff g r.list + 16 + 8 * j) e ∧ p j = bits e 31 0) ∧ 16 * p j < len ∧ (0 < j → p (j - 1) < p j) ∧
      (∃ e, let ea := plist + BitVec.ofNat 64 (4 * p j)
        VMemIs s g ea e ∧ x j = bits e (32 * (ea.toNat / 4 % 2) + 31) (32 * (ea.toNat / 4 % 2))) ∧
      (let d := f0.toNat + 32 * x j;
        VPoolIs s g d (pb j) ∧ VPoolIs s g (d + 8) (cb j) ∧ ∃ w, VPoolIs s g (d + 16) w ∧ vl j = bits w 39 32) ∧
      ∀ t < used j, ∀ i < 16,
        VPoolIs s g ((pb j).toNat + 4096 * hd + 128 * t + 8 * i) (key j t i) ∧
        VPoolIs s g ((pb j).toNat + 4096 * hd + 2048 + 128 * t + 8 * i) (val j t i)) ∧
    (let bytes := fun (f : Nat → BitVec 64) => (List.range 16).flatMap fun i => (List.range 8).map fun b => elemOf 8 (f i) b
     let q := (List.range 32).flatMap fun k => (List.range 4).map fun b => elemValue .bf16 (elemOf 16 (qw k) b)
     att = (List.range n).foldl (fun a j =>
       (List.range (used j)).foldl (fun a t => a.token (scoreOf q (bytes (key j t))) (bytes (val j t))) a) Attn.init)

/-- Tile `g` once its `attg` has completed with the output words at the output address and the cache `c` (R254): V is past the word. -/
def attgDone (t : Tile) (g : Nat) (r : AttgRun) (att : Attn) (c : SMap CLine) : Tile :=
  Tile.pass { t with cache := c, spad := t.spad.writeList (ownOff g r.out) (attnOut att r.mode), attg := none } .V

end Sys2Proof.Claims

/-- When the address in sB plus its displacement is an aligned own-scratchpad offset whose region holds the access, no
earlier word holds a range, and the banks of the address and of the active lanes' words are RAW, typed as the word, or
packed under i64: vld loads lane i from offset + 8i and vst stores it there, active lanes only, word and glove; vgth
loads lane i from the doubleword its index in VD+1 names, vsct stores it there in ascending lane order, the last of
two lanes with one address standing. Every other byte of scratchpad and everything else is unchanged and V goes on.
When every bank of the footprint (as many elements as the register has, in the bank's format) is of one format that
converts to the type and VRM is legal: vld writes each active lane with the conversion of the elements of the same
numbers; vst writes the footprint words whose every feeding lane is active with the conversion of those lanes'
elements and leaves every other byte; each element has its own draw, and under RS V's counter advances by a quarter of
the element count. -/
def Obligations.VectorScratchpadResult : Prop :=
  (∀ (g : BitVec 4) (d : BitVec 5) (b : BitVec 4) (o : BitVec 6) (m t : BitVec 3) (k : BitVec 128) (x : BitVec 64)
    (y : Nat → BitVec 64) (off : Nat) (s : State), EReady .V g s → NoRange .V s → MaskIs s m.toNat k →
    s.tile.getS b.toNat = gloved x →
    let plain := fun (o : Nat) => s.bankFmt s.cur o = .raw ∨ s.bankFmt s.cur o = typeOf t ∨
      (typeOf t = .int64 ∧ (s.bankFmt s.cur o = .e2m1 ∨ s.bankFmt s.cur o = .e3m5))
    (spadPlace s.cur (sbase x (o.toInt * 1024)) = .own off → off % 8 = 0 → off + 1024 ≤ 0x200000 →
      plain off → (∀ i < 128, k.getLsbD i = true → plain (off + 8 * i)) →
      LanesSet s d.toNat k (fun i => s.tile.spad.read (off + 8 * i)) (exec (.vld g d b o m t) s) ∧
      SpadSet .V s s.tile ((lanesOf k).map fun i => (off + 8 * i, s.tile.getV d.toNat i)) (exec (.vst g d b o m t) s)) ∧
    (LanesAre s k (d.toNat + 1) y → spadPlace s.cur (sbase x (o.toInt * 8)) = .own off → off % 8 = 0 →
      let start := sbase x (o.toInt * 8) - off
      let place := fun i => (sbase x (o.toInt * 8) + 8 * ((y i).toNat % 2 ^ 32)) % 2 ^ 32 - start
      (∀ i < 128, k.getLsbD i = true → start ≤ (sbase x (o.toInt * 8) + 8 * ((y i).toNat % 2 ^ 32)) % 2 ^ 32 ∧
        place i < 0x200000 ∧ (s.bankFmt s.cur (place i) = .raw ∨ s.bankFmt s.cur (place i) = .int64)) →
      LanesSet s d.toNat k (fun i => s.tile.spad.read (place i)) (exec (.vgth g d b o m t) s) ∧
      ∃ u, exec (.vsct g d b o m t) s = went .V s { s.tile with spad := u } ∧
        (∀ i < 128, k.getLsbD i = true → (∀ j < 128, i < j → k.getLsbD j = true → place j / 8 ≠ place i / 8) →
          u.read (place i) = s.tile.getV d.toNat i) ∧
        ∀ a, (∀ i < 128, k.getLsbD i = true → a / 8 ≠ place i / 8) → u.byte a = s.tile.spad.byte a)) ∧
  (∀ (g : BitVec 4) (d : BitVec 5) (b : BitVec 4) (o : BitVec 6) (m t : BitVec 3) (k : BitVec 128) (x vrm : BitVec 64)
    (y : Nat → BitVec 64) (off : Nat) (bf : Fmt) (mode : Rm) (s : State), EReady .V g s → NoRange .V s → MaskIs s m.toNat k →
    s.tile.getS b.toNat = gloved x → s.tile.getVcr 0 = gloved vrm → rmOfCode (bits vrm 2 0) = some mode → bits vrm 4 3 ≠ 3 →
    let ty := typeOf t
    let q := 64 / ty.width
    let qb := 64 / bf.width
    let bytes := 16 * q * bf.width
    bf ≠ .raw → bf ≠ .e2m1 → bf ≠ .e3m5 → bf ≠ ty →
    spadPlace s.cur (sbase x (o.toInt * 1024)) = .own off → off % 8 = 0 → off + bytes ≤ 0x200000 →
    (∀ a, off ≤ a → a < off + bytes → s.bankFmt s.cur a = bf) →
    let drew := if mode = .rs then { s.tile with nrsV := s.tile.nrsV + BitVec.ofNat 64 (32 * q) } else s.tile
    let cv := fun (p r : Fmt) (e v : Nat) => convertElem p r mode (bits vrm 4 3) (rsDraw s.tile.wid s.tile.nrsV 1 e) v
    (pairAllowed bf ty = true → (∀ j < bytes / 8, s.tile.spad.read (off + 8 * j) = gloved (y j)) →
      VSet s drew (fun r i => if r = d.toNat ∧ k.getLsbD i = true then
          gloved (wordOf ty.width fun j => cv bf ty (i * q + j) (elemAt bf.width y (i * q + j)))
        else s.tile.getV r i) (exec (.vld g d b o m t) s)) ∧
    (pairAllowed ty bf = true → LanesAre s k d.toNat y →
      let whole := fun j => (List.range qb).all fun e => k.getLsbD ((j * qb + e) / q)
      SpadSet .V s drew (((List.range (bytes / 8)).filter whole).map fun j =>
        (off + 8 * j, gloved (wordOf bf.width fun e => cv ty bf (j * qb + e) (elemAt ty.width y (j * qb + e)))))
        (exec (.vst g d b o m t) s)))

/-- When the address of lane 0 is a multiple of 8, every active lane's address is canonical and lands in the own
scratchpad (bank RAW or of the type) or in HBM, vldm loads each active lane with the word and glove of its place and
vstm stores every active lane in ascending order at its place; nothing else changes and V goes on; where an active
lane lies on an SO page the tile cache first writes back its dirty RC lines and drops its clean ones (log 18). -/
def Obligations.VectorMemoryMove : Prop :=
  ∀ (g : BitVec 4) (d : BitVec 5) (b : BitVec 4) (o : BitVec 6) (m t : BitVec 3) (k : BitVec 128) (x va : BitVec 64)
    (p : Nat → Place) (s : State), EReady .V g s → NoRange .V s → MaskIs s m.toNat k → s.tile.getS b.toNat = gloved x →
    ((8 * x.toNat : Nat) + o.toInt * (typeOf t).width) % 2 ^ 67 = 8 * (va.toNat : Int) → va.toNat % 8 = 0 →
    (∀ i < 128, k.getLsbD i = true → canonical (va + BitVec.ofNat 64 (8 * i)) = true ∧
      ∀ off, p i = .spad s.cur off → s.bankFmt s.cur off = .raw ∨ s.bankFmt s.cur off = typeOf t) →
    let s' := s.soOrder ((lanesOf k).map fun i => va + BitVec.ofNat 64 (8 * i))
    ((∀ i < 128, k.getLsbD i = true → Lands s (va + BitVec.ofNat 64 (8 * i)) Rights.load (p i)) →
      LanesSet s' d.toNat k (fun i => wordAt s' (p i)) (exec (.vldm g d b o m t) s)) ∧
    ((∀ i < 128, k.getLsbD i = true → Lands s (va + BitVec.ofNat 64 (8 * i)) Rights.store (p i)) →
      (Eng.V, s.tile.eV.pos) ∉ s.tile.sending →
      let u := (lanesOf k).foldl (fun u i => withWord u (s.tile.getV d.toNat i) (p i)) s'
      exec (.vstm g d b o m t) s = .next (u.setTile (u.tile.pass .V)) ∧
      (∀ i < 128, k.getLsbD i = true → (∀ j < 128, i < j → k.getLsbD j = true → apart (p j) (p i)) →
        wordAt u (p i) = s.tile.getV d.toNat i) ∧
      u = { s with mem := u.mem, tiles := u.tiles } ∧ u.tile = { s'.tile with spad := u.tile.spad } ∧
      (∀ h, h ≠ s.cur → u.tileAt h = s.tileAt h))

/-- With legal deferral registers and no range held: vdefer, when the active lanes fit, writes for the j-th active
lane i the entry (lane number, then lane i of VA and the registers above) at slot (head + count + j) mod capacity,
leaves every other byte, and raises HQCNT alone; vredeem moves the p = min(128, count) oldest entries to lanes 0 to p
- 1 of VD and the registers above, sets the mask to those lanes and, when it pops any, moves HQHEAD and HQCNT on. vput
appends sA, word and glove, and vput vcr the register's defined fields, to a return queue with room. -/
def Obligations.DeferralAndReturnResult : Prop :=
  ∀ (g a b d : BitVec 4) (r : BitVec 5) (v : BitVec 64) (q : Hatcheck) (k : BitVec 128) (s : State), EReady .V g s →
    (s.tile.rq.length < 64 →
      exec (.vput g a) s = went .V s { s.tile with rq := s.tile.rq ++ [s.tile.getS a.toNat] } ∧
      (s.tile.getVcr r.toNat = gloved v →
        exec (.vputVcr g r) s = went .V s { s.tile with rq := s.tile.rq ++ [gloved (v &&& vcrFields r.toNat)] })) ∧
    (HatIs s q → NoRange .V s →
      let size := 8 * (1 + q.nv)
      let n := (lanesOf k).length
      (MaskIs s b.toNat k → a.toNat + q.nv ≤ 16 → q.cnt + n ≤ q.cap →
        SpadSet .V s (if n = 0 then s.tile else s.tile.setVcr 5 (gloved (BitVec.ofNat 64 (q.cnt + n)))) ((List.range n).flatMap fun j =>
          let slot := q.base + (q.head + q.cnt + j) % q.cap * size
          let lane := (lanesOf k).getD j 0
          (slot, gloved (BitVec.ofNat 64 lane)) ::
            (List.range q.nv).map fun w => (slot + 8 * (w + 1), s.tile.getV (a.toNat + w) lane)) (exec (.vdefer g a b) s)) ∧
      (d.toNat + 1 + q.nv ≤ 16 →
        let p := min 128 q.cnt
        let ones := maskOf ((List.range p).map fun i => (i, true))
        let t := (s.tile.setM b.toNat 0 (gloved (ones.extractLsb' 0 64))).setM b.toNat 1 (gloved (ones.extractLsb' 64 64))
        VSet s (if p = 0 then t else hatTile t ((q.head + p) % q.cap) (q.cnt - p))
          (fun w i => if d.toNat ≤ w ∧ w ≤ d.toNat + q.nv ∧ i < p then
              s.tile.spad.read (q.base + (q.head + i) % q.cap * size + 8 * (w - d.toNat))
            else s.tile.getV w i) (exec (.vredeem g d b) s)))

/-- When the list, query and output operands are aligned own-scratchpad spans whose banks accept them and no range is
held, attg begins: the tile holds the run with the word's index, V stays at the word and nothing else changes. When
such a run stands at V's word and its stream ends with output words, the completion writes those words at the output
address and V goes on to the next word, with the tile's registers as the stream left them. When V may perform the
word, its operands are legal, the registers and every word that the stream reads (the list, the record, the page list,
the pool's header, descriptors, keys and values, the query) are without error and may be read, and the tile cache
holds nothing dirty and nothing older than memory, attg answers the next state with its run begun, and the completion
of that state answers the state in which the output of the attention over the listed pages stands at the output
address, V has passed the word, and nothing else has changed but the tile cache. The completion says the same of any
run that stands at V's word. -/
def Obligations.AttentionWordResult : Prop :=
  (∀ (g d a b : BitVec 4) (m : BitVec 1) (x y z : BitVec 64) (n : Nat) (r : AttgRun) (ws : List GWord) (wr : List (Nat × Nat)) (s u : State),
    (EReady .V g s → s.tile.attg = none → NoRange .V s →
      s.tile.getS d.toNat = gloved x → s.tile.getS a.toNat = gloved y → s.tile.getS b.toNat = gloved z →
      let out := x.toNat % 2 ^ 32
      let list := y.toNat % 2 ^ 32
      let lmax := y.toNat / 2 ^ 32 % 65536
      let qa := z.toNat % 2 ^ 32
      AttgOperands s out list qa lmax →
      exec (.attg g d a b m) s =
        .next (s.setTile { s.tile with attg := some ⟨s.tile.eV.pos, out, qa, list, lmax, m.toNat⟩ })) ∧
    ((s.tileAt n).attg = some r → (s.tileAt n).works = true → r.idx = (s.tileAt n).eV.pos →
      (attgBody n r).on { s with cur := n } = .ok (ws, ⟨u, wr⟩) →
      exec (.attgComplete n) s = .next (u.setTileAt n
        (Tile.pass { u.tileAt n with spad := (u.tileAt n).spad.writeList (ownOff n r.out) ws, attg := none } .V)))) ∧
  (∀ (g d a b : BitVec 4) (m : BitVec 1) (x y z : BitVec 64) (n : Nat) (r : AttgRun) (att : Attn) (s : State),
    ((s.tileAt n).attg = some r → (s.tileAt n).works = true → r.idx = (s.tileAt n).eV.pos → CacheCurrent s n → AttgStream s n r att →
      ∃ c, exec (.attgComplete n) s = .next ({ s with cur := n }.setTileAt n (attgDone (s.tileAt n) n r att c))) ∧
    (EReady .V g s → s.tile.attg = none → NoRange .V s → CacheCurrent s s.cur →
      s.tile.getS d.toNat = gloved x → s.tile.getS a.toNat = gloved y → s.tile.getS b.toNat = gloved z →
      let out := x.toNat % 2 ^ 32
      let list := y.toNat % 2 ^ 32
      let lmax := y.toNat / 2 ^ 32 % 65536
      let qa := z.toNat % 2 ^ 32
      let r : AttgRun := ⟨s.tile.eV.pos, out, qa, list, lmax, m.toNat⟩
      AttgOperands s out list qa lmax → AttgStream s s.cur r att →
      ∃ t c, exec (.attg g d a b m) s = .next t ∧ t = s.setTile { s.tile with attg := some r } ∧
        exec (.attgComplete s.cur) t = .next (s.setTile (attgDone s.tile s.cur r att c))))

namespace Sys2Proof.Claims

/-- The words of a panel of elements of `w` bits that hold one of the first `n` elements of each of `lines` lines of `pitch` elements
lie in the own scratchpad of tile `g`, in banks of format `f` by word number, and hold `y` by word number without error (R207, R208). -/
def PanelIs (s : State) (g a w : Nat) (f : Nat → Fmt) (lines pitch n : Nat) (y : Nat → BitVec 64) : Prop :=
  ∀ l < lines, ∀ e < n, let k := (l * pitch + e) * w / 64
    ∃ off, spadPlace g ((a + 8 * k) % 2 ^ 32) = .own off ∧ s.bankFmt g off = f k ∧ (s.tileAt g).spad.read off = gloved (y k)

/-- The value of element `e` of a panel of elements of `w` bits whose words are `y`, each in the format its bank gives it (R208). -/
def panelElem (w : Nat) (f : Nat → Fmt) (y : Nat → BitVec 64) (e : Nat) : FVal := elemValue (f (e * w / 64)) (elemAt w y e)

/-- Tile `g` runs a nest at visit `idx` that is not ended. -/
def NestAt (s : State) (g : Nat) (n : NestRun) : Prop :=
  (s.tileAt g).works = true ∧ (s.tileAt g).nest = some n ∧ n.faulted = false

/-- The outcome of a visit: the active accumulators take `f`, the others keep their value, the nest goes on at the next visit or is
over, one more step counts; nothing else of the machine changes but which tile moved last. -/
def Visited (s : State) (g : Nat) (n : NestRun) (f : Nat → Nat → Nat) (r : Res) : Prop :=
  let t := s.tileAt g
  ∃ acc, r = .next (State.setTileAt { s with cur := g } g { t with
      acc := acc, nsteps := t.nsteps + 1,
      nest := (nextVisit (levels.map t.active.countOf) n.idx).map fun i => { n with idx := i, steps := n.steps + 1, hold := none } }) ∧
    ∀ r j, j < 256 → Tile.accAt { t with acc := acc } r j =
      if r ≤ t.active.mr ∧ j ≤ t.active.nc then f r j % 2 ^ 32 else t.accAt r j

/-- The outcome of a visit that ends an iteration of the innermost OUT level (R210, R217): the words of the active rows at offset `off`
hold the accumulators `f` in the drain's format, zero past the last column, every other byte of the scratchpad is as it was, every
accumulator is +0, RS takes its draws from M's counter, and the nest goes on as after any visit. -/
def VisitedAndDrained (s : State) (g : Nat) (n : NestRun) (off : Nat) (f : Nat → Nat → Nat) (r : Res) : Prop :=
  let t := s.tileAt g
  let b := t.active
  let w := b.cfmt.width
  let q := 64 / w
  let row := fun i => off + i * 32 * w
  ∃ m, r = .next (State.setTileAt { s with cur := g } g { t with
      acc := [], spad := m, nsteps := t.nsteps + 1,
      nrsM := if b.rm = .rs then t.nrsM + BitVec.ofNat 64 (((b.mr + 1) * (b.nc + 1) + 3) / 4) else t.nrsM,
      nest := (nextVisit (levels.map b.countOf) n.idx).map fun i => { n with idx := i, steps := n.steps + 1, hold := none } }) ∧
    (∀ i ≤ b.mr, ∀ k < rowWords b.nc w, m.read (row i + 8 * k) = gloved (wordOf w fun e => if k * q + e ≤ b.nc then
      toFloat b.cfmt b.rm b.sat (rsDraw t.wid t.nrsM 2 (i * (b.nc + 1) + (k * q + e))) (elemValue .fp32 (f i (k * q + e) % 2 ^ 32))
      else 0)) ∧
    ∀ a, (∀ i ≤ b.mr, ∀ k < rowWords b.nc w, a / 8 ≠ (row i + 8 * k) / 8) → m.byte a = t.spad.byte a

end Sys2Proof.Claims

/-- When M may perform the word and the c register is without error, nset.count takes the low 17 bits from 1 to
65,536, nset.sa, .sb and .sc take a signed multiple of 8 from -2^23 to 2^23 - 8, nset.kind takes the low two bits when
they are not 3, nbase.a, .b and .c take a multiple of 8 below 2^32, nfmt takes a word whose fields are legal; each
changes only its place in the shadow table, and M goes on. Any other value is the precise trap NEST and nothing is
written. When M may perform the word, no nest runs, no K level of the shadow table has a C stride, the spans of both
operands lie each in one region and, where a level is OUT, the drained span lies in the own scratchpad in banks that
accept its format, and no earlier word holds a range, ngo copies the shadow table to the active one, starts the nest
at the first visit with its ranges for the range checker, and M goes on. -/
def Obligations.NestTableAndStartResult : Prop :=
  (∀ (g c : BitVec 4) (l : BitVec 3) (v : BitVec 64) (s : State), EReady .M g s → s.tile.getC c.toNat = gloved v →
    let put := fun (good : Bool) (f : NestTab → NestTab) => if good = true then went .M s { s.tile with shadow := f s.tile.shadow }
      else Host.Outcome.next (preciseTrap .M ⟨cNEST, 0, s.tile.eM.pc, none⟩ [] s)
    let count := v.toNat % 2 ^ 17
    let stride := decide (v.toNat % 8 = 0 ∧ -8388608 ≤ v.toInt ∧ v.toInt ≤ 8388600)
    let base := decide (v.toNat % 8 = 0 ∧ v.toNat < 4294967296)
    exec (.nsetCount g l c) s = put (decide (1 ≤ count ∧ count ≤ 65536)) (fun n => { n with count := mapSet 1 n.count l.toNat count }) ∧
    exec (.nsetSa g l c) s = put stride (fun n => { n with sa := mapSet 0#64 n.sa l.toNat v }) ∧
    exec (.nsetSb g l c) s = put stride (fun n => { n with sb := mapSet 0#64 n.sb l.toNat v }) ∧
    exec (.nsetSc g l c) s = put stride (fun n => { n with sc := mapSet 0#64 n.sc l.toNat v }) ∧
    exec (.nsetKind g l c) s = put (decide (v.toNat % 4 ≠ 3)) (fun n => { n with kind := mapSet 2 n.kind l.toNat (v.toNat % 4) }) ∧
    exec (.nbaseA g c) s = put base (fun n => { n with abase := v.setWidth 32 }) ∧
    exec (.nbaseB g c) s = put base (fun n => { n with bbase := v.setWidth 32 }) ∧
    exec (.nbaseC g c) s = put base (fun n => { n with cbase := v.setWidth 32 }) ∧
    exec (.nfmt g c) s = put (decide (v.toNat / 2 ^ 27 % 32 = 0 ∧ v.toNat / 2 ^ 17 % 2 = 0 ∧ v.toNat / 2 ^ 18 % 16 ∈ [0, 1, 5, 6] ∧
      v.toNat % 512 ≤ 383 ∧ v.toNat / 2 ^ 22 % 8 ≤ 4 ∧ v.toNat / 2 ^ 25 % 4 ≠ 3)) (fun n => { n with nfmt := v })) ∧
  (∀ (g : BitVec 4) (pa pb pc : Nat × Nat × Nat) (s : State), EReady .M g s → s.tile.nest = none → NoRange .M s →
    let n := s.tile.shadow
    let sa := operandSpan n n.sa n.abase 12288 3072 n.sda
    let sb := operandSpan n n.sb n.bbase 8192 2048 n.sdb
    (∀ l < 6, n.kindOf l = 0 → strideOf n.sc l = 0) →
    placeSpan s.cur false sa.1 sa.2 = .ok pa → placeSpan s.cur false sb.1 sb.2 = .ok pb →
    let begun := fun (wr : List (Nat × Nat)) => went .M s { s.tile with
      active := n, nest := some ⟨s.refOf .M, [0, 0, 0, 0, 0, 0], spanOf (checkedSpan sa (.ok pa) ++ checkedSpan sb (.ok pb)), wr, 0, none, false⟩ }
    (n.outLevel = none → exec (.ngo g) s = begun []) ∧
    (∀ d, n.outLevel = some d →
      let sc := targetSpan n d
      placeSpan s.cur true sc.1 sc.2 = .ok pc →
      (∀ o ∈ drainStarts n d, ∀ r ≤ n.mr, ∀ x < 8 * rowWords n.nc n.cfmt.width,
        s.bankFmt s.cur ((o - (pc.2.1 : Int)).toNat + r * 32 * n.cfmt.width + x) = n.cfmt ∨
        s.bankFmt s.cur ((o - (pc.2.1 : Int)).toNat + r * 32 * n.cfmt.width + x) = .raw) →
      exec (.ngo g) s = begun (checkedSpan sc (.ok pc))))

/-- For a running nest whose panels lie in the own scratchpad in banks of one family, each word in its own bank's
format (E4M3 and E5M2 may be mixed within and between the operands), without error, NEST_BODY_STEP (not held) and
NEST_HOLD_RETRY (held) set each active accumulator to the once-rounded exact sum of its value and the k products (for
E2M1, block sums scaled by the E3M5 block scales), and go to the next visit. At a visit that ends an iteration of the
innermost OUT level, with the tile target in the own scratchpad, the accumulators so reached are drained there in
CFMT, RM and SAT, under RS with fresh draws, and then are all +0. A nest held 65,536 cycles by an operand word that
still cannot be fetched ends with the late fault DFLT at that word, the clock at least at the deadline; that its
subcode is 3 is the model's choice (log 14, DEDUCED). -/
def Obligations.NestBodyStepResult : Prop :=
  ∀ (g : Nat) (n : NestRun) (fa fb : Nat → Fmt) (off : Nat) (x y sx sy : Nat → BitVec 64) (h : BitVec 64) (w : Nat) (s : State), NestAt s g n →
    let t := s.tileAt g
    let tab := t.active
    let a := visitAddr tab.abase tab.sa n.idx
    let b := visitAddr tab.bbase tab.sb n.idx
    let due := ∃ d, tab.outLevel = some d ∧ ∀ l < d, n.idx.getD l 0 + 1 = tab.countOf l
    let ends := fun (fn : Nat → Nat → Nat) (r : Res) =>
      (¬ due → Visited s g n fn r) ∧
      (due → spadPlace g (visitAddr tab.cbase tab.sc n.idx) = .own off → off % 8 = 0 →
        off + tileBytes tab.mr tab.nc tab.cfmt.width ≤ 0x200000 → VisitedAndDrained s g n off fn r)
    let steps := fun (fn : Nat → Nat → Nat) =>
      (n.hold = none → ends fn (exec (.nestBodyStep g) s)) ∧ (n.hold = some h → ends fn (exec (.nestHoldRetry g) s))
    let sum := fun (v : FVal) (r j : Nat) => roundNearest .fp32 (exactSum [elemValue .fp32 (t.accAt r j), v])
    (∀ k w, (∀ i, fa i = .bf16 ∧ fb i = .bf16) ∧ k = 16 ∧ w = 16 ∨
        (∀ i, (fa i = .e4m3 ∨ fa i = .e5m2) ∧ (fb i = .e4m3 ∨ fb i = .e5m2)) ∧ k = 32 ∧ w = 8 →
      PanelIs s g a w fa k 384 (tab.mr + 1) x → PanelIs s g b w fb k 256 (tab.nc + 1) y →
      steps fun r j => sum (exactSum ((List.range k).map fun i =>
        (panelElem w fa x (i * 384 + r)).mul (panelElem w fb y (i * 256 + j)))) r j) ∧
    (let e2 := fun (_ : Nat) => Fmt.e2m1
      let e3 := fun (_ : Nat) => Fmt.e3m5
      PanelIs s g a 4 e2 64 384 (tab.mr + 1) x → PanelIs s g b 4 e2 64 256 (tab.nc + 1) y →
      PanelIs s g (((a : Int) + tab.sda) % 2 ^ 32).toNat 8 e3 8 384 (tab.mr + 1) sx →
      PanelIs s g (((b : Int) + tab.sdb) % 2 ^ 32).toNat 8 e3 8 256 (tab.nc + 1) sy →
      steps fun r j => sum (exactSum ((List.range 8).map fun q =>
        (exactSum ((List.range 8).map fun i =>
          (panelElem 4 e2 x ((8 * q + i) * 384 + r)).mul (panelElem 4 e2 y ((8 * q + i) * 256 + j)))).mul
        ((panelElem 8 e3 sx (q * 384 + r)).mul (panelElem 8 e3 sy (q * 256 + j))))) r j) ∧
    (n.hold = some h → t.late = none → heldWord g tab n.idx s = some w →
      ∃ u, exec (.nestHoldTimeout g) s = .next u ∧
        u.tileAt g = { t with
          late := some (⟨cDFLT, 3, BitVec.ofNat 64 w, none⟩, n.ref), nest := some { n with faulted := true, hold := none } } ∧
        u.ftb = (if s.ftb - h < 65536#64 then h + 65536#64 else s.ftb))

/-- With no nest running and legal operands: ndrain writes the active rows at the address, each word of a row whole,
with the accumulators converted to the format (times the BF16 scale of the row's band of 64 where one is given), zero
past the last column, leaving every other byte, and under RS advances M's counter; nload sets each active accumulator
to the FP32 value of its element and keeps the others; nzero makes every accumulator +0; nwait queues a record of the
steps since the last one; NWAIT_POST posts the oldest record to the event queue. -/
def Obligations.DrainLoadWaitResult : Prop :=
  ∀ (g c f b : BitVec 4) (r : BitVec 3) (st : BitVec 2) (tag : BitVec 9) (cs u0 u1 : BitVec 64) (y : Nat → Nat → BitVec 64)
    (fm : Fmt) (rm : Rm) (off boff : Nat) (s : State), EReady .M g s → s.tile.nest = none → NoRange .M s →
    let n := s.tile.shadow
    let w := fm.width
    let q := 64 / w
    let row := fun i => off + i * 32 * w
    let drew := if rm = .rs then
      { s.tile with nrsM := s.tile.nrsM + BitVec.ofNat 64 (((n.mr + 1) * (n.nc + 1) + 3) / 4) } else s.tile
    let drained := fun (scale : Nat → FVal → FVal) => SpadSet .M s drew
      ((List.range (n.mr + 1)).flatMap fun i => (List.range (rowWords n.nc w)).map fun k =>
        (row i + 8 * k, gloved (wordOf w fun e => if k * q + e ≤ n.nc then
          toFloat fm rm st.toNat (rsDraw s.tile.wid s.tile.nrsM 2 (i * (n.nc + 1) + (k * q + e)))
            (scale i (elemValue .fp32 (s.tile.accAt i (k * q + e)))) else 0))) (exec (.ndrain g c f r st b) s)
    exec (.nzero g) s = went .M s { s.tile with acc := [] } ∧
    exec (.nwait g tag) s = went .M s { s.tile with
      nwaits := s.tile.nwaits ++ [(s.refOf .M, tag.toNat, s.tile.nsteps % 2 ^ 32)], nsteps := 0 } ∧
    (s.tile.getC c.toNat = gloved cs → cs.toNat < 2 ^ 32 → cs.toNat % 8 = 0 → spadPlace s.cur cs.toNat = .own off →
      off + tileBytes n.mr n.nc w ≤ 0x200000 → fmtOfCode f.toNat = some fm → n.mr ≤ 383 →
      (∀ i ≤ n.mr, ∀ x < 8 * rowWords n.nc w, s.bankFmt s.cur (row i + x) = fm ∨ s.bankFmt s.cur (row i + x) = .raw) →
      (fm = .fp32 ∨ fm = .bf16 ∨ fm = .e4m3 ∨ fm = .e5m2 → rmOfCode r.toNat = some rm →
        (s.tile.getC b.toNat = gloved 0#64 → drained fun _ v => v) ∧
        (s.tile.getC b.toNat = gloved (BitVec.ofNat 64 (2 ^ 32 + boff)) → boff % 8 = 0 → boff + 16 ≤ 0x200000 →
          (∀ o ∈ [boff, boff + 8], s.bankFmt s.cur o = .bf16 ∨ s.bankFmt s.cur o = .raw) →
          s.tile.spad.read boff = gloved u0 → s.tile.spad.read (boff + 8) = gloved u1 →
          drained fun i v => v.mul (elemValue .bf16
            (if i / 64 < 4 then elemOf 16 u0 (i / 64) else elemOf 16 u1 (i / 64 - 4))))) ∧
      (fm = .fp32 ∨ fm = .bf16 →
        (∀ i ≤ n.mr, ∀ k < rowWords n.nc w, s.tile.spad.read (row i + 8 * k) = gloved (y i k)) →
        ∃ acc, exec (.nload g c f) s = went .M s { s.tile with acc := acc } ∧
          ∀ i j, j < 256 → Tile.accAt { s.tile with acc := acc } i j = if i ≤ n.mr ∧ j ≤ n.nc then
            toFloat .fp32 .rne 0 0 (elemValue fm (elemOf w (y i (j / q)) (j % q))) % 2 ^ 32 else s.tile.accAt i j)) ∧
    (∀ k p rest, (s.tileAt k).nwaits = p :: rest → (s.tileAt k).works = true → (s.tileAt k).holds .M = false →
      (s.tileAt k).eq.length < 64 → s.dmode (k / 16) = 0 →
      exec (.nwaitPost k) s = .next (s.setTileAt k { s.tileAt k with
        nwaits := rest, eq := (s.tileAt k).eq ++ [⟨eventWord 2 p.2.1 0 p.2.2, []⟩] }))

namespace Sys2Proof.Claims

/-- A descriptor word of D (R221): KIND, CNT 0, TAG, NDIM, bit 48 zero, NIDX, L. -/
def DescIs (w : BitVec 64) (kind tag ndim nidx l : Nat) : Prop :=
  kind ≤ 2 ∧ tag < 512 ∧ ndim < 4 ∧ nidx < 65536 ∧ l < 2 ^ 32 ∧
  w.toNat = kind * 2 ^ 61 + tag * 2 ^ 51 + ndim * 2 ^ 49 + nidx * 2 ^ 32 + l

/-- D may issue a command that writes back nothing (R100, R225): there is room, the word has sent no packet before, and the tile
cache holds no dirty line. -/
def DRoom (s : State) : Prop :=
  s.tile.dcmds.length < 64 ∧ (Eng.D, s.tile.eD.pos) ∉ s.tile.sending ∧ ∀ p ∈ s.tile.cache, p.2.dirty = 0#16

/-- A side of a copy at issue (R223): memory at a canonical address outside the aperture, or own scratchpad from `lo` to `hi`. -/
def SideAt (mem : Bool) (v : BitVec 64) (lo hi : Int) : Prop :=
  v.toNat % 8 = 0 ∧ if mem = true then canonical v = true ∧ inAperture v = false
    else v.toNat % 2 ^ 32 < 0x200000 ∧ 0 ≤ lo ∧ lo ≤ hi ∧ hi < 0x200000

/-- The range a scratchpad side holds in the range checker. -/
def sideHold (mem : Bool) (lo hi : Int) : List (Nat × Nat) := if mem = true then [] else [(lo.toNat, (hi - lo + 1).toNat)]

/-- D goes on with one more command in flight, the last in index order. -/
def issued (s : State) (c : DCmd) : Res := went .D s { s.tile with dcmds := s.tile.dcmds ++ [c] }

/-- A doubleword of memory as D reaches it: by the TLB, under a root whose EN is set, with the page's and the tables' rights for D's class (R223, R379). -/
def DLands (s : State) (g : Nat) (va : BitVec 64) (r : Rights) (pa : Nat) : Prop :=
  canonical va = true ∧ inAperture va = false ∧ (∃ d off, targetOf pa = .hbm d off) ∧
  bit (s.root (g / 16) (s.tileAt g).side) 0 = true ∧ (∃ e, tlbFind (s.tileAt g).side va.toNat (s.tileAt g).tlb = some e ∧
    pageAllows e (s.tileAt g).side r.rd r.wr r.fx = true ∧ pa = physOf e va) ∧
  accessVerdict s (classD (s.tileAt g)) (g / 16) pa r = .ok

/-- Word `i` of a side that moves words in order: of memory from `v` on, or of the own scratchpad of tile `g`. -/
def DWordAt (s : State) (g : Nat) (mem : Bool) (v : BitVec 64) (r : Rights) (i : Nat) (p : Place) : Prop :=
  if mem = true then ∃ pa, v.toNat + 8 * i < 2 ^ 64 ∧ DLands s g (v + BitVec.ofNat 64 (8 * i)) r pa ∧ p = .hbm pa 0 false
  else v.toNat % 2 ^ 32 + 8 * i < 0x200000 ∧ v.toNat < 2 ^ 32 ∧ p = .spad g (v.toNat + 8 * i)

end Sys2Proof.Claims

/-- For KIND 0 (memory to scratchpad), 1 (scratchpad to memory) and 2 (scratchpad to scratchpad, the ranges apart),
CNT 0, RAW banks, L above 0 and legal counts and pitches, with room, no range held and no dirty line, dcp, dcp2 and
dcpn (NDIM 1 to 3) append the command with its operands, the D control registers of its dimensions, its ranges over
every row, its tag and whether it posts a record; nothing else changes. With room, RAW banks, no range held and no
dirty line: dgth and dsct of KIND 0 or 1 read the index list (two entries a doubleword, without error) and append
their command with it, the indexed scratchpad side holding the whole region and the list held as read (that they move
by the list as it stands at issue is the model's choice: log 21, DEDUCED); dfill of KIND 0 or 1 appends its command
with the fill word as it stands; devt appends a wait for every command below it. Nothing else changes. -/
def Obligations.CopyIssueResult : Prop :=
  (∀ (g d a b f : BitVec 4) (r : BitVec 3) (st ev : BitVec 1) (aD aA w : BitVec 64) (y : Nat → BitVec 64) (i : Instr)
    (kind tag nd ndim l : Nat) (s : State), EReady .D g s → DRoom s → NoRange .D s → (∀ o < 0x200000, s.tile.bankOf o = 15) →
    s.tile.getA d.toNat = gloved aD → s.tile.getA a.toNat = gloved aA → s.tile.getA b.toNat = gloved w →
    (∀ k < 3 * nd, dcrGet s.tile.dcr k = gloved (y k)) → DescIs w kind tag ndim 0 l → 0 < l → f ≠ 9#4 →
    (kind = 2 → f = 15#4) →
    (i = .dcp g d a b f r st ev ∧ nd = 0 ∧ ndim = 0) ∨ (i = .dcp2 g d a b f r st ev ∧ nd = 1 ∧ ndim = 0) ∨
      (i = .dcpn g d a b f r st ev ∧ 1 ≤ nd ∧ ndim = nd) →
    let cnt := fun k => (y (3 * k + 2)).toNat % 2 ^ 17
    let pit := fun k => signedOf 32 ((y k).toNat % 2 ^ 32)
    (∀ k < nd, 1 ≤ cnt k ∧ cnt k ≤ 65536 ∧ pit (3 * k) % 8 = 0 ∧ pit (3 * k + 1) % 8 = 0) →
    let span := fun (v : BitVec 64) o => loopSpan (v.toNat % 2 ^ 32) ((List.range nd).map fun k => (cnt k, pit (3 * k + o)))
    let lo := fun v o => (span v o).1
    let hi := fun v o => (span v o).2 + 8 * l - 1
    let smem := decide (kind = 0)
    let dmem := decide (kind = 1)
    SideAt smem aA (lo aA 0) (hi aA 0) → SideAt dmem aD (lo aD 1) (hi aD 1) →
    (kind = 2 → meetsAny (sideHold false (lo aA 0) (hi aA 0)) (sideHold false (lo aD 1) (hi aD 1)) = false) →
    ∃ m, (∀ k < 3 * nd, dcrGet m k = gloved (y k)) ∧
      exec i s = issued s ⟨s.refOf .D, .copy nd, gloved aD, gloved aA, gloved w, f ++ r ++ st ++ ev, m, none, s.tile.nrsD,
        sideHold smem (lo aA 0) (hi aA 0), sideHold dmem (lo aD 1) (hi aD 1), 0, false, false, none, tag, decide (ev = 1#1), 0, 0,
        [], [], false⟩) ∧
  (∀ (g d a b f : BitVec 4) (r sc : BitVec 3) (st ev : BitVec 1) (t9 : BitVec 9) (aD aA w : BitVec 64) (y z : Nat → BitVec 64)
    (kind tag nidx l : Nat) (s : State), EReady .D g s → DRoom s → NoRange .D s → (∀ o < 0x200000, s.tile.bankOf o = 15) →
    s.tile.getA d.toNat = gloved aD → s.tile.getA b.toNat = gloved w → kind ≤ 1 → 0 < l →
    let smem := decide (kind = 0)
    let dmem := decide (kind = 1)
    exec (.devt g t9 sc) s = issued s ⟨s.refOf .D, .devt sc.toNat, GWord.zero, GWord.zero, GWord.zero, 0#9, [], none, 0#64, [], [],
      0, false, true, none, t9.toNat, true, 0, 0, [], [], false⟩ ∧
    (DescIs w kind tag 0 0 l → SideAt dmem aD (aD.toNat % 2 ^ 32 : Nat) ((aD.toNat % 2 ^ 32 : Nat) + 8 * l - 1) →
      exec (.dfill g d a b ev) s = issued s ⟨s.refOf .D, .fill, gloved aD, s.tile.getA a.toNat, gloved w, 0#9, [], none, s.tile.nrsD,
        [], sideHold dmem (aD.toNat % 2 ^ 32 : Nat) ((aD.toNat % 2 ^ 32 : Nat) + 8 * l - 1), 0, false, false, none, tag,
        decide (ev = 1#1), 0, 0, [], [], false⟩) ∧
    (s.tile.getA a.toNat = gloved aA → DescIs w kind tag 0 nidx l → 0 < nidx → f ≠ 9#4 →
      (∀ k ∈ [0, 1, 2, 9], dcrGet s.tile.dcr k = gloved (y k)) →
      let ix := (y 9).toNat % 2 ^ 32
      let pit := fun k => signedOf 32 ((y k).toNat % 2 ^ 32)
      let entry := fun k => elemOf 32 (z ((ix + 4 * k) / 8)) ((ix + 4 * k) / 4 % 2)
      ix % 4 = 0 → ix + 4 * nidx ≤ 0x200000 → pit 0 % 8 = 0 → pit 1 % 8 = 0 →
      (∀ k < nidx, s.tile.spad.read ((ix + 4 * k) / 8 * 8) = gloved (z ((ix + 4 * k) / 8))) →
      (∃ k < nidx, entry k ≠ 0xFFFFFFFF) →
      let span := fun (v : BitVec 64) o => loopSpan (v.toNat % 2 ^ 32) [(nidx, pit o)]
      let done := fun (i : Instr) (k : DKind) (slo shi dlo dhi : Int) =>
        SideAt smem aA slo shi → SideAt dmem aD dlo dhi →
        ∃ m, (∀ k ∈ [0, 1, 9], dcrGet m k = gloved (y k)) ∧
          exec i s = issued s ⟨s.refOf .D, k, gloved aD, gloved aA, gloved w, f ++ r ++ st ++ ev, m, none, s.tile.nrsD,
            spanOf (sideHold smem slo shi ++ [(ix, 4 * nidx)]), sideHold dmem dlo dhi, 0, false, false, none, tag,
            decide (ev = 1#1), 0, 0, [], (List.range nidx).map entry, false⟩
      done (.dgth g d a b f r st ev) .gather 0 0x1FFFFF (span aD 1).1 ((span aD 1).2 + 8 * l - 1) ∧
      done (.dsct g d a b f r st ev) .scatter (span aA 0).1 ((span aA 0).2 + 8 * l - 1) 0 0x1FFFFF))

/-- For a command of tile g in flight that copies (KIND 0, 1 or 2) or fills l words, at most one piece, unconverted,
each source word without overlap of a destination, COPY_PIECE_DONE writes each destination word with its source word
and glove (the fill word), leaves every other byte of memory and scratchpad, and marks the command done with its byte
count. COPY_COMPLETE of a done command removes it and posts (ENG 3, TAG, STATUS, COUNT) when asked to, and keeps the
ranges it wrote for a later devt; DEVT_POST, with no command below, removes the wait and posts its record, which
acquires what the commands below it wrote. -/
def Obligations.CopyStepsResult : Prop :=
  ∀ (g i : Nat) (c : DCmd) (l : Nat) (p q : Nat → Place) (s : State), (s.tileAt g).works = true → (s.tileAt g).dcmds[i]? = some c →
    c.faulted = false → s.dmode (g / 16) = 0 → (s.tileAt g).eq.length < 64 → (s.tileAt g).holds .D = false →
    let left := { s.tileAt g with dcmds := (s.tileAt g).dcmds.eraseIdx i }
    let done := { left with dRanges := left.dRanges ++ c.pranges.map fun x => (c.ref.idx, x) }
    let posted := fun (t : Tile) (w : GWord) (rs : List (Nat × Nat)) => Host.Outcome.next (s.setTileAt g { t with eq := t.eq ++ [⟨w, rs⟩] } : State)
    c.ended = false →
    ((c.kind = .copy 0 ∨ c.kind = .fill) → c.conv = none → c.window = none → c.prog = 0 → c.desc.data.toNat % 2 ^ 32 = l →
      0 < l → l ≤ 32768 → c.kindOf ≤ 2 → (c.kind = .fill → c.kindOf ≤ 1) →
      (∀ j < l, (c.kind = .copy 0 → DWordAt s g c.srcMem c.aA.data Rights.load j (p j)) ∧
        DWordAt s g c.dstMem c.aD.data Rights.store j (q j)) →
      (∀ j < l, ∀ k < l, (k ≠ j → apart (q j) (q k)) ∧ (c.kind = .copy 0 → apart (p j) (q k))) →
      ∃ t cc, exec (.copyPieceDone g i) s = .next t ∧
        (∀ j < l, wordAt t (q j) = if c.kind = .fill then c.aA else wordAt s (p j)) ∧
        (∀ a, (∀ j < l, ∀ pa, q j = .hbm pa 0 false → a / 8 ≠ pa / 8) → t.mem.byte a = s.mem.byte a) ∧
        (∀ a, (∀ j < l, ∀ off, q j = .spad g off → a / 8 ≠ off / 8) → (t.tileAt g).spad.byte a = (s.tileAt g).spad.byte a) ∧
        t.tileAt g = { s.tileAt g with spad := (t.tileAt g).spad, dcmds := (s.tileAt g).dcmds.set i cc } ∧
        cc = { c with prog := 1, count := c.count + 8 * l, done := true, pranges := cc.pranges } ∧
        (∀ h, h ≠ g → t.tileAt h = s.tileAt h) ∧ t.dies = s.dies) ∧
    (c.kind.moves = true → c.pieces g ≤ c.prog → c.badRow g = none → c.window = none → c.toWindow g = none →
      exec (.copyComplete g i) s = if c.ev = true then posted done (eventWord 3 c.tag c.status c.count) c.pranges
        else .next (s.setTileAt g done)) ∧
    (∀ sc, c.kind = .devt sc → i = 0 →
      exec (.devtPost g i) s = posted left (eventWord 3 c.tag 0 0) ((s.tileAt g).wroteBelow c.ref.idx))

namespace Sys2Proof.Claims

/-- The state with `p` on its first link, stamped with FTB bits 26 to 7 (R275). -/
def sent (s : State) (p : Packet) : State := { s with net := s.net ++ [{ p with stamp := BitVec.ofNat 20 (s.ftb.toNat / 128) }] }

/-- The tile with window `w` as given. -/
def withWin (t : Tile) (w : Nat) (x : Window) : Tile := { t with wins := mapPut t.wins w x }

/-- Packet `i` taken out of the fabric at its destination; the 32nd marked one of a source die sends that die a congestion note
(R291). -/
def taken (s : State) (i : Nat) (p : Packet) : State :=
  let u : State := { s with net := s.net.eraseIdx i }
  let d := s.dieAt p.dst
  let n := mapGet 0 d.marks p.src + 1
  if p.marked = true ∧ p.src < 24 then
    if n = 32 then sent (u.setDieAt p.dst { d with marks := mapDel d.marks p.src }) ⟨3, p.dst, p.src, p.dst, 0#20, false, none, .congestion p.dst⟩
    else u.setDieAt p.dst { d with marks := mapPut d.marks p.src n }
  else u

/-- A packet of tile `g`'s window `w` from its die to die `d`, not yet stamped. -/
def winPacket (vc g w d : Nat) (b : PktBody) : Packet := ⟨vc, g / 16, d, g / 16, 0#20, false, some (g, w), b⟩

/-- The next generation's opening by a plain `dspan` at the time `now` (R282). -/
def opened (x : Window) (now : BitVec 64) : Window :=
  let n := if x.opened = true then (x.newest + 1) % 256 else 0
  { x with gen := n, att := 0, scount := 0, st := .open, atts := mapPut x.atts n 0, vstm := false, newest := n, opened := true, spanAt := now }

/-- The reopening of the oldest broken generation under its next attempt (R282). -/
def reopened (x : Window) (k : Nat) : Window :=
  let a := (mapGet 0 x.atts k + 1) % 4
  { x with gen := k, att := a, scount := 0, st := .open, atts := mapPut x.atts k a, vstm := false }

/-- A legal `dcoll` at issue (R294): CNT, SCODE and ROOT for the kind on the communicator, RAW banks, both spans own and apart. -/
def CollLegal (s : State) (kind k cnt sc root src dst : Nat) : Prop :=
  let c := s.commAt (s.cur / 16) k
  let red := kind = 0 ∨ kind = 2
  c.valid = true ∧ (if s.tile.side = true then c.learner else c.actor) = true ∧ 0 < cnt ∧ 0 < c.p ∧
  (red → 1 ≤ sc ∧ sc ≤ 254 ∧ cnt % c.p = 0) ∧ (¬ red → sc = 0) ∧ (if kind = 4 then root < c.p else root = 0) ∧
  src % 8 = 0 ∧ dst % 8 = 0 ∧ (∀ o < 0x200000, s.tile.bankOf o = 15) ∧
  let len := if red then 128 * cnt else 8 * cnt
  src + len ≤ 0x200000 ∧ dst + collDstLen kind cnt c.p ≤ 0x200000 ∧
  (src + len ≤ dst ∨ dst + collDstLen kind cnt c.p ≤ src)

/-- Packet `n`, of words `ws` without error, reaches the position that runs `r` of its communicator for a task on a tile, and is as the
position's own word has it; nothing else waits there (R293, R297). -/
def CollHears (s : State) (n : Nat) (p : Packet) (q : CollPkt) (r : CollRun) (cmd : DCmd) (ws : List (BitVec 64)) : Prop :=
  let c := s.commAt p.dst q.comm
  let t := s.tileAt r.holder
  s.arrived n = some p ∧ p.body = .coll q ∧ c.valid = true ∧ s.dieId p.src = c.prev.toNat ∧ c.run = some r ∧ c.queue = [] ∧ c.early = [] ∧
  q.seq = r.seq ∧ differs r q = false ∧ r.inbox = [] ∧ r.kept = none ∧ r.done.length < c.p ∧ r.holder < 384 ∧
  s.dmode (r.holder / 16) = 0 ∧ t.cut = none ∧ t.level = .task ∧ t.collCmd r.idx = some cmd ∧ q.words = ws.map gloved ∧
  cmd.aA.data.toNat % 2 ^ 32 < 0x200000 ∧ cmd.aD.data.toNat % 2 ^ 32 < 0x200000 ∧ cmd.aD.data.toNat % 8 = 0

/-- The packet that the position sends on, of the same word. -/
def onward (s : State) (p : Packet) (q : CollPkt) (r : CollRun) (phase stage : Nat) (items : List Nat) (ws : List GWord) : Packet :=
  let c := s.commAt p.dst q.comm
  ⟨c.vc, p.dst, (s.dieOf c.next.toNat).getD 24, p.dst, 0#20, false, none, .coll { q with
    kind := r.kind, cnt := r.cnt, scode := r.scode, root := r.root, seq := r.seq, phase := phase, stage := stage, items := items,
    words := ws, mismatch := false }⟩

/-- The links after packet `n` is taken and `x` is sent. -/
def handed (s : State) (n : Nat) (p x : Packet) : List Packet := (sent (taken s n p) x).net

/-- The record of a word may be posted at once. -/
def CollRoom (t : Tile) (cmd : DCmd) : Prop :=
  t.eq.length < 64 ∧ t.holds .D = false ∧ (∀ x ∈ t.dcmds, x.ended = false) ∧ cmd.ev = true

/-- The word ends at the position: its command leaves and its record is posted (R297). -/
def CollEnds (s u : State) (r : CollRun) (cmd : DCmd) (status count : Nat) : Prop :=
  (u.tileAt r.holder).dcmds = (s.tileAt r.holder).dcmds.filter (fun x => decide (x.ref.idx ≠ r.idx)) ∧
  (u.tileAt r.holder).eq = (s.tileAt r.holder).eq ++ [⟨eventWord 3 cmd.tag status count, cmd.pranges⟩]

/-- Words hold blocks as R295 packs them: four to 17 words, 34 bytes each, the last group padded with zero bytes. -/
def PackIs (l : List Blk) (ws : List (BitVec 64)) : Prop :=
  (∀ b ∈ l, b.codes.length = 32) ∧ ws.length = 17 * ((l.length + 3) / 4) ∧ ∀ i < 8 * ws.length,
    elemOf 8 (ws.getD (i / 8) 0#64) (i % 8) = match l[i / 34]? with
      | some b => (b.codes ++ [b.scale, b.flags]).getD (i % 34) 0
      | none => 0

/-- Q(y) of R296 under scale code `sc`: the exact y / s to E4M3, to nearest even, saturation code 1. -/
def quant (sc : Nat) (y : FVal) : Nat := toFloat .e4m3 .rne 1 0 (y.mul (.fin false 1 (127 - sc)))

/-- The SAT condition of R296: y is infinite, or y / s rounds past 448 where the exponent is unbounded, that is, it exceeds 464. -/
def saturates (sc : Nat) : FVal → Bool
  | .nan => false
  | .inf _ => true
  | .fin _ m e => decide ((464 : ℚ) < m * (2 : ℚ) ^ (e + 127 - sc))

/-- Round(FP32, Dec(w) + x) for element `e` of a block (R296). -/
def addCode (b : Blk) (x : Nat → Nat) (e : Nat) : Nat :=
  roundNearest .fp32 (exactSum [(elemValue .e4m3 (b.codes.getD e 0)).mul (.fin false 1 ((b.scale : Int) - 127)), elemValue .fp32 (x e)])

/-- The block that encodes FP32 values under the code `sc`, with the flags so far (R296). -/
def encoded (sc flags : Nat) (y : Nat → Nat) : Blk :=
  ⟨(List.range 32).map fun e => quant sc (elemValue .fp32 (y e)), sc,
    flags ||| (if (List.range 32).any (fun e => saturates sc (elemValue .fp32 (y e))) = true then 1 else 0)⟩

/-- Element `e` of source block `b`, of source words `xs` (R296). -/
def srcElem (xs : Nat → BitVec 64) (b e : Nat) : Nat := elemOf 32 (xs (16 * b + e / 2)) (e % 2)

/-- The scale code under which the owner runs a block again after a run under `sc` with the flags byte `f`, after `n` reruns (R297). -/
def rerunCode (n sc f : Nat) : Option Nat :=
  if 2 ≤ n then none
  else if f % 2 = 1 then (if sc < 254 ∨ f / 2 % 2 = 1 then some (min (sc + 2) 254) else none)
  else if f / 2 % 2 = 1 then some sc
  else none

/-- The results of a block at its owner (R296, R297). -/
def ownResult (b : Blk) (x : Nat → Nat) (e : Nat) : Nat := if b.flags / 2 % 2 = 1 then 0x7FC00000 else addCode b x e

/-- FP32 elements of a block that are NaN. -/
def nanCount (y : Nat → Nat) : Nat := ((List.range 32).filter fun e => decide (elemValue .fp32 (y e) = .nan)).length

/-- The flags byte of a block's results after `n` reruns (R297). -/
def resultFlags (n : Nat) (b : Blk) (y : Nat → Nat) : Nat :=
  b.flags % 2 + (if nanCount y = 0 then 0 else 2) + (if b.flags / 2 % 2 = 1 then 4 else 0) + 8 * n

/-- The STATUS of a reduction's record, from the flags bytes of the blocks written (R297). -/
def reducedStatus (l : List Nat) : Nat :=
  if l.any (fun f => decide (f / 4 % 2 = 1)) = true then 0x98 else if l.any (fun f => decide (f % 2 = 1)) = true then 0x96 else 0

/-- Flags bytes stand eight to a word from `a` on, the last word filled with zero bytes (R294). -/
def FlagsAt (m : Mem) (a : Nat) (l : List Nat) : Prop :=
  ∀ k < (l.length + 7) / 8, m.read (a + 8 * k) = gloved (wordOf 8 fun j => l.getD (8 * k + j) 0)

/-- The winner of two `smax` words (R193, R298): FP32 scores descending, NaN lowest, then the lower upper half. -/
def winner (a b : BitVec 64) : BitVec 64 :=
  let v := fun (w : BitVec 64) => elemValue .fp32 (w.toNat % 2 ^ 32)
  if rankAbove (v a) (v b) = true then a else if rankAbove (v b) (v a) = true then b
  else if b.toNat / 2 ^ 32 < a.toNat / 2 ^ 32 then b else a

end Sys2Proof.Claims

/-- dwin on a window that is not open and owes nothing unbinds it for handle 0, binds it with a valid grant's target,
pier, rights and allowance, and traps FAB with the handle otherwise (a window whose copies have made all their packets
owes nothing once these are handed over). dspan on an idle window with C and at most one awaited close opens the next
generation when its time has come and else waits for it (the spacing expiry moves the clock there and opens);
dspan.retry reopens the oldest broken generation under the next attempt and sends the note. dkey on an open window
issues the keystone with the count, ends the span, and stays until its packets are handed over, then passes. -/
def Obligations.WindowWordResult : Prop :=
  ∀ (g a b d w : BitVec 4) (h : BitVec 64) (x : Window) (s : State), EReady .D g s →
    let wn := w.toNat
    let dst := fun (y : Window) => ((s.tileOf y.target).map (· / 16)).getD 24
    (s.tile.getA a.toNat = gloved h → (∀ y, s.tile.win? wn = some y → y.st ≠ .open ∧ y.outq = [] ∧ y.awaits = [] ∧
        ∀ c ∈ s.tile.dcmds, c.unissued s.cur wn = false) →
      (h = 0#64 → exec (.dwin g a w) s = went .D s { s.tile with wins := mapDel s.tile.wins wn }) ∧
      (h ≠ 0#64 → let e0 := s.dieReg (s.cur / 16) (0x10000 + 16 * (h.toNat % 65536))
        let e1 := s.dieReg (s.cur / 16) (0x10000 + 16 * (h.toNat % 65536) + 8)
        if h.toNat < 2 ^ 32 ∧ h.toNat % 65536 < 4096 ∧ bit e0 63 = true ∧ bits e0 47 32 = h.toNat / 65536 ∧
            bit e0 (if s.tile.side = true then 62 else 61) = true ∧ 1 ≤ bits e1 10 0 ∧ bits e1 10 0 ≤ 1024 then
          exec (.dwin g a w) s = went .D s (withWin s.tile wn ⟨h, e0.setWidth 19, bits e1 27 16, bit e0 58, bit e0 59, bit e0 60,
            bits e1 10 0, .idle, 0, 0, 0, false, 0, 0#64, [], [], [], [], [], false⟩)
        else exec (.dwin g a w) s = .next (preciseTrap .D ⟨cFAB, 0, h, none⟩ [] s))) ∧
    (s.tile.win? wn = some x → x.canC = true →
      (x.st = .idle → x.awaits.length ≤ 1 → (s.tile.spanOf wn = none ∨ s.tile.spanOf wn = some none) → let due := if x.opened = true then x.spanAt + 200#64 else 0#64
        (due.toNat ≤ s.ftb.toNat →
          exec (.dspan g w) s = went .D s { withWin s.tile wn (opened x s.ftb) with spanWait := none }) ∧
        (s.ftb.toNat < due.toNat →
          exec (.dspan g w) s = .next (s.setTile { s.tile with spanWait := some (wn, s.tile.eD.pos, none) }) ∧
          (s.tile.spanOf wn = some none → exec (.dspanSpacingExpiry s.cur wn) s =
            .next ((s.until due).setTile (Tile.pass { withWin s.tile wn (opened x due) with spanWait := none } .D))))) ∧
      (∀ k rest, x.st = .broken → x.broken = k :: rest → (s.tile.spanOf wn = none ∨ s.tile.spanOf wn = some (some k)) →
          (∀ p ∈ x.injected, p.1 ≠ k) →
        exec (.dspanRetry g w) s = .next (sent (s.setTile (Tile.pass { withWin s.tile wn (reopened x k) with spanWait := none } .D))
          (winPacket 3 s.cur wn (dst x) (.reopen x.pier k ((mapGet 0 x.atts k + 1) % 4) s.cur wn))))) ∧
    (∀ (tag fa : BitVec 64), s.tile.win? wn = some x → x.st = .open → x.scount ≤ 8388607 → s.tile.dcmds.length < 64 →
      s.tile.getA d.toNat = gloved tag → s.tile.getA a.toNat = gloved fa → tag.toNat < 512 →
      let off := fa.toNat % 2 ^ 32 - (0x80000000 + 0x200000 * wn)
      (fa.toNat % 2 ^ 32) % 8 = 0 → 0x80000000 + 0x200000 * wn ≤ fa.toNat % 2 ^ 32 → off < 0x200000 →
      (Eng.D, s.tile.eD.pos) ∉ s.tile.sending → s.tile.counted s.cur wn = true →
      let v := s.tile.getA b.toNat
      let p := winPacket 3 s.cur wn (dst x)
        (.keystone x.pier x.gen x.att x.scount ((s.tileOf x.target).getD 0) off (s.ingress s.cur) v s.cur wn)
      let left := x.broken.filter fun k => decide (k ≠ x.gen)
      let y : Window := { x with
        outq := x.outq ++ [p], awaits := x.awaits ++ [⟨x.gen, x.att, x.scount, off, v, tag.toNat, s.ftb, x.vstm⟩],
        broken := left, st := if left = [] then .idle else .broken }
      exec (.dkey g d a b w) s = .next (s.setTile { withWin s.tile wn y with
        dcmds := s.tile.dcmds ++ [⟨s.refOf .D, .key wn, GWord.zero, GWord.zero, GWord.zero, 0#9, [], none, 0#64, [], [], 0, false, true,
          some (wn, x.gen), tag.toNat, true, 0, 0, [], [], false⟩], sending := s.tile.sending ++ [(Eng.D, s.tile.eD.pos)] })) ∧
    ((Eng.D, s.tile.eD.pos) ∈ s.tile.sending → (∀ q ∈ s.tile.wins, q.2.outq = []) →
      exec (.dkey g d a b w) s = went .D s { s.tile with sending := s.tile.sending.erase (Eng.D, s.tile.eD.pos) })

/-- With room, no range held and legal operands, each dcoll word of a busy communicator puts its command in flight
with its ranges and joins the communicator's queue behind the others, and D goes on. Where a position other than the
root runs bc, the arrival of its packet in the first pass (words without error) writes the words at the destination
and hands them to the next position, or, from the last one, the list of the words in error, none here, to the root;
the arrival in the pass of the words in error writes those at their places, hands them on unless it is the last, ends
the word, posts its record with STATUS 0 and frees the communicator (the two passes: log 28). On an idle communicator
the word begins at once: rs and ar send the chunk before their own, each block encoded under SCODE; ag, and bc at its
root, write their own words at their place and send them; smax sends its words from position 0; the other positions
wait. On the arrival of words without error a position of ag writes them at 8 CNT k and hands them on, its record
posted once every position's words are there; a position of smax hands on the winners of the arriving and its own
words, the last one writes them and sends them round, each position writes them and hands them on, and ends when they
have gone round. -/
def Obligations.CollectiveWordResult : Prop :=
  (∀ (g d a b : BitVec 4) (w aA aD : BitVec 64) (kind k cnt sc root tag : Nat) (i : Instr) (s : State),
    (EReady .D g s → NoRange .D s → s.tile.dcmds.length < 64 →
      s.tile.getA b.toNat = gloved w → s.tile.getA a.toNat = gloved aA → s.tile.getA d.toNat = gloved aD →
      w.toNat = k * 2 ^ 58 + tag * 2 ^ 49 + sc * 2 ^ 41 + root * 2 ^ 29 + cnt → k < 64 → tag < 512 → sc < 256 → root < 4096 →
      cnt < 2 ^ 24 → aA.toNat < 2 ^ 32 → aD.toNat < 2 ^ 32 → CollLegal s kind k cnt sc root aA.toNat aD.toNat →
      (i = .dcollRs g d a b ∧ kind = 0) ∨ (i = .dcollAg g d a b ∧ kind = 1) ∨ (i = .dcollAr g d a b ∧ kind = 2) ∨
        (i = .dcollSmax g d a b ∧ kind = 3) ∨ (i = .dcollBc g d a b ∧ kind = 4) →
      let c := s.commAt (s.cur / 16) k
      ∀ r, c.run = some r → r.inbox = [] → r.done.length < c.p →
      ∃ t, exec i s = .next t ∧
        t.tile = { s.tile with
          eD := s.tile.eD.next (s.tile.expLen s.tile.eD),
          dcmds := s.tile.dcmds ++ [⟨s.refOf .D, .coll kind, gloved aD, gloved aA, gloved w, 0#9, [], none, 0#64,
            [(aA.toNat, if kind = 0 ∨ kind = 2 then 128 * cnt else 8 * cnt)], [(aD.toNat, collDstLen kind cnt c.p)], 0, false, false,
            none, tag, true, 0, 0, [], [], false⟩] } ∧
        t.commAt (s.cur / 16) k = { c with queue := c.queue ++ [(s.cur, s.tile.eD.pos)] } ∧ t.mem = s.mem ∧
        ∀ h, h ≠ s.cur → t.tileAt h = s.tileAt h) ∧
    (∀ (n : Nat) (q : CollPkt) (r : CollRun) (c : Comm) (cmd : DCmd) (p : Packet) (xs : Nat → BitVec 64), s.arrived n = some p →
      p.body = .coll q → c = s.commAt p.dst q.comm → c.valid = true → s.dieId p.src = c.prev.toNat →
      c.run = some r → c.queue = [] → c.early = [] → q.seq = r.seq → differs r q = false → r.kind = 4 → r.inbox = [] → r.done = [] →
      r.nans = 0 → r.errs = false → r.kept = none → 0 < c.p → r.holder < 384 → s.dmode (r.holder / 16) = 0 →
      let t := s.tileAt r.holder
      t.cut = none → t.level = .task → t.collCmd r.idx = some cmd → q.words = (List.range q.words.length).map (fun j => gloved (xs j)) →
      let dst := cmd.aD.data.toNat % 2 ^ 32
      dst < 0x200000 →
      let onward := fun (phase stage : Nat) (items : List Nat) (ws : List GWord) =>
        packet c.vc p.dst ((s.dieOf c.next.toNat).getD 24) (.coll { q with
          kind := r.kind, cnt := r.cnt, scode := r.scode, root := r.root, seq := r.seq, phase := phase, stage := stage, items := items,
          words := ws, mismatch := false })
      let handed := fun (x : Packet) => (sent (taken s n p) x).net
      (q.phase = 0 → ∃ u, exec (.dcollPacketArrival n) s = .next u ∧
        u.tileAt r.holder = { t with spad := t.spad.writeList dst q.words } ∧ (u.commAt p.dst q.comm).run = some r ∧
        u.net = handed (if q.stage + 1 < c.p then onward 0 (q.stage + 1) [] q.words else onward 1 0 [] [])) ∧
      (q.phase = 1 → q.stage ≠ 0 → t.eq.length < 64 → t.holds .D = false → (∀ x ∈ t.dcmds, x.ended = false) → cmd.ev = true →
        ∃ u, exec (.dcollPacketArrival n) s = .next u ∧
          (u.tileAt r.holder).spad = (q.items.zip q.words).foldl (fun m z => m.write (dst + 8 * z.1) z.2) t.spad ∧
          (u.tileAt r.holder).dcmds = t.dcmds.filter (fun x => decide (x.ref.idx ≠ r.idx)) ∧
          (u.tileAt r.holder).eq = t.eq ++ [⟨eventWord 3 cmd.tag 0 0, cmd.pranges⟩] ∧
          (u.commAt p.dst q.comm).run = none ∧
          u.net = if q.stage + 1 < c.p then handed (onward 1 (q.stage + 1) q.items q.words) else (taken s n p).net))) ∧
  ((∀ (g d a b : BitVec 4) (w aA aD : BitVec 64) (xs : Nat → BitVec 64) (kind k cnt sc root tag : Nat) (i : Instr) (s : State),
      EReady .D g s → NoRange .D s → s.tile.dcmds.length < 64 → s.cur < 384 → s.tile.cut = none →
      (∀ x ∈ s.tile.dcmds, x.ref.idx ≠ s.tile.eD.pos) →
      s.tile.getA b.toNat = gloved w → s.tile.getA a.toNat = gloved aA → s.tile.getA d.toNat = gloved aD →
      w.toNat = k * 2 ^ 58 + tag * 2 ^ 49 + sc * 2 ^ 41 + root * 2 ^ 29 + cnt → k < 64 → tag < 512 → sc < 256 → root < 4096 →
      cnt < 2 ^ 24 → aA.toNat < 2 ^ 32 → aD.toNat < 2 ^ 32 → CollLegal s kind k cnt sc root aA.toNat aD.toNat →
      (i = .dcollRs g d a b ∧ kind = 0) ∨ (i = .dcollAg g d a b ∧ kind = 1) ∨ (i = .dcollAr g d a b ∧ kind = 2) ∨
        (i = .dcollSmax g d a b ∧ kind = 3) ∨ (i = .dcollBc g d a b ∧ kind = 4) →
      let c := s.commAt (s.cur / 16) k
      c.run = none → c.queue = [] → c.early = [] →
      (∀ j < (if kind = 0 ∨ kind = 2 then 16 * cnt else cnt), s.tile.spad.read (aA.toNat + 8 * j) = gloved (xs j)) →
      let q : CollPkt := ⟨k, kind, cnt, sc, root, c.seq, 0, 1, 0, [], [], false⟩
      let send := fun (u : State) (x : CollPkt) => u.net =
        (sent s ⟨c.vc, s.cur / 16, (s.dieOf c.next.toNat).getD 24, s.cur / 16, 0#20, false, none, .coll x⟩).net
      let own := (List.range cnt).map fun j => gloved (xs j)
      let keeps := fun (u : State) => u.tile.spad = s.tile.spad
      ∃ u, exec i s = .next u ∧
        (u.commAt (s.cur / 16) k).run = some ⟨s.cur, s.tile.eD.pos, kind, cnt, sc, root, c.seq, [], [], [], [], [], 0, false, none⟩ ∧
        (u.commAt (s.cur / 16) k).seq = c.seq + 1 ∧ (u.commAt (s.cur / 16) k).queue = [] ∧
        u.tile.dcmds.length = s.tile.dcmds.length + 1 ∧ u.tile.eD = s.tile.eD.next (s.tile.expLen s.tile.eD) ∧
        (kind = 0 ∨ kind = 2 → keeps u ∧ let j := (c.pos + c.p - 1) % c.p
          let bs := (List.range (cnt / c.p)).map (j * (cnt / c.p) + ·)
          ∃ ws, PackIs (bs.map fun b => encoded sc 0 (srcElem xs b)) ws ∧
            send u { q with chunk := j, items := bs, words := ws.map gloved }) ∧
        (kind = 1 → u.tile.spad = s.tile.spad.writeList (aD.toNat + 8 * cnt * c.pos) own ∧
          send u { q with chunk := c.pos, words := own }) ∧
        (kind = 3 → keeps u ∧ if c.pos = 0 then send u { q with words := own } else u.net = s.net) ∧
        (kind = 4 → if c.pos = root then u.tile.spad = s.tile.spad.writeList aD.toNat own ∧ send u { q with chunk := c.pos, words := own }
          else keeps u ∧ u.net = s.net)) ∧
  (∀ (n : Nat) (q : CollPkt) (r : CollRun) (cmd : DCmd) (p : Packet) (ws : List (BitVec 64)) (s : State), CollHears s n p q r cmd ws →
    r.errs = false →
    let c := s.commAt p.dst q.comm
    let t := s.tileAt r.holder
    let dst := cmd.aD.data.toNat % 2 ^ 32
    let src := cmd.aA.data.toNat % 2 ^ 32
    let run := exec (.dcollPacketArrival n) s
    let goes := fun (u : State) (x : Packet) => u.net = handed s n p x
    let stays := fun (u : State) (done : List Nat) => (u.commAt p.dst q.comm).run = some { r with done := done }
    (r.kind = 1 →
      (q.phase = 0 → ∃ u, run = .next u ∧ (u.tileAt r.holder).spad = t.spad.writeList (dst + 8 * r.cnt * q.chunk) q.words ∧
        stays u r.done ∧ goes u (if q.stage + 1 < c.p then onward s p q r 0 (q.stage + 1) [] q.words else onward s p q r 1 0 [] [])) ∧
      (q.phase = 1 → q.items = [] → q.words = [] → ∃ u, run = .next u ∧ (u.tileAt r.holder).spad = t.spad ∧
        (if q.stage + 1 < c.p then goes u (onward s p q r 1 (q.stage + 1) [] []) else u.net = (taken s n p).net) ∧
        (r.done.length + 1 < c.p → stays u (q.chunk :: r.done)) ∧
        (c.p = r.done.length + 1 → CollRoom t cmd → CollEnds s u r cmd 0 r.nans ∧ (u.commAt p.dst q.comm).run = none))) ∧
    (r.kind = 3 → q.chunk = 0 →
      (∀ (xs : Nat → BitVec 64), q.phase = 0 → ws.length = r.cnt → (∀ j < r.cnt, t.spad.read (src + 8 * j) = gloved (xs j)) →
        let won := (List.range r.cnt).map fun j => gloved (winner (ws.getD j 0#64) (xs j))
        ∃ u, run = .next u ∧ stays u r.done ∧
          (c.pos + 1 ≠ c.p → (u.tileAt r.holder).spad = t.spad ∧ goes u (onward s p q r 0 (q.stage + 1) [] won)) ∧
          (c.pos + 1 = c.p → (u.tileAt r.holder).spad = t.spad.writeList dst won ∧ goes u (onward s p q r 2 1 [] won))) ∧
      (q.phase = 2 → q.items = [] → ∃ u, run = .next u ∧ stays u r.done ∧ (u.tileAt r.holder).spad = t.spad.writeList dst q.words ∧
        goes u (if q.stage + 1 < c.p then onward s p q r 2 (q.stage + 1) [] q.words else onward s p q r 3 0 [] [])) ∧
      (q.phase = 3 → q.items = [] → CollRoom t cmd → ∃ u, run = .next u ∧ (u.tileAt r.holder).spad = t.spad ∧
        (if q.stage + 1 < c.p then goes u (onward s p q r 3 (q.stage + 1) [] (if q.stage = 0 then [] else q.words))
          else u.net = (taken s n p).net) ∧
        CollEnds s u r cmd 0 r.nans ∧ (u.commAt p.dst q.comm).run = none))))

/-- On the arrival of a chunk's packed blocks, source words without error: a position that does not own the chunk adds
its elements to the decoded codes, rounds to FP32, encodes again under the block's scale with the flags ORed, and
hands the blocks on (the first position of a rerun encodes its own elements). The owner adds its elements without
encoding; a block flagged SAT or ERR is run again along the same chain with SCODE + 2, at most 254, or the same SCODE,
at most twice; else its results, the canonical NaN where it ends in error, and its flags byte stand. Once every own
block has its results, rs writes the flags bytes and posts its record, and ar sends results and flags round; every
position of ar writes them, and when every chunk has gone round writes all flags bytes and posts its record. STATUS is
0x98, 0x96 or 0 from the flags, COUNT the NaN elements written. That ar's results go round twice, the second time to
name the blocks in error, is the model's choice (log 27). -/
def Obligations.CollectiveReductionResult : Prop :=
  ∀ (n : Nat) (q : CollPkt) (r : CollRun) (cmd : DCmd) (p : Packet) (ws : List (BitVec 64)) (xs : Nat → BitVec 64) (bl : List Blk)
    (s : State), CollHears s n p q r cmd ws → r.errs = false → r.kind = 0 ∨ r.kind = 2 →
    let c := s.commAt p.dst q.comm
    let t := s.tileAt r.holder
    let per := r.cnt / c.p
    let chunk := fun (j : Nat) => (List.range per).map (j * per + ·)
    let dst := cmd.aD.data.toNat % 2 ^ 32
    let src := cmd.aA.data.toNat % 2 ^ 32
    let at' := fun b => dst + 128 * (if r.kind = 0 then b - c.pos * per else b)
    let goes := fun (u : State) (x : Packet) => u.net = handed s n p x
    let ran := fun (u : State) (f : CollRun → Prop) => ∃ r', (u.commAt p.dst q.comm).run = some r' ∧ f r'
    let holds := fun (u : State) b (y : Nat → Nat) =>
      ∀ k < 16, (u.tileAt r.holder).spad.read (at' b + 8 * k) = gloved (wordOf 32 fun j => y (2 * k + j))
    (q.phase = 0 → (∀ j < 16 * r.cnt, t.spad.read (src + 8 * j) = gloved (xs j)) →
      bl.length = q.items.length → PackIs bl ws → (∀ b ∈ bl, 1 ≤ b.scale) → (∀ b ∈ q.items, b < r.cnt) →
      (c.pos ≠ q.chunk → ∃ u ws', exec (.dcollPacketArrival n) s = .next u ∧
        PackIs ((q.items.zip bl).map fun x => encoded x.2.scale x.2.flags
          (if q.stage = 0 then srcElem xs x.1 else addCode x.2 (srcElem xs x.1))) ws' ∧
        goes u (onward s p q r 0 (q.stage + 1) q.items (ws'.map gloved)) ∧ u.tileAt r.holder = t ∧
        (u.commAt p.dst q.comm).run = some r) ∧
      (c.pos = q.chunk → q.items.Nodup → c.pos ∉ r.done →
        (∀ b ∈ q.items, b ∈ chunk c.pos ∧ (∀ x ∈ r.flags, x.1 ≠ b) ∧ mapGet r.scode r.scales b ≤ 254) →
        (src + 128 * r.cnt ≤ dst ∨ dst + collDstLen r.kind r.cnt c.p ≤ src) →
        let times := fun b => mapGet 0 r.reruns b
        let code := fun (x : Nat × Blk) => rerunCode (times x.1) (mapGet r.scode r.scales x.1) x.2.flags
        let mine := q.items.zip bl
        let again := mine.filter fun x => (code x).isSome
        let result := fun (x : Nat × Blk) => ownResult x.2 (srcElem xs x.1)
        let flag := fun (x : Nat × Blk) => resultFlags (times x.1) x.2 (result x)
        let nans := r.nans + ((mine.filter fun x => (code x).isNone).map fun x => nanCount (result x)).sum
        let flags := fun (b : Nat) => ((mine.find? fun x => decide (x.1 = b)).map flag).getD (mapGet 0 r.flags b)
        let all := again = [] ∧ ∀ b ∈ chunk c.pos, b ∈ q.items ∨ ∃ x ∈ r.flags, x.1 = b
        (again ≠ [] → ∃ u ws', exec (.dcollPacketArrival n) s = .next u ∧
          PackIs (again.map fun x => ⟨List.replicate 32 0, (code x).getD 0, 4 * (times x.1 + 1)⟩) ws' ∧
          goes u (onward s p q r 0 0 (again.map (·.1)) (ws'.map gloved)) ∧
          (∀ x ∈ mine, code x = none → holds u x.1 (result x)) ∧
          ran u fun r' => r'.nans = nans ∧ r'.done = r.done ∧
            (∀ x ∈ mine, ∀ z, code x = some z → mapGet 0 r'.reruns x.1 = times x.1 + 1 ∧ mapGet r.scode r'.scales x.1 = z) ∧
            ∀ x ∈ mine, code x = none → mapGet 0 r'.flags x.1 = flag x) ∧
        (all → CollRoom t cmd → ∃ u, exec (.dcollPacketArrival n) s = .next u ∧ (∀ x ∈ mine, holds u x.1 (result x)) ∧
          (r.kind = 0 → goes u (onward s p q r 2 1 [] []) ∧
            FlagsAt (u.tileAt r.holder).spad (dst + 128 * per) ((chunk c.pos).map flags) ∧
            CollEnds s u r cmd (reducedStatus ((chunk c.pos).map flags)) nans) ∧
          (r.kind = 2 → ∃ ws', goes u (onward s p q r 2 1 [] ws') ∧ ws'.length = 16 * per + (per + 7) / 8 ∧
            (∀ i < per, ∀ k < 16, ws'[16 * i + k]? = some ((u.tileAt r.holder).spad.read (at' (c.pos * per + i) + 8 * k))) ∧
            (∀ k < (per + 7) / 8, ws'[16 * per + k]? = some (gloved (wordOf 8 fun j => ((chunk c.pos).map flags).getD (8 * k + j) 0))) ∧
            ran u fun r' => r'.nans = nans ∧ r'.done = r.done)))) ∧
    (r.kind = 0 → q.phase = 2 → r.done.length + 1 < c.p → ∃ u, exec (.dcollPacketArrival n) s = .next u ∧ u.tileAt r.holder = t ∧
      (if q.stage + 1 < c.p then goes u (onward s p q r 2 (q.stage + 1) [] []) else u.net = (taken s n p).net) ∧
      (u.commAt p.dst q.comm).run = some { r with done := q.chunk :: r.done }) ∧
    (r.kind = 2 → q.phase = 2 → ws.length = 16 * per + (per + 7) / 8 → (∀ b ∈ chunk q.chunk, ∀ x ∈ r.flags, x.1 ≠ b) →
      let word := fun i k => ws.getD (16 * i + k) 0#64
      let flag := fun i => elemOf 8 (ws.getD (16 * per + i / 8) 0#64) (i % 8)
      ∃ u, exec (.dcollPacketArrival n) s = .next u ∧
        (∀ i < per, ∀ k < 16, (u.tileAt r.holder).spad.read (at' (q.chunk * per + i) + 8 * k) = gloved (word i k)) ∧
        goes u (if q.stage + 1 < c.p then onward s p q r 2 (q.stage + 1) [] q.words else onward s p q r 3 0 [] []) ∧
        ran u fun r' => r'.done = r.done ∧ (∀ i < per, mapGet 0 r'.flags (q.chunk * per + i) = flag i) ∧
          r'.nans = r.nans + ((List.range per).map fun i => nanCount fun e => elemOf 32 (word i (e / 2)) (e % 2)).sum) ∧
    (r.kind = 2 → q.phase = 3 → q.items = [] → ∃ u, exec (.dcollPacketArrival n) s = .next u ∧
      (if q.stage + 1 < c.p then goes u (onward s p q r 3 (q.stage + 1) [] []) else u.net = (taken s n p).net) ∧
      (r.done.length + 1 < c.p → u.tileAt r.holder = t ∧ (u.commAt p.dst q.comm).run = some { r with done := q.chunk :: r.done }) ∧
      (c.p = r.done.length + 1 → CollRoom t cmd → let l := (List.range r.cnt).map fun b => mapGet 0 r.flags b
        FlagsAt (u.tileAt r.holder).spad (dst + 128 * r.cnt) l ∧ CollEnds s u r cmd (reducedStatus l) r.nans ∧
        (u.commAt p.dst q.comm).run = none))

namespace Sys2Proof.Claims

/-- A doubleword of program memory that D reads holds `v` without error. -/
def VReads (s : State) (g : Nat) (va v : BitVec 64) : Prop := ∃ pa, DLands s g va Rights.load pa ∧ s.mem.read pa = gloved v

/-- A doubleword of a pool that the controller reads for tile `g` holds `v` without error (R229). -/
def PReads (s : State) (g d pa : Nat) (v : BitVec 64) : Prop :=
  (∃ dd off, targetOf pa = .hbm dd off) ∧ accessVerdict s (classD (s.tileAt g)) d pa Rights.load = .ok ∧ s.mem.read pa = gloved v

/-- A sequence record (R234): its page list, pool identifier and capacity, lengths, page count and flags, and the pages it lists. -/
def SeqAt (s : State) (g : Nat) (ra plist : BitVec 64) (pid cap clen wlen np fl : Nat) (x : Nat → Nat) : Prop :=
  VReads s g ra plist ∧ pid < 2 ^ 32 ∧ VReads s g (ra + 8#64) (BitVec.ofNat 64 (pid + cap * 2 ^ 32)) ∧
  clen < 2 ^ 32 ∧ wlen < 2 ^ 32 ∧ VReads s g (ra + 16#64) (BitVec.ofNat 64 (clen + wlen * 2 ^ 32)) ∧
  np < 2 ^ 32 ∧ VReads s g (ra + 24#64) (BitVec.ofNat 64 (np + fl * 2 ^ 32)) ∧
  ∀ p < (wlen + 15) / 16, ∃ w, VReads s g (plist + BitVec.ofNat 64 (4 * p)) w ∧
    x p = w.toNat / 2 ^ (32 * ((plist + BitVec.ofNat 64 (4 * p)).toNat / 4 % 2)) % 2 ^ 32

/-- The pool of an identifier is enabled at `h` with its descriptors at `db` (R230, R390), the listed pages and the pool's damage list
are clean (R232, R419). -/
def PoolClean (s : State) (g pid h n : Nat) (db : BitVec 64) (x : Nat → Nat) : Prop :=
  let d := pid % 32
  let k := pid / 256 % 16
  d < 24 ∧ pid / 32 % 8 = 0 ∧ pid < 4096 ∧ h % 64 = 0 ∧ h < 2 ^ 48 ∧ s.dieReg d (0x2000 + 8 * k) = BitVec.ofNat 64 (h + 1) ∧
  PReads s g d h db ∧ (∃ f w2, PReads s g d (h + 8) f ∧ PReads s g d (h + 16) w2 ∧ bit w2 40 = true) ∧ s.damageOf d k = [] ∧
  ∀ p < n, ∃ pb cb w, PReads s g d (db.toNat + 32 * x p) pb ∧ PReads s g d (db.toNat + 32 * x p + 8) cb ∧
    PReads s g d (db.toNat + 32 * x p + 16) w ∧ bit w 41 = false

/-- The end of a key-value word at D (R237) that has written the ranges `rs`: its command leaves, the ranges stay for a later `devt`, D
goes on, and its record is posted when it asked for one. -/
def kvEnded (t : Tile) (i : Nat) (c : DCmd) (rs : List (Nat × Nat)) (status count : Nat) : Tile :=
  { t with
    dcmds := t.dcmds.eraseIdx i, dRanges := t.dRanges ++ rs.map fun x => (c.ref.idx, x), eD := t.eD.next (t.expLen t.eD),
    eq := if c.ev = true then t.eq ++ [⟨eventWord 3 c.tag status count, rs⟩] else t.eq }

/-- Command `i` of a working tile is its first key-value command, at its first step, D is at its word, and its record can be posted. -/
def KvFirst (s : State) (g i : Nat) (c : DCmd) : Prop :=
  let t := s.tileAt g
  t.works = true ∧ t.dcmds[i]? = some c ∧ c.faulted = false ∧ c.ended = false ∧ c.prog = 0 ∧ c.idx = [] ∧
  (∀ k < i, ∀ y, t.dcmds[k]? = some y → y.kind.isKv = false) ∧ t.eq.length < 64 ∧ t.holds .D = false ∧ s.dmode (g / 16) = 0 ∧
  t.eD.pos = c.ref.idx

/-- The command has ended with STATUS `st` and COUNT `n`: memory is `m`, the scratchpad `sp`, D has passed the word and its record is posted;
only the doublewords at the places `w` may have changed, and a pop of the record acquires each of them (R110). -/
def KvDone (s : State) (g i : Nat) (c : DCmd) (m sp : Mem) (w : List Nat) (st n : Nat) (r : Res) : Prop :=
  ∃ rs, r = .next (({ s with mem := m, cur := g } : State).setTileAt g (kvEnded { s.tileAt g with spad := sp } i c rs st n)) ∧
    (∀ a, (∀ b ∈ w, a / 8 ≠ b / 8) → m.byte a = s.mem.byte a) ∧
    ∀ b ∈ w, ∃ x ∈ rs, x.1 ≤ b / 8 * 8 ∧ b / 8 * 8 + 8 ≤ x.1 + x.2

/-- A doubleword of program memory at `pa` that the controller may read and write for tile `g` holds `v` without error. -/
def VWord (s : State) (g : Nat) (va v : BitVec 64) (pa : Nat) : Prop :=
  DLands s g va Rights.load pa ∧ DLands s g va Rights.store pa ∧ s.mem.read pa = gloved v

/-- A doubleword of a pool of die `d` that the controller may read and write for tile `g`. -/
def POpen (s : State) (g d pa : Nat) : Prop :=
  (∃ dd off, targetOf pa = .hbm dd off) ∧ accessVerdict s (classD (s.tileAt g)) d pa Rights.load = .ok ∧
  accessVerdict s (classD (s.tileAt g)) d pa Rights.store = .ok

/-- And it holds `v` without error. -/
def PWord (s : State) (g d pa : Nat) (v : BitVec 64) : Prop := POpen s g d pa ∧ s.mem.read pa = gloved v

/-- A sequence record whose doublewords stand at `rp`, not DAMAGED (R234). -/
def SeqRecordAt (s : State) (g : Nat) (ra plist : BitVec 64) (pid cap clen wlen np : Nat) (rp : Nat → Nat) : Prop :=
  pid < 2 ^ 32 ∧ cap < 2 ^ 32 ∧ clen < 2 ^ 32 ∧ wlen < 2 ^ 32 ∧ np < 2 ^ 32 ∧
  VWord s g ra plist (rp 0) ∧ VWord s g (ra + 8#64) (BitVec.ofNat 64 (pid + cap * 2 ^ 32)) (rp 1) ∧
  VWord s g (ra + 16#64) (BitVec.ofNat 64 (clen + wlen * 2 ^ 32)) (rp 2) ∧ VWord s g (ra + 24#64) (BitVec.ofNat 64 np) (rp 3) ∧
  rp 1 / 8 ≠ rp 0 / 8 ∧ rp 2 / 8 ≠ rp 0 / 8 ∧ rp 2 / 8 ≠ rp 1 / 8 ∧ rp 3 / 8 ≠ rp 0 / 8 ∧ rp 3 / 8 ≠ rp 1 / 8 ∧ rp 3 / 8 ≠ rp 2 / 8

/-- Entry `p` of the page list at `plist` in memory `m`, whose doubleword stands at `pa` (R234). -/
def entryIn (m : Mem) (plist : BitVec 64) (p pa : Nat) : Nat :=
  (m.read pa).data.toNat / 2 ^ (32 * ((plist + BitVec.ofNat 64 (4 * p)).toNat / 4 % 2)) % 2 ^ 32

/-- The page list's first `n` entries stand in doublewords at `lp` and name the pages `x`, no two alike. -/
def ListAt (s : State) (g : Nat) (plist : BitVec 64) (n : Nat) (x lp : Nat → Nat) : Prop :=
  ∀ p < n, (∃ w, VWord s g (plist + BitVec.ofNat 64 (4 * p)) w (lp p)) ∧ entryIn s.mem plist p (lp p) = x p ∧ ∀ q < p, x q ≠ x p

/-- The descriptor at `db` of page `x` (R232). -/
def PageAt (s : State) (g d db x : Nat) (pb cb : BitVec 64) (ref valid fl : Nat) : Prop :=
  PWord s g d (db + 32 * x) pb ∧ PWord s g d (db + 32 * x + 8) cb ∧ ref < 2 ^ 32 ∧ valid < 256 ∧ fl < 256 ∧ fl / 2 % 2 = 0 ∧
  PWord s g d (db + 32 * x + 16) (BitVec.ofNat 64 (ref + valid * 2 ^ 32 + fl * 2 ^ 40))

/-- The free stack's entry `j` in memory `m` (R230). -/
def freeIn (m : Mem) (fb j : Nat) : Nat := (m.read (fb + 4 * j)).data.toNat / 2 ^ (32 * ((fb + 4 * j) / 4 % 2)) % 2 ^ 32

/-- A pool's header: descriptors at `db`, free stack of `top` entries at `fb`, `hkv` heads, the counters COWCNT and NOPGCNT (R230, R390), and
an empty damage list (R419). The stack's words up to entry `top + more` may be read and written. -/
def PoolAt (s : State) (g pid h db fb hkv top more : Nat) (cow nopg : BitVec 64) : Prop :=
  let d := pid % 32
  let k := pid / 256 % 16
  d < 24 ∧ pid / 32 % 8 = 0 ∧ pid < 4096 ∧ h % 64 = 0 ∧ h < 2 ^ 48 ∧ db < 2 ^ 48 ∧ db % 32 = 0 ∧ fb < 2 ^ 48 ∧ fb % 8 = 0 ∧ hkv ≤ 16 ∧
  top + more < 2 ^ 32 ∧
  s.dieReg d (0x2000 + 8 * k) = BitVec.ofNat 64 (h + 1) ∧ s.damageOf d k = [] ∧ s.setDamage d k [] = s ∧
  PWord s g d h (BitVec.ofNat 64 db) ∧ PWord s g d (h + 8) (BitVec.ofNat 64 fb) ∧
  (∃ n < 2 ^ 32, PWord s g d (h + 16) (BitVec.ofNat 64 (n + hkv * 2 ^ 32 + 2 ^ 40))) ∧
  PWord s g d (h + 24) (BitVec.ofNat 64 top) ∧ PWord s g d (h + 32) cow ∧ PWord s g d (h + 40) nopg ∧
  ∀ j < top + more, ∃ v, PWord s g d (fb + 4 * j) v

/-- No doubleword of one list of places is one of another. -/
def Asunder (l : List (List Nat)) : Prop := l.Pairwise fun a b => ∀ x ∈ a, ∀ y ∈ b, x / 8 ≠ y / 8

/-- The places of a descriptor, of a pool header, of a record and of a list. -/
def descOf (db x : Nat) : List Nat := [db + 32 * x, db + 32 * x + 8, db + 32 * x + 16]
def headOf (h : Nat) : List Nat := [h, h + 8, h + 16, h + 24, h + 32, h + 40]
def recOf (rp : Nat → Nat) : List Nat := [rp 0, rp 1, rp 2, rp 3]
def upTo (n : Nat) (f : Nat → Nat) : List Nat := (List.range n).map f

/-- How many of the pages `x lo` to `x (p - 1)` have REF 1. -/
def lastRefs (ref : Nat → Nat) (lo p : Nat) : Nat := ((List.range p).filter fun q => decide (lo ≤ q ∧ ref q = 1)).length

/-- The places that a release of list entries `lo` to `hi - 1` writes: the descriptors, and where a page has no reference left, the stack. -/
def releasedAt (db fb h top : Nat) (x ref : Nat → Nat) (lo hi : Nat) : List Nat :=
  let n := lastRefs ref lo hi
  (upTo (hi - lo) fun q => db + 32 * x (lo + q) + 16) ++ (upTo n fun j => fb + 4 * (top + j)) ++ (if n = 0 then [] else [h + 24])

/-- Memory `m` after that release (R247): REF one lower, or the page free and pushed, in order of the list. -/
def Released (s : State) (m : Mem) (db fb h top : Nat) (x ref valid fl : Nat → Nat) (lo hi : Nat) : Prop :=
  (∀ p, lo ≤ p → p < hi →
    m.read (db + 32 * x p + 16) = gloved (BitVec.ofNat 64
      (if ref p = 1 then (fl p / 4 * 4 + 1) * 2 ^ 40 else ref p - 1 + valid p * 2 ^ 32 + fl p * 2 ^ 40)) ∧
    (ref p = 1 → freeIn m fb (top + lastRefs ref lo p) = x p)) ∧
  (∀ j < top, freeIn m fb j = freeIn s.mem fb j) ∧ m.read (h + 24) = gloved (BitVec.ofNat 64 (top + lastRefs ref lo hi))

/-- The channels of a head's cap in memory `m` at `cb`: 128 minima, then 128 maxima (R243). -/
def CapIs (m : Mem) (cb : Nat) (lo hi : Nat → Nat) : Prop :=
  ∀ q < 32, m.read (cb + 8 * q) = gloved (wordOf 16 fun j => lo (4 * q + j)) ∧
    m.read (cb + 256 + 8 * q) = gloved (wordOf 16 fun j => hi (4 * q + j))

/-- The E4M3 key of channel `ch` of a head whose K words are `w`, as BF16 (R243). -/
def keyAt (w : Nat → BitVec 64) (ch : Nat) : Nat := roundNearest .bf16 (elemValue .e4m3 (elemAt 8 w ch))

/-- The lower and the higher of two BF16 codes (R243). -/
def lower (a b : Nat) : Nat := roundNearest .bf16 ((elemValue .bf16 a).minv (elemValue .bf16 b))
def higher (a b : Nat) : Nat := roundNearest .bf16 ((elemValue .bf16 a).maxv (elemValue .bf16 b))

/-- The doublewords of a page's data, and of its caps, for `hkv` heads. -/
def dataOf (pb hkv : Nat) : List Nat := upTo (512 * hkv) fun k => pb + 8 * k
def capsOf (cb hkv : Nat) : List Nat := upTo (64 * hkv) fun k => cb + 8 * k

/-- The places that a token in slot `n` of a page writes: its words, the caps and the descriptor. -/
def tokenAt (pb cb db x hkv n : Nat) : List Nat :=
  (upTo (16 * hkv) fun k => pb + 4096 * (k / 16) + 128 * n + 8 * (k % 16)) ++
  (upTo (16 * hkv) fun k => pb + 4096 * (k / 16) + 2048 + 128 * n + 8 * (k % 16)) ++ capsOf cb hkv ++ [db + 32 * x + 16]

/-- Memory `m` holds in slot `n` of a page the token at `off` of the scratchpad `sp`, whose K words are `key` by head; the caps cover it
(R243, R245). -/
def TokenIn (m sp : Mem) (pb cb hkv n off : Nat) (key : Nat → Nat → BitVec 64) (lo hi : Nat → Nat → Nat) : Prop :=
  ∀ h < hkv, (∀ j < 16, m.read (pb + 4096 * h + 128 * n + 8 * j) = sp.read (off + 128 * h + 8 * j) ∧
      m.read (pb + 4096 * h + 2048 + 128 * n + 8 * j) = sp.read (off + 2048 + 128 * h + 8 * j)) ∧
    CapIs m (cb + 512 * h) (fun ch => if n = 0 then keyAt (key h) ch else lower (lo h ch) (keyAt (key h) ch))
      (fun ch => if n = 0 then keyAt (key h) ch else higher (hi h ch) (keyAt (key h) ch))

end Sys2Proof.Claims

/-- With room, no range held, no dirty line, RAW banks, the descriptor holding a tag and L (0 where the word takes
none), the record and the other virtual operands aligned and reachable with their rights and the scratchpad operands
own and aligned, kvlook, kvapp, kvfork, kvfork.unshare, kvrel, kvcommit, kvtrunc, kvins, kvrecap, capsel and
capsel.thr append their command with its ranges; D stays at the word until the controller's first step, and nothing
else changes. -/
def Obligations.KeyValueIssueResult : Prop :=
  ∀ (g d a b : BitVec 4) (e : BitVec 1) (w aA aD : BitVec 64) (tag l pa pd : Nat) (s : State), EReady .D g s → DRoom s →
    NoRange .D s → (∀ o < 0x200000, s.tile.bankOf o = 15) → (∀ c ∈ s.tile.dcmds, c.ref.idx ≠ s.tile.eD.pos) →
    s.tile.getA b.toNat = gloved w → s.tile.getA a.toNat = gloved aA → s.tile.getA d.toNat = gloved aD →
    tag < 512 → l < 2 ^ 32 → w.toNat = tag * 2 ^ 51 + l →
    let da := aD.toNat % 2 ^ 32
    let lmax := aD.toNat / 2 ^ 32
    let put := fun (op : Nat) (mode : Bool) (v : BitVec 64) (rd wr : List (Nat × Nat)) => Host.Outcome.next (s.setTile { s.tile with
      dcmds := s.tile.dcmds ++ [⟨s.refOf .D, .kv op mode, gloved v, gloved aA, gloved w, 0#9, [], none, 0#64, rd, wr, 0, false, false,
        none, tag, decide (e = 1#1), 0, 0, [], [], false⟩] } : State)
    let own := fun (o n : Nat) => o % 8 = 0 ∧ o + n ≤ 0x200000
    (aA.toNat % 64 = 0 → DLands s s.cur aA Rights.load pa →
      (own da 8 → exec (.kvlook g d a b e) s = put 0 false aD [] [(da, 8)]) ∧
      (l = 0 → aD.toNat % 64 = 0 → DLands s s.cur aD Rights.amo pd → exec (.kvfork g d a b e) s = put 2 false aD [] []) ∧
      (l = 0 → exec (.kvrecap g a b e) s = put 7 false 0#64 [] []) ∧
      (lmax < 65536 → own l 272 → own da (16 + 8 * lmax) →
        exec (.capsel g d a b e) s = put 8 false aD [(l, 272)] [(da, 16 + 8 * lmax)] ∧
        exec (.capselThr g d a b e) s = put 8 true aD [(l, 272)] [(da, 16 + 8 * lmax)])) ∧
    (aA.toNat % 64 = 0 → DLands s s.cur aA Rights.amo pa →
      (l = 0 → own da 4096 → exec (.kvapp g d a b e) s = put 1 false aD [(da, 4096)] []) ∧
      (l = 0 → exec (.kvforkUnshare g a b e) s = put 2 true 0#64 [] [] ∧ exec (.kvrel g a b e) s = put 3 false 0#64 [] []) ∧
      exec (.kvcommit g a b e) s = put 4 false 0#64 [] [] ∧ exec (.kvtrunc g a b e) s = put 5 false 0#64 [] []) ∧
    (aA.toNat % 32 = 0 → DLands s s.cur aA Rights.amo pa → aD.toNat % 64 = 0 → DLands s s.cur aD Rights.load pd → own l 16 →
      exec (.kvins g d a b e) s = put 6 false aD [(l, 16)] [(l, 16)])

/-- For the first key-value command of a tile, with its record, its enabled pool and its pages readable and undamaged,
the step of kvlook writes the page, whether the position is committed, and the slot of position L (all ones and STATUS
0x83 past WLEN); kvcommit of L from CLEN to WLEN writes CLEN (0x83 otherwise, as kvtrunc outside that range, with
nothing written and nothing acquired); kvins on an empty bucket writes record address, lengths and key into it and the
address beside the key. The command leaves, D passes the word and the record is posted when asked for; popping it
acquires the doublewords of memory that the step wrote, in their order, whether or not their value changed. -/
def Obligations.KeyValueStepResult : Prop :=
  ∀ (g i : Nat) (c : DCmd) (ra plist db : BitVec 64) (pid cap clen wlen np fl h : Nat) (x : Nat → Nat) (op : Nat) (s : State),
    let t := s.tileAt g
    c.kind = .kv op false → KvFirst s g i c → SeqAt s g ra plist pid cap clen wlen np fl x → fl % 2 = 0 →
    PoolClean s g pid h (if op = 6 then 0 else (wlen + 15) / 16) db x →
    let l := c.desc.data.toNat % 2 ^ 32
    let run := exec (.kvStep g i) s
    let after := fun (w : List (Nat × BitVec 64)) (sp : Mem) (st n : Nat) =>
      ({ s with mem := w.foldl (fun m p => m.write p.1 (gloved p.2)) s.mem, cur := g } : State).setTileAt g
        (kvEnded { t with spad := sp } i c (w.foldl (fun r p => joinRange r (p.1 / 8 * 8, 8)) c.pranges) st n)
    (op = 0 → c.aA.data = ra → c.aD.data.toNat % 2 ^ 32 + 8 ≤ 0x200000 →
      let put := fun (v : BitVec 64) => t.spad.write (c.aD.data.toNat % 2 ^ 32) (gloved v)
      (l < wlen → run = .next (after []
        (put (BitVec.ofNat 64 (x (l / 16) * 2 ^ 32 + (if clen ≤ l then 2 ^ 31 else 0) + l % 16))) 0x00 l)) ∧
      (wlen ≤ l → run = .next (after [] (put 0xFFFFFFFFFFFFFFFF#64) 0x83 0))) ∧
    (op = 4 → c.aA.data = ra →
      (∀ pa, clen ≤ l → l ≤ wlen → DLands s g (ra + 16#64) Rights.store pa →
        run = .next (after [(pa, BitVec.ofNat 64 (l + wlen * 2 ^ 32))] t.spad 0x00 l)) ∧
      (l < clen ∨ wlen < l → run = .next (after [] t.spad 0x83 0))) ∧
    (op = 5 → c.aA.data = ra → l < clen ∨ wlen < l → run = .next (after [] t.spad 0x83 0)) ∧
    (∀ (bk key : BitVec 64) (p : Nat → Nat), op = 6 → c.aD.data = ra → c.aA.data = bk → l % 8 = 0 → l + 16 ≤ 0x200000 →
      t.spad.read l = gloved key → key ≠ 0#64 → VReads s g bk 0#64 →
      (∀ k < 3, DLands s g (bk + BitVec.ofNat 64 (8 * k)) Rights.store (p k)) →
      run = .next (after [(p 1, ra), (p 2, BitVec.ofNat 64 (clen + pid * 2 ^ 32)), (p 0, key)]
        (t.spad.write (l + 8) (gloved ra)) 0x00 0))

/-- For the first key-value command of a tile, whose record (at most 64 pages, no two alike, each with a reference),
pool, free stack and descriptors are without error, undamaged, open to the controller and apart: kvtrunc of L from
CLEN to WLEN releases the list entries from L / 16 rounded up, sets NPAGE and WLEN and, where L is inside a page that
only this sequence holds, its VALID; kvrel releases every page and makes CLEN, WLEN, NPAGE and DAMAGED 0; a release
lowers REF, and a page that reaches 0 gets VALID 0 and FREE and is pushed, COUNT being the pages pushed. kvfork gives
an empty child of the same pool, with room, the parent's entries and lengths and every page one reference more.
kvfork.unshare does nothing to a page that is whole or not shared; else it copies data and caps of the page to the top
free page, which takes the entry (STATUS 0x03), and with no page free ends with 0x81 and counts it. kvapp writes the
token in the next slot of the last page, which only this sequence holds, or in slot 0 of the top free page, words as
they are, with the caps covering its key, and sets VALID, NPAGE and WLEN. Every other byte of memory, the scratchpad
and all else are unchanged, D passes the word, and the record acquires each doubleword written. -/
def Obligations.KeyValuePageEffects : Prop :=
  ∀ (g i : Nat) (c : DCmd) (ra plist : BitVec 64) (pid cap clen wlen h db fb hkv top : Nat) (cow nopg : BitVec 64) (op : Nat) (mode : Bool)
    (rp x lp ref valid fl : Nat → Nat) (pb cb : Nat → BitVec 64) (s : State),
    let t := s.tileAt g
    let d := pid % 32
    let n := (wlen + 15) / 16
    let l := c.desc.data.toNat % 2 ^ 32
    let up := (l + 15) / 16
    let run := exec (.kvStep g i) s
    let word := fun (k : Nat) => gloved (BitVec.ofNat 64 k)
    let desc := fun (y : Nat) => db + 32 * y + 16
    c.kind = .kv op mode → KvFirst s g i c → c.aA.data = ra → SeqRecordAt s g ra plist pid cap clen wlen n rp → n ≤ 64 →
    ListAt s g plist n x lp → PoolAt s g pid h db fb hkv top n cow nopg →
    (∀ p < n, PageAt s g d db (x p) (pb p) (cb p) (ref p) (valid p) (fl p) ∧ 0 < ref p) →
    Asunder [recOf rp, upTo n lp, headOf h, (List.range n).flatMap fun p => descOf db (x p), upTo (top + n) fun j => fb + 4 * j] →
    (op = 5 → mode = false → clen ≤ l → l ≤ wlen →
      let cuts := l % 16 ≠ 0 ∧ ref (up - 1) = 1
      ∃ m, KvDone s g i c m t.spad
          (releasedAt db fb h top x ref up n ++ (if cuts then [desc (x (up - 1))] else []) ++ [rp 3, rp 2]) 0x00 (lastRefs ref up n) run ∧
        Released s m db fb h top x ref valid fl up n ∧ m.read (rp 3) = word up ∧ m.read (rp 2) = word (clen + l * 2 ^ 32) ∧
        (cuts → m.read (desc (x (up - 1))) = word (1 + l % 16 * 2 ^ 32 + fl (up - 1) * 2 ^ 40))) ∧
    (op = 3 → mode = false →
      ∃ m, KvDone s g i c m t.spad (releasedAt db fb h top x ref 0 n ++ [rp 3, rp 2]) 0x00 (lastRefs ref 0 n) run ∧
        Released s m db fb h top x ref valid fl 0 n ∧ m.read (rp 3) = word 0 ∧ m.read (rp 2) = word 0) ∧
    (∀ (ch clist : BitVec 64) (ccap : Nat) (cp cl : Nat → Nat), op = 2 → mode = false → c.aD.data = ch →
      SeqRecordAt s g ch clist pid ccap 0 0 0 cp → n ≤ ccap →
      (∀ p < n, ref p + 1 < 2 ^ 32 ∧ ∃ w, VWord s g (clist + BitVec.ofNat 64 (4 * p)) w (cl p)) →
      (∀ p < n, ∀ q < n, cl p / 8 = cl q / 8 → (clist + BitVec.ofNat 64 (4 * p)).toNat / 8 = (clist + BitVec.ofNat 64 (4 * q)).toNat / 8) →
      Asunder [recOf rp, upTo n lp, headOf h, (List.range n).flatMap fun p => descOf db (x p), recOf cp, upTo n cl] →
      ∃ m, KvDone s g i c m t.spad ((upTo n fun p => desc (x p)) ++ upTo n cl ++ [cp 3, cp 2]) 0x00 n run ∧
        (∀ p < n, entryIn m clist p (cl p) = x p ∧ m.read (desc (x p)) = word (ref p + 1 + valid p * 2 ^ 32 + fl p * 2 ^ 40)) ∧
        m.read (cp 3) = word n ∧ m.read (cp 2) = word (clen + wlen * 2 ^ 32)) ∧
    (op = 2 → mode = true → wlen % 16 = 0 ∨ ref (n - 1) = 1 → KvDone s g i c s.mem t.spad [] 0x00 0 run) ∧
    (op = 2 → mode = true → wlen % 16 ≠ 0 → 1 < ref (n - 1) → top = 0 →
      ∃ m, KvDone s g i c m t.spad [h + 40] 0x81 0 run ∧ m.read (h + 40) = gloved (nopg + 1#64)) ∧
    (∀ (yb yc : BitVec 64) (yr yv yf : Nat), 0 < top →
      let y := freeIn s.mem fb (top - 1)
      let old := pb (n - 1)
      let oc := cb (n - 1)
      let pages := dataOf yb.toNat hkv ++ capsOf yc.toNat hkv
      (∀ p < n, x p ≠ y) → PageAt s g d db y yb yc yr yv yf → (∀ a ∈ pages, POpen s g d a) →
      yb.toNat % 4096 = 0 → yc.toNat % 512 = 0 →
      (op = 2 → mode = true → wlen % 16 ≠ 0 → 1 < ref (n - 1) →
        (∀ a ∈ dataOf old.toNat hkv ++ capsOf oc.toNat hkv, POpen s g d a) →
        Asunder [recOf rp, upTo n lp, headOf h, (List.range n).flatMap fun p => descOf db (x p), descOf db y, upTo top fun j => fb + 4 * j,
          dataOf yb.toNat hkv, capsOf yc.toNat hkv, dataOf old.toNat hkv ++ capsOf oc.toNat hkv] →
        ∃ m, KvDone s g i c m t.spad (pages ++ [h + 24, desc y, desc (x (n - 1)), lp (n - 1), h + 32]) 0x03 1 run ∧
          (∀ k < 512 * hkv, m.read (yb.toNat + 8 * k) = s.mem.read (old.toNat + 8 * k)) ∧
          (∀ k < 64 * hkv, m.read (yc.toNat + 8 * k) = s.mem.read (oc.toNat + 8 * k)) ∧
          m.read (h + 24) = word (top - 1) ∧ m.read (h + 32) = gloved (cow + 1#64) ∧ entryIn m plist (n - 1) (lp (n - 1)) = y ∧
          m.read (desc y) = word (1 + wlen % 16 * 2 ^ 32 + yf / 2 * 2 * 2 ^ 40) ∧
          m.read (desc (x (n - 1))) = word (ref (n - 1) - 1 + valid (n - 1) * 2 ^ 32 + fl (n - 1) * 2 ^ 40)) ∧
      (∀ (key : Nat → Nat → BitVec 64) (ln : Nat), op = 1 → mode = false → wlen % 16 = 0 → n < cap → wlen + 1 < 2 ^ 32 →
        let off := c.aD.data.toNat % 2 ^ 32
        off % 8 = 0 → off + 4096 ≤ 0x200000 → (∀ k < hkv, ∀ j < 16, t.spad.read (off + 128 * k + 8 * j) = gloved (key k j)) →
        (∃ w, VWord s g (plist + BitVec.ofNat 64 (4 * n)) w ln) →
        Asunder [recOf rp, upTo n lp ++ [ln], headOf h, (List.range n).flatMap fun p => descOf db (x p), descOf db y,
          upTo top fun j => fb + 4 * j, dataOf yb.toNat hkv, capsOf yc.toNat hkv] →
        ∃ m, KvDone s g i c m t.spad (tokenAt yb.toNat yc.toNat db y hkv 0 ++ [h + 24, ln, rp 3, rp 2]) 0x00 (wlen + 1) run ∧
          TokenIn m t.spad yb.toNat yc.toNat hkv 0 off key (fun _ _ => 0) (fun _ _ => 0) ∧
          m.read (desc y) = word (1 + 2 ^ 32 + yf / 2 * 2 * 2 ^ 40) ∧ m.read (h + 24) = word (top - 1) ∧
          entryIn m plist n ln = y ∧ m.read (rp 3) = word (n + 1) ∧ m.read (rp 2) = word (clen + (wlen + 1) * 2 ^ 32))) ∧
    (∀ (key : Nat → Nat → BitVec 64) (lo hi : Nat → Nat → Nat), op = 1 → mode = false → wlen % 16 ≠ 0 → ref (n - 1) = 1 → wlen + 1 < 2 ^ 32 →
      let off := c.aD.data.toNat % 2 ^ 32
      let pg := (pb (n - 1)).toNat
      let cp := (cb (n - 1)).toNat
      let sl := wlen % 16
      off % 8 = 0 → off + 4096 ≤ 0x200000 → (∀ k < hkv, ∀ j < 16, t.spad.read (off + 128 * k + 8 * j) = gloved (key k j)) →
      pg % 4096 = 0 → cp % 512 = 0 → (∀ a ∈ dataOf pg hkv ++ capsOf cp hkv, POpen s g d a) →
      (∀ k < hkv, CapIs s.mem (cp + 512 * k) (lo k) (hi k)) → (∀ k ch, lo k ch < 2 ^ 16 ∧ hi k ch < 2 ^ 16) →
      Asunder [recOf rp, upTo n lp, headOf h, (List.range n).flatMap fun p => descOf db (x p), dataOf pg hkv, capsOf cp hkv] →
      ∃ m, KvDone s g i c m t.spad (tokenAt pg cp db (x (n - 1)) hkv sl ++ [rp 3, rp 2]) 0x00 (wlen + 1) run ∧
        TokenIn m t.spad pg cp hkv sl off key lo hi ∧
        m.read (desc (x (n - 1))) = word (1 + (sl + 1) * 2 ^ 32 + fl (n - 1) * 2 ^ 40) ∧
        m.read (rp 3) = word n ∧ m.read (rp 2) = word (clen + (wlen + 1) * 2 ^ 32))

/-- Under the same conditions: kvrecap writes for every page with VALID above 0 and every head the minimum and the
maximum of each channel over its slots below VALID, and counts these pages; capsel writes the list header (LEN, COUNT,
HEAD and the record address) and, where COUNT is at most LMAX, one entry of bound and number for each listed page in
ascending order: the sinks, the window and of the others the N of highest bound (the lower page first among equals),
or with thr those whose bound is a number not below THR; the bound is the once-rounded sum over the channels of the
larger of query times minimum and query times maximum. A length of 0 ends with 0x02, a COUNT above LMAX with 0x89 and
the header alone, a head of HKV or more or a reserved bit with 0x83 and nothing written. Memory is unchanged but for
the caps that kvrecap writes, and the scratchpad but for the list. -/
def Obligations.KeyValueCapEffects : Prop :=
  ∀ (g i : Nat) (c : DCmd) (ra plist : BitVec 64) (pid cap clen wlen h db fb hkv top : Nat) (cow nopg : BitVec 64) (op : Nat) (mode : Bool)
    (rp x lp ref valid fl : Nat → Nat) (pb cb : Nat → BitVec 64) (s : State),
    let t := s.tileAt g
    let d := pid % 32
    let n := (wlen + 15) / 16
    let run := exec (.kvStep g i) s
    c.kind = .kv op mode → KvFirst s g i c → c.aA.data = ra → SeqRecordAt s g ra plist pid cap clen wlen n rp →
    ListAt s g plist n x lp → PoolAt s g pid h db fb hkv top 0 cow nopg →
    (∀ p < n, PageAt s g d db (x p) (pb p) (cb p) (ref p) (valid p) (fl p) ∧ valid p ≤ 16 ∧
      (pb p).toNat % 4096 = 0 ∧ (cb p).toNat % 512 = 0 ∧ ∀ a ∈ dataOf (pb p).toNat hkv ++ capsOf (cb p).toNat hkv, POpen s g d a) →
    (∀ (key : Nat → Nat → Nat → Nat → BitVec 64), op = 7 → mode = false → n ≤ 64 →
      (∀ p < n, ∀ k < hkv, ∀ j < valid p, ∀ q < 16, s.mem.read ((pb p).toNat + 4096 * k + 128 * j + 8 * q) = gloved (key p k j q)) →
      Asunder ([recOf rp, upTo n lp, headOf h, (List.range n).flatMap fun p => descOf db (x p),
          (List.range n).flatMap fun p => dataOf (pb p).toNat hkv] ++ (List.range n).map fun p => capsOf (cb p).toNat hkv) →
      let folded := fun (f : Nat → Nat → Nat) (z p k ch : Nat) => (List.range (valid p)).foldl (fun a j => f a (keyAt (key p k j) ch)) z
      ∃ m, KvDone s g i c m t.spad
          (((List.range n).filter fun p => decide (0 < valid p)).flatMap fun p => capsOf (cb p).toNat hkv) 0x00
          ((List.range n).filter fun p => decide (0 < valid p)).length run ∧
        ∀ p < n, 0 < valid p → ∀ k < hkv, CapIs m ((cb p).toNat + 512 * k) (folded lower 0x7F80 p k) (folded higher 0xFF80 p k)) ∧
    (∀ (w0 w1 : BitVec 64) (qw : Nat → BitVec 64) (lo hi : Nat → Nat → Nat), op = 8 →
      let blk := c.desc.data.toNat % 2 ^ 32
      let out := c.aD.data.toNat % 2 ^ 32
      let lmax := c.aD.data.toNat / 2 ^ 32 % 2 ^ 16
      let sink := w0.toNat % 256
      let win := w0.toNat / 2 ^ 8 % 256
      let keep := w0.toNat / 2 ^ 16 % 2 ^ 16
      let hd := w0.toNat / 2 ^ 32 % 16
      let thr := elemValue .fp32 (w1.toNat % 2 ^ 32)
      let len := if w1.toNat / 2 ^ 32 = 2 ^ 32 - 1 then wlen else min (w1.toNat / 2 ^ 32) wlen
      let pages := (len + 15) / 16
      let done := fun (l : List (Nat × BitVec 64)) st cnt =>
        KvDone s g i c s.mem (l.foldl (fun m p => m.write p.1 (gloved p.2)) t.spad) [] st cnt run
      let header := fun (cnt : Nat) => [(out, BitVec.ofNat 64 (len + cnt * 2 ^ 32 + hd * 2 ^ 60)), (out + 8, ra)]
      blk % 8 = 0 → blk + 272 ≤ 0x200000 → out % 8 = 0 → out + 16 + 8 * lmax ≤ 0x200000 →
      t.spad.read blk = gloved w0 → t.spad.read (blk + 8) = gloved w1 →
      (w0.toNat / 2 ^ 36 ≠ 0 ∨ hkv ≤ hd → done [] 0x83 0) ∧
      (w0.toNat / 2 ^ 36 = 0 → hd < hkv →
        (len = 0 → done (header 0) 0x02 0) ∧
        ((∀ k < 32, t.spad.read (blk + 16 + 8 * k) = gloved (qw k)) → (∀ p < pages, CapIs s.mem ((cb p).toNat + 512 * hd) (lo p) (hi p)) →
          (∀ p ch, lo p ch < 2 ^ 16 ∧ hi p ch < 2 ^ 16) → 0 < len → pages < 2 ^ 28 →
          let bound := fun p => roundNearest .fp32 (exactSum ((List.range 128).map fun ch =>
            let q := elemValue .bf16 (elemAt 16 qw ch)
            (q.mul (elemValue .bf16 (lo p ch))).maxv (q.mul (elemValue .bf16 (hi p ch)))))
          let always := fun p => decide (p < min sink pages ∨ pages - win ≤ p)
          let others := (List.range pages).filter fun p => !always p
          let best := ((rankAll (others.map fun p => (p, bound p))).take keep).map (·.1)
          let listed := (List.range pages).filter fun p => always p || (if mode = true then
            decide (elemValue .fp32 (bound p) ≠ .nan) && decide (thr ≠ .nan) && !(elemValue .fp32 (bound p)).lt thr else best.contains p)
          let entries := (List.range listed.length).map fun j =>
            (out + 16 + 8 * j, BitVec.ofNat 64 (bound (listed.getD j 0) * 2 ^ 32 + listed.getD j 0))
          (listed.length ≤ lmax → done (header listed.length ++ entries) 0x00 listed.length) ∧
          (lmax < listed.length → done (header listed.length) 0x89 listed.length))))

namespace Sys2Proof.Claims

/-- A version table at `va` that tile `g` reaches at physical `pa` with hatrack right `hat` (0 A, 1 L) for a class (R259, R385). -/
def TableAt (s : State) (g cls hat : Nat) (va : BitVec 64) (pa : Nat) : Prop :=
  bit (s.root (g / 16) (s.tileAt g).side) 0 = true ∧ (∃ e, tlbFind (s.tileAt g).side va.toNat (s.tileAt g).tlb = some e ∧
    pageAllows e (s.tileAt g).side true (decide (hat = 1)) false = true ∧ pa = physOf e va) ∧
  (∃ d off, targetOf pa = .hbm d off ∧ (s.hatrackRegion d off).isSome = true) ∧
  accessVerdict s cls (g / 16) pa ⟨true, true, false, hat⟩ = .ok

/-- The doubleword at `off` of a table holds `v` without error. -/
def Holds (s : State) (pa off : Nat) (v : BitVec 64) : Prop := s.mem.read (pa + off) = gloved v

/-- Tile `g`'s cache holds no dirty line. -/
def NoDirty (s : State) (g : Nat) : Prop := ∀ p ∈ (s.tileAt g).cache, p.2.dirty = 0#16

end Sys2Proof.Claims

/-- At task level, whether or not the other engines have reached the word, with a reachable table and words without
error: adopt of a table with no version writes 0 to xD; with no entry held it waits for the switch; with an entry held
and no newer version, or policy 2, it writes the held entry's WBASE. ADOPT_SWITCH_STEP of a waiting adopt with nothing
held, once S is alone and no command reads memory, adds one to the current entry's PIN when that entry is RELEASED,
makes it the held one, sets WVER to its version, drops clean RC lines, writes its WBASE to xD and passes the word. -/
def Obligations.AdoptResult : Prop :=
  ∀ (d a b : BitVec 6) (va x h wb : BitVec 64) (pa : Nat) (s : State),
    let t := s.tile
    (SReady s → t.level = .task → t.getX a.toNat = gloved va → t.getX b.toNat = gloved x →
      canonical va = true → va.toNat % 2048 = 0 → t.adoptWait = none → TableAt s s.cur (classSV t) 0 va pa → Holds s pa 0 h →
      (h.toNat % 2 ^ 32 = 0 → t.adopted.all (fun y => decide (y.1 = va)) = true → exec (.adopt d a b) s = wrote s d 0#64) ∧
      (h.toNat % 2 ^ 32 ≠ 0 → bits h 39 32 ≤ 15 → bit x 1 = false → t.apol.toNat ≤ 2 →
        (t.adopted = none →
          exec (.adopt d a b) s = .next (s.setTile { t with adoptWait := some ⟨t.eS.pos, va, d⟩ })) ∧
        (∀ k, t.adopted = some (va, k) → Holds s pa (64 + 64 * k + 16) wb →
          (BitVec.ofNat 64 (h.toNat % 2 ^ 32) = t.wver ∨ t.apol = 2#64 ∨ (t.apol = 0#64 ∧ bit x 0 = false) →
            exec (.adopt d a b) s = wrote s d wb) ∧
          (BitVec.ofNat 64 (h.toNat % 2 ^ 32) ≠ t.wver → t.apol = 1#64 ∨ (t.apol = 0#64 ∧ bit x 0 = true) →
            exec (.adopt d a b) s = .next (s.setTile { t with adoptWait := some ⟨t.eS.pos, va, d⟩ }))))) ∧
    (∀ (g : Nat) (w : AdoptWait) (e pin : BitVec 64), let t := s.tileAt g
      let c := bits h 39 32
      t.adoptWait = some w → t.works = true → t.eS.pos = w.idx → t.settled = true → t.adopted = none → NoDirty s g →
      (∀ y ∈ t.dcmds, y.readsMemory g = false) → TableAt s g (classSV t) 0 w.va pa → Holds s pa 0 h → c ≤ 15 →
      Holds s pa (64 + 64 * c) e → bits e 39 32 = 2 → Holds s pa (64 + 64 * c + 16) wb → Holds s pa (64 + 64 * c + 8) pin →
      let u : Tile := { t.invalidate (fun _ l => !l.uo) with
        adoptWait := none, adopted := some (w.va, c), wver := BitVec.ofNat 64 (e.toNat % 2 ^ 32) }
      exec (.adoptSwitchStep g) s = .next (State.setTileAt
        { s with mem := s.mem.write (pa + 64 + 64 * c + 8) (gloved (pin + 1#64)), cur := g } g (u.putX w.d.toNat (gloved wb)).passS))

/-- With room, legal operands and no dirty line, relv and trec (1 to 8,192 records in RAW banks) append their command,
trec with WVER and its range. RELV_PORT_STEP of entry k with STATE 1, no command below it, gives k the next version
and the time, STATE 2, retires the old entry when its PIN is 0, makes k current, takes a stamp above every tile's (log
35), acquires and posts the version. TREC_RECORD_WRITE with room, in a ring enabled when the word began, writes the
next record with its version word set, advances WPOS, and ends the word with the last record. -/
def Obligations.ReleaseAndRecordResult : Prop :=
  ∀ (g a b : BitVec 4) (rr : BitVec 2) (e1 : BitVec 1) (va w h : BitVec 64) (tag l pa : Nat) (s : State),
    (EReady .D g s → DRoom s → s.tile.getA b.toNat = gloved w → s.tile.getA a.toNat = gloved va → DescIs w 0 tag 0 0 l →
      (canonical va = true → va.toNat % 2048 = 0 → TableAt s s.cur (classD s.tile) 1 va pa →
        exec (.relv g a b) s = issued s ⟨s.refOf .D, .relv, GWord.zero, gloved va, gloved w, 0#9, [], none, 0#64, [], [], 0, false, true,
          none, tag, true, 0, 0, [], [], false⟩) ∧
      (let sa := va.toNat % 2 ^ 32
       NoRange .D s → 0 < l → l ≤ 8192 → sa % 8 = 0 → sa + 32 * l ≤ 0x200000 → (∀ o < 0x200000, s.tile.bankOf o = 15) →
        exec (.trec g a b rr e1) s = issued s ⟨s.refOf .D, .trec rr.toNat, GWord.zero, gloved va, gloved w, 0#9, [], none, 0#64,
          [(sa, 32 * l)], [], 0, false, false, none, tag, decide (e1 = 1#1), 0, 0, [],
          [s.tile.wver.toNat % 2 ^ 32, 0, 0], false⟩)) ∧
    (∀ (n : Nat) (c : DCmd) (e st p : BitVec 64), let t := s.tileAt n
      let k := c.desc.data.toNat % 2 ^ 32
      let v := h.toNat % 2 ^ 32 + 1
      let o := bits h 39 32
      t.works = true → t.dcmds[0]? = some c → c.kind = .relv → c.aA = gloved va → TableAt s n (classD t) 1 va pa → c.faulted = false → t.holds .D = false →
      t.eq.length < 64 → s.dmode (n / 16) = 0 → k ≤ 15 →
      Holds s pa 0 h → v < 2 ^ 32 → o ≤ 15 → Holds s pa (64 + 64 * k) e → bits e 39 32 = 1 →
      Holds s pa (64 + 64 * o) st → Holds s pa (64 + 64 * o + 8) p →
      let m1 := (s.mem.write (pa + (64 + 64 * k)) (gloved (setBits (setBits e 31 0 v) 39 32 2))).write (pa + (64 + 64 * k + 32))
        (gloved s.ftb)
      let m2 := if v ≠ 1 ∧ p = 0#64 ∧ o ≠ k then m1.write (pa + (64 + 64 * o)) (gloved (setBits st 39 32 3)) else m1
      exec (.relvPortStep n 0) s = .next (State.setTileAt
        { s with mem := m2.write (pa + 0) (gloved (setBits (setBits h 39 32 k) 31 0 v)), cur := n } n { t.invalidate (fun _ l => !l.uo) with
          dcmds := t.dcmds.eraseIdx 0, dRanges := t.dRanges ++ [(c.ref.idx, pa, 2048)], stamp := s.scStamp,
          eq := t.eq ++ [⟨eventWord 3 c.tag 0 v, [(pa, 2048)]⟩] })) ∧
    (∀ (n i ring hp nrec : Nat) (c : DCmd) (base wpos rpos w1 d1 : BitVec 64), let t := s.tileAt n
      let o := c.aA.data.toNat % 2 ^ 32 + 32 * c.prog
      let slot := base.toNat + 32 * (wpos.toNat % nrec)
      let ok := fun (r : Rights) (x : Nat) => accessVerdict s (classD t) (n / 16) x r = .ok
      t.works = true → t.dcmds[i]? = some c → c.kind = .trec ring → c.faulted = false → c.ended = false → t.holds .D = false → t.eq.length < 64 →
      s.dmode (n / 16) = 0 → (∀ x ∈ t.dcmds.take i, x.kind ≠ .trec ring) →
      (c.idx.getD 1 0 = 1 ∨ ∀ k < 16, (s.tileAt (n / 16 * 16 + k)).recording ring = false) →
      mapGet 0#64 (s.dieAt (n / 16)).trecHdr ring = BitVec.ofNat 64 hp → 0 < hp → hp < 2 ^ 64 →
      mapGet false (s.dieAt (n / 16)).trecOff ring = false → ok Rights.amo hp → ok Rights.store slot → ok Rights.store (slot + 24) →
      Holds s hp 8 w1 → (c.idx.getD 1 0 = 1 ∨ bit w1 32 = true) → bits w1 31 0 = nrec → Holds s hp 0 base → Holds s hp 16 wpos → Holds s hp 24 rpos →
      (wpos - rpos).toNat ≠ nrec → o + 32 ≤ 0x200000 → t.spad.read (o + 8) = gloved d1 →
      let cc := c.afterRecord [(slot, 32), (hp + 16, 8)]
      let m := (s.mem.writeList slot [t.spad.read o, gloved (setBits d1 31 0 (c.idx.getD 0 0)), t.spad.read (o + 16),
        t.spad.read (o + 24)]).write (hp + 16) (gloved (wpos + 1#64))
      exec (.trecRecordWrite n i) s = .next (State.setTileAt { s with mem := m, cur := n } n
        (if c.desc.data.toNat % 2 ^ 32 ≤ c.prog + 1 then { t with
            dcmds := t.dcmds.eraseIdx i, dRanges := t.dRanges ++ cc.pranges.map fun x => (c.ref.idx, x),
            eq := if c.ev = true then t.eq ++ [⟨eventWord 3 c.tag 0 (c.count + 1), cc.pranges⟩] else t.eq }
          else { t with dcmds := t.dcmds.set i cc })))

namespace Sys2Proof.Claims

/-- A tile whose Lamport stamp has met another (R109). -/
def stampTo (t : Tile) (x : BitVec 64) : Tile := { t with stamp := if t.stamp.toNat < x.toNat then x else t.stamp }

/-- The way round a ring of `n` from `a` to `b ≠ a`: forward when that is shorter, else backward (R442). -/
def around (n a b : Nat) : Nat := if 2 * ((b + n - a) % n) < n then a + 1 else a + n - 1

/-- The next die in dimension order, X then Y then Z, between two dies of the package (R16, R17, R442). -/
def hop (s : State) (a b : Nat) : Nat :=
  if a % 4 ≠ b % 4 then a - a % 4 + around (4 * max 1 s.nv.extX) (a % 4) (b % 4) % (4 * max 1 s.nv.extX) % 4
  else if a / 4 % 3 ≠ b / 4 % 3 then a - 4 * (a / 4 % 3) + 4 * (around (3 * max 1 s.nv.extY) (a / 4 % 3) (b / 4 % 3) % (3 * max 1 s.nv.extY) % 3)
  else b

/-- Packet `i` at die `k`, with its mark. -/
def moved (s : State) (i : Nat) (p : Packet) (k : Nat) (mark : Bool) : State :=
  { s with net := s.net.set i { p with loc := k, marked := p.marked || mark } }

/-- The results of a request filed in a list (R279). -/
def filed (tag : Nat) (r : RemResult) (l : List RemReq) : List RemReq :=
  l.map fun q => if q.tag = tag ∧ q.result = none then { q with result := some r } else q

/-- A word of a carried format fits a bank (R280). -/
def fits (carried bank : Nat) : Prop := carried = 15 ∨ bank = 15 ∨ carried = bank ∨ carried = 3 ∧ (bank = 7 ∨ bank = 8)

/-- A scratchpad after a packet's words. -/
def landed (m : Mem) (ws : List (Nat × GWord)) : Mem := ws.foldl (fun m w => m.write w.1 w.2) m

/-- The packet of a note of pier `q` of die `d` to its latest return identity. -/
def pierPacket (d : Nat) (q : Pier) (b : PktBody) : Packet := ⟨3, d, q.retG / 16, d, 0#20, false, none, b⟩

/-- The flag writes of a pier and of a further keystone are not held by a port table (R387). -/
def PierFree (s : State) (q : Pier) (more : List HeldKey) : Prop :=
  ∀ h ∈ q.held.toList ++ q.heldNext.toList ++ more, portVerdict s h.tile h.cls true ≠ .held

/-- A pier after its current generation has closed, with nothing held for the next one (R286). -/
def closedPier (q : Pier) : Pier := { q with
  cg := (q.cg + 1) % 256, ca := q.na, nc := q.nn, na := 0, nn := 0, held := none, heldNext := none,
  lastAtt := q.ca, lastRefused := q.refused, refused := q.refusedNext, refusedNext := false }

/-- A pier's current generation under a newer attempt (R286). -/
def restarted (q : Pier) (a : Nat) : Pier := { q with ca := a, nc := 0, held := none, refused := false }

end Sys2Proof.Claims

/-- A handed-over packet enters its first link stamped; ROUTER_FORWARD moves a packet one hop of dimension order, or
over some live link when that one has failed, in package-standby too, and one for a die outside leaves the package, or
in package-standby waits; the discard drops and logs a packet once it is older than 375 units; a link failure loses
only packets on that link. A request arrival performs its load, store or atomic where the port table lets it, else
nothing, and answers on VC1; the response, or 100 microseconds without one, files the result at the tile or in the
request area of its saved image in memory. A posted write's words are written when they fit, and logged 0x0A when the
port table refuses them. An overdue keystone is issued again, the one sent first where several are. Where time passes,
packets that grow older than 375 units meanwhile are discarded and logged (log 6). The model's readings: the Lamport
stamp that an SC operation gives its target (log 35, DEDUCED), and that a keystone issued again waits behind the
packets of its window (log 27, DEDUCED). -/
def Obligations.FabricTransportResult : Prop :=
  (∀ (i : Nat) (mk : Bool) (p : Packet) (s : State), s.net[i]? = some p →
      (p.dst = 24 → exec (.routerForward i mk) s = .next (if s.standby = true then s else { s with net := s.net.eraseIdx i })) ∧
      (p.dst < 24 → p.loc < 24 → p.loc ≠ p.dst → s.age p ≤ 375 →
        (s.linkUp p.loc (hop s p.loc p.dst) = true → exec (.routerForward i mk) s = .next (moved s i p (hop s p.loc p.dst) mk)) ∧
        (s.linkUp p.loc (hop s p.loc p.dst) = false → (∃ k < 24, s.linkUp p.loc k = true) → ∃ k, s.linkUp p.loc k = true ∧
          exec (.routerForward i mk) s = .next { moved s i p k mk with fresh := s.fresh + 1 })) ∧
      (375 < s.age p → exec (.packetAgeDiscard i) s = .next (logError
          ⟨p.loc, 0x05, 15, BitVec.ofNat 64 (s.dieId p.src), BitVec.ofNat 64 p.vc⟩ false { s with net := s.net.eraseIdx i })) ∧
      (s.age p ≤ 375 → s.ftb.toNat + 50000 < 2 ^ 64 → ∃ t, exec (.packetAgeDiscard i) s = .next t ∧
        t.ftb.toNat = (s.ftb.toNat / 128 + (376 - s.age p)) * 128 ∧
        t.net = s.net.filter (fun q => decide (s.age q + (376 - s.age p) ≤ 375)) ∧ t.tiles = s.tiles)) ∧
    (∀ (a b : Nat) (s : State), s.linkUp a b = true → ∃ t, exec (.linkFailure a b) s = .next t ∧
      t.links = s.links ++ [(min a b, max a b)] ∧ t.tiles = s.tiles ∧ t.net.Sublist s.net ∧
      ∀ p ∈ s.net, ¬ ((p.loc = a ∧ s.nextDie a p.dst = b) ∨ (p.loc = b ∧ s.nextDie b p.dst = a)) → p ∈ t.net) ∧
    (∀ (i g tag tile off cls : Nat) (op : RemOp) (sc : Bool) (st : BitVec 64) (p : Packet) (s : State), s.arrived i = some p →
      p.body = .request g tag tile off cls op sc st →
      let u := taken s i p
      let s1 := if sc = true then u.setTileAt tile (stampTo { s.tileAt tile with stamp := s.scStamp } st) else u
      let m := (s.tileAt tile).spad
      let answer := fun (r : RemResult) (s2 : State) =>
        sent s2 ⟨1, p.dst, p.src, p.dst, 0#20, false, none, .response g tag r (s1.tileAt tile).stamp⟩
      let written := fun (w : GWord) => s1.setTileAt tile { s1.tileAt tile with spad := m.write off w }
      let ok := fun (wr : Bool) => portVerdict s tile cls wr = .ok
      (op = .load → ok false → exec (.remoteRequestArrival i) s = .next (answer (.ok (m.read off)) s1)) ∧
      (∀ w, op = .store w → ok true → exec (.remoteRequestArrival i) s = .next (answer (.ok GWord.zero) (written w))) ∧
      (∀ a x y n, op = .amo a (gloved y) → ok false → ok true → m.read off = gloved x → amoNew a x y = some n →
        exec (.remoteRequestArrival i) s = .next (answer (.ok (gloved x)) (written (gloved n)))) ∧
      (∀ e x y, op = .amo (.cas e) (gloved y) → ok false → ok true → m.read off = gloved x → x ≠ e →
        exec (.remoteRequestArrival i) s = .next (answer (.ok (gloved x)) s1)) ∧
      ((∀ b, portVerdict s tile cls b ≠ .held) →
        ((op.rights.1 = true ∧ portVerdict s tile cls false = .refused) ∨ (op.rights.2 = true ∧ portVerdict s tile cls true = .refused)) →
        exec (.remoteRequestArrival i) s = .next (answer .refused s1))) ∧
    (∀ (i g tag : Nat) (r : RemResult) (st : BitVec 64) (p : Packet) (s : State), s.arrived i = some p → p.body = .response g tag r st →
      let t := s.tileAt g
      ((∃ q ∈ t.remote, q.tag = tag ∧ q.result = none) → exec (.remoteResponseArrival i) s =
        .next ((taken s i p).setTileAt g { stampTo t st with remote := filed tag r t.remote })) ∧
      ((∀ q ∈ t.remote, q.tag = tag → q.result ≠ none) → ∃ u, exec (.remoteResponseArrival i) s = .next u ∧
        u.tileAt g = stampTo t st ∧
        ((∀ x ∈ (s.dieAt (g / 16)).homes, x.2 ≠ g) → u.mem = s.mem) ∧
        ∀ k l rest, (s.dieAt (g / 16)).homes = l ++ (k, g) :: rest → (∀ x ∈ l ++ rest, x.2 ≠ g) →
          let base := s.slotAddr (g / 16) k
          (∃ q ∈ imageReqs s.mem base, q.tag = tag ∧ q.result = none) →
          u.mem = putReqs s.mem base (bits (s.mem.read (base + 136)).data 31 0) (filed tag r (imageReqs s.mem base)))) ∧
    (∀ (g i : Nat) (r : RemReq) (s : State), g < 384 → (s.tileAt g).remote[i]? = some r → r.result = none →
      exec (.remoteRequestTimeout g i) s = .next ((s.until (r.sentAt + 100000#64)).setTileAt g
        { s.tileAt g with remote := filed r.tag .timeout (s.tileAt g).remote })) ∧
    (∀ (i tile cls fmt : Nat) (ws : List (Nat × GWord)) (p : Packet) (s : State), s.arrived i = some p →
      p.body = .posted tile cls fmt ws none → let t := s.tileAt tile
      (portVerdict s tile cls true = .ok → ws ≠ [] → (∀ w ∈ ws, fits fmt (t.bankOf w.1)) →
        exec (.postedWriteArrival i) s = .next ((taken s i p).setTileAt tile { t with spad := landed t.spad ws })) ∧
      (portVerdict s tile cls true = .refused → exec (.postedWriteArrival i) s = .next (logErrors (ws.map fun w =>
        ⟨tile / 16, 0x0A, tile % 16, BitVec.ofNat 64 w.1, BitVec.ofNat 64 (s.dieId p.src)⟩) (taken s i p)))) ∧
    (∀ (g w : Nat) (x : Window) (s : State), (s.tileAt g).win? w = some x →
      (∀ p rest, x.outq = p :: rest → exec (.windowPacketHandoff g w) s = .next (sent (s.setTileAt g (withWin (s.tileAt g) w { x with
        outq := rest, injected := (p.generation.map fun k => mapPut x.injected k s.ftb).getD x.injected })) p)) ∧
      (∀ l a rest, x.awaits = l ++ a :: rest → (∀ b ∈ l, a.sentAt.toNat < b.sentAt.toNat) →
          (∀ b ∈ rest, a.sentAt.toNat ≤ b.sentAt.toNat) →
        let u := s.until (a.sentAt + BitVec.ofNat 64 ((s.dieAt (g / 16)).pto + 100000))
        let h := s.tileOf x.target
        exec (.keystoneResendTimeout g w) s = .next (u.setTileAt g (withWin (s.tileAt g) w { x with
          outq := x.outq ++ [winPacket 3 g w ((h.map (· / 16)).getD 24)
            (.keystone x.pier a.gen a.att a.scount (h.getD 0) a.flag (s.ingress g) a.value g w)],
          awaits := x.awaits.map fun b => if b.gen = a.gen then { a with sentAt := u.ftb } else b }))))

/-- A counted packet of the pier's current generation and attempt is written and counted; when it completes the count
of the held keystone the flag is written, the close note sent, and the pier moves on; one of a newer attempt restarts
the count, of the next generation counts there, of a passed attempt is discarded; a refused one only counts. A
keystone is matched, held, overcounted, or answered by a resend request or a repeated close note. A reopen note and
PTO restart the attempt. At the sender a close note from the pier its window is bound to ends the generation with its
record; a resend request replays it under the next attempt or breaks it. A congestion note takes the rate to 7/8, at
least 1/64; 8 quiet microseconds add 1/64, at most 1. The model's readings (log 27, DEDUCED): a new attempt clears the
mark of a refusal, the replay is made at the receipt of the resend request, and the keystone sent again waits in the
queue of its window. -/
def Obligations.PierAndNoteResult : Prop :=
  (∀ (i tile cls fmt k gen att : Nat) (ws : List (Nat × GWord)) (p : Packet) (s : State), s.arrived i = some p →
      p.body = .posted tile cls fmt ws (some (k, gen, att)) → ws ≠ [] →
      let q := s.pierAt p.dst k
      let t := s.tileAt tile
      let u := (taken s i p).setTileAt tile { t with spad := landed t.spad ws }
      let ran := fun (v : State) (x : Pier) => exec (.countedPacketArrival i) s = .next (v.setPier p.dst k x)
      let n := ws.length
      PierFree s q [] → q.ca < 4 → (∀ w ∈ ws, fits fmt (t.bankOf w.1)) →
      (portVerdict s tile cls true = .ok →
        (gen = q.cg → att = q.ca → q.held = none → ran u { q with nc := (q.nc + n) % 2 ^ 24 }) ∧
        (∀ h, gen = q.cg → att = q.ca → q.held = some h → q.heldNext = none → (q.nc + n) % 2 ^ 24 = h.scount →
          portVerdict s h.tile h.cls true = .ok →
          ran (sent (u.setTileAt h.tile { u.tileAt h.tile with spad := (u.tileAt h.tile).spad.write h.off h.value })
            (pierPacket p.dst q (.closeNote q.retG q.retW k q.cg q.ca q.refused))) (closedPier { q with nc := h.scount })) ∧
        (gen = q.cg → att = (q.ca + 1) % 4 ∨ att = (q.ca + 2) % 4 → ran u { restarted q att with nc := n % 2 ^ 24 }) ∧
        (q.cg < 256 → gen = (q.cg + 1) % 256 → att = q.na → q.held = none → ran u { q with nn := (q.nn + n) % 2 ^ 24 }) ∧
        (gen = q.cg → att = (q.ca + 3) % 4 → exec (.countedPacketArrival i) s = .next (taken s i p))) ∧
      (portVerdict s tile cls true = .refused → gen = q.cg → att = q.ca → q.held = none →
        ran (taken s i p) { q with nc := (q.nc + n) % 2 ^ 24, refused := true })) ∧
    (∀ (i k gen att sc tile off cls g w : Nat) (value : GWord) (p : Packet) (s : State), s.arrived i = some p →
      p.body = .keystone k gen att sc tile off cls value g w →
      let q := { s.pierAt p.dst k with retG := g, retW := w }
      let h : HeldKey := ⟨sc, tile, off, cls, value, s.ftb⟩
      let u := (taken s i p).setPier p.dst k q
      let ran := fun (v : State) (x : Pier) => exec (.keystoneArrival i) s = .next (v.setPier p.dst k x)
      let d := (q.nc + 2 ^ 24 - sc) % 2 ^ 24
      PierFree s q [h] → q.ca < 4 → q.held = none → q.heldNext = none → sc < 2 ^ 24 →
      (gen = q.cg → att = q.ca → d = 0 → portVerdict s tile cls true = .ok →
        ran (sent (u.setTileAt tile { s.tileAt tile with spad := (s.tileAt tile).spad.write off value })
          (pierPacket p.dst q (.closeNote g w k q.cg q.ca q.refused))) (closedPier q)) ∧
      (gen = q.cg → att = q.ca → 2 ^ 23 < d → ran u { q with held := some h }) ∧
      (gen = q.cg → att = q.ca → 0 < d → d ≤ 2 ^ 23 →
        ran (sent (logError ⟨p.dst, 0x08, 15, BitVec.ofNat 64 k, BitVec.ofNat 64 q.nc⟩ false u)
          (pierPacket p.dst q (.resend g w k q.cg q.ca))) (restarted q ((q.ca + 1) % 4))) ∧
      (gen = q.cg → att = (q.ca + 1) % 4 ∨ att = (q.ca + 2) % 4 → 0 < sc → sc < 2 ^ 23 →
        ran u { restarted q att with held := some h }) ∧
      (q.cg < 256 → gen = (q.cg + 1) % 256 → att = q.na → ran u { q with heldNext := some h }) ∧
      (gen = q.cg → att = (q.ca + 3) % 4 →
        exec (.keystoneArrival i) s = .next (sent u (pierPacket p.dst q (.resend g w k gen att)))) ∧
      (q.cg < 256 → gen = (q.cg + 255) % 256 → exec (.keystoneArrival i) s =
        .next (sent u (pierPacket p.dst q (.closeNote g w k gen q.lastAtt q.lastRefused))))) ∧
    (∀ (i k gen att g w : Nat) (p : Packet) (s : State), s.arrived i = some p → p.body = .reopen k gen att g w →
      let q := s.pierAt p.dst k
      PierFree s q [] → q.ca < 4 → gen = q.cg → att = (q.ca + 1) % 4 ∨ att = (q.ca + 2) % 4 →
      exec (.reopenNoteArrival i) s = .next ((taken s i p).setPier p.dst k (restarted q att))) ∧
    (∀ (d k : Nat) (h : HeldKey) (s : State), let q := s.pierAt d k
      q.held = some h → exec (.pierPtoExpiry d k) s = .next ((sent (s.until (h.since + BitVec.ofNat 64 (s.dieAt d).pto))
        (pierPacket d q (.resend q.retG q.retW k q.cg q.ca))).setPier d k (restarted q ((q.ca + 1) % 4)))) ∧
    (∀ (i g w k : Nat) (a : Await) (l r : List Await) (c : DCmd) (x : Window) (p : Packet) (s : State), let t := s.tileAt g
      let mine := fun (y : DCmd) => y.window = some (w, a.gen)
      let fin := fun (status count : Nat) (y : Window) => (taken s i p).setTileAt g { withWin t w y with
        dcmds := t.dcmds.filter (fun y => decide (y.window ≠ some (w, a.gen))), eq := t.eq ++ [⟨eventWord 3 c.tag status count, c.pranges⟩] }
      s.arrived i = some p → s.noteMeant g w p.src k = true → t.win? w = some x → x.awaits = l ++ a :: r → (∀ b ∈ l, b.gen ≠ a.gen) →
      (t.dcmds.filter (fun y => decide (mine y)) = [c] → c.kind = .key w → c.ev = true → (∀ y ∈ t.dcmds, y.ended = false ∧ (y.ref.idx = c.ref.idx → y = c)) →
        t.level = .task → t.eq.length < 64 → t.holds .D = false → s.dmode (g / 16) = 0 →
        (∀ refused, p.body = .closeNote g w k a.gen a.att refused → exec (.closeNoteReceipt i) s = .next (fin
          (if refused = true then 0x99 else 0x00) (a.scount % 2 ^ 23 + a.att % 4 * 2 ^ 24)
          { x with awaits := x.awaits.filter fun b => decide (b.gen ≠ a.gen) })) ∧
        (p.body = .resend g w k a.gen a.att → a.vstm = true ∨ a.att = 3 → exec (.resendRequestReceipt i) s = .next (fin
          (if a.vstm = true then 0x94 else 0x95) (a.scount % 2 ^ 23) { x.mark a.gen with
            awaits := x.awaits.filter (fun b => decide (b.gen ≠ a.gen)),
            st := if x.st = .idle then .broken else x.st }))) ∧
      ((∀ y ∈ t.dcmds, mine y → y.kind.moves = false ∧ y.faulted = false) → p.body = .resend g w k a.gen a.att → a.vstm = false → a.att < 3 →
        let u := taken s i p
        let d := u.dieAt (g / 16)
        let h := s.tileOf x.target
        exec (.resendRequestReceipt i) s = .next (State.setTileAt (u.setDieAt (g / 16) { d with replays := d.replays + 1#64 }) g
          (withWin t w { x with
            atts := mapPut x.atts a.gen (a.att + 1),
            outq := x.outq ++ [winPacket 3 g w ((h.map (· / 16)).getD 24)
              (.keystone x.pier a.gen (a.att + 1) a.scount (h.getD 0) a.flag (s.ingress g) a.value g w)],
            awaits := x.awaits.map fun b => if b.gen = a.gen then { a with att := a.att + 1, sentAt := s.ftb } else b })))) ∧
    (∀ (i k d : Nat) (p : Packet) (s : State), let q := fun (x : Rate) => (x.num : Rat) / 2 ^ x.den
      let rate := fun (y : Die) => q (mapGet Rate.full y.rates k)
      (s.arrived i = some p → p.body = .congestion k → ∃ r due', exec (.congestionNoteReceipt i) s = .next ((taken s i p).setDieAt p.dst
        { (taken s i p).dieAt p.dst with rates := r, rateAt := due' }) ∧
          q (mapGet Rate.full r k) = max (7 / 8 * rate (s.dieAt p.dst)) (1 / 64) ∧ mapGet 0#64 due' k = s.ftb) ∧
      (rate (s.dieAt d) < 1 → let due := mapGet 0#64 (s.dieAt d).rateAt k + 8000#64
        ∃ r due', exec (.rateLimitRecovery d k) s = .next ((s.until due).setDieAt d { (s.until due).dieAt d with rates := r, rateAt := due' }) ∧
          q (mapGet Rate.full r k) = min 1 (rate (s.dieAt d) + 1 / 64) ∧ mapGet 0#64 due' k = due))

namespace Sys2Proof.Claims

/-- The physical address of an instruction address of tile `g` (R373, R380): translated at task level, itself at supervisor level. -/
def FetchAddr (s : State) (g : Nat) (a : BitVec 64) (pa : Nat) : Prop :=
  let t := s.tileAt g
  match t.level with
  | .supervisor => pa = a.toNat
  | .task => canonical a = true ∧ bit (s.root (g / 16) t.side) 0 = true ∧ ∃ l, tlbFind t.side a.toNat t.tlb = some l ∧ pageAllows l t.side false false true = true ∧ pa = physOf l a

/-- Engine `e` of tile `g` stands in the text at the word `w`, and fetching it leaves `u` (R93): from the instruction cache, or from a
pair of HBM without error that the cache then keeps. -/
def Fetches (s : State) (g : Nat) (e : Eng) (w : BitVec 32) (u : State) : Prop :=
  let t := s.tileAt g
  let a := (t.eng e).pc
  (t.eng e).exp = none ∧ ∃ pa d off dw, FetchAddr s g a pa ∧ targetOf pa = .hbm d off ∧
    accessVerdict s (classSV t) (g / 16) pa Rights.fetch = .ok ∧
    w = dw.extractLsb' (if a.toNat / 4 % 2 = 1 then 32 else 0) 32 ∧
    ((t.pair pa = some ⟨some dw⟩ ∧ u = { s with cur := g }) ∨
     (t.pair pa = none ∧ s.mem.read pa = gloved dw ∧
      u = State.setTileAt { s with cur := g } g { t with icache := icacheKeep t.icache (pa / 8) ⟨some dw⟩ }))

/-- Tile `g` runs its task and S has passed the word of its engine `e` (R55). -/
def Behind (s : State) (g : Nat) (e : Eng) : Prop :=
  let t := s.tileAt g
  e ≠ .S ∧ t.runs = true ∧ t.level = .task ∧ (t.eng e).pos < t.eS.pos

/-- The engine of tile `g` at the place `x`. -/
def placed (u : State) (g : Nat) (e : Eng) (t : Tile) (x : Engine) : Res := .next (u.setTileAt g (t.setEng e x))

/-- The place after the word of an engine in the text. -/
def after (x : Engine) (pc : BitVec 64) : Engine := ⟨pc, x.pos + 1, none⟩

/-- The table entry at `pa` that a walk of tile `g` may read holds `e` without error (R370, R380). -/
def WalkReads (s : State) (g pa : Nat) (e : BitVec 64) : Prop :=
  s.mem.read pa = gloved e ∧ (∃ d off, targetOf pa = .hbm d off) ∧ accessVerdict s (classSV (s.tileAt g)) (g / 16) pa Rights.load = .ok

/-- A valid entry that names a next table (R372). -/
def isTable (e : BitVec 64) : Prop := bit e 0 = true ∧ bits e 11 1 = 0 ∧ bits e 63 48 = 0

end Sys2Proof.Claims

/-- An engine behind S steps over a word in which it has no part, and S steps over one that is not its own while the
slip window has room. At a joint word it takes the outcome S pushed at its index and goes on at the target, the next
word, the table target or the expansion's first word. At a put to it, with every word below past its trap point, it
takes the operand pushed at its index into the register named. Its own word with a false guard is passed with no
effect, with a true one left to execute; an illegal word traps ILL at its index. ICACHE_FILL keeps the pair without
error, or marks it. The words whose outcome V, M and D take are the branches, jumps, jtab, loop and mcall. -/
def Obligations.EngineEventResult : Prop :=
  (∀ (g : Nat) (e : Eng) (w : BitVec 32) (u s : State), let t := s.tileAt g
      let x := t.eng e
      let v := u.tileAt g
      Fetches s g e w u →
      (wordEngine w ≠ e → (∀ i, decode w = .ok i → wordEngine w = .S → popsOutcome i = false ∧ putEngine i ≠ some e) →
        (Behind s g e → exec (.wordStepOver g e) s = placed u g e v (after x (x.pc + 4#64))) ∧
        (e = .S → t.runs = true → t.level = .task → t.accFault = none → x.pos - t.minPos < t.win.toNat →
          exec (.wordStepOver g e) s = placed u g e v (after x (x.pc + 4#64)))) ∧
      (∀ i o q, Behind s g e → decode w = .ok i → popsOutcome i = true → t.bo e = (x.pos, o) :: q → s.dmode (g / 16) = 0 →
        let r := v.setBo e q
        let off := (w.extractLsb' 0 12).signExtend 64
        (o = .cond true → exec (.jointOutcomePop g e) s = placed u g e r (after x (x.pc + 4#64 * off))) ∧
        (o = .cond false ∨ o = .nextWord → exec (.jointOutcomePop g e) s = placed u g e r (after x (x.pc + 4#64))) ∧
        (∀ a, o = .target a → exec (.jointOutcomePop g e) s = placed u g e r (after x a)) ∧
        (∀ k a b c, o = .call k a b c → exec (.jointOutcomePop g e) s = placed u g e r ⟨x.pc, x.pos + 1, some ⟨k, 0, a, b, c⟩⟩)) ∧
      (∀ d a c q, Behind s g e → x.pos ≤ t.minPos → t.oq e = (x.pos, c) :: q →
        let r := v.setOq e q
        let took := fun (r : Tile) => exec (.operandQueuePop g e) s = placed u g e r (after x (x.pc + 4#64))
        (e = .V → decode w = .ok (.putV d a) → took (if d.toNat < 16 then r.setS d.toNat c else r.setVcr (d.toNat - 16) c)) ∧
        (e = .D → decode w = .ok (.putD d a) → took (if d.toNat < 16 then { r with a := mapSet GWord.zero r.a d.toNat c }
          else r.setDcr (d.toNat - 16) c))) ∧
      (∀ d a c q, Behind s g e → x.pos ≤ t.minPos → t.oq e = (x.pos, c) :: q → e = .M → decode w = .ok (.putM d a) →
        exec (.operandQueuePop g e) s = placed u g e { v.setOq e q with c := mapSet GWord.zero t.c d.toNat c } (after x (x.pc + 4#64))) ∧
      (Behind s g e → x.pos ≤ t.minPos → wordEngine w = e →
        (∀ i, decode w = .ok i → t.predAt (w.toNat / 2 ^ 21 % 16) x.pos = false →
          exec (.guardResolve g e) s = placed u g e v (after x (x.pc + 4#64))) ∧
        (∀ i, decode w = .ok i → t.predAt (w.toNat / 2 ^ 21 % 16) x.pos = true → exec (.guardResolve g e) s = .next u) ∧
        (∀ r, decode w = .error r →
          exec (.guardResolve g e) s = .next (preciseTrap e ⟨cILL, 0, x.pc, none⟩ [] ({ s with cur := g } : State))))) ∧
    (∀ (g pa d off : Nat) (s : State), let t := s.tileAt g
      let a := pa / 8 * 8
      targetOf a = .hbm d off → accessVerdict s (classSV t) (g / 16) a Rights.fetch = .ok →
      (∀ x, s.mem.read a = gloved x → exec (.icacheFill g pa) s = .next (s.setTileAt g { t with icache := icacheKeep t.icache (pa / 8) ⟨some x⟩ })) ∧
      (checkWord (s.mem.read a) = .bad → exec (.icacheFill g pa) s = .next (s.setTileAt g { t with icache := icacheKeep t.icache (pa / 8) ⟨none⟩ }))) ∧
    (∀ (x a b c p : BitVec 6) (i : BitVec 12) (j : BitVec 18),
      [Instr.beq x a i, .bne x a i, .blt x a i, .bge x a i, .bltu x a i, .bgeu x a i, .bp p i, .bpNot p i, .j j, .jal x j,
        .jalr x a i, .jtab x a i, .loop x i, .mcall x a b c].all popsOutcome = true)

/-- TRAP_ENTRY takes a late fault at the lowest word not past its trap point, when that word's engine is there and S
has no remote request under way at it: supervisor level with LATE set, the fault's cause and information, and n that
word's index; an engine that lags at a word it only steps over passes it first. TLB_WALK of a 4 KiB to 256 KiB page
through four tables without error puts its leaf first among at most 256 entries; an invalid entry leaves the state as
it was. TLBINV_COMPLETE takes a handler's word first, else the oldest task's while D may post; the tiles of the
extent, the die or the package, write back their caches, after which none holds a dirty line, and drop the covered
entries; a task's word posts the record with the number of dies, a handler's is passed. -/
def Obligations.LateTrapAndTranslationResult : Prop :=
  (∀ (g : Nat) (i : TrapInfo) (f : WordRef) (e : Eng) (w : BitVec 32) (u s : State), let t := s.tileAt g
      let x := t.eng e
      let z : State := { s with cur := g }
      t.late = some (i, f) → t.works = true → e = t.lagging → (e, x.pos) ∉ t.sending → (∀ r ∈ t.remote, r.eng = .S → r.idx ≠ x.pos) →
      Fetches s g e w u →
      ((t.eng (wordEngine w)).pos = x.pos → i.cause ≠ cGLOVE → i.cause ≠ cIGLOVE → i.cause ≠ cKVSHARE → AreaFits z → s.dmode (g / 16) = 0 →
        ∃ v, exec (.trapEntry g) s = .next v ∧ v.tile.late = none ∧
          EnteredSupervisor true z v (BitVec.ofNat 64 (i.cause % 256 + i.sub % 256 * 256)) i.info x) ∧
      ((t.eng (wordEngine w)).pos ≠ x.pos → e ≠ .S → ∀ k, decode w = .ok k →
        (popsOutcome k = true → exec (.trapEntry g) s = exec (.jointOutcomePop g e) s) ∧
        (putEngine k = some e → exec (.trapEntry g) s = exec (.operandQueuePop g e) s) ∧
        (popsOutcome k = false → putEngine k ≠ some e → exec (.trapEntry g) s = exec (.wordStepOver g e) s))) ∧
    (∀ (g : Nat) (va root e3 e2 e1 e0 : BitVec 64) (s : State), let t := s.tileAt g
      let entry := fun (table : BitVec 64) (l : Nat) => bits table 47 12 * 4096 + 8 * (va.toNat / 2 ^ (12 + 9 * l) % 512)
      let z := 2 ^ (12 + 2 * bits e0 11 9)
      inAperture va = false → va.toNat < 2 ^ 47 ∨ 2 ^ 64 - 2 ^ 47 ≤ va.toNat →
      root = s.dieReg (g / 16) (if t.side = true then 8 else 0) → bit root 0 = true →
      WalkReads s g (entry root 3) e3 → isTable e3 → WalkReads s g (entry e3 2) e2 → isTable e2 →
      WalkReads s g (entry e2 1) e1 → isTable e1 → WalkReads s g (entry e1 0) e0 →
      (bit e0 0 = false → exec (.tlbWalk g va) s = .next s) ∧
      (bit e0 0 = true → bit e0 1 = true → bits e0 11 9 ≤ 3 → bits e0 63 48 = 0 → bits e0 8 7 ≤ 2 →
        bits e0 47 12 * 4096 % z = 0 → bits e0 47 12 * 4096 / 2 ^ 42 ≠ 32 →
        exec (.tlbWalk g va) s = .next (s.setTileAt g { t with tlb := (⟨va.toNat / z * z, z, bits e0 47 12 * 4096, bits e0 8 7,
          bit e0 6, bit e0 5, bit e0 4, bit e0 3, bit e0 2, t.side⟩ :: t.tlb).take 256 }))) ∧
    (∀ (g : Nat) (x : TlbInv) (rest : List TlbInv) (s : State), let t := s.tileAt g
      let u := s.performStores (g / 16) x
      let gone := fun (h : Nat) (l : List TlbEntry) => if x.pkg = true ∨ h / 16 = g / 16 then
        (if x.all = true then [] else l.filter fun y => decide (x.va.toNat < y.base ∨ y.base + y.bytes ≤ x.va.toNat)) else l
      let left : Tile := { u.tileAt g with tlbinvs := rest, tlb := gone g t.tlb }
      let applied := fun v : State => (∀ h, h ≠ g → v.tileAt h = { u.tileAt h with tlb := gone h (s.tileAt h).tlb }) ∧ v.mem = u.mem ∧
        v.dies = s.dies ∧ ∀ h, x.pkg = true ∨ h / 16 = g / 16 → NoDirty v h
      t.cut = none →
      (t.tlbinvs = x :: rest → t.tlbinvs.find? (·.sup) = none → t.holds .D = false → t.eq.length < 64 → s.dmode (g / 16) = 0 →
        ∃ v, exec (.tlbinvComplete g) s = .next v ∧
          v.tileAt g = { left with eq := t.eq ++ [⟨eventWord 3 x.tag 0 (if x.pkg = true then 24 else 1), []⟩] } ∧ applied v) ∧
      (t.tlbinvs.find? (·.sup) = some x → rest = t.tlbinvs.erase x →
        ∃ v, exec (.tlbinvComplete g) s = .next v ∧ v.tileAt g = left.passS ∧ applied v))

namespace Sys2Proof.Claims

/-- A tile that has just started record `r` as member `k` of a gang, or alone, under the split word `ws` (R29 to R31). -/
def Started (t u : Tile) (r : Rec) (ws : BitVec 64) (clear : Bool) (gang : Option Nat) (k : Nat) (now : BitVec 64) : Prop :=
  u.run = .running ∧ u.level = .task ∧ u.task = some ⟨r, gang, k, bits r.code 1 0⟩ ∧ u.since = now ∧
  (∀ e, u.eng e = ⟨r.code &&& ~~~3#64, 0, none⟩) ∧
  u.getX 2 = gloved r.frame ∧ u.getX 3 = gloved r.wid ∧ u.getX 4 = gloved r.join ∧ (∀ n, n < 2 ∨ 4 < n → u.getX n = GWord.zero) ∧
  u.v = [] ∧ u.sreg = [] ∧ u.m = [] ∧ u.c = [] ∧ u.a = [] ∧ u.vcr = [] ∧ u.dcr = [] ∧ u.preds = [] ∧ u.rq = [] ∧ u.eq = [] ∧
  u.oqV = [] ∧ u.oqM = [] ∧ u.oqD = [] ∧ u.boV = [] ∧ u.boM = [] ∧ u.boD = [] ∧ u.cstore = [] ∧ u.wins = [] ∧ u.adopted = none ∧
  u.win = 256#64 ∧ u.apol = 0#64 ∧ u.wver = 0#64 ∧ u.ufv = 0#64 ∧ u.kvctl = 0#64 ∧ u.bfmt = [] ∧ u.widsplit = ws ∧
  u.nrsV = 0#64 ∧ u.nrsM = 0#64 ∧ u.nrsD = 0#64 ∧ u.spad = (if clear = true then Mem.empty else t.spad) ∧
  u.acc = (if clear = true then [] else t.acc) ∧ u.cache = t.cache.filterMap (fun p => if p.2.uo = true then some p else p.2.keepDirty.map fun l => (p.1, l)) ∧
  u.tlb = t.tlb ∧ u.stamp = t.stamp ∧ u.side = t.side ∧ u.tvec = t.tvec ∧ u.tsb = t.tsb ∧ u.pwin = t.pwin

/-- No unit of a die is stranded: gangs have a whole cluster of their side there, resume units a tile (R410, R416). -/
def Homed (s : State) (d : Nat) : Prop :=
  ∀ u ∈ (s.dieAt d).units, (u.gang = true → s.wholeCluster d u.side = true) ∧ (u.gang = false → u.slots ≠ [] → s.hasTile d u.side = true)

/-- No member of tile `g`'s gang waits for its other members' images (R403). -/
def GangDone (s : State) (g : Nat) : Prop :=
  ∀ k n, (s.tileAt g).task = some k → k.gang = some n → mapGet [] (s.dieAt (g / 16)).gangWait n = []

/-- A unit of records at a die's queues, a gang's four or one. -/
def QueuedUnit (x : Die) (side : Bool) (level arrival : Nat) (rs : List Rec) (gang : Bool) (ws : BitVec 64) : Prop :=
  ∃ u ∈ x.units, u.side = side ∧ u.level = level ∧ u.arrival = arrival ∧ u.recs = rs ∧ u.slots = [] ∧ u.gang = gang ∧ u.widsplit = ws

/-- A unit of one record at a die's queues. -/
def Queued (x : Die) (side : Bool) (level arrival : Nat) (r : Rec) (ws : BitVec 64) : Prop := QueuedUnit x side level arrival [r] false ws

/-- The next arrival count of a side. -/
def arrivals (x : Die) (side : Bool) : Nat := if side = true then x.arrivalL else x.arrivalA

/-- Four doublewords of memory hold a record without error. -/
def RecordAt (s : State) (pa : Nat) (r : Rec) : Prop :=
  s.mem.read pa = gloved r.code ∧ s.mem.read (pa + 8) = gloved r.frame ∧ s.mem.read (pa + 16) = gloved r.join ∧
  s.mem.read (pa + 24) = gloved r.wid

/-- The records of a spilled unit without error, from its place in its ring on (R393): a gang's four, or one. -/
def SpillAt (s : State) (d : Nat) (n : SpillNote) (rs : List Rec) : Prop :=
  rs.length = (if n.gang = true then 4 else 1) ∧ ∀ k r, rs[k]? = some r → RecordAt s (s.spillAddr d n.ring (n.j + k)) r

/-- Record `i` of a launch header (R44, R45), its WID as the header's fields give it. -/
def launched (h : List (BitVec 64)) (i : Nat) : Rec :=
  ⟨h.getD 0 0#64 ||| BitVec.ofNat 64 (bits (h.getD 6 0#64) 34 33), h.getD 1 0#64 + BitVec.ofNat 64 (i * bits (h.getD 6 0#64) 31 0),
    h.getD 7 0#64, hdrWid h i⟩

end Sys2Proof.Claims

/-- TASK_START on a tile whose turn it is (no idle tile of its side has a lower index), no gang due to pop, takes the
offered record out of its queue and puts the tile into the start state: every engine at CODE, x2 to x4 from the
record, all else of a task at its reset value, clean words of RC lines dropped. GANG_START does so on the four tiles
of the reserved cluster and ends the reservation. The expander enqueues a die's own unit with its arrival count and
passes over another die's. A refill moves the oldest spilled record, or gang of four, into the pool with its arrival
count and advances HEAD; aging moves the head of a level that has seen AGE pops, or the gang that has the level's
reservation, one level up with a new arrival count. -/
def Obligations.TaskStartResult : Prop :=
  (∀ (g l : Nat) (u : QUnit) (r : Rec) (s : State), let t := s.tileAt g
      let x := s.dieAt (g / 16)
      s.turn g = true → (∀ b, x.gangHead b = none) → x.offer t.side = some (l, .pool u) →
      u.slots = [] → u.recs = [r] → ∃ v, exec (.taskStart g) s = .next v ∧
        Started t (v.tileAt g) r u.widsplit u.spclr none 0 s.ftb ∧ (v.dieAt (g / 16)).occ t.side + 1 = x.occ t.side ∧
        v.mem = s.mem ∧ ∀ h, h ≠ g → v.tileAt h = s.tileAt h) ∧
    (∀ (d c : Nat) (u : QUnit) (s : State), let x := s.dieAt d
      d < 24 → c < 4 → s.reservedUnit d c u.side = some u → s.reservedUnit d c (!u.side) = none → x.gangHead (!u.side) = none →
      u.slots = [] → u.recs.length = 4 → s.clusterFree d c = true → ∃ v, exec (.gangStart d c) s = .next v ∧
        (∀ k < 4, let g := 16 * d + 4 * c + k
          Started (s.tileAt g) (v.tileAt g) (u.recs.getD k ⟨0#64, 0#64, 0#64, 0#64⟩) u.widsplit u.spclr
            (some (2 * u.arrival + if u.side = true then 3 else 2)) k s.ftb) ∧
        (v.dieAt d).reserved u.side = none ∧ (v.dieAt d).occ u.side + 4 = x.occ u.side ∧ v.mem = s.mem) ∧
    (∀ (d i : Nat) (e : Expand) (s : State), let x := s.dieAt d
      let side := bit (e.hdr.getD 6 0#64) 32
      let gang := bit (e.hdr.getD 6 0#64) 35
      let n := if gang = true then 4 else 1
      let rest := if hdrCount e.hdr / n ≤ e.next + 1 then x.launches.eraseIdx i else x.launches.set i { e with next := e.next + 1 }
      s.frozen = false → s.fatal = false → x.nextLaunch = some (i, e) →
      (hdrDie e.hdr e.dies e.next ≠ d → exec (.expanderEnqueue d) s = .next (s.setDieAt d { x with launches := rest })) ∧
      (hdrDie e.hdr e.dies e.next = d → (gang = true → s.wholeCluster d side = true) → ∃ v, exec (.expanderEnqueue d) s = .next v ∧
        (v.dieAt d).launches = rest ∧ (v.dieAt d).occ side = x.occ side + n ∧ arrivals (v.dieAt d) side = arrivals x side + 1 ∧
        (∃ u ∈ (v.dieAt d).units, u.side = side ∧ u.level = bits (e.hdr.getD 6 0#64) 34 33 ∧ u.arrival = arrivals x side ∧
          u.recs = (List.range n).map (fun j => launched e.hdr (n * e.next + j)) ∧ u.slots = [] ∧ u.gang = gang ∧
          u.widsplit = e.hdr.getD 2 0#64 ∧ u.spclr = bit (e.hdr.getD 6 0#64) 45) ∧ v.tiles = s.tiles ∧ v.mem = s.mem)) ∧
    (∀ (d : Nat) (side : Bool) (n : SpillNote) (rs : List Rec) (s : State), let x := s.dieAt d
      x.occ side < 3840 → x.oldestSpill side = some n → SpillAt s d n rs →
      ∃ v, exec (.spillRefill d side) s = .next v ∧ QueuedUnit (v.dieAt d) side (n.ring % 4) n.arrival rs n.gang n.widsplit ∧
        (v.dieAt d).occ side = x.occ side + rs.length ∧ (v.dieAt d).spills.length + 1 = x.spills.length ∧
        v.dieReg d (0x20110 + 32 * n.ring) = s.dieReg d (0x20110 + 32 * n.ring) + BitVec.ofNat 64 rs.length ∧ v.mem = s.mem ∧ v.tiles = s.tiles) ∧
    (∀ (d l : Nat) (side : Bool) (u : QUnit) (rs : List Rec) (n : SpillNote) (s : State), let x := s.dieAt d
      let age := bits (s.dieReg d 0x20010) 15 0
      1 ≤ l → l ≤ 3 →
      (∀ c, x.reservedAt side l = some u → x.reserved side = some (u.arrival, c) → age ≤ u.aged → u.promoted < 3 →
        ∃ v, exec (.agingPromotion d side l) s = .next v ∧ (v.dieAt d).reserved side = some (arrivals x side, c) ∧
          (∃ q ∈ (v.dieAt d).units, q.side = side ∧ q.gang = true ∧ q.level = l - 1 ∧ q.arrival = arrivals x side ∧ q.recs = u.recs ∧
            q.slots = u.slots) ∧ (v.dieAt d).occ side = x.occ side ∧ v.mem = s.mem ∧ v.tiles = s.tiles) ∧
      (x.reservedAt side l = none →
      (x.head side l = some (.pool u) → u.slots = [] → age ≤ u.aged → u.promoted < 3 →
        ∃ v, exec (.agingPromotion d side l) s = .next v ∧ QueuedUnit (v.dieAt d) side (l - 1) (arrivals x side) u.recs u.gang u.widsplit ∧
          (v.dieAt d).occ side = x.occ side ∧ arrivals (v.dieAt d) side = arrivals x side + 1 ∧ v.mem = s.mem ∧ v.tiles = s.tiles) ∧
      (x.head side l = some (.ring n) → age ≤ n.aged → n.promoted < 3 → x.occ side + rs.length ≤ 4096 → SpillAt s d n rs →
        ∃ v, exec (.agingPromotion d side l) s = .next v ∧ QueuedUnit (v.dieAt d) side (l - 1) (arrivals x side) rs n.gang n.widsplit ∧
          (v.dieAt d).occ side = x.occ side + rs.length ∧ (v.dieAt d).spills.length + 1 = x.spills.length ∧ v.mem = s.mem ∧ v.tiles = s.tiles)))

/-- Once tail has been performed and nothing of the task is under way (no packet waiting, no dirty line, no table
held), no image of its gang waits for it and no unit of the die is stranded, TASK_END leaves the tile idle without a
task, its task state at reset and its scratchpad and accumulators as they are; a pending request ends with it, and
leaves the tile stopped if it is firmware's; a JOIN other than 0 adds a join step on the die. JOIN_STEP decrements a
counter above 1; at 1 it writes 0 and enqueues the completion record on the die with the side and split word of the
task; at 0 it logs 0x02, and a counter that the task's side cannot reach any more logs 0x03 with what its walk logged
(the model's choice, log 29), and memory is unchanged. -/
def Obligations.TaskEndAndJoinResult : Prop :=
  (∀ (g : Nat) (s : State), let t := s.tileAt g
      let r := t.record
      t.ending = true → t.run = .running → t.cut = none → t.finished = true → t.adopted = none → NoDirty s g →
      (∀ w ∈ t.wins, w.2.outq = []) → GangDone s g → Homed s (g / 16) → ∃ v, exec (.taskEnd g) s = .next v ∧ let u := v.tileAt g
        u.run = .idle ∧ u.task = none ∧ u.ending = false ∧ u.x = [] ∧ u.v = [] ∧ u.wins = [] ∧ u.eq = [] ∧ u.win = 256#64 ∧
        u.spad = t.spad ∧ u.acc = t.acc ∧ u.tlb = t.tlb ∧ u.stamp = t.stamp ∧ u.side = t.side ∧ u.pre = none ∧
        u.brimStop = t.brimStop ∧ (t.pre = none → u.preq = t.preq ∧ u.fwStop = t.fwStop) ∧
        (∀ p, t.pre = some p → u.preq = 0#64 ∧ u.fwStop = (t.fwStop || p.fw)) ∧
        (v.dieAt (g / 16)).joins =
          (if r.join = 0#64 then (s.dieAt (g / 16)).joins else (s.dieAt (g / 16)).joins ++ [⟨r.join, t.side, t.widsplit, g⟩]) ∧
        v.mem = s.mem ∧ ∀ h, h ≠ g → v.tileAt h = s.tileAt h) ∧
    (∀ (d pa : Nat) (j : JoinWork) (rest : List JoinWork) (c : BitVec 64) (s : State), let x := s.dieAt d
      let cls := if j.side = true then 1 else 0
      let z := s.setDieAt d { x with joins := rest }
      x.joins = j :: rest →
      (∀ logs, s.reach d j.side cls j.join Rights.store = .bad logs →
        exec (.joinStep d) s = .next (logError ⟨d, 0x03, 15, j.join, j.join⟩ false (logErrors logs z))) ∧
      (s.reach d j.side cls j.join Rights.store = .at pa [] → s.mem.read pa = gloved c →
        (c = 0#64 → exec (.joinStep d) s = .next (logError ⟨d, 0x02, 15, j.join, 0#64⟩ false z)) ∧
        (1 < c.toNat → exec (.joinStep d) s = .next { z with mem := s.mem.write pa (gloved (c - 1#64)) }) ∧
        (∀ (r : Rec) (ps : Nat → Nat), c = 1#64 → let y : State := { z with mem := s.mem.write pa (gloved 0#64) }
          (∀ i < 4, y.reach (j.g / 16) j.side cls (j.join + 8#64 * BitVec.ofNat 64 (i + 1)) Rights.load = .at (ps i) []) →
          y.mem.read (ps 0) = gloved r.code → y.mem.read (ps 1) = gloved r.frame → y.mem.read (ps 2) = gloved r.join →
          y.mem.read (ps 3) = gloved r.wid → x.occ j.side < 4096 → (∀ n ∈ s.host.joins, n.join ≠ j.join) →
          ∃ v, exec (.joinStep d) s = .next v ∧ v.mem = y.mem ∧ (v.dieAt d).joins = rest ∧
            Queued (v.dieAt d) j.side (bits r.code 1 0) (arrivals x j.side) r j.widsplit ∧
            (v.dieAt d).occ j.side = x.occ j.side + 1 ∧ v.tiles = s.tiles)))

namespace Sys2Proof.Claims

/-- Tile `g` under a request of source `src` raised at `now` (R349, R399): the polite stage ends PWIN cycles later. -/
def requested (t : Tile) (src : Nat) (evict : Bool) (now : BitVec 64) : Tile :=
  { t with pre := some ⟨now + BitVec.ofNat 64 (bits t.pwin 19 0), evict, decide (src = 2)⟩, preq := BitVec.ofNat 64 (2 * src + 1) }

/-- No tile of die `d` has popped a resume record and waits for responses (R406). -/
def NoneResuming (s : State) (d : Nat) : Prop := ∀ g, g / 16 = d → (s.tileAt g).resuming = none

/-- Tile `g` runs no member of a gang. -/
def Single (s : State) (g : Nat) : Prop := ∀ c, (s.tileAt g).task = some c → c.gang = none

/-- The header and register areas of the image at `base` hold the engines and the x and v registers of tile `t` (R404, R405). -/
def ImageHolds (m : Mem) (base : Nat) (t : Tile) : Prop :=
  (∀ k < 4, let e := t.eng (Eng.ofTag k)
    m.read (base + 40 + 8 * k) = gloved (BitVec.ofNat 64 e.pos) ∧ m.read (base + 72 + 8 * k) = gloved e.pc) ∧
  (∀ r < 64, m.read (base + 0x1000 + 8 * r) = t.getX r) ∧ ∀ i < 4096, m.read (base + 0x2000 + 8 * i) = mapGet GWord.zero t.v i

/-- What a tile has from the image at `base` of memory `m`: its engines from the header, x and v registers from their areas, and the rest of
its task as the areas give it (R404 to R406). -/
def FromImage (m : Mem) (base : Nat) (now : BitVec 64) (t : Tile) : Prop :=
  let i := taskOf m base now
  (∀ k < 4, (t.eng (Eng.ofTag k)).pos = (m.read (base + 40 + 8 * k)).data.toNat ∧ (t.eng (Eng.ofTag k)).pc = (m.read (base + 72 + 8 * k)).data) ∧
  (∀ r, 1 ≤ r → r < 64 → t.getX r = m.read (base + 0x1000 + 8 * r)) ∧
  t.run = .running ∧ t.level = .task ∧ t.v = i.v ∧ t.sreg = i.sreg ∧ t.m = i.m ∧ t.c = i.c ∧ t.a = i.a ∧ t.vcr = i.vcr ∧ t.dcr = i.dcr ∧
  t.preds = i.preds ∧ t.eq = i.eq ∧ t.rq = i.rq ∧ t.nest = i.nest ∧ t.remote = i.remote ∧ t.spad = i.spad ∧ t.cstore = i.cstore ∧
  t.win = i.win ∧ t.apol = i.apol ∧ t.wver = i.wver ∧ t.ufv = i.ufv ∧ t.kvctl = i.kvctl ∧ t.bfmt = i.bfmt ∧ t.adopted = i.adopted ∧
  t.preq = 0#64 ∧ t.cache = [] ∧ t.tlb = [] ∧ t.resuming = none

/-- The header of an image in a slot that this package's firmware can restore (R405, R407). -/
def ImageHeader (s : State) (base : Nat) : Prop :=
  bits (s.mem.read base).data 31 0 = 0x0F24C7E1 ∧ bits (s.mem.read base).data 47 32 = Config.abi.toNat

/-- A resume unit of one image at a die's queues. -/
def Resumes (x : Die) (side : Bool) (level k arrival : Nat) : Prop :=
  ∃ u ∈ x.units, u.side = side ∧ u.level = level ∧ u.arrival = arrival ∧ u.recs = [] ∧ u.slots = [k] ∧ u.gang = false

end Sys2Proof.Claims

/-- FIRMWARE_PREEMPT gives every selected running tile PREQ with SRC 2 and its polite stage, and stops every selected
idle one; REL releases them. SCHED_PREEMPT_REQUEST, its conditions met, raises SRC 0 on the tile it picks when PQT has
passed. FORCED_CUT at the end of the polite stage stops the tile with a free slot in CTXB. IMAGE_SAVE_COMPLETE frees
the tile, writes the task's engines, registers and the number of its unanswered requests to the image in memory and
queues a resume record, or with EVICT an export. CONTEXT_RESTORE on a tile whose turn it is pops the record; with
every response in the image it reads the task back from memory and frees the slot, else the tile waits for them; a
wrong header halts the tile. RINJ queues the image in its slot (a gang's first member waits for the others); EXPQ
answers and frees the oldest exported slot. Firmware's steps are those of a package not held in reset by EXTEST. The
order of words inside the image's areas, which taskOf reads back, and the die's note of the tile an image came from
are the model's own (log 10, DESIGN CHOICE). -/
def Obligations.PreemptionResult : Prop :=
  (∀ (d : Nat) (w : BitVec 64) (s : State), d < 24 → s.jtag ≠ .extest → NoneResuming s d →
      (bit w 16 = true → bit w 18 = false → (∀ k < 16, bit w k = true → Single s (16 * d + k)) →
        ∃ v, exec (.firmwarePreempt d w) s = .next v ∧ v.mem = s.mem ∧ v.ftb = s.ftb ∧
          (∀ g, g / 16 = d → bit w (g % 16) = true → let t := s.tileAt g
            (t.run = .idle → v.tileAt g = { t with fwStop := true }) ∧
            (t.run = .running → t.pre = none → v.tileAt g = requested t 2 (bit w 17) s.ftb)) ∧
          ∀ g, (g / 16 ≠ d ∨ bit w (g % 16) = false) → v.tileAt g = s.tileAt g) ∧
      (bit w 18 = true → bit w 16 = false → ∃ v, exec (.firmwareStopRelease d w) s = .next v ∧ v.dies = s.dies ∧ v.mem = s.mem ∧
        ∀ g, v.tileAt g = if g / 16 = d ∧ bit w (g % 16) = true then { s.tileAt g with fwStop := false } else s.tileAt g)) ∧
    (∀ (d g : Nat) (side : Bool) (due : BitVec 64) (s : State), let pqt := bits (s.dieReg d 0x20018) 19 0
      let gs := s.sideTiles d side
      pqt ≠ 0 → (∀ h ∈ gs, (s.tileAt h).pre = none) → NoneResuming s d → 16 < bits (s.dieReg d 0x20030) 10 0 - (s.dieAt d).slots.length →
      s.frozen = false → s.starving d side = some due → (gs.find? fun h => gs.all fun k => s.takenBefore h k) = some g →
      (s.tileAt g).run = .running → Single s g → ∃ v, exec (.schedPreemptRequest d side) s = .next v ∧
        let u := s.until (due + BitVec.ofNat 64 (1000 * pqt))
        v.ftb = u.ftb ∧ v.tileAt g = requested (s.tileAt g) 0 false u.ftb ∧ ∀ h, h ≠ g → v.tileAt h = s.tileAt h) ∧
    (∀ (g k : Nat) (p : PreReq) (s : State), let t := s.tileAt g
      t.pre = some p → t.run = .running → t.cut = none → t.level = .task → t.sending = [] → (∀ w ∈ t.wins, w.2.outq = []) →
      NoDirty s g → s.freeSlot (g / 16) = some k → ∃ v, exec (.forcedCut g) s = .next v ∧ v.ftb = (s.until p.endAt).ftb ∧
        v.mem = (s.until p.endAt).mem ∧ (v.dieAt (g / 16)).slots = (s.dieAt (g / 16)).slots ++ [k] ∧
        v.tileAt g = { t with
          cut := some ⟨some k⟩, ending := false, attg := none, adoptWait := none, spanWait := none,
          dcmds := (t.dcmds.filter fun c => decide (c.ref.idx < t.eD.pos)).map DCmd.unbegun,
          nest := t.nest.map fun n => { n with hold := none },
          ctxb := BitVec.ofNat 64 (bits (s.dieReg (g / 16) 0x20028) 47 16 * 2 ^ 16 + k * 0x280000) }) ∧
    (∀ (g k : Nat) (p : PreReq) (c : CurTask) (s : State), let t := s.tileAt g
      let base := bits (s.dieReg (g / 16) 0x20028) 47 16 * 2 ^ 16 + k * 0x280000
      let x := s.dieAt (g / 16)
      t.cut = some ⟨some k⟩ → t.pre = some p → t.task = some c → c.gang = none → (∃ d off, targetOf base = .hbm d off) →
      (t.v.map (·.1)).Nodup → (∀ q ∈ t.v, q.1 < 4096) → Homed s (g / 16) → s.hasTile (g / 16) t.side = true →
      (p.evict = false → x.occ t.side + 1 ≤ 4112) → ∃ v, exec (.imageSaveComplete g) s = .next v ∧
        (v.tileAt g).run = .idle ∧ (v.tileAt g).task = none ∧ (v.tileAt g).cut = none ∧ (v.tileAt g).pre = none ∧ (v.tileAt g).preq = 0#64 ∧
        (v.tileAt g).fwStop = (t.fwStop || p.fw) ∧ ImageHeader v base ∧ ImageHolds v.mem base t ∧
        v.mem.read (base + 8) = gloved c.rcd.code ∧ v.mem.read (base + 16) = gloved c.rcd.frame ∧
        v.mem.read (base + 24) = gloved c.rcd.join ∧ v.mem.read (base + 32) = gloved c.rcd.wid ∧
        v.mem.read (base + 136) = gloved (BitVec.ofNat 64 ((t.remote.filter fun r => r.result.isNone).length % 2 ^ 32)) ∧ mapGet 0 (v.dieAt (g / 16)).homes k = g ∧
        (p.evict = true → (v.dieAt (g / 16)).expq = x.expq ++ [k]) ∧
        (p.evict = false → Resumes (v.dieAt (g / 16)) t.side c.level k (arrivals x t.side))) ∧
    (∀ (g l k : Nat) (u : QUnit) (s : State), let t := s.tileAt g
      let x := s.dieAt (g / 16)
      let base := bits (s.dieReg (g / 16) 0x20028) 47 16 * 2 ^ 16 + k * 0x280000
      let i := taskOf s.mem base s.ftb
      let popped := t.resuming = none ∧ s.turn g = true ∧ (∀ b, x.gangHead b = none) ∧ x.offer t.side = some (l, .pool u) ∧ u.recs = []
      u.slots = [k] → u.gang = false → popped ∨ (t.resuming = some (k, u) ∧ t.run = .idle) →
      (s.imageReady (g / 16) k = false → ∃ v, exec (.contextRestore g) s = .next v ∧ v.mem = s.mem ∧ (v.tileAt g).resuming = some (k, u) ∧
        (v.tileAt g).run = t.run ∧ (v.dieAt (g / 16)).slots = x.slots) ∧
      (s.imageReady (g / 16) k = true → NoDirty s g →
        (ImageHeader s base → i.wins = [] → x.comms = [] → (∀ q ∈ i.dcmds, q.ended = false ∧ ∀ r, q.kind ≠ .coll r) →
          ∃ v, exec (.contextRestore g) s = .next v ∧ v.mem = s.mem ∧ FromImage s.mem base s.ftb (v.tileAt g) ∧
            (v.tileAt g).side = t.side ∧ (v.dieAt (g / 16)).slots = x.slots.erase k) ∧
        (¬ ImageHeader s base → ∃ v, exec (.contextRestore g) s = .next v ∧ (v.tileAt g).run = .halted ∧
          (v.tileAt g).tcause2 = 0x15#64 ∧ (v.tileAt g).taddr2 = BitVec.ofNat 64 base ∧ bit (v.tileAt g).tstat 14 = true))) ∧
    (∀ (d : Nat) (w : BitVec 64) (s : State), s.jtag ≠ .extest → let x := s.dieAt d
      let k := bits w 9 0
      let base := bits (s.dieReg d 0x20028) 47 16 * 2 ^ 16 + k * 0x280000
      let h := bits (s.mem.read base).data 55 48
      (¬ ImageHeader s base ∨ h % 2 = 0 → x.occ (bit w 10) + 1 ≤ 4112 → ∃ v, exec (.resumeInject d w) s = .next v ∧
        Resumes (v.dieAt d) (bit w 10) (bits w 12 11) k (arrivals x (bit w 10)) ∧ k ∈ (v.dieAt d).slots ∧ v.tiles = s.tiles ∧ v.mem = s.mem) ∧
      (ImageHeader s base → h % 8 = 1 → mapGet [] x.gangWait (if bit w 10 = true then 1 else 0) = [] → ∃ v, exec (.resumeInject d w) s = .next v ∧
        mapGet [] (v.dieAt d).gangWait (if bit w 10 = true then 1 else 0) = [k] ∧ (v.dieAt d).units = x.units ∧ v.tiles = s.tiles)) ∧
    (∀ (d : Nat) (s : State), s.jtag ≠ .extest → let x := s.dieAt d
      (x.expq = [] → exec (.expqPop d) s = .next { s with reply := some (.data 0#64) }) ∧
      (∀ k rest, x.expq = k :: rest → exec (.expqPop d) s = .next { s.setDieAt d { x with expq := rest, slots := x.slots.erase k } with
        reply := some (.data (BitVec.ofNat 64 (2 ^ 63 + k))) }))

namespace Sys2Proof.Claims

/-- The clusters of a die that a move from the boundary `o` to `n` moves (R23, R409). -/
def Moves (d o n g : Nat) : Prop := g / 16 = d ∧ ((n ≤ g / 4 ∧ g / 4 < o) ∨ (o ≤ g / 4 ∧ g / 4 < n))

/-- No gang unit and no resume unit waits anywhere, so that none has to move (R52, R410, R416). -/
def NoGangs (s : State) : Prop := s.heldUnits = [] ∧ ∀ e < 24, ∀ u ∈ (s.dieAt e).units, u.gang = false ∧ u.slots = []

/-- A firmware write of a register that takes the writable bits `m` (R8). -/
def Writes (s : State) (d off : Nat) (w m : BitVec 64) : Prop :=
  exec (.registerWrite d off 4 w) s = .next (s.setDieReg d off (w &&& m))

end Sys2Proof.Claims

/-- A write of BMOV.TARGET during a move, or above 96, and COMMIT outside stage 3 set ERR only; ERR is cleared by its
own write. A write of a legal TARGET takes it and STAGE 1, moving idle tiles are stopped, or STAGE 3 when no cluster
of the die moves. Stage 1 ends when every moving tile is idle or out of service, or with the clock at the end of the
polite stage; stage 2, every moving tile so, empties their TLBs, switches their sides and gives stage 3. COMMIT in
stage 3 with no gang or resume unit waiting gives BRIM the target and STAGE 0, and releases the die's tiles. HOLD,
with no access that waits for a table, takes the low five bits. Firmware's writes are those of a package not held in
reset by EXTEST. -/
def Obligations.BrimMoveResult : Prop :=
  (∀ (d : Nat) (w : BitVec 64) (s : State), let b := s.dieReg d 0x20008
      let stage := bits b 9 8
      let o := bits (s.dieReg d 0x20000) 6 0
      let n := bits w 6 0
      let taken := setBits (setBits b 6 0 n) 9 8
      d < 24 → s.jtag ≠ .extest →
      (stage ≠ 0 ∨ 96 < n → exec (.brimMoveStart d w) s = .next (s.setDieReg d 0x20008 (setBits b 10 10 1))) ∧
      (stage = 0 → n ≤ 96 →
        ((∀ g, ¬ Moves d o n g) → ∃ v, exec (.brimMoveStart d w) s = .next v ∧ v.dieReg d 0x20008 = taken 3 ∧ v.tiles = s.tiles) ∧
        ((∃ g, Moves d o n g) → (∀ g, Moves d o n g → (s.tileAt g).run = .idle ∧ (s.tileAt g).task = none ∧ (s.tileAt g).resuming = none) →
          ∃ v, exec (.brimMoveStart d w) s = .next v ∧ v.dieReg d 0x20008 = taken 1 ∧ v.mem = s.mem ∧
            (∀ g, Moves d o n g → v.tileAt g = { s.tileAt g with brimStop := true }) ∧
            ∀ g, ¬ Moves d o n g → v.tileAt g = s.tileAt g))) ∧
    (∀ (d : Nat) (s : State), let b := s.dieReg d 0x20008
      let stage := bits b 9 8
      let o := bits (s.dieReg d 0x20000) 6 0
      let n := bits b 6 0
      let gone := ∀ g, Moves d o n g → (s.tileAt g).run = .idle ∨ (s.tileAt g).run = .frozen
      d < 24 → s.jtag ≠ .extest →
      (stage = 1 → gone → exec (.brimStageAdvance d) s = .next (s.setDieReg d 0x20008 (setBits b 9 8 2))) ∧
      (stage = 1 → ¬ gone → ∃ v, exec (.brimStageAdvance d) s = .next v ∧ v.ftb = (s.until (s.dieAt d).brimEnd).ftb ∧
        v.dieReg d 0x20008 = setBits b 9 8 2) ∧
      (stage = 2 → gone → ∃ v, exec (.brimStageAdvance d) s = .next v ∧ v.dieReg d 0x20008 = setBits b 9 8 3 ∧ v.mem = s.mem ∧
        (∀ g, Moves d o n g → v.tileAt g = { s.tileAt g with tlb := [], side := decide (g / 4 < o) }) ∧
        ∀ g, ¬ Moves d o n g → v.tileAt g = s.tileAt g) ∧
      (stage ≠ 3 → exec (.brimMoveCommit d) s = .next (s.setDieReg d 0x20008 (setBits b 10 10 1))) ∧
      (stage = 3 → NoGangs s → ∃ v, exec (.brimMoveCommit d) s = .next v ∧ v.dieReg d 0x20000 = BitVec.ofNat 64 n ∧
        v.dieReg d 0x20008 = setBits b 9 8 0 ∧ v.mem = s.mem ∧
        ∀ g, v.tileAt g = if g / 16 = d then { s.tileAt g with brimStop := false } else s.tileAt g) ∧
      exec (.bmovErrClear d) s = .next (s.setDieReg d 0x20008 (setBits b 10 10 0)) ∧
      (s.host.writes = [] → (∀ k < 24, (s.dieAt k).kvreps = []) → ∀ w, exec (.holdWrite d w) s = .next (s.setDieReg d 0x18 (w &&& 0x1F#64))))

/-- A firmware write of a translation root, a table entry, an image base, the error log's base, RPOS or DUMPB keeps
the writable bits; a write of a read-only register changes nothing. Another class's write of a grant entry takes
effect where its block table lets it and is ignored where it does not. Firmware writes a tile's counters at any time
and its other CSRs while it does not run. A KVREP report enters a slot of an enabled pool's page in the damage list or
sets ERR, which its own write clears. TRET bits are set, never cleared, and kept in the nonvolatile configuration, and
an idle tile gated. DBGCTL takes a mode the security state allows, but no invasive one in package-standby, and else
keeps MODE. The package is not held in reset by EXTEST. That KVREP's report is one step (log 24) and that a die's PTO
stands at the offset 0x100000 (log 7, DESIGN CHOICE) are the model's choices. -/
def Obligations.RegisterWriteResult : Prop :=
  (∀ (d : Nat) (w : BitVec 64) (s : State), d < 24 → s.jtag ≠ .extest →
      (∀ o, o = 0 ∨ o = 8 → Writes s d o w 0x0000FFFFFFFFF001#64) ∧ Writes s d 0x10 w 0x3F#64 ∧
      (∀ k < 16, Writes s d (0x1800 + 8 * k) w 3#64 ∧ Writes s d (0x1A00 + 8 * k) w 0xFFFFFFFF#64) ∧
      Writes s d 0x20028 w 0x0000FFFFFFFF0000#64 ∧ Writes s d 0x30000 w 0x0000FFFFFFFFF001#64 ∧ Writes s d 0x30008 w 0x1FFFFF#64 ∧
      Writes s d 0x30018 w (BitVec.allOnes 64) ∧ Writes s d 0x30030 w 0x0000FFFFFFE00001#64 ∧ Writes s d 0x30050 w (BitVec.allOnes 64) ∧
      (∀ o, o = 0x30010 ∨ o = 0x30020 ∨ o = 0x30038 → exec (.registerWrite d o 4 w) s = .next s) ∧
      (∀ cls i, cls < 4 → i < 0x10000 → i % 8 = 0 → let o := 0x10000 + i
        (accessVerdict s cls d (2 ^ 47 + d * 2 ^ 37 + o) Rights.store = .ok → exec (.registerWrite d o cls w) s =
          .next (s.setDieReg d o (w &&& if i % 16 = 0 then 0xFC00FFFF0007FFFF#64 else 0x0FFF07FF#64))) ∧
        (accessVerdict s cls d (2 ^ 47 + d * 2 ^ 37 + o) Rights.store ≠ .ok → exec (.registerWrite d o cls w) s = .next s)) ∧
      exec (.registerWrite d 0x100000 4 w) s = .next (s.setDieAt d { s.dieAt d with
        pto := if w.toNat < 56000 then 56000 else if 1000000 < w.toNat then 1000000 else w.toNat })) ∧
    (∀ (g : Nat) (c : BitVec 12) (w : BitVec 64) (s : State), s.jtag ≠ .extest → let t := s.tileAt g
      exec (.firmwareCsrWrite g 0x400#12 w) s = .next (s.setTileAt g { t with gcc := w }) ∧
      exec (.firmwareCsrWrite g 0x401#12 w) s = .next (s.setTileAt g { t with guc := w }) ∧
      (t.run ≠ .running → exec (.firmwareCsrWrite g 0x107#12 w) s = .next (s.setTileAt g { t with pwin := w &&& 0xFFFFF#64 }) ∧
        exec (.firmwareCsrWrite g 0x104#12 w) s = .next (s.setTileAt g { t with tvec := w &&& 0xFFFFFFFFFFFFFFFC#64 })) ∧
      (t.run = .running → c ≠ 0x400#12 → c ≠ 0x401#12 → exec (.firmwareCsrWrite g c w) s = .next s)) ∧
    (∀ (d : Nat) (w q0 q1 q2 : BitVec 64) (s : State), s.jtag ≠ .extest → let p := bits w 51 48
      let h := bits (s.dieReg d (0x2000 + 8 * p)) 47 6 * 64
      let has := fun (a : Nat) (q : BitVec 64) => (∃ x y, targetOf a = .hbm x y) ∧ accessVerdict s 4 d a Rights.load = .ok ∧
        s.mem.read a = gloved q
      let l := mapGet [] (s.dieAt d).damage p
      let place := (bits w 47 44, bits w 31 0)
      (bit w 62 = true → exec (.kvrepWrite d w) s = .next (s.setDieReg d 0x30028 0#64)) ∧
      (bit w 62 = false → bit (s.dieReg d (0x2000 + 8 * p)) 0 = false → exec (.kvrepWrite d w) s =
        .next (s.setDieReg d 0x30028 0x4000000000000000#64)) ∧
      (bit w 62 = false → bit (s.dieReg d (0x2000 + 8 * p)) 0 = true → has h q0 → has (h + 8) q1 → has (h + 16) q2 → bit q2 40 = true →
        bits w 31 0 < bits q2 31 0 → place ∉ l → l.length < 64 → exec (.kvrepWrite d w) s =
          .next (s.setDieAt d { s.dieAt d with damage := mapPut (s.dieAt d).damage p (l ++ [place]) })) ∧
      exec (.kvrepErrClear d) s = .next (s.setDieReg d 0x30028 0#64)) ∧
    (∀ (d k : Nat) (w : BitVec 64) (s : State), d < 24 → k < 16 → s.jtag ≠ .extest → NoGangs s → w = BitVec.ofNat 64 (2 ^ k) →
      (s.tileAt (16 * d + k)).task = none → (s.tileAt (16 * d + k)).resuming = none → ∃ v, exec (.tileRetire d w) s = .next v ∧
        v.dieReg d 0x30048 = s.dieReg d 0x30048 ||| w ∧ mapGet 0#16 v.nv.retired d = (v.dieReg d 0x30048).setWidth 16 ∧ v.tiles = s.tiles ∧ v.mem = s.mem ∧
        (bit (s.dieReg d 0x30048) k = false → (v.dieAt d).gated.getLsbD k = true) ∧
        (∀ j < 16, j ≠ k → (v.dieAt d).gated.getLsbD j = (s.dieAt d).gated.getLsbD j)) ∧
    (∀ (d : Nat) (w : BitVec 64) (s : State), s.jtag ≠ .extest → let old := s.dieReg d 0x30040
      let m := bits w 1 0
      let st := s.sec.state
      let sane := ((st = 0 ∧ m ≤ 2) ∨ (st = 1 ∧ m ≤ 1) ∨ (st = 2 ∧ m = 0) ∨ (st = 3 ∧ m ≤ 2)) ∧ ¬ (s.standby = true ∧ m = 2)
      let kept := w &&& 0x0000FFFFFFFFF008#64
      (sane → exec (.debugModeWrite d w) s = .next (State.setDieReg (s.setDieReg d 0x30040 (setBits kept 1 0 m)) d 0x30038
        (setBits (s.dieReg d 0x30038) 9 8 m))) ∧
      (st ≤ 3 → ¬ sane → exec (.debugModeWrite d w) s = .next (s.setDieReg d 0x30040 (setBits kept 1 0 (bits old 1 0)))))

namespace Sys2Proof.Claims

/-- Tile `g`'s number for its die's registers. -/
def dieTile (d u : Nat) : Nat := 16 * d + u

/-- A package answer on an outside interface, and nothing else. -/
def answered (s : State) (r : Reply) : Res := .next { s with reply := some r }

end Sys2Proof.Claims

/-- A scrub leaves a word without error, corrects and counts one with a single error, and logs 0x11 for an
uncorrectable one: four doublewords at the next place of an enabled ring with room and WPOS advanced, DROP counted
when it is full. A passing self-test notes the time; a failing tile freezes with BSTAT 1, loses its task and is
retired; a failing die unit is fatal, or in stage 7 stops the bring-up with its die; a forced slot takes 64 cycles.
Firmware exports a halted tile's task and frees the tile, retiring it when it halted within 1 ms of its last return. A
freezing die stops its tiles and dumps with the flags of its header, and with the last the package is frozen, after a
thermal trip in standby with every die in retention. The debugger lets a stopped tile go on. -/
def Obligations.ReliabilityResult : Prop :=
  (∀ (pa d off : Nat) (v : BitVec 64) (s : State), s.jtag ≠ .extest → targetOf pa = .hbm d off →
      (s.mem.read pa = gloved v → exec (.hbmScrub pa) s = .next s) ∧
      (checkWord (s.mem.read pa) = .ok v true → exec (.hbmScrub pa) s =
        .next (State.setDieReg { s with mem := s.mem.write pa (gloved v) } d 0x30050 (s.dieReg d 0x30050 + 1#64))) ∧
      (checkWord (s.mem.read pa) = .bad → let w := s.dieReg d 0x30010
        let cap := bits (s.dieReg d 0x30008) 20 0
        let a := bits (s.dieReg d 0x30000) 47 12 * 4096 + 32 * (w.toNat % cap)
        (bit (s.dieReg d 0x30000) 0 = false → exec (.hbmScrub pa) s = .next s) ∧
        (bit (s.dieReg d 0x30000) 0 = true → (w - s.dieReg d 0x30018).toNat < cap → exec (.hbmScrub pa) s =
          .next (State.setDieReg { s with mem := s.mem.writeList a [gloved (BitVec.ofNat 64 (0x11 + 15 * 65536)), gloved s.ftb,
            gloved (BitVec.ofNat 64 (pa / 8 * 8)), gloved 0#64] } d 0x30010 (w + 1#64))) ∧
        (bit (s.dieReg d 0x30000) 0 = true → cap ≤ (w - s.dieReg d 0x30018).toNat →
          exec (.hbmScrub pa) s = .next (s.setDieReg d 0x30020 (s.dieReg d 0x30020 + 1#64))))) ∧
    (∀ (d u : Nat) (s : State), d < 24 → s.jtag ≠ .extest →
      (u < 16 → exec (.selftestRun d u true) s = .next (s.setTileAt (dieTile d u) { s.tileAt (dieTile d u) with tested := s.ftb })) ∧
      (16 ≤ u → ∃ v, exec (.selftestRun d u true) s = .next v ∧ mapGet 0#64 (v.dieAt d).tested u = s.ftb ∧ v.tiles = s.tiles) ∧
      (u < 16 → NoGangs s → (s.tileAt (dieTile d u)).resuming = none → ∃ v, exec (.selftestRun d u false) s = .next v ∧ bit (v.dieReg d 0x30048) u = true ∧
        v.tileAt (dieTile d u) = { s.tileAt (dieTile d u) with
          run := .frozen, bstat := 1#64, task := none, pre := none, preq := 0#64, cut := none } ∧
        ∀ h, h ≠ dieTile d u → v.tileAt h = s.tileAt h) ∧
      (16 ≤ u → (s.dieAt d).stage = 7 → exec (.selftestRun d u false) s =
        .next (s.setDieReg 0 0x40000 (setBits (setBits (s.dieReg 0 0x40000) 47 32 7) 31 24 d))) ∧
      (16 ≤ u → (s.dieAt d).stage ≠ 7 → ∃ v, exec (.selftestRun d u false) s = .next v ∧ v.fatal = true ∧ v.tiles = s.tiles) ∧
      exec (.selftestForcedSlot d u) s = .next (s.until (s.ftb + 64#64))) ∧
    (∀ (g k : Nat) (s : State), let t := s.tileAt g
      t.run = .halted → s.freeSlot (g / 16) = some k → GangDone s g → Homed s (g / 16) →
      (∀ h, t.haltAt = some h → 1000000 ≤ (t.haltFtb - h).toNat) ∨ NoGangs s →
      ∃ v, exec (.firmwareHaltHandling g) s = .next v ∧ (v.tileAt g).run = .idle ∧ (v.tileAt g).task = none ∧
        (v.tileAt g).haltAt = some s.ftb ∧ (v.tileAt g).pre = none ∧ (t.pre.isSome = true → (v.tileAt g).preq = 0#64) ∧
        (v.dieAt (g / 16)).expq = (s.dieAt (g / 16)).expq ++ (if t.task.isSome = true then [k] else []) ∧
        (∀ h, t.haltAt = some h → (t.haltFtb - h).toNat < 1000000 → bit (v.dieReg (g / 16) 0x30048) (g % 16) = true)) ∧
    (∀ (d : Nat) (s : State), s.fatal = true → d < 24 → (s.dieAt d).dumped = false → NoneResuming s d →
      ∃ v, exec (.fatalFreeze d) s = .next v ∧ (∀ g, g / 16 = d → (v.tileAt g).run = .frozen) ∧ (v.dieAt d).dumped = true ∧
        (∀ g, g / 16 ≠ d → v.tileAt g = s.tileAt g) ∧
        ((∀ e < 24, e ≠ d → (s.dieAt e).dumped = true) → v.frozen = true ∧
          (bits (s.fatalEntry.getD 0 0#64) 15 0 = 0x12 → (∀ e < 24, s.dmode e ≠ 2) →
            v.standby = true ∧ ∀ e < 24, (v.dieAt e).retention = true)) ∧
        (∀ e < 24, e ≠ d → (s.dieAt e).dumped = false → v.frozen = s.frozen ∧
          let r := s.dieReg d 0x30030
          let base := bits r 47 21 * 2 ^ 21
          let wpos := s.dieReg d 0x30010
          let entry := bits (s.dieReg d 0x30000) 47 12 * 4096 + 32 * (wpos.toNat % bits (s.dieReg d 0x30008) 20 0)
          (bit r 0 = true → inHbm base 0x1000 = true → (s.dieAt d).incomplete = false →
            bit (s.dieReg d 0x30000) 0 = false ∨ entry + 32 ≤ base ∨ base + 8 ≤ entry →
            ∃ w, v.mem.read base = gloved w ∧ bits w 31 0 = 0x0F24D0D0 ∧ bits w 47 32 = Config.abi.toNat ∧ bits w 55 48 = d ∧
              bit w 56 = decide (s.sec.state ≠ 2) ∧ bit w 57 = (v.dieAt d).incomplete) ∧
          (bit r 0 = false → (v.dieAt d).incomplete = true))) ∧
    (∀ (g : Nat) (s : State), (s.tileAt g).run = .stopped →
      exec (.debuggerContinue g) s = .next (s.setTileAt g { s.tileAt g with run := .running }))

/-- Burning the state fuse takes Manufacturing to Secured, switches off a debug mode Secured does not allow, and
changes nothing in another state. A valid unlock token over the nonce that die 0 has out is accepted in Secured alone
and uses the nonce up; its withdrawal is noted. GET_VERSION answers 1.3, GET_CAPABILITIES the seven requests without
sessions, NEGOTIATE_ALGORITHMS P-384 and SHA-384, and the others the digests, the certificate, the signed challenge,
and six measurement blocks with the image version, the retired tiles first in the firmware configuration, debug mode,
brim and security state; nothing else changes. A host bridge answers configuration requests once its port is trained.
The values of the digests, certificate, signature, hashes and nonces are left open; what else block 3 holds is the
model's choice (log 32). -/
def Obligations.SecurityAndAttestationResult : Prop :=
  (∀ (s : State), s.jtag ≠ .extest →
      (s.sec.state = 0 → ∃ v, exec .stateFuseBurn s = .next v ∧ v.sec = { s.sec with state := 1 } ∧ v.tiles = s.tiles ∧ v.mem = s.mem ∧
        ∀ d < 24, v.dmode d = if s.dmode d ≤ 1 then s.dmode d else 0) ∧
      (s.sec.state ≠ 0 → exec .stateFuseBurn s = .next s) ∧
      (∀ n, (s.sec.state = 1 ∧ n = s.sec.nonce → exec (.debugUnlock (some n)) s = .next { s with
            sec := { s.sec with unlock := true, nonce := Config.freeWord s.fresh }, fresh := s.fresh + 1 }) ∧
        (s.sec.state ≠ 1 ∨ n ≠ s.sec.nonce → exec (.debugUnlock (some n)) s = .next s) ∧
        exec (.debugUnlock none) s = .next { s with sec := { s.sec with unlock := false } })) ∧
    (∀ (nonce : BitVec 256) (reg : Nat) (s : State), s.jtag ≠ .extest →
      exec .getVersion s = answered s (.version 1 3) ∧
      exec .getCapabilities s = answered s (.capabilities [0, 1, 2, 3, 4, 5, 6] false) ∧
      exec .negotiateAlgorithms s = answered s (.algorithms 384 384) ∧
      exec .getDigests s = answered s (.digests Config.certificateDigests) ∧
      exec .getCertificate s = answered s (.certificate Config.certificate) ∧
      exec (.challenge nonce) s = answered s (.challenge nonce (Config.signature nonce)) ∧
      exec .getMeasurements s = answered s (.measurements [Config.romHash, Config.firmwareHash ++ [BitVec.ofNat 64 s.nv.fw.version], s.fwConfig,
        [BitVec.ofNat 64 (bits (s.dieReg 0 0x30038) 9 8), if bit (s.dieReg 0 0x30040) 3 = true then 1#64 else 0#64],
        [BitVec.ofNat 64 (bits (s.dieReg 0 0x20000) 6 0), BitVec.ofNat 64 (bits (s.dieReg 0 0x20008) 9 8)],
        BitVec.ofNat 64 s.sec.state :: (List.range 4).map fun k => s.sec.tenant.extractLsb' (64 * k) 64]) ∧
      s.fwConfig.take 24 = ((List.range 24).map fun d => s.dieReg d 0x30048) ∧
      (s.nv.bridge = true → s.portUp = true → exec (.configurationRequest reg) s = answered s (.config reg (configAnswer reg))) ∧
      (s.nv.bridge = false ∨ s.portUp = false → exec (.configurationRequest reg) s = .next s))

namespace Sys2Proof.Claims

/-- The state after entry `t` of ring `r` has completed with a status (R432, R433). -/
def completed (s : State) (r : Nat) (t : Taken) (status : Nat) : State :=
  putCompl ⟨1, r, status, t.tag, t.j.setWidth 64, 0#64⟩ { s with host := { s.host with taken := mapDel s.host.taken r } }

/-- Ring `r` has taken an entry with an OP, and its completion ring has room (R431, R434). -/
def HasEntry (s : State) (r op : Nat) (t : Taken) : Prop :=
  s.entry r = some t ∧ bits (t.words.getD 0 0#64) 7 0 = op ∧ s.cqRoom r = true

/-- Nothing waits to be written to a completion ring (R434). -/
def NothingHeld (s : State) : Prop := s.host.uns = [] ∧ s.host.notes = []

/-- Entries between a head and a tail (R430). -/
def between (tail head : Nat) : Nat := (tail + 2 ^ 32 - head % 2 ^ 32) % 2 ^ 32

end Sys2Proof.Claims

/-- A BAR2 access the tables allow reads or writes its doubleword of HBM; a refused read answers all ones, a refused
write is logged 0x13, and a write behind one that waits for a held table waits too. A doorbell within the ring stores
TAIL, beyond it sets OVR and HALT, whatever EN holds, halted or not. EN going to 1 zeroes HEAD and TAIL; EN 0
disables; CQH is taken when the fill stays within the ring. An entry is taken from an enabled ring with room for its
completion when its phase is the expected one, else the ring halts. NOP completes with status 0 and an unknown OP with
2: the entry's four doublewords are written and CQT advances. A due MSI-X message goes at least 2 microseconds after
the last. That the refused write is logged on die 0 is the model's reading (log 31, DEDUCED). The host's accesses are
to a package not held in reset by EXTEST. -/
def Obligations.HostRingResult : Prop :=
  (∀ (off d o : Nat) (w : BitVec 64) (s : State), s.jtag ≠ .extest → let a := s.hwin.toNat + off / 8 * 8
      let logged := exec (.bar2Write off w) s =
        .next (logError ⟨0, 0x13, 15, BitVec.ofNat 64 a, BitVec.ofNat 64 s.member⟩ false s)
      let ones := exec (.bar2Read off) s = answered s (.data (BitVec.allOnes 64))
      (∀ h rest, s.host.writes = h :: rest → h.perform s = none → exec (.bar2Write off w) s =
        .next { s with host := { s.host with writes := h :: rest ++ [.window off w] } }) ∧
      (targetOf a = .hbm d o → off < 2 ^ 32 → s.host.writes = [] →
        (accessVerdict s 5 0 a Rights.store = .ok → exec (.bar2Write off w) s = .next { s with mem := s.mem.write a (gloved w) }) ∧
        (accessVerdict s 5 0 a Rights.store = .refused → logged) ∧
        (accessVerdict s 5 0 a Rights.load = .ok → exec (.bar2Read off) s = answered s (.data (s.mem.read a).data)) ∧
        (accessVerdict s 5 0 a Rights.load = .refused → ones)) ∧
      ((∀ d o, targetOf a ≠ .hbm d o) ∨ 2 ^ 32 ≤ off → (s.host.writes = [] → logged) ∧ ones)) ∧
    (∀ (r : Nat) (cq : Bool) (x : BitVec 32) (s : State), r < 16 → s.jtag ≠ .extest → s.host.writes = [] →
      (between x.toNat (s.ring false r 0x18).toNat ≤ s.ringSize false r →
        exec (.sqDoorbell r x) s = .next (s.setRing false r 0x10 (x.setWidth 64))) ∧
      (s.ringSize false r < between x.toNat (s.ring false r 0x18).toNat →
        ∃ v, exec (.sqDoorbell r x) s = .next v ∧ v.ring false r 0x20 = s.ring false r 0x20 ||| 6#64 ∧
          v.ring false r 0x10 = x.setWidth 64 ∧ v.tiles = s.tiles) ∧
      (bit (s.ring cq r 0x20) 0 = true → exec (.ringEnable cq r) s = .next s) ∧
      (bit (s.ring cq r 0x20) 0 = false → NothingHeld s → exec (.ringEnable cq r) s =
        .next (State.setRing (State.setRing (s.setRing cq r 0x10 0#64) cq r 0x18 0#64) cq r 0x20 1#64)) ∧
      exec (.ringDisable cq r) s = .next (s.setRing cq r 0x20 (s.ring cq r 0x20 &&& 0xFFFFFFFFFFFFFFFE#64)) ∧
      (s.ringSize true r < between (s.ring true r 0x10).toNat x.toNat → exec (.cqHeadWrite r x) s = .next s) ∧
      (between (s.ring true r 0x10).toNat x.toNat ≤ s.ringSize true r → NothingHeld s →
        exec (.cqHeadWrite r x) s = .next (s.setRing true r 0x18 (x.setWidth 64)))) ∧
    (∀ (r : Nat) (ws : List (BitVec 64)) (s : State), let head := (s.ring false r 0x18).toNat
      let size := s.ringSize false r
      let a := bits (s.ring false r 0) 47 7 * 128 + 128 * (head % size)
      let w0 := ws.getD 0 0#64
      r < 16 → s.ready = true → s.frozen = false → bits (s.ring false r 0x20) 1 0 = 1 → s.cqRoom r = true → s.entry r = none →
      0 < between (s.ring false r 0x10).toNat head → between (s.ring false r 0x10).toNat head ≤ size →
      ws.length = 16 → (∀ i < 16, s.mem.read (a + 8 * i) = gloved (ws.getD i 0#64)) →
      (bits w0 8 8 = head / size % 2 → exec (.submissionEntryTake r) s =
        .next (State.setRing { s with host := { s.host with taken := mapPut s.host.taken r ⟨BitVec.ofNat 32 head, ws⟩ } } false r 0x18
          (BitVec.ofNat 64 ((head + 1) % 2 ^ 32)))) ∧
      (bits w0 8 8 ≠ head / size % 2 →
        exec (.submissionEntryTake r) s = .next (s.setRing false r 0x20 (s.ring false r 0x20 ||| 10#64)))) ∧
    (∀ (r : Nat) (t : Taken) (s : State), let tail := (s.ring true r 0x10).toNat
      let size := s.ringSize true r
      let a := bits (s.ring true r 0) 47 7 * 128 + 32 * (tail % size)
      (HasEntry s r 0 t → exec (.nop r) s = .next (completed s r t 0) ∧
        ((∃ d o, targetOf a = .hbm d o) → r < 16 → (completed s r t 0).mem = s.mem.writeList a
            [gloved (BitVec.ofNat 64 (1 + tail / size % 2 * 2 ^ 8 + r * 2 ^ 12 + t.tag.toNat * 2 ^ 32)), gloved (t.j.setWidth 64),
              gloved 0#64, gloved s.ftb] ∧
          (completed s r t 0).ring true r 0x10 = BitVec.ofNat 64 ((tail + 1) % 2 ^ 32) ∧ (completed s r t 0).entry r = none)) ∧
      (∀ op, 4 ≤ op → HasEntry s r op t → exec (.unknownCommand r) s = .next (completed s r t 2))) ∧
    (∀ (r : Nat) (u s : State), let c := s.ring true r 0x28
      let last := s.host.msixAt.find? fun p => decide (p.1 = r)
      (last = none ∧ u = s) ∨ (∃ t, last = some (r, t) ∧ u = s.until (t + 2000#64)) →
      r < 16 → s.host.msixDue.getLsbD r = true → bit c 6 = true → ∃ v, exec (.msixMessage r) s = .next v ∧ v.ftb = u.ftb ∧
        v.host.msixDue.getLsbD r = false ∧ mapGet 0 v.host.msixSent (bits c 5 0) = mapGet 0 s.host.msixSent (bits c 5 0) + 1 ∧
        v.tiles = s.tiles ∧ v.dies = u.dies ∧ v.mem = u.mem)

/-- SEAL in the Secured state with every debug mode off makes the state Tenant-Sealed with the tenant binding of the
entry, and completes with status 0; else with 3 and no change. UNSEAL in the sealed state clears HBM, its images,
scratchpads and accumulators, returns to Secured without a tenant, and completes with 0; else with 3. LAUNCH, while no
brim move runs and nothing fatal is logged, of a header that R44 rejects completes with 1; of a good one it adds N to
the COUNT its CJOIN reaches, hands the header and the list of dies to each expander of the list, or to the die it
names, and completes with 0. -/
def Obligations.HostCommandResult : Prop :=
  (∀ (r : Nat) (t : Taken) (s : State), HasEntry s r 2 t →
      let off := ∀ d < 24, s.dmode d = 0
      let w := fun k => t.words.getD (4 + k) 0#64
      (s.sec.state = 1 → off → exec (.seal r) s =
        .next (completed { s with sec := { s.sec with state := 2, tenant := w 3 ++ w 2 ++ w 1 ++ w 0 } } r t 0)) ∧
      (s.sec.state ≠ 1 ∨ ¬ off → exec (.seal r) s = .next (completed s r t 3))) ∧
    (∀ (r : Nat) (t : Taken) (s : State), HasEntry s r 3 t →
      (s.sec.state = 2 → (∀ d < 24, s.dmode d ≤ 1) → exec (.unseal r) s = .next (completed { s with
          mem := Mem.empty, tiles := s.tiles.map fun p => (p.1, { p.2 with spad := Mem.empty, acc := [] }),
          dies := s.dies.map fun p => (p.1, { p.2 with homes := [] }), sec := { s.sec with state := 1, tenant := 0#256 } } r t 0)) ∧
      (s.sec.state ≠ 2 → exec (.unseal r) s = .next (completed s r t 3))) ∧
    (∀ (r pa : Nat) (t : Taken) (c : BitVec 64) (s : State), HasEntry s r 1 t →
      (∀ d < 24, bits (s.dieReg d 0x20008) 9 8 = 0) → s.fatal = false →
      let h := (t.words.drop 8).take 8
      let join := h.getD 7 0#64
      let side := bit (h.getD 6 0#64) 32
      let l := s.launchDies h
      let given := fun (z : State) => ∃ v, exec (.launch r) s = .next v ∧ v = completed (expand h l z) r t 0 ∧
        ∀ d < 24, (v.dieAt d).launches = (s.dieAt d).launches ++
          (if bits (h.getD 6 0#64) 39 36 = 0 then (if d = bits (h.getD 6 0#64) 44 40 then [⟨h, l, 0⟩] else [])
           else if d ∈ l then [⟨h, l, 0⟩] else [])
      (s.headerOk h = false → exec (.launch r) s = .next (completed s r t 1)) ∧
      (s.headerOk h = true → bit (h.getD 6 0#64) 46 = false →
        (join = 0#64 → given s) ∧
        (∀ logs, join ≠ 0#64 → s.reach 0 side (if side = true then 3 else 2) join Rights.amo = .bad logs →
          exec (.launch r) s = .next (completed (logErrors logs s) r t 1)) ∧
        (join ≠ 0#64 → s.reach 0 side (if side = true then 3 else 2) join Rights.amo = .at pa [] → s.mem.read pa = gloved c →
          given { s with mem := s.mem.write pa (gloved (c + BitVec.ofNat 64 (hdrCount h))) })))

namespace Sys2Proof.Claims

/-- The package with every tile and register at reset but for the stage that every die reports and die 0's DEVSTAT (R436). -/
def AtReset (s v : State) (st : Nat) : Prop :=
  (∀ g, v.tileAt g = Tile.reset) ∧ (∀ d, d ≠ 0 → v.dieAt d = { Die.reset with stage := if d < 24 then st else 0 }) ∧ (v.dieAt 0).stage = st ∧ v.portUp = false ∧ (∀ o, o ≠ 0x40000 → v.dieReg 0 o = Die.reset.regs.foldl
    (fun x p => if p.1 = o then p.2 else x) 0#64) ∧ v.net = [] ∧ v.ftb = 0#64 ∧ v.fatal = false ∧ v.frozen = false ∧
  v.standby = false ∧ v.host = HostIf.reset ∧ v.nv = s.nv ∧ v.links = s.links ∧ v.jtag = s.jtag ∧
  v.cells = s.cells ∧ v.fwLoaded = false

/-- The security state and HBM over a reset (R422). -/
def SecOverReset (s v : State) : Prop :=
  let is := fun (n : Nat) (u : Bool) (k : BitVec 256) (m : Mem) => v.sec.state = n ∧ v.sec.unlock = u ∧ v.sec.tenant = k ∧ v.mem = m
  (s.sec.state = 2 → is 1 false 0#256 Mem.empty) ∧ (s.sec.state = 1 → s.sec.unlock = true → is 3 true 0#256 s.mem) ∧
  (s.sec.state = 3 → s.sec.unlock = false → is 1 false 0#256 Mem.empty) ∧
  (s.sec.state = 0 ∨ (s.sec.state = 1 ∧ s.sec.unlock = false) ∨ (s.sec.state = 3 ∧ s.sec.unlock = true) →
    is s.sec.state s.sec.unlock s.sec.tenant s.mem)

/-- The end of stage `st` on die `d` can be decided (R421, R436): no failure has stopped the package, every die has ended the stage before,
which die 0 ends last, and in stage 3 die 0 has authenticated the image. -/
def StageEnds (s : State) (d st : Nat) : Prop :=
  s.jtag ≠ .extest ∧ bits (s.dieReg 0 0x40000) 47 32 = 0 ∧ d < 24 ∧ (s.dieAt d).stage = st ∧
  (d ≠ 0 → st ≤ (s.dieAt 0).stage ∧ (st = 3 → s.fwLoaded = true)) ∧
  (d = 0 → (st = 3 ∧ s.fwLoaded = false) ∨ ∀ k, 0 < k → k < 24 → st < (s.dieAt k).stage)

/-- Tile `k` of a die stays gated when the die leaves retention or its clusters are given back (R416, R441). -/
def StaysGated (s : State) (d k : Nat) (hot : List Nat) : Bool := bit (s.dieReg d 0x30048) k || hot.contains (k / 4)

/-- What stage 8 leaves on die `d` and its tiles (R438). -/
def Loaded (s v : State) (d : Nat) : Prop :=
  v.dieReg d 0x20000 = BitVec.ofNat 64 (bits (s.nv.value (d * 2 ^ 20 + 0x20000) 48#64) 6 0) ∧ (v.dieAt d).stage = 9 ∧
  (∀ k < 16, bit (v.dieReg d 0x30048) k = (bit (s.dieReg d 0x30048) k || (mapGet 0#16 s.nv.retired d).getLsbD k)) ∧
  (∀ g, g / 16 ≠ d → v.tileAt g = s.tileAt g) ∧
  ∀ g, g / 16 = d → (v.tileAt g).spad = Mem.empty ∧ (v.tileAt g).acc = [] ∧ (v.tileAt g).pwin = s.nv.csr g 0x107 100000#64 &&& 0xFFFFF#64 ∧
    (v.tileAt g).side = decide (bits (v.dieReg d 0x20000) 6 0 ≤ g / 4)

end Sys2Proof.Claims

/-- RESET puts every tile and register at its reset value, keeps the nonvolatile configuration, moves the security
state and clears HBM as R422 says, and starts stage 1 on every die with a fresh nonce, unless EXTEST is selected. Each
passing stage of a die gives its next, die 0 waiting in stage 2 for the port; no die going on before the stage has
ended on all; the third passes for an image its ROM accepts, authenticated by die 0 before the others; the sixth gives
the coordinates and the time base, the eighth the loaded registers, cleared scratchpads and stage 9, and die 0, the
last, a READY entry, enabled rings as they were; a failing one stops with its code and die. The access port answers
IDCODE, bypass and boundary cells, which it loads; under EXTEST no step of firmware, of the host or of bring-up
changes anything, and leaving it releases the reset. Retention gates a vacant die, else pre-empts its tasks; its exit
ungates all but the retired tiles and the clusters gated for heat. Standby needs every die in retention and no
invasive mode. A sample at 112.0 C is fatal, a long hot time gates one cluster, a long cool one gives back the
clusters so gated. The model's choices: all of them come back at once (log 31), HBM outlasts a reset (log 3), a ring
enabled before stage 9 keeps what it holds and leaving EXTEST releases the reset (log 32, DEDUCED). -/
def Obligations.ResetBringupAndPowerResult : Prop :=
  (∀ (s : State),
      (s.jtag ≠ .extest → ∃ v, exec .reset s = .next v ∧ AtReset s v 1 ∧ bits (v.dieReg 0 0x40000) 3 0 = 1 ∧ SecOverReset s v ∧
        v.sec.nonce = Config.freeWord s.fresh ∧ v.fresh = s.fresh + 1) ∧
      (s.jtag = .extest → ∃ v, exec .reset s = .next v ∧ AtReset s v 0 ∧ v.dieReg 0 0x40000 = 0#64 ∧ SecOverReset s v) ∧
      (∃ v, exec .jtagExtest s = .next v ∧ AtReset { s with jtag := .extest } v 0 ∧ v.dieReg 0 0x40000 = 0#64 ∧ SecOverReset s v) ∧
      (s.jtag ≠ .extest → exec .jtagBypass s = answered { s with jtag := .bypass } (.jtag 1 0#64) ∧
        exec .jtagIdcode s = answered { s with jtag := .idcode } (.jtag 32 0x0F024A6B#64) ∧
        exec .jtagSamplePreload s = answered { s with
          jtag := .sample, cells := Config.boundaryCells (s.fresh + 1), fresh := s.fresh + 2 } (.jtag 64 (Config.boundaryCells s.fresh))) ∧
      (s.jtag = .extest → ∃ v, exec .jtagBypass s = .next v ∧ v.jtag = .bypass ∧ v.reply = some (.jtag 1 0#64) ∧
        (∀ d < 24, (v.dieAt d).stage = 1) ∧ bits (v.dieReg 0 0x40000) 3 0 = 1 ∧ v.sec.nonce = Config.freeWord s.fresh ∧
        v.tiles = s.tiles ∧ v.mem = s.mem)) ∧
    (∀ (ok : Bool) (d n : Nat) (w : BitVec 64) (x : BitVec 32) (c : BitVec 12) (nonce : BitVec 256) (token : Option (BitVec 64)) (s : State),
      s.jtag = .extest → ∀ i ∈ [Instr.firmwarePreempt d w, .firmwareStopRelease d w, .resumeInject d w, .expqPop d, .brimMoveStart d w,
        .brimMoveCommit d, .bmovErrClear d, .holdWrite d w, .firmwareCsrWrite d c w, .kvrepWrite d w, .kvrepErrClear d, .tileRetire d w,
        .debugModeWrite d w, .registerWrite d n 4 w, .hbmScrub n, .selftestRun d n ok, .selftestForcedSlot d n, .stateFuseBurn,
        .debugUnlock token, .getVersion, .getCapabilities, .negotiateAlgorithms, .getDigests, .getCertificate, .challenge nonce,
        .getMeasurements, .bar2Write n w, .bar2Read n, .sqDoorbell n x, .ringEnable ok n, .ringDisable ok n, .cqHeadWrite n x,
        .bringupStageEnd ok d, .thermalSample d n, .dieRetentionEnter d, .dieRetentionExit d, .packageStandbyEnter, .packageStandbyExit,
        .configurationRequest n], exec i s = .next s) ∧
    (∀ (d st : Nat) (s : State), let r := s.dieReg 0 0x40000
      let fails := fun (st d : Nat) => Host.Outcome.next (s.setDieReg 0 0x40000 (setBits (setBits r 47 32 st) 31 24 d))
      let ends := exec (.bringupStageEnd true d) s
      StageEnds s d st →
      (1 ≤ st → st ≤ 8 → st ≠ 2 → exec (.bringupStageEnd false d) s = fails st d) ∧
      (st = 1 → ends = .next (s.setStageOf d (if d = 0 ∧ s.portUp = false then 2 else 3))) ∧
      (st = 3 → s.nv.accepts d = true →
        ends = .next (if d = 0 ∧ s.fwLoaded = false then { s with fwLoaded := true } else s.setStageOf d 4)) ∧ (st = 3 → s.nv.accepts d = false → ends = fails 3 d) ∧
      (st = 4 ∨ st = 5 ∨ st = 7 ∨ (st = 6 ∧ d ≠ 0) → ends = .next (s.setStageOf d (st + 1))) ∧
      (st = 6 → d = 0 → ends = .next (State.setStageOf (syncFtb { s with px := s.nv.px, py := s.nv.py }) 0 7)) ∧
      (s.nv.px = 0#5 → s.nv.py = 0#5 → (syncFtb s).ftb = s.ftb) ∧
      (st = 8 → d ≠ 0 → ∃ v, ends = .next v ∧ Loaded s v d ∧ v.mem = s.mem) ∧
      (st = 8 → d = 0 → s.cqRoom 0 = false → s.host.uns.length < 4096 → ∃ v, ends = .next v ∧ Loaded s v 0 ∧ v.mem = s.mem ∧
        bits (v.dieReg 0 0x40000) 3 0 = 9 ∧ bits (v.dieReg 0 0x40000) 7 4 = s.nv.member % 16 ∧ v.hwin = s.nv.hwin ∧
        v.member = s.nv.member ∧
        (∀ q < 16, ∀ cq k, k < 8 → v.ring cq q (8 * k) = if bit (s.ring cq q 0x20) 0 = true then s.ring cq q (8 * k) else 0#64) ∧
        ∃ c, v.host.uns = s.host.uns ++ [c] ∧ c.kind = 7 ∧ c.info2 = BitVec.ofNat 64 (bits (v.dieReg 0 0x20000) 6 0))) ∧
    (∀ (s : State), let r := s.dieReg 0 0x40000
      let st := (s.dieAt 0).stage
      s.jtag ≠ .extest → bits r 47 32 = 0 → 1 ≤ st → st ≤ 2 → s.portUp = false →
        exec (.bringupStageEnd true 24) s = .next (if st = 2 then State.setStageOf { s with portUp := true } 0 3 else { s with portUp := true }) ∧
        exec (.bringupStageEnd false 24) s = .next (s.setDieReg 0 0x40000 (setBits (setBits r 47 32 2) 31 24 0))) ∧
    (∀ (d : Nat) (s : State), let x := s.dieAt d
      let busy := fun g => (s.tileAt g).task.isSome = true ∨ (s.tileAt g).cut.isSome = true
      d < 24 → s.jtag ≠ .extest → NoneResuming s d →
      ((∀ g, g / 16 = d → ¬ busy g) → exec (.dieRetentionEnter d) s =
        .next (s.setDieAt d { x with gated := 0xFFFF#16, retention := true })) ∧
      ((∃ g, g / 16 = d ∧ busy g) → (∀ g, g / 16 = d → Single s g) → ∃ v, exec (.dieRetentionEnter d) s = .next v ∧
        (v.dieAt d).retention = x.retention ∧ ∀ g, g / 16 = d →
          ((s.tileAt g).task = none → (v.dieAt d).gated.getLsbD (g % 16) = true) ∧
          ((s.tileAt g).task.isSome = true → (s.tileAt g).run = .running → (s.tileAt g).pre = none →
            v.tileAt g = requested (s.tileAt g) 2 false s.ftb)) ∧
      (x.retention = true → s.standby = false → ∃ v, exec (.dieRetentionExit d) s = .next v ∧ (v.dieAt d).retention = false ∧
        (∀ k < 16, (v.dieAt d).gated.getLsbD k = (x.gated.getLsbD k && StaysGated s d k x.gateOrder)) ∧
        ∀ g, v.tileAt g = if g / 16 = d ∧ StaysGated s d (g % 16) x.gateOrder = false then { s.tileAt g with fwStop := false }
          else s.tileAt g)) ∧
    (∀ (s : State), s.jtag ≠ .extest → let fit := ∀ d < 24, (s.dieAt d).retention = true ∧ s.dmode d ≠ 2
      (fit → exec .packageStandbyEnter s = .next { s with standby := true }) ∧ (¬ fit → exec .packageStandbyEnter s = .next s) ∧
      exec .packageStandbyExit s = .next { s with standby := false }) ∧
    (∀ (d temp c : Nat) (since : BitVec 64) (s : State), let x := s.dieAt d
      let u := s.until (x.thermalAt + 100000#64)
      let ran := fun (p : State → Prop) => ∃ v, exec (.thermalSample d temp) s = .next v ∧ v.ftb = u.ftb ∧ (v.dieAt d).thermalAt = u.ftb ∧ p v
      d < 24 → s.jtag ≠ .extest → NoneResuming s d →
      (1120 ≤ temp → ran fun v => v.fatal = true) ∧
      (900 ≤ temp → temp < 1000 → x.gateOrder = [] → ran fun v => (v.dieAt d).hotSince = none ∧ (v.dieAt d).coolSince = none ∧
        (v.dieAt d).gated = x.gated ∧ v.tiles = s.tiles) ∧
      (1000 ≤ temp → temp < 1120 → x.hotSince = some since → 1000000 ≤ (u.ftb - since).toNat → (∀ g, g / 16 = d → Single s g) →
        c < 4 → c ∉ x.gateOrder → s.running d c ≠ 0 → (∀ e, c < e → e < 4 → s.running d e = 0 ∨ e ∈ x.gateOrder) →
        ran fun v => (v.dieAt d).gateOrder = c :: x.gateOrder ∧ ∀ k < 4, let g := 16 * d + 4 * c + k
          (s.tileAt g).run = .running → (s.tileAt g).pre = none → v.tileAt g = requested (s.tileAt g) 2 false u.ftb) ∧
      (temp < 900 → x.coolSince = some since → 10000000 ≤ (u.ftb - since).toNat → x.retention = false →
        let back := fun k => x.gateOrder.contains (k / 4) && !bit (s.dieReg d 0x30048) k
        ran fun v => (v.dieAt d).gateOrder = [] ∧ (∀ k < 16, (v.dieAt d).gated.getLsbD k = (x.gated.getLsbD k && !back k)) ∧
          ∀ g, v.tileAt g = if g / 16 = d ∧ back (g % 16) = true then { s.tileAt g with fwStop := false } else s.tileAt g))

namespace Sys2Proof.Claims

/-- Engine `e` of tile `g` may fetch (R55): its tile runs, and V, M or D has a word that S has passed. -/
def MayFetch (s : State) (g : Nat) (e : Eng) : Prop :=
  (s.tileAt g).runs = true ∧ (e = .S ∨ ((s.tileAt g).level = .task ∧ ((s.tileAt g).eng e).pos < (s.tileAt g).eS.pos))

/-- Engine `e` of tile `g` is in an expansion at the word `w` of the tile's control store (R65), and `u` is the state seen from it. -/
def Expands (s : State) (g : Nat) (e : Eng) (w : BitVec 32) (u : State) : Prop :=
  ∃ x, ((s.tileAt g).eng e).exp = some x ∧ w = microWord ((s.tileAt g).micro x.entry) x.j x.p0 x.p1 x.p2 ∧ u = { s with cur := g }

/-- The memory is in its canonical form, and the security state of the package is one of the four (R422). -/
def Canonical (s : State) : Prop := s.mem.wf = true ∧ s.sec.state ≤ 3

end Sys2Proof.Claims

/-- At task level, with a scoreboard area that takes the stores, a trap of any cause and any word, precise or late,
taken while ACT = 1 leaves the tile at supervisor level with TSTAT.UFA 1 and the task-level frame as it was. A late
GLOVE goes to supervisor level whatever UFV and ACT hold. A supervisor that returns to the task, by eret with no
pending entry or by resume, leaves UFV with its ACT, UFEPC, UFINFO, UFADDR and the place in the expansion as they
were. -/
def Obligations.FaultWhileActiveGoesToSupervisor : Prop :=
  let frame := fun (t : Tile) => (t.ufv, t.ufepc, t.ufcause, t.ufaddr, t.ufexp)
  (∀ (i : TrapInfo) (w : WordRef) (p : Option Expn) (late : Bool) (n : Nat) (x : Engine) (s : State),
    s.tile.level = .task → AreaFits s → s.dmode (s.cur / 16) = 0 →
    let t := takeTrap i w p late n x s.cur s
    (bit s.tile.ufv 1 = true → t.tile.level = .supervisor ∧ bit t.tile.tstat 10 = true ∧ frame t.tile = frame s.tile) ∧
    (i.cause = cGLOVE → late = true →
      t.tile.level = .supervisor ∧ bit t.tile.tstat 10 = bit s.tile.ufv 1 ∧ frame t.tile = frame s.tile)) ∧
  (∀ (c : TrapCtx) (s : State), s.tile.runs = true → s.tile.level = .supervisor → bit s.tile.tstat 7 = false → s.tile.trap = some c →
    (c.pend = [] → ∃ t, exec .eret s = .next t ∧ t.tile.level = .task ∧ frame t.tile = frame s.tile) ∧
    (∃ t, exec .resume s = .next t ∧ t.tile.level = .task ∧ frame t.tile = frame s.tile))

/-- Let the agenda name engine e of tile g, which may fetch, and let its word, of the text or of the expansion it is
in, be w. If w decodes to i and its tag is e's, step is exec of i in the state after the fetch. If it is S's word and
e takes its outcome, or the operand it puts, step is exec of that unit step; at any other word of another engine it is
exec of stepping over it. At supervisor level a word of another engine is illegal. A word that decodes to nothing is
illegal to the engine of its tag, and to S at supervisor level; every other engine steps over it. A unit's step at the
head is exec of it. That the agenda names the moves is the model's choice (log 2). -/
def Obligations.StepRunsDecodedInstruction : Prop :=
  ∀ (g : Nat) (e : Eng) (w : BitVec 32) (rest : List Move) (u s : State),
    (∀ i, s.agenda = .event i :: rest → step s = exec i { s with agenda := rest }) ∧
    (s.agenda = .engine g e :: rest → MayFetch s g e →
      Fetches { s with agenda := rest } g e w u ∨ Expands { s with agenda := rest } g e w u →
      (∀ i, decode w = .ok i →
        (wordEngine w = e → step s = exec i u) ∧
        (wordEngine w ≠ e → (s.tileAt g).level = .supervisor → step s = runIllegal e u) ∧
        (wordEngine w ≠ e → (s.tileAt g).level = .task → wordEngine w = .S → popsOutcome i = true → step s = exec (.jointOutcomePop g e) u) ∧
        (wordEngine w ≠ e → (s.tileAt g).level = .task → wordEngine w = .S → putEngine i = some e → step s = exec (.operandQueuePop g e) u) ∧
        (wordEngine w ≠ e → (s.tileAt g).level = .task → (wordEngine w = .S → popsOutcome i = false ∧ putEngine i ≠ some e) →
          step s = exec (.wordStepOver g e) u)) ∧
      (∀ r, decode w = .error r →
        (wordEngine w = e ∨ (s.tileAt g).level = .supervisor → step s = runIllegal e u) ∧
        (wordEngine w ≠ e → (s.tileAt g).level = .task → step s = exec (.wordStepOver g e) u)))

/-- The words of the worked encodings decode as the spec says: a load, a branch, the two words of li, csrw, an atomic,
a compare-and-swap, put, adopt; vector arithmetic, fma, gather, top-k and attg; a drain and nwait; dcp with its
conversion, a key-value word, dwin, dkey, dcoll, trec and relv. 0x00000000 is add x0, x0, x0; the reserved words
0x0F000000 and 0xFFFFFFFF decode to nothing. -/
def Obligations.DecodedWords : Prop :=
  decode 0x16146008#32 = .ok (.ldD 5#6 6#6 8#12) ∧ decode 0x31140FFD#32 = .ok (.bne 5#6 0#6 0xFFD#12) ∧
  decode 0x04140400#32 = .ok (.addi 5#6 0#6 0x400#12) ∧ decode 0x0D140000#32 = .ok (.lih 5#6 0#18) ∧
  decode 0x3D01F024#32 = .ok (.csrw 0#6 31#6 0x024#12) ∧ decode 0x223C600B#32 = .ok (.amoOr 15#6 6#6 0#6 1#3 3#3) ∧
  decode 0x2930B34B#32 = .ok (.cas 12#6 11#6 13#6 1#3 3#3) ∧ decode 0x1B04A002#32 = .ok (.putM 1#6 10#6) ∧
  decode 0x2E1461C0#32 = .ok (.adopt 5#6 6#6 7#6) ∧
  decode 0x404110C8#32 = .ok (.vadd 2#4 1#5 2#5 3#5 1#3 0#3) ∧ decode 0x46042990#32 = .ok (.vfma 0#4 4#5 5#5 6#5 2#3 0#3) ∧
  decode 0x76461023#32 = .ok (.vgth 2#4 6#5 1#4 0#6 4#3 3#3) ∧ decode 0x7E082A08#32 = .ok (.vtopk 0#4 4#4 1#4 5#4 8#6) ∧
  decode 0x7E0246C0#32 = .ok (.attg 0#4 1#4 2#4 3#4 0#1) ∧
  decode 0x881620C0#32 = .ok (.ndrain 0#4 11#4 1#4 0#3 0#2 12#4) ∧ decode 0x8E015000#32 = .ok (.nwait 0#4 21#9) ∧
  decode 0xC00246A3#32 = .ok (.dcp 0#4 1#4 2#4 3#4 5#4 0#3 1#1 1#1) ∧ decode 0xE4024601#32 = .ok (.kvfork 0#4 1#4 2#4 3#4 1#1) ∧
  decode 0xD000A003#32 = .ok (.dwin 0#4 5#4 3#4) ∧ decode 0xD408AC03#32 = .ok (.dkey 0#4 4#4 5#4 6#4 3#4) ∧
  decode 0xD6024600#32 = .ok (.dcollRs 0#4 1#4 2#4 3#4) ∧ decode 0xFA006805#32 = .ok (.trec 0#4 3#4 4#4 2#2 1#1) ∧
  decode 0xF8002400#32 = .ok (.relv 0#4 1#4 2#4) ∧ decode 0x00000000#32 = .ok (.add 0#6 0#6 0#6) ∧
  (∀ i, decode 0x0F000000#32 ≠ .ok i) ∧ (∀ i, decode 0xFFFFFFFF#32 ≠ .ok i)

/-- For every instruction of the table that has a word and whose fields are legal, at every value of every field, the
decoder reads the encoder's word as that instruction; so two legal instructions never share a word. -/
def Obligations.EncodeDecodeRoundTrip : Prop :=
  (∀ i w, i.wellFormed = true → encode i = some w → decode w = .ok i) ∧
  (∀ i j w, i.wellFormed = true → j.wellFormed = true → encode i = some w → encode j = some w → i = j)

/-- Every word that the decoder accepts decodes to an instruction whose fields are legal, and it is the word the
encoder writes for that instruction; so two words never decode to the same instruction, and every bit of a legal word
is an opcode bit, a field the instruction holds, or a zero the rules ask for. -/
def Obligations.DecodeEncodeRoundTrip : Prop :=
  (∀ w i, decode w = .ok i → i.wellFormed = true ∧ encode i = some w) ∧
  (∀ v w i, decode v = .ok i → decode w = .ok i → v = w)

/-- For every state that meets the invariant, whatever the agenda, the tiles, the dies and the host hold, a step that
answers a next state answers one that meets it: the memory lists rising addresses and no zero byte, with its gloves in
the same form, and the security state is 0 to 3. The canonical form is the model's own (log 3). -/
def Obligations.InvariantKeptByEveryStep : Prop :=
  ∀ s t, Canonical s → step s = .next t → Canonical t

/-- The state right after reset has memory in its canonical form and a security state among the four. -/
def Obligations.InvariantAtReset : Prop :=
  Canonical State.reset
end

