-- ==== Sys2Proof/Laws/Maps.lean ====
section
/-!
SUPPORT. Reading keyed data and memory after a write, and that every write keeps the canonical form.
-/

namespace Sys2Proof.Machine

variable {α : Type}

@[simp] theorem mapGet_nil (d : α) (n : Nat) : mapGet d [] n = d := rfl

@[simp] theorem mapGet_mapPut_self (d : α) (m : SMap α) (n : Nat) (w : α) : mapGet d (mapPut m n w) n = w := by
  induction m with
  | nil => simp [mapPut, mapGet]
  | cons p t ih =>
    obtain ⟨k, v⟩ := p
    by_cases h : n = k
    · subst h; simp [mapPut, mapGet]
    · by_cases h' : n < k <;> simp [mapPut, mapGet, h, h', ih]

theorem mapGet_mapPut_other (d : α) (m : SMap α) {n r : Nat} (w : α) (h : r ≠ n) :
    mapGet d (mapPut m n w) r = mapGet d m r := by
  induction m with
  | nil => simp [mapPut, mapGet, h]
  | cons p t ih =>
    obtain ⟨k, v⟩ := p
    by_cases h1 : n = k
    · subst h1; simp [mapPut, mapGet, h]
    · by_cases h2 : n < k <;> by_cases h3 : r = k <;> simp [mapPut, mapGet, h, h1, h2, h3, ih]
      exact fun q => absurd (h3.trans q) h

@[simp] theorem mapGet_mapDel_self (d : α) (m : SMap α) (n : Nat) : mapGet d (mapDel m n) n = d := by
  induction m with
  | nil => rfl
  | cons p t ih =>
    obtain ⟨k, v⟩ := p
    by_cases h : n = k <;> simp [mapDel, mapGet, h, ih]
    · subst h; exact ih

theorem mapGet_mapDel_other (d : α) (m : SMap α) {n r : Nat} (h : r ≠ n) :
    mapGet d (mapDel m n) r = mapGet d m r := by
  induction m with
  | nil => rfl
  | cons p t ih =>
    obtain ⟨k, v⟩ := p
    by_cases h1 : n = k
    · subst h1; simp [mapDel, mapGet, h, ih]
    · by_cases h3 : r = k <;> simp [mapDel, mapGet, h1, h3, ih]

variable [DecidableEq α]

@[simp] theorem mapGet_mapSet_self (d : α) (m : SMap α) (n : Nat) (w : α) : mapGet d (mapSet d m n w) n = w := by
  by_cases h : w = d <;> simp [mapSet, h]

theorem mapGet_mapSet_other (d : α) (m : SMap α) {n r : Nat} (w : α) (h : r ≠ n) :
    mapGet d (mapSet d m n w) r = mapGet d m r := by
  by_cases h' : w = d <;> simp [mapSet, h', mapGet_mapPut_other, mapGet_mapDel_other, h]

/-! ## The canonical form -/

omit [DecidableEq α] in
theorem mapSorted_mono {lo lo' : Nat} (h : lo' ≤ lo) (m : SMap α) (hm : mapSorted (some lo) m = true) :
    mapSorted (some lo') m = true := by
  cases m with
  | nil => rfl
  | cons p t => simp [mapSorted] at *; exact ⟨by omega, hm.2⟩

omit [DecidableEq α] in
theorem mapSorted_none {lo : Nat} (m : SMap α) (hm : mapSorted (some lo) m = true) : mapSorted none m = true := by
  cases m with
  | nil => rfl
  | cons p t => simp [mapSorted] at *; exact hm.2

omit [DecidableEq α] in
theorem mapSorted_put (lo : Nat) (m : SMap α) (n : Nat) (w : α) (hn : lo < n) (hm : mapSorted (some lo) m = true) :
    mapSorted (some lo) (mapPut m n w) = true := by
  induction m generalizing lo with
  | nil => simp [mapPut, mapSorted, hn]
  | cons p t ih =>
    obtain ⟨k, v⟩ := p
    simp only [mapSorted, Bool.and_eq_true, decide_eq_true_eq] at hm
    by_cases h1 : n = k
    · subst h1; simp [mapPut, mapSorted, hm]
    · by_cases h2 : n < k
      · simp [mapPut, h1, h2, mapSorted, hn, hm.2]
      · simp [mapPut, h1, h2, mapSorted, hm.1]; exact ih k (by omega) hm.2

omit [DecidableEq α] in
theorem mapSorted_put_none (m : SMap α) (n : Nat) (w : α) (hm : mapSorted none m = true) :
    mapSorted none (mapPut m n w) = true := by
  cases m with
  | nil => rfl
  | cons p t =>
    obtain ⟨k, v⟩ := p
    simp only [mapSorted] at hm
    by_cases h1 : n = k
    · subst h1; simpa [mapPut, mapSorted] using hm
    · by_cases h2 : n < k
      · simp [mapPut, h1, h2, mapSorted, hm]
      · simp only [mapPut, h1, h2, if_false, mapSorted]; exact mapSorted_put k t n w (by omega) hm

omit [DecidableEq α] in
theorem mapSorted_del (lo : Nat) (m : SMap α) (n : Nat) (hm : mapSorted (some lo) m = true) :
    mapSorted (some lo) (mapDel m n) = true := by
  induction m generalizing lo with
  | nil => rfl
  | cons p t ih =>
    obtain ⟨k, v⟩ := p
    simp only [mapSorted, Bool.and_eq_true, decide_eq_true_eq] at hm
    by_cases h1 : n = k
    · simp only [mapDel, h1, if_true]
      subst h1
      exact mapSorted_mono (Nat.le_of_lt hm.1) _ (ih n hm.2)
    · simp [mapDel, h1, mapSorted, hm.1]; exact ih k hm.2

omit [DecidableEq α] in
theorem mapSorted_del_none (m : SMap α) (n : Nat) (hm : mapSorted none m = true) :
    mapSorted none (mapDel m n) = true := by
  cases m with
  | nil => rfl
  | cons p t =>
    obtain ⟨k, v⟩ := p
    simp only [mapSorted] at hm
    by_cases h1 : n = k
    · simp only [mapDel, h1, if_true]; exact mapSorted_none _ (mapSorted_del k t k hm)
    · simp only [mapDel, h1, if_false, mapSorted]; exact mapSorted_del k t n hm

omit [DecidableEq α] in
theorem mapPut_all (q : Nat × α → Bool) (m : SMap α) (n : Nat) (w : α) (hw : q (n, w) = true) (hm : m.all q = true) :
    (mapPut m n w).all q = true := by
  induction m with
  | nil => simp [mapPut, hw]
  | cons p t ih =>
    obtain ⟨k, v⟩ := p
    simp only [List.all_cons, Bool.and_eq_true] at hm
    by_cases h1 : n = k
    · subst h1; simp only [mapPut, if_true, List.all_cons, hw, hm.2, Bool.and_self]
    · by_cases h2 : n < k <;> simp only [mapPut, h1, h2, if_true, if_false, List.all_cons, hw, hm.1, hm.2, ih hm.2, Bool.and_self]

omit [DecidableEq α] in
theorem mapDel_all (q : Nat × α → Bool) (m : SMap α) (n : Nat) (hm : m.all q = true) : (mapDel m n).all q = true := by
  induction m with
  | nil => rfl
  | cons p t ih =>
    obtain ⟨k, v⟩ := p
    simp only [List.all_cons, Bool.and_eq_true] at hm
    by_cases h1 : n = k <;> simp only [mapDel, h1, if_true, if_false, List.all_cons, hm.1, Bool.true_and]
    · subst h1; exact ih hm.2
    · exact ih hm.2

/-- A write keeps the canonical form. -/
theorem mapWf_mapSet (d : α) (m : SMap α) (n : Nat) (w : α) (hm : mapWf d m = true) : mapWf d (mapSet d m n w) = true := by
  simp only [mapWf, Bool.and_eq_true] at *
  by_cases h : w = d
  · simp only [mapSet, h, if_true]; exact ⟨mapSorted_del_none m n hm.1, mapDel_all _ m n hm.2⟩
  · simp only [mapSet, h, if_false]; exact ⟨mapSorted_put_none m n w hm.1, mapPut_all _ m n w (by simp [h]) hm.2⟩

/-! ## Memory -/

theorem Mem.wf_empty : Mem.empty.wf = true := rfl

/-- Writing a byte keeps the canonical form. -/
theorem Mem.wf_setByte (m : Mem) (a : Nat) (v : BitVec 8) (h : m.wf = true) : (m.setByte a v).wf = true := by
  simp only [Mem.wf, Mem.setByte, Bool.and_eq_true] at *
  exact ⟨mapWf_mapSet _ _ _ _ h.1, h.2⟩

/-- Writing a doubleword keeps the canonical form. -/
theorem Mem.wf_write (m : Mem) (a : Nat) (w : GWord) (h : m.wf = true) : (m.write a w).wf = true := by
  simp only [Mem.wf, Bool.and_eq_true] at h
  simp only [Mem.wf, Mem.write, Bool.and_eq_true]
  exact ⟨by repeat (first | exact h.1 | apply mapWf_mapSet), mapWf_mapSet _ _ _ _ h.2⟩

/-- Writing consecutive doublewords keeps the canonical form. -/
theorem Mem.wf_writeList (l : List GWord) (m : Mem) (a : Nat) (h : m.wf = true) : (m.writeList a l).wf = true := by
  induction l generalizing m a with
  | nil => exact h
  | cons w t ih => exact ih _ _ (Mem.wf_write m a w h)

/-- A byte outside the written doubleword reads as before. -/
theorem Mem.byte_write_other (m : Mem) {a b : Nat} (w : GWord) (h : b / 8 ≠ a / 8) : (m.write a w).byte b = m.byte b := by
  simp only [Mem.write, Mem.byte]
  repeat rw [mapGet_mapSet_other _ _ _ (by omega)]

/-- The doubleword just written is read back. -/
theorem Mem.read_write_self (m : Mem) (a : Nat) (w : GWord) : (m.write a w).read a = w := by
  have e : ∀ (m : Mem) (i j : Nat) (v : BitVec 8), i ≠ j → mapGet (0 : BitVec 8) (mapSet (0 : BitVec 8) m.data j v) i =
      mapGet (0 : BitVec 8) m.data i := fun m i j v h => mapGet_mapSet_other _ _ _ h
  simp only [Mem.read, Mem.write, Mem.byte]
  cases w with
  | mk d g =>
    congr 1
    · simp (disch := omega) only [mapGet_mapSet_other, mapGet_mapSet_self]
      ext i hi
      simp only [BitVec.getElem_append, BitVec.getElem_extractLsb']
      repeat' split
      all_goals (rw [← BitVec.getLsbD_eq_getElem]; congr 1; omega)
    · simp

/-- A doubleword that was not written reads as before. -/
theorem Mem.read_write_other (m : Mem) {a b : Nat} (w : GWord) (h : b / 8 ≠ a / 8) : (m.write a w).read b = m.read b := by
  simp only [Mem.read]
  congr 1
  · repeat rw [Mem.byte_write_other _ _ (by omega)]
  · simp only [Mem.write]; rw [mapGet_mapSet_other _ _ _ h]

end Sys2Proof.Machine
end

