-- ==== Sys2Proof/Laws/Eff.lean ====
section
/-!
SUPPORT. How the steps of a word compose, what each basic action answers, and what each access to tiles, dies and registers reads
after each write.
-/

namespace Sys2Proof.Machine

variable {α β : Type}

/-! ## Actions -/

@[simp] theorem eff_pure (a : α) (s : State) : (pure a : Eff α) s = .ok (a, s) := rfl

@[simp] theorem eff_bind (f : Eff α) (g : α → Eff β) (s : State) :
    (f >>= g) s = match f s with
      | .ok (a, s') => g a s'
      | .error e => .error e := by
  simp only [Bind.bind, StateT.bind, Except.bind]; cases f s <;> rfl

@[simp] theorem eff_run (f : Eff α) (s : State) : f.run s = f s := rfl

@[simp] theorem stop_apply (r : Stop) (s : State) : (stop r : Eff α) s = .error r := rfl

@[simp] theorem waitWord_apply (s : State) : (waitWord : Eff α) s = .error .wait := rfl

@[simp] theorem raise_apply (c k : Nat) (i : BitVec 64) (s : State) :
    (raise c k i : Eff α) s = .error (.trap ⟨c, k, i, none⟩ []) := rfl

@[simp] theorem waitUnless_true (s : State) : waitUnless true s = .ok ((), s) := rfl

@[simp] theorem waitUnless_false (s : State) : waitUnless false s = .error .wait := rfl

@[simp] theorem raiseIf_false (c k : Nat) (i : BitVec 64) (s : State) : raiseIf false c k i s = .ok ((), s) := rfl

@[simp] theorem raiseIf_true (c k : Nat) (i : BitVec 64) (s : State) :
    raiseIf true c k i s = .error (.trap ⟨c, k, i, none⟩ []) := rfl

@[simp] theorem getTile_apply (s : State) : getTile s = .ok (s.tile, s) := rfl

@[simp] theorem modTile_apply (f : Tile → Tile) (s : State) : modTile f s = .ok ((), s.setTile (f s.tile)) := rfl

@[simp] theorem curTile_apply (s : State) : curTile s = .ok (s.cur, s) := rfl

@[simp] theorem getsState_apply (f : State → α) (s : State) : getsState f s = .ok (f s, s) := rfl

@[simp] theorem modState_apply (f : State → State) (s : State) : modState f s = .ok ((), f s) := rfl

@[simp] theorem freshTurn_apply (s : State) : freshTurn s = .ok (s.fresh, { s with fresh := s.fresh + 1 }) := rfl

/-! ## Words with their own glove (R89 to R91) -/

/-- A word that a producing lane wrote is delivered as it is. -/
@[simp] theorem checkWord_gloved (d : BitVec 64) : checkWord (gloved d) = .ok d false := by
  simp [checkWord, gloved]

/-- A consuming lane delivers a word that a producing lane wrote and changes nothing. -/
@[simp] theorem check_gloved (d : BitVec 64) (i : BitVec 64) (s : State) : check (gloved d) i s = .ok (d, s) := by
  simp [check]

/-- A consuming lane that corrects a single error counts it in GCC. -/
theorem check_corrected {w : GWord} {d : BitVec 64} (h : checkWord w = .ok d true) (i : BitVec 64) (s : State) :
    check w i s = .ok (d, s.setTile { s.tile with gcc := s.tile.gcc + 1#64 }) := by
  simp [check, h]

/-- A consuming lane that finds an uncorrectable word raises GLOVE. -/
theorem check_bad {w : GWord} (h : checkWord w = .bad) (i : BitVec 64) (s : State) :
    check w i s = .error (.trap ⟨cGLOVE, 0, i, none⟩ []) := by
  simp [check, h]

/-! ## Tiles and dies -/

@[simp] theorem tileAt_setTileAt_self (s : State) (g : Nat) (t : Tile) : (s.setTileAt g t).tileAt g = t := by
  simp [State.tileAt, State.setTileAt]

theorem tileAt_setTileAt_other (s : State) {g k : Nat} (t : Tile) (h : k ≠ g) : (s.setTileAt g t).tileAt k = s.tileAt k := by
  simp [State.tileAt, State.setTileAt, mapGet_mapPut_other _ _ _ h]

@[simp] theorem tile_setTile (s : State) (t : Tile) : (s.setTile t).tile = t := by
  simp [State.tile, State.setTile, State.setTileAt, State.tileAt]

@[simp] theorem setTileAt_cur (s : State) (g : Nat) (t : Tile) : (s.setTileAt g t).cur = s.cur := rfl

@[simp] theorem setTile_cur (s : State) (t : Tile) : (s.setTile t).cur = s.cur := rfl

theorem mapPut_mapPut (m : SMap α) (n : Nat) (v w : α) : mapPut (mapPut m n v) n w = mapPut m n w := by
  induction m with
  | nil => simp [mapPut]
  | cons p t ih =>
    obtain ⟨k, x⟩ := p
    by_cases h : n = k
    · subst h; simp [mapPut]
    · by_cases h' : n < k <;> simp [mapPut, h, h', ih]

@[simp] theorem setTileAt_setTileAt (s : State) (g : Nat) (t u : Tile) : (s.setTileAt g t).setTileAt g u = s.setTileAt g u := by
  simp [State.setTileAt, mapPut_mapPut]

@[simp] theorem setTile_setTile (s : State) (t u : Tile) : (s.setTile t).setTile u = s.setTile u := by
  simp [State.setTile]

@[simp] theorem dieAt_setDieAt_self (s : State) (d : Nat) (x : Die) : (s.setDieAt d x).dieAt d = x := by
  simp [State.dieAt, State.setDieAt]

theorem dieAt_setDieAt_other (s : State) {d k : Nat} (x : Die) (h : k ≠ d) : (s.setDieAt d x).dieAt k = s.dieAt k := by
  simp [State.dieAt, State.setDieAt, mapGet_mapPut_other _ _ _ h]

@[simp] theorem dieAt_setTileAt (s : State) (g d : Nat) (t : Tile) : (s.setTileAt g t).dieAt d = s.dieAt d := rfl

@[simp] theorem dieAt_setTile (s : State) (d : Nat) (t : Tile) : (s.setTile t).dieAt d = s.dieAt d := rfl

@[simp] theorem tileAt_setDieAt (s : State) (g d : Nat) (x : Die) : (s.setDieAt d x).tileAt g = s.tileAt g := rfl

@[simp] theorem tile_setDieAt (s : State) (d : Nat) (x : Die) : (s.setDieAt d x).tile = s.tile := rfl

@[simp] theorem dieReg_setTile (s : State) (t : Tile) (d o : Nat) : (s.setTile t).dieReg d o = s.dieReg d o := rfl

@[simp] theorem dieReg_setTileAt (s : State) (g : Nat) (t : Tile) (d o : Nat) : (s.setTileAt g t).dieReg d o = s.dieReg d o := rfl

@[simp] theorem dieReg_setDieReg_self (s : State) (d o : Nat) (v : BitVec 64) : (s.setDieReg d o v).dieReg d o = v := by
  simp [State.dieReg, State.setDieReg]

theorem dieReg_setDieReg_other (s : State) (d : Nat) {o p : Nat} (v : BitVec 64) (h : p ≠ o) :
    (s.setDieReg d o v).dieReg d p = s.dieReg d p := by
  simp [State.dieReg, State.setDieReg, mapGet_mapSet_other _ _ _ h]

@[simp] theorem tileAt_setDieReg (s : State) (g d o : Nat) (v : BitVec 64) : (s.setDieReg d o v).tileAt g = s.tileAt g := rfl

@[simp] theorem tile_setDieReg (s : State) (d o : Nat) (v : BitVec 64) : (s.setDieReg d o v).tile = s.tile := rfl

/-! ## Registers (R115, R131) -/

@[simp] theorem getX_zero (t : Tile) : t.getX 0 = GWord.zero := by simp [Tile.getX]

@[simp] theorem getX_setX_self (t : Tile) {r : Nat} (w : GWord) (h : r ≠ 0) : (t.setX r w).getX r = w := by
  simp [Tile.getX, Tile.setX, h]

theorem getX_setX_other (t : Tile) {r q : Nat} (w : GWord) (h : q ≠ r) : (t.setX r w).getX q = t.getX q := by
  by_cases h0 : r = 0 <;> by_cases h1 : q = 0 <;> simp [Tile.getX, Tile.setX, h0, h1, mapGet_mapSet_other _ _ _ h]

@[simp] theorem putX_level (t : Tile) (r : Nat) (w : GWord) : (t.putX r w).level = t.level := by
  unfold Tile.putX Tile.setX; cases h : t.level <;> by_cases h0 : r = 0 <;> simp [h, h0]

@[simp] theorem getX_putX_self (t : Tile) {r : Nat} (w : GWord) (h : r ≠ 0) : (t.putX r w).getX r = w := by
  unfold Tile.putX; cases t.level
  · exact getX_setX_self t w h
  · exact getX_setX_self t w h

theorem getX_putX_other (t : Tile) {r q : Nat} (w : GWord) (h : q ≠ r) : (t.putX r w).getX q = t.getX q := by
  unfold Tile.putX; cases t.level
  · exact getX_setX_other t w h
  · exact getX_setX_other t w h

@[simp] theorem getV_setV_self (t : Tile) (r i : Nat) (w : GWord) : (t.setV r i w).getV r i = w := by
  simp [Tile.getV, Tile.setV]

theorem getV_setV_other (t : Tile) {r i q j : Nat} (w : GWord) (h : 128 * q + j ≠ 128 * r + i) :
    (t.setV r i w).getV q j = t.getV q j := by
  simp [Tile.getV, Tile.setV, mapGet_mapSet_other _ _ _ h]

@[simp] theorem getS_setS_self (t : Tile) (r : Nat) (w : GWord) : (t.setS r w).getS r = w := by
  simp [Tile.getS, Tile.setS]

theorem getS_setS_other (t : Tile) {r q : Nat} (w : GWord) (h : q ≠ r) : (t.setS r w).getS q = t.getS q := by
  simp [Tile.getS, Tile.setS, mapGet_mapSet_other _ _ _ h]

@[simp] theorem eng_setEng_self (t : Tile) (e : Eng) (x : Engine) : (t.setEng e x).eng e = x := by cases e <;> rfl

theorem eng_setEng_other (t : Tile) {e f : Eng} (x : Engine) (h : f ≠ e) : (t.setEng e x).eng f = t.eng f := by
  cases e <;> cases f <;> first | rfl | exact absurd rfl h

end Sys2Proof.Machine
end

