-- ==== Sys2Proof/Laws/State.lean ====
section
/-!
SUPPORT. What each field of the package, and of a tile, is after each named update: one lemma for each field that the update does not
write.
-/

namespace Sys2Proof.Machine

/-! ## Updates of the package -/

@[simp] theorem setTileAt_agenda (s : State) (g : Nat) (t : Tile) : (s.setTileAt g t).agenda = s.agenda := rfl

@[simp] theorem setTileAt_rr (s : State) (g : Nat) (t : Tile) : (s.setTileAt g t).rr = s.rr := rfl

@[simp] theorem setTileAt_fresh (s : State) (g : Nat) (t : Tile) : (s.setTileAt g t).fresh = s.fresh := rfl

@[simp] theorem setTileAt_ftb (s : State) (g : Nat) (t : Tile) : (s.setTileAt g t).ftb = s.ftb := rfl

@[simp] theorem setTileAt_px (s : State) (g : Nat) (t : Tile) : (s.setTileAt g t).px = s.px := rfl

@[simp] theorem setTileAt_py (s : State) (g : Nat) (t : Tile) : (s.setTileAt g t).py = s.py := rfl

@[simp] theorem setTileAt_mem (s : State) (g : Nat) (t : Tile) : (s.setTileAt g t).mem = s.mem := rfl

@[simp] theorem setTileAt_dies (s : State) (g : Nat) (t : Tile) : (s.setTileAt g t).dies = s.dies := rfl

@[simp] theorem setTileAt_net (s : State) (g : Nat) (t : Tile) : (s.setTileAt g t).net = s.net := rfl

@[simp] theorem setTileAt_links (s : State) (g : Nat) (t : Tile) : (s.setTileAt g t).links = s.links := rfl

@[simp] theorem setTileAt_fatal (s : State) (g : Nat) (t : Tile) : (s.setTileAt g t).fatal = s.fatal := rfl

@[simp] theorem setTileAt_frozen (s : State) (g : Nat) (t : Tile) : (s.setTileAt g t).frozen = s.frozen := rfl

@[simp] theorem setTileAt_portUp (s : State) (g : Nat) (t : Tile) : (s.setTileAt g t).portUp = s.portUp := rfl

@[simp] theorem setTileAt_fatalEntry (s : State) (g : Nat) (t : Tile) : (s.setTileAt g t).fatalEntry = s.fatalEntry := rfl

@[simp] theorem setTileAt_host (s : State) (g : Nat) (t : Tile) : (s.setTileAt g t).host = s.host := rfl

@[simp] theorem setTileAt_hwin (s : State) (g : Nat) (t : Tile) : (s.setTileAt g t).hwin = s.hwin := rfl

@[simp] theorem setTileAt_member (s : State) (g : Nat) (t : Tile) : (s.setTileAt g t).member = s.member := rfl

@[simp] theorem setTileAt_sec (s : State) (g : Nat) (t : Tile) : (s.setTileAt g t).sec = s.sec := rfl

@[simp] theorem setTileAt_nv (s : State) (g : Nat) (t : Tile) : (s.setTileAt g t).nv = s.nv := rfl

@[simp] theorem setTileAt_reply (s : State) (g : Nat) (t : Tile) : (s.setTileAt g t).reply = s.reply := rfl

@[simp] theorem setTileAt_fwLoaded (s : State) (g : Nat) (t : Tile) : (s.setTileAt g t).fwLoaded = s.fwLoaded := rfl

@[simp] theorem setTileAt_standby (s : State) (g : Nat) (t : Tile) : (s.setTileAt g t).standby = s.standby := rfl

@[simp] theorem setTileAt_jtag (s : State) (g : Nat) (t : Tile) : (s.setTileAt g t).jtag = s.jtag := rfl

@[simp] theorem setTileAt_cells (s : State) (g : Nat) (t : Tile) : (s.setTileAt g t).cells = s.cells := rfl

@[simp] theorem setTileAt_heldUnits (s : State) (g : Nat) (t : Tile) : (s.setTileAt g t).heldUnits = s.heldUnits := rfl

@[simp] theorem setTile_agenda (s : State) (t : Tile) : (s.setTile t).agenda = s.agenda := rfl

@[simp] theorem setTile_rr (s : State) (t : Tile) : (s.setTile t).rr = s.rr := rfl

@[simp] theorem setTile_fresh (s : State) (t : Tile) : (s.setTile t).fresh = s.fresh := rfl

@[simp] theorem setTile_ftb (s : State) (t : Tile) : (s.setTile t).ftb = s.ftb := rfl

@[simp] theorem setTile_px (s : State) (t : Tile) : (s.setTile t).px = s.px := rfl

@[simp] theorem setTile_py (s : State) (t : Tile) : (s.setTile t).py = s.py := rfl

@[simp] theorem setTile_mem (s : State) (t : Tile) : (s.setTile t).mem = s.mem := rfl

@[simp] theorem setTile_dies (s : State) (t : Tile) : (s.setTile t).dies = s.dies := rfl

@[simp] theorem setTile_net (s : State) (t : Tile) : (s.setTile t).net = s.net := rfl

@[simp] theorem setTile_links (s : State) (t : Tile) : (s.setTile t).links = s.links := rfl

@[simp] theorem setTile_fatal (s : State) (t : Tile) : (s.setTile t).fatal = s.fatal := rfl

@[simp] theorem setTile_frozen (s : State) (t : Tile) : (s.setTile t).frozen = s.frozen := rfl

@[simp] theorem setTile_portUp (s : State) (t : Tile) : (s.setTile t).portUp = s.portUp := rfl

@[simp] theorem setTile_fatalEntry (s : State) (t : Tile) : (s.setTile t).fatalEntry = s.fatalEntry := rfl

@[simp] theorem setTile_host (s : State) (t : Tile) : (s.setTile t).host = s.host := rfl

@[simp] theorem setTile_hwin (s : State) (t : Tile) : (s.setTile t).hwin = s.hwin := rfl

@[simp] theorem setTile_member (s : State) (t : Tile) : (s.setTile t).member = s.member := rfl

@[simp] theorem setTile_sec (s : State) (t : Tile) : (s.setTile t).sec = s.sec := rfl

@[simp] theorem setTile_nv (s : State) (t : Tile) : (s.setTile t).nv = s.nv := rfl

@[simp] theorem setTile_reply (s : State) (t : Tile) : (s.setTile t).reply = s.reply := rfl

@[simp] theorem setTile_fwLoaded (s : State) (t : Tile) : (s.setTile t).fwLoaded = s.fwLoaded := rfl

@[simp] theorem setTile_standby (s : State) (t : Tile) : (s.setTile t).standby = s.standby := rfl

@[simp] theorem setTile_jtag (s : State) (t : Tile) : (s.setTile t).jtag = s.jtag := rfl

@[simp] theorem setTile_cells (s : State) (t : Tile) : (s.setTile t).cells = s.cells := rfl

@[simp] theorem setTile_heldUnits (s : State) (t : Tile) : (s.setTile t).heldUnits = s.heldUnits := rfl

@[simp] theorem setDieAt_cur (s : State) (d : Nat) (x : Die) : (s.setDieAt d x).cur = s.cur := rfl

@[simp] theorem setDieAt_agenda (s : State) (d : Nat) (x : Die) : (s.setDieAt d x).agenda = s.agenda := rfl

@[simp] theorem setDieAt_rr (s : State) (d : Nat) (x : Die) : (s.setDieAt d x).rr = s.rr := rfl

@[simp] theorem setDieAt_fresh (s : State) (d : Nat) (x : Die) : (s.setDieAt d x).fresh = s.fresh := rfl

@[simp] theorem setDieAt_ftb (s : State) (d : Nat) (x : Die) : (s.setDieAt d x).ftb = s.ftb := rfl

@[simp] theorem setDieAt_px (s : State) (d : Nat) (x : Die) : (s.setDieAt d x).px = s.px := rfl

@[simp] theorem setDieAt_py (s : State) (d : Nat) (x : Die) : (s.setDieAt d x).py = s.py := rfl

@[simp] theorem setDieAt_mem (s : State) (d : Nat) (x : Die) : (s.setDieAt d x).mem = s.mem := rfl

@[simp] theorem setDieAt_tiles (s : State) (d : Nat) (x : Die) : (s.setDieAt d x).tiles = s.tiles := rfl

@[simp] theorem setDieAt_net (s : State) (d : Nat) (x : Die) : (s.setDieAt d x).net = s.net := rfl

@[simp] theorem setDieAt_links (s : State) (d : Nat) (x : Die) : (s.setDieAt d x).links = s.links := rfl

@[simp] theorem setDieAt_fatal (s : State) (d : Nat) (x : Die) : (s.setDieAt d x).fatal = s.fatal := rfl

@[simp] theorem setDieAt_frozen (s : State) (d : Nat) (x : Die) : (s.setDieAt d x).frozen = s.frozen := rfl

@[simp] theorem setDieAt_portUp (s : State) (d : Nat) (x : Die) : (s.setDieAt d x).portUp = s.portUp := rfl

@[simp] theorem setDieAt_fatalEntry (s : State) (d : Nat) (x : Die) : (s.setDieAt d x).fatalEntry = s.fatalEntry := rfl

@[simp] theorem setDieAt_host (s : State) (d : Nat) (x : Die) : (s.setDieAt d x).host = s.host := rfl

@[simp] theorem setDieAt_hwin (s : State) (d : Nat) (x : Die) : (s.setDieAt d x).hwin = s.hwin := rfl

@[simp] theorem setDieAt_member (s : State) (d : Nat) (x : Die) : (s.setDieAt d x).member = s.member := rfl

@[simp] theorem setDieAt_sec (s : State) (d : Nat) (x : Die) : (s.setDieAt d x).sec = s.sec := rfl

@[simp] theorem setDieAt_nv (s : State) (d : Nat) (x : Die) : (s.setDieAt d x).nv = s.nv := rfl

@[simp] theorem setDieAt_reply (s : State) (d : Nat) (x : Die) : (s.setDieAt d x).reply = s.reply := rfl

@[simp] theorem setDieAt_fwLoaded (s : State) (d : Nat) (x : Die) : (s.setDieAt d x).fwLoaded = s.fwLoaded := rfl

@[simp] theorem setDieAt_standby (s : State) (d : Nat) (x : Die) : (s.setDieAt d x).standby = s.standby := rfl

@[simp] theorem setDieAt_jtag (s : State) (d : Nat) (x : Die) : (s.setDieAt d x).jtag = s.jtag := rfl

@[simp] theorem setDieAt_cells (s : State) (d : Nat) (x : Die) : (s.setDieAt d x).cells = s.cells := rfl

@[simp] theorem setDieAt_heldUnits (s : State) (d : Nat) (x : Die) : (s.setDieAt d x).heldUnits = s.heldUnits := rfl

@[simp] theorem setDieReg_cur (s : State) (d o : Nat) (v : BitVec 64) : (s.setDieReg d o v).cur = s.cur := rfl

@[simp] theorem setDieReg_agenda (s : State) (d o : Nat) (v : BitVec 64) : (s.setDieReg d o v).agenda = s.agenda := rfl

@[simp] theorem setDieReg_rr (s : State) (d o : Nat) (v : BitVec 64) : (s.setDieReg d o v).rr = s.rr := rfl

@[simp] theorem setDieReg_fresh (s : State) (d o : Nat) (v : BitVec 64) : (s.setDieReg d o v).fresh = s.fresh := rfl

@[simp] theorem setDieReg_ftb (s : State) (d o : Nat) (v : BitVec 64) : (s.setDieReg d o v).ftb = s.ftb := rfl

@[simp] theorem setDieReg_px (s : State) (d o : Nat) (v : BitVec 64) : (s.setDieReg d o v).px = s.px := rfl

@[simp] theorem setDieReg_py (s : State) (d o : Nat) (v : BitVec 64) : (s.setDieReg d o v).py = s.py := rfl

@[simp] theorem setDieReg_mem (s : State) (d o : Nat) (v : BitVec 64) : (s.setDieReg d o v).mem = s.mem := rfl

@[simp] theorem setDieReg_tiles (s : State) (d o : Nat) (v : BitVec 64) : (s.setDieReg d o v).tiles = s.tiles := rfl

@[simp] theorem setDieReg_net (s : State) (d o : Nat) (v : BitVec 64) : (s.setDieReg d o v).net = s.net := rfl

@[simp] theorem setDieReg_links (s : State) (d o : Nat) (v : BitVec 64) : (s.setDieReg d o v).links = s.links := rfl

@[simp] theorem setDieReg_fatal (s : State) (d o : Nat) (v : BitVec 64) : (s.setDieReg d o v).fatal = s.fatal := rfl

@[simp] theorem setDieReg_frozen (s : State) (d o : Nat) (v : BitVec 64) : (s.setDieReg d o v).frozen = s.frozen := rfl

@[simp] theorem setDieReg_portUp (s : State) (d o : Nat) (v : BitVec 64) : (s.setDieReg d o v).portUp = s.portUp := rfl

@[simp] theorem setDieReg_fatalEntry (s : State) (d o : Nat) (v : BitVec 64) : (s.setDieReg d o v).fatalEntry = s.fatalEntry := rfl

@[simp] theorem setDieReg_host (s : State) (d o : Nat) (v : BitVec 64) : (s.setDieReg d o v).host = s.host := rfl

@[simp] theorem setDieReg_hwin (s : State) (d o : Nat) (v : BitVec 64) : (s.setDieReg d o v).hwin = s.hwin := rfl

@[simp] theorem setDieReg_member (s : State) (d o : Nat) (v : BitVec 64) : (s.setDieReg d o v).member = s.member := rfl

@[simp] theorem setDieReg_sec (s : State) (d o : Nat) (v : BitVec 64) : (s.setDieReg d o v).sec = s.sec := rfl

@[simp] theorem setDieReg_nv (s : State) (d o : Nat) (v : BitVec 64) : (s.setDieReg d o v).nv = s.nv := rfl

@[simp] theorem setDieReg_reply (s : State) (d o : Nat) (v : BitVec 64) : (s.setDieReg d o v).reply = s.reply := rfl

@[simp] theorem setDieReg_fwLoaded (s : State) (d o : Nat) (v : BitVec 64) : (s.setDieReg d o v).fwLoaded = s.fwLoaded := rfl

@[simp] theorem setDieReg_standby (s : State) (d o : Nat) (v : BitVec 64) : (s.setDieReg d o v).standby = s.standby := rfl

@[simp] theorem setDieReg_jtag (s : State) (d o : Nat) (v : BitVec 64) : (s.setDieReg d o v).jtag = s.jtag := rfl

@[simp] theorem setDieReg_cells (s : State) (d o : Nat) (v : BitVec 64) : (s.setDieReg d o v).cells = s.cells := rfl

@[simp] theorem setDieReg_heldUnits (s : State) (d o : Nat) (v : BitVec 64) : (s.setDieReg d o v).heldUnits = s.heldUnits := rfl

/-! ## Updates of a tile -/

theorem setX_shape (t : Tile) (r : Nat) (w : GWord) : ∃ y, t.setX r w = { t with x := y } := by
  unfold Tile.setX; split
  · exact ⟨t.x, rfl⟩
  · exact ⟨_, rfl⟩

theorem setM_shape (t : Tile) (r h : Nat) (w : GWord) : ∃ y, t.setM r h w = { t with m := y } := by
  unfold Tile.setM; split
  · exact ⟨t.m, rfl⟩
  · exact ⟨_, rfl⟩

theorem putX_shape (t : Tile) (r : Nat) (w : GWord) : ∃ y u, t.putX r w = { t with x := y, undo := u } := by
  obtain ⟨y, h⟩ := setX_shape t r w
  unfold Tile.putX; split
  · exact ⟨y, _, by rw [h]⟩
  · exact ⟨y, t.undo, h⟩

@[simp] theorem setX_run (t : Tile) (r : Nat) (w : GWord) : (t.setX r w).run = t.run := by obtain ⟨y, h⟩ := setX_shape t r w; rw [h]

@[simp] theorem setX_level (t : Tile) (r : Nat) (w : GWord) : (t.setX r w).level = t.level := by obtain ⟨y, h⟩ := setX_shape t r w; rw [h]

@[simp] theorem setX_eS (t : Tile) (r : Nat) (w : GWord) : (t.setX r w).eS = t.eS := by obtain ⟨y, h⟩ := setX_shape t r w; rw [h]

@[simp] theorem setX_eV (t : Tile) (r : Nat) (w : GWord) : (t.setX r w).eV = t.eV := by obtain ⟨y, h⟩ := setX_shape t r w; rw [h]

@[simp] theorem setX_eM (t : Tile) (r : Nat) (w : GWord) : (t.setX r w).eM = t.eM := by obtain ⟨y, h⟩ := setX_shape t r w; rw [h]

@[simp] theorem setX_eD (t : Tile) (r : Nat) (w : GWord) : (t.setX r w).eD = t.eD := by obtain ⟨y, h⟩ := setX_shape t r w; rw [h]

@[simp] theorem setX_v (t : Tile) (r : Nat) (w : GWord) : (t.setX r w).v = t.v := by obtain ⟨y, h⟩ := setX_shape t r w; rw [h]

@[simp] theorem setX_sreg (t : Tile) (r : Nat) (w : GWord) : (t.setX r w).sreg = t.sreg := by obtain ⟨y, h⟩ := setX_shape t r w; rw [h]

@[simp] theorem setX_m (t : Tile) (r : Nat) (w : GWord) : (t.setX r w).m = t.m := by obtain ⟨y, h⟩ := setX_shape t r w; rw [h]

@[simp] theorem setX_c (t : Tile) (r : Nat) (w : GWord) : (t.setX r w).c = t.c := by obtain ⟨y, h⟩ := setX_shape t r w; rw [h]

@[simp] theorem setX_a (t : Tile) (r : Nat) (w : GWord) : (t.setX r w).a = t.a := by obtain ⟨y, h⟩ := setX_shape t r w; rw [h]

@[simp] theorem setX_vcr (t : Tile) (r : Nat) (w : GWord) : (t.setX r w).vcr = t.vcr := by obtain ⟨y, h⟩ := setX_shape t r w; rw [h]

@[simp] theorem setX_dcr (t : Tile) (r : Nat) (w : GWord) : (t.setX r w).dcr = t.dcr := by obtain ⟨y, h⟩ := setX_shape t r w; rw [h]

@[simp] theorem setX_preds (t : Tile) (r : Nat) (w : GWord) : (t.setX r w).preds = t.preds := by obtain ⟨y, h⟩ := setX_shape t r w; rw [h]

@[simp] theorem setX_oqV (t : Tile) (r : Nat) (w : GWord) : (t.setX r w).oqV = t.oqV := by obtain ⟨y, h⟩ := setX_shape t r w; rw [h]

@[simp] theorem setX_oqM (t : Tile) (r : Nat) (w : GWord) : (t.setX r w).oqM = t.oqM := by obtain ⟨y, h⟩ := setX_shape t r w; rw [h]

@[simp] theorem setX_oqD (t : Tile) (r : Nat) (w : GWord) : (t.setX r w).oqD = t.oqD := by obtain ⟨y, h⟩ := setX_shape t r w; rw [h]

@[simp] theorem setX_boV (t : Tile) (r : Nat) (w : GWord) : (t.setX r w).boV = t.boV := by obtain ⟨y, h⟩ := setX_shape t r w; rw [h]

@[simp] theorem setX_boM (t : Tile) (r : Nat) (w : GWord) : (t.setX r w).boM = t.boM := by obtain ⟨y, h⟩ := setX_shape t r w; rw [h]

@[simp] theorem setX_boD (t : Tile) (r : Nat) (w : GWord) : (t.setX r w).boD = t.boD := by obtain ⟨y, h⟩ := setX_shape t r w; rw [h]

@[simp] theorem setX_rq (t : Tile) (r : Nat) (w : GWord) : (t.setX r w).rq = t.rq := by obtain ⟨y, h⟩ := setX_shape t r w; rw [h]

@[simp] theorem setX_eq (t : Tile) (r : Nat) (w : GWord) : (t.setX r w).eq = t.eq := by obtain ⟨y, h⟩ := setX_shape t r w; rw [h]

@[simp] theorem setX_held (t : Tile) (r : Nat) (w : GWord) : (t.setX r w).held = t.held := by obtain ⟨y, h⟩ := setX_shape t r w; rw [h]

@[simp] theorem setX_cstore (t : Tile) (r : Nat) (w : GWord) : (t.setX r w).cstore = t.cstore := by obtain ⟨y, h⟩ := setX_shape t r w; rw [h]

@[simp] theorem setX_spad (t : Tile) (r : Nat) (w : GWord) : (t.setX r w).spad = t.spad := by obtain ⟨y, h⟩ := setX_shape t r w; rw [h]

@[simp] theorem setX_acc (t : Tile) (r : Nat) (w : GWord) : (t.setX r w).acc = t.acc := by obtain ⟨y, h⟩ := setX_shape t r w; rw [h]

@[simp] theorem setX_nrsV (t : Tile) (r : Nat) (w : GWord) : (t.setX r w).nrsV = t.nrsV := by obtain ⟨y, h⟩ := setX_shape t r w; rw [h]

@[simp] theorem setX_nrsM (t : Tile) (r : Nat) (w : GWord) : (t.setX r w).nrsM = t.nrsM := by obtain ⟨y, h⟩ := setX_shape t r w; rw [h]

@[simp] theorem setX_nrsD (t : Tile) (r : Nat) (w : GWord) : (t.setX r w).nrsD = t.nrsD := by obtain ⟨y, h⟩ := setX_shape t r w; rw [h]

@[simp] theorem setX_win (t : Tile) (r : Nat) (w : GWord) : (t.setX r w).win = t.win := by obtain ⟨y, h⟩ := setX_shape t r w; rw [h]

@[simp] theorem setX_apol (t : Tile) (r : Nat) (w : GWord) : (t.setX r w).apol = t.apol := by obtain ⟨y, h⟩ := setX_shape t r w; rw [h]

@[simp] theorem setX_wver (t : Tile) (r : Nat) (w : GWord) : (t.setX r w).wver = t.wver := by obtain ⟨y, h⟩ := setX_shape t r w; rw [h]

@[simp] theorem setX_widsplit (t : Tile) (r : Nat) (w : GWord) : (t.setX r w).widsplit = t.widsplit := by obtain ⟨y, h⟩ := setX_shape t r w; rw [h]

@[simp] theorem setX_ufv (t : Tile) (r : Nat) (w : GWord) : (t.setX r w).ufv = t.ufv := by obtain ⟨y, h⟩ := setX_shape t r w; rw [h]

@[simp] theorem setX_kvctl (t : Tile) (r : Nat) (w : GWord) : (t.setX r w).kvctl = t.kvctl := by obtain ⟨y, h⟩ := setX_shape t r w; rw [h]

@[simp] theorem setX_bfmt (t : Tile) (r : Nat) (w : GWord) : (t.setX r w).bfmt = t.bfmt := by obtain ⟨y, h⟩ := setX_shape t r w; rw [h]

@[simp] theorem setX_ufepc (t : Tile) (r : Nat) (w : GWord) : (t.setX r w).ufepc = t.ufepc := by obtain ⟨y, h⟩ := setX_shape t r w; rw [h]

@[simp] theorem setX_ufcause (t : Tile) (r : Nat) (w : GWord) : (t.setX r w).ufcause = t.ufcause := by obtain ⟨y, h⟩ := setX_shape t r w; rw [h]

@[simp] theorem setX_ufaddr (t : Tile) (r : Nat) (w : GWord) : (t.setX r w).ufaddr = t.ufaddr := by obtain ⟨y, h⟩ := setX_shape t r w; rw [h]

@[simp] theorem setX_ufexp (t : Tile) (r : Nat) (w : GWord) : (t.setX r w).ufexp = t.ufexp := by obtain ⟨y, h⟩ := setX_shape t r w; rw [h]

@[simp] theorem setX_tstat (t : Tile) (r : Nat) (w : GWord) : (t.setX r w).tstat = t.tstat := by obtain ⟨y, h⟩ := setX_shape t r w; rw [h]

@[simp] theorem setX_tcause (t : Tile) (r : Nat) (w : GWord) : (t.setX r w).tcause = t.tcause := by obtain ⟨y, h⟩ := setX_shape t r w; rw [h]

@[simp] theorem setX_taddr (t : Tile) (r : Nat) (w : GWord) : (t.setX r w).taddr = t.taddr := by obtain ⟨y, h⟩ := setX_shape t r w; rw [h]

@[simp] theorem setX_tepc (t : Tile) (r : Nat) (w : GWord) : (t.setX r w).tepc = t.tepc := by obtain ⟨y, h⟩ := setX_shape t r w; rw [h]

@[simp] theorem setX_tvec (t : Tile) (r : Nat) (w : GWord) : (t.setX r w).tvec = t.tvec := by obtain ⟨y, h⟩ := setX_shape t r w; rw [h]

@[simp] theorem setX_tsb (t : Tile) (r : Nat) (w : GWord) : (t.setX r w).tsb = t.tsb := by obtain ⟨y, h⟩ := setX_shape t r w; rw [h]

@[simp] theorem setX_ctxb (t : Tile) (r : Nat) (w : GWord) : (t.setX r w).ctxb = t.ctxb := by obtain ⟨y, h⟩ := setX_shape t r w; rw [h]

@[simp] theorem setX_pwin (t : Tile) (r : Nat) (w : GWord) : (t.setX r w).pwin = t.pwin := by obtain ⟨y, h⟩ := setX_shape t r w; rw [h]

@[simp] theorem setX_preq (t : Tile) (r : Nat) (w : GWord) : (t.setX r w).preq = t.preq := by obtain ⟨y, h⟩ := setX_shape t r w; rw [h]

@[simp] theorem setX_tcause2 (t : Tile) (r : Nat) (w : GWord) : (t.setX r w).tcause2 = t.tcause2 := by obtain ⟨y, h⟩ := setX_shape t r w; rw [h]

@[simp] theorem setX_taddr2 (t : Tile) (r : Nat) (w : GWord) : (t.setX r w).taddr2 = t.taddr2 := by obtain ⟨y, h⟩ := setX_shape t r w; rw [h]

@[simp] theorem setX_gcc (t : Tile) (r : Nat) (w : GWord) : (t.setX r w).gcc = t.gcc := by obtain ⟨y, h⟩ := setX_shape t r w; rw [h]

@[simp] theorem setX_guc (t : Tile) (r : Nat) (w : GWord) : (t.setX r w).guc = t.guc := by obtain ⟨y, h⟩ := setX_shape t r w; rw [h]

@[simp] theorem setX_bstat (t : Tile) (r : Nat) (w : GWord) : (t.setX r w).bstat = t.bstat := by obtain ⟨y, h⟩ := setX_shape t r w; rw [h]

@[simp] theorem setX_undo (t : Tile) (r : Nat) (w : GWord) : (t.setX r w).undo = t.undo := by obtain ⟨y, h⟩ := setX_shape t r w; rw [h]

@[simp] theorem setX_trap (t : Tile) (r : Nat) (w : GWord) : (t.setX r w).trap = t.trap := by obtain ⟨y, h⟩ := setX_shape t r w; rw [h]

@[simp] theorem setX_late (t : Tile) (r : Nat) (w : GWord) : (t.setX r w).late = t.late := by obtain ⟨y, h⟩ := setX_shape t r w; rw [h]

@[simp] theorem setX_accFault (t : Tile) (r : Nat) (w : GWord) : (t.setX r w).accFault = t.accFault := by obtain ⟨y, h⟩ := setX_shape t r w; rw [h]

@[simp] theorem setX_cache (t : Tile) (r : Nat) (w : GWord) : (t.setX r w).cache = t.cache := by obtain ⟨y, h⟩ := setX_shape t r w; rw [h]

@[simp] theorem setX_tlb (t : Tile) (r : Nat) (w : GWord) : (t.setX r w).tlb = t.tlb := by obtain ⟨y, h⟩ := setX_shape t r w; rw [h]

@[simp] theorem setX_icache (t : Tile) (r : Nat) (w : GWord) : (t.setX r w).icache = t.icache := by obtain ⟨y, h⟩ := setX_shape t r w; rw [h]

@[simp] theorem setX_stamp (t : Tile) (r : Nat) (w : GWord) : (t.setX r w).stamp = t.stamp := by obtain ⟨y, h⟩ := setX_shape t r w; rw [h]

@[simp] theorem setX_side (t : Tile) (r : Nat) (w : GWord) : (t.setX r w).side = t.side := by obtain ⟨y, h⟩ := setX_shape t r w; rw [h]

@[simp] theorem setX_task (t : Tile) (r : Nat) (w : GWord) : (t.setX r w).task = t.task := by obtain ⟨y, h⟩ := setX_shape t r w; rw [h]

@[simp] theorem setX_adopted (t : Tile) (r : Nat) (w : GWord) : (t.setX r w).adopted = t.adopted := by obtain ⟨y, h⟩ := setX_shape t r w; rw [h]

@[simp] theorem setX_adoptWait (t : Tile) (r : Nat) (w : GWord) : (t.setX r w).adoptWait = t.adoptWait := by obtain ⟨y, h⟩ := setX_shape t r w; rw [h]

@[simp] theorem setX_tlbinvs (t : Tile) (r : Nat) (w : GWord) : (t.setX r w).tlbinvs = t.tlbinvs := by obtain ⟨y, h⟩ := setX_shape t r w; rw [h]

@[simp] theorem setX_attg (t : Tile) (r : Nat) (w : GWord) : (t.setX r w).attg = t.attg := by obtain ⟨y, h⟩ := setX_shape t r w; rw [h]

@[simp] theorem setX_shadow (t : Tile) (r : Nat) (w : GWord) : (t.setX r w).shadow = t.shadow := by obtain ⟨y, h⟩ := setX_shape t r w; rw [h]

@[simp] theorem setX_active (t : Tile) (r : Nat) (w : GWord) : (t.setX r w).active = t.active := by obtain ⟨y, h⟩ := setX_shape t r w; rw [h]

@[simp] theorem setX_nest (t : Tile) (r : Nat) (w : GWord) : (t.setX r w).nest = t.nest := by obtain ⟨y, h⟩ := setX_shape t r w; rw [h]

@[simp] theorem setX_nsteps (t : Tile) (r : Nat) (w : GWord) : (t.setX r w).nsteps = t.nsteps := by obtain ⟨y, h⟩ := setX_shape t r w; rw [h]

@[simp] theorem setX_nwaits (t : Tile) (r : Nat) (w : GWord) : (t.setX r w).nwaits = t.nwaits := by obtain ⟨y, h⟩ := setX_shape t r w; rw [h]

@[simp] theorem setX_dcmds (t : Tile) (r : Nat) (w : GWord) : (t.setX r w).dcmds = t.dcmds := by obtain ⟨y, h⟩ := setX_shape t r w; rw [h]

@[simp] theorem setX_dRanges (t : Tile) (r : Nat) (w : GWord) : (t.setX r w).dRanges = t.dRanges := by obtain ⟨y, h⟩ := setX_shape t r w; rw [h]

@[simp] theorem setX_wins (t : Tile) (r : Nat) (w : GWord) : (t.setX r w).wins = t.wins := by obtain ⟨y, h⟩ := setX_shape t r w; rw [h]

@[simp] theorem setX_remote (t : Tile) (r : Nat) (w : GWord) : (t.setX r w).remote = t.remote := by obtain ⟨y, h⟩ := setX_shape t r w; rw [h]

@[simp] theorem setX_sending (t : Tile) (r : Nat) (w : GWord) : (t.setX r w).sending = t.sending := by obtain ⟨y, h⟩ := setX_shape t r w; rw [h]

@[simp] theorem setX_nextTag (t : Tile) (r : Nat) (w : GWord) : (t.setX r w).nextTag = t.nextTag := by obtain ⟨y, h⟩ := setX_shape t r w; rw [h]

@[simp] theorem setX_spanWait (t : Tile) (r : Nat) (w : GWord) : (t.setX r w).spanWait = t.spanWait := by obtain ⟨y, h⟩ := setX_shape t r w; rw [h]

@[simp] theorem setX_ending (t : Tile) (r : Nat) (w : GWord) : (t.setX r w).ending = t.ending := by obtain ⟨y, h⟩ := setX_shape t r w; rw [h]

@[simp] theorem setX_pre (t : Tile) (r : Nat) (w : GWord) : (t.setX r w).pre = t.pre := by obtain ⟨y, h⟩ := setX_shape t r w; rw [h]

@[simp] theorem setX_cut (t : Tile) (r : Nat) (w : GWord) : (t.setX r w).cut = t.cut := by obtain ⟨y, h⟩ := setX_shape t r w; rw [h]

@[simp] theorem setX_resuming (t : Tile) (r : Nat) (w : GWord) : (t.setX r w).resuming = t.resuming := by obtain ⟨y, h⟩ := setX_shape t r w; rw [h]

@[simp] theorem setX_fwStop (t : Tile) (r : Nat) (w : GWord) : (t.setX r w).fwStop = t.fwStop := by obtain ⟨y, h⟩ := setX_shape t r w; rw [h]

@[simp] theorem setX_brimStop (t : Tile) (r : Nat) (w : GWord) : (t.setX r w).brimStop = t.brimStop := by obtain ⟨y, h⟩ := setX_shape t r w; rw [h]

@[simp] theorem setX_since (t : Tile) (r : Nat) (w : GWord) : (t.setX r w).since = t.since := by obtain ⟨y, h⟩ := setX_shape t r w; rw [h]

@[simp] theorem setX_haltAt (t : Tile) (r : Nat) (w : GWord) : (t.setX r w).haltAt = t.haltAt := by obtain ⟨y, h⟩ := setX_shape t r w; rw [h]

@[simp] theorem setX_haltFtb (t : Tile) (r : Nat) (w : GWord) : (t.setX r w).haltFtb = t.haltFtb := by obtain ⟨y, h⟩ := setX_shape t r w; rw [h]

@[simp] theorem setX_traced (t : Tile) (r : Nat) (w : GWord) : (t.setX r w).traced = t.traced := by obtain ⟨y, h⟩ := setX_shape t r w; rw [h]

@[simp] theorem setX_tested (t : Tile) (r : Nat) (w : GWord) : (t.setX r w).tested = t.tested := by obtain ⟨y, h⟩ := setX_shape t r w; rw [h]

@[simp] theorem putX_run (t : Tile) (r : Nat) (w : GWord) : (t.putX r w).run = t.run := by obtain ⟨y, u, h⟩ := putX_shape t r w; rw [h]

@[simp] theorem putX_eS (t : Tile) (r : Nat) (w : GWord) : (t.putX r w).eS = t.eS := by obtain ⟨y, u, h⟩ := putX_shape t r w; rw [h]

@[simp] theorem putX_eV (t : Tile) (r : Nat) (w : GWord) : (t.putX r w).eV = t.eV := by obtain ⟨y, u, h⟩ := putX_shape t r w; rw [h]

@[simp] theorem putX_eM (t : Tile) (r : Nat) (w : GWord) : (t.putX r w).eM = t.eM := by obtain ⟨y, u, h⟩ := putX_shape t r w; rw [h]

@[simp] theorem putX_eD (t : Tile) (r : Nat) (w : GWord) : (t.putX r w).eD = t.eD := by obtain ⟨y, u, h⟩ := putX_shape t r w; rw [h]

@[simp] theorem putX_v (t : Tile) (r : Nat) (w : GWord) : (t.putX r w).v = t.v := by obtain ⟨y, u, h⟩ := putX_shape t r w; rw [h]

@[simp] theorem putX_sreg (t : Tile) (r : Nat) (w : GWord) : (t.putX r w).sreg = t.sreg := by obtain ⟨y, u, h⟩ := putX_shape t r w; rw [h]

@[simp] theorem putX_m (t : Tile) (r : Nat) (w : GWord) : (t.putX r w).m = t.m := by obtain ⟨y, u, h⟩ := putX_shape t r w; rw [h]

@[simp] theorem putX_c (t : Tile) (r : Nat) (w : GWord) : (t.putX r w).c = t.c := by obtain ⟨y, u, h⟩ := putX_shape t r w; rw [h]

@[simp] theorem putX_a (t : Tile) (r : Nat) (w : GWord) : (t.putX r w).a = t.a := by obtain ⟨y, u, h⟩ := putX_shape t r w; rw [h]

@[simp] theorem putX_vcr (t : Tile) (r : Nat) (w : GWord) : (t.putX r w).vcr = t.vcr := by obtain ⟨y, u, h⟩ := putX_shape t r w; rw [h]

@[simp] theorem putX_dcr (t : Tile) (r : Nat) (w : GWord) : (t.putX r w).dcr = t.dcr := by obtain ⟨y, u, h⟩ := putX_shape t r w; rw [h]

@[simp] theorem putX_preds (t : Tile) (r : Nat) (w : GWord) : (t.putX r w).preds = t.preds := by obtain ⟨y, u, h⟩ := putX_shape t r w; rw [h]

@[simp] theorem putX_oqV (t : Tile) (r : Nat) (w : GWord) : (t.putX r w).oqV = t.oqV := by obtain ⟨y, u, h⟩ := putX_shape t r w; rw [h]

@[simp] theorem putX_oqM (t : Tile) (r : Nat) (w : GWord) : (t.putX r w).oqM = t.oqM := by obtain ⟨y, u, h⟩ := putX_shape t r w; rw [h]

@[simp] theorem putX_oqD (t : Tile) (r : Nat) (w : GWord) : (t.putX r w).oqD = t.oqD := by obtain ⟨y, u, h⟩ := putX_shape t r w; rw [h]

@[simp] theorem putX_boV (t : Tile) (r : Nat) (w : GWord) : (t.putX r w).boV = t.boV := by obtain ⟨y, u, h⟩ := putX_shape t r w; rw [h]

@[simp] theorem putX_boM (t : Tile) (r : Nat) (w : GWord) : (t.putX r w).boM = t.boM := by obtain ⟨y, u, h⟩ := putX_shape t r w; rw [h]

@[simp] theorem putX_boD (t : Tile) (r : Nat) (w : GWord) : (t.putX r w).boD = t.boD := by obtain ⟨y, u, h⟩ := putX_shape t r w; rw [h]

@[simp] theorem putX_rq (t : Tile) (r : Nat) (w : GWord) : (t.putX r w).rq = t.rq := by obtain ⟨y, u, h⟩ := putX_shape t r w; rw [h]

@[simp] theorem putX_eq (t : Tile) (r : Nat) (w : GWord) : (t.putX r w).eq = t.eq := by obtain ⟨y, u, h⟩ := putX_shape t r w; rw [h]

@[simp] theorem putX_held (t : Tile) (r : Nat) (w : GWord) : (t.putX r w).held = t.held := by obtain ⟨y, u, h⟩ := putX_shape t r w; rw [h]

@[simp] theorem putX_cstore (t : Tile) (r : Nat) (w : GWord) : (t.putX r w).cstore = t.cstore := by obtain ⟨y, u, h⟩ := putX_shape t r w; rw [h]

@[simp] theorem putX_spad (t : Tile) (r : Nat) (w : GWord) : (t.putX r w).spad = t.spad := by obtain ⟨y, u, h⟩ := putX_shape t r w; rw [h]

@[simp] theorem putX_acc (t : Tile) (r : Nat) (w : GWord) : (t.putX r w).acc = t.acc := by obtain ⟨y, u, h⟩ := putX_shape t r w; rw [h]

@[simp] theorem putX_nrsV (t : Tile) (r : Nat) (w : GWord) : (t.putX r w).nrsV = t.nrsV := by obtain ⟨y, u, h⟩ := putX_shape t r w; rw [h]

@[simp] theorem putX_nrsM (t : Tile) (r : Nat) (w : GWord) : (t.putX r w).nrsM = t.nrsM := by obtain ⟨y, u, h⟩ := putX_shape t r w; rw [h]

@[simp] theorem putX_nrsD (t : Tile) (r : Nat) (w : GWord) : (t.putX r w).nrsD = t.nrsD := by obtain ⟨y, u, h⟩ := putX_shape t r w; rw [h]

@[simp] theorem putX_win (t : Tile) (r : Nat) (w : GWord) : (t.putX r w).win = t.win := by obtain ⟨y, u, h⟩ := putX_shape t r w; rw [h]

@[simp] theorem putX_apol (t : Tile) (r : Nat) (w : GWord) : (t.putX r w).apol = t.apol := by obtain ⟨y, u, h⟩ := putX_shape t r w; rw [h]

@[simp] theorem putX_wver (t : Tile) (r : Nat) (w : GWord) : (t.putX r w).wver = t.wver := by obtain ⟨y, u, h⟩ := putX_shape t r w; rw [h]

@[simp] theorem putX_widsplit (t : Tile) (r : Nat) (w : GWord) : (t.putX r w).widsplit = t.widsplit := by obtain ⟨y, u, h⟩ := putX_shape t r w; rw [h]

@[simp] theorem putX_ufv (t : Tile) (r : Nat) (w : GWord) : (t.putX r w).ufv = t.ufv := by obtain ⟨y, u, h⟩ := putX_shape t r w; rw [h]

@[simp] theorem putX_kvctl (t : Tile) (r : Nat) (w : GWord) : (t.putX r w).kvctl = t.kvctl := by obtain ⟨y, u, h⟩ := putX_shape t r w; rw [h]

@[simp] theorem putX_bfmt (t : Tile) (r : Nat) (w : GWord) : (t.putX r w).bfmt = t.bfmt := by obtain ⟨y, u, h⟩ := putX_shape t r w; rw [h]

@[simp] theorem putX_ufepc (t : Tile) (r : Nat) (w : GWord) : (t.putX r w).ufepc = t.ufepc := by obtain ⟨y, u, h⟩ := putX_shape t r w; rw [h]

@[simp] theorem putX_ufcause (t : Tile) (r : Nat) (w : GWord) : (t.putX r w).ufcause = t.ufcause := by obtain ⟨y, u, h⟩ := putX_shape t r w; rw [h]

@[simp] theorem putX_ufaddr (t : Tile) (r : Nat) (w : GWord) : (t.putX r w).ufaddr = t.ufaddr := by obtain ⟨y, u, h⟩ := putX_shape t r w; rw [h]

@[simp] theorem putX_ufexp (t : Tile) (r : Nat) (w : GWord) : (t.putX r w).ufexp = t.ufexp := by obtain ⟨y, u, h⟩ := putX_shape t r w; rw [h]

@[simp] theorem putX_tstat (t : Tile) (r : Nat) (w : GWord) : (t.putX r w).tstat = t.tstat := by obtain ⟨y, u, h⟩ := putX_shape t r w; rw [h]

@[simp] theorem putX_tcause (t : Tile) (r : Nat) (w : GWord) : (t.putX r w).tcause = t.tcause := by obtain ⟨y, u, h⟩ := putX_shape t r w; rw [h]

@[simp] theorem putX_taddr (t : Tile) (r : Nat) (w : GWord) : (t.putX r w).taddr = t.taddr := by obtain ⟨y, u, h⟩ := putX_shape t r w; rw [h]

@[simp] theorem putX_tepc (t : Tile) (r : Nat) (w : GWord) : (t.putX r w).tepc = t.tepc := by obtain ⟨y, u, h⟩ := putX_shape t r w; rw [h]

@[simp] theorem putX_tvec (t : Tile) (r : Nat) (w : GWord) : (t.putX r w).tvec = t.tvec := by obtain ⟨y, u, h⟩ := putX_shape t r w; rw [h]

@[simp] theorem putX_tsb (t : Tile) (r : Nat) (w : GWord) : (t.putX r w).tsb = t.tsb := by obtain ⟨y, u, h⟩ := putX_shape t r w; rw [h]

@[simp] theorem putX_ctxb (t : Tile) (r : Nat) (w : GWord) : (t.putX r w).ctxb = t.ctxb := by obtain ⟨y, u, h⟩ := putX_shape t r w; rw [h]

@[simp] theorem putX_pwin (t : Tile) (r : Nat) (w : GWord) : (t.putX r w).pwin = t.pwin := by obtain ⟨y, u, h⟩ := putX_shape t r w; rw [h]

@[simp] theorem putX_preq (t : Tile) (r : Nat) (w : GWord) : (t.putX r w).preq = t.preq := by obtain ⟨y, u, h⟩ := putX_shape t r w; rw [h]

@[simp] theorem putX_tcause2 (t : Tile) (r : Nat) (w : GWord) : (t.putX r w).tcause2 = t.tcause2 := by obtain ⟨y, u, h⟩ := putX_shape t r w; rw [h]

@[simp] theorem putX_taddr2 (t : Tile) (r : Nat) (w : GWord) : (t.putX r w).taddr2 = t.taddr2 := by obtain ⟨y, u, h⟩ := putX_shape t r w; rw [h]

@[simp] theorem putX_gcc (t : Tile) (r : Nat) (w : GWord) : (t.putX r w).gcc = t.gcc := by obtain ⟨y, u, h⟩ := putX_shape t r w; rw [h]

@[simp] theorem putX_guc (t : Tile) (r : Nat) (w : GWord) : (t.putX r w).guc = t.guc := by obtain ⟨y, u, h⟩ := putX_shape t r w; rw [h]

@[simp] theorem putX_bstat (t : Tile) (r : Nat) (w : GWord) : (t.putX r w).bstat = t.bstat := by obtain ⟨y, u, h⟩ := putX_shape t r w; rw [h]

@[simp] theorem putX_trap (t : Tile) (r : Nat) (w : GWord) : (t.putX r w).trap = t.trap := by obtain ⟨y, u, h⟩ := putX_shape t r w; rw [h]

@[simp] theorem putX_late (t : Tile) (r : Nat) (w : GWord) : (t.putX r w).late = t.late := by obtain ⟨y, u, h⟩ := putX_shape t r w; rw [h]

@[simp] theorem putX_accFault (t : Tile) (r : Nat) (w : GWord) : (t.putX r w).accFault = t.accFault := by obtain ⟨y, u, h⟩ := putX_shape t r w; rw [h]

@[simp] theorem putX_cache (t : Tile) (r : Nat) (w : GWord) : (t.putX r w).cache = t.cache := by obtain ⟨y, u, h⟩ := putX_shape t r w; rw [h]

@[simp] theorem putX_tlb (t : Tile) (r : Nat) (w : GWord) : (t.putX r w).tlb = t.tlb := by obtain ⟨y, u, h⟩ := putX_shape t r w; rw [h]

@[simp] theorem putX_icache (t : Tile) (r : Nat) (w : GWord) : (t.putX r w).icache = t.icache := by obtain ⟨y, u, h⟩ := putX_shape t r w; rw [h]

@[simp] theorem putX_stamp (t : Tile) (r : Nat) (w : GWord) : (t.putX r w).stamp = t.stamp := by obtain ⟨y, u, h⟩ := putX_shape t r w; rw [h]

@[simp] theorem putX_side (t : Tile) (r : Nat) (w : GWord) : (t.putX r w).side = t.side := by obtain ⟨y, u, h⟩ := putX_shape t r w; rw [h]

@[simp] theorem putX_task (t : Tile) (r : Nat) (w : GWord) : (t.putX r w).task = t.task := by obtain ⟨y, u, h⟩ := putX_shape t r w; rw [h]

@[simp] theorem putX_adopted (t : Tile) (r : Nat) (w : GWord) : (t.putX r w).adopted = t.adopted := by obtain ⟨y, u, h⟩ := putX_shape t r w; rw [h]

@[simp] theorem putX_adoptWait (t : Tile) (r : Nat) (w : GWord) : (t.putX r w).adoptWait = t.adoptWait := by obtain ⟨y, u, h⟩ := putX_shape t r w; rw [h]

@[simp] theorem putX_tlbinvs (t : Tile) (r : Nat) (w : GWord) : (t.putX r w).tlbinvs = t.tlbinvs := by obtain ⟨y, u, h⟩ := putX_shape t r w; rw [h]

@[simp] theorem putX_attg (t : Tile) (r : Nat) (w : GWord) : (t.putX r w).attg = t.attg := by obtain ⟨y, u, h⟩ := putX_shape t r w; rw [h]

@[simp] theorem putX_shadow (t : Tile) (r : Nat) (w : GWord) : (t.putX r w).shadow = t.shadow := by obtain ⟨y, u, h⟩ := putX_shape t r w; rw [h]

@[simp] theorem putX_active (t : Tile) (r : Nat) (w : GWord) : (t.putX r w).active = t.active := by obtain ⟨y, u, h⟩ := putX_shape t r w; rw [h]

@[simp] theorem putX_nest (t : Tile) (r : Nat) (w : GWord) : (t.putX r w).nest = t.nest := by obtain ⟨y, u, h⟩ := putX_shape t r w; rw [h]

@[simp] theorem putX_nsteps (t : Tile) (r : Nat) (w : GWord) : (t.putX r w).nsteps = t.nsteps := by obtain ⟨y, u, h⟩ := putX_shape t r w; rw [h]

@[simp] theorem putX_nwaits (t : Tile) (r : Nat) (w : GWord) : (t.putX r w).nwaits = t.nwaits := by obtain ⟨y, u, h⟩ := putX_shape t r w; rw [h]

@[simp] theorem putX_dcmds (t : Tile) (r : Nat) (w : GWord) : (t.putX r w).dcmds = t.dcmds := by obtain ⟨y, u, h⟩ := putX_shape t r w; rw [h]

@[simp] theorem putX_dRanges (t : Tile) (r : Nat) (w : GWord) : (t.putX r w).dRanges = t.dRanges := by obtain ⟨y, u, h⟩ := putX_shape t r w; rw [h]

@[simp] theorem putX_wins (t : Tile) (r : Nat) (w : GWord) : (t.putX r w).wins = t.wins := by obtain ⟨y, u, h⟩ := putX_shape t r w; rw [h]

@[simp] theorem putX_remote (t : Tile) (r : Nat) (w : GWord) : (t.putX r w).remote = t.remote := by obtain ⟨y, u, h⟩ := putX_shape t r w; rw [h]

@[simp] theorem putX_sending (t : Tile) (r : Nat) (w : GWord) : (t.putX r w).sending = t.sending := by obtain ⟨y, u, h⟩ := putX_shape t r w; rw [h]

@[simp] theorem putX_nextTag (t : Tile) (r : Nat) (w : GWord) : (t.putX r w).nextTag = t.nextTag := by obtain ⟨y, u, h⟩ := putX_shape t r w; rw [h]

@[simp] theorem putX_spanWait (t : Tile) (r : Nat) (w : GWord) : (t.putX r w).spanWait = t.spanWait := by obtain ⟨y, u, h⟩ := putX_shape t r w; rw [h]

@[simp] theorem putX_ending (t : Tile) (r : Nat) (w : GWord) : (t.putX r w).ending = t.ending := by obtain ⟨y, u, h⟩ := putX_shape t r w; rw [h]

@[simp] theorem putX_pre (t : Tile) (r : Nat) (w : GWord) : (t.putX r w).pre = t.pre := by obtain ⟨y, u, h⟩ := putX_shape t r w; rw [h]

@[simp] theorem putX_cut (t : Tile) (r : Nat) (w : GWord) : (t.putX r w).cut = t.cut := by obtain ⟨y, u, h⟩ := putX_shape t r w; rw [h]

@[simp] theorem putX_resuming (t : Tile) (r : Nat) (w : GWord) : (t.putX r w).resuming = t.resuming := by obtain ⟨y, u, h⟩ := putX_shape t r w; rw [h]

@[simp] theorem putX_fwStop (t : Tile) (r : Nat) (w : GWord) : (t.putX r w).fwStop = t.fwStop := by obtain ⟨y, u, h⟩ := putX_shape t r w; rw [h]

@[simp] theorem putX_brimStop (t : Tile) (r : Nat) (w : GWord) : (t.putX r w).brimStop = t.brimStop := by obtain ⟨y, u, h⟩ := putX_shape t r w; rw [h]

@[simp] theorem putX_since (t : Tile) (r : Nat) (w : GWord) : (t.putX r w).since = t.since := by obtain ⟨y, u, h⟩ := putX_shape t r w; rw [h]

@[simp] theorem putX_haltAt (t : Tile) (r : Nat) (w : GWord) : (t.putX r w).haltAt = t.haltAt := by obtain ⟨y, u, h⟩ := putX_shape t r w; rw [h]

@[simp] theorem putX_haltFtb (t : Tile) (r : Nat) (w : GWord) : (t.putX r w).haltFtb = t.haltFtb := by obtain ⟨y, u, h⟩ := putX_shape t r w; rw [h]

@[simp] theorem putX_traced (t : Tile) (r : Nat) (w : GWord) : (t.putX r w).traced = t.traced := by obtain ⟨y, u, h⟩ := putX_shape t r w; rw [h]

@[simp] theorem putX_tested (t : Tile) (r : Nat) (w : GWord) : (t.putX r w).tested = t.tested := by obtain ⟨y, u, h⟩ := putX_shape t r w; rw [h]

@[simp] theorem setV_run (t : Tile) (r i : Nat) (w : GWord) : (t.setV r i w).run = t.run := rfl

@[simp] theorem setV_level (t : Tile) (r i : Nat) (w : GWord) : (t.setV r i w).level = t.level := rfl

@[simp] theorem setV_eS (t : Tile) (r i : Nat) (w : GWord) : (t.setV r i w).eS = t.eS := rfl

@[simp] theorem setV_eV (t : Tile) (r i : Nat) (w : GWord) : (t.setV r i w).eV = t.eV := rfl

@[simp] theorem setV_eM (t : Tile) (r i : Nat) (w : GWord) : (t.setV r i w).eM = t.eM := rfl

@[simp] theorem setV_eD (t : Tile) (r i : Nat) (w : GWord) : (t.setV r i w).eD = t.eD := rfl

@[simp] theorem setV_x (t : Tile) (r i : Nat) (w : GWord) : (t.setV r i w).x = t.x := rfl

@[simp] theorem setV_sreg (t : Tile) (r i : Nat) (w : GWord) : (t.setV r i w).sreg = t.sreg := rfl

@[simp] theorem setV_m (t : Tile) (r i : Nat) (w : GWord) : (t.setV r i w).m = t.m := rfl

@[simp] theorem setV_c (t : Tile) (r i : Nat) (w : GWord) : (t.setV r i w).c = t.c := rfl

@[simp] theorem setV_a (t : Tile) (r i : Nat) (w : GWord) : (t.setV r i w).a = t.a := rfl

@[simp] theorem setV_vcr (t : Tile) (r i : Nat) (w : GWord) : (t.setV r i w).vcr = t.vcr := rfl

@[simp] theorem setV_dcr (t : Tile) (r i : Nat) (w : GWord) : (t.setV r i w).dcr = t.dcr := rfl

@[simp] theorem setV_preds (t : Tile) (r i : Nat) (w : GWord) : (t.setV r i w).preds = t.preds := rfl

@[simp] theorem setV_oqV (t : Tile) (r i : Nat) (w : GWord) : (t.setV r i w).oqV = t.oqV := rfl

@[simp] theorem setV_oqM (t : Tile) (r i : Nat) (w : GWord) : (t.setV r i w).oqM = t.oqM := rfl

@[simp] theorem setV_oqD (t : Tile) (r i : Nat) (w : GWord) : (t.setV r i w).oqD = t.oqD := rfl

@[simp] theorem setV_boV (t : Tile) (r i : Nat) (w : GWord) : (t.setV r i w).boV = t.boV := rfl

@[simp] theorem setV_boM (t : Tile) (r i : Nat) (w : GWord) : (t.setV r i w).boM = t.boM := rfl

@[simp] theorem setV_boD (t : Tile) (r i : Nat) (w : GWord) : (t.setV r i w).boD = t.boD := rfl

@[simp] theorem setV_rq (t : Tile) (r i : Nat) (w : GWord) : (t.setV r i w).rq = t.rq := rfl

@[simp] theorem setV_eq (t : Tile) (r i : Nat) (w : GWord) : (t.setV r i w).eq = t.eq := rfl

@[simp] theorem setV_held (t : Tile) (r i : Nat) (w : GWord) : (t.setV r i w).held = t.held := rfl

@[simp] theorem setV_cstore (t : Tile) (r i : Nat) (w : GWord) : (t.setV r i w).cstore = t.cstore := rfl

@[simp] theorem setV_spad (t : Tile) (r i : Nat) (w : GWord) : (t.setV r i w).spad = t.spad := rfl

@[simp] theorem setV_acc (t : Tile) (r i : Nat) (w : GWord) : (t.setV r i w).acc = t.acc := rfl

@[simp] theorem setV_nrsV (t : Tile) (r i : Nat) (w : GWord) : (t.setV r i w).nrsV = t.nrsV := rfl

@[simp] theorem setV_nrsM (t : Tile) (r i : Nat) (w : GWord) : (t.setV r i w).nrsM = t.nrsM := rfl

@[simp] theorem setV_nrsD (t : Tile) (r i : Nat) (w : GWord) : (t.setV r i w).nrsD = t.nrsD := rfl

@[simp] theorem setV_win (t : Tile) (r i : Nat) (w : GWord) : (t.setV r i w).win = t.win := rfl

@[simp] theorem setV_apol (t : Tile) (r i : Nat) (w : GWord) : (t.setV r i w).apol = t.apol := rfl

@[simp] theorem setV_wver (t : Tile) (r i : Nat) (w : GWord) : (t.setV r i w).wver = t.wver := rfl

@[simp] theorem setV_widsplit (t : Tile) (r i : Nat) (w : GWord) : (t.setV r i w).widsplit = t.widsplit := rfl

@[simp] theorem setV_ufv (t : Tile) (r i : Nat) (w : GWord) : (t.setV r i w).ufv = t.ufv := rfl

@[simp] theorem setV_kvctl (t : Tile) (r i : Nat) (w : GWord) : (t.setV r i w).kvctl = t.kvctl := rfl

@[simp] theorem setV_bfmt (t : Tile) (r i : Nat) (w : GWord) : (t.setV r i w).bfmt = t.bfmt := rfl

@[simp] theorem setV_ufepc (t : Tile) (r i : Nat) (w : GWord) : (t.setV r i w).ufepc = t.ufepc := rfl

@[simp] theorem setV_ufcause (t : Tile) (r i : Nat) (w : GWord) : (t.setV r i w).ufcause = t.ufcause := rfl

@[simp] theorem setV_ufaddr (t : Tile) (r i : Nat) (w : GWord) : (t.setV r i w).ufaddr = t.ufaddr := rfl

@[simp] theorem setV_ufexp (t : Tile) (r i : Nat) (w : GWord) : (t.setV r i w).ufexp = t.ufexp := rfl

@[simp] theorem setV_tstat (t : Tile) (r i : Nat) (w : GWord) : (t.setV r i w).tstat = t.tstat := rfl

@[simp] theorem setV_tcause (t : Tile) (r i : Nat) (w : GWord) : (t.setV r i w).tcause = t.tcause := rfl

@[simp] theorem setV_taddr (t : Tile) (r i : Nat) (w : GWord) : (t.setV r i w).taddr = t.taddr := rfl

@[simp] theorem setV_tepc (t : Tile) (r i : Nat) (w : GWord) : (t.setV r i w).tepc = t.tepc := rfl

@[simp] theorem setV_tvec (t : Tile) (r i : Nat) (w : GWord) : (t.setV r i w).tvec = t.tvec := rfl

@[simp] theorem setV_tsb (t : Tile) (r i : Nat) (w : GWord) : (t.setV r i w).tsb = t.tsb := rfl

@[simp] theorem setV_ctxb (t : Tile) (r i : Nat) (w : GWord) : (t.setV r i w).ctxb = t.ctxb := rfl

@[simp] theorem setV_pwin (t : Tile) (r i : Nat) (w : GWord) : (t.setV r i w).pwin = t.pwin := rfl

@[simp] theorem setV_preq (t : Tile) (r i : Nat) (w : GWord) : (t.setV r i w).preq = t.preq := rfl

@[simp] theorem setV_tcause2 (t : Tile) (r i : Nat) (w : GWord) : (t.setV r i w).tcause2 = t.tcause2 := rfl

@[simp] theorem setV_taddr2 (t : Tile) (r i : Nat) (w : GWord) : (t.setV r i w).taddr2 = t.taddr2 := rfl

@[simp] theorem setV_gcc (t : Tile) (r i : Nat) (w : GWord) : (t.setV r i w).gcc = t.gcc := rfl

@[simp] theorem setV_guc (t : Tile) (r i : Nat) (w : GWord) : (t.setV r i w).guc = t.guc := rfl

@[simp] theorem setV_bstat (t : Tile) (r i : Nat) (w : GWord) : (t.setV r i w).bstat = t.bstat := rfl

@[simp] theorem setV_undo (t : Tile) (r i : Nat) (w : GWord) : (t.setV r i w).undo = t.undo := rfl

@[simp] theorem setV_trap (t : Tile) (r i : Nat) (w : GWord) : (t.setV r i w).trap = t.trap := rfl

@[simp] theorem setV_late (t : Tile) (r i : Nat) (w : GWord) : (t.setV r i w).late = t.late := rfl

@[simp] theorem setV_accFault (t : Tile) (r i : Nat) (w : GWord) : (t.setV r i w).accFault = t.accFault := rfl

@[simp] theorem setV_cache (t : Tile) (r i : Nat) (w : GWord) : (t.setV r i w).cache = t.cache := rfl

@[simp] theorem setV_tlb (t : Tile) (r i : Nat) (w : GWord) : (t.setV r i w).tlb = t.tlb := rfl

@[simp] theorem setV_icache (t : Tile) (r i : Nat) (w : GWord) : (t.setV r i w).icache = t.icache := rfl

@[simp] theorem setV_stamp (t : Tile) (r i : Nat) (w : GWord) : (t.setV r i w).stamp = t.stamp := rfl

@[simp] theorem setV_side (t : Tile) (r i : Nat) (w : GWord) : (t.setV r i w).side = t.side := rfl

@[simp] theorem setV_task (t : Tile) (r i : Nat) (w : GWord) : (t.setV r i w).task = t.task := rfl

@[simp] theorem setV_adopted (t : Tile) (r i : Nat) (w : GWord) : (t.setV r i w).adopted = t.adopted := rfl

@[simp] theorem setV_adoptWait (t : Tile) (r i : Nat) (w : GWord) : (t.setV r i w).adoptWait = t.adoptWait := rfl

@[simp] theorem setV_tlbinvs (t : Tile) (r i : Nat) (w : GWord) : (t.setV r i w).tlbinvs = t.tlbinvs := rfl

@[simp] theorem setV_attg (t : Tile) (r i : Nat) (w : GWord) : (t.setV r i w).attg = t.attg := rfl

@[simp] theorem setV_shadow (t : Tile) (r i : Nat) (w : GWord) : (t.setV r i w).shadow = t.shadow := rfl

@[simp] theorem setV_active (t : Tile) (r i : Nat) (w : GWord) : (t.setV r i w).active = t.active := rfl

@[simp] theorem setV_nest (t : Tile) (r i : Nat) (w : GWord) : (t.setV r i w).nest = t.nest := rfl

@[simp] theorem setV_nsteps (t : Tile) (r i : Nat) (w : GWord) : (t.setV r i w).nsteps = t.nsteps := rfl

@[simp] theorem setV_nwaits (t : Tile) (r i : Nat) (w : GWord) : (t.setV r i w).nwaits = t.nwaits := rfl

@[simp] theorem setV_dcmds (t : Tile) (r i : Nat) (w : GWord) : (t.setV r i w).dcmds = t.dcmds := rfl

@[simp] theorem setV_dRanges (t : Tile) (r i : Nat) (w : GWord) : (t.setV r i w).dRanges = t.dRanges := rfl

@[simp] theorem setV_wins (t : Tile) (r i : Nat) (w : GWord) : (t.setV r i w).wins = t.wins := rfl

@[simp] theorem setV_remote (t : Tile) (r i : Nat) (w : GWord) : (t.setV r i w).remote = t.remote := rfl

@[simp] theorem setV_sending (t : Tile) (r i : Nat) (w : GWord) : (t.setV r i w).sending = t.sending := rfl

@[simp] theorem setV_nextTag (t : Tile) (r i : Nat) (w : GWord) : (t.setV r i w).nextTag = t.nextTag := rfl

@[simp] theorem setV_spanWait (t : Tile) (r i : Nat) (w : GWord) : (t.setV r i w).spanWait = t.spanWait := rfl

@[simp] theorem setV_ending (t : Tile) (r i : Nat) (w : GWord) : (t.setV r i w).ending = t.ending := rfl

@[simp] theorem setV_pre (t : Tile) (r i : Nat) (w : GWord) : (t.setV r i w).pre = t.pre := rfl

@[simp] theorem setV_cut (t : Tile) (r i : Nat) (w : GWord) : (t.setV r i w).cut = t.cut := rfl

@[simp] theorem setV_resuming (t : Tile) (r i : Nat) (w : GWord) : (t.setV r i w).resuming = t.resuming := rfl

@[simp] theorem setV_fwStop (t : Tile) (r i : Nat) (w : GWord) : (t.setV r i w).fwStop = t.fwStop := rfl

@[simp] theorem setV_brimStop (t : Tile) (r i : Nat) (w : GWord) : (t.setV r i w).brimStop = t.brimStop := rfl

@[simp] theorem setV_since (t : Tile) (r i : Nat) (w : GWord) : (t.setV r i w).since = t.since := rfl

@[simp] theorem setV_haltAt (t : Tile) (r i : Nat) (w : GWord) : (t.setV r i w).haltAt = t.haltAt := rfl

@[simp] theorem setV_haltFtb (t : Tile) (r i : Nat) (w : GWord) : (t.setV r i w).haltFtb = t.haltFtb := rfl

@[simp] theorem setV_traced (t : Tile) (r i : Nat) (w : GWord) : (t.setV r i w).traced = t.traced := rfl

@[simp] theorem setV_tested (t : Tile) (r i : Nat) (w : GWord) : (t.setV r i w).tested = t.tested := rfl

@[simp] theorem setS_run (t : Tile) (r : Nat) (w : GWord) : (t.setS r w).run = t.run := rfl

@[simp] theorem setS_level (t : Tile) (r : Nat) (w : GWord) : (t.setS r w).level = t.level := rfl

@[simp] theorem setS_eS (t : Tile) (r : Nat) (w : GWord) : (t.setS r w).eS = t.eS := rfl

@[simp] theorem setS_eV (t : Tile) (r : Nat) (w : GWord) : (t.setS r w).eV = t.eV := rfl

@[simp] theorem setS_eM (t : Tile) (r : Nat) (w : GWord) : (t.setS r w).eM = t.eM := rfl

@[simp] theorem setS_eD (t : Tile) (r : Nat) (w : GWord) : (t.setS r w).eD = t.eD := rfl

@[simp] theorem setS_x (t : Tile) (r : Nat) (w : GWord) : (t.setS r w).x = t.x := rfl

@[simp] theorem setS_v (t : Tile) (r : Nat) (w : GWord) : (t.setS r w).v = t.v := rfl

@[simp] theorem setS_m (t : Tile) (r : Nat) (w : GWord) : (t.setS r w).m = t.m := rfl

@[simp] theorem setS_c (t : Tile) (r : Nat) (w : GWord) : (t.setS r w).c = t.c := rfl

@[simp] theorem setS_a (t : Tile) (r : Nat) (w : GWord) : (t.setS r w).a = t.a := rfl

@[simp] theorem setS_vcr (t : Tile) (r : Nat) (w : GWord) : (t.setS r w).vcr = t.vcr := rfl

@[simp] theorem setS_dcr (t : Tile) (r : Nat) (w : GWord) : (t.setS r w).dcr = t.dcr := rfl

@[simp] theorem setS_preds (t : Tile) (r : Nat) (w : GWord) : (t.setS r w).preds = t.preds := rfl

@[simp] theorem setS_oqV (t : Tile) (r : Nat) (w : GWord) : (t.setS r w).oqV = t.oqV := rfl

@[simp] theorem setS_oqM (t : Tile) (r : Nat) (w : GWord) : (t.setS r w).oqM = t.oqM := rfl

@[simp] theorem setS_oqD (t : Tile) (r : Nat) (w : GWord) : (t.setS r w).oqD = t.oqD := rfl

@[simp] theorem setS_boV (t : Tile) (r : Nat) (w : GWord) : (t.setS r w).boV = t.boV := rfl

@[simp] theorem setS_boM (t : Tile) (r : Nat) (w : GWord) : (t.setS r w).boM = t.boM := rfl

@[simp] theorem setS_boD (t : Tile) (r : Nat) (w : GWord) : (t.setS r w).boD = t.boD := rfl

@[simp] theorem setS_rq (t : Tile) (r : Nat) (w : GWord) : (t.setS r w).rq = t.rq := rfl

@[simp] theorem setS_eq (t : Tile) (r : Nat) (w : GWord) : (t.setS r w).eq = t.eq := rfl

@[simp] theorem setS_held (t : Tile) (r : Nat) (w : GWord) : (t.setS r w).held = t.held := rfl

@[simp] theorem setS_cstore (t : Tile) (r : Nat) (w : GWord) : (t.setS r w).cstore = t.cstore := rfl

@[simp] theorem setS_spad (t : Tile) (r : Nat) (w : GWord) : (t.setS r w).spad = t.spad := rfl

@[simp] theorem setS_acc (t : Tile) (r : Nat) (w : GWord) : (t.setS r w).acc = t.acc := rfl

@[simp] theorem setS_nrsV (t : Tile) (r : Nat) (w : GWord) : (t.setS r w).nrsV = t.nrsV := rfl

@[simp] theorem setS_nrsM (t : Tile) (r : Nat) (w : GWord) : (t.setS r w).nrsM = t.nrsM := rfl

@[simp] theorem setS_nrsD (t : Tile) (r : Nat) (w : GWord) : (t.setS r w).nrsD = t.nrsD := rfl

@[simp] theorem setS_win (t : Tile) (r : Nat) (w : GWord) : (t.setS r w).win = t.win := rfl

@[simp] theorem setS_apol (t : Tile) (r : Nat) (w : GWord) : (t.setS r w).apol = t.apol := rfl

@[simp] theorem setS_wver (t : Tile) (r : Nat) (w : GWord) : (t.setS r w).wver = t.wver := rfl

@[simp] theorem setS_widsplit (t : Tile) (r : Nat) (w : GWord) : (t.setS r w).widsplit = t.widsplit := rfl

@[simp] theorem setS_ufv (t : Tile) (r : Nat) (w : GWord) : (t.setS r w).ufv = t.ufv := rfl

@[simp] theorem setS_kvctl (t : Tile) (r : Nat) (w : GWord) : (t.setS r w).kvctl = t.kvctl := rfl

@[simp] theorem setS_bfmt (t : Tile) (r : Nat) (w : GWord) : (t.setS r w).bfmt = t.bfmt := rfl

@[simp] theorem setS_ufepc (t : Tile) (r : Nat) (w : GWord) : (t.setS r w).ufepc = t.ufepc := rfl

@[simp] theorem setS_ufcause (t : Tile) (r : Nat) (w : GWord) : (t.setS r w).ufcause = t.ufcause := rfl

@[simp] theorem setS_ufaddr (t : Tile) (r : Nat) (w : GWord) : (t.setS r w).ufaddr = t.ufaddr := rfl

@[simp] theorem setS_ufexp (t : Tile) (r : Nat) (w : GWord) : (t.setS r w).ufexp = t.ufexp := rfl

@[simp] theorem setS_tstat (t : Tile) (r : Nat) (w : GWord) : (t.setS r w).tstat = t.tstat := rfl

@[simp] theorem setS_tcause (t : Tile) (r : Nat) (w : GWord) : (t.setS r w).tcause = t.tcause := rfl

@[simp] theorem setS_taddr (t : Tile) (r : Nat) (w : GWord) : (t.setS r w).taddr = t.taddr := rfl

@[simp] theorem setS_tepc (t : Tile) (r : Nat) (w : GWord) : (t.setS r w).tepc = t.tepc := rfl

@[simp] theorem setS_tvec (t : Tile) (r : Nat) (w : GWord) : (t.setS r w).tvec = t.tvec := rfl

@[simp] theorem setS_tsb (t : Tile) (r : Nat) (w : GWord) : (t.setS r w).tsb = t.tsb := rfl

@[simp] theorem setS_ctxb (t : Tile) (r : Nat) (w : GWord) : (t.setS r w).ctxb = t.ctxb := rfl

@[simp] theorem setS_pwin (t : Tile) (r : Nat) (w : GWord) : (t.setS r w).pwin = t.pwin := rfl

@[simp] theorem setS_preq (t : Tile) (r : Nat) (w : GWord) : (t.setS r w).preq = t.preq := rfl

@[simp] theorem setS_tcause2 (t : Tile) (r : Nat) (w : GWord) : (t.setS r w).tcause2 = t.tcause2 := rfl

@[simp] theorem setS_taddr2 (t : Tile) (r : Nat) (w : GWord) : (t.setS r w).taddr2 = t.taddr2 := rfl

@[simp] theorem setS_gcc (t : Tile) (r : Nat) (w : GWord) : (t.setS r w).gcc = t.gcc := rfl

@[simp] theorem setS_guc (t : Tile) (r : Nat) (w : GWord) : (t.setS r w).guc = t.guc := rfl

@[simp] theorem setS_bstat (t : Tile) (r : Nat) (w : GWord) : (t.setS r w).bstat = t.bstat := rfl

@[simp] theorem setS_undo (t : Tile) (r : Nat) (w : GWord) : (t.setS r w).undo = t.undo := rfl

@[simp] theorem setS_trap (t : Tile) (r : Nat) (w : GWord) : (t.setS r w).trap = t.trap := rfl

@[simp] theorem setS_late (t : Tile) (r : Nat) (w : GWord) : (t.setS r w).late = t.late := rfl

@[simp] theorem setS_accFault (t : Tile) (r : Nat) (w : GWord) : (t.setS r w).accFault = t.accFault := rfl

@[simp] theorem setS_cache (t : Tile) (r : Nat) (w : GWord) : (t.setS r w).cache = t.cache := rfl

@[simp] theorem setS_tlb (t : Tile) (r : Nat) (w : GWord) : (t.setS r w).tlb = t.tlb := rfl

@[simp] theorem setS_icache (t : Tile) (r : Nat) (w : GWord) : (t.setS r w).icache = t.icache := rfl

@[simp] theorem setS_stamp (t : Tile) (r : Nat) (w : GWord) : (t.setS r w).stamp = t.stamp := rfl

@[simp] theorem setS_side (t : Tile) (r : Nat) (w : GWord) : (t.setS r w).side = t.side := rfl

@[simp] theorem setS_task (t : Tile) (r : Nat) (w : GWord) : (t.setS r w).task = t.task := rfl

@[simp] theorem setS_adopted (t : Tile) (r : Nat) (w : GWord) : (t.setS r w).adopted = t.adopted := rfl

@[simp] theorem setS_adoptWait (t : Tile) (r : Nat) (w : GWord) : (t.setS r w).adoptWait = t.adoptWait := rfl

@[simp] theorem setS_tlbinvs (t : Tile) (r : Nat) (w : GWord) : (t.setS r w).tlbinvs = t.tlbinvs := rfl

@[simp] theorem setS_attg (t : Tile) (r : Nat) (w : GWord) : (t.setS r w).attg = t.attg := rfl

@[simp] theorem setS_shadow (t : Tile) (r : Nat) (w : GWord) : (t.setS r w).shadow = t.shadow := rfl

@[simp] theorem setS_active (t : Tile) (r : Nat) (w : GWord) : (t.setS r w).active = t.active := rfl

@[simp] theorem setS_nest (t : Tile) (r : Nat) (w : GWord) : (t.setS r w).nest = t.nest := rfl

@[simp] theorem setS_nsteps (t : Tile) (r : Nat) (w : GWord) : (t.setS r w).nsteps = t.nsteps := rfl

@[simp] theorem setS_nwaits (t : Tile) (r : Nat) (w : GWord) : (t.setS r w).nwaits = t.nwaits := rfl

@[simp] theorem setS_dcmds (t : Tile) (r : Nat) (w : GWord) : (t.setS r w).dcmds = t.dcmds := rfl

@[simp] theorem setS_dRanges (t : Tile) (r : Nat) (w : GWord) : (t.setS r w).dRanges = t.dRanges := rfl

@[simp] theorem setS_wins (t : Tile) (r : Nat) (w : GWord) : (t.setS r w).wins = t.wins := rfl

@[simp] theorem setS_remote (t : Tile) (r : Nat) (w : GWord) : (t.setS r w).remote = t.remote := rfl

@[simp] theorem setS_sending (t : Tile) (r : Nat) (w : GWord) : (t.setS r w).sending = t.sending := rfl

@[simp] theorem setS_nextTag (t : Tile) (r : Nat) (w : GWord) : (t.setS r w).nextTag = t.nextTag := rfl

@[simp] theorem setS_spanWait (t : Tile) (r : Nat) (w : GWord) : (t.setS r w).spanWait = t.spanWait := rfl

@[simp] theorem setS_ending (t : Tile) (r : Nat) (w : GWord) : (t.setS r w).ending = t.ending := rfl

@[simp] theorem setS_pre (t : Tile) (r : Nat) (w : GWord) : (t.setS r w).pre = t.pre := rfl

@[simp] theorem setS_cut (t : Tile) (r : Nat) (w : GWord) : (t.setS r w).cut = t.cut := rfl

@[simp] theorem setS_resuming (t : Tile) (r : Nat) (w : GWord) : (t.setS r w).resuming = t.resuming := rfl

@[simp] theorem setS_fwStop (t : Tile) (r : Nat) (w : GWord) : (t.setS r w).fwStop = t.fwStop := rfl

@[simp] theorem setS_brimStop (t : Tile) (r : Nat) (w : GWord) : (t.setS r w).brimStop = t.brimStop := rfl

@[simp] theorem setS_since (t : Tile) (r : Nat) (w : GWord) : (t.setS r w).since = t.since := rfl

@[simp] theorem setS_haltAt (t : Tile) (r : Nat) (w : GWord) : (t.setS r w).haltAt = t.haltAt := rfl

@[simp] theorem setS_haltFtb (t : Tile) (r : Nat) (w : GWord) : (t.setS r w).haltFtb = t.haltFtb := rfl

@[simp] theorem setS_traced (t : Tile) (r : Nat) (w : GWord) : (t.setS r w).traced = t.traced := rfl

@[simp] theorem setS_tested (t : Tile) (r : Nat) (w : GWord) : (t.setS r w).tested = t.tested := rfl

@[simp] theorem setM_run (t : Tile) (r h : Nat) (w : GWord) : (t.setM r h w).run = t.run := by obtain ⟨y, e⟩ := setM_shape t r h w; rw [e]

@[simp] theorem setM_level (t : Tile) (r h : Nat) (w : GWord) : (t.setM r h w).level = t.level := by obtain ⟨y, e⟩ := setM_shape t r h w; rw [e]

@[simp] theorem setM_eS (t : Tile) (r h : Nat) (w : GWord) : (t.setM r h w).eS = t.eS := by obtain ⟨y, e⟩ := setM_shape t r h w; rw [e]

@[simp] theorem setM_eV (t : Tile) (r h : Nat) (w : GWord) : (t.setM r h w).eV = t.eV := by obtain ⟨y, e⟩ := setM_shape t r h w; rw [e]

@[simp] theorem setM_eM (t : Tile) (r h : Nat) (w : GWord) : (t.setM r h w).eM = t.eM := by obtain ⟨y, e⟩ := setM_shape t r h w; rw [e]

@[simp] theorem setM_eD (t : Tile) (r h : Nat) (w : GWord) : (t.setM r h w).eD = t.eD := by obtain ⟨y, e⟩ := setM_shape t r h w; rw [e]

@[simp] theorem setM_x (t : Tile) (r h : Nat) (w : GWord) : (t.setM r h w).x = t.x := by obtain ⟨y, e⟩ := setM_shape t r h w; rw [e]

@[simp] theorem setM_v (t : Tile) (r h : Nat) (w : GWord) : (t.setM r h w).v = t.v := by obtain ⟨y, e⟩ := setM_shape t r h w; rw [e]

@[simp] theorem setM_sreg (t : Tile) (r h : Nat) (w : GWord) : (t.setM r h w).sreg = t.sreg := by obtain ⟨y, e⟩ := setM_shape t r h w; rw [e]

@[simp] theorem setM_c (t : Tile) (r h : Nat) (w : GWord) : (t.setM r h w).c = t.c := by obtain ⟨y, e⟩ := setM_shape t r h w; rw [e]

@[simp] theorem setM_a (t : Tile) (r h : Nat) (w : GWord) : (t.setM r h w).a = t.a := by obtain ⟨y, e⟩ := setM_shape t r h w; rw [e]

@[simp] theorem setM_vcr (t : Tile) (r h : Nat) (w : GWord) : (t.setM r h w).vcr = t.vcr := by obtain ⟨y, e⟩ := setM_shape t r h w; rw [e]

@[simp] theorem setM_dcr (t : Tile) (r h : Nat) (w : GWord) : (t.setM r h w).dcr = t.dcr := by obtain ⟨y, e⟩ := setM_shape t r h w; rw [e]

@[simp] theorem setM_preds (t : Tile) (r h : Nat) (w : GWord) : (t.setM r h w).preds = t.preds := by obtain ⟨y, e⟩ := setM_shape t r h w; rw [e]

@[simp] theorem setM_oqV (t : Tile) (r h : Nat) (w : GWord) : (t.setM r h w).oqV = t.oqV := by obtain ⟨y, e⟩ := setM_shape t r h w; rw [e]

@[simp] theorem setM_oqM (t : Tile) (r h : Nat) (w : GWord) : (t.setM r h w).oqM = t.oqM := by obtain ⟨y, e⟩ := setM_shape t r h w; rw [e]

@[simp] theorem setM_oqD (t : Tile) (r h : Nat) (w : GWord) : (t.setM r h w).oqD = t.oqD := by obtain ⟨y, e⟩ := setM_shape t r h w; rw [e]

@[simp] theorem setM_boV (t : Tile) (r h : Nat) (w : GWord) : (t.setM r h w).boV = t.boV := by obtain ⟨y, e⟩ := setM_shape t r h w; rw [e]

@[simp] theorem setM_boM (t : Tile) (r h : Nat) (w : GWord) : (t.setM r h w).boM = t.boM := by obtain ⟨y, e⟩ := setM_shape t r h w; rw [e]

@[simp] theorem setM_boD (t : Tile) (r h : Nat) (w : GWord) : (t.setM r h w).boD = t.boD := by obtain ⟨y, e⟩ := setM_shape t r h w; rw [e]

@[simp] theorem setM_rq (t : Tile) (r h : Nat) (w : GWord) : (t.setM r h w).rq = t.rq := by obtain ⟨y, e⟩ := setM_shape t r h w; rw [e]

@[simp] theorem setM_eq (t : Tile) (r h : Nat) (w : GWord) : (t.setM r h w).eq = t.eq := by obtain ⟨y, e⟩ := setM_shape t r h w; rw [e]

@[simp] theorem setM_held (t : Tile) (r h : Nat) (w : GWord) : (t.setM r h w).held = t.held := by obtain ⟨y, e⟩ := setM_shape t r h w; rw [e]

@[simp] theorem setM_cstore (t : Tile) (r h : Nat) (w : GWord) : (t.setM r h w).cstore = t.cstore := by obtain ⟨y, e⟩ := setM_shape t r h w; rw [e]

@[simp] theorem setM_spad (t : Tile) (r h : Nat) (w : GWord) : (t.setM r h w).spad = t.spad := by obtain ⟨y, e⟩ := setM_shape t r h w; rw [e]

@[simp] theorem setM_acc (t : Tile) (r h : Nat) (w : GWord) : (t.setM r h w).acc = t.acc := by obtain ⟨y, e⟩ := setM_shape t r h w; rw [e]

@[simp] theorem setM_nrsV (t : Tile) (r h : Nat) (w : GWord) : (t.setM r h w).nrsV = t.nrsV := by obtain ⟨y, e⟩ := setM_shape t r h w; rw [e]

@[simp] theorem setM_nrsM (t : Tile) (r h : Nat) (w : GWord) : (t.setM r h w).nrsM = t.nrsM := by obtain ⟨y, e⟩ := setM_shape t r h w; rw [e]

@[simp] theorem setM_nrsD (t : Tile) (r h : Nat) (w : GWord) : (t.setM r h w).nrsD = t.nrsD := by obtain ⟨y, e⟩ := setM_shape t r h w; rw [e]

@[simp] theorem setM_win (t : Tile) (r h : Nat) (w : GWord) : (t.setM r h w).win = t.win := by obtain ⟨y, e⟩ := setM_shape t r h w; rw [e]

@[simp] theorem setM_apol (t : Tile) (r h : Nat) (w : GWord) : (t.setM r h w).apol = t.apol := by obtain ⟨y, e⟩ := setM_shape t r h w; rw [e]

@[simp] theorem setM_wver (t : Tile) (r h : Nat) (w : GWord) : (t.setM r h w).wver = t.wver := by obtain ⟨y, e⟩ := setM_shape t r h w; rw [e]

@[simp] theorem setM_widsplit (t : Tile) (r h : Nat) (w : GWord) : (t.setM r h w).widsplit = t.widsplit := by obtain ⟨y, e⟩ := setM_shape t r h w; rw [e]

@[simp] theorem setM_ufv (t : Tile) (r h : Nat) (w : GWord) : (t.setM r h w).ufv = t.ufv := by obtain ⟨y, e⟩ := setM_shape t r h w; rw [e]

@[simp] theorem setM_kvctl (t : Tile) (r h : Nat) (w : GWord) : (t.setM r h w).kvctl = t.kvctl := by obtain ⟨y, e⟩ := setM_shape t r h w; rw [e]

@[simp] theorem setM_bfmt (t : Tile) (r h : Nat) (w : GWord) : (t.setM r h w).bfmt = t.bfmt := by obtain ⟨y, e⟩ := setM_shape t r h w; rw [e]

@[simp] theorem setM_ufepc (t : Tile) (r h : Nat) (w : GWord) : (t.setM r h w).ufepc = t.ufepc := by obtain ⟨y, e⟩ := setM_shape t r h w; rw [e]

@[simp] theorem setM_ufcause (t : Tile) (r h : Nat) (w : GWord) : (t.setM r h w).ufcause = t.ufcause := by obtain ⟨y, e⟩ := setM_shape t r h w; rw [e]

@[simp] theorem setM_ufaddr (t : Tile) (r h : Nat) (w : GWord) : (t.setM r h w).ufaddr = t.ufaddr := by obtain ⟨y, e⟩ := setM_shape t r h w; rw [e]

@[simp] theorem setM_ufexp (t : Tile) (r h : Nat) (w : GWord) : (t.setM r h w).ufexp = t.ufexp := by obtain ⟨y, e⟩ := setM_shape t r h w; rw [e]

@[simp] theorem setM_tstat (t : Tile) (r h : Nat) (w : GWord) : (t.setM r h w).tstat = t.tstat := by obtain ⟨y, e⟩ := setM_shape t r h w; rw [e]

@[simp] theorem setM_tcause (t : Tile) (r h : Nat) (w : GWord) : (t.setM r h w).tcause = t.tcause := by obtain ⟨y, e⟩ := setM_shape t r h w; rw [e]

@[simp] theorem setM_taddr (t : Tile) (r h : Nat) (w : GWord) : (t.setM r h w).taddr = t.taddr := by obtain ⟨y, e⟩ := setM_shape t r h w; rw [e]

@[simp] theorem setM_tepc (t : Tile) (r h : Nat) (w : GWord) : (t.setM r h w).tepc = t.tepc := by obtain ⟨y, e⟩ := setM_shape t r h w; rw [e]

@[simp] theorem setM_tvec (t : Tile) (r h : Nat) (w : GWord) : (t.setM r h w).tvec = t.tvec := by obtain ⟨y, e⟩ := setM_shape t r h w; rw [e]

@[simp] theorem setM_tsb (t : Tile) (r h : Nat) (w : GWord) : (t.setM r h w).tsb = t.tsb := by obtain ⟨y, e⟩ := setM_shape t r h w; rw [e]

@[simp] theorem setM_ctxb (t : Tile) (r h : Nat) (w : GWord) : (t.setM r h w).ctxb = t.ctxb := by obtain ⟨y, e⟩ := setM_shape t r h w; rw [e]

@[simp] theorem setM_pwin (t : Tile) (r h : Nat) (w : GWord) : (t.setM r h w).pwin = t.pwin := by obtain ⟨y, e⟩ := setM_shape t r h w; rw [e]

@[simp] theorem setM_preq (t : Tile) (r h : Nat) (w : GWord) : (t.setM r h w).preq = t.preq := by obtain ⟨y, e⟩ := setM_shape t r h w; rw [e]

@[simp] theorem setM_tcause2 (t : Tile) (r h : Nat) (w : GWord) : (t.setM r h w).tcause2 = t.tcause2 := by obtain ⟨y, e⟩ := setM_shape t r h w; rw [e]

@[simp] theorem setM_taddr2 (t : Tile) (r h : Nat) (w : GWord) : (t.setM r h w).taddr2 = t.taddr2 := by obtain ⟨y, e⟩ := setM_shape t r h w; rw [e]

@[simp] theorem setM_gcc (t : Tile) (r h : Nat) (w : GWord) : (t.setM r h w).gcc = t.gcc := by obtain ⟨y, e⟩ := setM_shape t r h w; rw [e]

@[simp] theorem setM_guc (t : Tile) (r h : Nat) (w : GWord) : (t.setM r h w).guc = t.guc := by obtain ⟨y, e⟩ := setM_shape t r h w; rw [e]

@[simp] theorem setM_bstat (t : Tile) (r h : Nat) (w : GWord) : (t.setM r h w).bstat = t.bstat := by obtain ⟨y, e⟩ := setM_shape t r h w; rw [e]

@[simp] theorem setM_undo (t : Tile) (r h : Nat) (w : GWord) : (t.setM r h w).undo = t.undo := by obtain ⟨y, e⟩ := setM_shape t r h w; rw [e]

@[simp] theorem setM_trap (t : Tile) (r h : Nat) (w : GWord) : (t.setM r h w).trap = t.trap := by obtain ⟨y, e⟩ := setM_shape t r h w; rw [e]

@[simp] theorem setM_late (t : Tile) (r h : Nat) (w : GWord) : (t.setM r h w).late = t.late := by obtain ⟨y, e⟩ := setM_shape t r h w; rw [e]

@[simp] theorem setM_accFault (t : Tile) (r h : Nat) (w : GWord) : (t.setM r h w).accFault = t.accFault := by obtain ⟨y, e⟩ := setM_shape t r h w; rw [e]

@[simp] theorem setM_cache (t : Tile) (r h : Nat) (w : GWord) : (t.setM r h w).cache = t.cache := by obtain ⟨y, e⟩ := setM_shape t r h w; rw [e]

@[simp] theorem setM_tlb (t : Tile) (r h : Nat) (w : GWord) : (t.setM r h w).tlb = t.tlb := by obtain ⟨y, e⟩ := setM_shape t r h w; rw [e]

@[simp] theorem setM_icache (t : Tile) (r h : Nat) (w : GWord) : (t.setM r h w).icache = t.icache := by obtain ⟨y, e⟩ := setM_shape t r h w; rw [e]

@[simp] theorem setM_stamp (t : Tile) (r h : Nat) (w : GWord) : (t.setM r h w).stamp = t.stamp := by obtain ⟨y, e⟩ := setM_shape t r h w; rw [e]

@[simp] theorem setM_side (t : Tile) (r h : Nat) (w : GWord) : (t.setM r h w).side = t.side := by obtain ⟨y, e⟩ := setM_shape t r h w; rw [e]

@[simp] theorem setM_task (t : Tile) (r h : Nat) (w : GWord) : (t.setM r h w).task = t.task := by obtain ⟨y, e⟩ := setM_shape t r h w; rw [e]

@[simp] theorem setM_adopted (t : Tile) (r h : Nat) (w : GWord) : (t.setM r h w).adopted = t.adopted := by obtain ⟨y, e⟩ := setM_shape t r h w; rw [e]

@[simp] theorem setM_adoptWait (t : Tile) (r h : Nat) (w : GWord) : (t.setM r h w).adoptWait = t.adoptWait := by obtain ⟨y, e⟩ := setM_shape t r h w; rw [e]

@[simp] theorem setM_tlbinvs (t : Tile) (r h : Nat) (w : GWord) : (t.setM r h w).tlbinvs = t.tlbinvs := by obtain ⟨y, e⟩ := setM_shape t r h w; rw [e]

@[simp] theorem setM_attg (t : Tile) (r h : Nat) (w : GWord) : (t.setM r h w).attg = t.attg := by obtain ⟨y, e⟩ := setM_shape t r h w; rw [e]

@[simp] theorem setM_shadow (t : Tile) (r h : Nat) (w : GWord) : (t.setM r h w).shadow = t.shadow := by obtain ⟨y, e⟩ := setM_shape t r h w; rw [e]

@[simp] theorem setM_active (t : Tile) (r h : Nat) (w : GWord) : (t.setM r h w).active = t.active := by obtain ⟨y, e⟩ := setM_shape t r h w; rw [e]

@[simp] theorem setM_nest (t : Tile) (r h : Nat) (w : GWord) : (t.setM r h w).nest = t.nest := by obtain ⟨y, e⟩ := setM_shape t r h w; rw [e]

@[simp] theorem setM_nsteps (t : Tile) (r h : Nat) (w : GWord) : (t.setM r h w).nsteps = t.nsteps := by obtain ⟨y, e⟩ := setM_shape t r h w; rw [e]

@[simp] theorem setM_nwaits (t : Tile) (r h : Nat) (w : GWord) : (t.setM r h w).nwaits = t.nwaits := by obtain ⟨y, e⟩ := setM_shape t r h w; rw [e]

@[simp] theorem setM_dcmds (t : Tile) (r h : Nat) (w : GWord) : (t.setM r h w).dcmds = t.dcmds := by obtain ⟨y, e⟩ := setM_shape t r h w; rw [e]

@[simp] theorem setM_dRanges (t : Tile) (r h : Nat) (w : GWord) : (t.setM r h w).dRanges = t.dRanges := by obtain ⟨y, e⟩ := setM_shape t r h w; rw [e]

@[simp] theorem setM_wins (t : Tile) (r h : Nat) (w : GWord) : (t.setM r h w).wins = t.wins := by obtain ⟨y, e⟩ := setM_shape t r h w; rw [e]

@[simp] theorem setM_remote (t : Tile) (r h : Nat) (w : GWord) : (t.setM r h w).remote = t.remote := by obtain ⟨y, e⟩ := setM_shape t r h w; rw [e]

@[simp] theorem setM_sending (t : Tile) (r h : Nat) (w : GWord) : (t.setM r h w).sending = t.sending := by obtain ⟨y, e⟩ := setM_shape t r h w; rw [e]

@[simp] theorem setM_nextTag (t : Tile) (r h : Nat) (w : GWord) : (t.setM r h w).nextTag = t.nextTag := by obtain ⟨y, e⟩ := setM_shape t r h w; rw [e]

@[simp] theorem setM_spanWait (t : Tile) (r h : Nat) (w : GWord) : (t.setM r h w).spanWait = t.spanWait := by obtain ⟨y, e⟩ := setM_shape t r h w; rw [e]

@[simp] theorem setM_ending (t : Tile) (r h : Nat) (w : GWord) : (t.setM r h w).ending = t.ending := by obtain ⟨y, e⟩ := setM_shape t r h w; rw [e]

@[simp] theorem setM_pre (t : Tile) (r h : Nat) (w : GWord) : (t.setM r h w).pre = t.pre := by obtain ⟨y, e⟩ := setM_shape t r h w; rw [e]

@[simp] theorem setM_cut (t : Tile) (r h : Nat) (w : GWord) : (t.setM r h w).cut = t.cut := by obtain ⟨y, e⟩ := setM_shape t r h w; rw [e]

@[simp] theorem setM_resuming (t : Tile) (r h : Nat) (w : GWord) : (t.setM r h w).resuming = t.resuming := by obtain ⟨y, e⟩ := setM_shape t r h w; rw [e]

@[simp] theorem setM_fwStop (t : Tile) (r h : Nat) (w : GWord) : (t.setM r h w).fwStop = t.fwStop := by obtain ⟨y, e⟩ := setM_shape t r h w; rw [e]

@[simp] theorem setM_brimStop (t : Tile) (r h : Nat) (w : GWord) : (t.setM r h w).brimStop = t.brimStop := by obtain ⟨y, e⟩ := setM_shape t r h w; rw [e]

@[simp] theorem setM_since (t : Tile) (r h : Nat) (w : GWord) : (t.setM r h w).since = t.since := by obtain ⟨y, e⟩ := setM_shape t r h w; rw [e]

@[simp] theorem setM_haltAt (t : Tile) (r h : Nat) (w : GWord) : (t.setM r h w).haltAt = t.haltAt := by obtain ⟨y, e⟩ := setM_shape t r h w; rw [e]

@[simp] theorem setM_haltFtb (t : Tile) (r h : Nat) (w : GWord) : (t.setM r h w).haltFtb = t.haltFtb := by obtain ⟨y, e⟩ := setM_shape t r h w; rw [e]

@[simp] theorem setM_traced (t : Tile) (r h : Nat) (w : GWord) : (t.setM r h w).traced = t.traced := by obtain ⟨y, e⟩ := setM_shape t r h w; rw [e]

@[simp] theorem setM_tested (t : Tile) (r h : Nat) (w : GWord) : (t.setM r h w).tested = t.tested := by obtain ⟨y, e⟩ := setM_shape t r h w; rw [e]

@[simp] theorem setVcr_run (t : Tile) (r : Nat) (w : GWord) : (t.setVcr r w).run = t.run := rfl

@[simp] theorem setVcr_level (t : Tile) (r : Nat) (w : GWord) : (t.setVcr r w).level = t.level := rfl

@[simp] theorem setVcr_eS (t : Tile) (r : Nat) (w : GWord) : (t.setVcr r w).eS = t.eS := rfl

@[simp] theorem setVcr_eV (t : Tile) (r : Nat) (w : GWord) : (t.setVcr r w).eV = t.eV := rfl

@[simp] theorem setVcr_eM (t : Tile) (r : Nat) (w : GWord) : (t.setVcr r w).eM = t.eM := rfl

@[simp] theorem setVcr_eD (t : Tile) (r : Nat) (w : GWord) : (t.setVcr r w).eD = t.eD := rfl

@[simp] theorem setVcr_x (t : Tile) (r : Nat) (w : GWord) : (t.setVcr r w).x = t.x := rfl

@[simp] theorem setVcr_v (t : Tile) (r : Nat) (w : GWord) : (t.setVcr r w).v = t.v := rfl

@[simp] theorem setVcr_sreg (t : Tile) (r : Nat) (w : GWord) : (t.setVcr r w).sreg = t.sreg := rfl

@[simp] theorem setVcr_m (t : Tile) (r : Nat) (w : GWord) : (t.setVcr r w).m = t.m := rfl

@[simp] theorem setVcr_c (t : Tile) (r : Nat) (w : GWord) : (t.setVcr r w).c = t.c := rfl

@[simp] theorem setVcr_a (t : Tile) (r : Nat) (w : GWord) : (t.setVcr r w).a = t.a := rfl

@[simp] theorem setVcr_dcr (t : Tile) (r : Nat) (w : GWord) : (t.setVcr r w).dcr = t.dcr := rfl

@[simp] theorem setVcr_preds (t : Tile) (r : Nat) (w : GWord) : (t.setVcr r w).preds = t.preds := rfl

@[simp] theorem setVcr_oqV (t : Tile) (r : Nat) (w : GWord) : (t.setVcr r w).oqV = t.oqV := rfl

@[simp] theorem setVcr_oqM (t : Tile) (r : Nat) (w : GWord) : (t.setVcr r w).oqM = t.oqM := rfl

@[simp] theorem setVcr_oqD (t : Tile) (r : Nat) (w : GWord) : (t.setVcr r w).oqD = t.oqD := rfl

@[simp] theorem setVcr_boV (t : Tile) (r : Nat) (w : GWord) : (t.setVcr r w).boV = t.boV := rfl

@[simp] theorem setVcr_boM (t : Tile) (r : Nat) (w : GWord) : (t.setVcr r w).boM = t.boM := rfl

@[simp] theorem setVcr_boD (t : Tile) (r : Nat) (w : GWord) : (t.setVcr r w).boD = t.boD := rfl

@[simp] theorem setVcr_rq (t : Tile) (r : Nat) (w : GWord) : (t.setVcr r w).rq = t.rq := rfl

@[simp] theorem setVcr_eq (t : Tile) (r : Nat) (w : GWord) : (t.setVcr r w).eq = t.eq := rfl

@[simp] theorem setVcr_held (t : Tile) (r : Nat) (w : GWord) : (t.setVcr r w).held = t.held := rfl

@[simp] theorem setVcr_cstore (t : Tile) (r : Nat) (w : GWord) : (t.setVcr r w).cstore = t.cstore := rfl

@[simp] theorem setVcr_spad (t : Tile) (r : Nat) (w : GWord) : (t.setVcr r w).spad = t.spad := rfl

@[simp] theorem setVcr_acc (t : Tile) (r : Nat) (w : GWord) : (t.setVcr r w).acc = t.acc := rfl

@[simp] theorem setVcr_nrsV (t : Tile) (r : Nat) (w : GWord) : (t.setVcr r w).nrsV = t.nrsV := rfl

@[simp] theorem setVcr_nrsM (t : Tile) (r : Nat) (w : GWord) : (t.setVcr r w).nrsM = t.nrsM := rfl

@[simp] theorem setVcr_nrsD (t : Tile) (r : Nat) (w : GWord) : (t.setVcr r w).nrsD = t.nrsD := rfl

@[simp] theorem setVcr_win (t : Tile) (r : Nat) (w : GWord) : (t.setVcr r w).win = t.win := rfl

@[simp] theorem setVcr_apol (t : Tile) (r : Nat) (w : GWord) : (t.setVcr r w).apol = t.apol := rfl

@[simp] theorem setVcr_wver (t : Tile) (r : Nat) (w : GWord) : (t.setVcr r w).wver = t.wver := rfl

@[simp] theorem setVcr_widsplit (t : Tile) (r : Nat) (w : GWord) : (t.setVcr r w).widsplit = t.widsplit := rfl

@[simp] theorem setVcr_ufv (t : Tile) (r : Nat) (w : GWord) : (t.setVcr r w).ufv = t.ufv := rfl

@[simp] theorem setVcr_kvctl (t : Tile) (r : Nat) (w : GWord) : (t.setVcr r w).kvctl = t.kvctl := rfl

@[simp] theorem setVcr_bfmt (t : Tile) (r : Nat) (w : GWord) : (t.setVcr r w).bfmt = t.bfmt := rfl

@[simp] theorem setVcr_ufepc (t : Tile) (r : Nat) (w : GWord) : (t.setVcr r w).ufepc = t.ufepc := rfl

@[simp] theorem setVcr_ufcause (t : Tile) (r : Nat) (w : GWord) : (t.setVcr r w).ufcause = t.ufcause := rfl

@[simp] theorem setVcr_ufaddr (t : Tile) (r : Nat) (w : GWord) : (t.setVcr r w).ufaddr = t.ufaddr := rfl

@[simp] theorem setVcr_ufexp (t : Tile) (r : Nat) (w : GWord) : (t.setVcr r w).ufexp = t.ufexp := rfl

@[simp] theorem setVcr_tstat (t : Tile) (r : Nat) (w : GWord) : (t.setVcr r w).tstat = t.tstat := rfl

@[simp] theorem setVcr_tcause (t : Tile) (r : Nat) (w : GWord) : (t.setVcr r w).tcause = t.tcause := rfl

@[simp] theorem setVcr_taddr (t : Tile) (r : Nat) (w : GWord) : (t.setVcr r w).taddr = t.taddr := rfl

@[simp] theorem setVcr_tepc (t : Tile) (r : Nat) (w : GWord) : (t.setVcr r w).tepc = t.tepc := rfl

@[simp] theorem setVcr_tvec (t : Tile) (r : Nat) (w : GWord) : (t.setVcr r w).tvec = t.tvec := rfl

@[simp] theorem setVcr_tsb (t : Tile) (r : Nat) (w : GWord) : (t.setVcr r w).tsb = t.tsb := rfl

@[simp] theorem setVcr_ctxb (t : Tile) (r : Nat) (w : GWord) : (t.setVcr r w).ctxb = t.ctxb := rfl

@[simp] theorem setVcr_pwin (t : Tile) (r : Nat) (w : GWord) : (t.setVcr r w).pwin = t.pwin := rfl

@[simp] theorem setVcr_preq (t : Tile) (r : Nat) (w : GWord) : (t.setVcr r w).preq = t.preq := rfl

@[simp] theorem setVcr_tcause2 (t : Tile) (r : Nat) (w : GWord) : (t.setVcr r w).tcause2 = t.tcause2 := rfl

@[simp] theorem setVcr_taddr2 (t : Tile) (r : Nat) (w : GWord) : (t.setVcr r w).taddr2 = t.taddr2 := rfl

@[simp] theorem setVcr_gcc (t : Tile) (r : Nat) (w : GWord) : (t.setVcr r w).gcc = t.gcc := rfl

@[simp] theorem setVcr_guc (t : Tile) (r : Nat) (w : GWord) : (t.setVcr r w).guc = t.guc := rfl

@[simp] theorem setVcr_bstat (t : Tile) (r : Nat) (w : GWord) : (t.setVcr r w).bstat = t.bstat := rfl

@[simp] theorem setVcr_undo (t : Tile) (r : Nat) (w : GWord) : (t.setVcr r w).undo = t.undo := rfl

@[simp] theorem setVcr_trap (t : Tile) (r : Nat) (w : GWord) : (t.setVcr r w).trap = t.trap := rfl

@[simp] theorem setVcr_late (t : Tile) (r : Nat) (w : GWord) : (t.setVcr r w).late = t.late := rfl

@[simp] theorem setVcr_accFault (t : Tile) (r : Nat) (w : GWord) : (t.setVcr r w).accFault = t.accFault := rfl

@[simp] theorem setVcr_cache (t : Tile) (r : Nat) (w : GWord) : (t.setVcr r w).cache = t.cache := rfl

@[simp] theorem setVcr_tlb (t : Tile) (r : Nat) (w : GWord) : (t.setVcr r w).tlb = t.tlb := rfl

@[simp] theorem setVcr_icache (t : Tile) (r : Nat) (w : GWord) : (t.setVcr r w).icache = t.icache := rfl

@[simp] theorem setVcr_stamp (t : Tile) (r : Nat) (w : GWord) : (t.setVcr r w).stamp = t.stamp := rfl

@[simp] theorem setVcr_side (t : Tile) (r : Nat) (w : GWord) : (t.setVcr r w).side = t.side := rfl

@[simp] theorem setVcr_task (t : Tile) (r : Nat) (w : GWord) : (t.setVcr r w).task = t.task := rfl

@[simp] theorem setVcr_adopted (t : Tile) (r : Nat) (w : GWord) : (t.setVcr r w).adopted = t.adopted := rfl

@[simp] theorem setVcr_adoptWait (t : Tile) (r : Nat) (w : GWord) : (t.setVcr r w).adoptWait = t.adoptWait := rfl

@[simp] theorem setVcr_tlbinvs (t : Tile) (r : Nat) (w : GWord) : (t.setVcr r w).tlbinvs = t.tlbinvs := rfl

@[simp] theorem setVcr_attg (t : Tile) (r : Nat) (w : GWord) : (t.setVcr r w).attg = t.attg := rfl

@[simp] theorem setVcr_shadow (t : Tile) (r : Nat) (w : GWord) : (t.setVcr r w).shadow = t.shadow := rfl

@[simp] theorem setVcr_active (t : Tile) (r : Nat) (w : GWord) : (t.setVcr r w).active = t.active := rfl

@[simp] theorem setVcr_nest (t : Tile) (r : Nat) (w : GWord) : (t.setVcr r w).nest = t.nest := rfl

@[simp] theorem setVcr_nsteps (t : Tile) (r : Nat) (w : GWord) : (t.setVcr r w).nsteps = t.nsteps := rfl

@[simp] theorem setVcr_nwaits (t : Tile) (r : Nat) (w : GWord) : (t.setVcr r w).nwaits = t.nwaits := rfl

@[simp] theorem setVcr_dcmds (t : Tile) (r : Nat) (w : GWord) : (t.setVcr r w).dcmds = t.dcmds := rfl

@[simp] theorem setVcr_dRanges (t : Tile) (r : Nat) (w : GWord) : (t.setVcr r w).dRanges = t.dRanges := rfl

@[simp] theorem setVcr_wins (t : Tile) (r : Nat) (w : GWord) : (t.setVcr r w).wins = t.wins := rfl

@[simp] theorem setVcr_remote (t : Tile) (r : Nat) (w : GWord) : (t.setVcr r w).remote = t.remote := rfl

@[simp] theorem setVcr_sending (t : Tile) (r : Nat) (w : GWord) : (t.setVcr r w).sending = t.sending := rfl

@[simp] theorem setVcr_nextTag (t : Tile) (r : Nat) (w : GWord) : (t.setVcr r w).nextTag = t.nextTag := rfl

@[simp] theorem setVcr_spanWait (t : Tile) (r : Nat) (w : GWord) : (t.setVcr r w).spanWait = t.spanWait := rfl

@[simp] theorem setVcr_ending (t : Tile) (r : Nat) (w : GWord) : (t.setVcr r w).ending = t.ending := rfl

@[simp] theorem setVcr_pre (t : Tile) (r : Nat) (w : GWord) : (t.setVcr r w).pre = t.pre := rfl

@[simp] theorem setVcr_cut (t : Tile) (r : Nat) (w : GWord) : (t.setVcr r w).cut = t.cut := rfl

@[simp] theorem setVcr_resuming (t : Tile) (r : Nat) (w : GWord) : (t.setVcr r w).resuming = t.resuming := rfl

@[simp] theorem setVcr_fwStop (t : Tile) (r : Nat) (w : GWord) : (t.setVcr r w).fwStop = t.fwStop := rfl

@[simp] theorem setVcr_brimStop (t : Tile) (r : Nat) (w : GWord) : (t.setVcr r w).brimStop = t.brimStop := rfl

@[simp] theorem setVcr_since (t : Tile) (r : Nat) (w : GWord) : (t.setVcr r w).since = t.since := rfl

@[simp] theorem setVcr_haltAt (t : Tile) (r : Nat) (w : GWord) : (t.setVcr r w).haltAt = t.haltAt := rfl

@[simp] theorem setVcr_haltFtb (t : Tile) (r : Nat) (w : GWord) : (t.setVcr r w).haltFtb = t.haltFtb := rfl

@[simp] theorem setVcr_traced (t : Tile) (r : Nat) (w : GWord) : (t.setVcr r w).traced = t.traced := rfl

@[simp] theorem setVcr_tested (t : Tile) (r : Nat) (w : GWord) : (t.setVcr r w).tested = t.tested := rfl

@[simp] theorem setDcr_run (t : Tile) (r : Nat) (w : GWord) : (t.setDcr r w).run = t.run := rfl

@[simp] theorem setDcr_level (t : Tile) (r : Nat) (w : GWord) : (t.setDcr r w).level = t.level := rfl

@[simp] theorem setDcr_eS (t : Tile) (r : Nat) (w : GWord) : (t.setDcr r w).eS = t.eS := rfl

@[simp] theorem setDcr_eV (t : Tile) (r : Nat) (w : GWord) : (t.setDcr r w).eV = t.eV := rfl

@[simp] theorem setDcr_eM (t : Tile) (r : Nat) (w : GWord) : (t.setDcr r w).eM = t.eM := rfl

@[simp] theorem setDcr_eD (t : Tile) (r : Nat) (w : GWord) : (t.setDcr r w).eD = t.eD := rfl

@[simp] theorem setDcr_x (t : Tile) (r : Nat) (w : GWord) : (t.setDcr r w).x = t.x := rfl

@[simp] theorem setDcr_v (t : Tile) (r : Nat) (w : GWord) : (t.setDcr r w).v = t.v := rfl

@[simp] theorem setDcr_sreg (t : Tile) (r : Nat) (w : GWord) : (t.setDcr r w).sreg = t.sreg := rfl

@[simp] theorem setDcr_m (t : Tile) (r : Nat) (w : GWord) : (t.setDcr r w).m = t.m := rfl

@[simp] theorem setDcr_c (t : Tile) (r : Nat) (w : GWord) : (t.setDcr r w).c = t.c := rfl

@[simp] theorem setDcr_a (t : Tile) (r : Nat) (w : GWord) : (t.setDcr r w).a = t.a := rfl

@[simp] theorem setDcr_vcr (t : Tile) (r : Nat) (w : GWord) : (t.setDcr r w).vcr = t.vcr := rfl

@[simp] theorem setDcr_preds (t : Tile) (r : Nat) (w : GWord) : (t.setDcr r w).preds = t.preds := rfl

@[simp] theorem setDcr_oqV (t : Tile) (r : Nat) (w : GWord) : (t.setDcr r w).oqV = t.oqV := rfl

@[simp] theorem setDcr_oqM (t : Tile) (r : Nat) (w : GWord) : (t.setDcr r w).oqM = t.oqM := rfl

@[simp] theorem setDcr_oqD (t : Tile) (r : Nat) (w : GWord) : (t.setDcr r w).oqD = t.oqD := rfl

@[simp] theorem setDcr_boV (t : Tile) (r : Nat) (w : GWord) : (t.setDcr r w).boV = t.boV := rfl

@[simp] theorem setDcr_boM (t : Tile) (r : Nat) (w : GWord) : (t.setDcr r w).boM = t.boM := rfl

@[simp] theorem setDcr_boD (t : Tile) (r : Nat) (w : GWord) : (t.setDcr r w).boD = t.boD := rfl

@[simp] theorem setDcr_rq (t : Tile) (r : Nat) (w : GWord) : (t.setDcr r w).rq = t.rq := rfl

@[simp] theorem setDcr_eq (t : Tile) (r : Nat) (w : GWord) : (t.setDcr r w).eq = t.eq := rfl

@[simp] theorem setDcr_held (t : Tile) (r : Nat) (w : GWord) : (t.setDcr r w).held = t.held := rfl

@[simp] theorem setDcr_cstore (t : Tile) (r : Nat) (w : GWord) : (t.setDcr r w).cstore = t.cstore := rfl

@[simp] theorem setDcr_spad (t : Tile) (r : Nat) (w : GWord) : (t.setDcr r w).spad = t.spad := rfl

@[simp] theorem setDcr_acc (t : Tile) (r : Nat) (w : GWord) : (t.setDcr r w).acc = t.acc := rfl

@[simp] theorem setDcr_nrsV (t : Tile) (r : Nat) (w : GWord) : (t.setDcr r w).nrsV = t.nrsV := rfl

@[simp] theorem setDcr_nrsM (t : Tile) (r : Nat) (w : GWord) : (t.setDcr r w).nrsM = t.nrsM := rfl

@[simp] theorem setDcr_nrsD (t : Tile) (r : Nat) (w : GWord) : (t.setDcr r w).nrsD = t.nrsD := rfl

@[simp] theorem setDcr_win (t : Tile) (r : Nat) (w : GWord) : (t.setDcr r w).win = t.win := rfl

@[simp] theorem setDcr_apol (t : Tile) (r : Nat) (w : GWord) : (t.setDcr r w).apol = t.apol := rfl

@[simp] theorem setDcr_wver (t : Tile) (r : Nat) (w : GWord) : (t.setDcr r w).wver = t.wver := rfl

@[simp] theorem setDcr_widsplit (t : Tile) (r : Nat) (w : GWord) : (t.setDcr r w).widsplit = t.widsplit := rfl

@[simp] theorem setDcr_ufv (t : Tile) (r : Nat) (w : GWord) : (t.setDcr r w).ufv = t.ufv := rfl

@[simp] theorem setDcr_kvctl (t : Tile) (r : Nat) (w : GWord) : (t.setDcr r w).kvctl = t.kvctl := rfl

@[simp] theorem setDcr_bfmt (t : Tile) (r : Nat) (w : GWord) : (t.setDcr r w).bfmt = t.bfmt := rfl

@[simp] theorem setDcr_ufepc (t : Tile) (r : Nat) (w : GWord) : (t.setDcr r w).ufepc = t.ufepc := rfl

@[simp] theorem setDcr_ufcause (t : Tile) (r : Nat) (w : GWord) : (t.setDcr r w).ufcause = t.ufcause := rfl

@[simp] theorem setDcr_ufaddr (t : Tile) (r : Nat) (w : GWord) : (t.setDcr r w).ufaddr = t.ufaddr := rfl

@[simp] theorem setDcr_ufexp (t : Tile) (r : Nat) (w : GWord) : (t.setDcr r w).ufexp = t.ufexp := rfl

@[simp] theorem setDcr_tstat (t : Tile) (r : Nat) (w : GWord) : (t.setDcr r w).tstat = t.tstat := rfl

@[simp] theorem setDcr_tcause (t : Tile) (r : Nat) (w : GWord) : (t.setDcr r w).tcause = t.tcause := rfl

@[simp] theorem setDcr_taddr (t : Tile) (r : Nat) (w : GWord) : (t.setDcr r w).taddr = t.taddr := rfl

@[simp] theorem setDcr_tepc (t : Tile) (r : Nat) (w : GWord) : (t.setDcr r w).tepc = t.tepc := rfl

@[simp] theorem setDcr_tvec (t : Tile) (r : Nat) (w : GWord) : (t.setDcr r w).tvec = t.tvec := rfl

@[simp] theorem setDcr_tsb (t : Tile) (r : Nat) (w : GWord) : (t.setDcr r w).tsb = t.tsb := rfl

@[simp] theorem setDcr_ctxb (t : Tile) (r : Nat) (w : GWord) : (t.setDcr r w).ctxb = t.ctxb := rfl

@[simp] theorem setDcr_pwin (t : Tile) (r : Nat) (w : GWord) : (t.setDcr r w).pwin = t.pwin := rfl

@[simp] theorem setDcr_preq (t : Tile) (r : Nat) (w : GWord) : (t.setDcr r w).preq = t.preq := rfl

@[simp] theorem setDcr_tcause2 (t : Tile) (r : Nat) (w : GWord) : (t.setDcr r w).tcause2 = t.tcause2 := rfl

@[simp] theorem setDcr_taddr2 (t : Tile) (r : Nat) (w : GWord) : (t.setDcr r w).taddr2 = t.taddr2 := rfl

@[simp] theorem setDcr_gcc (t : Tile) (r : Nat) (w : GWord) : (t.setDcr r w).gcc = t.gcc := rfl

@[simp] theorem setDcr_guc (t : Tile) (r : Nat) (w : GWord) : (t.setDcr r w).guc = t.guc := rfl

@[simp] theorem setDcr_bstat (t : Tile) (r : Nat) (w : GWord) : (t.setDcr r w).bstat = t.bstat := rfl

@[simp] theorem setDcr_undo (t : Tile) (r : Nat) (w : GWord) : (t.setDcr r w).undo = t.undo := rfl

@[simp] theorem setDcr_trap (t : Tile) (r : Nat) (w : GWord) : (t.setDcr r w).trap = t.trap := rfl

@[simp] theorem setDcr_late (t : Tile) (r : Nat) (w : GWord) : (t.setDcr r w).late = t.late := rfl

@[simp] theorem setDcr_accFault (t : Tile) (r : Nat) (w : GWord) : (t.setDcr r w).accFault = t.accFault := rfl

@[simp] theorem setDcr_cache (t : Tile) (r : Nat) (w : GWord) : (t.setDcr r w).cache = t.cache := rfl

@[simp] theorem setDcr_tlb (t : Tile) (r : Nat) (w : GWord) : (t.setDcr r w).tlb = t.tlb := rfl

@[simp] theorem setDcr_icache (t : Tile) (r : Nat) (w : GWord) : (t.setDcr r w).icache = t.icache := rfl

@[simp] theorem setDcr_stamp (t : Tile) (r : Nat) (w : GWord) : (t.setDcr r w).stamp = t.stamp := rfl

@[simp] theorem setDcr_side (t : Tile) (r : Nat) (w : GWord) : (t.setDcr r w).side = t.side := rfl

@[simp] theorem setDcr_task (t : Tile) (r : Nat) (w : GWord) : (t.setDcr r w).task = t.task := rfl

@[simp] theorem setDcr_adopted (t : Tile) (r : Nat) (w : GWord) : (t.setDcr r w).adopted = t.adopted := rfl

@[simp] theorem setDcr_adoptWait (t : Tile) (r : Nat) (w : GWord) : (t.setDcr r w).adoptWait = t.adoptWait := rfl

@[simp] theorem setDcr_tlbinvs (t : Tile) (r : Nat) (w : GWord) : (t.setDcr r w).tlbinvs = t.tlbinvs := rfl

@[simp] theorem setDcr_attg (t : Tile) (r : Nat) (w : GWord) : (t.setDcr r w).attg = t.attg := rfl

@[simp] theorem setDcr_shadow (t : Tile) (r : Nat) (w : GWord) : (t.setDcr r w).shadow = t.shadow := rfl

@[simp] theorem setDcr_active (t : Tile) (r : Nat) (w : GWord) : (t.setDcr r w).active = t.active := rfl

@[simp] theorem setDcr_nest (t : Tile) (r : Nat) (w : GWord) : (t.setDcr r w).nest = t.nest := rfl

@[simp] theorem setDcr_nsteps (t : Tile) (r : Nat) (w : GWord) : (t.setDcr r w).nsteps = t.nsteps := rfl

@[simp] theorem setDcr_nwaits (t : Tile) (r : Nat) (w : GWord) : (t.setDcr r w).nwaits = t.nwaits := rfl

@[simp] theorem setDcr_dcmds (t : Tile) (r : Nat) (w : GWord) : (t.setDcr r w).dcmds = t.dcmds := rfl

@[simp] theorem setDcr_dRanges (t : Tile) (r : Nat) (w : GWord) : (t.setDcr r w).dRanges = t.dRanges := rfl

@[simp] theorem setDcr_wins (t : Tile) (r : Nat) (w : GWord) : (t.setDcr r w).wins = t.wins := rfl

@[simp] theorem setDcr_remote (t : Tile) (r : Nat) (w : GWord) : (t.setDcr r w).remote = t.remote := rfl

@[simp] theorem setDcr_sending (t : Tile) (r : Nat) (w : GWord) : (t.setDcr r w).sending = t.sending := rfl

@[simp] theorem setDcr_nextTag (t : Tile) (r : Nat) (w : GWord) : (t.setDcr r w).nextTag = t.nextTag := rfl

@[simp] theorem setDcr_spanWait (t : Tile) (r : Nat) (w : GWord) : (t.setDcr r w).spanWait = t.spanWait := rfl

@[simp] theorem setDcr_ending (t : Tile) (r : Nat) (w : GWord) : (t.setDcr r w).ending = t.ending := rfl

@[simp] theorem setDcr_pre (t : Tile) (r : Nat) (w : GWord) : (t.setDcr r w).pre = t.pre := rfl

@[simp] theorem setDcr_cut (t : Tile) (r : Nat) (w : GWord) : (t.setDcr r w).cut = t.cut := rfl

@[simp] theorem setDcr_resuming (t : Tile) (r : Nat) (w : GWord) : (t.setDcr r w).resuming = t.resuming := rfl

@[simp] theorem setDcr_fwStop (t : Tile) (r : Nat) (w : GWord) : (t.setDcr r w).fwStop = t.fwStop := rfl

@[simp] theorem setDcr_brimStop (t : Tile) (r : Nat) (w : GWord) : (t.setDcr r w).brimStop = t.brimStop := rfl

@[simp] theorem setDcr_since (t : Tile) (r : Nat) (w : GWord) : (t.setDcr r w).since = t.since := rfl

@[simp] theorem setDcr_haltAt (t : Tile) (r : Nat) (w : GWord) : (t.setDcr r w).haltAt = t.haltAt := rfl

@[simp] theorem setDcr_haltFtb (t : Tile) (r : Nat) (w : GWord) : (t.setDcr r w).haltFtb = t.haltFtb := rfl

@[simp] theorem setDcr_traced (t : Tile) (r : Nat) (w : GWord) : (t.setDcr r w).traced = t.traced := rfl

@[simp] theorem setDcr_tested (t : Tile) (r : Nat) (w : GWord) : (t.setDcr r w).tested = t.tested := rfl

@[simp] theorem setPred_run (t : Tile) (k n : Nat) (v : Bool) : (t.setPred k n v).run = t.run := rfl

@[simp] theorem setPred_level (t : Tile) (k n : Nat) (v : Bool) : (t.setPred k n v).level = t.level := rfl

@[simp] theorem setPred_eS (t : Tile) (k n : Nat) (v : Bool) : (t.setPred k n v).eS = t.eS := rfl

@[simp] theorem setPred_eV (t : Tile) (k n : Nat) (v : Bool) : (t.setPred k n v).eV = t.eV := rfl

@[simp] theorem setPred_eM (t : Tile) (k n : Nat) (v : Bool) : (t.setPred k n v).eM = t.eM := rfl

@[simp] theorem setPred_eD (t : Tile) (k n : Nat) (v : Bool) : (t.setPred k n v).eD = t.eD := rfl

@[simp] theorem setPred_x (t : Tile) (k n : Nat) (v : Bool) : (t.setPred k n v).x = t.x := rfl

@[simp] theorem setPred_v (t : Tile) (k n : Nat) (v : Bool) : (t.setPred k n v).v = t.v := rfl

@[simp] theorem setPred_sreg (t : Tile) (k n : Nat) (v : Bool) : (t.setPred k n v).sreg = t.sreg := rfl

@[simp] theorem setPred_m (t : Tile) (k n : Nat) (v : Bool) : (t.setPred k n v).m = t.m := rfl

@[simp] theorem setPred_c (t : Tile) (k n : Nat) (v : Bool) : (t.setPred k n v).c = t.c := rfl

@[simp] theorem setPred_a (t : Tile) (k n : Nat) (v : Bool) : (t.setPred k n v).a = t.a := rfl

@[simp] theorem setPred_vcr (t : Tile) (k n : Nat) (v : Bool) : (t.setPred k n v).vcr = t.vcr := rfl

@[simp] theorem setPred_dcr (t : Tile) (k n : Nat) (v : Bool) : (t.setPred k n v).dcr = t.dcr := rfl

@[simp] theorem setPred_oqV (t : Tile) (k n : Nat) (v : Bool) : (t.setPred k n v).oqV = t.oqV := rfl

@[simp] theorem setPred_oqM (t : Tile) (k n : Nat) (v : Bool) : (t.setPred k n v).oqM = t.oqM := rfl

@[simp] theorem setPred_oqD (t : Tile) (k n : Nat) (v : Bool) : (t.setPred k n v).oqD = t.oqD := rfl

@[simp] theorem setPred_boV (t : Tile) (k n : Nat) (v : Bool) : (t.setPred k n v).boV = t.boV := rfl

@[simp] theorem setPred_boM (t : Tile) (k n : Nat) (v : Bool) : (t.setPred k n v).boM = t.boM := rfl

@[simp] theorem setPred_boD (t : Tile) (k n : Nat) (v : Bool) : (t.setPred k n v).boD = t.boD := rfl

@[simp] theorem setPred_rq (t : Tile) (k n : Nat) (v : Bool) : (t.setPred k n v).rq = t.rq := rfl

@[simp] theorem setPred_eq (t : Tile) (k n : Nat) (v : Bool) : (t.setPred k n v).eq = t.eq := rfl

@[simp] theorem setPred_held (t : Tile) (k n : Nat) (v : Bool) : (t.setPred k n v).held = t.held := rfl

@[simp] theorem setPred_cstore (t : Tile) (k n : Nat) (v : Bool) : (t.setPred k n v).cstore = t.cstore := rfl

@[simp] theorem setPred_spad (t : Tile) (k n : Nat) (v : Bool) : (t.setPred k n v).spad = t.spad := rfl

@[simp] theorem setPred_acc (t : Tile) (k n : Nat) (v : Bool) : (t.setPred k n v).acc = t.acc := rfl

@[simp] theorem setPred_nrsV (t : Tile) (k n : Nat) (v : Bool) : (t.setPred k n v).nrsV = t.nrsV := rfl

@[simp] theorem setPred_nrsM (t : Tile) (k n : Nat) (v : Bool) : (t.setPred k n v).nrsM = t.nrsM := rfl

@[simp] theorem setPred_nrsD (t : Tile) (k n : Nat) (v : Bool) : (t.setPred k n v).nrsD = t.nrsD := rfl

@[simp] theorem setPred_win (t : Tile) (k n : Nat) (v : Bool) : (t.setPred k n v).win = t.win := rfl

@[simp] theorem setPred_apol (t : Tile) (k n : Nat) (v : Bool) : (t.setPred k n v).apol = t.apol := rfl

@[simp] theorem setPred_wver (t : Tile) (k n : Nat) (v : Bool) : (t.setPred k n v).wver = t.wver := rfl

@[simp] theorem setPred_widsplit (t : Tile) (k n : Nat) (v : Bool) : (t.setPred k n v).widsplit = t.widsplit := rfl

@[simp] theorem setPred_ufv (t : Tile) (k n : Nat) (v : Bool) : (t.setPred k n v).ufv = t.ufv := rfl

@[simp] theorem setPred_kvctl (t : Tile) (k n : Nat) (v : Bool) : (t.setPred k n v).kvctl = t.kvctl := rfl

@[simp] theorem setPred_bfmt (t : Tile) (k n : Nat) (v : Bool) : (t.setPred k n v).bfmt = t.bfmt := rfl

@[simp] theorem setPred_ufepc (t : Tile) (k n : Nat) (v : Bool) : (t.setPred k n v).ufepc = t.ufepc := rfl

@[simp] theorem setPred_ufcause (t : Tile) (k n : Nat) (v : Bool) : (t.setPred k n v).ufcause = t.ufcause := rfl

@[simp] theorem setPred_ufaddr (t : Tile) (k n : Nat) (v : Bool) : (t.setPred k n v).ufaddr = t.ufaddr := rfl

@[simp] theorem setPred_ufexp (t : Tile) (k n : Nat) (v : Bool) : (t.setPred k n v).ufexp = t.ufexp := rfl

@[simp] theorem setPred_tstat (t : Tile) (k n : Nat) (v : Bool) : (t.setPred k n v).tstat = t.tstat := rfl

@[simp] theorem setPred_tcause (t : Tile) (k n : Nat) (v : Bool) : (t.setPred k n v).tcause = t.tcause := rfl

@[simp] theorem setPred_taddr (t : Tile) (k n : Nat) (v : Bool) : (t.setPred k n v).taddr = t.taddr := rfl

@[simp] theorem setPred_tepc (t : Tile) (k n : Nat) (v : Bool) : (t.setPred k n v).tepc = t.tepc := rfl

@[simp] theorem setPred_tvec (t : Tile) (k n : Nat) (v : Bool) : (t.setPred k n v).tvec = t.tvec := rfl

@[simp] theorem setPred_tsb (t : Tile) (k n : Nat) (v : Bool) : (t.setPred k n v).tsb = t.tsb := rfl

@[simp] theorem setPred_ctxb (t : Tile) (k n : Nat) (v : Bool) : (t.setPred k n v).ctxb = t.ctxb := rfl

@[simp] theorem setPred_pwin (t : Tile) (k n : Nat) (v : Bool) : (t.setPred k n v).pwin = t.pwin := rfl

@[simp] theorem setPred_preq (t : Tile) (k n : Nat) (v : Bool) : (t.setPred k n v).preq = t.preq := rfl

@[simp] theorem setPred_tcause2 (t : Tile) (k n : Nat) (v : Bool) : (t.setPred k n v).tcause2 = t.tcause2 := rfl

@[simp] theorem setPred_taddr2 (t : Tile) (k n : Nat) (v : Bool) : (t.setPred k n v).taddr2 = t.taddr2 := rfl

@[simp] theorem setPred_gcc (t : Tile) (k n : Nat) (v : Bool) : (t.setPred k n v).gcc = t.gcc := rfl

@[simp] theorem setPred_guc (t : Tile) (k n : Nat) (v : Bool) : (t.setPred k n v).guc = t.guc := rfl

@[simp] theorem setPred_bstat (t : Tile) (k n : Nat) (v : Bool) : (t.setPred k n v).bstat = t.bstat := rfl

@[simp] theorem setPred_undo (t : Tile) (k n : Nat) (v : Bool) : (t.setPred k n v).undo = t.undo := rfl

@[simp] theorem setPred_trap (t : Tile) (k n : Nat) (v : Bool) : (t.setPred k n v).trap = t.trap := rfl

@[simp] theorem setPred_late (t : Tile) (k n : Nat) (v : Bool) : (t.setPred k n v).late = t.late := rfl

@[simp] theorem setPred_accFault (t : Tile) (k n : Nat) (v : Bool) : (t.setPred k n v).accFault = t.accFault := rfl

@[simp] theorem setPred_cache (t : Tile) (k n : Nat) (v : Bool) : (t.setPred k n v).cache = t.cache := rfl

@[simp] theorem setPred_tlb (t : Tile) (k n : Nat) (v : Bool) : (t.setPred k n v).tlb = t.tlb := rfl

@[simp] theorem setPred_icache (t : Tile) (k n : Nat) (v : Bool) : (t.setPred k n v).icache = t.icache := rfl

@[simp] theorem setPred_stamp (t : Tile) (k n : Nat) (v : Bool) : (t.setPred k n v).stamp = t.stamp := rfl

@[simp] theorem setPred_side (t : Tile) (k n : Nat) (v : Bool) : (t.setPred k n v).side = t.side := rfl

@[simp] theorem setPred_task (t : Tile) (k n : Nat) (v : Bool) : (t.setPred k n v).task = t.task := rfl

@[simp] theorem setPred_adopted (t : Tile) (k n : Nat) (v : Bool) : (t.setPred k n v).adopted = t.adopted := rfl

@[simp] theorem setPred_adoptWait (t : Tile) (k n : Nat) (v : Bool) : (t.setPred k n v).adoptWait = t.adoptWait := rfl

@[simp] theorem setPred_tlbinvs (t : Tile) (k n : Nat) (v : Bool) : (t.setPred k n v).tlbinvs = t.tlbinvs := rfl

@[simp] theorem setPred_attg (t : Tile) (k n : Nat) (v : Bool) : (t.setPred k n v).attg = t.attg := rfl

@[simp] theorem setPred_shadow (t : Tile) (k n : Nat) (v : Bool) : (t.setPred k n v).shadow = t.shadow := rfl

@[simp] theorem setPred_active (t : Tile) (k n : Nat) (v : Bool) : (t.setPred k n v).active = t.active := rfl

@[simp] theorem setPred_nest (t : Tile) (k n : Nat) (v : Bool) : (t.setPred k n v).nest = t.nest := rfl

@[simp] theorem setPred_nsteps (t : Tile) (k n : Nat) (v : Bool) : (t.setPred k n v).nsteps = t.nsteps := rfl

@[simp] theorem setPred_nwaits (t : Tile) (k n : Nat) (v : Bool) : (t.setPred k n v).nwaits = t.nwaits := rfl

@[simp] theorem setPred_dcmds (t : Tile) (k n : Nat) (v : Bool) : (t.setPred k n v).dcmds = t.dcmds := rfl

@[simp] theorem setPred_dRanges (t : Tile) (k n : Nat) (v : Bool) : (t.setPred k n v).dRanges = t.dRanges := rfl

@[simp] theorem setPred_wins (t : Tile) (k n : Nat) (v : Bool) : (t.setPred k n v).wins = t.wins := rfl

@[simp] theorem setPred_remote (t : Tile) (k n : Nat) (v : Bool) : (t.setPred k n v).remote = t.remote := rfl

@[simp] theorem setPred_sending (t : Tile) (k n : Nat) (v : Bool) : (t.setPred k n v).sending = t.sending := rfl

@[simp] theorem setPred_nextTag (t : Tile) (k n : Nat) (v : Bool) : (t.setPred k n v).nextTag = t.nextTag := rfl

@[simp] theorem setPred_spanWait (t : Tile) (k n : Nat) (v : Bool) : (t.setPred k n v).spanWait = t.spanWait := rfl

@[simp] theorem setPred_ending (t : Tile) (k n : Nat) (v : Bool) : (t.setPred k n v).ending = t.ending := rfl

@[simp] theorem setPred_pre (t : Tile) (k n : Nat) (v : Bool) : (t.setPred k n v).pre = t.pre := rfl

@[simp] theorem setPred_cut (t : Tile) (k n : Nat) (v : Bool) : (t.setPred k n v).cut = t.cut := rfl

@[simp] theorem setPred_resuming (t : Tile) (k n : Nat) (v : Bool) : (t.setPred k n v).resuming = t.resuming := rfl

@[simp] theorem setPred_fwStop (t : Tile) (k n : Nat) (v : Bool) : (t.setPred k n v).fwStop = t.fwStop := rfl

@[simp] theorem setPred_brimStop (t : Tile) (k n : Nat) (v : Bool) : (t.setPred k n v).brimStop = t.brimStop := rfl

@[simp] theorem setPred_since (t : Tile) (k n : Nat) (v : Bool) : (t.setPred k n v).since = t.since := rfl

@[simp] theorem setPred_haltAt (t : Tile) (k n : Nat) (v : Bool) : (t.setPred k n v).haltAt = t.haltAt := rfl

@[simp] theorem setPred_haltFtb (t : Tile) (k n : Nat) (v : Bool) : (t.setPred k n v).haltFtb = t.haltFtb := rfl

@[simp] theorem setPred_traced (t : Tile) (k n : Nat) (v : Bool) : (t.setPred k n v).traced = t.traced := rfl

@[simp] theorem setPred_tested (t : Tile) (k n : Nat) (v : Bool) : (t.setPred k n v).tested = t.tested := rfl

@[simp] theorem setEng_run (t : Tile) (e : Eng) (y : Engine) : (t.setEng e y).run = t.run := by cases e <;> rfl

@[simp] theorem setEng_level (t : Tile) (e : Eng) (y : Engine) : (t.setEng e y).level = t.level := by cases e <;> rfl

@[simp] theorem setEng_x (t : Tile) (e : Eng) (y : Engine) : (t.setEng e y).x = t.x := by cases e <;> rfl

@[simp] theorem setEng_v (t : Tile) (e : Eng) (y : Engine) : (t.setEng e y).v = t.v := by cases e <;> rfl

@[simp] theorem setEng_sreg (t : Tile) (e : Eng) (y : Engine) : (t.setEng e y).sreg = t.sreg := by cases e <;> rfl

@[simp] theorem setEng_m (t : Tile) (e : Eng) (y : Engine) : (t.setEng e y).m = t.m := by cases e <;> rfl

@[simp] theorem setEng_c (t : Tile) (e : Eng) (y : Engine) : (t.setEng e y).c = t.c := by cases e <;> rfl

@[simp] theorem setEng_a (t : Tile) (e : Eng) (y : Engine) : (t.setEng e y).a = t.a := by cases e <;> rfl

@[simp] theorem setEng_vcr (t : Tile) (e : Eng) (y : Engine) : (t.setEng e y).vcr = t.vcr := by cases e <;> rfl

@[simp] theorem setEng_dcr (t : Tile) (e : Eng) (y : Engine) : (t.setEng e y).dcr = t.dcr := by cases e <;> rfl

@[simp] theorem setEng_preds (t : Tile) (e : Eng) (y : Engine) : (t.setEng e y).preds = t.preds := by cases e <;> rfl

@[simp] theorem setEng_oqV (t : Tile) (e : Eng) (y : Engine) : (t.setEng e y).oqV = t.oqV := by cases e <;> rfl

@[simp] theorem setEng_oqM (t : Tile) (e : Eng) (y : Engine) : (t.setEng e y).oqM = t.oqM := by cases e <;> rfl

@[simp] theorem setEng_oqD (t : Tile) (e : Eng) (y : Engine) : (t.setEng e y).oqD = t.oqD := by cases e <;> rfl

@[simp] theorem setEng_boV (t : Tile) (e : Eng) (y : Engine) : (t.setEng e y).boV = t.boV := by cases e <;> rfl

@[simp] theorem setEng_boM (t : Tile) (e : Eng) (y : Engine) : (t.setEng e y).boM = t.boM := by cases e <;> rfl

@[simp] theorem setEng_boD (t : Tile) (e : Eng) (y : Engine) : (t.setEng e y).boD = t.boD := by cases e <;> rfl

@[simp] theorem setEng_rq (t : Tile) (e : Eng) (y : Engine) : (t.setEng e y).rq = t.rq := by cases e <;> rfl

@[simp] theorem setEng_eq (t : Tile) (e : Eng) (y : Engine) : (t.setEng e y).eq = t.eq := by cases e <;> rfl

@[simp] theorem setEng_held (t : Tile) (e : Eng) (y : Engine) : (t.setEng e y).held = t.held := by cases e <;> rfl

@[simp] theorem setEng_cstore (t : Tile) (e : Eng) (y : Engine) : (t.setEng e y).cstore = t.cstore := by cases e <;> rfl

@[simp] theorem setEng_spad (t : Tile) (e : Eng) (y : Engine) : (t.setEng e y).spad = t.spad := by cases e <;> rfl

@[simp] theorem setEng_acc (t : Tile) (e : Eng) (y : Engine) : (t.setEng e y).acc = t.acc := by cases e <;> rfl

@[simp] theorem setEng_nrsV (t : Tile) (e : Eng) (y : Engine) : (t.setEng e y).nrsV = t.nrsV := by cases e <;> rfl

@[simp] theorem setEng_nrsM (t : Tile) (e : Eng) (y : Engine) : (t.setEng e y).nrsM = t.nrsM := by cases e <;> rfl

@[simp] theorem setEng_nrsD (t : Tile) (e : Eng) (y : Engine) : (t.setEng e y).nrsD = t.nrsD := by cases e <;> rfl

@[simp] theorem setEng_win (t : Tile) (e : Eng) (y : Engine) : (t.setEng e y).win = t.win := by cases e <;> rfl

@[simp] theorem setEng_apol (t : Tile) (e : Eng) (y : Engine) : (t.setEng e y).apol = t.apol := by cases e <;> rfl

@[simp] theorem setEng_wver (t : Tile) (e : Eng) (y : Engine) : (t.setEng e y).wver = t.wver := by cases e <;> rfl

@[simp] theorem setEng_widsplit (t : Tile) (e : Eng) (y : Engine) : (t.setEng e y).widsplit = t.widsplit := by cases e <;> rfl

@[simp] theorem setEng_ufv (t : Tile) (e : Eng) (y : Engine) : (t.setEng e y).ufv = t.ufv := by cases e <;> rfl

@[simp] theorem setEng_kvctl (t : Tile) (e : Eng) (y : Engine) : (t.setEng e y).kvctl = t.kvctl := by cases e <;> rfl

@[simp] theorem setEng_bfmt (t : Tile) (e : Eng) (y : Engine) : (t.setEng e y).bfmt = t.bfmt := by cases e <;> rfl

@[simp] theorem setEng_ufepc (t : Tile) (e : Eng) (y : Engine) : (t.setEng e y).ufepc = t.ufepc := by cases e <;> rfl

@[simp] theorem setEng_ufcause (t : Tile) (e : Eng) (y : Engine) : (t.setEng e y).ufcause = t.ufcause := by cases e <;> rfl

@[simp] theorem setEng_ufaddr (t : Tile) (e : Eng) (y : Engine) : (t.setEng e y).ufaddr = t.ufaddr := by cases e <;> rfl

@[simp] theorem setEng_ufexp (t : Tile) (e : Eng) (y : Engine) : (t.setEng e y).ufexp = t.ufexp := by cases e <;> rfl

@[simp] theorem setEng_tstat (t : Tile) (e : Eng) (y : Engine) : (t.setEng e y).tstat = t.tstat := by cases e <;> rfl

@[simp] theorem setEng_tcause (t : Tile) (e : Eng) (y : Engine) : (t.setEng e y).tcause = t.tcause := by cases e <;> rfl

@[simp] theorem setEng_taddr (t : Tile) (e : Eng) (y : Engine) : (t.setEng e y).taddr = t.taddr := by cases e <;> rfl

@[simp] theorem setEng_tepc (t : Tile) (e : Eng) (y : Engine) : (t.setEng e y).tepc = t.tepc := by cases e <;> rfl

@[simp] theorem setEng_tvec (t : Tile) (e : Eng) (y : Engine) : (t.setEng e y).tvec = t.tvec := by cases e <;> rfl

@[simp] theorem setEng_tsb (t : Tile) (e : Eng) (y : Engine) : (t.setEng e y).tsb = t.tsb := by cases e <;> rfl

@[simp] theorem setEng_ctxb (t : Tile) (e : Eng) (y : Engine) : (t.setEng e y).ctxb = t.ctxb := by cases e <;> rfl

@[simp] theorem setEng_pwin (t : Tile) (e : Eng) (y : Engine) : (t.setEng e y).pwin = t.pwin := by cases e <;> rfl

@[simp] theorem setEng_preq (t : Tile) (e : Eng) (y : Engine) : (t.setEng e y).preq = t.preq := by cases e <;> rfl

@[simp] theorem setEng_tcause2 (t : Tile) (e : Eng) (y : Engine) : (t.setEng e y).tcause2 = t.tcause2 := by cases e <;> rfl

@[simp] theorem setEng_taddr2 (t : Tile) (e : Eng) (y : Engine) : (t.setEng e y).taddr2 = t.taddr2 := by cases e <;> rfl

@[simp] theorem setEng_gcc (t : Tile) (e : Eng) (y : Engine) : (t.setEng e y).gcc = t.gcc := by cases e <;> rfl

@[simp] theorem setEng_guc (t : Tile) (e : Eng) (y : Engine) : (t.setEng e y).guc = t.guc := by cases e <;> rfl

@[simp] theorem setEng_bstat (t : Tile) (e : Eng) (y : Engine) : (t.setEng e y).bstat = t.bstat := by cases e <;> rfl

@[simp] theorem setEng_undo (t : Tile) (e : Eng) (y : Engine) : (t.setEng e y).undo = t.undo := by cases e <;> rfl

@[simp] theorem setEng_trap (t : Tile) (e : Eng) (y : Engine) : (t.setEng e y).trap = t.trap := by cases e <;> rfl

@[simp] theorem setEng_late (t : Tile) (e : Eng) (y : Engine) : (t.setEng e y).late = t.late := by cases e <;> rfl

@[simp] theorem setEng_accFault (t : Tile) (e : Eng) (y : Engine) : (t.setEng e y).accFault = t.accFault := by cases e <;> rfl

@[simp] theorem setEng_cache (t : Tile) (e : Eng) (y : Engine) : (t.setEng e y).cache = t.cache := by cases e <;> rfl

@[simp] theorem setEng_tlb (t : Tile) (e : Eng) (y : Engine) : (t.setEng e y).tlb = t.tlb := by cases e <;> rfl

@[simp] theorem setEng_icache (t : Tile) (e : Eng) (y : Engine) : (t.setEng e y).icache = t.icache := by cases e <;> rfl

@[simp] theorem setEng_stamp (t : Tile) (e : Eng) (y : Engine) : (t.setEng e y).stamp = t.stamp := by cases e <;> rfl

@[simp] theorem setEng_side (t : Tile) (e : Eng) (y : Engine) : (t.setEng e y).side = t.side := by cases e <;> rfl

@[simp] theorem setEng_task (t : Tile) (e : Eng) (y : Engine) : (t.setEng e y).task = t.task := by cases e <;> rfl

@[simp] theorem setEng_adopted (t : Tile) (e : Eng) (y : Engine) : (t.setEng e y).adopted = t.adopted := by cases e <;> rfl

@[simp] theorem setEng_adoptWait (t : Tile) (e : Eng) (y : Engine) : (t.setEng e y).adoptWait = t.adoptWait := by cases e <;> rfl

@[simp] theorem setEng_tlbinvs (t : Tile) (e : Eng) (y : Engine) : (t.setEng e y).tlbinvs = t.tlbinvs := by cases e <;> rfl

@[simp] theorem setEng_attg (t : Tile) (e : Eng) (y : Engine) : (t.setEng e y).attg = t.attg := by cases e <;> rfl

@[simp] theorem setEng_shadow (t : Tile) (e : Eng) (y : Engine) : (t.setEng e y).shadow = t.shadow := by cases e <;> rfl

@[simp] theorem setEng_active (t : Tile) (e : Eng) (y : Engine) : (t.setEng e y).active = t.active := by cases e <;> rfl

@[simp] theorem setEng_nest (t : Tile) (e : Eng) (y : Engine) : (t.setEng e y).nest = t.nest := by cases e <;> rfl

@[simp] theorem setEng_nsteps (t : Tile) (e : Eng) (y : Engine) : (t.setEng e y).nsteps = t.nsteps := by cases e <;> rfl

@[simp] theorem setEng_nwaits (t : Tile) (e : Eng) (y : Engine) : (t.setEng e y).nwaits = t.nwaits := by cases e <;> rfl

@[simp] theorem setEng_dcmds (t : Tile) (e : Eng) (y : Engine) : (t.setEng e y).dcmds = t.dcmds := by cases e <;> rfl

@[simp] theorem setEng_dRanges (t : Tile) (e : Eng) (y : Engine) : (t.setEng e y).dRanges = t.dRanges := by cases e <;> rfl

@[simp] theorem setEng_wins (t : Tile) (e : Eng) (y : Engine) : (t.setEng e y).wins = t.wins := by cases e <;> rfl

@[simp] theorem setEng_remote (t : Tile) (e : Eng) (y : Engine) : (t.setEng e y).remote = t.remote := by cases e <;> rfl

@[simp] theorem setEng_sending (t : Tile) (e : Eng) (y : Engine) : (t.setEng e y).sending = t.sending := by cases e <;> rfl

@[simp] theorem setEng_nextTag (t : Tile) (e : Eng) (y : Engine) : (t.setEng e y).nextTag = t.nextTag := by cases e <;> rfl

@[simp] theorem setEng_spanWait (t : Tile) (e : Eng) (y : Engine) : (t.setEng e y).spanWait = t.spanWait := by cases e <;> rfl

@[simp] theorem setEng_ending (t : Tile) (e : Eng) (y : Engine) : (t.setEng e y).ending = t.ending := by cases e <;> rfl

@[simp] theorem setEng_pre (t : Tile) (e : Eng) (y : Engine) : (t.setEng e y).pre = t.pre := by cases e <;> rfl

@[simp] theorem setEng_cut (t : Tile) (e : Eng) (y : Engine) : (t.setEng e y).cut = t.cut := by cases e <;> rfl

@[simp] theorem setEng_resuming (t : Tile) (e : Eng) (y : Engine) : (t.setEng e y).resuming = t.resuming := by cases e <;> rfl

@[simp] theorem setEng_fwStop (t : Tile) (e : Eng) (y : Engine) : (t.setEng e y).fwStop = t.fwStop := by cases e <;> rfl

@[simp] theorem setEng_brimStop (t : Tile) (e : Eng) (y : Engine) : (t.setEng e y).brimStop = t.brimStop := by cases e <;> rfl

@[simp] theorem setEng_since (t : Tile) (e : Eng) (y : Engine) : (t.setEng e y).since = t.since := by cases e <;> rfl

@[simp] theorem setEng_haltAt (t : Tile) (e : Eng) (y : Engine) : (t.setEng e y).haltAt = t.haltAt := by cases e <;> rfl

@[simp] theorem setEng_haltFtb (t : Tile) (e : Eng) (y : Engine) : (t.setEng e y).haltFtb = t.haltFtb := by cases e <;> rfl

@[simp] theorem setEng_traced (t : Tile) (e : Eng) (y : Engine) : (t.setEng e y).traced = t.traced := by cases e <;> rfl

@[simp] theorem setEng_tested (t : Tile) (e : Eng) (y : Engine) : (t.setEng e y).tested = t.tested := by cases e <;> rfl

end Sys2Proof.Machine
end

