-- ==== Sys2Proof/Laws/Memory.lean ====
section
/-!
SUPPORT. Every operation on a memory keeps its canonical form: bytes cleared, laid over, cut out and written in lists, lines written
back, and doublewords written by physical address.
-/

namespace Sys2Proof.Machine

theorem mapSorted_lower {α : Type} (m : SMap α) (lo : Nat) (h : ∀ p ∈ m, lo < p.1) (hm : mapSorted none m = true) :
    mapSorted (some lo) m = true := by
  cases m with
  | nil => rfl
  | cons p t =>
    simp only [mapSorted, Bool.and_eq_true, decide_eq_true_eq] at *
    exact ⟨h p (by simp), hm⟩

theorem mapSorted_above {α : Type} (m : SMap α) (lo : Nat) (hm : mapSorted (some lo) m = true) : ∀ p ∈ m, lo < p.1 := by
  induction m generalizing lo with
  | nil => simp
  | cons q t ih =>
    simp only [mapSorted, Bool.and_eq_true, decide_eq_true_eq] at hm
    intro p hp
    rcases List.mem_cons.mp hp with rfl | hp
    · exact hm.1
    · exact lt_trans hm.1 (ih q.1 hm.2 p hp)

/-- Keys stay rising when entries are left out and every key left moves by a rising function. -/
theorem mapSorted_filterMap {α : Type} (f : Nat × α → Option (Nat × α)) (hf : ∀ p q a b, f p = some a → f q = some b → p.1 < q.1 → a.1 < b.1)
    (m : SMap α) (hm : mapSorted none m = true) : mapSorted none (m.filterMap f) = true := by
  induction m with
  | nil => rfl
  | cons p t ih =>
    have ht : mapSorted (some p.1) t = true := by cases p; simpa [mapSorted] using hm
    have iht := ih (mapSorted_none t ht)
    cases hp : f p with
    | none => simpa [hp] using iht
    | some a =>
      simp only [List.filterMap_cons, hp]
      refine mapSorted_lower _ a.1 ?_ iht
      intro b hb
      obtain ⟨q, hq, hqb⟩ := List.mem_filterMap.mp hb
      exact hf p q a b hp hqb (mapSorted_above t p.1 ht q hq)

theorem mapSorted_filter {α : Type} (q : Nat × α → Bool) (m : SMap α) (hm : mapSorted none m = true) : mapSorted none (m.filter q) = true := by
  have e : m.filter q = m.filterMap fun p => if q p = true then some p else none := by
    induction m with
    | nil => rfl
    | cons p t ih =>
      have ht : mapSorted none t = true := mapSorted_none (lo := p.1) t (by cases p; simpa [mapSorted] using hm)
      by_cases h : q p = true <;> simp [h, ih ht]
  rw [e]
  refine mapSorted_filterMap _ ?_ m hm
  intro p r a b ha hb h
  by_cases hp : q p = true <;> by_cases hr : q r = true <;> simp_all

theorem mapWf_filter {α : Type} [DecidableEq α] (d : α) (q : Nat × α → Bool) (m : SMap α) (h : mapWf d m = true) : mapWf d (m.filter q) = true := by
  simp only [mapWf, Bool.and_eq_true] at *
  refine ⟨mapSorted_filter q m h.1, ?_⟩
  rw [List.all_eq_true] at *
  exact fun p hp => h.2 p (List.mem_of_mem_filter hp)

theorem mapWf_foldl {α β : Type} [DecidableEq α] (d : α) (k : β → Nat) (v : β → α) (l : List β) (m : SMap α) (h : mapWf d m = true) :
    mapWf d (l.foldl (fun m p => mapSet d m (k p) (v p)) m) = true := by
  induction l generalizing m with
  | nil => exact h
  | cons p t ih => exact ih _ (mapWf_mapSet d m (k p) (v p) h)

/-- Clearing a range keeps the canonical form. -/
theorem Mem.wf_clear (m : Mem) (lo n : Nat) (h : m.wf = true) : (m.clear lo n).wf = true := by
  simp only [Mem.wf, Mem.clear, Bool.and_eq_true] at *
  exact ⟨mapWf_filter _ _ _ h.1, mapWf_filter _ _ _ h.2⟩

/-- Laying a memory over another keeps its canonical form. -/
theorem Mem.wf_lay (m src : Mem) (base : Nat) (h : m.wf = true) : (m.lay base src).wf = true := by
  simp only [Mem.wf, Mem.lay, Bool.and_eq_true] at *
  exact ⟨mapWf_foldl _ (fun p : Nat × BitVec 8 => base + p.1) (fun p => p.2) _ _ h.1, mapWf_foldl _ (fun p : Nat × BitVec 8 => base / 8 + p.1) (fun p => p.2) _ _ h.2⟩

/-- The bytes of a range, as a memory of their own, are in canonical form. -/
theorem Mem.wf_piece (m : Mem) (lo n : Nat) (h : m.wf = true) : (m.piece lo n).wf = true := by
  have key : ∀ (l u k : Nat) (x : SMap (BitVec 8)), l = k → mapWf 0 x = true →
      mapWf (0 : BitVec 8) (x.filterMap fun p => if l ≤ p.1 ∧ p.1 < u then some (p.1 - k, p.2) else none) = true := by
    intro l u k x e hx
    simp only [mapWf, Bool.and_eq_true] at *
    refine ⟨mapSorted_filterMap _ ?_ x hx.1, ?_⟩
    · intro p q a b ha hb hpq
      split at ha <;> split at hb <;> simp at ha hb
      subst ha; subst hb; dsimp; omega
    · rw [List.all_eq_true] at *
      intro p hp
      obtain ⟨q, hq, hqp⟩ := List.mem_filterMap.mp hp
      split at hqp <;> simp at hqp
      subst hqp; exact hx.2 q hq
  simp only [Mem.wf, Mem.piece, Bool.and_eq_true] at *
  exact ⟨key _ _ _ _ rfl h.1, key _ _ _ _ rfl h.2⟩

/-- Writing doublewords at places of their own keeps the canonical form. -/
theorem Mem.wf_writeAt (l : List (Nat × GWord)) (m : Mem) (h : m.wf = true) : (m.writeAt l).wf = true := by
  induction l generalizing m with
  | nil => exact h
  | cons p t ih => exact ih _ (Mem.wf_write m p.1 p.2 h)

theorem writeBackWords_wf (line : Nat) (dirty : BitVec 16) (ws : List GWord) (i : Nat) (m : Mem) (h : m.wf = true) :
    (writeBackWords m line dirty i ws).wf = true := by
  induction ws generalizing m i with
  | nil => exact h
  | cons w t ih =>
    unfold writeBackWords
    split
    · exact ih _ _ (Mem.wf_write _ _ _ h)
    · exact ih _ _ h

/-- Writing lines back keeps the canonical form. -/
theorem writeBackLines_wf (sel : Nat → CLine → Bool) (c : SMap CLine) (m : Mem) (h : m.wf = true) : (writeBackLines sel c m).2.wf = true := by
  induction c generalizing m with
  | nil => exact h
  | cons p t ih =>
    unfold writeBackLines
    split
    · exact ih _ (writeBackWords_wf _ _ _ _ _ h)
    · exact ih _ h

@[simp] theorem writeBack_cur (s : State) (g : Nat) (sel : Nat → CLine → Bool) : (s.writeBack g sel).cur = s.cur := rfl

/-- Writing back a tile's lines touches no other tile, no die, and nothing of the tile but its cache. -/
theorem writeBack_tileAt (s : State) (g : Nat) (sel : Nat → CLine → Bool) :
    (s.writeBack g sel).tileAt g = { s.tileAt g with cache := (writeBackLines sel (s.tileAt g).cache s.mem).1 } := by
  simp only [State.writeBack, State.tileAt, State.setTileAt, mapGet_mapPut_self]

theorem writeBack_tileAt_other (s : State) {g k : Nat} (sel : Nat → CLine → Bool) (h : k ≠ g) : (s.writeBack g sel).tileAt k = s.tileAt k := by
  simp only [State.writeBack, State.tileAt, State.setTileAt, mapGet_mapPut_other _ _ _ h]

theorem writeBack_wf (s : State) (g : Nat) (sel : Nat → CLine → Bool) (h : s.mem.wf = true) : (s.writeBack g sel).mem.wf = true :=
  writeBackLines_wf sel _ _ h

/-- Writing doublewords by physical address changes only memory, and keeps its form. -/
theorem writePhys_keeps (cls d : Nat) (ws : List GWord) (a : Nat) (s t : State) (h : writePhys cls d a ws s = .inr t) :
    (∃ m, t = { s with mem := m }) ∧ (s.mem.wf = true → t.mem.wf = true) := by
  induction ws generalizing a s with
  | nil => unfold writePhys at h; cases h; exact ⟨⟨_, rfl⟩, id⟩
  | cons w l ih =>
    unfold writePhys at h
    split at h
    · split at h
      · obtain ⟨⟨m, hm⟩, hw⟩ := ih _ _ h
        exact ⟨⟨m, by rw [hm]⟩, fun hs => hw (Mem.wf_write _ _ _ hs)⟩
      · cases h
    · cases h

/-! ## The order of SO accesses (R101) -/

/-- An address of the scratchpad aperture is on no SO page. -/
theorem onSO_aperture (s : State) {va : BitVec 64} (h : inAperture va = true) : s.onSO va = false := by
  simp [State.onSO, h]

/-- Nor is any address a handler names. -/
theorem onSO_supervisor (s : State) (va : BitVec 64) (h : s.tile.level = .supervisor) : s.onSO va = false := by
  simp [State.onSO, h]

/-- Where no address lies on an SO page nothing is ordered. -/
theorem soOrder_off (s : State) {vas : List (BitVec 64)} (h : vas.any s.onSO = false) : s.soOrder vas = s := by
  simp [State.soOrder, h]

@[simp] theorem soOrder_cur (s : State) (vas : List (BitVec 64)) : (s.soOrder vas).cur = s.cur := by
  unfold State.soOrder
  split
  · simp [State.setTile, State.setTileAt, releaseAt]
  · rfl

/-- Everything the order may change: the memory, by lines written back, and the tile's own cache. -/
theorem soOrder_shape (s : State) (vas : List (BitVec 64)) :
    (∃ c, (s.soOrder vas).tile = { s.tile with cache := c }) ∧ (∀ k, k ≠ s.cur → (s.soOrder vas).tileAt k = s.tileAt k) ∧
    s.soOrder vas = { s with mem := (s.soOrder vas).mem, tiles := (s.soOrder vas).tiles } ∧
    (s.mem.wf = true → (s.soOrder vas).mem.wf = true) := by
  unfold State.soOrder
  split
  · have hc : (releaseAt 1 s.cur s).cur = s.cur := by simp [releaseAt]
    have ht : (releaseAt 1 s.cur s).tile = { s.tile with cache := (releaseAt 1 s.cur s).tile.cache } := by
      rw [State.tile, hc]
      simp only [releaseAt, State.tile]
      rw [if_neg (by decide), if_neg (by decide), writeBack_tileAt]
    refine ⟨⟨(acquireAt 1 (releaseAt 1 s.cur s).tile).cache, ?_⟩, fun k hk => ?_, ?_, fun h => ?_⟩
    · show State.tile (State.setTileAt _ _ _) = _
      rw [State.tile, setTileAt_cur, hc, tileAt_setTileAt_self, ht]
      rfl
    · rw [State.setTile, hc, tileAt_setTileAt_other _ _ hk]
      exact writeBack_tileAt_other _ _ hk
    · simp [State.setTile, State.setTileAt, releaseAt, State.writeBack]
    · exact writeBack_wf s s.cur _ h
  · exact ⟨⟨s.tile.cache, rfl⟩, fun _ _ => rfl, rfl, id⟩

end Sys2Proof.Machine
end

