-- ==== Sys2Proof/Laws/Keep.lean ====
section
/-!
SUPPORT. Properties that a step of a word keeps, composed action by action; and what logging an error, taking a trap and giving the
outcome of a word keep: the canonical form of memory, the security state, and every other tile.
-/

namespace Sys2Proof.Machine

variable {α β : Type}

/-- An action that answers a state with `P` from every state with `P`. -/
def Keeps (P : State → Prop) (f : Eff α) : Prop := ∀ s a t, P s → f s = .ok (a, t) → P t

theorem keeps_pure (P : State → Prop) (a : α) : Keeps P (pure a : Eff α) := by
  intro s b t h e; cases e; exact h

theorem keeps_bind {P : State → Prop} {f : Eff α} {g : α → Eff β} (hf : Keeps P f) (hg : ∀ a, Keeps P (g a)) : Keeps P (f >>= g) := by
  intro s b u h e
  rw [eff_bind] at e
  cases hfs : f s with
  | error x => simp [hfs] at e
  | ok p => simp only [hfs] at e; exact hg p.1 p.2 b u (hf s p.1 p.2 h hfs) e

theorem keeps_ite {P : State → Prop} {c : Prop} [Decidable c] {f g : Eff α} (hf : Keeps P f) (hg : Keeps P g) :
    Keeps P (if c then f else g) := by
  split
  · exact hf
  · exact hg

theorem keeps_stop (P : State → Prop) (r : Stop) : Keeps P (stop r : Eff α) := by
  intro s a t _ e; cases e

theorem keeps_wait (P : State → Prop) : Keeps P (waitWord : Eff α) := by
  intro s a t _ e; cases e

theorem keeps_raise (P : State → Prop) (c k : Nat) (i : BitVec 64) : Keeps P (raise c k i : Eff α) := by
  intro s a t _ e; cases e

theorem keeps_waitUnless (P : State → Prop) (c : Bool) : Keeps P (waitUnless c) := by
  cases c
  · exact keeps_wait P
  · exact keeps_pure P ()

theorem keeps_raiseIf (P : State → Prop) (b : Bool) (c k : Nat) (i : BitVec 64) : Keeps P (raiseIf b c k i) := by
  cases b
  · exact keeps_pure P ()
  · exact keeps_raise P c k i

theorem keeps_getTile (P : State → Prop) : Keeps P getTile := by
  intro s a t h e; cases e; exact h

theorem keeps_curTile (P : State → Prop) : Keeps P curTile := by
  intro s a t h e; cases e; exact h

theorem keeps_getsState (P : State → Prop) (f : State → α) : Keeps P (getsState f) := by
  intro s a t h e; cases e; exact h

theorem keeps_modState {P : State → Prop} {f : State → State} (hf : ∀ s, P s → P (f s)) : Keeps P (modState f) := by
  intro s a t h e; cases e; exact hf s h

theorem keeps_modTile {P : State → Prop} {f : Tile → Tile} (hf : ∀ s, P s → P (s.setTile (f s.tile))) : Keeps P (modTile f) := by
  intro s a t h e; cases e; exact hf s h

/-! ## Logging and trapping -/

/-- Logging an error keeps the form of memory, every tile, and the security state (R414). -/
theorem logError_keeps (r : LogReq) (fatal : Bool) (s : State) :
    (s.mem.wf = true → (logError r fatal s).mem.wf = true) ∧ (logError r fatal s).tiles = s.tiles ∧ (logError r fatal s).cur = s.cur ∧
    (logError r fatal s).sec = s.sec := by
  unfold logError
  split <;> dsimp only <;> (repeat' split) <;> refine ⟨fun h => ?_, rfl, rfl, rfl⟩ <;>
    first | exact h | exact Mem.wf_writeList _ _ _ h

theorem countDie_keeps (d n : Nat) (s : State) :
    (s.countDie d n).mem = s.mem ∧ (s.countDie d n).tiles = s.tiles ∧ (s.countDie d n).cur = s.cur ∧ (s.countDie d n).sec = s.sec := by
  unfold State.countDie
  split <;> exact ⟨rfl, rfl, rfl, rfl⟩

theorem logErrors_keeps (l : List LogReq) (s : State) :
    (s.mem.wf = true → (logErrors l s).mem.wf = true) ∧ (logErrors l s).tiles = s.tiles ∧ (logErrors l s).cur = s.cur ∧
    (logErrors l s).sec = s.sec := by
  induction l generalizing s with
  | nil => exact ⟨id, rfl, rfl, rfl⟩
  | cons r t ih =>
    simp only [logErrors]
    split
    · obtain ⟨a, b, c, d⟩ := countDie_keeps r.die r.info1.toNat s
      obtain ⟨a', b', c', d'⟩ := ih (s.countDie r.die r.info1.toNat)
      exact ⟨fun h => a' (a ▸ h), b'.trans b, c'.trans c, d'.trans d⟩
    · obtain ⟨a, b, c, d⟩ := logError_keeps r (decide (r.code = 0x04 ∨ r.code = 0x12 ∨ (r.code = 0x0F ∧ r.src = 15))) s
      obtain ⟨a', b', c', d'⟩ := ih (logError r (decide (r.code = 0x04 ∨ r.code = 0x12 ∨ (r.code = 0x0F ∧ r.src = 15))) s)
      exact ⟨fun h => a' (a h), b'.trans b, c'.trans c, d'.trans d⟩

theorem traceAt_keeps (pa : Nat) (ws : List GWord) (s : State) :
    (s.mem.wf = true → (s.traceAt pa ws).mem.wf = true) ∧ (s.traceAt pa ws).tiles = s.tiles ∧ (s.traceAt pa ws).cur = s.cur ∧
    (s.traceAt pa ws).sec = s.sec := by
  unfold State.traceAt
  split
  · exact ⟨fun h => Mem.wf_writeList _ _ _ h, rfl, rfl, rfl⟩
  · exact ⟨id, rfl, rfl, rfl⟩

theorem traceRec_off {s : State} {g kind idx : Nat} {v : BitVec 64} (h : s.dmode (g / 16) = 0) : s.traceRec g kind idx v = s := by
  unfold State.traceRec
  rw [if_pos h]

/-- In a debug mode the record goes to the next place of the ring. -/
theorem traceRec_on {s : State} {g kind idx : Nat} {v : BitVec 64} (h : ¬s.dmode (g / 16) = 0) :
    s.traceRec g kind idx v = (s.setTileAt g { s.tileAt g with traced := (s.tileAt g).traced + 1 }).traceAt
      (s.traceBase g + (s.tileAt g).traced % 65536 * 16) [gloved (BitVec.ofNat 64 (4 * idx + kind)), gloved v] := by
  unfold State.traceRec
  rw [if_neg h]

/-- A trace record keeps the form of memory, the security state and every other tile. -/
theorem traceRec_keeps (s : State) (g kind idx : Nat) (v : BitVec 64) :
    (s.mem.wf = true → (s.traceRec g kind idx v).mem.wf = true) ∧ (s.traceRec g kind idx v).cur = s.cur ∧
    (s.traceRec g kind idx v).sec = s.sec ∧ ∀ k, k ≠ g → (s.traceRec g kind idx v).tileAt k = s.tileAt k := by
  by_cases h : s.dmode (g / 16) = 0
  · rw [traceRec_off h]; exact ⟨id, rfl, rfl, fun _ _ => rfl⟩
  · rw [traceRec_on h]
    refine ⟨(traceAt_keeps _ _ (s.setTileAt g _)).1, by rw [(traceAt_keeps _ _ _).2.2.1]; rfl, by rw [(traceAt_keeps _ _ _).2.2.2]; rfl,
      fun k hk => ?_⟩
    rw [State.tileAt, (traceAt_keeps _ _ _).2.1]
    exact tileAt_setTileAt_other _ _ hk

/-- Entry to supervisor level leaves the tile at that level, halted where the image was refused (R356). -/
theorem supervisorEntry_level (i : TrapInfo) (w : WordRef) (late : Bool) (n : Nat) (x : Engine) (g : Nat) (s : State) :
    ((supervisorEntry i w late n x g s).tileAt g).level = .supervisor := by
  unfold supervisorEntry
  dsimp only
  split
  · simp [doubleFault]
  · simp

/-- It keeps the form of memory, the security state and every other tile. -/
theorem supervisorEntry_keeps (i : TrapInfo) (w : WordRef) (late : Bool) (n : Nat) (x : Engine) (g : Nat) (s : State) :
    (s.mem.wf = true → (supervisorEntry i w late n x g s).mem.wf = true) ∧ (supervisorEntry i w late n x g s).sec = s.sec ∧
    (supervisorEntry i w late n x g s).cur = s.cur ∧ ∀ k, k ≠ g → (supervisorEntry i w late n x g s).tileAt k = s.tileAt k := by
  unfold supervisorEntry
  dsimp only
  split
  · refine ⟨writeBack_wf s g _, rfl, rfl, fun k hk => ?_⟩
    rw [tileAt_setTileAt_other _ _ hk, writeBack_tileAt_other _ _ hk]
  · rename_i u hu
    obtain ⟨⟨m, rfl⟩, hw⟩ := writePhys_keeps _ _ _ _ _ _ hu
    refine ⟨fun h => hw (writeBack_wf s g _ h), rfl, rfl, fun k hk => ?_⟩
    rw [tileAt_setTileAt_other _ _ hk]
    exact (tileAt_setTileAt_other _ _ hk).trans (writeBack_tileAt_other _ _ hk)

/-- Taking a trap keeps the form of memory, the security state and every other tile. -/
theorem takeTrap_keeps (i : TrapInfo) (w : WordRef) (p : Option Expn) (late : Bool) (n : Nat) (x : Engine) (g : Nat) (s : State) :
    (s.mem.wf = true → (takeTrap i w p late n x g s).mem.wf = true) ∧ (takeTrap i w p late n x g s).sec = s.sec ∧
    (takeTrap i w p late n x g s).cur = s.cur ∧ ∀ k, k ≠ g → (takeTrap i w p late n x g s).tileAt k = s.tileAt k := by
  unfold takeTrap
  extract_lets glv t0 s1 s2 t1 t s3
  have h1 : (s.mem.wf = true → s1.mem.wf = true) ∧ s1.sec = s.sec ∧ s1.cur = s.cur ∧ ∀ k, k ≠ g → s1.tileAt k = s.tileAt k := by
    by_cases hg : glv = true
    · simp only [s1, hg, if_true]
      obtain ⟨a, b, c, d⟩ := logError_keeps ⟨g / 16, 0x01, g % 16, i.info, tcauseOf i⟩ false (s.setTileAt g { t0 with guc := t0.guc + 1#64 })
      refine ⟨a, d, c, fun k hk => ?_⟩
      unfold State.tileAt; rw [b]; exact tileAt_setTileAt_other _ _ hk
    · simp only [s1, hg]; exact ⟨id, rfl, rfl, fun _ _ => rfl⟩
  have h2 := traceRec_keeps s1 g 2 n (tcauseOf i)
  have h3 : (s.mem.wf = true → s3.mem.wf = true) ∧ s3.sec = s.sec ∧ s3.cur = s.cur ∧ ∀ k, k ≠ g → s3.tileAt k = s.tileAt k := by
    refine ⟨fun h => ?_, ?_, ?_, fun k hk => ?_⟩
    · exact h2.1 (h1.1 h)
    · exact h2.2.2.1.trans h1.2.1
    · exact h2.2.1.trans h1.2.2.1
    · exact (tileAt_setTileAt_other _ _ hk).trans ((h2.2.2.2 k hk).trans (h1.2.2.2 k hk))
  split
  · exact ⟨h3.1, h3.2.1, h3.2.2.1, fun k hk => (tileAt_setTileAt_other _ _ hk).trans (h3.2.2.2 k hk)⟩
  · split
    · exact ⟨h3.1, h3.2.1, h3.2.2.1, fun k hk => (tileAt_setTileAt_other _ _ hk).trans (h3.2.2.2 k hk)⟩
    · obtain ⟨a, b, c, d⟩ := supervisorEntry_keeps i w late n x g s3
      exact ⟨fun h => a (h3.1 h), b.trans h3.2.1, c.trans h3.2.2.1, fun k hk => (d k hk).trans (h3.2.2.2 k hk)⟩

theorem preciseTrap_keeps (e : Eng) (i : TrapInfo) (l : List LogReq) (s : State) :
    (s.mem.wf = true → (preciseTrap e i l s).mem.wf = true) ∧ (preciseTrap e i l s).sec = s.sec := by
  unfold preciseTrap
  split
  · exact ⟨id, rfl⟩
  dsimp only
  obtain ⟨a, b, _, _⟩ := takeTrap_keeps i (match i.jx with
    | some j => { s.refOf e with inExp := true, jidx := j }
    | none => s.refOf e) (s.tile.eng e).exp false (s.tile.eng e).pos (s.tile.eng e) s.cur (logErrors l s)
  obtain ⟨a', _, _, d'⟩ := logErrors_keeps l s
  exact ⟨fun h => a (a' h), b.trans d'⟩

/-- A next state is the state before the word, the state its step made, or that of a trap. -/
theorem finish_next {e : Eng} {r : Except Stop (Unit × State)} {s u : State} (h : finish e r s = .next u) :
    u = s ∨ r = .ok ((), u) ∨ ∃ i l, u = preciseTrap e i l s := by
  cases r with
  | ok p => cases h; exact .inr (.inl rfl)
  | error x =>
    cases x with
    | wait => cases h; exact .inl rfl
    | fault f => cases h
    | refuse f => cases h
    | trap i l =>
      simp only [finish] at h
      split at h
      · cases h; exact .inl rfl
      · cases h; exact .inr (.inr ⟨i, l, rfl⟩)

/-- A word whose step keeps the form of memory keeps it whatever its outcome. -/
theorem finish_wf {e : Eng} {f : Eff Unit} {s u : State} (hf : Keeps (fun s => s.mem.wf = true) f) (hs : s.mem.wf = true)
    (h : finish e (f.run s) s = .next u) : u.mem.wf = true := by
  rcases finish_next h with rfl | hr | ⟨i, l, rfl⟩
  · exact hs
  · exact hf s () u hs hr
  · exact (preciseTrap_keeps e i l s).1 hs

end Sys2Proof.Machine
end

