-- ==== Sys2Proof/Laws/Run.lean ====
section
/-!
SUPPORT. What each shared way of running a word answers: when a word may take effect, what it answers when its step succeeds, waits,
raises or stops; the reads and writes of x registers; and where an address of each space is found to lie.
-/

namespace Sys2Proof.Machine

/-! ## When a word may take effect (R55, R56, R353) -/

theorem beginS_task {k : SKind} {l : Bool} {s : State} (hr : s.tile.runs = true) (hl : s.tile.level = .task) (ha : s.tile.accFault = none)
    (hw : s.tile.eS.pos - s.tile.minPos < s.tile.win.toNat) (hk : k = .settled → s.tile.settled = true) : beginS k l s = .ok ((), s) := by
  cases k
  · simp [beginS, Tile.raiseAcc, hr, hl, ha, hw]
  · simp [beginS, Tile.raiseAcc, hr, hl, ha, hw, hk rfl]

theorem beginS_supervisor {k : SKind} {s : State} (hr : s.tile.runs = true) (hl : s.tile.level = .supervisor) :
    beginS k true s = .ok ((), s) := by
  simp [beginS, hr, hl]

/-- A word of the task only is illegal at supervisor level (R348). -/
theorem beginS_illegal {k : SKind} {s : State} (hr : s.tile.runs = true) (hl : s.tile.level = .supervisor) :
    beginS k false s = .error (.trap ⟨cILL, 0, s.tile.eS.pc, none⟩ []) := by
  simp [beginS, hr, hl]

/-- A stopped tile performs nothing. -/
theorem beginS_stopped {k : SKind} {l : Bool} {s : State} (hr : s.tile.runs = false) : beginS k l s = .error .wait := by
  simp [beginS, hr]

theorem beginE_ok {e : Eng} {s : State} (hr : s.tile.runs = true) (hl : s.tile.level = .task) (hs : (s.tile.eng e).pos < s.tile.eS.pos)
    (hm : (s.tile.eng e).pos ≤ s.tile.minPos) : beginE e s = .ok ((), s) := by
  simp [beginE, hr, hl, hs, hm]

@[simp] theorem guardOn_apply (e : Eng) (g : BitVec 4) (s : State) :
    guardOn e g s = .ok (s.tile.predAt g.toNat (s.tile.eng e).pos, s) := rfl

/-! ## What a word answers -/

theorem runS_ok {k : SKind} {l : Bool} {body : Eff Unit} {s u : State} (h : beginS k l s = .ok ((), s)) (hb : body s = .ok ((), u)) :
    runS k l body s = .next (u.setTile u.tile.passS) := by
  simp only [runS, eff_run, eff_bind, h, hb, modTile_apply, finish]

theorem runSJump_ok {k : SKind} {l : Bool} {body : Eff (BitVec 64)} {a : BitVec 64} {s u : State} (h : beginS k l s = .ok ((), s))
    (hb : body s = .ok (a, u)) : runSJump k l body s = .next (u.setTile (u.tile.passSTo a)) := by
  simp only [runSJump, eff_run, eff_bind, h, hb, modTile_apply, finish]

theorem runSOwn_ok {k : SKind} {l : Bool} {body : Eff Unit} {s u : State} (h : beginS k l s = .ok ((), s)) (hb : body s = .ok ((), u)) :
    runSOwn k l body s = .next u := by
  simp only [runSOwn, eff_run, eff_bind, h, hb, finish]

theorem runSHold_ok {k : SKind} {l : Bool} {body : Eff Bool} {s u : State} (h : beginS k l s = .ok ((), s)) (hb : body s = .ok (true, u)) :
    runSHold k l body s = .next (u.setTile u.tile.passS) := by
  simp only [runSHold, eff_run, eff_bind, h, hb, modTile_apply, finish, if_true]

/-- A word that stays keeps what its step did, but for the count of its operands' corrections, which counts when it passes (R90). -/
theorem runSHold_stays {k : SKind} {l : Bool} {body : Eff Bool} {s u : State} (h : beginS k l s = .ok ((), s)) (hb : body s = .ok (false, u)) :
    runSHold k l body s = .next (u.setTile { u.tile with gcc := s.tile.gcc }) := by
  simp only [runSHold, eff_run, eff_bind, h, hb, finish, Bool.false_eq_true, if_false, modTile_apply]

theorem runE_ok {e : Eng} {g : BitVec 4} {body : Eff Unit} {s u : State} (h : beginE e s = .ok ((), s))
    (hg : s.tile.predAt g.toNat (s.tile.eng e).pos = true) (hb : body s = .ok ((), u)) : runE e g body s = .next (u.setTile (u.tile.pass e)) := by
  simp only [runE, eff_run, eff_bind, h, guardOn_apply, hg, if_true, hb, modTile_apply, finish]

/-- A word whose guard is false only passes (R63). -/
theorem runE_guarded {e : Eng} {g : BitVec 4} {body : Eff Unit} {s : State} (h : beginE e s = .ok ((), s))
    (hg : s.tile.predAt g.toNat (s.tile.eng e).pos = false) : runE e g body s = .next (s.setTile (s.tile.pass e)) := by
  simp only [runE, eff_run, eff_bind, h, guardOn_apply, hg, Bool.false_eq_true, if_false, modTile_apply, finish]

theorem runEHold_ok {e : Eng} {g : BitVec 4} {body : Eff Bool} {s u : State} (h : beginE e s = .ok ((), s))
    (hg : s.tile.predAt g.toNat (s.tile.eng e).pos = true) (hb : body s = .ok (true, u)) :
    runEHold e g body s = .next (u.setTile (u.tile.pass e)) := by
  simp only [runEHold, eff_run, eff_bind, h, guardOn_apply, hg, if_true, hb, modTile_apply, finish]

theorem runEHold_stays {e : Eng} {g : BitVec 4} {body : Eff Bool} {s u : State} (h : beginE e s = .ok ((), s))
    (hg : s.tile.predAt g.toNat (s.tile.eng e).pos = true) (hb : body s = .ok (false, u)) : runEHold e g body s = .next u := by
  simp only [runEHold, eff_run, eff_bind, h, guardOn_apply, hg, hb, if_true, Bool.false_eq_true, if_false, finish, eff_pure]

theorem runEHold_guarded {e : Eng} {g : BitVec 4} {body : Eff Bool} {s : State} (h : beginE e s = .ok ((), s))
    (hg : s.tile.predAt g.toNat (s.tile.eng e).pos = false) : runEHold e g body s = .next (s.setTile (s.tile.pass e)) := by
  simp only [runEHold, eff_run, eff_bind, h, guardOn_apply, hg, Bool.false_eq_true, if_false, modTile_apply, finish]

/-- A word that waits leaves the state as it was. -/
@[simp] theorem finish_wait (e : Eng) (s : State) : finish e (.error .wait) s = .next s := rfl

/-- A trap is taken on the state before the word (R12) when S's word has been reached by the others, or another engine raises it. -/
theorem finish_trap {e : Eng} {i : TrapInfo} {l : List LogReq} {s : State} (h : s.tile.level = .supervisor ∨ e ≠ .S ∨ s.tile.settled = true) :
    finish e (.error (.trap i l)) s = .next (preciseTrap e i l s) := by
  rcases h with h | h | h <;> simp [finish, h]

/-- Until then S waits with the word it raises for (R354). -/
theorem finish_trap_waits {i : TrapInfo} {l : List LogReq} {s : State} (h : s.tile.level = .task) (hs : s.tile.settled = false) :
    finish .S (.error (.trap i l)) s = .next s := by
  simp [finish, h, hs]

/-- Whatever a word does, its outcome is the state before it, the state its step made, the trap it raised, or a stop. -/
theorem finish_cases (e : Eng) (r : Except Stop (Unit × State)) (s : State) :
    finish e r s = .next s ∨ (∃ u, r = .ok ((), u) ∧ finish e r s = .next u) ∨
    (∃ i l, r = .error (.trap i l) ∧ finish e r s = .next (preciseTrap e i l s)) ∨
    (∃ f, r = .error (.fault f) ∧ finish e r s = .fault f) ∨ (∃ x, r = .error (.refuse x) ∧ finish e r s = .refused x) := by
  cases r with
  | ok p => exact .inr (.inl ⟨p.2, rfl, rfl⟩)
  | error x =>
    cases x with
    | wait => exact .inl rfl
    | trap i l =>
      by_cases h : s.tile.level = .task ∧ e = .S ∧ ¬ s.tile.settled
      · exact .inl (by simp [finish, h])
      · exact .inr (.inr (.inl ⟨i, l, rfl, by simp only [finish, h, if_false]⟩))
    | fault f => exact .inr (.inr (.inr (.inl ⟨f, rfl, rfl⟩)))
    | refuse x => exact .inr (.inr (.inr (.inr ⟨x, rfl, rfl⟩)))

/-! ## x registers (R115, R131) -/

theorem readX_ok {r : BitVec 6} {x : BitVec 64} {s : State} (h : s.tile.getX r.toNat = gloved x) : readX r s = .ok (x, s) := by
  simp [readX, h]

theorem readX_bad {r : BitVec 6} {s : State} (h : checkWord (s.tile.getX r.toNat) = .bad) :
    readX r s = .error (.trap ⟨cGLOVE, 0, regCode 4 r.toNat, none⟩ []) := by
  simp [readX, check_bad h]

@[simp] theorem writeXWord_apply (r : BitVec 6) (w : GWord) (s : State) : writeXWord r w s = .ok ((), s.setTile (s.tile.putX r.toNat w)) := rfl

@[simp] theorem writeX_apply (r : BitVec 6) (v : BitVec 64) (s : State) :
    writeX r v s = .ok ((), s.setTile (s.tile.putX r.toNat (gloved v))) := rfl

/-- A two-operand word writes the function of its operands and passes. -/
theorem alu2_ok {f : BitVec 64 → BitVec 64 → BitVec 64} {d a b : BitVec 6} {x y : BitVec 64} {s : State} (h : beginS .slip true s = .ok ((), s))
    (ha : s.tile.getX a.toNat = gloved x) (hb : s.tile.getX b.toNat = gloved y) :
    alu2 f d a b s = .next (s.setTile (s.tile.putX d.toNat (gloved (f x y))).passS) := by
  unfold alu2
  rw [runS_ok (u := s.setTile (s.tile.putX d.toNat (gloved (f x y)))) h (by simp [readX_ok ha, readX_ok hb])]
  simp

/-- A one-operand word writes the function of its operand and passes. -/
theorem alu1_ok {f : BitVec 64 → BitVec 64} {d a : BitVec 6} {x : BitVec 64} {s : State} (h : beginS .slip true s = .ok ((), s))
    (ha : s.tile.getX a.toNat = gloved x) : alu1 f d a s = .next (s.setTile (s.tile.putX d.toNat (gloved (f x))).passS) := by
  unfold alu1
  rw [runS_ok (u := s.setTile (s.tile.putX d.toNat (gloved (f x)))) h (by simp [readX_ok ha])]
  simp

theorem passS_task {t : Tile} (h : t.level = .task) : t.passS = t.pass .S := by unfold Tile.passS; rw [h]

theorem passS_supervisor {t : Tile} (h : t.level = .supervisor) : t.passS = { t with eS := { t.eS with pc := t.eS.pc + 4#64 } } := by
  unfold Tile.passS; rw [h]

/-- Outside an expansion a passed word is followed by the next one of the text. -/
theorem pass_text {t : Tile} {e : Eng} (h : (t.eng e).exp = none) : t.pass e = t.setEng e ⟨(t.eng e).pc + 4#64, (t.eng e).pos + 1, none⟩ := by
  simp [Tile.pass, Engine.next, h]

/-! ## Where an address lies (R94 to R96, R370, R373, R384) -/

/-- An action that carries no log requests is the action. -/
@[simp] theorem withLogs_nil {α : Type} (m : Eff α) : withLogs [] m = m := by
  funext s
  unfold withLogs
  split <;> simp_all

/-- An address of the own scratchpad. -/
theorem placeOf_own {va : BitVec 64} {off : Nat} {r : Rights} {s : State} (ha : inAperture va = true)
    (h : spadPlace s.cur (va.toNat % 2 ^ 32) = .own off) : placeOf va r s = .ok (.spad s.cur off, s) := by
  simp only [Nat.reducePow] at h
  simp [placeOf, ha, spadAccess, h]

/-- A supervisor's address is physical. -/
theorem placeOf_supervisor {va : BitVec 64} {d off : Nat} {r : Rights} {s : State} (ha : inAperture va = false) (hl : s.tile.level = .supervisor)
    (ht : targetOf va.toNat = .hbm d off) (hv : accessVerdict s (classSV s.tile) (s.cur / 16) va.toNat r = .ok) :
    placeOf va r s = .ok (.hbm va.toNat 0 (s.hatrackRegion d off).isSome, s) := by
  simp [placeOf, ha, hl, physPlace, ht, hv]

/-- A task's address goes through a page the tile has; a page of kind SO is not cached. -/
theorem placeOf_page {va : BitVec 64} {d off : Nat} {r : Rights} {e : TlbEntry} {s : State} (ha : inAperture va = false)
    (hl : s.tile.level = .task) (hn : bit (s.root (s.cur / 16) s.tile.side) 0 = true) (he : tlbFind s.tile.side va.toNat s.tile.tlb = some e)
    (hp : pageAllows e s.tile.side r.rd r.wr r.fx = true) (hk : e.kind = 0) (ht : targetOf (physOf e va) = .hbm d off)
    (hv : accessVerdict s (classSV s.tile) (s.cur / 16) (physOf e va) r = .ok) :
    placeOf va r s = .ok (.hbm (physOf e va) 0 (s.hatrackRegion d off).isSome, s) := by
  simp [placeOf, ha, hl, translate, hn, he, hp, hk, cacheServes, physPlace, ht, hv]

/-- A page that does not allow the access is a data fault of subcode 2 (R373). -/
theorem placeOf_denied {va : BitVec 64} {r : Rights} {e : TlbEntry} {s : State} (ha : inAperture va = false) (hl : s.tile.level = .task)
    (hn : bit (s.root (s.cur / 16) s.tile.side) 0 = true)
    (he : tlbFind s.tile.side va.toNat s.tile.tlb = some e) (hp : pageAllows e s.tile.side r.rd r.wr r.fx = false) :
    placeOf va r s = .error (.trap ⟨cDFLT, 2, va, none⟩ []) := by
  simp [placeOf, ha, hl, translate, hn, he, hp]

theorem checkAddr_ok {va : BitVec 64} {n : Nat} {s : State} (hc : s.tile.level = .task → canonical va = true) (hn : va.toNat % n = 0) :
    checkAddr va n s = .ok ((), s) := by
  cases hl : s.tile.level
  · simp [checkAddr, hc hl, hn]
  · simp [checkAddr, hl, hn]

/-- A misaligned address raises ALIGN (R94, R141). -/
theorem checkAddr_misaligned {va : BitVec 64} {n : Nat} {s : State} (hc : s.tile.level = .task → canonical va = true) (hn : va.toNat % n ≠ 0) :
    checkAddr va n s = .error (.trap ⟨cALIGN, 0, va, none⟩ []) := by
  cases hl : s.tile.level
  · simp [checkAddr, hc hl, hn]
  · simp [checkAddr, hl, hn]

theorem waitRange_ok {ps : List Place} {wr rd : Bool} {s : State}
    (h : s.tile.rangeBlocked s.tile.eS.pos (if rd = true then spanOf (ps.flatMap (placeRange s.cur)) else [])
      (if wr = true then spanOf (ps.flatMap (placeRange s.cur)) else []) = false) : waitRange ps wr rd s = .ok ((), s) := by
  simp [waitRange, rangeCheck, h]

/-- A load of a doubleword that is not cached, or of a scratchpad. -/
theorem loadPlace_memory {pa : Nat} {port : Bool} (s : State) : loadPlace (.hbm pa 0 port) s = .ok (s.mem.read pa, s) := by
  simp [loadPlace]

theorem loadPlace_spad {g off : Nat} (s : State) : loadPlace (.spad g off) s = .ok ((s.tileAt g).spad.read off, s) := by
  simp [loadPlace]

end Sys2Proof.Machine
end

