-- ==== Sys2Proof/Safety.lean ====
section
/-!
DEFINITION. What a safe state and a safe run are: the memories and register files keep their canonical forms, and no step
stops.
-/

namespace Sys2Proof

/-- A run of `k` steps from a state stops nowhere. -/
def safeFor : Nat → Machine.State → Prop
  | 0, _ => True
  | k + 1, s => ∃ t, Machine.step s = .next t ∧ safeFor k t

end Sys2Proof
end

