-- ==== Sys2Proof/Tests/Slice0.lean ====
section
/-!
SUPPORT. States and operands that meet the hypotheses of the obligations, the words of the spec's worked encodings, ill-formed terms
that the check refuses, and single steps on the spec's worked values.
-/

open Sys2Proof Sys2Proof.Machine Sys2Proof.Claims

namespace Sys2Proof.Tests

set_option Elab.async false

/-- A task at level task on tile 0 of die 0, at a word at 0x1000 that all four engines have reached; every class has its slice. -/
def base : State := ((State.withFetchWord State.reset 32 0).setDieReg 0 0x1810 3#64).setDieReg 0 0x1818 3#64

/-- `base` with tile 0 changed. -/
def tiled (f : Tile → Tile) : State := base.setTile (f base.tile)

/-- `base` with x registers. -/
def withX (l : List (Nat × BitVec 64)) : State := tiled fun t => l.foldl (fun t p => t.setX p.1 (gloved p.2)) t

/-- `base` at supervisor level. -/
def sup : State := tiled fun t => { t with level := .supervisor, tvec := 0x2000#64 }

/-- The first address of the own scratchpad. -/
def spadVa : BitVec 64 := 0xFF80000000000000#64

/-- An access to the last doubleword of the own scratchpad reaches it. -/
theorem spad_reaches (r : Rights) (n : Nat) (h : n = 1 ∨ n = 2 ∨ n = 4 ∨ n = 8) : Reaches base 0xFF800000001FFFF8#64 n r (.spad 0 0x1FFFF8) := by
  refine ⟨by rcases h with h | h | h | h <;> subst h <;> decide, by decide +kernel, ?_, .inl ⟨0x1FFFF8, by decide, by decide, rfl⟩⟩
  exact (by decide +kernel : ∀ a b : Bool, base.tile.rangeBlocked base.tile.eS.pos (if a = true then placeRange base.cur (.spad 0 0x1FFFF8) else [])
    (if b = true then placeRange base.cur (.spad 0 0x1FFFF8) else []) = false) r.rd r.wr

/-- The checks of an access at task level by an SO page that one evaluation settles. -/
abbrev Open (s : State) (va : BitVec 64) (n : Nat) (r : Rights) (pa : Nat) : Prop :=
  va.toNat % n = 0 ∧ canonical va = true ∧ bit (s.root (s.cur / 16) s.tile.side) 0 = true ∧
  s.tile.rangeBlocked s.tile.eS.pos [] [] = false ∧
  inAperture va = false ∧ s.tile.level = .task ∧ tlbFind s.tile.side va.toNat s.tile.tlb = some (placePage true) ∧
  pageAllows (placePage true) s.tile.side r.rd r.wr r.fx = true ∧ pa = physOf (placePage true) va ∧ targetOf pa = .hbm 0 pa ∧
  accessVerdict s (classSV s.tile) (s.cur / 16) pa r = .ok ∧ s.hatrackRegion 0 pa = none

/-- Such an access reaches HBM. -/
theorem reaches_of {s : State} {va : BitVec 64} {n : Nat} {r : Rights} {pa : Nat} (h : Open s va n r pa) : Reaches s va n r (.hbm pa 0 false) := by
  obtain ⟨h1, h2, h4, h3, h5, h6, h7, h8, h9, h10, h11, h12⟩ := h
  refine ⟨h1, fun _ => h2, by simpa [placeRange] using h3, .inr ⟨h5, pa, 0, pa, .inr ⟨h6, h4, placePage true, h7, rfl, h8, h9⟩, h10, h11, by simp [h12]⟩⟩

/-- `base` where S has passed the word that V, M and D are at. -/
def ahead (f : Tile → Tile) : State := tiled fun t => f { t with eS := ⟨0x1004#64, 1, none⟩ }

theorem noRange_of {e : Eng} {s : State} (h : s.tile.busyRanges (s.tile.eng e).pos = ([], [])) : NoRange e s := by
  intro rd wr; simp [Tile.rangeBlocked, h, meetsAny]

theorem raw_of {s : State} {g : Nat} (h : (s.tileAt g).bfmt = []) (o : Nat) : (s.tileAt g).bankOf o = 15 ∧ s.bankFmt g o = .raw := by
  have e : (s.tileAt g).bankOf o = 15 := by simp [Tile.bankOf, Tile.bank, h]
  exact ⟨e, by simp [State.bankFmt, State.spadFmt, e]; decide⟩

/-- The checks of an access by D of tile 0 that one evaluation settles. -/
abbrev DOpen (s : State) (va : BitVec 64) (r : Rights) (pa : Nat) : Prop :=
  canonical va = true ∧ inAperture va = false ∧ targetOf pa = .hbm 0 pa ∧ tlbFind (s.tileAt 0).side va.toNat (s.tileAt 0).tlb = some (placePage true) ∧
  pageAllows (placePage true) (s.tileAt 0).side r.rd r.wr r.fx = true ∧ pa = physOf (placePage true) va ∧
  accessVerdict s (classD (s.tileAt 0)) 0 pa r = .ok ∧ bit (s.root (0 / 16) (s.tileAt 0).side) 0 = true

theorem dlands_of {s : State} {va : BitVec 64} {r : Rights} {pa : Nat} (h : DOpen s va r pa) : DLands s 0 va r pa :=
  ⟨h.1, h.2.1, ⟨0, pa, h.2.2.1⟩, h.2.2.2.2.2.2.2, ⟨placePage true, h.2.2.2.1, h.2.2.2.2.1, h.2.2.2.2.2.1⟩, h.2.2.2.2.2.2.1⟩

/-- A memory that nothing has written reads zero. -/
theorem empty_read (a : Nat) : Mem.empty.read a = gloved 0#64 := by
  have h : (⟨0#8 ++ 0#8 ++ 0#8 ++ 0#8 ++ 0#8 ++ 0#8 ++ 0#8 ++ 0#8, 0#8⟩ : GWord) = gloved 0#64 := by decide
  exact h

/-! ## Hypotheses that are met: scalar words and memory -/

/-- The boundary operands of the arithmetic words, at task level and with a destination without error. -/
def ops : State := withX [(1, 0x8000000000000000#64), (2, 0xFFFFFFFFFFFFFFFF#64), (3, 0#64), (4, 77#64)]

theorem test_hyps_RegisterArithmeticResult : SReady ops ∧ ops.tile.getX 1 = gloved 0x8000000000000000#64 ∧
    ops.tile.getX 2 = gloved 0xFFFFFFFFFFFFFFFF#64 ∧ ops.tile.getX 4 = gloved 77#64 ∧ SReady sup := by
  simp only [SReady]; decide +kernel

theorem test_hyps_DivisionNeverTraps : SReady ops ∧ ops.tile.getX 1 = gloved 0x8000000000000000#64 ∧
    ops.tile.getX 2 = gloved 0xFFFFFFFFFFFFFFFF#64 ∧ ops.tile.getX 3 = gloved 0#64 := by
  simp only [SReady]; decide +kernel

theorem test_hyps_UnaryAndImmediateResult : SReady ops ∧ ops.tile.getX 3 = gloved 0#64 ∧ bitsLegal 63#6 0#6 ∧ bitsLegal 0#6 63#6 ∧
    ops.tile.getX 4 = gloved 77#64 := by
  simp only [SReady]; decide +kernel

theorem test_hyps_ScalarFrameAndCorrectionResult : (∃ t, wrote base 63#6 7#64 = .next t) ∧ (∃ t, wrote sup 0#6 7#64 = .next t) ∧
    base.tile.level = .task ∧ base.tile.eS.exp = none ∧ sup.tile.level = .supervisor :=
  ⟨⟨_, rfl⟩, ⟨_, rfl⟩, by decide +kernel⟩

/-- x1 holds a single error and x2 an uncorrectable word. -/
def errs : State := tiled fun t => (t.setX 1 ⟨1#64, 0#8⟩).setX 2 ⟨3#64, 0#8⟩

theorem test_hyps_ScalarFrameAndCorrectionResult_counts : SReady errs ∧ SAlone errs ∧ checkWord (errs.tile.getX 1) = .ok 0#64 true ∧
    checkWord (errs.tile.getX 2) = .bad ∧ errs.tile.getX 3 = gloved 0#64 := by
  simp only [SAlone, SReady]; decide +kernel

theorem test_hyps_LoadResult : SAlone base ∧ base.tile.getX 0 = gloved 0#64 ∧ wordAt base (.spad 0 0x1FFFF8) = gloved 0#64 ∧
    Reaches base 0xFF800000001FFFF8#64 8 Rights.load (.spad 0 0x1FFFF8) ∧ Reaches base 0x2000#64 4 Rights.load (.hbm 0x2000 0 false) ∧
    Reaches base 0x2000#64 2 Rights.load (.hbm 0x2000 0 false) ∧ Reaches base 0x2000#64 1 Rights.load (.hbm 0x2000 0 false) := by
  refine ⟨by simp only [SAlone, SReady]; decide +kernel, by decide +kernel, by simp only [wordAt]; decide +kernel,
    spad_reaches _ _ (by simp), reaches_of (by decide +kernel), reaches_of (by decide +kernel), reaches_of (by decide +kernel)⟩

theorem test_hyps_StoreAndCachedLineResult : SAlone base ∧ Reaches base 0xFF800000001FFFF8#64 8 Rights.store (.spad 0 0x1FFFF8) ∧
    Reaches base 0x2000#64 8 Rights.load (.hbm 0x2000 0 false) ∧ Reaches base 0x2008#64 8 Rights.load (.hbm 0x2008 0 false) ∧
    Reaches base 0x2000#64 8 Rights.store (.hbm 0x2000 0 false) ∧ Reaches base 0x2008#64 8 Rights.store (.hbm 0x2008 0 false) ∧
    base.tile.rangeBlocked base.tile.eS.pos (spanOf (placeRange base.cur (.hbm 0x2000 0 false) ++ placeRange base.cur (.hbm 0x2008 0 false))) [] = false ∧
    base.tile.rangeBlocked base.tile.eS.pos [] (spanOf (placeRange base.cur (.hbm 0x2000 0 false) ++ placeRange base.cur (.hbm 0x2008 0 false))) = false := by
  refine ⟨by simp only [SAlone, SReady]; decide +kernel, spad_reaches _ _ (by simp), reaches_of (by decide +kernel), reaches_of (by decide +kernel),
    reaches_of (by decide +kernel), reaches_of (by decide +kernel), by decide +kernel, by decide +kernel⟩

/-- An RC page at 0 and a line of it, granted write, in the tile cache. -/
def cached : State := tiled fun t =>
  { t with
    tlb := [{ placePage true with kind := 1 }], cache := [(0x40, ⟨List.replicate 16 (gloved 9#64), 0xFFFF#16, 0#16, false, true⟩)] }

theorem test_hyps_StoreAndCachedLineResult_cached : SAlone cached ∧ cached.tile.level = .task ∧ cached.tile.getX 0 = gloved 0#64 ∧
    canonical 0x2000#64 = true ∧ inAperture 0x2000#64 = false ∧
    tlbFind cached.tile.side 0x2000 cached.tile.tlb = some { placePage true with kind := 1 } ∧
    physOf { placePage true with kind := 1 } 0x2000#64 = 0x2000 ∧
    cached.tile.line (0x2000 / 128) = some ⟨List.replicate 16 (gloved 9#64), 0xFFFF#16, 0#16, false, true⟩ ∧ targetOf 0x2000 = .hbm 0 0x2000 ∧
    cached.hatrackRegion 0 0x2000 = none ∧ pageAllows { placePage true with kind := 1 } cached.tile.side true false false = true ∧
    pageAllows { placePage true with kind := 1 } cached.tile.side false true false = true := by
  simp only [SAlone, SReady]; decide +kernel

theorem test_hyps_AtomicFenceAndPrefetchResult : SAlone base ∧ amoLegal 4#3 4#3 ∧ amoLegal 0#3 0#3 ∧
    Reaches base 0xFF800000001FFFF8#64 8 Rights.amo (.spad 0 0x1FFFF8) ∧ Reaches base 0x2000#64 8 Rights.amo (.hbm 0x2000 0 false) ∧
    wordAt base (.hbm 0x2000 0 false) = gloved 0#64 ∧ base.tile.line (0x2000 / 128) = none ∧ base.tile.dcmds = [] ∧
    (∀ w ∈ base.tile.wins, w.2.awaits = []) ∧ SAlone sup ∧ fenceLegal 1#3 0#3 ∧ fenceLegal 4#3 4#3 := by
  refine ⟨by simp only [SAlone, SReady]; decide +kernel, by decide, by decide, spad_reaches _ _ (by simp),
    reaches_of (by decide +kernel), ?_⟩
  simp only [wordAt, SAlone, SReady]; decide +kernel

/-! ## Hypotheses that are met: control, exchange and system words -/

/-- `base` with its outcome queues one short of full, and operands for jumps, the table jump and tlbinv. -/
def jumps : State := tiled fun t =>
  { (((t.setX 1 (gloved 0x2000#64)).setX 2 (gloved 0x2001#64)).setX 3 (gloved 5#64)) with
    boV := List.replicate 63 (0, .nextWord), boM := List.replicate 63 (0, .nextWord), boD := List.replicate 63 (0, .nextWord) }

theorem test_hyps_BranchAndJumpResult : SReady jumps ∧ RoomOut jumps ∧ SAlone jumps ∧ jumps.tile.eS.pos ≤ jumps.tile.eV.pos ∧
    jumps.tile.getX 0 = gloved 0#64 ∧ jumps.tile.getX 1 = gloved 0x2000#64 ∧ jumps.tile.getX 2 = gloved 0x2001#64 ∧
    (0x2000#64 + (0xFFC#12).signExtend 64).toNat % 4 = 0 ∧ (0x2001#64 + (0xFFC#12).signExtend 64).toNat % 4 ≠ 0 ∧
    jumps.tile.getX 3 = gloved 5#64 ∧ (5#12).toNat ≤ (5#64).toNat ∧ (0#64).toNat < (1#12).toNat ∧
    Reaches jumps (0x2000#64 + 4#64 * 0#64) 4 Rights.load (.hbm 0x2000 0 false) ∧ wordAt jumps (.hbm 0x2000 0 false) = gloved 0#64 := by
  refine ⟨by simp only [SReady]; decide +kernel, by simp only [RoomOut]; decide +kernel, by simp only [SAlone, SReady]; decide +kernel,
    by decide +kernel, by decide +kernel, by decide +kernel, by decide +kernel, by decide, by decide, by decide +kernel, by decide,
    by decide, reaches_of (by decide +kernel), by simp only [wordAt]; decide +kernel⟩

/-- `base` with operand queues one short of full, a full event queue and one word in the return queue. -/
def queues : State := tiled fun t =>
  { t with
    oqV := List.replicate 63 (0, GWord.zero), oqM := List.replicate 63 (0, GWord.zero), oqD := List.replicate 63 (0, GWord.zero),
    rq := [gloved 1#64], eq := List.replicate 64 ⟨gloved 2#64, []⟩, held := [(.D, ⟨gloved 3#64, []⟩)] }

theorem test_hyps_ExchangeResult : SAlone queues ∧ queues.tile.level = .task ∧ queues.tile.oqV.length < 64 ∧ queues.tile.oqM.length < 64 ∧
    queues.tile.oqD.length < 64 ∧ queues.tile.rq = gloved 1#64 :: [] ∧
    queues.tile.eq = ⟨gloved 2#64, []⟩ :: List.replicate 63 ⟨gloved 2#64, []⟩ ∧
    SAlone base ∧ base.tile.eq = [] ∧ base.tile.rq = [] ∧ base.tile.level = .task := by
  simp only [SAlone, SReady]; decide +kernel

/-- `base` with entry 63 of 32 words `nwait 1` in the control store, and the image of one such word at 0x2000. -/
def micros : State :=
  let s := tiled fun t => { t.setX 1 (gloved 0x2000#64) with cstore := [(63, ⟨List.replicate 32 0x8E001000#32, List.replicate 32 0#32⟩)] }
  { s with mem := (s.mem.write 0x2000 (gloved 0x8E00100000000001#64)).write 0x2008 (gloved 0#64) }

theorem test_hyps_MicroprogramResult : SAlone micros ∧ micros.tile.level = .task ∧ RoomOut micros ∧ micros.tile.getX 0 = gloved 0#64 ∧
    micros.tile.getX 1 = gloved 0x2000#64 ∧ (micros.tile.micro 63).words ≠ [] ∧
    (∀ j < (micros.tile.micro 63).words.length, barred (microWord (micros.tile.micro 63) j 0#64 0#64 0#64) = false) ∧
    (let img : List (BitVec 64) := [0x8E00100000000001#64, 0#64]
     img.length = 1 + 1 ∧ (img.getD 0 0#64).toNat % 2 ^ 32 = 1 ∧
     (∀ i ≤ 1, Reaches micros (0x2000#64 + 8#64 * BitVec.ofNat 64 i) 8 Rights.load (.hbm (0x2000 + 8 * i) 0 false) ∧
       wordAt micros (.hbm (0x2000 + 8 * i) 0 false) = gloved (img.getD i 0#64)) ∧
     ((((halves img).drop 1).drop 1).take 1).all mapOk = true) := by
  refine ⟨by simp only [SAlone, SReady]; decide +kernel, by decide +kernel, by simp only [RoomOut]; decide +kernel, by decide +kernel,
    by decide +kernel, by decide +kernel, by decide +kernel, by decide, by decide, ?_, by decide⟩
  intro i hi
  obtain rfl | rfl : i = 0 ∨ i = 1 := by omega
  all_goals exact ⟨reaches_of (by decide +kernel), by simp only [wordAt]; decide +kernel⟩

theorem test_hyps_CsrWordResult : SAlone ops ∧ SReady ops ∧ CsrLevel ops 0x013 ∧ csrReadOnly 0x013 = true ∧ CsrLevel ops 0x010 ∧
    csrReadOnly 0x010 = false ∧ CsrFree ops 0x010 ∧ CsrFree ops 0x3F ∧ CsrFree ops 0x17 ∧ ops.tile.getX 4 = gloved 77#64 := by
  unfold SAlone SReady CsrLevel CsrFree; decide +kernel

theorem test_hyps_CsrWordResult_values : ((ops.tile.noteRead 0x010).setCsr 0x010 77#64).isSome = true ∧
    ((ops.tile.noteRead 0x011).setCsr 0x011 77#64).isNone = true ∧ csrReadOnly 0x011 = false ∧ CsrLevel ops 0x011 ∧
    csrExists 0x100 = true ∧ ops.tile.level = .task ∧ ops.tile.kvBusy = false ∧ ops.tile.getX 3 = gloved 0#64 ∧ (0#64).toNat ≤ 2 ∧
    ¬ (9 ≤ (0#64).toNat % 16 ∧ (0#64).toNat % 16 ≤ 14) ∧ SAlone sup ∧ CsrLevel sup 0x100 ∧ sup.tile.level = .supervisor := by
  unfold SAlone SReady CsrLevel; decide +kernel

/-- A bank whose format csrc would make a reserved code, and one whose format csrs would. -/
theorem test_hyps_CsrWordResult_refused : let s := withX [(4, 1#64)]
    let z := s.setTile { s.tile with bfmt := [(0, 8#4)] }
    s.tile.getX 4 = gloved 1#64 ∧ (s.tile.noteRead 0x20).setCsr 0x20 (s.csr s.cur 0x20 &&& ~~~1#64) = none ∧
    (z.tile.noteRead 0x20).setCsr 0x20 (z.csr z.cur 0x20 ||| 1#64) = none ∧ CsrLevel s 0x20 ∧ csrReadOnly 0x20 = false ∧ CsrFree s 0x20 := by
  unfold CsrLevel CsrFree; decide +kernel

theorem region_page (s : State) (d base shift : Nat) {x y : Nat} (h : x / 2 ^ shift = y / 2 ^ shift) (n i : Nat) :
    findRegion s d base shift x n i = findRegion s d base shift y n i := by
  induction n generalizing i with
  | zero => rfl
  | succ n ih => simp only [findRegion, h, ih]

theorem target_low {k : Nat} (h : k < 16384) : targetOf k = .hbm 0 k := by
  have h1 : k / 2 ^ 37 % 32 = 0 := by omega
  have h2 : k % 2 ^ 37 = k := by omega
  have h3 : k / 2 ^ 42 = 0 := by omega
  have h4 : ¬ (k ≥ 2 ^ 48) := by omega
  unfold targetOf
  simp only [h1, h2, h3]
  rw [if_neg (by omega), if_pos trivial]

/-- The tables answer by the page of an address. -/
theorem verdict_page (s : State) (c d : Nat) (r : Rights) {k : Nat} (h : k < 16384) :
    accessVerdict s c d k r = accessVerdict s c d (k / 4096 * 4096) r := by
  have h1 : k / 2 ^ 12 = (k / 4096 * 4096) / 2 ^ 12 := by omega
  have h2 : k / 2 ^ 16 = (k / 4096 * 4096) / 2 ^ 16 := by omega
  unfold accessVerdict State.hatrackRegion
  rw [target_low h, target_low (show k / 4096 * 4096 < 16384 by omega)]
  dsimp only
  rw [region_page s 0 0x1C00 12 h1, region_page s 0 0x1000 16 h2]

/-- A scoreboard area at 0 in the region that takes every store. -/
theorem area_of {s : State} (a : s.tile.pendings.length ≤ 254 ∧ bits s.tile.tsb 63 13 = 0)
    (b : ∀ i < 2, accessVerdict s (classSV s.tile) (s.cur / 16) (i * 4096) Rights.store = .ok) : AreaFits s := by
  refine ⟨a.1, fun k hk => ⟨0, k, ?_, ?_⟩⟩ <;> rw [a.2, Nat.zero_mul, Nat.zero_add]
  · exact target_low (by omega)
  · rw [verdict_page _ _ _ _ (by omega)]; exact b _ (by omega)

theorem fits_of {s : State} (h : s.tile.late = none) (a : s.tile.pendings.length ≤ 254 ∧ bits s.tile.tsb 63 13 = 0)
    (b : ∀ i < 2, accessVerdict s (classSV s.tile) (s.cur / 16) (i * 4096) Rights.store = .ok) : ImageFits s := ⟨h, area_of a b⟩

theorem base_fits : ImageFits base := fits_of (by decide +kernel) (by decide +kernel) (by decide +kernel)

/-- Die 0 under invasive debug with breakpoints armed. -/
def armed : State := (base.setDieReg 0 0x30038 0x200#64).setDieReg 0 0x30040 8#64

theorem test_hyps_SupervisorEntryResult : SAlone base ∧ base.tile.level = .task ∧ ImageFits base ∧ base.dmode (base.cur / 16) = 0 ∧
    bit base.tile.ufv 1 = false ∧ SAlone armed ∧ armed.tile.level = .task ∧ armed.brkArmed (armed.cur / 16) = true := by
  refine ⟨by simp only [SAlone, SReady]; decide +kernel, by decide +kernel, base_fits, by decide +kernel, by decide +kernel,
    by simp only [SAlone, SReady]; decide +kernel, by decide +kernel, by decide +kernel⟩

/-- A handler that may return to the task with nothing pending, and one nested in another. -/
def handler (ppl : Bool) : State := tiled fun t =>
  { t with
    level := .supervisor, tstat := if ppl then 0x80#64 else 0#64, trap := some ⟨0, ⟨.S, 0, 0x1000#64, 0#32, false, 0⟩, 0#64, none, t.taskRegs, []⟩ }

/-- A task whose own handler runs. -/
def active : State := tiled fun t => { t with ufv := 0x2002#64 }

theorem test_hyps_TrapReturnResult : (handler false).tile.runs = true ∧ (handler false).tile.level = .supervisor ∧
    bit (handler false).tile.tstat 7 = false ∧
    (handler false).tile.trap = some ⟨0, ⟨.S, 0, 0x1000#64, 0#32, false, 0⟩, 0#64, none, base.tile.taskRegs, []⟩ ∧
    (handler true).tile.runs = true ∧ (handler true).tile.level = .supervisor ∧ bit (handler true).tile.tstat 7 = true ∧
    active.tile.runs = true ∧ SAlone active ∧ active.tile.level = .task ∧ bit active.tile.ufv 1 = true := by
  simp only [SAlone, SReady]; decide +kernel

/-- A handler that resumes with a wait of D pending at word 0, below the trap's index. -/
def settling : State := tiled fun t =>
  { t with
    level := .supervisor, trap := some ⟨1, ⟨.S, 1, 0x1004#64, 0#32, false, 0⟩, 0#64, none, t.taskRegs, [0]⟩,
    dcmds := [⟨⟨.D, 0, 0x1000#64, 0#32, false, 0⟩, .devt 0, GWord.zero, GWord.zero, GWord.zero, 0#9, [], none, 0#64, [], [], 0, false, true, none,
      5, true, 0, 0, [], [], false⟩] }

theorem test_hyps_TrapReturnResult_resume : settling.tile.runs = true ∧ settling.tile.level = .supervisor ∧ bit settling.tile.tstat 7 = false ∧
    settling.tile.trap = some ⟨1, ⟨.S, 1, 0x1004#64, 0#32, false, 0⟩, 0#64, none, base.tile.taskRegs, [0]⟩ ∧ settling.tile.held = [] ∧
    settling.tile.eq.length + [0].length ≤ 64 ∧ settling.dmode (settling.cur / 16) = 0 ∧ settling.tile.pendings.map (·.ref.idx) = [0] ∧
    [0].Pairwise (· < ·) ∧ (∀ i ∈ [0], i < 1) := by
  decide +kernel

/-- A task with a JOIN word in the page at 0, asked to leave its tile; and a record of a task at 0x2000. -/
def tasks : State := tiled fun t =>
  { t.setX 1 (gloved 0x2000#64) with pre := some ⟨0#64, false, false⟩, task := some ⟨⟨0x1000#64, 0#64, 0x2000#64, 0#64⟩, none, 0, 0⟩ }

theorem test_hyps_TaskWordResult : SAlone tasks ∧ tasks.tile.level = .task ∧ tasks.tile.pre.isSome = true ∧ tasks.tile.sending = [] ∧
    tasks.tile.record.join ≠ 0#64 ∧ Reaches tasks tasks.tile.record.join 8 Rights.store (.hbm 0x2000 0 false) ∧
    SAlone base ∧ base.tile.pre = none ∧ base.tile.record.join = 0#64 ∧ tasks.tile.getX 1 = gloved 0x2000#64 ∧
    tasks.tile.getX 0 = gloved 0#64 ∧ canonical 0x2000#64 = true ∧
    (∀ i < 4, Reaches tasks (0x2000#64 + 8#64 * BitVec.ofNat 64 i) 8 Rights.load (.hbm (0x2000 + 8 * i) 0 false) ∧
      wordAt tasks (.hbm (0x2000 + 8 * i) 0 false) = gloved 0#64) ∧
    (tasks.dieAt 0).occ tasks.tile.side < 3840 := by
  refine ⟨by simp only [SAlone, SReady]; decide +kernel, by decide +kernel, by decide +kernel, by decide +kernel, by decide +kernel,
    reaches_of (by decide +kernel), by simp only [SAlone, SReady]; decide +kernel, by decide +kernel, by decide +kernel,
    by decide +kernel, by decide +kernel, by decide +kernel, ?_, by decide +kernel⟩
  intro i hi
  obtain rfl | rfl | rfl | rfl : i = 0 ∨ i = 1 ∨ i = 2 ∨ i = 3 := by omega
  all_goals exact ⟨reaches_of (by decide +kernel), by simp only [wordAt]; decide +kernel⟩

/-! ## Hypotheses that are met: vector words -/

/-- A V word at which every register holds zero but s1 to s5, whose bank 31 is typed FP32 and bank 30 RAW. -/
def vec : State := ahead fun t =>
  { t with
    sreg := [(1, gloved 0x1FFC00#64), (2, gloved 0x400#64), (3, gloved 0x100#64), (4, gloved 0x80000000000000#64), (5, gloved 0x2000#64)], bfmt := [(31, 0#4)] }

theorem vec_ready : EReady .V 0#4 vec ∧ NoRange .V vec ∧ MaskIs vec 0 (BitVec.allOnes 128) ∧ MaskIs vec 1 0#128 ∧
    LanesAre vec (BitVec.allOnes 128) 31 (fun _ => 0#64) ∧ (∀ i < 128, vec.tile.getV 0 i = gloved 0#64) := by
  refine ⟨by simp only [EReady, EFree]; decide +kernel, noRange_of (by decide +kernel), by simp only [MaskIs]; decide +kernel,
    by simp only [MaskIs]; decide +kernel, ?_, by decide +kernel⟩
  have h : ∀ i < 128, vec.tile.getV 31 i = gloved 0#64 := by decide +kernel
  exact fun i hi _ => h i hi

theorem test_hyps_VectorElementResult : EReady .V 0#4 vec ∧ MaskIs vec 0 (BitVec.allOnes 128) ∧
    LanesAre vec (BitVec.allOnes 128) 31 (fun _ => 0#64) := ⟨vec_ready.1, vec_ready.2.2.1, vec_ready.2.2.2.2.1⟩

theorem test_hyps_IntegerElementValues : Fmt.int8.isInt = true ∧ Fmt.int64.isInt = true ∧ 0x80 < 2 ^ Fmt.int8.width ∧
    signedOf Fmt.int8.width 0x80 = -(2 ^ (Fmt.int8.width - 1)) ∧ signedOf Fmt.int8.width 0x7F ≠ -(2 ^ (Fmt.int8.width - 1)) := by decide

/-- `vec` under another VRM. -/
def vrms (v : BitVec 64) : State := vec.setTile { vec.tile with vcr := [(0, gloved v)] }

theorem test_hyps_ConversionResult : EReady .V 0#4 (vrms 4#64) ∧ MaskIs (vrms 4#64) 0 (BitVec.allOnes 128) ∧
    (vrms 4#64).tile.getVcr 0 = gloved 4#64 ∧ rmOfCode (bits (4#64) 2 0) = some .rs ∧ bits (4#64) 4 3 ≠ 3 ∧
    vec.tile.getVcr 0 = gloved 0#64 ∧ rmOfCode (bits (0#64) 2 0) = some .rne ∧ pairAllowed (typeOf 0#3) (typeOf 5#3) = true ∧
    (∀ i < 128, (vrms 4#64).tile.getV 0 i = gloved 0#64) := by
  simp only [EReady, EFree, MaskIs]; decide +kernel

theorem test_hyps_MaskWordResult : EReady .V 0#4 vec ∧ MaskIs vec 0 (BitVec.allOnes 128) ∧ MaskIs vec 1 0#128 ∧
    LanesAre vec (BitVec.allOnes 128) 31 (fun _ => 0#64) ∧ (1#4).toNat = (1#3).toNat :=
  ⟨vec_ready.1, vec_ready.2.2.1, vec_ready.2.2.2.1, vec_ready.2.2.2.2.1, rfl⟩

theorem test_hyps_LaneMovementAndReductionResult_lanes : EReady .V 0#4 vec ∧ MaskIs vec 0 (BitVec.allOnes 128) ∧ (typeOf 3#3).width = 64 ∧
    (typeOf 2#3).width ≠ 64 ∧ vec.tile.getS 4 = gloved 0x80000000000000#64 ∧ LanesAre vec (BitVec.allOnes 128) 31 (fun _ => 0#64) ∧
    (∀ i < 128, vec.tile.getV 0 i = gloved 0#64) :=
  ⟨vec_ready.1, vec_ready.2.2.1, by decide, by decide, by decide +kernel, vec_ready.2.2.2.2.1, vec_ready.2.2.2.2.2⟩

theorem test_hyps_LaneMovementAndReductionResult_reduces : EReady .V 0#4 vec ∧ MaskIs vec 1 0#128 ∧ LanesAre vec 0#128 31 (fun _ => 0#64) ∧
    (typeOf 2#3).isInt = true := by
  refine ⟨vec_ready.1, vec_ready.2.2.2.1, fun i _ h => by simp at h, by decide⟩

theorem test_hyps_SamplingResult : EReady .V 0#4 vec ∧ (∀ i < 128, vec.tile.getV 0 i = gloved 0#64) ∧ 0#4 ≠ 15#4 ∧
    vec.tile.getS 12 = gloved 0#64 ∧ vec.tile.getS 13 = gloved 0#64 ∧ vec.tile.getS 14 = gloved 0#64 ∧ vec.tile.getS 15 = gloved 0#64 :=
  ⟨vec_ready.1, vec_ready.2.2.2.2.2, by decide, by decide +kernel⟩

theorem test_hyps_VectorScratchpadResult : EReady .V 0#4 vec ∧ NoRange .V vec ∧ MaskIs vec 0 (BitVec.allOnes 128) ∧
    vec.tile.getS 1 = gloved 0x1FFC00#64 ∧ spadPlace vec.cur (sbase 0x1FFC00#64 0) = .own 0x1FFC00 ∧
    vec.bankFmt vec.cur 0x1FFC00 = typeOf 0#3 ∧ LanesAre vec (BitVec.allOnes 128) 31 (fun _ => 0#64) ∧
    vec.tile.getS 2 = gloved 0x400#64 ∧ spadPlace vec.cur (sbase 0x400#64 (31 * 8)) = .own 0x4F8 ∧ vec.bankFmt vec.cur 0x4F8 = .raw :=
  ⟨vec_ready.1, vec_ready.2.1, vec_ready.2.2.1, by decide +kernel, by decide +kernel, by decide +kernel, vec_ready.2.2.2.2.1,
    by decide +kernel⟩

/-- The last 512 bytes of bank 31, typed FP32, hold a register of BF16 elements once converted. -/
theorem test_hyps_VectorScratchpadResult_converting : vec.tile.getVcr 0 = gloved 0#64 ∧ rmOfCode (bits (0#64) 2 0) = some .rne ∧
    pairAllowed .fp32 (typeOf 1#3) = true ∧ pairAllowed (typeOf 1#3) .fp32 = true ∧ Fmt.fp32 ≠ typeOf 1#3 ∧
    spadPlace vec.cur (sbase 0x1FFC00#64 (-1 * 1024)) = .own 0x1FF800 ∧ 0x1FF800 + 16 * (64 / (typeOf 1#3).width) * Fmt.fp32.width ≤ 0x200000 ∧
    (∀ a, 0x1FF800 ≤ a → a < 0x1FF800 + 16 * (64 / (typeOf 1#3).width) * Fmt.fp32.width → vec.bankFmt vec.cur a = .fp32) ∧
    (∀ j < 16 * (64 / (typeOf 1#3).width) * Fmt.fp32.width / 8, vec.tile.spad.read (0x1FF800 + 8 * j) = gloved 0#64) := by
  refine ⟨by decide +kernel, by decide, by decide, by decide, by decide, by decide +kernel, by decide, ?_, by decide +kernel⟩
  intro a h1 h2
  have e : a / 65536 % 32 = 31 := by
    have : 16 * (64 / (typeOf 1#3).width) * Fmt.fp32.width = 2048 := by decide
    omega
  have hb : vec.tile.bank 31 = 0#4 := by decide +kernel
  have hc : vec.tileAt vec.cur = vec.tile := rfl
  simp [State.bankFmt, State.spadFmt, Tile.bankOf, hc, e, hb]; decide

/-- Lanes 0 to 127 of an access by V to the page at 0, and to the scratchpad. -/
theorem vec_lands (i : Nat) (h : i < 128) : Lands vec (0x2000#64 + BitVec.ofNat 64 (8 * i)) Rights.load (.hbm (0x2000 + 8 * i) 0 false) ∧
    Lands vec (0x2000#64 + BitVec.ofNat 64 (8 * i)) Rights.store (.hbm (0x2000 + 8 * i) 0 false) ∧
    canonical (0x2000#64 + BitVec.ofNat 64 (8 * i)) = true := by
  have k : ∀ i < 128, inAperture (0x2000#64 + BitVec.ofNat 64 (8 * i)) = false ∧ vec.tile.level = .task ∧ bit (vec.root (vec.cur / 16) vec.tile.side) 0 = true ∧
      tlbFind vec.tile.side (0x2000#64 + BitVec.ofNat 64 (8 * i)).toNat vec.tile.tlb = some (placePage true) ∧
      0x2000 + 8 * i = physOf (placePage true) (0x2000#64 + BitVec.ofNat 64 (8 * i)) ∧ targetOf (0x2000 + 8 * i) = .hbm 0 (0x2000 + 8 * i) ∧
      accessVerdict vec (classSV vec.tile) (vec.cur / 16) (0x2000 + 8 * i) Rights.load = .ok ∧
      accessVerdict vec (classSV vec.tile) (vec.cur / 16) (0x2000 + 8 * i) Rights.store = .ok ∧
      vec.hatrackRegion 0 (0x2000 + 8 * i) = none ∧ canonical (0x2000#64 + BitVec.ofNat 64 (8 * i)) = true := by decide +kernel
  have ra : pageAllows (placePage true) vec.tile.side Rights.load.rd Rights.load.wr Rights.load.fx = true ∧
    pageAllows (placePage true) vec.tile.side Rights.store.rd Rights.store.wr Rights.store.fx = true := by decide +kernel
  obtain ⟨h1, h2, h0, h3, h4, h5, h6, h7, h8, h9⟩ := k i h
  exact ⟨.inr ⟨h1, _, 0, _, .inr ⟨h2, h0, placePage true, h3, rfl, ra.1, h4⟩, h5, h6, by simp [h8]⟩,
    .inr ⟨h1, _, 0, _, .inr ⟨h2, h0, placePage true, h3, rfl, ra.2, h4⟩, h5, h7, by simp [h8]⟩, h9⟩

theorem test_hyps_VectorMemoryMove : EReady .V 0#4 vec ∧ NoRange .V vec ∧ MaskIs vec 0 (BitVec.allOnes 128) ∧
    vec.tile.getS 5 = gloved 0x2000#64 ∧ ((8 * (0x2000#64).toNat : Nat) + 0 * (typeOf 0#3).width : Int) % 2 ^ 67 = 8 * ((0x2000#64).toNat : Int) ∧
    (∀ i < 128, (BitVec.allOnes 128).getLsbD i = true → canonical (0x2000#64 + BitVec.ofNat 64 (8 * i)) = true ∧
      Lands vec (0x2000#64 + BitVec.ofNat 64 (8 * i)) Rights.load (.hbm (0x2000 + 8 * i) 0 false) ∧
      Lands vec (0x2000#64 + BitVec.ofNat 64 (8 * i)) Rights.store (.hbm (0x2000 + 8 * i) 0 false)) ∧
    (Eng.V, vec.tile.eV.pos) ∉ vec.tile.sending :=
  ⟨vec_ready.1, vec_ready.2.1, vec_ready.2.2.1, by decide +kernel, by decide, fun i hi _ => ⟨(vec_lands i hi).2.2, (vec_lands i hi).1, (vec_lands i hi).2.1⟩,
    by decide +kernel⟩

/-- Deferral registers: a region of 128 entries of two words at its last place, empty, at the last slot. -/
def hats : State := vec.setTile { vec.tile with
  vcr := [(1, gloved 0x1FF800#64), (2, gloved 128#64), (3, gloved 1#64), (4, gloved 127#64), (5, gloved 0#64)],
  rq := List.replicate 63 GWord.zero }

theorem test_hyps_DeferralAndReturnResult : EReady .V 0#4 hats ∧ NoRange .V hats ∧ HatIs hats ⟨0x1FF800, 128, 1, 127, 0⟩ ∧
    MaskIs hats 0 (BitVec.allOnes 128) ∧ 15 + 1 ≤ 16 ∧ 0 + (lanesOf (BitVec.allOnes 128)).length ≤ 128 ∧ 14 + 1 + 1 ≤ 16 ∧
    hats.tile.rq.length < 64 ∧ hats.tile.getVcr 5 = gloved 0#64 := by
  refine ⟨by simp only [EReady, EFree]; decide +kernel, noRange_of (by decide +kernel),
    ⟨⟨0x1FF800#64, 128#64, 1#64, 127#64, 0#64, by decide +kernel⟩, by decide⟩, by simp only [MaskIs]; decide +kernel, by decide, by decide +kernel,
    by decide, by decide +kernel⟩

/-- FP32 one, an infinity and a NaN, minus one, and a pair of formats that convert. -/
theorem test_hyps_FloatElementValues : numOf .fp32 0x3F800000 = some 1 ∧ numOf .fp32 0xBF800000 = some (-1) ∧ numOf .fp32 0 = some 0 ∧
    elemValue .fp32 0x7F800000 = .inf false ∧ elemValue .fp32 0xFF800000 = .inf (!false) ∧ elemValue .fp32 0x7FC00000 = .nan ∧
    pairAllowed .fp32 .e4m3 = true ∧ pairAllowed .fp32 .int8 = true ∧ pairAllowed .int8 .fp32 = true ∧ (1 : ℚ) = 2 ^ (0 : Int) := by
  have a : elemValue .fp32 0x3F800000 = .fin false 0x800000 (-23) := by decide +kernel
  have b : elemValue .fp32 0xBF800000 = .fin true 0x800000 (-23) := by decide +kernel
  have c : elemValue .fp32 0 = .fin false 0 (-149) := by decide +kernel
  refine ⟨?_, ?_, ?_, by decide +kernel, by decide +kernel, by decide +kernel, by decide, by decide, by decide, by norm_num⟩ <;>
    simp only [numOf, a, b, c] <;> norm_num

/-! ## Hypotheses that are met: matrix and copy words -/

/-- An M word with no nest, the active rows and columns cut to one, c0 zero, c1 a base of band scales, c2 the least stride. -/
def mat (n : NestTab) : State := ahead fun t =>
  { t with shadow := n, c := [(1, gloved 0x1001FFFF0#64), (2, gloved 0xFFFFFFFFFF800000#64), (3, gloved 3#64)] }

/-- The table at task start with one active row and column. -/
def tab1 : NestTab := { NestTab.reset with nfmt := 0#64 }

theorem mat_ready (n : NestTab) : EReady .M 0#4 (mat n) ∧ NoRange .M (mat n) := by
  have h : EReady .M 0#4 (mat tab1) ∧ (mat tab1).tile.busyRanges ((mat tab1).tile.eng .M).pos = ([], []) := by
    simp only [EReady, EFree]; decide +kernel
  exact ⟨h.1, noRange_of h.2⟩

theorem test_hyps_NestTableAndStartResult : EReady .M 0#4 (mat tab1) ∧ (mat tab1).tile.getC 0 = gloved 0#64 ∧
    (mat tab1).tile.getC 2 = gloved 0xFFFFFFFFFF800000#64 ∧ (mat tab1).tile.getC 3 = gloved 3#64 ∧ (mat tab1).tile.nest = none ∧
    NoRange .M (mat tab1) ∧ (∀ l < 6, tab1.kindOf l = 0 → strideOf tab1.sc l = 0) ∧ tab1.outLevel = none ∧
    (let sa := operandSpan tab1 tab1.sa tab1.abase 12288 3072 tab1.sda
     placeSpan (mat tab1).cur false sa.1 sa.2 = .ok (0, 0, 0)) ∧
    (let sb := operandSpan tab1 tab1.sb tab1.bbase 8192 2048 tab1.sdb
     placeSpan (mat tab1).cur false sb.1 sb.2 = .ok (0, 0, 0)) :=
  ⟨(mat_ready _).1, by decide +kernel, by decide +kernel, by decide +kernel, by decide +kernel, (mat_ready _).2, by decide, by decide,
    by decide +kernel, by decide +kernel⟩

/-- A table that drains at level 0. -/
def tabOut : NestTab := { tab1 with kind := [(0, 1)] }

theorem test_hyps_NestTableAndStartResult_out : EReady .M 0#4 (mat tabOut) ∧ (mat tabOut).tile.nest = none ∧ tabOut.outLevel = some 0 ∧
    (∀ l < 6, tabOut.kindOf l = 0 → strideOf tabOut.sc l = 0) ∧
    (let sc := targetSpan tabOut 0
     placeSpan (mat tabOut).cur true sc.1 sc.2 = .ok (0, 0, 0)) ∧
    (let sa := operandSpan tabOut tabOut.sa tabOut.abase 12288 3072 tabOut.sda
     placeSpan (mat tabOut).cur false sa.1 sa.2 = .ok (0, 0, 0)) ∧
    (∀ o ∈ drainStarts tabOut 0, ∀ r ≤ tabOut.mr, ∀ x < 8 * rowWords tabOut.nc tabOut.cfmt.width,
      (mat tabOut).bankFmt (mat tabOut).cur ((o - 0).toNat + r * 32 * tabOut.cfmt.width + x) = .raw) :=
  ⟨(mat_ready _).1, by decide +kernel, by decide, by decide, by decide +kernel, by decide +kernel,
    fun _ _ _ _ _ _ => (raw_of (by decide +kernel) _).2⟩

/-- A nest of tile 0 at its first visit, over panels at 0 of one row and column; `held` since time 0 or not. -/
def nest (bank0 : BitVec 4) (nf : BitVec 64) (a : BitVec 32) (held : Bool) : State := ahead fun t =>
  { t with
    bfmt := [(0, bank0), (1, 8#4)], active := { tab1 with nfmt := nf, abase := a, bbase := a },
    nest := some ⟨⟨.M, 0, 0x1000#64, 0#32, false, 0⟩, [0, 0, 0, 0, 0, 0], [], [], 0, if held then some 0#64 else none, false⟩ }

/-- The run of `nest`. -/
def nestRun (held : Bool) : NestRun :=
  ⟨⟨.M, 0, 0x1000#64, 0#32, false, 0⟩, [0, 0, 0, 0, 0, 0], [], [], 0, if held then some 0#64 else none, false⟩

theorem panel_of {s : State} {g w : Nat} {f : Nat → Fmt} {lines pitch : Nat} (a : Nat)
    (h : ∀ l < lines, let k := l * pitch * w / 64
      spadPlace g ((a + 8 * k) % 2 ^ 32) = .own (a + 8 * k) ∧ s.bankFmt g (a + 8 * k) = f k ∧ (s.tileAt g).spad.read (a + 8 * k) = gloved 0#64) :
    PanelIs s g a w f lines pitch 1 fun _ => 0#64 := by
  intro l hl e he
  obtain rfl : e = 0 := by omega
  exact ⟨_, by simpa using h l hl⟩

/-- `nest` with the B panel at 0x10000, in bank 1 of E4M3 beside bank 0 of E5M2. -/
def mixed : State :=
  let s := nest 6#4 0#64 0#32 true
  s.setTile { s.tile with bfmt := [(0, 6#4), (1, 5#4)], active := { s.tile.active with bbase := 0x10000#32 } }

theorem test_hyps_NestBodyStepResult : NestAt (nest 1#4 0#64 0#32 false) 0 (nestRun false) ∧
    ((nest 1#4 0#64 0#32 false).tileAt 0).active.outLevel = none ∧
    PanelIs (nest 1#4 0#64 0#32 false) 0 0 16 (fun _ => .bf16) 16 384 1 (fun _ => 0#64) ∧
    PanelIs (nest 1#4 0#64 0#32 false) 0 0 16 (fun _ => .bf16) 16 256 1 (fun _ => 0#64) := by
  refine ⟨by simp only [NestAt]; decide +kernel, by decide +kernel, panel_of 0 (by decide +kernel), panel_of 0 (by decide +kernel)⟩

/-- A of E5M2 and B of E4M3. -/
theorem test_hyps_NestBodyStepResult_mixed : NestAt mixed 0 (nestRun true) ∧
    PanelIs mixed 0 0 8 (fun _ => .e5m2) 32 384 1 (fun _ => 0#64) ∧ PanelIs mixed 0 0x10000 8 (fun _ => .e4m3) 32 256 1 (fun _ => 0#64) ∧
    visitAddr (mixed.tileAt 0).active.bbase (mixed.tileAt 0).active.sb (nestRun true).idx = 0x10000 := by
  refine ⟨by simp only [NestAt]; decide +kernel, panel_of 0 (by decide +kernel), panel_of 0x10000 (by decide +kernel), by decide +kernel⟩

/-- A nest that drains after its one visit, at the last row of the scratchpad. -/
def draining : State :=
  let s := nest 1#4 0#64 0#32 false
  s.setTile { s.tile with active := { s.tile.active with kind := [(0, 1)], cbase := 0x1FFC00#32 } }

theorem test_hyps_NestBodyStepResult_drain : NestAt draining 0 (nestRun false) ∧
    PanelIs draining 0 0 16 (fun _ => .bf16) 16 384 1 (fun _ => 0#64) ∧ PanelIs draining 0 0 16 (fun _ => .bf16) 16 256 1 (fun _ => 0#64) ∧
    (draining.tileAt 0).active.outLevel = some 0 ∧
    (let b := (draining.tileAt 0).active
     spadPlace 0 (visitAddr b.cbase b.sc (nestRun false).idx) = .own 0x1FFC00 ∧ 0x1FFC00 % 8 = 0 ∧
      0x1FFC00 + tileBytes b.mr b.nc b.cfmt.width ≤ 0x200000) := by
  refine ⟨by simp only [NestAt]; decide +kernel, panel_of 0 (by decide +kernel), panel_of 0 (by decide +kernel), by decide +kernel,
    by decide +kernel⟩

/-- Block scales 64 KiB above the panels, in bank 1. -/
theorem test_hyps_NestBodyStepResult_scaled : let s := nest 7#4 0x400040000000000#64 0#32 true
    NestAt s 0 (nestRun true) ∧
    (let b := (s.tileAt 0).active
     (((0 : Int) + b.sda) % 2 ^ 32).toNat = 0x10000 ∧ (((0 : Int) + b.sdb) % 2 ^ 32).toNat = 0x10000) ∧
    (∀ n ∈ [384, 256], PanelIs s 0 0 4 (fun _ => .e2m1) 64 n 1 (fun _ => 0#64)) ∧
    ∀ n ∈ [384, 256], PanelIs s 0 0x10000 8 (fun _ => .e3m5) 8 n 1 (fun _ => 0#64) := by
  have e2 : ∀ n ∈ [384, 256], PanelIs (nest 7#4 0x400040000000000#64 0#32 true) 0 0 4 (fun _ => .e2m1) 64 n 1 (fun _ => 0#64) := fun n hn =>
    panel_of 0 ((by decide +kernel : ∀ n ∈ [384, 256], ∀ l < 64, let k := l * n * 4 / 64
      spadPlace 0 ((0 + 8 * k) % 2 ^ 32) = .own (0 + 8 * k) ∧ (nest 7#4 0x400040000000000#64 0#32 true).bankFmt 0 (0 + 8 * k) = .e2m1 ∧
      ((nest 7#4 0x400040000000000#64 0#32 true).tileAt 0).spad.read (0 + 8 * k) = gloved 0#64) n hn)
  have e3 : ∀ n ∈ [384, 256], PanelIs (nest 7#4 0x400040000000000#64 0#32 true) 0 0x10000 8 (fun _ => .e3m5) 8 n 1 (fun _ => 0#64) := fun n hn =>
    panel_of 0x10000 ((by decide +kernel : ∀ n ∈ [384, 256], ∀ l < 8, let k := l * n * 8 / 64
      spadPlace 0 ((0x10000 + 8 * k) % 2 ^ 32) = .own (0x10000 + 8 * k) ∧
      (nest 7#4 0x400040000000000#64 0#32 true).bankFmt 0 (0x10000 + 8 * k) = .e3m5 ∧
      ((nest 7#4 0x400040000000000#64 0#32 true).tileAt 0).spad.read (0x10000 + 8 * k) = gloved 0#64) n hn)
  exact ⟨by simp only [NestAt]; decide +kernel, by decide +kernel, e2, e3⟩

/-- Operands in the scratchpad of tile 1, whose port table is held. -/
def heldNest : State := (nest 1#4 0#64 0x1200000#32 true).setDieReg 0 0x18 4#64

theorem test_hyps_NestBodyStepResult_timeout : NestAt heldNest 0 (nestRun true) ∧ (heldNest.tileAt 0).late = none ∧
    heldWord 0 (heldNest.tileAt 0).active (nestRun true).idx heldNest = some 0x1200000 := by
  simp only [NestAt]; decide +kernel

/-- `mat` with a queued nwait and an event queue one short of full. -/
def waits : State := (mat tab1).setTile { (mat tab1).tile with
  nwaits := [(⟨.M, 0, 0x1000#64, 0#32, false, 0⟩, 511, 7)], eq := List.replicate 63 ⟨GWord.zero, []⟩ }

theorem test_hyps_DrainLoadWaitResult : EReady .M 0#4 (mat tab1) ∧ (mat tab1).tile.nest = none ∧ NoRange .M (mat tab1) ∧
    (mat tab1).tile.getC 0 = gloved 0#64 ∧ spadPlace (mat tab1).cur 0 = .own 0 ∧ 0 + tileBytes tab1.mr tab1.nc 16 ≤ 0x200000 ∧
    fmtOfCode (1#4).toNat = some .bf16 ∧ tab1.mr ≤ 383 ∧ rmOfCode (4#3).toNat = some .rs ∧ (∀ o, (mat tab1).bankFmt (mat tab1).cur o = .raw) ∧
    (mat tab1).tile.getC 1 = gloved (BitVec.ofNat 64 (2 ^ 32 + 0x1FFFF0)) ∧ 0x1FFFF0 + 16 ≤ 0x200000 ∧
    (mat tab1).tile.spad.read 0x1FFFF0 = gloved 0#64 ∧ (mat tab1).tile.spad.read (0x1FFFF0 + 8) = gloved 0#64 ∧
    (∀ i ≤ tab1.mr, ∀ k < rowWords tab1.nc 16, (mat tab1).tile.spad.read (0 + i * 32 * 16 + 8 * k) = gloved 0#64) :=
  ⟨(mat_ready _).1, by decide +kernel, (mat_ready _).2, by decide +kernel, by decide +kernel, by decide, by decide, by decide, by decide,
    fun o => (raw_of (by decide +kernel) o).2, by decide +kernel, by decide, by decide +kernel, by decide +kernel, by decide +kernel⟩

theorem test_hyps_DrainLoadWaitResult_post : (waits.tileAt 0).nwaits = (⟨.M, 0, 0x1000#64, 0#32, false, 0⟩, 511, 7) :: [] ∧
    (waits.tileAt 0).works = true ∧ (waits.tileAt 0).holds .M = false ∧ (waits.tileAt 0).eq.length < 64 ∧ waits.dmode (0 / 16) = 0 := by
  decide +kernel

/-- A D word: a0 an address of memory, a1 and a2 of scratchpad, a3 on a descriptor of each kind and number of dimensions, with the
three dimensions of dcpn of one row each, and index lists at the end of the scratchpad. -/
def cop : State := ahead fun t =>
  { t with
    a := [(0, gloved 0x2000#64), (1, gloved 0x1FFFF8#64), (2, gloved 0#64), (3, gloved 0x28000000000001#64), (4, gloved 0x402E000000000001#64),
      (5, gloved 0x28000100000001#64), (6, gloved 0x2028000000000001#64)],
    dcr := [(2, gloved 1#64), (5, gloved 1#64), (8, gloved 1#64), (9, gloved 0x1FFFFC#64)] }

theorem cop_ready : EReady .D 0#4 cop ∧ NoRange .D cop ∧ DRoom cop ∧ (∀ o, cop.tile.bankOf o = 15) := by
  have h : EReady .D 0#4 cop ∧ cop.tile.busyRanges (cop.tile.eng .D).pos = ([], []) ∧ DRoom cop := by
    simp only [EReady, EFree, DRoom]; decide +kernel
  exact ⟨h.1, noRange_of h.2.1, h.2.2, fun o => (raw_of (s := cop) (g := 0) (by decide +kernel) o).1⟩

/-- The values of the D control registers of `cop`. -/
def copDcr (k : Nat) : BitVec 64 := if k = 9 then 0x1FFFFC#64 else if k % 3 = 2 then 1#64 else 0#64

theorem test_hyps_CopyIssueResult : EReady .D 0#4 cop ∧ DRoom cop ∧ NoRange .D cop ∧ (∀ o < 0x200000, cop.tile.bankOf o = 15) ∧
    (∀ k < 3 * 3, dcrGet cop.tile.dcr k = gloved (copDcr k)) ∧ cop.tile.getA 0 = gloved 0x2000#64 ∧ cop.tile.getA 1 = gloved 0x1FFFF8#64 ∧
    cop.tile.getA 2 = gloved 0#64 ∧ cop.tile.getA 3 = gloved 0x28000000000001#64 ∧ cop.tile.getA 4 = gloved 0x402E000000000001#64 ∧
    cop.tile.getA 6 = gloved 0x2028000000000001#64 ∧
    DescIs 0x28000000000001#64 0 5 0 0 1 ∧ DescIs 0x402E000000000001#64 2 5 3 0 1 ∧ DescIs 0x2028000000000001#64 1 5 0 0 1 ∧
    SideAt true 0x2000#64 0 0 ∧ SideAt false 0x1FFFF8#64 0x1FFFF8 0x1FFFFF ∧ SideAt false 0#64 0 7 ∧
    (∀ k < 3, 1 ≤ (copDcr (3 * k + 2)).toNat % 2 ^ 17 ∧ signedOf 32 ((copDcr (3 * k)).toNat % 2 ^ 32) % 8 = 0) ∧
    (let dims := (List.range 3).map fun k => ((copDcr (3 * k + 2)).toNat % 2 ^ 17, signedOf 32 ((copDcr (3 * k)).toNat % 2 ^ 32))
     loopSpan 0x1FFFF8 dims = (0x1FFFF8, 0x1FFFF8) ∧ loopSpan 0 dims = (0, 0)) ∧
    meetsAny (sideHold false 0 7) (sideHold false 0x1FFFF8 0x1FFFFF) = false := by
  refine ⟨cop_ready.1, cop_ready.2.2.1, cop_ready.2.1, fun o _ => cop_ready.2.2.2 o, by decide +kernel, ?_⟩
  simp only [DescIs, SideAt]; decide +kernel

theorem test_hyps_CopyIssueResult_indexed : EReady .D 0#4 cop ∧ DRoom cop ∧ NoRange .D cop ∧ (∀ o < 0x200000, cop.tile.bankOf o = 15) ∧
    (∀ k ∈ [0, 1, 2, 9], dcrGet cop.tile.dcr k = gloved (copDcr k)) ∧ cop.tile.getA 5 = gloved 0x28000100000001#64 ∧
    DescIs 0x28000100000001#64 0 5 0 1 1 ∧ DescIs 0x28000000000001#64 0 5 0 0 1 ∧
    (let ix := (copDcr 9).toNat % 2 ^ 32
     ix % 4 = 0 ∧ ix + 4 * 1 ≤ 0x200000 ∧ (∀ k < 1, cop.tile.spad.read ((ix + 4 * k) / 8 * 8) = gloved 0#64) ∧
     (∃ k < 1, elemOf 32 (0#64) ((ix + 4 * k) / 4 % 2) ≠ 0xFFFFFFFF)) ∧
    SideAt true 0x2000#64 0 0x1FFFFF ∧ SideAt false 0x1FFFF8#64 0x1FFFF8 0x1FFFFF ∧ SideAt false 0x1FFFF8#64 0 0x1FFFFF := by
  refine ⟨cop_ready.1, cop_ready.2.2.1, cop_ready.2.1, fun o _ => cop_ready.2.2.2 o, by decide +kernel, ?_⟩
  simp only [DescIs, SideAt]; decide +kernel

/-- A command of tile 0 in flight: one doubleword from memory to the scratchpad's last, or of one scratchpad place to another. -/
def inFlight (k : DKind) (desc aD aA : BitVec 64) (prog : Nat) : State := ahead fun t =>
  { t with
    dcmds := [⟨⟨.D, 0, 0x1000#64, 0#32, false, 0⟩, k, gloved aD, gloved aA, gloved desc, 0x1E1#9, [], none, 0#64, [], [], prog, false,
      false, none, 5, true, 0, 0, [], [], false⟩] }

/-- The command of `inFlight`. -/
def flight (k : DKind) (desc aD aA : BitVec 64) (prog : Nat) : DCmd :=
  ⟨⟨.D, 0, 0x1000#64, 0#32, false, 0⟩, k, gloved aD, gloved aA, gloved desc, 0x1E1#9, [], none, 0#64, [], [], prog, false,
    false, none, 5, true, 0, 0, [], [], false⟩

theorem test_hyps_CopyStepsResult : let s := inFlight (.copy 0) 1#64 0x1FFFF8#64 0x2000#64 0
    let c := flight (.copy 0) 1#64 0x1FFFF8#64 0x2000#64 0
    (s.tileAt 0).works = true ∧ (s.tileAt 0).dcmds[0]? = some c ∧ s.dmode (0 / 16) = 0 ∧ (s.tileAt 0).eq.length < 64 ∧
    (s.tileAt 0).holds .D = false ∧ c.desc.data.toNat % 2 ^ 32 = 1 ∧ c.kindOf ≤ 2 ∧
    DWordAt s 0 c.srcMem c.aA.data Rights.load 0 (.hbm 0x2000 0 false) ∧ DWordAt s 0 c.dstMem c.aD.data Rights.store 0 (.spad 0 0x1FFFF8) ∧
    apart (.hbm 0x2000 0 false) (.spad 0 0x1FFFF8) := by
  refine ⟨by decide +kernel, by decide +kernel, by decide +kernel, by decide +kernel, by decide +kernel, by decide, by decide,
    ⟨0x2000, by decide, dlands_of (by decide +kernel), rfl⟩,
    ⟨by decide, by decide, rfl⟩, trivial⟩

theorem test_hyps_CopyStepsResult_fill : let s := inFlight .fill 0x2000000000000001#64 0x2000#64 7#64 0
    let c := flight .fill 0x2000000000000001#64 0x2000#64 7#64 0
    (s.tileAt 0).works = true ∧ (s.tileAt 0).dcmds[0]? = some c ∧ c.kindOf ≤ 1 ∧
    DWordAt s 0 c.dstMem c.aD.data Rights.store 0 (.hbm 0x2000 0 false) := by
  exact ⟨by decide +kernel, by decide +kernel, by decide,
    ⟨0x2000, by decide, dlands_of (by decide +kernel), rfl⟩⟩

theorem test_hyps_CopyStepsResult_complete : let s := inFlight (.copy 0) 1#64 0x1FFFF8#64 0x2000#64 1
    let c := flight (.copy 0) 1#64 0x1FFFF8#64 0x2000#64 1
    (s.tileAt 0).works = true ∧ (s.tileAt 0).dcmds[0]? = some c ∧ c.kind.moves = true ∧ c.pieces 0 ≤ c.prog ∧ c.badRow 0 = none ∧
    c.toWindow 0 = none ∧ (let d := inFlight (.devt 0) 0#64 0#64 0#64 0
      (d.tileAt 0).works = true ∧ (d.tileAt 0).dcmds[0]? = some (flight (.devt 0) 0#64 0#64 0#64 0)) := by
  decide +kernel

/-! ## Hypotheses that are met: windows, collectives, key-value words and version tables -/

/-- Window 15 bound to tile 0 of this die, as the test asks. -/
def win (st : WinState) (opened : Bool) (broken : List Nat) : Window :=
  ⟨0x10FFF#64, 0#19, 7, true, true, true, 1024, st, 0, 0, 0, opened, 0, 0#64, [], [], [], [], broken, false⟩

/-- A D word with window 15 bound, a grant of the last number in block 1, and the operands of dwin and dkey. -/
def wins (st : WinState) (opened : Bool) (broken : List Nat) (sending : List (Eng × Nat)) : State :=
  let s := ahead fun t =>
    { t with
      wins := [(15, win st opened broken)], sending := sending, a := [(1, gloved 0x10FFF#64), (2, gloved 511#64), (3, gloved 0x81FFFFF8#64)],
      spanWait := if st = .idle ∧ opened then some (15, 0, none) else none }
  (s.setDieReg 0 (0x10000 + 16 * 4095) 0xFC00000100000000#64).setDieReg 0 (0x10000 + 16 * 4095 + 8) 1024#64

theorem test_hyps_WindowWordResult : EReady .D 0#4 (wins .idle false [] []) ∧ (wins .idle false [] []).tile.getA 0 = gloved 0#64 ∧
    (wins .idle false [] []).tile.getA 1 = gloved 0x10FFF#64 ∧ (wins .idle false [] []).tile.win? 15 = some (win .idle false []) ∧
    (win .idle false []).outq = [] ∧ (win .idle false []).awaits = [] ∧ (0x10FFF#64).toNat % 65536 < 4096 ∧
    (let e0 := (wins .idle false [] []).dieReg 0 (0x10000 + 16 * ((0x10FFF#64).toNat % 65536))
     bit e0 63 = true ∧ bits e0 47 32 = (0x10FFF#64).toNat / 65536 ∧ bit e0 (if (wins .idle false [] []).tile.side = true then 62 else 61) = true) ∧
    bits ((wins .idle false [] []).dieReg 0 (0x10000 + 16 * ((0x10FFF#64).toNat % 65536) + 8)) 10 0 = 1024 := by
  simp only [EReady, EFree]; decide +kernel

theorem test_hyps_WindowWordResult_span : EReady .D 0#4 (wins .idle true [] []) ∧
    (wins .idle true [] []).tile.win? 15 = some (win .idle true []) ∧
    (wins .idle true [] []).ftb.toNat < ((win .idle true []).spanAt + 200#64).toNat ∧
    (0#64).toNat ≤ (wins .idle false [] []).ftb.toNat ∧ (wins .idle true [] []).tile.spanOf 15 = some none ∧ (wins .broken true [255, 0] []).tile.spanOf 15 = none ∧
    EReady .D 0#4 (wins .broken true [255, 0] []) ∧ (wins .broken true [255, 0] []).tile.win? 15 = some (win .broken true [255, 0]) ∧
    (∀ p ∈ (win .broken true [255, 0]).injected, p.1 ≠ 255) := by
  simp only [EReady, EFree]; decide +kernel

theorem test_hyps_WindowWordResult_key : EReady .D 0#4 (wins .open true [] []) ∧ (wins .open true [] []).tile.win? 15 = some (win .open true []) ∧
    (win .open true []).scount ≤ 8388607 ∧ (wins .open true [] []).tile.dcmds.length < 64 ∧ (wins .open true [] []).tile.getA 2 = gloved 511#64 ∧
    (wins .open true [] []).tile.getA 3 = gloved 0x81FFFFF8#64 ∧ (0x81FFFFF8#64).toNat % 2 ^ 32 - (0x80000000 + 0x200000 * 15) < 0x200000 ∧
    0x80000000 + 0x200000 * 15 ≤ (0x81FFFFF8#64).toNat % 2 ^ 32 ∧ (Eng.D, (wins .open true [] []).tile.eD.pos) ∉ (wins .open true [] []).tile.sending ∧
    EReady .D 0#4 (wins .open true [] [(.D, 0)]) ∧ (Eng.D, (wins .open true [] [(.D, 0)]).tile.eD.pos) ∈ (wins .open true [] [(.D, 0)]).tile.sending ∧
    (∀ q ∈ (wins .open true [] [(.D, 0)]).tile.wins, q.2.outq = []) ∧
    (wins .open true [] []).tile.counted (wins .open true [] []).cur 15 = true ∧
    (∀ c ∈ (wins .idle false [] []).tile.dcmds, c.unissued (wins .idle false [] []).cur 15 = false) := by
  simp only [EReady, EFree]; decide +kernel

/-- The run of a word of tile 0 on communicator 63. -/
def collRun (kind : Nat) : CollRun := ⟨0, 0, kind, 1, 0, 1, 0, [], [], [], [], [], 0, false, none⟩

/-- A valid communicator of two positions, this one 0, with both neighbours die 0 itself. -/
def comm63 (kind : Nat) : Comm := ⟨true, 2, 0, 0#15, 0#15, 4, true, true, 0, [], some (collRun kind), []⟩

/-- A D word on a busy communicator, with descriptors of a broadcast and of a reduction whose operands end at the scratchpad's end. -/
def coll : State :=
  let s := ahead fun t =>
    { t with a := [(1, gloved 0x1FFFF0#64), (2, gloved 0x1FFFF8#64), (3, gloved 0xFFFE000020000001#64), (4, gloved 0xFFFFFC0000000002#64),
        (5, gloved 0x1FFE00#64), (6, gloved 0#64)] }
  s.setComm 0 63 (comm63 4)

theorem test_hyps_CollectiveWordResult : EReady .D 0#4 coll ∧ NoRange .D coll ∧ coll.tile.dcmds.length < 64 ∧
    coll.tile.getA 3 = gloved 0xFFFE000020000001#64 ∧ coll.tile.getA 1 = gloved 0x1FFFF0#64 ∧ coll.tile.getA 2 = gloved 0x1FFFF8#64 ∧
    (0xFFFE000020000001#64).toNat = 63 * 2 ^ 58 + 511 * 2 ^ 49 + 0 * 2 ^ 41 + 1 * 2 ^ 29 + 1 ∧
    (coll.commAt 0 63).run = some (collRun 4) ∧ (collRun 4).done.length < (coll.commAt 0 63).p ∧
    CollLegal coll 4 63 1 0 1 0x1FFFF0 0x1FFFF8 ∧ coll.tile.getA 4 = gloved 0xFFFFFC0000000002#64 ∧
    (0xFFFFFC0000000002#64).toNat = 63 * 2 ^ 58 + 511 * 2 ^ 49 + 254 * 2 ^ 41 + 0 * 2 ^ 29 + 2 ∧
    coll.tile.getA 5 = gloved 0x1FFE00#64 ∧ coll.tile.getA 6 = gloved 0#64 ∧ CollLegal coll 0 63 2 254 0 0x1FFE00 0 := by
  have r : ∀ o < 0x200000, coll.tile.bankOf o = 15 := fun o _ => (raw_of (s := coll) (g := 0) (by decide +kernel) o).1
  refine ⟨by simp only [EReady, EFree]; decide +kernel, noRange_of (by decide +kernel), by decide +kernel, by decide +kernel, by decide +kernel,
    by decide +kernel, by decide, by decide +kernel, by decide +kernel, ?_, by decide +kernel, by decide, by decide +kernel, by decide +kernel, ?_⟩
  · exact ⟨by decide +kernel, by decide +kernel, by decide, by decide +kernel, by decide, by decide, by decide +kernel, by decide, by decide, r,
      by decide, by decide +kernel, by decide +kernel⟩
  · exact ⟨by decide +kernel, by decide +kernel, by decide, by decide +kernel, by decide +kernel, by decide, by decide, by decide, by decide, r,
      by decide, by decide +kernel, by decide +kernel⟩

/-- A packet of one word of the broadcast of communicator 63, in one of its two passes, at its destination. -/
def collPkt (phase : Nat) : CollPkt := ⟨63, 4, 1, 0, 1, 0, phase, 1, 0, [], [gloved 9#64], false⟩

/-- The state at its arrival: tile 0 holds the word's command. -/
def collState (phase : Nat) : State :=
  let s := (ahead fun t =>
    { t with
      dcmds := [⟨⟨.D, 0, 0x1000#64, 0#32, false, 0⟩, .coll 4, gloved 0x1FFFF8#64, gloved 0#64, gloved 0#64, 0#9, [], none, 0#64, [], [], 0, false,
        false, none, 511, true, 0, 0, [], [], false⟩] }).setComm 0 63 (comm63 4)
  { s with net := [⟨4, 0, 0, 0, 0#20, false, none, .coll (collPkt phase)⟩] }

theorem test_hyps_CollectiveWordResult_arrival : ∀ f ∈ [0, 1], let s := collState f
    let q := collPkt f
    s.arrived 0 = some ⟨4, 0, 0, 0, 0#20, false, none, .coll q⟩ ∧ s.commAt 0 63 = comm63 4 ∧ (comm63 4).queue = [] ∧
    s.dieId 0 = (comm63 4).prev.toNat ∧ differs (collRun 4) q = false ∧ (collRun 4).done = [] ∧ (collRun 4).kept = none ∧
    s.dmode (0 / 16) = 0 ∧ (s.tileAt 0).cut = none ∧ ((s.tileAt 0).collCmd 0).isSome = true ∧ q.phase = f ∧ q.stage ≠ 0 ∧
    0x1FFFF8 % 2 ^ 32 < 0x200000 ∧ (s.tileAt 0).eq.length < 64 ∧ (s.tileAt 0).holds .D = false ∧
    (∀ x ∈ (s.tileAt 0).dcmds, x.ended = false ∧ x.ev = true) ∧
    q.words = (List.range q.words.length).map (fun _ => gloved 9#64) := by
  decide +kernel

/-- The same D word where the communicator is idle. -/
def idle63 : State := coll.setComm 0 63 { comm63 4 with run := none }

theorem test_hyps_CollectiveWordResult_idle : EReady .D 0#4 idle63 ∧ NoRange .D idle63 ∧ idle63.tile.cut = none ∧ idle63.cur < 384 ∧
    (∀ x ∈ idle63.tile.dcmds, x.ref.idx ≠ idle63.tile.eD.pos) ∧ (idle63.commAt 0 63).run = none ∧ (idle63.commAt 0 63).queue = [] ∧
    (idle63.commAt 0 63).early = [] ∧ idle63.tile.getA 3 = gloved 0xFFFE000020000001#64 ∧ idle63.tile.getA 4 = gloved 0xFFFFFC0000000002#64 ∧
    CollLegal idle63 4 63 1 0 1 0x1FFFF0 0x1FFFF8 ∧ CollLegal idle63 0 63 2 254 0 0x1FFE00 0 ∧
    ∀ j, idle63.tile.spad.read (0x1FFE00 + 8 * j) = gloved 0#64 := by
  have r : ∀ o < 0x200000, idle63.tile.bankOf o = 15 := fun o _ => (raw_of (s := idle63) (g := 0) (by decide +kernel) o).1
  have z : idle63.tile.spad = Mem.empty := by decide +kernel
  have k : idle63.tile.cut = none ∧ idle63.cur < 384 ∧ (∀ x ∈ idle63.tile.dcmds, x.ref.idx ≠ idle63.tile.eD.pos) ∧
      (idle63.commAt 0 63).run = none ∧ (idle63.commAt 0 63).queue = [] ∧ (idle63.commAt 0 63).early = [] ∧
      idle63.tile.getA 3 = gloved 0xFFFE000020000001#64 ∧ idle63.tile.getA 4 = gloved 0xFFFFFC0000000002#64 := by decide +kernel
  have l : (idle63.commAt 0 63).valid = true ∧ (if idle63.tile.side = true then (idle63.commAt 0 63).learner else (idle63.commAt 0 63).actor) = true ∧
      (idle63.commAt 0 63).p = 2 := by decide +kernel
  obtain ⟨k1, k2, k3, k4, k5, k6, k7, k8⟩ := k
  refine ⟨by simp only [EReady, EFree]; decide +kernel, noRange_of (by decide +kernel), k1, k2, k3, k4, k5, k6, k7, k8, ?_, ?_, fun j => by rw [z]; exact empty_read _⟩
  · exact ⟨l.1, l.2.1, by decide, by rw [show idle63.cur / 16 = 0 by decide +kernel, l.2.2]; decide, by decide, by decide,
      by rw [show idle63.cur / 16 = 0 by decide +kernel, l.2.2]; decide, by decide, by decide, r, by decide +kernel⟩
  · exact ⟨l.1, l.2.1, by decide, by rw [show idle63.cur / 16 = 0 by decide +kernel, l.2.2]; decide,
      by rw [show idle63.cur / 16 = 0 by decide +kernel, l.2.2]; decide, by decide, by decide, by decide, by decide, r, by decide +kernel⟩

/-- The word that tile 0 runs on communicator 63 as position `pos` of two: a kind, CNT, and SCODE 127 for a reduction. -/
def heardRun (kind cnt : Nat) (done : List Nat) : CollRun := ⟨0, 0, kind, cnt, if kind = 0 ∨ kind = 2 then 127 else 0, 0, 0, [], done, [], [], [], 0, false, none⟩

/-- A packet of that word. -/
def heardPkt (kind cnt phase chunk : Nat) (items : List Nat) (ws : List (BitVec 64)) : CollPkt :=
  ⟨63, kind, cnt, if kind = 0 ∨ kind = 2 then 127 else 0, 0, 0, phase, 1, chunk, items, ws.map gloved, false⟩

/-- The command of that word: source 0x1000, destination 0x8000. -/
def heardCmd (kind : Nat) : DCmd :=
  ⟨⟨.D, 0, 0x1000#64, 0#32, false, 0⟩, .coll kind, gloved 0x8000#64, gloved 0x1000#64, gloved 0#64, 0#9, [], none, 0#64, [], [], 0, false,
    false, none, 511, true, 0, 0, [], [], false⟩

/-- The state at the packet's arrival. -/
def heard (kind cnt pos : Nat) (done : List Nat) (q : CollPkt) : State :=
  let s := (ahead fun t => { t with dcmds := [heardCmd kind] }).setComm 0 63 { comm63 kind with pos := pos, run := some (heardRun kind cnt done) }
  { s with net := [⟨4, 0, 0, 0, 0#20, false, none, .coll q⟩] }

/-- One packed block of zero codes under SCODE 127. -/
def zeroBlock : List (BitVec 64) := [0#64, 0#64, 0#64, 0#64, 127#64] ++ List.replicate 12 0#64

/-- The arrivals that the statements tell apart: kind, CNT, position, finished chunks, phase, chunk, items and words. -/
def arrivals63 : List (Nat × Nat × Nat × List Nat × Nat × Nat × List Nat × List (BitVec 64)) :=
  [(1, 1, 0, [], 0, 1, [], [9#64]), (1, 1, 0, [0], 1, 1, [], []), (3, 1, 0, [], 0, 0, [], [9#64]), (3, 1, 1, [], 0, 0, [], [9#64])] ++
  [(3, 1, 0, [], 2, 0, [], [9#64]), (3, 1, 0, [], 3, 0, [], [9#64]), (0, 2, 0, [], 0, 1, [1], zeroBlock)] ++
  [(0, 2, 0, [], 0, 0, [0], zeroBlock), (2, 2, 0, [], 0, 0, [0], zeroBlock), (0, 2, 0, [], 2, 1, [], [])] ++
  [(2, 2, 0, [], 2, 1, [], List.replicate 17 0#64), (2, 2, 0, [], 3, 1, [], []), (2, 2, 0, [0], 3, 1, [], [])]

theorem test_hyps_CollectiveReductionResult : ∀ x ∈ arrivals63,
    let q := heardPkt x.1 x.2.1 x.2.2.2.2.1 x.2.2.2.2.2.1 x.2.2.2.2.2.2.1 x.2.2.2.2.2.2.2
    let s := heard x.1 x.2.1 x.2.2.1 x.2.2.2.1 q
    CollHears s 0 ⟨4, 0, 0, 0, 0#20, false, none, .coll q⟩ q (heardRun x.1 x.2.1 x.2.2.2.1) (heardCmd x.1) x.2.2.2.2.2.2.2 ∧
    CollRoom (s.tileAt 0) (heardCmd x.1) ∧ ∀ j, (s.tileAt 0).spad.read (0x1000 + 8 * j) = gloved 0#64 := by
  have k : ∀ x ∈ arrivals63,
      let q := heardPkt x.1 x.2.1 x.2.2.2.2.1 x.2.2.2.2.2.1 x.2.2.2.2.2.2.1 x.2.2.2.2.2.2.2
      let s := heard x.1 x.2.1 x.2.2.1 x.2.2.2.1 q
      CollHears s 0 ⟨4, 0, 0, 0, 0#20, false, none, .coll q⟩ q (heardRun x.1 x.2.1 x.2.2.2.1) (heardCmd x.1) x.2.2.2.2.2.2.2 ∧
      CollRoom (s.tileAt 0) (heardCmd x.1) ∧ (s.tileAt 0).spad = Mem.empty := by
    simp only [CollHears, CollRoom]; decide +kernel
  intro x hx
  obtain ⟨a, b, c⟩ := k x hx
  exact ⟨a, b, fun j => by rw [c]; exact empty_read _⟩

theorem test_hyps_CollectiveReductionResult_block : PackIs [⟨List.replicate 32 0, 127, 0⟩] zeroBlock ∧ (heardRun 0 2 []).flags = [] ∧
    (0x1000 + 128 * 2 ≤ 0x8000) ∧ mapGet (heardRun 0 2 []).scode (heardRun 0 2 []).scales 0 ≤ 254 := by
  simp only [PackIs]; decide +kernel

/-! ### Memory that D and the pools read -/

/-- Operands of the key-value words: a record at 0x2000, another at 0x2040, scratchpad operands at the end, descriptors with L 0, L an
offset of 272 bytes from the end, and L an offset of 16 bytes from the end. -/
def kvs : State := ahead fun t =>
  { t with
    a := [(1, gloved 0x2000#64), (2, gloved 0x2040#64), (3, gloved 0xFF8000000000000#64), (4, gloved 0xFF80000001FFEF0#64),
      (5, gloved 0xFF80000001FFFF0#64), (6, gloved 0x1FFFF8#64), (7, gloved 0x1FF000#64), (8, gloved 0x1000001FFFE8#64)] }

theorem test_hyps_KeyValueIssueResult : EReady .D 0#4 kvs ∧ DRoom kvs ∧ NoRange .D kvs ∧ (∀ o < 0x200000, kvs.tile.bankOf o = 15) ∧
    (∀ c ∈ kvs.tile.dcmds, c.ref.idx ≠ kvs.tile.eD.pos) ∧ kvs.tile.getA 1 = gloved 0x2000#64 ∧ kvs.tile.getA 2 = gloved 0x2040#64 ∧
    (0xFF8000000000000#64).toNat = 511 * 2 ^ 51 + 0 ∧ (0xFF80000001FFEF0#64).toNat = 511 * 2 ^ 51 + 0x1FFEF0 ∧ 0x1FFEF0 + 272 ≤ 0x200000 ∧
    (0xFF80000001FFFF0#64).toNat = 511 * 2 ^ 51 + 0x1FFFF0 ∧ 0x1FFFF0 + 16 ≤ 0x200000 ∧
    (0x1FFFF8#64).toNat % 2 ^ 32 + 8 ≤ 0x200000 ∧ (0x1FF000#64).toNat % 2 ^ 32 + 4096 ≤ 0x200000 ∧
    DLands kvs 0 0x2000#64 Rights.load 0x2000 ∧ DLands kvs 0 0x2000#64 Rights.amo 0x2000 ∧ DLands kvs 0 0x2040#64 Rights.amo 0x2040 ∧
    DLands kvs 0 0x2040#64 Rights.load 0x2040 := by
  refine ⟨by simp only [EReady, EFree]; decide +kernel, by simp only [DRoom]; decide +kernel, noRange_of (by decide +kernel),
    fun o _ => (raw_of (s := kvs) (g := 0) (by decide +kernel) o).1, by decide +kernel, by decide +kernel, by decide +kernel, by decide, by decide,
    by decide, by decide, by decide, by decide, by decide, dlands_of (by decide +kernel), dlands_of (by decide +kernel), dlands_of (by decide +kernel),
    dlands_of (by decide +kernel)⟩

/-- A pool 0x900 of die 0 (pool 9), its header at 0x3000 and descriptors at 0x3100; a record at 0x2000 with one page, page 3, of which
CLEN 5 and WLEN 16 slots; an empty bucket at 0x2080 and a key at the end of the scratchpad. -/
def pool (op : Nat) (desc aA aD : BitVec 64) : State :=
  let s := (ahead fun t =>
    { t with
      spad := t.spad.write 0x1FFFF0 (gloved 7#64),
      dcmds := [⟨⟨.D, 0, 0x1000#64, 0#32, false, 0⟩, .kv op false, gloved aD, gloved aA, gloved desc, 0#9, [], none, 0#64, [], [], 0, false,
        false, none, 5, true, 0, 0, [], [], false⟩] }).setDieReg 0 (0x2000 + 8 * 9) 0x3001#64
  { s with mem := (((((((((s.mem.write 0x2000 (gloved 0x2100#64)).write 0x2008 (gloved 0x100000900#64)).write 0x2010
      (gloved 0x1000000005#64)).write 0x2018 (gloved 1#64)).write 0x2100 (gloved 3#64)).write 0x3000 (gloved 0x3100#64)).write 0x3010
      (gloved 0x10000000000#64)).write 0x3160 (gloved 0#64))) }

/-- The command of `pool`. -/
def kvCmd (op : Nat) (desc aA aD : BitVec 64) : DCmd :=
  ⟨⟨.D, 0, 0x1000#64, 0#32, false, 0⟩, .kv op false, gloved aD, gloved aA, gloved desc, 0#9, [], none, 0#64, [], [], 0, false,
    false, none, 5, true, 0, 0, [], [], false⟩

theorem pool_seq (op : Nat) (desc aA aD : BitVec 64) :
    SeqAt (pool op desc aA aD) 0 0x2000#64 0x2100#64 0x900 1 5 16 1 0 (fun _ => 3) := by
  have k : ∀ p ∈ [((0x2000#64 : BitVec 64), 0x2000, (0x2100#64 : BitVec 64)), (0x2008#64, 0x2008, 0x100000900#64),
      (0x2010#64, 0x2010, 0x1000000005#64), (0x2018#64, 0x2018, 1#64), (0x2100#64, 0x2100, 3#64)],
      DOpen (pool 0 0#64 0#64 0#64) p.1 Rights.load p.2.1 ∧ (pool 0 0#64 0#64 0#64).mem.read p.2.1 = gloved p.2.2 := by decide +kernel
  have r : ∀ p ∈ [((0x2000#64 : BitVec 64), 0x2000, (0x2100#64 : BitVec 64)), (0x2008#64, 0x2008, 0x100000900#64),
      (0x2010#64, 0x2010, 0x1000000005#64), (0x2018#64, 0x2018, 1#64), (0x2100#64, 0x2100, 3#64)],
      VReads (pool op desc aA aD) 0 p.1 p.2.2 := fun p hp => ⟨p.2.1, dlands_of (k p hp).1, (k p hp).2⟩
  refine ⟨r (0x2000#64, 0x2000, 0x2100#64) (by simp), by decide, r (0x2008#64, 0x2008, 0x100000900#64) (by simp), by decide, by decide,
    r (0x2010#64, 0x2010, 0x1000000005#64) (by simp), by decide, r (0x2018#64, 0x2018, 1#64) (by simp), ?_⟩
  intro p hp
  obtain rfl : p = 0 := by omega
  exact ⟨3#64, r (0x2100#64, 0x2100, 3#64) (by simp), by decide⟩

theorem pool_clean (op n : Nat) (desc aA aD : BitVec 64) (hn : n ≤ 1) :
    PoolClean (pool op desc aA aD) 0 0x900 0x3000 n 0x3100#64 (fun _ => 3) := by
  have k : ∀ p ∈ [(0x3000, (0x3100#64 : BitVec 64)), (0x3008, 0#64), (0x3010, 0x10000000000#64), (0x3160, 0#64), (0x3168, 0#64), (0x3170, 0#64)],
      targetOf p.1 = .hbm 0 p.1 ∧ accessVerdict (pool 0 0#64 0#64 0#64) (classD ((pool 0 0#64 0#64 0#64).tileAt 0)) 0 p.1 Rights.load = .ok ∧
      (pool 0 0#64 0#64 0#64).mem.read p.1 = gloved p.2 := by decide +kernel
  have r : ∀ p ∈ [(0x3000, (0x3100#64 : BitVec 64)), (0x3008, 0#64), (0x3010, 0x10000000000#64), (0x3160, 0#64), (0x3168, 0#64), (0x3170, 0#64)],
      PReads (pool op desc aA aD) 0 0 p.1 p.2 := fun p hp => ⟨⟨0, p.1, (k p hp).1⟩, (k p hp).2.1, (k p hp).2.2⟩
  have e : (pool 0 0#64 0#64 0#64).dieReg 0 (0x2000 + 8 * 9) = BitVec.ofNat 64 (0x3000 + 1) ∧ (pool 0 0#64 0#64 0#64).damageOf 0 9 = [] := by
    decide +kernel
  refine ⟨by decide, by decide, by decide, by decide, by decide, e.1, r (0x3000, 0x3100#64) (by simp),
    ⟨0#64, 0x10000000000#64, r (0x3008, 0#64) (by simp), r (0x3010, 0x10000000000#64) (by simp), by decide⟩, e.2, ?_⟩
  intro p hp
  obtain rfl : p = 0 := by omega
  exact ⟨0#64, 0#64, 0#64, r (0x3160, 0#64) (by simp), r (0x3168, 0#64) (by simp), r (0x3170, 0#64) (by simp), by decide⟩

/-- What a first step asks of a tile with one command, as one evaluation settles it. -/
abbrev First (s : State) (c : DCmd) : Prop :=
  (s.tileAt 0).works = true ∧ (s.tileAt 0).dcmds[0]? = some c ∧ c.faulted = false ∧ c.ended = false ∧ c.prog = 0 ∧ c.idx = [] ∧
  (s.tileAt 0).eq.length < 64 ∧ (s.tileAt 0).holds .D = false ∧ s.dmode (0 / 16) = 0 ∧ (s.tileAt 0).eD.pos = c.ref.idx

theorem first_of {s : State} {c : DCmd} (h : First s c) : KvFirst s 0 0 c := by
  obtain ⟨a, b, d, e, f, k, r⟩ := h
  exact ⟨a, b, d, e, f, k, fun n hn => absurd hn (Nat.not_lt_zero n), r⟩

theorem test_hyps_KeyValueStepResult :
    (∀ p ∈ [(0, (15#64 : BitVec 64), (0x1FFFF8#64 : BitVec 64)), (0, 16#64, 0x1FFFF8#64), (4, 5#64, 0#64), (5, 17#64, 0#64)],
      KvFirst (pool p.1 p.2.1 0x2000#64 p.2.2) 0 0 (kvCmd p.1 p.2.1 0x2000#64 p.2.2) ∧
      SeqAt (pool p.1 p.2.1 0x2000#64 p.2.2) 0 0x2000#64 0x2100#64 0x900 1 5 16 1 0 (fun _ => 3)) ∧
    PoolClean (pool 0 15#64 0x2000#64 0x1FFFF8#64) 0 0x900 0x3000 ((16 + 15) / 16) 0x3100#64 (fun _ => 3) ∧
    DLands (pool 4 5#64 0x2000#64 0#64) 0 0x2010#64 Rights.store 0x2010 := by
  have k : ∀ p ∈ [(0, (15#64 : BitVec 64), (0x1FFFF8#64 : BitVec 64)), (0, 16#64, 0x1FFFF8#64), (4, 5#64, 0#64), (5, 17#64, 0#64)],
      First (pool p.1 p.2.1 0x2000#64 p.2.2) (kvCmd p.1 p.2.1 0x2000#64 p.2.2) := by decide +kernel
  exact ⟨fun p hp => ⟨first_of (k p hp), pool_seq _ _ _ _⟩, pool_clean _ _ _ _ _ (by decide), dlands_of (by decide +kernel)⟩

theorem test_hyps_KeyValueStepResult_ins : let s := pool 6 0x1FFFF0#64 0x2080#64 0x2000#64
    KvFirst s 0 0 (kvCmd 6 0x1FFFF0#64 0x2080#64 0x2000#64) ∧ SeqAt s 0 0x2000#64 0x2100#64 0x900 1 5 16 1 0 (fun _ => 3) ∧
    PoolClean s 0 0x900 0x3000 0 0x3100#64 (fun _ => 3) ∧ (s.tileAt 0).spad.read 0x1FFFF0 = gloved 7#64 ∧ VReads s 0 0x2080#64 0#64 ∧
    (∀ k < 3, DLands s 0 (0x2080#64 + BitVec.ofNat 64 (8 * k)) Rights.store (0x2080 + 8 * k)) := by
  refine ⟨first_of (by decide +kernel), pool_seq _ _ _ _, pool_clean _ _ _ _ _ (by decide), by decide +kernel,
    ⟨0x2080, dlands_of (by decide +kernel), by decide +kernel⟩, ?_⟩
  intro k hk
  obtain rfl | rfl | rfl : k = 0 ∨ k = 1 ∨ k = 2 := by omega
  all_goals exact dlands_of (by decide +kernel)

/-! ### Steps that write pages: a record at 0x40 of one page, page 0, its list at 0x80; an empty record at 0xC0, its list at 0xE0; the pool's
header at 0x100, its stack at 0x180 with page 1 on top, its descriptors at 0x200; data at 0x1000 and 0x2000, caps at 0x800 and 0xA00 -/

/-- The command of such a step. -/
def pageCmd (op : Nat) (mode : Bool) (desc aD : BitVec 64) : DCmd := { kvCmd op desc 0x40#64 aD with kind := .kv op mode }

/-- The package with that command, WLEN `wlen`, REF `ref` of page 0, and a stack of `top` entries; a selection block of `w0`, LEN all ones unless `w0`
is 0, at the end of the scratchpad. -/
def paged (op : Nat) (mode : Bool) (desc aD : BitVec 64) (wlen ref top : Nat) (w0 : BitVec 64) : State :=
  let s := (ahead fun t =>
    { t with
      spad := (t.spad.write 0x1FFEF0 (gloved w0)).write 0x1FFEF8 (gloved (if w0 = 0#64 then 0#64 else 0xFFFFFFFF00000000#64)), dcmds := [pageCmd op mode desc aD] }).setDieReg 0
        (0x2000 + 8 * 9) 0x101#64
  let at' := fun (m : Mem) (a v : Nat) => m.write a (gloved (BitVec.ofNat 64 v))
  let record := fun (m : Mem) (a list w n : Nat) => at' (at' (at' (at' m a list) (a + 8) (0x900 + 4 * 2 ^ 32)) (a + 16) w) (a + 24) n
  let page := fun (m : Mem) (x pb cb w : Nat) => at' (at' (at' m (0x200 + 32 * x) pb) (0x208 + 32 * x) cb) (0x210 + 32 * x) w
  let head := fun (m : Mem) => at' (at' (at' (at' m 0x100 0x200) 0x108 0x180) 0x110 (2 + 2 ^ 32 + 2 ^ 40)) 0x118 top
  { s with mem := page (page (at' (head (record (record s.mem 0x40 0x80 (wlen * 2 ^ 32) 1) 0xC0 0xE0 0 0)) 0x180 1) 0 0x1000 0x800
      (ref + wlen * 2 ^ 32)) 1 0x2000 0xA00 0 }

/-- A doubleword of program memory that one evaluation finds open. -/
abbrev VFree (s : State) (va v : BitVec 64) (pa : Nat) : Prop :=
  DOpen s va Rights.load pa ∧ DOpen s va Rights.store pa ∧ s.mem.read pa = gloved v

theorem vword_of {s : State} {va v : BitVec 64} {pa : Nat} (h : VFree s va v pa) : VWord s 0 va v pa := ⟨dlands_of h.1, dlands_of h.2.1, h.2.2⟩

/-- A doubleword of a pool that one evaluation finds open. -/
abbrev PFree (s : State) (pa : Nat) : Prop :=
  targetOf pa = .hbm 0 pa ∧ accessVerdict s (classD (s.tileAt 0)) 0 pa Rights.load = .ok ∧
  accessVerdict s (classD (s.tileAt 0)) 0 pa Rights.store = .ok

theorem pword_of {s : State} {pa : Nat} {v : BitVec 64} (h : PFree s pa ∧ s.mem.read pa = gloved v) : PWord s 0 0 pa v :=
  ⟨⟨⟨0, pa, h.1.1⟩, h.1.2.1, h.1.2.2⟩, h.2⟩

/-- The pages below 0x3000 take D's reads and writes. -/
abbrev Pages (s : State) : Prop :=
  ∀ i < 3, accessVerdict s (classD (s.tileAt 0)) 0 (i * 4096) Rights.load = .ok ∧ accessVerdict s (classD (s.tileAt 0)) 0 (i * 4096) Rights.store = .ok

theorem open_of {s : State} (h : Pages s) {l : List Nat} (hl : ∀ a ∈ l, a < 0x3000) : ∀ a ∈ l, POpen s 0 0 a := by
  intro k hk
  have b := hl k hk
  refine ⟨⟨0, k, target_low (by omega)⟩, ?_, ?_⟩ <;> rw [verdict_page _ _ _ _ (by omega)]
  · exact (h _ (by omega)).1
  · exact (h _ (by omega)).2

/-- The number of the zone that a doubleword's number lies in. -/
def zone (t : List (Nat × Nat)) (w : Nat) : Nat := ((t.find? fun p => decide (w < p.1)).map (·.2)).getD 99

theorem asunder_of (t : List (Nat × Nat)) {l : List (List Nat)}
    (h : (l.zipIdx.all fun p => p.1.all fun x => zone t (x / 8) == p.2) = true) : Asunder l := by
  have k : ∀ i, (hi : i < l.length) → ∀ x ∈ l[i], zone t (x / 8) = i := fun i hi x hx => by
    have a := List.all_eq_true.mp h (l[i], i) (List.mem_zipIdx_iff_getElem?.mpr (by simp [hi]))
    simpa using List.all_eq_true.mp a x hx
  refine List.pairwise_iff_getElem.mpr fun i j hi hj hij x hx y hy e => ?_
  have a := k i hi x hx
  have b := k j hj y hy
  rw [e] at a
  omega

/-- The steps that the tests make: operation, mode, descriptor, aD, WLEN, REF, stack entries, first word of a selection block. -/
def steps : List (Nat × Bool × BitVec 64 × BitVec 64 × Nat × Nat × Nat × BitVec 64) :=
  [(5, false, 3#64, 0#64, 5, 1, 0, 0#64), (3, false, 0#64, 0#64, 5, 1, 0, 0#64), (2, false, 0#64, 0xC0#64, 5, 1, 0, 0#64),
    (2, true, 0#64, 0#64, 5, 1, 0, 0#64)] ++ [(2, true, 0#64, 0#64, 5, 2, 0, 0#64), (2, true, 0#64, 0#64, 5, 2, 1, 0#64),
    (1, false, 0#64, 0#64, 16, 1, 1, 0#64), (1, false, 0#64, 0#64, 5, 1, 0, 0#64)] ++ [(7, false, 0#64, 0#64, 5, 1, 0, 0#64),
    (8, false, 0x1FFEF0#64, 0x100000000#64, 5, 1, 0, 0x100#64), (8, true, 0x1FFEF0#64, 0#64, 5, 1, 0, 0x100#64),
    (8, false, 0x1FFEF0#64, 0#64, 5, 1, 0, 0#64), (8, false, 0x1FFEF0#64, 0#64, 5, 1, 0, 0x100000000#64)]

/-- What every such step meets in the record and its list, as one evaluation settles it. -/
abbrev RecordFree (s : State) (wlen : Nat) : Prop :=
  ∀ q ∈ [((0x40#64 : BitVec 64), (0x80#64 : BitVec 64), 0x40), (0x48#64, 0x400000900#64, 0x48), (0x50#64, BitVec.ofNat 64 (wlen * 2 ^ 32), 0x50),
    (0x58#64, 1#64, 0x58), (0x80#64, 0#64, 0x80)], VFree s q.1 q.2.1 q.2.2

/-- And in the pool. -/
abbrev PoolFree (s : State) (wlen ref top : Nat) : Prop :=
  s.dieReg 0 (0x2000 + 8 * 9) = 0x101#64 ∧ s.damageOf 0 9 = [] ∧ s.setDamage 0 9 [] = s ∧ Pages s ∧
  ∀ p ∈ [(0x100, 0x200), (0x108, 0x180), (0x110, 2 + 2 ^ 32 + 2 ^ 40), (0x118, top), (0x120, 0), (0x128, 0), (0x180, 1), (0x184, 1),
      (0x200, 0x1000), (0x208, 0x800), (0x210, ref + wlen * 2 ^ 32)], s.mem.read p.1 = gloved (BitVec.ofNat 64 p.2)

/-- The same as the statements say it. -/
def Conditions (s : State) (c : DCmd) (wlen ref top n : Nat) : Prop :=
  KvFirst s 0 0 c ∧ SeqRecordAt s 0 0x40#64 0x80#64 0x900 4 0 wlen n (fun k => 0x40 + 8 * k) ∧ ListAt s 0 0x80#64 n (fun _ => 0) (fun _ => 0x80) ∧
  (∀ more ≤ 1, PoolAt s 0 0x900 0x100 0x200 0x180 1 top more 0#64 0#64) ∧ PageAt s 0 0 0x200 0 0x1000#64 0x800#64 ref wlen 0 ∧ 0 < ref ∧ Pages s

theorem conditions_of {s : State} {c : DCmd} {wlen ref top : Nat} (f : First s c) (hr' : RecordFree s wlen)
    (hp : PoolFree s wlen ref top) (hw : wlen ≤ 16) (hr : 0 < ref ∧ ref < 3)
    (ht : top ≤ 1) : Conditions s c wlen ref top 1 := by
  have r0 := hr' (0x40#64, 0x80#64, 0x40) (by simp)
  have r1 := hr' (0x48#64, 0x400000900#64, 0x48) (by simp)
  have r2 := hr' (0x50#64, BitVec.ofNat 64 (wlen * 2 ^ 32), 0x50) (by simp)
  have r3 := hr' (0x58#64, 1#64, 0x58) (by simp)
  have l0 := hr' (0x80#64, 0#64, 0x80) (by simp)
  obtain ⟨e, dm, sd, pg, m⟩ := hp
  have z : ref + wlen * 2 ^ 32 + 0 * 2 ^ 40 = ref + wlen * 2 ^ 32 := by omega
  have o : ∀ a, a < 0x3000 → POpen s 0 0 a := fun a ha => open_of pg (l := [a]) (by simpa using ha) a (by simp)
  have w : ∀ p ∈ [(0x100, 0x200), (0x108, 0x180), (0x110, 2 + 2 ^ 32 + 2 ^ 40), (0x118, top), (0x120, 0), (0x128, 0), (0x180, 1), (0x184, 1),
      (0x200, 0x1000), (0x208, 0x800), (0x210, ref + wlen * 2 ^ 32)], p.1 < 0x3000 → PWord s 0 0 p.1 (BitVec.ofNat 64 p.2) :=
    fun p hp b => ⟨o _ b, m p hp⟩
  refine ⟨first_of f, ⟨by decide, by decide, by decide, by omega, by decide, vword_of r0, vword_of r1, by simpa using vword_of r2, vword_of r3,
    by decide⟩, ?_, ?_, ⟨w (0x200, 0x1000) (by simp) (by decide), w (0x208, 0x800) (by simp) (by decide), by omega, by omega, by decide, by decide,
    by rw [z]; exact w (0x210, ref + wlen * 2 ^ 32) (by simp) (by norm_num)⟩, hr.1, pg⟩
  · intro p hp
    obtain rfl : p = 0 := by omega
    have k : s.mem.read 0x80 = gloved 0#64 := l0.2.2
    exact ⟨⟨0#64, vword_of l0⟩, by simp [entryIn, k, gloved], fun q hq => absurd hq (Nat.not_lt_zero q)⟩
  · intro more hm
    refine ⟨by decide, by decide, by decide, by decide, by decide, by decide, by decide, by decide, by decide, by decide, by omega, e, dm, sd,
      w (0x100, 0x200) (by simp) (by decide), w (0x108, 0x180) (by simp) (by decide),
      ⟨2, by decide, w (0x110, 2 + 2 ^ 32 + 2 ^ 40) (by simp) (by decide)⟩, w (0x118, top) (by simp) (by norm_num),
      w (0x120, 0) (by simp) (by decide), w (0x128, 0) (by simp) (by decide), ?_⟩
    intro j hj
    obtain rfl | rfl : j = 0 ∨ j = 1 := by omega
    · exact ⟨_, w (0x180, 1) (by simp) (by decide)⟩
    · exact ⟨_, w (0x184, 1) (by simp) (by decide)⟩

/-- The package of a step. -/
def stepAt (p : Nat × Bool × BitVec 64 × BitVec 64 × Nat × Nat × Nat × BitVec 64) : State :=
  paged p.1 p.2.1 p.2.2.1 p.2.2.2.1 p.2.2.2.2.1 p.2.2.2.2.2.1 p.2.2.2.2.2.2.1 p.2.2.2.2.2.2.2

/-- Every step meets what is common to all. -/
theorem test_hyps_KeyValuePageEffects : ∀ p ∈ steps,
    Conditions (stepAt p) (pageCmd p.1 p.2.1 p.2.2.1 p.2.2.2.1) p.2.2.2.2.1 p.2.2.2.2.2.1 p.2.2.2.2.2.2.1 1 := by
  have a : ∀ p ∈ steps, First (stepAt p) (pageCmd p.1 p.2.1 p.2.2.1 p.2.2.2.1) := by decide +kernel
  have b : ∀ p ∈ steps, RecordFree (stepAt p) p.2.2.2.2.1 := by decide +kernel
  have c : ∀ p ∈ steps, PoolFree (stepAt p) p.2.2.2.2.1 p.2.2.2.2.2.1 p.2.2.2.2.2.2.1 := by decide +kernel
  have d : ∀ p ∈ steps, p.2.2.2.2.1 ≤ 16 ∧ (0 < p.2.2.2.2.2.1 ∧ p.2.2.2.2.2.1 < 3) ∧ p.2.2.2.2.2.2.1 ≤ 1 := by decide
  exact fun p hp => conditions_of (a p hp) (b p hp) (c p hp) (d p hp).1 (d p hp).2.1 (d p hp).2.2

/-- The lists of places that every step touches. -/
def places : List (List Nat) :=
  [recOf fun k => 0x40 + 8 * k, upTo 1 fun _ => 0x80, headOf 0x100, (List.range 1).flatMap fun _ => descOf 0x200 0]

theorem test_hyps_KeyValuePageEffects_apart : ∀ top ≤ 1, Asunder (places ++ [upTo (top + 1) fun j => 0x180 + 4 * j]) := by
  intro top ht
  obtain rfl | rfl : top = 0 ∨ top = 1 := by omega
  all_goals exact asunder_of [(12, 0), (20, 1), (0x2A, 2), (0x34, 4), (0x43, 3)] (by decide)

/-- kvfork: the child record at 0xC0, its list at 0xE0. -/
theorem test_hyps_KeyValuePageEffects_fork : let s := stepAt (2, false, 0#64, 0xC0#64, 5, 1, 0, 0#64)
    SeqRecordAt s 0 0xC0#64 0xE0#64 0x900 4 0 0 0 (fun k => 0xC0 + 8 * k) ∧ VWord s 0 (0xE0#64 + BitVec.ofNat 64 (4 * 0)) 0#64 0xE0 ∧
    Asunder (places ++ [recOf fun k => 0xC0 + 8 * k, upTo 1 fun _ => 0xE0]) := by
  have k : ∀ q ∈ [((0xC0#64 : BitVec 64), (0xE0#64 : BitVec 64), 0xC0), (0xC8#64, 0x400000900#64, 0xC8), (0xD0#64, 0#64, 0xD0),
      (0xD8#64, 0#64, 0xD8), (0xE0#64, 0#64, 0xE0)], VFree (stepAt (2, false, 0#64, 0xC0#64, 5, 1, 0, 0#64)) q.1 q.2.1 q.2.2 := by decide +kernel
  have w := fun q hq => vword_of (k q hq)
  exact ⟨⟨by decide, by decide, by decide, by decide, by decide, w (0xC0#64, 0xE0#64, 0xC0) (by simp), w (0xC8#64, 0x400000900#64, 0xC8) (by simp),
    w (0xD0#64, 0#64, 0xD0) (by simp), w (0xD8#64, 0#64, 0xD8) (by simp), by decide⟩, w (0xE0#64, 0#64, 0xE0) (by simp),
    asunder_of [(12, 0), (20, 1), (0x1C, 4), (0x1D, 5), (0x26, 2), (0x43, 3)] (by decide)⟩

/-- kvfork.unshare of a page with two references, and kvapp at the start of a page: page 1 is free. -/
theorem test_hyps_KeyValuePageEffects_copy : ∀ p ∈ [(2, true, (0#64 : BitVec 64), (0#64 : BitVec 64), 5, 2, 1, (0#64 : BitVec 64)),
      (1, false, 0#64, 0#64, 16, 1, 1, 0#64)], let s := stepAt p
    freeIn s.mem 0x180 (1 - 1) = 1 ∧ PageAt s 0 0 0x200 1 0x2000#64 0xA00#64 0 0 0 ∧
    (∀ a ∈ dataOf 0x2000 1 ++ capsOf 0xA00 1, POpen s 0 0 a) ∧ (∀ a ∈ dataOf 0x1000 1 ++ capsOf 0x800 1, POpen s 0 0 a) ∧
    (∃ w, VWord s 0 (0x80#64 + BitVec.ofNat 64 (4 * 1)) w 0x84) ∧ (∀ j < 16, (s.tileAt 0).spad.read (0 + 128 * 0 + 8 * j) = gloved 0#64) := by
  have k : ∀ p ∈ [(2, true, (0#64 : BitVec 64), (0#64 : BitVec 64), 5, 2, 1, (0#64 : BitVec 64)), (1, false, 0#64, 0#64, 16, 1, 1, 0#64)],
      Pages (stepAt p) ∧ freeIn (stepAt p).mem 0x180 (1 - 1) = 1 ∧ VFree (stepAt p) 0x84#64 0#64 0x84 ∧
      (∀ q ∈ [(0x220, (0x2000#64 : BitVec 64)), (0x228, 0xA00#64), (0x230, 0#64)], (stepAt p).mem.read q.1 = gloved q.2) ∧
      ∀ j < 16, ((stepAt p).tileAt 0).spad.read (0 + 128 * 0 + 8 * j) = gloved 0#64 := by decide +kernel
  intro p hp
  obtain ⟨g, f, l, m, z⟩ := k p hp
  have w : ∀ q ∈ [(0x220, (0x2000#64 : BitVec 64)), (0x228, 0xA00#64), (0x230, 0#64)], q.1 < 0x3000 → PWord (stepAt p) 0 0 q.1 q.2 :=
    fun q hq b => ⟨open_of g (l := [q.1]) (by simpa using b) _ (by simp), m q hq⟩
  exact ⟨f, ⟨w (0x220, 0x2000#64) (by simp) (by decide), w (0x228, 0xA00#64) (by simp) (by decide), by decide, by decide, by decide, by decide,
    w (0x230, 0#64) (by simp) (by decide)⟩, open_of g (by decide +kernel), open_of g (by decide +kernel), ⟨_, vword_of l⟩, z⟩

theorem test_hyps_KeyValuePageEffects_asunder :
    Asunder (places ++ [descOf 0x200 1, upTo 1 fun j => 0x180 + 4 * j, dataOf 0x2000 1, capsOf 0xA00 1, dataOf 0x1000 1 ++ capsOf 0x800 1]) ∧
    Asunder ([recOf fun k => 0x40 + 8 * k, upTo 1 (fun _ => 0x80) ++ [0x84], headOf 0x100, (List.range 1).flatMap fun _ => descOf 0x200 0] ++
      [descOf 0x200 1, upTo 1 fun j => 0x180 + 4 * j, dataOf 0x2000 1, capsOf 0xA00 1]) ∧
    Asunder (places ++ [dataOf 0x1000 1, capsOf 0x800 1]) :=
  ⟨asunder_of [(12, 0), (20, 1), (0x26, 2), (0x34, 5), (0x43, 3), (0x47, 4), (0x140, 8), (0x180, 7), (0x400, 8), (0x600, 6)] (by decide +kernel),
    asunder_of [(12, 0), (20, 1), (0x26, 2), (0x34, 5), (0x43, 3), (0x47, 4), (0x180, 7), (0x600, 6)] (by decide +kernel),
    asunder_of [(12, 0), (20, 1), (0x26, 2), (0x43, 3), (0x140, 5), (0x400, 4)] (by decide +kernel)⟩

theorem get_high {α : Type} (d : α) {m : SMap α} {b : Nat} (h : m.all (fun p => decide (p.1 < b)) = true) {a : Nat} (ha : b ≤ a) :
    mapGet d m a = d := by
  induction m with
  | nil => rfl
  | cons p t ih =>
    simp only [List.all_cons, Bool.and_eq_true, decide_eq_true_eq] at h
    rw [mapGet, if_neg (by omega), ih h.2]

/-- Above every listed byte a memory reads zero. -/
theorem read_high {m : Mem} {b : Nat} (h : m.data.all (fun p => decide (p.1 < 8 * b)) = true ∧ m.glove.all (fun p => decide (p.1 < b)) = true)
    {a : Nat} (ha : 8 * b ≤ a) : m.read a = gloved 0#64 := by
  have k : ∀ n, 8 * (a / 8) ≤ n → m.byte n = 0#8 := fun n hn => get_high _ h.1 (by omega)
  have g : mapGet (0 : BitVec 8) m.glove (a / 8) = 0#8 := get_high _ h.2 (by omega)
  simp only [Mem.read, k _ (Nat.le_refl _), k _ (Nat.le_add_right _ _), g]
  decide

/-- kvapp within a page, kvrecap and capsel: the caps and the keys are 0; a block with WIN 1, one with LEN 0 and one with a head too high. -/
theorem test_hyps_KeyValueCapEffects : ∀ p ∈ [(1, false, (0#64 : BitVec 64), (0#64 : BitVec 64), 5, 1, 0, (0#64 : BitVec 64)),
      (7, false, 0#64, 0#64, 5, 1, 0, 0#64), (8, false, 0x1FFEF0#64, 0x100000000#64, 5, 1, 0, 0x100#64),
      (8, true, 0x1FFEF0#64, 0#64, 5, 1, 0, 0x100#64)], let s := stepAt p
    CapIs s.mem 0x800 (fun _ => 0) (fun _ => 0) ∧ (∀ j q, s.mem.read (0x1000 + 4096 * 0 + 128 * j + 8 * q) = gloved 0#64) ∧
    ∀ k, (s.tileAt 0).spad.read (0x1FFEF0 + 16 + 8 * k) = gloved 0#64 := by
  have k : ∀ p ∈ [(1, false, (0#64 : BitVec 64), (0#64 : BitVec 64), 5, 1, 0, (0#64 : BitVec 64)),
      (7, false, 0#64, 0#64, 5, 1, 0, 0#64), (8, false, 0x1FFEF0#64, 0x100000000#64, 5, 1, 0, 0x100#64),
      (8, true, 0x1FFEF0#64, 0#64, 5, 1, 0, 0x100#64)],
      ((stepAt p).mem.data.all (fun q => decide (q.1 < 8 * 0x100)) = true ∧ (stepAt p).mem.glove.all (fun q => decide (q.1 < 0x100)) = true) ∧
      ((stepAt p).tileAt 0).spad.data.all (fun q => decide (q.1 < 8 * 0x3FFE0)) = true ∧
      ((stepAt p).tileAt 0).spad.glove.all (fun q => decide (q.1 < 0x3FFE0)) = true := by decide +kernel
  have z : wordOf 16 (fun _ => 0) = 0#64 := by decide
  intro p hp
  obtain ⟨m, r⟩ := k p hp
  refine ⟨fun q hq => ?_, fun j q => read_high m (by omega), fun q => read_high r (by omega)⟩
  rw [z]
  exact ⟨read_high m (by omega), read_high m (by omega)⟩

theorem test_hyps_KeyValueCapEffects_block : let t := fun w => (stepAt (8, false, 0x1FFEF0#64, 0#64, 5, 1, 0, w)).tileAt 0
    (t 0x100#64).spad.read 0x1FFEF0 = gloved 0x100#64 ∧ (t 0x100#64).spad.read (0x1FFEF0 + 8) = gloved 0xFFFFFFFF00000000#64 ∧
    (t 0#64).spad.read 0x1FFEF0 = gloved 0#64 ∧ (t 0#64).spad.read (0x1FFEF0 + 8) = gloved 0#64 ∧
    (t 0x100000000#64).spad.read 0x1FFEF0 = gloved 0x100000000#64 := by
  decide +kernel

/-! ### Attention -/

/-- The run of an attg of mode 0 over the list at 0x1000, of at most one page, and the query and output at the scratchpad's end. -/
def attnRun : AttgRun := ⟨0, 0x1FFDF0, 0x1FFF00, 0x1000, 1, 0⟩

/-- Its operands in s registers under RAW banks, with the run begun or not: a list of one page of a record at 0x2000, of one token, in page
3 of pool 9, with one head. -/
def attn (run : Option AttgRun) : State :=
  let s := (ahead fun t =>
    { t with
      sreg := [(1, gloved 0x1FFDF0#64), (2, gloved 0x100001000#64), (3, gloved 0x1FFF00#64)], attg := run,
      spad := ((t.spad.write 0x1000 (gloved 0x100000001#64)).write 0x1008 (gloved 0x2000#64)).write 0x1010 (gloved 0#64) }).setDieReg 0
        (0x2000 + 8 * 9) 0x3001#64
  { s with
    mem := ([(0x2000, 0x2100#64), (0x2008, 0x900#64), (0x2010, 0x100000000#64), (0x2100, 3#64), (0x3000, 0x3100#64), (0x3010, 0x10100000000#64),
      (0x3160, 0x3200#64), (0x3170, 0x100000000#64)] : List (Nat × BitVec 64)).foldl (fun m p => m.write p.1 (gloved p.2)) s.mem }

/-- What V's checks ask of an aligned address of a page at 0. -/
theorem vmem_of {s : State} {va v : BitVec 64} (h : va.toNat % 4 = 0 ∧ canonical va = true ∧ inAperture va = false ∧
    bit (s.root (0 / 16) (s.tileAt 0).side) 0 = true ∧ tlbFind (s.tileAt 0).side va.toNat (s.tileAt 0).tlb = some (placePage true) ∧
    pageAllows (placePage true) (s.tileAt 0).side true false false = true ∧ targetOf (physOf (placePage true) va) = .hbm 0 (physOf (placePage true) va) ∧
    accessVerdict s (classSV (s.tileAt 0)) (0 / 16) (physOf (placePage true) va) Rights.load = .ok ∧
    s.mem.read (physOf (placePage true) va) = gloved v) : VMemIs s 0 va v :=
  ⟨h.1, h.2.1, h.2.2.1, h.2.2.2.1, placePage true, 0, _, h.2.2.2.2.1, h.2.2.2.2.2.1, h.2.2.2.2.2.2.1, h.2.2.2.2.2.2.2.1, h.2.2.2.2.2.2.2.2⟩

theorem vpool_of {s : State} {pa : Nat} {v : BitVec 64} (h : targetOf pa = .hbm 0 pa ∧
    accessVerdict s (classSV (s.tileAt 0)) (0 / 16) pa Rights.load = .ok ∧ s.mem.read pa = gloved v) : VPoolIs s 0 pa v :=
  ⟨⟨0, pa, h.1⟩, h.2⟩

theorem attn_operands : AttgOperands (attn none) 0x1FFDF0 0x1000 0x1FFF00 1 := by
  have b : ∀ o, (attn none).tile.bankOf o = 15 := fun o => (raw_of (s := attn none) (g := 0) (by decide +kernel) o).1
  exact ⟨by decide, by decide, by decide, 0x1FFDF0, 0x1000, 0x1FFF00, by decide +kernel, by decide +kernel, by decide +kernel, by decide, by decide,
    by decide, fun i _ => .inl (b _), fun i _ => .inl (b _), fun i _ => .inl (b _), fun i _ _ => .inl (b _)⟩

/-- What the one token gives. -/
def attnValue : Attn :=
  let bytes := fun (f : Nat → BitVec 64) => (List.range 16).flatMap fun i => (List.range 8).map fun b => elemOf 8 (f i) b
  let q := (List.range 32).flatMap fun _ => (List.range 4).map fun b => elemValue .bf16 (elemOf 16 (0#64) b)
  Attn.init.token (scoreOf q (bytes fun _ => 0#64)) (bytes fun _ => 0#64)

theorem attn_stream (run : Option AttgRun) (h : run = none ∨ run = some attnRun) : ∃ a, AttgStream (attn run) 0 attnRun a := by
  refine ⟨attnValue, 0x100000001#64, 0x2000#64, 0x2100#64, 0x900#64, 0x100000000#64, 0x3100#64, 0#64, 0x10100000000#64, 0x3000, 1, fun _ => 0, fun _ => 3,
    fun _ => 1, fun _ => 0x3200#64, fun _ => 0#64, fun _ => 0#64, fun _ _ _ => 0#64, fun _ _ _ => 0#64, ?_⟩
  rcases h with rfl | rfl
  all_goals
    refine ⟨by decide +kernel, by decide +kernel, by decide, by decide, vmem_of (by decide +kernel), vmem_of (by decide +kernel),
      vmem_of (by decide +kernel), by decide, by decide +kernel, vpool_of (by decide +kernel), vpool_of (by decide +kernel),
      vpool_of (by decide +kernel), by decide, by decide, by decide +kernel, ?_, rfl⟩
    intro j hj
    obtain rfl : j = 0 := by omega
    refine ⟨⟨0#64, by decide +kernel, by decide⟩, by decide, by decide, ⟨3#64, vmem_of (by decide +kernel), by decide⟩,
      ⟨vpool_of (by decide +kernel), vpool_of (by decide +kernel), 0x100000000#64, vpool_of (by decide +kernel), by decide⟩, ?_⟩
    intro t ht i hi
    have e : t = 0 := by
      have : t < 1 := ht
      omega
    subst e
    revert i
    refine fun i hi => ⟨⟨⟨0, 12800 + 8 * i, ?_⟩, ?_, ?_⟩, ⟨0, 14848 + 8 * i, ?_⟩, ?_, ?_⟩ <;> revert i
    all_goals exact (by decide +kernel)

theorem test_hyps_AttentionWordResult : EReady .V 0#4 (attn none) ∧ (attn none).tile.attg = none ∧ NoRange .V (attn none) ∧
    (attn none).tile.getS 1 = gloved 0x1FFDF0#64 ∧ (attn none).tile.getS 2 = gloved 0x100001000#64 ∧
    (attn none).tile.getS 3 = gloved 0x1FFF00#64 ∧ AttgOperands (attn none) 0x1FFDF0 0x1000 0x1FFF00 1 ∧ CacheCurrent (attn none) 0 ∧
    ∃ a, AttgStream (attn none) 0 attnRun a :=
  ⟨by simp only [EReady, EFree]; decide +kernel, by decide +kernel, noRange_of (by decide +kernel), by decide +kernel, by decide +kernel,
    by decide +kernel, attn_operands, by simp only [CacheCurrent]; decide +kernel, attn_stream none (.inl rfl)⟩

theorem test_hyps_AttentionWordResult_completes : ((attn (some attnRun)).tileAt 0).attg = some attnRun ∧ ((attn (some attnRun)).tileAt 0).works = true ∧
    attnRun.idx = ((attn (some attnRun)).tileAt 0).eV.pos ∧ CacheCurrent (attn (some attnRun)) 0 ∧
    ∃ a, AttgStream (attn (some attnRun)) 0 attnRun a :=
  ⟨by decide +kernel, by decide +kernel, by decide +kernel, by simp only [CacheCurrent]; decide +kernel, attn_stream _ (.inr rfl)⟩

/-- The started attg, with its tile chosen. -/
def attnAt : State := { (attn (some attnRun)) with cur := 0 }

theorem test_hyps_AttentionWordResult_complete : ∃ ws u wr, (attgBody 0 attnRun).on attnAt = .ok (ws, ⟨u, wr⟩) := by
  have h : (match (attgBody 0 attnRun).on attnAt with | .ok _ => true | .error _ => false) = true := by
    decide +kernel
  cases hh : (attgBody 0 attnRun).on attnAt with
  | ok p => exact ⟨p.1, p.2.s, p.2.wrote, rfl⟩
  | error e => rw [hh] at h; cases h

/-! ### Version tables and trajectory rings -/

/-- The page at 0x3000 lies in a hatrack region of every right; a version table there with version 1 at entry 0, RELEASED, entry 1
WRITING and a PIN of 0; a word of S on it. -/
def hat (f : Tile → Tile) : State :=
  let s := (((tiled fun t => f { (t.setX 1 (gloved 0x3000#64)) with apol := 1#64 }).setDieReg 0 0x1C00 0x3001#64).setDieReg 0 0x1C08
    0x3000#64).setDieReg 0 0x1C10 0xFFFFFFFFFFFFFFFF#64
  let m := ((s.mem.write 0x3000 (gloved 1#64)).write 0x3040 (gloved 0x200000001#64)).write 0x3050 (gloved 0x4000#64)
  { s with mem := m.write 0x3080 (gloved 0x100000000#64) }

/-- The checks of a version table at 0x3000. -/
theorem table_of {s : State} {cls h : Nat} (k : bit (s.root (0 / 16) (s.tileAt 0).side) 0 = true ∧ tlbFind (s.tileAt 0).side (0x3000#64).toNat (s.tileAt 0).tlb = some (placePage true) ∧
    pageAllows (placePage true) (s.tileAt 0).side true (decide (h = 1)) false = true ∧ 0x3000 = physOf (placePage true) 0x3000#64 ∧
    targetOf 0x3000 = .hbm 0 0x3000 ∧ (s.hatrackRegion 0 0x3000).isSome = true ∧ accessVerdict s cls 0 0x3000 ⟨true, true, false, h⟩ = .ok) :
    TableAt s 0 cls h 0x3000#64 0x3000 :=
  ⟨k.1, ⟨placePage true, k.2.1, k.2.2.1, k.2.2.2.1⟩, ⟨0, 0x3000, k.2.2.2.2.1, k.2.2.2.2.2.1⟩, k.2.2.2.2.2.2⟩

theorem test_hyps_AdoptResult : SAlone (hat id) ∧ (hat id).tile.level = .task ∧ (hat id).tile.getX 1 = gloved 0x3000#64 ∧
    (hat id).tile.getX 0 = gloved 0#64 ∧ canonical 0x3000#64 = true ∧ (hat id).tile.adoptWait = none ∧
    TableAt (hat id) 0 (classSV (hat id).tile) 0 0x3000#64 0x3000 ∧ Holds (hat id) 0x3000 0 1#64 ∧ (hat id).tile.adopted = none ∧
    (1#64).toNat % 2 ^ 32 ≠ 0 ∧ bits (1#64) 39 32 ≤ 15 ∧ bit (0#64) 1 = false ∧ (hat id).tile.apol.toNat ≤ 2 := by
  refine ⟨by simp only [SAlone, SReady]; decide +kernel, by decide +kernel, by decide +kernel, by decide +kernel, by decide, by decide +kernel,
    table_of (by decide +kernel), by simp only [Holds]; decide +kernel, by decide +kernel, by decide, by decide, by decide, by decide +kernel⟩

/-- The same task holding entry 0, at the current version or at none. -/
def holding (v : BitVec 64) : State := hat fun t => { t with adopted := some (0x3000#64, 0), wver := v }

/-- The same task with its adopt waiting and no version in the table. -/
def adopting : State := hat fun t => { t with adoptWait := some ⟨0, 0x3000#64, 5#6⟩ }

/-- A table with no version. -/
def noVersion : State := { hat id with mem := (hat id).mem.write 0x3000 (gloved 0#64) }

theorem test_hyps_AdoptResult_held : (holding 1#64).tile.adopted = some (0x3000#64, 0) ∧ Holds (holding 1#64) 0x3000 (64 + 64 * 0 + 16) 0x4000#64 ∧
    BitVec.ofNat 64 ((1#64).toNat % 2 ^ 32) = (holding 1#64).tile.wver ∧ BitVec.ofNat 64 ((1#64).toNat % 2 ^ 32) ≠ (holding 0#64).tile.wver ∧
    (holding 0#64).tile.apol = 1#64 ∧ SAlone (holding 1#64) ∧ SAlone (holding 0#64) ∧
    SAlone noVersion ∧ Holds noVersion 0x3000 0 0#64 ∧ TableAt noVersion 0 (classSV noVersion.tile) 0 0x3000#64 0x3000 ∧
    noVersion.tile.adopted.all (fun y => decide (y.1 = 0x3000#64)) = true := by
  refine ⟨by decide +kernel, by simp only [Holds]; decide +kernel, by decide +kernel, by decide +kernel, by decide +kernel,
    by simp only [SAlone, SReady]; decide +kernel, by simp only [SAlone, SReady]; decide +kernel, by simp only [SAlone, SReady]; decide +kernel,
    by simp only [Holds]; decide +kernel, table_of (by decide +kernel), by decide +kernel⟩

theorem test_hyps_AdoptResult_switch : (adopting.tileAt 0).adoptWait = some ⟨0, 0x3000#64, 5#6⟩ ∧ (adopting.tileAt 0).works = true ∧
    (adopting.tileAt 0).eS.pos = 0 ∧ (adopting.tileAt 0).settled = true ∧ (adopting.tileAt 0).adopted = none ∧ NoDirty adopting 0 ∧
    (∀ y ∈ (adopting.tileAt 0).dcmds, y.readsMemory 0 = false) ∧ TableAt adopting 0 (classSV (adopting.tileAt 0)) 0 0x3000#64 0x3000 ∧
    Holds adopting 0x3000 0 1#64 ∧ Holds adopting 0x3000 (64 + 64 * 0) 0x200000001#64 ∧ bits (0x200000001#64) 39 32 = 2 ∧
    Holds adopting 0x3000 (64 + 64 * 0 + 16) 0x4000#64 ∧ Holds adopting 0x3000 (64 + 64 * 0 + 8) 0#64 := by
  refine ⟨by decide +kernel, by decide +kernel, by decide +kernel, by decide +kernel, by decide +kernel, by simp only [NoDirty]; decide +kernel,
    by decide +kernel, table_of (by decide +kernel), ?_⟩
  simp only [Holds]; decide +kernel

/-- A command of tile 0 at a word of D. -/
def verCmd (k : DKind) (aA desc : BitVec 64) (idx : List Nat) : DCmd :=
  ⟨⟨.D, 0, 0x1000#64, 0#32, false, 0⟩, k, GWord.zero, gloved aA, gloved desc, 0#9, [], none, 0#64, [], [], 0, false, true, none, 5, true, 0, 0, [], idx, false⟩

/-- A D word on the table of `hat`, with a command in flight or none, and a trajectory ring 3 of one record. -/
def vers (c : Option DCmd) : State :=
  let s := hat fun t =>
    { t with
      eS := ⟨0x1004#64, 1, none⟩, a := [(1, gloved 0x3000#64), (2, gloved 1#64), (3, gloved 0x1FFFE0#64), (4, gloved 0x1C0000#64), (5, gloved 0x2000#64)],
      dcmds := c.toList }
  let s := s.setDieAt 0 { s.dieAt 0 with trecHdr := [(3, 0x2000#64)] }
  { s with mem := (s.mem.write 0x2000 (gloved 0x2100#64)).write 0x2008 (gloved 0x100000001#64) }

theorem test_hyps_ReleaseAndRecordResult : EReady .D 0#4 (vers none) ∧ DRoom (vers none) ∧ NoRange .D (vers none) ∧
    (vers none).tile.getA 1 = gloved 0x3000#64 ∧ (vers none).tile.getA 2 = gloved 1#64 ∧ DescIs 1#64 0 0 0 0 1 ∧
    TableAt (vers none) 0 (classD (vers none).tile) 1 0x3000#64 0x3000 ∧ (vers none).tile.getA 3 = gloved 0x1FFFE0#64 ∧
    (0x1FFFE0#64).toNat % 2 ^ 32 + 32 * 1 ≤ 0x200000 ∧ (vers none).tile.getA 4 = gloved 0x1C0000#64 ∧ (vers none).tile.getA 5 = gloved 0x2000#64 ∧
    DescIs 0x2000#64 0 0 0 0 8192 ∧ (0x1C0000#64).toNat % 2 ^ 32 + 32 * 8192 ≤ 0x200000 ∧ (∀ o < 0x200000, (vers none).tile.bankOf o = 15) := by
  refine ⟨by simp only [EReady, EFree]; decide +kernel, by simp only [DRoom]; decide +kernel, noRange_of (by decide +kernel), by decide +kernel,
    by decide +kernel, by simp only [DescIs]; decide, table_of (by decide +kernel), by decide +kernel, by decide, by decide +kernel, by decide +kernel,
    by simp only [DescIs]; decide, by decide, fun o _ => (raw_of (s := vers none) (g := 0) (by decide +kernel) o).1⟩

theorem test_hyps_ReleaseAndRecordResult_port : let c := verCmd .relv 0x3000#64 1#64 [0x3000]
    let s := vers (some c)
    ((s.tileAt 0).works = true ∧ (s.tileAt 0).dcmds[0]? = some c ∧ (s.tileAt 0).holds .D = false ∧ (s.tileAt 0).eq.length < 64 ∧
      s.dmode (0 / 16) = 0) ∧ TableAt s 0 (classD (s.tileAt 0)) 1 0x3000#64 0x3000 ∧ Holds s 0x3000 0 1#64 ∧ Holds s 0x3000 (64 + 64 * 1) 0x100000000#64 ∧ bits (0x100000000#64) 39 32 = 1 ∧
    Holds s 0x3000 (64 + 64 * 0) 0x200000001#64 ∧ Holds s 0x3000 (64 + 64 * 0 + 8) 0#64 := by
  refine ⟨by decide +kernel, table_of (by decide +kernel), ?_⟩
  simp only [Holds]; decide +kernel

theorem test_hyps_ReleaseAndRecordResult_write : let c := verCmd (.trec 3) 0x1FFFE0#64 1#64 [1, 0, 0]
    let s := vers (some c)
    ((s.tileAt 0).works = true ∧ (s.tileAt 0).dcmds[0]? = some c ∧ (s.tileAt 0).holds .D = false ∧
      (∀ k < 16, (s.tileAt (0 / 16 * 16 + k)).recording 3 = false) ∧ mapGet 0#64 (s.dieAt (0 / 16)).trecHdr 3 = BitVec.ofNat 64 0x2000 ∧
      mapGet false (s.dieAt (0 / 16)).trecOff 3 = false ∧ accessVerdict s (classD (s.tileAt 0)) 0 0x2000 Rights.amo = .ok ∧
      accessVerdict s (classD (s.tileAt 0)) 0 0x2100 Rights.store = .ok ∧ accessVerdict s (classD (s.tileAt 0)) 0 (0x2100 + 24) Rights.store = .ok) ∧
    Holds s 0x2000 8 0x100000001#64 ∧ bit (0x100000001#64) 32 = true ∧ bits (0x100000001#64) 31 0 = 1 ∧ Holds s 0x2000 0 0x2100#64 ∧
    Holds s 0x2000 16 0#64 ∧ Holds s 0x2000 24 0#64 ∧ 0x1FFFE0 + 32 * 0 + 32 ≤ 0x200000 ∧ (s.tileAt 0).spad.read (0x1FFFE0 + 8) = gloved 0#64 := by
  simp only [Holds]; decide +kernel

/-! ## Hypotheses that are met: the fabric -/

/-- A packet from die 1 that stands at die `loc` on its way to die `dst`, 375 units old. -/
def pkt (dst loc : Nat) (b : PktBody) : Packet := ⟨1, 1, dst, loc, BitVec.ofNat 20 (2 ^ 20 - 375), false, none, b⟩

/-- `base` with one packet in the fabric. -/
def net (p : Packet) (f : Tile → Tile := id) : State := { tiled f with net := [p] }

theorem test_hyps_FabricTransportResult : (net (pkt 24 23 (.congestion 0))).net[0]? = some (pkt 24 23 (.congestion 0)) ∧
    (net (pkt 0 1 (.congestion 0))).net[0]? = some (pkt 0 1 (.congestion 0)) ∧ (net (pkt 0 1 (.congestion 0))).age (pkt 0 1 (.congestion 0)) = 375 ∧
    (net (pkt 0 1 (.congestion 0))).ftb.toNat + 50000 < 2 ^ 64 ∧ (net (pkt 0 1 (.congestion 0))).standby = false ∧ (net (pkt 0 1 (.congestion 0))).linkUp 1 (hop (net (pkt 0 1 (.congestion 0))) 1 0) = true ∧
    (let s : State := { net (pkt 0 1 (.congestion 0)) with links := [(0, 1)] }
     s.linkUp 1 (hop s 1 0) = false ∧ ∃ k < 24, s.linkUp 1 k = true) := by
  decide +kernel

/-- A request of tile 17 for the last doubleword of tile 0, under a class. -/
def request (cls : Nat) (op : RemOp) : Packet := pkt 0 0 (.request 17 255 0 0x1FFFF8 cls op true 9#64)

theorem test_hyps_FabricTransportResult_request : (net (request 4 .load)).arrived 0 = some (request 4 .load) ∧
    (∀ b, portVerdict (net (request 4 .load)) 0 4 b = .ok) ∧ ((net (request 4 .load)).tileAt 0).spad.read 0x1FFFF8 = gloved 0#64 ∧
    (net (request 4 (.store (gloved 1#64)))).arrived 0 = some (request 4 (.store (gloved 1#64))) ∧
    (net (request 4 (.amo .add (gloved 1#64)))).arrived 0 = some (request 4 (.amo .add (gloved 1#64))) ∧ amoNew .add 0#64 1#64 = some 1#64 ∧
    (net (request 4 (.amo (.cas 5#64) (gloved 1#64)))).arrived 0 = some (request 4 (.amo (.cas 5#64) (gloved 1#64))) ∧ (0#64 : BitVec 64) ≠ 5#64 ∧
    (net (request 0 .load)).arrived 0 = some (request 0 .load) ∧ (∀ b, portVerdict (net (request 0 .load)) 0 0 b = .refused) ∧
    RemOp.load.rights.1 = true := by
  decide +kernel

/-- An outstanding request of tile 0. -/
def remote : RemReq := ⟨255, .V, 0, 0xFF80000000000000#64, 0#64, none⟩

/-- A response to it, and a packet of posted words for tile 0 under a class. -/
def response : Packet := pkt 0 0 (.response 0 255 (.ok (gloved 1#64)) 9#64)
def posted (cls : Nat) : Packet := pkt 0 0 (.posted 0 cls 15 [(0x1FFFF8, gloved 1#64)] none)

/-- The saved task of tile 0 in a save slot, whose image waits for the response. -/
def saved : State :=
  let s := net response
  let s := s.setDieAt 0 { s.dieAt 0 with homes := [(383, 0)] }
  { s with mem := putReqs s.mem (s.slotAddr 0 383) 1 [remote] }

theorem test_hyps_FabricTransportResult_response : (net response fun t => { t with remote := [remote] }).arrived 0 = some response ∧
    ((net response fun t => { t with remote := [remote] }).tileAt 0).remote = [remote] ∧ saved.arrived 0 = some response ∧
    (saved.tileAt 0).remote = [] ∧ (saved.dieAt (0 / 16)).homes = [(383, 0)] ∧ imageReqs saved.mem (saved.slotAddr (0 / 16) 383) = [remote] ∧
    (net (posted 4)).arrived 0 = some (posted 4) ∧ portVerdict (net (posted 4)) 0 4 true = .ok ∧ (net (posted 0)).arrived 0 = some (posted 0) ∧
    portVerdict (net (posted 0)) 0 0 true = .refused := by
  decide +kernel

/-- Window 15 with a packet to hand over and a generation that awaits its close. -/
def sender (st : WinState) (att : Nat) (vstm : Bool) : Window :=
  { win st true [] with target := 4096#19, pier := 15, outq := [pkt 0 0 (.congestion 0)], awaits := [⟨255, att, 5, 0, gloved 0#64, 511, 0#64, vstm⟩] }

theorem test_hyps_FabricTransportResult_window : ((tiled fun t => { t with wins := [(15, sender .idle 3 true)] }).tileAt 0).win? 15 =
    some (sender .idle 3 true) := by
  decide +kernel

/-! ### Piers and notes -/

/-- A keystone of the last count, held. -/
def heldKey (n : Nat) : HeldKey := ⟨n, 0, 0x1FFFF8, 4, gloved 1#64, 0#64⟩

/-- Pier 4095 at generation 255 and attempt 3, one word counted. -/
def pier (h : Option HeldKey) : Pier := ⟨255, 3, 1, 2, 0, h, none, 17, 15, 1, true, false, false⟩

/-- `net` with the pier. -/
def piers (p : Packet) (h : Option HeldKey) (f : Tile → Tile := id) : State := (net p f).setPier 0 4095 (pier h)

/-- A counted packet of one word, and a keystone. -/
def counted (cls gen att : Nat) : Packet := pkt 0 0 (.posted 0 cls 15 [(0x1FFFF8, gloved 1#64)] (some (4095, gen, att)))
def keystone (gen att sc : Nat) : Packet := pkt 0 0 (.keystone 4095 gen att sc 0 0x1FFFF8 4 (gloved 1#64) 17 15)

theorem test_hyps_PierAndNoteResult : (piers (counted 4 255 3) none).arrived 0 = some (counted 4 255 3) ∧
    (piers (counted 4 255 3) none).pierAt 0 4095 = pier none ∧ (pier none).ca < 4 ∧ PierFree (piers (counted 4 255 3) none) (pier none) [] ∧
    fits 15 ((piers (counted 4 255 3) none).tile.bankOf 0x1FFFF8) ∧ portVerdict (piers (counted 4 255 3) none) 0 4 true = .ok ∧
    (piers (counted 4 255 3) (some (heldKey 2))).arrived 0 = some (counted 4 255 3) ∧
    (piers (counted 4 255 3) (some (heldKey 2))).pierAt 0 4095 = pier (some (heldKey 2)) ∧
    PierFree (piers (counted 4 255 3) (some (heldKey 2))) (pier (some (heldKey 2))) [] ∧ ((pier (some (heldKey 2))).nc + 1) % 2 ^ 24 = 2 ∧
    (piers (counted 4 255 0) none).arrived 0 = some (counted 4 255 0) ∧ 0 = ((pier none).ca + 1) % 4 ∧
    (piers (counted 4 0 2) none).arrived 0 = some (counted 4 0 2) ∧ 0 = ((pier none).cg + 1) % 256 ∧
    (piers (counted 4 255 2) none).arrived 0 = some (counted 4 255 2) ∧ 2 = ((pier none).ca + 3) % 4 ∧
    (piers (counted 0 255 3) none).arrived 0 = some (counted 0 255 3) ∧ portVerdict (piers (counted 0 255 3) none) 0 0 true = .refused := by
  simp only [PierFree, fits]; decide +kernel

theorem test_hyps_PierAndNoteResult_keystone : (piers (keystone 255 3 1) none).arrived 0 = some (keystone 255 3 1) ∧
    PierFree (piers (keystone 255 3 1) none) (pier none) [heldKey 1] ∧ (pier none).held = none ∧ (pier none).heldNext = none ∧
    ((pier none).nc + 2 ^ 24 - 1) % 2 ^ 24 = 0 ∧ (piers (keystone 255 3 2) none).arrived 0 = some (keystone 255 3 2) ∧
    2 ^ 23 < ((pier none).nc + 2 ^ 24 - 2) % 2 ^ 24 ∧ (piers (keystone 255 3 0) none).arrived 0 = some (keystone 255 3 0) ∧
    0 < ((pier none).nc + 2 ^ 24 - 0) % 2 ^ 24 ∧ ((pier none).nc + 2 ^ 24 - 0) % 2 ^ 24 ≤ 2 ^ 23 ∧
    (piers (keystone 255 1 8388607) none).arrived 0 = some (keystone 255 1 8388607) ∧ 1 = ((pier none).ca + 2) % 4 ∧ 8388607 < 2 ^ 23 ∧
    (piers (keystone 0 2 2) none).arrived 0 = some (keystone 0 2 2) ∧ (piers (keystone 255 2 2) none).arrived 0 = some (keystone 255 2 2) ∧
    (piers (keystone 254 2 2) none).arrived 0 = some (keystone 254 2 2) ∧ 254 = ((pier none).cg + 255) % 256 ∧
    (piers (pkt 0 0 (.reopen 4095 255 0 17 15)) none).arrived 0 = some (pkt 0 0 (.reopen 4095 255 0 17 15)) := by
  simp only [PierFree]; decide +kernel

/-- The sender's tile, with the keystone word of the generation in flight. -/
def senders (b : PktBody) (att : Nat) (vstm : Bool) (key : Bool) : State :=
  net (pkt 0 0 b) fun t => { t with
    wins := [(15, sender .idle att vstm)],
    dcmds := if key then [⟨⟨.D, 0, 0x1000#64, 0#32, false, 0⟩, .key 15, GWord.zero, GWord.zero, GWord.zero, 0#9, [], none, 0#64, [], [], 0, false,
      true, some (15, 255), 511, true, 0, 0, [], [], false⟩] else [] }

theorem test_hyps_PierAndNoteResult_sender :
    (let s := senders (.closeNote 0 15 15 255 3 true) 3 true true
     s.arrived 0 = some (pkt 0 0 (.closeNote 0 15 15 255 3 true)) ∧ (s.tileAt 0).win? 15 = some (sender .idle 3 true) ∧
     s.noteMeant 0 15 1 15 = true ∧ (∀ y ∈ (s.tileAt 0).dcmds, y.ended = false ∧ y.kind = .key 15 ∧ y.ev = true) ∧ (s.tileAt 0).holds .D = false ∧
     ((s.tileAt 0).dcmds.filter fun y => decide (y.window = some (15, 255))).length = 1 ∧ (s.tileAt 0).eq.length < 64 ∧ s.dmode (0 / 16) = 0) ∧
    (let s := senders (.resend 0 15 15 255 3) 3 false true
     s.arrived 0 = some (pkt 0 0 (.resend 0 15 15 255 3)) ∧ (s.tileAt 0).win? 15 = some (sender .idle 3 false)) ∧
    (let s := senders (.resend 0 15 15 255 2) 2 false true
     s.arrived 0 = some (pkt 0 0 (.resend 0 15 15 255 2)) ∧ (s.tileAt 0).win? 15 = some (sender .idle 2 false) ∧
     (∀ y ∈ (s.tileAt 0).dcmds, y.window = some (15, 255) → y.kind.moves = false ∧ y.faulted = false)) ∧
    (net (pkt 0 0 (.congestion 23))).arrived 0 = some (pkt 0 0 (.congestion 23)) ∧
    ((piers (pkt 0 0 (.congestion 23)) (some (heldKey 2))).pierAt 0 4095).held = some (heldKey 2) := by
  decide +kernel

/-- A limiter at its least. -/
def slow : State := base.setDieAt 0 { base.dieAt 0 with rates := [(23, ⟨1, 6⟩)] }

theorem test_hyps_PierAndNoteResult_rate : ((mapGet Rate.full (slow.dieAt 0).rates 23).num : Rat) /
    2 ^ (mapGet Rate.full (slow.dieAt 0).rates 23).den < 1 := by
  have h : mapGet Rate.full (slow.dieAt 0).rates 23 = ⟨1, 6⟩ := by decide +kernel
  rw [h]; norm_num

/-! ## Hypotheses that are met: engine events, translation, tasks -/

/-- `ahead` with a word in the text. -/
def text (w : BitVec 32) (f : Tile → Tile) : State :=
  let s := ahead f
  { s with mem := s.mem.write 0x1000 (gloved (w.setWidth 64)) }

/-- The checks of a fetch at 0x1000 that one evaluation settles. -/
theorem fetches_of {s : State} {e : Eng} {w : BitVec 32} (h : ((s.tileAt 0).eng e).exp = none ∧ ((s.tileAt 0).eng e).pc = 0x1000#64 ∧
    (s.tileAt 0).level = .task ∧ tlbFind (s.tileAt 0).side 0x1000 (s.tileAt 0).tlb = some (placePage true) ∧ (s.tileAt 0).side = true ∧
    accessVerdict s (classSV (s.tileAt 0)) 0 0x1000 Rights.fetch = .ok ∧ (s.tileAt 0).pair 0x1000 = none ∧ bit (s.root 0 true) 0 = true ∧
    s.mem.read 0x1000 = gloved (w.setWidth 64)) : ∃ u, Fetches s 0 e w u := by
  obtain ⟨h1, h2, h3, h4, h5, h6, h7, h9, h8⟩ := h
  refine ⟨_, h1, 0x1000, 0, 0x1000, w.setWidth 64, ?_, by decide, h6, ?_, .inr ⟨h7, h8, rfl⟩⟩
  · simp only [FetchAddr, h3, h2]
    exact ⟨by decide, by rw [h5]; exact h9, placePage true, h4, by rw [h5]; decide, by decide⟩
  · simp only [h2]; ext i hi; simp [hi]; omega

/-- V behind at `bp p0, -1` with its outcome, and at `put` with its operand; D at an illegal word; V at a guarded word of its own. -/
def joint : State := text 0x36000FFF#32 fun t => { t with boV := [(0, .cond true)] }
def puts (w : BitVec 32) : State := text w fun t => { t with oqV := [(0, gloved 1#64)], oqM := [(0, gloved 2#64)], oqD := [(0, gloved 3#64)] }

theorem test_hyps_EngineEventResult : (∃ u, Fetches (text 0#32 id) 0 .M 0#32 u) ∧ Behind (text 0#32 id) 0 .M ∧ wordEngine 0#32 ≠ .M ∧
    decode 0#32 = .ok (.add 0#6 0#6 0#6) ∧ (∃ u, Fetches (text 0x8E000000#32 fun t => { t with eS := t.eV }) 0 .S 0x8E000000#32 u) ∧
    ((text 0x8E000000#32 fun t => { t with eS := t.eV }).tileAt 0).runs = true := by
  refine ⟨fetches_of (by decide +kernel), by simp only [Behind]; decide +kernel, by decide, by decide, fetches_of (by decide +kernel),
    by decide +kernel⟩

theorem test_hyps_EngineEventResult_joint : (∃ u, Fetches joint 0 .V 0x36000FFF#32 u) ∧ Behind joint 0 .V ∧
    decode 0x36000FFF#32 = .ok (.bp 0#6 0xFFF#12) ∧ (joint.tileAt 0).bo .V = (((joint.tileAt 0).eng .V).pos, .cond true) :: [] ∧
    joint.dmode (0 / 16) = 0 := by
  refine ⟨fetches_of (by decide +kernel), by simp only [Behind]; decide +kernel, by decide, by decide +kernel, by decide +kernel⟩

theorem test_hyps_EngineEventResult_put : (∃ u, Fetches (puts 0x1B540001#32) 0 .V 0x1B540001#32 u) ∧ Behind (puts 0x1B540001#32) 0 .V ∧
    decode 0x1B540001#32 = .ok (.putV 21#6 0#6) ∧ 0 ≤ ((puts 0x1B540001#32).tileAt 0).minPos ∧
    ((puts 0x1B540001#32).tileAt 0).oq .V = (0, gloved 1#64) :: [] ∧
    (∃ u, Fetches (puts 0x1B040002#32) 0 .M 0x1B040002#32 u) ∧ decode 0x1B040002#32 = .ok (.putM 1#6 0#6) ∧
    ((puts 0x1B040002#32).tileAt 0).oq .M = (0, gloved 2#64) :: [] ∧
    (∃ u, Fetches (puts 0x1B640003#32) 0 .D 0x1B640003#32 u) ∧ decode 0x1B640003#32 = .ok (.putD 25#6 0#6) ∧
    ((puts 0x1B640003#32).tileAt 0).oq .D = (0, gloved 3#64) :: [] := by
  refine ⟨fetches_of (by decide +kernel), by simp only [Behind]; decide +kernel, by decide, by decide, by decide +kernel,
    fetches_of (by decide +kernel), by decide, by decide +kernel, fetches_of (by decide +kernel), by decide, by decide +kernel⟩

theorem test_hyps_EngineEventResult_guard : (∃ u, Fetches (text 0x404110C8#32 id) 0 .V 0x404110C8#32 u) ∧ wordEngine 0x404110C8#32 = .V ∧
    decode 0x404110C8#32 = .ok (.vadd 2#4 1#5 2#5 3#5 1#3 0#3) ∧ ((text 0x404110C8#32 id).tileAt 0).predAt 2 0 = false ∧
    ((text 0x400110C8#32 id).tileAt 0).predAt 0 0 = true ∧ (∃ u, Fetches (text 0x400110C8#32 id) 0 .V 0x400110C8#32 u) ∧
    decode 0x400110C8#32 = .ok (.vadd 0#4 1#5 2#5 3#5 1#3 0#3) ∧ (∃ u, Fetches (text 0xFFFFFFFF#32 id) 0 .D 0xFFFFFFFF#32 u) ∧
    decode 0xFFFFFFFF#32 = .error .reservedMajor ∧ targetOf 0x1000 = .hbm 0 0x1000 ∧
    accessVerdict base (classSV (base.tileAt 0)) (0 / 16) 0x1000 Rights.fetch = .ok ∧ base.mem.read 0x1000 = gloved 0#64 ∧
    checkWord (({ base with mem := base.mem.write 0x1000 ⟨3#64, 0#8⟩ } : State).mem.read 0x1000) = .bad := by
  refine ⟨fetches_of (by decide +kernel), by decide, by decide, by decide +kernel, by decide +kernel, fetches_of (by decide +kernel), by decide,
    fetches_of (by decide +kernel), by decide, by decide +kernel⟩

/-- A late data fault found while V stands at its own word, or at S's. -/
def lates (w : BitVec 32) : State := text w fun t => { t with late := some (⟨cDFLT, 3, 7#64, none⟩, ⟨.D, 0, 0x1000#64, 0#32, false, 0⟩) }

theorem test_hyps_LateTrapAndTranslationResult : ((lates 0x400110C8#32).tileAt 0).late = some (⟨cDFLT, 3, 7#64, none⟩, ⟨.D, 0, 0x1000#64, 0#32, false, 0⟩) ∧
    ((lates 0x400110C8#32).tileAt 0).works = true ∧ ((lates 0x400110C8#32).tileAt 0).lagging = .V ∧
    ((Eng.V, 0) ∉ ((lates 0x400110C8#32).tileAt 0).sending ∧ ((lates 0x400110C8#32).tileAt 0).remote = []) ∧ (∃ u, Fetches (lates 0x400110C8#32) 0 .V 0x400110C8#32 u) ∧
    (((lates 0x400110C8#32).tileAt 0).eng (wordEngine 0x400110C8#32)).pos = 0 ∧ cDFLT ≠ cGLOVE ∧ cDFLT ≠ cIGLOVE ∧ cDFLT ≠ cKVSHARE ∧
    AreaFits { lates 0x400110C8#32 with cur := 0 } ∧ (lates 0x400110C8#32).dmode (0 / 16) = 0 ∧ (∃ u, Fetches (lates 0#32) 0 .V 0#32 u) ∧ ((lates 0#32).tileAt 0).lagging = .V ∧
    (((lates 0#32).tileAt 0).eng (wordEngine 0#32)).pos ≠ 0 ∧ decode 0#32 = .ok (.add 0#6 0#6 0#6) := by
  refine ⟨by decide +kernel, by decide +kernel, by decide +kernel, by decide +kernel, fetches_of (by decide +kernel), by decide +kernel, by decide,
    by decide, by decide, area_of (by decide +kernel) (by decide +kernel), by decide +kernel, fetches_of (by decide +kernel), by decide +kernel,
    by decide +kernel, by decide⟩

/-- Tables for the page at 0x2000 of the learner side, from the root at 0x8000 on, with the leaf given. -/
def walks (leaf : BitVec 64) : State :=
  let s := base.setDieReg 0 8 0x8001#64
  let m := ((s.mem.write 0x8000 (gloved 0x9001#64)).write 0x9000 (gloved 0xA001#64)).write 0xA000 (gloved 0xB001#64)
  { s with mem := m.write 0xB010 (gloved leaf) }

theorem walkReads_of {s : State} {pa : Nat} {e : BitVec 64} (h : s.mem.read pa = gloved e ∧ targetOf pa = .hbm 0 pa ∧
    accessVerdict s (classSV (s.tileAt 0)) (0 / 16) pa Rights.load = .ok) : WalkReads s 0 pa e := ⟨h.1, ⟨0, pa, h.2.1⟩, h.2.2⟩

theorem test_hyps_LateTrapAndTranslationResult_walk : (0x8001#64 : BitVec 64) = (walks 0x207F#64).dieReg (0 / 16)
      (if ((walks 0x207F#64).tileAt 0).side = true then 8 else 0) ∧
    WalkReads (walks 0x207F#64) 0 (bits (0x8001#64) 47 12 * 4096 + 8 * ((0x2000#64).toNat / 2 ^ (12 + 9 * 3) % 512)) 0x9001#64 ∧ isTable 0x9001#64 ∧
    WalkReads (walks 0x207F#64) 0 (bits (0x9001#64) 47 12 * 4096 + 8 * ((0x2000#64).toNat / 2 ^ (12 + 9 * 2) % 512)) 0xA001#64 ∧ isTable 0xA001#64 ∧
    WalkReads (walks 0x207F#64) 0 (bits (0xA001#64) 47 12 * 4096 + 8 * ((0x2000#64).toNat / 2 ^ (12 + 9 * 1) % 512)) 0xB001#64 ∧ isTable 0xB001#64 ∧
    WalkReads (walks 0x207F#64) 0 (bits (0xB001#64) 47 12 * 4096 + 8 * ((0x2000#64).toNat / 2 ^ (12 + 9 * 0) % 512)) 0x207F#64 ∧
    bit (0x207F#64) 0 = true ∧ bit (0x207F#64) 1 = true ∧ bits (0x207F#64) 11 9 ≤ 3 ∧ bits (0x207F#64) 63 48 = 0 ∧ bits (0x207F#64) 8 7 ≤ 2 ∧
    WalkReads (walks 0#64) 0 0xB010 0#64 := by
  refine ⟨by decide +kernel, walkReads_of (by decide +kernel), ⟨by decide, by decide, by decide⟩, walkReads_of (by decide +kernel),
    ⟨by decide, by decide, by decide⟩, walkReads_of (by decide +kernel), ⟨by decide, by decide, by decide⟩, walkReads_of (by decide +kernel), by decide,
    by decide, by decide, by decide, by decide, walkReads_of (by decide +kernel)⟩

/-- A tile with an invalidation of a task, or of a handler. -/
def invs (sup : Bool) : State := tiled fun t => { t with tlbinvs := [⟨0, 0x2000#64, false, true, 511, sup⟩] }

theorem test_hyps_LateTrapAndTranslationResult_inv : ((invs false).tileAt 0).tlbinvs = ⟨0, 0x2000#64, false, true, 511, false⟩ :: [] ∧
    ((invs false).tileAt 0).tlbinvs.find? (·.sup) = none ∧ ((invs false).tileAt 0).cut = none ∧ ((invs false).tileAt 0).holds .D = false ∧ ((invs false).tileAt 0).eq.length < 64 ∧
    (invs false).dmode (0 / 16) = 0 ∧ ((invs true).tileAt 0).tlbinvs = ⟨0, 0x2000#64, false, true, 511, true⟩ :: [] ∧
    ((invs true).tileAt 0).tlbinvs.find? (·.sup) = some ⟨0, 0x2000#64, false, true, 511, true⟩ ∧ ((invs true).tileAt 0).cut = none := by
  decide +kernel

/-- Units of the learner side: a record of the lowest level, aged and promoted twice, and a gang. -/
def unit1 (l : Nat) : QUnit := ⟨true, l, 0, [⟨0x1000#64, 0#64, 0#64, 0#64⟩], [], false, 0#64, true, 4096, 2, none⟩
def gang7 : QUnit := ⟨true, 0, 7, List.replicate 4 ⟨0x1000#64, 0#64, 0#64, 0#64⟩, [], true, 0#64, false, 0, 0, none⟩

/-- A record of the lowest level in a spill ring. -/
def spill : SpillNote := ⟨7, 0, false, 0, 0#64, false, 4096, 2, none⟩

/-- A launch of one record on this die, or of a gang of four, or of a record on die 1. -/
def expand (c : BitVec 64) : Expand := ⟨[0x1000#64, 0#64, 0#64, 0#64, 0#64, 0#64, c, 0#64], [0], 0⟩

/-- `base` with die 0's queues. -/
def queued (f : Die → Die) : State := base.setDieAt 0 (f (base.dieAt 0))

theorem test_hyps_TaskStartResult : let s := queued fun x => { x with units := [unit1 3] }
    s.turn 1 = true ∧ (∀ b, (s.dieAt (1 / 16)).gangHead b = none) ∧
    (s.dieAt (1 / 16)).offer (s.tileAt 1).side = some (3, .pool (unit1 3)) ∧
    (let z := queued fun x => { x with units := [gang7], reserveL := some (7, 3) }
     z.reservedUnit 0 3 true = some gang7 ∧ z.reservedUnit 0 3 false = none ∧ (z.dieAt 0).gangHead false = none ∧ gang7.recs.length = 4 ∧
     z.clusterFree 0 3 = true) := by
  decide +kernel

theorem test_hyps_TaskStartResult_launch : let s := fun c => queued fun x => { x with launches := [expand c] }
    ((s 0x700000000#64).dieAt 0).nextLaunch = some (0, expand 0x700000000#64) ∧ (s 0x700000000#64).frozen = false ∧
    (s 0x700000000#64).fatal = false ∧ hdrDie (expand 0x700000000#64).hdr [0] 0 = 0 ∧ bit (0x700000000#64) 35 = false ∧
    ((s 0xF00000000#64).dieAt 0).nextLaunch = some (0, expand 0xF00000000#64) ∧ (s 0xF00000000#64).wholeCluster 0 true = true ∧
    (let c : BitVec 64 := 0x10700000000#64
     ((s c).dieAt 0).nextLaunch = some (0, expand c) ∧ hdrDie (expand c).hdr [0] 0 ≠ 0) := by
  decide +kernel

theorem test_hyps_TaskStartResult_spill : ∀ n ∈ [spill, { spill with gang := true }], let s := queued fun x => { x with spills := [n] }
    (s.dieAt 0).occ true < 3840 ∧ (s.dieAt 0).oldestSpill true = some n ∧
    SpillAt s 0 n (List.replicate (if n.gang = true then 4 else 1) ⟨0#64, 0#64, 0#64, 0#64⟩) ∧
    (s.dieAt 0).reservedAt true 3 = none ∧ (s.dieAt 0).head true 3 = some (.ring n) ∧ bits (s.dieReg 0 0x20010) 15 0 ≤ n.aged := by
  have k : ∀ n ∈ [spill, { spill with gang := true }], let s := queued fun x => { x with spills := [n] }
      (∀ k < (if n.gang = true then 4 else 1), RecordAt s (s.spillAddr 0 n.ring (n.j + k)) ⟨0#64, 0#64, 0#64, 0#64⟩) ∧
      (s.dieAt 0).occ true < 3840 ∧ (s.dieAt 0).oldestSpill true = some n ∧
      (s.dieAt 0).reservedAt true 3 = none ∧ (s.dieAt 0).head true 3 = some (.ring n) ∧ bits (s.dieReg 0 0x20010) 15 0 ≤ n.aged := by
    simp only [RecordAt]; decide +kernel
  intro n hn
  obtain ⟨h, r⟩ := k n hn
  refine ⟨r.1, r.2.1, ⟨by simp, fun j x hx => ?_⟩, r.2.2⟩
  obtain ⟨hj, e⟩ := List.getElem?_eq_some_iff.mp hx
  rw [List.getElem_replicate] at e
  exact e ▸ h j (by simpa using hj)

theorem test_hyps_TaskStartResult_aging : (let z := queued fun x => { x with units := [unit1 3] }
     (z.dieAt 0).reservedAt true 3 = none ∧ (z.dieAt 0).head true 3 = some (.pool (unit1 3)) ∧
     bits (z.dieReg 0 0x20010) 15 0 ≤ (unit1 3).aged) ∧
    (let u : QUnit := { gang7 with level := 3, aged := 4096, promoted := 2 }
     let z := queued fun x => { x with units := [u], reserveL := some (7, 0) }
     (z.dieAt 0).reservedAt true 3 = some u ∧ (z.dieAt 0).reserved true = some (u.arrival, 0)) := by
  decide +kernel

/-- A tile whose task has ended, with a JOIN and a polite request of firmware. -/
def ended (pre : Bool) : State := tiled fun t =>
  { t with
    ending := true, task := some ⟨⟨0x1000#64, 0#64, 0x2000#64, 0#64⟩, none, 0, 3⟩, pre := if pre then some ⟨0#64, false, true⟩ else none,
    preq := if pre then 5#64 else 0#64 }

theorem test_hyps_TaskEndAndJoinResult : ((ended true).tileAt 0).ending = true ∧ ((ended true).tileAt 0).run = .running ∧
    ((ended true).tileAt 0).cut = none ∧ ((ended true).tileAt 0).finished = true ∧ ((ended true).tileAt 0).adopted = none ∧ NoDirty (ended true) 0 ∧
    (∀ w ∈ ((ended true).tileAt 0).wins, w.2.outq = []) ∧ ((ended true).tileAt 0).pre = some ⟨0#64, false, true⟩ ∧ GangDone (ended true) 0 ∧ Homed (ended true) 0 ∧
    ((ended false).tileAt 0).finished = true ∧ ((ended false).tileAt 0).pre = none := by
  refine ⟨by decide +kernel, by decide +kernel, by decide +kernel, by decide +kernel, by decide +kernel, by simp only [NoDirty]; decide +kernel,
    by decide +kernel, by decide +kernel, ?_, ?_, by decide +kernel⟩
  · intro k n h e
    rw [show ((ended true).tileAt 0).task = some ⟨⟨0x1000#64, 0#64, 0x2000#64, 0#64⟩, none, 0, 3⟩ by decide +kernel, Option.some.injEq] at h
    subst h
    cases e
  · simp only [Homed]; decide +kernel

/-- The same page tables with a join counter in the page, and a join step of tile 0 on it. -/
def join (va c : BitVec 64) : State :=
  let s := walks 0x207F#64
  let z := s.setDieAt 0 { s.dieAt 0 with joins := [⟨va, true, 0#64, 0⟩] }
  { z with mem := z.mem.write 0x2000 (gloved c) }

theorem test_hyps_TaskEndAndJoinResult_join : (join 0x5000#64 0#64).reach 0 true 1 0x5000#64 Rights.store = .bad [] ∧
    (join 0x2000#64 0#64).reach 0 true 1 0x2000#64 Rights.store = .at 0x2000 [] ∧ (join 0x2000#64 0#64).mem.read 0x2000 = gloved 0#64 ∧
    (join 0x2000#64 2#64).reach 0 true 1 0x2000#64 Rights.store = .at 0x2000 [] ∧ (join 0x2000#64 2#64).mem.read 0x2000 = gloved 2#64 ∧
    (join 0x2000#64 1#64).reach 0 true 1 0x2000#64 Rights.store = .at 0x2000 [] ∧ (join 0x2000#64 1#64).mem.read 0x2000 = gloved 1#64 ∧
    (let s := join 0x2000#64 1#64
     let z := s.setDieAt 0 { s.dieAt 0 with joins := [] }
     let y : State := { z with mem := s.mem.write 0x2000 (gloved 0#64) }
     (∀ i < 4, y.reach (0 / 16) true 1 (0x2000#64 + 8#64 * BitVec.ofNat 64 (i + 1)) Rights.load = .at (0x2008 + 8 * i) []) ∧
     (∀ i < 4, y.mem.read (0x2008 + 8 * i) = gloved 0#64) ∧ (s.dieAt 0).occ true < 4096 ∧ (∀ n ∈ s.host.joins, n.join ≠ 0x2000#64)) := by
  decide +kernel

/-! ## Hypotheses that are met: pre-emption, brim moves and registers -/

/-- A bounded check of every tile of die 0. -/
theorem onDie0 {P : Nat → Prop} (h : ∀ g < 16, P g) : ∀ g, g / 16 = 0 → P g := fun g e => h g (by omega)

/-- Die 0 with all tiles but tile 0 retired, a task of level 2 on tile 0 and a record of level 0 waiting since 5, and PQT. -/
def starved : State :=
  let s := tiled fun t => { t with task := some ⟨⟨0x1000#64, 0#64, 0x2000#64, 0#64⟩, none, 0, 2⟩ }
  let z := ((s.setDieReg 0 0x30048 0xFFFE#64).setDieReg 0 0x20018 1#64).setDieReg 0 0x20030 32#64
  z.setDieAt 0 { z.dieAt 0 with units := [{ unit1 0 with headSince := some 5#64 }] }

theorem test_hyps_PreemptionResult : bit (0x30001#64) 16 = true ∧ bit (0x30001#64) 18 = false ∧
    (∀ k < 16, bit (0x30001#64) k = true → Single starved (16 * 0 + k)) ∧ (starved.tileAt 0).run = .running ∧ (starved.tileAt 0).pre = none ∧
    (starved.tileAt 1).run = .idle ∧ NoneResuming starved 0 ∧ bit (0x50001#64) 18 = true ∧ bit (0x40001#64) 16 = false := by
  simp only [Single]
  refine ⟨by decide, by decide, ?_, by decide +kernel, by decide +kernel, by decide +kernel,
    onDie0 (by decide +kernel), by decide, by decide⟩
  intro k hk hb c hc
  obtain rfl : k = 0 := (by decide : ∀ k < 16, bit (0x30001#64) k = true → k = 0) k hk hb
  obtain rfl : _ = c := Option.some.inj (((by decide +kernel : (starved.tileAt (16 * 0 + 0)).task =
    some ⟨⟨0x1000#64, 0#64, 0x2000#64, 0#64⟩, none, 0, 2⟩).symm).trans hc)
  rfl

theorem test_hyps_PreemptionResult_sched : bits (starved.dieReg 0 0x20018) 19 0 ≠ 0 ∧
    (∀ h ∈ starved.sideTiles 0 true, (starved.tileAt h).pre = none) ∧
    16 < bits (starved.dieReg 0 0x20030) 10 0 - (starved.dieAt 0).slots.length ∧ starved.frozen = false ∧
    starved.starving 0 true = some 5#64 ∧
    ((starved.sideTiles 0 true).find? fun h => (starved.sideTiles 0 true).all fun k => starved.takenBefore h k) = some 0 := by
  decide +kernel

/-- Tile 0 at the end of a polite stage, one stopped with slot 0, and an idle package with that image queued. -/
def polite : State :=
  let s := base.setDieReg 0 0x20030 32#64
  s.setTile { s.tile with pre := some ⟨0x100#64, false, true⟩ }
def cutOff (ev : Bool) : State := tiled fun t =>
  { t with
    cut := some ⟨some 0⟩, pre := some ⟨0x100#64, ev, true⟩, task := some ⟨⟨0x1000#64, 0#64, 0x2000#64, 0#64⟩, none, 0, 2⟩,
    v := [(4095, gloved 1#64)] }

theorem test_hyps_PreemptionResult_cut : (polite.tileAt 0).pre = some ⟨0x100#64, false, true⟩ ∧ (polite.tileAt 0).run = .running ∧
    (polite.tileAt 0).cut = none ∧ (polite.tileAt 0).level = .task ∧ (polite.tileAt 0).sending = [] ∧
    (∀ w ∈ (polite.tileAt 0).wins, w.2.outq = []) ∧ NoDirty polite 0 ∧ polite.freeSlot (0 / 16) = some 0 ∧
    (∀ ev, ((cutOff ev).tileAt 0).cut = some ⟨some 0⟩ ∧ ((cutOff ev).tileAt 0).pre = some ⟨0x100#64, ev, true⟩ ∧
      ((cutOff ev).tileAt 0).task = some ⟨⟨0x1000#64, 0#64, 0x2000#64, 0#64⟩, none, 0, 2⟩ ∧ (((cutOff ev).tileAt 0).v.map (·.1)).Nodup ∧
      (∀ q ∈ ((cutOff ev).tileAt 0).v, q.1 < 4096) ∧ Homed (cutOff ev) (0 / 16) ∧
      (cutOff ev).hasTile (0 / 16) ((cutOff ev).tileAt 0).side = true) ∧
    targetOf (bits ((cutOff false).dieReg (0 / 16) 0x20028) 47 16 * 2 ^ 16 + 0 * 0x280000) = .hbm 0 0 ∧
    ((cutOff false).dieAt (0 / 16)).occ ((cutOff false).tileAt 0).side + 1 ≤ 4112 := by
  simp only [NoDirty, Homed]; decide +kernel

/-- An image in slot 0 with nothing but its header, or an image whose responses are still out, or none, and its unit; tile 1 asks for
it, or holds it already. -/
def imaged (m : Mem) (held : Bool) : State :=
  let u : QUnit := ⟨true, 2, 0, [], [0], false, 0#64, false, 0, 0, none⟩
  let s := base.setDieAt 0 { base.dieAt 0 with units := if held then [] else [u], slots := [0] }
  let s := s.setTileAt 1 { s.tileAt 1 with resuming := if held then some (0, u) else none }
  { s with mem := m }

/-- The memory of an image with the flags `g` of its header and the number `n` of its unanswered requests. -/
def headed (g n : BitVec 8) : Mem :=
  ⟨[(0, 0xE1#8), (1, 0xC7#8), (2, 0x24#8), (3, 0x0F#8), (4, Config.abi.extractLsb' 0 8), (5, Config.abi.extractLsb' 8 8), (6, g), (136, n)], []⟩

theorem test_hyps_PreemptionResult_restore : ∀ m ∈ [headed 0#8 0#8, base.mem, headed 0#8 1#8],
    (let s := imaged m false
     (s.tileAt 1).resuming = none ∧ s.turn 1 = true ∧ (∀ b, (s.dieAt (1 / 16)).gangHead b = none) ∧
     (s.dieAt (1 / 16)).offer (s.tileAt 1).side = some (2, .pool ⟨true, 2, 0, [], [0], false, 0#64, false, 0, 0, none⟩) ∧
     (s.dieAt (1 / 16)).comms = [] ∧ NoDirty s 1) ∧
    ((imaged m true).tileAt 1).resuming = some (0, ⟨true, 2, 0, [], [0], false, 0#64, false, 0, 0, none⟩) ∧
    ((imaged m true).tileAt 1).run = .idle := by
  simp only [NoDirty]; decide +kernel

/-- The first doubleword of `headed` with the ABI's value `a`. -/
def headWord (g : BitVec 8) (a : BitVec 16) : BitVec 64 :=
  0#8 ++ g ++ a.extractLsb' 8 8 ++ a.extractLsb' 0 8 ++ 0x0F#8 ++ 0x24#8 ++ 0xC7#8 ++ 0xE1#8

theorem header_bits (g : BitVec 8) (a : BitVec 16) : bits (headWord g a) 31 0 = 0x0F24C7E1 ∧ bits (headWord g a) 47 32 = a.toNat := by
  have h : (headWord g a).extractLsb' 32 16 = a := by
    ext i hi
    simp only [headWord, BitVec.getElem_extractLsb', BitVec.getLsbD_append, BitVec.getLsbD_extractLsb']
    grind
  have k : (headWord g a).extractLsb' 0 32 = 0x0F24C7E1#32 := by
    ext i hi
    simp only [headWord, BitVec.getElem_extractLsb', BitVec.getLsbD_append]
    interval_cases i <;> simp
  have h2 := congrArg BitVec.toNat h
  have k2 := congrArg BitVec.toNat k
  simp only [BitVec.extractLsb'_toNat, Nat.shiftRight_eq_div_pow] at h2 k2
  exact ⟨by simpa [bits] using k2, by simpa [bits] using h2⟩

theorem headed_word (g n : BitVec 8) : ((headed g n).read 0).data = headWord g Config.abi := rfl

theorem headed_good (g n : BitVec 8) : imageGood (headed g n) 0 = true := by
  simp [imageGood, headed_word, header_bits, imageMagic]

theorem test_hyps_PreemptionResult_image : (imaged (headed 0#8 0#8) false).imageReady (1 / 16) 0 = true ∧
    (taskOf (headed 0#8 0#8) 0 base.ftb).wins = [] ∧ (taskOf (headed 0#8 0#8) 0 base.ftb).dcmds = [] ∧
    (imaged base.mem false).imageReady (1 / 16) 0 = true ∧ (imaged (headed 0#8 1#8) false).imageReady (1 / 16) 0 = false := by
  have e : ∀ m, (imaged m false).slotAddr (1 / 16) 0 = 0 := fun m => by
    have k : (imaged base.mem false).slotAddr (1 / 16) 0 = 0 := by decide +kernel
    simpa only [State.slotAddr, State.dieReg, State.dieAt, imaged] using k
  have r : ∀ n, (imaged (headed 0#8 n) false).imageReady (1 / 16) 0 =
      (!true || decide ((imageCounts (headed 0#8 n) 0).1 ≤ (imageCounts (headed 0#8 n) 0).2)) := fun n => by
    rw [State.imageReady, e, ← headed_good 0#8 n]; rfl
  rw [r, r]
  decide +kernel

theorem test_hyps_PreemptionResult_header : ImageHeader (imaged (headed 0#8 0#8) false) 0 ∧ ¬ ImageHeader (imaged base.mem false) 0 := by
  refine ⟨?_, fun h => absurd h.1 (by decide +kernel)⟩
  simp only [ImageHeader, imaged, headed_word]
  exact header_bits 0#8 Config.abi

theorem test_hyps_PreemptionResult_inject : base.jtag ≠ .extest ∧
    bits (base.dieReg 0 0x20028) 47 16 * 2 ^ 16 + bits (1024#64) 9 0 * 0x280000 = 0 ∧ ¬ ImageHeader base 0 ∧
    (base.dieAt 0).occ (bit (1024#64) 10) + 1 ≤ 4112 ∧ mapGet [] (base.dieAt 0).gangWait 1 = [] ∧ (base.dieAt 0).expq = [] ∧
    (let s : State := { base with mem := headed 1#8 0#8 }
     ImageHeader s 0 ∧ bits (s.mem.read 0).data 55 48 % 8 = 1) := by
  refine ⟨by decide +kernel, by decide +kernel, fun h => absurd h.1 (by decide +kernel), by decide +kernel, by decide +kernel, by decide +kernel, ?_, ?_⟩
  · simp only [ImageHeader, headed_word]; exact header_bits 1#8 Config.abi
  · have k : (headWord 1#8 Config.abi).extractLsb' 48 8 = 1#8 := by
      ext i hi
      simp only [headWord, BitVec.getElem_extractLsb', BitVec.getLsbD_append]
      interval_cases i <;> simp
    have h := congrArg BitVec.toNat k
    simp only [BitVec.extractLsb'_toNat, Nat.shiftRight_eq_div_pow] at h
    simp only [headed_word]
    norm_num at h
    norm_num [bits]
    omega

/-- Die 0 with a given BRIM and BMOV, its tiles idle as at reset. -/
def brims (o b : BitVec 64) : State := (State.reset.setDieReg 0 0x20000 o).setDieReg 0 0x20008 b

theorem noGangs_of {s : State} (h : s.heldUnits = [] ∧ ∀ e < 24, (s.dieAt e).units = []) : NoGangs s :=
  ⟨h.1, fun e he u hu => by rw [h.2 e he] at hu; cases hu⟩

theorem test_hyps_BrimMoveResult : bits ((brims 3#64 0x100#64).dieReg 0 0x20008) 9 8 ≠ 0 ∧ 96 < bits (97#64) 6 0 ∧
    bits ((brims 3#64 0#64).dieReg 0 0x20008) 9 8 = 0 ∧ bits (96#64) 6 0 ≤ 96 ∧ (∀ g, ¬ Moves 0 (bits ((brims 3#64 0#64).dieReg 0 0x20000) 6 0) 3 g) ∧
    Moves 0 (bits ((brims 3#64 0#64).dieReg 0 0x20000) 6 0) 96 12 ∧
    (∀ g, Moves 0 (bits ((brims 3#64 0#64).dieReg 0 0x20000) 6 0) 96 g → ((brims 3#64 0#64).tileAt g).run = .idle ∧
      ((brims 3#64 0#64).tileAt g).task = none ∧ ((brims 3#64 0#64).tileAt g).resuming = none) := by
  have e : bits ((brims 3#64 0#64).dieReg 0 0x20000) 6 0 = 3 := by decide +kernel
  rw [e]
  refine ⟨by decide +kernel, by decide, by decide +kernel, by decide, fun g h => ?_, by simp [Moves], fun g h => ?_⟩
  · obtain ⟨_, h | h⟩ := h <;> omega
  · exact (by decide +kernel : ∀ g < 16, ((brims 3#64 0#64).tileAt g).run = .idle ∧ ((brims 3#64 0#64).tileAt g).task = none ∧
      ((brims 3#64 0#64).tileAt g).resuming = none) g
      (by have := h.1; omega)

theorem test_hyps_BrimMoveResult_stages : bits ((brims 0#64 0x104#64).dieReg 0 0x20008) 9 8 = 1 ∧
    (∀ g, Moves 0 (bits ((brims 0#64 0x104#64).dieReg 0 0x20000) 6 0) (bits ((brims 0#64 0x104#64).dieReg 0 0x20008) 6 0) g →
      ((brims 0#64 0x104#64).tileAt g).run = .idle ∨ ((brims 0#64 0x104#64).tileAt g).run = .frozen) ∧
    (let s := (base.setDieReg 0 0x20000 0#64).setDieReg 0 0x20008 0x104#64
     Moves 0 (bits (s.dieReg 0 0x20000) 6 0) (bits (s.dieReg 0 0x20008) 6 0) 0 ∧ ¬ ((s.tileAt 0).run = .idle ∨ (s.tileAt 0).run = .frozen)) ∧
    bits ((brims 0#64 0x204#64).dieReg 0 0x20008) 9 8 = 2 ∧ bits ((brims 0#64 0x304#64).dieReg 0 0x20008) 9 8 = 3 ∧ NoGangs (brims 0#64 0x304#64) ∧
    (brims 0#64 0#64).host.writes = [] ∧ ∀ k < 24, ((brims 0#64 0#64).dieAt k).kvreps = [] := by
  refine ⟨by decide +kernel, fun g h => .inl ?_, ?_, by decide +kernel, by decide +kernel, noGangs_of (by decide +kernel), by decide +kernel,
    by decide +kernel⟩
  · exact (by decide +kernel : ∀ g < 16, ((brims 0#64 0x104#64).tileAt g).run = .idle) g (by have := h.1; omega)
  · simp only [Moves]; decide +kernel

/-- Tables that let class 0 write die 0's grant entries, and a key-value pool with one page of one slot. -/
def granted : State := base.setDieReg 0 0x1E08 3#64
def pools : State :=
  let s := base.setDieReg 0 0x2000 0x6001#64
  { s with mem := (s.mem.write 0x6000 (gloved 1#64)).write 0x6010 (gloved 0x10000000001#64) }

theorem test_hyps_RegisterWriteResult : accessVerdict granted 0 0 (2 ^ 47 + 0 * 2 ^ 37 + (0x10000 + 0xFFF8)) Rights.store = .ok ∧
    accessVerdict base 0 0 (2 ^ 47 + 0 * 2 ^ 37 + (0x10000 + 0xFFF8)) Rights.store ≠ .ok ∧ (base.tileAt 1).run ≠ .running ∧
    (base.tileAt 0).run = .running ∧ bit (0x4000000000000000#64) 62 = true ∧ bit (0#64) 62 = false ∧ bit (base.dieReg 0 (0x2000 + 8 * 0)) 0 = false ∧
    NoGangs base ∧ (1#64 = BitVec.ofNat 64 (2 ^ 0)) ∧ (base.tileAt (16 * 0 + 1)).task = none ∧ bit (base.dieReg 0 0x30048) 1 = false := by
  refine ⟨by decide +kernel, by decide +kernel, by decide +kernel, by decide +kernel, by decide, by decide, by decide +kernel,
    noGangs_of (by decide +kernel), by decide, by decide +kernel, by decide +kernel⟩

theorem test_hyps_RegisterWriteResult_kvrep : bit (pools.dieReg 0 (0x2000 + 8 * 0)) 0 = true ∧
    bits (pools.dieReg 0 (0x2000 + 8 * 0)) 47 6 * 64 = 0x6000 ∧
    (∀ p ∈ [(0x6000, 1#64), (0x6008, 0#64), (0x6010, 0x10000000001#64)], targetOf p.1 = .hbm 0 p.1 ∧
      accessVerdict pools 4 0 p.1 Rights.load = .ok ∧ pools.mem.read p.1 = gloved p.2) ∧
    bit (0x10000000001#64) 40 = true ∧ bits (0#64) 31 0 < bits (0x10000000001#64) 31 0 ∧
    mapGet [] (pools.dieAt 0).damage 0 = [] := by
  decide +kernel

theorem test_hyps_RegisterWriteResult_debug : State.reset.sec.state = 1 ∧ bits (2#64) 1 0 ≤ 2 ∧ bits (3#64) 1 0 = 3 ∧
    (let s := fun n : Nat => { State.reset with sec := ⟨n, false, 0#256, 0#64⟩ }
     (s 0).sec.state = 0 ∧ (s 2).sec.state = 2 ∧ (s 3).sec.state = 3) := by
  decide +kernel

/-! ## Hypotheses that are met: reliability, security, host, reset and power -/

/-- A doubleword at 0x2000 of the given data and check byte, with error log and its ring full or not. -/
def scrubs (w : GWord) (on full : Bool) : State :=
  let s := (base.setDieReg 0 0x30000 (if on then 0x4001#64 else 0#64)).setDieReg 0 0x30008 1#64
  let z := if full then s.setDieReg 0 0x30010 1#64 else s
  { z with mem := z.mem.write 0x2000 w }

theorem test_hyps_ReliabilityResult : targetOf 0x2000 = .hbm 0 0x2000 ∧ (scrubs (gloved 5#64) true false).mem.read 0x2000 = gloved 5#64 ∧
    checkWord ((scrubs ⟨1#64, 0#8⟩ true false).mem.read 0x2000) = .ok 0#64 true ∧
    (∀ on full, checkWord ((scrubs ⟨3#64, 0#8⟩ on full).mem.read 0x2000) = .bad ∧ bit ((scrubs ⟨3#64, 0#8⟩ on full).dieReg 0 0x30000) 0 = on ∧
      (decide (((scrubs ⟨3#64, 0#8⟩ on full).dieReg 0 0x30010 - (scrubs ⟨3#64, 0#8⟩ on full).dieReg 0 0x30018).toNat <
        bits ((scrubs ⟨3#64, 0#8⟩ on full).dieReg 0 0x30008) 20 0) = !full)) ∧ NoGangs base := by
  refine ⟨by decide, by decide +kernel, by decide +kernel, by decide +kernel, noGangs_of (by decide +kernel)⟩

/-- A halted tile that halted at `now` and was last brought back at 0, and a die that freezes, last or not. -/
def halts (now : BitVec 64) : State :=
  let s := base.setDieReg 0 0x20030 32#64
  s.setTile { s.tile with run := .halted, haltAt := some 0#64, haltFtb := now }
def freezes (last : Bool) (dumpb : BitVec 64) : State :=
  let s : State := { base with fatal := true }
  let z := if last then (List.range 23).foldl (fun s k => s.setDieAt (k + 1) { s.dieAt (k + 1) with dumped := true }) s else s
  z.setDieReg 0 0x30030 dumpb

theorem test_hyps_ReliabilityResult_halt : (∀ now, ((halts now).tileAt 0).run = .halted ∧ ((halts now).tileAt 0).haltAt = some 0#64 ∧
      ((halts now).tileAt 0).haltFtb = now ∧ GangDone (halts now) 0) ∧ (halts 999999#64).freeSlot (0 / 16) = some 0 ∧
    Homed (halts 999999#64) (0 / 16) ∧ NoGangs (halts 999999#64) ∧ (999999#64 - 0#64).toNat < 1000000 ∧
    (halts 1000000#64).freeSlot (0 / 16) = some 0 ∧ Homed (halts 1000000#64) (0 / 16) ∧ 1000000 ≤ (1000000#64 - 0#64).toNat ∧
    NoneResuming (freezes true 0#64) 0 ∧ NoneResuming (freezes false 0x200001#64) 0 ∧ NoneResuming (freezes false 0#64) 0 ∧
    (∀ l b, (freezes l b).fatal = true) ∧ ((freezes true 0#64).dieAt 0).dumped = false ∧
    (∀ e < 24, e ≠ 0 → ((freezes true 0#64).dieAt e).dumped = true) ∧ ((freezes false 0x200001#64).dieAt 1).dumped = false ∧
    bit ((freezes false 0x200001#64).dieReg 0 0x30030) 0 = true ∧
    inHbm (bits ((freezes false 0x200001#64).dieReg 0 0x30030) 47 21 * 2 ^ 21) 0x1000 = true ∧
    ((freezes false 0x200001#64).dieAt 0).incomplete = false ∧ bit ((freezes false 0x200001#64).dieReg 0 0x30000) 0 = false ∧
    bit ((freezes false 0#64).dieReg 0 0x30030) 0 = false ∧
    ((tiled fun t => { t with run := .stopped }).tileAt 0).run = .stopped := by
  refine ⟨fun now => ⟨rfl, rfl, rfl, ?_⟩, by decide +kernel, by simp only [Homed]; decide +kernel, noGangs_of (by decide +kernel), by decide,
    by decide +kernel, by simp only [Homed]; decide +kernel, by decide, onDie0 (by decide +kernel), onDie0 (by decide +kernel),
    onDie0 (by decide +kernel), fun l b => by cases l <;> rfl, by decide +kernel⟩
  intro k n h e
  have : (∀ c, (base.tileAt 0).task = some c → c.gang = none) := by
    intro c hc
    exact (by decide +kernel : (base.tileAt 0).task.all (fun c => decide (c.gang = none)) = true) |> fun q => by rw [hc] at q; simpa using q
  rw [this k h] at e
  cases e

/-- A package in a security state, with its host bridge and past the end of reset. -/
def secure (n : Nat) : State := ({ base with
  sec := ⟨n, false, 0#256, 7#64⟩, nv := { base.nv with bridge := true }, portUp := true } : State)

theorem test_hyps_SecurityAndAttestationResult : (∀ n < 4, (secure n).sec.state = n) ∧ (secure 1).sec.nonce = 7#64 ∧
    (secure 1).nv.bridge = true ∧ (secure 1).portUp = true ∧ base.portUp = false := by
  decide +kernel

/-- A host window over the first 4 GiB, to a region whose rights class 5 has or lacks. -/
def window (rights : BitVec 64) : State := (((base.setDieReg 0 0x1828 3#64).setDieReg 0 0x1000 1#64).setDieReg 0 0x1008
  0x1FFFFFFFFF#64).setDieReg 0 0x1010 rights

theorem test_hyps_HostRingResult : let a := (window 0#64).hwin.toNat + 0x1000 / 8 * 8
    targetOf a = .hbm 0 0x1000 ∧ accessVerdict (window 0x18000#64) 5 0 a Rights.store = .ok ∧
    accessVerdict (window 0#64) 5 0 a Rights.store = .refused ∧ accessVerdict (window 0x18000#64) 5 0 a Rights.load = .ok ∧
    accessVerdict (window 0#64) 5 0 a Rights.load = .refused ∧ (2 ^ 32 : Nat) ≤ 2 ^ 32 ∧
    (window 0#64).host.writes = [] ∧
    (let h : HostWrite := .window 0x1000 5#64
     let s : State := ({ window 0x18000#64 with host := { (window 0x18000#64).host with writes := [h] } } : State).setDieReg 0 0x18 0x1F#64
     s.host.writes = h :: [] ∧ (h.perform s).isNone = true) := by
  decide +kernel

/-- Ring 15 with a submission ring of one entry at 0x8000 and a completion ring of one at 0xC000. -/
def rings (en ready : Bool) (tail : BitVec 64) : State :=
  let s := (base.setRing false 15 0 0x8000#64).setRing true 15 0 0xC000#64
  let s := if en then (s.setRing false 15 0x20 1#64).setRing true 15 0x20 1#64 else s
  let s := s.setRing false 15 0x10 tail
  if ready then s.setDieReg 0 0x40000 9#64 else s

theorem test_hyps_HostRingResult_doorbell : between (1#32).toNat ((rings true true 0#64).ring false 15 0x18).toNat ≤ (rings true true 0#64).ringSize false 15 ∧
    (rings true true 0#64).ringSize false 15 < between (2#32).toNat ((rings true true 0#64).ring false 15 0x18).toNat ∧
    bits ((rings true true 0#64).ring false 15 0x20) 1 0 = 1 ∧ (rings true true 0#64).host.writes = [] ∧
    (rings false true 0#64).host.writes = [] ∧ bit ((rings true true 0#64).ring true 15 0x20) 0 = true ∧
    bit ((rings false true 0#64).ring true 15 0x20) 0 = false ∧ NothingHeld (rings false true 0#64) ∧
    (rings true true 0#64).ringSize true 15 < between ((rings true true 0#64).ring true 15 0x10).toNat (1#32).toNat ∧
    between ((rings true true 0#64).ring true 15 0x10).toNat (0#32).toNat ≤ (rings true true 0#64).ringSize true 15 := by
  simp only [NothingHeld]; decide +kernel

theorem test_hyps_HostRingResult_entry : let s := rings true true 1#64
    let a := bits (s.ring false 15 0) 47 7 * 128 + 128 * ((s.ring false 15 0x18).toNat % s.ringSize false 15)
    s.ready = true ∧ s.frozen = false ∧ bits (s.ring false 15 0x20) 1 0 = 1 ∧ s.cqRoom 15 = true ∧ s.entry 15 = none ∧
    0 < between (s.ring false 15 0x10).toNat (s.ring false 15 0x18).toNat ∧
    between (s.ring false 15 0x10).toNat (s.ring false 15 0x18).toNat ≤ s.ringSize false 15 ∧
    (∀ i < 16, s.mem.read (a + 8 * i) = gloved ((List.replicate 16 0#64).getD i 0#64)) ∧
    (let z : State := { s with mem := s.mem.write a (gloved 0x100#64) }
     (∀ i < 16, z.mem.read (a + 8 * i) = gloved ((0x100#64 :: List.replicate 15 0#64).getD i 0#64)) ∧
     bits (0x100#64) 8 8 ≠ (z.ring false 15 0x18).toNat / z.ringSize false 15 % 2) := by
  decide +kernel

/-- An entry of ring 15 with an OP and some words. -/
def entry (op : Nat) (ws : List (BitVec 64)) : Taken := ⟨0#32, BitVec.ofNat 64 op :: ws⟩
def given (t : Taken) : State :=
  let s := rings true true 1#64
  { s with host := { s.host with taken := [(15, t)] } }

theorem test_hyps_HostRingResult_command : HasEntry (given (entry 0 [])) 15 0 (entry 0 []) ∧ HasEntry (given (entry 4 [])) 15 4 (entry 4 []) ∧
    targetOf (bits ((given (entry 0 [])).ring true 15 0) 47 7 * 128 +
      32 * (((given (entry 0 [])).ring true 15 0x10).toNat % (given (entry 0 [])).ringSize true 15)) = .hbm 0 0xC000 ∧
    (let s := (rings true true 0#64).setRing true 15 0x28 0x40#64
     let z : State := { s with host := { s.host with msixDue := 0x8000#16, msixAt := [(15, 7#64)] } }
     z.host.msixDue.getLsbD 15 = true ∧ bit (z.ring true 15 0x28) 6 = true ∧
     (z.host.msixAt.find? fun p => decide (p.1 = 15)) = some (15, 7#64)) := by
  simp only [HasEntry]; decide +kernel

/-- A submission entry of a launch of one record on die 0, with or without a join. -/
def launch (join : BitVec 64) : Taken :=
  entry 1 (List.replicate 7 0#64 ++ [0x1000#64, 0#64, 0#64, 0#64, 0#64, 0#64, 0x700000000#64, join])

/-- The package of a state with a launch taken. -/
def launching (s : State) (t : Taken) : State :=
  let s := ((s.setRing true 15 0 0xC000#64).setRing true 15 0x20 1#64).setDieReg 0 0x40000 9#64
  { s with host := { s.host with taken := [(15, t)] } }

/-! ## Hypotheses that are met: host commands -/

theorem test_hyps_HostCommandResult : (∀ n < 4, let s : State := { given (entry 2 []) with sec := ⟨n, false, 0#256, 0#64⟩ }
      HasEntry s 15 2 (entry 2 []) ∧ s.sec.state = n ∧ ∀ d < 24, s.dmode d = 0) ∧
    HasEntry (given (entry 3 [])) 15 3 (entry 3 []) ∧ (given (entry 3 [])).sec.state ≠ 2 ∧
    (let s : State := { given (entry 3 []) with sec := ⟨2, false, 0#256, 0#64⟩ }
     HasEntry s 15 3 (entry 3 []) ∧ s.sec.state = 2 ∧ ∀ d < 24, s.dmode d ≤ 1) := by
  simp only [HasEntry]; decide +kernel

theorem test_hyps_HostCommandResult_launch : HasEntry (launching base (launch 0#64)) 15 1 (launch 0#64) ∧
    HasEntry (launching base (launch 1#64)) 15 1 (launch 1#64) ∧
    (∀ d < 24, bits ((launching base (launch 0#64)).dieReg d 0x20008) 9 8 = 0) ∧ (launching base (launch 0#64)).fatal = false ∧
    (launching base (launch 1#64)).headerOk (((launch 1#64).words.drop 8).take 8) = false ∧
    (launching base (launch 0#64)).headerOk (((launch 0#64).words.drop 8).take 8) = true ∧
    bit ((((launch 0#64).words.drop 8).take 8).getD 6 0#64) 46 = false := by
  simp only [HasEntry]
  refine ⟨by decide +kernel, by decide +kernel, by decide +kernel, by decide +kernel, by decide +kernel, by decide +kernel, by decide +kernel⟩

/-- The join counter of a launch in mapped memory. -/
def joined : State := launching (join 0x2000#64 2#64) (launch 0x2000#64)

theorem test_hyps_HostCommandResult_join : HasEntry joined 15 1 (launch 0x2000#64) ∧
    joined.headerOk (((launch 0x2000#64).words.drop 8).take 8) = true ∧ joined.reach 0 true 3 0x2000#64 Rights.amo = .at 0x2000 [] ∧
    joined.reach 0 true 3 0x5000#64 Rights.amo = .bad [] ∧ joined.mem.read 0x2000 = gloved 2#64 ∧
    joined.headerOk (((launch 0x5000#64).words.drop 8).take 8) = true := by
  simp only [HasEntry]
  refine ⟨by decide +kernel, by decide +kernel, by decide +kernel, by decide +kernel, by decide +kernel, by decide +kernel⟩

/-! ## Hypotheses that are met: reset, bring-up and power -/

/-- Every die at the end of bring-up but die `d`, which is at stage `n`; die 0 has authenticated the image where it is not the one. -/
def stage (d n : Nat) : State :=
  { (List.range 24).foldl (fun s k => s.setDieAt k { s.dieAt k with stage := if k = d then n else 9 }) State.reset with fwLoaded := decide (d ≠ 0) }

theorem stageEnds_of {s : State} {d st : Nat} (h : s.jtag ≠ .extest ∧ bits (s.dieReg 0 0x40000) 47 32 = 0 ∧ d < 24 ∧ (s.dieAt d).stage = st ∧
    (d ≠ 0 → st ≤ (s.dieAt 0).stage ∧ (st = 3 → s.fwLoaded = true))) (k : ∀ k < 24, d = 0 → 0 < k → st < (s.dieAt k).stage) : StageEnds s d st :=
  ⟨h.1, h.2.1, h.2.2.1, h.2.2.2.1, h.2.2.2.2, fun e => .inr fun j j0 j1 => k j j1 e j0⟩

theorem stage_ends : ∀ d < 2, ∀ n < 9, StageEnds (stage d n) d n := by
  have a : ∀ d < 2, ∀ n < 9, (stage d n).jtag ≠ .extest ∧ bits ((stage d n).dieReg 0 0x40000) 47 32 = 0 ∧ d < 24 ∧ ((stage d n).dieAt d).stage = n ∧
      (d ≠ 0 → n ≤ ((stage d n).dieAt 0).stage ∧ (n = 3 → (stage d n).fwLoaded = true)) := by decide +kernel
  have b : ∀ n < 9, ∀ k < 24, 0 < k → n < ((stage 0 n).dieAt k).stage := by decide +kernel
  intro d hd n hn
  refine stageEnds_of (a d hd n hn) fun k hk e h0 => ?_
  subst e
  exact b n hn k hk h0

theorem test_hyps_ResetBringupAndPowerResult : State.reset.jtag ≠ .extest ∧ ({ State.reset with jtag := .extest } : State).jtag = .extest ∧
    (∀ d < 2, ∀ n < 9, StageEnds (stage d n) d n) ∧ (stage 0 1).portUp = false ∧ (stage 0 3).fwLoaded = false ∧
    (({ stage 0 1 with portUp := true } : State).dieAt 0).stage = 1 ∧ (stage 0 3).nv.accepts 0 = true ∧
    ({ stage 0 3 with nv := { (stage 0 3).nv with fuses := { (stage 0 3).nv.fuses with revoked := 15#4 } } } : State).nv.accepts 0 = false ∧
    (stage 0 8).nv.px = 0#5 ∧ (stage 0 8).nv.py = 0#5 ∧ (stage 0 8).cqRoom 0 = false ∧ (stage 0 8).host.uns.length < 4096 ∧
    (∀ n < 4, (secure n).sec.state = n) ∧
    (∀ n < 4, ∀ u, ({ State.reset with sec := ⟨n, u, 0#256, 0#64⟩ } : State).sec = ⟨n, u, 0#256, 0#64⟩) :=
  ⟨by decide +kernel, rfl, stage_ends, by decide +kernel⟩

/-- A task on tile 0, and a die in retention. -/
def tasked : State := tiled fun t => { t with task := some ⟨⟨0x1000#64, 0#64, 0x2000#64, 0#64⟩, none, 0, 3⟩ }
def retained (n : Nat) : State := (List.range n).foldl (fun s d => s.setDieAt d { s.dieAt d with retention := true }) State.reset

theorem tasked_single : ∀ g, g / 16 = 0 → Single tasked g := by
  refine onDie0 fun g h c hc => ?_
  exact (by decide +kernel : ∀ g < 16, (tasked.tileAt g).task.all (fun c => decide (c.gang = none)) = true) g h |> fun e => by
    rw [hc] at e; simpa using e

theorem test_hyps_ResetBringupAndPowerResult_power : (∀ g, g / 16 = 0 → ¬ ((State.reset.tileAt g).task.isSome = true ∨
      (State.reset.tileAt g).cut.isSome = true)) ∧ (tasked.tileAt 0).task.isSome = true ∧ (tasked.tileAt 0).run = .running ∧
    (tasked.tileAt 0).pre = none ∧ NoneResuming State.reset 0 ∧ NoneResuming tasked 0 ∧ (tasked.tileAt 1).task = none ∧ (∀ g, g / 16 = 0 → Single tasked g) ∧
    ((retained 1).dieAt 0).retention = true ∧ (retained 1).standby = false ∧ ((retained 1).dieAt 0).gateOrder = [] ∧
    (∀ d < 24, ((retained 24).dieAt d).retention = true ∧ (retained 24).dmode d ≠ 2) ∧
    ¬ (∀ d < 24, ((retained 23).dieAt d).retention = true ∧ (retained 23).dmode d ≠ 2) := by
  have k : (tasked.tileAt 0).task.isSome = true ∧ (tasked.tileAt 0).run = .running ∧ (tasked.tileAt 0).pre = none ∧
      (tasked.tileAt 1).task = none := by decide +kernel
  exact ⟨onDie0 (by decide +kernel), k.1, k.2.1, k.2.2.1, onDie0 (by decide +kernel), onDie0 (by decide +kernel), k.2.2.2, tasked_single,
    by decide +kernel⟩

/-- Die 0 hot or cool since 0, with its next sample due late enough. -/
def heated (at' : BitVec 64) : State := tasked.setDieAt 0 { tasked.dieAt 0 with thermalAt := at', hotSince := some 0#64, coolSince := some 0#64 }

theorem test_hyps_ResetBringupAndPowerResult_thermal : (1120 : Nat) ≤ 1120 ∧ (900 : Nat) ≤ 999 ∧ ((heated 0#64).dieAt 0).gateOrder = [] ∧
    ((heated 900000#64).dieAt 0).hotSince = some 0#64 ∧
    1000000 ≤ (((heated 900000#64).until (((heated 900000#64).dieAt 0).thermalAt + 100000#64)).ftb - 0#64).toNat ∧
    NoneResuming (heated 900000#64) 0 ∧ NoneResuming (heated 9900000#64) 0 ∧ 0 ∉ ((heated 900000#64).dieAt 0).gateOrder ∧
    (heated 900000#64).running 0 0 ≠ 0 ∧ (∀ e, 0 < e → e < 4 → (heated 900000#64).running 0 e = 0) ∧
    ((heated 9900000#64).dieAt 0).coolSince = some 0#64 ∧
    10000000 ≤ (((heated 9900000#64).until (((heated 9900000#64).dieAt 0).thermalAt + 100000#64)).ftb - 0#64).toNat ∧
    ((heated 0#64).dieAt 0).retention = false ∧ (∀ g, g / 16 = 0 → Single (heated 900000#64) g) := by
  obtain ⟨a, b, c, d, e, f, g, k, l, r⟩ : ((heated 0#64).dieAt 0).gateOrder = [] ∧ ((heated 900000#64).dieAt 0).hotSince = some 0#64 ∧
      1000000 ≤ (((heated 900000#64).until (((heated 900000#64).dieAt 0).thermalAt + 100000#64)).ftb - 0#64).toNat ∧
      0 ∉ ((heated 900000#64).dieAt 0).gateOrder ∧ (heated 900000#64).running 0 0 ≠ 0 ∧
      (∀ e < 4, 0 < e → (heated 900000#64).running 0 e = 0) ∧ ((heated 9900000#64).dieAt 0).coolSince = some 0#64 ∧
      10000000 ≤ (((heated 9900000#64).until (((heated 9900000#64).dieAt 0).thermalAt + 100000#64)).ftb - 0#64).toNat ∧
      ((heated 0#64).dieAt 0).retention = false ∧ True := by decide +kernel
  exact ⟨by decide, by decide, a, b, c, onDie0 (by decide +kernel), onDie0 (by decide +kernel), d, e, fun x h0 h4 => f x h4 h0, g, k, l,
    fun g h c hc => tasked_single g h c (by simpa [heated, State.tileAt, State.setDieAt] using hc)⟩

/-! ## Hypotheses that are met: the step -/

theorem test_hyps_FaultWhileActiveGoesToSupervisor : active.tile.level = .task ∧ AreaFits active ∧ active.dmode (active.cur / 16) = 0 ∧
    bit active.tile.ufv 1 = true ∧ AreaFits base ∧ (handler false).tile.runs = true ∧ (handler false).tile.level = .supervisor ∧
    bit (handler false).tile.tstat 7 = false ∧ (handler false).tile.trap = some ⟨0, ⟨.S, 0, 0x1000#64, 0#32, false, 0⟩, 0#64, none, base.tile.taskRegs, []⟩ := by
  refine ⟨by decide +kernel, area_of (by decide +kernel) (by decide +kernel), by decide +kernel, by decide +kernel, base_fits.2, by decide +kernel, by decide +kernel,
    by decide +kernel, by decide +kernel⟩

theorem test_hyps_StepRunsDecodedInstruction : base.agenda = .engine 0 .S :: [] ∧ MayFetch base 0 .S ∧
    (∃ u, Fetches { base with agenda := [] } 0 .S 0#32 u) ∧ decode 0#32 = .ok (.add 0#6 0#6 0#6) ∧ wordEngine 0#32 = .S ∧
    (let s := ahead fun t => t
     MayFetch s 0 .V ∧ (∃ u, Fetches s 0 .V 0#32 u) ∧ wordEngine 0#32 ≠ .V ∧ popsOutcome (.add 0#6 0#6 0#6) = false) := by
  simp only [MayFetch]
  exact ⟨by decide +kernel, by decide +kernel, fetches_of (by decide +kernel), by decide, by decide, by decide +kernel, fetches_of (by decide +kernel),
    by decide, by decide⟩

/-- V in an expansion at a word of its own. -/
def expanding : State :=
  let s := ahead fun t => { t with cstore := [(63, ⟨[0x400110C8#32], [0#32]⟩)] }
  s.setTile { s.tile with eV := { s.tile.eV with exp := some ⟨63, 0, 0#64, 0#64, 0#64⟩ } }

theorem test_hyps_StepRunsDecodedInstruction_expansion : Expands { expanding with agenda := [] } 0 .V 0x400110C8#32 { expanding with agenda := [] } ∧
    MayFetch expanding 0 .V ∧ wordEngine 0x400110C8#32 = .V ∧ decode 0x400110C8#32 = .ok (.vadd 0#4 1#5 2#5 3#5 1#3 0#3) ∧
    MayFetch sup 0 .S ∧ (sup.tileAt 0).level = .supervisor := by
  simp only [MayFetch]
  refine ⟨⟨⟨63, 0, 0#64, 0#64, 0#64⟩, by decide +kernel, by decide +kernel, rfl⟩, by decide +kernel, by decide, by decide, by decide +kernel,
    by decide +kernel⟩

theorem test_hyps_EncodeDecodeRoundTrip : (Instr.trec 15#4 15#4 15#4 3#2 1#1).wellFormed = true ∧
    (∃ w, encode (.trec 15#4 15#4 15#4 3#2 1#1) = some w ∧ decode w = .ok (.trec 15#4 15#4 15#4 3#2 1#1)) :=
  ⟨by decide, _, rfl, by decide⟩

theorem test_hyps_DecodeEncodeRoundTrip : ∃ i, decode 0x16146008#32 = .ok i :=
  ⟨.ldD 5#6 6#6 8#12, by decide⟩

/-- The package after reset with the word of a load placed. -/
def placed : State := State.withFetchWord State.reset 32 0x16146008

theorem test_hyps_InvariantKeptByEveryStep : Canonical placed ∧ (∃ t, step placed = .next t) ∧ placed.mem ≠ Mem.empty := by
  simp only [Canonical]
  refine ⟨by decide +kernel, ?_, by decide +kernel⟩
  exact (by decide +kernel : (match step placed with | .next _ => true | _ => false) = true) |> fun h => by
    revert h; cases step placed <;> simp

/-! ## Words of the spec's worked encodings (R116 to R128 and the program chapters) -/

theorem test_decode_scalar : decode 0x021463C8#32 = .ok (.bext 5#6 6#6 15#6 8#6) ∧ decode 0x04180004#32 = .ok (.addi 6#6 0#6 4#12) ∧
    decode 0x00145180#32 = .ok (.add 5#6 5#6 6#6) ∧ decode 0x047C0005#32 = .ok (.addi 31#6 0#6 5#12) ∧
    decode 0x04A06000#32 = .ok (.addi 40#6 6#6 0#12) ∧ decode 0x094D1001#32 = .ok (.sltiu 19#6 17#6 1#12) ∧
    decode 0x0048A419#32 = .ok (.csel 18#6 10#6 16#6) ∧ decode 0x0E303000#32 = .ok (.getw 12#6 3#6 0#12) := by decide

theorem test_decode_scalar_memory : decode 0x11289000#32 = .ok (.ldBu 10#6 9#6 0#12) ∧ decode 0x15289000#32 = .ok (.ldWu 10#6 9#6 0#12) ∧
    decode 0x17194110#32 = .ok (.st 6#6 20#6 272#12) ∧ decode 0x20006593#32 = .ok (.amoAdd 0#6 6#6 22#6 2#3 3#3) ∧
    decode 0x20009283#32 = .ok (.amoAdd 0#6 9#6 10#6 0#3 3#3) ∧ decode 0x2221400A#32 = .ok (.amoOr 8#6 20#6 0#6 1#3 2#3) ∧
    decode 0x2A000013#32 = .ok (.fence 2#3 3#3) ∧ decode 0x2A00002C#32 = .ok .fenceDrain ∧ decode 0x2B000000#32 = .ok .ifence := by decide

theorem test_decode_control : decode 0x3B180FFF#32 = .ok (.loop 6#6 0xFFF#12) ∧ decode 0x3A1C8003#32 = .ok (.jtab 7#6 8#6 3#12) ∧
    decode 0x311CBFFA#32 = .ok (.bne 7#6 11#6 0xFFA#12) ∧ decode 0x1D140000#32 = .ok (.get 5#6) ∧ decode 0x1D6C0001#32 = .ok (.ewait 27#6) ∧
    decode 0x1D140002#32 = .ok (.epeek 5#6) ∧ decode 0x1B090001#32 = .ok (.putV 2#6 16#6) ∧ decode 0x1B04A003#32 = .ok (.putD 1#6 10#6) ∧
    decode 0x2D000000#32 = .ok .tail ∧ decode 0x2D000001#32 = .ok .yield ∧ decode 0x2C00B000#32 = .ok (.spawn 11#6 0#6) ∧
    decode 0x2F000003#32 = .ok .uret ∧ decode 0x3C140013#32 = .ok (.csrr 5#6 0x013#12) ∧ decode 0x3D00A017#32 = .ok (.csrw 0#6 10#6 0x017#12) := by
  decide

theorem test_decode_vector : decode 0x50082358#32 = .ok (.vcvt 0#4 8#5 4#5 1#2 5#3 3#3 0#3) ∧
    decode 0x600E0880#32 = .ok (.vcmpLt 0#4 3#3 1#5 2#5 0#3 0#3) ∧ decode 0x64041820#32 = .ok (.mpop 0#4 4#5 3#5) ∧
    decode 0x7E062180#32 = .ok (.vpset 0#4 3#4 1#4 0#6) ∧ decode 0x6E091800#32 = .ok (.vredsum 0#4 9#5 3#5 0#3 0#3) ∧
    decode 0x700A5B05#32 = .ok (.vdot 0#4 10#5 11#5 12#5 0#3 5#3) ∧ decode 0x68060882#32 = .ok (.vperm 0#4 6#5 1#5 2#5 0#3 2#3) := by decide

theorem test_decode_vector_memory : decode 0x72023080#32 = .ok (.vld 0#4 2#5 3#4 2#6 0#3 0#3) ∧ decode 0x7A011000#32 = .ok (.vldm 0#4 1#5 1#4 0#6 0#3 0#3) ∧
    decode 0x7C054002#32 = .ok (.vstm 0#4 5#5 4#4 0#6 0#3 2#3) ∧ decode 0x7E100840#32 = .ok (.vgmax 0#4 8#4 0#4 4#4) ∧
    decode 0x7E0041C0#32 = .ok (.vput 0#4 2#4) ∧ decode 0x7E0101C0#32 = .ok (.vput 0#4 8#4) ∧ decode 0x7E0001E5#32 = .ok (.vputVcr 0#4 5#5) := by
  decide

theorem test_decode_matrix : decode 0x80000800#32 = .ok (.nsetCount 0#4 0#3 1#4) ∧ decode 0x8005B000#32 = .ok (.nsetSc 0#4 1#3 6#4) ∧
    decode 0x820C8000#32 = .ok (.nbaseB 0#4 9#4) ∧ decode 0x84140000#32 = .ok (.nfmt 0#4 10#4) ∧ decode 0x86000000#32 = .ok (.ngo 0#4) ∧
    decode 0x8E003000#32 = .ok (.nwait 0#4 3#9) := by decide

theorem test_decode_data : decode 0xC00F13E1#32 = .ok (.dcp 0#4 7#4 8#4 9#4 15#4 0#3 0#1 1#1) ∧ decode 0xCA000200#32 = .ok (.dfill 0#4 0#4 0#4 1#4 0#1) ∧
    decode 0xCC0004C0#32 = .ok (.devt 0#4 2#9 3#3) ∧ decode 0xD2000003#32 = .ok (.dspan 0#4 3#4) ∧ decode 0xD2000013#32 = .ok (.dspanRetry 0#4 3#4) ∧
    decode 0xD6024680#32 = .ok (.dcollAr 0#4 1#4 2#4 3#4) ∧ decode 0xD4173400#32 = .ok (.dkey 0#4 11#4 9#4 10#4 0#4) ∧
    decode 0xF800CE00#32 = .ok (.relv 0#4 6#4 7#4) := by decide

theorem test_decode_key_value : decode 0xE0024601#32 = .ok (.kvlook 0#4 1#4 2#4 3#4 1#1) ∧ decode 0xE2024601#32 = .ok (.kvapp 0#4 1#4 2#4 3#4 1#1) ∧
    decode 0xE4011203#32 = .ok (.kvforkUnshare 0#4 8#4 9#4 1#1) ∧ decode 0xE600AE01#32 = .ok (.kvrel 0#4 5#4 7#4 1#1) ∧
    decode 0xE8004800#32 = .ok (.kvcommit 0#4 2#4 4#4 0#1) ∧ decode 0xEA004601#32 = .ok (.kvtrunc 0#4 2#4 3#4 1#1) ∧
    decode 0xEC024601#32 = .ok (.kvins 0#4 1#4 2#4 3#4 1#1) ∧ decode 0xEE004601#32 = .ok (.kvrecap 0#4 2#4 3#4 1#1) ∧
    decode 0xF0024601#32 = .ok (.capsel 0#4 1#4 2#4 3#4 1#1) ∧ decode 0xF0024603#32 = .ok (.capselThr 0#4 1#4 2#4 3#4 1#1) := by decide

/-! One word of each engine field by field: tag, opcode and fields of R116, and R118 to R122. -/

theorem test_decode_fields : decode (0b00#2 ++ 0x16#6 ++ 5#6 ++ 6#6 ++ 8#12) = .ok (.ldD 5#6 6#6 8#12) ∧
    decode (0b01#2 ++ 0x00#5 ++ 2#4 ++ 1#5 ++ 2#5 ++ 3#5 ++ 1#3 ++ 0#3) = .ok (.vadd 2#4 1#5 2#5 3#5 1#3 0#3) ∧
    decode (0b10#2 ++ 0x07#5 ++ 0#4 ++ 21#9 ++ 0#12) = .ok (.nwait 0#4 21#9) ∧
    decode (0b11#2 ++ 0x00#5 ++ 0#4 ++ 1#4 ++ 2#4 ++ 3#4 ++ (5#4 ++ 0#3 ++ 1#1 ++ 1#1)) = .ok (.dcp 0#4 1#4 2#4 3#4 5#4 0#3 1#1 1#1) := by decide

/-- Reserved words are refused (R123): S major 0x0F, D major 0x1F, a fence of scope 5, saturation code 3, format 0xA, a bit of nset that is no field. -/
theorem test_decode_refuses : (decode 0x0F000000#32).isOk = false ∧ (decode 0xFFFFFFFF#32).isOk = false ∧ (decode 0x2A000015#32).isOk = false ∧
    (decode 0x50082758#32).isOk = false ∧ (decode 0xC0000140#32).isOk = false ∧ (decode 0x80000C00#32).isOk = false := by decide

/-! ## The check of R123 refuses an ill-formed term of each kind -/

theorem test_wf_scalar : (Instr.bext 0#6 0#6 63#6 1#6).wellFormed = false ∧ (Instr.bins 0#6 0#6 63#6 1#6).wellFormed = false ∧
    (Instr.getw 0#6 0#6 6#12).wellFormed = false ∧ (Instr.ldp 1#6 0#6 0#12).wellFormed = false ∧ (Instr.stp 63#6 0#6 0#12).wellFormed = false ∧
    (Instr.putV 22#6 0#6).wellFormed = false ∧ (Instr.putM 16#6 0#6).wellFormed = false ∧ (Instr.putD 26#6 0#6).wellFormed = false ∧
    (Instr.amoAdd 0#6 0#6 0#6 5#3 0#3).wellFormed = false ∧ (Instr.cas 0#6 0#6 0#6 0#3 5#3).wellFormed = false ∧
    (Instr.fence 0#3 0#3).wellFormed = false ∧ (Instr.bp 16#6 0#12).wellFormed = false ∧ (Instr.jtab 0#6 0#6 0#12).wellFormed = false ∧
    (Instr.csrr 0#6 0x10B#12).wellFormed = false ∧ (Instr.csrw 0#6 0#6 0x018#12).wellFormed = false := by decide

theorem test_wf_vector : (Instr.vadd 0#4 0#5 0#5 0#5 0#3 5#3).wellFormed = false ∧ (Instr.vfma 0#4 0#5 0#5 0#5 0#3 2#3).wellFormed = false ∧
    (Instr.vrcp 0#4 0#5 0#5 0#3 1#3).wellFormed = false ∧ (Instr.vand 0#4 0#5 0#5 0#5 0#3 0#3).wellFormed = false ∧
    (Instr.vcvt 0#4 0#5 0#5 3#2 1#3 0#3 0#3).wellFormed = false ∧ (Instr.vcvt 0#4 0#5 0#5 0#2 1#3 0#3 1#3).wellFormed = false ∧
    (Instr.vcmpEq 0#4 0#3 0#5 0#5 0#3 0#3).wellFormed = false ∧ (Instr.mand 0#4 0#5 1#5 1#5).wellFormed = false ∧
    (Instr.mnot 0#4 1#5 8#5).wellFormed = false ∧ (Instr.mpop 0#4 16#5 0#5).wellFormed = false ∧ (Instr.vbcast 0#4 0#5 16#5 0#3 0#3).wellFormed = false ∧
    (Instr.vperm 0#4 0#5 0#5 0#5 0#3 0#3).wellFormed = false ∧ (Instr.vslide 0#4 0#5 0#5 16#5 0#3 0#3).wellFormed = false ∧
    (Instr.vredsum 0#4 0#5 0#5 0#3 1#3).wellFormed = false ∧ (Instr.vdot 0#4 0#5 0#5 0#5 0#3 7#3).wellFormed = false := by decide

theorem test_wf_vector_units : (Instr.vgth 0#4 31#5 0#4 0#6 0#3 3#3).wellFormed = false ∧ (Instr.vtopk 0#4 1#4 0#4 1#4 8#6).wellFormed = false ∧
    (Instr.vgmax 0#4 0#4 0#4 13#4).wellFormed = false ∧ (Instr.vrng 0#4 1#4 0#4 0#4 16#6).wellFormed = false ∧
    (Instr.vdefer 0#4 0#4 8#4).wellFormed = false ∧ (Instr.vredeem 0#4 0#4 0#4).wellFormed = false ∧ (Instr.vpset 0#4 0#4 1#4 0#6).wellFormed = false ∧
    (Instr.vputVcr 0#4 6#5).wellFormed = false := by decide

theorem test_wf_matrix_and_data : (Instr.nsetKind 0#4 6#3 0#4).wellFormed = false ∧ (Instr.ndrain 0#4 0#4 10#4 0#3 0#2 0#4).wellFormed = false ∧
    (Instr.ndrain 0#4 0#4 0#4 5#3 0#2 0#4).wellFormed = false ∧ (Instr.nload 0#4 0#4 14#4).wellFormed = false ∧
    (Instr.dcp 0#4 0#4 0#4 0#4 10#4 0#3 0#1 0#1).wellFormed = false ∧ (Instr.devt 0#4 0#9 5#3).wellFormed = false := by decide

theorem test_wf_units : (Instr.taskStart 384).wellFormed = false ∧ (Instr.expanderEnqueue 24).wellFormed = false ∧
    (Instr.taskStart 383).wellFormed = true ∧ (Instr.expanderEnqueue 23).wellFormed = true := by decide

/-! ## One step on the values of the spec's examples -/

/-- What x `r` holds after a step. -/
def xAfter (o : Host.Outcome State Fault Refusal) (r : Nat) : Option (BitVec 64) :=
  match o with
  | .next t => some (t.tile.getX r).data
  | _ => none

/-- What lane `l` of v `r` holds after a step. -/
def vAfter (o : Host.Outcome State Fault Refusal) (r l : Nat) : Option (BitVec 64) :=
  match o with
  | .next t => some (t.tile.getV r l).data
  | _ => none

/-- `bext x5, x6, 8, 16` (the spec's example). -/
theorem test_bext : xAfter (exec (.bext 5#6 6#6 15#6 8#6) (withX [(6, 0xABCD00#64)])) 5 = some 0xABCD#64 := by decide +kernel

/-- 7 divided by 0 (the spec's table). -/
theorem test_divu_by_zero : xAfter (exec (.divu 5#6 1#6 2#6) (withX [(1, 7#64)])) 5 = some 0xFFFFFFFFFFFFFFFF#64 := by decide +kernel

/-- The high halves of 0x8000000000000000 by 2 (the spec's table). -/
theorem test_mulh : xAfter (exec (.mulh 5#6 1#6 2#6) (withX [(1, 0x8000000000000000#64), (2, 2#64)])) 5 = some 0xFFFFFFFFFFFFFFFF#64 := by
  decide +kernel
theorem test_mulhu : xAfter (exec (.mulhu 5#6 1#6 2#6) (withX [(1, 0x8000000000000000#64), (2, 2#64)])) 5 = some 1#64 := by decide +kernel

/-- A shift takes its amount modulo 64, and the source may be the destination (the spec's table). -/
theorem test_sra_amount : xAfter (exec (.sra 5#6 5#6 2#6) (withX [(5, 0x8000000000000010#64), (2, 0x44#64)])) 5 = some 0xF800000000000001#64 := by
  decide +kernel

/-- The second word of `li x5, 0x1000_0000` (R126). -/
theorem test_lih : xAfter (exec (.lih 5#6 0#18) (withX [(5, 0x400#64)])) 5 = some 0x10000000#64 := by decide +kernel

/-- A `loop` that starts with 0 leaves all ones. -/
theorem test_loop_zero : xAfter (exec (.loop 6#6 0xFFF#12) (withX [])) 6 = some 0xFFFFFFFFFFFFFFFF#64 := by decide +kernel

/-- `vec` with some FP32 pairs in lanes of registers. -/
def vecV (l : List (Nat × Nat × BitVec 64)) : State := vec.setTile (l.foldl (fun t p => t.setV p.1 p.2.1 (gloved p.2.2)) vec.tile)

/-- `vredsum.f32` of 2^24, 1, 1 and of 1, 1, 2^24 (the spec's example). -/
theorem test_vredsum_order : vAfter (exec (.vredsum 0#4 9#5 3#5 0#3 0#3) (vecV [(3, 0, 0x3F8000004B800000#64), (3, 1, 0x3F800000#64)])) 9 0 =
    some 0x4B800000#64 ∧
    vAfter (exec (.vredsum 0#4 9#5 3#5 0#3 0#3) (vecV [(3, 0, 0x3F8000003F800000#64), (3, 1, 0x4B800000#64)])) 9 0 = some 0x4B800001#64 := by
  decide +kernel

/-- `vcmp.lt.f32 m3, v1, v2` on (1.0, 5.0) and (2.0, 4.0) gives 0: its second element fails (the spec's example). -/
theorem test_vcmp_both : (match exec (.vcmpLt 0#4 3#3 1#5 2#5 0#3 0#3) (vecV [(1, 0, 0x40A000003F800000#64), (2, 0, 0x4080000040000000#64),
      (2, 1, 0x4080000040000000#64)]) with
    | .next t => some ((t.tile.getM 3 0).data.extractLsb' 0 2)
    | _ => none) = some 2#2 := by decide +kernel

/-- `vcvt.e4m3.sat.f32 v8, v4, m3` of 300.0, −0.001, 500.0, 1.0 with two lanes active (the spec's table). -/
theorem test_vcvt_saturates : vAfter (exec (.vcvt 0#4 8#5 4#5 1#2 5#3 3#3 0#3) (let s := vecV [(4, 0, 0xBA83126F43960000#64), (4, 1, 0x3F80000043FA0000#64),
      (8, 0, 0x5555555555555555#64)]
    s.setTile (s.tile.setM 3 0 (gloved 3#64)))) 8 0 = some 0x55555555387E8179#64 := by decide +kernel

/-- SHA-256 of the three bytes "abc" (the standard's example). -/
theorem test_sha256 : sha256 3 0x616263 = 0xba7816bf8f01cfea414140de5dae2223b00361a396177a9cb410ff61f20015ad := by decide +kernel

end Sys2Proof.Tests
end

section
/-!
PROOFS. Writes of a die's register space, of tile CSRs by firmware, and of the repair and debug registers: what each write of R8,
R386, R412, R413, R416 and R422 does, from which O48 is assembled.
-/

namespace Sys2Proof.Machine

open Sys2Proof.Claims

/-! ## Steps from outside the tiles (R439) -/

/-- A package that EXTEST does not hold in reset performs the step. -/
@[simp] theorem released_of_ne {s : State} (h : s.jtag ≠ .extest) (o : Host.Outcome State Fault Refusal) : s.released o = o := if_neg h

/-! ## Writes through the register space (R8, R386) -/

/-- Firmware's write of a doubleword goes to the register at its offset, whatever the block table holds (R381). -/
theorem exec_registerWrite_firmware {d o : Nat} {s : State} (hd : d < 24) (ho : o % 8 = 0) (hj : s.jtag ≠ .extest) (w : BitVec 64) :
    exec (.registerWrite d o 4 w) s = .next (writeRegFirmware d o w s) := by
  have e : o / 8 * 8 = o := Nat.div_mul_cancel (Nat.dvd_of_mod_eq_zero ho)
  show execRegisterWrite d o 4 w s = _
  simp [execRegisterWrite, hj, e, Nat.not_le.mpr hd]

/-- A write under a tile's class is performed where the block table allows it, and is ignored elsewhere. -/
theorem exec_registerWrite_tile {d o cls : Nat} {s : State} (hd : d < 24) (hc : cls < 4) (ho : o % 8 = 0) (hb : o < 2 ^ 20)
    (hj : s.jtag ≠ .extest) (w : BitVec 64) : exec (.registerWrite d o cls w) s =
      if accessVerdict s cls d (2 ^ 47 + d * 2 ^ 37 + o) Rights.store = .ok then .next (writeRegTile d o w s) else .next s := by
  have e : o / 8 * 8 = o := Nat.div_mul_cancel (Nat.dvd_of_mod_eq_zero ho)
  have h4 : cls ≠ 4 := by omega
  have h5 : cls ≠ 5 := by omega
  show execRegisterWrite d o cls w s = _
  simp only [execRegisterWrite, released_of_ne hj, e, regAddr, Nat.not_le.mpr hd, Nat.not_le.mpr hb, h4, h5, if_false]
  cases accessVerdict s cls d (2 ^ 47 + d * 2 ^ 37 + o) Rights.store <;> simp

/-- A register of block 0 that has writable bits takes them; HOLD apart, whose write lets go what waits (R387). -/
theorem writes_block0 {d o : Nat} {m : BitVec 64} {s : State} (hd : d < 24) (hj : s.jtag ≠ .extest) (w : BitVec 64) (ho : o % 8 = 0)
    (hb : o < 65536) (hh : o ≠ 0x18) (hm : block0Mask o = m) (h0 : m ≠ 0#64) : Writes s d o w m := by
  unfold Writes
  rw [exec_registerWrite_firmware hd ho hj, writeRegFirmware, Nat.mod_eq_of_lt hb, Nat.div_eq_of_lt hb]
  simp [hh, hm, h0]

/-- The slice table's entries hold two bits (R383). -/
theorem block0Mask_slice {k : Nat} (hk : k < 16) : block0Mask (0x1800 + 8 * k) = 3#64 := by
  unfold block0Mask
  repeat rw [if_neg (by omega)]
  exact if_pos (by omega)

/-- The port table's entries hold 32 bits (R384). -/
theorem block0Mask_port {k : Nat} (hk : k < 16) : block0Mask (0x1A00 + 8 * k) = 0xFFFFFFFF#64 := by
  unfold block0Mask
  repeat rw [if_neg (by omega)]
  exact if_pos (by omega)

/-- Firmware's write of block 3 (R413). -/
theorem exec_registerWrite_block3 {d o : Nat} {s : State} (hd : d < 24) (ho : o % 8 = 0) (hb : o < 65536) (hj : s.jtag ≠ .extest)
    (w : BitVec 64) : exec (.registerWrite d (0x30000 + o) 4 w) s = .next (writeBlock3 d o w s) := by
  have e1 : (0x30000 + o) / 65536 = 3 := by omega
  have e2 : (0x30000 + o) % 65536 = o := by omega
  rw [exec_registerWrite_firmware hd (by omega) hj]
  simp only [writeRegFirmware, e1, e2]

/-- A register that firmware writes in block 3 takes its writable bits. -/
theorem writes_block3 {d o : Nat} {w m : BitVec 64} {s : State} (hd : d < 24) (hj : s.jtag ≠ .extest) (ho : o % 8 = 0) (hb : o < 65536)
    (h : writeBlock3 d o w s = s.setDieReg d (0x30000 + o) (w &&& m)) : Writes s d (0x30000 + o) w m := by
  rw [Writes, exec_registerWrite_block3 hd ho hb hj, h]

/-- RPOS and DGCC take the whole doubleword. -/
theorem writes_block3_whole {d o : Nat} {w : BitVec 64} {s : State} (hd : d < 24) (hj : s.jtag ≠ .extest) (ho : o % 8 = 0) (hb : o < 65536)
    (h : writeBlock3 d o w s = s.setDieReg d (0x30000 + o) w) : Writes s d (0x30000 + o) w (BitVec.allOnes 64) :=
  writes_block3 hd hj ho hb (by rw [h, BitVec.and_allOnes])

/-- A grant entry takes its writable bits under a class that the block table admits (R386). -/
theorem writeRegTile_grant {d i : Nat} (h : i < 0x10000) (v : BitVec 64) (s : State) : writeRegTile d (0x10000 + i) v s =
    s.setDieReg d (0x10000 + i) (v &&& if i % 16 = 0 then 0xFC00FFFF0007FFFF#64 else 0x0FFF07FF#64) := by
  have e1 : (0x10000 + i) / 65536 = 1 := by omega
  have e2 : (0x10000 + i) % 16 = i % 16 := by omega
  rw [writeRegTile, if_pos e1, e2]

/-! ## Firmware's writes of tile CSRs (R412) -/

/-- The tile's state lets firmware write every CSR unless it runs. -/
theorem open_iff (r : RunState) : r.open = true ↔ r ≠ .running := by
  cases r <;> simp [RunState.open]

/-- A CSR other than the counters is written while the tile does not run, and keeps its value where its map refuses the new one. -/
theorem exec_firmwareCsrWrite_open {g : Nat} {c : BitVec 12} {s : State} (hj : s.jtag ≠ .extest) (hg : c ≠ 0x400#12) (hu : c ≠ 0x401#12)
    (hr : (s.tileAt g).run ≠ .running) (hc : csrExists c.toNat = true) (w : BitVec 64) :
    exec (.firmwareCsrWrite g c w) s = .next (s.setTileAt g (((s.tileAt g).setCsr c.toNat w).getD (s.tileAt g))) := by
  show execFirmwareCsrWrite g c w s = _
  simp [execFirmwareCsrWrite, hj, hg, hu, (open_iff _).mpr hr, hc]

/-- While the tile runs the write is ignored. -/
theorem exec_firmwareCsrWrite_running {g : Nat} {c : BitVec 12} {s : State} (hj : s.jtag ≠ .extest) (hg : c ≠ 0x400#12) (hu : c ≠ 0x401#12)
    (hr : (s.tileAt g).run = .running) (w : BitVec 64) : exec (.firmwareCsrWrite g c w) s = .next s := by
  show execFirmwareCsrWrite g c w s = _
  simp [execFirmwareCsrWrite, hj, hg, hu, hr, RunState.open]

/-- The counters are written at any time. -/
theorem exec_firmwareCsrWrite_gcc {g : Nat} {s : State} (hj : s.jtag ≠ .extest) (w : BitVec 64) :
    exec (.firmwareCsrWrite g 0x400#12 w) s = .next (s.setTileAt g { s.tileAt g with gcc := w }) := by
  show execFirmwareCsrWrite g 0x400#12 w s = _
  simp [execFirmwareCsrWrite, hj]

theorem exec_firmwareCsrWrite_guc {g : Nat} {s : State} (hj : s.jtag ≠ .extest) (w : BitVec 64) :
    exec (.firmwareCsrWrite g 0x401#12 w) s = .next (s.setTileAt g { s.tileAt g with guc := w }) := by
  show execFirmwareCsrWrite g 0x401#12 w s = _
  simp [execFirmwareCsrWrite, hj]

/-! ## Steps of the key-value pool controller (R229, R230) -/

section Controller

variable {α β : Type} {c : PCtx} {p : PSt}

@[simp] theorem peff_pure (a : α) (p : PSt) : (pure a : PEff α) p = .ok (a, p) := rfl

@[simp] theorem peff_bind (f : PEff α) (g : α → PEff β) (p : PSt) :
    (f >>= g) p = match f p with
      | .ok (a, q) => g a q
      | .error e => .error e := by
  simp only [Bind.bind, StateT.bind, Except.bind]; cases f p <;> rfl

@[simp] theorem peff_map (f : α → β) (m : PEff α) (p : PSt) :
    (f <$> m) p = match m p with
      | .ok (a, q) => .ok (f a, q)
      | .error e => .error e := by
  simp only [Functor.map, StateT.map, Bind.bind, Except.bind]; cases m p <;> rfl

@[simp] theorem peff_on (f : PEff α) (s : State) : f.on s = f ⟨s, []⟩ := rfl

@[simp] theorem pGets_apply (f : State → α) (p : PSt) : pGets f p = .ok (f p.s, p) := rfl

@[simp] theorem pMod_apply (f : State → State) (p : PSt) : pMod f p = .ok ((), { p with s := f p.s }) := rfl

/-- A word of a pool's structures that the tables let the controller read and that holds no error is delivered, and nothing changes. -/
theorem pMeta_gloved {pa x y : Nat} {q : BitVec 64} (ht : targetOf pa = .hbm x y)
    (hv : accessVerdict p.s c.cls c.from' pa Rights.load = .ok) (hr : p.s.mem.read pa = gloved q) : pMeta c pa p = .ok (q, p) := by
  simp [pMeta, pChecked, pRaw, pAllow, pCheck, ht, hv, hr]

/-- A pool that KVPH does not enable has no header (R390). -/
theorem pHeader_off (h : bit (p.s.dieReg c.die (0x2000 + 8 * c.pool)) 0 = false) (must : Bool) : pHeader c must p = .ok (none, p) := by
  simp [pHeader, State.poolAddr, h]

/-- The header of an enabled pool, its three words without error. -/
theorem pHeader_on {h : Nat} {q0 q1 q2 : BitVec 64} (ha : p.s.poolAddr c.die c.pool = some h) (h0 : pMeta c h p = .ok (q0, p))
    (h1 : pMeta c (h + 8) p = .ok (q1, p)) (h2 : pMeta c (h + 16) p = .ok (q2, p)) (he : bit q2 40 = true) (must : Bool) :
    pHeader c must p = .ok (some ⟨h, q0.toNat, q1.toNat, bits q2 31 0, bits q2 39 32⟩, p) := by
  simp [pHeader, ha, h0, h1, h2, he]

/-- A slot that a damage list with room does not hold yet is entered at its end (R419). -/
theorem pDamage_enters {h : PoolHdr} {x slot : Nat} (hn : (slot, x) ∉ p.s.damageOf c.die c.pool)
    (hl : (p.s.damageOf c.die c.pool).length < 64) :
    pDamage c h x slot p =
      .ok ((), { p with s := p.s.setDamage c.die c.pool (p.s.damageOf c.die c.pool ++ [(slot, x)]) }) := by
  simp [pDamage, hn, hl]

end Controller

/-! ## KVREP (R413, R419) -/

/-- A 1 at ERR clears it and reports nothing. -/
theorem writeKvrep_clear {w : BitVec 64} (h : bit w 62 = true) (d : Nat) (s : State) : writeKvrep d w s = s.setDieReg d 0x30028 0#64 :=
  if_pos h

theorem writeKvrep_report {w : BitVec 64} (h : bit w 62 = false) (d : Nat) (s : State) : writeKvrep d w s = kvrepReport d w s := by
  simp [writeKvrep, h]

/-- A report for a pool that is not enabled sets ERR. -/
theorem kvrepReport_off {d : Nat} {w : BitVec 64} {s : State} (h : bit (s.dieReg d (0x2000 + 8 * bits w 51 48)) 0 = false) :
    kvrepReport d w s = s.setDieReg d 0x30028 0x4000000000000000#64 := by
  simp [kvrepReport, pHeader_off (c := ⟨d, bits w 51 48, 4, 0#64, 0#64, none⟩) (p := ⟨s, []⟩) h, kvrepRefuse]

/-- A report of a page that the pool has enters its slot in the damage list. -/
theorem kvrepReport_enters {d : Nat} {w : BitVec 64} {s : State} {h : PoolHdr}
    (hh : pHeader ⟨d, bits w 51 48, 4, 0#64, 0#64, none⟩ true ⟨s, []⟩ = .ok (some h, ⟨s, []⟩)) (hx : bits w 31 0 < h.npg)
    (hn : (bits w 47 44, bits w 31 0) ∉ s.damageOf d (bits w 51 48)) (hl : (s.damageOf d (bits w 51 48)).length < 64) :
    kvrepReport d w s = s.setDamage d (bits w 51 48) (s.damageOf d (bits w 51 48) ++ [(bits w 47 44, bits w 31 0)]) := by
  simp [kvrepReport, hh, Nat.not_le.mpr hx,
    pDamage_enters (c := ⟨d, bits w 51 48, 4, 0#64, 0#64, none⟩) (p := ⟨s, []⟩) (h := h) hn hl]

theorem exec_kvrepWrite {d : Nat} {w : BitVec 64} {s : State} (hj : s.jtag ≠ .extest) :
    exec (.kvrepWrite d w) s = .next (writeKvrep d w s) := released_of_ne hj _

/-- The damage list is never stored empty after an entry. -/
theorem setDamage_append (s : State) (d p : Nat) (l : List (Nat × Nat)) (e : Nat × Nat) :
    s.setDamage d p (l ++ [e]) = s.setDieAt d { s.dieAt d with damage := mapPut (s.dieAt d).damage p (l ++ [e]) } := by
  rw [State.setDamage, mapSet, if_neg (by simp)]

/-- Class 4 reads the word `q` at `a` in HBM, and it holds no error. -/
def SoundWord (s : State) (d a : Nat) (q : BitVec 64) : Prop :=
  (∃ x y, targetOf a = .hbm x y) ∧ accessVerdict s 4 d a Rights.load = .ok ∧ s.mem.read a = gloved q

/-- The header that a report of KVREP reads, under class 4. -/
theorem pHeader_kvrep {d k h : Nat} {q0 q1 q2 : BitVec 64} {s : State} (hp : bit (s.dieReg d (0x2000 + 8 * k)) 0 = true)
    (hh : h = bits (s.dieReg d (0x2000 + 8 * k)) 47 6 * 64) (h0 : SoundWord s d h q0) (h1 : SoundWord s d (h + 8) q1)
    (h2 : SoundWord s d (h + 16) q2) (he : bit q2 40 = true) :
    pHeader ⟨d, k, 4, 0#64, 0#64, none⟩ true ⟨s, []⟩ = .ok (some ⟨h, q0.toNat, q1.toNat, bits q2 31 0, bits q2 39 32⟩, ⟨s, []⟩) := by
  have meta_ok : ∀ a q, SoundWord s d a q → pMeta ⟨d, k, 4, 0#64, 0#64, none⟩ a ⟨s, []⟩ = .ok (q, ⟨s, []⟩) :=
    fun a q ⟨⟨x, y, ht⟩, hv, hr⟩ => pMeta_gloved ht hv hr
  refine pHeader_on ?_ (meta_ok _ _ h0) (meta_ok _ _ h1) (meta_ok _ _ h2) he true
  simp [State.poolAddr, hp, hh]

/-! ## Units without gangs and images stay where they are (R52, R410, R416) -/

/-- `v` differs from `s` in the queues' marks alone: units, spilled records and the reservations that gangs hold. -/
structure OnlyQueueMarks (s v : State) : Prop where
  rest : v = { s with dies := v.dies }
  die : ∀ d, v.dieAt d = { s.dieAt d with
    units := (v.dieAt d).units, spills := (v.dieAt d).spills, reserveA := (v.dieAt d).reserveA, reserveL := (v.dieAt d).reserveL }

namespace OnlyQueueMarks

variable {s u v : State}

theorem refl (s : State) : OnlyQueueMarks s s := ⟨rfl, fun _ => rfl⟩

theorem trans (h : OnlyQueueMarks s u) (k : OnlyQueueMarks u v) : OnlyQueueMarks s v where
  rest := by rw [k.rest, h.rest]
  die d := by conv_lhs => rw [k.die d, h.die d]

theorem tiles (h : OnlyQueueMarks s v) : v.tiles = s.tiles := by rw [h.rest]

theorem mem (h : OnlyQueueMarks s v) : v.mem = s.mem := by rw [h.rest]

theorem nv (h : OnlyQueueMarks s v) : v.nv = s.nv := by rw [h.rest]

theorem dieReg (h : OnlyQueueMarks s v) (d o : Nat) : v.dieReg d o = s.dieReg d o := by
  rw [State.dieReg, h.die d, State.dieReg]

theorem gated (h : OnlyQueueMarks s v) (d : Nat) : (v.dieAt d).gated = (s.dieAt d).gated := by rw [h.die d]

/-- Writing the marks of one die. -/
theorem setDieAt {d : Nat} {x : Die} (h : x = { s.dieAt d with
    units := x.units, spills := x.spills, reserveA := x.reserveA, reserveL := x.reserveL }) : OnlyQueueMarks s (s.setDieAt d x) where
  rest := rfl
  die k := by
    by_cases hk : k = d
    · subst hk; rw [dieAt_setDieAt_self]; exact h
    · rw [dieAt_setDieAt_other s x hk]

end OnlyQueueMarks

/-- A unit of records that is no gang: no die has to be found for it. -/
def QUnit.Stays (u : QUnit) : Prop := u.gang = false ∧ u.slots = []

theorem noGangs_setDieAt {s : State} {d : Nat} {x : Die} (h : NoGangs s) (hx : ∀ u ∈ x.units, u.Stays) : NoGangs (s.setDieAt d x) := by
  refine ⟨h.1, fun e he => ?_⟩
  by_cases hk : e = d
  · subst hk; rw [dieAt_setDieAt_self]; exact hx
  · rw [dieAt_setDieAt_other s x hk]; exact h.2 e he

theorem noteHeads_onlyQueueMarks (s : State) (d : Nat) : OnlyQueueMarks s (s.noteHeads d) := OnlyQueueMarks.setDieAt rfl

/-- Noting the heads changes times alone. -/
theorem noteHeads_noGangs {s : State} {d : Nat} (h : NoGangs s) (hd : d < 24) : NoGangs (s.noteHeads d) := by
  refine noGangs_setDieAt h fun u hu => ?_
  obtain ⟨q, hq, rfl⟩ := List.mem_map.mp hu
  have hs := h.2 d hd q hq
  split <;> exact hs

/-- `v` differs from `s` in the queues' marks alone, and no gang and no image waits in it. -/
def Quiet (s v : State) : Prop := OnlyQueueMarks s v ∧ NoGangs v

/-- New reservations on one die. -/
theorem setReserves_quiet {s : State} {d : Nat} (h : NoGangs s) (hd : d < 24) (a l : Option (Nat × Nat)) :
    Quiet s (s.setDieAt d { s.dieAt d with reserveA := a, reserveL := l }) :=
  ⟨.setDieAt rfl, noGangs_setDieAt h (h.2 d hd)⟩

/-- No unit is a gang: at most the side's reservation ends and the heads are noted. -/
theorem rehomeGangs_quiet {s : State} {d : Nat} (h : NoGangs s) (hd : d < 24) (side : Bool) : Quiet s (rehomeGangs d side s) := by
  unfold rehomeGangs
  split
  · exact ⟨.refl s, h⟩
  · have none_mine : ∀ u ∈ (s.dieAt d).units, ((u.side == side) && u.gang && u.slots.isEmpty) = false := fun u hu => by
      simp [(h.2 d hd u hu).1]
    have e1 : (s.dieAt d).units.filter (fun u => !((u.side == side) && u.gang && u.slots.isEmpty)) = (s.dieAt d).units :=
      List.filter_eq_self.mpr fun u hu => by simp only [none_mine u hu, Bool.not_false]
    have e2 : (s.dieAt d).units.filter (fun u => (u.side == side) && u.gang && u.slots.isEmpty) = [] :=
      List.filter_eq_nil_iff.mpr fun u hu => by simp only [none_mine u hu, Bool.false_eq_true, not_false_eq_true]
    dsimp only
    rw [e1, e2, List.foldl_nil]
    have hu : (((s.dieAt d).setReserved side none)).units = (s.dieAt d).units := by cases side <;> rfl
    refine ⟨.trans (.setDieAt ?_) (noteHeads_onlyQueueMarks _ d), noteHeads_noGangs (noGangs_setDieAt h fun u hm => ?_) hd⟩
    · cases side <;> rfl
    · exact h.2 d hd u (hu ▸ hm)

/-- No unit is an image, so none moves. -/
theorem rehomeImages_eq {s : State} {d : Nat} (h : NoGangs s) (hd : d < 24) (side : Bool) : rehomeImages d side s = s := by
  unfold rehomeImages
  dsimp only
  rw [List.filter_eq_nil_iff.mpr fun u hu => by simp [(h.2 d hd u hu).2], List.foldl_nil]

theorem rehomeDie_quiet {s : State} {d : Nat} (h : NoGangs s) (hd : d < 24) : Quiet s (rehomeDie d s) := by
  refine List.foldlRecOn (motive := Quiet s) [false, true] _ ⟨.refl s, h⟩ fun u hu b _ => ?_
  split
  · exact hu
  · have hg := rehomeGangs_quiet hu.2 hd b
    rw [rehomeImages_eq hg.2 hd]
    exact ⟨hu.1.trans hg.1, hg.2⟩

theorem placeHeld_eq {s : State} (h : s.heldUnits = []) : placeHeld s = s := by
  unfold placeHeld
  rw [h, List.foldl_nil, ← h]

/-- Firmware moves nothing where no gang and no image waits. -/
theorem rehomeAll_quiet {s : State} (h : NoGangs s) : Quiet s (rehomeAll s) := by
  have hd : Quiet s ((List.range 24).foldl (fun s d => rehomeDie d s) s) :=
    List.foldlRecOn (motive := Quiet s) (List.range 24) _ ⟨.refl s, h⟩ fun u hu d hm => by
      have hr := rehomeDie_quiet hu.2 (List.mem_range.mp hm)
      exact ⟨hu.1.trans hr.1, hr.2⟩
  rw [rehomeAll, placeHeld_eq hd.2.1]
  exact hd

/-! ## TRET (R413, R416) -/

/-- A tile without a task, and without a resume unit, is gated at once (R416). -/
theorem gateTiles_idle {d k : Nat} {s : State} (hk : k < 16) (ht : (s.tileAt (16 * d + k)).task = none)
    (hr : (s.tileAt (16 * d + k)).resuming = none) :
    gateTiles [16 * d + k] s = s.setDieAt d { s.dieAt d with gated := (s.dieAt d).gated ||| (1#16 <<< k) } := by
  have e1 : (16 * d + k) / 16 = d := by omega
  have e2 : (16 * d + k) % 16 = k := by omega
  simp [gateTiles, State.putBack, ht, hr, e1, e2]

/-- The mask of one tile names that tile alone. -/
theorem maskTiles_single {k : Nat} (hk : k < 16) (d : Nat) : maskTiles d (BitVec.ofNat 64 (2 ^ k)) = [16 * d + k] := by
  have e : ∀ k < 16, (List.range 16).filter (bit (BitVec.ofNat 64 (2 ^ k))) = [k] := by decide
  rw [maskTiles, e k hk, List.map_singleton]

/-- TRET has a bit for every tile. -/
theorem tileMask_and {k : Nat} (hk : k < 16) : BitVec.ofNat 64 (2 ^ k) &&& 0xFFFF#64 = BitVec.ofNat 64 (2 ^ k) := by
  have e : ∀ k < 16, BitVec.ofNat 64 (2 ^ k) &&& 0xFFFF#64 = BitVec.ofNat 64 (2 ^ k) := by decide
  exact e k hk

/-- The write gates the tile unless its bit stood already, and changes nothing else. -/
theorem gateTiles_unretired {d k : Nat} {s : State} (hd : d < 24) (hk : k < 16) (hn : NoGangs s)
    (ht : (s.tileAt (16 * d + k)).task = none) (hr : (s.tileAt (16 * d + k)).resuming = none) (old : BitVec 64) :
    ∃ y, gateTiles ((maskTiles d (BitVec.ofNat 64 (2 ^ k))).filter fun g => !bit old (g % 16)) s = y ∧ NoGangs y ∧
      y.tiles = s.tiles ∧ y.mem = s.mem ∧ y.nv = s.nv ∧ (∀ o, y.dieReg d o = s.dieReg d o) ∧
      (y.dieAt d).gated = if bit old k = true then (s.dieAt d).gated else (s.dieAt d).gated ||| (1#16 <<< k) := by
  have e : (16 * d + k) % 16 = k := by omega
  rw [maskTiles_single hk, List.filter_singleton, e]
  cases bit old k
  · refine ⟨_, gateTiles_idle hk ht hr, noGangs_setDieAt hn (hn.2 d hd), rfl, rfl, rfl, fun o => ?_, ?_⟩
    · rw [State.dieReg, dieAt_setDieAt_self, State.dieReg]
    · rw [dieAt_setDieAt_self]; rfl
  · exact ⟨s, rfl, hn, rfl, rfl, rfl, fun _ => rfl, rfl⟩

/-- One more tile in a mask of a die's tiles. -/
theorem getLsbD_or_one_shiftLeft {k : Nat} (hk : k < 16) (x : BitVec 16) (j : Nat) :
    (x ||| (1#16 <<< k)).getLsbD j = (x.getLsbD j || decide (j = k)) := by
  have e : (1#16 <<< k) = BitVec.twoPow 16 k := rfl
  rw [BitVec.getLsbD_or, e, BitVec.getLsbD_twoPow]
  simp [hk, eq_comm]

/-- What a write of TRET stores before the tiles are gated: the bits, and the list in the nonvolatile configuration. -/
def retireNoted (d : Nat) (w : BitVec 64) (s : State) : State :=
  { s.setDieReg d 0x30048 (s.dieReg d 0x30048 ||| (w &&& 0xFFFF#64)) with
    nv := { s.nv with retired := mapSet 0#16 s.nv.retired d ((s.dieReg d 0x30048 ||| (w &&& 0xFFFF#64)).setWidth 16) } }

theorem retireNoted_noGangs {s : State} {d : Nat} (h : NoGangs s) (hd : d < 24) (w : BitVec 64) : NoGangs (retireNoted d w s) :=
  noGangs_setDieAt (d := d) h (h.2 d hd)

@[simp] theorem retireNoted_dieReg (d : Nat) (w : BitVec 64) (s : State) :
    (retireNoted d w s).dieReg d 0x30048 = s.dieReg d 0x30048 ||| (w &&& 0xFFFF#64) :=
  dieReg_setDieReg_self s d 0x30048 _

@[simp] theorem retireNoted_retired (d : Nat) (w : BitVec 64) (s : State) :
    mapGet 0#16 (retireNoted d w s).nv.retired d = (s.dieReg d 0x30048 ||| (w &&& 0xFFFF#64)).setWidth 16 :=
  mapGet_mapSet_self _ _ _ _

@[simp] theorem retireNoted_gated (d : Nat) (w : BitVec 64) (s : State) : ((retireNoted d w s).dieAt d).gated = (s.dieAt d).gated := by
  show ((s.setDieReg d _ _).dieAt d).gated = _
  rw [State.setDieReg, dieAt_setDieAt_self]

/-- A write of TRET stores the bits, ends reservations, gates the tiles whose bits were 0, and rehomes what is stranded. -/
theorem retireTiles_eq {s : State} {d : Nat} (h : NoGangs s) (hd : d < 24) (w : BitVec 64) : ∃ u, Quiet (retireNoted d w s) u ∧
    retireTiles d w s = rehomeAll (gateTiles ((maskTiles d w).filter fun g => !bit (s.dieReg d 0x30048) (g % 16)) u) := by
  have e : ∃ a l, retireTiles d w s = rehomeAll (gateTiles ((maskTiles d w).filter fun g => !bit (s.dieReg d 0x30048) (g % 16))
      ((retireNoted d w s).setDieAt d { (retireNoted d w s).dieAt d with reserveA := a, reserveL := l })) := by
    unfold retireTiles retireNoted
    dsimp only
    rw [dieReg_setDieReg_self]
    exact ⟨_, _, rfl⟩
  obtain ⟨a, l, e⟩ := e
  exact ⟨_, setReserves_quiet (retireNoted_noGangs h hd w) hd a l, e⟩

/-- A write of one bit of TRET for a tile without a task sets it, keeps the list, gates the tile, and leaves every tile and memory. -/
theorem exec_tileRetire_idle {d k : Nat} {s : State} (hd : d < 24) (hk : k < 16) (hj : s.jtag ≠ .extest) (hn : NoGangs s)
    (ht : (s.tileAt (16 * d + k)).task = none) (hr : (s.tileAt (16 * d + k)).resuming = none) :
    ∃ v, exec (.tileRetire d (BitVec.ofNat 64 (2 ^ k))) s = .next v ∧
      v.dieReg d 0x30048 = s.dieReg d 0x30048 ||| BitVec.ofNat 64 (2 ^ k) ∧
      mapGet 0#16 v.nv.retired d = (v.dieReg d 0x30048).setWidth 16 ∧ v.tiles = s.tiles ∧ v.mem = s.mem ∧
      (v.dieAt d).gated =
        if bit (s.dieReg d 0x30048) k = true then (s.dieAt d).gated else (s.dieAt d).gated ||| (1#16 <<< k) := by
  have hw : BitVec.ofNat 64 (2 ^ k) &&& 0xFFFF#64 = BitVec.ofNat 64 (2 ^ k) := tileMask_and hk
  obtain ⟨u, ⟨hu, hun⟩, e⟩ := retireTiles_eq hn hd (BitVec.ofNat 64 (2 ^ k))
  have hut : u.tiles = s.tiles := hu.tiles
  have hum : u.mem = s.mem := hu.mem
  have ha : u.tileAt (16 * d + k) = s.tileAt (16 * d + k) := by rw [State.tileAt, hut, State.tileAt]
  obtain ⟨y, hy, hyn, hyt, hym, hyv, hyr, hyg⟩ :=
    gateTiles_unretired hd hk hun (by rw [ha, ht]) (by rw [ha, hr]) (s.dieReg d 0x30048)
  obtain ⟨hv, -⟩ := rehomeAll_quiet hyn
  have hreg : (rehomeAll y).dieReg d 0x30048 = s.dieReg d 0x30048 ||| BitVec.ofNat 64 (2 ^ k) := by
    rw [hv.dieReg, hyr, hu.dieReg, retireNoted_dieReg, hw]
  refine ⟨rehomeAll y, ?_, hreg, ?_, by rw [hv.tiles, hyt, hut], by rw [hv.mem, hym, hum], ?_⟩
  · rw [hy] at e
    show s.released (.next (retireTiles d _ s)) = _
    rw [released_of_ne hj, e]
  · rw [hreg, hv.nv, hyv, hu.nv, retireNoted_retired, hw]
  · rw [hv.gated, hyg, hu.gated, retireNoted_gated]

/-! ## DBGCTL (R413, R422, R424) -/

/-- A mode that the security state allows, invasive not in package-standby, is taken, and SECST.DMODE shows it. -/
theorem writeDbgctl_taken {d : Nat} {w : BitVec 64} {s : State} (ha : modeAllowed s.sec.state (bits w 1 0) = true)
    (hs : ¬ (s.standby = true ∧ bits w 1 0 = 2)) : writeDbgctl d w s =
      State.setDieReg (s.setDieReg d 0x30040 (setBits (w &&& 0x0000FFFFFFFFF008#64) 1 0 (bits w 1 0))) d 0x30038
        (setBits (s.dieReg d 0x30038) 9 8 (bits w 1 0)) := by
  have hok : (modeAllowed s.sec.state (bits w 1 0) && !(s.standby && decide (bits w 1 0 = 2))) = true := by
    rw [ha, Bool.true_and, Bool.not_eq_true', ← Bool.not_eq_true, Bool.and_eq_true, decide_eq_true_eq]
    exact hs
  simp only [writeDbgctl, hok, if_true, State.setDmode]
  rw [dieReg_setDieReg_other s d _ (by decide)]

/-- Any other mode is not taken, and MODE stays. -/
theorem writeDbgctl_kept {d : Nat} {w : BitVec 64} {s : State}
    (h : modeAllowed s.sec.state (bits w 1 0) = false ∨ (s.standby = true ∧ bits w 1 0 = 2)) : writeDbgctl d w s =
      s.setDieReg d 0x30040 (setBits (w &&& 0x0000FFFFFFFFF008#64) 1 0 (bits (s.dieReg d 0x30040) 1 0)) := by
  have hok : (modeAllowed s.sec.state (bits w 1 0) && !(s.standby && decide (bits w 1 0 = 2))) = false := by
    rcases h with h | ⟨h1, h2⟩
    · rw [h]; rfl
    · simp [h1, h2]
  simp only [writeDbgctl, hok, Bool.false_eq_true, if_false]

/-- The modes of the four security states (R424). -/
theorem modeAllowed_iff {st m : Nat} (h : st ≤ 3) : modeAllowed st m = true ↔
    (st = 0 ∧ m ≤ 2) ∨ (st = 1 ∧ m ≤ 1) ∨ (st = 2 ∧ m = 0) ∨ (st = 3 ∧ m ≤ 2) := by
  interval_cases st <;> simp [modeAllowed]

end Sys2Proof.Machine

namespace Sys2Proof.Proofs

open Sys2Proof.Machine Sys2Proof.Claims

/-- Settles O48, part by part: blocks 0, 2 and 3 by the mask of each register and the grant entries by the block table's verdict; tile
CSRs by the tile's run state; KVREP by the header that the controller reads; TRET by the fact that rehoming moves nothing where no gang and
no image waits; DBGCTL by the modes of each security state. -/
theorem registerWriteResult : Obligations.RegisterWriteResult := by
  unfold Obligations.RegisterWriteResult
  refine ⟨fun d w s hd hj => ?_, fun g c w s hj => ?_, fun d w q0 q1 q2 s hj => ?_, fun d k w s hd hk hj hn hw ht hr => ?_,
    fun d w s hj => ?_⟩
  -- the register space
  · refine ⟨fun o ho => ?_, ?_, fun k hk => ⟨?_, ?_⟩, ?_, ?_, ?_, ?_, ?_, ?_, fun o ho => ?_, fun cls i hc hi h8 => ?_, ?_⟩
    · rcases ho with rfl | rfl
      · exact writes_block0 hd hj w (by decide) (by decide) (by decide) rfl (by decide)
      · exact writes_block0 hd hj w (by decide) (by decide) (by decide) rfl (by decide)
    · exact writes_block0 hd hj w (by decide) (by decide) (by decide) rfl (by decide)
    · exact writes_block0 hd hj w (by omega) (by omega) (by omega) (block0Mask_slice hk) (by decide)
    · exact writes_block0 hd hj w (by omega) (by omega) (by omega) (block0Mask_port hk) (by decide)
    · exact exec_registerWrite_firmware hd (by decide) hj w
    · exact writes_block3 hd hj (o := 0) (by decide) (by decide) rfl
    · exact writes_block3 hd hj (o := 8) (by decide) (by decide) rfl
    · exact writes_block3_whole hd hj (o := 0x18) (by decide) (by decide) rfl
    · exact writes_block3 hd hj (o := 0x30) (by decide) (by decide) rfl
    · exact writes_block3_whole hd hj (o := 0x50) (by decide) (by decide) rfl
    · rcases ho with rfl | rfl | rfl
      · exact exec_registerWrite_block3 hd (o := 0x10) (by decide) (by decide) hj w
      · exact exec_registerWrite_block3 hd (o := 0x20) (by decide) (by decide) hj w
      · exact exec_registerWrite_block3 hd (o := 0x38) (by decide) (by decide) hj w
    · have e := exec_registerWrite_tile (s := s) (o := 0x10000 + i) hd hc (by omega) (by omega) hj w
      rw [writeRegTile_grant hi] at e
      exact ⟨fun h => e.trans (if_pos h), fun h => e.trans (if_neg h)⟩
    · exact exec_registerWrite_firmware hd (by decide) hj w
  -- tile CSRs
  · refine ⟨exec_firmwareCsrWrite_gcc hj w, exec_firmwareCsrWrite_guc hj w, fun hr => ⟨?_, ?_⟩, fun hr hg hu =>
      exec_firmwareCsrWrite_running hj hg hu hr w⟩
    · exact exec_firmwareCsrWrite_open hj (by decide) (by decide) hr rfl w
    · exact exec_firmwareCsrWrite_open hj (by decide) (by decide) hr rfl w
  -- KVREP
  · refine ⟨fun hb => ?_, fun hb hp => ?_, fun hb hp h0 h1 h2 he hx hn hl => ?_, released_of_ne hj _⟩
    · rw [exec_kvrepWrite hj, writeKvrep_clear hb]
    · rw [exec_kvrepWrite hj, writeKvrep_report hb, kvrepReport_off hp]
    · rw [exec_kvrepWrite hj, writeKvrep_report hb, kvrepReport_enters (pHeader_kvrep hp rfl h0 h1 h2 he) hx hn hl, setDamage_append]
      rfl
  -- TRET
  · subst hw
    obtain ⟨v, he, hreg, hnv, hvt, hvm, hvg⟩ := exec_tileRetire_idle hd hk hj hn ht hr
    refine ⟨v, he, hreg, hnv, hvt, hvm, fun hb => ?_, fun j hj16 hjk => ?_⟩
    · rw [hvg, hb, if_neg Bool.false_ne_true, getLsbD_or_one_shiftLeft hk]; simp
    · rw [hvg]
      split
      · rfl
      · rw [getLsbD_or_one_shiftLeft hk]; simp [hjk]
  -- DBGCTL
  · have ex : exec (.debugModeWrite d w) s = .next (writeDbgctl d w s) := released_of_ne hj _
    refine ⟨fun ⟨hm, hs⟩ => ?_, fun h3 hn => ?_⟩
    · rw [ex, writeDbgctl_taken ((modeAllowed_iff (by omega)).mpr hm) hs]
    · rw [ex, writeDbgctl_kept]
      by_cases hm : modeAllowed s.sec.state (bits w 1 0) = true
      · exact .inr (not_not.mp fun hs => hn ⟨(modeAllowed_iff h3).mp hm, hs⟩)
      · exact .inl (Bool.not_eq_true _ ▸ hm)

end Sys2Proof.Proofs
end

section
/-!
PROOFS. Brim moves (R23, R392, R409) and writes of HOLD (R387): the fields of BMOV, the tiles that a move moves, what a cut leaves
unchanged, and what each stage does, from which O47 is assembled.
-/

namespace Sys2Proof.Machine

open Sys2Proof.Claims

/-! ## Fields of a doubleword (R5) -/

/-- A replaced field shows the new value in its own bits and the old word elsewhere. -/
theorem getLsbD_setBits {hi lo : Nat} (h : lo ≤ hi + 1) (w : BitVec 64) (v i : Nat) : (setBits w hi lo v).getLsbD i =
    (decide (i < 64) && if i < lo then w.getLsbD i else if i < hi + 1 then v.testBit (i - lo) else w.getLsbD i) := by
  have hv : v % 2 ^ (hi + 1 - lo) < 2 ^ (hi + 1 - lo) := Nat.mod_lt _ (Nat.two_pow_pos _)
  have hw : w.toNat % 2 ^ lo < 2 ^ lo := Nat.mod_lt _ (Nat.two_pow_pos _)
  have shape : w.toNat / 2 ^ (hi + 1) * 2 ^ (hi + 1) + (v % 2 ^ (hi + 1 - lo)) * 2 ^ lo + w.toNat % 2 ^ lo =
      2 ^ lo * (2 ^ (hi + 1 - lo) * (w.toNat / 2 ^ (hi + 1)) + v % 2 ^ (hi + 1 - lo)) + w.toNat % 2 ^ lo := by
    rw [Nat.mul_add, ← Nat.mul_assoc, ← Nat.pow_add, Nat.add_sub_cancel' h]; ring
  rw [setBits, BitVec.getLsbD_ofNat, shape, Nat.testBit_two_pow_mul_add _ hw]
  congr 1
  split
  · rw [Nat.testBit_mod_two_pow, BitVec.testBit_toNat]; simp [*]
  · rw [Nat.testBit_two_pow_mul_add _ hv]
    by_cases hi' : i < hi + 1
    · have : i - lo < hi + 1 - lo := by omega
      simp [hi', this]
    · have : ¬ i - lo < hi + 1 - lo := by omega
      have e : i - lo - (hi + 1 - lo) + (hi + 1) = i := by omega
      rw [if_neg this, if_neg hi', Nat.testBit_div_two_pow, e, BitVec.testBit_toNat]

theorem testBit_bits (w : BitVec 64) (hi lo i : Nat) : (bits w hi lo).testBit i = (decide (i < hi + 1 - lo) && w.getLsbD (i + lo)) := by
  rw [bits, Nat.testBit_mod_two_pow, Nat.testBit_div_two_pow, BitVec.testBit_toNat]

/-- The field just written. -/
theorem bits_setBits_self {hi lo : Nat} (h : lo ≤ hi) (h64 : hi < 64) (w : BitVec 64) (v : Nat) :
    bits (setBits w hi lo v) hi lo = v % 2 ^ (hi + 1 - lo) := by
  refine Nat.eq_of_testBit_eq fun i => ?_
  rw [testBit_bits, getLsbD_setBits (by omega), Nat.testBit_mod_two_pow]
  by_cases hi' : i < hi + 1 - lo
  · have h1 : i + lo < 64 := by omega
    have h2 : i + lo < hi + 1 := by omega
    simp [h1, h2]
  · simp [hi']

/-- A field below the one written. -/
theorem bits_setBits_below {hi lo hi' lo' : Nat} (h : lo ≤ hi + 1) (hb : hi' < lo) (h64 : hi' < 64) (w : BitVec 64) (v : Nat) :
    bits (setBits w hi lo v) hi' lo' = bits w hi' lo' := by
  refine Nat.eq_of_testBit_eq fun i => ?_
  rw [testBit_bits, testBit_bits, getLsbD_setBits h]
  by_cases hi : i < hi' + 1 - lo'
  · have h1 : i + lo' < 64 := by omega
    have h2 : i + lo' < lo := by omega
    simp [h1, h2]
  · simp [hi]

/-- The second of two writes of one field stands. -/
theorem setBits_setBits {hi lo : Nat} (h : lo ≤ hi + 1) (w : BitVec 64) (u v : Nat) :
    setBits (setBits w hi lo u) hi lo v = setBits w hi lo v := by
  refine BitVec.eq_of_getLsbD_eq fun i hi' => ?_
  simp only [getLsbD_setBits h]
  split_ifs <;> simp [hi']

/-! ## Registers of a die whose other fields change -/

/-- A register reads as before where a die is written with the registers it had. -/
theorem dieReg_setDieAt {s : State} {d : Nat} {x : Die} (h : x.regs = (s.dieAt d).regs) (k o : Nat) :
    (s.setDieAt d x).dieReg k o = s.dieReg k o := by
  by_cases hk : k = d
  · subst hk; rw [State.dieReg, dieAt_setDieAt_self, h, State.dieReg]
  · rw [State.dieReg, dieAt_setDieAt_other s x hk, State.dieReg]

/-- A write of one register leaves the others, of every die. -/
theorem dieReg_setDieReg_ne (s : State) (d k : Nat) {o p : Nat} (v : BitVec 64) (h : p ≠ o) :
    (s.setDieReg d o v).dieReg k p = s.dieReg k p := by
  by_cases hk : k = d
  · subst hk; exact dieReg_setDieReg_other s k v h
  · rw [State.dieReg, State.setDieReg, dieAt_setDieAt_other s _ hk, State.dieReg]

/-! ## The error logs leave every register but their own (R413, R414) -/

/-- The registers that an entry of an error log, or a count, can change. -/
def LogReg (o : Nat) : Prop := o = 0x30010 ∨ o = 0x30020 ∨ o = 0x30050

theorem logError_dieReg (r : LogReq) (fatal : Bool) (s : State) (d : Nat) {o : Nat} (h : ¬ LogReg o) :
    (logError r fatal s).dieReg d o = s.dieReg d o := by
  have h1 : o ≠ 0x30010 := fun e => h (.inl e)
  have h2 : o ≠ 0x30020 := fun e => h (.inr (.inl e))
  unfold logError
  extract_lets +lift w0 u elb cap wpos rpos a v
  have noted : u.dieReg d o = s.dieReg d o := by simp only [u]; split <;> rfl
  split
  · exact noted
  · split
    · exact (dieReg_setDieReg_ne _ _ _ _ h2).trans noted
    · exact (dieReg_setDieReg_ne _ _ _ _ h1).trans noted

theorem logErrors_dieReg (l : List LogReq) (s : State) (d : Nat) {o : Nat} (h : ¬ LogReg o) :
    (logErrors l s).dieReg d o = s.dieReg d o := by
  induction l generalizing s with
  | nil => rfl
  | cons r t ih =>
    rw [logErrors, ih]
    split
    · unfold State.countDie
      split
      · rfl
      · exact dieReg_setDieReg_ne _ _ _ _ fun e => h (.inr (.inr e))
    · exact logError_dieReg _ _ s d h

/-- The clock's way to a deadline changes a register only through the entries of lost packets (R275). -/
theorem until_dieReg (s : State) (t : BitVec 64) (d : Nat) {o : Nat} (h : ¬ LogReg o) : (s.until t).dieReg d o = s.dieReg d o := by
  unfold State.until
  split
  · exact logErrors_dieReg _ _ d h
  · rfl

/-! ## A cut leaves the clock and the registers (R402) -/

/-- `v` has the clock of `s` and every register of every die. -/
structure SameClockRegs (s v : State) : Prop where
  ftb : v.ftb = s.ftb
  dieReg : ∀ d o, v.dieReg d o = s.dieReg d o

namespace SameClockRegs

variable {s u v : State}

theorem refl (s : State) : SameClockRegs s s := ⟨rfl, fun _ _ => rfl⟩

theorem trans (h : SameClockRegs s u) (k : SameClockRegs u v) : SameClockRegs s v :=
  ⟨k.ftb.trans h.ftb, fun d o => (k.dieReg d o).trans (h.dieReg d o)⟩

theorem foldl {α : Type} {f : State → α → State} (hf : ∀ u a, SameClockRegs u (f u a)) (l : List α) (s : State) :
    SameClockRegs s (l.foldl f s) :=
  List.foldlRecOn (motive := SameClockRegs s) l f (refl s) fun u hu a _ => hu.trans (hf u a)

end SameClockRegs

theorem handOver_sameClockRegs (g w : Nat) (s : State) : SameClockRegs s (handOver g w s) := by
  unfold handOver
  dsimp only
  split
  · split
    · exact ⟨rfl, fun _ _ => rfl⟩
    · exact .refl s
  · exact .refl s

theorem handAll_sameClockRegs (g : Nat) (s : State) : SameClockRegs s (handAll g s) :=
  .foldl (fun u (p : Nat × Window) => .foldl (fun u _ => handOver_sameClockRegs g p.1 u) (List.range p.2.outq.length) u) _ s

theorem cutTile_sameClockRegs (g : Nat) (s : State) : SameClockRegs s (cutTile g s) := by
  have written : SameClockRegs s (s.writeBack g fun _ _ => true) := ⟨rfl, fun _ _ => rfl⟩
  have handed := written.trans (handAll_sameClockRegs g _)
  unfold cutTile
  dsimp only
  split
  · exact handed.trans ⟨rfl, fun d o => dieReg_setDieAt (by rfl) d o⟩
  · exact handed.trans ⟨rfl, fun _ _ => rfl⟩

theorem cutNow_sameClockRegs (g : Nat) (s : State) : SameClockRegs s (cutNow g s) := by
  unfold cutNow
  split
  · exact cutTile_sameClockRegs g s
  · exact .refl s

/-! ## Changing the tiles of a list -/

/-- `v` is `s` with each tile of `l` changed by `u`; of the dies, reservations at most differ. -/
structure Retiled (u : Nat → Tile → Tile) (l : List Nat) (s v : State) : Prop where
  mem : v.mem = s.mem
  held : v.heldUnits = s.heldUnits
  die : ∀ d, v.dieAt d = { s.dieAt d with reserveA := (v.dieAt d).reserveA, reserveL := (v.dieAt d).reserveL }
  tile : ∀ g, v.tileAt g = if g ∈ l then u g (s.tileAt g) else s.tileAt g

namespace Retiled

variable {u : Nat → Tile → Tile} {l : List Nat} {s v : State}

theorem dieReg (h : Retiled u l s v) (d o : Nat) : v.dieReg d o = s.dieReg d o := by
  rw [State.dieReg, h.die d, State.dieReg]

theorem noGangs (h : Retiled u l s v) (hn : NoGangs s) : NoGangs v :=
  ⟨h.held.trans hn.1, fun e he => by rw [h.die e]; exact hn.2 e he⟩

theorem setTileAt (u : Nat → Tile → Tile) (g : Nat) (s : State) : Retiled u [g] s (s.setTileAt g (u g (s.tileAt g))) where
  mem := rfl
  held := rfl
  die _ := rfl
  tile k := by
    by_cases hk : k = g
    · subst hk; simp
    · simp [tileAt_setTileAt_other s _ hk, hk]

/-- One tile after another, each of them as it was when its turn comes. -/
theorem foldl {f : State → Nat → State} (hl : l.Nodup)
    (hf : ∀ g ∈ l, ∀ w, w.tileAt g = s.tileAt g → (∀ d o, w.dieReg d o = s.dieReg d o) → Retiled u [g] w (f w g)) :
    Retiled u l s (l.foldl f s) := by
  induction l generalizing s with
  | nil => exact ⟨rfl, rfl, fun _ => rfl, fun _ => rfl⟩
  | cons a t ih =>
    obtain ⟨ha, ht⟩ := List.nodup_cons.mp hl
    have one : Retiled u [a] s (f s a) := hf a (by simp) s rfl fun _ _ => rfl
    have kept : ∀ g ∈ t, (f s a).tileAt g = s.tileAt g := fun g hg => by
      rw [one.tile, if_neg fun e => ha ((List.mem_singleton.mp e : g = a) ▸ hg)]
    have rest : Retiled u t (f s a) (t.foldl f (f s a)) := ih ht fun g hg w hw hr =>
      hf g (List.mem_cons_of_mem a hg) w (hw.trans (kept g hg)) fun d o => (hr d o).trans (one.dieReg d o)
    refine ⟨rest.mem.trans one.mem, rest.held.trans one.held, fun d => ?_, fun g => ?_⟩
    · conv_lhs => rw [List.foldl_cons, rest.die d, one.die d]
      rfl
    · rw [List.foldl_cons, rest.tile g, one.tile g]
      by_cases hg : g = a
      · subst hg; simp [ha]
      · simp [hg]

end Retiled

/-! ## The tiles that a move moves (R23, R409) -/

theorem mem_dieTiles {d g : Nat} : g ∈ dieTiles d ↔ g / 16 = d := by
  simp only [dieTiles, List.mem_map, List.mem_range]
  constructor
  · rintro ⟨k, hk, rfl⟩; omega
  · intro h; exact ⟨g % 16, by omega, by omega⟩

theorem nodup_dieTiles (d : Nat) : (dieTiles d).Nodup :=
  List.Nodup.map (fun a b (h : 16 * d + a = 16 * d + b) => by omega) List.nodup_range

theorem nodup_movers (s : State) (d : Nat) : (s.movers d).Nodup := (nodup_dieTiles d).filter _

/-- While BMOV shows a stage, the moving tiles are those between BRIM and TARGET. -/
theorem mem_movers {s : State} {d : Nat} (h : bits (s.dieReg d 0x20008) 9 8 ≠ 0) {g : Nat} :
    g ∈ s.movers d ↔ Moves d (bits (s.dieReg d 0x20000) 6 0) (bits (s.dieReg d 0x20008) 6 0) g := by
  rw [State.movers, List.mem_filter, mem_dieTiles, Moves]
  refine and_congr_right fun hg => ?_
  subst hg
  simp only [State.moving, ne_eq, h, not_false_eq_true, decide_true, Bool.true_and, Bool.or_eq_true, decide_eq_true_eq]
  rfl

theorem movedOut_iff {s : State} {d : Nat} (h : bits (s.dieReg d 0x20008) 9 8 ≠ 0) : s.movedOut d = true ↔
    ∀ g, Moves d (bits (s.dieReg d 0x20000) 6 0) (bits (s.dieReg d 0x20008) 6 0) g →
      (s.tileAt g).run = .idle ∨ (s.tileAt g).run = .frozen := by
  simp only [State.movedOut, List.all_eq_true, decide_eq_true_eq, mem_movers h]

/-! ## A write of TARGET (R392, R409) -/

/-- BMOV while a move to `n` waits in `stage`. -/
def bmovTaken (b : BitVec 64) (n stage : Nat) : BitVec 64 := setBits (setBits b 6 0 n) 9 8 stage

theorem bmovTaken_target (b : BitVec 64) {n : Nat} (hn : n ≤ 96) (stage : Nat) : bits (bmovTaken b n stage) 6 0 = n := by
  rw [bmovTaken, bits_setBits_below (by decide) (by decide) (by decide), bits_setBits_self (by decide) (by decide)]
  exact Nat.mod_eq_of_lt (by omega)

theorem bmovTaken_stage (b : BitVec 64) (n : Nat) {stage : Nat} (h : stage < 4) : bits (bmovTaken b n stage) 9 8 = stage := by
  rw [bmovTaken, bits_setBits_self (by decide) (by decide)]
  exact Nat.mod_eq_of_lt h

/-- The state in which a legal TARGET has been taken, with STAGE 1. -/
def State.takeTarget (s : State) (d n : Nat) : State := s.setDieReg d 0x20008 (bmovTaken (s.dieReg d 0x20008) n 1)

theorem mem_movers_takeTarget (s : State) (d : Nat) {n : Nat} (hn : n ≤ 96) {g : Nat} :
    g ∈ (s.takeTarget d n).movers d ↔ Moves d (bits (s.dieReg d 0x20000) 6 0) n g := by
  have hb : (s.takeTarget d n).dieReg d 0x20008 = bmovTaken (s.dieReg d 0x20008) n 1 := dieReg_setDieReg_self _ _ _ _
  rw [mem_movers (by rw [hb, bmovTaken_stage _ _ (by decide)]; decide), hb, bmovTaken_target _ hn, State.takeTarget,
    dieReg_setDieReg_other _ _ _ (by decide)]

theorem bmovTarget_refused {d : Nat} {w : BitVec 64} {s : State} (h : bits (s.dieReg d 0x20008) 9 8 ≠ 0 ∨ 96 < bits w 6 0) :
    bmovTarget d w s = s.bmovErr d true := if_pos h

theorem bmovTarget_taken {d : Nat} {w : BitVec 64} {s : State} (h0 : bits (s.dieReg d 0x20008) 9 8 = 0) (hn : bits w 6 0 ≤ 96) :
    bmovTarget d w s = if ((s.takeTarget d (bits w 6 0)).movers d).isEmpty then (s.takeTarget d (bits w 6 0)).setStage d 3
      else startMove d (s.takeTarget d (bits w 6 0)) :=
  if_neg (by omega)

/-- With nothing to move, the move waits for COMMIT at once. -/
theorem bmovTarget_still {d : Nat} {w : BitVec 64} {s : State} (h0 : bits (s.dieReg d 0x20008) 9 8 = 0) (hn : bits w 6 0 ≤ 96)
    (hm : ∀ g, ¬ Moves d (bits (s.dieReg d 0x20000) 6 0) (bits w 6 0) g) :
    bmovTarget d w s = (s.takeTarget d (bits w 6 0)).setStage d 3 := by
  rw [bmovTarget_taken h0 hn, if_pos]
  exact List.isEmpty_iff.mpr (List.eq_nil_iff_forall_not_mem.mpr fun g hg => hm g ((mem_movers_takeTarget s d hn).mp hg))

theorem takeTarget_setStage (s : State) (d n stage : Nat) :
    ((s.takeTarget d n).setStage d stage).dieReg d 0x20008 = bmovTaken (s.dieReg d 0x20008) n stage := by
  rw [State.setStage, dieReg_setDieReg_self, State.takeTarget, dieReg_setDieReg_self, bmovTaken, setBits_setBits (by decide), bmovTaken]

/-- A tile that is idle, with no task and no resume unit: stopping it takes no request. -/
def Tile.Free (t : Tile) : Prop := t.run = .idle ∧ t.task = none ∧ t.resuming = none

/-- A move stops the tile. -/
def stopTile (_ : Nat) (t : Tile) : Tile := { t with brimStop := true }

/-- A brim move's request on a free tile drops at most a reservation of its cluster (R397, R401). -/
theorem raiseReq_free {g : Nat} {s : State} (h : (s.tileAt g).Free) :
    Retiled (fun _ t => t) [g] s (raiseReq 1 false g s) := by
  obtain ⟨hr, ht, hu⟩ := h
  have one : raiseOne 1 false g s = s.setTileAt g (s.tileAt g) := by
    simp [raiseOne, State.putBack, hu, hr, Tile.stopFor]
  have tiles : s.gangTiles g = [g] := by simp [State.gangTiles, ht]
  have same : ∀ k, (s.setTileAt g (s.tileAt g)).tileAt k = s.tileAt k := fun k => by
    by_cases hk : k = g
    · subst hk; simp
    · exact tileAt_setTileAt_other s _ hk
  unfold raiseReq
  rw [tiles, List.foldl_cons, List.foldl_nil, one]
  refine ⟨rfl, rfl, fun d => ?_, fun k => ?_⟩
  · by_cases hd : d = g / 16
    · subst hd; rw [dieAt_setDieAt_self, dieAt_setTileAt]
    · rw [dieAt_setDieAt_other _ _ hd, dieAt_setTileAt]
  · rw [tileAt_setDieAt, same, ite_self]

/-- A request and a stop of a free tile. -/
theorem stopStep_retiled {g : Nat} {s : State} (h : (s.tileAt g).Free) :
    Retiled stopTile [g] s ((raiseReq 1 false g s).setTileAt g { (raiseReq 1 false g s).tileAt g with brimStop := true }) := by
  have raised := raiseReq_free h
  have stopped := Retiled.setTileAt stopTile g (raiseReq 1 false g s)
  refine ⟨raised.mem, raised.held, raised.die, fun k => ?_⟩
  have hk := stopped.tile k
  simp only [raised.tile, ite_self] at hk ⊢
  exact hk

/-- A move starts on free tiles: each is stopped, and the end of the polite stage is noted. -/
theorem startMove_free {d : Nat} {s : State} (h : ∀ g ∈ s.movers d, (s.tileAt g).Free) :
    ∃ u e, Retiled stopTile (s.movers d) s u ∧ startMove d s = u.setDieAt d { u.dieAt d with brimEnd := e } :=
  ⟨_, _, .foldl (nodup_movers s d) fun g hg _ hw _ => stopStep_retiled (by rw [hw]; exact h g hg), rfl⟩

/-! ## The stages (R409) -/

theorem advance_gone {d : Nat} {s : State} (h1 : bits (s.dieReg d 0x20008) 9 8 = 1) (hm : s.movedOut d = true) :
    exec (.brimStageAdvance d) s = .next (s.setStage d 2) := by
  show execBrimStageAdvance d s = _
  simp only [execBrimStageAdvance, h1, hm, if_true]

/-- The forced cut of one tile of a move leaves the clock and the registers. -/
theorem forcedCut_sameClockRegs (g : Nat) (s : State) : SameClockRegs s
    (if (s.tileAt g).pre.isSome ∧ (s.tileAt g).cut.isNone ∧ (s.tileAt g).run = .running then cutNow g s else s) := by
  split
  · exact cutNow_sameClockRegs g s
  · exact .refl s

/-- Stage 1 ends by its deadline with cuts, which leave the clock and the registers. -/
theorem advance_forced {d : Nat} {s : State} (h1 : bits (s.dieReg d 0x20008) 9 8 = 1) (hm : ¬ s.movedOut d = true) :
    ∃ u, SameClockRegs (s.until (s.dieAt d).brimEnd) u ∧ exec (.brimStageAdvance d) s = .next (u.setStage d 2) := by
  refine ⟨_, .foldl (fun u g => forcedCut_sameClockRegs g u) ((s.until (s.dieAt d).brimEnd).movers d) _, ?_⟩
  show execBrimStageAdvance d s = _
  simp only [execBrimStageAdvance, h1, hm, if_true]
  rfl

/-- A tile goes to the other side of the boundary `o` of its die. -/
def switchTile (o g : Nat) (t : Tile) : Tile := { t with tlb := [], side := decide (g / 4 < o) }

theorem advance_switch {d : Nat} {s : State} (h2 : bits (s.dieReg d 0x20008) 9 8 = 2) (hm : s.movedOut d = true) :
    ∃ u, Retiled (switchTile (s.brim d)) (s.movers d) s u ∧ exec (.brimStageAdvance d) s = .next (u.setStage d 3) := by
  refine ⟨_, .foldl (f := fun s g => s.setTileAt g { s.tileAt g with tlb := [], side := !s.sideOf g }) (nodup_movers s d)
    fun g hg w _ hr => ?_, ?_⟩
  · have hd : g / 16 = d := mem_dieTiles.mp (List.mem_of_mem_filter hg)
    have side : (!w.sideOf g) = decide (g / 4 < s.brim d) := by
      rw [State.sideOf, State.brim, hr, hd, State.brim, ← decide_not, decide_eq_decide, Nat.not_le]
    rw [side]
    exact .setTileAt (switchTile (s.brim d)) g w
  · show execBrimStageAdvance d s = _
    simp only [execBrimStageAdvance, h2, hm, and_self, if_true]
    rfl

/-! ## COMMIT and ERR (R392, R409) -/

theorem exec_brimMoveStart {d : Nat} {w : BitVec 64} {s : State} (hj : s.jtag ≠ .extest) :
    exec (.brimMoveStart d w) s = .next (bmovTarget d w s) := released_of_ne hj _

theorem exec_brimMoveCommit {d : Nat} {s : State} (hj : s.jtag ≠ .extest) :
    exec (.brimMoveCommit d) s = .next (bmovCommit d s) := released_of_ne hj _

theorem exec_bmovErrClear {d : Nat} {s : State} (hj : s.jtag ≠ .extest) :
    exec (.bmovErrClear d) s = .next (s.bmovErr d false) := released_of_ne hj _

theorem bmovCommit_refused {d : Nat} {s : State} (h : bits (s.dieReg d 0x20008) 9 8 ≠ 3) : bmovCommit d s = s.bmovErr d true :=
  if_pos h

/-- COMMIT releases the tile. -/
def releaseTile (_ : Nat) (t : Tile) : Tile := { t with brimStop := false }

/-- COMMIT writes BRIM, releases the die's tiles, ends the move, and rehomes what is stranded. -/
theorem bmovCommit_taken {d : Nat} {s : State} (h3 : bits (s.dieReg d 0x20008) 9 8 = 3) :
    ∃ u, Retiled releaseTile (dieTiles d) (s.setDieReg d 0x20000 (BitVec.ofNat 64 (bits (s.dieReg d 0x20008) 6 0))) u ∧
      bmovCommit d s = rehomeAll (u.setStage d 0) :=
  ⟨_, .foldl (nodup_dieTiles d) fun g _ w _ _ => .setTileAt releaseTile g w, if_neg (not_not.mpr h3)⟩

/-! ## HOLD (R387) -/

/-- Where nothing waits for a table, HOLD takes the bits of the five tables and nothing else happens. -/
theorem writeHold_quiet {d : Nat} {w : BitVec 64} {s : State} (hw : s.host.writes = []) (hk : ∀ k < 24, (s.dieAt k).kvreps = []) :
    writeHold d w s = s.setDieReg d 0x18 (w &&& 0x1F#64) := by
  have unheld : ∀ k < 24, ((s.setDieReg d 0x18 (w &&& 0x1F#64)).dieAt k).kvreps = [] := fun k h => by
    by_cases e : k = d
    · subst e; rw [State.setDieReg, dieAt_setDieAt_self]; exact hk k h
    · rw [State.setDieReg, dieAt_setDieAt_other s _ e]; exact hk k h
  have still : (List.range 24).foldl (fun s k => if (s.dieAt k).kvreps.isEmpty then s else retryKvreps k s)
      (s.setDieReg d 0x18 (w &&& 0x1F#64)) = s.setDieReg d 0x18 (w &&& 0x1F#64) :=
    List.foldlRecOn (motive := (· = s.setDieReg d 0x18 (w &&& 0x1F#64))) _ _ rfl fun u hu k h => by
      rw [hu, unheld k (List.mem_range.mp h)]; rfl
  rw [writeHold, still, State.drainHost, setDieReg_host, hw, hostWrites, setDieReg_host, ← hw]
  rfl

/-! ## What a write of TARGET or COMMIT and a stage come to -/

/-- Nothing has to move: TARGET is taken, and the move waits for COMMIT. -/
theorem exec_brimMoveStart_still {d : Nat} {w : BitVec 64} {s : State} (hj : s.jtag ≠ .extest)
    (h0 : bits (s.dieReg d 0x20008) 9 8 = 0) (hn : bits w 6 0 ≤ 96)
    (hm : ∀ g, ¬ Moves d (bits (s.dieReg d 0x20000) 6 0) (bits w 6 0) g) :
    ∃ v, exec (.brimMoveStart d w) s = .next v ∧ v.dieReg d 0x20008 = bmovTaken (s.dieReg d 0x20008) (bits w 6 0) 3 ∧
      v.tiles = s.tiles :=
  ⟨_, (exec_brimMoveStart hj).trans (congrArg _ (bmovTarget_still h0 hn hm)), takeTarget_setStage s d _ 3, rfl⟩

/-- Free tiles that have to move are stopped, and no other tile changes. -/
theorem exec_brimMoveStart_free {d : Nat} {w : BitVec 64} {s : State} (hj : s.jtag ≠ .extest)
    (h0 : bits (s.dieReg d 0x20008) 9 8 = 0) (hn : bits w 6 0 ≤ 96)
    (hm : ∃ g, Moves d (bits (s.dieReg d 0x20000) 6 0) (bits w 6 0) g)
    (hf : ∀ g, Moves d (bits (s.dieReg d 0x20000) 6 0) (bits w 6 0) g → (s.tileAt g).Free) :
    ∃ v, exec (.brimMoveStart d w) s = .next v ∧ v.dieReg d 0x20008 = bmovTaken (s.dieReg d 0x20008) (bits w 6 0) 1 ∧
      v.mem = s.mem ∧ (∀ g, Moves d (bits (s.dieReg d 0x20000) 6 0) (bits w 6 0) g → v.tileAt g = { s.tileAt g with brimStop := true }) ∧
      ∀ g, ¬ Moves d (bits (s.dieReg d 0x20000) 6 0) (bits w 6 0) g → v.tileAt g = s.tileAt g := by
  have movers : ∀ {g}, g ∈ (s.takeTarget d (bits w 6 0)).movers d ↔ _ := mem_movers_takeTarget s d hn
  obtain ⟨u, e, hu, he⟩ := startMove_free (s := s.takeTarget d (bits w 6 0)) fun g hg => hf g (movers.mp hg)
  obtain ⟨g, hg⟩ := hm
  have nonempty : ¬ ((s.takeTarget d (bits w 6 0)).movers d).isEmpty = true := fun h => by
    rw [List.isEmpty_iff.mp h] at movers; exact List.not_mem_nil (movers.mpr hg)
  refine ⟨u.setDieAt d { u.dieAt d with brimEnd := e }, ?_, ?_, hu.mem, fun g hg => ?_, fun g hg => ?_⟩
  · rw [exec_brimMoveStart hj, bmovTarget_taken h0 hn, if_neg nonempty, he]
  · exact (dieReg_setDieAt (by rfl) d _).trans ((hu.dieReg d _).trans (dieReg_setDieReg_self _ _ _ _))
  · rw [tileAt_setDieAt, hu.tile, if_pos (movers.mpr hg)]; rfl
  · rw [tileAt_setDieAt, hu.tile, if_neg fun h => hg (movers.mp h)]; rfl

/-- The polite stage ends by its deadline. -/
theorem exec_brimStageAdvance_forced {d : Nat} {s : State} (h1 : bits (s.dieReg d 0x20008) 9 8 = 1) (hm : ¬ s.movedOut d = true) :
    ∃ v, exec (.brimStageAdvance d) s = .next v ∧ v.ftb = (s.until (s.dieAt d).brimEnd).ftb ∧
      v.dieReg d 0x20008 = setBits (s.dieReg d 0x20008) 9 8 2 := by
  obtain ⟨u, hu, he⟩ := advance_forced h1 hm
  refine ⟨_, he, hu.ftb, ?_⟩
  rw [State.setStage, dieReg_setDieReg_self, hu.dieReg, until_dieReg _ _ _ (by simp [LogReg])]

/-- Stage 2 moves the tiles to their new side. -/
theorem exec_brimStageAdvance_switch {d : Nat} {s : State} (h2 : bits (s.dieReg d 0x20008) 9 8 = 2) (hm : s.movedOut d = true) :
    ∃ v, exec (.brimStageAdvance d) s = .next v ∧ v.dieReg d 0x20008 = setBits (s.dieReg d 0x20008) 9 8 3 ∧ v.mem = s.mem ∧
      ∀ g, v.tileAt g = if g ∈ s.movers d then switchTile (s.brim d) g (s.tileAt g) else s.tileAt g := by
  obtain ⟨u, hu, he⟩ := advance_switch h2 hm
  refine ⟨_, he, ?_, hu.mem, hu.tile⟩
  rw [State.setStage, dieReg_setDieReg_self, hu.dieReg]

/-- COMMIT in stage 3, with no unit that would have to move. -/
theorem exec_brimMoveCommit_taken {d : Nat} {s : State} (hd : d < 24) (hj : s.jtag ≠ .extest)
    (h3 : bits (s.dieReg d 0x20008) 9 8 = 3) (hn : NoGangs s) :
    ∃ v, exec (.brimMoveCommit d) s = .next v ∧ v.dieReg d 0x20000 = BitVec.ofNat 64 (bits (s.dieReg d 0x20008) 6 0) ∧
      v.dieReg d 0x20008 = setBits (s.dieReg d 0x20008) 9 8 0 ∧ v.mem = s.mem ∧
      ∀ g, v.tileAt g = if g / 16 = d then { s.tileAt g with brimStop := false } else s.tileAt g := by
  obtain ⟨u, hu, he⟩ := bmovCommit_taken h3
  have hb : u.dieReg d 0x20008 = s.dieReg d 0x20008 := by rw [hu.dieReg, dieReg_setDieReg_other _ _ _ (by decide)]
  have un : NoGangs u := hu.noGangs (noGangs_setDieAt hn (hn.2 d hd))
  obtain ⟨hv, -⟩ := rehomeAll_quiet (s := u.setStage d 0) (noGangs_setDieAt un (un.2 d hd))
  refine ⟨_, (exec_brimMoveCommit hj).trans (congrArg _ he), ?_, ?_, hv.mem.trans hu.mem, fun g => ?_⟩
  · rw [hv.dieReg, State.setStage, dieReg_setDieReg_other _ _ _ (by decide), hu.dieReg, dieReg_setDieReg_self]
  · rw [hv.dieReg, State.setStage, dieReg_setDieReg_self, hb]
  · have tile : u.tileAt g = if g / 16 = d then { s.tileAt g with brimStop := false } else s.tileAt g := by
      simp only [hu.tile g, mem_dieTiles]; rfl
    rw [← tile, State.tileAt, hv.tiles]; rfl

end Sys2Proof.Machine

namespace Sys2Proof.Proofs

open Sys2Proof.Machine Sys2Proof.Claims

/-- Settles O47, stage by stage: the moving tiles are those between BRIM and TARGET; a free one is stopped without a request; a forced
cut leaves the clock and BMOV; and COMMIT rehomes nothing where no gang and no image waits. -/
theorem brimMoveResult : Obligations.BrimMoveResult := by
  unfold Obligations.BrimMoveResult
  constructor
  -- TARGET
  · intro d w s b stage o n taken _ hj
    refine ⟨fun h => ?_, fun h0 hn => ⟨exec_brimMoveStart_still hj h0 hn, exec_brimMoveStart_free hj h0 hn⟩⟩
    rw [exec_brimMoveStart hj, bmovTarget_refused h]; rfl
  -- the stages, COMMIT, ERR and HOLD
  · intro d s b stage o n gone hd hj
    have out : stage ≠ 0 → (s.movedOut d = true ↔ gone) := movedOut_iff
    refine ⟨fun h1 hg => advance_gone h1 ((out (by omega)).mpr hg),
      fun h1 hg => exec_brimStageAdvance_forced h1 fun h => hg ((out (by omega)).mp h), fun h2 hg => ?_, fun h => ?_,
      exec_brimMoveCommit_taken hd hj, exec_bmovErrClear hj, fun hw hk w => ?_⟩
    · obtain ⟨v, he, hb, hm, ht⟩ := exec_brimStageAdvance_switch h2 ((out (by omega)).mpr hg)
      have movers : ∀ {g}, g ∈ s.movers d ↔ Moves d o n g := mem_movers (show stage ≠ 0 by omega)
      exact ⟨v, he, hb, hm, fun g h => (ht g).trans (if_pos (movers.mpr h)), fun g h => (ht g).trans (if_neg fun k => h (movers.mp k))⟩
    · rw [exec_brimMoveCommit hj, bmovCommit_refused h]; rfl
    · exact (released_of_ne hj _).trans (congrArg _ (writeHold_quiet hw hk))

end Sys2Proof.Proofs
end

section
/-!
PROOFS. The host's commands SEAL, UNSEAL and LAUNCH (R44 to R47, R422, R432): how a taken entry is performed and completed, and what a
launch hands to the expanders, from which O52 is assembled.
-/

namespace Sys2Proof.Machine

open Sys2Proof.Claims

/-! ## Bits of a word and fields of a launch header (R5, R42, R43) -/

theorem bits_eq_one_iff (w : BitVec 64) (i : Nat) : bits w i i = 1 ↔ bit w i = true := by
  have e : bits w i i = (w.getLsbD i).toNat := by
    rw [bits, Nat.add_sub_cancel_left, pow_one, ← BitVec.testBit_toNat, Nat.toNat_testBit]
  rw [e, bit, Bool.toNat_eq_one]

/-- A field of CTL is a field of the header's doubleword 6. -/
theorem ctlField_eq (h : List (BitVec 64)) {hi : Nat} (lo : Nat) (hh : hi < 32) :
    ctlField h hi lo = bits (h.getD 6 0#64) (hi + 32) (lo + 32) := by
  refine Nat.eq_of_testBit_eq fun i => ?_
  rw [ctlField, hdrCtl, Nat.testBit_mod_two_pow, Nat.testBit_div_two_pow, testBit_bits, testBit_bits]
  have e : hi + 32 + 1 - (lo + 32) = hi + 1 - lo := by omega
  rw [e, Nat.add_assoc]
  by_cases hi' : i < hi + 1 - lo
  · have : i + lo < 32 := by omega
    simp [hi', this]
  · simp [hi']

/-- A flag of CTL. -/
theorem ctlField_flag (h : List (BitVec 64)) {k : Nat} (hk : k < 32) : ctlField h k k = 1 ↔ bit (h.getD 6 0#64) (k + 32) = true := by
  rw [ctlField_eq h k hk, bits_eq_one_iff]

theorem hdrSide_eq (h : List (BitVec 64)) : hdrSide h = bit (h.getD 6 0#64) 32 := by
  rw [hdrSide, Bool.eq_iff_iff, decide_eq_true_eq, ctlField_flag h (by decide)]

/-! ## Performing and completing an entry (R431, R432) -/

/-- The entry that a ring has taken is performed by the command of its OP. -/
theorem onEntry_of_hasEntry {r op : Nat} {t : Taken} {s : State} (h : HasEntry s r op t) {test : Nat → Bool} (ht : test op = true)
    (f : Taken → State → State) : onEntry r test f s = .next (f t s) := by
  obtain ⟨he, ho, hr⟩ := h
  simp only [onEntry, he, Taken.op, ho, ht, hr, and_self, if_true]

theorem complete_eq (r : Nat) (t : Taken) (n : Nat) (s : State) : complete r t n s = completed s r t n := rfl

/-! ## Security states (R422) -/

/-- A security state that allows the debug mode of every die is entered with nothing else changed. -/
theorem enterState_of_allowed {n : Nat} {s : State} (h : ∀ d < 24, modeAllowed n (s.dmode d) = true) :
    enterState n s = { s with sec := { s.sec with state := n } } := by
  have e : (List.range 24).foldl (fun s d => if modeAllowed n (s.dmode d) then s else s.setDmode d 0) s = s :=
    List.foldlRecOn (motive := (· = s)) _ _ rfl fun u hu d hd => by rw [hu, if_pos (h d (List.mem_range.mp hd))]
  simp only [enterState, e]

theorem mapGet_map {α : Type} (f : α → α) (d : α) (m : SMap α) (n : Nat) :
    mapGet (f d) (m.map fun p => (p.1, f p.2)) n = f (mapGet d m n) := by
  induction m with
  | nil => rfl
  | cons p m ih => rw [List.map_cons, mapGet, mapGet, ih, apply_ite f]

/-- The clearing of a sealed state leaves every register of every die. -/
theorem clearAll_dieReg (s : State) (d o : Nat) : (clearAll s).dieReg d o = s.dieReg d o := by
  have e : (clearAll s).dieAt d = { s.dieAt d with homes := [] } :=
    mapGet_map (fun x : Die => { x with homes := [] }) Die.reset s.dies d
  rw [State.dieReg, e, State.dieReg]

theorem exec_seal_secured {r : Nat} {t : Taken} {s : State} (h : HasEntry s r 2 t) (h1 : s.sec.state = 1)
    (off : ∀ d < 24, s.dmode d = 0) : exec (.seal r) s = .next (completed { s with sec := { s.sec with
      state := 2, tenant := t.words.getD 7 0#64 ++ t.words.getD 6 0#64 ++ t.words.getD 5 0#64 ++ t.words.getD 4 0#64 } } r t 0) := by
  have all : (List.range 24).all (fun d => decide (s.dmode d = 0)) = true := by simpa using off
  show execSeal r s = _
  rw [execSeal, onEntry_of_hasEntry h (test := fun o => decide (o = 2)) rfl, if_pos ⟨h1, all⟩,
    enterState_of_allowed fun d hd => by rw [off d hd]; rfl, complete_eq]

theorem exec_seal_refused {r : Nat} {t : Taken} {s : State} (h : HasEntry s r 2 t)
    (hn : s.sec.state ≠ 1 ∨ ¬ ∀ d < 24, s.dmode d = 0) : exec (.seal r) s = .next (completed s r t 3) := by
  show execSeal r s = _
  rw [execSeal, onEntry_of_hasEntry h (test := fun o => decide (o = 2)) rfl,
    if_neg fun ⟨h1, all⟩ => hn.elim (· h1) (· (by simpa using all)), complete_eq]

theorem exec_unseal_sealed {r : Nat} {t : Taken} {s : State} (h : HasEntry s r 3 t) (h2 : s.sec.state = 2)
    (hm : ∀ d < 24, s.dmode d ≤ 1) : exec (.unseal r) s = .next (completed { clearAll s with sec := { s.sec with
      state := 1, tenant := 0#256 } } r t 0) := by
  have allowed : ∀ d < 24, modeAllowed 1 ((clearAll s).dmode d) = true := fun d hd => by
    rw [State.dmode, clearAll_dieReg]; exact decide_eq_true (hm d hd)
  show execUnseal r s = _
  rw [execUnseal, onEntry_of_hasEntry h (test := fun o => decide (o = 3)) rfl, if_pos h2, enterState_of_allowed allowed, complete_eq]
  rfl

theorem exec_unseal_refused {r : Nat} {t : Taken} {s : State} (h : HasEntry s r 3 t) (h2 : s.sec.state ≠ 2) :
    exec (.unseal r) s = .next (completed s r t 3) := by
  show execUnseal r s = _
  rw [execUnseal, onEntry_of_hasEntry h (test := fun o => decide (o = 3)) rfl, if_neg h2, complete_eq]

/-! ## Launches under expansion (R45, R46) -/

/-- The dies whose expanders an accepted header goes to (R46). -/
def hdrTargets (h : List (BitVec 64)) (l : List Nat) : List Nat := if ctlField h 7 4 = 0 then [ctlField h 12 8] else l

/-- Handing a launch to each die of a list leaves it once at the end of each one's launches. -/
theorem foldl_launches (e : Expand) {l : List Nat} (hl : l.Nodup) (s : State) (k : Nat) :
    ((l.foldl (fun s d => s.setDieAt d { s.dieAt d with launches := (s.dieAt d).launches ++ [e] }) s).dieAt k).launches =
      (s.dieAt k).launches ++ if k ∈ l then [e] else [] := by
  induction l generalizing s with
  | nil => simp
  | cons a l ih =>
    obtain ⟨ha, hl⟩ := List.nodup_cons.mp hl
    rw [List.foldl_cons, ih hl]
    by_cases hk : k = a
    · subst hk; simp [ha]
    · simp [dieAt_setDieAt_other s _ hk, hk]

theorem expand_launches (h : List (BitVec 64)) {l : List Nat} (hl : l.Nodup) (s : State) (k : Nat) :
    ((expand h l s).dieAt k).launches = (s.dieAt k).launches ++ if k ∈ hdrTargets h l then [⟨h, l, 0⟩] else [] := by
  refine foldl_launches ⟨h, l, 0⟩ (l := hdrTargets h l) ?_ s k
  unfold hdrTargets
  split
  · exact List.nodup_singleton _
  · exact hl

theorem nodup_launchDies (s : State) (h : List (BitVec 64)) : (s.launchDies h).Nodup := List.nodup_range.filter _

@[simp] theorem writeHome_dieAt (pa : Nat) (ws : List GWord) (s : State) (d : Nat) : (writeHome pa ws s).dieAt d = s.dieAt d := by
  unfold writeHome; split <;> rfl

theorem setDieReg_launches (s : State) (k o : Nat) (v : BitVec 64) (d : Nat) :
    ((s.setDieReg k o v).dieAt d).launches = (s.dieAt d).launches := by
  by_cases hd : d = k
  · subst hd; rw [State.setDieReg, dieAt_setDieAt_self]
  · rw [State.setDieReg, dieAt_setDieAt_other s _ hd]

/-- A completion leaves the launches under expansion. -/
theorem completed_launches (s : State) (r : Nat) (t : Taken) (n d : Nat) :
    ((completed s r t n).dieAt d).launches = (s.dieAt d).launches := by
  have shape : ∃ k w, ∀ d, (completed s r t n).dieAt d =
      ((writeHome k w { s with host := { s.host with taken := mapDel s.host.taken r } }).setRing true r 0x10
        (BitVec.ofNat 64 (((s.ring true r 0x10).toNat + 1) % 2 ^ 32))).dieAt d := by
    unfold completed putCompl
    dsimp only
    split <;> exact ⟨_, _, fun _ => rfl⟩
  obtain ⟨k, w, e⟩ := shape
  rw [e, State.setRing, setDieReg_launches, writeHome_dieAt]
  rfl

/-! ## LAUNCH (R44, R47) -/

theorem addCount_no_join {h : List (BitVec 64)} {s : State} (hj : h.getD 7 0#64 = 0#64) : addCount h s = .done s := if_pos hj

theorem addCount_unreached {h : List (BitVec 64)} {s : State} {logs : List LogReq} (hj : h.getD 7 0#64 ≠ 0#64)
    (hr : s.reach 0 (hdrSide h) (if hdrSide h then 3 else 2) (h.getD 7 0#64) Rights.amo = .bad logs) :
    addCount h s = .rejected (logErrors logs s) := by
  rw [addCount, if_neg hj]
  simp only [hr]

theorem addCount_reached {h : List (BitVec 64)} {s : State} {pa : Nat} {c : BitVec 64} (hj : h.getD 7 0#64 ≠ 0#64)
    (hr : s.reach 0 (hdrSide h) (if hdrSide h then 3 else 2) (h.getD 7 0#64) Rights.amo = .at pa []) (hc : s.mem.read pa = gloved c) :
    addCount h s = .done { s with mem := s.mem.write pa (gloved (c + BitVec.ofNat 64 (hdrCount h))) } := by
  rw [addCount, if_neg hj]
  simp only [hr, hc, checkUnit, checkWord_gloved, logErrors, eff_run, eff_pure]

section Launch

variable {r : Nat} {t : Taken} {s : State} (he : HasEntry s r 1 t) (hb : ∀ d < 24, bits (s.dieReg d 0x20008) 9 8 = 0)
  (hf : s.fatal = false)

include he hb hf

/-- While no brim move runs and nothing fatal is logged, a taken launch is performed. -/
theorem exec_launch : exec (.launch r) s = .next (
    let h := (t.words.drop 8).take 8
    if s.headerOk h then
      match addCount h s with
      | .held => s
      | .rejected s => complete r t 1 s
      | .done s =>
        let s := expand h (s.launchDies h) s
        let s := if ctlField h 14 14 = 1 then
          { s with host := { s.host with joins := s.host.joins ++ [⟨h.getD 7 0#64, hdrSide h, r, t.tag⟩] } } else s
        complete r t 0 s
    else complete r t 1 s) := by
  have settled : (List.range 24).all (fun d => decide (bits (s.dieReg d 0x20008) 9 8 = 0)) = true := by simpa using hb
  show execLaunch r s = _
  rw [execLaunch, if_neg (by simp [hf, settled])]
  exact onEntry_of_hasEntry he (test := fun o => decide (o = 1)) rfl _

theorem exec_launch_badHeader (hk : s.headerOk ((t.words.drop 8).take 8) = false) : exec (.launch r) s = .next (completed s r t 1) := by
  rw [exec_launch he hb hf]
  simp only [hk, Bool.false_eq_true, if_false, complete_eq]

theorem exec_launch_rejected {v : State} (hk : s.headerOk ((t.words.drop 8).take 8) = true)
    (ha : addCount ((t.words.drop 8).take 8) s = .rejected v) : exec (.launch r) s = .next (completed v r t 1) := by
  rw [exec_launch he hb hf]
  simp only [hk, ha, if_true, complete_eq]

/-- An accepted launch without NOTE goes to the expanders and completes. -/
theorem exec_launch_accepted {v : State} (hk : s.headerOk ((t.words.drop 8).take 8) = true)
    (hn : bit (((t.words.drop 8).take 8).getD 6 0#64) 46 = false) (ha : addCount ((t.words.drop 8).take 8) s = .done v)
    (hv : v = { s with mem := v.mem }) : exec (.launch r) s =
      .next (completed (expand ((t.words.drop 8).take 8) (s.launchDies ((t.words.drop 8).take 8)) v) r t 0) := by
  have note : ctlField ((t.words.drop 8).take 8) 14 14 ≠ 1 := by
    rw [ne_eq, ctlField_flag _ (by decide), hn]; exact Bool.false_ne_true
  have dies : v.launchDies ((t.words.drop 8).take 8) = s.launchDies ((t.words.drop 8).take 8) := by rw [hv]; rfl
  rw [exec_launch he hb hf]
  simp only [hk, ha, note, dies, if_true, if_false, complete_eq]

end Launch

/-- An accepted header stands at the end of the launches of the die it names, or of every die of its list. -/
theorem accepted_launches (h : List (BitVec 64)) {l : List Nat} (hl : l.Nodup) (s v : State) (r : Nat) (t : Taken)
    (hv : v = { s with mem := v.mem }) (d : Nat) : ((completed (expand h l v) r t 0).dieAt d).launches = (s.dieAt d).launches ++
      (if bits (h.getD 6 0#64) 39 36 = 0 then (if d = bits (h.getD 6 0#64) 44 40 then [⟨h, l, 0⟩] else [])
       else if d ∈ l then [⟨h, l, 0⟩] else []) := by
  have e : v.dieAt d = s.dieAt d := by rw [hv]; rfl
  rw [completed_launches, expand_launches h hl, e, hdrTargets, ctlField_eq h 4 (by decide), ctlField_eq h 8 (by decide)]
  split <;> simp

end Sys2Proof.Machine

namespace Sys2Proof.Proofs

open Sys2Proof.Machine Sys2Proof.Claims

/-- Settles O52: SEAL and UNSEAL by the debug modes that the entered state allows, LAUNCH by what the addition to COUNT comes to. -/
theorem hostCommandResult : Obligations.HostCommandResult := by
  unfold Obligations.HostCommandResult
  refine ⟨fun r t s he => ⟨exec_seal_secured he, exec_seal_refused he⟩,
    fun r t s he => ⟨exec_unseal_sealed he, exec_unseal_refused he⟩, fun r pa t c s he hb hf => ?_⟩
  intro h join side l given
  have accepted : s.headerOk h = true → bit (h.getD 6 0#64) 46 = false → ∀ z : State, addCount h s = .done z →
      z = { s with mem := z.mem } → given z :=
    fun hk hn z ha hz => ⟨_, exec_launch_accepted he hb hf hk hn ha hz, rfl, fun d _ => accepted_launches h (nodup_launchDies s h) s z r t hz d⟩
  have hs : hdrSide h = side := hdrSide_eq h
  refine ⟨exec_launch_badHeader he hb hf, fun hk hn => ⟨fun hj => ?_, fun logs hj hr => ?_, fun hj hr hc => ?_⟩⟩
  · exact accepted hk hn s (addCount_no_join hj) rfl
  · exact exec_launch_rejected he hb hf hk (addCount_unreached hj (by rw [hs]; exact hr))
  · exact accepted hk hn _ (addCount_reached hj (by rw [hs]; exact hr) hc) rfl

end Sys2Proof.Proofs
end

section
/-!
PROOFS. The continuation queues of a die (R49, R51, R393 to R399): the marks that the scheduler keeps on queued units, occupancy, the
heads of levels, what a pop, an enqueue and a read of a spill ring do.
-/

namespace Sys2Proof.Machine

open Sys2Proof.Claims

theorem setDieAt_setDieAt (s : State) (d : Nat) (x y : Die) : (s.setDieAt d x).setDieAt d y = s.setDieAt d y := by
  simp [State.setDieAt, mapPut_mapPut]

/-! ## Marks on queued units (R51, R398, R399) -/

/-- `y` is `x` but for the pops counted toward AGE and the times noted on what its queues hold. -/
def Die.Remarked (x y : Die) : Prop :=
  ∃ (f : QUnit → QUnit) (g : SpillNote → SpillNote), (∀ u, ∃ n h, f u = { u with aged := n, headSince := h }) ∧
    y = { x with units := x.units.map f, spills := x.spills.map g }

namespace Die.Remarked

variable {x y z : Die}

theorem trans (h : x.Remarked y) (k : y.Remarked z) : x.Remarked z := by
  obtain ⟨f, g, hf, rfl⟩ := h
  obtain ⟨f', g', hf', rfl⟩ := k
  refine ⟨f' ∘ f, g' ∘ g, fun u => ?_, by rw [List.map_map, List.map_map]⟩
  obtain ⟨n, t, e⟩ := hf u
  obtain ⟨n', t', e'⟩ := hf' (f u)
  exact ⟨n', t', by rw [Function.comp, e', e]⟩

theorem rest (h : x.Remarked y) : y = { x with units := y.units, spills := y.spills } := by
  obtain ⟨f, g, -, rfl⟩ := h; rfl

theorem spills_length (h : x.Remarked y) : y.spills.length = x.spills.length := by
  obtain ⟨f, g, -, rfl⟩ := h; exact List.length_map _

/-- Every unit is there with new marks. -/
theorem mem_units (h : x.Remarked y) {u : QUnit} (hu : u ∈ x.units) : ∃ n t, { u with aged := n, headSince := t } ∈ y.units := by
  obtain ⟨f, g, hf, rfl⟩ := h
  obtain ⟨n, t, e⟩ := hf u
  exact ⟨n, t, e ▸ List.mem_map_of_mem hu⟩

/-- And no other. -/
theorem of_mem_units (h : x.Remarked y) {v : QUnit} (hv : v ∈ y.units) : ∃ u ∈ x.units, ∃ n t, v = { u with aged := n, headSince := t } := by
  obtain ⟨f, g, hf, rfl⟩ := h
  obtain ⟨u, hu, rfl⟩ := List.mem_map.mp hv
  exact ⟨u, hu, hf u⟩

theorem occ (h : x.Remarked y) (side : Bool) : y.occ side = x.occ side := by
  obtain ⟨f, g, hf, rfl⟩ := h
  have same : ∀ u, (f u).side = u.side ∧ (f u).count = u.count := fun u => by
    obtain ⟨n, t, e⟩ := hf u; rw [e]; exact ⟨rfl, rfl⟩
  simp only [Die.occ, List.filter_map, List.map_map, Function.comp_def, same]

theorem queuedUnit (h : x.Remarked y) {side gang : Bool} {level arrival : Nat} {rs : List Rec} {ws : BitVec 64}
    (hq : QueuedUnit x side level arrival rs gang ws) : QueuedUnit y side level arrival rs gang ws := by
  obtain ⟨u, hu, rfl, rfl, rfl, rfl, hs, rfl, rfl⟩ := hq
  obtain ⟨n, t, hm⟩ := h.mem_units hu
  exact ⟨_, hm, rfl, rfl, rfl, rfl, hs, rfl, rfl⟩

end Die.Remarked

/-- Noting the heads of a die just written marks what it holds. -/
theorem setDieAt_noteHeads (s : State) (d : Nat) (x : Die) : ∃ y, x.Remarked y ∧ (s.setDieAt d x).noteHeads d = s.setDieAt d y := by
  simp only [State.noteHeads, dieAt_setDieAt_self, setDieAt_setDieAt]
  refine ⟨_, ⟨_, _, fun u => ?_, rfl⟩, rfl⟩
  split <;> exact ⟨_, _, rfl⟩

theorem remarked_age (x : Die) (side : Bool) (l n : Nat) : x.Remarked (x.age side l n) := by
  refine ⟨_, _, fun u => ?_, rfl⟩
  split <;> exact ⟨_, _, rfl⟩

/-! ## Occupancy and arrival counts (R49, R393) -/

theorem occ_of_perm {x y : Die} (h : y.units.Perm x.units) (side : Bool) : y.occ side = x.occ side :=
  ((h.filter _).map _).sum_eq

theorem occ_cons {x y : Die} {u : QUnit} (h : y.units.Perm (u :: x.units)) : y.occ u.side = x.occ u.side + u.count := by
  rw [occ_of_perm (y := y) (x := { x with units := u :: x.units }) h]
  simp [Die.occ, Nat.add_comm]

theorem occ_append {x y : Die} {u : QUnit} (h : y.units = x.units ++ [u]) : y.occ u.side = x.occ u.side + u.count :=
  occ_cons (h ▸ List.perm_append_singleton u x.units)

theorem occ_erase {x y : Die} {u : QUnit} (hu : u ∈ x.units) (h : y.units = x.units.erase u) : y.occ u.side + u.count = x.occ u.side :=
  (occ_cons (h ▸ List.perm_cons_erase hu)).symm

/-- Taking an arrival count changes the side's counter alone. -/
theorem arrive_eq (x : Die) (side : Bool) : x.arrive side = (arrivals x side, { x with
    arrivalA := if side then x.arrivalA else x.arrivalA + 1, arrivalL := if side then x.arrivalL + 1 else x.arrivalL }) := by
  cases side <;> rfl

/-! ## Heads of levels (R394, R396) -/

theorem firstUnit_mem {l : List QUnit} {u : QUnit} (h : firstUnit l = some u) : u ∈ l := by
  induction l with
  | nil => cases h
  | cons a l ih =>
    unfold firstUnit at h
    split at h
    · exact Option.some.inj h ▸ List.mem_cons_self
    · rename_i v hv
      split at h
      · exact List.mem_cons_of_mem _ (ih (hv.trans h))
      · exact Option.some.inj h ▸ List.mem_cons_self

section Heads

variable {x : Die} {side : Bool} {l : Nat} {sel : Cand → Bool}

/-- What heads a level: a unit of the pool at that level, or the level's oldest spilled record. -/
theorem headWhere_some {c : Cand} (h : x.headWhere side l sel = some c) :
    (∃ u ∈ x.units, u.side = side ∧ u.level = l ∧ c = .pool u) ∨ ∃ n, x.spillHead side l = some n ∧ c = .ring n := by
  have unit : ∀ u, firstUnit (x.units.filter fun u => u.side == side && decide (u.level = l) && sel (.pool u)) = some u →
      u ∈ x.units ∧ u.side = side ∧ u.level = l := fun u hu => by
    have hm := List.mem_filter.mp (firstUnit_mem hu)
    simp only [Bool.and_eq_true, beq_iff_eq, decide_eq_true_eq] at hm
    exact ⟨hm.1, hm.2.1.1, hm.2.1.2⟩
  have ring : ∀ n, (x.spillHead side l).filter (fun n => sel (.ring n)) = some n → x.spillHead side l = some n := fun n hn =>
    (Option.filter_eq_some_iff.mp hn).1
  unfold Die.headWhere at h
  dsimp only at h
  split at h
  case h_1 u n hu hn =>
    split at h
    · exact .inr ⟨n, ring n hn, (Option.some.inj h).symm⟩
    · obtain ⟨hm, hs, hl⟩ := unit u hu; exact .inl ⟨u, hm, hs, hl, (Option.some.inj h).symm⟩
  case h_2 u hu hn => obtain ⟨hm, hs, hl⟩ := unit u hu; exact .inl ⟨u, hm, hs, hl, (Option.some.inj h).symm⟩
  case h_3 n hu hn => exact .inr ⟨n, ring n hn, (Option.some.inj h).symm⟩
  case h_4 => cases h

theorem headWhere_pool {u : QUnit} (h : x.headWhere side l sel = some (.pool u)) : u ∈ x.units ∧ u.side = side ∧ u.level = l := by
  obtain ⟨v, hm, hs, hl, e⟩ | ⟨n, -, e⟩ := headWhere_some h
  · cases e; exact ⟨hm, hs, hl⟩
  · cases e

theorem spillHead_mem {n : SpillNote} (h : x.spillHead side l = some n) : n ∈ x.spills := List.mem_of_find?_eq_some h

theorem headWhere_ring {n : SpillNote} (h : x.headWhere side l sel = some (.ring n)) : n ∈ x.spills := by
  obtain ⟨v, -, -, -, e⟩ | ⟨m, hm, e⟩ := headWhere_some h
  · cases e
  · cases e; exact spillHead_mem hm

theorem firstCand_some {n k m : Nat} {c : Cand} (h : firstCand x side sel n k = some (m, c)) : x.headWhere side m sel = some c := by
  induction n generalizing k with
  | zero => cases h
  | succ n ih =>
    unfold firstCand at h
    split at h
    · rename_i hc; cases h; exact hc
    · exact ih h

theorem oldestSpill_mem {n : SpillNote} (h : x.oldestSpill side = some n) : n ∈ x.spills := by
  unfold Die.oldestSpill at h
  dsimp only at h
  split at h
  · obtain ⟨l, -, hl⟩ := List.mem_filterMap.mp (List.mem_of_find?_eq_some h)
    exact spillHead_mem hl
  · cases h

end Heads

/-! ## Popping and enqueuing (R49, R51, R393) -/

/-- A popped unit of the pool leaves it, and the heads of lower levels are marked. -/
theorem popCand_pool (s : State) (d : Nat) (side : Bool) (l : Nat) (u : QUnit) :
    ∃ y, Die.Remarked { s.dieAt d with units := (s.dieAt d).units.erase u } y ∧ s.popCand d side l (.pool u) = s.setDieAt d y := by
  simp only [State.popCand, State.removeCand, dieAt_setDieAt_self, setDieAt_setDieAt]
  obtain ⟨y, hy, e⟩ := setDieAt_noteHeads s d (Die.age { s.dieAt d with units := (s.dieAt d).units.erase u } side l (Cand.pool u).count)
  exact ⟨y, (remarked_age _ _ _ _).trans hy, e⟩

/-- A single record that arrives while the pool has room waits at its level with the next arrival count, and nothing else changes. -/
theorem enqueue_room {s : State} {d : Nat} {side : Bool} {limit : Nat} (h : (s.dieAt d).occ side < limit) (level : Nat) (r : Rec)
    (ws : BitVec 64) : ∃ y, enqueue d side level r ws limit s = some (s.setDieAt d y) ∧ y.occ side = (s.dieAt d).occ side + 1 ∧
      Queued y side level (arrivals (s.dieAt d) side) r ws ∧ y.joins = (s.dieAt d).joins := by
  rw [enqueue, if_pos h, arrive_eq]
  dsimp only
  obtain ⟨y, hy, e⟩ := setDieAt_noteHeads s d { s.dieAt d with
    arrivalA := if side then (s.dieAt d).arrivalA else (s.dieAt d).arrivalA + 1
    arrivalL := if side then (s.dieAt d).arrivalL + 1 else (s.dieAt d).arrivalL
    units := (s.dieAt d).units ++ [⟨side, level, arrivals (s.dieAt d) side, [r], [], false, ws, false, 0, 0, none⟩] }
  refine ⟨y, congrArg some e, ?_, hy.queuedUnit ⟨_, List.mem_append_right _ List.mem_cons_self, rfl, rfl, rfl, rfl, rfl, rfl, rfl⟩, ?_⟩
  · rw [hy.occ]
    exact occ_append (x := s.dieAt d) (u := ⟨side, level, arrivals (s.dieAt d) side, [r], [], false, ws, false, 0, 0, none⟩) rfl
  · rw [hy.rest]

/-! ## Reading a spill ring (R393, R394) -/

theorem checkUnit_gloved (d : Nat) (v : BitVec 64) (s : State) : checkUnit d (gloved v) s = .ok (some v, s) := by
  simp [checkUnit]

/-- A record without error is read from its four doublewords. -/
theorem ringRead_of_recordAt {s : State} {pa : Nat} {r : Rec} (h : RecordAt s pa r) (d : Nat) :
    ringRead d pa 4 s = .ok ([r.code, r.frame, r.join, r.wid], s) := by
  obtain ⟨h0, h1, h2, h3⟩ := h
  simp [ringRead, h0, h1, h2, h3, checkUnit_gloved]

/-- Records without error are read in order, and nothing changes. -/
theorem ringRecs_of_recordAt {s : State} {d i j : Nat} {rs : List Rec}
    (h : ∀ k r, rs[k]? = some r → RecordAt s (s.spillAddr d i (j + k)) r) {k : Nat} (hk : k ≤ rs.length) :
    ringRecs d i j k s = (rs.take k, s) := by
  induction k with
  | zero => rfl
  | succ k ih =>
    have hr : rs[k]? = some rs[k] := List.getElem?_eq_getElem hk
    simp only [ringRecs, ih (by omega), eff_run, ringRead_of_recordAt (h k _ hr)]
    rw [List.take_add_one, hr]
    rfl

/-- The records of a spilled unit without error. -/
theorem candRecs_of_spillAt {s : State} {d : Nat} {n : SpillNote} {rs : List Rec} (h : SpillAt s d n rs) :
    candRecs d (.ring n) s = (rs, s) := by
  have e := ringRecs_of_recordAt h.2 (Nat.le_of_eq h.1.symm)
  rw [← h.1, List.take_length, h.1] at e
  exact e

theorem count_of_spillAt {s : State} {d : Nat} {n : SpillNote} {rs : List Rec} (h : SpillAt s d n rs) : n.count = rs.length := h.1.symm

/-- A spilled unit that leaves its ring is forgotten, and HEAD advances past its records (R393). -/
def Die.unspill (x : Die) (n : SpillNote) : Die :=
  { x with
    spills := x.spills.erase n,
    regs := mapSet 0#64 x.regs (spillReg n.ring 2) (mapGet 0#64 x.regs (spillReg n.ring 2) + BitVec.ofNat 64 n.count) }

theorem removeCand_ring (s : State) (d : Nat) (n : SpillNote) : s.removeCand d (.ring n) = s.setDieAt d ((s.dieAt d).unspill n) := by
  simp only [State.removeCand, State.setDieReg, State.dieReg, dieAt_setDieAt_self, setDieAt_setDieAt]
  rfl

theorem unspill_spills_length {x : Die} {n : SpillNote} (h : n ∈ x.spills) : (x.unspill n).spills.length + 1 = x.spills.length := by
  have hl : (x.spills.erase n).length = x.spills.length - 1 := List.length_erase_of_mem h
  have hp : 0 < x.spills.length := List.length_pos_of_mem h
  show (x.spills.erase n).length + 1 = _
  omega

end Sys2Proof.Machine
end

section
/-!
PROOFS. The end of a task (R35, R37, R401) and its join step (R36, R43): what handing over and writing back come to with nothing left to
hand over or write, that rehoming moves no unit that has its place, and what a join step does at each count, from which O45 is assembled.
-/

namespace Sys2Proof.Machine

open Sys2Proof.Claims

/-! ## Units that have their place on a die (R410, R416) -/

theorem wholeCluster_congr {s v : State} (h : v.dieReg = s.dieReg) : v.wholeCluster = s.wholeCluster := by
  funext d side
  unfold State.wholeCluster State.sideOf State.brim State.retired
  rw [h]

theorem hasTile_congr {s v : State} (h : v.dieReg = s.dieReg) : v.hasTile = s.hasTile := by
  funext d side
  unfold State.hasTile State.sideOf State.brim State.retired
  rw [h]

/-- Units whose marks alone have changed have their place still. -/
theorem homed_setDieAt {s : State} {d : Nat} {x : Die} (h : Homed s d) (hx : x.regs = (s.dieAt d).regs)
    (hu : ∀ v ∈ x.units, ∃ u ∈ (s.dieAt d).units, ∃ n t, v = { u with aged := n, headSince := t }) : Homed (s.setDieAt d x) d := by
  have hr : (s.setDieAt d x).dieReg = s.dieReg := funext fun k => funext fun o => dieReg_setDieAt hx k o
  intro v hv
  rw [dieAt_setDieAt_self] at hv
  obtain ⟨u, hm, n, t, rfl⟩ := hu v hv
  rw [wholeCluster_congr hr, hasTile_congr hr]
  exact h u hm

/-- No gang is without a cluster, so that at most the side's reservation ends and the heads are noted. -/
theorem rehomeGangs_homed {s : State} {d : Nat} (h : Homed s d) (side : Bool) :
    OnlyQueueMarks s (rehomeGangs d side s) ∧ Homed (rehomeGangs d side s) d := by
  unfold rehomeGangs
  split
  case isTrue => exact ⟨.refl s, h⟩
  case isFalse hw =>
    have none_mine : ∀ u ∈ (s.dieAt d).units, ((u.side == side) && u.gang && u.slots.isEmpty) = false := fun u hu => by
      rw [Bool.and_eq_false_iff]
      refine .inl (Bool.eq_false_iff.mpr fun hg => ?_)
      obtain ⟨hs, hg⟩ := Bool.and_eq_true_iff.mp hg
      exact hw (beq_iff_eq.mp hs ▸ (h u hu).1 hg)
    dsimp only
    rw [List.filter_eq_self.mpr fun u hu => by rw [none_mine u hu]; rfl,
      List.filter_eq_nil_iff.mpr fun u hu => by rw [none_mine u hu]; exact Bool.false_ne_true, List.foldl_nil]
    obtain ⟨y, hy, e⟩ := setDieAt_noteHeads s d ((s.dieAt d).setReserved side none)
    have hu : ((s.dieAt d).setReserved side none).units = (s.dieAt d).units := by cases side <;> rfl
    have marked : ∀ v ∈ y.units, ∃ u ∈ (s.dieAt d).units, ∃ n t, v = { u with aged := n, headSince := t } := fun v hv =>
      hu ▸ hy.of_mem_units hv
    rw [e]
    obtain ⟨f, g, -, rfl⟩ := hy
    refine ⟨.setDieAt ?_, homed_setDieAt h ?_ marked⟩ <;> cases side <;> rfl

/-- No image is without a tile, so none moves. -/
theorem rehomeImages_homed {s : State} {d : Nat} (h : Homed s d) (side : Bool) : rehomeImages d side s = s := by
  unfold rehomeImages
  dsimp only
  rw [List.filter_eq_nil_iff.mpr fun u hu => ?_, List.foldl_nil]
  intro hk
  simp only [Bool.and_eq_true, beq_iff_eq, Bool.not_eq_true', List.isEmpty_eq_false_iff] at hk
  obtain ⟨⟨rfl, hn⟩, hk⟩ := hk
  cases hg : u.gang
  · simp [hg, (h u hu).2 hg hn] at hk
  · simp [hg, (h u hu).1 hg] at hk

/-- Rehoming a die none of whose units is stranded changes queue marks alone. -/
theorem rehomeDie_homed {s : State} {d : Nat} (h : Homed s d) : OnlyQueueMarks s (rehomeDie d s) := by
  suffices OnlyQueueMarks s (rehomeDie d s) ∧ Homed (rehomeDie d s) d from this.1
  refine List.foldlRecOn (motive := fun v => OnlyQueueMarks s v ∧ Homed v d) [false, true] _ ⟨.refl s, h⟩ fun u hu b _ => ?_
  split
  · exact hu
  · obtain ⟨hm, hh⟩ := rehomeGangs_homed hu.2 b
    rw [rehomeImages_homed hh]
    exact ⟨hu.1.trans hm, hh⟩

/-! ## Leaving a tile (R35, R100, R403) -/

/-- With no packet waiting nothing is handed over. -/
theorem handAll_empty {g : Nat} {s : State} (h : ∀ w ∈ (s.tileAt g).wins, w.2.outq = []) : handAll g s = s :=
  List.foldlRecOn (motive := (· = s)) _ _ rfl fun u hu p hp => by rw [h p hp]; exact hu

/-- Lines without dirty words are written nowhere. -/
theorem writeBackLines_clean {sel : Nat → CLine → Bool} {c : SMap CLine} (h : ∀ p ∈ c, p.2.dirty = 0#16) (m : Mem) :
    writeBackLines sel c m = (c, m) := by
  induction c with
  | nil => rfl
  | cons p c ih =>
    obtain ⟨hp, hc⟩ := List.forall_mem_cons.mp h
    simp only [writeBackLines, hp, ne_eq, not_true_eq_false, decide_false, Bool.and_false, Bool.false_eq_true, if_false, ih hc]

theorem releaseAt_clean {g : Nat} {s : State} (h : NoDirty s g) : releaseAt 4 g s = s.setTileAt g (s.tileAt g) := by
  simp only [releaseAt, Nat.reduceEqDiff, if_false, if_true, State.writeBack, writeBackLines_clean h]
  rfl

/-- A task that holds no entry has nothing to unpin. -/
theorem unpinTask_none {g : Nat} {s : State} (h : (s.tileAt g).adopted = none) : unpinTask g s = .done s := by
  unfold unpinTask
  simp only [h]

/-- A task whose gang no saved member waits for leaves the queues as they are. -/
theorem gangLeft_none {g : Nat} {c : Option CurTask} {s : State}
    (h : ∀ k n, c = some k → k.gang = some n → mapGet [] (s.dieAt (g / 16)).gangWait n = []) (side : Bool) : gangLeft g c side s = s := by
  unfold gangLeft
  split
  · rename_i n hn
    obtain ⟨k, hk, hg⟩ := Option.bind_eq_some_iff.mp hn
    unfold gangSettle
    dsimp only
    rw [h k n hk hg]
    split
    · contradiction
    · rfl
  · rfl

/-- What the end of a task leaves of its tile. -/
def Tile.afterTask (t : Tile) : Tile := { t.vacant.endRequest with run := .idle }

/-- Ending a request changes the request and the stop that firmware's leaves. -/
theorem endRequest_shape (t : Tile) : ∃ w f, t.endRequest = { t with pre := none, preq := w, fwStop := f } ∧
    (t.pre = none → w = t.preq ∧ f = t.fwStop) ∧ ∀ p, t.pre = some p → w = 0#64 ∧ f = (t.fwStop || p.fw) := by
  unfold Tile.endRequest
  split
  · rename_i p hp
    exact ⟨_, _, rfl, by simp [hp], fun q hq => by rw [hp] at hq; cases hq; exact ⟨rfl, rfl⟩⟩
  · rename_i hp
    exact ⟨t.preq, t.fwStop, by rw [← hp], fun _ => ⟨rfl, rfl⟩, by simp [hp]⟩

/-- TASK_END with nothing left under way: the tile, the die's units where they are, and the join step. -/
theorem exec_taskEnd {g : Nat} {s : State} (he : (s.tileAt g).ending = true) (hr : (s.tileAt g).run = .running)
    (hc : (s.tileAt g).cut = none) (hf : (s.tileAt g).finished = true) (ha : (s.tileAt g).adopted = none) (hd : NoDirty s g)
    (hw : ∀ w ∈ (s.tileAt g).wins, w.2.outq = []) (hg : GangDone s g) (hh : Homed s (g / 16)) :
    ∃ v, exec (.taskEnd g) s = .next v ∧ v.tiles = (s.setTileAt g (s.tileAt g).afterTask).tiles ∧ v.mem = s.mem ∧
      (v.dieAt (g / 16)).joins = if (s.tileAt g).record.join = 0#64 then (s.dieAt (g / 16)).joins else
        (s.dieAt (g / 16)).joins ++ [⟨(s.tileAt g).record.join, (s.tileAt g).side, (s.tileAt g).widsplit, g⟩] := by
  have marks : OnlyQueueMarks _ _ := rehomeDie_homed (s := s.setTileAt g (s.tileAt g).afterTask) (d := g / 16) hh
  have joins : ((rehomeDie (g / 16) (s.setTileAt g (s.tileAt g).afterTask)).dieAt (g / 16)).joins = (s.dieAt (g / 16)).joins := by
    rw [marks.die]; rfl
  have ends : exec (.taskEnd g) s =
      (let v := rehomeDie (g / 16) (s.setTileAt g (s.tileAt g).afterTask)
      if (s.tileAt g).record.join = 0#64 then .next v
      else .next (v.setDieAt (g / 16) { v.dieAt (g / 16) with joins := (v.dieAt (g / 16)).joins ++
        [⟨(s.tileAt g).record.join, (s.tileAt g).side, (s.tileAt g).widsplit, g⟩] })) := by
    show execTaskEnd g s = _
    rw [execTaskEnd]
    dsimp only
    rw [if_pos ⟨he, hr, by rw [hc]; rfl, hf⟩, handAll_empty hw, releaseAt_clean hd, unpinTask_none (by rw [tileAt_setTileAt_self, ha])]
    dsimp only
    rw [tileAt_setTileAt_self, setTileAt_setTileAt, gangLeft_none (by exact hg)]
    rfl
  rw [ends]
  dsimp only
  split
  · exact ⟨_, rfl, marks.tiles, marks.mem, joins⟩
  · exact ⟨_, rfl, marks.tiles, marks.mem, by rw [dieAt_setDieAt_self, joins]⟩

/-! ## What a walk and the tables answer depends on (R369 to R388) -/

section Congr

variable {s v : State} (hr : v.dieReg = s.dieReg)

include hr

theorem findRegion_congr (d base shift off n i : Nat) : findRegion v d base shift off n i = findRegion s d base shift off n i := by
  induction n generalizing i with
  | zero => rfl
  | succ n ih => unfold findRegion; rw [hr, ih]

theorem accessVerdict_congr : accessVerdict v = accessVerdict s := by
  funext cls d pa r
  unfold accessVerdict State.hatrackRegion sliceOk
  have region : findRegion v = findRegion s := by funext d b h o n i; exact findRegion_congr hr d b h o n i
  rw [hr, region]

theorem walkFrom_congr (hm : v.mem = s.mem) (cls d : Nat) (learner : Bool) (va n t corr : Nat) :
    walkFrom v cls d learner va n t corr = walkFrom s cls d learner va n t corr := by
  induction n generalizing t corr with
  | zero => rfl
  | succ n ih =>
    unfold walkFrom
    dsimp only
    rw [accessVerdict_congr hr, hm]
    simp only [ih]

/-- What an address reaches for a side depends on the registers of the dies and on memory. -/
theorem reach_congr (hm : v.mem = s.mem) : v.reach = s.reach := by
  funext d side cls va r
  have walk : v.walkSide d side va = s.walkSide d side va := by
    unfold State.walkSide State.root
    dsimp only
    rw [hr]
    simp only [walkFrom_congr hr hm]
  unfold State.reach
  rw [walk, accessVerdict_congr hr]

end Congr

/-! ## The join step (R36, R43) -/

/-- The oldest join step of a die is done on the state without it. -/
theorem exec_joinStep {d : Nat} {j : JoinWork} {rest : List JoinWork} {s v : State} (hj : (s.dieAt d).joins = j :: rest)
    (h : joinStep d j (s.setDieAt d { s.dieAt d with joins := rest }) = .ok ((), v)) : exec (.joinStep d) s = .next v := by
  show execJoinStep d s = _
  unfold execJoinStep
  dsimp only
  rw [hj]
  simp only [eff_run, h]

section Join

variable {d pa : Nat} {j : JoinWork} {c : BitVec 64} {s : State}

theorem joinStep_unreached {logs : List LogReq} (hr : s.reach d j.side (if j.side then 1 else 0) j.join Rights.store = .bad logs) :
    joinStep d j s = .ok ((), logError ⟨d, 0x03, 15, j.join, j.join⟩ false (logErrors logs s)) := by
  simp only [joinStep, eff_bind, getsState_apply, hr, modState_apply]

variable (hr : s.reach d j.side (if j.side then 1 else 0) j.join Rights.store = .at pa []) (hc : s.mem.read pa = gloved c)

include hr hc

theorem joinStep_zero (h0 : c = 0#64) : joinStep d j s = .ok ((), logError ⟨d, 0x02, 15, j.join, 0#64⟩ false s) := by
  simp only [joinStep, eff_bind, getsState_apply, hr, modState_apply, logErrors, hc, checkUnit_gloved, h0, if_true]

theorem joinStep_above (h1 : 1 < c.toNat) : joinStep d j s = .ok ((), { s with mem := s.mem.write pa (gloved (c - 1#64)) }) := by
  have n0 : c ≠ 0#64 := fun e => by rw [e] at h1; exact absurd h1 (by decide)
  have n1 : c ≠ 1#64 := fun e => by rw [e] at h1; exact absurd h1 (by decide)
  simp only [joinStep, eff_bind, getsState_apply, hr, modState_apply, logErrors, hc, checkUnit_gloved, n0, n1, if_false, eff_pure]

/-- The last to join writes 0, and the completion record is enqueued. -/
theorem joinStep_last (h1 : c = 1#64) {r : Rec} {y v : State} (hy : y = { s with mem := s.mem.write pa (gloved 0#64) })
    (hl : joinRecord j (j.join + 8#64) 4 y = .ok (some (.ok [r.code, r.frame, r.join, r.wid]), y))
    (he : enqueue d j.side (bits r.code 1 0) r j.widsplit 4096 y = some v) : joinStep d j s = .ok ((), noteZero j v) := by
  have he' : enqueue d j.side (bits (recOf [r.code, r.frame, r.join, r.wid]).code 1 0) (recOf [r.code, r.frame, r.join, r.wid])
    j.widsplit 4096 y = some v := he
  subst h1
  have n0 : ¬ (1#64 : BitVec 64) = 0#64 := by decide
  simp only [joinStep, eff_bind, getsState_apply, hr, modState_apply, logErrors, hc, checkUnit_gloved, n0, if_false, if_true,
    BitVec.sub_self, ← hy, hl, he']

end Join

/-- A completion record that the task's side reaches and that holds no error is read from its four doublewords. -/
theorem joinRecord_reached {j : JoinWork} {r : Rec} {ps : Nat → Nat} {y : State}
    (hp : ∀ i < 4, y.reach (j.g / 16) j.side (if j.side then 1 else 0) (j.join + 8#64 * BitVec.ofNat 64 (i + 1)) Rights.load = .at (ps i) [])
    (h0 : y.mem.read (ps 0) = gloved r.code) (h1 : y.mem.read (ps 1) = gloved r.frame) (h2 : y.mem.read (ps 2) = gloved r.join)
    (h3 : y.mem.read (ps 3) = gloved r.wid) :
    joinRecord j (j.join + 8#64) 4 y = .ok (some (.ok [r.code, r.frame, r.join, r.wid]), y) := by
  have word : ∀ i < 4, y.reach (j.g / 16) j.side (if j.side then 1 else 0) (j.join + 8#64 + BitVec.ofNat 64 (8 * i)) Rights.load =
      .at (ps i) [] := fun i hi => by
    rw [← hp i hi]
    congr 1
    interval_cases i <;> bv_omega
  simp only [joinRecord, eff_bind, eff_pure, getsState_apply, modState_apply, word 0 (by decide), word 1 (by decide), word 2 (by decide),
    word 3 (by decide), logErrors, h0, h1, h2, h3, checkUnit_gloved, List.nil_append, List.cons_append]

/-- No launch waits on the join that has completed. -/
theorem noteZero_none {j : JoinWork} {s : State} (h : ∀ n ∈ s.host.joins, n.join ≠ j.join) : noteZero j s = s := by
  have mine : ∀ n ∈ s.host.joins, (decide (n.join = j.join) && (n.side == j.side)) = false := fun n hn => by simp [h n hn]
  have e1 : s.host.joins.filter (fun n => decide (n.join = j.join) && (n.side == j.side)) = [] :=
    List.filter_eq_nil_iff.mpr fun n hn => by rw [mine n hn]; exact Bool.false_ne_true
  have e2 : s.host.joins.filter (fun n => !(decide (n.join = j.join) && (n.side == j.side))) = s.host.joins :=
    List.filter_eq_self.mpr fun n hn => by rw [mine n hn]; rfl
  simp only [noteZero, e1, e2, List.foldl_nil]

end Sys2Proof.Machine

namespace Sys2Proof.Proofs

open Sys2Proof.Machine Sys2Proof.Claims

/-- Settles O45: at the end of a task nothing is handed over, written or moved, and what is left of the tile is read off; the join step by
the count it finds. -/
theorem taskEndAndJoinResult : Obligations.TaskEndAndJoinResult := by
  unfold Obligations.TaskEndAndJoinResult
  refine ⟨fun g s => ?_, fun d pa j rest c s => ?_⟩
  -- the end of a task
  · intro t r he hr hc hf ha hd hw hg hh
    obtain ⟨v, hv, ht, hm, hj⟩ := exec_taskEnd he hr hc hf ha hd hw hg hh
    have tile : v.tileAt g = t.afterTask := by rw [State.tileAt, ht]; exact tileAt_setTileAt_self s g _
    have others : ∀ h, h ≠ g → v.tileAt h = s.tileAt h := fun h hn => by rw [State.tileAt, ht]; exact tileAt_setTileAt_other s _ hn
    obtain ⟨w, f, e, idle, pending⟩ := endRequest_shape t.vacant
    refine ⟨v, hv, ?_⟩
    rw [tile, Tile.afterTask, e]
    exact ⟨rfl, rfl, rfl, rfl, rfl, rfl, rfl, rfl, rfl, rfl, rfl, rfl, rfl, rfl, rfl, idle, pending, hj, hm, others⟩
  -- the join step
  · intro x cls z hx
    have reach : z.reach = s.reach := reach_congr (funext fun k => funext fun o => dieReg_setDieAt (by rfl) k o) rfl
    refine ⟨fun logs hr => exec_joinStep hx (joinStep_unreached (by rw [reach]; exact hr)), fun hr hc => ?_⟩
    rw [← reach] at hr
    refine ⟨fun h0 => exec_joinStep hx (joinStep_zero hr hc h0), fun h1 => exec_joinStep hx (joinStep_above hr hc h1), ?_⟩
    intro r ps h1 y hp h0 h1' h2 h3 hocc hn
    have die : y.dieAt d = { x with joins := rest } := dieAt_setDieAt_self s d _
    obtain ⟨q, hq, hqo, hqq, hqj⟩ := enqueue_room (s := y) (d := d) (side := j.side) (limit := 4096) (by rw [die]; exact hocc)
      (bits r.code 1 0) r j.widsplit
    refine ⟨_, exec_joinStep hx (joinStep_last hr hc h1 rfl (joinRecord_reached hp h0 h1' h2 h3) hq), ?_⟩
    rw [noteZero_none (by exact hn), dieAt_setDieAt_self]
    rw [die] at hqo hqq hqj
    exact ⟨rfl, hqj, hqq, hqo, rfl⟩

end Sys2Proof.Proofs
end

section
/-!
PROOFS. Starting tasks and gangs (R29 to R31, R396, R397), the expander (R45, R46), refill and aging (R51, R394, R398): the state in which
a record starts, the reservations that a start leaves alone, and where each unit goes in the queues, from which O44 is assembled.
-/

namespace Sys2Proof.Machine

open Sys2Proof.Claims

/-! ## Reservations of clusters with a gated tile (R52, R397) -/

/-- Reservations apart, the heads of a die's levels are the same. -/
theorem firstCand_reserves (x : Die) (a l : Option (Nat × Nat)) (side : Bool) (sel : Cand → Bool) (n k : Nat) :
    firstCand { x with reserveA := a, reserveL := l } side sel n k = firstCand x side sel n k := by
  induction n generalizing k with
  | zero => rfl
  | succ n ih =>
    unfold firstCand
    rw [ih]
    rfl

/-- `v` is `s` but for reservations of clusters with a gated tile, which may be gone. -/
structure Unreserved (s v : State) : Prop where
  rest : v = { s with dies := v.dies }
  die : ∀ d, v.dieAt d = { s.dieAt d with reserveA := (v.dieAt d).reserveA, reserveL := (v.dieAt d).reserveL }
  gone : ∀ d side, (v.dieAt d).reserved side = (s.dieAt d).reserved side ∨
    (v.dieAt d).reserved side = none ∧ ∃ a c, (s.dieAt d).reserved side = some (a, c) ∧ s.clusterGated d c = true

namespace Unreserved

variable {s u v : State}

theorem refl (s : State) : Unreserved s s := ⟨rfl, fun _ => rfl, fun _ _ => .inl rfl⟩

theorem tileAt (h : Unreserved s v) : v.tileAt = s.tileAt := by rw [h.rest]; rfl

theorem dieReg (h : Unreserved s v) : v.dieReg = s.dieReg := by
  funext d o; rw [State.dieReg, h.die d, State.dieReg]

theorem gatedTile (h : Unreserved s v) : v.gatedTile = s.gatedTile := by
  funext g
  unfold State.gatedTile State.retired
  rw [h.dieReg, h.tileAt, h.die]

theorem clusterGated (h : Unreserved s v) : v.clusterGated = s.clusterGated := by
  unfold State.clusterGated; rw [h.gatedTile]

theorem canPop (h : Unreserved s v) : v.canPop = s.canPop := by
  funext g
  have frozen : v.frozen = s.frozen := by rw [h.rest]
  have fatal : v.fatal = s.fatal := by rw [h.rest]
  unfold State.canPop State.retired
  rw [h.dieReg, h.tileAt, h.gatedTile, frozen, fatal, h.die]

theorem clusterFree (h : Unreserved s v) : v.clusterFree = s.clusterFree := by
  unfold State.clusterFree; rw [h.canPop]

theorem gangHead (h : Unreserved s v) (d : Nat) (side : Bool) : (v.dieAt d).gangHead side = (s.dieAt d).gangHead side := by
  rw [h.die d]; unfold Die.gangHead; rw [firstCand_reserves]

theorem offer (h : Unreserved s v) (d : Nat) (side : Bool) : (v.dieAt d).offer side = (s.dieAt d).offer side := by
  rw [h.die d]; exact firstCand_reserves _ _ _ _ _ _ _

/-- A cluster with no gated tile keeps its reservation. -/
theorem reserved_iff (h : Unreserved s v) {d c : Nat} (hc : s.clusterGated d c = false) (side : Bool) :
    ((v.dieAt d).reserved side).map (·.2) = some c ↔ ((s.dieAt d).reserved side).map (·.2) = some c := by
  obtain e | ⟨e, a, k, e', hk⟩ := h.gone d side
  · rw [e]
  · have hn : k ≠ c := fun q => by rw [q, hc] at hk; exact Bool.false_ne_true hk
    simp [e, e', hn]

theorem inReserve (h : Unreserved s v) : v.inReserve = s.inReserve := by
  funext g
  unfold State.inReserve
  dsimp only
  rw [h.clusterGated]
  cases hc : s.clusterGated (g / 16) (g / 4 % 4)
  · have a := h.reserved_iff hc false
    have l := h.reserved_iff hc true
    simp only [Die.reserved, Bool.false_eq_true, if_false, if_true] at a l
    simp only [a, l]
  · simp only [Bool.not_true, Bool.and_false]

/-- Whose turn it is does not depend on reservations of clusters with a gated tile. -/
theorem turn (h : Unreserved s v) : v.turn = s.turn := by
  funext g
  unfold State.turn
  rw [h.canPop, h.inReserve, h.tileAt]

theorem trans (h : Unreserved s u) (k : Unreserved u v) : Unreserved s v where
  rest := by rw [k.rest, h.rest]
  die d := by conv_lhs => rw [k.die d, h.die d]
  gone d side := by
    obtain e | ⟨e, a, c, e', hc⟩ := k.gone d side
    · rw [e]; exact h.gone d side
    · obtain q | ⟨q, -⟩ := h.gone d side
      · exact .inr ⟨e, a, c, q ▸ e', h.clusterGated ▸ hc⟩
      · rw [q] at e'; cases e'

/-- A reservation that is there still is the one that was. -/
theorem reservedUnit_none (h : Unreserved s v) {d c : Nat} {side : Bool} (hn : s.reservedUnit d c side = none) :
    v.reservedUnit d c side = none := by
  have units : (v.dieAt d).units = (s.dieAt d).units := by rw [h.die]
  obtain e | ⟨e, -⟩ := h.gone d side
  · unfold State.reservedUnit; dsimp only; rw [e, units]; exact hn
  · unfold State.reservedUnit; dsimp only; rw [e]

end Unreserved

@[simp] theorem reserved_setReserved (x : Die) (side : Bool) (r : Option (Nat × Nat)) : (x.setReserved side r).reserved side = r := by
  cases side <;> rfl

/-- Dropping the reservation of a cluster with a gated tile. -/
theorem setReserved_unreserved {s : State} {d a c : Nat} {side : Bool} (h : (s.dieAt d).reserved side = some (a, c))
    (hc : s.clusterGated d c = true) : Unreserved s (s.setDieAt d ((s.dieAt d).setReserved side none)) where
  rest := rfl
  die k := by
    by_cases hk : k = d
    · subst hk; rw [dieAt_setDieAt_self]; cases side <;> rfl
    · rw [dieAt_setDieAt_other s _ hk]
  gone k b := by
    by_cases hk : k = d
    · subst hk
      rw [dieAt_setDieAt_self]
      by_cases hb : b = side
      · subst hb; exact .inr ⟨reserved_setReserved _ _ _, a, c, h, hc⟩
      · have other : b = !side := Bool.eq_not_of_ne hb
        subst other
        cases side <;> exact .inl rfl
    · rw [dieAt_setDieAt_other s _ hk]; exact .inl rfl

/-- With no gang due to pop, or with a reservation that no gated tile ends, none is made anew. -/
theorem ensureReserve_unreserved {d : Nat} {side : Bool} {s : State} (h : (s.dieAt d).gangHead side = none ∨
    ∃ a c, (s.dieAt d).reserved side = some (a, c) ∧ s.clusterGated d c = false) : Unreserved s (ensureReserve d side s) := by
  unfold ensureReserve
  match hr : (s.dieAt d).reserved side with
  | none =>
    have hg : (s.dieAt d).gangHead side = none := h.resolve_right fun ⟨a, c, e, _⟩ => by rw [hr] at e; cases e
    simp only [hr, hg]
    exact .refl s
  | some (a, c) =>
    simp only
    cases hc : s.clusterGated d c
    case false =>
      simp only [hr, Bool.false_eq_true, if_false]
      exact .refl s
    case true =>
      have hg : (s.dieAt d).gangHead side = none := h.resolve_right fun ⟨a', c', e, hn⟩ => by
        rw [hr] at e; cases e; rw [hc] at hn; cases hn
      have dropped := setReserved_unreserved hr hc
      have hg' := (dropped.gangHead d side).trans hg
      rw [dieAt_setDieAt_self] at hg'
      simp only [if_true, dieAt_setDieAt_self, reserved_setReserved, hg']
      exact dropped

/-! ## The state in which a record starts (R29 to R31) -/

/-- The argument registers written into a tile whose x registers are all zero change those alone (R29). -/
theorem arguments_shape {w : Tile} (hw : w.x = []) (a b c : GWord) : ∃ y, ((w.setX 2 a).setX 3 b).setX 4 c = { w with x := y } ∧
    Tile.getX { w with x := y } 2 = a ∧ Tile.getX { w with x := y } 3 = b ∧ Tile.getX { w with x := y } 4 = c ∧
    ∀ n, n < 2 ∨ 4 < n → Tile.getX { w with x := y } n = GWord.zero := by
  refine ⟨(((w.setX 2 a).setX 3 b).setX 4 c).x, rfl, ?_⟩
  show let v := ((w.setX 2 a).setX 3 b).setX 4 c
    v.getX 2 = a ∧ v.getX 3 = b ∧ v.getX 4 = c ∧ ∀ n, n < 2 ∨ 4 < n → v.getX n = GWord.zero
  refine ⟨?_, ?_, getX_setX_self _ _ (by decide), fun n hn => ?_⟩
  · rw [getX_setX_other _ _ (by decide), getX_setX_other _ _ (by decide), getX_setX_self _ _ (by decide)]
  · rw [getX_setX_other _ _ (by decide), getX_setX_self _ _ (by decide)]
  · rw [getX_setX_other _ _ (by omega), getX_setX_other _ _ (by omega), getX_setX_other _ _ (by omega), Tile.getX, hw]
    exact ite_self _

/-- An acquire drops the clean words of RC lines (R30, R100). -/
theorem acquireAt_cache (t : Tile) : (acquireAt 3 t).cache =
    t.cache.filterMap fun p => if p.2.uo = true then some p else p.2.keepDirty.map fun l => (p.1, l) := by
  refine congrArg (List.filterMap · t.cache) (funext fun p => ?_)
  cases h : p.2.uo <;> simp [h]

/-- A record starts in the state of R29. -/
theorem start_started (t : Tile) (r : Rec) (ws : BitVec 64) (clear : Bool) (gang : Option Nat) (k : Nat) (now : BitVec 64) :
    Started t (t.start r ws clear gang k now) r ws clear gang k now := by
  unfold Tile.start
  dsimp only
  generalize hw : Tile.placeAll _ _ = w
  obtain ⟨y, e, h2, h3, h4, h0⟩ := arguments_shape (w := w) (by rw [← hw]; rfl) (gloved r.frame) (gloved r.wid) (gloved r.join)
  rw [e]
  unfold Started
  have eng : ∀ e, Tile.eng { w with x := y } e = ⟨r.code &&& ~~~3#64, 0, none⟩ := fun e => by
    rw [← hw]; cases e <;> rfl
  have cache := (show w.cache = (acquireAt 3 t).cache by rw [← hw]; rfl).trans (acquireAt_cache t)
  subst hw
  exact ⟨rfl, rfl, rfl, rfl, eng, h2, h3, h4, h0, rfl, rfl, rfl, rfl, rfl, rfl, rfl, rfl, rfl, rfl, rfl, rfl, rfl, rfl, rfl, rfl,
    rfl, rfl, rfl, rfl, rfl, rfl, rfl, rfl, rfl, rfl, rfl, rfl, rfl, rfl, rfl, cache, rfl, rfl, rfl, rfl, rfl, rfl⟩

/-! ## TASK_START and GANG_START (R29, R48, R396, R397) -/

/-- What ensuring reservations leaves, on a die each of whose sides needs none or has one that no gated tile ends. -/
theorem ensureReserves_unreserved {d : Nat} {s : State} (h : ∀ b, (s.dieAt d).gangHead b = none ∨
    ∃ a c, (s.dieAt d).reserved b = some (a, c) ∧ s.clusterGated d c = false) :
    ∃ v, ensureReserve d true (ensureReserve d false s) = v ∧ Unreserved s v := by
  have first := ensureReserve_unreserved (h false)
  refine ⟨_, rfl, first.trans (ensureReserve_unreserved ?_)⟩
  rw [first.gangHead, first.clusterGated]
  obtain hn | ⟨a, c, hr, hc⟩ := h true
  · exact .inl hn
  · obtain e | ⟨-, a', c', hr', hc'⟩ := first.gone d true
    · exact .inr ⟨a, c, e.trans hr, hc⟩
    · rw [hr] at hr'; cases hr'; rw [hc] at hc'; cases hc'

/-- A tile whose turn it is pops the record it is offered and starts it. -/
theorem exec_taskStart {g l : Nat} {u : QUnit} {r : Rec} {s : State} (ht : s.turn g = true)
    (hg : ∀ b, (s.dieAt (g / 16)).gangHead b = none) (ho : (s.dieAt (g / 16)).offer (s.tileAt g).side = some (l, .pool u))
    (hs : u.slots = []) (hr : u.recs = [r]) : ∃ v y, Unreserved s v ∧
      Die.Remarked { v.dieAt (g / 16) with units := (v.dieAt (g / 16)).units.erase u } y ∧
      exec (.taskStart g) s =
        .next ((v.setDieAt (g / 16) y).setTileAt g ((s.tileAt g).start r u.widsplit u.spclr none 0 s.ftb)) := by
  obtain ⟨v, ev, hv⟩ := ensureReserves_unreserved fun b => .inl (hg b)
  obtain ⟨y, hy, e⟩ := popCand_pool v (g / 16) (s.tileAt g).side l u
  refine ⟨v, y, hv, hy, ?_⟩
  have now : v.ftb = s.ftb := by rw [hv.rest]
  show execTaskStart g s = _
  unfold execTaskStart
  simp only [ev, hv.turn, hv.tileAt, hv.offer, ht, if_true, ho, hs, List.isEmpty_nil, candRec, candRecs, hr, List.headD_cons, startTask, e,
    tileAt_setDieAt]
  rw [← now]
  rfl

/-- A gang's members start on the tiles of its cluster, each in the state of R29, and nothing else changes. -/
theorem startMembers_spec (g : Nat) (u : QUnit) (k : Nat) (rs : List Rec) (s : State) : let v := startMembers g u k rs s
    v = { s with tiles := v.tiles } ∧ (∀ h, h < g + k ∨ g + k + rs.length ≤ h → v.tileAt h = s.tileAt h) ∧
    ∀ i r, rs[i]? = some r →
      v.tileAt (g + k + i) = (s.tileAt (g + k + i)).start r u.widsplit u.spclr (some u.gangNo) (k + i) s.ftb := by
  induction rs generalizing k s with
  | nil => exact ⟨rfl, fun _ _ => rfl, by simp⟩
  | cons r rs ih =>
    obtain ⟨rest, other, started⟩ := ih (k + 1) (startTask (g + k) r u.widsplit u.spclr (some u.gangNo) k s)
    refine ⟨rest, fun h hh => ?_, fun i q hq => ?_⟩
    · rw [List.length_cons] at hh
      exact (other h (by omega)).trans (tileAt_setTileAt_other _ _ (by omega))
    · cases i with
      | zero =>
        cases hq
        exact (other (g + k) (by omega)).trans (tileAt_setTileAt_self _ _ _)
      | succ i =>
        have e := started i q hq
        rw [show g + (k + 1) + i = g + k + (i + 1) by omega, show k + 1 + i = k + (i + 1) by omega, startTask,
          tileAt_setTileAt_other _ _ (by omega)] at e
        exact e

/-- The unit a cluster is reserved for is the gang of the side's reservation. -/
theorem reservedUnit_some {s : State} {d c : Nat} {side : Bool} {u : QUnit} (h : s.reservedUnit d c side = some u) :
    (s.dieAt d).reserved side = some (u.arrival, c) ∧ u ∈ (s.dieAt d).units ∧ u.side = side := by
  unfold State.reservedUnit at h
  dsimp only at h
  split at h
  · rename_i a k hr
    split at h
    · rename_i hk
      have hu := List.find?_some h
      simp only [Bool.and_eq_true, beq_iff_eq, decide_eq_true_eq] at hu
      obtain ⟨⟨hs, -⟩, ha⟩ := hu
      exact ⟨by rw [hr, hk, ha], List.mem_of_find?_eq_some h, hs⟩
    · cases h
  · cases h

/-- A cluster that can start a gang has no gated tile. -/
theorem clusterFree_not_gated {s : State} {d c : Nat} (h : s.clusterFree d c = true) : s.clusterGated d c = false := by
  refine List.any_eq_false.mpr fun k hk hg => ?_
  have pop := List.all_eq_true.mp h k hk
  simp [State.canPop, hg] at pop

/-- The gang that reserved a free cluster leaves the queues, its reservation ends, and its members start. -/
theorem exec_gangStart {d c : Nat} {u : QUnit} {s : State} (hr : s.reservedUnit d c u.side = some u)
    (hn : s.reservedUnit d c (!u.side) = none) (hg : (s.dieAt d).gangHead (!u.side) = none) (hs : u.slots = [])
    (hf : s.clusterFree d c = true) : ∃ v y, Unreserved s v ∧
      Die.Remarked { v.dieAt d with units := (v.dieAt d).units.erase u } y ∧
      exec (.gangStart d c) s = .next (startMembers (16 * d + 4 * c) u 0 u.recs (v.setDieAt d (y.setReserved u.side none))) := by
  have free := clusterFree_not_gated hf
  obtain ⟨hres, -, -⟩ := reservedUnit_some hr
  obtain ⟨v, ev, hv⟩ := ensureReserves_unreserved (s := s) (d := d) fun b => by
    by_cases hb : b = u.side
    · exact .inr ⟨_, _, hb ▸ hres, free⟩
    · exact .inl (Bool.eq_not_of_ne hb ▸ hg)
  obtain ⟨y, hy, e⟩ := popCand_pool v d u.side u.level u
  refine ⟨v, y, hv, hy, ?_⟩
  have mine : v.reservedUnit d c u.side = some u := by
    have units : (v.dieAt d).units = (s.dieAt d).units := by rw [hv.die]
    obtain q | ⟨-, a, k, hr', hk⟩ := hv.gone d u.side
    · unfold State.reservedUnit at hr ⊢; dsimp only at hr ⊢; rw [q, units]; exact hr
    · rw [hres] at hr'; cases hr'; rw [free] at hk; cases hk
  have others := hv.reservedUnit_none hn
  show execGangStart d c s = _
  unfold execGangStart
  simp only [ev, hv.clusterFree, hf]
  cases hside : u.side <;> simp only [hside, Bool.not_true, Bool.not_false] at mine others e
  case false =>
    simp only [mine, hs, List.isEmpty_nil, and_self, if_true, Option.orElse_some, hside, e, dieAt_setDieAt_self, setDieAt_setDieAt]
  case true =>
    simp only [mine, others, hs, List.isEmpty_nil, and_self, if_true, Option.orElse_none, hside, e, dieAt_setDieAt_self,
      setDieAt_setDieAt]

/-! ## The expander (R45, R46) -/

/-- A unit is four records where GANG is set in CTL. -/
theorem hdrUnit_eq (h : List (BitVec 64)) : hdrUnit h = if bit (h.getD 6 0#64) 35 = true then 4 else 1 := by
  unfold hdrUnit
  simp only [ctlField_flag h (k := 3) (by decide)]

theorem hdrUnit_eq_four (h : List (BitVec 64)) : decide (hdrUnit h = 4) = bit (h.getD 6 0#64) 35 := by
  rw [hdrUnit_eq]
  cases bit (h.getD 6 0#64) 35 <;> rfl

/-- The records of a header are those R45 launches. -/
theorem hdrRec_eq (h : List (BitVec 64)) (i : Nat) : hdrRec h i = launched h i := by
  rw [hdrRec, ctlField_eq h 1 (by decide), launched]

/-- The unit that the expander enqueues for unit `k` of a header, with arrival count `a`. -/
def launchedUnit (h : List (BitVec 64)) (k a : Nat) : QUnit :=
  let n := hdrUnit h
  ⟨hdrSide h, ctlField h 2 1, a, (List.range n).map fun j => hdrRec h (n * k + j), [], decide (n = 4), h.getD 2 0#64,
    decide (ctlField h 13 13 = 1), 0, 0, none⟩

/-- The launches of a die that has looked at the next unit of launch `i`. -/
def stepped (x : Die) (i : Nat) (e : Expand) : List Expand :=
  if hdrCount e.hdr / hdrUnit e.hdr ≤ e.next + 1 then x.launches.eraseIdx i else x.launches.set i { e with next := e.next + 1 }

section Expander

variable {d i : Nat} {e : Expand} {s : State} (hz : s.frozen = false) (hf : s.fatal = false)
  (hl : (s.dieAt d).nextLaunch = some (i, e))

include hz hf hl

/-- Another die's unit is passed over. -/
theorem exec_expanderEnqueue_pass (hd : hdrDie e.hdr e.dies e.next ≠ d) :
    exec (.expanderEnqueue d) s = .next (s.setDieAt d { s.dieAt d with launches := stepped (s.dieAt d) i e }) := by
  show execExpanderEnqueue d s = _
  unfold execExpanderEnqueue
  simp only [hz, hf, hl, hd, Bool.false_eq_true, or_self, if_false, decide_eq_true_eq]
  rfl

/-- The die's own unit is enqueued, where a gang has a cluster. -/
theorem exec_expanderEnqueue_own (hd : hdrDie e.hdr e.dies e.next = d)
    (hg : hdrUnit e.hdr = 4 → s.wholeCluster d (hdrSide e.hdr) = true) : ∃ y,
    Die.Remarked { (Die.arrive { s.dieAt d with launches := stepped (s.dieAt d) i e } (hdrSide e.hdr)).2 with
      units := (s.dieAt d).units ++ [launchedUnit e.hdr e.next (arrivals (s.dieAt d) (hdrSide e.hdr))] } y ∧
    exec (.expanderEnqueue d) s = .next (s.setDieAt d y) := by
  obtain ⟨y, hy, q⟩ := setDieAt_noteHeads s d
    { (Die.arrive { s.dieAt d with launches := stepped (s.dieAt d) i e } (hdrSide e.hdr)).2 with
      units := (s.dieAt d).units ++ [launchedUnit e.hdr e.next (arrivals (s.dieAt d) (hdrSide e.hdr))] }
  have same : (s.setDieAt d y).dieReg = s.dieReg := funext fun k => funext fun o => dieReg_setDieAt (by rw [hy.rest, arrive_eq]) k o
  have stays : hdrUnit e.hdr = 4 → rehomeGangs d (hdrSide e.hdr) (s.setDieAt d y) = s.setDieAt d y := fun h4 => by
    rw [rehomeGangs, wholeCluster_congr same, if_pos (hg h4)]
  refine ⟨y, hy, ?_⟩
  have enqueues : exec (.expanderEnqueue d) s = .next (if hdrUnit e.hdr = 4 then rehomeGangs d (hdrSide e.hdr) (s.setDieAt d y)
      else s.setDieAt d y) := by
    rw [← q]
    show execExpanderEnqueue d s = _
    unfold execExpanderEnqueue
    simp only [hz, hf, hl, hd, Bool.false_eq_true, or_self, if_false, if_true, decide_eq_true_eq, arrive_eq]
    rfl
  rw [enqueues]
  split
  · rename_i h4; rw [stays h4]
  · rfl

end Expander

/-! ## Refill and aging (R51, R394, R398) -/

/-- The oldest spilled unit goes back to the pool as it was, and its ring's HEAD advances. -/
theorem exec_spillRefill {d : Nat} {side : Bool} {n : SpillNote} {rs : List Rec} {s : State} (hr : (s.dieAt d).occ side < 3840)
    (hn : (s.dieAt d).oldestSpill side = some n) (hs : SpillAt s d n rs) : ∃ y,
    Die.Remarked { (s.dieAt d).unspill n with units := (s.dieAt d).units ++
      [⟨side, n.ring % 4, n.arrival, rs, [], n.gang, n.widsplit, n.spclr, n.aged, n.promoted, n.headSince⟩] } y ∧
    exec (.spillRefill d side) s = .next (s.setDieAt d y) := by
  obtain ⟨y, hy, q⟩ := setDieAt_noteHeads s d { (s.dieAt d).unspill n with units := (s.dieAt d).units ++
      [⟨side, n.ring % 4, n.arrival, rs, [], n.gang, n.widsplit, n.spclr, n.aged, n.promoted, n.headSince⟩] }
  refine ⟨y, hy, ?_⟩
  rw [← q]
  show execSpillRefill d side s = _
  unfold execSpillRefill
  simp only [Nat.not_le.mpr hr, if_false, hn, candRecs_of_spillAt hs, removeCand_ring, dieAt_setDieAt_self, setDieAt_setDieAt]
  rfl

theorem setReserved_shape (x : Die) (side : Bool) (r : Option (Nat × Nat)) :
    ∃ a l, x.setReserved side r = { x with reserveA := a, reserveL := l } := by
  cases side <;> exact ⟨_, _, rfl⟩

/-- A reservation changes its unit's arrival count alone. -/
theorem rename_shape (x : Die) (side : Bool) (old new : Nat) :
    ∃ a l, x.rename side old new = { x with reserveA := a, reserveL := l } := by
  unfold Die.rename
  split
  · split
    · exact setReserved_shape _ _ _
    · exact ⟨_, _, rfl⟩
  · exact ⟨_, _, rfl⟩

theorem reserved_rename {x : Die} {side : Bool} {old c : Nat} (h : x.reserved side = some (old, c)) (new : Nat) :
    (x.rename side old new).reserved side = some (new, c) := by
  simp [Die.rename, h]

/-- A unit that moves up from level `l`, with arrival count `a` and no marks. -/
def promotedUnit (u : QUnit) (l a : Nat) : QUnit :=
  { u with level := l - 1, arrival := a, aged := 0, promoted := u.promoted + 1, headSince := none }

/-- The die in which unit `u` of the pool has moved up from level `l`. -/
def promotedDie (x : Die) (side : Bool) (l : Nat) (u : QUnit) : Die :=
  Die.rename { (x.arrive side).2 with units := x.units.erase u ++ [promotedUnit u l (arrivals x side)] } side u.arrival (arrivals x side)

theorem promotedDie_shape (x : Die) (side : Bool) (l : Nat) (u : QUnit) : ∃ a r, promotedDie x side l u =
    { (x.arrive side).2 with
      units := x.units.erase u ++ [promotedUnit u l (arrivals x side)], reserveA := a, reserveL := r } :=
  rename_shape _ _ _ _

theorem occ_promotedDie {x : Die} {side : Bool} {u : QUnit} (hu : u ∈ x.units) (l : Nat) :
    (promotedDie x side l u).occ u.side = x.occ u.side := by
  obtain ⟨a, r, e⟩ := promotedDie_shape x side l u
  have gone : Die.occ { x with units := x.units.erase u } u.side + u.count = x.occ u.side := occ_erase hu rfl
  have back := occ_append (x := { x with units := x.units.erase u }) (y := promotedDie x side l u)
    (u := promotedUnit u l (arrivals x side)) (by rw [e])
  exact back.trans gone

theorem mem_promotedDie (x : Die) (side : Bool) (l : Nat) (u : QUnit) :
    promotedUnit u l (arrivals x side) ∈ (promotedDie x side l u).units := by
  obtain ⟨a, r, e⟩ := promotedDie_shape x side l u
  rw [e]
  exact List.mem_append_right _ List.mem_cons_self

theorem reserved_promotedDie {x : Die} {side : Bool} {u : QUnit} {c : Nat} (h : x.reserved side = some (u.arrival, c)) (l : Nat) :
    (promotedDie x side l u).reserved side = some (arrivals x side, c) :=
  reserved_rename (by rw [arrive_eq]; exact h) _

theorem arrivals_promotedDie (x : Die) (side : Bool) (l : Nat) (u : QUnit) :
    arrivals (promotedDie x side l u) side = arrivals x side + 1 := by
  obtain ⟨a, r, e⟩ := promotedDie_shape x side l u
  rw [e]
  cases side <;> rfl

/-- The gang that has a level's reservation. -/
theorem reservedAt_some {x : Die} {side : Bool} {l : Nat} {u : QUnit} (h : x.reservedAt side l = some u) :
    u ∈ x.units ∧ u.side = side ∧ u.gang = true := by
  obtain ⟨r, -, hf⟩ := Option.bind_eq_some_iff.mp h
  have hu := List.find?_some hf
  simp only [Bool.and_eq_true, beq_iff_eq] at hu
  exact ⟨List.mem_of_find?_eq_some hf, hu.1⟩

theorem ageHead_reserved {x : Die} {side : Bool} {l : Nat} {u : QUnit} (h : x.reservedAt side l = some u) :
    x.ageHead side l = some (.pool u) := by
  simp only [Die.ageHead, h]

theorem ageHead_unreserved {x : Die} {side : Bool} {l : Nat} (h : x.reservedAt side l = none) : x.ageHead side l = x.head side l := by
  simp only [Die.ageHead, h]

section Aging

variable {d l : Nat} {side : Bool} {s : State} (h1 : 1 ≤ l) (h3 : l ≤ 3)

include h1 h3

/-- A unit of the pool that has aged moves up. -/
theorem exec_aging_pool {u : QUnit} (hu : (s.dieAt d).ageHead side l = some (.pool u)) (ha : s.agePops d ≤ u.aged) (hp : u.promoted < 3) :
    ∃ y, (promotedDie (s.dieAt d) side l u).Remarked y ∧ exec (.agingPromotion d side l) s = .next (s.setDieAt d y) := by
  obtain ⟨y, hy, q⟩ := setDieAt_noteHeads s d (promotedDie (s.dieAt d) side l u)
  refine ⟨y, hy, ?_⟩
  have level : ¬(l = 0 ∨ 3 < l) := by omega
  have aged : ¬(u.aged < s.agePops d ∨ 3 ≤ u.promoted) := by omega
  rw [← q]
  show execAgingPromotion d side l s = _
  unfold execAgingPromotion
  simp only [level, hu, aged, if_false, arrive_eq, promotedDie]
  rfl

/-- A spilled unit that has aged moves up into the pool, where it has room. -/
theorem exec_aging_ring {n : SpillNote} {rs : List Rec} (hn : (s.dieAt d).ageHead side l = some (.ring n)) (ha : s.agePops d ≤ n.aged)
    (hp : n.promoted < 3) (hr : (s.dieAt d).occ side + rs.length ≤ 4096) (hs : SpillAt s d n rs) : ∃ y,
    Die.Remarked { (Die.arrive ((s.dieAt d).unspill n) side).2 with units := (s.dieAt d).units ++
      [⟨side, l - 1, arrivals (s.dieAt d) side, rs, [], n.gang, n.widsplit, n.spclr, 0, n.promoted + 1, none⟩] } y ∧
    exec (.agingPromotion d side l) s = .next (s.setDieAt d y) := by
  obtain ⟨y, hy, q⟩ := setDieAt_noteHeads s d { (Die.arrive ((s.dieAt d).unspill n) side).2 with units := (s.dieAt d).units ++
      [⟨side, l - 1, arrivals (s.dieAt d) side, rs, [], n.gang, n.widsplit, n.spclr, 0, n.promoted + 1, none⟩] }
  refine ⟨y, hy, ?_⟩
  have level : ¬(l = 0 ∨ 3 < l) := by omega
  have aged : ¬(n.aged < s.agePops d ∨ 3 ≤ n.promoted) := by omega
  rw [← q]
  show execAgingPromotion d side l s = _
  unfold execAgingPromotion
  simp only [level, hn, aged, if_false, count_of_spillAt hs, hr, decide_true, not_true_eq_false, false_and, if_true,
    candRecs_of_spillAt hs, removeCand_ring, dieAt_setDieAt_self, setDieAt_setDieAt, arrive_eq]
  rfl

end Aging

/-! ## The clauses of O44 -/

/-- A unit that leaves the pool takes its records from the occupancy, whatever reservations have ended before. -/
theorem Unreserved.occ_pop {s v : State} {d : Nat} {u : QUnit} {y : Die} (hv : Unreserved s v) (hu : u ∈ (s.dieAt d).units)
    (hy : Die.Remarked { v.dieAt d with units := (v.dieAt d).units.erase u } y) :
    y.occ u.side + u.count = (s.dieAt d).occ u.side := by
  have units : (v.dieAt d).units = (s.dieAt d).units := by rw [hv.die]
  rw [hy.occ]
  exact occ_erase hu (congrArg (List.erase · u) units)

/-- TASK_START starts the offered record, which leaves the pool. -/
theorem taskStart_starts {g l : Nat} {u : QUnit} {r : Rec} {s : State} (ht : s.turn g = true)
    (hg : ∀ b, (s.dieAt (g / 16)).gangHead b = none) (ho : (s.dieAt (g / 16)).offer (s.tileAt g).side = some (l, .pool u))
    (hs : u.slots = []) (hr : u.recs = [r]) : ∃ v, exec (.taskStart g) s = .next v ∧
      Started (s.tileAt g) (v.tileAt g) r u.widsplit u.spclr none 0 s.ftb ∧
      (v.dieAt (g / 16)).occ (s.tileAt g).side + 1 = (s.dieAt (g / 16)).occ (s.tileAt g).side ∧
      v.mem = s.mem ∧ ∀ h, h ≠ g → v.tileAt h = s.tileAt h := by
  obtain ⟨v, y, hv, hy, e⟩ := exec_taskStart ht hg ho hs hr
  obtain ⟨hu, hside, -⟩ := headWhere_pool (firstCand_some ho)
  have one : u.count = 1 := by rw [QUnit.count, hr, hs]; rfl
  refine ⟨_, e, ?_, ?_, ?_, fun h hh => ?_⟩
  · rw [tileAt_setTileAt_self]; exact start_started _ _ _ _ _ _ _
  · rw [dieAt_setTileAt, dieAt_setDieAt_self, ← hside, ← one]; exact hv.occ_pop hu hy
  · rw [setTileAt_mem, setDieAt_mem, hv.rest]
  · rw [tileAt_setTileAt_other _ _ hh, tileAt_setDieAt, hv.tileAt]

/-- GANG_START starts the four members, and the unit and its reservation are gone. -/
theorem gangStart_starts {d c : Nat} {u : QUnit} {s : State} (hr : s.reservedUnit d c u.side = some u)
    (hn : s.reservedUnit d c (!u.side) = none) (hg : (s.dieAt d).gangHead (!u.side) = none) (hs : u.slots = [])
    (hlen : u.recs.length = 4) (hf : s.clusterFree d c = true) : ∃ v, exec (.gangStart d c) s = .next v ∧
      (∀ k < 4, Started (s.tileAt (16 * d + 4 * c + k)) (v.tileAt (16 * d + 4 * c + k))
        (u.recs.getD k ⟨0#64, 0#64, 0#64, 0#64⟩) u.widsplit u.spclr (some u.gangNo) k s.ftb) ∧
      (v.dieAt d).reserved u.side = none ∧ (v.dieAt d).occ u.side + 4 = (s.dieAt d).occ u.side ∧ v.mem = s.mem := by
  obtain ⟨v, y, hv, hy, e⟩ := exec_gangStart hr hn hg hs hf
  obtain ⟨-, hu, -⟩ := reservedUnit_some hr
  obtain ⟨rest, -, started⟩ := startMembers_spec (16 * d + 4 * c) u 0 u.recs (v.setDieAt d (y.setReserved u.side none))
  have four : u.count = 4 := by rw [QUnit.count, hlen, hs]; rfl
  have die : (startMembers (16 * d + 4 * c) u 0 u.recs (v.setDieAt d (y.setReserved u.side none))).dieAt d =
      y.setReserved u.side none := by rw [rest]; exact dieAt_setDieAt_self _ _ _
  have now : (v.setDieAt d (y.setReserved u.side none)).ftb = s.ftb := by
    rw [setDieAt_ftb, hv.rest]
  refine ⟨_, e, fun k hk => ?_, ?_, ?_, ?_⟩
  · have member : u.recs[k]? = some (u.recs.getD k ⟨0#64, 0#64, 0#64, 0#64⟩) := by
      rw [List.getD_eq_getElem _ _ (hlen ▸ hk), List.getElem?_eq_getElem]
    have e := started k _ member
    rw [Nat.add_zero, tileAt_setDieAt, hv.tileAt, now, Nat.zero_add] at e
    rw [e]
    exact start_started _ _ _ _ _ _ _
  · rw [die, reserved_setReserved]
  · obtain ⟨a, r, q⟩ := setReserved_shape y u.side none
    have same : (y.setReserved u.side none).occ u.side = y.occ u.side := by rw [q]; rfl
    rw [die, same, ← four]
    exact hv.occ_pop hu hy
  · rw [rest]
    show v.mem = s.mem
    rw [hv.rest]

/-- The expander's unit as R45 and R46 give it. -/
theorem launchedUnit_eq (h : List (BitVec 64)) (k a : Nat) : launchedUnit h k a =
    ⟨bit (h.getD 6 0#64) 32, bits (h.getD 6 0#64) 34 33, a, (List.range (hdrUnit h)).map fun j => launched h (hdrUnit h * k + j), [],
      bit (h.getD 6 0#64) 35, h.getD 2 0#64, bit (h.getD 6 0#64) 45, 0, 0, none⟩ := by
  have level : ctlField h 2 1 = bits (h.getD 6 0#64) 34 33 := ctlField_eq h 1 (by decide)
  have clear : decide (ctlField h 13 13 = 1) = bit (h.getD 6 0#64) 45 := by
    rw [Bool.eq_iff_iff, decide_eq_true_eq]; exact ctlField_flag h (by decide)
  simp only [launchedUnit, level, clear, hdrRec_eq, hdrSide_eq, hdrUnit_eq_four]

/-- The oldest spilled unit is in the pool, and out of its ring. -/
theorem spillRefill_refills {d : Nat} {side : Bool} {n : SpillNote} {rs : List Rec} {s : State} (hr : (s.dieAt d).occ side < 3840)
    (hn : (s.dieAt d).oldestSpill side = some n) (hs : SpillAt s d n rs) : ∃ v, exec (.spillRefill d side) s = .next v ∧
      QueuedUnit (v.dieAt d) side (n.ring % 4) n.arrival rs n.gang n.widsplit ∧
      (v.dieAt d).occ side = (s.dieAt d).occ side + rs.length ∧ (v.dieAt d).spills.length + 1 = (s.dieAt d).spills.length ∧
      v.dieReg d (spillReg n.ring 2) = s.dieReg d (spillReg n.ring 2) + BitVec.ofNat 64 rs.length ∧ v.mem = s.mem ∧
      v.tiles = s.tiles := by
  obtain ⟨y, hy, e⟩ := exec_spillRefill hr hn hs
  refine ⟨_, e, ?_, ?_, ?_, ?_, rfl, rfl⟩
  · rw [dieAt_setDieAt_self]
    exact hy.queuedUnit ⟨_, List.mem_append_right _ List.mem_cons_self, rfl, rfl, rfl, rfl, rfl, rfl, rfl⟩
  · rw [dieAt_setDieAt_self, hy.occ]
    exact occ_append (x := (s.dieAt d).unspill n)
      (u := ⟨side, n.ring % 4, n.arrival, rs, [], n.gang, n.widsplit, n.spclr, n.aged, n.promoted, n.headSince⟩) rfl
  · rw [dieAt_setDieAt_self, hy.spills_length]
    exact unspill_spills_length (oldestSpill_mem hn)
  · rw [State.dieReg, dieAt_setDieAt_self, hy.rest, ← count_of_spillAt hs]
    exact mapGet_mapSet_self _ _ _ _

end Sys2Proof.Machine

namespace Sys2Proof.Proofs

open Sys2Proof.Machine Sys2Proof.Claims

/-- Settles O44: reservations that end on the way change no turn, offer or head; each start puts a tile into the state of R29; each unit
that leaves or enters a queue takes its records with it, whatever marks the heads get. -/
theorem taskStartResult : Obligations.TaskStartResult := by
  refine ⟨fun g l u r s ht hg ho hs hr => taskStart_starts ht hg ho hs hr,
    fun d c u s _ _ hr hn hg hs hlen hf => gangStart_starts hr hn hg hs hlen hf, ?_, ?_, ?_⟩
  · intro d i e s x side gang n rest hz hf hl
    have unit : hdrUnit e.hdr = n := hdrUnit_eq e.hdr
    have launches : stepped x i e = rest := by rw [stepped, unit]
    have onSide : hdrSide e.hdr = side := hdrSide_eq e.hdr
    refine ⟨fun hd => launches ▸ exec_expanderEnqueue_pass hz hf hl hd, fun hd hg => ?_⟩
    have four : hdrUnit e.hdr = 4 → s.wholeCluster d (hdrSide e.hdr) = true := fun h4 =>
      onSide ▸ hg ((hdrUnit_eq_four e.hdr).symm.trans (decide_eq_true h4))
    obtain ⟨y, hy, q⟩ := exec_expanderEnqueue_own hz hf hl hd four
    rw [onSide, launchedUnit_eq, unit] at hy
    set own : QUnit := ⟨_, _, _, _, _, _, _, _, _, _, _⟩
    have mine := hy.mem_units (List.mem_append_right _ (List.mem_singleton_self _))
    obtain ⟨a, h, hm⟩ := mine
    refine ⟨_, q, ?_, ?_, ?_, ⟨_, by rw [dieAt_setDieAt_self]; exact hm, rfl, rfl, rfl, rfl, rfl, rfl, rfl, rfl⟩, rfl, rfl⟩
    · rw [dieAt_setDieAt_self, hy.rest, ← launches, arrive_eq]
    · rw [dieAt_setDieAt_self, hy.occ]
      have grown : Die.occ { (Die.arrive { s.dieAt d with launches := stepped (s.dieAt d) i e } side).2 with
          units := (s.dieAt d).units ++ [own] } side = x.occ side + own.count := occ_append (x := x) (u := own) rfl
      rw [grown]
      simp [own, QUnit.count]
    · rw [dieAt_setDieAt_self, hy.rest]
      cases side <;> rfl
  · intro d side n rs s x hr hn hs
    have head : 0x20110 + 32 * n.ring = spillReg n.ring 2 := by unfold spillReg; omega
    rw [head]
    exact spillRefill_refills hr hn hs
  · intro d l side u rs n s x age h1 h3
    refine ⟨fun c hres hr ha hp => ?_, fun hres => ⟨fun hh hs ha hp => ?_, fun hh ha hp hr hs => ?_⟩⟩
    · obtain ⟨y, hy, e⟩ := exec_aging_pool h1 h3 (s := s) (d := d) (side := side) (u := u) (ageHead_reserved hres) ha hp
      obtain ⟨hu, hside, hgang⟩ := reservedAt_some hres
      obtain ⟨n', t, hm⟩ := hy.mem_units (mem_promotedDie x side l u)
      refine ⟨_, e, ?_, ⟨{ promotedUnit u l (arrivals x side) with aged := n', headSince := t },
        by rw [dieAt_setDieAt_self]; exact hm, hside, hgang, rfl, rfl, rfl, rfl⟩, ?_, rfl, rfl⟩
      · rw [dieAt_setDieAt_self, ← reserved_promotedDie hr l, hy.rest]; rfl
      · rw [dieAt_setDieAt_self, hy.occ, ← hside, occ_promotedDie hu]
    · obtain ⟨y, hy, e⟩ := exec_aging_pool h1 h3 (s := s) (d := d) (side := side) (u := u) ((ageHead_unreserved hres).trans hh) ha hp
      obtain ⟨hu, hside, -⟩ := headWhere_pool hh
      refine ⟨_, e, ?_, ?_, ?_, rfl, rfl⟩
      · rw [dieAt_setDieAt_self]
        exact hy.queuedUnit ⟨_, mem_promotedDie x side l u, hside, rfl, rfl, rfl, hs, rfl, rfl⟩
      · rw [dieAt_setDieAt_self, hy.occ, ← hside, occ_promotedDie hu]
      · rw [dieAt_setDieAt_self, ← arrivals_promotedDie x side l u, hy.rest]; rfl
    · obtain ⟨y, hy, e⟩ := exec_aging_ring h1 h3 ((ageHead_unreserved hres).trans hh) ha hp hr hs
      refine ⟨_, e, ?_, ?_, ?_, rfl, rfl⟩
      · rw [dieAt_setDieAt_self]
        exact hy.queuedUnit ⟨_, List.mem_append_right _ List.mem_cons_self, rfl, rfl, rfl, rfl, rfl, rfl, rfl⟩
      · rw [dieAt_setDieAt_self, hy.occ]
        exact occ_append (x := x.unspill n)
          (u := ⟨side, l - 1, arrivals x side, rs, [], n.gang, n.widsplit, n.spclr, 0, n.promoted + 1, none⟩) rfl
      · rw [dieAt_setDieAt_self, hy.spills_length, arrive_eq]
        exact unspill_spills_length (headWhere_ring hh)

end Sys2Proof.Proofs
end

section
/-!
PROOFS. The words of a task about tasks (R32 to R35, R160, R161, R168): where the places of an access lie, what ordering and writing back
change, the cut at a yield, and the record that spawn reads, from which O14 is assembled.
-/

namespace Sys2Proof.Machine

open Sys2Proof.Claims

/-! ## Writing lines back (R100) -/

/-- Doublewords outside a line are as they were. -/
theorem read_writeBackWords_other {k a : Nat} (ha : a / 128 ≠ k) (dirty : BitVec 16) (ws : List GWord) (i : Nat) (m : Mem) :
    (writeBackWords m k dirty i ws).read a = m.read a := by
  induction ws generalizing i m with
  | nil => rfl
  | cons w ws ih =>
    rw [writeBackWords, ih]
    split
    · rename_i hi
      have h16 : i < 16 := BitVec.lt_of_getLsbD hi
      exact Mem.read_write_other _ _ (by omega)
    · rfl

/-- And a doubleword before those written. -/
theorem read_writeBackWords_before {k i j : Nat} (hj : j < i) (dirty : BitVec 16) (ws : List GWord) (m : Mem) :
    (writeBackWords m k dirty i ws).read (128 * k + 8 * j) = m.read (128 * k + 8 * j) := by
  induction ws generalizing i m with
  | nil => rfl
  | cons w ws ih =>
    rw [writeBackWords, ih (by omega)]
    split
    · exact Mem.read_write_other _ _ (by omega)
    · rfl

/-- A dirty doubleword of a line is at its home. -/
theorem read_writeBackWords_dirty {k i j : Nat} {dirty : BitVec 16} (hd : dirty.getLsbD (i + j) = true) {ws : List GWord} (m : Mem)
    {w : GWord} (hw : ws[j]? = some w) : (writeBackWords m k dirty i ws).read (128 * k + 8 * (i + j)) = w := by
  induction ws generalizing i j m with
  | nil => cases hw
  | cons x ws ih =>
    cases j with
    | zero =>
      cases hw
      rw [Nat.add_zero] at hd ⊢
      rw [writeBackWords, read_writeBackWords_before (Nat.lt_succ_self i), if_pos hd]
      exact Mem.read_write_self _ _ _
    | succ j =>
      rw [writeBackWords, show i + (j + 1) = i + 1 + j by omega]
      exact ih (by rw [show i + 1 + j = i + (j + 1) by omega]; exact hd) _ hw

section Lines

variable (sel : Nat → CLine → Bool)

/-- A doubleword of a line that the cache does not hold is as it was. -/
theorem read_writeBackLines_other {a : Nat} {c : SMap CLine} (h : ∀ p ∈ c, p.1 ≠ a / 128) (m : Mem) :
    (writeBackLines sel c m).2.read a = m.read a := by
  induction c generalizing m with
  | nil => rfl
  | cons p c ih =>
    obtain ⟨hp, hc⟩ := List.forall_mem_cons.mp h
    rw [writeBackLines]
    split
    · exact (ih hc _).trans (read_writeBackWords_other hp.symm _ _ _ _)
    · exact ih hc m

/-- A dirty doubleword of a selected line is at its home. -/
theorem read_writeBackLines_dirty {c : SMap CLine} (hs : mapSorted none c = true) {k i : Nat} {l : CLine} (hl : (k, l) ∈ c)
    (hk : sel k l = true) (hd : l.dirty.getLsbD i = true) {w : GWord} (hw : l.words[i]? = some w) (m : Mem) :
    (writeBackLines sel c m).2.read (128 * k + 8 * i) = w := by
  have h16 : i < 16 := BitVec.lt_of_getLsbD hd
  have line : (128 * k + 8 * i) / 128 = k := by omega
  induction c generalizing m with
  | nil => cases hl
  | cons p c ih =>
    have above : ∀ q ∈ c, p.1 < q.1 := mapSorted_above c p.1 hs
    have sorted : mapSorted none c = true := mapSorted_none c hs
    rw [writeBackLines]
    obtain rfl | hl := List.mem_cons.mp hl
    · have dirty : l.dirty ≠ 0#16 := fun e => by rw [e, BitVec.getLsbD_zero] at hd; exact Bool.false_ne_true hd
      have others : ∀ q ∈ c, q.1 ≠ (128 * k + 8 * i) / 128 := fun q hq => by rw [line]; exact (above q hq).ne'
      rw [if_pos (by simp [hk, dirty]), read_writeBackLines_other sel others]
      have e := read_writeBackWords_dirty (k := k) (i := 0) (j := i) (by rw [Nat.zero_add]; exact hd) m hw
      rwa [Nat.zero_add] at e
    · split
      · exact ih sorted hl _
      · exact ih sorted hl m

/-- Selected lines end clean. -/
theorem writeBackLines_selected_clean (c : SMap CLine) (m : Mem) :
    ∀ p ∈ (writeBackLines sel c m).1, sel p.1 p.2 = true → p.2.dirty = 0#16 := by
  induction c generalizing m with
  | nil => intro p hp; cases hp
  | cons q c ih =>
    rw [writeBackLines]
    split
    · exact List.forall_mem_cons.mpr ⟨fun _ => rfl, ih _⟩
    · rename_i hq
      refine List.forall_mem_cons.mpr ⟨fun hs => ?_, ih _⟩
      by_contra hd
      exact hq (by simp [hs, hd])

end Lines

/-! ## Where S's accesses lie (R94 to R97, R132) -/

/-- An access that lands goes to its place. -/
theorem placeOf_lands {s : State} {va : BitVec 64} {r : Rights} {p : Place} (hl : s.tile.level = .task) (h : Lands s va r p) :
    placeOf va r s = .ok (p, s) := by
  obtain ⟨off, hoff, hva, rfl⟩ | ⟨ha, pa, d, off, hpage, ht, hv, rfl⟩ := h
  · have aperture : inAperture va = true := by
      rw [inAperture, hva, decide_eq_true_eq]; omega
    have own : spadPlace s.cur (va.toNat % 2 ^ 32) = .own off := by
      rw [hva, show (0xFF80000000000000 + off) % 2 ^ 32 = off by omega, spadPlace, if_pos hoff]
    exact placeOf_own aperture own
  · obtain ⟨hs, -⟩ | ⟨-, hn, e, he, hk, hp, rfl⟩ := hpage
    · rw [hl] at hs; cases hs
    · exact placeOf_page ha hl hn he hp hk ht hv

/-- The word of such a place is loaded as it stands. -/
theorem loadWord_lands {s u : State} {va : BitVec 64} {r : Rights} {p : Place} (h : Lands s va r p) (va' : BitVec 64) :
    loadWord p va' u = .ok (some (wordAt u p), u) := by
  obtain ⟨off, -, -, rfl⟩ | ⟨-, pa, d, off, -, -, -, rfl⟩ := h
  · simp [loadWord, loadPlace_spad, wordAt]
  · simp [loadWord, loadPlace_memory, wordAt]

/-- The range checker lets a load of S that reaches its place go on. -/
theorem waitRange_load {s : State} {va : BitVec 64} {p : Place} (h : Reaches s va 8 Rights.load p) :
    waitRange [p] false true s = .ok ((), s) := by
  obtain ⟨-, -, hb, -⟩ := h
  refine waitRange_ok ?_
  have span : spanOf ([p].flatMap (placeRange s.cur)) = placeRange s.cur p := by
    cases p <;> simp only [List.flatMap_cons, List.flatMap_nil, List.append_nil, placeRange, spanOf]
    split <;> rfl
  rw [span]
  exact hb

/-! ## Reading the doublewords of an image (R103, R160) -/

/-- The address of doubleword `i` from `va` on. -/
def dwordFrom (va : BitVec 64) (i : Nat) : BitVec 64 := va + 8#64 * BitVec.ofNat 64 i

theorem dwordFrom_succ (va : BitVec 64) (i : Nat) : dwordFrom va (i + 1) = dwordFrom (va + 8#64) i := by
  unfold dwordFrom
  rw [BitVec.ofNat_add, BitVec.mul_add, BitVec.add_assoc, BitVec.add_comm (8#64 * _)]
  rfl

theorem imagePlaces_reach {s : State} (hl : s.tile.level = .task) {n : Nat} {va : BitVec 64} {ps : Nat → Place}
    (h : ∀ i < n, Reaches s (dwordFrom va i) 8 Rights.load (ps i)) :
    imagePlaces n va s = .ok ((List.range n).map fun i => (dwordFrom va i, ps i), s) := by
  induction n generalizing va ps with
  | zero => rfl
  | succ n ih =>
    have first := h 0 (Nat.succ_pos n)
    have start : dwordFrom va 0 = va := by unfold dwordFrom; simp
    have place : placeOf va Rights.load s = .ok (ps 0, s) := start ▸ placeOf_lands hl first.2.2.2
    have rest := ih (va := va + 8#64) (ps := fun i => ps (i + 1)) fun i hi => dwordFrom_succ va i ▸ h (i + 1) (by omega)
    simp only [imagePlaces, eff_bind, place, waitRange_load first, rest, eff_pure, List.range_succ_eq_map, List.map_cons, List.map_map,
      Function.comp_def, dwordFrom_succ, start]

/-- Words without error are read in order. -/
theorem readImage_ok {u : State} {qs : List (BitVec 64 × Place)} {f : BitVec 64 × Place → BitVec 64}
    (h : ∀ q ∈ qs, loadWord q.2 q.1 u = .ok (some (gloved (f q)), u)) : readImage qs u = .ok (some (qs.map f), u) := by
  induction qs with
  | nil => rfl
  | cons q qs ih =>
    obtain ⟨hq, hqs⟩ := List.forall_mem_cons.mp h
    simp only [readImage, eff_bind, hq, check_gloved, ih hqs, eff_pure, Option.map_some, List.map_cons]

/-- A record whose places hold no error is read, its accesses ordered as one. -/
theorem recordAt_ok {s : State} (hl : s.tile.level = .task) {va : BitVec 64} {l : List (BitVec 64)} {ps : Nat → Place} (h4 : l.length = 4)
    (h : ∀ i < 4, Reaches s (dwordFrom va i) 8 Rights.load (ps i) ∧ wordAt (ordered s va 4) (ps i) = gloved (l.getD i 0#64)) :
    recordAt va s = .ok (some l, ordered s va 4) := by
  have order : orderSO (((List.range 4).map fun i => (dwordFrom va i, ps i)).map (·.1)) s = .ok ((), ordered s va 4) := by
    rw [List.map_map]; rfl
  have words := readImage_ok (u := ordered s va 4) (qs := (List.range 4).map fun i => (dwordFrom va i, ps i))
    (f := fun q => (wordAt (ordered s va 4) q.2).data) fun q hq => by
      obtain ⟨i, hi, rfl⟩ := List.mem_map.mp hq
      obtain ⟨hr, hw⟩ := h i (List.mem_range.mp hi)
      rw [loadWord_lands hr.2.2.2, hw]
      rfl
  have values : ((List.range 4).map fun i => (dwordFrom va i, ps i)).map (fun q => (wordAt (ordered s va 4) q.2).data) = l := by
    rw [List.map_map]
    refine List.ext_getElem (by simp [h4]) fun i _ hi => ?_
    simp [(h i (h4 ▸ hi)).2, gloved, List.getElem?_eq_getElem hi]
  rw [values] at words
  simp only [recordAt, imageWordsFrom, eff_bind, imagePlaces_reach hl fun i hi => (h i hi).1, order, words]

/-! ## What ordering and writing back change (R100, R101) -/

/-- `v` is `s` but for memory and the tiles, of which the one that moves has another tile cache alone. -/
structure Recached (s v : State) : Prop where
  rest : v = { s with tiles := v.tiles, mem := v.mem }
  tile : v.tile = { s.tile with cache := v.tile.cache }

namespace Recached

variable {s u v : State}

theorem refl (s : State) : Recached s s := ⟨rfl, rfl⟩

theorem trans (h : Recached s u) (k : Recached u v) : Recached s v where
  rest := by rw [k.rest, h.rest]
  tile := by rw [k.tile, h.tile]

theorem cur (h : Recached s v) : v.cur = s.cur := by rw [h.rest]

theorem dieAt (h : Recached s v) : v.dieAt = s.dieAt := by rw [h.rest]; rfl

end Recached

theorem writeBack_recached (s : State) (sel : Nat → CLine → Bool) : Recached s (s.writeBack s.cur sel) := by
  refine ⟨rfl, ?_⟩
  have tile : (s.writeBack s.cur sel).tile = { s.tile with cache := (writeBackLines sel s.tile.cache s.mem).1 } := tile_setTile s _
  rw [tile]

theorem soOrder_recached (s : State) (vas : List (BitVec 64)) : Recached s (s.soOrder vas) := by
  unfold State.soOrder
  split
  · refine (writeBack_recached s fun _ l => !l.uo).trans ⟨rfl, ?_⟩
    rw [tile_setTile]
    rfl
  · exact .refl s

/-! ## The cut at a yield (R402) -/

/-- `v` has the tile that moves and tile `g` of `s`, but for `g`'s cache and windows. -/
def Handed (g : Nat) (s v : State) : Prop := v.cur = s.cur ∧ ∃ c w, v.tileAt g = { s.tileAt g with cache := c, wins := w }

namespace Handed

variable {g : Nat} {s u v : State}

theorem refl (g : Nat) (s : State) : Handed g s s := ⟨rfl, _, _, rfl⟩

theorem trans (h : Handed g s u) (k : Handed g u v) : Handed g s v := by
  obtain ⟨hc, c, w, ht⟩ := h
  obtain ⟨kc, c', w', kt⟩ := k
  exact ⟨kc.trans hc, c', w', by rw [kt, ht]⟩

theorem foldl {α : Type} {f : State → α → State} (hf : ∀ u a, Handed g u (f u a)) (l : List α) (s : State) :
    Handed g s (l.foldl f s) :=
  List.foldlRecOn (motive := Handed g s) l f (refl g s) fun _ hu a _ => hu.trans (hf _ a)

end Handed

theorem handOver_handed (g w : Nat) (s : State) : Handed g s (handOver g w s) := by
  unfold handOver
  dsimp only
  split
  · split
    · exact ⟨rfl, _, _, tileAt_setTileAt_self _ _ _⟩
    · exact .refl g s
  · exact .refl g s

theorem handAll_handed (g : Nat) (s : State) : Handed g s (handAll g s) :=
  .foldl (fun u (p : Nat × Window) => .foldl (fun u _ => handOver_handed g p.1 u) (List.range p.2.outq.length) u) _ s

/-- A tile at task level that hands over no packet of a word is cut where it stands. -/
theorem cutTile_at {g : Nat} {s : State} (hs : (s.tileAt g).sending = []) (hl : (s.tileAt g).level = .task) :
    (cutTile g s).cur = s.cur ∧ ((cutTile g s).tileAt g).cut.isSome = true ∧ ((cutTile g s).tileAt g).eS = (s.tileAt g).eS := by
  have written : Handed g s (s.writeBack g fun _ _ => true) := ⟨rfl, _, (s.tileAt g).wins, tileAt_setTileAt_self _ _ _⟩
  obtain ⟨hc, c, w, ht⟩ := written.trans (handAll_handed g _)
  have stands : ((handAll g (s.writeBack g fun _ _ => true)).tileAt g).endSending.abandonHandler =
      { s.tileAt g with cache := c, wins := w } := by
    rw [ht, Tile.endSending]
    simp only [hs, List.foldl_nil]
    unfold Tile.abandonHandler
    simp only [hl]
  unfold cutTile
  simp only [stands]
  split <;> exact ⟨hc, by simp, by simp⟩

/-! ## The words (R32 to R35, R160, R161, R168) -/

/-- S goes on in its own engine alone. -/
theorem passS_eq {t : Tile} (h : t.level = .task) : t.passS = { t with eS := t.eS.next (t.expLen t.eS) } := passS_task h

theorem atTail_eq (t : Tile) : Claims.atTail t = t.atTail := rfl

section Words

variable {s : State} (ha : SAlone s) (hl : s.tile.level = .task)

include ha hl

/-- A word of S that is alone may take effect. -/
theorem beginS_alone (k : SKind) (l : Bool) : beginS k l s = .ok ((), s) := by
  obtain ⟨⟨hr, ht⟩, hs⟩ := ha
  exact beginS_task hr hl (ht hl).1 (ht hl).2 fun _ => hs hl

theorem exec_poll (d : BitVec 6) : exec (.poll d) s = wrote s d (if bit s.tile.preq 0 = true then 1#64 else 0#64) := by
  show execPoll d s = _
  unfold execPoll
  rw [runS_ok (u := s.setTile (s.tile.putX d.toNat (gloved (if bit s.tile.preq 0 = true then 1#64 else 0#64))))
    (beginS_alone ha hl _ _) (by simp)]
  simp [wrote, passed]

theorem exec_yield_idle (hp : s.tile.pre = none) : exec .yield s = passed s s.tile :=
  runSOwn_ok (beginS_alone ha hl _ _) (by simp [hp])

/-- With a request pending the task is cut at the word after yield. -/
theorem exec_yield_cut (hp : s.tile.pre.isSome = true) :
    exec .yield s = .next (cutTile s.cur (s.setTile (s.tile.placeAll (s.tile.eS.next (s.tile.expLen s.tile.eS))))) := by
  have request : s.tile.pre ≠ none := Option.ne_none_iff_isSome.mpr hp
  have cuts : cutNow s.cur (s.setTile (s.tile.placeAll (s.tile.eS.next (s.tile.expLen s.tile.eS)))) =
      cutTile s.cur (s.setTile (s.tile.placeAll (s.tile.eS.next (s.tile.expLen s.tile.eS)))) := by
    refine if_pos ?_
    rw [State.setTile, tileAt_setTileAt_self]
    exact hp
  exact runSOwn_ok (beginS_alone ha hl _ _) (by simp [request, cuts])

theorem exec_tlbinv {a b : BitVec 6} {x y : BitVec 64} (hx : s.tile.getX a.toNat = gloved x) (hy : s.tile.getX b.toNat = gloved y) :
    exec (.tlbinv a b) s = passed s { s.tile with
        tlbinvs := s.tile.tlbinvs ++ [⟨s.tile.eS.pos, x, bit y 9, bit y 10, bits y 8 0, false⟩] } :=
  runSOwn_ok (beginS_alone ha hl _ _) (by simp [hl, readX_ok hx, readX_ok hy])

/-- A task with no JOIN ends at its tail. -/
theorem exec_tail_none (hj : s.tile.record.join = 0#64) :
    exec .tail s = .next ((s.setTile (Claims.atTail s.tile)).settleEnded s.cur) :=
  runSOwn_ok (beginS_alone ha hl _ _) (by simp [hj, atTail_eq])

/-- And one whose JOIN is memory that it may write. -/
theorem exec_tail_join {pa : Nat} {port : Bool} (hj : s.tile.record.join ≠ 0#64)
    (hr : Reaches s s.tile.record.join 8 Rights.store (.hbm pa 0 port)) :
    exec .tail s = .next ((s.setTile (Claims.atTail s.tile)).settleEnded s.cur) := by
  obtain ⟨halign, hcanon, -, hlands⟩ := hr
  have outside : inAperture s.tile.record.join = false := by
    obtain ⟨off, -, -, h⟩ | ⟨h, -⟩ := hlands
    · cases h
    · exact h
  have place : asJoinFault (placeOf s.tile.record.join Rights.store) s.tile.record.join s = .ok (.hbm pa 0 port, s) := by
    unfold asJoinFault; rw [placeOf_lands hl hlands]
  refine runSOwn_ok (beginS_alone ha hl _ _) ?_
  simp [hj, halign, hcanon hl, outside, place, atTail_eq]

/-- spawn reads the record, writes the dirty RC lines back and enqueues it. -/
theorem exec_spawn {a b : BitVec 6} {x y : BitVec 64} {l : List (BitVec 64)} {ps : Nat → Place} {die : Nat} {v : State}
    (hx : s.tile.getX a.toNat = gloved x) (hy : s.tile.getX b.toNat = gloved y) (h4 : l.length = 4) (h8 : x.toNat % 8 = 0)
    (hc : canonical x = true)
    (hp : ∀ i < 4, Reaches s (dwordFrom x i) 8 Rights.load (ps i) ∧ wordAt (ordered s x 4) (ps i) = gloved (l.getD i 0#64))
    (hd : (if bit y 63 = true then bits y 4 0 else s.cur / 16) = die) (h24 : die < 24) (hroom : (s.dieAt die).occ s.tile.side < 3840)
    (hv : (ordered s x 4).writeBack s.cur (fun _ l => !l.uo) = v) :
    ∃ z r, exec (.spawn a b) s = .next ((v.setDieAt die z).setTile (Tile.passS { v.tile with remote := r })) ∧
      z.occ s.tile.side = (s.dieAt die).occ s.tile.side + 1 ∧
      Queued z s.tile.side (bits (recOf l).code 1 0) (arrivals (s.dieAt die) s.tile.side) (recOf l) s.tile.widsplit := by
  have order : Recached s (ordered s x 4) := soOrder_recached _ _
  have written : Recached s v := hv ▸ order.trans (order.cur ▸ writeBack_recached _ _)
  have side : (ordered s x 4).tile.side = s.tile.side := by rw [order.tile]
  have release : releaseAt 3 s.cur (ordered s x 4) = v := hv
  rw [← written.dieAt] at hroom ⊢
  obtain ⟨z, enq, hocc, hq, -⟩ := enqueue_room hroom (bits (recOf l).code 1 0) (recOf l) s.tile.widsplit
  have onDie : (bit y 63 && decide (24 ≤ bits y 4 0)) = false := by
    cases h : bit y 63
    · rfl
    · rw [h, if_pos rfl] at hd
      simpa [hd] using h24
  have spawned : spawnTo die (recOf l) x v = .ok ((), v.setDieAt die z) := by
    have t : v.tile.side = s.tile.side ∧ v.tile.widsplit = s.tile.widsplit := by rw [written.tile]; exact ⟨rfl, rfl⟩
    simp only [spawnTo, eff_bind, getTile_apply, getsState_apply, t, enq, modState_apply]
  refine ⟨z, v.tile.remote.filter fun r => !(decide (r.eng = .S) && decide (r.idx = (ordered s x 4).tile.eS.pos)), ?_, hocc, hq⟩
  show execSpawn a b s = _
  unfold execSpawn
  rw [runSHold_ok (beginS_alone ha hl _ _) (u := (v.setDieAt die z).setTile { v.tile with
    remote := v.tile.remote.filter fun r => !(decide (r.eng = .S) && decide (r.idx = (ordered s x 4).tile.eS.pos)) })]
  · simp
  · simp only [eff_bind, readX_ok hx, readX_ok hy, checkAddr_ok (fun _ => hc) h8, onDie, raiseIf_false, curTile_apply,
      recordAt_ok hl h4 hp, getTile_apply, modState_apply, release, hd, spawned, doneRemote, modTile_apply, eff_pure]
    rfl

end Words

end Sys2Proof.Machine

namespace Sys2Proof.Proofs

open Sys2Proof.Machine Sys2Proof.Claims

/-- Settles O14: each word takes effect at once where nothing holds it; what spawn's release writes is read back line by line. -/
theorem taskWordResult : Obligations.TaskWordResult := by
  intro d a b x y p s ha hl
  refine ⟨exec_poll ha hl d, exec_yield_idle ha hl, fun hp hsend => ⟨_, exec_yield_cut ha hl hp, ?_⟩, exec_tail_none ha hl,
    fun pa port hj hr hpl => exec_tail_join ha hl hj (hpl ▸ hr), fun hx hy => ⟨exec_tlbinv ha hl hx hy, ?_⟩⟩
  · have tile : (s.setTile (s.tile.placeAll (s.tile.eS.next (s.tile.expLen s.tile.eS)))).tileAt s.cur =
        s.tile.placeAll (s.tile.eS.next (s.tile.expLen s.tile.eS)) := tileAt_setTileAt_self _ _ _
    obtain ⟨hc, hcut, hS⟩ := cutTile_at (g := s.cur) (by rw [tile]; exact hsend) (by rw [tile]; exact hl)
    rw [tile] at hS
    rw [State.tile, hc]
    exact ⟨hcut, hS⟩
  · intro l ps h4 h8 hcan hps die h24 hroom
    obtain ⟨v, hv⟩ : ∃ v, (ordered s x 4).writeBack s.cur (fun _ l => !l.uo) = v := ⟨_, rfl⟩
    obtain ⟨z, r, e, hocc, u, hu, hside, hlevel, -, hrecs, hslots, hgang, hws⟩ :=
      exec_spawn ha hl hx hy h4 h8 hcan hps rfl h24 hroom hv
    have order : Recached s (ordered s x 4) := soOrder_recached _ _
    have written : Recached s v := hv ▸ order.trans (order.cur ▸ writeBack_recached _ _)
    have onTask : v.tile.level = .task := by rw [written.tile]; exact hl
    have passes := passS_eq (t := { v.tile with remote := r }) onTask
    have lines : v.tile.cache = (writeBackLines (fun _ l => !l.uo) (ordered s x 4).tile.cache (ordered s x 4).mem).1 ∧
        v.mem = (writeBackLines (fun _ l => !l.uo) (ordered s x 4).tile.cache (ordered s x 4).mem).2 := by
      rw [← hv, ← order.cur]
      exact ⟨congrArg Tile.cache (tile_setTile _ _), rfl⟩
    refine ⟨_, e, ?_, ⟨u, ?_, hrecs, hside, hlevel, hws, hslots, hgang⟩,
      ⟨?_, ?_, fun k q hsort hm huo hlen i hi hdirty => ?_⟩, ?_⟩
    · rw [dieAt_setTile, dieAt_setDieAt_self]; exact hocc
    · rw [dieAt_setTile, dieAt_setDieAt_self]; exact hu
    · rw [hv]; rfl
    · rw [tile_setTile, passes]
      intro q hq huo
      exact writeBackLines_selected_clean _ _ _ q (lines.1 ▸ hq) (by simp [huo])
    · show v.mem.read _ = _
      rw [lines.2]
      have word : q.words[i]? = some (q.words.getD i GWord.zero) := by
        rw [List.getD_eq_getElem _ _ (hlen ▸ hi), List.getElem?_eq_getElem]
      exact read_writeBackLines_dirty _ hsort hm (by simp [huo]) hdirty word _
    · rw [tile_setTile, passes, written.tile]; rfl

end Sys2Proof.Proofs
end

section
/-!
PROOFS. The steps of a tile's engines (R53 to R65, R93, R348): the word that an engine fetches, what it does at a word, what the head of the
agenda comes to, and what each event of an engine answers, from which O55 and O42 are assembled.
-/

namespace Sys2Proof.Machine

open Sys2Proof.Claims

/-! ## The word an engine is at (R53, R65, R93) -/

/-- The pair entered last under a number is the one found there. -/
theorem find_mapPut {α : Type} (m : SMap α) (n : Nat) (w : α) : (mapPut m n w).find? (fun p => decide (p.1 = n)) = some (n, w) := by
  induction m with
  | nil => simp [mapPut]
  | cons p m ih =>
    obtain ⟨k, v⟩ := p
    by_cases h : n = k
    · simp [mapPut, h]
    · by_cases h' : n < k <;> simp [mapPut, h, h', Ne.symm h, ih]

/-- `u` is `s` as tile `g` moves in it, but for the instruction cache of that tile. -/
structure Fetched (s : State) (g : Nat) (u : State) : Prop where
  cur : u.cur = g
  tile : ∃ c, u.tile = { s.tileAt g with icache := c }
  dies : u.dies = s.dies

/-- A fetch of an address that the tables allow finds its place. -/
theorem fetchPhys_ok {s : State} {g pa d off : Nat} {a : BitVec 64} (h : FetchAddr s g a pa) (ht : targetOf pa = .hbm d off)
    (hv : accessVerdict s (classSV (s.tileAt g)) (g / 16) pa Rights.fetch = .ok) :
    fetchPhys a { s with cur := g } = .ok (pa, { s with cur := g }) := by
  have tile : ({ s with cur := g } : State).tile = s.tileAt g := rfl
  have verdict : accessVerdict { s with cur := g } = accessVerdict s := accessVerdict_congr rfl
  have root : ({ s with cur := g } : State).root = s.root := rfl
  unfold FetchAddr at h
  cases hl : (s.tileAt g).level with
  | supervisor =>
    simp only [hl] at h
    subst h
    simp [fetchPhys, tile, hl, ht, verdict, hv]
  | task =>
    simp only [hl] at h
    obtain ⟨hc, hr, l, hf, hp, rfl⟩ := h
    simp [fetchPhys, tile, hl, hc, translate, root, hr, hf, hp, ht, verdict, hv]

/-- An engine in the text fetches its word, and changes nothing but the instruction cache. -/
theorem engineWord_fetches {s u : State} {g : Nat} {e : Eng} {w : BitVec 32} (h : Fetches s g e w u) :
    engineWord e { s with cur := g } = .ok (w, u) ∧ Fetched s g u := by
  obtain ⟨hx, pa, d, off, dw, ha, ht, hv, rfl, ⟨hp, rfl⟩ | ⟨hp, hm, rfl⟩⟩ := h
  all_goals
    have tile : ({ s with cur := g } : State).tile = s.tileAt g := rfl
    have phys := fetchPhys_ok ha ht hv
  · refine ⟨?_, rfl, ⟨_, rfl⟩, rfl⟩
    simp [engineWord, tile, hx, fetchAt, phys, hp]
  · have fill : icacheFill g pa { s with cur := g } = State.setTileAt { s with cur := g } g
        { s.tileAt g with icache := icacheKeep (s.tileAt g).icache (pa / 8) ⟨some dw⟩ } := by
      simp only [icacheFill, hm, checkWord_gloved]
      rfl
    have found : Tile.pair { s.tileAt g with icache := icacheKeep (s.tileAt g).icache (pa / 8) ⟨some dw⟩ } pa = some ⟨some dw⟩ := by
      simp only [Tile.pair, icacheKeep, find_mapPut, Option.map_some]
    have filled : (State.setTileAt { s with cur := g } g
        { s.tileAt g with icache := icacheKeep (s.tileAt g).icache (pa / 8) ⟨some dw⟩ }).tile = _ := tileAt_setTileAt_self _ _ _
    refine ⟨?_, rfl, ⟨_, filled⟩, rfl⟩
    simp [engineWord, tile, hx, fetchAt, phys, hp, fill, filled, found]

/-- An engine in an expansion has its word of the control store. -/
theorem engineWord_expands {s u : State} {g : Nat} {e : Eng} {w : BitVec 32} (h : Expands s g e w u) :
    engineWord e { s with cur := g } = .ok (w, u) ∧ Fetched s g u := by
  obtain ⟨x, hx, rfl, rfl⟩ := h
  have tile : ({ s with cur := g } : State).tile = s.tileAt g := rfl
  refine ⟨?_, rfl, ⟨_, rfl⟩, rfl⟩
  simp [engineWord, tile, hx]

namespace Fetched

variable {s u : State} {g : Nat} (h : Fetched s g u)

include h

/-- What does not read the instruction cache is as it was. -/
theorem same {α : Type} (f : Tile → α) (hf : ∀ t c, f { t with icache := c } = f t) : f u.tile = f (s.tileAt g) := by
  obtain ⟨c, ht⟩ := h.tile
  rw [ht, hf]

theorem eng (e : Eng) : u.tile.eng e = (s.tileAt g).eng e := h.same (·.eng e) fun _ _ => by cases e <;> rfl

theorem level : u.tile.level = (s.tileAt g).level := h.same (·.level) fun _ _ => rfl

theorem tileAt : u.tileAt g = u.tile := by rw [State.tile, h.cur]

theorem setTile (t : Tile) : u.setTile t = u.setTileAt g t := by rw [State.setTile, h.cur]

end Fetched

/-! ## What an engine does at a word (R53, R58, R60, R114) -/

section EngineInstr

variable {g : Nat} {e owner : Eng} {i : Instr}

theorem popsOutcome_of_put (h : putEngine i = some e) : popsOutcome i = false := by
  unfold putEngine at h
  split at h
  · rfl
  · rfl
  · rfl
  · cases h

theorem engineInstr_own (h : owner = e) : engineInstr g e owner i = i := if_pos h

theorem engineInstr_joint (h : owner ≠ e) (hs : owner = .S) (hp : popsOutcome i = true) :
    engineInstr g e owner i = .jointOutcomePop g e := by
  simp [engineInstr, hs ▸ h, hs, hp]

theorem engineInstr_put (h : owner ≠ e) (hs : owner = .S) (hp : putEngine i = some e) :
    engineInstr g e owner i = .operandQueuePop g e := by
  simp [engineInstr, hs ▸ h, hs, hp, popsOutcome_of_put hp]

theorem engineInstr_over (h : owner ≠ e) (hn : owner = .S → popsOutcome i = false ∧ putEngine i ≠ some e) :
    engineInstr g e owner i = .wordStepOver g e := by
  unfold engineInstr
  rw [if_neg h, if_neg fun k => by simp [(hn k.1).1] at k, if_neg fun k => (hn k.1).2 k.2]

end EngineInstr

/-! ## A step of the agenda (R55, R348) -/

theorem step_event {s : State} {i : Instr} {rest : List Move} (h : s.agenda = .event i :: rest) :
    step s = exec i { s with agenda := rest } := by
  simp only [step, h, perform, planMove]

theorem step_engine_run {s u : State} {g : Nat} {e : Eng} {rest : List Move} {i : Instr} (ha : s.agenda = .engine g e :: rest)
    (hp : planEngine g e { s with agenda := rest } = .run i u) : step s = exec i u := by
  simp only [step, ha, perform, planMove, hp]

theorem step_engine_done {s : State} {g : Nat} {e : Eng} {rest : List Move} {o : Host.Outcome State Fault Refusal}
    (ha : s.agenda = .engine g e :: rest) (hp : planEngine g e { s with agenda := rest } = .done o) : step s = o := by
  simp only [step, ha, perform, planMove, hp]

theorem mayFetch_of {s : State} {g : Nat} {e : Eng} (h : MayFetch s g e) : mayFetch e (s.tileAt g) = true := by
  obtain ⟨hr, he⟩ := h
  simpa [mayFetch, hr] using he

section Plan

variable {s u : State} {g : Nat} {e : Eng} {w : BitVec 32} (hm : MayFetch s g e) (hw : engineWord e { s with cur := g } = .ok (w, u))

include hm hw

theorem planEngine_decoded {i : Instr} (hd : decode w = .ok i) : planEngine g e s =
    if wordEngine w ≠ e ∧ u.tile.level = .supervisor then .done (runIllegal e u) else .run (engineInstr g e (wordEngine w) i) u := by
  have tile : ({ s with cur := g } : State).tile = s.tileAt g := rfl
  simp [planEngine, tile, mayFetch_of hm, hw, hd]

theorem planEngine_illegal {r : DecodeError} (hd : decode w = .error r) : planEngine g e s =
    if wordEngine w = e ∨ u.tile.level = .supervisor then .done (runIllegal e u) else .run (.wordStepOver g e) u := by
  have tile : ({ s with cur := g } : State).tile = s.tileAt g := rfl
  simp [planEngine, tile, mayFetch_of hm, hw, hd]

end Plan

/-! ## Steps of a tile's engines -/

theorem onTile_ok {g : Nat} {e : Eng} {body : Eff Unit} {s u : State} (h : body { s with cur := g } = .ok ((), u)) :
    onTile g e body s = .next u := by
  simp only [onTile, eff_run, h, finish]

/-- The trap of an engine other than S is taken once every word below it has passed its trap point. -/
theorem onTile_trap {g : Nat} {e : Eng} {body : Eff Unit} {s : State} {i : TrapInfo} {l : List LogReq}
    (h : body { s with cur := g } = .error (.trap i l)) (he : e ≠ .S) (hp : ((s.tileAt g).eng e).pos ≤ (s.tileAt g).minPos) :
    onTile g e body s = .next (preciseTrap e i l { s with cur := g }) := by
  have tile : ({ s with cur := g } : State).tile = s.tileAt g := rfl
  simp only [onTile, eff_run, h, tile, Nat.not_lt.mpr hp, and_false, if_false]
  exact finish_trap (.inr (.inl he))

/-- An engine in the text that passes its word stands at the next one. -/
theorem pass_after {t : Tile} {e : Eng} (h : (t.eng e).exp = none) : t.pass e = t.setEng e (after (t.eng e) ((t.eng e).pc + 4#64)) :=
  pass_text h

theorem hasPart_eq_false {e : Eng} {w : BitVec 32} (hw : wordEngine w ≠ e)
    (hn : ∀ i, decode w = .ok i → wordEngine w = .S → popsOutcome i = false ∧ putEngine i ≠ some e) : hasPart e w = false := by
  unfold hasPart
  cases hd : decode w with
  | error r => simp [hw]
  | ok i => simp [hw, engineInstr_over hw (hn i hd)]

theorem stepOver_behind {e : Eng} {s : State} (he : e ≠ .S) (hr : s.tile.runs = true) (hl : s.tile.level = .task)
    (hp : (s.tile.eng e).pos < s.tile.eS.pos) : stepOver e s = .ok ((), s.setTile (s.tile.pass e)) := by
  cases e with
  | S => exact absurd rfl he
  | V | M | D => simp [stepOver, hr, hl, hp]

theorem stepOver_S {s : State} (hr : s.tile.runs = true) (hl : s.tile.level = .task) (ha : s.tile.accFault = none)
    (hp : s.tile.eS.pos - s.tile.minPos < s.tile.win.toNat) : stepOver .S s = .ok ((), s.setTile (s.tile.pass .S)) := by
  simp [stepOver, Tile.raiseAcc, hr, hl, ha, hp]

theorem mayFetch_of_behind {s : State} {g : Nat} {e : Eng} (h : Behind s g e) : MayFetch s g e := ⟨h.2.1, .inr h.2.2⟩

theorem eng_setOq (t : Tile) (e f : Eng) (q : List (Nat × GWord)) : (t.setOq e q).eng f = t.eng f := by
  cases e <;> cases f <;> rfl

theorem eng_putReg (i : Instr) (c : GWord) (t : Tile) (e : Eng) : (putReg i c t).eng e = t.eng e := by
  unfold putReg
  split
  · split <;> cases e <;> rfl
  · cases e <;> rfl
  · split <;> cases e <;> rfl
  · rfl

theorem guardField_toNat (w : BitVec 32) : (guardField w).toNat = w.toNat / 2 ^ 21 % 16 := by
  rw [guardField, BitVec.extractLsb'_toNat, Nat.shiftRight_eq_div_pow]

/-! ## The instruction cache (R93) -/

/-- A pair that the tile may fetch is entered: without error, or marked. -/
theorem exec_icacheFill {s : State} {g pa d off : Nat} (ht : targetOf (pa / 8 * 8) = .hbm d off)
    (hv : accessVerdict s (classSV (s.tileAt g)) (g / 16) (pa / 8 * 8) Rights.fetch = .ok) :
    exec (.icacheFill g pa) s = .next (icacheFill g (pa / 8 * 8) s) := by
  show execIcacheFill g pa s = _
  simp only [execIcacheFill, ht, hv, if_true]

section Fill

variable {s : State} (g pa : Nat)

theorem icacheFill_gloved {x : BitVec 64} (h : s.mem.read (pa / 8 * 8) = gloved x) : icacheFill g (pa / 8 * 8) s =
    s.setTileAt g { s.tileAt g with icache := icacheKeep (s.tileAt g).icache (pa / 8) ⟨some x⟩ } := by
  simp only [icacheFill, h, checkWord_gloved, Nat.mul_div_cancel _ (Nat.succ_pos 7), Bool.false_eq_true, if_false]

theorem icacheFill_bad (h : checkWord (s.mem.read (pa / 8 * 8)) = .bad) : icacheFill g (pa / 8 * 8) s =
    s.setTileAt g { s.tileAt g with icache := icacheKeep (s.tileAt g).icache (pa / 8) ⟨none⟩ } := by
  simp only [icacheFill, h, Nat.mul_div_cancel _ (Nat.succ_pos 7)]

end Fill

/-! ## The events of an engine -/

section Events

variable {s u : State} {g : Nat} {e : Eng} {w : BitVec 32} (hf : Fetches s g e w u)

include hf

/-- The engine that passes its word with the tile `t`, whose place is as it was, goes on in the text. -/
theorem setTile_pass {t : Tile} (he : t.eng e = (s.tileAt g).eng e) : Host.Outcome.next (u.setTile (t.pass e)) =
    placed u g e t (after ((s.tileAt g).eng e) (((s.tileAt g).eng e).pc + 4#64)) := by
  obtain ⟨-, fetched⟩ := engineWord_fetches hf
  have text : (t.eng e).exp = none := he ▸ hf.1
  rw [pass_after text, fetched.setTile, he]
  rfl

/-- An engine that steps over its word goes on in the text. -/
theorem exec_wordStepOver_of (hm : MayFetch s g e) (hn : hasPart e w = false) (hs : stepOver e u = .ok ((), u.setTile (u.tile.pass e))) :
    exec (.wordStepOver g e) s = placed u g e (u.tileAt g) (after ((s.tileAt g).eng e) (((s.tileAt g).eng e).pc + 4#64)) := by
  obtain ⟨hw, fetched⟩ := engineWord_fetches hf
  have tile : ({ s with cur := g } : State).tile = s.tileAt g := rfl
  refine (onTile_ok (u := u.setTile (u.tile.pass e)) ?_).trans ?_
  · simp [tile, mayFetch_of hm, hw, hn, hs]
  · rw [setTile_pass hf (fetched.eng e), fetched.tileAt]

theorem exec_wordStepOver_behind (hb : Behind s g e) (hn : hasPart e w = false) : exec (.wordStepOver g e) s =
    placed u g e (u.tileAt g) (after ((s.tileAt g).eng e) (((s.tileAt g).eng e).pc + 4#64)) := by
  obtain ⟨-, fetched⟩ := engineWord_fetches hf
  have may := mayFetch_of_behind hb
  obtain ⟨he, hr, hl, hp⟩ := hb
  refine exec_wordStepOver_of hf may hn (stepOver_behind he ?_ (fetched.level.trans hl) ?_)
  · exact (fetched.same Tile.runs fun _ _ => rfl).trans hr
  · rw [fetched.eng, fetched.same Tile.eS fun _ _ => rfl]
    exact hp

/-- At a joint word an engine takes the outcome pushed at its index (R57, R58). -/
theorem exec_jointOutcomePop {i : Instr} {o : BrOut} {q : List (Nat × BrOut)} (hb : Behind s g e) (hd : decode w = .ok i)
    (hp : popsOutcome i = true) (hq : (s.tileAt g).bo e = (((s.tileAt g).eng e).pos, o) :: q) (h0 : s.dmode (g / 16) = 0) :
    exec (.jointOutcomePop g e) s = placed u g e ((u.tileAt g).setBo e q) (goOn o w ((s.tileAt g).eng e)) := by
  obtain ⟨hw, fetched⟩ := engineWord_fetches hf
  have tile : ({ s with cur := g } : State).tile = s.tileAt g := rfl
  have queue : u.tile.bo e = (((s.tileAt g).eng e).pos, o) :: q := (fetched.same (·.bo e) fun _ _ => by cases e <;> rfl).trans hq
  have untraced (t : Tile) (n : Nat) (v : BitVec 64) : (u.setTile t).traceRec g 0 n v = u.setTile t := by
    have mode : (u.setTile t).dmode (g / 16) = 0 := by
      rw [← h0]; unfold State.dmode State.dieReg State.dieAt; rw [setTile_dies, fetched.dies]
    rw [State.traceRec, if_pos mode]
  refine (onTile_ok (u := u.setTile ((u.tile.setBo e q).setEng e (goOn o w (u.tile.eng e)))) ?_).trans ?_
  · simp [tile, hb.1, mayFetch_of (mayFetch_of_behind hb), hw, hd, hp, queue, fetched.eng, untraced]
  · rw [fetched.setTile, fetched.eng, fetched.tileAt]
    rfl

section Reached

variable (hb : Behind s g e) (hp : ((s.tileAt g).eng e).pos ≤ (s.tileAt g).minPos)

include hb hp

omit hf in
/-- A word of the engine may take effect. -/
theorem beginE_behind : beginE e { s with cur := g } = .ok ((), { s with cur := g }) := by
  obtain ⟨-, hr, hl, hs⟩ := hb
  exact beginE_ok hr hl hs hp

/-- At its `put` an engine takes the operand pushed at its index (R60, R61). -/
theorem exec_operandQueuePop {i : Instr} {c : GWord} {q : List (Nat × GWord)} (hd : decode w = .ok i) (hi : putEngine i = some e)
    (hq : (s.tileAt g).oq e = (((s.tileAt g).eng e).pos, c) :: q) : exec (.operandQueuePop g e) s =
    placed u g e (putReg i c ((u.tileAt g).setOq e q)) (after ((s.tileAt g).eng e) (((s.tileAt g).eng e).pc + 4#64)) := by
  obtain ⟨hw, fetched⟩ := engineWord_fetches hf
  have queue : u.tile.oq e = (((s.tileAt g).eng e).pos, c) :: q := (fetched.same (·.oq e) fun _ _ => by cases e <;> rfl).trans hq
  have place : (putReg i c (u.tile.setOq e q)).eng e = (s.tileAt g).eng e := by
    rw [eng_putReg, eng_setOq, fetched.eng]
  refine (onTile_ok (u := u.setTile ((putReg i c (u.tile.setOq e q)).pass e)) ?_).trans ?_
  · simp [hb.1, beginE_behind hb hp, hw, hd, hi, queue, fetched.eng]
  · rw [setTile_pass hf place, fetched.tileAt]

variable (hw : wordEngine w = e)

include hw

theorem exec_guardResolve_false {i : Instr} (hd : decode w = .ok i)
    (hg : (s.tileAt g).predAt (guardField w).toNat ((s.tileAt g).eng e).pos = false) : exec (.guardResolve g e) s =
    placed u g e (u.tileAt g) (after ((s.tileAt g).eng e) (((s.tileAt g).eng e).pc + 4#64)) := by
  obtain ⟨word, fetched⟩ := engineWord_fetches hf
  have guard : u.tile.predAt (guardField w).toNat ((s.tileAt g).eng e).pos = false :=
    (fetched.same (·.predAt (guardField w).toNat ((s.tileAt g).eng e).pos) fun _ _ => rfl).trans hg
  refine (onTile_ok (u := u.setTile (u.tile.pass e)) ?_).trans ?_
  · simp [hb.1, beginE_behind hb hp, word, hd, hw, fetched.eng, guard]
  · rw [setTile_pass hf (fetched.eng e), fetched.tileAt]

theorem exec_guardResolve_true {i : Instr} (hd : decode w = .ok i)
    (hg : (s.tileAt g).predAt (guardField w).toNat ((s.tileAt g).eng e).pos = true) : exec (.guardResolve g e) s = .next u := by
  obtain ⟨word, fetched⟩ := engineWord_fetches hf
  have guard : u.tile.predAt (guardField w).toNat ((s.tileAt g).eng e).pos = true :=
    (fetched.same (·.predAt (guardField w).toNat ((s.tileAt g).eng e).pos) fun _ _ => rfl).trans hg
  refine onTile_ok ?_
  simp [hb.1, beginE_behind hb hp, word, hd, hw, fetched.eng, guard]

theorem exec_guardResolve_illegal {r : DecodeError} (hd : decode w = .error r) : exec (.guardResolve g e) s =
    .next (preciseTrap e ⟨cILL, 0, ((s.tileAt g).eng e).pc, none⟩ [] { s with cur := g }) := by
  obtain ⟨word, fetched⟩ := engineWord_fetches hf
  refine onTile_trap ?_ hb.1 hp
  simp [hb.1, beginE_behind hb hp, word, hd, hw, fetched.eng, wordAddr]

end Reached

end Events

end Sys2Proof.Machine

namespace Sys2Proof.Proofs

open Sys2Proof.Machine Sys2Proof.Claims

/-- Settles O55: the word of the engine at the head is found, and what the engine plans at it is performed. -/
theorem stepRunsDecodedInstruction : Obligations.StepRunsDecodedInstruction := by
  intro g e w rest u s
  refine ⟨fun i ha => step_event ha, fun ha hm hf => ?_⟩
  obtain ⟨hw, fetched⟩ := hf.elim engineWord_fetches engineWord_expands
  have level : u.tile.level = (s.tileAt g).level := fetched.level
  have may : MayFetch { s with agenda := rest } g e := hm
  have task (h : (s.tileAt g).level = .task) : u.tile.level ≠ .supervisor := by rw [level, h]; exact Level.noConfusion
  refine ⟨fun i hd => ?_, fun r hd => ?_⟩
  · have plan := planEngine_decoded may hw hd
    have runs (h : wordEngine w = e ∨ (s.tileAt g).level = .task) : step s = exec (engineInstr g e (wordEngine w) i) u :=
      step_engine_run ha (plan.trans (if_neg fun k => h.elim k.1 fun hl => task hl k.2))
    refine ⟨fun h => ?_, fun h hl => ?_, fun h hl hs hp => ?_, fun h hl hs hp => ?_, fun h hl hn => ?_⟩
    · rw [runs (.inl h), engineInstr_own h]
    · exact step_engine_done ha (plan.trans (if_pos ⟨h, level.trans hl⟩))
    · rw [runs (.inr hl), engineInstr_joint h hs hp]
    · rw [runs (.inr hl), engineInstr_put h hs hp]
    · rw [runs (.inr hl), engineInstr_over h hn]
  · have plan := planEngine_illegal may hw hd
    refine ⟨fun h => ?_, fun h hl => ?_⟩
    · exact step_engine_done ha (plan.trans (if_pos (h.imp_right level.trans)))
    · exact step_engine_run ha (plan.trans (if_neg (not_or.mpr ⟨h, task hl⟩)))

/-- Settles O42: each event fetches the word and then does what the word asks of the engine. -/
theorem engineEventResult : Obligations.EngineEventResult := by
  refine ⟨?_, ?_, fun _ _ _ _ _ _ _ => rfl⟩
  · intro g e w u s t x v hf
    refine ⟨fun hw hn => ?_, ?_, ?_, ?_, fun hb hp hw => ?_⟩
    · have part := hasPart_eq_false hw hn
      refine ⟨fun hb => exec_wordStepOver_behind hf hb part, ?_⟩
      rintro rfl hr hl ha hwin
      obtain ⟨-, fetched⟩ := engineWord_fetches hf
      refine exec_wordStepOver_of hf ⟨hr, .inl rfl⟩ part (stepOver_S ?_ (fetched.level.trans hl) ?_ ?_)
      · exact (fetched.same Tile.runs fun _ _ => rfl).trans hr
      · exact (fetched.same Tile.accFault fun _ _ => rfl).trans ha
      · rw [fetched.same Tile.eS fun _ _ => rfl, fetched.same Tile.minPos fun _ _ => rfl, fetched.same Tile.win fun _ _ => rfl]
        exact hwin
    · intro i o q hb hd hp hq h0 r off
      have pop := exec_jointOutcomePop hf hb hd hp hq h0
      refine ⟨?_, ?_, ?_, ?_⟩
      · rintro rfl; exact pop
      · rintro (rfl | rfl) <;> exact pop
      · rintro a rfl; exact pop
      · rintro k a b c rfl; exact pop
    · intro d a c q hb hp hq r took
      refine ⟨?_, ?_⟩ <;> rintro rfl hd <;> exact exec_operandQueuePop hf hb hp hd rfl hq
    · rintro d a c q hb hp hq rfl hd
      have same : v.c = t.c := by
        obtain ⟨-, fetched⟩ := engineWord_fetches hf
        exact (congrArg Tile.c fetched.tileAt).trans (fetched.same Tile.c fun _ _ => rfl)
      rw [← same]
      exact exec_operandQueuePop hf hb hp hd rfl hq
    · rw [← guardField_toNat]
      exact ⟨fun i hd => exec_guardResolve_false hf hb hp hw hd, fun i hd => exec_guardResolve_true hf hb hp hw hd,
        fun r hd => exec_guardResolve_illegal hf hb hp hw hd⟩
  · intro g pa d off s t a ht hv
    refine ⟨fun x hx => ?_, fun hx => ?_⟩
    · rw [exec_icacheFill ht hv, icacheFill_gloved g pa hx]
    · rw [exec_icacheFill ht hv, icacheFill_bad g pa hx]

end Sys2Proof.Proofs
end

section
/-!
PROOFS. Control flow of S (R58, R151 to R155), its exchange with the other engines (R60 to R64, R156, R157) and microprograms (R65, R158,
R159): the outcome that a word pushes, a load of one item, and the image of a control-store entry, from which O8, O9 and O10 are assembled.
-/

namespace Sys2Proof.Machine

open Sys2Proof.Claims

@[simp] theorem eff_map {α β : Type} (f : α → β) (m : Eff α) (s : State) : (f <$> m) s = match m s with
      | .ok (a, u) => .ok (f a, u)
      | .error e => .error e := by
  rw [← bind_pure_comp, eff_bind]; rfl

/-! ## When S may perform a word (R55, R56, R353) -/

section Begin

variable {s : State}

theorem beginS_ready (h : SReady s) : beginS .slip true s = .ok ((), s) := by
  obtain ⟨hr, ht⟩ := h
  cases hl : s.tile.level with
  | supervisor => exact beginS_supervisor hr hl
  | task => exact beginS_task hr hl (ht hl).1 (ht hl).2 fun k => nomatch k

theorem beginS_ready_task (h : SReady s) (hl : s.tile.level = .task) (l : Bool) : beginS .slip l s = .ok ((), s) :=
  beginS_task h.1 hl (h.2 hl).1 (h.2 hl).2 fun k => nomatch k

/-- No word below S's keeps a trap of S waiting. -/
theorem alone_traps (h : SAlone s) : s.tile.level = .supervisor ∨ Eng.S ≠ .S ∨ s.tile.settled = true := by
  cases hl : s.tile.level with
  | supervisor => exact .inl rfl
  | task => exact .inr (.inr (h.2 hl))

theorem runS_trap {k : SKind} {l : Bool} {body : Eff Unit} {i : TrapInfo} {logs : List LogReq} (ha : SAlone s)
    (h : beginS k l s = .ok ((), s)) (hb : body s = .error (.trap i logs)) : runS k l body s = .next (preciseTrap .S i logs s) := by
  simp only [runS, eff_run, eff_bind, h, hb]
  exact finish_trap (alone_traps ha)

theorem runSJump_trap {k : SKind} {l : Bool} {body : Eff (BitVec 64)} {i : TrapInfo} {logs : List LogReq} (ha : SAlone s)
    (h : beginS k l s = .ok ((), s)) (hb : body s = .error (.trap i logs)) : runSJump k l body s = .next (preciseTrap .S i logs s) := by
  simp only [runSJump, eff_run, eff_bind, h, hb]
  exact finish_trap (alone_traps ha)

end Begin

/-! ## The tile that moves, and all else as it was -/

/-- `v` is `s` with `t` for the tile that moves. -/
structure Holds (s : State) (t : Tile) (v : State) : Prop where
  tile : v.tile = t
  setTile : ∀ x, v.setTile x = s.setTile x

namespace Holds

variable {s v : State} {t : Tile}

theorem refl (s : State) : Holds s s.tile s := ⟨rfl, fun _ => rfl⟩

theorem write (h : Holds s t v) (x : Tile) : Holds s x (v.setTile x) :=
  ⟨tile_setTile v x, fun y => (setTile_setTile v x y).trans (h.setTile y)⟩

end Holds

theorem pushed_eS (t : Tile) (o : BrOut) : (pushed t o).eS = t.eS := by
  unfold pushed; split <;> rfl

/-- S pushes an outcome where the queues have room (R58). -/
theorem pushOutcome_ok {s : State} (h : RoomOut s) (o : BrOut) : ∃ v, pushOutcome o s = .ok ((), v) ∧ Holds s (pushed s.tile o) v := by
  cases hl : s.tile.level with
  | supervisor =>
    have same : pushed s.tile o = s.tile := by simp only [pushed, hl]
    refine ⟨s, by simp [pushOutcome, hl], ?_⟩
    rw [same]; exact .refl s
  | task =>
    obtain ⟨hv, hm, hd⟩ := h hl
    refine ⟨_, ?_, (Holds.refl s).write _⟩
    simp [pushOutcome, pushed, hl, hv, hm, hd]

@[simp] theorem wordAddr_apply (e : Eng) (s : State) : wordAddr e s = .ok ((s.tile.eng e).pc, s) := rfl

@[simp] theorem eng_S (t : Tile) : t.eng .S = t.eS := rfl

theorem runSJump_jumped {s v : State} {t : Tile} {body : Eff (BitVec 64)} {a : BitVec 64} (hr : SReady s) (hb : body s = .ok (a, v))
    (hv : Holds s t v) : runSJump .slip true body s = jumped s t a := by
  rw [runSJump_ok (beginS_ready hr) hb, hv.tile, hv.setTile, jumped]

theorem condHolds_ge (x y : BitVec 64) : condHolds .ge x y = decide (y.toInt ≤ x.toInt) := by
  simp [condHolds, BitVec.slt, ← decide_not]

theorem condHolds_geu (x y : BitVec 64) : condHolds .geu x y = decide (y.toNat ≤ x.toNat) := by
  simp [condHolds, BitVec.ult, ← decide_not]

/-! ## Branches and jumps (R151 to R155) -/

section Jumps

variable {s : State} (hr : SReady s) (ho : RoomOut s)

include hr ho

theorem branch_ok (c : Cond) {a b : BitVec 6} (o : BitVec 12) {x y : BitVec 64} (hx : s.tile.getX a.toNat = gloved x)
    (hy : s.tile.getX b.toNat = gloved y) : branch c a b o s = branched s (condHolds c x y) o := by
  obtain ⟨v, push, hv⟩ := pushOutcome_ok ho (.cond (condHolds c x y))
  refine runSJump_jumped hr ?_ hv
  simp [readX_ok hx, readX_ok hy, push, target12]

theorem branchPred_ok (sense : Bool) (k : BitVec 6) (o : BitVec 12) (hv : s.tile.eS.pos ≤ s.tile.eV.pos) :
    branchPred sense k o s = branched s (decide (s.tile.predAt k.toNat s.tile.eS.pos = sense)) o := by
  obtain ⟨v, push, hv'⟩ := pushOutcome_ok ho (.cond (decide (s.tile.predAt k.toNat s.tile.eS.pos = sense)))
  refine runSJump_jumped hr ?_ hv'
  simp [hv, push, target12]

theorem exec_loop {a : BitVec 6} (o : BitVec 12) {x : BitVec 64} (hx : s.tile.getX a.toNat = gloved x) : exec (.loop a o) s =
    jumped s ((pushed s.tile (.cond (decide (x - 1#64 ≠ 0#64)))).putX a.toNat (gloved (x - 1#64)))
      (if x - 1#64 ≠ 0#64 then s.tile.eS.pc + 4#64 * o.signExtend 64 else s.tile.eS.pc + 4#64) := by
  obtain ⟨v, push, hv⟩ := pushOutcome_ok ho (.cond (decide (x - 1#64 ≠ 0#64)))
  refine runSJump_jumped (v := v.setTile (v.tile.putX a.toNat (gloved (x - 1#64)))) hr ?_ (hv.tile ▸ hv.write _)
  simp only [eff_bind, readX_ok hx, wordAddr_apply, push, writeX_apply, eff_pure]
  rfl

theorem exec_j (o : BitVec 18) : exec (.j o) s =
    jumped s (pushed s.tile (.target (s.tile.eS.pc + 4#64 * o.signExtend 64))) (s.tile.eS.pc + 4#64 * o.signExtend 64) := by
  obtain ⟨v, push, hv⟩ := pushOutcome_ok ho (.target (s.tile.eS.pc + 4#64 * o.signExtend 64))
  refine runSJump_jumped hr ?_ hv
  simp [target18, push]

theorem exec_jal (d : BitVec 6) (o : BitVec 18) : exec (.jal d o) s =
    jumped s ((pushed s.tile (.target (s.tile.eS.pc + 4#64 * o.signExtend 64))).putX d.toNat (gloved (s.tile.eS.pc + 4#64)))
      (s.tile.eS.pc + 4#64 * o.signExtend 64) := by
  obtain ⟨v, push, hv⟩ := pushOutcome_ok ho (.target (s.tile.eS.pc + 4#64 * o.signExtend 64))
  refine runSJump_jumped (v := v.setTile (v.tile.putX d.toNat (gloved (s.tile.eS.pc + 4#64)))) hr ?_ (hv.tile ▸ hv.write _)
  simp [target18, push]

theorem exec_jalr (d : BitVec 6) {a : BitVec 6} {i : BitVec 12} {x : BitVec 64} (hx : s.tile.getX a.toNat = gloved x)
    (h4 : (x + i.signExtend 64).toNat % 4 = 0) : exec (.jalr d a i) s =
    jumped s ((pushed s.tile (.target (x + i.signExtend 64))).putX d.toNat (gloved (s.tile.eS.pc + 4#64))) (x + i.signExtend 64) := by
  obtain ⟨v, push, hv⟩ := pushOutcome_ok ho (.target (x + i.signExtend 64))
  refine runSJump_jumped (v := v.setTile (v.tile.putX d.toNat (gloved (s.tile.eS.pc + 4#64)))) hr ?_ (hv.tile ▸ hv.write _)
  simp only [eff_bind, readX_ok hx, sext12, h4, ne_eq, not_true_eq_false, decide_false, raiseIf_false, wordAddr_apply, eng_S, push,
    writeX_apply, eff_pure]

omit ho hr in
theorem exec_jalr_misaligned (ha : SAlone s) (d : BitVec 6) {a : BitVec 6} {i : BitVec 12} {x : BitVec 64}
    (hx : s.tile.getX a.toNat = gloved x) (h4 : (x + i.signExtend 64).toNat % 4 ≠ 0) :
    exec (.jalr d a i) s = .next (preciseTrap .S ⟨cALIGN, 0, x + i.signExtend 64, none⟩ [] s) := by
  refine runSJump_trap ha (beginS_ready ha.1) ?_
  simp only [eff_bind, readX_ok hx, sext12, h4, ne_eq, not_false_eq_true, decide_true, raiseIf_true]

end Jumps

/-! ## Loads that S performs in one access (R94 to R97, R132, R141) -/

/-- An access that lands goes to its place, at either level. -/
theorem placeOf_lands_both {s : State} {va : BitVec 64} {r : Rights} {p : Place} (h : Lands s va r p) : placeOf va r s = .ok (p, s) := by
  cases hl : s.tile.level with
  | task => exact placeOf_lands hl h
  | supervisor =>
    obtain ⟨off, hoff, hva, rfl⟩ | ⟨ha, pa, d, off, ⟨-, rfl⟩ | ⟨ht, -⟩, htarget, hv, rfl⟩ := h
    · have own : spadPlace s.cur (va.toNat % 2 ^ 32) = .own off := by
        rw [hva, show (0xFF80000000000000 + off) % 2 ^ 32 = off by omega, spadPlace, if_pos hoff]
      exact placeOf_own (by rw [inAperture, hva, decide_eq_true_eq]; omega) own
    · exact placeOf_supervisor ha hl htarget hv
    · rw [hl] at ht; cases ht

/-- The range of one place is its own span (R97). -/
theorem spanOf_placeRange (g : Nat) (p : Place) : spanOf ([p].flatMap (placeRange g)) = placeRange g p := by
  cases p with
  | spad k off => by_cases h : k = g <;> simp [placeRange, spanOf, h]
  | _ => rfl

/-- The range checker lets a load of S of any size that reaches its place go on. -/
theorem waitRange_load_size {s : State} {va : BitVec 64} {n : Nat} {p : Place} (h : Reaches s va n Rights.load p) :
    waitRange [p] false true s = .ok ((), s) := by
  obtain ⟨-, -, hb, -⟩ := h
  refine waitRange_ok ?_
  rw [spanOf_placeRange]
  exact hb

theorem loadReady_alone {s : State} (h : SAlone s) (vas : List (BitVec 64)) : s.loadReady vas = true := by
  cases hl : s.tile.level with
  | supervisor => simp [State.loadReady, hl]
  | task => simp [State.loadReady, h.2 hl]

/-- A load that reaches its place, with its access ordered (R101), reads the doubleword there. -/
theorem loadItem_reaches {s : State} {va : BitVec 64} {n : Nat} {p : Place} (ha : SAlone s) (h : Reaches s va n Rights.load p) :
    loadItem va n s = .ok (some (wordAt (s.soOrder [va]) p), s.soOrder [va]) := by
  have range := waitRange_load_size h
  obtain ⟨hn, hc, -, hl⟩ := h
  simp [loadItem, checkAddr_ok hc hn, placeOf_lands_both hl, range, waitLoad, loadReady_alone ha, loadAt, orderSO, loadWord_lands hl]

/-- The item of an access within its doubleword. -/
theorem itemOf_four (v ea : BitVec 64) : itemOf v ea 4 = v.toNat / 2 ^ (8 * (ea.toNat % 8)) % 2 ^ 32 := by
  rw [itemOf, bits, show 8 * (ea.toNat % 8) + 8 * 4 - 1 + 1 - 8 * (ea.toNat % 8) = 32 by omega]

/-! ## Tables of jumps (R154) -/

theorem roomOut_recached {s u : State} (h : RoomOut s) (k : Recached s u) : RoomOut u := by
  intro hl
  rw [k.tile] at hl ⊢
  exact h hl

section Table

variable {s : State} {d a : BitVec 6} {l : BitVec 12} {x y : BitVec 64} (ha : SAlone s) (ho : RoomOut s)
  (hx : s.tile.getX a.toNat = gloved x) (hy : s.tile.getX d.toNat = gloved y)

include ha ho hx hy

theorem exec_jtab_beyond (hl : l.toNat ≤ x.toNat) :
    exec (.jtab d a l) s = jumped s (pushed s.tile .nextWord) (s.tile.eS.pc + 4#64) := by
  obtain ⟨v, push, hv⟩ := pushOutcome_ok ho .nextWord
  refine (runSOwn_ok (beginS_ready ha.1) (u := v.setTile (v.tile.passSTo (s.tile.eS.pc + 4#64))) ?_).trans ?_
  · simp [readX_ok hx, readX_ok hy, hl, push]
  · rw [hv.tile, hv.setTile, jumped]

theorem exec_jtab_entry {p : Place} {v dest : BitVec 64} {u : State} (hl : x.toNat < l.toNat)
    (hp : Reaches s (y + 4#64 * x) 4 Rights.load p) (hu : s.soOrder [y + 4#64 * x] = u) (hw : wordAt u p = gloved v)
    (ht : s.tile.eS.pc + 4#64 * (BitVec.ofNat 32 (v.toNat / 2 ^ (8 * ((y + 4#64 * x).toNat % 8)) % 2 ^ 32)).signExtend 64 = dest) :
    exec (.jtab d a l) s = jumped u (forget (pushed u.tile (.target dest))) dest := by
  have order : Recached s u := hu ▸ soOrder_recached _ _
  have load := loadItem_reaches ha hp
  rw [hu] at load
  obtain ⟨z, push, hz⟩ := pushOutcome_ok (roomOut_recached ho order) (.target dest)
  have done : doneRemote .S u.tile.eS.pos z = .ok ((), z.setTile (forget (pushed u.tile (.target dest)))) := by
    rw [doneRemote, modTile_apply, hz.tile, forget, pushed_eS]
  refine (runSOwn_ok (beginS_ready ha.1) (u := (z.setTile (forget (pushed u.tile (.target dest)))).setTile
    ((forget (pushed u.tile (.target dest))).passSTo dest)) ?_).trans ?_
  · simp only [eff_bind, readX_ok hx, readX_ok hy, wordAddr_apply, eng_S, Nat.not_le.mpr hl, if_false, load, hw, check_gloved,
      getTile_apply, itemOf_four, ht, push, done, modTile_apply, tile_setTile]
  · rw [setTile_setTile, hz.setTile, jumped]

end Table

/-! ## Exchange with the other engines (R60 to R64, R156, R157) -/

section Exchange

variable {s : State} (hr : SReady s) (hl : s.tile.level = .task)

include hr hl

theorem putTo_ok (e : Eng) (a : BitVec 6) (hq : (s.tile.oq e).length < 64) :
    putTo e a s = passed s (s.tile.setOq e (s.tile.oq e ++ [(s.tile.eS.pos, s.tile.getX a.toNat)])) := by
  refine (runS_ok (beginS_ready_task hr hl false)
    (u := s.setTile (s.tile.setOq e (s.tile.oq e ++ [(s.tile.eS.pos, s.tile.getX a.toNat)]))) ?_).trans ?_
  · simp [hq]
  · simp [passed]

theorem exec_epeek (d : BitVec 6) : exec (.epeek d) s = passed s (s.tile.putX d.toNat ((s.tile.eq.head?.map (·.w)).getD GWord.zero)) := by
  refine (runS_ok (beginS_ready_task hr hl false)
    (u := s.setTile (s.tile.putX d.toNat ((s.tile.eq.head?.map (·.w)).getD GWord.zero))) ?_).trans ?_
  · simp
  · simp [passed]

omit hr
variable (ha : SAlone s)
include ha

theorem exec_get (d : BitVec 6) {w : GWord} {q : List GWord} (hq : s.tile.rq = w :: q) :
    exec (.get d) s = passed s (({ s.tile with rq := q } : Tile).putX d.toNat w) := by
  have settled := ha.2 hl
  refine (runS_ok (beginS_ready_task ha.1 hl false) (u := s.setTile (({ s.tile with rq := q } : Tile).putX d.toNat w)) ?_).trans ?_
  · simp [settled, hq]
  · simp [passed]

/-- Once V has reached the word an empty return queue is dead (R62). -/
theorem exec_get_dead (d : BitVec 6) (hq : s.tile.rq = []) :
    exec (.get d) s = .next (preciseTrap .S ⟨cQDEAD, 0, s.tile.eS.pc, none⟩ [] s) := by
  have settled := ha.2 hl
  refine runS_trap ha (beginS_ready_task ha.1 hl false) ?_
  simp [settled, hq]

theorem exec_ewait (d : BitVec 6) {v : EvEntry} {r : List EvEntry} {u : State} (hq : s.tile.eq = v :: r)
    (hu : (s.setTile ((Tile.admitHeld { s.tile with eq := r }).invalidate fun k l => !l.uo && lineMeets k v.ranges)).settleEnded s.cur = u) :
    exec (.ewait d) s = passed u (u.tile.putX d.toNat v.w) := by
  refine (runS_ok (beginS_alone ha hl _ _) (u := u.setTile (u.tile.putX d.toNat v.w)) ?_).trans ?_
  · simp [hq, hu]
  · simp [passed]

end Exchange

/-! ## Calls of microprograms (R65, R158) -/

theorem firstBarred_none {m : Micro} {p0 p1 p2 : BitVec 64} {n j : Nat}
    (h : ∀ k < n, barred (microWord m (j + k) p0 p1 p2) = false) : firstBarred m p0 p1 p2 n j = none := by
  induction n generalizing j with
  | zero => rfl
  | succ n ih =>
    have first := h 0 (Nat.succ_pos n)
    rw [firstBarred, if_neg (by simpa using first)]
    exact ih fun k hk => by rw [Nat.add_assoc, Nat.add_comm 1]; exact h (k + 1) (Nat.succ_lt_succ hk)

theorem exec_mcall {s : State} (hr : SReady s) (hl : s.tile.level = .task) (ho : RoomOut s) {d a b k : BitVec 6} {p0 p1 p2 : BitVec 64}
    (h0 : s.tile.getX d.toNat = gloved p0) (h1 : s.tile.getX a.toNat = gloved p1) (h2 : s.tile.getX b.toNat = gloved p2)
    (hw : (s.tile.micro k.toNat).words ≠ [])
    (hb : ∀ j < (s.tile.micro k.toNat).words.length, barred (microWord (s.tile.micro k.toNat) j p0 p1 p2) = false) :
    exec (.mcall d a b k) s = .next (s.setTile { pushed s.tile (.call k.toNat p0 p1 p2) with
      eS := ⟨s.tile.eS.pc, s.tile.eS.pos + 1, some ⟨k.toNat, 0, p0, p1, p2⟩⟩ }) := by
  obtain ⟨v, push, hv⟩ := pushOutcome_ok ho (.call k.toNat p0 p1 p2)
  have allowed : firstBarred (s.tile.micro k.toNat) p0 p1 p2 (s.tile.micro k.toNat).words.length 0 = none :=
    firstBarred_none fun j hj => (Nat.zero_add j).symm ▸ hb j hj
  have nonempty : (s.tile.micro k.toNat).words.isEmpty = false := List.isEmpty_eq_false_iff.mpr hw
  refine runSOwn_ok (beginS_ready_task hr hl false) ?_
  simp [readX_ok h0, readX_ok h1, readX_ok h2, nonempty, allowed, push, hv.tile, hv.setTile, pushed_eS]

/-! ## Accesses of a state whose tile cache alone differs (R101) -/

section Recached

variable {s u : State} (h : Recached s u)

include h

theorem dieReg_recached : u.dieReg = s.dieReg := by
  funext d o
  unfold State.dieReg
  rw [h.dieAt]

theorem lands_recached {va : BitVec 64} {r : Rights} {p : Place} (hl : Lands s va r p) : Lands u va r p := by
  have verdict : accessVerdict u = accessVerdict s := accessVerdict_congr (dieReg_recached h)
  have root : u.root = s.root := by funext d b; unfold State.root; rw [dieReg_recached h]
  have region : u.hatrackRegion = s.hatrackRegion := by
    funext d o; unfold State.hatrackRegion; rw [findRegion_congr (dieReg_recached h)]
  unfold Lands
  rw [h.tile, h.cur, verdict, root, region]
  exact hl

theorem reaches_recached {va : BitVec 64} {n : Nat} {r : Rights} {p : Place} (hp : Reaches s va n r p) : Reaches u va n r p := by
  obtain ⟨hn, hc, hb, hl⟩ := hp
  have tile := h.tile
  refine ⟨hn, ?_, ?_, lands_recached h hl⟩
  · rw [tile]; exact hc
  · rw [h.cur, tile]; exact hb

end Recached

/-! ## Loading a control-store entry (R65, R159) -/

/-- An image whose places hold no error is read, its accesses ordered as one. -/
theorem imageWordsFrom_ok {s : State} (hl : s.tile.level = .task) {va : BitVec 64} {n : Nat} {l : List (BitVec 64)} {ps : Nat → Place}
    (hn : l.length = n)
    (h : ∀ i < n, Reaches s (dwordFrom va i) 8 Rights.load (ps i) ∧ wordAt (ordered s va n) (ps i) = gloved (l.getD i 0#64)) :
    imageWordsFrom n va s = .ok (some l, ordered s va n) := by
  have order : orderSO (((List.range n).map fun i => (dwordFrom va i, ps i)).map (·.1)) s = .ok ((), ordered s va n) := by
    rw [List.map_map]; rfl
  have words := readImage_ok (u := ordered s va n) (qs := (List.range n).map fun i => (dwordFrom va i, ps i))
    (f := fun q => (wordAt (ordered s va n) q.2).data) fun q hq => by
      obtain ⟨i, hi, rfl⟩ := List.mem_map.mp hq
      obtain ⟨⟨-, -, -, lands⟩, hw⟩ := h i (List.mem_range.mp hi)
      rw [loadWord_lands lands, hw]
      rfl
  have values : ((List.range n).map fun i => (dwordFrom va i, ps i)).map (fun q => (wordAt (ordered s va n) q.2).data) = l := by
    rw [List.map_map]
    refine List.ext_getElem (by simp [hn]) fun i _ hi => ?_
    simp [(h i (hn ▸ hi)).2, gloved, List.getElem?_eq_getElem hi]
  rw [values] at words
  simp only [imageWordsFrom, eff_bind, imagePlaces_reach hl fun i hi => (h i hi).1, order, words]

/-- The header of an image of `n` words: the count, with zeros above it in the low half. -/
theorem header_count {h : BitVec 64} {n : Nat} (hh : h.toNat % 2 ^ 32 = n) (hn : n ≤ 32) : bits h 5 0 = n ∧ bits h 31 6 = 0 := by
  unfold bits
  omega

theorem exec_mdef {s : State} (ha : SAlone s) (hl : s.tile.level = .task) {k a : BitVec 6} {o : BitVec 12} {x va : BitVec 64}
    (hx : s.tile.getX a.toNat = gloved x) (hva : x + o.signExtend 64 = va) {h : BitVec 64} {l : List (BitVec 64)} {ps : Nat → Place}
    {n : Nat} (h1 : 1 ≤ n) (h32 : n ≤ 32) (hlen : l.length = n) (hh : h.toNat % 2 ^ 32 = n)
    (hp : ∀ i ≤ n, Reaches s (dwordFrom va i) 8 Rights.load (ps i)) {v u : State} (hv : ordered s va 1 = v)
    (hu : ordered v (va + 8#64) n = u) (hw0 : wordAt v (ps 0) = gloved h) (hw : ∀ i < n, wordAt u (ps (i + 1)) = gloved (l.getD i 0#64))
    {ws : List (BitVec 32)} (hws : (halves (h :: l)).drop 1 = ws) (hm : ((ws.drop n).take n).all mapOk = true) :
    exec (.mdef k a o) s = passed u { forget u.tile with
      cstore := mapSet ⟨[], []⟩ s.tile.cstore k.toNat ⟨ws.take n, (ws.drop n).take n⟩ } := by
  have first : Recached s v := hv ▸ soOrder_recached _ _
  have second : Recached s u := first.trans (hu ▸ soOrder_recached _ _)
  have start : dwordFrom va 0 = va := by unfold dwordFrom; simp
  have header : imageWordsFrom 1 va s = .ok (some [h], v) := by
    rw [← hv]
    refine imageWordsFrom_ok hl (ps := ps) rfl fun i hi => ?_
    obtain rfl : i = 0 := by omega
    exact ⟨hp 0 (Nat.zero_le n), by rw [hv]; exact hw0⟩
  have onTask : v.tile.level = .task := by rw [first.tile]; exact hl
  have image : imageWordsFrom n (va + 8#64) v = .ok (some l, u) := by
    rw [← hu]
    refine imageWordsFrom_ok onTask (ps := fun i => ps (i + 1)) hlen fun i hi => ⟨?_, by rw [hu]; exact hw i hi⟩
    exact reaches_recached first (dwordFrom_succ va i ▸ hp (i + 1) hi)
  obtain ⟨align, canon, -, -⟩ := start ▸ hp 0 (Nat.zero_le n)
  obtain ⟨count, above⟩ := header_count hh h32
  have legal : decide (bits h 31 6 ≠ 0 ∨ n = 0 ∨ 32 < n) = false := decide_eq_false (by omega)
  have store : u.tile.cstore = s.tile.cstore := by rw [second.tile]
  show execMdef k a o s = _
  unfold execMdef
  rw [runSHold_ok (beginS_alone ha hl _ _) (u := u.setTile { forget u.tile with
    cstore := mapSet ⟨[], []⟩ s.tile.cstore k.toNat ⟨ws.take n, (ws.drop n).take n⟩ })]
  · simp [passed]
  · simp only [eff_bind, effAddr, readX_ok hx, eff_pure, sext12, hva, checkAddr_ok canon align, header, List.headD_cons, legal,
      raiseIf_false, count, image, hws, hm, Bool.not_true, getTile_apply, doneRemote, modTile_apply, tile_setTile, setTile_setTile, store]
    rfl

end Sys2Proof.Machine

namespace Sys2Proof.Proofs

open Sys2Proof.Machine Sys2Proof.Claims

/-- Settles O8: each word pushes its outcome where the queues have room and places S. -/
theorem branchAndJumpResult : Obligations.BranchAndJumpResult := by
  refine ⟨fun a b k o x y s hr ho => ⟨fun hv => ?_, fun hx => ⟨exec_loop hr ho o hx, fun hy => ?_⟩⟩, ?_⟩
  · have plain := branchPred_ok hr ho true k o hv
    have inverted := branchPred_ok hr ho false k o hv
    rw [Bool.decide_eq_true] at plain
    rw [Bool.decide_eq_false] at inverted
    exact ⟨plain, inverted⟩
  · have compare (c : Cond) := branch_ok hr ho c o hx hy
    refine ⟨compare .eq, compare .ne, compare .lt, ?_, compare .ltu, ?_⟩
    · rw [← condHolds_ge]; exact compare .ge
    · rw [← condHolds_geu]; exact compare .geu
  · intro d a o i l x y v p s hr ho pc tgt
    refine ⟨exec_j hr ho o, exec_jal hr ho d o, fun hx => ⟨exec_jalr hr ho d hx, fun h4 ha => exec_jalr_misaligned ha d hx h4,
      fun ha hy => ⟨exec_jtab_beyond ha ho hx hy, fun hl hp hw => exec_jtab_entry ha ho hx hy hl hp rfl hw rfl⟩⟩⟩

/-- Settles O9: the queues of the tile are read off, and what each word appends or takes. -/
theorem exchangeResult : Obligations.ExchangeResult := by
  intro d a w q v r s hr hl entry
  refine ⟨putTo_ok hr hl .V a, putTo_ok hr hl .M a, putTo_ok hr hl .D a, fun he => ?_, fun he => ?_,
    fun ha => ⟨exec_get hl ha d, exec_get_dead hl ha d, fun he => exec_ewait hl ha d he rfl⟩⟩
  · rw [exec_epeek hr hl, he]
    rfl
  · rw [exec_epeek hr hl, he]
    rfl

/-- Settles O10: the expansion is entered with the call pushed; the image is read header first, each read ordered as one access. -/
theorem microprogramResult : Obligations.MicroprogramResult := by
  intro d a b k o p0 p1 p2 x s hr hl ho
  refine ⟨fun h0 h1 h2 => exec_mcall hr hl ho h0 h1 h2, ?_⟩
  intro ha hx img ps n va h1 h32 hlen hcount hp h u hw0 hw ws hm
  cases img with
  | nil => simp at hlen
  | cons hd l =>
    exact exec_mdef ha hl hx rfl h1 h32 (Nat.succ.inj hlen) hcount hp rfl rfl hw0 hw rfl hm

end Sys2Proof.Proofs
end

section
/-!
PROOFS. The deferral queue (R67, R202, R203) and the return queue (R62, R204): doublewords written at places of their own, the entries that
vdefer appends, and the lanes that vredeem fills, from which O24 is assembled.
-/

namespace Sys2Proof.Machine

open Sys2Proof.Claims

/-! ## Words of V, M and D that may take effect (R55, R63, R353) -/

theorem runE_went {e : Eng} {g : BitVec 4} {body : Eff Unit} {s u : State} {t : Tile} (h : EReady e g s) (hb : body s = .ok ((), u))
    (hu : Holds s t u) : runE e g body s = went e s t := by
  obtain ⟨⟨hr, hl, hs, hm⟩, hg⟩ := h
  rw [runE_ok (beginE_ok hr hl hs hm) hg hb, hu.tile, hu.setTile, went]

theorem readVcr_ok {r : Nat} {v : BitVec 64} {s : State} (h : s.tile.getVcr r = gloved v) : readVcr r s = .ok (v, s) := by
  simp [readVcr, h]

theorem readMask_ok {m : Nat} {k : BitVec 128} {s : State} (h : MaskIs s m k) : readMask m s = .ok (k, s) := by
  have halves : k.extractLsb' 64 64 ++ k.extractLsb' 0 64 = k := by
    refine BitVec.eq_of_getLsbD_eq fun i hi => ?_
    rw [BitVec.getLsbD_append, BitVec.getLsbD_extractLsb', BitVec.getLsbD_extractLsb']
    by_cases h : i < 64
    · simp [h]
    · simp [h, Nat.add_sub_cancel' (Nat.not_lt.mp h), show i - 64 < 64 by omega]
  simp [readMask, h.1, h.2, halves]

/-! ## The return queue (R62, R204) -/

theorem pushReturn_ok {w : GWord} {s : State} (h : s.tile.rq.length < 64) :
    pushReturn w s = .ok ((), s.setTile { s.tile with rq := s.tile.rq ++ [w] }) := by
  simp [pushReturn, h]

section Return

variable {g : BitVec 4} {s : State} (h : EReady .V g s) (hq : s.tile.rq.length < 64)

include h hq

theorem exec_vput (a : BitVec 4) : exec (.vput g a) s = went .V s { s.tile with rq := s.tile.rq ++ [s.tile.getS a.toNat] } :=
  runE_went h (by simp only [eff_bind, getTile_apply, pushReturn_ok hq]) ((Holds.refl s).write _)

theorem exec_vputVcr {r : BitVec 5} {v : BitVec 64} (hv : s.tile.getVcr r.toNat = gloved v) :
    exec (.vputVcr g r) s = went .V s { s.tile with rq := s.tile.rq ++ [gloved (v &&& vcrFields r.toNat)] } :=
  runE_went h (by simp only [eff_bind, readVcr_ok hv, pushReturn_ok hq]) ((Holds.refl s).write _)

end Return

/-! ## Doublewords written at places of their own (R98) -/

theorem byte_writeAt_other {l : List (Nat × GWord)} {a : Nat} (h : ∀ p ∈ l, a / 8 ≠ p.1 / 8) (m : Mem) :
    (m.writeAt l).byte a = m.byte a := by
  induction l generalizing m with
  | nil => rfl
  | cons p l ih =>
    obtain ⟨hp, hl⟩ := List.forall_mem_cons.mp h
    exact (ih hl _).trans (Mem.byte_write_other m p.2 hp)

theorem read_writeAt_other {l : List (Nat × GWord)} {a : Nat} (h : ∀ p ∈ l, a / 8 ≠ p.1 / 8) (m : Mem) :
    (m.writeAt l).read a = m.read a := by
  induction l generalizing m with
  | nil => rfl
  | cons p l ih =>
    obtain ⟨hp, hl⟩ := List.forall_mem_cons.mp h
    exact (ih hl _).trans (Mem.read_write_other m p.2 hp)

/-- Where no two of the places lie in one doubleword, each holds its word. -/
theorem read_writeAt {l : List (Nat × GWord)} (h : l.Pairwise fun p q => p.1 / 8 ≠ q.1 / 8) (m : Mem) :
    ∀ p ∈ l, (m.writeAt l).read p.1 = p.2 := by
  induction l generalizing m with
  | nil => intro p hp; cases hp
  | cons q l ih =>
    obtain ⟨hq, hl⟩ := List.pairwise_cons.mp h
    refine List.forall_mem_cons.mpr ⟨?_, ih hl _⟩
    exact (read_writeAt_other hq _).trans (Mem.read_write_self m q.1 q.2)

theorem writeAt_append (m : Mem) (l k : List (Nat × GWord)) : m.writeAt (l ++ k) = (m.writeAt l).writeAt k := by
  induction l generalizing m with
  | nil => rfl
  | cons p l ih => exact ih _

theorem writeList_map_range (m : Mem) (a n : Nat) (f : Nat → GWord) :
    m.writeList a ((List.range n).map f) = m.writeAt ((List.range n).map fun i => (a + 8 * i, f i)) := by
  induction n generalizing m a f with
  | zero => rfl
  | succ n ih =>
    simp only [List.range_succ_eq_map, List.map_cons, List.map_map, Mem.writeList, Mem.writeAt, Function.comp_def]
    rw [ih]
    simp only [Nat.mul_zero, Nat.add_zero, Nat.mul_add, Nat.succ_eq_add_one, Nat.add_assoc, Nat.add_comm, Nat.mul_one]

/-! ## The deferral queue (R67, R68) -/

theorem readHatcheck_ok {q : Hatcheck} {s : State} (h : HatIs s q) : readHatcheck s = .ok (q, s) := by
  obtain ⟨⟨b, c, n, h, k, hb, hc, hn, hh, hk, hq⟩, nv, cap, cap', head, cnt, fits⟩ := h
  have legal : decide (q.nv > 4 ∨ q.cap = 0 ∨ q.cap > 65536 ∨ q.head ≥ q.cap ∨ q.cnt > q.cap ∨ q.base + q.cap * q.size > 0x200000) = false :=
    decide_eq_false (by rw [Hatcheck.size]; omega)
  subst hq
  dsimp only at legal
  simp only [readHatcheck, eff_bind, readVcr_ok hb, readVcr_ok hc, readVcr_ok hn, readVcr_ok hh, readVcr_ok hk, legal, raiseIf_false,
    eff_pure]

theorem hatcheckRange_ok {s : State} (h : NoRange .V s) (q : Hatcheck) : hatcheckRange q s = .ok ((), s) := by
  have free : s.tile.rangeBlocked s.tile.eV.pos [(q.base, q.cap * q.size)] [(q.base, q.cap * q.size)] = false := h _ _
  simp [hatcheckRange, rangeCheck, free]

/-! ## vdefer (R202) -/

/-- The doublewords of the entry at `at'` for lane `i`: the lane number, and the lane's words of `nv` registers from `a` on. -/
def hatEntry (t : Tile) (a nv at' i : Nat) : List (Nat × GWord) :=
  (at', gloved (BitVec.ofNat 64 i)) :: (List.range nv).map fun w => (at' + 8 * (w + 1), t.getV (a + w) i)

/-- The doublewords of the entries that the lanes `l` append to a queue, in order. -/
def hatEntries (t : Tile) (q : Hatcheck) (a : Nat) (l : List Nat) : List (Nat × GWord) :=
  (List.range l.length).flatMap fun j => hatEntry t a q.nv (q.base + (q.head + q.cnt + j) % q.cap * (8 * (1 + q.nv))) (l.getD j 0)

theorem writeList_hatEntry (t : Tile) (m : Mem) (a nv at' i : Nat) :
    m.writeList at' (gloved (BitVec.ofNat 64 i) :: (List.range nv).map fun k => t.getV (a + k) i) = m.writeAt (hatEntry t a nv at' i) := by
  rw [Mem.writeList, writeList_map_range, hatEntry, Mem.writeAt]
  simp only [Nat.mul_add, Nat.mul_one, Nat.add_assoc, Nat.add_comm 8]

theorem deferLane_ok (q : Hatcheck) (a slot i : Nat) (s : State) : deferLane q a slot i s =
    .ok ((), s.setTile { s.tile with spad := s.tile.spad.writeAt (hatEntry s.tile a q.nv (q.base + slot * q.size) i) }) := by
  simp only [deferLane, eff_bind, curTile_apply, modState_apply, ← writeList_hatEntry]
  rfl

theorem hatEntries_cons (t : Tile) (q : Hatcheck) (a i : Nat) (l : List Nat) : hatEntries t q a (i :: l) =
    hatEntry t a q.nv (q.base + (q.head + q.cnt) % q.cap * q.size) i ++ hatEntries t { q with cnt := q.cnt + 1 } a l := by
  simp only [hatEntries, List.length_cons, List.range_succ_eq_map, List.flatMap_cons, List.flatMap_map, Nat.add_zero, List.getD_cons_zero,
    List.getD_cons_succ, Nat.succ_eq_add_one, Nat.add_assoc, Nat.add_comm 1, Hatcheck.size]

theorem deferAll_ok (a : Nat) (q : Hatcheck) (l : List Nat) (s : State) : ∃ u, deferAll a q l s =
    .ok ({ q with cnt := q.cnt + l.length }, u) ∧ Holds s { s.tile with spad := s.tile.spad.writeAt (hatEntries s.tile q a l) } u := by
  induction l generalizing q s with
  | nil => exact ⟨s, rfl, .refl s⟩
  | cons i l ih =>
    obtain ⟨v, hv⟩ : ∃ v, s.setTile { s.tile with
      spad := s.tile.spad.writeAt (hatEntry s.tile a q.nv (q.base + (q.head + q.cnt) % q.cap * q.size) i) } = v := ⟨_, rfl⟩
    obtain ⟨u, hu, holds⟩ := ih { q with cnt := q.cnt + 1 } v
    have first := (Holds.refl s).write { s.tile with
      spad := s.tile.spad.writeAt (hatEntry s.tile a q.nv (q.base + (q.head + q.cnt) % q.cap * q.size) i) }
    rw [hv] at first
    refine ⟨u, ?_, ?_, fun x => (holds.setTile x).trans (first.setTile x)⟩
    · simp only [deferAll, eff_bind, deferLane_ok, hv, hu, List.length_cons, Nat.add_assoc, Nat.add_comm 1]
    · rw [holds.tile, first.tile, hatEntries_cons, writeAt_append]
      rfl

/-- An entry's doublewords follow its address. -/
theorem mem_hatEntry {t : Tile} {a nv at' i : Nat} {p : Nat × GWord} (h : p ∈ hatEntry t a nv at' i) : ∃ w ≤ nv, p.1 = at' + 8 * w := by
  obtain rfl | h := List.mem_cons.mp h
  · exact ⟨0, Nat.zero_le _, rfl⟩
  · obtain ⟨w, hw, rfl⟩ := List.mem_map.mp h
    exact ⟨w + 1, List.mem_range.mp hw, rfl⟩

theorem hatEntry_pairwise (t : Tile) (a nv at' i : Nat) : (hatEntry t a nv at' i).Pairwise fun p q => p.1 / 8 ≠ q.1 / 8 := by
  refine List.pairwise_cons.mpr ⟨fun p hp => ?_, List.pairwise_map.mpr (List.pairwise_lt_range.imp fun h => ?_)⟩
  · obtain ⟨w, -, rfl⟩ := List.mem_map.mp hp
    dsimp only
    omega
  · dsimp only
    omega

/-- Two slots of a queue are apart. -/
theorem slots_apart {b slot slot' n w w' : Nat} (hb : b % 8 = 0) (h : slot ≠ slot') (hw : w ≤ n) (hw' : w' ≤ n) :
    (b + slot * (8 * (1 + n)) + 8 * w) / 8 ≠ (b + slot' * (8 * (1 + n)) + 8 * w') / 8 := by
  have place (x v : Nat) : (b + x * (8 * (1 + n)) + 8 * v) / 8 = b / 8 + (x * (1 + n) + v) := by
    rw [Nat.mul_left_comm]
    omega
  have slotOf (x v : Nat) (hv : v ≤ n) : (x * (1 + n) + v) / (1 + n) = x := by
    rw [Nat.mul_comm, Nat.mul_add_div (by omega), Nat.div_eq_of_lt (by omega), Nat.add_zero]
  rw [place, place]
  intro e
  refine h ?_
  rw [← slotOf slot w hw, ← slotOf slot' w' hw', Nat.add_left_cancel e]

/-- The places of entries that fit the queue share no doubleword. -/
theorem hatEntries_pairwise (t : Tile) {q : Hatcheck} (a : Nat) {l : List Nat} (hb : q.base % 8 = 0) (hl : q.cnt + l.length ≤ q.cap) :
    (hatEntries t q a l).Pairwise fun p r => p.1 / 8 ≠ r.1 / 8 := by
  refine List.pairwise_flatMap.mpr ⟨fun j _ => hatEntry_pairwise _ _ _ _ _, ?_⟩
  refine List.pairwise_lt_range.imp_of_mem fun {j k} hj hk hjk p hp r hr => ?_
  obtain ⟨w, hw, hp⟩ := mem_hatEntry hp
  obtain ⟨w', hw', hr⟩ := mem_hatEntry hr
  rw [hp, hr]
  refine slots_apart hb (fun e => ?_) hw hw'
  have same : j ≡ k [MOD q.cap] := Nat.ModEq.add_left_cancel' _ e
  have bound := List.mem_range.mp hk
  exact hjk.ne (same.eq_of_lt_of_lt (by omega) (by omega))

theorem exec_vdefer {g a b : BitVec 4} {q : Hatcheck} {k : BitVec 128} {s : State} (h : EReady .V g s) (hq : HatIs s q) (hn : NoRange .V s)
    (hm : MaskIs s b.toNat k) (ha : a.toNat + q.nv ≤ 16) (hc : q.cnt + (lanesOf k).length ≤ q.cap) : exec (.vdefer g a b) s =
    went .V s { (if (lanesOf k).length = 0 then s.tile else s.tile.setVcr 5 (gloved (BitVec.ofNat 64 (q.cnt + (lanesOf k).length)))) with
      spad := s.tile.spad.writeAt (hatEntries s.tile q a.toNat (lanesOf k)) } := by
  obtain ⟨u, hu, holds⟩ := deferAll_ok a.toNat q (lanesOf k) s
  have registers : decide (a.toNat + q.nv > 16) = false := decide_eq_false (Nat.not_lt.mpr ha)
  have room : decide (q.cnt + (lanesOf k).length > q.cap) = false := decide_eq_false (Nat.not_lt.mpr hc)
  have done : ∃ z, (if (lanesOf k).isEmpty then pure () else updateHatcheck 5 (q.cnt + (lanesOf k).length) : Eff Unit) u = .ok ((), z) ∧
      Holds s { (if (lanesOf k).length = 0 then s.tile else s.tile.setVcr 5 (gloved (BitVec.ofNat 64 (q.cnt + (lanesOf k).length)))) with
        spad := s.tile.spad.writeAt (hatEntries s.tile q a.toNat (lanesOf k)) } z := by
    simp only [List.isEmpty_iff_length_eq_zero]
    split
    · exact ⟨u, rfl, holds⟩
    · exact ⟨_, rfl, holds.tile ▸ holds.write _⟩
  obtain ⟨z, hz, final⟩ := done
  refine runE_went h ?_ final
  simp only [eff_bind, readHatcheck_ok hq, registers, raiseIf_false, readMask_ok hm, room, hatcheckRange_ok hn, hu, hz]

/-! ## vredeem (R203) -/

/-- The tile with `n` words from `at'` on in lane `j` of the registers from `d` on. -/
def Tile.takeEntry (t : Tile) (d j at' n : Nat) : Tile := (List.range n).foldl (fun t k => t.setV (d + k) j (t.spad.read (at' + 8 * k))) t

theorem takeEntry_succ (t : Tile) (d j at' n : Nat) : t.takeEntry d j at' (n + 1) =
    (t.takeEntry d j at' n).setV (d + n) j ((t.takeEntry d j at' n).spad.read (at' + 8 * n)) := by
  rw [Tile.takeEntry, List.range_succ, List.foldl_append]
  rfl

/-- The words of an entry stand in the lane, and all else is as it was. -/
theorem takeEntry_spec (t : Tile) {j : Nat} (d at' n : Nat) (hj : j < 128) : ∃ v, t.takeEntry d j at' n = { t with v := v } ∧
    ∀ r, ∀ i < 128, (t.takeEntry d j at' n).getV r i =
      if d ≤ r ∧ r < d + n ∧ i = j then t.spad.read (at' + 8 * (r - d)) else t.getV r i := by
  induction n with
  | zero => exact ⟨t.v, rfl, fun r i _ => by rw [if_neg (by omega)]; rfl⟩
  | succ n ih =>
    obtain ⟨v, hv, lanes⟩ := ih
    have spad : (t.takeEntry d j at' n).spad = t.spad := by rw [hv]
    rw [takeEntry_succ, spad]
    refine ⟨mapSet GWord.zero v (128 * (d + n) + j) (t.spad.read (at' + 8 * n)), by rw [hv]; rfl, fun r i hi => ?_⟩
    by_cases here : r = d + n ∧ i = j
    · obtain ⟨rfl, rfl⟩ := here
      rw [getV_setV_self, if_pos (by omega), Nat.add_sub_cancel_left]
    · rw [getV_setV_other _ _ (by omega), lanes r i hi]
      exact if_congr (by omega) rfl rfl

theorem redeemLane_apply (q : Hatcheck) (d j : Nat) (s : State) : redeemLane q d j s =
    .ok ((), s.setTile (s.tile.takeEntry d j (q.base + (q.head + j) % q.cap * q.size) (1 + q.nv))) := rfl

/-- The oldest entries stand in the lanes `l`, and all else is as it was. -/
theorem redeemLanes_ok (q : Hatcheck) (d : Nat) {l : List Nat} (hl : ∀ j ∈ l, j < 128) (s : State) : ∃ u v,
    eachLane l (redeemLane q d) s = .ok ((), u) ∧ Holds s { s.tile with v := v } u ∧
    ∀ r, ∀ i < 128, u.tile.getV r i = if d ≤ r ∧ r ≤ d + q.nv ∧ i ∈ l then
      s.tile.spad.read (q.base + (q.head + i) % q.cap * q.size + 8 * (r - d)) else s.tile.getV r i := by
  induction l generalizing s with
  | nil => exact ⟨s, s.tile.v, rfl, .refl s, fun r i _ => by simp⟩
  | cons j l ih =>
    obtain ⟨hj, hl⟩ := List.forall_mem_cons.mp hl
    obtain ⟨v, hv, lanes⟩ := takeEntry_spec s.tile d (q.base + (q.head + j) % q.cap * q.size) (1 + q.nv) hj
    have first := (Holds.refl s).write (s.tile.takeEntry d j (q.base + (q.head + j) % q.cap * q.size) (1 + q.nv))
    obtain ⟨z, hz⟩ : ∃ z, s.setTile (s.tile.takeEntry d j (q.base + (q.head + j) % q.cap * q.size) (1 + q.nv)) = z := ⟨_, rfl⟩
    rw [hz] at first
    obtain ⟨u, w, hu, holds, rest⟩ := ih hl z
    refine ⟨u, w, ?_, ⟨?_, fun x => (holds.setTile x).trans (first.setTile x)⟩, fun r i hi => ?_⟩
    · simp only [eachLane, eff_bind, redeemLane_apply, hz, hu]
    · rw [holds.tile, first.tile, hv]
    · have spad : z.tile.spad = s.tile.spad := by rw [first.tile, hv]
      rw [rest r i hi, spad, first.tile, lanes r i hi]
      by_cases hr : d ≤ r ∧ r ≤ d + q.nv
      · by_cases later : i ∈ l
        · rw [if_pos ⟨hr.1, hr.2, later⟩, if_pos ⟨hr.1, hr.2, List.mem_cons_of_mem j later⟩]
        · by_cases now : i = j
          · rw [if_neg fun h => later h.2.2, if_pos ⟨hr.1, by omega, now⟩, if_pos ⟨hr.1, hr.2, now ▸ List.mem_cons_self⟩, now]
          · rw [if_neg fun h => later h.2.2, if_neg fun h => now h.2.2,
              if_neg fun h => (List.mem_cons.mp h.2.2).elim now later]
      · rw [if_neg fun h => hr ⟨h.1, h.2.1⟩, if_neg fun h => hr ⟨h.1, by omega⟩, if_neg fun h => hr ⟨h.1, h.2.1⟩]

/-- The tile whose mask `b` has the ones of the lanes below `p`. -/
def Tile.setOnes (t : Tile) (b p : Nat) : Tile :=
  let ones := maskOf ((List.range p).map fun i => (i, true))
  (t.setM b 0 (gloved (ones.extractLsb' 0 64))).setM b 1 (gloved (ones.extractLsb' 64 64))

theorem setOnes_with_v (t : Tile) (v : SMap GWord) (b p : Nat) : ({ t with v := v } : Tile).setOnes b p = { t.setOnes b p with v := v } := by
  unfold Tile.setOnes Tile.setM
  split <;> rfl

theorem writeMask_ones (b p : Nat) (s : State) : writeMask b (maskOf ((List.range p).map fun i => (i, true))) s =
    .ok ((), s.setTile (s.tile.setOnes b p)) := rfl

/-- The tile once `p` entries have been taken from the queue: mask `b` names their lanes, and where there are any the head and the
count have moved. -/
def Hatcheck.redeemed (q : Hatcheck) (t : Tile) (b p : Nat) : Tile :=
  if p = 0 then t.setOnes b p else hatTile (t.setOnes b p) ((q.head + p) % q.cap) (q.cnt - p)

theorem redeemed_with_v (q : Hatcheck) (t : Tile) (v : SMap GWord) (b p : Nat) :
    q.redeemed { t with v := v } b p = { q.redeemed t b p with v := v } := by
  unfold Hatcheck.redeemed
  rw [setOnes_with_v]
  split <;> rfl

theorem getV_with_v (t t' : Tile) (r i : Nat) : ({ t' with v := t.v } : Tile).getV r i = t.getV r i := rfl

theorem exec_vredeem {g d b : BitVec 4} {q : Hatcheck} {s : State} (h : EReady .V g s) (hq : HatIs s q) (hn : NoRange .V s)
    (hd : d.toNat + 1 + q.nv ≤ 16) : VSet s (q.redeemed s.tile b.toNat (min 128 q.cnt))
      (fun w i => if d.toNat ≤ w ∧ w ≤ d.toNat + q.nv ∧ i < min 128 q.cnt then
          s.tile.spad.read (q.base + (q.head + i) % q.cap * q.size + 8 * (w - d.toNat))
        else s.tile.getV w i) (exec (.vredeem g d b) s) := by
  obtain ⟨u, v, hu, holds, lanes⟩ := redeemLanes_ok q d.toNat (l := List.range (min 128 q.cnt)) (fun j hj => by
    rw [List.mem_range] at hj; omega) s
  have registers : decide (d.toNat + 1 + q.nv > 16) = false := decide_eq_false (Nat.not_lt.mpr hd)
  have done : ∃ z, (if min 128 q.cnt = 0 then pure () else do
        updateHatcheck 4 ((q.head + min 128 q.cnt) % q.cap)
        updateHatcheck 5 (q.cnt - min 128 q.cnt) : Eff Unit) (u.setTile (u.tile.setOnes b.toNat (min 128 q.cnt))) = .ok ((), z) ∧
      Holds s (q.redeemed u.tile b.toNat (min 128 q.cnt)) z := by
    have ones : Holds s (u.tile.setOnes b.toNat (min 128 q.cnt)) (u.setTile (u.tile.setOnes b.toNat (min 128 q.cnt))) := holds.write _
    unfold Hatcheck.redeemed
    split
    · exact ⟨_, rfl, ones⟩
    · refine ⟨_, ?_, ones.write _⟩
      simp only [eff_bind, updateHatcheck, modTile_apply, tile_setTile, setTile_setTile, hatTile]
  obtain ⟨z, hz, final⟩ := done
  refine ⟨v, ?_, fun r _ i hi => ?_⟩
  · rw [← redeemed_with_v, ← holds.tile]
    refine runE_went h ?_ final
    simp only [eff_bind, readHatcheck_ok hq, registers, raiseIf_false, hatcheckRange_ok hn, hu, writeMask_ones, hz]
  · have same : v = u.tile.v := by rw [holds.tile]
    rw [same, getV_with_v, lanes r i hi]
    simp only [List.mem_range]

end Sys2Proof.Machine

namespace Sys2Proof.Proofs

open Sys2Proof.Machine Sys2Proof.Claims

/-- Settles O24: the entries' doublewords are apart, so each is read back; the popped ones stand in their lanes. -/
theorem deferralAndReturnResult : Obligations.DeferralAndReturnResult := by
  intro g a b d r v q k s h
  refine ⟨fun hq => ⟨exec_vput h hq a, exec_vputVcr h hq⟩, fun hat hn => ⟨fun hm ha hc => ?_, fun hd => exec_vredeem h hat hn hd⟩⟩
  have aligned : q.base % 8 = 0 := by
    obtain ⟨⟨b, -, -, -, -, -, -, -, -, -, rfl⟩, -⟩ := hat
    exact Nat.mul_mod_left _ 8
  exact ⟨_, exec_vdefer h hat hn hm ha hc, read_writeAt (hatEntries_pairwise s.tile a.toNat aligned hc) _,
    fun x hx => byte_writeAt_other hx _⟩

end Sys2Proof.Proofs
end

section
/-!
PROOFS. Two's-complement elements (R76, R77, R176, R177, R180): a reading of w bits is the balanced residue modulo 2^w, so integer words
compute with residues; from this O16 is assembled.
-/

namespace Sys2Proof.Machine

/-! ## Readings and low bits -/

/-- A two's-complement reading of `w` bits is the balanced residue modulo 2^w. -/
theorem signedOf_eq_bmod {w : Nat} (hw : 0 < w) (n : Nat) : signedOf w n = (n : Int).bmod (2 ^ w) := by
  have split : 2 ^ w = 2 * 2 ^ (w - 1) := by rw [← pow_succ', Nat.sub_add_cancel hw]
  simp only [signedOf, Int.bmod_def, Nat.cast_pow, Nat.cast_ofNat]
  generalize hu : n % 2 ^ w = u
  have hu' : (n : Int) % 2 ^ w = u := by rw [← hu]; push_cast; rfl
  have hs : (2 : Int) ^ w = 2 * (2 ^ (w - 1) : Nat) := by exact_mod_cast split
  rw [hu', hs]
  split <;> split <;> omega

/-- The low bits of a number are its residue. -/
theorem cast_lowBits (w : Nat) (i : Int) : (lowBits w i : Int) = i % 2 ^ w :=
  Int.toNat_of_nonneg (Int.emod_nonneg i (by positivity))

theorem lowBits_lt (w : Nat) (i : Int) : lowBits w i < 2 ^ w := by
  have below : (lowBits w i : Int) < 2 ^ w := cast_lowBits w i ▸ Int.emod_lt_of_pos i (by positivity)
  exact_mod_cast below

section Reading

variable {w : Nat} (hw : 0 < w)

include hw

/-- The reading of a residue is the balanced residue. -/
theorem signedOf_mod (n : Nat) : signedOf w (n % 2 ^ w) = (n : Int).bmod (2 ^ w) := by
  rw [signedOf_eq_bmod hw]
  push_cast
  exact_mod_cast Int.emod_bmod n (2 ^ w)

theorem signedOf_lowBits (i : Int) : signedOf w (lowBits w i) = i.bmod (2 ^ w) := by
  rw [signedOf_eq_bmod hw, cast_lowBits]
  exact_mod_cast Int.emod_bmod i (2 ^ w)

/-- A number of the signed range of `w` bits is its own balanced residue. -/
theorem bmod_of_range {i : Int} (lo : -(2 ^ (w - 1)) ≤ i) (hi : i < 2 ^ (w - 1)) : i.bmod (2 ^ w) = i := by
  have split : (2 : Int) ^ w = 2 * 2 ^ (w - 1) := by rw [← pow_succ', Nat.sub_add_cancel hw]
  apply Int.bmod_eq_of_le <;> push_cast <;> omega

theorem signedOf_range (n : Nat) : -(2 ^ (w - 1)) ≤ signedOf w n ∧ signedOf w n < 2 ^ (w - 1) := by
  have split : (2 : Int) ^ w = 2 * 2 ^ (w - 1) := by rw [← pow_succ', Nat.sub_add_cancel hw]
  have lo := Int.le_bmod (x := n) (m := 2 ^ w) (by positivity)
  have hi := Int.bmod_lt (x := n) (m := 2 ^ w) (by positivity)
  rw [← signedOf_eq_bmod hw] at lo hi
  push_cast at lo hi
  omega

theorem signedOf_lowBits_of_range {i : Int} (lo : -(2 ^ (w - 1)) ≤ i) (hi : i < 2 ^ (w - 1)) : signedOf w (lowBits w i) = i := by
  rw [signedOf_lowBits hw, bmod_of_range hw lo hi]

end Reading

/-- Clamping to the signed range is the nearest number of the range. -/
theorem clampInt_eq (w : Nat) (i : Int) : clampInt w i = max (-(2 ^ (w - 1))) (min (2 ^ (w - 1) - 1) i) := by
  have pos : (0 : Int) < 2 ^ (w - 1) := by positivity
  unfold clampInt
  omega

theorem clampInt_range (w : Nat) (i : Int) : -(2 ^ (w - 1)) ≤ clampInt w i ∧ clampInt w i < 2 ^ (w - 1) := by
  have pos : (0 : Int) < 2 ^ (w - 1) := by positivity
  rw [clampInt_eq]
  omega

theorem signedOf_clampInt {w : Nat} (hw : 0 < w) (i : Int) : signedOf w (lowBits w (clampInt w i)) = clampInt w i :=
  signedOf_lowBits_of_range hw (clampInt_range w i).1 (clampInt_range w i).2

/-! ## The words of R176, R177 and R180 on integer elements -/

section Words

variable {f : Fmt} {x y : Nat}

theorem width_pos (f : Fmt) : 0 < f.width := by cases f <;> decide

theorem signedOf_addElem (hf : f.isInt = true) :
    signedOf f.width (addElem f x y % 2 ^ f.width) = (signedOf f.width x + signedOf f.width y).bmod (2 ^ f.width) := by
  rw [addElem, if_pos hf, signedOf_mod (width_pos f), signedOf_eq_bmod (width_pos f), signedOf_eq_bmod (width_pos f),
    Int.bmod_add_bmod, Int.add_bmod_bmod, Nat.cast_add]

/-- Adding the modulus before a subtraction does not change the residue. -/
theorem bmod_sub_complement {w a b : Nat} (h : b ≤ a + 2 ^ w) : ((a + 2 ^ w - b : Nat) : Int).bmod (2 ^ w) = ((a : Int) - b).bmod (2 ^ w) := by
  rw [Nat.cast_sub h, Nat.cast_add, show (a : Int) + (2 ^ w : Nat) - b = a - b + (2 ^ w : Nat) by ring, Int.add_bmod_right]

theorem signedOf_subElem (hf : f.isInt = true) (hy : y < 2 ^ f.width) :
    signedOf f.width (subElem f x y % 2 ^ f.width) = (signedOf f.width x - signedOf f.width y).bmod (2 ^ f.width) := by
  rw [subElem, if_pos hf, signedOf_mod (width_pos f), signedOf_eq_bmod (width_pos f), signedOf_eq_bmod (width_pos f),
    Int.bmod_sub_bmod, Int.sub_bmod_bmod, bmod_sub_complement (by omega)]

theorem signedOf_mulElem (hf : f.isInt = true) :
    signedOf f.width (mulElem f x y % 2 ^ f.width) = (signedOf f.width x * signedOf f.width y).bmod (2 ^ f.width) := by
  rw [mulElem, if_pos hf, signedOf_mod (width_pos f), signedOf_eq_bmod (width_pos f), signedOf_eq_bmod (width_pos f),
    Int.bmod_mul_bmod, Int.mul_bmod_bmod, Nat.cast_mul]

/-- The reading of a complement is the balanced residue of the negated reading. -/
theorem signedOf_complement {w : Nat} (hw : 0 < w) (hx : x < 2 ^ w) : ((2 ^ w - x : Nat) : Int).bmod (2 ^ w) = (-signedOf w x).bmod (2 ^ w) := by
  rw [signedOf_eq_bmod hw, Int.bmod_neg_bmod, ← zero_sub, ← Nat.cast_zero (R := Int), ← bmod_sub_complement (by omega), Nat.zero_add]

theorem signedOf_negElem (hf : f.isInt = true) (hx : x < 2 ^ f.width) :
    signedOf f.width (negElem f x % 2 ^ f.width) = (-signedOf f.width x).bmod (2 ^ f.width) := by
  rw [negElem, if_pos hf, signedOf_mod (width_pos f), signedOf_complement (width_pos f) hx]

theorem signedOf_maxElem (hf : f.isInt = true) : signedOf f.width (maxElem f x y) = max (signedOf f.width x) (signedOf f.width y) := by
  rw [maxElem, if_pos hf]
  split <;> omega

theorem signedOf_minElem (hf : f.isInt = true) : signedOf f.width (minElem f x y) = min (signedOf f.width x) (signedOf f.width y) := by
  rw [minElem, if_pos hf]
  split <;> omega

theorem signedOf_absElem (hf : f.isInt = true) (hx : x < 2 ^ f.width) (h : signedOf f.width x ≠ -(2 ^ (f.width - 1))) :
    signedOf f.width (absElem f x) = (signedOf f.width x).natAbs := by
  obtain ⟨lo, hi⟩ := signedOf_range (width_pos f) x
  rw [absElem, if_pos hf]
  split
  · rw [signedOf_eq_bmod (width_pos f) (_ - x), signedOf_complement (width_pos f) hx, bmod_of_range (width_pos f)] <;> omega
  · omega

/-- The most negative element is its own complement. -/
theorem absElem_least (hf : f.isInt = true) (hx : x < 2 ^ f.width) (h : signedOf f.width x = -(2 ^ (f.width - 1))) : absElem f x = x := by
  have split : (2 : Nat) ^ f.width = 2 * 2 ^ (f.width - 1) := by rw [← pow_succ', Nat.sub_add_cancel (width_pos f)]
  have cast : ((2 ^ (f.width - 1) : Nat) : Int) = 2 ^ (f.width - 1) := by push_cast; rfl
  have cast' : ((2 ^ f.width : Nat) : Int) = 2 ^ f.width := by push_cast; rfl
  have pos : 0 < 2 ^ (f.width - 1) := by positivity
  rw [absElem, if_pos hf, if_pos (by omega)]
  simp only [signedOf, Nat.mod_eq_of_lt hx, ← cast, ← cast'] at h
  split at h <;> omega

theorem signedOf_sraElem {w : Nat} (hw : 0 < w) : signedOf w (sraElem w x y % 2 ^ w) = signedOf w x / 2 ^ (y % w) := by
  obtain ⟨lo, hi⟩ := signedOf_range hw x
  have pos : (0 : Int) < 2 ^ (y % w) := by positivity
  have one : (1 : Int) ≤ 2 ^ (y % w) := pos
  have half : (0 : Int) < 2 ^ (w - 1) := by positivity
  rw [sraElem, Nat.mod_eq_of_lt (lowBits_lt w _)]
  refine signedOf_lowBits_of_range hw ?_ ?_
  · exact (Int.le_ediv_iff_mul_le pos).mpr (by nlinarith)
  · exact (Int.ediv_lt_iff_lt_mul pos).mpr (by nlinarith)

theorem signedOf_addsatElem {w : Nat} (hw : 0 < w) :
    signedOf w (addsatElem w x y % 2 ^ w) = max (-(2 ^ (w - 1))) (min (2 ^ (w - 1) - 1) (signedOf w x + signedOf w y)) := by
  rw [addsatElem, Nat.mod_eq_of_lt (lowBits_lt w _), signedOf_clampInt hw, clampInt_eq]

end Words

end Sys2Proof.Machine

namespace Sys2Proof.Proofs

open Sys2Proof.Machine Sys2Proof.Claims

/-- Settles O16: every operation is one on balanced residues modulo 2^w. -/
theorem integerElementValues : Obligations.IntegerElementValues := by
  intro f x y hf hx hy
  exact ⟨signedOf_addElem hf, signedOf_subElem hf hy, signedOf_mulElem hf, signedOf_negElem hf hx, signedOf_maxElem hf, signedOf_minElem hf,
    signedOf_absElem hf hx, absElem_least hf hx, signedOf_sraElem (width_pos f), signedOf_addsatElem (width_pos f)⟩

end Sys2Proof.Proofs
end

section
/-!
PROOFS. M's words while no nest runs (R217 to R219): the place of a tile of rows in the own scratchpad, the words a drain writes, the
accumulators a load sets, and the record of nwait; from these O28 is assembled.
-/

namespace Sys2Proof.Machine

open Sys2Proof.Claims

/-! ## What an M word reads -/

theorem readC_ok {r : Nat} {v : BitVec 64} {s : State} (h : s.tile.getC r = gloved v) : readC r s = .ok (v, s) := by
  simp [readC, h]

theorem waitNest_ok {s : State} (h : s.tile.nest = none) : waitNest s = .ok ((), s) := by
  simp [waitNest, h]

theorem rangeCheck_ok {e : Eng} {s : State} (h : NoRange e s) (rd wr : List (Nat × Nat)) :
    rangeCheck (s.tile.eng e).pos rd wr s = .ok ((), s) := by
  simp [rangeCheck, h rd wr]

@[simp] theorem eng_M (t : Tile) : t.eng .M = t.eM := rfl

@[simp] theorem refM_apply (s : State) : refM s = .ok (s.refOf .M, s) := rfl

/-! ## Where a tile of rows lies (R95, R217) -/

/-- An own offset is the address less the start of its region. -/
theorem spadPlace_own_le {g a off : Nat} (h : spadPlace g a = .own off) : off ≤ a := by
  unfold spadPlace at h
  split at h
  · exact (SpadPlace.own.inj h).ge
  · split at h
    · dsimp only at h
      split at h
      · have own := SpadPlace.own.inj h
        omega
      · cases h
    · split at h <;> cases h

theorem spadPlace_low {g a : Nat} (h : a < 0x200000) : spadPlace g a = .own a := if_pos h

/-- Bytes of the own scratchpad lie in its region. -/
theorem placeSpan_own {g a off : Nat} (h : spadPlace g a = .own off) (ha : a < 2 ^ 32) {n : Nat} (hn : off + n ≤ 0x200000) :
    placeSpan g true a ((a : Int) + n - 1) = .ok (g, a - off, 0) := by
  have le := spadPlace_own_le h
  have low : ¬ ((a : Int) < 0 ∨ 2 ^ 32 ≤ (a : Int)) := by omega
  have inside : ¬ ((a - off : Int) + 0x200000 ≤ a + n - 1) := by omega
  simp only [placeSpan, if_neg low, Int.toNat_natCast, h, if_neg inside]

theorem checkedSpan_own {g a off : Nat} (le : off ≤ a) (n : Nat) :
    checkedSpan ((a : Int), (a : Int) + n - 1) (.ok (g, a - off, 0)) = [(off, n)] := by
  simp only [checkedSpan, List.cons.injEq, Prod.mk.injEq, and_true]
  omega

theorem least_append_nil (l : List Nat) (h : l = []) : least l = none := by rw [h]; rfl

theorem rowWords_pos (nc : Nat) (f : Fmt) : 0 < rowWords nc f.width := by
  have one : 1 ≤ (nc + 1) * f.width := Nat.mul_pos nc.succ_pos (width_pos f)
  simp only [rowWords]
  omega

/-- Rows that lie in banks of the format or RAW are not refused (R217). -/
theorem refusedByte_none {s : State} {f : Fmt} {mr nc off : Nat} (hn : off + tileBytes mr nc f.width ≤ 0x200000)
    (hb : ∀ i ≤ mr, ∀ x < 8 * rowWords nc f.width, s.bankFmt s.cur (off + i * 32 * f.width + x) = f ∨
      s.bankFmt s.cur (off + i * 32 * f.width + x) = .raw) : refusedByte s.tile f mr nc [off] = none := by
  refine least_append_nil _ (List.flatMap_eq_nil_iff.mpr fun o ho => List.flatMap_eq_nil_iff.mpr fun r hr =>
    List.filterMap_eq_nil_iff.mpr fun k hk => if_neg ?_)
  obtain rfl := List.mem_singleton.mp ho
  obtain ⟨a, ha⟩ : ∃ a, o + r * 32 * f.width = a := ⟨_, rfl⟩
  have row : r * 32 * f.width ≤ mr * 32 * f.width :=
    Nat.mul_le_mul_right _ (Nat.mul_le_mul_right _ (Nat.lt_succ_iff.mp (List.mem_range.mp hr)))
  simp only [List.mem_range, ha] at hk
  simp only [tileBytes] at hn
  have some := rowWords_pos nc f
  obtain ⟨x, hx, bank⟩ : ∃ x < 8 * rowWords nc f.width, (a + x) / 65536 = a / 65536 + k := by
    cases k with
    | zero => exact ⟨0, by omega, rfl⟩
    | succ k => exact ⟨(a / 65536 + (k + 1)) * 65536 - a, by omega, by omega⟩
  have inside : (a + x) / 65536 % 32 = a / 65536 + k := by omega
  have ok := hb r (Nat.lt_succ_iff.mp (List.mem_range.mp hr)) x hx
  rw [ha, State.bankFmt, State.spadFmt, Tile.bankOf, inside] at ok
  simp only [ha, Bool.not_eq_true', decide_eq_false_iff_not, not_not]
  exact ok

/-! ## The words of a drain (R217) -/

/-- The tile once the draws of `e` elements are reserved on M's counter (R78). -/
def Tile.drewM (t : Tile) (rm : Rm) (e : Nat) : Tile :=
  if rm = .rs then { t with nrsM := t.nrsM + BitVec.ofNat 64 ((e + 3) / 4) } else t

/-- The words that a drain of `t` writes, row by row: converted accumulators, scaled row by row, and zero past the last column. -/
def drainWords (t : Tile) (off : Nat) (f : Fmt) (rm : Rm) (sat mr nc : Nat) (scale : Nat → FVal → FVal) : List (Nat × GWord) :=
  (List.range (mr + 1)).flatMap fun i => (List.range (rowWords nc f.width)).map fun k =>
    (off + i * 32 * f.width + 8 * k, gloved (wordOf f.width fun e => if k * (64 / f.width) + e ≤ nc then
      toFloat f rm sat (rsDraw t.wid t.nrsM 2 (i * (nc + 1) + (k * (64 / f.width) + e)))
        (scale i (elemValue .fp32 (t.accAt i (k * (64 / f.width) + e)))) else 0))

theorem foldl_write_eq_writeAt (l : List (Nat × GWord)) (m : Mem) : l.foldl (fun m x => m.write x.1 x.2) m = m.writeAt l := by
  induction l generalizing m with
  | nil => rfl
  | cons p l ih => exact ih _

/-- A row of at most 256 elements has its words within its pitch. -/
theorem rowWords_le {nc : Nat} (h : nc < 256) (w : Nat) : rowWords nc w ≤ 4 * w := by
  have row : (nc + 1) * w ≤ 256 * w := Nat.mul_le_mul_right w h
  simp only [rowWords]
  omega

theorem nc_lt (n : NestTab) : n.nc < 256 := Nat.mod_lt _ (by decide)

/-- The words of two places of a tile of rows share no doubleword. -/
theorem drainWords_pairwise (t : Tile) (off : Nat) (f : Fmt) (rm : Rm) (sat mr : Nat) {nc : Nat} (h : nc < 256) (scale : Nat → FVal → FVal) :
    (drainWords t off f rm sat mr nc scale).Pairwise fun p q => p.1 / 8 ≠ q.1 / 8 := by
  have fits := rowWords_le h f.width
  have place (i k : Nat) : (off + i * 32 * f.width + 8 * k) / 8 = off / 8 + (i * (4 * f.width) + k) := by
    rw [show off + i * 32 * f.width + 8 * k = off + 8 * (i * (4 * f.width) + k) by ring, Nat.add_mul_div_left _ _ (by decide)]
  refine List.pairwise_flatMap.mpr ⟨fun i _ => List.pairwise_map.mpr (List.pairwise_lt_range.imp fun hk => ?_),
    List.pairwise_lt_range.imp fun {i j} hij p hp r hr => ?_⟩
  · simp only [place]
    omega
  · obtain ⟨k, hk, rfl⟩ := List.mem_map.mp hp
    obtain ⟨l, hl, rfl⟩ := List.mem_map.mp hr
    have step : (i + 1) * (4 * f.width) ≤ j * (4 * f.width) := Nat.mul_le_mul_right _ hij
    rw [List.mem_range] at hk hl
    simp only [place]
    rw [Nat.succ_mul] at step
    omega

/-- The scaling of rows by bands of 64 (R217). -/
def bandScale (band : Option (List FVal)) (i : Nat) (x : FVal) : FVal :=
  match band with
  | some b => x.mul (b.getD (i / 64) (.fin false 0 0))
  | none => x

theorem drainTo_ok (off : Nat) (f : Fmt) (rm : Rm) (sat mr nc : Nat) (band : Option (List FVal)) (s : State) :
    drainTo off f rm sat mr nc band s = .ok ((), s.setTile { s.tile.drewM rm ((mr + 1) * (nc + 1)) with
      spad := s.tile.spad.writeAt (drainWords s.tile off f rm sat mr nc (bandScale band)) }) := by
  by_cases h : rm = .rs
  · simp only [drainTo, reserveM, h, if_true, eff_bind, getTile_apply, modTile_apply, eff_pure, tile_setTile, setTile_setTile,
      foldl_write_eq_writeAt, Tile.drewM]
    rfl
  · simp only [drainTo, reserveM, h, if_false, eff_bind, getTile_apply, modTile_apply, eff_pure, foldl_write_eq_writeAt, Tile.drewM]
    rfl

/-- A word that ends with drained words leaves the scratchpad as `SpadSet` says. -/
theorem spadSet_writeAt {e : Eng} {s : State} {t : Tile} {l : List (Nat × GWord)} {r : Res}
    (hr : r = went e s { t with spad := s.tile.spad.writeAt l }) (hl : l.Pairwise fun p q => p.1 / 8 ≠ q.1 / 8) : SpadSet e s t l r :=
  ⟨_, hr, read_writeAt hl _, fun _ ha => byte_writeAt_other ha _⟩

/-! ## Accumulators (R218) -/

/-- Accumulators set from a list that gives each place one value. -/
theorem accAt_setAccs (val : Nat → Nat → Nat) {l : List (Nat × Nat × Nat)} (hl : ∀ x ∈ l, x.2.1 < 256 ∧ x.2.2 = val x.1 x.2.1) (t : Tile)
    (i : Nat) {j : Nat} (hj : j < 256) :
    (setAccs l t).accAt i j = if ∃ x ∈ l, x.1 = i ∧ x.2.1 = j then val i j % 2 ^ 32 else t.accAt i j := by
  induction l generalizing t with
  | nil => simp [setAccs]
  | cons x l ih =>
    obtain ⟨⟨hx, hv⟩, hl⟩ := List.forall_mem_cons.mp hl
    have first : setAccs (x :: l) t = setAccs l (setAccs [x] t) := rfl
    rw [first, ih hl]
    by_cases later : ∃ x ∈ l, x.1 = i ∧ x.2.1 = j
    · rw [if_pos later, if_pos (List.exists_mem_cons_of_exists later)]
    · rw [if_neg later]
      by_cases here : x.1 = i ∧ x.2.1 = j
      · rw [if_pos ⟨x, List.mem_cons_self, here⟩]
        obtain ⟨rfl, rfl⟩ := here
        simp [setAccs, Tile.accAt, hv]
      · have none : ¬ ∃ y ∈ x :: l, y.1 = i ∧ y.2.1 = j := by
          simpa only [List.exists_mem_cons_iff, not_or] using And.intro here later
        rw [if_neg none]
        simp only [setAccs, Tile.accAt, List.foldl_cons, List.foldl_nil]
        rw [mapGet_mapSet_other _ _ _ (by omega)]

/-- Row and word number of the words of a tile of rows, in order. -/
def rowPlaces (mr nc w : Nat) : List (Nat × Nat) :=
  (List.range (mr + 1)).flatMap fun r => (List.range (rowWords nc w)).map fun k => (r, k)

theorem mem_rowPlaces {mr nc w : Nat} {p : Nat × Nat} : p ∈ rowPlaces mr nc w ↔ p.1 ≤ mr ∧ p.2 < rowWords nc w := by
  obtain ⟨r, k⟩ := p
  simp [rowPlaces]

/-- The accumulators that a load of a tile of words `y` sets: row, column and FP32 value of each element. -/
def loadedAccs (fm : Fmt) (mr nc : Nat) (y : Nat → Nat → BitVec 64) : List (Nat × Nat × Nat) :=
  ((rowPlaces mr nc fm.width).map fun p => (p.1, p.2, y p.1 p.2)).flatMap fun x => (List.range (64 / fm.width)).filterMap fun i =>
    if x.2.1 * (64 / fm.width) + i ≤ nc then
      some (x.1, x.2.1 * (64 / fm.width) + i, toFloat .fp32 .rne 0 0 (elemValue fm (elemOf fm.width x.2.2 i))) else none

theorem mem_loadedAccs {fm : Fmt} {mr nc : Nat} {y : Nat → Nat → BitVec 64} {x : Nat × Nat × Nat} : x ∈ loadedAccs fm mr nc y ↔
    ∃ i ≤ mr, ∃ k < rowWords nc fm.width, ∃ e < 64 / fm.width, k * (64 / fm.width) + e ≤ nc ∧
      x = (i, k * (64 / fm.width) + e, toFloat .fp32 .rne 0 0 (elemValue fm (elemOf fm.width (y i k) e))) := by
  simp only [loadedAccs, List.mem_flatMap, List.mem_map, List.mem_filterMap, List.mem_range, Option.ite_none_right_eq_some, Option.some.injEq,
    mem_rowPlaces]
  constructor
  · rintro ⟨_, ⟨⟨i, k⟩, ⟨hi, hk⟩, rfl⟩, e, he, hle, rfl⟩
    exact ⟨i, hi, k, hk, e, he, hle, rfl⟩
  · rintro ⟨i, hi, k, hk, e, he, hle, rfl⟩
    exact ⟨_, ⟨(i, k), ⟨hi, hk⟩, rfl⟩, e, he, hle, rfl⟩

/-- Accumulator (i, j) of a load is the element of its word; the others keep their value. -/
theorem accAt_loadedAccs {fm : Fmt} (hf : fm = .fp32 ∨ fm = .bf16) (y : Nat → Nat → BitVec 64) (mr : Nat) {nc : Nat} (t : Tile) (i : Nat)
    {j : Nat} (hn : nc < 256) (hj : j < 256) : (setAccs (loadedAccs fm mr nc y) t).accAt i j = if i ≤ mr ∧ j ≤ nc then
      toFloat .fp32 .rne 0 0 (elemValue fm (elemOf fm.width (y i (j / (64 / fm.width))) (j % (64 / fm.width)))) % 2 ^ 32
      else t.accAt i j := by
  have perWord : 0 < 64 / fm.width ∧ ∀ j ≤ nc, j / (64 / fm.width) < rowWords nc fm.width := by
    obtain rfl | rfl := hf <;> simp only [Fmt.width, rowWords] <;> exact ⟨by decide, fun j _ => by omega⟩
  obtain ⟨pos, inRow⟩ := perWord
  rw [accAt_setAccs (fun i j => toFloat .fp32 .rne 0 0
    (elemValue fm (elemOf fm.width (y i (j / (64 / fm.width))) (j % (64 / fm.width))))) ?_ t i hj]
  · refine if_congr ⟨?_, fun ⟨hi, hj⟩ => ?_⟩ rfl rfl
    · rintro ⟨x, hx, rfl, rfl⟩
      obtain ⟨i, hi, k, hk, e, he, hle, rfl⟩ := mem_loadedAccs.mp hx
      exact ⟨hi, hle⟩
    · exact ⟨_, mem_loadedAccs.mpr ⟨i, hi, _, inRow j hj, _, Nat.mod_lt j pos, (Nat.div_add_mod' j _).trans_le hj, rfl⟩, rfl,
        Nat.div_add_mod' j _⟩
  · intro x hx
    obtain ⟨i, hi, k, hk, e, he, hle, rfl⟩ := mem_loadedAccs.mp hx
    refine ⟨hle.trans_lt hn, ?_⟩
    dsimp only
    rw [Nat.mul_comm k, Nat.mul_add_mod, Nat.mod_eq_of_lt he, Nat.mul_add_div pos, Nat.div_eq_of_lt he, Nat.add_zero]

theorem loadRows_ok {off a pitch : Nat} {y : Nat → Nat → BitVec 64} {l : List (Nat × Nat)} {s : State}
    (h : ∀ p ∈ l, s.tile.spad.read (off + (p.1 * pitch + 8 * p.2)) = gloved (y p.1 p.2)) :
    loadRows off a pitch l s = .ok (l.map fun p => (p.1, p.2, y p.1 p.2), s) := by
  induction l with
  | nil => rfl
  | cons p l ih =>
    obtain ⟨hp, hl⟩ := List.forall_mem_cons.mp h
    simp only [loadRows, eff_bind, getTile_apply, hp, check_gloved, ih hl, eff_pure, List.map_cons]

/-! ## The words (R217 to R219) -/

theorem exec_nzero {g : BitVec 4} {s : State} (h : EReady .M g s) (hn : s.tile.nest = none) :
    exec (.nzero g) s = went .M s { s.tile with acc := [] } :=
  runE_went h (by simp only [eff_bind, waitNest_ok hn, modTile_apply]) ((Holds.refl s).write _)

theorem exec_nwait {g : BitVec 4} {s : State} (h : EReady .M g s) (hn : s.tile.nest = none) (tag : BitVec 9) :
    exec (.nwait g tag) s = went .M s { s.tile with
      nwaits := s.tile.nwaits ++ [(s.refOf .M, tag.toNat, s.tile.nsteps % 2 ^ 32)], nsteps := 0 } :=
  runE_went h (by simp only [eff_bind, waitNest_ok hn, refM_apply, modTile_apply]) ((Holds.refl s).write _)

/-- The oldest record enters an event queue that has room (R64, R219). -/
theorem exec_nwaitPost {k : Nat} {p : WordRef × Nat × Nat} {rest : List (WordRef × Nat × Nat)} {s : State}
    (hp : (s.tileAt k).nwaits = p :: rest) (hw : (s.tileAt k).works = true) (hh : (s.tileAt k).holds .M = false)
    (hr : (s.tileAt k).eq.length < 64) (hd : s.dmode (k / 16) = 0) :
    exec (.nwaitPost k) s = .next (s.setTileAt k { s.tileAt k with
      nwaits := rest, eq := (s.tileAt k).eq ++ [⟨eventWord 2 p.2.1 0 p.2.2, []⟩] }) := by
  have off (t : Tile) : (s.setTileAt k t).dmode (k / 16) = 0 := hd
  have post : exec (.nwaitPost k) s = .next ((s.setTileAt k { s.tileAt k with nwaits := rest }).postEvent k .M p.1.idx
      ⟨eventWord 2 p.2.1 0 p.2.2, []⟩) := by
    show execNwaitPost k s = _
    simp only [execNwaitPost, hp, hw, hh, Bool.false_eq_true, not_false_eq_true, and_self, if_true]
  simp only [post, State.postEvent, State.traceRec, tileAt_setTileAt_self, setTileAt_setTileAt, Tile.post, hr, if_true, off]

section Rows

variable {g c f b : BitVec 4} {cs : BitVec 64} {fm : Fmt} {off : Nat} {s : State}

/-- A tile of rows that an M word may use: its address in a c register, in the own scratchpad and in banks of its format (R217). -/
structure RowsAt (s : State) (c f : BitVec 4) (cs : BitVec 64) (fm : Fmt) (off : Nat) : Prop where
  addr : s.tile.getC c.toNat = gloved cs
  low : cs.toNat < 2 ^ 32
  aligned : cs.toNat % 8 = 0
  place : spadPlace s.cur cs.toNat = .own off
  fits : off + tileBytes s.tile.shadow.mr s.tile.shadow.nc fm.width ≤ 0x200000
  fmt : fmtOfCode f.toNat = some fm
  banks : ∀ i ≤ s.tile.shadow.mr, ∀ x < 8 * rowWords s.tile.shadow.nc fm.width,
    s.bankFmt s.cur (off + i * 32 * fm.width + x) = fm ∨ s.bankFmt s.cur (off + i * 32 * fm.width + x) = .raw

namespace RowsAt

variable (h : RowsAt s c f cs fm off)

include h

theorem high : bits cs 63 32 = 0 := by
  have low := h.low
  simp only [bits]
  omega

theorem addrBits : bits cs 31 0 = cs.toNat := by
  simp only [bits, pow_zero, Nat.div_one]
  exact Nat.mod_eq_of_lt h.low

theorem span : placeSpan s.cur true cs.toNat ((cs.toNat : Int) + tileBytes s.tile.shadow.mr s.tile.shadow.nc fm.width - 1) =
    .ok (s.cur, cs.toNat - off, 0) := placeSpan_own h.place h.low h.fits

theorem checked (n : Nat) : checkedSpan ((cs.toNat : Int), (cs.toNat : Int) + n - 1) (.ok (s.cur, cs.toNat - off, 0)) = [(off, n)] :=
  checkedSpan_own (spadPlace_own_le h.place) n

theorem accepted : refusedByte s.tile fm s.tile.shadow.mr s.tile.shadow.nc [off] = none := refusedByte_none h.fits h.banks

end RowsAt

variable (h : EReady .M g s) (hn : s.tile.nest = none) (hr : NoRange .M s) (rows : RowsAt s c f cs fm off)

include h hn hr rows

theorem exec_nload (hf : fm = .fp32 ∨ fm = .bf16) {y : Nat → Nat → BitVec 64}
    (hy : ∀ i ≤ s.tile.shadow.mr, ∀ k < rowWords s.tile.shadow.nc fm.width,
      s.tile.spad.read (off + i * 32 * fm.width + 8 * k) = gloved (y i k)) :
    exec (.nload g c f) s = went .M s (setAccs (loadedAccs fm s.tile.shadow.mr s.tile.shadow.nc y) s.tile) := by
  have nrange := rangeCheck_ok (e := .M) hr
  rw [eng_M] at nrange
  refine runE_went h ?_ ((Holds.refl s).write _)
  have fmt : decide (fm = .fp32 ∨ fm = .bf16) = true := decide_eq_true hf
  have words := loadRows_ok (off := off) (a := cs.toNat) (pitch := 32 * fm.width) (y := y)
    (l := rowPlaces s.tile.shadow.mr s.tile.shadow.nc fm.width) (s := s) (fun p hp => by
      obtain ⟨hi, hk⟩ := mem_rowPlaces.mp hp
      rw [← hy p.1 hi p.2 hk, Nat.add_assoc, Nat.mul_assoc])
  rw [rowPlaces] at words
  simp only [eff_bind, waitNest_ok hn, curTile_apply, readC_ok rows.addr, getTile_apply, rows.fmt, Option.getD_some, rows.high,
    rows.addrBits, rows.aligned, ne_eq, not_true_eq_false, decide_false, raiseIf_false, rows.span, spanFaults, least, fmt, Bool.not_true,
    rows.checked, List.head?_cons, Option.map_some, rows.accepted, nrange, words, modTile_apply, loadedAccs, rowPlaces]

/-- A drain without scales (R217). -/
theorem exec_ndrain_plain {r : BitVec 3} {rm : Rm} (hf : drainFmt fm = true) (hm : rmOfCode r.toNat = some rm) (st : BitVec 2)
    (hb : s.tile.getC b.toNat = gloved 0#64) :
    SpadSet .M s (s.tile.drewM rm ((s.tile.shadow.mr + 1) * (s.tile.shadow.nc + 1)))
      (drainWords s.tile off fm rm st.toNat s.tile.shadow.mr s.tile.shadow.nc fun _ v => v) (exec (.ndrain g c f r st b) s) := by
  have nrange := rangeCheck_ok (e := .M) hr
  rw [eng_M] at nrange
  refine spadSet_writeAt (runE_went h ?_ ((Holds.refl s).write _)) (drainWords_pairwise _ _ _ _ _ _ (nc_lt _) _)
  have noBand : bit 0#64 32 = false := rfl
  have zero (hi lo : Nat) : bits 0#64 hi lo = 0 := by simp [bits]
  simp only [eff_bind, waitNest_ok hn, curTile_apply, readC_ok rows.addr, readC_ok hb, getTile_apply, rows.fmt, Option.getD_some, rows.high,
    rows.addrBits, rows.aligned, noBand, zero, ne_eq, not_true_eq_false, or_self, decide_false, Bool.and_false,
    Bool.or_self, raiseIf_false, rows.span, if_false, Bool.false_eq_true, spanFaults, least, hf, Bool.not_true, rows.checked, List.head?_cons,
    Option.map_some, rows.accepted, nrange, eff_pure, hm, drainTo_ok]
  rfl

/-- A drain whose rows are scaled by bands (R217): two words of BF16 scales in the own scratchpad. -/
theorem exec_ndrain_band {r : BitVec 3} {rm : Rm} {boff : Nat} {u0 u1 : BitVec 64} (hf : drainFmt fm = true)
    (hm : rmOfCode r.toNat = some rm) (st : BitVec 2) (hb : s.tile.getC b.toNat = gloved (BitVec.ofNat 64 (2 ^ 32 + boff)))
    (ha : boff % 8 = 0) (hl : boff + 16 ≤ 0x200000)
    (hbank : ∀ o ∈ [boff, boff + 8], s.bankFmt s.cur o = .bf16 ∨ s.bankFmt s.cur o = .raw)
    (h0 : s.tile.spad.read boff = gloved u0) (h1 : s.tile.spad.read (boff + 8) = gloved u1) :
    SpadSet .M s (s.tile.drewM rm ((s.tile.shadow.mr + 1) * (s.tile.shadow.nc + 1)))
      (drainWords s.tile off fm rm st.toNat s.tile.shadow.mr s.tile.shadow.nc (bandScale (some ((List.range 6).map fun i =>
        elemValue .bf16 (if i < 4 then elemOf 16 u0 i else elemOf 16 u1 (i - 4)))))) (exec (.ndrain g c f r st b) s) := by
  have nrange := rangeCheck_ok (e := .M) hr
  rw [eng_M] at nrange
  refine spadSet_writeAt (runE_went h ?_ ((Holds.refl s).write _)) (drainWords_pairwise _ _ _ _ _ _ (nc_lt _) _)
  have value : (BitVec.ofNat 64 (2 ^ 32 + boff)).toNat = 2 ^ 32 + boff := by
    rw [BitVec.toNat_ofNat]
    omega
  have band : bit (BitVec.ofNat 64 (2 ^ 32 + boff)) 32 = true := by
    rw [← bits_eq_one_iff, bits, value]
    omega
  have upper : bits (BitVec.ofNat 64 (2 ^ 32 + boff)) 63 33 = 0 := by
    rw [bits, value]
    omega
  have lower : bits (BitVec.ofNat 64 (2 ^ 32 + boff)) 31 0 = boff := by
    rw [bits, value]
    omega
  have bspan : placeSpan s.cur true boff ((boff : Int) + 15) = .ok (s.cur, boff - boff, 0) := by
    have span := placeSpan_own (g := s.cur) (spadPlace_low (a := boff) (by omega)) (by omega) hl
    rwa [show ((boff : Int) + (16 : Nat) - 1) = boff + 15 by omega] at span
  have bchecked : checkedSpan ((boff : Int), (boff : Int) + 15) (.ok (s.cur, boff - boff, 0)) = [(boff, 16)] := by
    have checked := checkedSpan_own (g := s.cur) (le_refl boff) 16
    rwa [show ((boff : Int) + (16 : Nat) - 1) = boff + 15 by omega] at checked
  have bbank : [0, 8].find? (fun o => !decide ((fmtOfCode (s.tile.bankOf (boff + o))).getD Fmt.raw = .bf16 ∨
      (fmtOfCode (s.tile.bankOf (boff + o))).getD Fmt.raw = .raw)) = none := by
    refine List.find?_eq_none.mpr fun o ho => ?_
    rw [Bool.not_eq_true', Bool.not_eq_false, decide_eq_true_eq]
    obtain rfl | rfl : o = 0 ∨ o = 8 := by simpa using ho
    · exact hbank boff (by simp)
    · exact hbank (boff + 8) (by simp)
  simp only [eff_bind, waitNest_ok hn, curTile_apply, readC_ok rows.addr, readC_ok hb, getTile_apply, rows.fmt, Option.getD_some, rows.high,
    rows.addrBits, rows.aligned, band, upper, lower, ha, ne_eq, not_true_eq_false, or_self, decide_false, Bool.not_true, Bool.and_false,
    Bool.false_and, Bool.or_self, raiseIf_false, rows.span, bspan, if_true, spanFaults, least, hf, rows.checked, bchecked, List.head?_cons,
    Option.map_some, rows.accepted, bbank, nrange, h0, h1, check_gloved, eff_pure, hm, drainTo_ok]

end Rows

/-! ## The clauses of O28 -/

/-- The words of a drain depend on the scale of its own rows only. -/
theorem drainWords_congr (t : Tile) (off : Nat) (f : Fmt) (rm : Rm) (sat mr nc : Nat) {x y : Nat → FVal → FVal}
    (h : ∀ i ≤ mr, x i = y i) : drainWords t off f rm sat mr nc x = drainWords t off f rm sat mr nc y := by
  refine List.flatMap_congr fun i hi => ?_
  rw [h i (Nat.lt_succ_iff.mp (List.mem_range.mp hi))]

/-- The scale of a row is that of its band. -/
theorem bandScale_six (x : Nat → FVal) {i : Nat} (hi : i ≤ 383) : bandScale (some ((List.range 6).map x)) i = fun v => v.mul (x (i / 64)) := by
  funext v
  have six : i / 64 < 6 := by omega
  simp [bandScale, List.getD, six]

theorem drainFmt_of {fm : Fmt} (h : fm = .fp32 ∨ fm = .bf16 ∨ fm = .e4m3 ∨ fm = .e5m2) : drainFmt fm = true := decide_eq_true h

end Sys2Proof.Machine

namespace Sys2Proof.Proofs

open Sys2Proof.Machine Sys2Proof.Claims

/-- Settles O28: the words of a drain share no doubleword, and a load sets each active accumulator once. -/
theorem drainLoadWaitResult : Obligations.DrainLoadWaitResult := by
  intro g c f b r st tag cs u0 u1 y fm rm off boff s h hn hr
  refine ⟨exec_nzero h hn, exec_nwait h hn tag, fun ha hlow hal hp hfit hfm hmr hbank => ?_,
    fun k p rest hp hw hh hroom hd => exec_nwaitPost hp hw hh hroom hd⟩
  have rows : RowsAt s c f cs fm off := ⟨ha, hlow, hal, hp, hfit, hfm, hbank⟩
  refine ⟨fun hf hm => ⟨exec_ndrain_plain h hn hr rows (drainFmt_of hf) hm st, fun hb hba hbl hbb h0 h1 => ?_⟩, fun hf hy => ?_⟩
  · have drained := exec_ndrain_band h hn hr rows (drainFmt_of hf) hm st hb hba hbl hbb h0 h1
    rwa [drainWords_congr _ _ _ _ _ _ _ fun i hi => bandScale_six _ (hi.trans hmr)] at drained
  · exact ⟨_, exec_nload h hn hr rows hf hy, fun i j hj => accAt_loadedAccs hf y _ s.tile i (nc_lt _) hj⟩

end Sys2Proof.Proofs
end

section
/-!
PROOFS. Rounding and conversion of vector elements under VRM (R78, R83, R179, R181, R182): words computed lane by lane, words read by key
and written to a list of lanes, and the elements of a conversion, from which O18 is assembled.
-/

namespace Sys2Proof.Machine

open Sys2Proof.Claims

/-! ## Words of V, M and D that trap (R55, R355) -/

theorem runE_trapped {e : Eng} {g : BitVec 4} {body : Eff Unit} {s : State} {i : TrapInfo} {l : List LogReq} (h : EReady e g s) (he : e ≠ .S)
    (hb : body s = .error (.trap i l)) : runE e g body s = .next (preciseTrap e i l s) := by
  obtain ⟨⟨hr, hl, hs, hm⟩, hg⟩ := h
  simp only [runE, eff_run, eff_bind, beginE_ok hr hl hs hm, guardOn_apply, hg, if_true, hb]
  exact finish_trap (.inr (.inl he))

/-! ## Lanes (R171, R173) -/

theorem mem_lanesOf {k : BitVec 128} {i : Nat} : i ∈ lanesOf k ↔ i < 128 ∧ k.getLsbD i = true := by
  simp [lanesOf]

theorem readLane_ok {r i : Nat} {v : BitVec 64} {s : State} (h : s.tile.getV r i = gloved v) : readLane r i s = .ok (v, s) := by
  simp [readLane, h]

@[simp] theorem writeLane_apply (r i : Nat) (v : BitVec 64) (s : State) :
    writeLane r i v s = .ok ((), s.setTile (s.tile.setV r i (gloved v))) := rfl

/-- A lane of a register after one lane is written. -/
theorem getV_setV (t : Tile) {d j : Nat} (hj : j < 128) (w : GWord) (r : Nat) {i : Nat} (hi : i < 128) :
    (t.setV d j w).getV r i = if r = d ∧ i = j then w else t.getV r i := by
  by_cases h : r = d ∧ i = j
  · rw [if_pos h, h.1, h.2, getV_setV_self]
  · rw [if_neg h, getV_setV_other _ _ (by omega)]

/-- `u` is `s` whose tile has the lanes `l` of register `d` as `w` gives them. -/
def LanesPut (s : State) (d : Nat) (l : List Nat) (w : Nat → GWord) (u : State) : Prop :=
  Holds s { s.tile with v := u.tile.v } u ∧
    ∀ r, ∀ i < 128, u.tile.getV r i = if r = d ∧ i ∈ l then w i else s.tile.getV r i

theorem LanesPut.refl (s : State) (d : Nat) (w : Nat → GWord) : LanesPut s d [] w s :=
  ⟨.refl s, fun r i _ => by simp⟩

/-- One lane more, written first. -/
theorem LanesPut.cons {s u : State} {d j : Nat} {l : List Nat} {w : Nat → GWord} (hj : j < 128)
    (h : LanesPut (s.setTile (s.tile.setV d j (w j))) d l w u) : LanesPut s d (j :: l) w u := by
  obtain ⟨⟨tile, set⟩, lanes⟩ := h
  rw [tile_setTile] at tile
  refine ⟨⟨tile, fun x => (set x).trans (setTile_setTile s _ x)⟩, fun r i hi => ?_⟩
  rw [lanes r i hi, tile_setTile, getV_setV _ hj _ _ hi]
  by_cases hr : r = d <;> by_cases later : i ∈ l <;> by_cases now : i = j <;> simp [hr, later, now]

/-- A word with one source writes its function of each lane of a list. -/
theorem eachLane_read_write {a d : Nat} {f : BitVec 64 → BitVec 64} {x : Nat → BitVec 64} {l : List Nat} {s : State} (hn : l.Nodup)
    (hl : ∀ i ∈ l, i < 128 ∧ s.tile.getV a i = gloved (x i)) : ∃ u,
    eachLane l (fun i => do
      let v ← readLane a i
      writeLane d i (f v)) s = .ok ((), u) ∧ LanesPut s d l (fun i => gloved (f (x i))) u := by
  induction l generalizing s with
  | nil => exact ⟨s, rfl, .refl s _ _⟩
  | cons j l ih =>
    obtain ⟨hj, hn⟩ := List.nodup_cons.mp hn
    obtain ⟨⟨low, here⟩, hl⟩ := List.forall_mem_cons.mp hl
    obtain ⟨u, hu, put⟩ := ih (s := s.setTile (s.tile.setV d j (gloved (f (x j))))) hn fun i hi => by
      refine ⟨(hl i hi).1, ?_⟩
      have other : i ≠ j := fun e => hj (e ▸ hi)
      rw [tile_setTile, getV_setV _ low _ _ (hl i hi).1, if_neg fun h => other h.2, (hl i hi).2]
    refine ⟨u, ?_, .cons low put⟩
    simp only [eachLane, eff_bind, readLane_ok here, writeLane_apply]
    exact hu

theorem putLanes_ok (d : Nat) (w : Nat → GWord) {l : List Nat} (hl : ∀ i ∈ l, i < 128) (s : State) : ∃ u,
    putLanes d (l.map fun i => (i, w i)) s = .ok ((), u) ∧ LanesPut s d l w u := by
  induction l generalizing s with
  | nil => exact ⟨s, rfl, .refl s _ _⟩
  | cons j l ih =>
    obtain ⟨hj, hl⟩ := List.forall_mem_cons.mp hl
    obtain ⟨u, hu, put⟩ := ih hl (s.setTile (s.tile.setV d j (w j)))
    exact ⟨u, by simp only [List.map_cons, putLanes, eff_bind, modTile_apply, hu], .cons hj put⟩

/-! ## Words by key (R173, R174) -/

/-- A key that is listed, always with one value, reads that value. -/
theorem mapGet_of_mem {α : Type} (d : α) {m : SMap α} {n : Nat} {v : α} (hm : ∃ p ∈ m, p.1 = n) (hv : ∀ p ∈ m, p.1 = n → p.2 = v) :
    mapGet d m n = v := by
  induction m with
  | nil => simp at hm
  | cons p m ih =>
    obtain ⟨k, x⟩ := p
    obtain ⟨here, later⟩ := List.forall_mem_cons.mp hv
    by_cases h : n = k
    · rw [mapGet, if_pos h]
      exact here h.symm
    · rw [mapGet, if_neg h]
      refine ih ?_ later
      obtain ⟨p, hp, rfl⟩ := hm
      obtain rfl | hp := List.mem_cons.mp hp
      · exact absurd rfl h
      · exact ⟨p, hp, rfl⟩

/-- The data of the word of a key. -/
def keyData (s : State) (k : Nat) : BitVec 64 := (s.tile.getV (k / 128) (k % 128)).data

/-- Words of listed keys, none in error, are read with their data. -/
theorem readKeys_ok {s : State} {ks : List Nat} (h : ∀ k ∈ ks, s.tile.getV (k / 128) (k % 128) = gloved (keyData s k))
    {seen : SMap (BitVec 64)} (hs : ∀ p ∈ seen, p.2 = keyData s p.1) : ∃ ws, readKeys ks seen s = .ok (ws, s) ∧
      (∀ p ∈ ws, p.2 = keyData s p.1) ∧ (∀ p ∈ seen, p ∈ ws) ∧ ∀ k ∈ ks, ∃ p ∈ ws, p.1 = k := by
  induction ks generalizing seen with
  | nil => exact ⟨seen, rfl, hs, fun _ => id, by simp⟩
  | cons k ks ih =>
    obtain ⟨hk, h⟩ := List.forall_mem_cons.mp h
    by_cases old : seen.any (fun p => decide (p.1 = k)) = true
    · obtain ⟨ws, hw, val, keep, all⟩ := ih h hs
      refine ⟨ws, by simp only [readKeys, old, if_true, hw], val, keep, List.forall_mem_cons.mpr ⟨?_, all⟩⟩
      obtain ⟨p, hp, e⟩ := List.any_eq_true.mp old
      exact ⟨p, keep p hp, of_decide_eq_true e⟩
    · obtain ⟨ws, hw, val, keep, all⟩ := ih h (seen := seen ++ [(k, keyData s k)]) fun p hp => by
        obtain hp | hp := List.mem_append.mp hp
        · exact hs p hp
        · rw [List.mem_singleton.mp hp]
      refine ⟨ws, by simp only [readKeys, old, if_false, eff_bind, readLane_ok hk, hw, Bool.false_eq_true], val,
        fun p hp => keep p (List.mem_append_left _ hp), List.forall_mem_cons.mpr ⟨?_, all⟩⟩
      exact ⟨_, keep _ (List.mem_append_right _ (List.mem_singleton_self _)), rfl⟩

/-- A lane whose key was read. -/
theorem mapGet_keyLanes {s : State} {ws : SMap (BitVec 64)} (hv : ∀ p ∈ ws, p.2 = keyData s p.1) {r i : Nat} (hi : i < 128)
    (hk : ∃ p ∈ ws, p.1 = 128 * r + i) : mapGet 0#64 (keyLanes r ws) i = (s.tile.getV r i).data := by
  have parts : (128 * r + i) / 128 = r ∧ (128 * r + i) % 128 = i := by omega
  refine mapGet_of_mem _ ?_ ?_
  · obtain ⟨p, hp, e⟩ := hk
    refine ⟨(p.1 % 128, p.2), List.mem_map.mpr ⟨p, List.mem_filter.mpr ⟨hp, decide_eq_true ?_⟩, rfl⟩, ?_⟩
    · rw [e, parts.1]
    · rw [e, parts.2]
  · intro q hq e
    obtain ⟨p, hp, rfl⟩ := List.mem_map.mp hq
    obtain ⟨hp, hr⟩ := List.mem_filter.mp hp
    have key : p.1 = 128 * r + i := by
      have reg := of_decide_eq_true hr
      dsimp only at e
      omega
    rw [hv p hp, key, keyData, parts.1, parts.2]

/-! ## Elements of a word (R76, R170) -/

theorem width_dvd (f : Fmt) : f.width ∣ 64 := by cases f <;> decide

theorem packElems_congr (w : Nat) {f g : Nat → Nat} {n : Nat} (h : ∀ j < n, f j = g j) : packElems w f n = packElems w g n := by
  induction n with
  | zero => rfl
  | succ n ih => rw [packElems, packElems, ih fun j hj => h j (hj.trans n.lt_succ_self), h n n.lt_succ_self]

theorem wordOf_congr {w : Nat} {f g : Nat → Nat} (h : ∀ j < 64 / w, f j = g j) : wordOf w f = wordOf w g := by
  rw [wordOf, packElems_congr w h, ← wordOf]

/-- Element `e` of elements of `w` bits lies in word `e / (64 / w)`. -/
theorem mul_width_div {w : Nat} (h : w ∣ 64) (e : Nat) : e * w / 64 = e / (64 / w) := by
  obtain ⟨q, hq⟩ := h
  have pos : 0 < w := Nat.pos_of_ne_zero fun e => by simp [e] at hq
  rw [hq, Nat.mul_div_cancel_left q pos, Nat.mul_comm w q, Nat.mul_div_mul_right _ _ pos]

/-! ## The elements of a conversion (R181) -/

section Convert

variable (src dst : Fmt)

/-- Bits of an element of the wider type. -/
def wider : Nat := max src.width dst.width

theorem wider_dvd : wider src dst ∣ 64 := by
  unfold wider
  obtain h | h := max_choice src.width dst.width <;> rw [h]
  · exact width_dvd src
  · exact width_dvd dst

theorem wider_pos : 0 < wider src dst := lt_max_of_lt_left (width_pos src)

/-- Element `e` is converted under mask `k`: it is one of the conversion's, and its lane of the wider type is active. -/
def converted (k : BitVec 128) (e : Nat) : Bool := decide (e < 8192 / wider src dst) && k.getLsbD (e * wider src dst / 64)

theorem cvtActive_getD (k : BitVec 128) (l : Nat) {j : Nat} (hj : j < 64 / dst.width) :
    (cvtActive src dst (8192 / wider src dst) k l).getD j false = converted src dst k (l * (64 / dst.width) + j) := by
  simp only [cvtActive, List.getD, List.getElem?_map, List.getElem?_range hj, Option.map_some, Option.getD_some, converted, wider]

theorem cvtActive_any (k : BitVec 128) (l : Nat) : (cvtActive src dst (8192 / wider src dst) k l).any id = true ↔
    ∃ j < 64 / dst.width, converted src dst k (l * (64 / dst.width) + j) = true := by
  simp [cvtActive, converted, wider]

theorem cvtActive_all (k : BitVec 128) (l : Nat) : (cvtActive src dst (8192 / wider src dst) k l).all id = true ↔
    ∀ j < 64 / dst.width, converted src dst k (l * (64 / dst.width) + j) = true := by
  simp [cvtActive, converted, wider]

/-- The elements of an active lane of the wider type are the converted ones. -/
theorem converted_iff (k : BitVec 128) (e : Nat) : converted src dst k e = true ↔
    ∃ i ∈ lanesOf k, ∃ j < 64 / wider src dst, e = i * (64 / wider src dst) + j := by
  obtain ⟨p, hp⟩ := wider_dvd src dst
  have pos := wider_pos src dst
  have per : 64 / wider src dst = p := by rw [hp, Nat.mul_div_cancel_left p pos]
  have ppos : 0 < p := Nat.pos_of_ne_zero fun h => by simp [h] at hp
  have count : 8192 / wider src dst = 128 * p := by
    rw [show 8192 = 128 * 64 from rfl, hp, Nat.mul_left_comm, Nat.mul_div_cancel_left _ pos]
  rw [converted, mul_width_div (wider_dvd src dst), per, count, Bool.and_eq_true, decide_eq_true_eq]
  constructor
  · rintro ⟨he, hk⟩
    refine ⟨e / p, mem_lanesOf.mpr ⟨Nat.div_lt_of_lt_mul (by rwa [Nat.mul_comm]), hk⟩, e % p, Nat.mod_lt _ ppos, (Nat.div_add_mod' e p).symm⟩
  · rintro ⟨i, hi, j, hj, rfl⟩
    obtain ⟨hi, hk⟩ := mem_lanesOf.mp hi
    have lane : (i * p + j) / p = i := by rw [Nat.mul_comm, Nat.mul_add_div ppos, Nat.div_eq_of_lt hj, Nat.add_zero]
    refine ⟨?_, by rwa [lane]⟩
    have step : (i + 1) * p ≤ 128 * p := Nat.mul_le_mul_right p hi
    rw [Nat.succ_mul] at step
    omega

/-- A converted element lies in a word of the register, at each of the two widths. -/
theorem converted_word_lt {k : BitVec 128} {e w : Nat} (h : converted src dst k e = true) (hw : w ≤ wider src dst) : e * w / 64 < 128 := by
  have he : e < 8192 / wider src dst := of_decide_eq_true (Bool.and_eq_true_iff.mp h).1
  have bound : e * wider src dst < 8192 := by
    have full : 8192 / wider src dst * wider src dst ≤ 8192 := Nat.div_mul_le_self _ _
    have below : e * wider src dst < 8192 / wider src dst * wider src dst := Nat.mul_lt_mul_of_pos_right he (wider_pos src dst)
    omega
  have narrow : e * w ≤ e * wider src dst := Nat.mul_le_mul_left e hw
  omega

/-- The keys of a conversion: the source word of each converted element, and the old word of each destination word converted in part. -/
theorem mem_cvtKeys {d a : Nat} {k : BitVec 128} {n : Nat} :
    n ∈ (lanesOf k).flatMap (cvtKeys src dst d a (8192 / wider src dst) k) ↔ ∃ e, converted src dst k e = true ∧
      (n = 128 * a + e * src.width / 64 ∨ (n = 128 * d + e * dst.width / 64 ∧
        ∃ j < 64 / dst.width, converted src dst k (e * dst.width / 64 * (64 / dst.width) + j) = false)) := by
  have partly (l : Nat) : ¬ (cvtActive src dst (8192 / wider src dst) k l).all id = true ↔
      ∃ j < 64 / dst.width, converted src dst k (l * (64 / dst.width) + j) = false := by
    rw [cvtActive_all]
    simp
  have keys (e : Nat) : n ∈ (128 * a + e * src.width / 64) ::
      (if (cvtActive src dst (8192 / wider src dst) k (e * dst.width / 64)).all id = true then [] else [128 * d + e * dst.width / 64]) ↔
      n = 128 * a + e * src.width / 64 ∨ (n = 128 * d + e * dst.width / 64 ∧
        ∃ j < 64 / dst.width, converted src dst k (e * dst.width / 64 * (64 / dst.width) + j) = false) := by
    rw [List.mem_cons, ← partly]
    split <;> simp_all
  constructor
  · intro h
    obtain ⟨i, hi, h⟩ := List.mem_flatMap.mp h
    obtain ⟨j, hj, h⟩ := List.mem_flatMap.mp h
    exact ⟨_, (converted_iff src dst k _).mpr ⟨i, hi, j, List.mem_range.mp hj, rfl⟩, (keys _).mp h⟩
  · rintro ⟨e, he, h⟩
    obtain ⟨i, hi, j, hj, rfl⟩ := (converted_iff src dst k e).mp he
    exact List.mem_flatMap.mpr ⟨i, hi, List.mem_flatMap.mpr ⟨j, List.mem_range.mpr hj, (keys _).mpr h⟩⟩

end Convert

/-! ## The words (R83, R179, R181) -/

section Words

variable {g : BitVec 4} {d a : BitVec 5} {m t : BitVec 3} {k : BitVec 128} {x : Nat → BitVec 64} {vrm : BitVec 64} {mode : Rm} {s : State}

theorem readVrm_ok (hv : s.tile.getVcr 0 = gloved vrm) (hm : rmOfCode (bits vrm 2 0) = some mode) (hs : bits vrm 4 3 ≠ 3) :
    readVrm s = .ok ((mode, bits vrm 4 3), s) := by
  simp only [readVrm, eff_bind, readVcr_ok hv, hm, if_neg hs, eff_pure]

theorem nodup_lanesOf (k : BitVec 128) : (lanesOf k).Nodup := List.nodup_range.filter _

section Ready

variable (h : EReady .V g s) (hv : s.tile.getVcr 0 = gloved vrm) (hm : rmOfCode (bits vrm 2 0) = some mode) (hs : bits vrm 4 3 ≠ 3)

include h hv hm hs

theorem exec_vrnd (hk : MaskIs s m.toNat k) (hx : ∀ i < 128, s.tile.getV a.toNat i = gloved (x i)) (hrs : mode ≠ .rs) :
    LanesSet s d.toNat k (fun i => gloved (wordOf (typeOf t).width fun j =>
      roundIntegral (typeOf t) mode (elemValue (typeOf t) (elemOf (typeOf t).width (x i) j)))) (exec (.vrnd g d a m t) s) := by
  obtain ⟨u, hu, holds, lanes⟩ := eachLane_read_write (d := d.toNat)
    (f := fun w => wordOf (typeOf t).width fun j => roundIntegral (typeOf t) mode (elemValue (typeOf t) (elemOf (typeOf t).width w j)))
    (x := x) (nodup_lanesOf k) fun i hi => ⟨(mem_lanesOf.mp hi).1, hx i (mem_lanesOf.mp hi).1⟩
  refine ⟨u.tile.v, runE_went h ?_ holds, fun r _ i hi => ?_⟩
  · simp only [eff_bind, readVrm_ok hv hm hs, hrs, decide_false, raiseIf_false, readMask_ok hk]
    exact hu
  · rw [getV_with_v, lanes r i hi]
    simp only [mem_lanesOf, hi, true_and]

/-- vrnd refuses RS (R179). -/
theorem exec_vrnd_rs (hrs : mode = .rs) : exec (.vrnd g d a m t) s = .next (preciseTrap .V ⟨cFMT, 0, 0#64, none⟩ [] s) :=
  runE_trapped h (by decide) (by simp only [eff_bind, readVrm_ok hv hm hs, hrs, decide_true, raiseIf_true])

end Ready

/-- The tile once the draws of a conversion of `n` elements are reserved on V's counter (R78). -/
def Tile.drewV (t : Tile) (mode : Rm) (n : Nat) : Tile := if mode = .rs then { t with nrsV := t.nrsV + BitVec.ofNat 64 ((n + 3) / 4) } else t

theorem reserveV_ok (mode : Rm) (n : Nat) (s : State) : ∃ u, reserveV mode n s = .ok (s.tile.nrsV, u) ∧ Holds s (s.tile.drewV mode n) u := by
  by_cases h : mode = .rs
  · exact ⟨s.setTile (s.tile.drewV mode n), by simp [reserveV, h, Tile.drewV], (Holds.refl s).write _⟩
  · refine ⟨s, by simp [reserveV, h], ?_⟩
    rw [Tile.drewV, if_neg h]
    exact .refl s

theorem drewV_shape (t : Tile) (mode : Rm) (n : Nat) : ∃ c, t.drewV mode n = { t with nrsV := c } := by
  unfold Tile.drewV
  split
  · exact ⟨_, rfl⟩
  · exact ⟨t.nrsV, rfl⟩

/-- A destination word of a conversion whose source and old words are read. -/
theorem cvtWord_eq {src dst : Fmt} (mode : Rm) (sat : Nat) {k : BitVec 128} (wid n : BitVec 64) {xs olds : SMap (BitVec 64)}
    {x o : Nat → BitVec 64} {l : Nat}
    (hx : ∀ j < 64 / dst.width, converted src dst k (l * (64 / dst.width) + j) = true →
      mapGet 0#64 xs ((l * (64 / dst.width) + j) * src.width / 64) = x ((l * (64 / dst.width) + j) * src.width / 64))
    (ho : ∀ j < 64 / dst.width, converted src dst k (l * (64 / dst.width) + j) = false → mapGet 0#64 olds l = o l) :
    cvtWord src dst mode sat (8192 / wider src dst) k wid n xs olds l = gloved (wordOf dst.width fun j =>
      if converted src dst k (l * (64 / dst.width) + j) = true then
        convertElem src dst mode sat (rsDraw wid n 1 (l * (64 / dst.width) + j)) (elemAt src.width x (l * (64 / dst.width) + j))
      else elemOf dst.width (o l) j) := by
  refine congrArg gloved (wordOf_congr fun j hj => ?_)
  dsimp only
  rw [cvtActive_getD src dst k l hj]
  cases hit : converted src dst k (l * (64 / dst.width) + j)
  · rw [if_neg (by decide), if_neg (by decide), ho j hj hit]
  · rw [if_pos rfl, if_pos rfl, hx j hj hit, elemAt, mul_width_div (width_dvd src)]

theorem exec_vcvt {e : BitVec 3} {c : BitVec 2} {o : Nat → BitVec 64} (h : EReady .V g s) (hk : MaskIs s m.toNat k)
    (hv : s.tile.getVcr 0 = gloved vrm) (hm : rmOfCode (bits vrm 2 0) = some mode) (hs : bits vrm 4 3 ≠ 3)
    (hx : ∀ i < 128, s.tile.getV a.toNat i = gloved (x i)) (ho : ∀ i < 128, s.tile.getV d.toNat i = gloved (o i))
    (hp : pairAllowed (typeOf t) (typeOf e) = true) :
    VSet s (s.tile.drewV mode (8192 / wider (typeOf t) (typeOf e)))
      (fun r l => if r = d.toNat ∧ ∃ j < 64 / (typeOf e).width, converted (typeOf t) (typeOf e) k (l * (64 / (typeOf e).width) + j) = true then
          gloved (wordOf (typeOf e).width fun j =>
            if converted (typeOf t) (typeOf e) k (l * (64 / (typeOf e).width) + j) = true then
              convertElem (typeOf t) (typeOf e) mode c.toNat (rsDraw s.tile.wid s.tile.nrsV 1 (l * (64 / (typeOf e).width) + j))
                (elemAt (typeOf t).width x (l * (64 / (typeOf e).width) + j))
            else elemOf (typeOf e).width (o l) j)
        else s.tile.getV r l)
      (exec (.vcvt g d a c e m t) s) := by
  obtain ⟨src, hsrc⟩ : ∃ f, typeOf t = f := ⟨_, rfl⟩
  obtain ⟨dst, hdst⟩ : ∃ f, typeOf e = f := ⟨_, rfl⟩
  rw [hsrc, hdst] at hp ⊢
  obtain ⟨u, hu, drew⟩ := reserveV_ok mode (8192 / wider src dst) s
  obtain ⟨n, shape⟩ := drewV_shape s.tile mode (8192 / wider src dst)
  have same (r i : Nat) : u.tile.getV r i = s.tile.getV r i := by rw [drew.tile, shape]; rfl
  have wid : u.tile.wid = s.tile.wid := by rw [drew.tile, shape]; rfl
  have source (i : Nat) (hi : i < 128) : u.tile.getV a.toNat i = gloved (x i) := (same _ i).trans (hx i hi)
  have old (i : Nat) (hi : i < 128) : u.tile.getV d.toNat i = gloved (o i) := (same _ i).trans (ho i hi)
  obtain ⟨ws, hw, val, -, all⟩ := readKeys_ok (s := u) (ks := (lanesOf k).flatMap (cvtKeys src dst d.toNat a.toNat (8192 / wider src dst) k))
    (fun n hn => by
      obtain ⟨e, he, rfl | ⟨rfl, -⟩⟩ := (mem_cvtKeys src dst).mp hn
      · have low := converted_word_lt src dst he (le_max_left src.width dst.width)
        rw [keyData, Nat.mul_add_div (by decide), Nat.mul_add_mod, Nat.div_eq_of_lt low, Nat.mod_eq_of_lt low, Nat.add_zero, source _ low]
        rfl
      · have low := converted_word_lt src dst he (le_max_right src.width dst.width)
        rw [keyData, Nat.mul_add_div (by decide), Nat.mul_add_mod, Nat.div_eq_of_lt low, Nat.mod_eq_of_lt low, Nat.add_zero, old _ low]
        rfl) (seen := []) (by simp)
  obtain ⟨w, hput, holds, lanes⟩ := putLanes_ok d.toNat
    (cvtWord src dst mode c.toNat (8192 / wider src dst) k u.tile.wid s.tile.nrsV (keyLanes a.toNat ws) (keyLanes d.toNat ws))
    (l := (List.range 128).filter fun l => (cvtActive src dst (8192 / wider src dst) k l).any id)
    (fun i hi => List.mem_range.mp (List.mem_filter.mp hi).1) u
  refine ⟨w.tile.v, ?_, fun r _ l hl => ?_⟩
  · refine runE_went h ?_ (u := w) ⟨?_, fun y => (holds.setTile y).trans (drew.setTile y)⟩
    · rw [hsrc, hdst]
      have width : max src.width dst.width = wider src dst := rfl
      simp only [eff_bind, readVrm_ok hv hm hs, hp, Bool.not_true, raiseIf_false, readMask_ok hk, width, hu, hw, getTile_apply]
      exact hput
    · rw [holds.tile, drew.tile]
  · rw [getV_with_v, lanes r l hl, same]
    simp only [List.mem_filter, List.mem_range, hl, true_and, cvtActive_any]
    by_cases written : r = d.toNat ∧ ∃ j < 64 / dst.width, converted src dst k (l * (64 / dst.width) + j) = true
    · rw [if_pos written, if_pos written, ← wid]
      obtain ⟨-, i, hi, hit⟩ := written
      have word (j : Nat) (hj : j < 64 / dst.width) : (l * (64 / dst.width) + j) * dst.width / 64 = l := by
        rw [mul_width_div (width_dvd dst), Nat.mul_comm l, Nat.mul_add_div (by omega), Nat.div_eq_of_lt hj, Nat.add_zero]
      refine cvtWord_eq mode c.toNat _ _ (fun j hj hit => ?_) (fun j hj miss => ?_)
      · have low := converted_word_lt src dst hit (le_max_left src.width dst.width)
        rw [mapGet_keyLanes val low (all _ ((mem_cvtKeys src dst).mpr ⟨_, hit, .inl rfl⟩)), source _ low]
        rfl
      · rw [mapGet_keyLanes val hl (all _ ((mem_cvtKeys src dst).mpr ⟨_, hit, .inr ⟨by rw [word i hi], j, hj, by rwa [word i hi]⟩⟩)), old l hl]
        rfl
    · rw [if_neg written, if_neg written]

end Words

end Sys2Proof.Machine

namespace Sys2Proof.Proofs

open Sys2Proof.Machine Sys2Proof.Claims

/-- Settles O18: every word that a conversion needs is among the keys it reads. -/
theorem conversionResult : Obligations.ConversionResult := by
  intro g d a c e m t k x o vrm mode s h hk hv hm hs hx ho
  exact ⟨exec_vrnd h hv hm hs hk hx, exec_vrnd_rs h hv hm hs, fun hp => exec_vcvt h hk hv hm hs hx ho hp⟩

end Sys2Proof.Proofs
end

section
/-!
PROOFS. The end of a nest that is held (R214, R215) beside the end of FTB: a hold that began in the last 65,536 ns that 64 bits count has
its deadline past 2^64, and the clock, which never goes back, does not stand at that deadline's 64-bit code. From this O27 is refuted.
-/

namespace Sys2Proof.Machine

open Sys2Proof.Claims

/-! ## A hold whose deadline is past the last FTB -/

/-- A nest held since the last FTB, at its first visit. -/
def heldRun : NestRun := ⟨⟨.M, 0, 0#64, 0#32, false, 0⟩, [0, 0, 0, 0, 0, 0], [], [], 0, some 0xFFFFFFFFFFFFFFFF#64, false⟩

/-- FTB stands at its last value; tile 0 holds a nest whose A panel begins in the scratchpad of tile 1, which is cut. -/
def heldAtLastTime : State :=
  ({ State.reset with ftb := 0xFFFFFFFFFFFFFFFF#64 }.setTileAt 1 { Tile.reset with cut := some ⟨none⟩ }).setTileAt 0
    { Tile.reset with run := .running, level := .task, active := { NestTab.reset with abase := 0x1200000#32 }, nest := some heldRun }

theorem nestAt_heldAtLastTime : NestAt heldAtLastTime 0 heldRun := by
  unfold NestAt
  decide +kernel

/-- The first word of the A panel cannot be fetched. -/
theorem heldWord_heldAtLastTime : heldWord 0 (heldAtLastTime.tileAt 0).active heldRun.idx heldAtLastTime = some 0x1200000 := by
  decide +kernel

/-- FTB of a next state. -/
def nextFtb (r : Res) : Option (BitVec 64) :=
  match r with
  | .next u => some u.ftb
  | _ => none

/-- The clock stays at its last value: the deadline's code, 65,535, is below it. -/
theorem nextFtb_timeout_heldAtLastTime : nextFtb (exec (.nestHoldTimeout 0) heldAtLastTime) = some 0xFFFFFFFFFFFFFFFF#64 := by
  decide +kernel

end Sys2Proof.Machine

namespace Sys2Proof.Proofs

open Sys2Proof.Machine Sys2Proof.Claims

/-- Refutes O27: where the hold began at FTB 2^64 - 1, the statement has the clock at the code 65,535 of the deadline after the
timeout, and it stays at 2^64 - 1. -/
theorem not_nestBodyStepResult : ¬ Obligations.NestBodyStepResult := by
  intro h
  obtain ⟨-, -, timeout⟩ := h 0 heldRun (fun _ => .raw) (fun _ => .raw) 0 (fun _ => 0#64) (fun _ => 0#64) (fun _ => 0#64) (fun _ => 0#64)
    0xFFFFFFFFFFFFFFFF#64 0x1200000 heldAtLastTime nestAt_heldAtLastTime
  obtain ⟨u, hu, -, clock⟩ := timeout rfl (by decide +kernel) heldWord_heldAtLastTime
  have stays : nextFtb (.next u) = some 0xFFFFFFFFFFFFFFFF#64 := hu ▸ nextFtb_timeout_heldAtLastTime
  have wraps : u.ftb = 65535#64 := clock
  rw [nextFtb, wraps] at stays
  exact absurd stays (by decide)

end Sys2Proof.Proofs
end

section
/-!
PROOFS. Floating formats (R70, R71, R77 to R79): what the codes of a format hold, a magnitude rounded to units, and that packing the
rounded units, or overflowing, is the rounding of R77 to R79. The later proofs about numbers rest on this.
-/

namespace Sys2Proof.Machine

open Sys2Proof.Claims

/-! ## Parameters of the floating formats (R70) -/

/-- The formats of R70 with a sign bit. -/
def Fmt.IsFloat (f : Fmt) : Prop := f = .fp32 ∨ f = .bf16 ∨ f = .e5m2 ∨ f = .e4m3 ∨ f = .e2m1

/-- Bits of the mantissa. -/
def Fmt.mbits (f : Fmt) : Nat := f.mant.1

/-- The exponent of the least quantum, that of the subnormal numbers. -/
def Fmt.emin (f : Fmt) : Int := 1 - (f.mant.2 : Int) - f.mant.1

/-- The code of the largest finite magnitude. -/
def Fmt.topMag (f : Fmt) : Nat := (f.maxFinite.2 - f.emin).toNat * 2 ^ f.mbits + f.maxFinite.1

namespace Fmt.IsFloat

variable {f : Fmt} (hf : f.IsFloat)

include hf

theorem mbits_pos : 1 ≤ f.mbits := by obtain rfl | rfl | rfl | rfl | rfl := hf <;> decide

theorem mbits_lt : f.mbits + 1 < f.width := by obtain rfl | rfl | rfl | rfl | rfl := hf <;> decide

theorem emin_le : f.emin ≤ f.maxFinite.2 := by obtain rfl | rfl | rfl | rfl | rfl := hf <;> decide

theorem le_kmax : 2 ^ f.mbits ≤ f.maxFinite.1 := by obtain rfl | rfl | rfl | rfl | rfl := hf <;> decide

theorem kmax_lt : f.maxFinite.1 < 2 ^ (f.mbits + 1) := by obtain rfl | rfl | rfl | rfl | rfl := hf <;> decide

theorem topMag_lt : f.topMag < 2 ^ (f.width - 1) := by obtain rfl | rfl | rfl | rfl | rfl := hf <;> decide

theorem maxNum_eq : maxNum f = f.maxFinite.1 * (2 : ℚ) ^ f.maxFinite.2 := by
  obtain rfl | rfl | rfl | rfl | rfl := hf <;> norm_num [maxNum, Fmt.maxFinite]

theorem edgeNum_eq : edgeNum f = (f.maxFinite.1 + 1 / 2) * (2 : ℚ) ^ f.maxFinite.2 := by
  obtain rfl | rfl | rfl | rfl | rfl := hf <;> norm_num [edgeNum, Fmt.maxFinite]

/-- The largest significand is odd but for E4M3, whose all-ones code is NaN. -/
theorem kmax_odd (h : f ≠ .e4m3) : f.maxFinite.1 % 2 = 1 := by
  obtain rfl | rfl | rfl | rfl | rfl := hf
  · decide
  · decide
  · decide
  · exact absurd rfl h
  · decide

theorem infCode_eq (h : f ≠ .e2m1) (neg : Bool) : infCode f neg = infOf f neg := by
  obtain rfl | rfl | rfl | rfl | rfl := hf
  · cases neg <;> decide
  · cases neg <;> decide
  · cases neg <;> decide
  · rfl
  · exact absurd rfl h

end Fmt.IsFloat

/-! ## What a code holds (R70) -/

/-- The number of a magnitude code: its field of exponent and its mantissa, as R70 reads them. -/
def magVal (f : Fmt) (c : Nat) : ℚ :=
  if c / 2 ^ f.mbits = 0 then (c % 2 ^ f.mbits : Nat) * 2 ^ f.emin
  else ((2 ^ f.mbits + c % 2 ^ f.mbits : Nat) : ℚ) * 2 ^ (((c / 2 ^ f.mbits : Nat) : Int) - 1 + f.emin)

/-- A number of a sign and a magnitude. -/
def signed (neg : Bool) (v : ℚ) : ℚ := if neg then -v else v

@[simp] theorem abs_signed (neg : Bool) (v : ℚ) : |signed neg v| = |v| := by cases neg <;> simp [signed]

theorem signed_neg_iff {neg : Bool} {v : ℚ} (h : 0 < v) : signed neg v < 0 ↔ neg = true := by
  cases neg
  · simp [signed, h.le]
  · simp [signed, h]

/-- The number of an exact value; 0 for NaN and the infinities. -/
def FVal.num : FVal → ℚ
  | .fin n m e => signed n (m * 2 ^ e)
  | _ => 0

theorem numOf_eq {f : Fmt} {c : Nat} : numOf f c = match elemValue f c with
    | .fin n m e => some (FVal.fin n m e).num
    | _ => none := by
  unfold numOf FVal.num signed
  cases elemValue f c with
  | nan => rfl
  | inf n => rfl
  | fin n m e => cases n <;> simp

/-- A code holds a number exactly where its value is finite. -/
theorem numOf_eq_some {f : Fmt} {c : Nat} {a : ℚ} : numOf f c = some a ↔ ∃ n m e, elemValue f c = .fin n m e ∧ (FVal.fin n m e).num = a := by
  rw [numOf_eq]
  cases elemValue f c <;> simp

/-- A sign and a magnitude code, field by field. -/
theorem finiteOf_code {f : Fmt} (hf : f.IsFloat) {c : Nat} (hc : c < 2 ^ (f.width - 1)) (neg : Bool) :
    finiteOf f (signBit f neg + c) = if c / 2 ^ f.mbits = 0 then .fin neg (c % 2 ^ f.mbits) f.emin
      else .fin neg (2 ^ f.mbits + c % 2 ^ f.mbits) (((c / 2 ^ f.mbits : Nat) : Int) - 1 + f.emin) := by
  have width := hf.mbits_lt
  have split : 2 ^ (f.width - 1) = 2 ^ f.mbits * 2 ^ (f.width - 1 - f.mbits) := by
    rw [← pow_add]
    congr 1
    omega
  have pos : 0 < 2 ^ f.mbits := by positivity
  have sign : decide ((signBit f neg + c) / 2 ^ (f.width - 1) % 2 = 1) = neg := by
    cases neg
    · simp [signBit, Nat.div_eq_of_lt hc]
    · simp [signBit, Nat.add_div_left, Nat.div_eq_of_lt hc]
  have frac : (signBit f neg + c) % 2 ^ f.mbits = c % 2 ^ f.mbits := by
    cases neg
    · simp [signBit]
    · simp [signBit, split]
  have exponent : (signBit f neg + c) / 2 ^ f.mbits % 2 ^ (f.width - 1 - f.mbits) = c / 2 ^ f.mbits := by
    have low : c / 2 ^ f.mbits < 2 ^ (f.width - 1 - f.mbits) := Nat.div_lt_of_lt_mul (split ▸ hc)
    cases neg
    · simp [signBit, Nat.mod_eq_of_lt low]
    · simp [signBit, split, Nat.mul_add_div pos, Nat.mod_eq_of_lt low]
  unfold Fmt.mbits at *
  simp only [finiteOf, sign, frac, exponent, Fmt.emin]
  split
  · rfl
  · congr 1
    omega

/-- Up to the largest finite magnitude a code holds a number. -/
theorem elemValue_code {f : Fmt} (hf : f.IsFloat) {c : Nat} (hc : c ≤ f.topMag) (neg : Bool) :
    elemValue f (signBit f neg + c) = finiteOf f (signBit f neg + c) := by
  obtain rfl | rfl | rfl | rfl | rfl := hf
  · have top : c ≤ 0x7F7FFFFF := hc
    have finite : ¬ (signBit .fp32 neg + c) / 2 ^ 23 % 256 = 255 := by
      cases neg <;> simp only [signBit, Fmt.width, Bool.false_eq_true, if_true, if_false] <;> omega
    exact if_neg finite
  · have top : c ≤ 0x7F7F := hc
    have finite : ¬ (signBit .bf16 neg + c) / 2 ^ 7 % 256 = 255 := by
      cases neg <;> simp only [signBit, Fmt.width, Bool.false_eq_true, if_true, if_false] <;> omega
    exact if_neg finite
  · have top : c ≤ 0x7B := hc
    have finite : ¬ (signBit .e5m2 neg + c) / 4 % 32 = 31 := by
      cases neg <;> simp only [signBit, Fmt.width, Bool.false_eq_true, if_true, if_false] <;> omega
    exact if_neg finite
  · have top : c ≤ 0x7E := hc
    have finite : ¬ (signBit .e4m3 neg + c) % 128 = 127 := by
      cases neg <;> simp only [signBit, Fmt.width, Bool.false_eq_true, if_true, if_false] <;> omega
    exact if_neg finite
  · rfl

theorem numOf_code {f : Fmt} (hf : f.IsFloat) {c : Nat} (hc : c ≤ f.topMag) (neg : Bool) :
    numOf f (signBit f neg + c) = some (signed neg (magVal f c)) := by
  rw [numOf_eq, elemValue_code hf hc, finiteOf_code hf (hc.trans_lt hf.topMag_lt)]
  unfold magVal
  by_cases h : c / 2 ^ f.mbits = 0
  · rw [if_pos h, if_pos h]; rfl
  · rw [if_neg h, if_neg h]; rfl

/-- A magnitude code counts the units of its quantum. -/
theorem magVal_units {f : Fmt} {n k : Nat} (hn : 2 ^ f.mbits ≤ k ∨ n = 0) (hk : k ≤ 2 ^ (f.mbits + 1)) :
    magVal f (n * 2 ^ f.mbits + k) = k * 2 ^ ((n : Int) + f.emin) := by
  have pos : 0 < 2 ^ f.mbits := by positivity
  rw [pow_succ'] at hk
  unfold magVal
  generalize 2 ^ f.mbits = p at *
  by_cases small : k < p
  · obtain rfl : n = 0 := by omega
    simp [Nat.div_eq_of_lt small, Nat.mod_eq_of_lt small]
  · obtain ⟨r, rfl⟩ : ∃ r, k = p + r := ⟨k - p, by omega⟩
    by_cases normal : r < p
    · have quotient : (n * p + (p + r)) / p = n + 1 := by
        rw [← Nat.add_assoc, ← Nat.succ_mul, Nat.mul_comm, Nat.mul_add_div pos, Nat.div_eq_of_lt normal, Nat.add_zero]
      have rest : (n * p + (p + r)) % p = r := by
        rw [← Nat.add_assoc, ← Nat.succ_mul, Nat.mul_comm, Nat.mul_add_mod, Nat.mod_eq_of_lt normal]
      rw [quotient, rest, if_neg (by omega)]
      push_cast
      rw [add_sub_cancel_right]
    · obtain rfl : r = p := by omega
      have quotient : (n * r + (r + r)) / r = n + 2 := by
        rw [show n * r + (r + r) = r * (n + 2) by ring, Nat.mul_div_cancel_left _ pos]
      have rest : (n * r + (r + r)) % r = 0 := by
        rw [show n * r + (r + r) = r * (n + 2) by ring, Nat.mul_mod_right]
      rw [quotient, rest, if_neg (by omega)]
      push_cast
      rw [show (n : Int) + 2 - 1 + f.emin = (n + f.emin) + 1 by ring, zpow_add_one₀ (by norm_num)]
      ring

/-! ## A magnitude rounded to units (R77, R78) -/

/-- When a mode rounds a magnitude of `t` units up from `k` units. -/
def stepsUp (mode : Rm) (draw : Nat) (neg : Bool) (t : ℚ) (k : Nat) : Prop :=
  match mode with
  | .rne => 1 < 2 * (t - k) ∨ (2 * (t - k) = 1 ∧ k % 2 = 1)
  | .rtz => False
  | .rdn => neg = true ∧ (k : ℚ) ≠ t
  | .rup => neg = false ∧ (k : ℚ) ≠ t
  | .rs => (draw : Int) < ⌊(t - k) * 2 ^ 32⌋

/-- `k` is a magnitude of `t` units rounded to an integer number of units. -/
def RoundsTo (mode : Rm) (draw : Nat) (neg : Bool) (t : ℚ) (k : Nat) : Prop :=
  ∃ n : Nat, (n : ℚ) ≤ t ∧ t < n + 1 ∧ (stepsUp mode draw neg t n → k = n + 1) ∧ (¬ stepsUp mode draw neg t n → k = n)

theorem not_stepsUp_exact (mode : Rm) (draw : Nat) (neg : Bool) (k : Nat) : ¬ stepsUp mode draw neg (k : ℚ) k := by
  cases mode <;> simp [stepsUp]

/-- Whole units round to themselves. -/
theorem RoundsTo.exact (mode : Rm) (draw : Nat) (neg : Bool) (k : Nat) : RoundsTo mode draw neg (k : ℚ) k :=
  ⟨k, le_rfl, lt_add_one _, fun h => absurd h (not_stepsUp_exact mode draw neg k), fun _ => rfl⟩

/-- A quotient and a remainder of `p` parts each round as `roundUnits` does. -/
theorem roundsTo_parts (mode : Rm) (draw : Nat) (neg : Bool) {p r : Nat} (n : Nat) (hr : 0 < r) (hp : r < p) :
    RoundsTo mode draw neg (n + (r : ℚ) / p) (match mode with
      | .rne => if 2 * r > p ∨ (2 * r = p ∧ n % 2 = 1) then n + 1 else n
      | .rtz => n
      | .rdn => if neg then n + 1 else n
      | .rup => if neg then n else n + 1
      | .rs => if draw < r * 2 ^ 32 / p then n + 1 else n) := by
  have ppos : (0 : ℚ) < p := by exact_mod_cast hr.trans hp
  have rpos : (0 : ℚ) < r := by exact_mod_cast hr
  have part : (0 : ℚ) < r / p := by positivity
  have below : (r : ℚ) / p < 1 := (div_lt_one ppos).mpr (by exact_mod_cast hp)
  have up (h : Prop) [Decidable h] (hs : stepsUp mode draw neg (n + (r : ℚ) / p) n ↔ h) :
      RoundsTo mode draw neg (n + (r : ℚ) / p) (if h then n + 1 else n) :=
    ⟨n, by linarith, by linarith, fun hu => if_pos (hs.mp hu), fun hu => if_neg fun hh => hu (hs.mpr hh)⟩
  have inexact : (n : ℚ) ≠ n + r / p := by linarith
  have diff : (n : ℚ) + r / p - n = r / p := add_sub_cancel_left _ _
  cases mode with
  | rne =>
    refine up _ ?_
    have passes : (1 : ℚ) < 2 * (r / p) ↔ 2 * r > p := by
      rw [← mul_div_assoc, one_lt_div ppos]
      exact_mod_cast Iff.rfl
    have tie : (2 * ((r : ℚ) / p)) = 1 ↔ 2 * r = p := by
      rw [← mul_div_assoc, div_eq_one_iff_eq ppos.ne']
      exact_mod_cast Iff.rfl
    simp only [stepsUp, diff, passes, tie]
  | rtz => exact ⟨n, by linarith, by linarith, fun hu => hu.elim, fun _ => rfl⟩
  | rdn => exact up _ ⟨fun hu => hu.1, fun hn => ⟨hn, inexact⟩⟩
  | rup =>
    cases neg with
    | true => exact ⟨n, by linarith, by linarith, fun hu => absurd hu.1 (by decide), fun _ => rfl⟩
    | false => exact ⟨n, by linarith, by linarith, fun _ => rfl, fun hu => absurd ⟨rfl, inexact⟩ hu⟩
  | rs =>
    refine up _ ?_
    have floor : ⌊((n : ℚ) + r / p - n) * 2 ^ 32⌋ = ((r * 2 ^ 32 / p : Nat) : Int) := by
      rw [diff, div_mul_eq_mul_div, ← Nat.floor_div_eq_div (K := ℚ), Int.natCast_floor_eq_floor (by positivity)]
      push_cast
      rfl
    rw [stepsUp, floor]
    exact_mod_cast Iff.rfl

/-- `roundUnits` rounds the magnitude in units of `2^q`. -/
theorem roundUnits_roundsTo (mode : Rm) (draw : Nat) (neg : Bool) (m : Nat) (e q : Int) :
    RoundsTo mode draw neg (m * 2 ^ e / 2 ^ q) (roundUnits mode draw neg m e q) := by
  have two : (2 : ℚ) ≠ 0 := two_ne_zero
  have units : (m : ℚ) * 2 ^ e / 2 ^ q = m * 2 ^ (e - q) := by rw [mul_div_assoc, ← zpow_sub₀ two]
  unfold roundUnits
  by_cases h : q ≤ e
  · rw [if_pos h]
    have whole : (m : ℚ) * 2 ^ e / 2 ^ q = (m * 2 ^ (e - q).toNat : Nat) := by
      rw [units]
      push_cast
      rw [← zpow_natCast, Int.toNat_of_nonneg (by omega)]
    rw [whole]
    exact .exact mode draw neg _
  · rw [if_neg h]
    obtain ⟨p, hp⟩ : ∃ p, 2 ^ (q - e).toNat = p := ⟨_, rfl⟩
    have ppos : 0 < p := hp ▸ by positivity
    have cast : (2 : ℚ) ^ (e - q) = 1 / (p : ℚ) := by
      rw [← hp, show e - q = -((q - e).toNat : Int) by omega, zpow_neg, zpow_natCast]
      push_cast
      rw [one_div]
    have parts : (m : ℚ) * 2 ^ e / 2 ^ q = (m / p : Nat) + ((m % p : Nat) : ℚ) / p := by
      have division : (m : ℚ) = p * (m / p : Nat) + (m % p : Nat) := by exact_mod_cast (Nat.div_add_mod m p).symm
      have pne : (p : ℚ) ≠ 0 := by exact_mod_cast ppos.ne'
      rw [units, cast, mul_one_div, eq_comm]
      field_simp
      linarith
    dsimp only
    rw [hp]
    by_cases zero : m % p = 0
    · rw [if_pos zero, parts, zero, Nat.cast_zero, zero_div, add_zero]
      exact .exact mode draw neg _
    · rw [if_neg zero, parts]
      exact roundsTo_parts mode draw neg _ (Nat.pos_of_ne_zero zero) (Nat.mod_lt m ppos)

/-! ## The quantum of a magnitude (R70, R77) -/

/-- A magnitude of the quantum exponent `q`: below the next power of two, and at least a full mantissa unless the quantum is the least. -/
structure InQuantum (f : Fmt) (v : ℚ) (q : Int) : Prop where
  emin : f.emin ≤ q
  below : v < 2 ^ (f.mbits + 1) * 2 ^ q
  full : (2 : ℚ) ^ f.mbits * 2 ^ q ≤ v ∨ q = f.emin

/-- The quantum is that of every magnitude with the same leading bit. -/
theorem inQuantum_of_log2 {f : Fmt} {m : Nat} {e : Int} {v : ℚ} (lo : (2 : ℚ) ^ Nat.log2 m * 2 ^ e ≤ v)
    (hi : v < 2 ^ (Nat.log2 m + 1) * 2 ^ e) : InQuantum f v (quantum f m e) := by
  have two : (2 : ℚ) ≠ 0 := two_ne_zero
  have one : (1 : ℚ) ≤ 2 := one_le_two
  have q : quantum f m e = max (e + (Nat.log2 m : Int) - f.mbits) f.emin := rfl
  rw [q]
  refine ⟨le_max_right _ _, hi.trans_le ?_, ?_⟩
  · rw [← zpow_natCast, ← zpow_natCast, ← zpow_add₀ two, ← zpow_add₀ two]
    exact zpow_le_zpow_right₀ one (by push_cast; omega)
  · by_cases h : f.emin ≤ e + (Nat.log2 m : Int) - f.mbits
    · left
      rw [max_eq_left h]
      refine le_trans (le_of_eq ?_) lo
      rw [← zpow_natCast, ← zpow_natCast, ← zpow_add₀ two, ← zpow_add₀ two]
      congr 1
      omega
    · exact .inr (max_eq_right (by omega))

theorem inQuantum_quantum {f : Fmt} {m : Nat} (hm : m ≠ 0) (e : Int) : InQuantum f (m * 2 ^ e) (quantum f m e) := by
  have pos : (0 : ℚ) < 2 ^ e := by positivity
  have lo : (2 : ℚ) ^ Nat.log2 m ≤ m := by exact_mod_cast Nat.log2_self_le hm
  have hi : (m : ℚ) < 2 ^ (Nat.log2 m + 1) := by exact_mod_cast Nat.lt_log2_self
  exact inQuantum_of_log2 (mul_le_mul_of_nonneg_right lo pos.le) (mul_lt_mul_of_pos_right hi pos)

/-! ## Packing and overflow (R77 to R79) -/

/-- The code of a sign and units of a quantum. -/
theorem packFinite_eq {f : Fmt} {k : Nat} {q : Int} (hq : f.emin ≤ q) (hk : k ≤ 2 ^ (f.mbits + 1)) (hf : 2 ^ f.mbits ≤ k ∨ q = f.emin)
    (neg : Bool) : packFinite f neg k q = signBit f neg + ((q - f.emin).toNat * 2 ^ f.mbits + k) := by
  have mb : f.mant.1 = f.mbits := rfl
  have field (j : Int) : j + (f.mbits : Int) + f.mant.2 = j - f.emin + 1 := by unfold Fmt.emin Fmt.mbits; ring
  simp only [packFinite, mb, field]
  rw [pow_succ'] at hk ⊢
  have pos : 0 < 2 ^ f.mbits := by positivity
  obtain ⟨n, hn⟩ : ∃ n, (q - f.emin).toNat = n := ⟨_, rfl⟩
  have next : (q - f.emin + 1).toNat = n + 1 := by omega
  have next2 : (q + 1 - f.emin + 1).toNat = n + 2 := by omega
  generalize 2 ^ f.mbits = p at *
  by_cases carry : k = 2 * p
  · subst carry
    simp only [if_true, lt_irrefl, if_false, next2, hn, Nat.sub_self]
    ring
  · simp only [if_neg carry]
    by_cases small : k < p
    · have zero : n = 0 := by omega
      rw [if_pos small, hn, zero, Nat.zero_mul, Nat.zero_add]
    · rw [if_neg small, next, hn, Nat.succ_mul]
      omega

theorem numOf_packFinite {f : Fmt} (hf : f.IsFloat) {k : Nat} {q : Int} (hq : f.emin ≤ q) (hk : k ≤ 2 ^ (f.mbits + 1))
    (hfull : 2 ^ f.mbits ≤ k ∨ q = f.emin) (htop : (q - f.emin).toNat * 2 ^ f.mbits + k ≤ f.topMag) (neg : Bool) :
    numOf f (packFinite f neg k q) = some (signed neg (k * 2 ^ q)) := by
  rw [packFinite_eq hq hk hfull, numOf_code hf htop, magVal_units (hfull.imp_right fun h => by omega) hk]
  rw [show ((q - f.emin).toNat : Int) + f.emin = q by omega]

theorem numOf_maxCode {f : Fmt} (hf : f.IsFloat) (neg : Bool) : numOf f (maxCode f neg) = some (signed neg (maxNum f)) := by
  rw [maxCode, numOf_packFinite hf hf.emin_le hf.kmax_lt.le (.inl hf.le_kmax) le_rfl, hf.maxNum_eq]

/-- Units of a quantum pass the largest finite magnitude. -/
abbrev PassesTop (f : Fmt) (q : Int) (k : Nat) : Prop := q > f.maxFinite.2 ∨ (q = f.maxFinite.2 ∧ k > f.maxFinite.1)

/-- Rounded units, packed or overflowing (R77, R79). -/
def packRounded (f : Fmt) (mode : Rm) (sat : Nat) (neg : Bool) (q : Int) (k : Nat) : Nat :=
  if PassesTop f q k then overflowCode f mode sat neg else packFinite f neg k q

theorem toFloat_fin {f : Fmt} {mode : Rm} {sat draw : Nat} {neg : Bool} {m : Nat} (hm : m ≠ 0) (e : Int) :
    toFloat f mode sat draw (.fin neg m e) = packRounded f mode sat neg (quantum f m e) (roundUnits mode draw neg m e (quantum f m e)) := by
  rw [toFloat, if_neg hm, packRounded]

/-- Where a saturation code or a mode keeps an overflow finite (R79, R80). -/
theorem overflowCode_max {f : Fmt} {mode : Rm} {sat : Nat} {neg : Bool}
    (h : sat ≠ 0 ∨ f = .e2m1 ∨ mode = .rtz ∨ (mode = .rdn ∧ neg = false) ∨ (mode = .rup ∧ neg = true)) :
    overflowCode f mode sat neg = maxCode f neg := by
  unfold overflowCode
  by_cases keep : f = .e2m1 ∨ sat ≠ 0
  · rw [if_pos keep]
  · rw [if_neg keep]
    obtain h | h | rfl | ⟨rfl, rfl⟩ | ⟨rfl, rfl⟩ := h
    · exact absurd (.inr h) keep
    · exact absurd (.inl h) keep
    · rfl
    · rfl
    · rfl

theorem overflowCode_inf {f : Fmt} (hf : f.IsFloat) {mode : Rm} {sat : Nat} {neg : Bool} (hs : sat = 0) (h2 : f ≠ .e2m1)
    (h : (mode = .rdn ∧ neg = true) ∨ (mode = .rup ∧ neg = false) ∨ mode = .rne ∨ mode = .rs) :
    overflowCode f mode sat neg = infOf f neg := by
  unfold overflowCode
  rw [if_neg (by simp [hs, h2]), ← hf.infCode_eq h2]
  obtain ⟨rfl, rfl⟩ | ⟨rfl, rfl⟩ | rfl | rfl := h <;> rfl

section Rounding

variable {f : Fmt} {mode : Rm} {draw sat : Nat} {neg : Bool} {v : ℚ} {q : Int} {k n : Nat}

/-- The units of a magnitude of a quantum: a full mantissa, or the least quantum. -/
theorem InQuantum.units (hv : InQuantum f v q) (lo : (n : ℚ) ≤ v / 2 ^ q) (hi : v / 2 ^ q < n + 1) :
    n + 1 ≤ 2 ^ (f.mbits + 1) ∧ (2 ^ f.mbits ≤ n ∨ q = f.emin) := by
  have pos : (0 : ℚ) < 2 ^ q := by positivity
  constructor
  · have bound : v / 2 ^ q < 2 ^ (f.mbits + 1) := (div_lt_iff₀ pos).mpr hv.below
    have small : (n : ℚ) < (2 ^ (f.mbits + 1) : Nat) := by push_cast; linarith
    exact_mod_cast small
  · refine hv.full.imp_left fun full => ?_
    have bound : (2 : ℚ) ^ f.mbits ≤ v / 2 ^ q := (le_div_iff₀ pos).mpr full
    have large : ((2 ^ f.mbits : Nat) : ℚ) < n + 1 := by push_cast; linarith
    exact Nat.lt_succ_iff.mp (by exact_mod_cast large)

/-- A magnitude of a quantum above the largest is at least the next number of an unbounded exponent range. -/
theorem InQuantum.above_top (hf : f.IsFloat) (hv : InQuantum f v q) (h : q > f.maxFinite.2) :
    (f.maxFinite.1 + 1) * (2 : ℚ) ^ f.maxFinite.2 ≤ v := by
  have full : (2 : ℚ) ^ f.mbits * 2 ^ q ≤ v := hv.full.resolve_right fun e => by have := hf.emin_le; omega
  have step : (2 : ℚ) ^ (f.maxFinite.2 + 1) ≤ 2 ^ q := zpow_le_zpow_right₀ one_le_two (by omega)
  have top : ((f.maxFinite.1 : ℚ) + 1) ≤ 2 ^ (f.mbits + 1) := by exact_mod_cast hf.kmax_lt
  have pos : (0 : ℚ) < 2 ^ f.maxFinite.2 := by positivity
  have mpos : (0 : ℚ) < 2 ^ f.mbits := by positivity
  calc ((f.maxFinite.1 : ℚ) + 1) * 2 ^ f.maxFinite.2 ≤ 2 ^ (f.mbits + 1) * 2 ^ f.maxFinite.2 := mul_le_mul_of_nonneg_right top pos.le
    _ = 2 ^ f.mbits * 2 ^ (f.maxFinite.2 + 1) := by rw [pow_succ, zpow_add_one₀ two_ne_zero]; ring
    _ ≤ 2 ^ f.mbits * 2 ^ q := mul_le_mul_of_nonneg_left step mpos.le
    _ ≤ v := full

/-- A magnitude of a quantum below the largest is below the largest finite one. -/
theorem InQuantum.below_top (hf : f.IsFloat) (hv : InQuantum f v q) (h : q < f.maxFinite.2) : v < maxNum f := by
  have step : (2 : ℚ) ^ (q + 1) ≤ 2 ^ f.maxFinite.2 := zpow_le_zpow_right₀ one_le_two (by omega)
  have top : (2 : ℚ) ^ f.mbits ≤ f.maxFinite.1 := by exact_mod_cast hf.le_kmax
  have pos : (0 : ℚ) < 2 ^ f.maxFinite.2 := by positivity
  have mpos : (0 : ℚ) < 2 ^ f.mbits := by positivity
  calc v < 2 ^ (f.mbits + 1) * 2 ^ q := hv.below
    _ = 2 ^ f.mbits * 2 ^ (q + 1) := by rw [pow_succ, zpow_add_one₀ two_ne_zero]; ring
    _ ≤ 2 ^ f.mbits * 2 ^ f.maxFinite.2 := mul_le_mul_of_nonneg_left step mpos.le
    _ ≤ f.maxFinite.1 * 2 ^ f.maxFinite.2 := mul_le_mul_of_nonneg_right top pos.le
    _ = maxNum f := hf.maxNum_eq.symm

/-- Below the largest finite magnitude the next unit's code is finite. -/
theorem InQuantum.next_le_top (hf : f.IsFloat) (hv : InQuantum f v q) (h : v < maxNum f) (lo : (n : ℚ) ≤ v / 2 ^ q) (hi : v / 2 ^ q < n + 1) :
    q ≤ f.maxFinite.2 ∧ (q = f.maxFinite.2 → n + 1 ≤ f.maxFinite.1) ∧ (q - f.emin).toNat * 2 ^ f.mbits + (n + 1) ≤ f.topMag := by
  have pos : (0 : ℚ) < 2 ^ q := by positivity
  have top : (0 : ℚ) < 2 ^ f.maxFinite.2 := by positivity
  obtain ⟨units, -⟩ := hv.units lo hi
  have le : q ≤ f.maxFinite.2 := by
    by_contra high
    have far := hv.above_top hf (not_le.mp high)
    rw [hf.maxNum_eq] at h
    linarith
  have last (e : q = f.maxFinite.2) : n + 1 ≤ f.maxFinite.1 := by
    have bound : (n : ℚ) * 2 ^ q ≤ v := (le_div_iff₀ pos).mp lo
    rw [hf.maxNum_eq, ← e] at h
    have lt : (n : ℚ) < f.maxFinite.1 := lt_of_mul_lt_mul_right (bound.trans_lt h) pos.le
    exact_mod_cast lt
  refine ⟨le, last, ?_⟩
  have emin := hv.emin
  unfold Fmt.topMag
  by_cases e : q = f.maxFinite.2
  · have := last e
    rw [e]
    omega
  · have step : (q - f.emin).toNat + 1 ≤ (f.maxFinite.2 - f.emin).toNat := by omega
    have mono := Nat.mul_le_mul_right (2 ^ f.mbits) step
    have full := hf.le_kmax
    rw [Nat.succ_mul] at mono
    rw [pow_succ] at units
    omega

/-- Rounding a magnitude of whole units is rounding in units. -/
theorem roundsUp_iff_stepsUp (hq : 0 < v) (c : Nat) (hc : c % 2 = n % 2) :
    roundsUp mode draw (signed neg v) c (n * 2 ^ q) ((n + 1) * 2 ^ q) ↔ stepsUp mode draw neg (v / 2 ^ q) n := by
  have pos : (0 : ℚ) < 2 ^ q := by positivity
  have gap : ((n : ℚ) + 1) * 2 ^ q - n * 2 ^ q = 2 ^ q := by ring
  have rest : v - n * 2 ^ q = (v / 2 ^ q - n) * 2 ^ q := by field_simp
  have exact : (n : ℚ) * 2 ^ q = v ↔ (n : ℚ) = v / 2 ^ q := (eq_div_iff pos.ne').symm
  cases mode with
  | rne =>
    have half : (2 : ℚ) ^ q < 2 * ((v / 2 ^ q - n) * 2 ^ q) ↔ 1 < 2 * (v / 2 ^ q - n) := by
      rw [← mul_assoc]
      exact lt_mul_iff_one_lt_left pos
    have tie : 2 * ((v / 2 ^ q - n) * 2 ^ q) = (2 : ℚ) ^ q ↔ 2 * (v / 2 ^ q - n) = 1 := by
      rw [← mul_assoc]
      exact mul_eq_right₀ pos.ne'
    simp only [roundsUp, stepsUp, abs_signed, abs_of_pos hq, gap, rest, half, tie, hc]
  | rtz => exact Iff.rfl
  | rdn => simp only [roundsUp, stepsUp, abs_signed, abs_of_pos hq, signed_neg_iff hq, ne_eq, exact]
  | rup =>
    have sign : 0 < signed neg v ↔ neg = false := by cases neg <;> simp [signed, hq, hq.le]
    simp only [roundsUp, stepsUp, abs_signed, abs_of_pos hq, sign, ne_eq, exact]
  | rs => simp only [roundsUp, stepsUp, abs_signed, abs_of_pos hq, gap, rest, mul_div_cancel_right₀ _ pos.ne']

theorem abs_units (n : Nat) : |(n : ℚ) * 2 ^ q| = n * 2 ^ q := abs_of_nonneg (by positivity)

/-- Below the largest finite magnitude, packed units lie at the code below the number or at the next. -/
theorem packRounded_between (hf : f.IsFloat) (hv : InQuantum f v q) (pos : 0 < v) (hk : RoundsTo mode draw neg (v / 2 ^ q) k)
    (h : v < maxNum f) : Between f (signed neg v) (roundsUp mode draw (signed neg v)) (packRounded f mode sat neg q k) := by
  obtain ⟨n, lo, hi, up, down⟩ := hk
  have upos : (0 : ℚ) < 2 ^ q := by positivity
  obtain ⟨le, last, top⟩ := hv.next_le_top hf h lo hi
  obtain ⟨units, full⟩ := hv.units lo hi
  have near : k = n + 1 ∨ k = n := (em _).imp up down
  have fits : ¬ PassesTop f q k := by
    rintro (high | ⟨e, high⟩)
    · omega
    · have := last e
      omega
  have fullNext : 2 ^ f.mbits ≤ n + 1 ∨ q = f.emin := full.imp_left fun h => by omega
  have fullK : 2 ^ f.mbits ≤ k ∨ q = f.emin := full.imp_left fun h => by omega
  have code : packRounded f mode sat neg q k = signBit f neg + ((q - f.emin).toNat * 2 ^ f.mbits + k) := by
    rw [packRounded, if_neg fits, packFinite_eq hv.emin (by omega) fullK]
  have valA := numOf_packFinite hf hv.emin (by omega) full (by omega) neg
  have valB := numOf_packFinite hf hv.emin units fullNext top neg
  rw [packFinite_eq hv.emin (by omega) full] at valA
  rw [packFinite_eq hv.emin units fullNext, ← Nat.add_assoc, ← Nat.add_assoc, Nat.add_assoc (signBit f neg)] at valB
  have bound : (q - f.emin).toNat * 2 ^ f.mbits + n < 2 ^ (f.width - 1) := lt_of_le_of_lt (by omega) hf.topMag_lt
  have even : ∀ b, signBit f b % 2 = 0 := fun b => by
    have width := hf.mbits_lt
    cases b
    · rfl
    · rw [signBit, if_pos rfl, show f.width - 1 = (f.width - 2) + 1 by omega, pow_succ, Nat.mul_mod_left]
  have parity : (signBit f neg + ((q - f.emin).toNat * 2 ^ f.mbits + n)) % 2 = n % 2 := by
    have sign := even neg
    have evenField : (q - f.emin).toNat * 2 ^ f.mbits % 2 = 0 := by
      rw [← Nat.sub_add_cancel hf.mbits_pos, pow_succ, ← Nat.mul_assoc, Nat.mul_mod_left]
    omega
  have absNext : |signed neg (((n + 1 : Nat) : ℚ) * 2 ^ q)| = ((n : ℚ) + 1) * 2 ^ q := by
    rw [abs_signed, abs_units]
    push_cast
    rfl
  have absHere : |signed neg ((n : ℚ) * 2 ^ q)| = n * 2 ^ q := by rw [abs_signed, abs_units]
  have step := roundsUp_iff_stepsUp (mode := mode) (draw := draw) (neg := neg) (q := q) (n := n) pos _ parity
  refine ⟨_, _, _, valA, valB, ?_, ?_, ?_, ?_, ?_⟩
  · rw [absHere, abs_signed, abs_of_pos pos]
    exact (le_div_iff₀ upos).mp lo
  · rw [absNext, abs_signed, abs_of_pos pos]
    exact (div_lt_iff₀ upos).mp hi
  · rw [signed_neg_iff pos]
    cases neg
    · simp [signBit, bound]
    · simp [signBit]
  · rw [absHere, absNext, step, code]
    intro u
    rw [up u]
    omega
  · rw [absHere, absNext, step, code]
    intro u
    rw [down u]

/-- At the largest quantum, the units of a magnitude that is not below the largest finite one. -/
theorem kmax_le_units (hf : f.IsFloat) (hi : v / 2 ^ f.maxFinite.2 < n + 1) (h : maxNum f ≤ v) : f.maxFinite.1 ≤ n := by
  have pos : (0 : ℚ) < 2 ^ f.maxFinite.2 := by positivity
  have bound : (f.maxFinite.1 : ℚ) ≤ v / 2 ^ f.maxFinite.2 := (le_div_iff₀ pos).mpr (hf.maxNum_eq ▸ h)
  exact Nat.lt_succ_iff.mp (by exact_mod_cast bound.trans_lt hi)

/-- From the largest finite magnitude on, units that do not pass it are its own. -/
theorem passes_or_top (hf : f.IsFloat) (hv : InQuantum f v q) (hk : RoundsTo mode draw neg (v / 2 ^ q) k) (h : maxNum f ≤ v) :
    PassesTop f q k ∨ (q = f.maxFinite.2 ∧ k = f.maxFinite.1) := by
  obtain ⟨n, lo, hi, up, down⟩ := hk
  have near : k = n + 1 ∨ k = n := (em _).imp up down
  obtain high | rfl | low := lt_trichotomy f.maxFinite.2 q
  · exact .inl (.inl high)
  · have := kmax_le_units hf hi h
    omega
  · exact absurd (hv.below_top hf low) (not_lt.mpr h)

/-- Units at the largest quantum with nothing to step up for do not pass the largest finite magnitude. -/
theorem not_passes (hf : f.IsFloat) (hv : InQuantum f v q) (hk : RoundsTo mode draw neg (v / 2 ^ q) k)
    (h : v < (f.maxFinite.1 + 1) * (2 : ℚ) ^ f.maxFinite.2) (hs : q = f.maxFinite.2 → ¬ stepsUp mode draw neg (v / 2 ^ q) f.maxFinite.1) :
    ¬ PassesTop f q k := by
  rintro (high | ⟨rfl, high⟩)
  · exact absurd (hv.above_top hf high) (not_le.mpr h)
  · obtain ⟨n, lo, hi, up, down⟩ := hk
    have near : k = n + 1 ∨ k = n := (em _).imp up down
    have pos : (0 : ℚ) < 2 ^ f.maxFinite.2 := by positivity
    have bound : (n : ℚ) < f.maxFinite.1 + 1 := lo.trans_lt ((div_lt_iff₀ pos).mpr h)
    have le : n < f.maxFinite.1 + 1 := by exact_mod_cast bound
    obtain rfl : n = f.maxFinite.1 := by omega
    have := down (hs rfl)
    omega

/-- Units at the largest quantum that step up pass the largest finite magnitude. -/
theorem passes (hf : f.IsFloat) (hv : InQuantum f v q) (hk : RoundsTo mode draw neg (v / 2 ^ q) k) (h : maxNum f ≤ v)
    (hs : q = f.maxFinite.2 → stepsUp mode draw neg (v / 2 ^ q) f.maxFinite.1) :
    PassesTop f q k := by
  obtain high' | ⟨rfl, e⟩ := passes_or_top hf hv hk h
  · exact high'
  · obtain ⟨n, lo, hi, up, down⟩ := hk
    have near : k = n + 1 ∨ k = n := (em _).imp up down
    have le := kmax_le_units hf hi h
    obtain rfl : n = f.maxFinite.1 := by omega
    have := up (hs rfl)
    omega

/-- Units that do not pass the largest finite magnitude, of a number that is not below it, give its code. -/
theorem packRounded_top (hf : f.IsFloat) (hv : InQuantum f v q) (hk : RoundsTo mode draw neg (v / 2 ^ q) k) (h : maxNum f ≤ v)
    (hn : ¬ PassesTop f q k) : packRounded f mode sat neg q k = maxCode f neg := by
  obtain ⟨rfl, rfl⟩ := (passes_or_top hf hv hk h).resolve_left hn
  rw [packRounded, if_neg hn, maxCode]

/-- Parts of a unit of the largest quantum. -/
theorem top_parts (v x : ℚ) (a b : Int) (n : Nat) (e : a = b) : (v / 2 ^ a - n = x ↔ v = (n + x) * 2 ^ b) ∧ (x < v / 2 ^ a - n ↔ (n + x) * 2 ^ b < v) := by
  have pos : (0 : ℚ) < 2 ^ b := by positivity
  rw [e, sub_eq_iff_eq_add', div_eq_iff pos.ne', lt_sub_iff_add_lt', lt_div_iff₀ pos]
  exact ⟨Iff.rfl, Iff.rfl⟩

/-- Nearest even does not step up below the halfway point above the largest finite magnitude. -/
theorem not_stepsUp_below_edge (hf : f.IsFloat) (h : v < edgeNum f) (e : q = f.maxFinite.2) :
    ¬ stepsUp .rne draw neg (v / 2 ^ q) f.maxFinite.1 := by
  rw [hf.edgeNum_eq] at h
  obtain ⟨tie, half⟩ := top_parts v (1 / 2) q f.maxFinite.2 f.maxFinite.1 e
  rintro (up | ⟨up, -⟩)
  · exact absurd (half.mp (by linarith)) (not_lt.mpr h.le)
  · exact absurd (tie.mp (by linarith)) h.ne

/-- Nearest even steps up from the halfway point on, where the largest significand is odd. -/
theorem stepsUp_from_edge (hf : f.IsFloat) (h : edgeNum f < v ∨ (edgeNum f = v ∧ f ≠ .e4m3)) (e : q = f.maxFinite.2) :
    stepsUp .rne draw neg (v / 2 ^ q) f.maxFinite.1 := by
  rw [hf.edgeNum_eq] at h
  obtain ⟨tie, half⟩ := top_parts v (1 / 2) q f.maxFinite.2 f.maxFinite.1 e
  obtain high | ⟨same, h4⟩ := h
  · have up := half.mpr high
    exact .inl (by linarith)
  · have up := tie.mpr same.symm
    exact .inr ⟨by linarith, hf.kmax_odd h4⟩

theorem units_ne_top (hf : f.IsFloat) (h : maxNum f < v) (e : q = f.maxFinite.2) : (f.maxFinite.1 : ℚ) ≠ v / 2 ^ q := by
  intro same
  have exactly := (top_parts v 0 q f.maxFinite.2 f.maxFinite.1 e).1.mp (sub_eq_zero.mpr same.symm)
  rw [add_zero, ← hf.maxNum_eq] at exactly
  exact h.ne' exactly

theorem below_next_of_edge (hf : f.IsFloat) (h : v < edgeNum f) : v < (f.maxFinite.1 + 1) * (2 : ℚ) ^ f.maxFinite.2 := by
  have pos : (0 : ℚ) < 2 ^ f.maxFinite.2 := by positivity
  rw [hf.edgeNum_eq] at h
  exact h.trans (mul_lt_mul_of_pos_right (by linarith) pos)

/-- The largest finite magnitude itself. -/
theorem packRounded_largest (hf : f.IsFloat) (hv : InQuantum f v q) (hk : RoundsTo mode draw neg (v / 2 ^ q) k) (h : v = maxNum f) :
    packRounded f mode sat neg q k = maxCode f neg := by
  have pos : (0 : ℚ) < 2 ^ f.maxFinite.2 := by positivity
  refine packRounded_top hf hv hk h.ge (not_passes hf hv hk ?_ fun e => ?_)
  · rw [h, hf.maxNum_eq]
    exact mul_lt_mul_of_pos_right (lt_add_one _) pos
  · rw [h, hf.maxNum_eq, e, mul_div_cancel_right₀ _ pos.ne']
    exact not_stepsUp_exact mode draw neg _

/-- A number above the largest finite magnitude that R79 or the mode keeps finite. -/
theorem packRounded_keeps (hf : f.IsFloat) (hv : InQuantum f v q) (hk : RoundsTo mode draw neg (v / 2 ^ q) k) (h : maxNum f < v)
    (keep : sat ≠ 0 ∨ f = .e2m1 ∨ mode = .rtz ∨ (mode = .rdn ∧ neg = false) ∨ (mode = .rup ∧ neg = true) ∨ (mode = .rne ∧ v < edgeNum f)) :
    packRounded f mode sat neg q k = maxCode f neg := by
  by_cases near : mode = .rne ∧ v < edgeNum f
  · obtain ⟨rfl, near⟩ := near
    exact packRounded_top hf hv hk h.le (not_passes hf hv hk (below_next_of_edge hf near) (not_stepsUp_below_edge hf near))
  · by_cases fits : PassesTop f q k
    · rw [packRounded, if_pos fits]
      refine overflowCode_max ?_
      obtain h | h | h | h | h | h := keep
      exacts [.inl h, .inr (.inl h), .inr (.inr (.inl h)), .inr (.inr (.inr (.inl h))), .inr (.inr (.inr (.inr h))), absurd h near]
    · exact packRounded_top hf hv hk h.le fits

/-- A number above the largest finite magnitude that rounds to an infinity. -/
theorem packRounded_overflows (hf : f.IsFloat) (hv : InQuantum f v q) (hk : RoundsTo mode draw neg (v / 2 ^ q) k) (h : maxNum f < v)
    (hs : sat = 0) (h2 : f ≠ .e2m1) (beyond : (mode = .rdn ∧ neg = true) ∨ (mode = .rup ∧ neg = false) ∨
      (mode = .rne ∧ (edgeNum f < v ∨ (edgeNum f = v ∧ f ≠ .e4m3)))) : packRounded f mode sat neg q k = infOf f neg := by
  have high : PassesTop f q k := by
    refine passes hf hv hk h.le fun e => ?_
    obtain ⟨rfl, hn⟩ | ⟨rfl, hn⟩ | ⟨rfl, edge⟩ := beyond
    · exact ⟨hn, units_ne_top hf h e⟩
    · exact ⟨hn, units_ne_top hf h e⟩
    · exact stepsUp_from_edge hf edge e
  rw [packRounded, if_pos high]
  exact overflowCode_inf hf hs h2 (beyond.imp_right fun h => h.imp_right fun h => .inl h.1)

/-- Packing the rounded units, or overflowing, rounds as R77 to R79 say. -/
theorem packRounded_rounded (hf : f.IsFloat) (hv : InQuantum f v q) (pos : 0 < v) (hk : RoundsTo mode draw neg (v / 2 ^ q) k) :
    Rounded f mode sat draw (signed neg v) (packRounded f mode sat neg q k) := by
  have sign : decide (signed neg v < 0) = neg := by
    cases neg
    · exact decide_eq_false ((signed_neg_iff pos).not.mpr (by decide))
    · exact decide_eq_true ((signed_neg_iff pos).mpr rfl)
  have positive : 0 < signed neg v ↔ neg = false := by cases neg <;> simp [signed, pos, pos.le]
  have mag : |signed neg v| = v := by rw [abs_signed, abs_of_pos pos]
  have largest (r : Nat) (hr : r = maxCode f neg) : numOf f r = some (if neg = true then - maxNum f else maxNum f) :=
    hr ▸ numOf_maxCode hf neg
  unfold Rounded
  dsimp only
  rw [sign, mag, positive, signed_neg_iff pos]
  exact ⟨packRounded_between hf hv pos hk, fun h => largest _ (packRounded_largest hf hv hk h),
    fun h => ⟨fun keep => largest _ (packRounded_keeps hf hv hk h keep), fun hs h2 beyond => packRounded_overflows hf hv hk h hs h2 beyond⟩⟩

/-- A nonzero finite value is rounded to a floating format under a mode and a saturation code (R77 to R79). -/
theorem toFloat_rounded (hf : f.IsFloat) {m : Nat} (hm : m ≠ 0) (e : Int) :
    Rounded f mode sat draw (FVal.fin neg m e).num (toFloat f mode sat draw (.fin neg m e)) := by
  rw [toFloat_fin hm]
  exact packRounded_rounded hf (inQuantum_quantum hm e) (by positivity) (roundUnits_roundsTo mode draw neg m e _)

end Rounding

/-! ## Numbers that a format holds (R70, R80) -/

section Held

variable {f : Fmt} (hf : f.IsFloat) {x m : Nat} {n : Bool} {e : Int}

/-- A code splits into its sign and its magnitude. -/
theorem code_split {f : Fmt} (hx : x < 2 ^ f.width) : ∃ (n : Bool) (c : Nat), c < 2 ^ (f.width - 1) ∧ x = signBit f n + c := by
  have split : 2 ^ f.width = 2 * 2 ^ (f.width - 1) := by rw [← pow_succ', Nat.sub_add_cancel (width_pos f)]
  by_cases h : x < 2 ^ (f.width - 1)
  · exact ⟨false, x, h, by simp [signBit]⟩
  · exact ⟨true, x - 2 ^ (f.width - 1), by omega, by rw [signBit, if_pos rfl]; omega⟩

include hf

/-- Above the largest finite magnitude no code holds a number. -/
theorem not_finite_above {c : Nat} (hc : c < 2 ^ (f.width - 1)) (h : f.topMag < c) (n' : Bool) : elemValue f (signBit f n' + c) ≠ .fin n m e := by
  obtain rfl | rfl | rfl | rfl | rfl := hf
  · have top : 0x7F7FFFFF < c := h
    have bound : c < 2147483648 := hc
    have special : (signBit .fp32 n' + c) / 2 ^ 23 % 256 = 255 := by
      cases n' <;> simp only [signBit, Fmt.width, Bool.false_eq_true, if_true, if_false] <;> omega
    simp only [elemValue, special, if_true]
    split <;> exact fun h => nomatch h
  · have top : 0x7F7F < c := h
    have bound : c < 32768 := hc
    have special : (signBit .bf16 n' + c) / 2 ^ 7 % 256 = 255 := by
      cases n' <;> simp only [signBit, Fmt.width, Bool.false_eq_true, if_true, if_false] <;> omega
    simp only [elemValue, special, if_true]
    split <;> exact fun h => nomatch h
  · have top : 0x7B < c := h
    have bound : c < 128 := hc
    have special : (signBit .e5m2 n' + c) / 4 % 32 = 31 := by
      cases n' <;> simp only [signBit, Fmt.width, Bool.false_eq_true, if_true, if_false] <;> omega
    simp only [elemValue, special, if_true]
    split <;> exact fun h => nomatch h
  · have top : 0x7E < c := h
    have bound : c < 128 := hc
    have special : (signBit .e4m3 n' + c) % 128 = 127 := by
      cases n' <;> simp only [signBit, Fmt.width, Bool.false_eq_true, if_true, if_false] <;> omega
    simp only [elemValue, special, if_true]
    exact fun h => nomatch h
  · have top : 7 < c := h
    have bound : c < 8 := hc
    omega

/-- The significand and exponent of a number of a format, and its code. -/
structure Held (f : Fmt) (m : Nat) (e : Int) : Prop where
  lt : m < 2 ^ (f.mbits + 1)
  emin : f.emin ≤ e
  full : 2 ^ f.mbits ≤ m ∨ e = f.emin
  top : (e - f.emin).toNat * 2 ^ f.mbits + m ≤ f.topMag

/-- The magnitude code of a number. -/
def magCode (f : Fmt) (m : Nat) (e : Int) : Nat := (e - f.emin).toNat * 2 ^ f.mbits + m

theorem held_of_elemValue (hx : x < 2 ^ f.width) (h : elemValue f x = .fin n m e) : Held f m e ∧ x = signBit f n + magCode f m e := by
  obtain ⟨n', c, hc, rfl⟩ := code_split hx
  have le : c ≤ f.topMag := not_lt.mp fun high => not_finite_above hf hc high n' h
  rw [elemValue_code hf le, finiteOf_code hf hc] at h
  have pos : 0 < 2 ^ f.mbits := by positivity
  have low := Nat.mod_lt c pos
  have parts := Nat.div_add_mod c (2 ^ f.mbits)
  have double : 2 ^ (f.mbits + 1) = 2 * 2 ^ f.mbits := pow_succ' 2 f.mbits
  unfold magCode
  split at h
  · rename_i zero
    obtain ⟨rfl, rfl, rfl⟩ : n' = n ∧ c % 2 ^ f.mbits = m ∧ f.emin = e := by simpa using h
    rw [zero, Nat.mul_zero, Nat.zero_add] at parts
    exact ⟨⟨by omega, le_rfl, .inr rfl, by simpa [parts] using le⟩, by simp [parts]⟩
  · rename_i normal
    obtain ⟨rfl, rfl, rfl⟩ : n' = n ∧ 2 ^ f.mbits + c % 2 ^ f.mbits = m ∧ ((c / 2 ^ f.mbits : Nat) : Int) - 1 + f.emin = e := by
      simpa using h
    have units : (((c / 2 ^ f.mbits : Nat) : Int) - 1 + f.emin - f.emin).toNat + 1 = c / 2 ^ f.mbits := by
      rw [add_sub_cancel_right]
      generalize c / 2 ^ f.mbits = d at normal ⊢
      omega
    have code : (((c / 2 ^ f.mbits : Nat) : Int) - 1 + f.emin - f.emin).toNat * 2 ^ f.mbits + (2 ^ f.mbits + c % 2 ^ f.mbits) = c := by
      rw [← Nat.add_assoc, ← Nat.succ_mul, Nat.succ_eq_add_one, units, Nat.mul_comm]
      exact parts
    exact ⟨⟨by omega, by omega, .inl (by omega), by rw [code]; exact le⟩, by rw [code]⟩

theorem Held.magCode_lt (h : Held f m e) : magCode f m e < 2 ^ (f.width - 1) := lt_of_le_of_lt h.top hf.topMag_lt

/-- A number of the format is at most the largest. -/
theorem Held.le_top (h : Held f m e) : e ≤ f.maxFinite.2 ∧ (e = f.maxFinite.2 → m ≤ f.maxFinite.1) := by
  obtain ⟨-, emin, full, top⟩ := h
  have kmax := hf.kmax_lt
  have le := hf.emin_le
  rw [pow_succ] at kmax
  unfold Fmt.topMag at top
  constructor
  · by_contra high
    have step : (f.maxFinite.2 - f.emin).toNat + 1 ≤ (e - f.emin).toNat := by omega
    have mono := Nat.mul_le_mul_right (2 ^ f.mbits) step
    rw [Nat.succ_mul] at mono
    omega
  · rintro rfl
    omega

theorem Held.le_maxNum (h : Held f m e) : (m : ℚ) * 2 ^ e ≤ maxNum f := by
  obtain ⟨le, last⟩ := h.le_top hf
  have pos : (0 : ℚ) < 2 ^ e := by positivity
  obtain rfl | lt := le.eq_or_lt
  · rw [hf.maxNum_eq]
    exact mul_le_mul_of_nonneg_right (by exact_mod_cast last rfl) pos.le
  · have bound : (m : ℚ) < 2 ^ (f.mbits + 1) := by exact_mod_cast h.lt
    have quantum : InQuantum f (m * 2 ^ e) e := by
      refine ⟨h.emin, mul_lt_mul_of_pos_right bound pos, h.full.imp_left fun full => mul_le_mul_of_nonneg_right ?_ pos.le⟩
      exact_mod_cast full
    exact (quantum.below_top hf lt).le

omit hf in
/-- The quantum of a number that the format holds is its own exponent. -/
theorem Held.quantum_eq (h : Held f m e) (hm : m ≠ 0) : quantum f m e = e := by
  have log : Nat.log2 m ≤ f.mbits := Nat.lt_succ_iff.mp ((Nat.log2_lt hm).mpr h.lt)
  have q : quantum f m e = max (e + (Nat.log2 m : Int) - f.mbits) f.emin := rfl
  have emin := h.emin
  rw [q]
  obtain full | rfl := h.full
  · have log' : f.mbits ≤ Nat.log2 m := (Nat.le_log2 hm).mpr full
    omega
  · omega

/-- A value of whole units within the range is packed whatever the mode. -/
theorem toFloat_exact (hm : m ≠ 0) (hq : quantum f m e ≤ e) (hv : (m : ℚ) * 2 ^ e ≤ maxNum f) (mode : Rm) (sat draw : Nat) :
    toFloat f mode sat draw (.fin n m e) = packFinite f n (m * 2 ^ (e - quantum f m e).toNat) (quantum f m e) := by
  have units := inQuantum_quantum (f := f) hm e
  rw [toFloat_fin hm]
  generalize quantum f m e = q at *
  rw [roundUnits, if_pos hq, packRounded, if_neg]
  rintro (high | ⟨rfl, high⟩)
  · have far := units.above_top hf high
    have pos : (0 : ℚ) < 2 ^ f.maxFinite.2 := by positivity
    rw [hf.maxNum_eq] at hv
    linarith
  · have pos : (0 : ℚ) < 2 ^ f.maxFinite.2 := by positivity
    have whole : (m : ℚ) * 2 ^ e = ((m * 2 ^ (e - f.maxFinite.2).toNat : Nat) : ℚ) * 2 ^ f.maxFinite.2 := by
      push_cast
      rw [← zpow_natCast, Int.toNat_of_nonneg (by omega), mul_assoc, ← zpow_add₀ two_ne_zero, sub_add_cancel]
    rw [hf.maxNum_eq, whole] at hv
    have le : ((m * 2 ^ (e - f.maxFinite.2).toNat : Nat) : ℚ) ≤ f.maxFinite.1 := le_of_mul_le_mul_right hv pos
    have le' : m * 2 ^ (e - f.maxFinite.2).toNat ≤ f.maxFinite.1 := by exact_mod_cast le
    omega

/-- A number that the format holds is packed into its own code, whatever the mode. -/
theorem Held.toFloat (h : Held f m e) (n : Bool) (mode : Rm) (sat draw : Nat) :
    toFloat f mode sat draw (.fin n m e) = signBit f n + magCode f m e := by
  by_cases hm : m = 0
  · obtain rfl : e = f.emin := h.full.resolve_left fun full => by
      have : 0 < 2 ^ f.mbits := by positivity
      omega
    simp [Machine.toFloat, hm, magCode]
  · have q := h.quantum_eq hm
    rw [toFloat_exact hf hm q.le (h.le_maxNum hf), q, sub_self, Int.toNat_zero, pow_zero, mul_one,
      packFinite_eq h.emin h.lt.le h.full, magCode]

end Held

end Sys2Proof.Machine
end

section
/-!
PROOFS. Exact sums, products and comparisons of finite values (R11, R85, R176, R183), and the FP32 and BF16 element words on numbers, NaN
and the infinities (R176, R177).
-/

namespace Sys2Proof.Machine

open Sys2Proof.Claims

/-! ## Finite values -/

/-- A value that is not NaN and not an infinity. -/
def FVal.Finite (v : FVal) : Prop := ∃ n m e, v = .fin n m e

theorem FVal.finite_fin (n : Bool) (m : Nat) (e : Int) : (FVal.fin n m e).Finite := ⟨n, m, e, rfl⟩

theorem FVal.Finite.ne_nan {v : FVal} (h : v.Finite) : v ≠ .nan := by
  obtain ⟨n, m, e, rfl⟩ := h
  exact fun h => nomatch h

theorem FVal.Finite.ne_inf {v : FVal} (h : v.Finite) (n : Bool) : v ≠ .inf n := by
  obtain ⟨n, m, e, rfl⟩ := h
  exact fun h => nomatch h

theorem signed_not (n : Bool) (v : ℚ) : signed (!n) v = - signed n v := by cases n <;> simp [signed]

theorem signed_xor_mul (a b : Bool) (v w : ℚ) : signed (xor a b) (v * w) = signed a v * signed b w := by
  cases a <;> cases b <;> simp [signed]

theorem FVal.num_eq_zero {n : Bool} {m : Nat} {e : Int} : (FVal.fin n m e).num = 0 ↔ m = 0 := by
  have pos : (2 : ℚ) ^ e ≠ 0 := by positivity
  cases n <;> simpa [FVal.num, signed] using fun h => absurd h pos

theorem FVal.num_negate (v : FVal) : v.negate.num = - v.num := by
  cases v with
  | nan => simp [FVal.negate, FVal.num]
  | inf n => simp [FVal.negate, FVal.num]
  | fin n m e => exact signed_not n _

theorem FVal.Finite.negate {v : FVal} (h : v.Finite) : v.negate.Finite := by
  obtain ⟨n, m, e, rfl⟩ := h
  exact finite_fin _ _ _

theorem FVal.Finite.mul {v w : FVal} (hv : v.Finite) (hw : w.Finite) : (v.mul w).Finite ∧ (v.mul w).num = v.num * w.num := by
  obtain ⟨a, m, e, rfl⟩ := hv
  obtain ⟨b, k, d, rfl⟩ := hw
  refine ⟨finite_fin _ _ _, ?_⟩
  simp only [FVal.mul, FVal.num]
  rw [← signed_xor_mul, Nat.cast_mul, zpow_add₀ two_ne_zero]
  congr 1
  ring

theorem numOf_finite {f : Fmt} {c : Nat} {a : ℚ} (h : numOf f c = some a) : (elemValue f c).Finite ∧ (elemValue f c).num = a := by
  obtain ⟨n, m, e, hv, rfl⟩ := numOf_eq_some.mp h
  rw [hv]
  exact ⟨FVal.finite_fin n m e, rfl⟩

/-- A nonzero finite value is rounded to a format. -/
theorem rounded_of_num {f : Fmt} (hf : f.IsFloat) {v : FVal} (hv : v.Finite) (hq : v.num ≠ 0) (mode : Rm) (sat draw : Nat) :
    Rounded f mode sat draw v.num (toFloat f mode sat draw v) := by
  obtain ⟨n, m, e, rfl⟩ := hv
  exact toFloat_rounded hf (fun hm => hq (FVal.num_eq_zero.mpr hm)) e

/-- A zero keeps its sign in every format. -/
theorem toFloat_zero {f : Fmt} {v : FVal} (hv : v.Finite) (hq : v.num = 0) (mode : Rm) (sat draw : Nat) :
    toFloat f mode sat draw v = signBit f v.sign := by
  obtain ⟨n, m, e, rfl⟩ := hv
  exact if_pos (FVal.num_eq_zero.mp hq)

/-! ## The exact sum (R85) and the comparison (R183) of finite values -/

theorem minExp_le (l : List FVal) (d : Int) : minExp d l ≤ d ∧ ∀ n m e, .fin n m e ∈ l → minExp d l ≤ e := by
  induction l generalizing d with
  | nil => simp [minExp]
  | cons v t ih =>
    cases v with
    | fin n m e =>
      obtain ⟨start, rest⟩ := ih (min d e)
      refine ⟨start.trans (min_le_left d e), fun n' m' e' h => ?_⟩
      rcases List.mem_cons.mp h with h | h
      · obtain ⟨-, -, rfl⟩ : n' = n ∧ m' = m ∧ e' = e := by simpa using h
        exact start.trans (min_le_right d e')
      · exact rest n' m' e' h
    | nan => exact ⟨(ih d).1, fun n' m' e' h => (ih d).2 n' m' e' (by simpa using h)⟩
    | inf b => exact ⟨(ih d).1, fun n' m' e' h => (ih d).2 n' m' e' (by simpa using h)⟩

/-- The units count the sum of the terms. -/
theorem sumUnits_num {e0 : Int} (l : List FVal) (h : ∀ n m e, .fin n m e ∈ l → e0 ≤ e) : (sumUnits e0 l : ℚ) * 2 ^ e0 = (l.map FVal.num).sum := by
  induction l with
  | nil => simp [sumUnits]
  | cons v t ih =>
    have rest := ih fun n m e hm => h n m e (List.mem_cons_of_mem v hm)
    rw [List.map_cons, List.sum_cons, ← rest]
    cases v with
    | nan => simp [sumUnits, FVal.num]
    | inf b => simp [sumUnits, FVal.num]
    | fin n m e =>
      have le := h n m e (List.mem_cons_self ..)
      have scale : (2 : ℚ) ^ e = 2 ^ (e - e0).toNat * 2 ^ e0 := by
        rw [← zpow_natCast, Int.toNat_of_nonneg (by omega), ← zpow_add₀ two_ne_zero, sub_add_cancel]
      rw [sumUnits, FVal.num, scale]
      cases n <;> simp [signed] <;> ring

/-- A sum of finite terms is finite and exact; a zero sum is −0 only when there are terms and all are of negative sign. -/
theorem exactSum_finite {l : List FVal} (h : ∀ v ∈ l, v.Finite) : (exactSum l).Finite ∧ (exactSum l).num = (l.map FVal.num).sum ∧
    ((l.map FVal.num).sum = 0 → (exactSum l).sign = (l.all FVal.sign && !l.isEmpty)) := by
  have nan : l.any (fun v => decide (v = .nan)) = false := by simpa using fun v hv => (h v hv).ne_nan
  have inf (n : Bool) : l.any (fun v => decide (v = .inf n)) = false := by simpa using fun v hv => (h v hv).ne_inf n
  have units := sumUnits_num l (minExp_le l 0).2
  have pos : (0 : ℚ) < 2 ^ minExp 0 l := by positivity
  simp only [exactSum, nan, inf, Bool.and_self, Bool.false_eq_true, if_false]
  generalize minExp 0 l = e0 at *
  generalize sumUnits e0 l = i at *
  rw [← units]
  by_cases zero : i = 0
  · simp [zero, FVal.finite_fin, FVal.num, signed, FVal.sign]
  · rw [if_neg zero]
    refine ⟨FVal.finite_fin _ _ _, ?_, fun sum => absurd sum (mul_ne_zero (by exact_mod_cast zero) pos.ne')⟩
    obtain neg | nonneg := lt_or_ge i 0
    · have abs : ((i.natAbs : Nat) : ℚ) = -(i : ℚ) := by rw [Nat.cast_natAbs, abs_of_neg neg, Int.cast_neg]
      simp [FVal.num, signed, neg, abs]
    · have abs : ((i.natAbs : Nat) : ℚ) = (i : ℚ) := by rw [Nat.cast_natAbs, abs_of_nonneg nonneg]
      simp [FVal.num, signed, not_lt.mpr nonneg, abs]

theorem exactSum_pair {v w : FVal} (hv : v.Finite) (hw : w.Finite) : (exactSum [v, w]).Finite ∧ (exactSum [v, w]).num = v.num + w.num ∧
    (v.num + w.num = 0 → (exactSum [v, w]).sign = (v.sign && w.sign)) := by
  have finite : ∀ u ∈ [v, w], u.Finite := by simp [hv, hw]
  simpa using exactSum_finite finite

theorem FVal.lt_iff {v w : FVal} (hv : v.Finite) (hw : w.Finite) : v.lt w = true ↔ v.num < w.num := by
  obtain ⟨a, m, e, rfl⟩ := hv
  obtain ⟨b, k, d, rfl⟩ := hw
  simp only [FVal.lt, decide_eq_true_eq]
  obtain ⟨-, least⟩ := minExp_le [.fin a m e, .fin b k d] 0
  generalize minExp 0 [.fin a m e, .fin b k d] = e0 at *
  have pos : (0 : ℚ) < 2 ^ e0 := by positivity
  have left := sumUnits_num (e0 := e0) [.fin a m e] fun n' m' e' h => least n' m' e' (by simp_all)
  have right := sumUnits_num (e0 := e0) [.fin b k d] fun n' m' e' h => least n' m' e' (by simp_all)
  simp only [List.map_cons, List.map_nil, List.sum_cons, List.sum_nil, add_zero] at left right
  rw [← left, ← right, mul_lt_mul_iff_left₀ pos]
  exact_mod_cast Iff.rfl

/-- The larger of two finite values is one of them. -/
theorem FVal.maxv_finite {v w : FVal} (hv : v.Finite) (hw : w.Finite) :
    (v.maxv w = v ∨ v.maxv w = w) ∧ (v.maxv w).num = max v.num w.num := by
  have lt := FVal.lt_iff hv hw
  have gt := FVal.lt_iff hw hv
  rw [FVal.maxv, if_neg (by simp [hv.ne_nan, hw.ne_nan])]
  by_cases less : v.lt w = true
  · rw [if_pos less]
    exact ⟨.inr rfl, (max_eq_right (lt.mp less).le).symm⟩
  · rw [if_neg less]
    have ge := not_lt.mp (lt.not.mp less)
    by_cases more : w.lt v = true
    · rw [if_pos more]
      exact ⟨.inl rfl, (max_eq_left ge).symm⟩
    · rw [if_neg more]
      have same := le_antisymm (not_lt.mp (gt.not.mp more)) ge
      split
      · exact ⟨.inr rfl, by rw [same, max_self]⟩
      · exact ⟨.inl rfl, by rw [same, max_self]⟩

theorem FVal.minv_finite {v w : FVal} (hv : v.Finite) (hw : w.Finite) :
    (v.minv w = v ∨ v.minv w = w) ∧ (v.minv w).num = min v.num w.num := by
  have lt := FVal.lt_iff hv hw
  have gt := FVal.lt_iff hw hv
  rw [FVal.minv, if_neg (by simp [hv.ne_nan, hw.ne_nan])]
  by_cases less : v.lt w = true
  · rw [if_pos less]
    exact ⟨.inl rfl, (min_eq_left (lt.mp less).le).symm⟩
  · rw [if_neg less]
    have ge := not_lt.mp (lt.not.mp less)
    by_cases more : w.lt v = true
    · rw [if_pos more]
      exact ⟨.inr rfl, (min_eq_right ge).symm⟩
    · rw [if_neg more]
      have same := le_antisymm (not_lt.mp (gt.not.mp more)) ge
      split
      · exact ⟨.inl rfl, by rw [same, min_self]⟩
      · exact ⟨.inr rfl, by rw [same, min_self]⟩

/-! ## NaN and infinities -/

theorem exactSum_nan {l : List FVal} (h : FVal.nan ∈ l) : exactSum l = .nan := by
  have nan : l.any (fun v => decide (v = .nan)) = true := List.any_eq_true.mpr ⟨_, h, by simp⟩
  rw [exactSum, if_pos nan]

@[simp] theorem FVal.nan_mul (v : FVal) : FVal.nan.mul v = .nan := by cases v <;> rfl

@[simp] theorem FVal.mul_nan (v : FVal) : v.mul .nan = .nan := by cases v <;> rfl

theorem FVal.inf_mul_zero {v : FVal} (hv : v.Finite) (hz : v.num = 0) (n : Bool) : (FVal.inf n).mul v = .nan ∧ v.mul (.inf n) = .nan := by
  obtain ⟨b, m, e, rfl⟩ := hv
  exact ⟨if_pos (FVal.num_eq_zero.mp hz), if_pos (FVal.num_eq_zero.mp hz)⟩

theorem exactSum_inf_finite {v : FVal} (hv : v.Finite) (n : Bool) : exactSum [.inf n, v] = .inf n ∧ exactSum [v, .inf n] = .inf n := by
  obtain ⟨b, m, e, rfl⟩ := hv
  cases n <;> simp [exactSum]

theorem exactSum_inf_same (n : Bool) : exactSum [.inf n, .inf n] = .inf n := by cases n <;> rfl

theorem exactSum_inf_opposite (n : Bool) : exactSum [.inf n, .inf (!n)] = .nan := by cases n <;> rfl

/-! ## FP32 and BF16 words (R176, R177) -/

/-- The two formats of V's floating words. -/
def Fmt.IsWide (f : Fmt) : Prop := f = .fp32 ∨ f = .bf16

section Wide

variable {f : Fmt} (hf : f.IsWide) {x y z : Nat}

include hf

theorem Fmt.IsWide.isFloat : f.IsFloat := by
  obtain rfl | rfl := hf
  · exact .inl rfl
  · exact .inr (.inl rfl)

theorem Fmt.IsWide.isInt_eq : f.isInt = false := by obtain rfl | rfl := hf <;> rfl

theorem Fmt.IsWide.ne_e2m1 : f ≠ .e2m1 := by obtain rfl | rfl := hf <;> decide

/-- The canonical NaN of the wider formats (R71). -/
theorem Fmt.IsWide.roundNearest_nan : roundNearest f .nan = if f = .fp32 then 0x7FC00000 else 0x7FC0 := by obtain rfl | rfl := hf <;> rfl

theorem Fmt.IsWide.roundNearest_inf (n : Bool) : roundNearest f (.inf n) = infOf f n := by
  rw [roundNearest, toFloat, if_pos rfl, hf.isFloat.infCode_eq hf.ne_e2m1]

end Wide

/-- A number of a floating format goes to its own code. -/
theorem roundNearest_elemValue {f : Fmt} (hf : f.IsFloat) {x : Nat} (hx : x < 2 ^ f.width) (h : (elemValue f x).Finite) :
    roundNearest f (elemValue f x) = x := by
  obtain ⟨n, m, e, hv⟩ := h
  obtain ⟨held, code⟩ := held_of_elemValue hf hx hv
  rw [hv, roundNearest, held.toFloat hf, ← code]

/-- The sign of a number is the sign bit of its code. -/
theorem sign_elemValue {f : Fmt} (hf : f.IsFloat) {x : Nat} (hx : x < 2 ^ f.width) (h : (elemValue f x).Finite) :
    (elemValue f x).sign = decide (2 ^ (f.width - 1) ≤ x) := by
  obtain ⟨n, m, e, hv⟩ := h
  obtain ⟨held, code⟩ := held_of_elemValue hf hx hv
  have below := held.magCode_lt hf
  rw [hv, code, FVal.sign]
  cases n <;> simp [signBit, below]

/-- The code of a zero is its sign bit. -/
theorem code_of_zero {f : Fmt} (hf : f.IsFloat) {x : Nat} (hx : x < 2 ^ f.width) (h : numOf f x = some 0) :
    x = signBit f (elemValue f x).sign := by
  obtain ⟨finite, zero⟩ := numOf_finite h
  rw [← toFloat_zero finite zero .rne 0 0]
  exact (roundNearest_elemValue hf hx finite).symm

end Sys2Proof.Machine
end

section
/-!
PROOFS. The floating element words of R176 and R177 on numbers, NaN and the infinities, each read off the exact value.
-/

namespace Sys2Proof.Machine

open Sys2Proof.Claims

/-! ## Zeros and signs -/

theorem FVal.num_nonneg {v : FVal} (h : v.sign = false) : 0 ≤ v.num := by
  cases v with
  | nan => exact le_rfl
  | inf n => exact le_rfl
  | fin n m e =>
    obtain rfl : n = false := h
    have : (0 : ℚ) ≤ m * 2 ^ e := by positivity
    exact this

theorem FVal.num_nonpos {v : FVal} (h : v.sign = true) : v.num ≤ 0 := by
  cases v with
  | nan => exact le_rfl
  | inf n => exact le_rfl
  | fin n m e =>
    obtain rfl : n = true := h
    have : (0 : ℚ) ≤ m * 2 ^ e := by positivity
    exact neg_nonpos.mpr this

theorem numOf_signBit {f : Fmt} (hf : f.IsFloat) (n : Bool) : numOf f (signBit f n) = some 0 := by
  have zero : magVal f 0 = 0 := by simp [magVal]
  have code := numOf_code hf (Nat.zero_le f.topMag) n
  rw [zero] at code
  cases n <;> simpa [signed] using code

theorem signBit_inj {f : Fmt} {a b : Bool} (h : signBit f a = signBit f b) : a = b := by
  have pos : 0 < 2 ^ (f.width - 1) := by positivity
  cases a <;> cases b <;> simp only [signBit, if_true, Bool.false_eq_true, if_false] at h ⊢ <;> omega

/-- The codes of the zeros. -/
theorem eq_signBit_iff {f : Fmt} (hf : f.IsFloat) {x : Nat} {a : ℚ} (hx : x < 2 ^ f.width) (ha : numOf f x = some a) (n : Bool) :
    x = signBit f n ↔ (elemValue f x).sign = n ∧ a = 0 := by
  constructor
  · intro same
    have zero : numOf f x = some 0 := same ▸ numOf_signBit hf n
    obtain rfl : a = 0 := by simpa [ha] using zero
    exact ⟨signBit_inj ((code_of_zero hf hx ha).symm.trans same), rfl⟩
  · rintro ⟨rfl, rfl⟩
    exact code_of_zero hf hx ha

section Numbers

variable {f : Fmt} (hf : f.IsWide) {x y z : Nat} {a b c : ℚ}

include hf

/-- A sum of two values rounds once; a zero sum is -0 only of two negative signs. -/
theorem roundNearest_pair {v w : FVal} (hv : v.Finite) (hw : w.Finite) :
    (v.num + w.num ≠ 0 → Rounded f .rne 0 0 (v.num + w.num) (roundNearest f (exactSum [v, w]))) ∧
    (v.num + w.num = 0 → roundNearest f (exactSum [v, w]) = signBit f (v.sign && w.sign)) := by
  obtain ⟨finite, sum, sign⟩ := exactSum_pair hv hw
  refine ⟨fun h => ?_, fun h => ?_⟩
  · rw [← sum] at h ⊢
    exact rounded_of_num hf.isFloat finite h .rne 0 0
  · rw [roundNearest, toFloat_zero finite (sum.trans h), sign h]

omit hf in
/-- Two values of negative sign with a zero sum are zeros. -/
theorem zero_sum_signs {v w : FVal} (h : v.num + w.num = 0) : (v.sign && w.sign) = true ↔ (v.sign = true ∧ v.num = 0) ∧ w.sign = true ∧ w.num = 0 := by
  rw [Bool.and_eq_true]
  refine ⟨fun ⟨hv, hw⟩ => ?_, fun ⟨⟨hv, _⟩, hw, _⟩ => ⟨hv, hw⟩⟩
  have left := FVal.num_nonpos hv
  have right := FVal.num_nonpos hw
  exact ⟨⟨hv, by linarith⟩, hw, by linarith⟩

theorem addElem_number (hx : x < 2 ^ f.width) (hy : y < 2 ^ f.width) (ha : numOf f x = some a) (hb : numOf f y = some b) :
    (a + b ≠ 0 → Rounded f .rne 0 0 (a + b) (addElem f x y)) ∧
    (a + b = 0 → addElem f x y = if x = 2 ^ (f.width - 1) ∧ y = 2 ^ (f.width - 1) then 2 ^ (f.width - 1) else 0) := by
  obtain ⟨fx, rfl⟩ := numOf_finite ha
  obtain ⟨fy, rfl⟩ := numOf_finite hb
  obtain ⟨near, zero⟩ := roundNearest_pair hf fx fy
  have topX := eq_signBit_iff hf.isFloat hx ha true
  have topY := eq_signBit_iff hf.isFloat hy hb true
  rw [addElem, if_neg (by simp [hf.isInt_eq])]
  refine ⟨near, fun h => ?_⟩
  rw [zero h]
  exact if_congr ((zero_sum_signs h).trans (and_congr topX topY).symm) rfl rfl

theorem subElem_number (hx : x < 2 ^ f.width) (hy : y < 2 ^ f.width) (ha : numOf f x = some a) (hb : numOf f y = some b) :
    (a - b ≠ 0 → Rounded f .rne 0 0 (a - b) (subElem f x y)) ∧
    (a - b = 0 → subElem f x y = if x = 2 ^ (f.width - 1) ∧ y = 0 then 2 ^ (f.width - 1) else 0) := by
  obtain ⟨fx, rfl⟩ := numOf_finite ha
  obtain ⟨fy, rfl⟩ := numOf_finite hb
  obtain ⟨near, zero⟩ := roundNearest_pair hf fx fy.negate
  have topX := eq_signBit_iff hf.isFloat hx ha true
  have zeroY := eq_signBit_iff hf.isFloat hy hb false
  have sign : (elemValue f y).negate.sign = true ↔ (elemValue f y).sign = false := by
    obtain ⟨n, m, e, hv⟩ := fy
    cases n <;> simp [hv, FVal.negate, FVal.sign]
  rw [FVal.num_negate, ← sub_eq_add_neg] at near zero
  rw [subElem, if_neg (by simp [hf.isInt_eq])]
  refine ⟨near, fun h => ?_⟩
  have signs := zero_sum_signs (v := elemValue f x) (w := (elemValue f y).negate) (by rw [FVal.num_negate]; linarith)
  rw [sign, FVal.num_negate, neg_eq_zero] at signs
  rw [zero h]
  exact if_congr (signs.trans (and_congr topX zeroY).symm) rfl rfl

theorem mulElem_number (hx : x < 2 ^ f.width) (hy : y < 2 ^ f.width) (ha : numOf f x = some a) (hb : numOf f y = some b) :
    (a * b ≠ 0 → Rounded f .rne 0 0 (a * b) (mulElem f x y)) ∧
    (a * b = 0 → mulElem f x y = if decide (2 ^ (f.width - 1) ≤ x) = decide (2 ^ (f.width - 1) ≤ y) then 0 else 2 ^ (f.width - 1)) := by
  obtain ⟨fx, rfl⟩ := numOf_finite ha
  obtain ⟨fy, rfl⟩ := numOf_finite hb
  obtain ⟨finite, product⟩ := fx.mul fy
  have sign : ((elemValue f x).mul (elemValue f y)).sign = xor (elemValue f x).sign (elemValue f y).sign := by
    obtain ⟨n, m, e, hv⟩ := fx
    obtain ⟨n', m', e', hw⟩ := fy
    rw [hv, hw]
    rfl
  rw [mulElem, if_neg (by simp [hf.isInt_eq]), ← product]
  refine ⟨fun h => rounded_of_num hf.isFloat finite h .rne 0 0, fun h => ?_⟩
  rw [roundNearest, toFloat_zero finite h, sign, sign_elemValue hf.isFloat hx fx, sign_elemValue hf.isFloat hy fy]
  generalize decide (2 ^ (f.width - 1) ≤ x) = s
  generalize decide (2 ^ (f.width - 1) ≤ y) = t
  cases s <;> cases t <;> rfl

theorem fmaElem_number (ha : numOf f x = some a) (hb : numOf f y = some b) (hc : numOf f z = some c) (h : a * b + c ≠ 0) :
    Rounded f .rne 0 0 (a * b + c) (fmaElem f x y z) := by
  obtain ⟨fx, rfl⟩ := numOf_finite ha
  obtain ⟨fy, rfl⟩ := numOf_finite hb
  obtain ⟨fz, rfl⟩ := numOf_finite hc
  obtain ⟨finite, product⟩ := fx.mul fy
  rw [← product] at h ⊢
  exact (roundNearest_pair hf finite fz).1 h

theorem fmsElem_number (ha : numOf f x = some a) (hb : numOf f y = some b) (hc : numOf f z = some c) (h : c - a * b ≠ 0) :
    Rounded f .rne 0 0 (c - a * b) (fmsElem f x y z) := by
  obtain ⟨fx, rfl⟩ := numOf_finite ha
  obtain ⟨fy, rfl⟩ := numOf_finite hb
  obtain ⟨fz, rfl⟩ := numOf_finite hc
  obtain ⟨finite, product⟩ := fx.mul fy
  rw [← product, sub_eq_add_neg, ← FVal.num_negate] at h ⊢
  exact (roundNearest_pair hf fz finite.negate).1 h

theorem maxElem_number (hx : x < 2 ^ f.width) (hy : y < 2 ^ f.width) (ha : numOf f x = some a) (hb : numOf f y = some b) :
    numOf f (maxElem f x y) = some (max a b) := by
  obtain ⟨fx, rfl⟩ := numOf_finite ha
  obtain ⟨fy, rfl⟩ := numOf_finite hb
  obtain ⟨one | one, num⟩ := FVal.maxv_finite fx fy
  · rw [maxElem, if_neg (by simp [hf.isInt_eq]), ← num, one, roundNearest_elemValue hf.isFloat hx fx, ha]
  · rw [maxElem, if_neg (by simp [hf.isInt_eq]), ← num, one, roundNearest_elemValue hf.isFloat hy fy, hb]

theorem minElem_number (hx : x < 2 ^ f.width) (hy : y < 2 ^ f.width) (ha : numOf f x = some a) (hb : numOf f y = some b) :
    numOf f (minElem f x y) = some (min a b) := by
  obtain ⟨fx, rfl⟩ := numOf_finite ha
  obtain ⟨fy, rfl⟩ := numOf_finite hb
  obtain ⟨one | one, num⟩ := FVal.minv_finite fx fy
  · rw [minElem, if_neg (by simp [hf.isInt_eq]), ← num, one, roundNearest_elemValue hf.isFloat hx fx, ha]
  · rw [minElem, if_neg (by simp [hf.isInt_eq]), ← num, one, roundNearest_elemValue hf.isFloat hy fy, hb]

/-- abs clears the sign bit and neg inverts it. -/
theorem abs_neg_number (hx : x < 2 ^ f.width) (ha : numOf f x = some a) :
    absElem f x = x % 2 ^ (f.width - 1) ∧ negElem f x = (x + 2 ^ (f.width - 1)) % 2 ^ f.width := by
  obtain ⟨⟨n, m, e, hv⟩, -⟩ := numOf_finite ha
  obtain ⟨held, code⟩ := held_of_elemValue hf.isFloat hx hv
  have below := held.magCode_lt hf.isFloat
  have split : 2 ^ f.width = 2 * 2 ^ (f.width - 1) := by rw [← pow_succ', Nat.sub_add_cancel (width_pos f)]
  rw [absElem, negElem, if_neg (by simp [hf.isInt_eq]), if_neg (by simp [hf.isInt_eq]), hv, FVal.abs, FVal.negate, roundNearest, roundNearest,
    held.toFloat hf.isFloat, held.toFloat hf.isFloat, code]
  generalize magCode f m e = c at below
  cases n
  · simp [signBit, Nat.mod_eq_of_lt below, Nat.mod_eq_of_lt (show c + 2 ^ (f.width - 1) < 2 ^ f.width by omega), Nat.add_comm]
  · have whole : 2 ^ (f.width - 1) + c + 2 ^ (f.width - 1) = c + 2 ^ f.width := by omega
    simp [signBit, Nat.mod_eq_of_lt below, whole, Nat.mod_eq_of_lt (show c < 2 ^ f.width by omega)]

end Numbers

section Special

variable {f : Fmt} (hf : f.IsWide) {x y z : Nat}

include hf

/-- A NaN operand gives the canonical NaN. -/
theorem words_of_nan (hx : elemValue f x = .nan) :
    [addElem f x y, addElem f y x, subElem f x y, subElem f y x, mulElem f x y, mulElem f y x, fmaElem f x y z,
      fmaElem f y x z, fmaElem f y z x, fmsElem f x y z, fmsElem f y x z, fmsElem f y z x, maxElem f x y, maxElem f y x, minElem f x y,
      minElem f y x, absElem f x, negElem f x] = List.replicate 18 (if f = .fp32 then 0x7FC00000 else 0x7FC0) := by
  rw [← hf.roundNearest_nan]
  have first (w : FVal) : exactSum [.nan, w] = .nan := exactSum_nan (by simp)
  have second (w : FVal) : exactSum [w, .nan] = .nan := exactSum_nan (by simp)
  simp [addElem, subElem, mulElem, fmaElem, fmsElem, maxElem, minElem, absElem, negElem, hf.isInt_eq, hx, first, second, FVal.negate, FVal.abs,
    FVal.maxv, FVal.minv]

/-- Infinities added, subtracted and multiplied. -/
theorem words_of_inf {n : Bool} (hx : elemValue f x = .inf n) :
    (numOf f y ≠ none → addElem f x y = infOf f n ∧ subElem f x y = infOf f n ∧ subElem f y x = infOf f (!n)) ∧
    (elemValue f y = .inf n → addElem f x y = infOf f n ∧ subElem f x y = (if f = .fp32 then 0x7FC00000 else 0x7FC0)) ∧
    (elemValue f y = .inf (!n) → addElem f x y = (if f = .fp32 then 0x7FC00000 else 0x7FC0) ∧ subElem f x y = infOf f n) ∧
    (numOf f y = some 0 → mulElem f x y = (if f = .fp32 then 0x7FC00000 else 0x7FC0) ∧
      mulElem f y x = (if f = .fp32 then 0x7FC00000 else 0x7FC0) ∧ fmaElem f x y z = (if f = .fp32 then 0x7FC00000 else 0x7FC0)) := by
  rw [← hf.roundNearest_nan, ← hf.roundNearest_inf, ← hf.roundNearest_inf]
  have add (u v : Nat) : addElem f u v = roundNearest f (exactSum [elemValue f u, elemValue f v]) := if_neg (by simp [hf.isInt_eq])
  have sub (u v : Nat) : subElem f u v = roundNearest f (exactSum [elemValue f u, (elemValue f v).negate]) := if_neg (by simp [hf.isInt_eq])
  have mul (u v : Nat) : mulElem f u v = roundNearest f ((elemValue f u).mul (elemValue f v)) := if_neg (by simp [hf.isInt_eq])
  have same := exactSum_inf_same
  have opposite := exactSum_inf_opposite
  refine ⟨fun h => ?_, fun hy => ?_, fun hy => ?_, fun hy => ?_⟩
  · obtain ⟨b, hb⟩ := Option.ne_none_iff_exists'.mp h
    obtain ⟨fy, -⟩ := numOf_finite hb
    rw [add, sub, sub, hx, FVal.negate, (exactSum_inf_finite fy n).1, (exactSum_inf_finite fy.negate n).1, (exactSum_inf_finite fy !n).2]
    exact ⟨rfl, rfl, rfl⟩
  · rw [add, sub, hx, hy, FVal.negate, same, opposite]
    exact ⟨rfl, rfl⟩
  · rw [add, sub, hx, hy, FVal.negate, Bool.not_not, same, opposite]
    exact ⟨rfl, rfl⟩
  · obtain ⟨fy, zero⟩ := numOf_finite hy
    obtain ⟨left, right⟩ := FVal.inf_mul_zero fy zero n
    rw [mul, mul, fmaElem, hx, left, right, exactSum_nan (by simp)]
    exact ⟨rfl, rfl, rfl⟩

end Special

end Sys2Proof.Machine
end

section
/-!
PROOFS. The format table of R70 and R71 field by field, and conversions between formats (R80).
-/

namespace Sys2Proof.Machine

open Sys2Proof.Claims

/-! ## The format table (R70, R71) -/

/-- A code of a number, given by its sign, exponent and mantissa fields. -/
theorem numOf_fields {f : Fmt} (hf : f.IsFloat) {e m : Nat} (hm : m < 2 ^ f.mbits) (top : e * 2 ^ f.mbits + m ≤ f.topMag) (sg : Bool) :
    numOf f ((if sg then 2 ^ (f.width - 1) else 0) + e * 2 ^ f.mbits + m) = some ((if sg then (-1 : ℚ) else 1) *
      if e = 0 then (m : ℚ) * (2 : ℚ) ^ f.emin else ((2 : ℚ) ^ f.mbits + m) * 2 ^ ((e : Int) - 1 + f.emin)) := by
  have quotient : (e * 2 ^ f.mbits + m) / 2 ^ f.mbits = e := by
    rw [Nat.mul_comm, Nat.mul_add_div (by positivity), Nat.div_eq_of_lt hm, Nat.add_zero]
  have rest : (e * 2 ^ f.mbits + m) % 2 ^ f.mbits = m := by rw [Nat.mul_comm, Nat.mul_add_mod, Nat.mod_eq_of_lt hm]
  have code := numOf_code hf top sg
  rw [magVal, quotient, rest] at code
  rw [Nat.add_assoc]
  refine code.trans ?_
  cases sg <;> simp [signed, neg_ite]

/-- The fields of a code, each within its width. -/
theorem code_fields {p r e m : Nat} (he : e < r) (hm : m < p) (sg : Bool) :
    ((if sg then p * r else 0) + e * p + m) % p = m ∧ ((if sg then p * r else 0) + e * p + m) / p % r = e ∧
      decide (((if sg then p * r else 0) + e * p + m) / (p * r) % 2 = 1) = sg := by
  have pos : 0 < p := by omega
  have shape : (if sg then p * r else 0) + e * p + m = p * ((if sg then r else 0) + e) + m := by cases sg <;> simp <;> ring
  have quotient : ((if sg then p * r else 0) + e * p + m) / p = (if sg then r else 0) + e := by
    rw [shape, Nat.mul_add_div pos, Nat.div_eq_of_lt hm, Nat.add_zero]
  rw [← Nat.div_div_eq_div_mul, quotient]
  refine ⟨by rw [shape, Nat.mul_add_mod, Nat.mod_eq_of_lt hm], ?_, ?_⟩
  · cases sg <;> simp [Nat.mod_eq_of_lt he]
  · cases sg <;> simp [Nat.div_eq_of_lt he, Nat.add_div_left _ (Nat.zero_lt_of_lt he)]

/-- A code whose exponent field is all ones is an infinity or NaN in the formats that have both. -/
theorem elemValue_allOnes {f : Fmt} {m : Nat} (hf : f = .fp32 ∨ f = .bf16 ∨ f = .e5m2) (hm : m < 2 ^ f.mbits) (sg : Bool) :
    elemValue f ((if sg then 2 ^ (f.width - 1) else 0) + (2 ^ (f.width - 1 - f.mbits) - 1) * 2 ^ f.mbits + m) =
      if m = 0 then .inf sg else .nan := by
  have form (c : Nat) : elemValue f c = if c / 2 ^ f.mbits % 2 ^ (f.width - 1 - f.mbits) = 2 ^ (f.width - 1 - f.mbits) - 1 then
      (if c % 2 ^ f.mbits = 0 then .inf (decide (c / 2 ^ (f.width - 1) % 2 = 1)) else .nan) else finiteOf f c := by
    obtain rfl | rfl | rfl := hf <;> rfl
  have split : 2 ^ (f.width - 1) = 2 ^ f.mbits * 2 ^ (f.width - 1 - f.mbits) := by obtain rfl | rfl | rfl := hf <;> rfl
  have pos : 0 < 2 ^ (f.width - 1 - f.mbits) := by positivity
  obtain ⟨low, field, sign⟩ := code_fields (e := 2 ^ (f.width - 1 - f.mbits) - 1) (Nat.sub_lt pos Nat.one_pos) hm sg
  rw [form, split, low, field, sign, if_pos rfl]

theorem elemValue_e4m3_nan (sg : Bool) : elemValue .e4m3 ((if sg then 128 else 0) + 15 * 8 + 7) = .nan := by cases sg <;> rfl

/-- The table of R70 and R71: the formats with their widths of exponent and mantissa and their biases. -/
theorem numbers_of_formatTable : ∀ p ∈ [(Fmt.fp32, (8 : Nat), (23 : Nat), (127 : Int)), (.bf16, 8, 7, 127), (.e5m2, 5, 2, 15), (.e4m3, 4, 3, 7),
      (.e2m1, 2, 1, 1)],
    let f := p.1
    let eb := p.2.1
    let mb := p.2.2.1
    ∀ (sg : Bool) (e m : Nat), e < 2 ^ eb → m < 2 ^ mb →
      let c := (if sg then 2 ^ (f.width - 1) else 0) + e * 2 ^ mb + m
      let top := decide (e + 1 = 2 ^ eb)
      let special := match f with
        | .e4m3 => top && decide (m = 7)
        | .e2m1 => false
        | _ => top
      (special = true → elemValue f c = if m = 0 then .inf sg else .nan) ∧
      (special = false → numOf f c = some ((if sg then (-1 : ℚ) else 1) *
        if e = 0 then (m : ℚ) * (2 : ℚ) ^ (1 - p.2.2.2 - mb) else ((2 : ℚ) ^ mb + m) * 2 ^ ((e : Int) - p.2.2.2 - mb))) := by
  have number {f : Fmt} (hf : f.IsFloat) (mb : Nat) (bias : Int) (emin : f.emin = 1 - bias - mb) (hmb : f.mbits = mb) {e m : Nat}
      (hm : m < 2 ^ mb) (top : e * 2 ^ mb + m ≤ f.topMag) (sg : Bool) :
      numOf f ((if sg then 2 ^ (f.width - 1) else 0) + e * 2 ^ mb + m) = some ((if sg then (-1 : ℚ) else 1) *
        if e = 0 then (m : ℚ) * (2 : ℚ) ^ (1 - bias - mb) else ((2 : ℚ) ^ mb + m) * 2 ^ ((e : Int) - bias - mb)) := by
    subst hmb
    rw [numOf_fields hf hm top sg, emin, show (e : Int) - 1 + (1 - bias - f.mbits) = e - bias - f.mbits by ring]
  intro p hp
  simp only [List.mem_cons, List.not_mem_nil, or_false] at hp
  obtain rfl | rfl | rfl | rfl | rfl := hp <;> intro f eb mb sg e m he hm c top special
  case inl =>
    refine ⟨fun h => ?_, fun h => number (.inl rfl) 23 127 (by decide) rfl hm ?_ sg⟩
    · obtain rfl : e = 255 := Nat.succ_injective (of_decide_eq_true h)
      exact elemValue_allOnes (.inl rfl) hm sg
    · have low : e + 1 ≠ 256 := of_decide_eq_false h
      have bound : m < 2 ^ 23 := hm
      have field : e < 256 := he
      show e * 2 ^ 23 + m ≤ 0x7F7FFFFF
      omega
  case inr.inl =>
    refine ⟨fun h => ?_, fun h => number (.inr (.inl rfl)) 7 127 (by decide) rfl hm ?_ sg⟩
    · obtain rfl : e = 255 := Nat.succ_injective (of_decide_eq_true h)
      exact elemValue_allOnes (.inr (.inl rfl)) hm sg
    · have low : e + 1 ≠ 256 := of_decide_eq_false h
      have bound : m < 2 ^ 7 := hm
      have field : e < 256 := he
      show e * 2 ^ 7 + m ≤ 0x7F7F
      omega
  case inr.inr.inl =>
    refine ⟨fun h => ?_, fun h => number (.inr (.inr (.inl rfl))) 2 15 (by decide) rfl hm ?_ sg⟩
    · obtain rfl : e = 31 := Nat.succ_injective (of_decide_eq_true h)
      exact elemValue_allOnes (.inr (.inr rfl)) hm sg
    · have low : e + 1 ≠ 32 := of_decide_eq_false h
      have bound : m < 4 := hm
      have field : e < 32 := he
      show e * 4 + m ≤ 0x7B
      omega
  case inr.inr.inr.inl =>
    have bound : m < 8 := hm
    have field : e < 16 := he
    refine ⟨fun h => ?_, fun h => number (.inr (.inr (.inr (.inl rfl)))) 3 7 (by decide) rfl hm ?_ sg⟩
    · obtain ⟨high, seven⟩ : e + 1 = 16 ∧ m = 7 := by simpa [special, top, f, eb] using h
      obtain rfl : e = 15 := by omega
      subst seven
      exact elemValue_e4m3_nan sg
    · have low : e + 1 = 16 → m ≠ 7 := by simpa [special, top, f, eb] using h
      show e * 8 + m ≤ 0x7E
      omega
  case inr.inr.inr.inr =>
    have bound : m < 2 := hm
    have field : e < 4 := he
    refine ⟨fun h => (nomatch h), fun _ => number (.inr (.inr (.inr (.inr rfl)))) 1 1 (by decide) rfl hm ?_ sg⟩
    show e * 2 + m ≤ 7
    omega

end Sys2Proof.Machine
end

section
/-!
PROOFS. Conversions (R80): a destination that holds every source value takes it whatever the mode, another rounds it, an integer
destination takes the rounded integer clamped; NaN and the infinities go as the tables say.
-/

namespace Sys2Proof.Machine

open Sys2Proof.Claims

/-! ## Rounding to an integer (R77) -/

/-- Units of 1 rounded under a mode are the number rounded to an integer. -/
theorem RoundsTo.roundedInt {mode : Rm} {draw : Nat} {neg : Bool} {v : ℚ} {k : Nat} (hv : 0 ≤ v) (h : RoundsTo mode draw neg v k) :
    RoundedInt mode (signed neg v) (if neg then -(k : Int) else k) := by
  obtain ⟨n, lo, hi, up, down⟩ := h
  have cast : (((if neg then -(k : Int) else k) : Int) : ℚ) = signed neg k := by cases neg <;> simp [signed]
  have dist : |signed neg v - signed neg k| = |v - k| := by
    cases neg
    · rfl
    · rw [← abs_neg]
      congr 1
      simp [signed]
      ring
  have even : ((if neg then -(k : Int) else k) : Int) % 2 = 0 ↔ k % 2 = 0 := by
    cases neg <;> simp only [Bool.false_eq_true, if_false, if_true] <;> omega
  cases mode with
  | rne =>
    rw [RoundedInt, cast, dist, even]
    by_cases step : stepsUp .rne draw neg v n
    · obtain rfl := up step
      have half : 1 ≤ 2 * (v - n) := step.elim le_of_lt fun tie => tie.1.ge
      have above : |v - (n + 1 : Nat)| = n + 1 - v := by
        rw [abs_of_nonpos (by push_cast; linarith)]
        push_cast
        ring
      rw [above]
      refine ⟨by linarith, fun tie => ?_⟩
      have odd : n % 2 = 1 := step.elim (fun far => absurd far (by linarith)) And.right
      omega
    · obtain rfl := down step
      have near : 2 * (v - k) ≤ 1 := not_lt.mp fun far => step (.inl far)
      rw [abs_of_nonneg (by linarith : (0 : ℚ) ≤ v - k)]
      refine ⟨by linarith, fun tie => ?_⟩
      have notOdd : ¬ k % 2 = 1 := fun odd => step (.inr ⟨by linarith, odd⟩)
      omega
  | rtz =>
    obtain rfl := down id
    have kpos : (0 : ℚ) ≤ k := Nat.cast_nonneg k
    rw [RoundedInt, cast, dist, abs_signed, abs_signed, abs_of_nonneg hv, abs_of_nonneg kpos, abs_of_nonneg (by linarith : (0 : ℚ) ≤ v - k)]
    refine ⟨lo, by linarith, ?_⟩
    have product : 0 ≤ v * k := mul_nonneg hv kpos
    cases neg
    · exact product
    · simpa [signed] using product
  | rdn =>
    rw [RoundedInt, cast]
    cases neg
    · obtain rfl := down fun step => absurd step.1 (by decide)
      exact ⟨lo, hi⟩
    · by_cases same : (n : ℚ) = v
      · obtain rfl := down fun step => step.2 same
        simp [signed, same]
      · obtain rfl := up ⟨rfl, same⟩
        have lt := lo.lt_of_ne same
        simp only [signed, if_true]
        push_cast
        exact ⟨by linarith, by linarith⟩
  | rup =>
    rw [RoundedInt, cast]
    cases neg
    · by_cases same : (n : ℚ) = v
      · obtain rfl := down fun step => step.2 same
        simp [signed, same]
      · obtain rfl := up ⟨rfl, same⟩
        have lt := lo.lt_of_ne same
        simp only [signed, if_false, Bool.false_eq_true]
        push_cast
        exact ⟨by linarith, by linarith⟩
    · obtain rfl := down fun step => absurd step.1 (by decide)
      simp only [signed, if_true]
      exact ⟨by linarith, by linarith⟩
  | rs => trivial

/-! ## Conversions between formats (R80) -/

section Convert

variable {src dst : Fmt} {mode : Rm} {sat draw n : Nat}

theorem pairAllowed_isFloat (h : pairAllowed src dst = true) :
    (src.isInt = false → src.IsFloat) ∧ (dst.isInt = false → dst.IsFloat) := by
  obtain ⟨h1, h2, h3, h4, h5, h6⟩ := of_decide_eq_true h
  unfold Fmt.IsFloat
  constructor
  · cases src <;> simp_all [Fmt.isInt]
  · cases dst <;> simp_all [Fmt.isInt]

theorem convertElem_toFloat (hne : src ≠ dst) (hd : dst.isInt = false) : convertElem src dst mode sat draw n =
    if dst.holds src then toFloat dst .rne 0 0 (elemValue src n) else toFloat dst mode sat draw (elemValue src n) := by
  rw [convertElem, if_neg hne, hd]
  cases src.isInt <;> rfl

/-- A format that holds every value of another is at least as fine and as wide. -/
theorem Fmt.holds_params (hd : dst.IsFloat) (hne : src ≠ dst) (h : dst.holds src = true) :
    src.IsFloat ∧ src.mbits ≤ dst.mbits ∧ dst.emin ≤ src.emin ∧ maxNum src ≤ maxNum dst := by
  have pair : (dst = .fp32 ∧ (src = .bf16 ∨ src = .e4m3 ∨ src = .e5m2 ∨ src = .e2m1)) ∨
      (dst = .bf16 ∧ (src = .e4m3 ∨ src = .e5m2 ∨ src = .e2m1)) ∨ ((dst = .e5m2 ∨ dst = .e4m3) ∧ src = .e2m1) := by
    obtain rfl | rfl | rfl | rfl | rfl := hd <;> cases src <;> simp_all [Fmt.holds]
  unfold Fmt.IsFloat
  obtain ⟨rfl, rfl | rfl | rfl | rfl⟩ | ⟨rfl, rfl | rfl | rfl⟩ | ⟨rfl | rfl, rfl⟩ := pair <;>
    exact ⟨by decide, by decide, by decide, by norm_num [maxNum]⟩

/-- A number of a format is a whole number of quanta of a finer one, and within its range. -/
theorem Held.finer {m : Nat} {e : Int} (hs : src.IsFloat) (h : Held src m e) (hm : m ≠ 0) (hmb : src.mbits ≤ dst.mbits) (he : dst.emin ≤ src.emin)
    (hmax : maxNum src ≤ maxNum dst) : quantum dst m e ≤ e ∧ (m : ℚ) * 2 ^ e ≤ maxNum dst := by
  have own : max (e + (Nat.log2 m : Int) - src.mbits) src.emin = e := h.quantum_eq hm
  have other : quantum dst m e = max (e + (Nat.log2 m : Int) - dst.mbits) dst.emin := rfl
  exact ⟨by omega, (h.le_maxNum hs).trans hmax⟩

/-- A conversion to a floating format rounds the number under the mode and the saturation code. -/
theorem convertElem_rounded (hd : dst.IsFloat) (hdi : dst.isInt = false) (hne : src ≠ dst) (hn : n < 2 ^ src.width) {q : ℚ}
    (hq : numOf src n = some q) (h0 : q ≠ 0) : Rounded dst mode sat draw q (convertElem src dst mode sat draw n) := by
  obtain ⟨⟨s, m, e, hv⟩, rfl⟩ := numOf_finite hq
  rw [hv] at h0 ⊢
  have hm : m ≠ 0 := fun hm => h0 (FVal.num_eq_zero.mpr hm)
  have same : convertElem src dst mode sat draw n = toFloat dst mode sat draw (.fin s m e) := by
    rw [convertElem_toFloat hne hdi, hv]
    by_cases holds : dst.holds src = true
    · obtain ⟨hs, hmb, he, hmax⟩ := Fmt.holds_params hd hne holds
      obtain ⟨held, -⟩ := held_of_elemValue hs hn hv
      obtain ⟨units, range⟩ := held.finer hs hm hmb he hmax
      rw [if_pos holds, toFloat_exact hd hm units range, toFloat_exact hd hm units range]
    · rw [if_neg holds]
  rw [same]
  exact toFloat_rounded hd hm e

theorem convertElem_zero (hd : dst.IsFloat) (hdi : dst.isInt = false) (hne : src ≠ dst) (hq : numOf src n = some 0) :
    numOf dst (convertElem src dst mode sat draw n) = some 0 := by
  obtain ⟨finite, zero⟩ := numOf_finite hq
  rw [convertElem_toFloat hne hdi, toFloat_zero finite zero, toFloat_zero finite zero, ite_self]
  exact numOf_signBit hd _

theorem convertElem_nan (hdi : dst.isInt = false) (hne : src ≠ dst) (hv : elemValue src n = .nan) :
    convertElem src dst mode sat draw n = if dst = .e2m1 then 0 else if sat = 2 ∧ dst.holds src = false then 0 else canonNan dst := by
  rw [convertElem_toFloat hne hdi, hv]
  simp only [toFloat]
  by_cases e2 : dst = .e2m1
  · simp [e2]
  · by_cases holds : dst.holds src = true
    · simp [e2, holds]
    · simp [e2, holds]

theorem convertElem_inf (hd : dst.IsFloat) (hdi : dst.isInt = false) (hne : src ≠ dst) {s : Bool} (hv : elemValue src n = .inf s) :
    if dst = .e2m1 ∨ (sat ≠ 0 ∧ dst.holds src = false) then
      numOf dst (convertElem src dst mode sat draw n) = some (if s then - maxNum dst else maxNum dst)
    else convertElem src dst mode sat draw n = infOf dst s := by
  have largest : numOf dst (maxCode dst s) = some (if s then - maxNum dst else maxNum dst) := numOf_maxCode hd s
  rw [convertElem_toFloat hne hdi, hv]
  simp only [toFloat]
  by_cases e2 : dst = .e2m1
  · subst e2
    have same : infCode .e2m1 s = maxCode .e2m1 s := by cases s <;> decide
    simpa [same] using largest
  · have inf := hd.infCode_eq e2 s
    by_cases holds : dst.holds src = true
    · simpa [e2, holds] using inf
    · by_cases hs : sat = 0
      · simpa [e2, holds, hs] using inf
      · simpa [e2, holds, hs] using largest

/-! ## Conversions to integers (R80) -/

theorem convertElem_toInt (hne : src ≠ dst) (hsi : src.isInt = false) (hdi : dst.isInt = true) :
    convertElem src dst mode sat draw n = toInt dst.width mode draw (elemValue src n) := by
  rw [convertElem, if_neg hne, hsi, hdi]

/-- A number is rounded to an integer and clamped to the range. -/
theorem toInt_number {w : Nat} (hw : 0 < w) (neg : Bool) (m : Nat) (e : Int) :
    ∃ k, RoundedInt mode (FVal.fin neg m e).num k ∧
      signedOf w (toInt w mode draw (.fin neg m e)) = max (-(2 ^ (w - 1) : Int)) (min ((2 ^ (w - 1) : Int) - 1) k) := by
  have rounds := roundUnits_roundsTo mode draw neg m e 0
  rw [zpow_zero, div_one] at rounds
  refine ⟨_, rounds.roundedInt (by positivity), ?_⟩
  rw [toInt, signedOf_clampInt hw, clampInt_eq]

theorem toInt_inf {w : Nat} (hw : 0 < w) (s : Bool) :
    signedOf w (toInt w mode draw (.inf s)) = if s then -(2 ^ (w - 1) : Int) else (2 ^ (w - 1) : Int) - 1 := by
  have pos : (0 : Int) < 2 ^ (w - 1) := by positivity
  rw [toInt]
  cases s
  · exact signedOf_lowBits_of_range hw (by simp only [Bool.false_eq_true, if_false]; omega) (by simp)
  · exact signedOf_lowBits_of_range hw (by simp) (by simp only [if_true]; omega)

/-- Between integers the low bits are kept or the number is clamped. -/
theorem convertElem_int (hne : src ≠ dst) (hsi : src.isInt = true) (hdi : dst.isInt = true) :
    signedOf dst.width (convertElem src dst mode sat draw n) = if dst.width < src.width then
      (if sat = 0 then (signedOf src.width n).bmod (2 ^ dst.width)
        else max (-(2 ^ (dst.width - 1) : Int)) (min ((2 ^ (dst.width - 1) : Int) - 1) (signedOf src.width n)))
      else signedOf src.width n := by
  have hw := width_pos dst
  rw [convertElem, if_neg hne, hsi, hdi]
  by_cases narrower : dst.width < src.width
  · by_cases keep : sat = 0
    · simp [narrower, keep, signedOf_lowBits hw]
    · simp [narrower, keep, ← clampInt_eq, signedOf_clampInt hw]
  · obtain ⟨lo, hi⟩ := signedOf_range (width_pos src) n
    have wider : (2 : Int) ^ (src.width - 1) ≤ 2 ^ (dst.width - 1) := pow_le_pow_right₀ (by decide) (by omega)
    simp only [narrower, false_and, if_false]
    exact signedOf_lowBits_of_range hw (by omega) (by omega)

end Convert

end Sys2Proof.Machine
end

section
/-!
PROOFS. The functions of R178. Reciprocal and roots are computed as twice a floor and a sticky bit: such a significand compares with the even
numbers as the exact value does, and nearest even asks for no more. Powers of two and their logarithms are exact.
-/

namespace Sys2Proof.Machine

open Sys2Proof.Claims

/-! ## Sticky significands -/

/-- A significand that stands to the even numbers as the value whose half it floors: `atMost j` says that `j` is at most that half, `atLeast j` that it is at
least. -/
structure Sticky (M : Nat) (atMost atLeast : Nat → Prop) : Prop where
  atMost : ∀ j, atMost j ↔ 2 * j ≤ M
  atLeast : ∀ j, atLeast j ↔ M ≤ 2 * j

/-- Twice a floor and a bit that says that the floor is not exact. -/
theorem sticky_of_floor {r : Nat} {atMost atLeast : Nat → Prop} {exact : Prop} [Decidable exact] (most : ∀ j, atMost j ↔ j ≤ r)
    (least : ∀ j, atLeast j ↔ if exact then r ≤ j else r < j) : Sticky (2 * r + if exact then 0 else 1) atMost atLeast := by
  refine ⟨fun j => (most j).trans ?_, fun j => (least j).trans ?_⟩ <;> split <;> omega

theorem isqrtBits_eq (n k r : Nat) (lo : r * r ≤ n) (hi : n < (r + 2 ^ k) * (r + 2 ^ k)) : isqrtBits n k r = Nat.sqrt n := by
  induction k generalizing r with
  | zero => exact Nat.eq_sqrt.mpr ⟨lo, hi⟩
  | succ k ih =>
    rw [isqrtBits]
    split
    · rename_i fits
      refine ih _ fits ?_
      rwa [Nat.add_assoc, ← Nat.two_mul, ← pow_succ']
    · rename_i beyond
      exact ih r lo (not_le.mp beyond)

theorem isqrt_eq (n : Nat) : isqrt n = Nat.sqrt n := by
  refine isqrtBits_eq n _ 0 (Nat.zero_le n) ?_
  rw [Nat.zero_add, ← pow_add]
  exact Nat.lt_log2_self.trans_le (Nat.pow_le_pow_right (by decide) (by omega))

/-- Nearest even looks at no more of a magnitude than how it compares with the half units. -/
theorem RoundsTo.rne_congr {draw : Nat} {neg : Bool} {t t' : ℚ} {k : Nat} (most : ∀ h : Nat, (h : ℚ) ≤ 2 * t ↔ (h : ℚ) ≤ 2 * t')
    (least : ∀ h : Nat, 2 * t ≤ h ↔ 2 * t' ≤ h) (h : RoundsTo .rne draw neg t' k) : RoundsTo .rne draw neg t k := by
  obtain ⟨n, lo, hi, up, down⟩ := h
  have even := most (2 * n)
  have next := most (2 * (n + 1))
  have halfMost := most (2 * n + 1)
  have halfLeast := least (2 * n + 1)
  push_cast at even next halfMost halfLeast
  have same : stepsUp .rne draw neg t n ↔ stepsUp .rne draw neg t' n := by
    have passes : 1 < 2 * (t - n) ↔ 1 < 2 * (t' - n) := by
      rw [← not_le, ← not_le, not_iff_not]
      constructor <;> intro h
      · have := halfLeast.mp (by linarith)
        linarith
      · have := halfLeast.mpr (by linarith)
        linarith
    have tie : 2 * (t - n) = 1 ↔ 2 * (t' - n) = 1 := by
      rw [le_antisymm_iff, le_antisymm_iff, ← not_lt, passes, not_lt]
      refine and_congr_right fun _ => ⟨fun h => ?_, fun h => ?_⟩
      · have := halfMost.mp (by linarith)
        linarith
      · have := halfMost.mpr (by linarith)
        linarith
    simp only [stepsUp, passes, tie]
  refine ⟨n, ?_, ?_, fun h => up (same.mp h), fun h => down fun h' => h (same.mpr h')⟩
  · have := even.mpr (by linarith)
    linarith
  · by_contra far
    have := next.mp (by linarith)
    linarith

section Units

variable {M : Nat} {E Q : Int} {atMost atLeast : Nat → Prop}

/-- Half units of a quantum two bits above a significand are even. -/
theorem half_unit (hQ : E + 2 ≤ Q) (h : Nat) : (h : ℚ) * 2 ^ (Q - 1) = ((h * 2 ^ (Q - E - 2).toNat : Nat) : ℚ) * 2 ^ (E + 1) := by
  push_cast
  rw [← zpow_natCast, Int.toNat_of_nonneg (by omega), mul_assoc, ← zpow_add₀ two_ne_zero]
  congr 2
  ring

/-- How a sticky significand compares with half units. -/
theorem Sticky.half_units (hs : Sticky M atMost atLeast) (hQ : E + 2 ≤ Q) (h : Nat) :
    ((h : ℚ) ≤ 2 * (M * 2 ^ E / 2 ^ Q) ↔ atMost (h * 2 ^ (Q - E - 2).toNat)) ∧
    (2 * (M * 2 ^ E / 2 ^ Q) ≤ (h : ℚ) ↔ atLeast (h * 2 ^ (Q - E - 2).toNat)) := by
  have unit : (0 : ℚ) < 2 ^ (Q - 1) := by positivity
  have small : (0 : ℚ) < 2 ^ E := by positivity
  have scale : (2 : ℚ) * (M * 2 ^ E / 2 ^ Q) = M * 2 ^ E / 2 ^ (Q - 1) := by
    rw [zpow_sub_one₀ two_ne_zero]
    field_simp
  have double (j : Nat) : (j : ℚ) * 2 ^ (E + 1) = ((2 * j : Nat) : ℚ) * 2 ^ E := by
    rw [zpow_add_one₀ two_ne_zero]
    push_cast
    ring
  rw [scale, le_div_iff₀ unit, div_le_iff₀ unit, half_unit hQ, double, mul_le_mul_iff_left₀ small, mul_le_mul_iff_left₀ small, hs.atMost, hs.atLeast]
  exact ⟨Nat.cast_le, Nat.cast_le⟩

end Units

/-! ## The reciprocal -/

/-- A value whose halves compare as a sticky significand says is rounded as the significand is. -/
theorem toFloat_sticky {f : Fmt} (hf : f.IsFloat) {neg : Bool} {M : Nat} {E : Int} {v : ℚ} (pos : 0 < v) (hM : 2 ^ (f.mbits + 2) ≤ M)
    (hs : Sticky M (fun j => (j : ℚ) * 2 ^ (E + 1) ≤ v) (fun j => v ≤ (j : ℚ) * 2 ^ (E + 1))) (sat draw : Nat) :
    Rounded f .rne sat draw (signed neg v) (toFloat f .rne sat draw (.fin neg M E)) := by
  have M0 : M ≠ 0 := by
    rintro rfl
    exact absurd hM (not_le.mpr (by positivity))
  have width : f.mbits + 2 ≤ Nat.log2 M := (Nat.le_log2 M0).mpr hM
  have hQ : E + 2 ≤ quantum f M E := by
    have q : quantum f M E = max (E + (Nat.log2 M : Int) - f.mbits) f.emin := rfl
    omega
  have double (j : Nat) : (j : ℚ) * 2 ^ (E + 1) = ((2 * j : Nat) : ℚ) * 2 ^ E := by
    rw [zpow_add_one₀ two_ne_zero]
    push_cast
    ring
  have power (i : Nat) : (2 : ℚ) ^ (i + 1) * 2 ^ E = ((2 ^ i : Nat) : ℚ) * 2 ^ (E + 1) := by
    rw [double]
    push_cast
    ring
  have lo : (2 : ℚ) ^ Nat.log2 M * 2 ^ E ≤ v := by
    obtain ⟨i, hi⟩ : ∃ i, Nat.log2 M = i + 1 := ⟨Nat.log2 M - 1, by omega⟩
    rw [hi, power]
    refine (hs.atMost _).mpr ?_
    rw [← pow_succ', ← hi]
    exact Nat.log2_self_le M0
  have hi : v < 2 ^ (Nat.log2 M + 1) * 2 ^ E := by
    rw [power]
    refine not_le.mp fun far => ?_
    have le := (hs.atMost _).mp far
    rw [← pow_succ'] at le
    exact absurd Nat.lt_log2_self (not_lt.mpr le)
  rw [toFloat_fin M0]
  refine packRounded_rounded hf (inQuantum_of_log2 lo hi) pos ((roundUnits_roundsTo .rne draw neg M E _).rne_congr (fun h => ?_) fun h => ?_)
  all_goals
    generalize quantum f M E = Q at hQ
    have unit : (0 : ℚ) < 2 ^ (Q - 1) := by positivity
    have scale : (2 : ℚ) * (v / 2 ^ Q) = v / 2 ^ (Q - 1) := by
      rw [zpow_sub_one₀ two_ne_zero]
      field_simp
  · rw [(hs.half_units hQ h).1, scale, le_div_iff₀ unit, half_unit hQ]
  · rw [(hs.half_units hQ h).2, scale, div_le_iff₀ unit, half_unit hQ]

/-- The reciprocal of a number is the exact one rounded once. -/
theorem rcp32_number {n : Bool} {m : Nat} (hm : m ≠ 0) (e : Int) :
    Rounded .fp32 .rne 0 0 (1 / (FVal.fin n m e).num) (rcp32 (.fin n m e)) := by
  have mpos : 0 < m := Nat.pos_of_ne_zero hm
  have mposQ : (0 : ℚ) < m := by exact_mod_cast mpos
  have inverse : 1 / (FVal.fin n m e).num = signed n (1 / (m * 2 ^ e)) := by cases n <;> simp [FVal.num, signed]
  have floor : 2 ^ 63 ≤ 2 ^ (Nat.log2 m + 64) / m := by
    rw [Nat.le_div_iff_mul_le mpos]
    calc 2 ^ 63 * m ≤ 2 ^ 63 * 2 ^ (Nat.log2 m + 1) := Nat.mul_le_mul_left _ Nat.lt_log2_self.le
      _ = 2 ^ (Nat.log2 m + 64) := by rw [← pow_add]; congr 1; omega
  rw [rcp32, if_neg hm, inverse]
  dsimp only
  generalize Nat.log2 m + 64 = k at floor
  have unit (j : Nat) : (j : ℚ) * 2 ^ (-(k : Int) - e - 1 + 1) = j / (2 ^ k * 2 ^ e) := by
    rw [sub_add_cancel, sub_eq_add_neg, zpow_add₀ two_ne_zero, zpow_neg, zpow_neg, zpow_natCast]
    field_simp
  have most (j : Nat) : (j : ℚ) * 2 ^ (-(k : Int) - e - 1 + 1) ≤ 1 / (m * 2 ^ e) ↔ j * m ≤ 2 ^ k := by
    rw [unit, div_le_div_iff₀ (by positivity) (by positivity), one_mul, ← mul_assoc, mul_le_mul_iff_left₀ (by positivity)]
    exact_mod_cast Iff.rfl
  have least (j : Nat) : 1 / (m * 2 ^ e) ≤ (j : ℚ) * 2 ^ (-(k : Int) - e - 1 + 1) ↔ 2 ^ k ≤ j * m := by
    rw [unit, div_le_div_iff₀ (by positivity) (by positivity), one_mul, ← mul_assoc, mul_le_mul_iff_left₀ (by positivity)]
    exact_mod_cast Iff.rfl
  refine toFloat_sticky (.inl rfl) (by positivity) (le_trans ?_ (Nat.le_add_right _ _)) (sticky_of_floor (fun j => ?_) fun j => ?_) 0 0
  · have small : 2 ^ (Fmt.fp32.mbits + 2) ≤ 2 ^ 63 := by decide
    omega
  · rw [most, Nat.le_div_iff_mul_le mpos]
  · rw [least]
    split
    · rename_i exactly
      have whole := Nat.div_mul_cancel (Nat.dvd_of_mod_eq_zero exactly)
      constructor
      · intro h
        exact Nat.div_le_of_le_mul (by rwa [Nat.mul_comm])
      · intro h
        calc 2 ^ k = 2 ^ k / m * m := whole.symm
          _ ≤ j * m := Nat.mul_le_mul_right m h
    · rename_i inexact
      rw [Nat.div_lt_iff_lt_mul mpos]
      exact ⟨fun h => h.lt_of_ne fun same => inexact (by rw [same]; exact Nat.mul_mod_left j m), le_of_lt⟩

end Sys2Proof.Machine
end

section
/-!
PROOFS. The roots of R178 as the nearest FP32 numbers, and the exact powers of two and logarithms.
-/

namespace Sys2Proof.Machine

open Sys2Proof.Claims

/-! ## The nearest FP32 number -/

/-- A sticky significand whose result is a normal number is rounded to the nearest. -/
theorem nearest32_sticky {below above : ℚ → Prop} {M : Nat} {E : Int} (hM : 2 ^ 25 ≤ M)
    (hs : Sticky M (fun j => above ((j : ℚ) * 2 ^ (E + 1))) (fun j => below ((j : ℚ) * 2 ^ (E + 1)))) (least : -126 ≤ E + Nat.log2 M)
    (most : E + Nat.log2 M ≤ 126) : Nearest32 below above (roundNearest .fp32 (.fin false M E)) := by
  have hf : Fmt.fp32.IsFloat := .inl rfl
  have M0 : M ≠ 0 := by omega
  have width : 25 ≤ Nat.log2 M := (Nat.le_log2 M0).mpr hM
  have hv := inQuantum_quantum (f := .fp32) M0 E
  have rounds := roundUnits_roundsTo .rne 0 false M E (quantum .fp32 M E)
  rw [roundNearest, toFloat_fin M0]
  obtain ⟨Q, hQ⟩ : ∃ Q, quantum .fp32 M E = Q := ⟨_, rfl⟩
  have value : Q = max (E + (Nat.log2 M : Int) - 23) (-149) := hQ.symm
  rw [hQ] at hv rounds ⊢
  have two : E + 2 ≤ Q := by omega
  have under : Q < Fmt.fp32.maxFinite.2 := show Q < 104 by omega
  obtain ⟨n, lo, hi, up, down⟩ := rounds
  generalize roundUnits .rne 0 false M E Q = k at up down
  have near : k = n + 1 ∨ k = n := (em _).imp up down
  obtain ⟨-, -, top⟩ := hv.next_le_top hf (hv.below_top hf under) lo hi
  obtain ⟨units, full⟩ := hv.units lo hi
  have fits : ¬ PassesTop .fp32 Q k := by
    rintro (high | ⟨same, -⟩)
    · exact absurd under (not_lt.mpr high.le)
    · exact absurd under (not_lt.mpr same.ge)
  have fullNext : 2 ^ Fmt.fp32.mbits ≤ n + 1 ∨ Q = Fmt.fp32.emin := full.imp_left fun h => by omega
  have fullK : 2 ^ Fmt.fp32.mbits ≤ k ∨ Q = Fmt.fp32.emin := full.imp_left fun h => by omega
  have valA := numOf_packFinite hf hv.emin (by omega) full (by omega) false
  have valB := numOf_packFinite hf hv.emin units fullNext top false
  have last := top.trans_lt hf.topMag_lt
  have bound : (Q - Fmt.fp32.emin).toNat * 2 ^ Fmt.fp32.mbits + n + 1 < 2 ^ 31 := by rwa [show Fmt.fp32.width - 1 = 31 from rfl, ← Nat.add_assoc] at last
  have parity : ((Q - Fmt.fp32.emin).toNat * 2 ^ Fmt.fp32.mbits + n) % 2 = n % 2 := by
    show ((Q - Fmt.fp32.emin).toNat * 8388608 + n) % 2 = n % 2
    omega
  rw [packFinite_eq hv.emin (by omega) full, signBit, if_neg (by decide), Nat.zero_add, signed, if_neg (by decide)] at valA
  rw [packFinite_eq hv.emin units fullNext, signBit, if_neg (by decide), Nat.zero_add, ← Nat.add_assoc, signed, if_neg (by decide)] at valB
  rw [packRounded, if_neg fits, packFinite_eq hv.emin (by omega) fullK, signBit, if_neg (by decide), Nat.zero_add]
  have aboveHalf (h : Nat) : (h : ℚ) ≤ 2 * (M * 2 ^ E / 2 ^ Q) ↔ above ((h : ℚ) * 2 ^ (Q - 1)) := by
    rw [(hs.half_units two h).1, half_unit two]
  have belowHalf (h : Nat) : 2 * (M * 2 ^ E / 2 ^ Q) ≤ (h : ℚ) ↔ below ((h : ℚ) * 2 ^ (Q - 1)) := by
    rw [(hs.half_units two h).2, half_unit two]
  have unit (q : ℚ) : 2 * q * (2 : ℚ) ^ (Q - 1) = q * 2 ^ Q := by
    rw [zpow_sub_one₀ two_ne_zero]
    ring
  have aboveA := aboveHalf (2 * n)
  have aboveB := aboveHalf (2 * (n + 1))
  have aboveMid := aboveHalf (2 * n + 1)
  have belowMid := belowHalf (2 * n + 1)
  have middle : ((n : ℚ) * 2 ^ Q + ((n + 1 : Nat) : ℚ) * 2 ^ Q) / 2 = ((2 * n + 1 : Nat) : ℚ) * 2 ^ (Q - 1) := by
    rw [zpow_sub_one₀ two_ne_zero]
    push_cast
    ring
  rw [← middle] at aboveMid belowMid
  push_cast at aboveA aboveB aboveMid belowMid valB
  rw [unit] at aboveA aboveB
  generalize (M : ℚ) * 2 ^ E / 2 ^ Q = t at *
  refine ⟨_, _, _, valA, valB, bound, aboveA.mp (by linarith), fun h => ?_, ?_⟩
  · have := aboveB.mpr h
    linarith
  · dsimp only
    rw [← aboveMid, ← belowMid, parity]
    have step : (2 * (n : ℚ) + 1 ≤ 2 * t ∧ ¬ 2 * t ≤ 2 * (n : ℚ) + 1 ∨ 2 * (n : ℚ) + 1 ≤ 2 * t ∧ 2 * t ≤ 2 * (n : ℚ) + 1 ∧ n % 2 = 1) ↔
        stepsUp .rne 0 false t n := by
      have passes : 1 < 2 * (t - n) ↔ ¬ 2 * t ≤ 2 * (n : ℚ) + 1 := by rw [not_le]; constructor <;> intro h <;> linarith
      have tie : 2 * (t - n) = 1 ↔ 2 * (n : ℚ) + 1 ≤ 2 * t ∧ 2 * t ≤ 2 * (n : ℚ) + 1 :=
        ⟨fun h => ⟨by linarith, by linarith⟩, fun h => by linarith [h.1, h.2]⟩
      rw [stepsUp, passes, tie, and_assoc]
      exact or_congr_left ⟨And.right, fun h => ⟨(not_le.mp h).le, h⟩⟩
    rw [step]
    exact ⟨fun h => by rw [up h, ← Nat.add_assoc], fun h => by rw [down h]⟩

/-! ## Roots -/

/-- A significand and an even exponent of the same number. -/
def evenExp (m : Nat) (e : Int) : Nat × Int := if e % 2 = 0 then (m, e) else (2 * m, e - 1)

/-- An even exponent is twice an integer and the number is the same. -/
theorem evenExp_spec (m : Nat) (e : Int) : ∃ m' g, evenExp m e = (m', 2 * g) ∧ (m : ℚ) * 2 ^ e = m' * 2 ^ (2 * g) ∧ m ≤ m' ∧ m' ≤ 2 * m ∧
    e - 1 ≤ 2 * g ∧ 2 * g ≤ e := by
  unfold evenExp
  by_cases h : e % 2 = 0
  · refine ⟨m, e / 2, ?_, ?_, le_rfl, by omega, by omega, by omega⟩
    · rw [if_pos h, Int.mul_ediv_cancel_of_emod_eq_zero h]
    · rw [Int.mul_ediv_cancel_of_emod_eq_zero h]
  · have even : 2 * (e / 2) = e - 1 := by omega
    refine ⟨2 * m, e / 2, ?_, ?_, by omega, le_rfl, by omega, by omega⟩
    · rw [if_neg h, even]
    · rw [even, zpow_sub_one₀ two_ne_zero]
      push_cast
      ring

/-- The square of a multiple of a power of two. -/
theorem sq_units (j : Nat) (g : Int) : (j : ℚ) * 2 ^ g * (j * 2 ^ g) = ((j * j : Nat) : ℚ) * 2 ^ (2 * g) := by
  rw [two_mul, zpow_add₀ two_ne_zero]
  push_cast
  ring

/-- The bounds of the logarithm of twice a floor with a sticky bit. -/
theorem log2_double {r b i : Nat} (hb : b ≤ 1) (lo : 2 ^ i ≤ r) (j : Nat) (hi : r < 2 ^ j) : i + 1 ≤ Nat.log2 (2 * r + b) ∧ Nat.log2 (2 * r + b) ≤ j := by
  have pos : 0 < 2 ^ i := by positivity
  have ne : 2 * r + b ≠ 0 := by omega
  refine ⟨(Nat.le_log2 ne).mpr ?_, Nat.lt_succ_iff.mp ((Nat.log2_lt ne).mpr ?_)⟩
  · rw [pow_succ']
    omega
  · rw [pow_succ']
    omega

theorem nonneg_units (j : Nat) (g : Int) : (0 : ℚ) ≤ j * 2 ^ g := by positivity

theorem sqrt32_number {m : Nat} {e : Int} (hm : m ≠ 0) (small : m < 2 ^ 24) (le : -149 ≤ e) (ge : e ≤ 104) :
    Nearest32 (fun v => 0 ≤ v ∧ (m : ℚ) * 2 ^ e ≤ v * v) (fun v => v ≤ 0 ∨ v * v ≤ (m : ℚ) * 2 ^ e) (sqrt32 (.fin false m e)) := by
  obtain ⟨m', g, split, value, lo, hi, glo, ghi⟩ := evenExp_spec m e
  have form : sqrt32 (.fin false m e) = roundNearest .fp32 (.fin false (2 * isqrt (m' * 2 ^ 128) +
      if isqrt (m' * 2 ^ 128) * isqrt (m' * 2 ^ 128) = m' * 2 ^ 128 then 0 else 1) (g - 65)) := by
    have half : 2 * g / 2 = g := by omega
    unfold evenExp at split
    rw [sqrt32, if_neg hm, if_neg (by decide), split]
    dsimp only
    rw [half]
  rw [form, value, isqrt_eq]
  generalize hN : m' * 2 ^ 128 = N
  have root : 2 ^ 64 ≤ Nat.sqrt N := Nat.le_sqrt.mpr (by omega)
  have bound : Nat.sqrt N < 2 ^ 77 := Nat.sqrt_lt.mpr (by omega)
  have bit : (if Nat.sqrt N * Nat.sqrt N = N then 0 else 1) ≤ 1 := by split <;> omega
  obtain ⟨loglo, loghi⟩ := log2_double bit root 77 bound
  have scale (j : Nat) : ((j * j : Nat) : ℚ) * 2 ^ (2 * (g - 65 + 1)) * 2 ^ 128 = ((j * j : Nat) : ℚ) * 2 ^ (2 * g) := by
    rw [mul_assoc, ← zpow_natCast, ← zpow_add₀ two_ne_zero]
    congr 2
    push_cast
    ring
  have whole : (m' : ℚ) * 2 ^ (2 * g) * 2 ^ 128 = (N : ℚ) * 2 ^ (2 * g) := by
    rw [← hN]
    push_cast
    ring
  have big : (0 : ℚ) < 2 ^ 128 := by positivity
  have unit : (0 : ℚ) < 2 ^ (2 * g) := by positivity
  have most (j : Nat) : (j : ℚ) * 2 ^ (g - 65 + 1) * (j * 2 ^ (g - 65 + 1)) ≤ (m' : ℚ) * 2 ^ (2 * g) ↔ j * j ≤ N := by
    rw [sq_units, ← mul_le_mul_iff_left₀ big, scale, whole, mul_le_mul_iff_left₀ unit, Nat.cast_le]
  have least (j : Nat) : (m' : ℚ) * 2 ^ (2 * g) ≤ (j : ℚ) * 2 ^ (g - 65 + 1) * (j * 2 ^ (g - 65 + 1)) ↔ N ≤ j * j := by
    rw [sq_units, ← mul_le_mul_iff_left₀ big, scale, whole, mul_le_mul_iff_left₀ unit, Nat.cast_le]
  refine nearest32_sticky (by omega) (sticky_of_floor (fun j => ?_) fun j => ?_) (by omega) (by omega)
  · rw [most, Nat.le_sqrt]
    refine or_iff_right_of_imp fun h => ?_
    have zero : (j : ℚ) * 2 ^ (g - 65 + 1) = 0 := le_antisymm h (nonneg_units j _)
    obtain rfl : j = 0 := by simpa [zpow_ne_zero] using zero
    exact Nat.zero_le N
  · rw [least, and_iff_right (nonneg_units j _)]
    split
    · rename_i exactly
      generalize Nat.sqrt N = r at exactly ⊢
      rw [← exactly]
      exact Nat.mul_self_le_mul_self_iff
    · rename_i inexact
      rw [Nat.sqrt_lt]
      refine ⟨fun h => h.lt_of_ne fun same => inexact (by rw [same, Nat.sqrt_eq]), le_of_lt⟩

theorem rsqrt32_number {m : Nat} {e : Int} (hm : m ≠ 0) (small : m < 2 ^ 24) (le : -149 ≤ e) (ge : e ≤ 104) :
    Nearest32 (fun v => 0 < v ∧ 1 ≤ (m : ℚ) * 2 ^ e * v * v) (fun v => v ≤ 0 ∨ (m : ℚ) * 2 ^ e * v * v ≤ 1) (rsqrt32 (.fin false m e)) := by
  obtain ⟨m', g, split, value, lo, hi, glo, ghi⟩ := evenExp_spec m e
  have mpos : 0 < m' := by omega
  have form : rsqrt32 (.fin false m e) = roundNearest .fp32 (.fin false (2 * isqrt (2 ^ 192 / m') +
      if isqrt (2 ^ 192 / m') * isqrt (2 ^ 192 / m') * m' = 2 ^ 192 then 0 else 1) (-g - 97)) := by
    have half : 2 * g / 2 = g := by omega
    unfold evenExp at split
    rw [rsqrt32, if_neg hm, if_neg (by decide), split]
    dsimp only
    rw [half]
  rw [form, value, isqrt_eq]
  have floor : 2 ^ 166 ≤ 2 ^ 192 / m' := (Nat.le_div_iff_mul_le mpos).mpr (by omega)
  have ceiling : 2 ^ 192 / m' ≤ 2 ^ 192 := Nat.div_le_self _ _
  have root : 2 ^ 83 ≤ Nat.sqrt (2 ^ 192 / m') := Nat.le_sqrt.mpr (by omega)
  have bound : Nat.sqrt (2 ^ 192 / m') < 2 ^ 97 := Nat.sqrt_lt.mpr (by omega)
  have inside : Nat.sqrt (2 ^ 192 / m') * Nat.sqrt (2 ^ 192 / m') * m' ≤ 2 ^ 192 :=
    (Nat.le_div_iff_mul_le mpos).mp (Nat.sqrt_le _)
  have within (j : Nat) : j ≤ Nat.sqrt (2 ^ 192 / m') ↔ j * j * m' ≤ 2 ^ 192 := by rw [Nat.le_sqrt, Nat.le_div_iff_mul_le mpos]
  generalize Nat.sqrt (2 ^ 192 / m') = r at *
  have bit : (if r * r * m' = 2 ^ 192 then 0 else 1) ≤ 1 := by split <;> omega
  obtain ⟨loglo, loghi⟩ := log2_double bit root 97 bound
  have scale (j : Nat) : (m' : ℚ) * 2 ^ (2 * g) * (j * 2 ^ (-g - 97 + 1)) * (j * 2 ^ (-g - 97 + 1)) = ((j * j * m' : Nat) : ℚ) / (2 ^ 192 : Nat) := by
    have powers : (2 : ℚ) ^ (2 * g) * 2 ^ (2 * (-g - 97 + 1)) = 1 / (2 ^ 192 : Nat) := by
      rw [← zpow_add₀ two_ne_zero, show 2 * g + 2 * (-g - 97 + 1) = -((192 : Nat) : Int) by push_cast; ring, zpow_neg, zpow_natCast, one_div,
        Nat.cast_pow, Nat.cast_ofNat]
    rw [mul_assoc _ ((j : ℚ) * _), sq_units, ← mul_one_div, ← powers]
    push_cast
    ring
  have big : (0 : ℚ) < (2 ^ 192 : Nat) := by positivity
  have most (j : Nat) : (m' : ℚ) * 2 ^ (2 * g) * (j * 2 ^ (-g - 97 + 1)) * (j * 2 ^ (-g - 97 + 1)) ≤ 1 ↔ j * j * m' ≤ 2 ^ 192 := by
    rw [scale, div_le_one big, Nat.cast_le]
  have least (j : Nat) : 1 ≤ (m' : ℚ) * 2 ^ (2 * g) * (j * 2 ^ (-g - 97 + 1)) * (j * 2 ^ (-g - 97 + 1)) ↔ 2 ^ 192 ≤ j * j * m' := by
    rw [scale, one_le_div big, Nat.cast_le]
  have positive (j : Nat) : (0 : ℚ) < j * 2 ^ (-g - 97 + 1) ↔ 0 < j := by
    rw [mul_pos_iff_of_pos_right (by positivity), Nat.cast_pos]
  refine nearest32_sticky (by omega) (sticky_of_floor (fun j => ?_) fun j => ?_) (by omega) (by omega)
  · rw [most, ← not_lt, positive, within]
    refine or_iff_right_of_imp fun h => ?_
    obtain rfl : j = 0 := by omega
    simp
  · rw [least, positive]
    have nonzero (h : 2 ^ 192 ≤ j * j * m') : 0 < j := Nat.pos_of_ne_zero fun zero => by
      simp [zero] at h
    rw [and_iff_right_of_imp nonzero]
    split
    · rename_i exactly
      rw [← exactly, Nat.mul_le_mul_right_iff mpos]
      exact Nat.mul_self_le_mul_self_iff
    · rename_i inexact
      rw [← not_le, within, not_le]
      refine ⟨fun h => h.lt_of_ne fun same => inexact ?_, le_of_lt⟩
      have up := (within j).mpr same.ge
      have down : r * r * m' ≤ j * j * m' := same ▸ inside
      have sq := Nat.le_of_mul_le_mul_right down mpos
      rw [le_antisymm (Nat.mul_self_le_mul_self_iff.mp sq) up, ← same]

/-! ## Exact powers and logarithms -/

/-- A value of whole units within the range goes to a code that holds it. -/
theorem numOf_roundNearest_exact {f : Fmt} (hf : f.IsFloat) {n : Bool} {m : Nat} {e : Int} (hm : m ≠ 0) (hq : quantum f m e ≤ e)
    (hv : (m : ℚ) * 2 ^ e < maxNum f) : numOf f (roundNearest f (.fin n m e)) = some (FVal.fin n m e).num := by
  have units := inQuantum_quantum (f := f) hm e
  rw [roundNearest, toFloat_exact hf hm hq hv.le]
  generalize quantum f m e = q at *
  have pos : (0 : ℚ) < 2 ^ q := by positivity
  have whole : (m : ℚ) * 2 ^ e = ((m * 2 ^ (e - q).toNat : Nat) : ℚ) * 2 ^ q := by
    push_cast
    rw [← zpow_natCast, Int.toNat_of_nonneg (by omega), mul_assoc, ← zpow_add₀ two_ne_zero, sub_add_cancel]
  rw [whole] at units hv
  rw [FVal.num, whole]
  generalize m * 2 ^ (e - q).toNat = k at *
  have lo : (k : ℚ) ≤ k * 2 ^ q / 2 ^ q := by rw [mul_div_cancel_right₀ _ pos.ne']
  have hi : (k : ℚ) * 2 ^ q / 2 ^ q < k + 1 := by rw [mul_div_cancel_right₀ _ pos.ne']; exact lt_add_one _
  obtain ⟨-, -, top⟩ := units.next_le_top hf hv lo hi
  obtain ⟨below, full⟩ := units.units lo hi
  exact numOf_packFinite hf units.emin (by omega) full (by omega) n

/-- A power of two within FP32's range is held. -/
theorem numOf_power {k : Int} (lo : -149 ≤ k) (hi : k ≤ 127) : numOf .fp32 (roundNearest .fp32 (.fin false 1 k)) = some (2 ^ k) := by
  have range : ((1 : Nat) : ℚ) * 2 ^ k < maxNum .fp32 := by
    have step : (2 : ℚ) ^ k ≤ 2 ^ (127 : Int) := zpow_le_zpow_right₀ one_le_two hi
    have top : (2 : ℚ) ^ (127 : Int) < maxNum .fp32 := by norm_num [maxNum]
    rw [Nat.cast_one, one_mul]
    exact step.trans_lt top
  have q : quantum .fp32 1 k = max (k + 0 - 23) (-149) := rfl
  rw [numOf_roundNearest_exact (.inl rfl) Nat.one_ne_zero (by omega) range]
  simp [FVal.num, signed]

/-- An integer of at most 24 bits is held. -/
theorem numOf_integer {k : Int} (h : k.natAbs < 2 ^ 24) : numOf .fp32 (roundNearest .fp32 (FVal.ofInt k)) = some (k : ℚ) := by
  by_cases zero : k = 0
  · subst zero
    exact numOf_signBit (.inl rfl) false
  · have hm : k.natAbs ≠ 0 := Int.natAbs_ne_zero.mpr zero
    have range : ((k.natAbs : Nat) : ℚ) * 2 ^ (0 : Int) < maxNum .fp32 := by
      have bound : ((k.natAbs : Nat) : ℚ) < (2 ^ 24 : Nat) := Nat.cast_lt.mpr h
      have top : ((2 ^ 24 : Nat) : ℚ) < maxNum .fp32 := by norm_num [maxNum]
      rw [zpow_zero, mul_one]
      exact bound.trans top
    have log : Nat.log2 k.natAbs < 24 := (Nat.log2_lt hm).mpr h
    have q : quantum .fp32 k.natAbs 0 = max (0 + (Nat.log2 k.natAbs : Int) - 23) (-149) := rfl
    rw [FVal.ofInt, numOf_roundNearest_exact (.inl rfl) hm (by omega) range]
    obtain neg | nonneg := lt_or_ge k 0
    · simp [FVal.num, signed, neg, Nat.cast_natAbs, abs_of_neg neg]
    · simp [FVal.num, signed, not_lt.mpr nonneg, Nat.cast_natAbs, abs_of_nonneg nonneg]

end Sys2Proof.Machine
end

section
/-!
PROOFS. The functions of R178 on FP32 codes, and O17 assembled.
-/

namespace Sys2Proof.Machine

open Sys2Proof.Claims

/-! ## Powers of two and their logarithms -/

/-- An integer's power of two is taken from its integer part alone. -/
theorem exp232_integer {n : Bool} {m : Nat} {e k : Int} (le : -149 ≤ e) (hk : (FVal.fin n m e).num = k) (lo : -149 ≤ k) (hi : k ≤ 127) :
    exp232 (.fin n m e) = roundNearest .fp32 (.fin false 1 k) := by
  by_cases hm : m = 0
  · have zero : (k : ℚ) = 0 := hk ▸ FVal.num_eq_zero.mpr hm
    obtain rfl : k = 0 := by exact_mod_cast zero
    rw [exp232, if_pos hm]
  have small : ¬ e + (Nat.log2 m : Int) ≥ 20 := fun far => by
    have size : (2 : ℚ) ^ (e + (Nat.log2 m : Int)) ≤ m * 2 ^ e := by
      rw [add_comm, zpow_add₀ two_ne_zero, zpow_natCast]
      exact mul_le_mul_of_nonneg_right (by exact_mod_cast Nat.log2_self_le hm) (by positivity)
    have power : (2 : ℚ) ^ (20 : Int) ≤ 2 ^ (e + (Nat.log2 m : Int)) := zpow_le_zpow_right₀ one_le_two far
    have mag : (m : ℚ) * 2 ^ e = |(k : ℚ)| := by rw [← hk, FVal.num, abs_signed, abs_of_nonneg (by positivity)]
    have bound : |(k : ℚ)| ≤ 149 := by
      rw [abs_le]
      exact ⟨by exact_mod_cast lo, by exact_mod_cast hi.trans (by decide)⟩
    norm_num at power
    linarith
  have units : (m : ℚ) * 2 ^ (e + 256).toNat = m * 2 ^ e * 2 ^ 256 := by
    rw [← zpow_natCast, Int.toNat_of_nonneg (by omega), zpow_add₀ two_ne_zero, mul_assoc]
    norm_num
  have fixed : (if n then -((m * 2 ^ (e + 256).toNat : Nat) : Int) else ((m * 2 ^ (e + 256).toNat : Nat) : Int)) = k * 2 ^ 256 := by
    have cast : (((if n then -((m * 2 ^ (e + 256).toNat : Nat) : Int) else ((m * 2 ^ (e + 256).toNat : Nat) : Int)) : Int) : ℚ) = k * 2 ^ 256 := by
      rw [← hk, FVal.num]
      cases n <;> simp [signed, units]
    exact_mod_cast cast
  rw [exp232, if_neg hm, if_neg small]
  dsimp only
  rw [fixed, Int.mul_ediv_cancel _ (by decide), Int.mul_emod_left, Int.toNat_zero, if_pos rfl]

/-- The logarithm of a power of two is taken from its exponent alone. -/
theorem log232_power {n : Bool} {m : Nat} {e k : Int} (hk : (FVal.fin n m e).num = 2 ^ k) :
    log232 (.fin n m e) = roundNearest .fp32 (FVal.ofInt k) ∧ m ≠ 0 ∧ k = e + Nat.log2 m := by
  have pos : (0 : ℚ) < 2 ^ k := by positivity
  have hm : m ≠ 0 := fun zero => pos.ne' (hk ▸ FVal.num_eq_zero.mpr zero)
  have positive : n = false := by
    by_contra sign
    have := FVal.num_nonpos (v := .fin n m e) (eq_true_of_ne_false sign)
    linarith
  subst positive
  have value : (m : ℚ) * 2 ^ e = 2 ^ k := hk
  have mpos : (1 : ℚ) ≤ m := by exact_mod_cast Nat.one_le_iff_ne_zero.mpr hm
  have le : e ≤ k := by
    refine (zpow_le_zpow_iff_right₀ (one_lt_two (α := ℚ))).mp ?_
    rw [← value]
    exact le_mul_of_one_le_left (by positivity) mpos
  obtain ⟨i, hi⟩ : ∃ i : Nat, k = e + i := ⟨(k - e).toNat, by omega⟩
  have power : m = 2 ^ i := by
    have epos : (2 : ℚ) ^ e ≠ 0 := by positivity
    rw [hi, zpow_add₀ two_ne_zero, zpow_natCast, mul_comm] at value
    exact_mod_cast mul_left_cancel₀ epos value
  have log : Nat.log2 m = i := by rw [power, Nat.log2_two_pow]
  refine ⟨?_, hm, by rw [log, hi]⟩
  rw [log232, if_neg hm, if_neg (by decide)]
  dsimp only
  rw [log, if_pos power, hi]

/-! ## The functions on FP32 codes (R178) -/

/-- The exponents of FP32's numbers. -/
theorem Held.fp32_range {m : Nat} {e : Int} (h : Held .fp32 m e) : m < 2 ^ 24 ∧ -149 ≤ e ∧ e ≤ 104 :=
  ⟨h.lt, h.emin, (h.le_top (.inl rfl)).1⟩

/-- Roots and logarithm of a negative number are the canonical NaN. -/
theorem functions_of_negative {m : Nat} (hm : m ≠ 0) (e : Int) :
    sqrt32 (.fin true m e) = 0x7FC00000 ∧ rsqrt32 (.fin true m e) = 0x7FC00000 ∧ log232 (.fin true m e) = 0x7FC00000 := by
  rw [sqrt32, rsqrt32, log232, if_neg hm, if_neg hm, if_neg hm]
  exact ⟨rfl, rfl, rfl⟩

/-- The functions of R178 on a number. -/
theorem functions_of_number {x : Nat} {a : ℚ} (hx : x < 2 ^ 32) (ha : numOf .fp32 x = some a) :
    (a ≠ 0 → Rounded .fp32 .rne 0 0 (1 / a) (rcp32 (elemValue .fp32 x))) ∧
    (0 < a → Nearest32 (fun m => 0 ≤ m ∧ a ≤ m * m) (fun m => m ≤ 0 ∨ m * m ≤ a) (sqrt32 (elemValue .fp32 x)) ∧
      Nearest32 (fun m => 0 < m ∧ 1 ≤ a * m * m) (fun m => m ≤ 0 ∨ a * m * m ≤ 1) (rsqrt32 (elemValue .fp32 x))) ∧
    (a < 0 → sqrt32 (elemValue .fp32 x) = 0x7FC00000 ∧ rsqrt32 (elemValue .fp32 x) = 0x7FC00000 ∧
      log232 (elemValue .fp32 x) = 0x7FC00000) ∧
    (∀ k : Int, (a = k → -149 ≤ k → k ≤ 127 → numOf .fp32 (exp232 (elemValue .fp32 x)) = some (2 ^ k)) ∧
      (a = 2 ^ k → numOf .fp32 (log232 (elemValue .fp32 x)) = some (k : ℚ))) := by
  obtain ⟨⟨n, m, e, hv⟩, value⟩ := numOf_finite ha
  obtain ⟨held, -⟩ := held_of_elemValue (.inl rfl) hx hv
  obtain ⟨small, lo, hi⟩ := held.fp32_range
  rw [hv] at value ⊢
  have nonzero (h : a ≠ 0) : m ≠ 0 := fun zero => h (value ▸ FVal.num_eq_zero.mpr zero)
  refine ⟨fun h => value ▸ rcp32_number (nonzero h) e, fun h => ?_, fun h => ?_, fun k => ⟨fun hk klo khi => ?_, fun hk => ?_⟩⟩
  · have sign : n = false := by
      by_contra neg
      have := FVal.num_nonpos (v := .fin n m e) (eq_true_of_ne_false neg)
      linarith
    subst sign value
    exact ⟨sqrt32_number (nonzero h.ne') small lo hi, rsqrt32_number (nonzero h.ne') small lo hi⟩
  · have sign : n = true := by
      by_contra pos
      have := FVal.num_nonneg (v := .fin n m e) (eq_false_of_ne_true pos)
      linarith
    subst sign
    exact functions_of_negative (nonzero h.ne) e
  · rw [exp232_integer lo (value.trans hk) klo khi]
    exact numOf_power klo khi
  · obtain ⟨same, hm, exponent⟩ := log232_power (value.trans hk)
    have log : Nat.log2 m < 24 := (Nat.log2_lt hm).mpr small
    rw [same]
    exact numOf_integer (by omega)

/-- The functions of R178 on zeros, infinities and a NaN. -/
theorem functions_of_special : ∀ p ∈ [(0x00000000, 0x7F800000, 0x7F800000, 0x00000000, 0x3F800000, 0xFF800000),
      (0x80000000, 0xFF800000, 0xFF800000, 0x80000000, 0x3F800000, 0xFF800000),
      (0x7F800000, 0x00000000, 0x00000000, 0x7F800000, 0x7F800000, 0x7F800000),
      (0xFF800000, 0x80000000, 0x7FC00000, 0x7FC00000, 0x00000000, 0x7FC00000),
      (0x7F800001, 0x7FC00000, 0x7FC00000, 0x7FC00000, 0x7FC00000, 0x7FC00000)],
    let v := elemValue .fp32 p.1
    (rcp32 v, rsqrt32 v, sqrt32 v, exp232 v, log232 v) = p.2 := by
  decide

end Sys2Proof.Machine

namespace Sys2Proof.Proofs

open Sys2Proof.Machine Sys2Proof.Claims

/-- Settles O17: the numeric layer gives every rounded result, the exact values every special one. -/
theorem floatElementValues : Obligations.FloatElementValues := by
  refine ⟨numbers_of_formatTable, fun f x y z hf hx hy hz => ?_, fun x a hx ha => functions_of_number hx ha, functions_of_special,
    fun src dst mode sat draw n pair hne hn _ => ?_⟩
  · have wide : f.IsWide := hf
    refine ⟨fun a b c ha hb hc => ?_, words_of_nan wide, fun n hn => words_of_inf wide hn⟩
    obtain ⟨addNear, addZero⟩ := addElem_number wide hx hy ha hb
    obtain ⟨subNear, subZero⟩ := subElem_number wide hx hy ha hb
    obtain ⟨mulNear, mulZero⟩ := mulElem_number wide hx hy ha hb
    obtain ⟨abs, neg⟩ := abs_neg_number wide hx ha
    exact ⟨addNear, addZero, subNear, subZero, mulNear, mulZero, fmaElem_number wide ha hb hc, fmsElem_number wide ha hb hc,
      maxElem_number wide hx hy ha hb, minElem_number wide hx hy ha hb, abs, neg⟩
  · obtain ⟨srcFloat, dstFloat⟩ := pairAllowed_isFloat pair
    refine ⟨fun hd => ⟨fun q hq h0 => convertElem_rounded (dstFloat hd) hd hne hn hq h0, convertElem_zero (dstFloat hd) hd hne⟩,
      fun hs hd => ?_, fun hs hd => convertElem_int hne hs hd, fun hd hv => (convertElem_nan hd hne hv).trans ?_,
      fun hd s hv => convertElem_inf (dstFloat hd) hd hne hv⟩
    · have w := width_pos dst
      rw [convertElem_toInt hne hs hd]
      refine ⟨fun q hq => ?_, fun hv => by rw [hv]; rfl, fun s hv => by rw [hv]; exact toInt_inf w s⟩
      obtain ⟨⟨neg, m, e, hv⟩, rfl⟩ := numOf_finite hq
      obtain ⟨k, rounded, code⟩ := toInt_number (mode := mode) (draw := draw) w neg m e
      rw [hv]
      exact ⟨k, rounded, fun _ => code⟩
    · obtain rfl | rfl | rfl | rfl | rfl := dstFloat hd <;> rfl

end Sys2Proof.Proofs
end

section
/-!
PROOFS. The collective unit at a position (R293 to R299): what its basic actions leave of the state it works on, which is the run of one
communicator, one tile's scratchpad and the links, and the course from a packet's arrival to the end of the unit's turns.
-/

namespace Sys2Proof.Machine

open Sys2Proof.Claims

/-! ## Actions that come to an answer -/

/-- An action ends, with an answer and a state of which `Q` holds. -/
def Gives {α : Type} (f : Eff α) (s : State) (Q : α → State → Prop) : Prop := ∃ a u, f s = .ok (a, u) ∧ Q a u

theorem Gives.bind {α β : Type} {f : Eff α} {g : α → Eff β} {s : State} {Q : α → State → Prop} {R : β → State → Prop} (h : Gives f s Q)
    (k : ∀ a u, Q a u → Gives (g a) u R) : Gives (f >>= g) s R := by
  obtain ⟨a, u, hf, hq⟩ := h
  obtain ⟨b, v, hg, hr⟩ := k a u hq
  exact ⟨b, v, by rw [eff_bind, hf]; exact hg, hr⟩

theorem Gives.of_eq {α : Type} {f : Eff α} {s u : State} {a : α} {Q : α → State → Prop} (h : f s = .ok (a, u)) (hq : Q a u) : Gives f s Q :=
  ⟨a, u, h, hq⟩

theorem Gives.pure {α : Type} {s : State} {a : α} {Q : α → State → Prop} (hq : Q a s) : Gives (Pure.pure a) s Q := ⟨a, s, rfl, hq⟩

/-- An action that is done where a condition holds, and what follows it either way. -/
theorem Gives.whenever {β : Type} {c : Prop} [Decidable c] {f : Eff Unit} {g : Unit → Eff β} {s : State} {Q : State → Prop} {R : β → State → Prop}
    (done : c → Gives f s fun _ u => Q u) (skipped : ¬ c → Q s) (k : ∀ u, Q u → Gives (g ()) u R) : Gives (if c then f >>= g else g ()) s R := by
  split
  · rename_i h
    exact (done h).bind fun _ u hu => k u hu
  · rename_i h
    exact k s (skipped h)

/-! ## Communicators -/

@[simp] theorem commAt_setComm (s : State) (d k : Nat) (c : Comm) : (s.setComm d k c).commAt d k = c := by
  simp [State.commAt, State.setComm]

@[simp] theorem commAt_setTileAt (s : State) (g d k : Nat) (t : Tile) : (s.setTileAt g t).commAt d k = s.commAt d k := rfl

@[simp] theorem tileAt_setComm (s : State) (d k g : Nat) (c : Comm) : (s.setComm d k c).tileAt g = s.tileAt g := rfl

@[simp] theorem dieReg_setComm (s : State) (d k : Nat) (c : Comm) (e o : Nat) : (s.setComm d k c).dieReg e o = s.dieReg e o := by
  by_cases h : e = d
  · subst h
    simp [State.setComm, State.dieReg]
  · simp [State.setComm, State.dieReg, dieAt_setDieAt_other _ _ h]

/-! ## What the unit works on -/

/-- State `s` in the midst of the unit's turn that began at `b`: the communicator's run is `r`, the run's tile is `t`, and the packets `l` have
been sent. -/
structure CollNow (d k g : Nat) (b : State) (r : CollRun) (t : Tile) (l : List Packet) (s : State) : Prop where
  comm : s.commAt d k = { b.commAt d k with run := some r }
  tile : s.tileAt g = t
  net : s.net = b.net ++ l
  ftb : s.ftb = b.ftb
  px : s.px = b.px
  py : s.py = b.py
  regs : ∀ e o, s.dieReg e o = b.dieReg e o

section Actions

variable {d k g : Nat} {b s : State} {r : CollRun} {t : Tile} {l : List Packet} (h : CollNow d k g b r t l s)

include h

theorem CollNow.run : (s.commAt d k).run = some r := by rw [h.comm]

theorem CollNow.setRun (r' : CollRun) : CollNow d k g b r' t l (s.setComm d k { s.commAt d k with run := some r' }) where
  comm := by rw [commAt_setComm, h.comm]
  tile := h.tile
  net := h.net
  ftb := h.ftb
  px := h.px
  py := h.py
  regs e o := by rw [dieReg_setComm, h.regs]

theorem CollNow.setTile (t' : Tile) : CollNow d k g b r t' l (s.setTileAt g t') where
  comm := h.comm
  tile := tileAt_setTileAt_self _ _ _
  net := h.net
  ftb := h.ftb
  px := h.px
  py := h.py
  regs := h.regs

theorem CollNow.dieOf (id : Nat) : s.dieOf id = b.dieOf id := by rw [State.dieOf, h.px, h.py]; rfl

/-- A packet handed to the first link is stamped with FTB bits 26 to 7 (R275). -/
theorem CollNow.inject (p : Packet) : CollNow d k g b r t (l ++ [{ p with stamp := BitVec.ofNat 20 (b.ftb.toNat / 128) }]) (s.inject p) where
  comm := h.comm
  tile := h.tile
  net := by
    have stamp : s.ftb.extractLsb' 7 20 = BitVec.ofNat 20 (b.ftb.toNat / 128) := by
      rw [h.ftb]
      apply BitVec.eq_of_toNat_eq
      simp [BitVec.extractLsb', Nat.shiftRight_eq_div_pow]
    rw [State.inject, stamp, h.net, List.append_assoc]
  ftb := h.ftb
  px := h.px
  py := h.py
  regs := h.regs

end Actions

section Steps

variable {x : CollCtx} {b s : State} {r : CollRun} {t : Tile} {l : List Packet} (h : CollNow x.d x.k x.g b r t l s)

/-- The packet of a run to the next position. -/
def CollCtx.onPacket (x : CollCtx) (b : State) (phase stage chunk : Nat) (items : List Nat) (ws : List GWord) : Packet :=
  ⟨x.c.vc, x.d, (b.dieOf x.c.next.toNat).getD outside, x.d, BitVec.ofNat 20 (b.ftb.toNat / 128), false, none,
    .coll ⟨x.k, x.r.kind, x.r.cnt, x.r.scode, x.r.root, x.r.seq, phase, stage, chunk, items, ws, false⟩⟩

include h

theorem modRun_gives (f : CollRun → CollRun) : Gives (modRun x f) s fun _ u => CollNow x.d x.k x.g b (f r) t l u := by
  refine .of_eq (modState_apply _ s) ?_
  dsimp only
  rw [h.run]
  exact h.setRun (f r)

theorem curRun_gives : Gives (curRun x) s fun a u => a = r ∧ u = s := by
  refine .of_eq (getsState_apply _ s) ⟨?_, rfl⟩
  rw [h.run]
  rfl

theorem collSend_gives (phase stage chunk : Nat) (items : List Nat) (ws : List GWord) : Gives (collSend x phase stage chunk items ws false) s
    fun _ u => CollNow x.d x.k x.g b r t (l ++ [x.onPacket b phase stage chunk items ws]) u := by
  refine .of_eq (modState_apply _ s) ?_
  rw [CollCtx.nextDie, h.dieOf]
  exact h.inject (packet x.c.vc x.d ((b.dieOf x.c.next.toNat).getD outside)
    (.coll ⟨x.k, x.r.kind, x.r.cnt, x.r.scode, x.r.root, x.r.seq, phase, stage, chunk, items, ws, false⟩))

theorem collWrite_gives (off : Nat) (ws : List GWord) : Gives (collWrite x off ws) s
    fun _ u => CollNow x.d x.k x.g b r { t with spad := t.spad.writeList off ws } l u := by
  refine .of_eq (modState_apply _ s) ?_
  rw [h.tile]
  exact h.setTile _

end Steps

/-- Words without error are checked to their data. -/
theorem checkAll_gloved (d : Nat) (ws : List (BitVec 64)) (s : State) : checkAll d (ws.map gloved) s = .ok (ws.map some, s) := by
  induction ws with
  | nil => rfl
  | cons w t ih => simp [checkAll, checkUnit_gloved, ih]

/-! ## Doublewords written in a row -/

theorem read_writeList_outside {l : List GWord} {m : Mem} {a c : Nat} (h : c / 8 < a / 8 ∨ a / 8 + l.length ≤ c / 8) :
    (m.writeList a l).read c = m.read c := by
  induction l generalizing m a with
  | nil => rfl
  | cons w t ih =>
    rw [List.length_cons] at h
    rw [Mem.writeList, ih (by omega), Mem.read_write_other _ _ (by omega)]

theorem read_writeList_inside {l : List GWord} {m : Mem} (a : Nat) {i : Nat} (h : i < l.length) : (m.writeList a l).read (a + 8 * i) = l[i] := by
  induction l generalizing m a i with
  | nil => exact absurd h (by simp)
  | cons w t ih =>
    rw [Mem.writeList]
    cases i with
    | zero => rw [read_writeList_outside (by omega), Nat.mul_zero, Nat.add_zero, Mem.read_write_self, List.getElem_cons_zero]
    | succ i =>
      rw [List.length_cons] at h
      rw [show a + 8 * (i + 1) = a + 8 + 8 * i by ring, ih (a + 8) (by omega), List.getElem_cons_succ]

end Sys2Proof.Machine
end

section
/-!
PROOFS. Blocks of a reduction (R295, R296): elements of a word and the word of given elements, blocks packed and unpacked, and the codes and flags
of a block that is encoded again.
-/

namespace Sys2Proof.Machine

open Sys2Proof.Claims

/-! ## Elements of a word (R76) -/

theorem packElems_lt (w : Nat) (f : Nat → Nat) (n : Nat) : packElems w f n < 2 ^ (w * n) := by
  induction n with
  | zero => simp [packElems]
  | succ n ih =>
    have elem : f n % 2 ^ w + 1 ≤ 2 ^ w := Nat.mod_lt _ (by positivity)
    calc packElems w f n + f n % 2 ^ w * 2 ^ (w * n) < 2 ^ (w * n) + f n % 2 ^ w * 2 ^ (w * n) := Nat.add_lt_add_right ih _
      _ = (f n % 2 ^ w + 1) * 2 ^ (w * n) := by ring
      _ ≤ 2 ^ w * 2 ^ (w * n) := Nat.mul_le_mul_right _ elem
      _ = 2 ^ (w * (n + 1)) := by rw [← pow_add]; congr 1; ring

theorem packElems_elem (w : Nat) (f : Nat → Nat) {n j : Nat} (hj : j < n) : packElems w f n / 2 ^ (w * j) % 2 ^ w = f j % 2 ^ w := by
  induction n with
  | zero => exact absurd hj (Nat.not_lt_zero j)
  | succ n ih =>
    rw [packElems]
    obtain lt | rfl := Nat.lt_succ_iff_lt_or_eq.mp hj
    · obtain ⟨c, rfl⟩ : ∃ c, n = j + 1 + c := ⟨n - (j + 1), by omega⟩
      have shape : f (j + 1 + c) % 2 ^ w * 2 ^ (w * (j + 1 + c)) = 2 ^ (w * j) * (2 ^ w * (f (j + 1 + c) % 2 ^ w * 2 ^ (w * c))) := by
        rw [show w * (j + 1 + c) = w * j + w + w * c by ring, pow_add, pow_add]
        ring
      rw [shape, Nat.add_mul_div_left _ _ (by positivity), Nat.add_mul_mod_self_left, ih lt]
    · rw [Nat.add_mul_div_right _ _ (by positivity), Nat.div_eq_of_lt (packElems_lt w f j), Nat.zero_add, Nat.mod_mod]

theorem packElems_elems (w x n : Nat) : packElems w (fun j => x / 2 ^ (w * j) % 2 ^ w) n = x % 2 ^ (w * n) := by
  induction n with
  | zero => simp [packElems, Nat.mod_one]
  | succ n ih => rw [packElems, ih, Nat.mod_mod, Nat.mul_succ, pow_add, Nat.mod_mul, Nat.mul_comm (2 ^ (w * n))]

/-- An element of a word given by its elements. -/
theorem elemOf_wordOf {w j : Nat} (f : Nat → Nat) (hj : j < 64 / w) : elemOf w (wordOf w f) j = f j % 2 ^ w := by
  have fits : packElems w f (64 / w) < 2 ^ 64 :=
    (packElems_lt w f _).trans_le (Nat.pow_le_pow_right (by decide) (Nat.mul_div_le 64 w))
  rw [elemOf, wordOf, BitVec.toNat_ofNat, Nat.mod_eq_of_lt fits, packElems_elem w f hj]

/-- A word is given by its elements. -/
theorem wordOf_elemOf {w : Nat} (h : w ∣ 64) (d : BitVec 64) : wordOf w (elemOf w d) = d := by
  have all : packElems w (elemOf w d) (64 / w) = d.toNat % 2 ^ (w * (64 / w)) := packElems_elems w d.toNat (64 / w)
  rw [wordOf, all, Nat.mul_div_cancel' h, Nat.mod_eq_of_lt d.isLt, BitVec.ofNat_toNat, BitVec.setWidth_eq]

theorem elemOf_lt (w : Nat) (d : BitVec 64) (j : Nat) : elemOf w d j < 2 ^ w := Nat.mod_lt _ (by positivity)

/-! ## Packed blocks (R295) -/

/-- The bytes of a block. -/
def Blk.bytes (b : Blk) : List Nat := b.codes ++ [b.scale, b.flags]

/-- A block of 32 codes all of whose bytes fit. -/
def Blk.Fits (b : Blk) : Prop := b.codes.length = 32 ∧ ∀ v ∈ b.bytes, v < 256

theorem Blk.bytes_length {b : Blk} (h : b.codes.length = 32) : b.bytes.length = 34 := by simp [Blk.bytes, h]

/-- Byte `i` of blocks in a row. -/
theorem flatMap_bytes {l : List Blk} (h : ∀ b ∈ l, b.codes.length = 32) (pad : List Nat) (i : Nat) :
    (l.flatMap Blk.bytes ++ pad).getD i 0 = match l[i / 34]? with
      | some b => b.bytes.getD (i % 34) 0
      | none => pad.getD (i - 34 * l.length) 0 := by
  induction l generalizing i with
  | nil => simp
  | cons b t ih =>
    have len := Blk.bytes_length (h b (List.mem_cons_self ..))
    rw [List.flatMap_cons, List.append_assoc]
    by_cases first : i < 34
    · rw [List.getD_append _ _ _ _ (by omega), Nat.div_eq_of_lt first, Nat.mod_eq_of_lt first]
      rfl
    · have next : i / 34 = (i - 34) / 34 + 1 := by omega
      have rest : i % 34 = (i - 34) % 34 := by omega
      have pads : i - 34 * (t.length + 1) = i - 34 - 34 * t.length := by omega
      rw [List.getD_append_right _ _ _ _ (by omega), len, ih fun c hc => h c (List.mem_cons_of_mem b hc), next, rest,
        List.getElem?_cons_succ, List.length_cons, pads]

/-- The padding of a last group. -/
def blockPad (n : Nat) : List Nat := List.replicate ((4 - n % 4) % 4 * 34) 0

theorem packBytes_eq (l : List Blk) : packBytes l = l.flatMap Blk.bytes ++ blockPad l.length := by
  cases l with
  | nil => rfl
  | cons b t => rfl

theorem packBytes_length {l : List Blk} (h : ∀ b ∈ l, b.codes.length = 32) : (packBytes l).length = 136 * ((l.length + 3) / 4) := by
  have rows : (l.flatMap Blk.bytes).length = 34 * l.length := by
    rw [List.length_flatMap, List.map_congr_left fun b hb => Blk.bytes_length (h b hb), List.map_const', List.sum_replicate, smul_eq_mul,
      Nat.mul_comm]
  rw [packBytes_eq, List.length_append, rows, blockPad, List.length_replicate]
  omega

/-- Packed blocks hold the blocks' bytes. -/
theorem packBlocks_packIs {l : List Blk} (h : ∀ b ∈ l, b.Fits) : ∃ ws, packBlocks l = ws.map gloved ∧ PackIs l ws := by
  have codes : ∀ b ∈ l, b.codes.length = 32 := fun b hb => (h b hb).1
  have total := packBytes_length codes
  have words : (packBytes l).length / 8 = 17 * ((l.length + 3) / 4) := by omega
  refine ⟨(List.range ((packBytes l).length / 8)).map fun k => wordOf 8 fun j => (packBytes l).getD (8 * k + j) 0, ?_, codes, ?_, fun i hi => ?_⟩
  · rw [packBlocks, List.map_map]
    rfl
  · rw [List.length_map, List.length_range, words]
  · rw [List.length_map, List.length_range] at hi
    have place : i / 8 < (packBytes l).length / 8 := by omega
    have whole : 8 * (i / 8) + i % 8 = i := by omega
    rw [List.getD_eq_getElem?_getD, List.getElem?_map, List.getElem?_range place, Option.map_some, Option.getD_some,
      elemOf_wordOf _ (by omega), whole, packBytes_eq, flatMap_bytes codes]
    cases hb : l[i / 34]? with
    | none => simp [blockPad]
    | some b =>
      obtain ⟨len, fits⟩ := h b (List.mem_of_getElem? hb)
      have inside : i % 34 < b.bytes.length := by rw [Blk.bytes_length len]; omega
      have byte : b.bytes.getD (i % 34) 0 = b.bytes[i % 34] := List.getD_eq_getElem _ _ inside
      show b.bytes.getD (i % 34) 0 % 2 ^ 8 = b.bytes.getD (i % 34) 0
      rw [byte]
      exact Nat.mod_eq_of_lt (fits _ (List.getElem_mem inside))

section Unpack

variable {l : List Blk} {ws : List (BitVec 64)} (h : PackIs l ws)

include h

/-- Byte `j` of block `i` in the words. -/
theorem packIs_byte {i j : Nat} {b : Blk} (hb : l[i]? = some b) (hj : j < 34) :
    (34 * i + j) / 8 < ws.length ∧ elemOf 8 (ws.getD ((34 * i + j) / 8) 0#64) ((34 * i + j) % 8) = b.bytes.getD j 0 := by
  obtain ⟨-, len, bytes⟩ := h
  obtain ⟨inside, -⟩ := List.getElem?_eq_some_iff.mp hb
  have place : 34 * i + j < 8 * ws.length := by omega
  have block : (34 * i + j) / 34 = i := by omega
  have within : (34 * i + j) % 34 = j := by omega
  have value := bytes _ place
  rw [block, within, hb] at value
  exact ⟨by omega, value⟩

/-- A block's bytes fit. -/
theorem packIs_fits {b : Blk} (hb : b ∈ l) : b.Fits := by
  obtain ⟨i, hi⟩ := List.mem_iff_getElem?.mp hb
  have len := h.1 b hb
  refine ⟨len, fun v hv => ?_⟩
  obtain ⟨j, hj, rfl⟩ := List.getElem_of_mem hv
  have value := (packIs_byte h hi (Blk.bytes_length len ▸ hj)).2
  rw [← List.getD_eq_getElem _ 0 hj, ← value]
  exact elemOf_lt 8 _ _

/-- A block is unpacked from words without error as it was packed (R295). -/
theorem packIs_unpackBlock {i : Nat} {b : Blk} (hb : l[i]? = some b) : unpackBlock (ws.map some) i = b := by
  have len := h.1 b (List.mem_of_getElem? hb)
  have word {j : Nat} (hj : j < 34) : (ws.map some).getD ((34 * i + j) / 8) none = some (ws.getD ((34 * i + j) / 8) 0#64) := by
    have inside := (packIs_byte h hb hj).1
    simp [List.getD_eq_getElem?_getD, inside]
  have byte {j : Nat} (hj : j < 34) : elemOf 8 (((ws.map some).getD ((34 * i + j) / 8) none).getD 0#64) ((34 * i + j) % 8) = b.bytes.getD j 0 := by
    rw [word hj, Option.getD_some, (packIs_byte h hb hj).2]
  have good : ((List.range 34).any fun j => ((ws.map some).getD ((34 * i + j) / 8) none).isNone) = false := by
    rw [List.any_eq_false]
    intro j hj
    rw [word (List.mem_range.mp hj)]
    simp
  obtain ⟨codes, scale, flags⟩ := b
  have len' : codes.length = 32 := len
  have scaleByte : Blk.bytes ⟨codes, scale, flags⟩ = codes ++ [scale, flags] := rfl
  have b32 := byte (j := 32) (by decide)
  have b33 := byte (j := 33) (by decide)
  rw [scaleByte, List.getD_append_right _ _ _ _ (by omega), len'] at b32 b33
  simp only [unpackBlock, good, Bool.false_eq_true, if_false]
  rw [b32, b33]
  congr 1
  refine List.ext_getElem (by simp [len']) fun j hj hj' => ?_
  rw [List.getElem_map, List.getElem_range, byte (by omega), scaleByte, List.getD_append _ _ _ _ hj', List.getD_eq_getElem _ _ hj']

/-- The blocks of a packet, paired with their numbers. -/
theorem packIs_blocks {items : List Nat} (hl : l.length = items.length) :
    (List.range items.length).map (fun i => (items.getD i 0, unpackBlock (ws.map some) i)) = items.zip l := by
  refine List.ext_getElem (by simp [hl]) fun i hi hi' => ?_
  rw [List.length_map, List.length_range] at hi
  have block : l[i]? = some l[i] := List.getElem?_eq_getElem (by omega)
  rw [List.getElem_map, List.getElem_range, packIs_unpackBlock h block, List.getElem_zip, List.getD_eq_getElem _ _ hi]

end Unpack

end Sys2Proof.Machine
end

section
/-!
PROOFS. A block encoded again (R296): its codes and its SAT flag are those of the exact quotients by the scale, and its values those of the sums.
-/

namespace Sys2Proof.Machine

open Sys2Proof.Claims

/-- Multiplying by a power of two moves the exponent. -/
theorem FVal.mul_power (v : FVal) (k : Int) : v.mul (.fin false 1 k) = v.scale k := by
  cases v with
  | nan => rfl
  | inf n => cases n <;> rfl
  | fin n m e => simp [FVal.mul, FVal.scale]

theorem encodeQ_code (sc : Nat) (y : FVal) : (encodeQ sc y).1 = quant sc y := by rw [quant, FVal.mul_power]; rfl

/-- Rounding to E4M3 passes its largest finite number exactly above 464. -/
theorem passesTop_e4m3 {m : Nat} (hm : m ≠ 0) (n : Bool) (e : Int) :
    PassesTop .e4m3 (quantum .e4m3 m e) (roundUnits .rne 0 n m e (quantum .e4m3 m e)) ↔ (464 : ℚ) < m * 2 ^ e := by
  have hf : Fmt.e4m3.IsFloat := .inr (.inr (.inr (.inl rfl)))
  have hv := inQuantum_quantum (f := .e4m3) hm e
  have rounds := roundUnits_roundsTo .rne 0 n m e (quantum .e4m3 m e)
  have edge : edgeNum .e4m3 = 464 := rfl
  have top : maxNum .e4m3 = 448 := rfl
  generalize quantum .e4m3 m e = q at *
  constructor
  · refine fun passes => not_le.mp fun le => not_passes hf hv rounds ?_ (fun same => ?_) passes
    · norm_num [Fmt.maxFinite]
      linarith
    · have unit : (m : ℚ) * 2 ^ e / 2 ^ q ≤ 14 + 1 / 2 := by
        rw [same, div_le_iff₀ (by positivity)]
        norm_num [Fmt.maxFinite]
        linarith
      have whole : ((Fmt.e4m3.maxFinite.1 : Nat) : ℚ) = 14 := by norm_num [Fmt.maxFinite]
      rintro (far | ⟨-, odd⟩)
      · rw [whole] at far
        linarith
      · exact absurd odd (by decide)
  · intro far
    exact passes hf hv rounds (by rw [top]; linarith) (stepsUp_from_edge hf (.inl (by rw [edge]; exact far)))

theorem encodeQ_saturates (sc : Nat) (y : FVal) : (encodeQ sc y).2 = saturates sc y := by
  cases y with
  | nan => rfl
  | inf n => rfl
  | fin n m e =>
    have exponent : e + (127 - (sc : Int)) = e + 127 - sc := by ring
    simp only [encodeQ, FVal.scale, saturates, exponent]
    by_cases hm : m = 0
    · rw [if_pos hm, hm, Nat.cast_zero, zero_mul]
      exact (decide_eq_false (by norm_num)).symm
    · rw [if_neg hm]
      exact decide_eq_decide.mpr (passesTop_e4m3 hm n _)

/-- An E4M3 code is a byte. -/
theorem toFloat_e4m3_lt (v : FVal) : toFloat .e4m3 .rne 1 0 v < 256 := by
  have largest (n : Bool) : maxCode .e4m3 n < 256 := by cases n <;> decide
  have sign (n : Bool) : signBit .e4m3 n ≤ 128 := by cases n <;> decide
  cases v with
  | nan => decide
  | inf n => exact largest n
  | fin n m e =>
    by_cases hm : m = 0
    · rw [toFloat, if_pos hm]
      exact (sign n).trans_lt (by decide)
    rw [toFloat_fin hm]
    have hv := inQuantum_quantum (f := .e4m3) hm e
    obtain ⟨k0, lo, hi, up, down⟩ := roundUnits_roundsTo .rne 0 n m e (quantum .e4m3 m e)
    generalize quantum .e4m3 m e = q at *
    generalize roundUnits .rne 0 n m e q = k at *
    have near : k = k0 + 1 ∨ k = k0 := (em _).imp up down
    obtain ⟨units, full⟩ := hv.units lo hi
    unfold packRounded
    split
    · rw [overflowCode_max (.inl (by decide))]
      exact largest n
    · rename_i fits
      have least : -9 ≤ q := hv.emin
      have inside : ¬ (q > 5 ∨ q = 5 ∧ k > 14) := fits
      have bound : k0 + 1 ≤ 16 := units
      have field := sign n
      rw [packFinite_eq hv.emin (by omega) (full.imp_left fun h => by omega)]
      show signBit .e4m3 n + ((q - (-9)).toNat * 8 + k) < 256
      omega

/-- A block of the codes of 32 values. -/
theorem encodeBlock_eq (sc flags : Nat) (y : Nat → Nat) :
    encodeBlock sc flags false (((List.range 32).map y).map (elemValue .fp32)) = encoded sc flags y := by
  have codes : ((((List.range 32).map y).map (elemValue .fp32)).map (encodeQ sc)).map (·.1) =
      (List.range 32).map fun e => quant sc (elemValue .fp32 (y e)) := by
    simp [List.map_map, Function.comp_def, encodeQ_code]
  have sat : ((((List.range 32).map y).map (elemValue .fp32)).map (encodeQ sc)).any (·.2) =
      (List.range 32).any fun e => saturates sc (elemValue .fp32 (y e)) := by
    rw [List.map_map, List.map_map, List.any_map]
    congr 1
    funext e
    exact encodeQ_saturates sc _
  rw [encodeBlock, codes, sat, encoded, if_neg Bool.false_ne_true, Nat.or_zero]

theorem encoded_fits {sc flags : Nat} (hs : sc < 256) (hf : flags < 256) (y : Nat → Nat) : (encoded sc flags y).Fits := by
  refine ⟨by simp [encoded], fun v hv => ?_⟩
  have bit : (if (List.range 32).any (fun e => saturates sc (elemValue .fp32 (y e))) = true then 1 else 0) < 2 ^ 8 := by split <;> decide
  rcases List.mem_append.mp hv with hv | hv
  · obtain ⟨e, -, rfl⟩ := List.mem_map.mp hv
    exact toFloat_e4m3_lt _
  · rcases List.mem_cons.mp hv with rfl | hv
    · exact hs
    · rw [List.mem_singleton.mp hv]
      exact Nat.or_lt_two_pow (n := 8) hf bit

/-- Sums over a block, element by element. -/
theorem addBlock_eq {b : Blk} (h : b.codes.length = 32) (x : Nat → Nat) : addBlock b ((List.range 32).map x) = (List.range 32).map (addCode b x) := by
  refine List.ext_getElem (by simp [addBlock, h]) fun e he he' => ?_
  rw [List.length_map, List.length_range] at he'
  have code : b.codes.getD e 0 = b.codes[e] := List.getD_eq_getElem _ _ (by omega)
  simp only [addBlock, List.getElem_map, List.getElem_zip, List.getElem_range, addCode, code, FVal.mul_power]
  rfl

end Sys2Proof.Machine
end

section
/-!
PROOFS. The course of a packet at the position that runs its word (R293, R297): it is taken from the fabric, the unit takes it in one turn,
and then waits or ends the word; a word that ends posts its record.
-/

namespace Sys2Proof.Machine

open Sys2Proof.Claims

/-! ## The arrival (R291, R293) -/

/-- A packet taken out of the fabric counts toward a congestion note. -/
theorem takePacket_eq_taken (s : State) (n : Nat) (p : Packet) : s.takePacket n p = taken s n p := by
  have stamp : s.ftb.extractLsb' 7 20 = BitVec.ofNat 20 (s.ftb.toNat / 128) := by
    apply BitVec.eq_of_toNat_eq
    simp [BitVec.extractLsb', Nat.shiftRight_eq_div_pow]
  unfold State.takePacket taken
  by_cases marked : p.marked = true ∧ p.src < 24
  · simp only [marked, and_self, if_true, State.inject, sent, setDieAt_ftb, State.dropPacket, stamp, packet, mapSet]
    rfl
  · rw [if_neg marked, if_neg marked]
    rfl

/-- What a packet taken out leaves as it was. -/
theorem taken_keeps (s : State) (n : Nat) (p : Packet) : (taken s n p).tiles = s.tiles ∧ (taken s n p).ftb = s.ftb ∧
    (taken s n p).px = s.px ∧ (taken s n p).py = s.py ∧ ∃ m, (taken s n p).dies = s.dies ∨
      (taken s n p).dies = mapPut s.dies p.dst { s.dieAt p.dst with marks := m } := by
  unfold taken
  dsimp only
  by_cases marked : p.marked = true ∧ p.src < 24
  · rw [if_pos marked]
    by_cases note : mapGet 0 (s.dieAt p.dst).marks p.src + 1 = 32
    · rw [if_pos note]
      exact ⟨rfl, rfl, rfl, rfl, _, .inr rfl⟩
    · rw [if_neg note]
      exact ⟨rfl, rfl, rfl, rfl, _, .inr rfl⟩
  · rw [if_neg marked]
    exact ⟨rfl, rfl, rfl, rfl, [], .inl rfl⟩

/-- The registers and communicators of every die are as before. -/
theorem taken_dies (s : State) (n : Nat) (p : Packet) (d : Nat) :
    ((taken s n p).dieAt d).regs = (s.dieAt d).regs ∧ ((taken s n p).dieAt d).comms = (s.dieAt d).comms := by
  obtain ⟨-, -, -, -, m, same | put⟩ := taken_keeps s n p
  · rw [State.dieAt, same]
    exact ⟨rfl, rfl⟩
  · rw [State.dieAt, put]
    by_cases h : d = p.dst
    · subst h
      rw [mapGet_mapPut_self]
      exact ⟨rfl, rfl⟩
    · rw [mapGet_mapPut_other _ _ _ h]
      exact ⟨rfl, rfl⟩

@[simp] theorem tileAt_taken (s : State) (n : Nat) (p : Packet) (g : Nat) : (taken s n p).tileAt g = s.tileAt g := by
  rw [State.tileAt, (taken_keeps s n p).1]
  rfl

@[simp] theorem commAt_taken (s : State) (n : Nat) (p : Packet) (d k : Nat) : (taken s n p).commAt d k = s.commAt d k := by
  rw [State.commAt, (taken_dies s n p d).2]
  rfl

/-- A low address is the own offset. -/
theorem ownOff_low {g a : Nat} (h : a < 0x200000) : ownOff g a = a := by rw [ownOff, spadPlace_low h]

section Turns

variable {d k g : Nat} {b s : State} {r : CollRun} {t : Tile} {l : List Packet}

/-- The context of a run whose command is on its tile. -/
theorem CollNow.collCtx (h : CollNow d k g b r t l s) {cmd : DCmd} (hg : r.holder = g) (lt : g < 384) (kept : r.kept = none) (cut : t.cut = none)
    (hc : t.collCmd r.idx = some cmd) (ha : cmd.aA.data.toNat % 2 ^ 32 < 0x200000) (hD : cmd.aD.data.toNat % 2 ^ 32 < 0x200000) :
    s.collCtx d k r = some ⟨d, k, { b.commAt d k with run := some r }, r, g, cmd.aA.data.toNat % 2 ^ 32, cmd.aD.data.toNat % 2 ^ 32⟩ := by
  have src : bits cmd.aA.data 31 0 = cmd.aA.data.toNat % 2 ^ 32 := by simp [bits]
  have dst : bits cmd.aD.data 31 0 = cmd.aD.data.toNat % 2 ^ 32 := by simp [bits]
  rw [State.collCtx, hg, h.tile, h.comm, kept]
  simp only [Option.isSome_none, Bool.false_eq_true, if_false, lt, cut, and_self, if_true, hc, Option.map_some, src, dst, ownOff_low ha, ownOff_low hD]

/-- The unit takes the packet that waits. -/
theorem collPump_takes {q : CollPkt} {x : CollCtx} {Q : Unit → State → Prop} (run : (s.commAt d k).run = some r) (ctx : s.collCtx d k r = some x)
    (more : collFinished x r = false) (inbox : r.inbox = [q]) (own : differs r q = false)
    (take : Gives (collTake x q) (s.setComm d k { s.commAt d k with run := some { r with inbox := [] } }) Q) :
    ∃ u, Q () u ∧ ∀ n, collPump d k (n + 1) s = collPump d k n u := by
  obtain ⟨a, u, ok, hq⟩ := take
  refine ⟨u, hq, fun n => ?_⟩
  rw [collPump, run]
  simp only [ctx, more, inbox, own, Bool.false_eq_true, if_false, eff_run, ok]

/-- The unit waits where nothing is left to take. -/
theorem collPump_waits {x : CollCtx} (run : (s.commAt d k).run = some r) (ctx : s.collCtx d k r = some x) (more : collFinished x r = false)
    (inbox : r.inbox = []) (n : Nat) : collPump d k n s = s := by
  cases n with
  | zero => rfl
  | succ n =>
    rw [collPump, run]
    simp only [ctx, more, inbox, Bool.false_eq_true, if_false]

/-- The unit ends a finished word, and waits where none follows. -/
theorem collPump_ends {x : CollCtx} {Q : Unit → State → Prop} (run : (s.commAt d k).run = some r) (ctx : s.collCtx d k r = some x)
    (finished : collFinished x r = true)
    (ends : Gives (collEnd x false) s fun a u => Q a u ∧ (u.commAt d k).run = none ∧ (u.commAt d k).queue = []) (n : Nat) :
    ∃ u, Q () u ∧ (u.commAt d k).run = none ∧ collPump d k (n + 1) s = u := by
  obtain ⟨a, u, ok, hq, none, queue⟩ := ends
  refine ⟨u, hq, none, ?_⟩
  rw [collPump, run]
  simp only [ctx, finished, if_true, eff_run, ok]
  cases n with
  | zero => rfl
  | succ n =>
    rw [collPump, none]
    simp only [collBegin, queue]

end Turns

section Hears

variable {s : State} {n : Nat} {p : Packet} {q : CollPkt} {r : CollRun} {cmd : DCmd} {ws : List (BitVec 64)}

/-- The context in which the unit takes the packet that arrives. -/
def hearCtx (s : State) (p : Packet) (q : CollPkt) (r : CollRun) (cmd : DCmd) : CollCtx :=
  let r := { r with inbox := [q] }
  ⟨p.dst, q.comm, { s.commAt p.dst q.comm with run := some r }, r, r.holder, cmd.aA.data.toNat % 2 ^ 32, cmd.aD.data.toNat % 2 ^ 32⟩

/-- A packet that a position hears is taken in the unit's first turn. -/
theorem exec_arrival (h : CollHears s n p q r cmd ws) : ∃ v,
    CollNow p.dst q.comm r.holder (taken s n p) r (s.tileAt r.holder) [] v ∧
    ∀ Q : Unit → State → Prop, Gives (collTake (hearCtx s p q r cmd) q) v Q →
      ∃ u, Q () u ∧ exec (.dcollPacketArrival n) s = .next (collPump p.dst q.comm 7 u) := by
  obtain ⟨arrived, body, valid, prev, run, queue, early, seq, own, inbox, kept, more, lt, -, cut, -, hcmd, -, ha, hd, -⟩ := h
  have dieId : (taken s n p).dieId p.src = s.dieId p.src := by
    obtain ⟨-, -, px, py, -⟩ := taken_keeps s n p
    rw [State.dieId, px, py]
    rfl
  have first : CollNow p.dst q.comm r.holder (taken s n p) { r with inbox := [q] } (s.tileAt r.holder) []
      ((taken s n p).setComm p.dst q.comm { s.commAt p.dst q.comm with run := some { r with inbox := [q] } }) :=
    { comm := by rw [commAt_setComm, commAt_taken]
      tile := tileAt_taken s n p _
      net := (List.append_nil _).symm
      ftb := rfl
      px := rfl
      py := rfl
      regs := fun e o => dieReg_setComm _ _ _ _ e o }
  have ctx := first.collCtx rfl lt kept cut hcmd ha hd
  rw [commAt_taken] at ctx
  have turns : collTurns { s.commAt p.dst q.comm with run := some { r with inbox := [q] } } = 7 + 1 := by simp [collTurns, queue, early]
  have go : exec (.dcollPacketArrival n) s = .next (collPump p.dst q.comm (7 + 1)
      ((taken s n p).setComm p.dst q.comm { s.commAt p.dst q.comm with run := some { r with inbox := [q] } })) := by
    have stray : (!(s.commAt p.dst q.comm).valid || decide ((taken s n p).dieId p.src ≠ (s.commAt p.dst q.comm).prev.toNat)) = false := by
      simp [valid, dieId, prev]
    have now : ((s.commAt p.dst q.comm).run.map (·.seq)).getD (s.commAt p.dst q.comm).seq = r.seq := by rw [run]; rfl
    show execDcollPacketArrival n s = _
    unfold execDcollPacketArrival
    rw [arrived]
    dsimp only
    rw [body]
    dsimp only
    rw [takePacket_eq_taken, commAt_taken, stray, now, if_neg Bool.false_ne_true, if_neg (by simp [run]), if_neg (by omega), run]
    dsimp only
    rw [if_pos seq, inbox, List.nil_append, collGo, commAt_setComm, turns]
  refine ⟨_, first.setRun r, fun Q take => ?_⟩
  have unfinished : collFinished (hearCtx s p q r cmd) { r with inbox := [q] } = false := decide_eq_false (not_le.mpr more)
  have same : { { r with inbox := [q] } with inbox := [] } = r := by rw [← inbox]
  obtain ⟨u, hq, pump⟩ := collPump_takes first.run ctx unfinished rfl own (by rw [same]; exact take)
  exact ⟨u, hq, by rw [go, pump]⟩

end Hears

end Sys2Proof.Machine
end

section
/-!
PROOFS. The record of a reduction at a position (R64, R297): the flags bytes of its blocks, STATUS and COUNT; and the end of the word.
-/

namespace Sys2Proof.Machine

open Sys2Proof.Claims

/-- A command of the word as the unit ends it. -/
def closed (idx status nans : Nat) (c : DCmd) : DCmd := if c.ref.idx = idx then { c.endWith status nans with done := false } else c

@[simp] theorem closed_ref (idx status nans : Nat) (c : DCmd) : (closed idx status nans c).ref = c.ref := by
  unfold closed
  split <;> rfl

/-- The commands left when those of a word leave. -/
theorem filter_closed (idx status nans : Nat) (l : List DCmd) :
    (l.map (closed idx status nans)).filter (fun c => decide (c.ref.idx ≠ idx)) = l.filter fun c => decide (c.ref.idx ≠ idx) := by
  rw [List.filter_map]
  refine (List.map_congr_left fun c hc => ?_).trans (List.map_id _ |>.trans ?_)
  · have other := of_decide_eq_true (List.mem_filter.mp hc).2
    exact if_neg (by simpa using other)
  · simp [Function.comp_def]

section Room

variable {t : Tile} {cmd : DCmd} {idx status nans : Nat}

/-- Of the commands, those of the word have ended and may post. -/
theorem find_closed (room : CollRoom t cmd) (hc : t.collCmd idx = some cmd) :
    (t.dcmds.map (closed idx status nans)).find? (fun c => c.ended && (!c.ev || !t.holds .D)) = some (closed idx status nans cmd) := by
  obtain ⟨-, holds, fresh, -⟩ := room
  have same : ∀ c ∈ t.dcmds, ((fun c => c.ended && (!c.ev || !t.holds .D)) ∘ closed idx status nans) c = decide (c.ref.idx = idx) := by
    intro c hm
    have quiet := fresh c hm
    by_cases own : c.ref.idx = idx <;> simp [closed, own, DCmd.endWith, holds, quiet]
  have first : t.dcmds.find? ((fun c => c.ended && (!c.ev || !t.holds .D)) ∘ closed idx status nans) = some cmd := by
    rw [← hc, Tile.collCmd]
    exact List.find?_congr same
  rw [List.find?_map, first, Option.map_some]

/-- With the commands of the word gone, none may post. -/
theorem find_rest (room : CollRoom t cmd) : (t.dcmds.filter fun c => decide (c.ref.idx ≠ idx)).find?
    (fun c => c.ended && (!c.ev || !t.holds .D)) = none := by
  obtain ⟨-, -, fresh, -⟩ := room
  rw [List.find?_eq_none]
  intro c hc
  simp [fresh c (List.mem_filter.mp hc).1]

end Room

/-- The tile after the record of a reduction: the flags bytes stand in the scratchpad, the command has left, the record is posted. -/
def reportedTile (t : Tile) (r : CollRun) (cmd : DCmd) (off : Nat) (fl : List Nat) : Tile :=
  { t with
    spad := t.spad.writeList off (flagWords fl), dcmds := t.dcmds.filter fun c => decide (c.ref.idx ≠ r.idx),
    eq := t.eq ++ [⟨eventWord 3 cmd.tag (reducedStatus fl) r.nans, cmd.pranges⟩] }

/-- The blocks whose flags bytes a position writes. -/
def CollCtx.reported (x : CollCtx) (r : CollRun) : List Nat := if r.kind = 0 then x.blocks x.c.pos else List.range r.cnt

section Report

variable {x : CollCtx} {b s : State} {r : CollRun} {t : Tile} {l : List Packet} {cmd : DCmd}

/-- The tile after the record of a word. -/
def postedTile (t : Tile) (r : CollRun) (cmd : DCmd) (status : Nat) : Tile :=
  { t with
    dcmds := t.dcmds.filter fun c => decide (c.ref.idx ≠ r.idx), eq := t.eq ++ [⟨eventWord 3 cmd.tag status r.nans, cmd.pranges⟩] }

theorem holds_postedTile (t : Tile) (r : CollRun) (cmd : DCmd) (status : Nat) (e : Eng) : (postedTile t r cmd status).holds e = t.holds e := rfl

theorem holds_dcmds (t : Tile) (l : List DCmd) (e : Eng) : ({ t with dcmds := l } : Tile).holds e = t.holds e := rfl

/-- A record posted where there is room and no debug mode is on. -/
theorem postEvent_room {s : State} {g : Nat} (quiet : s.dmode (g / 16) = 0) (room : (s.tileAt g).eq.length < 64) (e : Eng) (idx : Nat)
    (v : EvEntry) : s.postEvent g e idx v = s.setTileAt g { s.tileAt g with eq := (s.tileAt g).eq ++ [v] } := by
  rw [State.postEvent, traceRec_off (s := s.setTileAt g _) quiet, Tile.post, if_pos room]

/-- The end of a word's commands on a tile with room for the record. -/
theorem settleEnded_closed (h : CollNow x.d x.k x.g b r t l s) (room : CollRoom t cmd) (level : t.level = .task)
    (quiet : b.dmode (x.g / 16) = 0) (hc : t.collCmd r.idx = some cmd) (status : Nat) :
    CollNow x.d x.k x.g b r (postedTile t r cmd status) l ((s.setTileAt x.g { t with dcmds := t.dcmds.map (closed r.idx status r.nans) }).settleEnded x.g) := by
  have ref : cmd.ref.idx = r.idx := by simpa using List.find?_some hc
  have ev : cmd.ev = true := room.2.2.2
  have last : closed r.idx status r.nans cmd = { cmd.endWith status r.nans with done := false } := if_pos ref
  obtain ⟨k, hk⟩ : ∃ k, (t.dcmds.map (closed r.idx status r.nans)).length = k + 1 := by
    have some : t.dcmds ≠ [] := by
      intro none
      rw [Tile.collCmd, none] at hc
      exact nomatch hc
    refine ⟨t.dcmds.length - 1, ?_⟩
    have := List.length_pos_iff.mpr some
    rw [List.length_map]
    omega
  have dmode : s.dmode (x.g / 16) = 0 := by rw [← quiet, State.dmode, h.regs]; rfl
  have find := find_closed (status := status) (nans := r.nans) room hc
  rw [State.settleEnded, tileAt_setTileAt_self, if_neg (by simp [level]), hk, State.postEnded]
  simp only [tileAt_setTileAt_self, holds_dcmds, find, closed_ref, ref, filter_closed, setTileAt_setTileAt]
  rw [last]
  simp only [DCmd.endWith, ev, if_true]
  rw [postEvent_room (s := s.setTileAt x.g _) dmode (by rw [tileAt_setTileAt_self]; exact room.1), tileAt_setTileAt_self, setTileAt_setTileAt]
  have done := h.setTile (postedTile t r cmd status)
  have rest := find_rest (idx := r.idx) room
  cases k with
  | zero => exact done
  | succ k =>
    show CollNow x.d x.k x.g b r _ l (State.postEnded x.g (k + 1) (s.setTileAt x.g (postedTile t r cmd status)))
    rw [State.postEnded, tileAt_setTileAt_self]
    dsimp only
    rw [holds_postedTile, show (postedTile t r cmd status).dcmds = t.dcmds.filter fun c => decide (c.ref.idx ≠ r.idx) from rfl, rest]
    exact done

/-- A reduction's record at a position. -/
theorem collReport_gives (h : CollNow x.d x.k x.g b r t l s) (kind : r.kind = 0 ∨ r.kind = 2) (errs : r.errs = false) (room : CollRoom t cmd)
    (level : t.level = .task) (quiet : b.dmode (x.g / 16) = 0) (hc : t.collCmd r.idx = some cmd) :
    Gives (collReport x false) s fun _ u => CollNow x.d x.k x.g b r (reportedTile t r cmd (x.dst + 128 * (x.reported r).length)
      ((x.reported r).map fun b => mapGet 0 r.flags b)) l u := by
  refine (curRun_gives h).bind fun a u ⟨ha, hu⟩ => ?_
  subst a u
  have blocks : (if r.kind = 0 then x.blocks x.c.pos else if r.kind = 2 then List.range r.cnt else []) = x.reported r := by
    obtain h | h := kind
    · simp [CollCtx.reported, h]
    · simp [CollCtx.reported, h]
  dsimp only
  rw [blocks]
  generalize hfl : ((x.reported r).map fun b => mapGet 0 r.flags b) = fl
  have status : (if (r.errs || fl.any fun f => decide (f / 4 % 2 = 1)) = true then 0x98
      else if (fl.any fun f => decide (f % 2 = 1)) = true then 0x96 else 0) = reducedStatus fl := by
    rw [errs, Bool.false_or]
    rfl
  refine Gives.whenever (Q := CollNow x.d x.k x.g b r { t with spad := t.spad.writeList (x.dst + 128 * (x.reported r).length) (flagWords fl) } l)
    (fun _ => collWrite_gives h _ _) (fun empty => ?_) fun u hu => ?_
  · have none : x.reported r = [] := by simpa using empty
    have noFlags : flagWords fl = [] := by rw [← hfl, none]; simp [flagWords]
    rw [noFlags]
    exact h
  · refine .of_eq (modState_apply _ u) ?_
    simp only [Bool.false_eq_true, if_false, status, hu.tile]
    exact settleEnded_closed hu room level quiet hc _

/-- The end of a word that has no record yet. -/
theorem collEnd_reports (h : CollNow x.d x.k x.g b r t l s) (kept : r.kept = none) (kind : r.kind = 0 ∨ r.kind = 2) (errs : r.errs = false)
    (room : CollRoom t cmd) (level : t.level = .task) (quiet : b.dmode (x.g / 16) = 0) (hc : t.collCmd r.idx = some cmd) :
    Gives (collEnd x false) s fun _ u => (u.tileAt x.g = reportedTile t r cmd (x.dst + 128 * (x.reported r).length)
      ((x.reported r).map fun b => mapGet 0 r.flags b) ∧ u.net = b.net ++ l) ∧ u.commAt x.d x.k = { b.commAt x.d x.k with run := none } := by
  refine (curRun_gives h).bind fun a u ⟨ha, hu⟩ => ?_
  subst a u
  rw [kept]
  refine Gives.whenever (fun _ => collReport_gives h kind errs room level quiet hc) (fun none => absurd rfl none) fun u hu => ?_
  refine .of_eq (modState_apply _ u) ⟨⟨hu.tile, hu.net⟩, ?_⟩
  rw [commAt_setComm, hu.comm]

/-- The end of a word whose record is posted. -/
theorem collEnd_kept (h : CollNow x.d x.k x.g b r t l s) (kept : r.kept.isSome = true) :
    Gives (collEnd x false) s fun _ u => (u.tileAt x.g = t ∧ u.net = b.net ++ l) ∧ u.commAt x.d x.k = { b.commAt x.d x.k with run := none } := by
  refine (curRun_gives h).bind fun a u ⟨ha, hu⟩ => ?_
  subst a u
  have noReport : ¬ r.kept.isNone = true := by rw [Option.isNone_iff_eq_none]; rintro none; simp [none] at kept
  dsimp only
  rw [if_neg noReport]
  refine .of_eq (modState_apply _ s) ⟨⟨h.tile, h.net⟩, ?_⟩
  rw [commAt_setComm, h.comm]

end Report

/-- Flags bytes written stand eight to a word (R294). -/
theorem flagsAt_writeList (m : Mem) (a : Nat) (l : List Nat) : FlagsAt (m.writeList a (flagWords l)) a l := by
  intro k hk
  have inside : k < (flagWords l).length := by simpa [flagWords] using hk
  rw [read_writeList_inside a inside]
  simp [flagWords]

theorem flagWords_length (l : List Nat) : (flagWords l).length = (l.length + 7) / 8 := by simp [flagWords]

end Sys2Proof.Machine
end

section
/-!
PROOFS. A position that passes blocks on (R296), and what the unit does with news, results and the end of an `ar` (R297, R298).
-/

namespace Sys2Proof.Machine

open Sys2Proof.Claims

/-! ## Source blocks and hops (R296) -/

section Blocks

variable {x : CollCtx} {b s : State} {r : CollRun} {t : Tile} {l : List Packet} {xs : Nat → BitVec 64} (h : CollNow x.d x.k x.g b r t l s)

include h

/-- A source block without error is read to its elements. -/
theorem sourceBlock_ok (kept : x.r.kept = none) {n : Nat} (src : ∀ k < 16, t.spad.read (x.src + 8 * (16 * n + k)) = gloved (xs (16 * n + k))) :
    sourceBlock x n s = .ok (((List.range 32).map (srcElem xs n), false), s) := by
  have words : ((List.range 16).map fun k => x.word s (16 * n + k)) = ((List.range 16).map fun k => xs (16 * n + k)).map gloved := by
    rw [List.map_map]
    refine List.map_congr_left fun k hk => ?_
    rw [CollCtx.word, kept]
    dsimp only
    rw [h.tile, src k (List.mem_range.mp hk)]
    rfl
  have elems : ((List.range 32).map fun e => elemOf 32 (((((List.range 16).map fun k => xs (16 * n + k)).map some).getD (e / 2) none).getD 0#64) (e % 2)) =
      (List.range 32).map (srcElem xs n) := by
    refine List.map_congr_left fun e he => ?_
    have half : e / 2 < 16 := by have := List.mem_range.mp he; omega
    simp [srcElem, half]
  have good : (((List.range 16).map fun k => xs (16 * n + k)).map some).any Option.isNone = false := by simp
  simp only [sourceBlock, eff_bind, getsState_apply, id, words, checkAll_gloved, eff_pure, elems, good]

/-- What a hop makes of a block. -/
def hopped (xs : Nat → BitVec 64) (first : Bool) (p : Nat × Blk) : Blk :=
  encoded p.2.scale p.2.flags (if first then srcElem xs p.1 else addCode p.2 (srcElem xs p.1))

theorem hopBlocks_ok (kept : x.r.kept = none) (first : Bool) {ps : List (Nat × Blk)}
    (hp : ∀ p ∈ ps, p.2.codes.length = 32 ∧ 1 ≤ p.2.scale ∧ ∀ k < 16, t.spad.read (x.src + 8 * (16 * p.1 + k)) = gloved (xs (16 * p.1 + k))) :
    hopBlocks x first ps s = .ok (ps.map (hopped xs first), s) := by
  induction ps with
  | nil => rfl
  | cons p ps ih =>
    obtain ⟨len, scale, src⟩ := hp p (List.mem_cons_self ..)
    have hop : hopBlock x first p s = .ok (hopped xs first p, s) := by
      have lost : ¬ p.2.scale = 0 := by omega
      simp only [hopBlock, eff_bind, sourceBlock_ok h kept src, lost, if_false]
      cases first with
      | true => simp only [if_true, eff_pure, encodeBlock_eq, hopped]
      | false => simp only [Bool.false_eq_true, if_false, eff_pure, addBlock_eq len, encodeBlock_eq, hopped]
    rw [hopBlocks]
    simp only [eff_bind, hop, ih fun p' hp' => hp p' (List.mem_cons_of_mem p hp'), eff_pure, List.map_cons]

end Blocks

section Hears

variable {s : State} {n : Nat} {p : Packet} {q : CollPkt} {r : CollRun} {cmd : DCmd} {ws : List (BitVec 64)}

/-- The links after the position has sent one packet on. -/
theorem handed_onward (cmd : DCmd) (phase stage : Nat) (items : List Nat) (gs : List GWord) :
    handed s n p (onward s p q r phase stage items gs) =
      (taken s n p).net ++ [(hearCtx s p q r cmd).onPacket (taken s n p) phase stage q.chunk items gs] := by
  obtain ⟨-, -, px, py, -⟩ := taken_keeps s n p
  have dieOf (id : Nat) : (taken s n p).dieOf id = s.dieOf id := by rw [State.dieOf, px, py]; rfl
  rw [handed, sent, CollCtx.onPacket, dieOf]
  rfl

/-- The unit waits for the next packet of a word that is not finished. -/
theorem collPump_waits_hears (h : CollHears s n p q r cmd ws) {r' : CollRun} {t' : Tile} {l : List Packet} {u : State}
    (hu : CollNow p.dst q.comm r.holder (taken s n p) r' t' l u) (holder : r'.holder = r.holder) (idx : r'.idx = r.idx)
    (kept : r'.kept = none) (inbox : r'.inbox = []) (cut : t'.cut = (s.tileAt r.holder).cut) (cmds : t'.dcmds = (s.tileAt r.holder).dcmds)
    (more : r'.done.length < (s.commAt p.dst q.comm).p) (m : Nat) : collPump p.dst q.comm m u = u := by
  obtain ⟨-, -, -, -, -, -, -, -, -, -, -, -, lt, -, notCut, -, hcmd, -, ha, hd, -⟩ := h
  have hc : t'.collCmd r'.idx = some cmd := by rw [Tile.collCmd, cmds, idx]; exact hcmd
  have ctx := hu.collCtx holder lt kept (cut.trans notCut) hc ha hd
  refine collPump_waits hu.run ctx (decide_eq_false ?_) inbox m
  rw [commAt_taken]
  exact not_le.mpr more

/-- The arrival, where the unit takes the packet and then waits. -/
theorem exec_arrival_waits (h : CollHears s n p q r cmd ws) {r' : CollRun} {t' : Tile} {l : List Packet}
    (take : ∀ v, CollNow p.dst q.comm r.holder (taken s n p) r (s.tileAt r.holder) [] v →
      Gives (collTake (hearCtx s p q r cmd) q) v fun _ u => CollNow p.dst q.comm r.holder (taken s n p) r' t' l u)
    (holder : r'.holder = r.holder) (idx : r'.idx = r.idx) (kept : r'.kept = none) (inbox : r'.inbox = [])
    (cut : t'.cut = (s.tileAt r.holder).cut) (cmds : t'.dcmds = (s.tileAt r.holder).dcmds)
    (more : r'.done.length < (s.commAt p.dst q.comm).p) :
    ∃ u, exec (.dcollPacketArrival n) s = .next u ∧ CollNow p.dst q.comm r.holder (taken s n p) r' t' l u := by
  obtain ⟨v, hv, go⟩ := exec_arrival h
  obtain ⟨u, hu, run⟩ := go _ (take v hv)
  exact ⟨u, by rw [run, collPump_waits_hears h hu holder idx kept inbox cut cmds more], hu⟩

/-- A run that waits for the packet: nothing else is in its inbox, its record is not posted, and chunks are still to come. -/
theorem hears_waiting (h : CollHears s n p q r cmd ws) : r.inbox = [] ∧ r.kept = none ∧ r.done.length < (s.commAt p.dst q.comm).p := by
  obtain ⟨-, -, -, -, -, -, -, -, -, inbox, kept, more, -⟩ := h
  exact ⟨inbox, kept, more⟩

/-- The words of a packet that a position hears are checked to their data. -/
theorem checkAll_hears (h : CollHears s n p q r cmd ws) (d : Nat) (v : State) : checkAll d q.words v = .ok (ws.map some, v) := by
  obtain ⟨-, -, -, -, -, -, -, -, -, -, -, -, -, -, -, -, -, words, -, -, -⟩ := h
  rw [words, checkAll_gloved]

/-- A chunk's blocks at a position that does not own it are encoded again and handed on. -/
theorem exec_hop (h : CollHears s n p q r cmd ws) (kind : r.kind = 0 ∨ r.kind = 2) (phase : q.phase = 0) {xs : Nat → BitVec 64}
    {bl : List Blk} (src : ∀ j < 16 * r.cnt, (s.tileAt r.holder).spad.read (cmd.aA.data.toNat % 2 ^ 32 + 8 * j) = gloved (xs j))
    (len : bl.length = q.items.length) (pack : PackIs bl ws) (scales : ∀ b ∈ bl, 1 ≤ b.scale) (items : ∀ b ∈ q.items, b < r.cnt)
    (other : (s.commAt p.dst q.comm).pos ≠ q.chunk) : ∃ u ws', exec (.dcollPacketArrival n) s = .next u ∧
      PackIs ((q.items.zip bl).map fun x => encoded x.2.scale x.2.flags
        (if q.stage = 0 then srcElem xs x.1 else addCode x.2 (srcElem xs x.1))) ws' ∧
      u.net = handed s n p (onward s p q r 0 (q.stage + 1) q.items (ws'.map gloved)) ∧ u.tileAt r.holder = s.tileAt r.holder ∧
      (u.commAt p.dst q.comm).run = some r := by
  obtain ⟨inbox, kept, more⟩ := hears_waiting h
  have hops : (q.items.zip bl).map (hopped xs (decide (q.stage = 0))) = (q.items.zip bl).map fun x => encoded x.2.scale x.2.flags
      (if q.stage = 0 then srcElem xs x.1 else addCode x.2 (srcElem xs x.1)) := by
    refine List.map_congr_left fun x _ => ?_
    by_cases first : q.stage = 0 <;> simp [hopped, first]
  have fits : ∀ b ∈ (q.items.zip bl).map (hopped xs (decide (q.stage = 0))), b.Fits := by
    intro b hb
    obtain ⟨x, hx, rfl⟩ := List.mem_map.mp hb
    obtain ⟨-, bytes⟩ := packIs_fits pack (List.of_mem_zip hx).2
    exact encoded_fits (bytes _ (by simp [Blk.bytes])) (bytes _ (by simp [Blk.bytes])) _
  obtain ⟨ws', words, packed⟩ := packBlocks_packIs fits
  have blocks : ∀ x ∈ q.items.zip bl, x.2.codes.length = 32 ∧ 1 ≤ x.2.scale ∧ ∀ k < 16,
      (s.tileAt r.holder).spad.read (cmd.aA.data.toNat % 2 ^ 32 + 8 * (16 * x.1 + k)) = gloved (xs (16 * x.1 + k)) := by
    intro x hx
    obtain ⟨item, block⟩ := List.of_mem_zip hx
    have := items _ item
    exact ⟨(packIs_fits pack block).1, scales _ block, fun k hk => src _ (by omega)⟩
  have take (v : State) (hv : CollNow p.dst q.comm r.holder (taken s n p) r (s.tileAt r.holder) [] v) :
      Gives (collTake (hearCtx s p q r cmd) q) v fun _ u => CollNow p.dst q.comm r.holder (taken s n p) r (s.tileAt r.holder)
        [(hearCtx s p q r cmd).onPacket (taken s n p) 0 (q.stage + 1) q.chunk q.items (ws'.map gloved)] u := by
    have hop := hopBlocks_ok (x := hearCtx s p q r cmd) hv kept (decide (q.stage = 0)) blocks
    have step : collTake (hearCtx s p q r cmd) q v =
        collSend (hearCtx s p q r cmd) 0 (q.stage + 1) q.chunk q.items (packBlocks ((q.items.zip bl).map (hopped xs (decide (q.stage = 0))))) false v := by
      have own : ¬ (hearCtx s p q r cmd).c.pos = q.chunk := other
      rw [collTake]
      simp only [eff_bind, checkAll_hears h, phase]
      obtain kind | kind := kind
      · rw [show (hearCtx s p q r cmd).r.kind = 0 from kind]
        simp only [own, if_false, eff_bind, packIs_blocks pack len, hop]
      · rw [show (hearCtx s p q r cmd).r.kind = 2 from kind]
        simp only [own, if_false, eff_bind, packIs_blocks pack len, hop]
    rw [Gives, step, words]
    exact collSend_gives (x := hearCtx s p q r cmd) hv 0 (q.stage + 1) q.chunk q.items _
  obtain ⟨u, run, hu⟩ := exec_arrival_waits h take rfl rfl kept inbox rfl rfl more
  refine ⟨u, ws', run, hops ▸ packed, ?_, hu.tile, hu.run⟩
  rw [handed_onward cmd, hu.net]

end Hears

end Sys2Proof.Machine
end

section
/-!
PROOFS. Results put at a position (R296 to R298): blocks of results written one after another with their flags bytes, the owner's part with its
reruns, and the results of another owner.
-/

namespace Sys2Proof.Machine

open Sys2Proof.Claims

/-! ## Keys that are entered -/

/-- A key stands in a map. -/
def Keyed (m : SMap Nat) (n : Nat) : Prop := ∃ p ∈ m, p.1 = n

theorem keyed_mapPut (m : SMap Nat) (n v k : Nat) : Keyed (mapPut m n v) k ↔ k = n ∨ Keyed m k := by
  unfold Keyed
  induction m with
  | nil => simp [mapPut, eq_comm]
  | cons e t ih =>
    obtain ⟨j, w⟩ := e
    unfold mapPut
    split
    · rename_i same
      subst same
      simp [eq_comm]
    · split
      · simp [eq_comm]
      · simp only [List.mem_cons, exists_eq_or_imp, ih]
        tauto

/-! ## Results of several blocks -/

/-- The 16 words of a block's results. -/
def resultWords (y : Nat → Nat) : List GWord := (List.range 16).map fun k => gloved (wordOf 32 fun j => y (2 * k + j))

/-- Doubleword `c` is not one of the 16 from `a` on. -/
def Outside (a c : Nat) : Prop := c / 8 < a / 8 ∨ a / 8 + 16 ≤ c / 8

theorem read_resultWords_outside {m : Mem} {a c : Nat} (y : Nat → Nat) (h : Outside a c) : (m.writeList a (resultWords y)).read c = m.read c :=
  read_writeList_outside (by rwa [resultWords, List.length_map, List.length_range])

theorem read_resultWords {m : Mem} {a k : Nat} (y : Nat → Nat) (hk : k < 16) :
    (m.writeList a (resultWords y)).read (a + 8 * k) = gloved (wordOf 32 fun j => y (2 * k + j)) := by
  rw [read_writeList_inside a (by simpa [resultWords] using hk)]
  simp [resultWords]

/-- The results and flags bytes of blocks have been put: block `key p` of each `p` has the values `val p` and the byte `fl p`; nothing else
has changed. -/
structure ResultsPut {α : Type} (off : Nat → Nat) (key : α → Nat) (val : α → Nat → Nat) (fl : α → Nat) (ps : List α) (r r' : CollRun)
    (m m' : Mem) : Prop where
  flags : ∀ p ∈ ps, mapGet 0 r'.flags (key p) = fl p
  keyed : ∀ n, Keyed r'.flags n ↔ n ∈ ps.map key ∨ Keyed r.flags n
  others : ∀ n, n ∉ ps.map key → mapGet 0 r'.flags n = mapGet 0 r.flags n
  nans : r'.nans = r.nans + (ps.map fun p => nanCount (val p)).sum
  words : ∀ p ∈ ps, ∀ k < 16, m'.read (off (key p) + 8 * k) = gloved (wordOf 32 fun j => val p (2 * k + j))
  outside : ∀ a, (∀ p ∈ ps, Outside (off (key p)) a) → m'.read a = m.read a

/-- A run after a block's results. -/
def putRun (r : CollRun) (n flags nans : Nat) : CollRun := { r with flags := mapPut r.flags n flags, nans := r.nans + nans }

theorem ResultsPut.nil {α : Type} (off : Nat → Nat) (key : α → Nat) (val : α → Nat → Nat) (fl : α → Nat) (r : CollRun) (m : Mem) :
    ResultsPut off key val fl [] r r m m where
  flags p hp := absurd hp (List.not_mem_nil)
  keyed n := by simp
  others n _ := rfl
  nans := by simp
  words p hp := absurd hp (List.not_mem_nil)
  outside a _ := rfl

theorem ResultsPut.cons {α : Type} {off : Nat → Nat} {key : α → Nat} {val : α → Nat → Nat} {fl : α → Nat} {p : α} {ps : List α} {r r' : CollRun}
    {m m' : Mem} (fresh : key p ∉ ps.map key) (apart : ∀ p' ∈ ps, ∀ k < 16, Outside (off (key p')) (off (key p) + 8 * k))
    (h : ResultsPut off key val fl ps (putRun r (key p) (fl p) (nanCount (val p))) r' (m.writeList (off (key p)) (resultWords (val p))) m') :
    ResultsPut off key val fl (p :: ps) r r' m m' where
  flags p' hp' := by
    rcases List.mem_cons.mp hp' with rfl | hp'
    · rw [h.others _ fresh]
      exact mapGet_mapPut_self _ _ _ _
    · exact h.flags p' hp'
  keyed n := by
    rw [h.keyed, List.map_cons, List.mem_cons, putRun, keyed_mapPut]
    tauto
  others n hn := by
    rw [List.map_cons, List.mem_cons, not_or] at hn
    rw [h.others n hn.2]
    exact mapGet_mapPut_other _ _ _ hn.1
  nans := by
    rw [h.nans, putRun, List.map_cons, List.sum_cons, Nat.add_assoc]
  words p' hp' k hk := by
    rcases List.mem_cons.mp hp' with rfl | hp'
    · rw [h.outside _ fun p' hp' => apart p' hp' k hk]
      exact read_resultWords _ hk
    · exact h.words p' hp' k hk
  outside a ha := by
    rw [h.outside a fun p' hp' => ha p' (List.mem_cons_of_mem p hp')]
    exact read_resultWords_outside _ (ha p (List.mem_cons_self ..))

section Put

variable {x : CollCtx} {b s : State} {r : CollRun} {t : Tile} {l : List Packet} (h : CollNow x.d x.k x.g b r t l s)

include h

/-- The results of a block that had none. -/
theorem putResult_gives {n : Nat} (fresh : ¬ Keyed r.flags n) (y : Nat → Nat) (flags : Nat) :
    Gives (putResult x n ((List.range 32).map y) flags) s fun _ u => CollNow x.d x.k x.g b (putRun r n flags (nanCount y))
      { t with spad := t.spad.writeList (x.resOff n) (resultWords y) } l u := by
  refine (curRun_gives h).bind fun a u ⟨ha, hu⟩ => ?_
  subst a u
  have none : (r.flags.any fun p => decide (p.1 = n)) = false := by
    rw [List.any_eq_false]
    exact fun p hp same => fresh ⟨p, hp, of_decide_eq_true same⟩
  have words : ((List.range 16).map fun k => gloved (wordOf 32 fun j => ((List.range 32).map y).getD (2 * k + j) 0)) = resultWords y := by
    refine List.map_congr_left fun k hk => ?_
    have place := List.mem_range.mp hk
    rw [wordOf_congr fun j hj => ?_]
    have inside : 2 * k + j < 32 := by
      have : j < 2 := hj
      omega
    simp [inside]
  have count : (((List.range 32).map y).filter isNan32).length = nanCount y := by
    rw [List.filter_map, List.length_map]
    rfl
  refine Gives.bind (.of_eq (getsState_apply id s) (Q := fun _ u => u = s) rfl) fun _ u hu => ?_
  subst u
  rw [none, if_neg Bool.false_ne_true, words, count]
  refine (collWrite_gives h _ _).bind fun _ u hu => ?_
  exact modRun_gives hu _

end Put

end Sys2Proof.Machine
end

section
/-!
PROOFS. The owner's part for arriving blocks (R296, R297), and the results of another owner (R298), block by block.
-/

namespace Sys2Proof.Machine

open Sys2Proof.Claims

/-! ## What the owner makes of a block -/

theorem rerunScale_eq (n sc : Nat) (b : Blk) : rerunScale n sc b = rerunCode n sc b.flags := by
  unfold rerunScale rerunCode
  by_cases sat : b.flags % 2 = 1 <;> by_cases err : b.flags / 2 % 2 = 1 <;> simp [sat, err]

theorem ownValues_eq {p : Blk} (len : p.codes.length = 32) (x : Nat → Nat) :
    (if decide (p.flags / 2 % 2 = 1) = true then List.replicate 32 (canonNan .fp32) else addBlock p ((List.range 32).map x)) =
      (List.range 32).map (ownResult p x) := by
  by_cases err : p.flags / 2 % 2 = 1
  · have canon : ownResult p x = fun _ => 0x7FC00000 := by
      funext e
      exact if_pos err
    rw [if_pos (decide_eq_true err), canon, List.map_const', List.length_range]
    rfl
  · have sum : ownResult p x = addCode p x := by
      funext e
      exact if_neg err
    rw [if_neg (by simpa using err), sum, addBlock_eq len]

theorem any_isNan32 (y : Nat → Nat) : ((List.range 32).map y).any isNan32 = true ↔ ¬ nanCount y = 0 := by
  rw [nanCount, List.length_eq_zero_iff, List.filter_eq_nil_iff, List.any_map, List.any_eq_true]
  push Not
  rfl

/-- The code under which a block is run again, as it stands in a run. -/
def codeIn (r : CollRun) (p : Nat × Blk) : Option Nat := rerunCode (mapGet 0 r.reruns p.1) (mapGet r.scode r.scales p.1) p.2.flags

/-- A block that goes round again. -/
def againOf (times : Nat → Nat) (code : Nat × Blk → Option Nat) (p : Nat × Blk) : Nat × Blk :=
  (p.1, ⟨List.replicate 32 0, (code p).getD 0, 4 * (times p.1 + 1)⟩)

/-- The results of a block at its owner. -/
def ownVal (xs : Nat → BitVec 64) (p : Nat × Blk) : Nat → Nat := ownResult p.2 (srcElem xs p.1)

/-- The flags byte of a block's results at its owner. -/
def ownFlag (times : Nat → Nat) (xs : Nat → BitVec 64) (p : Nat × Blk) : Nat := resultFlags (times p.1) p.2 (ownVal xs p)

/-- The counts of reruns and the scale codes after the owner's part. -/
structure Reran (times : Nat → Nat) (code : Nat × Blk → Option Nat) (mine : List (Nat × Blk)) (r r' : CollRun) : Prop where
  again : ∀ p ∈ mine, ∀ z, code p = some z → mapGet 0 r'.reruns p.1 = times p.1 + 1 ∧ mapGet r.scode r'.scales p.1 = z
  others : ∀ n, n ∉ mine.map (·.1) → mapGet 0 r'.reruns n = mapGet 0 r.reruns n ∧ mapGet r.scode r'.scales n = mapGet r.scode r.scales n
  same : r' = { r with reruns := r'.reruns, scales := r'.scales, flags := r'.flags, nans := r'.nans }

/-- A block that the owner can work on: its source words are without error and it has no result. -/
structure OwnReady (src : Nat) (xs : Nat → BitVec 64) (times : Nat → Nat) (code : Nat × Blk → Option Nat) (r : CollRun) (m : Mem)
    (p : Nat × Blk) : Prop where
  len : p.2.codes.length = 32
  words : ∀ k < 16, m.read (src + 8 * (16 * p.1 + k)) = gloved (xs (16 * p.1 + k))
  times : mapGet 0 r.reruns p.1 = times p.1
  code : codeIn r p = code p
  fresh : ¬ Keyed r.flags p.1

/-- The places of results, and of source and results, do not meet. -/
structure OwnApart (off : Nat → Nat) (src : Nat) (mine : List (Nat × Blk)) : Prop where
  results : ∀ p ∈ mine, ∀ p' ∈ mine, p.1 ≠ p'.1 → ∀ k < 16, Outside (off p.1) (off p'.1 + 8 * k)
  source : ∀ p ∈ mine, ∀ p' ∈ mine, ∀ k < 16, Outside (off p.1) (src + 8 * (16 * p'.1 + k))

theorem OwnApart.tail {off : Nat → Nat} {src : Nat} {p : Nat × Blk} {ps : List (Nat × Blk)} (h : OwnApart off src (p :: ps)) : OwnApart off src ps where
  results a ha c hc := h.results a (List.mem_cons_of_mem p ha) c (List.mem_cons_of_mem p hc)
  source a ha c hc := h.source a (List.mem_cons_of_mem p ha) c (List.mem_cons_of_mem p hc)

/-- A block stays ready when the run changes at another block and the source words are left as they are. -/
theorem OwnReady.keeps {src : Nat} {xs : Nat → BitVec 64} {times : Nat → Nat} {code : Nat × Blk → Option Nat} {r r' : CollRun} {m m' : Mem}
    {p : Nat × Blk} (h : OwnReady src xs times code r m p) (words : ∀ k < 16, m'.read (src + 8 * (16 * p.1 + k)) = m.read (src + 8 * (16 * p.1 + k)))
    (reruns : mapGet 0 r'.reruns p.1 = mapGet 0 r.reruns p.1) (scales : mapGet r'.scode r'.scales p.1 = mapGet r.scode r.scales p.1)
    (flags : Keyed r'.flags p.1 → Keyed r.flags p.1) : OwnReady src xs times code r' m' p where
  len := h.len
  words k hk := (words k hk).trans (h.words k hk)
  times := reruns.trans h.times
  code := by rw [codeIn, reruns, scales]; exact h.code
  fresh hk := h.fresh (flags hk)

section Own

variable {x : CollCtx} {b : State} {l : List Packet} {xs : Nat → BitVec 64} {times : Nat → Nat} {code : Nat × Blk → Option Nat}

/-- The owner's part: results for the blocks whose chains have ended well or often enough, the others again (R296, R297). -/
theorem ownBlocks_gives (kept : x.r.kept = none) {mine : List (Nat × Blk)} (nodup : (mine.map (·.1)).Nodup) (apart : OwnApart x.resOff x.src mine) :
    ∀ {s : State} {r : CollRun} {t : Tile}, CollNow x.d x.k x.g b r t l s → (∀ p ∈ mine, OwnReady x.src xs times code r t.spad p) →
    Gives (ownBlocks x mine) s fun a u => ∃ r' m', CollNow x.d x.k x.g b r' { t with spad := m' } l u ∧
      a = (mine.filter fun p => (code p).isSome).map (againOf times code) ∧
      ResultsPut x.resOff (·.1) (ownVal xs) (ownFlag times xs) (mine.filter fun p => (code p).isNone) r r' t.spad m' ∧
      Reran times code mine r r' := by
  induction mine with
  | nil =>
    intro s r t h _
    exact .pure ⟨r, t.spad, h, rfl, .nil _ _ _ _ r t.spad,
      { again := fun p hp => absurd hp List.not_mem_nil, others := fun n _ => ⟨rfl, rfl⟩, same := rfl }⟩
  | cons p ps ih =>
    intro s r t h ready
    obtain ⟨fresh, rest⟩ := List.nodup_cons.mp nodup
    have first := ready p (List.mem_cons_self ..)
    have other {p' : Nat × Blk} (hp' : p' ∈ ps) : p'.1 ≠ p.1 := fun same => fresh (List.mem_map.mpr ⟨p', hp', same⟩)
    obtain ⟨n, blk⟩ := p
    rw [ownBlocks]
    refine Gives.bind (.of_eq (sourceBlock_ok h kept first.words) (Q := fun a u => a = ((List.range 32).map (srcElem xs n), false) ∧ u = s)
      ⟨rfl, rfl⟩) fun a u ⟨ha, hu⟩ => ?_
    subst a u
    dsimp only
    rw [if_neg Bool.false_ne_true]
    refine (curRun_gives h).bind fun a u ⟨ha, hu⟩ => ?_
    subst a u
    have again : rerunScale (mapGet 0 r.reruns n) (mapGet r.scode r.scales n) blk = code (n, blk) := (rerunScale_eq _ _ _).trans first.code
    have count : mapGet 0 r.reruns n = times n := first.times
    rw [again, count]
    cases hz : code (n, blk) with
    | some z =>
      dsimp only
      refine (modRun_gives h _).bind fun _ u hu => ?_
      refine (ih rest apart.tail hu fun p' hp' => ?_).bind fun a v ⟨r', m', hv, ha, put, reran⟩ => ?_
      · exact (ready p' (List.mem_cons_of_mem _ hp')).keeps (fun _ _ => rfl) (mapGet_mapPut_other _ _ _ (other hp'))
          (mapGet_mapPut_other _ _ _ (other hp')) id
      · refine .pure ⟨r', m', hv, ?_, ?_, ?_⟩
        · rw [List.filter_cons_of_pos (by simp [hz]), List.map_cons, againOf, hz, ha]
          rfl
        · rw [List.filter_cons_of_neg (by simp [hz])]
          exact ⟨put.flags, put.keyed, put.others, put.nans, put.words, put.outside⟩
        · refine ⟨fun p' hp' z' hz' => ?_, fun k hk => ?_, reran.same⟩
          · rcases List.mem_cons.mp hp' with rfl | hp'
            · obtain rfl : z = z' := Option.some.inj (hz.symm.trans hz')
              obtain ⟨reruns, scales⟩ := reran.others n fresh
              exact ⟨reruns.trans (mapGet_mapPut_self _ _ _ _), scales.trans (mapGet_mapPut_self _ _ _ _)⟩
            · exact reran.again p' hp' z' hz'
          · rw [List.map_cons, List.mem_cons, not_or] at hk
            obtain ⟨reruns, scales⟩ := reran.others k hk.2
            exact ⟨reruns.trans (mapGet_mapPut_other _ _ _ hk.1), scales.trans (mapGet_mapPut_other _ _ _ hk.1)⟩
    | none =>
      dsimp only
      have values := ownValues_eq first.len (srcElem xs n)
      have flag : blk.flags % 2 + (if ((List.range 32).map (ownResult blk (srcElem xs n))).any isNan32 = true then 2 else 0) +
          (if decide (blk.flags / 2 % 2 = 1) = true then 4 else 0) + 8 * times n = ownFlag times xs (n, blk) := by
        have nan := any_isNan32 (ownResult blk (srcElem xs n))
        rw [if_congr nan rfl rfl, ite_not, if_congr decide_eq_true_iff rfl rfl]
        rfl
      rw [values, flag]
      refine (putResult_gives h first.fresh _ _).bind fun _ u hu => ?_
      obtain ⟨a, v, ok, r', m', hv, ha, put, reran⟩ := ih rest apart.tail hu fun p' hp' =>
        (ready p' (List.mem_cons_of_mem _ hp')).keeps
          (fun k hk => read_resultWords_outside _ (apart.source _ (List.mem_cons_self ..) p' (List.mem_cons_of_mem _ hp') k hk)) rfl rfl
          fun keyed => ((keyed_mapPut _ _ _ _).mp keyed).resolve_left (other hp')
      refine .of_eq ok ⟨r', m', hv, ?_, ?_, ?_⟩
      · rw [List.filter_cons_of_neg (by simp [hz]), ha]
      · rw [List.filter_cons_of_pos (by simp [hz])]
        refine .cons (fun mem => fresh ?_) (fun p' hp' k hk => ?_) put
        · obtain ⟨p', hp', same⟩ := List.mem_map.mp mem
          exact List.mem_map.mpr ⟨p', List.mem_of_mem_filter hp', same⟩
        · have hp'' := List.mem_of_mem_filter hp'
          exact apart.results p' (List.mem_cons_of_mem _ hp'') _ (List.mem_cons_self ..) (other hp'') k hk
      · refine ⟨fun p' hp' z' hz' => ?_, fun k hk => ?_, reran.same⟩
        · rcases List.mem_cons.mp hp' with rfl | hp'
          · exact absurd (hz.symm.trans hz') (by simp)
          · exact reran.again p' hp' z' hz'
        · rw [List.map_cons, List.mem_cons, not_or] at hk
          exact reran.others k hk.2

end Own

/-! ## The results of another owner (R298) -/

section Chunk

variable {x : CollCtx} {b : State} {l : List Packet} {chunk : Nat} {ws : List (BitVec 64)}

/-- The values of block `n` of a chunk in the words that go round. -/
def chunkVal (base : Nat) (ws : List (BitVec 64)) (n e : Nat) : Nat := elemOf 32 (ws.getD (16 * (n - base) + e / 2) 0#64) (e % 2)

/-- The flags byte of block `n` of a chunk in the words that go round. -/
def chunkFlag (base per : Nat) (ws : List (BitVec 64)) (n : Nat) : Nat := elemOf 8 (ws.getD (16 * per + (n - base) / 8) 0#64) ((n - base) % 8)

theorem putChunk_go_gives (len : ws.length = 16 * x.per + (x.per + 7) / 8) {ns : List Nat} (nodup : ns.Nodup)
    (inside : ∀ n ∈ ns, n - chunk * x.per < x.per)
    (apart : ∀ n ∈ ns, ∀ n' ∈ ns, n ≠ n' → ∀ k < 16, Outside (x.resOff n) (x.resOff n' + 8 * k)) :
    ∀ {s : State} {r : CollRun} {t : Tile}, CollNow x.d x.k x.g b r t l s → (∀ n ∈ ns, ¬ Keyed r.flags n) →
    Gives (putChunk.go x chunk (ws.map some) ns) s fun _ u => ∃ r' m', CollNow x.d x.k x.g b r' { t with spad := m' } l u ∧
      ResultsPut x.resOff id (chunkVal (chunk * x.per) ws) (chunkFlag (chunk * x.per) x.per ws) ns r r' t.spad m' ∧
      r' = { r with flags := r'.flags, nans := r'.nans } := by
  induction ns with
  | nil =>
    intro s r t h _
    exact .pure ⟨r, t.spad, h, .nil _ _ _ _ r t.spad, rfl⟩
  | cons n ns ih =>
    intro s r t h free
    obtain ⟨fresh, rest⟩ := List.nodup_cons.mp nodup
    have place := inside n (List.mem_cons_self ..)
    have word {i : Nat} (hi : i < ws.length) : (ws.map some).getD i none = some (ws.getD i 0#64) := by
      simp [hi]
    have values : ((List.range 32).map fun e => elemOf 32 ((((x.chunkWords (ws.map some) (n - chunk * x.per)).1.getD (e / 2) none)).getD 0#64) (e % 2)) =
        (List.range 32).map (chunkVal (chunk * x.per) ws n) := by
      refine List.map_congr_left fun e he => ?_
      have half : e / 2 < 16 := by have := List.mem_range.mp he; omega
      have some : (x.chunkWords (ws.map some) (n - chunk * x.per)).1.getD (e / 2) none = some (ws.getD (16 * (n - chunk * x.per) + e / 2) 0#64) := by
        rw [← word (by omega)]
        simp [CollCtx.chunkWords, half]
      rw [some, Option.getD_some, chunkVal]
    have flag : elemOf 8 ((x.chunkWords (ws.map some) (n - chunk * x.per)).2.getD 0#64) ((n - chunk * x.per) % 8) =
        chunkFlag (chunk * x.per) x.per ws n := by
      rw [CollCtx.chunkWords, word (by omega), Option.getD_some, chunkFlag]
    rw [putChunk.go]
    rw [values, flag]
    refine (putResult_gives h (free n (List.mem_cons_self ..)) _ _).bind fun _ u hu => ?_
    obtain ⟨a, v, ok, r', m', hv, put, same⟩ := ih rest (fun n' hn' => inside n' (List.mem_cons_of_mem n hn'))
      (fun n' hn' n'' hn'' => apart n' (List.mem_cons_of_mem n hn') n'' (List.mem_cons_of_mem n hn'')) hu fun n' hn' keyed =>
        free n' (List.mem_cons_of_mem n hn') (((keyed_mapPut _ _ _ _).mp keyed).resolve_left fun same => fresh (same ▸ hn'))
    refine .of_eq ok ⟨r', m', hv, .cons (by simpa using fresh) (fun n' hn' k hk => ?_) put, same⟩
    exact apart n' (List.mem_cons_of_mem n hn') n (List.mem_cons_self ..) (fun same => fresh (same ▸ hn')) k hk

/-- No block fails where every word is without error. -/
theorem failedBlocks_nil (len : ws.length = 16 * x.per + (x.per + 7) / 8) : x.failedBlocks chunk (ws.map some) = [] := by
  rw [CollCtx.failedBlocks, List.filter_eq_nil_iff]
  intro n hn
  obtain ⟨i, hi, rfl⟩ := List.mem_map.mp hn
  have place := List.mem_range.mp hi
  have word {i : Nat} (hi : i < ws.length) : ((ws.map some).getD i none).isNone = false := by simp [hi]
  have flag : ((ws.map some).getD (16 * x.per + i / 8) none).isNone = false := word (by omega)
  have values : ((List.range 16).map fun k => (ws.map some).getD (16 * i + k) none).any Option.isNone = false := by
    rw [List.any_map, List.any_eq_false]
    intro k hk
    have := List.mem_range.mp hk
    exact Bool.eq_false_iff.mp (word (show 16 * i + k < ws.length by omega))
  rw [Nat.add_sub_cancel_left]
  simp only [CollCtx.chunkWords, flag, values, Bool.or_self, Bool.false_eq_true, not_false_eq_true]

end Chunk

end Sys2Proof.Machine
end

section
/-!
PROOFS. Blocks that reach their owner (R296, R297): reruns are sent along the same chain; with every own block done, the results or the news
go round, and `rs` posts its record.
-/

namespace Sys2Proof.Machine

open Sys2Proof.Claims

/-! ## Rows of 16 words -/

theorem flatMap_rows_length {α β : Type} {f : α → List β} (h : ∀ a, (f a).length = 16) (l : List α) : (l.flatMap f).length = 16 * l.length := by
  induction l with
  | nil => rfl
  | cons a t ih => rw [List.flatMap_cons, List.length_append, h, ih, List.length_cons]; ring

theorem getElem?_flatMap_rows {α β : Type} {f : α → List β} (h : ∀ a, (f a).length = 16) {l : List α} (tail : List β) {i k : Nat} {a : α}
    (hi : l[i]? = some a) (hk : k < 16) : (l.flatMap f ++ tail)[16 * i + k]? = (f a)[k]? := by
  induction l generalizing i with
  | nil => simp at hi
  | cons c t ih =>
    rw [List.flatMap_cons, List.append_assoc]
    cases i with
    | zero =>
      obtain rfl : c = a := by simpa using hi
      rw [Nat.mul_zero, Nat.zero_add, List.getElem?_append_left (by rw [h]; exact hk)]
    | succ i =>
      rw [List.getElem?_cons_succ] at hi
      rw [List.getElem?_append_right (by rw [h]; omega), h, show 16 * (i + 1) + k - 16 = 16 * i + k by omega, ih hi]

/-! ## When the own chunk is done -/

section Done

variable {x : CollCtx} {b s : State} {r : CollRun} {t : Tile} {l : List Packet} (h : CollNow x.d x.k x.g b r t l s)

include h

omit h in
/-- Whether the own chunk has its results and has not gone round. -/
theorem ownDone_condition : ((x.blocks x.c.pos).all (fun n => r.flags.any fun p => decide (p.1 = n)) && !r.done.contains x.c.pos) = true ↔
    (∀ n ∈ x.blocks x.c.pos, Keyed r.flags n) ∧ x.c.pos ∉ r.done := by
  simp [Keyed]

/-- While a block has no result nothing is sent. -/
theorem ownDone_open {n : Nat} (hn : n ∈ x.blocks x.c.pos) (free : ¬ Keyed r.flags n) : Gives (ownDone x) s fun _ u => u = s := by
  refine (curRun_gives h).bind fun a u ⟨ha, hu⟩ => ?_
  subst a u
  dsimp only
  rw [if_neg (ownDone_condition.not.mpr fun all => free (all.1 n hn))]
  exact .pure rfl

/-- The words that go round with the results of a chunk of `ar`. -/
def roundWords (x : CollCtx) (r : CollRun) (m : Mem) : List GWord :=
  ((x.blocks x.c.pos).flatMap fun n => (List.range 16).map fun k => m.read (x.resOff n + 8 * k)) ++
    flagWords ((x.blocks x.c.pos).map fun n => mapGet 0 r.flags n)

/-- The results of an `ar` go round. -/
theorem ownDone_ar (kind : x.r.kind = 2) (all : ∀ n ∈ x.blocks x.c.pos, Keyed r.flags n) (notDone : x.c.pos ∉ r.done) :
    Gives (ownDone x) s fun _ u => CollNow x.d x.k x.g b r t (l ++ [x.onPacket b 2 1 x.c.pos [] (roundWords x r t.spad)]) u := by
  refine (curRun_gives h).bind fun a u ⟨ha, hu⟩ => ?_
  subst a u
  dsimp only
  rw [if_pos (ownDone_condition.mpr ⟨all, notDone⟩)]
  refine Gives.bind (.of_eq (getsState_apply id s) (Q := fun a u => a = s ∧ u = s) ⟨rfl, rfl⟩) fun a u ⟨ha, hu⟩ => ?_
  subst a u
  rw [if_pos kind, if_neg (by rw [kind]; decide), h.tile]
  refine (collSend_gives h _ _ _ _ _).bind fun _ u hu => ?_
  exact .pure hu

/-- The run of an `rs` whose own chunk is done: the words of its source are kept for the chunks to come. -/
def ownedRun (x : CollCtx) (r : CollRun) (ks : List GWord) : CollRun := { r with done := x.c.pos :: r.done, kept := some ks }

/-- The news of an `rs` goes round and its record is posted. -/
theorem ownDone_rs {cmd : DCmd} (kind : x.r.kind = 0) (same : r.kind = 0) (all : ∀ n ∈ x.blocks x.c.pos, Keyed r.flags n)
    (notDone : x.c.pos ∉ r.done) (errs : r.errs = false) (room : CollRoom t cmd) (level : t.level = .task)
    (quiet : b.dmode (x.g / 16) = 0) (hc : t.collCmd r.idx = some cmd) :
    Gives (ownDone x) s fun _ u => ∃ ks, CollNow x.d x.k x.g b (ownedRun x r ks)
      (reportedTile t r cmd (x.dst + 128 * (x.blocks x.c.pos).length) ((x.blocks x.c.pos).map fun n => mapGet 0 r.flags n))
      (l ++ [x.onPacket b 2 1 x.c.pos [] []]) u := by
  refine (curRun_gives h).bind fun a u ⟨ha, hu⟩ => ?_
  subst a u
  dsimp only
  rw [if_pos (ownDone_condition.mpr ⟨all, notDone⟩)]
  refine Gives.bind (.of_eq (getsState_apply id s) (Q := fun a u => a = s ∧ u = s) ⟨rfl, rfl⟩) fun a u ⟨ha, hu⟩ => ?_
  subst a u
  rw [if_neg (by rw [kind]; decide), if_pos kind]
  refine (collSend_gives h _ _ _ _ _).bind fun _ u hu => ?_
  refine (modRun_gives hu _).bind fun _ u hu => ?_
  have reported : x.reported { r with done := x.c.pos :: r.done } = x.blocks x.c.pos := if_pos same
  refine (collReport_gives hu (.inl same) errs room level quiet hc).bind fun _ u hu => ?_
  rw [reported] at hu
  obtain ⟨a, w, ok, hw⟩ := modRun_gives hu fun r => { r with kept := some ((List.range (16 * r.cnt)).map (x.word s)) }
  exact .of_eq ok ⟨_, hw⟩

end Done

/-! ## The arrival at the owner -/

/-- A chunk's blocks reach the position that owns the chunk, and it can work on them. -/
structure OwnHears (s : State) (n : Nat) (p : Packet) (q : CollPkt) (r : CollRun) (cmd : DCmd) (ws : List (BitVec 64)) (xs : Nat → BitVec 64)
    (bl : List Blk) : Prop where
  hears : CollHears s n p q r cmd ws
  kind : r.kind = 0 ∨ r.kind = 2
  phase : q.phase = 0
  src : ∀ j < 16 * r.cnt, (s.tileAt r.holder).spad.read (cmd.aA.data.toNat % 2 ^ 32 + 8 * j) = gloved (xs j)
  len : bl.length = q.items.length
  pack : PackIs bl ws
  items : ∀ b ∈ q.items, b < r.cnt
  own : (s.commAt p.dst q.comm).pos = q.chunk
  nodup : q.items.Nodup
  blocks : ∀ b ∈ q.items, b ∈ (hearCtx s p q r cmd).blocks (s.commAt p.dst q.comm).pos ∧ (∀ x ∈ r.flags, x.1 ≠ b) ∧
    mapGet r.scode r.scales b ≤ 254
  apart : cmd.aA.data.toNat % 2 ^ 32 + 128 * r.cnt ≤ cmd.aD.data.toNat % 2 ^ 32 ∨
    cmd.aD.data.toNat % 2 ^ 32 + collDstLen r.kind r.cnt (s.commAt p.dst q.comm).p ≤ cmd.aA.data.toNat % 2 ^ 32

/-- Counts of reruns as they stand in a run. -/
def timesIn (r : CollRun) (b : Nat) : Nat := mapGet 0 r.reruns b

/-- The blocks that go round again. -/
def againIn (q : CollPkt) (r : CollRun) (bl : List Blk) : List (Nat × Blk) := (q.items.zip bl).filter fun x => (codeIn r x).isSome

section Owner

variable {s : State} {n : Nat} {p : Packet} {q : CollPkt} {r : CollRun} {cmd : DCmd} {ws : List (BitVec 64)} {xs : Nat → BitVec 64}
  {bl : List Blk}

/-- The own address of a packet's destination is a multiple of 8. -/
theorem hears_dst (h : CollHears s n p q r cmd ws) : cmd.aD.data.toNat % 2 ^ 32 % 8 = 0 := by
  obtain ⟨-, -, -, -, -, -, -, -, -, -, -, -, -, -, -, -, -, -, -, -, dst⟩ := h
  omega

/-- Blocks of one chunk whose places do not meet: the number of a block's place. -/
theorem resOff_hears (s : State) (p : Packet) (q : CollPkt) (r : CollRun) (cmd : DCmd) (b : Nat) : (hearCtx s p q r cmd).resOff b =
    cmd.aD.data.toNat % 2 ^ 32 + 128 * (if r.kind = 0 then b - (s.commAt p.dst q.comm).pos * (hearCtx s p q r cmd).per else b) := rfl

theorem resOff_apart (h : CollHears s n p q r cmd ws) (kind : r.kind = 0 ∨ r.kind = 2) {chunk : Nat}
    (own : r.kind = 0 → chunk = (s.commAt p.dst q.comm).pos) {a c : Nat} (ha : a ∈ (hearCtx s p q r cmd).blocks chunk)
    (hc : c ∈ (hearCtx s p q r cmd).blocks chunk) (ne : a ≠ c) {k : Nat} (hk : k < 16) :
    Outside ((hearCtx s p q r cmd).resOff a) ((hearCtx s p q r cmd).resOff c + 8 * k) := by
  have align := hears_dst h
  obtain ⟨i, hi, rfl⟩ := List.mem_map.mp ha
  obtain ⟨j, hj, rfl⟩ := List.mem_map.mp hc
  rw [resOff_hears, resOff_hears, Outside]
  obtain zero | two := kind
  · rw [if_pos zero, if_pos zero, own zero, Nat.add_sub_cancel_left, Nat.add_sub_cancel_left]
    have : i ≠ j := fun same => ne (by rw [same])
    omega
  · rw [if_neg (by omega), if_neg (by omega)]
    omega

/-- Results and source words do not meet. -/
theorem OwnHears.ownApart (o : OwnHears s n p q r cmd ws xs bl) :
    OwnApart (hearCtx s p q r cmd).resOff (hearCtx s p q r cmd).src (q.items.zip bl) where
  results a ha c hc ne k hk := by
    refine resOff_apart o.hears o.kind (fun _ => rfl) ?_ ?_ ne hk
    · exact (o.blocks _ (List.of_mem_zip ha).1).1
    · exact (o.blocks _ (List.of_mem_zip hc).1).1
  source a ha c hc k hk := by
    have align := hears_dst o.hears
    have low := o.items _ (List.of_mem_zip hc).1
    have top := o.items _ (List.of_mem_zip ha).1
    obtain ⟨i, hi, same⟩ := List.mem_map.mp (o.blocks _ (List.of_mem_zip ha).1).1
    have within : i < r.cnt / (s.commAt p.dst q.comm).p := List.mem_range.mp hi
    have apart := o.apart
    have src : (hearCtx s p q r cmd).src = cmd.aA.data.toNat % 2 ^ 32 := rfl
    rw [resOff_hears, Outside, src]
    obtain zero | two := o.kind
    · have place : a.1 - (s.commAt p.dst q.comm).pos * (hearCtx s p q r cmd).per = i := by omega
      rw [if_pos zero, place]
      rw [zero] at apart
      simp only [collDstLen] at apart
      omega
    · rw [if_neg (by omega)]
      rw [two] at apart
      simp only [collDstLen] at apart
      omega

/-- The owner's part, from the state in which the unit takes the packet. -/
theorem OwnHears.ownBlocks (o : OwnHears s n p q r cmd ws xs bl) {v : State}
    (hv : CollNow p.dst q.comm r.holder (taken s n p) r (s.tileAt r.holder) [] v) :
    Gives (ownBlocks (hearCtx s p q r cmd) (q.items.zip bl)) v fun a u => ∃ r' m',
      CollNow p.dst q.comm r.holder (taken s n p) r' { s.tileAt r.holder with spad := m' } [] u ∧
      a = (againIn q r bl).map (againOf (timesIn r) (codeIn r)) ∧
      ResultsPut (hearCtx s p q r cmd).resOff (·.1) (ownVal xs) (ownFlag (timesIn r) xs)
        ((q.items.zip bl).filter fun p => (codeIn r p).isNone) r r' (s.tileAt r.holder).spad m' ∧
      Reran (timesIn r) (codeIn r) (q.items.zip bl) r r' := by
  obtain ⟨-, kept, -⟩ := hears_waiting o.hears
  refine ownBlocks_gives (x := hearCtx s p q r cmd) kept ?_ o.ownApart hv fun x hx => ?_
  · rw [List.map_fst_zip o.len.ge]
    exact o.nodup
  · obtain ⟨item, block⟩ := List.of_mem_zip hx
    have low := o.items _ item
    exact ⟨(packIs_fits o.pack block).1, fun k hk => o.src _ (by omega), rfl, rfl, fun ⟨e, he, same⟩ => (o.blocks _ item).2.1 e he same⟩

/-- Taking the packet at the owner. -/
theorem OwnHears.collTake (o : OwnHears s n p q r cmd ws xs bl) (v : State) : collTake (hearCtx s p q r cmd) q v =
    (Machine.ownBlocks (hearCtx s p q r cmd) (q.items.zip bl) >>= fun again =>
      if (!again.isEmpty) = true then
        collSend (hearCtx s p q r cmd) 0 0 q.chunk (again.map (·.1)) (packBlocks (again.map (·.2))) false >>= fun _ => ownDone (hearCtx s p q r cmd)
      else ownDone (hearCtx s p q r cmd)) v := by
  have own : (hearCtx s p q r cmd).c.pos = q.chunk := o.own
  rw [Machine.collTake, eff_bind, checkAll_hears o.hears]
  dsimp only
  rw [o.phase]
  obtain kind | kind := o.kind
  · rw [show (hearCtx s p q r cmd).r.kind = 0 from kind]
    rw [packIs_blocks o.pack o.len, if_pos own]
    rfl
  · rw [show (hearCtx s p q r cmd).r.kind = 2 from kind]
    rw [packIs_blocks o.pack o.len, if_pos own]
    rfl

/-- A block that goes round again fits. -/
theorem OwnHears.again_fits (o : OwnHears s n p q r cmd ws xs bl) {x : Nat × Blk} (hx : x ∈ againIn q r bl) :
    (⟨List.replicate 32 0, (codeIn r x).getD 0, 4 * (timesIn r x.1 + 1)⟩ : Blk).Fits := by
  obtain ⟨mem, some⟩ := List.mem_filter.mp hx
  obtain ⟨z, hz⟩ := Option.isSome_iff_exists.mp some
  obtain ⟨-, -, scale⟩ := o.blocks _ (List.of_mem_zip mem).1
  have few : timesIn r x.1 < 2 ∧ z < 256 := by
    rw [codeIn, rerunCode] at hz
    unfold timesIn
    split at hz
    · exact nomatch hz
    · rename_i few
      refine ⟨not_le.mp few, ?_⟩
      split at hz
      · split at hz
        · have := Option.some.inj hz
          omega
        · exact nomatch hz
      · split at hz
        · have := Option.some.inj hz
          omega
        · exact nomatch hz
  refine ⟨List.length_replicate, fun v hv => ?_⟩
  rw [hz] at hv
  simp only [Blk.bytes, Option.getD_some, List.mem_append, List.mem_cons, List.not_mem_nil, or_false] at hv
  rcases hv with hv | rfl | rfl
  · rw [List.eq_of_mem_replicate hv]
    decide
  · exact few.2
  · omega

/-- The owner's arrival with blocks that go round again (R297). -/
theorem OwnHears.exec_again (o : OwnHears s n p q r cmd ws xs bl) (some : againIn q r bl ≠ []) : ∃ u ws' r' m',
    exec (.dcollPacketArrival n) s = .next u ∧
    PackIs ((againIn q r bl).map fun x => ⟨List.replicate 32 0, (codeIn r x).getD 0, 4 * (timesIn r x.1 + 1)⟩) ws' ∧
    CollNow p.dst q.comm r.holder (taken s n p) r' { s.tileAt r.holder with spad := m' }
      [(hearCtx s p q r cmd).onPacket (taken s n p) 0 0 q.chunk ((againIn q r bl).map (·.1)) (ws'.map gloved)] u ∧
    ResultsPut (hearCtx s p q r cmd).resOff (·.1) (ownVal xs) (ownFlag (timesIn r) xs)
      ((q.items.zip bl).filter fun p => (codeIn r p).isNone) r r' (s.tileAt r.holder).spad m' ∧
    Reran (timesIn r) (codeIn r) (q.items.zip bl) r r' := by
  obtain ⟨inbox, kept, more⟩ := hears_waiting o.hears
  obtain ⟨ws', words, packed⟩ := packBlocks_packIs (l := (againIn q r bl).map fun x =>
    ⟨List.replicate 32 0, (codeIn r x).getD 0, 4 * (timesIn r x.1 + 1)⟩) (by
      intro b hb
      obtain ⟨x, hx, rfl⟩ := List.mem_map.mp hb
      exact o.again_fits hx)
  have numbers : ((againIn q r bl).map (againOf (timesIn r) (codeIn r))).map (·.1) = (againIn q r bl).map (·.1) := by
    rw [List.map_map]
    rfl
  have blks : ((againIn q r bl).map (againOf (timesIn r) (codeIn r))).map (·.2) =
      (againIn q r bl).map fun x => ⟨List.replicate 32 0, (codeIn r x).getD 0, 4 * (timesIn r x.1 + 1)⟩ := by
    rw [List.map_map]
    rfl
  obtain ⟨v, hv, go⟩ := exec_arrival o.hears
  obtain ⟨u, ⟨r', m', hu, put, reran⟩, run⟩ := go (fun _ u => ∃ r' m',
    CollNow p.dst q.comm r.holder (taken s n p) r' { s.tileAt r.holder with spad := m' }
      [(hearCtx s p q r cmd).onPacket (taken s n p) 0 0 q.chunk ((againIn q r bl).map (·.1)) (ws'.map gloved)] u ∧
    ResultsPut (hearCtx s p q r cmd).resOff (·.1) (ownVal xs) (ownFlag (timesIn r) xs)
      ((q.items.zip bl).filter fun p => (codeIn r p).isNone) r r' (s.tileAt r.holder).spad m' ∧
    Reran (timesIn r) (codeIn r) (q.items.zip bl) r r') (by
      rw [Gives, o.collTake]
      refine (o.ownBlocks hv).bind fun a u ⟨r', m', hu, ha, put, reran⟩ => ?_
      obtain ⟨x, rest, cons⟩ := List.exists_cons_of_ne_nil some
      have first : x ∈ againIn q r bl := by rw [cons]; exact List.mem_cons_self ..
      obtain ⟨mine, isSome⟩ := List.mem_filter.mp first
      have item := (List.of_mem_zip mine).1
      have free : ¬ Keyed r'.flags x.1 := fun keyed => by
        rcases (put.keyed x.1).mp keyed with result | ⟨e, he, same⟩
        · obtain ⟨y, hy, same⟩ := List.mem_map.mp result
          obtain ⟨hy, isNone⟩ := List.mem_filter.mp hy
          have one : y = x := by
            have keys : ((q.items.zip bl).map (·.1)).Nodup := by
              rw [List.map_fst_zip o.len.ge]
              exact o.nodup
            exact List.inj_on_of_nodup_map keys hy mine same
          subst one
          simp only [Option.isNone_iff_eq_none] at isNone
          rw [isNone] at isSome
          exact absurd isSome (by decide)
        · exact (o.blocks _ item).2.1 e he same
      subst a
      rw [numbers, blks, words, if_pos (by simp [some])]
      refine (collSend_gives (x := hearCtx s p q r cmd) hu _ _ _ _ _).bind fun _ w hw => ?_
      obtain ⟨a, z, ok, same⟩ := ownDone_open (x := hearCtx s p q r cmd) hw (o.blocks _ item).1 free
      exact .of_eq ok ⟨r', m', same ▸ hw, put, reran⟩)
  have same := reran.same
  refine ⟨u, ws', r', m', ?_, packed, hu, put, reran⟩
  rw [run, collPump_waits_hears o.hears hu (by rw [same]) (by rw [same]) (by rw [same]; exact kept) (by rw [same]; exact inbox) rfl rfl
    (by rw [same]; exact more)]

end Owner

end Sys2Proof.Machine
end

section
/-!
PROOFS. The end of a chunk at its owner, news and results that go round, and the end of the words (R297, R298).
-/

namespace Sys2Proof.Machine

open Sys2Proof.Claims

section Ends

variable {s : State} {n : Nat} {p : Packet} {q : CollPkt} {r : CollRun} {cmd : DCmd} {ws : List (BitVec 64)}

/-- The tile of a run at which a record can be posted. -/
theorem hears_tile (h : CollHears s n p q r cmd ws) : (s.tileAt r.holder).level = .task ∧ (taken s n p).dmode (r.holder / 16) = 0 ∧
    (s.tileAt r.holder).collCmd r.idx = some cmd := by
  obtain ⟨-, -, -, -, -, -, -, -, -, -, -, -, -, quiet, -, level, hcmd, -⟩ := h
  refine ⟨level, ?_, hcmd⟩
  rw [← quiet, State.dmode, State.dieReg, (taken_dies s n p _).1]
  rfl

/-- The unit has nothing left to do for a word whose record is posted, until the next packet. -/
theorem collPump_kept (h : CollHears s n p q r cmd ws) {r' : CollRun} {t' : Tile} {l : List Packet} {u : State}
    (hu : CollNow p.dst q.comm r.holder (taken s n p) r' t' l u) (holder : r'.holder = r.holder) (kept : r'.kept.isSome = true)
    (inbox : r'.inbox = []) (m : Nat) :
    ∃ w, collPump p.dst q.comm (m + 1) u = w ∧ w.tileAt r.holder = t' ∧ w.net = (taken s n p).net ++ l := by
  obtain ⟨-, -, -, -, -, queue, -⟩ := h
  have ctx : u.collCtx p.dst q.comm r' = some ⟨p.dst, q.comm, u.commAt p.dst q.comm, r', r'.holder, 0, 0⟩ := by
    rw [State.collCtx, if_pos kept]
  by_cases finished : collFinished ⟨p.dst, q.comm, u.commAt p.dst q.comm, r', r'.holder, 0, 0⟩ r' = true
  · have ends : Gives (collEnd ⟨p.dst, q.comm, u.commAt p.dst q.comm, r', r'.holder, 0, 0⟩ false) u fun _ w =>
        (w.tileAt r.holder = t' ∧ w.net = (taken s n p).net ++ l) ∧ (w.commAt p.dst q.comm).run = none ∧ (w.commAt p.dst q.comm).queue = [] := by
      have hu' : CollNow p.dst q.comm r'.holder (taken s n p) r' t' l u := holder ▸ hu
      obtain ⟨a, w, ok, state, comm⟩ := collEnd_kept (x := ⟨p.dst, q.comm, u.commAt p.dst q.comm, r', r'.holder, 0, 0⟩) hu' kept
      refine .of_eq ok ⟨holder ▸ state, ?_⟩
      rw [comm, commAt_taken]
      exact ⟨rfl, queue⟩
    obtain ⟨w, ⟨tile, net⟩, -, pump⟩ := collPump_ends hu.run ctx finished ends m
    exact ⟨w, pump, tile, net⟩
  · exact ⟨u, collPump_waits hu.run ctx (eq_false_of_ne_true finished) inbox (m + 1), hu.tile, hu.net⟩

/-- The arrival, where the unit takes the packet and the word then ends with its record. -/
theorem exec_arrival_ends (h : CollHears s n p q r cmd ws) {r' : CollRun} {l : List Packet}
    (take : ∀ v, CollNow p.dst q.comm r.holder (taken s n p) r (s.tileAt r.holder) [] v →
      Gives (collTake (hearCtx s p q r cmd) q) v fun _ u => CollNow p.dst q.comm r.holder (taken s n p) r' (s.tileAt r.holder) l u)
    (holder : r'.holder = r.holder) (idx : r'.idx = r.idx) (kept : r'.kept = none) (kind : r'.kind = 2)
    (errs : r'.errs = false) (finished : (s.commAt p.dst q.comm).p ≤ r'.done.length) (room : CollRoom (s.tileAt r.holder) cmd) :
    ∃ u, exec (.dcollPacketArrival n) s = .next u ∧ u.tileAt r.holder = reportedTile (s.tileAt r.holder) r' cmd
        (cmd.aD.data.toNat % 2 ^ 32 + 128 * r'.cnt) ((List.range r'.cnt).map fun b => mapGet 0 r'.flags b) ∧
      u.net = (taken s n p).net ++ l ∧ (u.commAt p.dst q.comm).run = none := by
  obtain ⟨level, quiet, hcmd⟩ := hears_tile h
  have queue : (s.commAt p.dst q.comm).queue = [] := by
    obtain ⟨-, -, -, -, -, queue, -⟩ := h
    exact queue
  obtain ⟨v, hv, go⟩ := exec_arrival h
  obtain ⟨u, hu, run⟩ := go _ (take v hv)
  obtain ⟨-, -, -, -, -, -, -, -, -, -, -, -, lt, -, cut, -, -, -, ha, hd, -⟩ := h
  have ctx := hu.collCtx holder lt kept cut (idx ▸ hcmd) ha hd
  rw [commAt_taken] at ctx
  have reported : CollCtx.reported ⟨p.dst, q.comm, { s.commAt p.dst q.comm with run := some r' }, r', r.holder,
      cmd.aA.data.toNat % 2 ^ 32, cmd.aD.data.toNat % 2 ^ 32⟩ r' = List.range r'.cnt := if_neg (by rw [kind]; decide)
  have ends := collEnd_reports (x := ⟨p.dst, q.comm, { s.commAt p.dst q.comm with run := some r' }, r', r.holder,
    cmd.aA.data.toNat % 2 ^ 32, cmd.aD.data.toNat % 2 ^ 32⟩) hu kept (.inr kind) errs room level quiet (idx ▸ hcmd)
  rw [reported, List.length_range] at ends
  obtain ⟨a, w, ok, state, comm⟩ := ends
  obtain ⟨w, ⟨tile, net⟩, none, pump⟩ := collPump_ends (Q := fun _ w => w.tileAt r.holder = reportedTile (s.tileAt r.holder) r' cmd
      (cmd.aD.data.toNat % 2 ^ 32 + 128 * r'.cnt) ((List.range r'.cnt).map fun b => mapGet 0 r'.flags b) ∧
      w.net = (taken s n p).net ++ l) hu.run ctx (decide_eq_true finished)
    (.of_eq ok ⟨state, by rw [comm], by rw [comm, commAt_taken]; exact queue⟩) 6
  exact ⟨w, by rw [run, pump], tile, net, none⟩

/-- The packets that the position sends on while the ring is not closed. -/
def passedOn (s : State) (n : Nat) (p : Packet) (q : CollPkt) (r : CollRun) (cmd : DCmd) (phase : Nat) : List Packet :=
  if q.stage + 1 < (s.commAt p.dst q.comm).p then [(hearCtx s p q r cmd).onPacket (taken s n p) phase (q.stage + 1) q.chunk [] []] else []

/-- A chunk that has gone round: the news is passed on, and the chunk is finished at the position. -/
theorem chunkPassed_gives {v : State} {t : Tile} (hv : CollNow p.dst q.comm r.holder (taken s n p) r t [] v) (phase : Nat) :
    (Gives (if q.stage + 1 < (hearCtx s p q r cmd).c.p then
        collSend (hearCtx s p q r cmd) phase (q.stage + 1) q.chunk [] [] false >>= fun _ => chunkDone (hearCtx s p q r cmd) q.chunk
      else chunkDone (hearCtx s p q r cmd) q.chunk) v fun _ u =>
      CollNow p.dst q.comm r.holder (taken s n p) { r with done := q.chunk :: r.done } t (passedOn s n p q r cmd phase) u) ∧
    (Gives (chunkDone (hearCtx s p q r cmd) q.chunk >>= fun _ => if q.stage + 1 < (hearCtx s p q r cmd).c.p then
        collSend (hearCtx s p q r cmd) phase (q.stage + 1) q.chunk [] [] false else pure ()) v fun _ u =>
      CollNow p.dst q.comm r.holder (taken s n p) { r with done := q.chunk :: r.done } t (passedOn s n p q r cmd phase) u) := by
  have ring : (hearCtx s p q r cmd).c.p = (s.commAt p.dst q.comm).p := rfl
  rw [ring, passedOn]
  split
  · refine ⟨?_, ?_⟩
    · exact (collSend_gives (x := hearCtx s p q r cmd) hv _ _ _ _ _).bind fun _ u hu => modRun_gives (x := hearCtx s p q r cmd) hu _
    · exact (modRun_gives (x := hearCtx s p q r cmd) hv _).bind fun _ u hu => collSend_gives (x := hearCtx s p q r cmd) hu _ _ _ _ _
  · refine ⟨modRun_gives (x := hearCtx s p q r cmd) hv _, ?_⟩
    exact (modRun_gives (x := hearCtx s p q r cmd) hv _).bind fun _ u hu => .pure hu

/-- News of an `rs` chunk at another position. -/
theorem collTake_news (h : CollHears s n p q r cmd ws) (kind : r.kind = 0) (phase : q.phase = 2) (v : State)
    (hv : CollNow p.dst q.comm r.holder (taken s n p) r (s.tileAt r.holder) [] v) :
    Gives (collTake (hearCtx s p q r cmd) q) v fun _ u => CollNow p.dst q.comm r.holder (taken s n p) { r with done := q.chunk :: r.done }
      (s.tileAt r.holder) (passedOn s n p q r cmd 2) u := by
  have step : collTake (hearCtx s p q r cmd) q v = (if q.stage + 1 < (hearCtx s p q r cmd).c.p then
        collSend (hearCtx s p q r cmd) 2 (q.stage + 1) q.chunk [] [] false >>= fun _ => chunkDone (hearCtx s p q r cmd) q.chunk
      else chunkDone (hearCtx s p q r cmd) q.chunk) v := by
    rw [collTake, eff_bind, checkAll_hears h]
    dsimp only
    rw [phase, show (hearCtx s p q r cmd).r.kind = 0 from kind]
    rfl
  rw [Gives, step]
  exact (chunkPassed_gives hv 2).1

/-- A chunk of `ar` of which no block failed on its way round, at a position. -/
theorem collTake_closing (h : CollHears s n p q r cmd ws) (kind : r.kind = 2) (phase : q.phase = 3) (items : q.items = []) (v : State)
    (hv : CollNow p.dst q.comm r.holder (taken s n p) r (s.tileAt r.holder) [] v) :
    Gives (collTake (hearCtx s p q r cmd) q) v fun _ u => CollNow p.dst q.comm r.holder (taken s n p) { r with done := q.chunk :: r.done }
      (s.tileAt r.holder) (passedOn s n p q r cmd 3) u := by
  have step : collTake (hearCtx s p q r cmd) q v = (chunkDone (hearCtx s p q r cmd) q.chunk >>= fun _ =>
      if q.stage + 1 < (hearCtx s p q r cmd).c.p then collSend (hearCtx s p q r cmd) 3 (q.stage + 1) q.chunk [] [] false else pure ()) v := by
    rw [collTake, eff_bind, checkAll_hears h]
    dsimp only
    rw [phase, show (hearCtx s p q r cmd).r.kind = 2 from kind, items]
    rfl
  rw [Gives, step]
  exact (chunkPassed_gives hv 3).2

/-- The links after what is passed on. -/
theorem net_passedOn {u : State} (phase : Nat) (hu : u.net = (taken s n p).net ++ passedOn s n p q r cmd phase) :
    if q.stage + 1 < (s.commAt p.dst q.comm).p then u.net = handed s n p (onward s p q r phase (q.stage + 1) [] [])
    else u.net = (taken s n p).net := by
  rw [hu, passedOn]
  split
  · rw [handed_onward cmd]
  · rw [List.append_nil]

/-- The packet with which a chunk's results go on, or with which the second pass begins. -/
def resultsOn (s : State) (n : Nat) (p : Packet) (q : CollPkt) (r : CollRun) (cmd : DCmd) : Packet :=
  if q.stage + 1 < (s.commAt p.dst q.comm).p then (hearCtx s p q r cmd).onPacket (taken s n p) 2 (q.stage + 1) q.chunk [] q.words
  else (hearCtx s p q r cmd).onPacket (taken s n p) 3 0 q.chunk [] []

/-- The results of another owner's chunk are written and handed on (R298). -/
theorem exec_chunk (h : CollHears s n p q r cmd ws) (kind : r.kind = 2) (phase : q.phase = 2)
    (len : ws.length = 16 * (hearCtx s p q r cmd).per + ((hearCtx s p q r cmd).per + 7) / 8)
    (free : ∀ b ∈ (hearCtx s p q r cmd).blocks q.chunk, ¬ Keyed r.flags b) : ∃ u r' m', exec (.dcollPacketArrival n) s = .next u ∧
    CollNow p.dst q.comm r.holder (taken s n p) r' { s.tileAt r.holder with spad := m' } [resultsOn s n p q r cmd] u ∧
    ResultsPut (hearCtx s p q r cmd).resOff id (chunkVal (q.chunk * (hearCtx s p q r cmd).per) ws)
      (chunkFlag (q.chunk * (hearCtx s p q r cmd).per) (hearCtx s p q r cmd).per ws) ((hearCtx s p q r cmd).blocks q.chunk) r r'
      (s.tileAt r.holder).spad m' ∧ r' = { r with flags := r'.flags, nans := r'.nans } := by
  obtain ⟨inbox, kept, more⟩ := hears_waiting h
  have words : sendable (ws.map some) = q.words := by
    obtain ⟨-, -, -, -, -, -, -, -, -, -, -, -, -, -, -, -, -, words, -⟩ := h
    rw [words, sendable, List.map_map]
    rfl
  have injective : Function.Injective fun i => q.chunk * (hearCtx s p q r cmd).per + i := fun i j same => Nat.add_left_cancel same
  have nodup : ((hearCtx s p q r cmd).blocks q.chunk).Nodup := List.nodup_range.map injective
  have all : (((hearCtx s p q r cmd).blocks q.chunk).filter fun b => !([] : List Nat).contains b) = (hearCtx s p q r cmd).blocks q.chunk :=
    List.filter_eq_self.mpr fun b _ => rfl
  obtain ⟨v, hv, go⟩ := exec_arrival h
  obtain ⟨u, ⟨r', m', hu, put, same⟩, run⟩ := go (fun _ u => ∃ r' m',
    CollNow p.dst q.comm r.holder (taken s n p) r' { s.tileAt r.holder with spad := m' } [resultsOn s n p q r cmd] u ∧
    ResultsPut (hearCtx s p q r cmd).resOff id (chunkVal (q.chunk * (hearCtx s p q r cmd).per) ws)
      (chunkFlag (q.chunk * (hearCtx s p q r cmd).per) (hearCtx s p q r cmd).per ws) ((hearCtx s p q r cmd).blocks q.chunk) r r'
      (s.tileAt r.holder).spad m' ∧ r' = { r with flags := r'.flags, nans := r'.nans }) (by
    have step : collTake (hearCtx s p q r cmd) q v = (putChunk (hearCtx s p q r cmd) q.chunk (ws.map some) >>= fun _ =>
        if q.stage + 1 < (s.commAt p.dst q.comm).p then
          collSend (hearCtx s p q r cmd) 2 (q.stage + 1) q.chunk [] (sendable (ws.map some)) false
        else collSend (hearCtx s p q r cmd) 3 0 q.chunk ((hearCtx s p q r cmd).failedBlocks q.chunk (ws.map some)) [] false) v := by
      rw [collTake, eff_bind, checkAll_hears h]
      dsimp only
      rw [phase, show (hearCtx s p q r cmd).r.kind = 2 from kind]
      rfl
    have failed := failedBlocks_nil (x := hearCtx s p q r cmd) (chunk := q.chunk) len
    rw [Gives, step, words, failed]
    have go : Gives (putChunk (hearCtx s p q r cmd) q.chunk (ws.map some)) v fun _ u => ∃ r' m',
        CollNow p.dst q.comm r.holder (taken s n p) r' { s.tileAt r.holder with spad := m' } [] u ∧
        ResultsPut (hearCtx s p q r cmd).resOff id (chunkVal (q.chunk * (hearCtx s p q r cmd).per) ws)
          (chunkFlag (q.chunk * (hearCtx s p q r cmd).per) (hearCtx s p q r cmd).per ws) ((hearCtx s p q r cmd).blocks q.chunk) r r'
          (s.tileAt r.holder).spad m' ∧ r' = { r with flags := r'.flags, nans := r'.nans } := by
      rw [putChunk, failed, all]
      refine putChunk_go_gives (x := hearCtx s p q r cmd) len nodup (fun b hb => ?_) (fun a ha c hc ne k hk => ?_) hv free
      · obtain ⟨i, hi, rfl⟩ := List.mem_map.mp hb
        rw [Nat.add_sub_cancel_left]
        exact List.mem_range.mp hi
      · exact resOff_apart h (.inr kind) (fun zero => absurd (zero.symm.trans kind) (by decide)) ha hc ne hk
    refine go.bind fun _ u ⟨r', m', hu, put, same⟩ => ?_
    unfold resultsOn
    split
    · obtain ⟨a, w, ok, hw⟩ := collSend_gives (x := hearCtx s p q r cmd) hu 2 (q.stage + 1) q.chunk [] q.words
      exact .of_eq ok ⟨r', m', hw, put, same⟩
    · obtain ⟨a, w, ok, hw⟩ := collSend_gives (x := hearCtx s p q r cmd) hu 3 0 q.chunk [] []
      exact .of_eq ok ⟨r', m', hw, put, same⟩)
  refine ⟨u, r', m', ?_, hu, put, same⟩
  rw [run, collPump_waits_hears h hu (by rw [same]) (by rw [same]) (by rw [same]; exact kept) (by rw [same]; exact inbox) rfl rfl
    (by rw [same]; exact more)]

end Ends

/-! ## The owner with every block done -/

section AllDone

variable {s : State} {n : Nat} {p : Packet} {q : CollPkt} {r : CollRun} {cmd : DCmd} {ws : List (BitVec 64)} {xs : Nat → BitVec 64}
  {bl : List Blk}

/-- Every block of the own chunk has its results once those that arrive have theirs. -/
def AllOwn (s : State) (p : Packet) (q : CollPkt) (r : CollRun) (cmd : DCmd) (bl : List Blk) : Prop :=
  againIn q r bl = [] ∧ (∀ b ∈ (hearCtx s p q r cmd).blocks (s.commAt p.dst q.comm).pos, b ∈ q.items ∨ Keyed r.flags b) ∧
    (s.commAt p.dst q.comm).pos ∉ r.done

/-- With nothing to run again, every block has results. -/
theorem againIn_nil (h : againIn q r bl = []) : ((q.items.zip bl).filter fun p => (codeIn r p).isNone) = q.items.zip bl := by
  rw [List.filter_eq_self]
  intro x hx
  have no := List.filter_eq_nil_iff.mp h x hx
  simpa using no

/-- The owner's part where it has every block's results, up to what it does then. -/
theorem OwnHears.take_all (o : OwnHears s n p q r cmd ws xs bl) (all : AllOwn s p q r cmd bl) {v : State}
    (hv : CollNow p.dst q.comm r.holder (taken s n p) r (s.tileAt r.holder) [] v) {Q : Unit → State → Prop}
    (done : ∀ u r' m', CollNow p.dst q.comm r.holder (taken s n p) r' { s.tileAt r.holder with spad := m' } [] u →
      ResultsPut (hearCtx s p q r cmd).resOff (·.1) (ownVal xs) (ownFlag (timesIn r) xs) (q.items.zip bl) r r' (s.tileAt r.holder).spad m' →
      Reran (timesIn r) (codeIn r) (q.items.zip bl) r r' →
      (∀ b ∈ (hearCtx s p q r cmd).blocks (hearCtx s p q r cmd).c.pos, Keyed r'.flags b) → Gives (ownDone (hearCtx s p q r cmd)) u Q) :
    Gives (Machine.collTake (hearCtx s p q r cmd) q) v Q := by
  obtain ⟨none, flagged, -⟩ := all
  rw [Gives, o.collTake]
  refine (o.ownBlocks hv).bind fun a u ⟨r', m', hu, ha, put, reran⟩ => ?_
  rw [againIn_nil none] at put
  rw [none] at ha
  subst a
  rw [if_neg (by simp)]
  refine done u r' m' hu put reran fun b hb => (put.keyed b).mpr ((flagged b hb).imp_left fun item => ?_)
  rwa [List.map_fst_zip o.len.ge]

/-- `ar`: the results and flags bytes go round (R298). -/
theorem OwnHears.exec_ar (o : OwnHears s n p q r cmd ws xs bl) (all : AllOwn s p q r cmd bl) (kind : r.kind = 2) : ∃ u r' m',
    exec (.dcollPacketArrival n) s = .next u ∧ CollNow p.dst q.comm r.holder (taken s n p) r' { s.tileAt r.holder with spad := m' }
      [(hearCtx s p q r cmd).onPacket (taken s n p) 2 1 q.chunk [] (roundWords (hearCtx s p q r cmd) r' m')] u ∧
    ResultsPut (hearCtx s p q r cmd).resOff (·.1) (ownVal xs) (ownFlag (timesIn r) xs) (q.items.zip bl) r r' (s.tileAt r.holder).spad m' ∧
    Reran (timesIn r) (codeIn r) (q.items.zip bl) r r' := by
  obtain ⟨inbox, kept, more⟩ := hears_waiting o.hears
  obtain ⟨v, hv, go⟩ := exec_arrival o.hears
  obtain ⟨u, ⟨r', m', hu, put, reran⟩, run⟩ := go _ (o.take_all all hv (Q := fun _ u => ∃ r' m',
    CollNow p.dst q.comm r.holder (taken s n p) r' { s.tileAt r.holder with spad := m' }
      [(hearCtx s p q r cmd).onPacket (taken s n p) 2 1 q.chunk [] (roundWords (hearCtx s p q r cmd) r' m')] u ∧
    ResultsPut (hearCtx s p q r cmd).resOff (·.1) (ownVal xs) (ownFlag (timesIn r) xs) (q.items.zip bl) r r' (s.tileAt r.holder).spad m' ∧
    Reran (timesIn r) (codeIn r) (q.items.zip bl) r r') fun u r' m' hu put reran keyed => by
      obtain ⟨a, w, ok, hw⟩ := ownDone_ar (x := hearCtx s p q r cmd) hu kind keyed (by rw [reran.same]; exact all.2.2)
      rw [show (hearCtx s p q r cmd).c.pos = q.chunk from o.own] at hw
      exact .of_eq ok ⟨r', m', hw, put, reran⟩)
  have same := reran.same
  refine ⟨u, r', m', ?_, hu, put, reran⟩
  rw [run, collPump_waits_hears o.hears hu (by rw [same]) (by rw [same]) (by rw [same]; exact kept) (by rw [same]; exact inbox) rfl rfl
    (by rw [same]; exact more)]

/-- `rs`: the news goes round and the record is posted (R297, R298). -/
theorem OwnHears.exec_rs (o : OwnHears s n p q r cmd ws xs bl) (all : AllOwn s p q r cmd bl) (kind : r.kind = 0) (errs : r.errs = false)
    (room : CollRoom (s.tileAt r.holder) cmd) : ∃ u r' m', exec (.dcollPacketArrival n) s = .next u ∧
    u.tileAt r.holder = reportedTile { s.tileAt r.holder with spad := m' } r' cmd
      (cmd.aD.data.toNat % 2 ^ 32 + 128 * (hearCtx s p q r cmd).per)
      (((hearCtx s p q r cmd).blocks (s.commAt p.dst q.comm).pos).map fun b => mapGet 0 r'.flags b) ∧
    u.net = (taken s n p).net ++ [(hearCtx s p q r cmd).onPacket (taken s n p) 2 1 q.chunk [] []] ∧
    ResultsPut (hearCtx s p q r cmd).resOff (·.1) (ownVal xs) (ownFlag (timesIn r) xs) (q.items.zip bl) r r' (s.tileAt r.holder).spad m' ∧
    Reran (timesIn r) (codeIn r) (q.items.zip bl) r r' := by
  obtain ⟨inbox, kept, more⟩ := hears_waiting o.hears
  obtain ⟨level, quiet, hcmd⟩ := hears_tile o.hears
  obtain ⟨v, hv, go⟩ := exec_arrival o.hears
  obtain ⟨u, ⟨r', m', ks, hu, put, reran⟩, run⟩ := go _ (o.take_all all hv (Q := fun _ u => ∃ r' m' ks,
    CollNow p.dst q.comm r.holder (taken s n p) (ownedRun (hearCtx s p q r cmd) r' ks)
      (reportedTile { s.tileAt r.holder with spad := m' } r' cmd (cmd.aD.data.toNat % 2 ^ 32 + 128 * (hearCtx s p q r cmd).per)
        (((hearCtx s p q r cmd).blocks (s.commAt p.dst q.comm).pos).map fun b => mapGet 0 r'.flags b))
      [(hearCtx s p q r cmd).onPacket (taken s n p) 2 1 q.chunk [] []] u ∧
    ResultsPut (hearCtx s p q r cmd).resOff (·.1) (ownVal xs) (ownFlag (timesIn r) xs) (q.items.zip bl) r r' (s.tileAt r.holder).spad m' ∧
    Reran (timesIn r) (codeIn r) (q.items.zip bl) r r') fun u r' m' hu put reran keyed => by
      have same := reran.same
      obtain ⟨a, w, ok, ks, hw⟩ := ownDone_rs (x := hearCtx s p q r cmd) hu kind (by rw [same]; exact kind) keyed
        (by rw [same]; exact all.2.2) (by rw [same]; exact errs) (cmd := cmd) room level quiet (by rw [same]; exact hcmd)
      have per : ((hearCtx s p q r cmd).blocks (hearCtx s p q r cmd).c.pos).length = (hearCtx s p q r cmd).per := by simp [CollCtx.blocks]
      rw [per] at hw
      rw [← o.own]
      exact .of_eq ok ⟨r', m', ks, hw, put, reran⟩)
  have same := reran.same
  obtain ⟨w, pump, tile, net⟩ := collPump_kept o.hears hu (by rw [same]; rfl) rfl (by rw [same]; exact inbox) 6
  exact ⟨w, r', m', by rw [run, pump], tile, net, put, reran⟩

/-- The flags byte of a block after the owner's part. -/
theorem flags_after {r' : CollRun} {m m' : Mem} {off : Nat → Nat} {mine : List (Nat × Blk)}
    (put : ResultsPut off (·.1) (ownVal xs) (ownFlag (timesIn r) xs) mine r r' m m') (b : Nat) :
    mapGet 0 r'.flags b = ((mine.find? fun x => decide (x.1 = b)).map (ownFlag (timesIn r) xs)).getD (mapGet 0 r.flags b) := by
  cases hf : mine.find? fun x => decide (x.1 = b) with
  | some x =>
    have key : x.1 = b := by simpa using List.find?_some hf
    rw [Option.map_some, Option.getD_some, ← key]
    exact put.flags x (List.mem_of_find?_eq_some hf)
  | none =>
    rw [Option.map_none, Option.getD_none]
    refine put.others b fun mem => ?_
    obtain ⟨x, hx, key⟩ := List.mem_map.mp mem
    have no := List.find?_eq_none.mp hf x hx
    exact no (decide_eq_true key)

end AllDone

end Sys2Proof.Machine
end

section
/-!
PROOFS. The end of a word with or without room for its record, and O33 assembled from the arrivals of its clauses.
-/

namespace Sys2Proof.Machine

open Sys2Proof.Claims

/-! ## What posting records leaves as it was -/

theorem traceAt_net_dies (pa : Nat) (ws : List GWord) (s : State) : (s.traceAt pa ws).net = s.net ∧ (s.traceAt pa ws).dies = s.dies := by
  unfold State.traceAt
  split
  · exact ⟨rfl, rfl⟩
  · exact ⟨rfl, rfl⟩

theorem traceRec_net_dies (s : State) (g kind idx : Nat) (v : BitVec 64) :
    (s.traceRec g kind idx v).net = s.net ∧ (s.traceRec g kind idx v).dies = s.dies := by
  by_cases off : s.dmode (g / 16) = 0
  · rw [traceRec_off off]
    exact ⟨rfl, rfl⟩
  · rw [traceRec_on off]
    exact traceAt_net_dies _ _ _

theorem postEnded_net_dies (g n : Nat) (s : State) : (s.postEnded g n).net = s.net ∧ (s.postEnded g n).dies = s.dies := by
  induction n generalizing s with
  | zero => exact ⟨rfl, rfl⟩
  | succ n ih =>
    rw [State.postEnded]
    dsimp only
    split
    · exact ⟨rfl, rfl⟩
    · rename_i c _
      obtain ⟨net, dies⟩ := ih (if c.ev = true then State.postEvent (s.setTileAt g { s.tileAt g with
        dcmds := (s.tileAt g).dcmds.filter fun x => decide (x.ref.idx ≠ c.ref.idx) }) g .D c.ref.idx ⟨eventWord 3 c.tag c.status c.count, c.pranges⟩
        else s.setTileAt g { s.tileAt g with dcmds := (s.tileAt g).dcmds.filter fun x => decide (x.ref.idx ≠ c.ref.idx) })
      rw [net, dies]
      split
      · exact traceRec_net_dies _ _ _ _ _
      · exact ⟨rfl, rfl⟩

theorem settleEnded_net_dies (g : Nat) (s : State) : (s.settleEnded g).net = s.net ∧ (s.settleEnded g).dies = s.dies := by
  unfold State.settleEnded
  split
  · exact ⟨rfl, rfl⟩
  · exact postEnded_net_dies _ _ s

/-- The end of a word leaves the links as they are, and its communicator without a run. -/
theorem collEnd_gives {x : CollCtx} {b s : State} {r : CollRun} {t : Tile} {l : List Packet} (h : CollNow x.d x.k x.g b r t l s)
    (kept : r.kept = none) :
    Gives (collEnd x false) s fun _ u => u.net = b.net ++ l ∧ u.commAt x.d x.k = { b.commAt x.d x.k with run := none } := by
  refine (curRun_gives h).bind fun a u ⟨ha, hu⟩ => ?_
  subst a u
  rw [kept]
  have report : Gives (collReport x false) s fun _ u => u.net = b.net ++ l ∧ u.commAt x.d x.k = { b.commAt x.d x.k with run := some r } := by
    refine (curRun_gives h).bind fun a u ⟨ha, hu⟩ => ?_
    subst a u
    refine Gives.whenever (Q := fun u => u.net = b.net ++ l ∧ u.commAt x.d x.k = { b.commAt x.d x.k with run := some r })
      (fun _ => ?_) (fun _ => ⟨h.net, h.comm⟩) fun u ⟨net, comm⟩ => ?_
    · obtain ⟨a, u, ok, hu⟩ := collWrite_gives h (x.dst + 128 * (if r.kind = 0 then x.blocks x.c.pos else if r.kind = 2 then List.range r.cnt
        else []).length) (flagWords ((if r.kind = 0 then x.blocks x.c.pos else if r.kind = 2 then List.range r.cnt else []).map
          fun b => mapGet 0 r.flags b))
      exact .of_eq ok ⟨hu.net, hu.comm⟩
    · refine .of_eq (modState_apply _ u) ?_
      obtain ⟨net', dies⟩ := settleEnded_net_dies x.g (u.setTileAt x.g { u.tileAt x.g with dcmds := (u.tileAt x.g).dcmds.map _ })
      exact ⟨net'.trans net, by rw [State.commAt, State.dieAt, dies]; exact comm⟩
  refine Gives.whenever (fun _ => report) (fun none => absurd rfl none) fun u ⟨net, comm⟩ => ?_
  refine .of_eq (modState_apply _ u) ⟨net, ?_⟩
  rw [commAt_setComm, comm]

section Clauses

variable {s : State} {n : Nat} {p : Packet} {q : CollPkt} {r : CollRun} {cmd : DCmd} {ws : List (BitVec 64)} {xs : Nat → BitVec 64}
  {bl : List Blk}

/-- The arrival, where the unit takes the packet and the word then ends, whether its record can be posted or not. -/
theorem exec_arrival_finishes (h : CollHears s n p q r cmd ws) {r' : CollRun} {l : List Packet}
    (take : ∀ v, CollNow p.dst q.comm r.holder (taken s n p) r (s.tileAt r.holder) [] v →
      Gives (collTake (hearCtx s p q r cmd) q) v fun _ u => CollNow p.dst q.comm r.holder (taken s n p) r' (s.tileAt r.holder) l u)
    (holder : r'.holder = r.holder) (idx : r'.idx = r.idx) (kept : r'.kept = none)
    (finished : (s.commAt p.dst q.comm).p ≤ r'.done.length) :
    ∃ u, exec (.dcollPacketArrival n) s = .next u ∧ u.net = (taken s n p).net ++ l := by
  obtain ⟨v, hv, go⟩ := exec_arrival h
  obtain ⟨u, hu, run⟩ := go _ (take v hv)
  obtain ⟨-, -, -, -, -, queue, -, -, -, -, -, -, lt, -, cut, -, hcmd, -, ha, hd, -⟩ := h
  have ctx := hu.collCtx holder lt kept cut (idx ▸ hcmd) ha hd
  rw [commAt_taken] at ctx
  obtain ⟨a, w, ok, net, comm⟩ := collEnd_gives (x := ⟨p.dst, q.comm, { s.commAt p.dst q.comm with run := some r' }, r', r.holder,
    cmd.aA.data.toNat % 2 ^ 32, cmd.aD.data.toNat % 2 ^ 32⟩) hu kept
  obtain ⟨w, net, -, pump⟩ := collPump_ends (Q := fun _ w => w.net = (taken s n p).net ++ l) hu.run ctx (decide_eq_true finished)
    (.of_eq ok ⟨net, by rw [comm], by rw [comm, commAt_taken]; exact queue⟩) 6
  exact ⟨w, by rw [run, pump], net⟩

/-- The words of results that go round (R298). -/
theorem roundWords_spec (s : State) (p : Packet) (q : CollPkt) (r : CollRun) (cmd : DCmd) (r' : CollRun) (m : Mem) :
    let x := hearCtx s p q r cmd
    (roundWords x r' m).length = 16 * x.per + (x.per + 7) / 8 ∧
    (∀ i < x.per, ∀ k < 16, (roundWords x r' m)[16 * i + k]? = some (m.read (x.resOff (x.c.pos * x.per + i) + 8 * k))) ∧
    ∀ k < (x.per + 7) / 8, (roundWords x r' m)[16 * x.per + k]? =
      some (gloved (wordOf 8 fun j => ((x.blocks x.c.pos).map fun b => mapGet 0 r'.flags b).getD (8 * k + j) 0)) := by
  intro x
  have per : (x.blocks x.c.pos).length = x.per := by simp [CollCtx.blocks]
  have rows (b : Nat) : ((List.range 16).map fun k => m.read (x.resOff b + 8 * k)).length = 16 := by simp
  have rowsLength : ((x.blocks x.c.pos).flatMap fun b => (List.range 16).map fun k => m.read (x.resOff b + 8 * k)).length = 16 * x.per := by
    rw [flatMap_rows_length rows, per]
  refine ⟨?_, fun i hi k hk => ?_, fun k hk => ?_⟩
  · rw [roundWords, List.length_append, rowsLength, flagWords_length, List.length_map, per]
  · have block : (x.blocks x.c.pos)[i]? = some (x.c.pos * x.per + i) := by simp [CollCtx.blocks, hi]
    rw [roundWords, getElem?_flatMap_rows rows _ block hk]
    simp [hk]
  · rw [roundWords, List.getElem?_append_right (by omega), rowsLength, Nat.add_sub_cancel_left, flagWords, List.length_map, per, List.getElem?_map,
      List.getElem?_range hk, Option.map_some]

/-- The words of a block in the results of another owner. -/
theorem wordOf_chunkVal (base i k : Nat) (ws : List (BitVec 64)) :
    (wordOf 32 fun j => chunkVal base ws (base + i) (2 * k + j)) = ws.getD (16 * i + k) 0#64 := by
  rw [← wordOf_elemOf (w := 32) (by decide) (ws.getD (16 * i + k) 0#64)]
  refine wordOf_congr fun j hj => ?_
  have small : j < 2 := hj
  rw [chunkVal, Nat.add_sub_cancel_left, show (2 * k + j) / 2 = k by omega, show (2 * k + j) % 2 = j by omega]

/-- What a reported tile has of the word's end. -/
theorem collEnds_reported {u : State} {t : Tile} {r' : CollRun} {m : Mem} {off : Nat} {fl : List Nat} (ht : t = s.tileAt r.holder)
    (tile : u.tileAt r.holder = reportedTile { t with spad := m } r' cmd off fl) (idx : r'.idx = r.idx) :
    CollEnds s u r cmd (reducedStatus fl) r'.nans ∧ FlagsAt (u.tileAt r.holder).spad off fl := by
  subst ht
  rw [CollEnds, tile]
  exact ⟨⟨by rw [← idx]; rfl, rfl⟩, flagsAt_writeList _ _ _⟩

/-- Results stand below the flags bytes. -/
theorem read_reported {t : Tile} {r' : CollRun} {off a : Nat} {fl : List Nat} (h : a / 8 < off / 8) :
    (reportedTile t r' cmd off fl).spad.read a = t.spad.read a := read_writeList_outside (.inl h)

end Clauses

end Sys2Proof.Machine
end

section
/-!
PROOFS. O33: what the arrivals of each clause leave, as the statement puts it.
-/

namespace Sys2Proof.Machine

open Sys2Proof.Claims

section Outcomes

variable {s : State} {n : Nat} {p : Packet} {q : CollPkt} {r : CollRun} {cmd : DCmd} {ws : List (BitVec 64)} {xs : Nat → BitVec 64}
  {bl : List Blk}

/-- The results of block `b` stand at the word's destination. -/
def HoldsBlock (s : State) (p : Packet) (q : CollPkt) (r : CollRun) (cmd : DCmd) (u : State) (b : Nat) (y : Nat → Nat) : Prop :=
  ∀ k < 16, (u.tileAt r.holder).spad.read ((hearCtx s p q r cmd).resOff b + 8 * k) = gloved (wordOf 32 fun j => y (2 * k + j))

/-- The flags byte of a block once the blocks of a packet have their results. -/
def flagThen (q : CollPkt) (r : CollRun) (xs : Nat → BitVec 64) (bl : List Blk) (b : Nat) : Nat :=
  (((q.items.zip bl).find? fun x => decide (x.1 = b)).map (ownFlag (timesIn r) xs)).getD (mapGet 0 r.flags b)

/-- The owner sends the blocks that go round again, with the others' results written (R297). -/
theorem OwnHears.sends_reruns (o : OwnHears s n p q r cmd ws xs bl) (some : againIn q r bl ≠ []) : ∃ u ws',
    exec (.dcollPacketArrival n) s = .next u ∧
    PackIs ((againIn q r bl).map fun x => ⟨List.replicate 32 0, (codeIn r x).getD 0, 4 * (timesIn r x.1 + 1)⟩) ws' ∧
    u.net = handed s n p (onward s p q r 0 0 ((againIn q r bl).map (·.1)) (ws'.map gloved)) ∧
    (∀ x ∈ q.items.zip bl, codeIn r x = none → HoldsBlock s p q r cmd u x.1 (ownVal xs x)) ∧
    ∃ r', (u.commAt p.dst q.comm).run = .some r' ∧
      r'.nans = r.nans + (((q.items.zip bl).filter fun x => (codeIn r x).isNone).map fun x => nanCount (ownVal xs x)).sum ∧ r'.done = r.done ∧
      (∀ x ∈ q.items.zip bl, ∀ z, codeIn r x = .some z →
        mapGet 0 r'.reruns x.1 = timesIn r x.1 + 1 ∧ mapGet r.scode r'.scales x.1 = z) ∧
      ∀ x ∈ q.items.zip bl, codeIn r x = none → mapGet 0 r'.flags x.1 = ownFlag (timesIn r) xs x := by
  obtain ⟨u, ws', r', m', run, packed, hu, put, reran⟩ := o.exec_again some
  have finished {x : Nat × Blk} (hx : x ∈ q.items.zip bl) (none : codeIn r x = none) :
      x ∈ (q.items.zip bl).filter fun p => (codeIn r p).isNone := List.mem_filter.mpr ⟨hx, by rw [none]; rfl⟩
  refine ⟨u, ws', run, packed, ?_, fun x hx none k hk => ?_, r', hu.run, put.nans, by rw [reran.same], reran.again,
    fun x hx none => put.flags x (finished hx none)⟩
  · rw [handed_onward cmd, hu.net]
  · rw [hu.tile]
    exact put.words x (finished hx none) k hk

/-- `rs` with every own block done: the news goes round, the results and flags bytes stand, and the record is posted (R297, R298). -/
theorem OwnHears.ends_rs (o : OwnHears s n p q r cmd ws xs bl) (all : AllOwn s p q r cmd bl) (kind : r.kind = 0) (errs : r.errs = false)
    (room : CollRoom (s.tileAt r.holder) cmd) : ∃ u, exec (.dcollPacketArrival n) s = .next u ∧
    (∀ x ∈ q.items.zip bl, HoldsBlock s p q r cmd u x.1 (ownVal xs x)) ∧ u.net = handed s n p (onward s p q r 2 1 [] []) ∧
    FlagsAt (u.tileAt r.holder).spad (cmd.aD.data.toNat % 2 ^ 32 + 128 * (hearCtx s p q r cmd).per)
      (((hearCtx s p q r cmd).blocks (s.commAt p.dst q.comm).pos).map (flagThen q r xs bl)) ∧
    CollEnds s u r cmd (reducedStatus (((hearCtx s p q r cmd).blocks (s.commAt p.dst q.comm).pos).map (flagThen q r xs bl)))
      (r.nans + ((q.items.zip bl).map fun x => nanCount (ownVal xs x)).sum) := by
  obtain ⟨u, r', m', run, tile, net, put, reran⟩ := o.exec_rs all kind errs room
  have flags : (((hearCtx s p q r cmd).blocks (s.commAt p.dst q.comm).pos).map fun b => mapGet 0 r'.flags b) =
      ((hearCtx s p q r cmd).blocks (s.commAt p.dst q.comm).pos).map (flagThen q r xs bl) :=
    List.map_congr_left fun b _ => flags_after put b
  rw [flags] at tile
  obtain ⟨ends, bytes⟩ := collEnds_reported rfl tile (by rw [reran.same])
  rw [put.nans] at ends
  refine ⟨u, run, fun x hx k hk => ?_, by rw [handed_onward cmd, net], bytes, ends⟩
  obtain ⟨i, hi, same⟩ := List.mem_map.mp (o.blocks _ (List.of_mem_zip hx).1).1
  have within : i < (hearCtx s p q r cmd).per := List.mem_range.mp hi
  have place : x.1 - (s.commAt p.dst q.comm).pos * (hearCtx s p q r cmd).per = i := by
    rw [← same]
    exact Nat.add_sub_cancel_left ..
  have align := hears_dst o.hears
  rw [tile, read_reported (by rw [resOff_hears, if_pos kind, place]; omega)]
  exact put.words x hx k hk

/-- `ar` with every own block done: the results and flags bytes go round (R298). -/
theorem OwnHears.sends_results (o : OwnHears s n p q r cmd ws xs bl) (all : AllOwn s p q r cmd bl) (kind : r.kind = 2) : ∃ u ws',
    exec (.dcollPacketArrival n) s = .next u ∧ (∀ x ∈ q.items.zip bl, HoldsBlock s p q r cmd u x.1 (ownVal xs x)) ∧
    u.net = handed s n p (onward s p q r 2 1 [] ws') ∧
    ws'.length = 16 * (hearCtx s p q r cmd).per + ((hearCtx s p q r cmd).per + 7) / 8 ∧
    (∀ i < (hearCtx s p q r cmd).per, ∀ k < 16, ws'[16 * i + k]? = some ((u.tileAt r.holder).spad.read
      ((hearCtx s p q r cmd).resOff ((s.commAt p.dst q.comm).pos * (hearCtx s p q r cmd).per + i) + 8 * k))) ∧
    (∀ k < ((hearCtx s p q r cmd).per + 7) / 8, ws'[16 * (hearCtx s p q r cmd).per + k]? = some (gloved (wordOf 8 fun j =>
      (((hearCtx s p q r cmd).blocks (s.commAt p.dst q.comm).pos).map (flagThen q r xs bl)).getD (8 * k + j) 0))) ∧
    ∃ r', (u.commAt p.dst q.comm).run = some r' ∧
      r'.nans = r.nans + ((q.items.zip bl).map fun x => nanCount (ownVal xs x)).sum ∧ r'.done = r.done := by
  obtain ⟨u, r', m', run, hu, put, reran⟩ := o.exec_ar all kind
  have flags : (((hearCtx s p q r cmd).blocks (s.commAt p.dst q.comm).pos).map fun b => mapGet 0 r'.flags b) =
      ((hearCtx s p q r cmd).blocks (s.commAt p.dst q.comm).pos).map (flagThen q r xs bl) :=
    List.map_congr_left fun b _ => flags_after put b
  obtain ⟨length, results, bytes⟩ := roundWords_spec s p q r cmd r' m'
  refine ⟨u, _, run, fun x hx k hk => ?_, by rw [handed_onward cmd, hu.net], length, ?_, ?_, r', hu.run, put.nans, by rw [reran.same]⟩
  · rw [hu.tile]
    exact put.words x hx k hk
  · rw [hu.tile]
    exact results
  · rw [← flags]
    exact bytes

/-- News of a chunk of `rs` at another position, which still waits for more (R298). -/
theorem rs_passes_news (h : CollHears s n p q r cmd ws) (kind : r.kind = 0) (phase : q.phase = 2)
    (more : r.done.length + 1 < (s.commAt p.dst q.comm).p) : ∃ u, exec (.dcollPacketArrival n) s = .next u ∧
    u.tileAt r.holder = s.tileAt r.holder ∧
    (if q.stage + 1 < (s.commAt p.dst q.comm).p then u.net = handed s n p (onward s p q r 2 (q.stage + 1) [] [])
      else u.net = (taken s n p).net) ∧
    (u.commAt p.dst q.comm).run = some { r with done := q.chunk :: r.done } := by
  obtain ⟨inbox, kept, -⟩ := hears_waiting h
  obtain ⟨u, run, hu⟩ := exec_arrival_waits h (collTake_news h kind phase) rfl rfl kept inbox rfl rfl more
  exact ⟨u, run, hu.tile, net_passedOn 2 hu.net, hu.run⟩

/-- The results of another owner's chunk of `ar` are written, with their flags bytes, and handed on (R298). -/
theorem ar_writes_chunk (h : CollHears s n p q r cmd ws) (kind : r.kind = 2) (phase : q.phase = 2)
    (len : ws.length = 16 * (hearCtx s p q r cmd).per + ((hearCtx s p q r cmd).per + 7) / 8)
    (free : ∀ b ∈ (hearCtx s p q r cmd).blocks q.chunk, ¬ Keyed r.flags b) : ∃ u, exec (.dcollPacketArrival n) s = .next u ∧
    (∀ i < (hearCtx s p q r cmd).per, ∀ k < 16, (u.tileAt r.holder).spad.read
      ((hearCtx s p q r cmd).resOff (q.chunk * (hearCtx s p q r cmd).per + i) + 8 * k) = gloved (ws.getD (16 * i + k) 0#64)) ∧
    u.net = handed s n p (if q.stage + 1 < (s.commAt p.dst q.comm).p then onward s p q r 2 (q.stage + 1) [] q.words
      else onward s p q r 3 0 [] []) ∧
    ∃ r', (u.commAt p.dst q.comm).run = some r' ∧ r'.done = r.done ∧
      (∀ i < (hearCtx s p q r cmd).per, mapGet 0 r'.flags (q.chunk * (hearCtx s p q r cmd).per + i) =
        elemOf 8 (ws.getD (16 * (hearCtx s p q r cmd).per + i / 8) 0#64) (i % 8)) ∧
      r'.nans = r.nans + ((List.range (hearCtx s p q r cmd).per).map fun i =>
        nanCount fun e => elemOf 32 (ws.getD (16 * i + e / 2) 0#64) (e % 2)).sum := by
  obtain ⟨u, r', m', run, hu, put, same⟩ := exec_chunk h kind phase len free
  have block {i : Nat} (hi : i < (hearCtx s p q r cmd).per) :
      q.chunk * (hearCtx s p q r cmd).per + i ∈ (hearCtx s p q r cmd).blocks q.chunk := List.mem_map_of_mem (List.mem_range.mpr hi)
  refine ⟨u, run, fun i hi k hk => ?_, ?_, r', hu.run, by rw [same], fun i hi => ?_, ?_⟩
  · rw [hu.tile, ← wordOf_chunkVal (q.chunk * (hearCtx s p q r cmd).per) i k ws]
    exact put.words _ (block hi) k hk
  · rw [hu.net, resultsOn]
    split
    · rw [handed_onward cmd]
    · rw [handed_onward cmd]
  · have flag := put.flags _ (block hi)
    rw [chunkFlag, Nat.add_sub_cancel_left] at flag
    exact flag
  · rw [put.nans, CollCtx.blocks, List.map_map]
    congr 2
    refine List.map_congr_left fun i _ => ?_
    rw [Function.comp_apply]
    unfold chunkVal
    rw [Nat.add_sub_cancel_left]

/-- A chunk of `ar` that has gone round: the second pass goes on, and with the last chunk the word ends (R298). -/
theorem ar_closes_chunk (h : CollHears s n p q r cmd ws) (kind : r.kind = 2) (phase : q.phase = 3) (items : q.items = [])
    (errs : r.errs = false) : ∃ u, exec (.dcollPacketArrival n) s = .next u ∧
    (if q.stage + 1 < (s.commAt p.dst q.comm).p then u.net = handed s n p (onward s p q r 3 (q.stage + 1) [] [])
      else u.net = (taken s n p).net) ∧
    (r.done.length + 1 < (s.commAt p.dst q.comm).p → u.tileAt r.holder = s.tileAt r.holder ∧
      (u.commAt p.dst q.comm).run = some { r with done := q.chunk :: r.done }) ∧
    ((s.commAt p.dst q.comm).p = r.done.length + 1 → CollRoom (s.tileAt r.holder) cmd →
      FlagsAt (u.tileAt r.holder).spad (cmd.aD.data.toNat % 2 ^ 32 + 128 * r.cnt) ((List.range r.cnt).map fun b => mapGet 0 r.flags b) ∧
      CollEnds s u r cmd (reducedStatus ((List.range r.cnt).map fun b => mapGet 0 r.flags b)) r.nans ∧
      (u.commAt p.dst q.comm).run = none) := by
  obtain ⟨inbox, kept, below⟩ := hears_waiting h
  by_cases more : r.done.length + 1 < (s.commAt p.dst q.comm).p
  · obtain ⟨u, run, hu⟩ := exec_arrival_waits h (collTake_closing h kind phase items) rfl rfl kept inbox rfl rfl more
    exact ⟨u, run, net_passedOn 3 hu.net, fun _ => ⟨hu.tile, hu.run⟩, fun last => absurd more (by omega)⟩
  · have finished : (s.commAt p.dst q.comm).p ≤ ({ r with done := q.chunk :: r.done } : CollRun).done.length := not_lt.mp more
    obtain ⟨u, run, net⟩ := exec_arrival_finishes h (collTake_closing h kind phase items) rfl rfl kept finished
    refine ⟨u, run, net_passedOn 3 net, fun less => absurd less more, fun _ room => ?_⟩
    obtain ⟨w, run', tile, -, none⟩ := exec_arrival_ends h (collTake_closing h kind phase items) rfl rfl kept kind errs finished room
    obtain rfl : u = w := Host.Outcome.next.inj (run.symm.trans run')
    obtain ⟨ends, bytes⟩ := collEnds_reported rfl tile rfl
    exact ⟨bytes, ends, none⟩

end Outcomes

end Sys2Proof.Machine

namespace Sys2Proof.Proofs

open Sys2Proof.Machine Sys2Proof.Claims

/-- Settles O33, by one arrival lemma for each part that a position can have in a chunk's round. -/
theorem collectiveReductionResult : Obligations.CollectiveReductionResult := by
  unfold Obligations.CollectiveReductionResult
  intro n q r cmd p ws xs bl s h errs kind c t per chunk dst src at' goes ran holds
  refine ⟨fun phase source len pack scales items => ⟨fun other => ?_, fun own nodup notDone blocks apart => ?_⟩, ?_, ?_, ?_⟩
  · exact exec_hop h kind phase source len pack scales items other
  · have o : OwnHears s n p q r cmd ws xs bl := ⟨h, kind, phase, source, len, pack, items, own, nodup, blocks, apart⟩
    intro times code mine again result flag nans flags all
    refine ⟨fun some => o.sends_reruns some, fun done room => ?_⟩
    have every : AllOwn s p q r cmd bl := ⟨done.1, done.2, notDone⟩
    have sums : nans = r.nans + (mine.map fun x => nanCount (ownVal xs x)).sum := by
      have finished : (mine.filter fun x => (code x).isNone) = mine := againIn_nil done.1
      change r.nans + ((mine.filter fun x => (code x).isNone).map fun x => nanCount (result x)).sum = _
      rw [finished]
      rfl
    obtain zero | two := kind
    · obtain ⟨u, run, results, net, bytes, ends⟩ := o.ends_rs every zero errs room
      refine ⟨u, run, results, fun _ => ⟨net, bytes, ?_⟩, fun two => absurd (zero.symm.trans two) (by decide)⟩
      rw [sums]
      exact ends
    · obtain ⟨u, ws', run, results, net, length, words, bytes, r', hr, nan, same⟩ := o.sends_results every two
      refine ⟨u, run, results, fun zero => absurd (zero.symm.trans two) (by decide), fun _ => ⟨ws', net, length, words, bytes, r', hr, ?_, same⟩⟩
      rw [sums]
      exact nan
  · exact fun zero phase more => rs_passes_news h zero phase more
  · exact fun two phase length free => ar_writes_chunk h two phase length fun b hb ⟨x, hx, same⟩ => free b hb x hx same
  · exact fun two phase none => ar_closes_chunk h two phase none errs

end Sys2Proof.Proofs
end
